-- ==== Sys2Proof/Word.lean ====
section
/-! DEFINITION. Word.lean: the plain word types every other file uses. -/

namespace Sys2Proof

/-- A 64-bit word value. -/
abbrev W64 := BitVec 64

/-- A 32-bit register value. -/
abbrev W32 := BitVec 32

/-- A byte. -/
abbrev Byte := BitVec 8

/-- A tagged word of a pilot register, a cask, the cellar or Harbourmaster memory (R307):
64 bits of value and a 4-bit tag code.  The 8 ECC bits are not held (log 5). -/
structure TWord where
  val : BitVec 64
  tag : BitVec 4
deriving DecidableEq, Repr

end Sys2Proof
end

