-- ==== Sys2Proof/Syntax.lean ====
section
/-! DEFINITION. Syntax.lean: the commands of the block, one constructor per row of the opcode table,
with the operands the spec gives the row's operation or event. -/

namespace Sys2Proof

/-- Who makes a register access (R5, R7, R573): the control port, a pilot in the open or the sealed
world, the Harbourmaster, or the debug window with the rights of R541. -/
inductive Requester where
  | ctl
  | pilot (p : Nat) (isSealed : Bool)
  | hm
  | dbg
deriving DecidableEq, Repr

/-- A pilot instruction in the RRR format (R317), every field raw. -/
structure RRR where
  p : Nat
  g : BitVec 4
  d : BitVec 5
  s : BitVec 5
  t : BitVec 5
deriving DecidableEq, Repr

/-- A pilot instruction in the RRI format (R317). -/
structure RRI where
  p : Nat
  g : BitVec 4
  d : BitVec 5
  s : BitVec 5
  imm : BitVec 12
deriving DecidableEq, Repr

/-- A pilot instruction in the RI format (R317). -/
structure RIF where
  p : Nat
  g : BitVec 4
  d : BitVec 5
  imm : BitVec 17
deriving DecidableEq, Repr

/-- A pilot instruction in the BR format (R317). -/
structure BRF where
  p : Nat
  g : BitVec 4
  off : BitVec 22
deriving DecidableEq, Repr

/-- A pilot instruction in the LP format (R317): K, RC, CNT and END. -/
structure LPF where
  p : Nat
  g : BitVec 4
  k : BitVec 2
  rc : BitVec 1
  cnt : BitVec 9
  fin : BitVec 10
deriving DecidableEq, Repr

/-- A pilot instruction in the long form L (R317): word 0, whose low 12 bits must be 0, and IMM32. -/
structure LF where
  p : Nat
  g : BitVec 4
  d : BitVec 5
  s : BitVec 5
  z : BitVec 12
  imm : BitVec 32
deriving DecidableEq, Repr

/-- An MFC or MTC whose control-register number the row itself names (EVTAKE, EVEOI, RELTAKE,
WDKICK, STIM). -/
structure CRF where
  p : Nat
  g : BitVec 4
  d : BitVec 5
  s : BitVec 5
deriving DecidableEq, Repr

/-- A write of one aligned dword of a ring page (R75, R76): the landward port it arrives on, the ring
whose page it names, its byte enables and its data. -/
structure PageWrite where
  lp : Nat
  ring : Nat
  be : BitVec 4
  data : BitVec 32
deriving DecidableEq, Repr

/-- A mooring: the embedded one of an own entry, or a standalone one (R134). -/
inductive MoorRef where
  | emb (idx : Nat)
  | alone (n : Nat)
deriving DecidableEq, Repr

/-- The header of a received Placia frame (R196) with what the receiving port adds: the arrival port,
whether the CRC trailer matches (R197) and whether LEN fits the received bytes (R198). -/
structure Hdr where
  port : Nat
  crcOk : Bool
  fits : Bool
  known : Bool
  room : Bool
  ver : BitVec 4
  lane : BitVec 3
  u : Bool
  av : Bool
  rx : Bool
  len : BitVec 16
  src : BitVec 16
  dst : BitVec 16
  epoch : BitVec 16
  crlane : BitVec 3
  crd : BitVec 13
  seq : BitVec 32
  ack : BitVec 32
  hid : BitVec 32
deriving DecidableEq, Repr

/-- One record unit of a MIRROR body (R217): the 16-byte head and the 32-byte image. -/
structure MUnit where
  rseq : BitVec 32
  rtype : BitVec 3
  index : BitVec 19
  tsend : BitVec 64
  m0 : BitVec 64
  m1 : BitVec 64
  m2 : BitVec 64
  m3 : BitVec 64
deriving DecidableEq, Repr

/-- The fields of a HEARTBEAT message (R200). -/
structure HbBody where
  eseen : BitVec 16
  mode : BitVec 3
  tstate : BitVec 3
  stratum : BitVec 4
deriving DecidableEq, Repr

/-- The fields of one part of a MEMBER message (R200). -/
structure MemberBody where
  role : BitVec 2
  mode : BitVec 3
  twin : BitVec 16
  tstate : BitVec 3
  part : BitVec 8
  nparts : BitVec 8
  nguids : List (BitVec 128)
deriving DecidableEq, Repr

/-- What a lighter meets while it moves an order's bytes: whether a landward read of the order's data
failed, the data those reads returned, the cipher engine's output and its GCM tags of 16 bytes a block, the index of
the first logical block whose tag mismatched, that of the first block whose generation the engine does not hold, whether
a SEA path went down, and the fc that the order's beats waited on cellar banks that a pilot held (R253). -/
structure LMove where
  hostErr : Bool
  host : List (BitVec 8)
  engine : List (BitVec 8)
  tags : List (BitVec 8)
  authFail : Option Nat
  notHeld : Option Nat
  pathLost : Bool
  waits : List (Nat × Nat)
deriving DecidableEq, Repr

/-- What a namespace reports to Identify (R273). -/
structure NsInfo where
  nsid : BitVec 32
  nguid : BitVec 128
  nsze : BitVec 64
  lba4k : Bool
  lbaOk : Bool
  dps : BitVec 8
  ms : BitVec 16
  sepMeta : Bool
  nmic : Bool
  rescap4 : Bool
  zeroRead : Bool
deriving DecidableEq, Repr

/-- What a controller answers during its start (R273, R274). -/
structure CtlInfo where
  cssNvm : Bool
  mpsmin : BitVec 4
  mqes : BitVec 16
  capTo : BitVec 8
  dstrd : BitVec 4
  mdts : BitVec 8
  cntlid : BitVec 16
  crdt1 : BitVec 16
  crdt2 : BitVec 16
  crdt3 : BitVec 16
  oncs : BitVec 16
  fuses : BitVec 16
  cmic : BitVec 8
  nioq : Nat
  failStep : Option Nat
  spaces : List NsInfo
deriving DecidableEq, Repr

/-- What a device command has exceeded, or why it is aborted (R143, R282): an I/O command its timeout, recovery firmware's
choice, or an admin command its timeout. -/
inductive ResetCause where
  | cto
  | recovery
  | admin
deriving DecidableEq, Repr

/-- A device command that its queue gives up (R282): its identifier, and the cause. -/
structure LateCmd where
  cid : BitVec 16
  cause : ResetCause
deriving DecidableEq, Repr

/-- A fence-log record as read back from a device (R299), with the verdict of its CRC. -/
structure FenceRec where
  crcOk : Bool
  fseq : BitVec 32
  writer : BitVec 16
  handle : BitVec 64
  opcode : BitVec 8
  wpres : Bool
  cpres : Bool
  nlb : BitVec 16
  slba : BitVec 64
  wimg : BitVec 64
  cimg : BitVec 64
  tt : BitVec 64
deriving DecidableEq, Repr

/-- Which read of the block a quay completion answers (R566, R33, R35, R28).  QTAG names the reader;
the model names it by the exchange or unit that reads (log 12). -/
inductive Reader where
  | word (idx : Nat)
  | glist (idx : Nat)
  | key (idx : Nat)
  | payload (idx : Nat)
  | probe (c : Nat)
deriving DecidableEq, Repr

/-- The quay packet that brings a completion: what R562 and R566 judge. -/
structure QuayCpl where
  port : Nat
  lane : BitVec 3
  noCredit : Bool
  gap : Bool
  badLen : Bool
  badLane : Bool
  cst : BitVec 3
  err : Bool
  data : List (BitVec 64)
deriving DecidableEq, Repr

/-- The contents of a loaded microcode image (R417): the non-zero micro-words and nano-words by address. -/
structure UImage where
  micro : List (Nat × BitVec 48)
  nano : List (Nat × BitVec 128)
deriving DecidableEq, Repr

/-- A vintage or graft envelope as the loader meets it (R416, R418): the header fields and the
verdicts of the signature, tag and digest checks. -/
structure Envelope where
  fmtOk : Bool
  kind : BitVec 16
  version : BitVec 32
  svn : BitVec 32
  isa : BitVec 8
  cxfmt : BitVec 8
  config : BitVec 8
  plenOk : Bool
  keyset : BitVec 8
  ecdsaOk : Bool
  mldsaOk : Bool
  tagOk : Bool
  digestOk : Bool
  image : UImage
  gmask : BitVec 32
  gmatch : List (BitVec 32)
deriving DecidableEq, Repr

/-- One register write of a REGS section (R495). -/
structure RegsEntry where
  off : BitVec 32
  width : BitVec 8
  rsv : Bool
  value : BitVec 64
deriving DecidableEq, Repr

/-- One section of a charter's plaintext (R493, R494). -/
inductive Section where
  | identity (hid : BitVec 32) (num : BitVec 16) (role : BitVec 8) (twin : BitVec 16) (rsvOk : Bool)
  | vintage (cmask : BitVec 16) (bank : Bool) (select : Bool) (env : Envelope)
  | graft (env : Envelope)
  | code (cmask : BitVec 16) (off : BitVec 18) (words : List (BitVec 32))
  | regs (entries : List RegsEntry)
  | hmcode (off : BitVec 21) (words : List (BitVec 64))
  | fin
  | bad
deriving DecidableEq, Repr

/-- The key block and envelope header of a charter slot as read and judged (R490 to R492, R507):
erased, unreadable, key block verdict, key set presence, and the envelope. -/
structure SlotHdr where
  erased : Bool
  flashErr : Bool
  keyBlockOk : Bool
  keySet1 : Bool
  env : Envelope
deriving DecidableEq, Repr

/-- The results of Proving (R497). -/
structure ProveRes where
  sramOk : Bool
  sweepFail : List Nat
  pilotFail : List Nat
  portFail : List Nat
deriving DecidableEq, Repr

/-- A mailbox command's operands (R532): SEQ and the four arguments. -/
structure Mbx where
  seq : BitVec 8
  a0 : BitVec 64
  a1 : BitVec 64
  a2 : BitVec 64
  a3 : BitVec 64
deriving DecidableEq, Repr

/-- The commands of the Ozlas block, one constructor per row of spec/opcode_table.json. -/
inductive Instr where
  -- rings, exchanges and admission
  | submissionDoorbell (w : PageWrite)
  | completionDoorbell (w : PageWrite)
  | resume (w : PageWrite)
  | cancel (w : PageWrite)
  | maskWrite (w : PageWrite)
  | ringEnable (rq : Requester) (n : Nat) (v : BitVec 32)
  | ringDisable (rq : Requester) (n : Nat) (v : BitVec 32)
  | venClear (rq : Requester) (n : Nat) (v : BitVec 32)
  | ltolWrite (rq : Requester) (n : Nat) (v : BitVec 32)
  | stampExamine
  | entryDue (n : Nat)
  | admissionPick
  | apick (f : RRR)
  | pickReadDone (p : Nat) (ok : Bool) (data : List (BitVec 64))
  | aend (f : RRR)
  | declineFinalRecord (n : Nat)
  | heldRecordWrite (idx : Nat)
  | finalRecordWrite (n : Nat)
  | holdoffExpiry (n : Nat)
  | holdExpiry (idx : Nat)
  | planeBurstRevoke (plane : Nat)
  -- the Manifest and moorings
  | malloc (f : RRR)
  | mallocG (f : RRR)
  | mallocS (f : RRR)
  | mallocV (f : RRR)
  | mget (f : RRR)
  | mput (f : RRR)
  | mstep (f : RRR)
  | mwack (f : RRR)
  | mdecl (f : RRR)
  | moor (f : RRR)
  | unmoor (f : RRR)
  | mnoteW (f : RRR)
  | mnoteR (f : RRR)
  | mforce (f : RRR)
  | mrq (f : RRR)
  | mscan (f : RRR) (upto : Option Nat)
  | mglean (f : RRR)
  | gleanerResume
  | gleanerDone
  | leaseExpiry (m : MoorRef)
  | rollbackComplete (idx : Nat)
  -- Placia and the twin
  | mirror (h : Hdr) (units : List MUnit)
  | mack (h : Hdr) (cum : BitVec 32)
  | mirrorFrameSend
  | heartbeatSend
  | heartbeat (h : Hdr) (b : HbBody)
  | hbsusp (h : Hdr)
  | pathMissedInterval (p : Nat)
  | pathEnable (rq : Requester) (p : Nat) (v : BitVec 32)
  | pathDisable (rq : Requester) (p : Nat) (v : BitVec 32)
  | ack (h : Hdr) (sack : BitVec 64) (q1 : BitVec 64) (q2 : BitVec 64)
  | retransmitTimer (p : Nat) (lane : BitVec 3) (seq : BitVec 32)
  | memberSend
  | member (h : Hdr) (b : MemberBody)
  | memberDrop (num : BitVec 16)
  | fenced (h : Hdr)
  | unpairMessage (h : Hdr)
  | pair (h : Hdr)
  | pairAck (h : Hdr)
  | pairSend
  | drowseReq (h : Hdr)
  | drowseAck (h : Hdr)
  | wake (h : Hdr)
  | wakeTimeout
  | fence (h : Hdr) (num : BitVec 16)
  | rcmd (h : Hdr) (rqid : BitVec 32) (berth : BitVec 16) (fused : Bool) (sqe : List (BitVec 64))
  | rdata (h : Hdr) (rqid : BitVec 32) (off : BitVec 32) (last : Bool) (data : List (BitVec 8))
  | rcpl (h : Hdr) (rqid : BitVec 32) (rstat : BitVec 3) (st : List (BitVec 15))
  | noentRetry (idx : Nat)
  | abort (h : Hdr) (rqid : BitVec 32)
  | quiesce (h : Hdr) (berth : BitVec 16)
  | quiesceAckSend (berth : BitVec 16)
  | quiesceAck (h : Hdr) (berth : BitVec 16)
  | tideRequestSend
  | tideRequest (h : Hdr) (tagid : BitVec 8) (t1 : BitVec 64)
  | tideResponse (h : Hdr) (stratum : BitVec 4) (tagid : BitVec 8) (t1 : BitVec 64) (t2 : BitVec 64) (t3 : BitVec 64)
  | tideSlew
  | missedInterval
  | clockRaiseHoldEnd
  | twinDeclaredLost
  | fencingStart
  | preemptAndAbortDone (nguid : BitVec 128) (status : BitVec 15)
  | adoptionReadDone (n : Nat) (ok : Bool) (recs : List (List (BitVec 32)))
  | adoptionReadRetry (n : Nat)
  | retwinSearch
  | unpairDrained
  -- lighters, cellar and cipher port
  | lgo (f : RRR)
  | lstop (f : RRR)
  | lfree (f : RRR)
  | lighterOrderStart (l : Nat) (hostErr : Bool) (slist : List (BitVec 128)) (dlist : List (BitVec 128))
  | lighterOrderComplete (l : Nat) (mv : LMove)
  | stagingWrite (dba : BitVec 48) (data : List (BitVec 8))
  | baywaitResume
  | stagingRead (port : Nat) (dba : BitVec 48) (len : Nat)
  | prpListRead (port : Nat) (dba : BitVec 48)
  | cellarDeviceAccess (c : Nat) (dba : BitVec 48) (write : Bool) (data : List (BitVec 64))
  | cellarStarve (b : Nat)
  | celOwnWrite (rq : Requester) (b : Nat) (v : BitVec 32)
  | bankWipeDone (b : Nat)
  | keyEnable (rq : Requester) (h : Nat) (v : BitVec 64)
  | generationInstalled (h : Nat)
  | cipherAlarm
  -- dock
  | controllerStart (c : Nat) (info : CtlInfo)
  | controllerStepTimeout (c : Nat) (step : Nat)
  | dockProbe (c : Nat) (answered : Bool) (rdy : Bool) (cfs : Bool)
  | smartLogRead (c : Nat) (warn : BitVec 8)
  | deviceCompletion (q : Nat) (cid : BitVec 16) (status : BitVec 15)
  | commandTimeout (q : Nat) (late : LateCmd)
  | pcieError (c : Nat)
  | retryDelayExpiry (idx : Nat)
  | psettleExpiry (idx : Nat) (record : Option FenceRec) (range : Option (BitVec 64))
  | npwaitExpiry (idx : Nat)
  | berthStateWrite (rq : Requester) (b : Nat) (v : BitVec 64)
  | berthNguidWrite (rq : Requester) (b : Nat) (hi : Bool) (v : BitVec 64)
  | slotValidWrite (rq : Requester) (b : Nat) (k : Nat) (v : BitVec 64)
  -- pilot: integer and logic
  | add (f : RRR)
  | adc (f : RRR)
  | sub (f : RRR)
  | sbb (f : RRR)
  | and (f : RRR)
  | or (f : RRR)
  | xor (f : RRR)
  | andn (f : RRR)
  | shl (f : RRR)
  | shr (f : RRR)
  | sar (f : RRR)
  | rol (f : RRR)
  | ror (f : RRR)
  | cmp (f : RRR)
  | tst (f : RRR)
  | neg (f : RRR)
  | not (f : RRR)
  | min (f : RRR)
  | max (f : RRR)
  | minu (f : RRR)
  | maxu (f : RRR)
  | clz (f : RRR)
  | popc (f : RRR)
  | bswap (f : RRR)
  | addi (f : RRI)
  | andi (f : RRI)
  | ori (f : RRI)
  | xori (f : RRI)
  | cmpi (f : RRI)
  | shi (f : RRI)
  | movi (f : RIF)
  -- pilot: multiply, divide, decimal
  | mul (f : RRR)
  | mulu (f : RRR)
  | div (f : RRR)
  | divu (f : RRR)
  | xmac (f : RRR)
  | xmacu (f : RRR)
  | mfx (f : RRR)
  | mtx (f : RRR)
  | xclr (f : RRR)
  | dadd (f : RRR)
  | dsub (f : RRR)
  | dcmp (f : RRR)
  | cvd (f : RRR)
  | cvb (f : RRR)
  | daddm (f : RRR) (upto : Option Nat)
  | dsubm (f : RRR) (upto : Option Nat)
  | dmulm (f : RRR) (upto : Option Nat)
  -- pilot: moves, loads and stores
  | mov (f : RRR)
  | retag (f : RRR)
  | clrt (f : RRR)
  | tagof (f : RRR)
  | ld (f : RRI)
  | st (f : RRI)
  | lea (f : RRI)
  | ldx (f : RRR)
  | stx (f : RRR)
  | ldu8 (f : RRR)
  | ldu16 (f : RRR)
  | ldu32 (f : RRR)
  | st8 (f : RRR)
  | st16 (f : RRR)
  | st32 (f : RRR)
  | ldt (f : RRR)
  | push (f : RRR)
  | pop (f : RRR)
  | ldl (f : LF)
  | stl (f : LF)
  -- pilot: control transfer
  | b (f : BRF)
  | call (f : BRF)
  | jmpr (f : RRR)
  | callr (f : RRR)
  | ret (f : RRR)
  | rsspill (f : RRR)
  | rsfill (f : RRR)
  | lexit (f : RRR)
  | leapc (f : LF)
  | loop (f : LPF)
  -- pilot: long and system instructions
  | bmove (f : RRR) (upto : Option Nat)
  | ksrch (f : RRR) (upto : Option Nat)
  | mfc (f : RRI)
  | mtc (f : RRI)
  | evtake (f : CRF)
  | eveoi (f : CRF)
  | reltake (f : CRF)
  | wdkick (f : CRF)
  | stim (f : CRF) (n : BitVec 5)
  | nop (f : RRR)
  | sync (f : RRR)
  | wait (f : RRR)
  | gate (f : RRR)
  | rte (f : RRR)
  | bank (f : RRR)
  | ctxsv (f : RRR)
  | ctxld (f : RRR)
  | bkpt (f : RRR)
  | movl (f : LF)
  | movh (f : LF)
  | addl (f : LF)
  | cmpl (f : LF)
  | customRoutine (k : BitVec 2) (fn : BitVec 7) (f : RRR)
  -- events, bells, watchdogs
  | eventDelivery (p : Nat) (lost : Option Nat)
  | edgeSource (n : Nat)
  | levelSourceChange (n : Nat) (v : Bool)
  | targetWake (n : Nat)
  | orphanTimeout (n : Nat)
  | evcRaise (rq : Requester) (v : BitVec 32)
  | sourceDisable (rq : Requester) (n : Nat) (v : BitVec 64)
  | bellCmpWrite (rq : Requester) (n : Nat) (v : BitVec 32)
  | bellEnable (rq : Requester) (n : Nat) (v : BitVec 32)
  | bellPeriodWrite (rq : Requester) (n : Nat) (v : BitVec 32)
  | bellFire (n : Nat)
  | periodicBellFire (n : Nat)
  | ecountOverflow (k : Nat)
  | watchdogExpiry (p : Nat)
  | bwdKick (rq : Requester) (words : List (BitVec 32))
  | bwdStage1
  | bwdStage2
  -- start-up, modes, sensors, drowse
  | porRelease (lc : BitVec 2) (tamper : Bool)
  | porAssert
  | warmReset
  | keyValid
  | keyWaitTimeout
  | sramPhase1End (ok : Bool)
  | charterSlotLoad (slotB : Bool) (h : SlotHdr)
  | charterPayloadDone (flashErr : Bool) (tagOk : Bool) (digestOk : Bool) (secs : List Section)
  | provingEnd (r : ProveRes)
  | maintenanceDrained
  | tamper
  | lifecycleChange (lc : BitVec 2)
  | tideRefLoss
  | sensorSample (temps : List (BitVec 11)) (volts : List (BitVec 12)) (procs : List (BitVec 16))
  | throttleStep (up : Bool)
  | thermalCritical (sensor : Nat) (reading : BitVec 11)
  | voltageCritical (monitor : Nat) (reading : BitVec 12)
  | thermalTrip
  | governorEvaluate
  | d2DwellExpiry
  | d3DwellExpiry
  | drowseAckTimeout
  | ringWriteCapture (lp : Nat) (off : BitVec 28) (data : BitVec 32) (be : BitVec 4)
  | wakeSource (cause : BitVec 4)
  | wakeComplete
  | heartbeatUnitSend
  -- the mailbox and the Harbourmaster
  | echo (m : Mbx)
  | stageBegin (m : Mbx)
  | stageData (m : Mbx)
  | stageCommit (m : Mbx) (h : SlotHdr) (flashErr : Bool)
  | rollout (m : Mbx) (env : Envelope)
  | rolloutNextCluster
  | graft (m : Mbx) (env : Envelope)
  | bootctl (m : Mbx)
  | unpair (m : Mbx)
  | quarantine (m : Mbx)
  | maintenance (m : Mbx)
  | logread (m : Mbx)
  | keyacct (m : Mbx)
  | svnset (m : Mbx)
  | lcadv (m : Mbx)
  | logPageWrite
  | hmRestart
  -- vintages, checking, debug
  | vinLoad (rq : Requester) (v : BitVec 32)
  | vinLoadDone (env : Envelope)
  | selWrite (rq : Requester) (c : Nat) (v : BitVec 32)
  | holdWrite (rq : Requester) (c : Nat) (v : BitVec 32)
  | graftMatchWrite (rq : Requester) (c : Nat) (k : Nat) (v : BitVec 32)
  | retryCompare (p : Nat) (agree : Bool) (sweepOk : Bool)
  | pilotTestDone (p : Nat) (pass : Bool)
  | injectionTest (p : Nat) (pass : Bool) (again : Bool)
  | injectionForce (p : Nat)
  | injnow (rq : Requester) (c : Nat) (v : BitVec 32)
  | forceOnce (rq : Requester) (p : Nat) (v : BitVec 32)
  | forceTwice (rq : Requester) (p : Nat) (v : BitVec 32)
  | debugPeek (v : BitVec 32)
  | debugTake (v : BitVec 32)
  | debugWrite (v : BitVec 32)
  | extRequest (rq : Requester) (hi : Bool) (v : BitVec 64)
  | remapWrite (rq : Requester) (c : Nat) (k : Nat) (v : BitVec 32)
  | syncPacket
  | idcode
  | daddr (shift : Option (BitVec 64))
  | dctrl (shift : Option (BitVec 32))
  | ddata (shift : Option (BitVec 64))
  | bypass
  | tapReset
  | quayCompletion (r : Reader) (q : QuayCpl)
  | quayCreditReturn (port : Nat) (lane : BitVec 3) (cnt : BitVec 4)
  | fstatTake (rq : Requester) (port : Nat) (slot : Nat)
  | ftxGo (rq : Requester) (port : Nat) (v : BitVec 64)
  | registerTake (rq : Requester) (wide : Bool) (off : BitVec 27)
  | registerWrite (rq : Requester) (wide : Bool) (off : BitVec 27) (v : BitVec 64)
  | harbourmasterMemoryTestEnd (ok : Bool) (octal : Bool)
  | drowseLevelEntered
deriving DecidableEq, Repr

end Sys2Proof
end

