-- ==== Sys2Proof/Config.lean ====
section
/-! DEFINITION. Config.lean: the three build configurations and their resources (R11), and the free values:
opaque constants that stand for values the spec leaves open. -/

namespace Sys2Proof

/-- The build configurations (R1, R11). -/
inductive Build where
  | ozS
  | ozM
  | ozL
deriving DecidableEq, Repr

/-- One row of R11's table: the counts of OZ-S, OZ-M and OZ-L. -/
def Build.row (b : Build) (small mid large : Nat) : Nat :=
  match b with
  | .ozS => small
  | .ozM => mid
  | .ozL => large

/-- CONFIG of BLK.ID (R12). -/
def Build.code (b : Build) : BitVec 4 := BitVec.ofNat 4 (b.row 1 2 3)
/-- Pilot clusters (R11). -/
def Build.clusters (b : Build) : Nat := b.row 4 8 16
/-- Entries of each Manifest partition (R11, R110). -/
def Build.entries (b : Build) : Nat := b.row 131072 262144 524288
/-- Ring pairs (R11). -/
def Build.rings (b : Build) : Nat := b.row 16384 32768 65536
/-- Berths (R11). -/
def Build.berths (b : Build) : Nat := b.row 16384 32768 65536
/-- Cellar banks (R11, R252). -/
def Build.banks (b : Build) : Nat := b.row 8 16 32
/-- Bytes of cellar (R252). -/
def Build.cellar (b : Build) : Nat := 262144 * b.banks
/-- Lighters (R11). -/
def Build.lighters (b : Build) : Nat := b.row 8 16 32
/-- Staging bays (R235). -/
def Build.bays (b : Build) : Nat := b.row 256 512 1024
/-- Data planes (R11). -/
def Build.planes (b : Build) : Nat := b.row 1 2 2
/-- Ports of each of the three sides (R11, R558). -/
def Build.ports (b : Build) : Nat := b.row 2 4 4
/-- A port's index is beyond the build's ports of its side (R11, R558): 0 to 3 landward, 4 to 7 dock, 8 to 11 seaward. -/
def Build.noPort (b : Build) (k : Nat) : Bool := decide (b.ports ≤ k % 4)
/-- Paths of the path table (R202). -/
def Build.paths (b : Build) : Nat := b.row 32 64 64
/-- Dock controllers (R302). -/
def Build.ctls (b : Build) : Nat := b.row 32 64 64
/-- Entries of the device queue table (R281). -/
def Build.queues (b : Build) : Nat := b.row 256 512 1024
/-- The owners of cellar banks are handed over (R11, R256); OZ-S and OZ-M have two fixed secure banks. -/
def Build.handsOver (b : Build) : Bool := decide (b = .ozL)
/-- The bit of an image's CONFIG byte that must be set (R418). -/
def Build.imageBit (b : Build) : Nat := b.row 0 1 2

namespace Config

/-! The counts of OZ-L, the largest build: what a well-formed command may name. -/

/-- Pilot clusters (R11). -/
def clusters : Nat := Build.ozL.clusters

/-- Own-partition and mirror-partition entries (R11, R110). -/
def entries : Nat := Build.ozL.entries

/-- Ring pairs (R11). -/
def nrings : Nat := Build.ozL.rings

/-- Berths (R11). -/
def nberths : Nat := Build.ozL.berths

/-- Cellar banks (R11). -/
def nbanks : Nat := Build.ozL.banks

/-- Lighters (R11). -/
def nlighters : Nat := Build.ozL.lighters

/-- A free 64-bit value: where the spec states no value, the model uses this constant applied to the
state's counter of free values.  It has no body, so nothing can be proved of a value of it. -/
opaque freeWord : Nat → BitVec 64

/-- JEDEC manufacturer identity on tap_idmfr (R544): an input the integrator ties. -/
opaque idmfr : BitVec 11

end Config

end Sys2Proof
end

