-- ==== Sys2Proof/Machine/Table.lean ====
section
/-! DEFINITION. Machine/Table.lean: a sparse table in one canonical form.  A table lists (index, value)
pairs with strictly rising indexes and no value equal to the default that an unlisted index reads as, so
that equal tables are equal data.  Register files, memories and entry stores of the block are tables. -/

namespace Sys2Proof.Machine

/-- A sparse table: index and value pairs. -/
abbrev Table (α : Type) := List (Nat × α)

/-- The value at index `k`; an unlisted index reads as the default `d`. -/
def Table.get {α : Type} (d : α) : Table α → Nat → α
  | [], _ => d
  | (j, v) :: t, k => if j = k then v else Table.get d t k

/-- List `v` at index `k`, in place of what the index held. -/
def Table.insert {α : Type} : Table α → Nat → α → Table α
  | [], k, v => [(k, v)]
  | (j, w) :: t, k, v =>
    if j = k then (k, v) :: t else if k < j then (k, v) :: (j, w) :: t else (j, w) :: Table.insert t k v

/-- Write `v` at index `k`, keeping the canonical form: the default is not listed. -/
def Table.put {α : Type} [DecidableEq α] (d : α) (t : Table α) (k : Nat) (v : α) : Table α :=
  if v = d then t.filter (fun e => decide (e.1 ≠ k)) else Table.insert t k v

/-- All indexes of the table lie above `m`, rise strictly, and no listed value is the default. -/
def Table.above {α : Type} [DecidableEq α] (d : α) : Nat → Table α → Bool
  | _, [] => true
  | m, (j, v) :: t => decide (m ≤ j) && decide (v ≠ d) && Table.above d (j + 1) t

/-- The canonical form: indexes strictly rising, no listed value equal to the default. -/
def Table.wf {α : Type} [DecidableEq α] (d : α) (t : Table α) : Bool := Table.above d 0 t

/-- Change the value at one index. -/
def Table.upd {α : Type} [DecidableEq α] (d : α) (t : Table α) (k : Nat) (f : α → α) : Table α :=
  Table.put d t k (f (Table.get d t k))

/-- Apply `f` to every listed value, dropping results equal to the default. -/
def Table.mapVals {α : Type} [DecidableEq α] (d : α) (f : Nat → α → α) : Table α → Table α
  | [] => []
  | (j, v) :: t =>
    if f j v = d then Table.mapVals d f t else (j, f j v) :: Table.mapVals d f t

/-- How many listed values satisfy `f`. -/
def Table.count {α : Type} (f : Nat → α → Bool) (t : Table α) : Nat :=
  t.foldl (fun n e => if f e.1 e.2 then n + 1 else n) 0

/-- Write a list of values at consecutive indexes. -/
def Table.putList {α : Type} [DecidableEq α] (d : α) (t : Table α) (k : Nat) : List α → Table α
  | [] => t
  | v :: vs => Table.putList d (Table.put d t k v) (k + 1) vs

/-- Read `n` values at consecutive indexes. -/
def Table.getList {α : Type} (d : α) (t : Table α) (k : Nat) : Nat → List α
  | 0 => []
  | n + 1 => Table.get d t k :: Table.getList d t (k + 1) n

end Sys2Proof.Machine
end

