-- ==== Sys2Proof/Machine/StateDock.lean ====
section
/-! DEFINITION. Machine/StateDock.lean: the state of berths and their path slots, of dock controllers and
queue pairs, and of the device commands outstanding. -/

namespace Sys2Proof.Machine

/-- One path slot of a berth (R285).  `pst` holds a remote slot's FAILED; `unlisted` and `wentDown` are what ends it
(R289): a complete MEMBER message without the NGUID, and a DOWN marking of the slot's path. -/
structure Slot where
  v : Bool := false
  pst : BitVec 2 := 0
  tgt : BitVec 6 := 0
  sberth : BitVec 16 := 0
  outst : W32 := 0
  losses : W32 := 0
  unlisted : Bool := false
  wentDown : Bool := false
deriving DecidableEq, Repr

/-- A berth (R285, R584).  `fenceLost` holds NO_PATH after a fence loss (R172, R286);
`quiesceBy` lists the paths that await a QUIESCE_ACK (R294). -/
structure Berth where
  state : BitVec 2 := 0
  policy : Bool := false
  ce : Bool := false
  keyh : BitVec 12 := 0
  group : BitVec 12 := 0
  lbsz : Bool := false
  resv : BitVec 20 := 0
  rkey : W64 := 0
  nsze : W64 := 0
  flown : W64 := 0
  fltwin : W64 := 0
  flbn : W32 := 0
  nsid : W32 := 0
  nguid : BitVec 128 := 0
  slots : Table Slot := []
  fenceLost : Bool := false
  quiesced : Bool := false
  quiesceBy : List Nat := []
deriving DecidableEq, Repr

/-- A dock controller (R274, R302): its registers, and what its start recorded. `restart` marks a slot 0 that
went DOWN or FAILED and is restarted (R288, R290); `atail` is the tail of its admin SQ of depth 32 (R274). -/
structure Ctl where
  bar : BitVec 52 := 0
  en : Bool := false
  dport : BitVec 2 := 0
  state : BitVec 3 := 0
  nioq : BitVec 8 := 0
  mdts : BitVec 8 := 0
  cntlid : BitVec 16 := 0
  pst : BitVec 2 := 0
  good : BitVec 2 := 0
  missed : BitVec 2 := 0
  downs : BitVec 16 := 0
  dstrd : BitVec 4 := 0
  crdt1 : BitVec 16 := 0
  crdt2 : BitVec 16 := 0
  crdt3 : BitVec 16 := 0
  oncs : BitVec 16 := 0
  fuses : BitVec 16 := 0
  cmic : BitVec 8 := 0
  spaces : List NsInfo := []
  restart : Bool := false
  lastGood : W64 := 0
  atail : BitVec 5 := 0
deriving DecidableEq, Repr

/-- A device queue pair (R280, R302); `phase` is the phase tag of the next completion entry (R280). -/
structure Dq where
  en : Bool := false
  sealedQ : Bool := false
  ctl : BitVec 6 := 0
  sqbase : BitVec 11 := 0
  sqlog : BitVec 4 := 0
  cqlog : BitVec 4 := 0
  cqbase : BitVec 11 := 0
  qid : BitVec 16 := 0
  outst : BitVec 16 := 0
  sqtail : BitVec 16 := 0
  cqhead : BitVec 16 := 0
  phase : Bool := true
deriving DecidableEq, Repr

/-- The steps of pairing, takeover and unpairing that issue a reservation command (R171, R271): registration, with
whether the block goes on to take the reservation; the report before that, or one that only confirms; the acquire;
the fencing Preempt and Abort; release and unregistration. -/
inductive ResvStep where
  | register (take : Bool)
  | report (take : Bool)
  | acquire
  | fence
  | release
  | unregister
deriving DecidableEq, Repr

/-- A reservation command on a namespace, and the retries it has had (R171, R297). -/
structure Resv where
  step : ResvStep
  nguid : BitVec 128
  tries : Nat
deriving DecidableEq, Repr

/-- What an outstanding device command does: a part of the current word, a fence-log record, or a remote
block's command that this block serves. -/
inductive CmdKind where
  | part (k : Nat)
  | flog
  | served
deriving DecidableEq, Repr

/-- What an outstanding device command waits for; `partner` is the write half of a fused pair that was aborted because of
its compare half, whose status decides (R296). -/
inductive CmdWait where
  | device
  | retry
  | settle
  | slot
  | noent
  | partner
deriving DecidableEq, Repr

/-- One device command of an exchange, local or remote (R281, R290 to R297): the entry and its GEN, the slot, what
it does, retries and NOENT answers so far, whether its CTO has expired once, what it waits for, a slot that has
failed it, the tick of the loss (R54), whether this block has sent an ABORT for it, and, for a remote command, the path, lane and body of its RCMD frame. -/
structure DCmd where
  idx : Nat
  slot : Nat
  kind : CmdKind
  tries : Nat
  noent : Nat
  expired : Bool
  wait : CmdWait
  excl : Option Nat
  gen : BitVec 29
  lost : W64
  abortSent : Bool
  frame : Option (Nat × BitVec 3 × List Byte)
deriving DecidableEq, Repr

/-- The dock-wide registers (R302), and the FENCE numbers received (R201). -/
structure Dock where
  cto : W32 := 8000000
  psettle : W32 := 1000
  npwait : BitVec 16 := 1000
  baddba : Bool := false
  qacc : Bool := false
  cfs : Bool := false
  fencedBy : List (BitVec 16) := []
deriving DecidableEq, Repr

/-- A remote command that this block serves (R293, R294): its peer and path, RQID, serving berth, data that
have arrived, whether it was issued or aborted, the statuses of its device commands, and whether all have
completed. -/
structure Serve where
  path : Nat := 0
  lane : BitVec 3 := 2
  rqid : W32 := 0
  berth : BitVec 16 := 0
  fused : Bool := false
  sqe : List W64 := []
  got : Nat := 0
  last : Bool := false
  issued : Bool := false
  aborted : Bool := false
  sts : List (Nat × BitVec 15) := []
  done : Bool := false
deriving DecidableEq, Repr

end Sys2Proof.Machine
end

