-- ==== Sys2Proof/Machine/StateLtr.lean ====
section
/-! DEFINITION. Machine/StateLtr.lean: the state of the arbiters, the lighters, the staging bays' registers, the
cellar's registers, and the cipher port's key handles. -/

namespace Sys2Proof.Machine

/-- A requester at an arbiter (R106, R107): the Harbourmaster, the Gleaner, or another by its requester number. -/
inductive Asker where
  | harbourmaster
  | gleaner
  | unit (n : Nat)
deriving DecidableEq, Repr

/-- A request at an arbiter (R105 to R107): its class, its requester and its age stamp. -/
structure ArbReq where
  cls : Nat
  who : Asker
  stamp : BitVec 32
deriving DecidableEq, Repr

/-- An arbiter (R105 to R109): the pending requests, the request whose grant is held, and the grants that the
Harbourmaster and the Gleaner have taken in the aligned window `win` of 64 fc. -/
structure Arb where
  reqs : List ArbReq := []
  grant : Option ArbReq := none
  win : BitVec 32 := 0
  used : Nat := 0
deriving DecidableEq, Repr

/-- A lighter order (R241, R243): Q0 to Q7, the world of the pilot that posted it, and, once it has started,
its lists, the generation and the first invocation it reserved (R258), whether its rekey wait has begun, and the bursts of
it that were revoked (R109). -/
structure Order where
  q : List (BitVec 64)
  world : Bool
  started : Bool := false
  src : List (BitVec 128) := []
  dst : List (BitVec 128) := []
  inv : Nat := 0
  gen : BitVec 24 := 0
  waits : Bool := false
  revoked : Nat := 0
deriving DecidableEq, Repr

/-- One lighter (R243, R268): its queue, the running order first, and LTR.STAT.REVK. -/
structure Lighter where
  orders : List Order := []
  revk : BitVec 16 := 0
deriving DecidableEq, Repr

/-- A key handle of the cipher port (R264, R270), and whether a generation has been requested. -/
structure CKey where
  gen : BitVec 24 := 0
  st : BitVec 3 := 0
  en : Bool := false
  use : BitVec 33 := 0
  requested : Bool := false
deriving DecidableEq, Repr

/-- A write to staging that a port holds for want of a bay (R238). -/
structure HeldWrite where
  dba : BitVec 48
  data : List Byte
deriving DecidableEq, Repr

/-- The lighter, cellar and cipher registers (R268 to R270). -/
structure Ltr where
  lighters : Table Lighter := []
  baywait : Bool := false
  stray : Bool := false
  unladen : Bool := false
  straycnt : BitVec 32 := 0
  held : List HeldWrite := []
  conf : Table (BitVec 32) := []
  swipeQuar : Bool := false
  swipeMaint : Bool := false
  swipeWrst : Bool := false
  swipeLock : Bool := false
  starve : Bool := false
  hbusy : Bool := false
  klim : BitVec 32 := 0
  alarm : Bool := false
  ready : Bool := false
  authf : BitVec 32 := 0
  keys : Table CKey := []
deriving DecidableEq, Repr

end Sys2Proof.Machine
end

