-- ==== Sys2Proof/Machine/StatePilot.lean ====
section
/-! DEFINITION. Machine/StatePilot.lean: the state of pilots and of the units that serve them: register
banks, save sets, checkers, the event controller, bells, counters, watchdogs, control sources, vintage
banks, and debug and trace. -/

namespace Sys2Proof.Machine

/-- A word tagged EMPTY (R307): what a tagged register or memory word holds after reset or a wipe. -/
def emptyW : TWord := ⟨0, 0⟩

/-- The status word (R311), field by field; MB is read from the multiplier queue. -/
structure Sw where
  world : Bool := false
  priv : Bool := false
  level : BitVec 3 := 0
  mask : BitVec 3 := 0
  slot : Bool := false
  brk : Bool := false
  t : Bool := false
  d : Bool := false
  n : Bool := false
  z : Bool := false
  v : Bool := false
  c : Bool := false
deriving DecidableEq, Repr

/-- A gate link (R390). -/
structure Glnk where
  v : Bool := false
  level : BitVec 3 := 0
  mask : BitVec 3 := 0
  priv : Bool := false
  rpc : BitVec 18 := 0
deriving DecidableEq, Repr

/-- One hardware loop of a bank (R303, R340). -/
structure LoopR where
  ls : BitVec 18 := 0
  le : BitVec 18 := 0
  lc : BitVec 32 := 0
  lvl : BitVec 3 := 0
deriving DecidableEq, Repr

/-- An accumulator X0 to X3 (R303): 128 bits and one tag. -/
structure XReg where
  val : BitVec 128 := 0
  tag : BitVec 4 := 0
deriving DecidableEq, Repr

/-- One context bank (R303).  Registers 0 to 15 are D, 16 to 31 are A.  The return stack is the cache
(newest first), the number of spilled entries and the shadow buffer (newest first). -/
structure Bank where
  regs : Table TWord := []
  x : Table XReg := []
  mh : TWord := emptyW
  ml : TWord := emptyW
  loops : Table LoopR := []
  act : BitVec 4 := 0
  rsp : TWord := emptyW
  dslim : TWord := emptyW
  rcache : List (BitVec 18) := []
  spilled : Nat := 0
  shadow : List (BitVec 18) := []
  glnk : Glnk := {}
  dirty : BitVec 5 := 0
deriving DecidableEq, Repr

/-- Where a multiply's result goes (R326). -/
inductive MulDst where
  | mhml
  | acc (k : Nat)
deriving DecidableEq, Repr

/-- A multiply in flight (R327): its bank, the instructions left, its destination and the value it will
write. -/
structure MulOp where
  bank : Nat
  left : Nat
  dst : MulDst
  val : BitVec 128
deriving DecidableEq, Repr

/-- The cause register TCn (R390). -/
structure TCause where
  esc : Bool := false
  hw : Bool := false
  clevel : BitVec 3 := 0
  cmask : BitVec 3 := 0
  cworld : Bool := false
  cpriv : Bool := false
  bank : BitVec 4 := 0
  src : BitVec 12 := 0
  code : BitVec 4 := 0
deriving DecidableEq, Repr

/-- One level's save set (R386). -/
structure SaveSet where
  spc : BitVec 18 := 0
  ssw : Sw := {}
  scx : W64 := 0
  tc : TCause := {}
  tv : W64 := 0
deriving DecidableEq, Repr

/-- A debug event of a pilot (R545): cause, comparator index, address, and the DEF and LBRK marks. -/
structure DbgEvent where
  cause : Nat
  idx : Nat
  addr : BitVec 18
  deferred : Bool
  lbrk : Bool
deriving DecidableEq, Repr

/-- The debug registers of one context (R550, R551). -/
structure PDbg where
  resume1 : Bool := false
  exempt : Bool := false
  dwaddr : W64 := 0
  bpc : Table W64 := []
  wpa : Table W64 := []
  wpc : Table W64 := []
  deferred : Option DbgEvent := none
  again : Option DbgEvent := none
  ovf : Bool := false
deriving DecidableEq, Repr

/-- The roles of a pilot slot (R448). -/
inductive Role where
  | active
  | spare
  | testing
  | offline
deriving DecidableEq, Repr

/-- A tally register with its even-parity bit (R426); it starts from the seed. -/
structure Tally where
  val : W64 := 0xA5A5A5A55A5A5A5A
  par : Bool := false
deriving DecidableEq, Repr

/-- A store that the commit buffer holds (R430): into the cellar or the pilot's cask, the word's number and the word. -/
structure PStore where
  cel : Bool
  k : Nat
  w : TWord
deriving DecidableEq, Repr

/-- A trace packet whose effect has not committed (R554). -/
structure HeldPkt where
  typ : BitVec 4
  ch : BitVec 5
  payload : W64
deriving DecidableEq, Repr

/-- The checkpoint of an open window (R428): the context as the last close left it. -/
structure Ctx where
  banks : Table Bank
  cur : Nat
  sw : Sw
  cx : W64
  pc : BitVec 18
  mulq : List MulOp
  sets : Table SaveSet
  slotMark : Bool
  dmon : BitVec 3
  lw : BitVec 6
  vbo : BitVec 9
  vbs : BitVec 9
  cseal : BitVec 7
  gtab : Table W64
  dbg : PDbg
deriving DecidableEq, Repr

/-- The check window of a pilot (R426 to R430, R446): windows committed; the checkpoint, none while no micro-op has run
in the window; its micro-ops; the tallies of the primary and the shadow runs; the stores and packets that wait for the
commit, newest first; that a window closed inside the instruction; and that this close mismatched. -/
structure Win where
  count : W64 := 0
  ck : Option Ctx := none
  ops : Nat := 0
  tp : Tally := {}
  ts : Tally := {}
  stores : List PStore := []
  pkts : List HeldPkt := []
  inner : Bool := false
  bad : Bool := false
deriving DecidableEq, Repr

/-- The landward read that an APICK started (R351): ring, first slot, entries and cask byte offset. -/
structure PickRd where
  ring : Nat
  slot : Nat
  n : Nat
  base : Nat
deriving DecidableEq, Repr

/-- One pilot (R303), or the Harbourmaster's processor at number 0x7F.  `subbed` says that a pilot in TESTING was
substituted, not retired (R439); `mismBase` and `mismTick` count the mismatches of R435's period; `frozen` says
that a window is being retried (R432) and `win` is the window under way. -/
structure Pilot where
  banks : Table Bank := []
  cur : Nat := 0
  sw : Sw := { world := true, priv := true, mask := 6 }
  cx : W64 := 0
  pc : BitVec 18 := 0
  mulq : List MulOp := []
  sets : Table SaveSet := []
  dmon : BitVec 3 := 2
  lw : BitVec 6 := 0x3F
  vbo : BitVec 9 := 0
  vbs : BitVec 9 := 0
  cseal : BitVec 7 := 64
  gtab : Table W64 := []
  wdper : W32 := 2000000
  wdcnt : W32 := 2000000
  strike : Bool := false
  wdgDue : Option (W64 × Bool) := none
  role : Role := .active
  standin : BitVec 3 := 7
  subbed : Bool := false
  inReset : Bool := true
  waiting : Bool := false
  frozen : Bool := false
  slotMark : Bool := false
  src : Nat := 0
  pickst : BitVec 17 := 0
  pickrd : Option PickRd := none
  ckMism : BitVec 16 := 0
  ckOk : BitVec 16 := 0
  subinfo : BitVec 8 := 0
  mism : BitVec 16 := 0
  tpar : BitVec 16 := 0
  retryok : BitVec 16 := 0
  fail2 : BitVec 16 := 0
  once : Bool := false
  twice : Bool := false
  mismBase : Nat := 0
  mismTick : W64 := 0
  win : Win := {}
  dbg : PDbg := {}
deriving DecidableEq, Repr

/-- One checker (R447) and the tick of the last rehabilitation of its cluster (R444). -/
structure Chk where
  state : BitVec 2 := 0
  run : BitVec 16 := 0
  fail : BitVec 8 := 0
  forced : BitVec 8 := 0
  subst : BitVec 16 := 0
  rehab : BitVec 8 := 0
  retire : BitVec 8 := 0
  lastRehab : Option W64 := none
  sparePresent : Bool := true
  spare : BitVec 3 := 4
deriving DecidableEq, Repr

/-- The control source of one cluster (R421): HOLD and SEL, and the source shown by CUR per slot is
each pilot's `src`. -/
structure Csrc where
  hold : Bool := false
  sel : BitVec 2 := 0
deriving DecidableEq, Repr

/-- A match register PCL.GM (R421). -/
structure Gm where
  v : Bool := false
  maddr : BitVec 14 := 0
  gaddr : BitVec 10 := 0
deriving DecidableEq, Repr

/-- One vintage bank (R422) and its stores (R391). -/
structure VBank where
  version : W32 := 0
  state : BitVec 2 := 0
  cxfmt : BitVec 8 := 0
  custom : BitVec 4 := 0
  micro : Table (BitVec 48) := []
  nano : Table (BitVec 128) := []
deriving DecidableEq, Repr

/-- The graft memory of one cluster (R392). -/
structure Graft where
  micro : Table (BitVec 48) := []
  nano : Table (BitVec 128) := []
deriving DecidableEq, Repr

/-- The vintage loader (R422), with the load in progress. -/
structure Vin where
  offs : BitVec 21 := 0
  bank : Bool := false
  cmask : BitVec 16 := 0
  busy : Bool := false
  done : Bool := false
  cluster : BitVec 4 := 0
  code : BitVec 8 := 0
  corr : BitVec 16 := 0
  uncorr : BitVec 16 := 0
  ldBank : Bool := false
  ldMask : BitVec 16 := 0
deriving DecidableEq, Repr

/-- The claim on a level source (R452): pilot, bank and level. -/
structure Claim where
  pilot : Nat
  bank : Nat
  level : BitVec 3
deriving DecidableEq, Repr

/-- One event source (R450): configuration, an edge source's PEND, a level source's claim, the sampled
input, and the mark that the Harbourmaster is a target until the claim (R460). -/
structure Src where
  en : Bool := false
  level : BitVec 3 := 0
  tset : BitVec 6 := 0
  vec : BitVec 16 := 0
  pend : Bool := false
  claim : Option Claim := none
  inp : Bool := false
  hmT : Bool := false
deriving DecidableEq, Repr

/-- A release write in the release queue (R463). -/
structure RelW where
  ring : BitVec 16
  act : BitVec 2
  xtag : BitVec 16
deriving DecidableEq, Repr

/-- A release write that the landward port holds while the release queue is full (R463): ring and data. -/
structure RelHold where
  ring : Nat
  data : BitVec 32
deriving DecidableEq, Repr

/-- The event controller (R449 to R464). -/
structure Evc where
  src : Table Src := []
  tset : Table (BitVec 128) := []
  orphAny : Bool := false
  orphLast : BitVec 12 := 0
  hmvec : BitVec 16 := 0
  merge : W32 := 0
  spur : W32 := 0
  latch : Table Nat := []
  relq : List RelW := []
  relHold : List RelHold := []
deriving DecidableEq, Repr

/-- One bell (R485). -/
structure Bell where
  en : Bool := false
  mode : Bool := false
  late : Bool := false
  plate : Bool := false
  fired : Bool := false
  armed : Bool := false
  cmp : W32 := 0
  period : W32 := 0
  cnt : W32 := 0
deriving DecidableEq, Repr

/-- One event counter (R485). -/
structure Ecnt where
  ovf : Bool := false
  kind : BitVec 4 := 0
  src : BitVec 12 := 0
  val : W32 := 0
deriving DecidableEq, Repr

/-- The block watchdog (R485): `half` is the accepted first word of a kick. -/
structure Bwd where
  period : W32 := 100000000
  lock : Bool := false
  half : Bool := false
  stage : BitVec 2 := 0
  cnt : W32 := 100000000
  bad : W32 := 0
deriving DecidableEq, Repr

/-- The tide count and its fraction (R465), a tick already owed to slewing (R225), the record that it has been
stepped (R226) and PORT.TIDE.UNSYNC (R228). -/
structure Tide where
  count : W64 := 0
  frac : BitVec 4 := 0
  lag : Bool := false
  stepped : Bool := false
  unsync : Bool := true
deriving DecidableEq, Repr

/-- A code remap unit (R557). -/
structure Remap where
  v : Bool := false
  srcpg : BitVec 10 := 0
  dstpg : BitVec 10 := 0
deriving DecidableEq, Repr

/-- The debug window, the trace unit and the TAP (R544, R557). -/
structure Dbg where
  addr : W64 := 0
  status : BitVec 3 := 0
  space : BitVec 3 := 0
  unitNo : BitVec 8 := 0
  tag : BitVec 4 := 0
  op : BitVec 2 := 0
  width : Bool := false
  data : W64 := 0
  req : BitVec 128 := 0
  defbrk : Bool := false
  aovr : Bool := false
  rmref : Bool := false
  missed : BitVec 16 := 0
  unlk : Bool := false
  ten : Bool := false
  tstop : Bool := false
  tflow : Bool := false
  tlvl : Bool := false
  tmode : Bool := false
  smask : W32 := 0
  sumask : W32 := 0
  wrapped : Bool := false
  wr : BitVec 14 := 0
  tlost : W32 := 0
  trace : Table (BitVec 128) := []
  remap : Table Remap := []
  ir : BitVec 8 := 1
deriving DecidableEq, Repr

end Sys2Proof.Machine
end

