-- ==== Sys2Proof/Machine/StateRing.lean ====
section
/-! DEFINITION. Machine/StateRing.lean: the state of the ring keeper and of the Manifest: ring pairs, the
admission selector, own and mirror entries, moorings, and the execution context of a channel program. -/

namespace Sys2Proof.Machine

/-- A stamp (R83): low 32 bits of the tick, the TAIL it announced, the aged mark (R86), and the mark that its entries
have been found due under the ring's present DDL (R87, log 15). -/
structure Stamp where
  tick : BitVec 32
  tail : BitVec 16
  aged : Bool
  due : Bool
deriving DecidableEq, Repr

/-- Who holds a ring's turn (R93, R352): pilot, bank, and the entries read. -/
structure Turn where
  pilot : Nat
  bank : Nat
  n : Nat
deriving DecidableEq, Repr

/-- A disposed entry that CONS has not passed (R93): its slot, and the record whose acknowledgement is
awaited: an own entry's ADMITTED record, or a decline record by its RSEQ. -/
inductive DispKey where
  | own (idx : Nat) (gen : BitVec 29)
  | decl (rseq : BitVec 32)
deriving DecidableEq, Repr

/-- One disposed entry, and whether its record has been acknowledged. -/
structure Disp where
  slot : Nat
  key : DispKey
  acked : Bool
deriving DecidableEq, Repr

/-- The three record types (R49). -/
inductive RecType where
  | final
  | progress
  | held
deriving DecidableEq, Repr

/-- The fields of a completion record that do not change between its making and its write (R49). -/
structure Rec where
  typ : RecType
  xtag : BitVec 16
  wclass : BitVec 3
  unprot : Bool
  progLost : Bool
  status : BitVec 8
  wait : BitVec 16
  xfer : BitVec 32
  resid : BitVec 32
  dsv : Bool
  path : BitVec 2
  lastw : BitVec 12
  dstat : BitVec 15
deriving DecidableEq, Repr

/-- A declined entry whose final record waits (R94): slot, tag, class, WAIT, UNPROTECTED, the RSEQ of its decline
record, and whether it comes from the decline ledger of an adoption (R180). -/
structure QDecl where
  sslot : Nat
  xtag : BitVec 16
  wclass : BitVec 3
  wait : BitVec 16
  unprot : Bool
  rseq : BitVec 32
  ledger : Bool := false
deriving DecidableEq, Repr

/-- What an assigned completion slot that is not yet written is kept for (R47, R48, R58, R126): the final
record of an own entry, not yet queued or queued with its record, a queued progress record, or a queued
held record. -/
inductive SlotUse where
  | kept (idx : Nat) (gen : BitVec 29)
  | fin (idx : Nat) (gen : BitVec 29) (r : Rec)
  | prog (idx : Nat) (gen : BitVec 29) (r : Rec)
  | held (idx : Nat) (gen : BitVec 29) (r : Rec)
deriving DecidableEq, Repr

/-- One ring pair (R63 to R69, R75), with the state its rules imply. -/
structure Ring where
  sqb : BitVec 58 := 0
  cqb : BitVec 58 := 0
  en : Bool := false
  pause : Bool := false
  lport : BitVec 2 := 0
  sqlog : BitVec 5 := 0
  cqlog : BitVec 5 := 0
  group : BitVec 12 := 0
  pv : Bool := false
  pasid : BitVec 20 := 0
  credit : BitVec 16 := 0
  weight : BitVec 4 := 0
  ltol : BitVec 16 := 0
  ddl : BitVec 16 := 0
  msia : BitVec 62 := 0
  msid : W32 := 0
  count : BitVec 8 := 1
  holdoff : BitVec 8 := 0
  mpend : Bool := false
  ven : Bool := false
  cons : BitVec 16 := 0
  tail : BitVec 16 := 0
  cqtail : BitVec 16 := 0
  cqhead : BitVec 16 := 0
  outst : BitVec 16 := 0
  decw : BitVec 16 := 0
  p : Bool := true
  halt : Bool := false
  poolw : Bool := false
  ecfg : Bool := false
  sqfault : Bool := false
  badrel : Bool := false
  badcqdb : Bool := false
  badsqdb : Bool := false
  mask : Bool := false
  next : BitVec 16 := 0
  slotNext : BitVec 16 := 0
  turn : Option Turn := none
  poolwBerth : BitVec 16 := 0
  poolwGen : Bool := false
  stamps : List Stamp := []
  disp : List Disp := []
  slots : Table (Option SlotUse) := []
  postWait : List (BitVec 16) := []
  decls : List QDecl := []
  helds : List Nat := []
  since : Nat := 0
  firstTick : W64 := 0
deriving DecidableEq, Repr

/-- A mooring (R134): the mooring word field by field, and the break report that the next MOOR returns
(R136).  A standalone mooring also has an undo note. -/
structure Moor where
  mst : BitVec 2 := 0
  owner : BitVec 7 := 0
  bank : BitVec 4 := 0
  world : Bool := false
  lease : BitVec 13 := 0
  rep : W64 := 0
  note : W64 := 0
deriving DecidableEq, Repr

/-- An own entry (R116), and the held RESID of MPUT (R131). -/
structure Own where
  st : BitVec 3 := 0
  gen : BitVec 29 := 1
  ring : BitVec 16 := 0
  xtag : BitVec 16 := 0
  berth : BitVec 16 := 0
  sslot : BitVec 16 := 0
  cqslot : BitVec 16 := 0
  lmp : BitVec 3 := 0
  ackp : Bool := false
  fenced : Bool := false
  held : Bool := false
  unprot : Bool := false
  redriven : Bool := false
  rb : Bool := false
  dsv : Bool := false
  pool : BitVec 2 := 0
  path : BitVec 2 := 0
  tr : Bool := false
  srv : Bool := false
  prog : BitVec 60 := 0
  curw : BitVec 60 := 0
  pos : W64 := 0
  xfer : BitVec 32 := 0
  status : BitVec 8 := 0
  dstat : BitVec 15 := 0
  pl : Bool := false
  fs : Bool := false
  cid : BitVec 16 := 0
  dq : BitVec 16 := 0xFFFF
  wait : BitVec 16 := 0
  lastw : BitVec 12 := 0
  moor : Moor := {}
  fseq : BitVec 32 := 0
  residHeld : BitVec 32 := 0
deriving DecidableEq, Repr

/-- A mirror entry (R118): M0 to M3. -/
structure Mir where
  m0 : W64 := 0
  m1 : W64 := 0
  m2 : W64 := 0
  m3 : W64 := 0
deriving DecidableEq, Repr

/-- A decoded command word (R20). -/
structure CWord where
  op : BitVec 8 := 0
  rsv : BitVec 2 := 0
  buf : BitVec 2 := 0
  flags : BitVec 4 := 0
  modf : BitVec 16 := 0
  count : BitVec 32 := 0
  addr : W64 := 0
deriving DecidableEq, Repr

/-- The word of an exchange's program that is being executed (R36): its index, address and contents, and
what its device work has done: commands completed with their first block, blocks and status, commands
outstanding, bytes that the lighter has delivered, the outcome once it is known, and whether the fence-log record of
a fenced mutating word has been written (R40), and the parts whose timeout expired twice (R283). -/
structure WordX where
  idx : Nat := 0
  addr : W64 := 0
  w : CWord := {}
  listed : Bool := false
  glist : List (BitVec 128) := []
  key : List Byte := []
  begun : Bool := false
  issued : Nat := 0
  outCmds : Nat := 0
  done : List (Nat × Nat × BitVec 15) := []
  moved : Nat := 0
  bytes : Nat := 0
  short : Bool := false
  flogged : Bool := false
  cto : List Nat := []
deriving DecidableEq, Repr

/-- The whole-program check of a fenced exchange (R38): the next word's index and address, the byte total, whether a
mutating word has been met, and the word whose gather list decides between BAD_LIST and a higher code (R31), with the
entries of that list read so far. -/
structure PreX where
  idx : Nat := 0
  addr : W64 := 0
  total : Nat := 0
  mutAt : Option Nat := none
  bad : Option Nat := none
  pos : W64 := 0
  posSet : Bool := false
  mutW : CWord := {}
  mutPos : W64 := 0
  mutAddr : W64 := 0
  mutTotal : Nat := 0
  listOf : Option CWord := none
  glist : List (BitVec 128) := []
deriving DecidableEq, Repr

/-- The execution context of an exchange's channel program (R28 to R47): the address of the next word, words
executed, the byte total of R30, the match mark, a waiting CANCEL, the word being executed, the check of
a fenced program, the hold, the delays that WAIT counts and their sum in ticks (R54), the fence-log resolution still to
come (R183), the order of admission (R44), and whether a gleaned exchange has counted as placed on a device (R166). -/
structure Xc where
  active : Bool := false
  next : W64 := 0
  nwords : Nat := 0
  total : Nat := 0
  mark : Bool := false
  cancel : Bool := false
  cur : Option WordX := none
  pre : Option PreX := none
  preOk : Bool := false
  ended : Bool := false
  heldWait : Bool := false
  heldTick : W64 := 0
  preMut : Option PreX := none
  pathTick : Option W64 := none
  rekeyTick : Option W64 := none
  tkoWait : Bool := false
  retries : Nat := 0
  resolve : Bool := false
  seq : Nat := 0
  waitT : Nat := 0
  placed : Bool := false
deriving DecidableEq, Repr

end Sys2Proof.Machine
end

