-- ==== Sys2Proof/Machine/StateSys.lean ====
section
/-! DEFINITION. Machine/StateSys.lean: the state of the Harbourmaster: registers, mailbox, sensors, event
log, staging session, key-usage account and flash. -/

namespace Sys2Proof.Machine

/-- A temperature sensor (R538). -/
structure Temp where
  valid : Bool := false
  temp : BitVec 11 := 0
deriving DecidableEq, Repr

/-- A voltage monitor (R538). -/
structure Volt where
  low : Bool := false
  high : Bool := false
  mv : BitVec 12 := 0
deriving DecidableEq, Repr

/-- A staging session (R532, R533): KIND, length, bytes received, and the first four bytes of a charter, which are
written last. -/
structure Session where
  kind : BitVec 16
  len : Nat
  got : Nat
  first : List (BitVec 8)
deriving DecidableEq, Repr

/-- One log page of the flash log (R531): page sequence, first record SEQ, and the records. -/
structure LogPage where
  page : Nat
  first : W32
  recs : List (List W64)
deriving DecidableEq, Repr

/-- One entry of the key-usage account (R537), and the rekey event that has come for the handle's present generation
(R264). -/
structure KeyAcct where
  total : W64 := 0
  rekeys : W32 := 0
  event : Bool := false
deriving DecidableEq, Repr

/-- The Harbourmaster (R525 to R538).  `lc` and `tamper` are the sampled inputs; `committed` is the KIND of the image
that stands committed in the staging area (R533); `roll` a roll-out under way: the clusters still to switch, the
current one first, those switched, and BANK (R534). -/
structure Hm where
  restarting : Bool := false
  restarts : BitVec 16 := 0
  mbcode : BitVec 8 := 0
  mbseq : BitVec 8 := 0
  arg : Table W64 := []
  busy : Bool := false
  done : Bool := false
  ovr : Bool := false
  ie : Bool := false
  rseq : BitVec 8 := 0
  rstatus : BitVec 8 := 0
  rdetail : BitVec 8 := 0
  res0 : W64 := 0
  res1 : W64 := 0
  svn : W32 := 0
  lc : BitVec 2 := 0
  tamper : Bool := false
  lost : BitVec 16 := 0
  lognext : BitVec 11 := 0
  seqNext : W32 := 0
  uncopied : Nat := 0
  oldest : W64 := 0
  tcrit : BitVec 8 := 112
  vcrit : BitVec 8 := 10
  vwarn : BitVec 8 := 5
  temp : Table Temp := []
  volt : Table Volt := []
  proc : Table (BitVec 16) := []
  session : Option Session := none
  committed : Option (BitVec 16) := none
  roll : Option (List Nat × BitVec 16 × Bool) := none
  acct : Table KeyAcct := []
  pages : List LogPage := []
  nextPage : Nat := 0
deriving DecidableEq, Repr

/-- Start-up and mode registers (R506), and the progress of a start: the SRAM phase 1 end (R487), the wait
for the vintage key and the key itself (R492), a failure of phase 1, the slots tried (R490), the slot whose headers have
verified, the SELECT banks of the VINTAGE sections (R496), a Quarantine cause or a Maintenance cause that
waits for a wake (R500), whether Service has been entered since the start (`served`), and the outputs ctl_bwd_n and ctl_ttrip_n as asserted marks. -/
structure Boot where
  slot : BitVec 2 := 0
  slow : Bool := false
  fallbk : Bool := false
  code : BitVec 8 := 0
  sect : BitVec 8 := 0
  pick : BitVec 2 := 0
  maint : Bool := false
  pfail : BitVec 12 := 0
  clfail : BitVec 16 := 0
  qcause : BitVec 8 := 0
  mcause : BitVec 8 := 0
  svct : BitVec 32 := 0
  phase1 : Bool := false
  keyWait : Bool := false
  keyAck : Bool := false
  key : Bool := false
  keySet1 : Bool := false
  tried : List Bool := []
  sramBad : Bool := false
  loading : Option SlotHdr := none
  loadingB : Bool := false
  select : Table (BitVec 2) := []
  lateQuar : Option (BitVec 8) := none
  lateMaint : Option (BitVec 8) := none
  porHeld : Bool := true
  served : Bool := false
  bwdN : Bool := false
  ttripN : Bool := false
deriving DecidableEq, Repr

/-- A captured ring-window write and the tick of its arrival (R518). -/
structure Capture where
  lp : Nat
  off : BitVec 28
  data : BitVec 32
  be : BitVec 4
  tick : BitVec 32
deriving DecidableEq, Repr

/-- The drowse governor, the wake logic and the throttle (R508 to R524): registers, the level being entered,
a wake in progress with the tick of its source, the unbroken run of R512, whether a DROWSE_REQ awaits its
answer (R513), the level that a negotiation returns to, and the capture queue. -/
structure Pwr where
  maxlvl : BitVec 2 := 3
  dwell3 : BitVec 16 := 100
  dwell2 : BitVec 16 := 20
  ltolmin : BitVec 16 := 0xFFFF
  bind : BitVec 3 := 6
  permit : BitVec 2 := 0
  wakeValid : Bool := false
  wakeCause : BitVec 4 := 0
  wakeLat : BitVec 16 := 0
  hyst : BitVec 8 := 5
  t2 : BitVec 8 := 105
  t1 : BitVec 8 := 100
  tgt : BitVec 2 := 0
  hold : Bool := false
  step : BitVec 2 := 0
  res : Table (BitVec 64) := []
  entering : BitVec 2 := 0
  waking : Bool := false
  wakeTick : BitVec 64 := 0
  run : Bool := false
  reqOut : Bool := false
  nego : Bool := false
  capq : List Capture := []
deriving DecidableEq, Repr

end Sys2Proof.Machine
end

