-- ==== Sys2Proof/Machine/StateTwin.lean ====
section
/-! DEFINITION. Machine/StateTwin.lean: the state of the mirror link to the twin, of the decline ledger, the
ring shadows, the takeover, the Placia paths and their lanes, the membership table and tide
synchronisation. -/

namespace Sys2Proof.Machine

/-- One decline-ledger entry (R155). -/
structure Led where
  ring : BitVec 16
  sslot : BitVec 16
  xtag : BitVec 16
  wclass : BitVec 3
  wait : BitVec 16
deriving DecidableEq, Repr

/-- The ring shadow of one twin ring (R156, R160): the ring-state record's fields, the next consumption
pointer, and the newest posted slot with its phase. -/
structure Shadow where
  seen : Bool := false
  en : Bool := false
  sqb : BitVec 58 := 0
  cqb : BitVec 58 := 0
  sqlog : BitVec 5 := 0
  cqlog : BitVec 5 := 0
  group : BitVec 12 := 0
  credit : BitVec 16 := 0
  ddl : BitVec 16 := 0
  cons : BitVec 16 := 0
  posted : Option (BitVec 16) := none
  phase : Bool := true
deriving DecidableEq, Repr

/-- The adoption of one twin ring (R178, R180): the read of step 2, and whether the adopted ring still waits
for the host's first completion doorbell. -/
structure Adopt where
  reading : Bool := false
  failed : Bool := false
  adopted : Bool := false
  waitDb : Bool := false
deriving DecidableEq, Repr

/-- Progress of the fencing of one namespace (R172): 0 not issued, 1 issued, 2 issued again, 3 fenced,
4 its fence lost. -/
structure FenceNs where
  nguid : BitVec 128
  st : Nat
deriving DecidableEq, Repr

/-- The mirror link with the twin (R152, R155, R160, R217 to R220), its detection (R162) and the takeover
(R166 to R178).  `mq` holds records not yet sent, `maw` records that await a MACK, `rest` what is left of a
frame whose DECLINE found the decline hold full (R155), `shadowQ` written records that
will move a shadow's consumption pointer once CUM covers them, `asked` the block last asked by PAIR, `lostAt` the tick of the lost twin's
last heartbeat, `memberAt` the tick of the latest MEMBER message sent. `resvq` holds reservation commands that wait for
their queue, `regs` the namespaces whose registration of R192 step 2 is not complete, `held` those whose reservation this
block holds (R271). -/
structure Twin where
  rseqNext : W32 := 1
  mq : List MUnit := []
  maw : List MUnit := []
  fillTo : Option W32 := none
  resvq : List Resv := []
  regs : List (BitVec 128) := []
  held : List (BitVec 128) := []
  rxLast : W32 := 0
  ledger : List Led := []
  hold : List MUnit := []
  rest : List MUnit := []
  shadowQ : List MUnit := []
  shadow : Table Shadow := []
  last : W64 := 0
  lostAt : W64 := 0
  miss : BitVec 3 := 0
  wakeSent : Bool := false
  fset : List FenceNs := []
  fencing : Bool := false
  glean : Option Nat := none
  gleanDone : Bool := false
  adopt : Table Adopt := []
  formerPeer : Option (BitVec 16) := none
  lost : Option (BitVec 16) := none
  unpairing : Bool := false
  maintWait : Bool := false
  charterTwin : BitVec 16 := 0
  charterRole : BitVec 2 := 0
  raceLost : Bool := false
  retwin : Bool := false
  asked : Option (BitVec 16) := none
  primPath : Option Nat := none
  memberAt : W64 := 0
deriving DecidableEq, Repr

/-- What a sequenced frame carries, as its receiver acts on it (R195, R200, R217, R220, R221). -/
inductive Msg where
  | mirror (units : List MUnit)
  | mack (cum : W32)
  | fenced
  | unpair
  | pair
  | pairAck
  | drowseReq
  | drowseAck
  | wake
  | fence (num : BitVec 16)
  | abort (rqid : W32)
  | quiesce (berth : BitVec 16)
  | quiesceAck (berth : BitVec 16)
  | rcmd (rqid : W32) (berth : BitVec 16) (fused : Bool) (sqe : List W64)
  | rdata (rqid : W32) (off : W32) (last : Bool) (data : List Byte)
  | rcpl (rqid : W32) (rstat : BitVec 3) (st : List (BitVec 15))
deriving DecidableEq, Repr

/-- A sequenced frame sent and not yet acknowledged (R213): its type, body and units, the timer's doubling
(0 to 3) and whether the fast retransmission has been used. -/
structure TxF where
  seq : W32
  typ : BitVec 4
  body : List Byte
  units : Nat
  dbl : Nat
  fast : Bool
deriving DecidableEq, Repr

/-- A frame queued for its lane until it holds its credit (R214). -/
structure TxQ where
  typ : BitVec 4
  body : List Byte
deriving DecidableEq, Repr

/-- A received frame held until its turn (R210): its SEQ, body length, header bytes and contents. -/
structure HeldF where
  seq : W32
  len : BitVec 16
  hdr : List Byte
  msg : Msg
deriving DecidableEq, Repr

/-- One lane of one path, both directions (R209 to R214): the sender's next SEQ, credit, frames waiting for
credit and frames unacknowledged; the receiver's expected SEQ, held frames, credit units owed to the
peer, deliveries not yet acknowledged, and whether delivery waits for room (R155, R568). -/
structure Lane where
  seq : W32 := 0
  credit : Nat := 0
  wait : List TxQ := []
  unack : List TxF := []
  exp : W32 := 0
  held : List HeldF := []
  owed : Nat := 0
  unacked : Nat := 0
deriving DecidableEq, Repr

/-- One path of the path table (R202), with the peer epoch recorded (R205), the credit units that each payload lane has
been lent (R214), and the lane-0 messages that were dropped with the path and of which their owners are told (R208). -/
structure Path where
  en : Bool := false
  enc : Bool := false
  maxpl : BitVec 2 := 0
  sp : BitVec 2 := 0
  peer : BitVec 16 := 0
  asym : BitVec 16 := 0
  route : BitVec 16 := 0
  state : BitVec 2 := 0
  good : BitVec 2 := 0
  missed : BitVec 2 := 0
  epoch : BitVec 16 := 0
  retx : BitVec 16 := 0
  downs : BitVec 16 := 0
  peerEpoch : Option (BitVec 16) := none
  peerMode : BitVec 3 := 0
  peerStratum : BitVec 4 := 15
  heard : Bool := false
  lastHb : W64 := 0
  lent : Nat := 0
  told : List TxQ := []
  lanes : Table Lane := []
deriving DecidableEq, Repr

/-- The port-wide Placia registers and tide synchronisation (R223 to R228): the latest request's tag and
send time, and the offset that slewing has still to consume, in 1/16 tt. -/
structure Plc where
  cfg : Bool := false
  rto : BitVec 8 := 5
  udpport : BitVec 16 := 0
  errCrc : BitVec 8 := 0
  errHdr : BitVec 8 := 0
  errNopath : BitVec 8 := 0
  errEpoch : BitVec 8 := 0
  root : Bool := false
  stratum : BitVec 4 := 15
  ref : BitVec 6 := 0
  refOk : Bool := false
  offs : BitVec 16 := 0
  tag : BitVec 8 := 0
  reqOut : Option (BitVec 64) := none
  slew : Int := 0
  qdrops : Table (BitVec 16) := []
  qflags : Table (BitVec 4) := []
  portFail : BitVec 12 := 0
deriving DecidableEq, Repr

/-- A member of the membership table (R149), and the MEMBER set being collected (R200). -/
structure Member where
  known : Bool := false
  role : BitVec 2 := 0
  mode : BitVec 3 := 0
  twin : BitVec 16 := 0
  tstate : BitVec 3 := 0
  nguids : List (BitVec 128) := []
  last : W64 := 0
  setN : BitVec 8 := 0
  setTick : W64 := 0
  parts : Table (List (BitVec 128)) := []
  haveParts : List Nat := []
deriving DecidableEq, Repr

end Sys2Proof.Machine
end

