-- ==== Sys2Proof/Machine/State.lean ====
section
/-! DEFINITION. Machine/State.lean: the whole state of the block, the state after reset, and the reasons
a step can stop. -/

namespace Sys2Proof.Machine

/-- A device command as its submission entry gives it (R271, R278, R284): the one range of a Dataset Management as
(context attributes, length, start), PRP1 and PRP2, and MPTR. -/
structure DevCmd where
  opcode : BitVec 8
  fuse : BitVec 2 := 0
  nsid : W32
  cdw10 : W32 := 0
  cdw11 : W32 := 0
  cdw12 : W32 := 0
  range : Option (W32 × W32 × W64) := none
  prp : Option (W64 × W64) := none
  mptr : Option W64 := none
deriving DecidableEq, Repr

/-- What leaves the block at its ports and pins, newest first in `State.out` (log 4). -/
inductive Emit where
  | hostWrite (port lane : Nat) (pasid : Option (BitVec 20)) (addr : W64) (relaxed : Bool) (data : List Byte)
  | hostRead (port lane : Nat) (pasid : Option (BitVec 20)) (addr : W64) (len : Nat)
  | msix (port : Nat) (addr : W64) (data : W32)
  | frame (path : Nat) (route : BitVec 16) (enc : Bool) (usrc udst : BitVec 16) (bytes : List Byte)
  | dockRead (port : Nat) (addr : W64)
  | dockWrite (port : Nat) (addr : W64) (data : W64)
  | dockReply (port : Nat) (ok : Bool) (data : List Byte)
  | admin (ctl : Nat) (opcode : BitVec 8) (cdw10 cdw11 : BitVec 32) (nsid : BitVec 32) (prp : Option W64) (data : List Byte)
  | device (berth : Nat) (slot : Nat) (fence : Bool) (key : Option Nat) (c : DevCmd)
  | resv (ctl : Nat) (key : Nat) (opcode : BitVec 8) (cdw10 cdw11 : BitVec 32) (nsid : BitVec 32) (data : List Byte)
  | cipherKey (handle : Nat)
  | cipher (plane : Nat) (decrypt : Bool) (handle : BitVec 16) (gen : BitVec 32) (iv : BitVec 96) (aad data : List Byte)
  | flashWrite (page : Nat) (recs : List (List W64))
  | flashSlot (slotB : Bool) (off : Nat) (data : List Byte)
  | lcAdvance (lc : BitVec 2)
  | tdo (bits : List Bool)
deriving DecidableEq, Repr

/-- The build of the block, which nothing changes (R11), its mode (R17), whether a Quarantine is of kind FREEZE (R502), and start-up status. -/
structure Blk where
  build : Build := .ozL
  mode : BitVec 3 := 0
  dlevel : BitVec 2 := 0
  freeze : Bool := false
deriving DecidableEq, Repr

/-- The harbour, twin and takeover registers (R194) and the state of the twin's records. -/
structure Hbr where
  role : BitVec 2 := 0
  num : BitVec 16 := 0
  hid : W32 := 0
  tnum : BitVec 16 := 0
  tstate : BitVec 3 := 0
  prim : BitVec 2 := 0
  outcome : BitVec 2 := 0
  poolw : Bool := false
  tdone : Bool := false
  gleaned : BitVec 20 := 0
  tkot : W32 := 0
  fexec : BitVec 12 := 0
  fredrv : BitVec 12 := 0
  fundet : BitVec 8 := 0
  pdActive : Bool := false
  pdEn : Bool := false
deriving DecidableEq, Repr

/-- One staging slot (R235): whether a bay is bound to it, whether the bay was bound as a lighter's
destination, its bytes, and the ranges of it that an ended order read and did not move (R237). -/
structure Bay where
  bound : Bool := false
  dest : Bool := false
  data : Table Byte := []
  unread : List (Nat × Nat) := []
deriving DecidableEq, Repr

/-- A frame in a receive queue of a frame window (R568): path of arrival, header bytes, body. -/
structure RxFrame where
  path : BitVec 6
  hdr : List Byte
  body : List Byte
deriving DecidableEq, Repr

/-- The frame window of one seaward port (R568 to R570); `sent` is the body of the frame that BUSY waits for. -/
structure FWin where
  ctl : List RxFrame := []
  rcmd : List RxFrame := []
  rcpl : List RxFrame := []
  busy : Bool := false
  err : Bool := false
  path : BitVec 6 := 0
  lane : BitVec 3 := 0
  typ : BitVec 4 := 0
  len : BitVec 13 := 0
  body : Table W64 := []
  sent : List Byte := []
deriving DecidableEq, Repr

/-- One lane of a port toward the surrounding chip (R560): the credit that the block holds, in beats of 32 B, and the
packets that wait for credit. -/
structure QLane where
  credit : Nat := 0
  wait : List Emit := []
deriving DecidableEq, Repr

/-- The state of the block. -/
structure State where
  blk : Blk := {}
  tide : Tide := {}
  bells : Table Bell := []
  ecnt : Table Ecnt := []
  bwd : Bwd := {}
  evc : Evc := {}
  rings : Table Ring := []
  pick : Option Nat := none
  wm : BitVec 20 := 8192
  sres : BitVec 20 := 4096
  resvRefused : Bool := false
  own : Table Own := []
  mirror : Table Mir := []
  moor : Table Moor := []
  recq : List W64 := []
  hbr : Hbr := {}
  hm : Hm := {}
  mbrkLease : BitVec 16 := 0
  mbrkFault : BitVec 16 := 0
  mlast : W64 := 0
  xc : Table Xc := []
  admSeq : Nat := 0
  tw : Twin := {}
  paths : Table Path := []
  plc : Plc := {}
  members : Table Member := []
  berths : Table Berth := []
  ctls : Table Ctl := []
  dqs : Table Dq := []
  dcmds : Table (Option DCmd) := []
  resvs : Table (Option Resv) := []
  dock : Dock := {}
  serves : Table (Option Serve) := []
  pilots : Table Pilot := []
  cask : Table TWord := []
  cellar : Table TWord := []
  celOwn : Table (BitVec 2) := [(0, 1), (1, 1)]
  bays : Table Bay := []
  arbCount : W32 := 0
  arbs : Table Arb := []
  ltr : Ltr := {}
  boot : Boot := {}
  pwr : Pwr := {}
  code : Table W32 := []
  hmmem : Table TWord := []
  chk : Table Chk := []
  csrc : Table Csrc := []
  gm : Table Gm := []
  vbank : Table VBank := []
  graft : Table Graft := []
  vin : Vin := {}
  dbg : Dbg := {}
  fstop : Bool := false
  fwin : Table FWin := []
  qtx : Table QLane := []
  ctlRdat : W64 := 0
  ctlErr : Bool := false
  out : List Emit := []
  freeCtr : Nat := 0
  pending : List Instr := []
deriving DecidableEq, Repr

/-- The pilots after power-on reset: the spare of each cluster is slot 4 (R436), and the Harbourmaster's
processor, number 0x7F, is out of reset and runs its rootstock (R18, R486). -/
def resetPilots (b : Build) : Table Pilot :=
  (List.range b.clusters).map (fun c => (8 * c + 4, ({ role := .spare } : Pilot))) ++ [(127, { inReset := false })]

/-- A block of build `b` after power-on reset. -/
def State.resetOf (b : Build) : State := { blk := { build := b }, pilots := resetPilots b }

/-- The block after power-on reset: of OZ-L, the build that the manual's figures are for (R2, log 1). -/
def State.reset : State := State.resetOf .ozL

/-- Why a step stops with a fault: no rule of the spec stops the block, so no meaning raises one. -/
inductive Fault where
  /-- Raised by no meaning; safe. -/
  | none
deriving DecidableEq, Repr

/-- Why a step is refused. -/
inductive Refusal where
  /-- A command that has no meaning yet, by its mnemonic; safe. -/
  | notModelled (mnemonic : String)
deriving DecidableEq, Repr

end Sys2Proof.Machine
end

