-- ==== Sys2Proof/Machine/Arb.lean ====
section
/-! DEFINITION. Machine/Arb.lean: the arbiters of the data planes and of the Manifest access path (R105 to R109). -/

namespace Sys2Proof.Machine

/-- The arbiter of data plane `n`. -/
def planeArb (n : Nat) : Nat := n
/-- The arbiter of the Manifest access path, which the Gleaner uses. -/
def manifestArb : Nat := 2

def arbOf (s : State) (k : Nat) : Arb := Table.get {} s.arbs k
def setArb (s : State) (k : Nat) (a : Arb) : State := { s with arbs := Table.put {} s.arbs k a }

/-- Requester numbers (R107), which no rule gives to the Harbourmaster and the Gleaner (log 68). -/
def Asker.no : Asker → Nat
  | .unit n => n
  | .harbourmaster => 127
  | .gleaner => 128

/-- The two requesters of R106. -/
def Asker.favoured : Asker → Bool
  | .unit _ => false
  | _ => true

/-- The grants that the two have taken in the aligned window of 64 fc that holds `now` (R106). -/
def Arb.taken (a : Arb) (now : BitVec 32) : Nat := if a.win = now >>> 6 then a.used else 0

/-- Request `x` is served before `y` (R105 to R107): by class, the favoured within their quota, the older by fc count
modulo 2^32, and the lower requester number. -/
def Arb.before (a : Arb) (now : BitVec 32) (x y : ArbReq) : Bool :=
  let fx := x.who.favoured && decide (a.taken now < 8)
  let fy := y.who.favoured && decide (a.taken now < 8)
  if x.cls ≠ y.cls then decide (x.cls < y.cls)
  else if fx ≠ fy then fx
  else if x.stamp ≠ y.stamp then decide ((now - y.stamp).toNat < (now - x.stamp).toNat)
  else decide (x.who.no < y.who.no)

/-- The request that the arbiter serves next. -/
def Arb.best (a : Arb) (now : BitVec 32) : Option ArbReq :=
  a.reqs.foldl (fun b r =>
    match b with
    | none => some r
    | some x => if a.before now r x then some r else some x) none

/-- A request becomes pending; a requester has at most one in each class (R107, R108). -/
def Arb.ask (a : Arb) (now : BitVec 32) (cls : Nat) (who : Asker) : Arb :=
  if a.reqs.any (fun r => decide (r.cls = cls) && decide (r.who = who)) then a
  else { a with reqs := a.reqs ++ [⟨cls, who, now⟩] }

/-- A pending request is withdrawn, and its stamp discarded (R108). -/
def Arb.withdraw (a : Arb) (cls : Nat) (who : Asker) : Arb :=
  { a with reqs := a.reqs.filter (fun r => !(decide (r.cls = cls) && decide (r.who = who))) }

/-- A free arbiter grants the next request (R105 to R107). -/
def Arb.serve (a : Arb) (now : BitVec 32) : Arb :=
  if a.grant.isSome then a
  else
    match a.best now with
    | none => a
    | some r =>
      let b := a.withdraw r.cls r.who
      if r.who.favoured then { b with grant := some r, win := now >>> 6, used := a.taken now + 1 }
      else { b with grant := some r }

/-- The holder of the grant has used it, or releases it (R108). -/
def Arb.release (a : Arb) (who : Asker) : Arb :=
  if a.grant.any (fun r => decide (r.who = who)) then { a with grant := none } else a

/-- The grant of a class 2 burst is revoked, and its requester asks again with its stamp (R109). -/
def Arb.revoke (a : Arb) : Arb :=
  match a.grant with
  | some r => if r.cls = 2 then { a with grant := none, reqs := a.reqs ++ [r] } else a
  | none => a

/-- A requester asks arbiter `k`, is granted when its turn comes, and releases the grant: what a command does that
crosses an arbiter at once. -/
def arbPass (s : State) (k cls : Nat) (who : Asker) : State :=
  let a := ((arbOf s k).ask s.arbCount cls who).serve s.arbCount
  setArb s k (((a.release who).withdraw cls who).serve s.arbCount)

/-- The data plane of lighter `l`. -/
def lighterPlane (s : State) (l : Nat) : Nat := l % s.blk.build.planes

/-- A lighter with bursts to move asks its plane for a grant (R250). -/
def planeAsk (s : State) (l : Nat) : State :=
  let k := planeArb (lighterPlane s l)
  setArb s k (((arbOf s k).ask s.arbCount 2 (.unit l)).serve s.arbCount)

/-- A lighter with no more bursts to move gives up its grant, or withdraws its request (R108). -/
def planeLeave (s : State) (l : Nat) : State :=
  let k := planeArb (lighterPlane s l)
  setArb s k ((((arbOf s k).withdraw 2 (.unit l)).release (.unit l)).serve s.arbCount)

/-- The requester number of pilot-lane traffic at a plane, after the lighters' (log 68). -/
def pilotLane : Asker := .unit 32

end Sys2Proof.Machine
end

