-- ==== Sys2Proof/Machine/Ops.lean ====
section
/-! DEFINITION. Machine/Ops.lean: the named operations over the state that every family shares: reads and
writes of pilots, banks, rings, entries and moorings, free values, what leaves the block, and the event
controller's raising of sources. -/

namespace Sys2Proof.Machine

/-- Every command's answer is one of the three outcomes of the host. -/
abbrev Out := Host.Outcome State Fault Refusal

/-! Small helpers. -/

/-- One bit as a one-bit vector. -/
def bit1 (b : Bool) : BitVec 1 := if b then 1 else 0

/-- Saturating increment (every counter described as saturating). -/
def satInc {w : Nat} (x : BitVec w) : BitVec w := if x = BitVec.allOnes w then x else x + 1

/-- Saturating addition of a natural number. -/
def satAdd {w : Nat} (x : BitVec w) (n : Nat) : BitVec w :=
  if x.toNat + n < 2 ^ w then BitVec.ofNat w (x.toNat + n) else BitVec.allOnes w

/-- The first `n` bytes of a number, least significant first (R4). -/
def leBytes : Nat → Nat → List Byte
  | 0, _ => []
  | n + 1, v => BitVec.ofNat 8 v :: leBytes n (v / 256)

/-- The number a list of bytes spells, least significant first (R4). -/
def leNat : List Byte → Nat
  | [] => 0
  | b :: bs => b.toNat + 256 * leNat bs

/-- The 64-bit words a list of bytes spells; a short tail is padded with zeros. -/
def leWords : Nat → List Byte → List W64
  | 0, _ => []
  | n + 1, bs => BitVec.ofNat 64 (leNat (bs.take 8)) :: leWords n (bs.drop 8)

/-- Beats of a packet: a header beat and data beats of 32 B (R560). -/
def beats (len : Nat) : Nat := 1 + (len + 31) / 32

/-- The port (0 to 3 landward, 4 to 7 dock, 8 to 11 seaward), lane and beats of a packet (R564); none for what leaves
by no quay stream.  A command to a device stands in its queue; what leaves for it is the doorbell write (R280). -/
def quayOf (s : State) (e : Emit) : Option (Nat × Nat × Nat) :=
  match e with
  | .hostWrite p l _ _ _ d => some (p, l, beats d.length)
  | .hostRead p l _ _ _ => some (p, l, 1)
  | .msix p _ _ => some (p, 0, 2)
  | .frame p _ _ _ _ b =>
    some (8 + (Table.get {} s.paths p).sp.toNat, ((b.getD 2 0).extractLsb' 5 3).toNat, beats b.length)
  | .dockRead p _ => some (4 + p, 0, 1)
  | .dockWrite p _ _ => some (4 + p, 0, 2)
  | .dockReply p _ d => some (4 + p, 0, beats d.length)
  | _ => none

/-- Waiting packets of a lane leave in order while credit for all their beats is held (R560). -/
def pumpQuay : Nat → State → Nat → State
  | 0, s, _ => s
  | n + 1, s, k =>
    let q := Table.get {} s.qtx k
    match q.wait with
    | [] => s
    | e :: es =>
      let b := match quayOf s e with
        | some (_, _, b) => b
        | none => 0
      if b ≤ q.credit then
        pumpQuay n { s with qtx := Table.put {} s.qtx k { credit := q.credit - b, wait := es }, out := e :: s.out } k
      else s

/-- Something leaves the block: at once, or when its lane holds credit for it (R560). -/
def emit (s : State) (e : Emit) : State :=
  match quayOf s e with
  | none => { s with out := e :: s.out }
  | some (p, l, _) =>
    let k := 8 * p + l
    let q := Table.get {} s.qtx k
    pumpQuay (q.wait.length + 1) { s with qtx := Table.put {} s.qtx k { q with wait := q.wait ++ [e] } } k

/-- A free value, and the state with the counter of free values advanced (log 3). -/
def takeFree (s : State) : W64 × State := (Config.freeWord s.freeCtr, { s with freeCtr := s.freeCtr + 1 })

/-- The low 48 bits and more of a tick as a number. -/
def now (s : State) : W64 := s.tide.count

/-- Ticks from `t` to now. -/
def since (s : State) (t : W64) : Nat := (s.tide.count - t).toNat

/-! Tables of the state. -/

/-- A word tagged INT (R307). -/
def intW (v : W64) : TWord := ⟨v, 1⟩

def hmWord (s : State) (k : Nat) : TWord := Table.get emptyW s.hmmem k
def setHmWord (s : State) (k : Nat) (w : TWord) : State := { s with hmmem := Table.put emptyW s.hmmem k w }

/-- Write one record of the event log (R526, R530): four words at the next record slot.  The severity is
a free value, since no rule gives a code its severity (log 20). -/
def hmLog (s : State) (code : BitVec 16) (d0 d1 : W64) : State :=
  let (f, s) := takeFree s
  let k := 0x28000 + 4 * s.hm.lognext.toNat
  let w1 : W64 := s.hm.seqNext ++ (0 : BitVec 8) ++ bit1 s.tide.unsync ++ (0 : BitVec 4) ++
    f.extractLsb' 0 3 ++ code
  let rec4 := [intW s.tide.count, intW w1, intW d0, intW d1]
  let s := { s with hmmem := Table.putList emptyW s.hmmem k rec4 }
  let h := s.hm
  let full := decide (2048 ≤ h.uncopied)
  { s with hm := { h with
      lognext := h.lognext + 1, seqNext := h.seqNext + 1,
      oldest := if h.uncopied = 0 then s.tide.count else h.oldest,
      uncopied := if full then h.uncopied else h.uncopied + 1,
      lost := if full then satInc h.lost else h.lost } }

def pilot (s : State) (p : Nat) : Pilot := Table.get {} s.pilots p
def setPilot (s : State) (p : Nat) (x : Pilot) : State := { s with pilots := Table.put {} s.pilots p x }
def updPilot (s : State) (p : Nat) (f : Pilot → Pilot) : State := setPilot s p (f (pilot s p))

def ring (s : State) (n : Nat) : Ring := Table.get {} s.rings n
def setRing (s : State) (n : Nat) (r : Ring) : State := { s with rings := Table.put {} s.rings n r }
def updRing (s : State) (n : Nat) (f : Ring → Ring) : State := setRing s n (f (ring s n))

def own (s : State) (i : Nat) : Own := Table.get {} s.own i
def setOwn (s : State) (i : Nat) (e : Own) : State := { s with own := Table.put {} s.own i e }
def updOwn (s : State) (i : Nat) (f : Own → Own) : State := setOwn s i (f (own s i))

def mirr (s : State) (i : Nat) : Mir := Table.get {} s.mirror i
def setMirr (s : State) (i : Nat) (e : Mir) : State := { s with mirror := Table.put {} s.mirror i e }

def aloneMoor (s : State) (i : Nat) : Moor := Table.get {} s.moor i
def setAloneMoor (s : State) (i : Nat) (e : Moor) : State := { s with moor := Table.put {} s.moor i e }

def xctx (s : State) (i : Nat) : Xc := Table.get {} s.xc i
def setXctx (s : State) (i : Nat) (x : Xc) : State := { s with xc := Table.put {} s.xc i x }
def updXctx (s : State) (i : Nat) (f : Xc → Xc) : State := setXctx s i (f (xctx s i))

def chkOf (s : State) (c : Nat) : Chk := Table.get {} s.chk c
def setChk (s : State) (c : Nat) (x : Chk) : State := { s with chk := Table.put {} s.chk c x }

def csrcOf (s : State) (c : Nat) : Csrc := Table.get {} s.csrc c
def setCsrc (s : State) (c : Nat) (x : Csrc) : State := { s with csrc := Table.put {} s.csrc c x }

def vbankOf (s : State) (c : Nat) (v : Bool) : VBank := Table.get {} s.vbank (2 * c + v.toNat)
def setVbank (s : State) (c : Nat) (v : Bool) (x : VBank) : State :=
  { s with vbank := Table.put {} s.vbank (2 * c + v.toNat) x }

def fwinOf (s : State) (p : Nat) : FWin := Table.get {} s.fwin p
def setFwin (s : State) (p : Nat) (x : FWin) : State := { s with fwin := Table.put {} s.fwin p x }

/-- A fresh execution context of the program at `prog` (R28, R41): position unset, match mark clear. -/
def Xc.fresh (prog : BitVec 60) : Xc := { active := true, next := prog ++ (0 : BitVec 4) }

def berth (s : State) (b : Nat) : Berth := Table.get {} s.berths b
def setBerth (s : State) (b : Nat) (x : Berth) : State := { s with berths := Table.put {} s.berths b x }
def Berth.slot (x : Berth) (k : Nat) : Slot := Table.get {} x.slots k
def Berth.setSlot (x : Berth) (k : Nat) (v : Slot) : Berth := { x with slots := Table.put {} x.slots k v }

def ctlOf (s : State) (c : Nat) : Ctl := Table.get {} s.ctls c
def setCtl (s : State) (c : Nat) (x : Ctl) : State := { s with ctls := Table.put {} s.ctls c x }
def dqOf (s : State) (q : Nat) : Dq := Table.get {} s.dqs q
def setDq (s : State) (q : Nat) (x : Dq) : State := { s with dqs := Table.put {} s.dqs q x }
def dcmdOf (s : State) (k : Nat) : Option DCmd := Table.get none s.dcmds k
def setDcmd (s : State) (k : Nat) (x : Option DCmd) : State := { s with dcmds := Table.put none s.dcmds k x }

def pathOf (s : State) (p : Nat) : Path := Table.get {} s.paths p
def setPath (s : State) (p : Nat) (x : Path) : State := { s with paths := Table.put {} s.paths p x }
def updPath (s : State) (p : Nat) (f : Path → Path) : State := setPath s p (f (pathOf s p))
def Path.lane (x : Path) (k : Nat) : Lane := Table.get {} x.lanes k
def Path.setLane (x : Path) (k : Nat) (v : Lane) : Path := { x with lanes := Table.put {} x.lanes k v }

def shadow (s : State) (n : Nat) : Shadow := Table.get {} s.tw.shadow n
def updTw (s : State) (f : Twin → Twin) : State := { s with tw := f s.tw }
def setShadow (s : State) (n : Nat) (x : Shadow) : State :=
  updTw s (fun t => { t with shadow := Table.put {} t.shadow n x })

/-- Half the configuration's ring count (R157). -/
def halfRings (s : State) : Nat := s.blk.build.rings / 2

/-- The ring in this block whose slots an entry's RING and CQSLOT name (R116, R157). -/
def ringOfEntry (s : State) (e : Own) : Nat := if e.tr then halfRings s + e.ring.toNat else e.ring.toNat

/-- The block is in Quarantine of kind DRAIN or FREEZE (R502). -/
def quarDrain (s : State) : Bool := decide (s.blk.mode = 6) && !s.blk.freeze
def quarFreeze (s : State) : Bool := decide (s.blk.mode = 6) && s.blk.freeze

/-- The block's exchanges are frozen (R173, R503). -/
def frozen (s : State) : Bool := quarFreeze s || s.tw.raceLost

/-! Landward reads of an exchange, and its held records. -/

/-- The PASID of a ring's landward accesses (R66). -/
def Ring.pas (r : Ring) : Option (BitVec 20) := if r.pv then some r.pasid else none

/-- A landward read for the exchange of entry `i`, on its ring's port with its ring's PASID (R66, R158, R564); of `n`
bytes at `a`. -/
def hostFetch (s : State) (i : Nat) (a : W64) (n : Nat) : State :=
  let r := ring s (ringOfEntry s (own s i))
  emit s (.hostRead r.lport.toNat 0 r.pas a n)

/-- An entry placed at ISSUED by the Gleaner, whose fence-log resolution is still to come (R183). -/
def settling (s : State) (i : Nat) : Bool := (xctx s i).resolve

/-- The whole-program check waits for the gather list of its present word (R31). -/
def PreX.waitsList (p : Option PreX) : Bool := (p.bind (·.listOf)).isSome

/-- The exchange waits for its next command word. -/
def wantsWord (s : State) (i : Nat) : Bool :=
  let x := xctx s i
  let e := own s i
  x.active && !x.ended && x.cur.isNone && !x.heldWait && !e.held && decide (1 ≤ e.st.toNat) && decide (e.st.toNat ≤ 3) &&
    !(settling s i && x.preMut.isSome) && !PreX.waitsList x.pre

/-- The address of the next command word: of the whole-program check while that runs (R38), else of the program. -/
def Xc.nextAddr (x : Xc) : W64 :=
  match x.pre with
  | some p => p.addr
  | none => x.next

/-- The next command word is read (R28, R30): one word, none ahead, which R33 allows. -/
def fetchWord (s : State) (i : Nat) : State :=
  if wantsWord s i && !frozen s then hostFetch s i (xctx s i).nextAddr 16 else s

/-- A queued held record of entry `i` starts no hold any more: it is written as the report that it is. -/
def SlotUse.release (i : Nat) (u : Option SlotUse) : Option SlotUse :=
  match u with
  | some (.held j g x) => if j = i then some (.prog j g x) else u
  | _ => u

/-- Entry `i` waits for no held record any more (R48, R60): one without a slot is never written, and one that has its
slot starts no hold. -/
def unhold (s : State) (i : Nat) : State :=
  updRing s (ringOfEntry s (own s i)) (fun r =>
    { r with helds := r.helds.filter (fun j => decide (j ≠ i)),
             slots := Table.mapVals none (fun _ u => SlotUse.release i u) r.slots })

def Pilot.bankOf (x : Pilot) (k : Nat) : Bank := Table.get {} x.banks k
def Pilot.setBank (x : Pilot) (k : Nat) (b : Bank) : Pilot := { x with banks := Table.put {} x.banks k b }
def Pilot.bankCur (x : Pilot) : Bank := x.bankOf x.cur
def Pilot.setCur (x : Pilot) (b : Bank) : Pilot := x.setBank x.cur b
def Pilot.setOf (x : Pilot) (n : Nat) : SaveSet := Table.get {} x.sets n
def Pilot.putSet (x : Pilot) (n : Nat) (v : SaveSet) : Pilot := { x with sets := Table.put {} x.sets n v }

/-- The number of the Harbourmaster's processor (R134, R453). -/
def hmNo : Nat := 127

/-- A number that is a pilot's: slots 0 to 4 of the build's clusters (R11, R134). -/
def isPilot (s : State) (p : Nat) : Bool := decide (p < 8 * s.blk.build.clusters) && decide (p % 8 ≤ 4)

/-- A pilot number that exists: a pilot's, or the Harbourmaster's. -/
def pilotExists (s : State) (p : Nat) : Bool := isPilot s p || decide (p = hmNo)

/-- The cluster of a pilot number. -/
def clusterOf (p : Nat) : Nat := p / 8

/-- All pilot numbers, the Harbourmaster first (R455). -/
def pilotNos (s : State) : List Nat :=
  hmNo :: (List.range (8 * s.blk.build.clusters)).filter (fun p => decide (p % 8 ≤ 4))

/-! The event controller. -/

def srcOf (s : State) (n : Nat) : Src := Table.get {} s.evc.src n
def setSrc (s : State) (n : Nat) (x : Src) : State :=
  { s with evc := { s.evc with src := Table.put {} s.evc.src n x } }

/-- A level source of R449. -/
def isLevelSrc (n : Nat) : Bool :=
  decide (n ≤ 2) || (decide (0x300 ≤ n) && decide (n ≤ 0x30F) && decide (n % 4 ≠ 3))

/-- An edge source of R449 that can assert; a seaward port or a device queue that the build lacks has none (R11). -/
def isEdgeSrc (s : State) (n : Nat) : Bool :=
  (decide (3 ≤ n) && decide (n ≤ 9)) || (decide (0x20 ≤ n) && decide (n ≤ 0x2FF)) ||
  (decide (0x300 ≤ n) && decide (n < 0x300 + 4 * s.blk.build.ports) && decide (n % 4 = 3)) ||
  (decide (0x400 ≤ n) && decide (n < 0x400 + s.blk.build.queues)) ||
  (decide (0xF00 ≤ n) && decide (n ≤ 0xF7F) && pilotExists s (n - 0xF00))

/-- A source whose EVC.SRC entry exists: a level or edge source, or the spurious source (R449). -/
def srcExists (s : State) (n : Nat) : Bool :=
  (isLevelSrc n && decide (n < 0x300 + 4 * s.blk.build.ports)) || isEdgeSrc s n || decide (n = 0xFFF)

/-- The present input of a level source (R449); an edge source reads as the sampled input. -/
def srcIn (s : State) (n : Nat) : Bool :=
  if n = 0 then s.pick.isSome
  else if n = 1 then !s.recq.isEmpty
  else if n = 2 then !s.evc.relq.isEmpty
  else if isLevelSrc n then
    let w := fwinOf s ((n - 0x300) / 4)
    if n % 4 = 0 then !w.ctl.isEmpty
    else if n % 4 = 1 then !w.rcmd.isEmpty
    else !w.rcpl.isEmpty
  else (srcOf s n).inp

/-- PEND of a source (R451, R452). -/
def pendOf (s : State) (n : Nat) : Bool :=
  let x := srcOf s n
  x.en && (if isLevelSrc n then x.claim.isNone && srcIn s n else x.pend)

/-- A source with a latch in the always-on domain (R461). -/
def hasLatch (n : Nat) : Bool :=
  (decide (0x200 ≤ n) && decide (n ≤ 0x2FF)) || (decide (0x100 ≤ n) && decide (n ≤ 0x1FF)) ||
  (decide (0x300 ≤ n) && decide (n ≤ 0x30F) && decide (n % 4 = 0)) || decide (n = 9)

def tsetOf (s : State) (k : Nat) : BitVec 128 := Table.get 0 s.evc.tset k

/-- The Harbourmaster is a target of source `n` (R453, R460). -/
def hmTarget (s : State) (n : Nat) : Bool :=
  (srcOf s n).hmT ||
  (!(decide (0xF00 ≤ n) && decide (n ≤ 0xF7F)) && (tsetOf s (srcOf s n).tset.toNat).getLsbD 127) ||
  decide (n = 0xF00 + hmNo)

/-- Bit `n` of LVCFG.LW: level `n` is handled in the sealed world (R366). -/
def Pilot.lwBit (x : Pilot) (n : Nat) : Bool := decide (1 ≤ n) && x.lw.getLsbD (n - 1)

/-- Pilot `p` is an eligible target of source `n` (R450, R453). -/
def eligible (s : State) (n p : Nat) : Bool :=
  if p = hmNo then hmTarget s n
  else
    let x := pilot s p
    let lv := (srcOf s n).level.toNat
    let inMask :=
      if 0xF00 ≤ n ∧ n ≤ 0xF7F then decide (n = 0xF00 + p)
      else (tsetOf s (srcOf s n).tset.toNat).getLsbD p
    pilotExists s p && inMask && decide (x.role = .active) && !(csrcOf s (clusterOf p)).hold &&
      decide ((chkOf s (clusterOf p)).state ≠ 2) &&
      (if 1 ≤ lv ∧ lv ≤ 6 ∧ x.lwBit lv = false then !x.sw.world else true)

/-- The source has at least one eligible target. -/
def hasTarget (s : State) (n : Nat) : Bool := (pilotNos s).any (eligible s n)

/-- A pending source with no eligible target sets ORPHAN.ANY and ORPHAN.LAST (R460). -/
def noteOrphan (s : State) (n : Nat) : State :=
  if pendOf s n && !hasTarget s n then
    { s with evc := { s.evc with orphAny := true, orphLast := BitVec.ofNat 12 n } }
  else s

/-- ORPH of a source (R460). -/
def orphOf (s : State) (n : Nat) : Bool := pendOf s n && !hasTarget s n

/-- An edge reaches an edge source (R451): it sets PEND, or merges into a pending event.  While the
fast clock is stopped a latched source keeps it in the always-on latch (R461). -/
def edgeOnly (s : State) (n : Nat) : State :=
  let x := srcOf s n
  if s.fstop && hasLatch n then
    { s with evc := { s.evc with latch := Table.upd 0 s.evc.latch n (· + 1) } }
  else if !x.en then s
  else if x.pend then { s with evc := { s.evc with merge := satInc s.evc.merge } }
  else noteOrphan (setSrc s n { x with pend := true }) n

def ecntOf (s : State) (k : Nat) : Ecnt := Table.get {} s.ecnt k
def setEcnt (s : State) (k : Nat) (x : Ecnt) : State := { s with ecnt := Table.put {} s.ecnt k x }

/-- The event counters that count rising edges of source `n` (R476). -/
def countersOf (s : State) (n : Nat) : List Nat :=
  (List.range 64).filter (fun k =>
    decide ((ecntOf s k).kind = 1) && decide ((ecntOf s k).src.toNat = n))

mutual
/-- Counter `k` counts `n` more (R476, R477): a wrap sets OVF, counts in a chained counter k + 1 and
raises ECOUNT k.  `fuel` bounds the chain of counters that wrap. -/
def ecAdd : Nat → State → Nat → Nat → State
  | 0, s, _, _ => s
  | fuel + 1, s, k, n =>
    let e := ecntOf s k
    let v := e.val.toNat + n
    if v < 2 ^ 32 then setEcnt s k { e with val := BitVec.ofNat 32 v }
    else
      let s := setEcnt s k { e with val := BitVec.ofNat 32 v, ovf := true }
      let s := if k < 63 ∧ (ecntOf s (k + 1)).kind = 4 then ecAdd fuel s (k + 1) 1 else s
      raiseF fuel s (0x40 + k)
/-- A rising edge of source `n`'s input: event counters of KIND 1 count it (R476), then the source
takes the edge (R451). -/
def raiseF : Nat → State → Nat → State
  | 0, s, _ => s
  | fuel + 1, s, n =>
    let s := if s.fstop then s else countAll fuel s (countersOf s n)
    edgeOnly s n
/-- Each listed counter counts one. -/
def countAll : Nat → State → List Nat → State
  | 0, s, _ => s
  | _, s, [] => s
  | fuel + 1, s, k :: ks => countAll fuel (ecAdd fuel s k 1) ks
end

/-- A rising edge of edge source `n` (R449, R451, R476). -/
def raise (s : State) (n : Nat) : State :=
  if isEdgeSrc s n then raiseF 200 s n else s

/-- Level source `n` is sampled (R452): a rise counts in the event counters of KIND 1. -/
def sampleLevel (s : State) (n : Nat) : State :=
  let v := srcIn s n
  let x := srcOf s n
  if x.inp = v then s
  else
    let s := setSrc s n { x with inp := v }
    noteOrphan (if v then countAll 200 s (countersOf s n) else s) n

/-- What is presented to pilot `p` (R454): the pending event of the highest level among the sources it is
an eligible target of, the lower number on a tie. -/
def presented (s : State) (p : Nat) : Option (Nat × BitVec 3) :=
  s.evc.src.foldl (fun best e =>
    if pendOf s e.1 && eligible s e.1 p then
      match best with
      | none => some (e.1, e.2.level)
      | some (m, l) => if e.2.level > l then some (e.1, e.2.level) else some (m, l)
    else best) none

/-- The level an event is taken at: a presented level 7 is taken as level 6 (R364). -/
def takenLevel (l : BitVec 3) : BitVec 3 := if l = 7 then 6 else l

/-- A source whose claim satisfies `f` loses it. -/
def dropClaim (f : Nat → Claim → Bool) (n : Nat) (x : Src) : Src :=
  match x.claim with
  | some c => if f n c then { x with claim := none } else x
  | none => x

/-- Release the claims on level sources that satisfy `f` (R452). -/
def releaseClaims (s : State) (f : Nat → Claim → Bool) : State :=
  let t := Table.mapVals {} (dropClaim f) s.evc.src
  { s with evc := { s.evc with src := t } }

end Sys2Proof.Machine
end

