-- ==== Sys2Proof/Machine/ModeCore.lean ====
section
/-! DEFINITION. Machine/ModeCore.lean: a change of BLK.MODE and what follows it everywhere: the log (R530), the
MODE trace packet (R553) and the tide reference (R223). -/

namespace Sys2Proof.Machine

/-! Debug rights and trace packets. -/

/-- The life cycle grants Development rights to a debugger (R541). -/
def devRights (s : State) : Bool :=
  decide (s.hm.lc.toNat ≤ 1) || (decide (s.hm.lc = 2) && s.dbg.unlk)

/-- Write one trace packet (R553, R554); `ovf` is the OVF mark of the source.  Answers whether it was
written. -/
def putPacket (s : State) (typ : BitVec 4) (srcid : BitVec 7) (ch : BitVec 5) (ovf : Bool) (payload : W64) :
    State × Bool :=
  let d := s.dbg
  if !d.ten then (s, false)
  else if d.tstop && d.wrapped then ({ s with dbg := { d with tlost := satInc d.tlost } }, false)
  else
    let w : BitVec 128 := typ ++ srcid ++ ch ++ bit1 s.tide.unsync ++ bit1 ovf ++ (0 : BitVec 2) ++
      s.tide.count.extractLsb' 0 44 ++ payload
    ({ s with dbg := { d with trace := Table.put 0 d.trace d.wr.toNat w, wr := d.wr + 1,
                              wrapped := d.wrapped || decide (d.wr = 0x3FFF) } }, true)

/-- A packet of pilot `p`: a lost packet marks the source, and the next one carries OVF (R554). -/
def packet (s : State) (p : Nat) (typ : BitVec 4) (ch : BitVec 5) (payload : W64) : State :=
  if !s.dbg.ten then s
  else
    let (s, ok) := putPacket s typ (BitVec.ofNat 7 p) ch (pilot s p).dbg.ovf payload
    updPilot s p (fun x => { x with dbg := { x.dbg with ovf := !ok } })

/-! Tide reference (R223). -/

/-- The block counts as one that may be root by its mode. -/
def rootMode (m : BitVec 3) : Bool := decide (m = 3) || decide (m = 4) || decide (m = 5)

/-- The least stratum below 15 that a PROVEN path's heartbeats show, with its peer, the lower number on a tie (R223). -/
def bestPeer (s : State) : Option (BitVec 4 × BitVec 16) :=
  s.paths.foldl (fun (b : Option (BitVec 4 × BitVec 16)) (e : Nat × Path) =>
    let x := e.2
    if x.en && decide (x.state = 2) && decide (x.peerStratum ≠ 15) then
      match b with
      | none => some (x.peerStratum, x.peer)
      | some (st, n) =>
        if x.peerStratum < st ∨ (x.peerStratum = st ∧ x.peer < n) then some (x.peerStratum, x.peer) else some (st, n)
    else b) none

/-- The reference (R223): the lowest-numbered PROVEN path to the chosen peer, and the peer's stratum. -/
def bestRef (s : State) : Option (Nat × BitVec 4) :=
  match bestPeer s with
  | none => none
  | some (st, n) =>
    (s.paths.find? (fun e => e.2.en && decide (e.2.state = 2) && decide (e.2.peer = n))).map (fun e => (e.1, st))

/-- ROOT, STRATUM and REF as the membership table and the paths make them (R223). -/
def retide (s : State) : State :=
  let root := rootMode s.blk.mode && !s.members.any (fun e => e.2.known && decide (e.1 < s.hbr.num.toNat) && rootMode e.2.mode)
  let q := s.plc
  if root then { s with plc := { q with root := true, stratum := 0, refOk := false } }
  else
    match bestRef s with
    | some (p, st) => { s with plc := { q with root := false, refOk := true, ref := BitVec.ofNat 6 p, stratum := st + 1 } }
    | none => { s with plc := { q with root := false, refOk := false, stratum := 15 } }

/-! Wakes and modes. -/

/-- A wake starts for cause `c` (R509, R517, R519, R521): an entry under way is abandoned.  A block that is
awake has no wake to start. -/
def startWake (s : State) (c : BitVec 4) : State :=
  if s.blk.mode ≠ 4 ∧ s.pwr.entering = 0 then s
  else if s.pwr.waking then s
  else { s with pwr := { s.pwr with waking := true, wakeCause := c, wakeTick := s.tide.count, run := false } }

/-- A control-port access outside the BLK, HBR, TIDE, BELL, PWR and HM regions wakes a drowsing block (R519); the command
is the whole access, its wait included (log 44). -/
def ctlWake (rq : Requester) (s : State) : State :=
  match rq with
  | .ctl => startWake s 5
  | _ => s

/-- BLK.MODE changes (R17, R500): the change is logged, a MODE packet follows while DBG.TCTL.MODE is 1, and the
tide root is judged again. -/
def setMode (s : State) (m : BitVec 3) (d : BitVec 2) : State :=
  if s.blk.mode = m ∧ s.blk.dlevel = d then s
  else
    let old := s.blk.mode
    let s := { s with blk := { s.blk with mode := m, dlevel := d } }
    let s := hmLog s 0x103 ((old ++ m).setWidth 64) ((s.boot.qcause ++ s.boot.mcause).setWidth 64)
    let s := if s.dbg.tmode then packet s hmNo 5 0 ((0 : BitVec 58) ++ d ++ (0 : BitVec 1) ++ m) else s
    retide s

end Sys2Proof.Machine
end

