-- ==== Sys2Proof/Machine/Moorings.lean ====
section
/-! DEFINITION. Machine/Moorings.lean: moorings (R134 to R142): who holds them, how they break, the
rollback of an embedded mooring's entry, and the recovery queue. -/

namespace Sys2Proof.Machine

/-- Who makes a mooring or Manifest request: pilot number, bank and world (R130). -/
structure Caller where
  p : Nat
  bank : Nat
  world : Bool
deriving DecidableEq, Repr

/-- The mooring word (R134). -/
def Moor.word (m : Moor) : W32 :=
  m.mst ++ m.owner ++ m.bank ++ bit1 m.world ++ (0 : BitVec 5) ++ m.lease

/-- The caller holds the mooring (R130). -/
def Moor.heldBy (m : Moor) (c : Caller) : Bool :=
  decide (m.mst = 1) && decide (m.owner.toNat = c.p) && decide (m.bank.toNat = c.bank) &&
    (m.world == c.world)

/-- A mooring given to a caller with a new lease (R135). -/
def Moor.take (m : Moor) (c : Caller) : Moor :=
  { m with mst := 1, owner := BitVec.ofNat 7 c.p, bank := BitVec.ofNat 4 c.bank, world := c.world,
           lease := 4096, rep := 0 }

/-- A released mooring: only the undo note stays. -/
def Moor.free (m : Moor) : Moor := { note := m.note }

/-- The mooring that `m` names. -/
def moorOf (s : State) : MoorRef → Moor
  | .emb i => (own s i).moor
  | .alone n => aloneMoor s n

/-- Write the mooring that `m` names. -/
def setMoor (s : State) (m : MoorRef) (x : Moor) : State :=
  match m with
  | .emb i => updOwn s i (fun e => { e with moor := x })
  | .alone n => setAloneMoor s n x

/-- How many moorings a caller holds (R137). -/
def heldCount (s : State) (c : Caller) : Nat :=
  Table.count (fun _ e => e.moor.heldBy c) s.own + Table.count (fun _ m => m.heldBy c) s.moor

/-- Pilot `p` holds a mooring in bank `b`, in either world (R547). -/
def bankHolds (s : State) (p b : Nat) : Bool :=
  decide (0 < heldCount s ⟨p, b, false⟩) || decide (0 < heldCount s ⟨p, b, true⟩)

/-- The cause codes of a break (R136). -/
inductive BreakCause where
  | lease
  | reset
  | check
  | force
deriving DecidableEq, Repr

/-- CAUSE of the break report (R136). -/
def BreakCause.code : BreakCause → BitVec 2
  | .lease => 0
  | .reset => 1
  | .check => 2
  | .force => 3

/-- The handle of own entry `i` (R113). -/
def handleOf (s : State) (i : Nat) : W64 :=
  s.hbr.num ++ BitVec.ofNat 19 i ++ (own s i).gen

/-- STATE after a rollback, by LMP (R141). -/
def rollState (lmp : BitVec 3) : BitVec 3 := if lmp = 0 then 1 else lmp

/-- The fields that a rollback resets (R141). -/
def Own.rollback (e : Own) : Own :=
  let e := { e with st := rollState e.lmp, rb := true, held := false }
  if rollState e.lmp = 1 then
    { e with curw := e.prog, pos := BitVec.allOnes 64, xfer := 0, status := 0, dsv := false, dstat := 0,
             lastw := 0, residHeld := 0 }
  else e

/-- The break report's low part of an embedded mooring: STATE before and after (R136). -/
def repStates (before after : BitVec 3) : W64 :=
  (0 : BitVec 14) ++ before ++ after ++ (0 : BitVec 44)

/-- The break report without the states (R136). -/
def repBase (c : BreakCause) (m : Moor) : W64 :=
  c.code ++ m.owner ++ m.bank ++ bit1 m.world ++ (0 : BitVec 50)

/-! Bays of an entry. -/

/-- The own entry whose staging range holds bay `k`. -/
def bayEntry (k : Nat) : Nat := k % 2 ^ 31 / 4096

/-- Release the destination bays of entry `i` (R237, R350). -/
def lfree (s : State) (i : Nat) : State :=
  { s with bays := s.bays.filter (fun e => !(e.2.dest && decide (bayEntry e.1 = i))) }

/-- Device commands of entry `i` lose their exchange: those on a device only stop counting when they complete. -/
def orphanCmds (s : State) (i : Nat) : State :=
  let f : Nat → Option DCmd → Option DCmd := fun _ c =>
    match c with
    | some d => if d.idx = i then (if d.wait = .device then some { d with gen := 0 } else none) else c
    | none => none
  { s with dcmds := Table.mapVals none f s.dcmds }

/-- The rollback of entry `i` completes (R141, R142): the mooring reads BROKEN and the handle is placed on
the recovery queue. -/
def finishRollback (s : State) (i : Nat) : State :=
  let e := own s i
  let r := e.rollback
  let m : Moor := { e.moor with mst := 2, owner := (e.moor.rep.extractLsb' 55 7),
                                rep := e.moor.rep ||| repStates e.st r.st, lease := 0 }
  let s := setOwn s i { r with moor := m }
  let s := if e.st = 3 ∧ r.st ≠ 3 then lfree s i else s
  let s := if r.st = 1 then
      fetchWord (orphanCmds (updXctx (unhold s i) i (fun x =>
        if x.active then { Xc.fresh e.prog with seq := x.seq, waitT := x.waitT } else x)) i) i else s
  sampleLevel { s with recq := s.recq ++ [handleOf s i] } 1

/-- BLK.MBRK and BLK.MLAST record a break (R139, R145). -/
def noteBreak (s : State) (c : BreakCause) (m : Moor) (emb : Bool) (which : Nat) : State :=
  let s := if c = .lease then { s with mbrkLease := satInc s.mbrkLease }
           else { s with mbrkFault := satInc s.mbrkFault }
  { s with mlast := c.code ++ m.owner ++ m.bank ++ bit1 m.world ++ bit1 emb ++ (1 : BitVec 1) ++
                    (0 : BitVec 29) ++ BitVec.ofNat 19 which }

/-- A held mooring breaks (R139): a standalone mooring reads BROKEN; an embedded one starts its rollback,
which stays pending while ACKP is 1 (R142). -/
def breakMoor (s : State) (r : MoorRef) (c : BreakCause) : State :=
  let m := moorOf s r
  if m.mst ≠ 1 then s
  else
    match r with
    | .alone n =>
      noteBreak (setAloneMoor s n { m with mst := 2, rep := repBase c m, lease := 0 }) c m false n
    | .emb i =>
      let s := noteBreak s c m true i
      let s := updOwn s i (fun e =>
        { e with moor := { m with mst := 3, owner := 0x7E, rep := repBase c m, lease := 0 } })
      if (own s i).ackp then s else finishRollback s i

/-- Every mooring of pilot `p` that satisfies `f`, embedded ones first. -/
def mooringsOf (s : State) (f : Moor → Bool) : List MoorRef :=
  (s.own.filter (fun e => decide (e.2.moor.mst = 1) && f e.2.moor)).map (fun e => MoorRef.emb e.1) ++
  (s.moor.filter (fun e => decide (e.2.mst = 1) && f e.2)).map (fun e => MoorRef.alone e.1)

/-- Break every held mooring that satisfies `f`. -/
def breakAll (s : State) (f : Moor → Bool) (c : BreakCause) : State :=
  (mooringsOf s f).foldl (fun s r => breakMoor s r c) s

/-- Break the moorings of one pilot and bank, in either world (R373). -/
def breakBank (s : State) (p b : Nat) (c : BreakCause) : State :=
  breakAll s (fun m => decide (m.owner.toNat = p) && decide (m.bank.toNat = b)) c

/-- Break every mooring of a pilot (R385, R409, R438). -/
def breakPilot (s : State) (p : Nat) (c : BreakCause) : State :=
  breakAll s (fun m => decide (m.owner.toNat = p)) c

/-- The owner of every mooring that pilot `f` holds becomes pilot `t` (R138, R436). -/
def reownMoorings (s : State) (f t : Nat) : State :=
  let g : Moor → Moor := fun m =>
    if m.mst = 1 ∧ m.owner.toNat = f then { m with owner := BitVec.ofNat 7 t } else m
  { s with own := Table.mapVals {} (fun _ e => { e with moor := g e.moor }) s.own,
           moor := Table.mapVals {} (fun _ m => g m) s.moor }

/-- End the admission turns of pilot `p` that satisfy `f` on the bank (R352, R373). -/
def endTurns (s : State) (p : Nat) (f : Nat → Bool) : State :=
  { s with rings := Table.mapVals {} (fun _ r =>
      if (r.turn.map (fun t => decide (t.pilot = p) && f t.bank)) = some true
      then { r with turn := none } else r) s.rings }

end Sys2Proof.Machine
end

