-- ==== Sys2Proof/Machine/Window.lean ====
section
/-! DEFINITION. Machine/Window.lean: tallies, check windows, the commit buffer and the checkpoint (R426 to R432).
DESIGN CHOICE (log 75) where this file says at what moments a window closes inside an instruction. -/

namespace Sys2Proof.Machine

/-! Tallies (R426). -/

/-- The even-parity bit of a word. -/
def parity (v : W64) : Bool := (List.range 64).foldl (fun b k => b ^^ v.getLsbD k) false

/-- One word enters a tally: the polynomial step of R426. -/
def tallyStep (t w : W64) : W64 :=
  let u := t <<< 1
  (if t.getLsbD 63 then u ^^^ 0x1B else u) ^^^ w

/-- The words of one run enter its tally in order. -/
def Tally.feed (t : Tally) (ws : List W64) : Tally :=
  let v := ws.foldl tallyStep t.val
  { val := v, par := parity v }

/-- The parity bit of a tally is right (R428). -/
def Tally.ok (t : Tally) : Bool := t.par == parity t.val

/-- The window agrees: equal values, and both parity bits right (R428). -/
def Win.agrees (w : Win) : Bool := decide (w.tp.val = w.ts.val) && w.tp.ok && w.ts.ok

/-! The checkpoint (R428). -/

/-- The context that a checkpoint holds. -/
def Pilot.ctx (x : Pilot) : Ctx :=
  { banks := x.banks, cur := x.cur, sw := x.sw, cx := x.cx, pc := x.pc, mulq := x.mulq, sets := x.sets,
    slotMark := x.slotMark, dmon := x.dmon, lw := x.lw, vbo := x.vbo, vbs := x.vbs, cseal := x.cseal, gtab := x.gtab,
    dbg := x.dbg }

/-- A pilot with the context of a checkpoint. -/
def Pilot.withCtx (x : Pilot) (c : Ctx) : Pilot :=
  { x with banks := c.banks, cur := c.cur, sw := c.sw, cx := c.cx, pc := c.pc, mulq := c.mulq, sets := c.sets,
           slotMark := c.slotMark, dmon := c.dmon, lw := c.lw, vbo := c.vbo, vbs := c.vbs, cseal := c.cseal,
           gtab := c.gtab, dbg := c.dbg, waiting := false }

/-- The pilot as its latest window close left it (R428, R542). -/
def Pilot.committed (x : Pilot) : Pilot :=
  match x.win.ck with
  | some c => x.withCtx c
  | none => x

/-- The pilot with its checkpoint restored, and nothing in its commit buffer (R432). -/
def Pilot.restored (x : Pilot) : Pilot :=
  { x.committed with win := { count := x.win.count } }

/-- A debugger's write to a pilot's registers, which no rollback undoes: it is made in the checkpoint too. -/
def Pilot.both (x : Pilot) (f : Pilot → Pilot) : Pilot :=
  let y := f x
  { y with win := { y.win with ck := x.win.ck.map (fun c => (f (x.withCtx c)).ctx) } }

/-! The commit buffer (R430). -/

/-- The newest pending store of pilot `p` to a word. -/
def pendingAt (s : State) (p : Nat) (cel : Bool) (k : Nat) : Option TWord :=
  ((pilot s p).win.stores.find? (fun e => (e.cel == cel) && decide (e.k = k))).map (fun e => e.w)

/-- A word of the cask or the cellar as pilot `p` itself reads it: a pending store first (R430). -/
def seenWord (s : State) (p : Nat) (cel : Bool) (k : Nat) : TWord :=
  (pendingAt s p cel k).getD (if cel then Table.get emptyW s.cellar k else Table.get emptyW s.cask k)

/-- A store takes effect (R430). -/
def drainStore (s : State) (e : PStore) : State :=
  if e.cel then { s with cellar := Table.put emptyW s.cellar e.k e.w }
  else { s with cask := Table.put emptyW s.cask e.k e.w }

/-- The stores that wait take effect, oldest first. -/
def drainStores (s : State) (es : List PStore) : State := es.reverse.foldl drainStore s

/-- The packets that wait are emitted, oldest first (R554). -/
def drainPkts (s : State) (p : Nat) (es : List HeldPkt) : State :=
  es.reverse.foldl (fun s e => packet s p e.typ e.ch e.payload) s

/-- Pilot `p`'s window commits (R428, R430): its stores and packets take effect, and the next window starts from the
seed. -/
def commitWin (s : State) (p : Nat) : State :=
  let w := (pilot s p).win
  let s := updPilot s p (fun x => { x with win := { count := w.count + 1, inner := w.inner } })
  drainPkts (drainStores s w.stores) p w.pkts

/-- A flip is forced in the pilot's next window (R448). -/
def Pilot.armed (x : Pilot) : Bool := x.once || x.twice

/-- A window of pilot `p` closes inside an instruction: it commits, or it is marked as a mismatch, which discards the
instruction. While a window is retried, it stays open to its end (R432). -/
def closeInside (s : State) (p : Nat) : State :=
  let x := pilot s p
  if x.frozen then s
  else if x.armed || !x.win.agrees then updPilot s p (fun x => { x with win := { x.win with bad := true } })
  else commitWin (updPilot s p (fun x => { x with win := { x.win with inner := true } })) p

/-- A store of pilot `p` enters the commit buffer; the eighth fills its store part and closes the window (R427, R430). -/
def pendStore (s : State) (p : Nat) (e : PStore) : State :=
  let s := updPilot s p (fun x => { x with win := { x.win with stores := e :: x.win.stores } })
  if 8 ≤ (pilot s p).win.stores.length then closeInside s p else s

/-- A packet of pilot `p`'s own effects, held until its window commits (R554). -/
def notePacket (s : State) (p : Nat) (typ : BitVec 4) (ch : BitVec 5) (payload : W64) : State :=
  if !s.dbg.ten then s
  else updPilot s p (fun x => { x with win := { x.win with pkts := ⟨typ, ch, payload⟩ :: x.win.pkts } })

/-- `n` micro-ops of pilot `p` enter the window with the words of their two runs; the first of the window takes the
checkpoint `c` (R426, R428). -/
def noteOp (s : State) (p : Nat) (c : Option Ctx) (pri sha : List W64) (n : Nat) : State :=
  updPilot s p (fun x =>
    let w := x.win
    { x with win := { w with ck := w.ck.or c, ops := w.ops + n, tp := w.tp.feed pri, ts := w.ts.feed sha } })

/-! Mismatch (R432). -/

/-- A mismatch is counted (R429, R432, R435): whether it is the first of a new period of 100,000 tt. -/
def Pilot.countMism (x : Pilot) (now : W64) : Pilot :=
  let new := decide (100000 ≤ (now - x.mismTick).toNat) || decide (x.mismBase = 0)
  { x with mism := satInc x.mism, ckMism := satInc x.ckMism,
           tpar := if x.win.tp.ok && x.win.ts.ok then x.tpar else satInc x.tpar,
           mismBase := if new then 1 else x.mismBase + 1, mismTick := if new then now else x.mismTick }

/-- Pilot `p`'s window mismatches (R432): the checkpoint is restored, nothing of the window remains, and the retry
begins, with the lease and the watchdog frozen.  A forced single flip is used up (R448). -/
def mismatch (s : State) (p : Nat) : State :=
  updPilot s p (fun x => { (x.countMism s.tide.count).restored with frozen := true, once := false })

/-- The window of pilot `p` closes at an event's delivery (R427, R434): the state, and whether delivery may go on.  With
no micro-op in the window nothing closes; while a window is retried the boundary has not been reached. -/
def closeAtClaim (s : State) (p : Nat) : State × Bool :=
  let x := pilot s p
  if x.frozen then (s, false)
  else if x.win.ck.isNone then (s, true)
  else if x.armed || !x.win.agrees then (mismatch s p, false)
  else (commitWin s p, true)

end Sys2Proof.Machine
end

