-- ==== Sys2Proof/Machine/PilotCore.lean ====
section
/-! DEFINITION. Machine/PilotCore.lean: what every pilot instruction shares: the status word, register
access with tags and dirty bits, multiplies in flight, trace packets, taking a trap or event (R367 to
R373), retirement (R438), debug events (R545 to R549), and the return from a level. -/

namespace Sys2Proof.Machine

/-! The status word. -/

/-- SW as a 32-bit word (R311); `mb` is SW.MB. -/
def Sw.pack (w : Sw) (mb : Bool) : W32 :=
  bit1 w.world ++ bit1 w.priv ++ w.level ++ w.mask ++ (0 : BitVec 8) ++ bit1 w.slot ++ bit1 w.brk ++
    bit1 mb ++ bit1 w.t ++ (0 : BitVec 7) ++ bit1 w.d ++ bit1 w.n ++ bit1 w.z ++ bit1 w.v ++ bit1 w.c

/-- The status word a 32-bit word spells; reserved bits and MB are dropped. -/
def Sw.unpack (x : W32) : Sw :=
  { world := x.getLsbD 31, priv := x.getLsbD 30, level := x.extractLsb' 27 3, mask := x.extractLsb' 24 3,
    slot := x.getLsbD 15, brk := x.getLsbD 14, t := x.getLsbD 12, d := x.getLsbD 4, n := x.getLsbD 3,
    z := x.getLsbD 2, v := x.getLsbD 1, c := x.getLsbD 0 }

/-- SW.MB: a multiply is in flight (R311, R327). -/
def Pilot.mb (x : Pilot) : Bool := !x.mulq.isEmpty

/-- SW as the pilot reads it. -/
def Pilot.swWord (x : Pilot) : W32 := x.sw.pack x.mb

/-- TCn as a 64-bit word (R390). -/
def TCause.pack (t : TCause) : W64 :=
  bit1 t.esc ++ bit1 t.hw ++ t.clevel ++ t.cmask ++ bit1 t.cworld ++ bit1 t.cpriv ++ t.bank ++
    (0 : BitVec 22) ++ t.src ++ (0 : BitVec 12) ++ t.code

/-- GLNK as a 64-bit word (R390). -/
def Glnk.pack (g : Glnk) : W64 :=
  bit1 g.v ++ g.level ++ g.mask ++ bit1 g.priv ++ (0 : BitVec 38) ++ g.rpc

/-! Registers. -/

/-- Register `i` of the current bank (R304). -/
def Pilot.reg (x : Pilot) (i : BitVec 5) : TWord := Table.get emptyW x.bankCur.regs i.toNat

/-- Set dirty bits of the current bank (R355). -/
def Bank.mark (b : Bank) (m : BitVec 5) : Bank := { b with dirty := b.dirty ||| m }

/-- Write register `i` of a bank, setting its group's dirty bit (R355). -/
def Bank.wr (b : Bank) (i : BitVec 5) (w : TWord) : Bank :=
  { b with regs := Table.put emptyW b.regs i.toNat w, dirty := b.dirty ||| (if i < 16 then 1 else 2) }

/-- Write register `i` of the current bank. -/
def Pilot.wr (x : Pilot) (i : BitVec 5) (w : TWord) : Pilot := x.setCur (x.bankCur.wr i w)

/-- Write an INT register. -/
def Pilot.wrInt (x : Pilot) (i : BitVec 5) (v : W64) : Pilot := x.wr i (intW v)

def Bank.xreg (b : Bank) (k : Nat) : XReg := Table.get {} b.x k
def Bank.setX (b : Bank) (k : Nat) (v : XReg) : Bank :=
  { b with x := Table.put {} b.x k v, dirty := b.dirty ||| 4 }
def Bank.loop (b : Bank) (k : Nat) : LoopR := Table.get {} b.loops k
def Bank.setLoop (b : Bank) (k : Nat) (v : LoopR) : Bank :=
  { b with loops := Table.put {} b.loops k v, dirty := b.dirty ||| 8 }

/-- The caller of a Manifest or mooring request made by pilot `p`. -/
def callerOf (s : State) (p : Nat) : Caller := ⟨p, (pilot s p).cur, (pilot s p).sw.world⟩

/-! Multiplies in flight (R327, R328). -/

/-- One multiply writes its result into its bank (R326, R327). -/
def Pilot.landMul (x : Pilot) (m : MulOp) : Pilot :=
  let b := x.bankOf m.bank
  match m.dst with
  | .mhml => x.setBank m.bank { b with mh := intW (m.val.extractLsb' 64 64),
                                       ml := intW (m.val.extractLsb' 0 64),
                                       dirty := b.dirty ||| 16 }
  | .acc k => x.setBank m.bank (b.setX k ⟨m.val, 1⟩)

/-- One more instruction completes: every multiply that was in flight counts down, and those that reach 0
write, in issue order (R327). -/
def Pilot.tickMul (x : Pilot) : Pilot :=
  let q := x.mulq.map (fun m => { m with left := m.left - 1 })
  let x := { x with mulq := q.filter (fun m => decide (m.left ≠ 0)) }
  (q.filter (fun m => decide (m.left = 0))).foldl Pilot.landMul x

/-- Drain every multiply in flight (R328). -/
def Pilot.drain (x : Pilot) : Pilot :=
  x.mulq.foldl Pilot.landMul { x with mulq := [] }

/-! Debug rights and trace packets. -/

/-- A FLOW packet (R553): a taken control transfer from `pc` to `target`. -/
def flowPacket (s : State) (p : Nat) (pc target : BitVec 18) : State :=
  if s.dbg.tflow && (!(pilot s p).sw.world || devRights s) then
    notePacket s p 2 0 ((0 : BitVec 10) ++ pc ++ (0 : BitVec 18) ++ target)
  else s

/-- A LEVEL packet (R553). -/
def levelPacket (s : State) (p : Nat) (n : Nat) (src : BitVec 12) (code : BitVec 4) : State :=
  if s.dbg.tlvl && (!(pilot s p).sw.world || devRights s) then
    notePacket s p 3 (BitVec.ofNat 5 n) ((0 : BitVec 4) ++ src ++ (0 : BitVec 44) ++ code)
  else s

/-! Leaving a bank, a level or a pilot. -/

/-- A bank as an abandonment leaves it (R373). -/
def Bank.abandon (b : Bank) : Bank :=
  { b with regs := [], x := [], mh := emptyW, ml := emptyW,
           act := 0, rcache := [], shadow := [], spilled := 0, glnk := {}, dirty := 0 }

/-- Pilot `p`'s bank `b` is abandoned with break cause `c` (R373, R438): its moorings break, its turns end,
its claims are released, and its registers are emptied. -/
def abandonBank (s : State) (p b : Nat) (c : BreakCause) : State :=
  let s := breakBank s p b c
  let s := endTurns s p (fun k => decide (k = b))
  let s := releaseClaims s (fun _ k => decide (k.pilot = p) && decide (k.bank = b))
  updPilot s p (fun x => x.setBank b (x.bankOf b).abandon)

/-- The registers of a pilot after pilot reset (R305, R385).  Its role, counters, control source and the
watchdog's period follow their own rules. -/
def Pilot.reset (x : Pilot) : Pilot :=
  { role := x.role, standin := x.standin, inReset := x.inReset, src := x.src, mism := x.mism,
    tpar := x.tpar, retryok := x.retryok, fail2 := x.fail2, once := x.once, twice := x.twice,
    mismBase := x.mismBase, mismTick := x.mismTick }

/-- TC7 and TV7 of a pilot in the log (R373, R530). -/
def logCheck (s : State) (p : Nat) (code : BitVec 16) : State :=
  hmLog s code ((pilot s p).setOf 7).tc.pack ((pilot s p).setOf 7).tv

/-- The Harbourmaster's processor restarts (R525): its moorings break with cause RESET and it is reset. -/
def restartHm (s : State) : State :=
  let s := logCheck s hmNo 0x303
  let s := breakPilot s hmNo .reset
  let s := endTurns s hmNo (fun _ => true)
  let s := releaseClaims s (fun _ k => decide (k.pilot = hmNo))
  let s := updPilot s hmNo (fun x => { x.reset with inReset := true })
  { s with hm := { s.hm with restarting := true, restarts := satInc s.hm.restarts } }

/-- A pilot is retired (R438): every bank is abandoned with cause RESET, and it is reset and enters
TESTING.  The Harbourmaster's processor restarts instead (R525). -/
def retire (s : State) (p : Nat) : State :=
  if p = hmNo then restartHm s
  else
    let s := breakPilot s p .reset
    let s := endTurns s p (fun _ => true)
    let s := releaseClaims s (fun _ k => decide (k.pilot = p))
    let s := updPilot s p (fun x => { x.reset with role := .testing, inReset := true })
    let c := clusterOf p
    let k := chkOf s c
    setChk s c { k with retire := satInc k.retire }

/-- The pilot executes at its debug monitor level (R478, R548). -/
def Pilot.atMonitor (x : Pilot) : Bool := decide (x.sw.level = x.dmon)

/-- The watchdog count when the level becomes `n` (R479): leaving the monitor level raises the count to an
eighth of the period at least. -/
def Pilot.leaveMonitor (x : Pilot) (n : BitVec 3) : Pilot :=
  if x.atMonitor && decide (n ≠ x.dmon) then
    { x with wdcnt := BitVec.ofNat 32 (Nat.max x.wdcnt.toNat (x.wdper.toNat / 8)) }
  else x

/-! Entry (R371). -/

/-- What an entry carries: level, code, source, ESC, the value of TV, the PC to resume at, SLOT, the
handler's world, and the vector. -/
structure Entry where
  n : BitVec 3
  code : BitVec 4
  src : BitVec 12
  esc : Bool
  tv : W64
  spc : BitVec 18
  slot : Bool
  hw : Bool
  vec : BitVec 18
deriving DecidableEq, Repr

/-- The registers of the pilot after entry to a level (R371 steps 1 to 9 without the abandonment). -/
def Pilot.enter (x : Pilot) (e : Entry) : Pilot :=
  let x := (x.drain).leaveMonitor e.n
  let ssw := { x.sw with slot := e.slot }
  let tc : TCause := { esc := e.esc, hw := e.hw, clevel := ssw.level, cmask := ssw.mask, cworld := ssw.world,
                       cpriv := ssw.priv, bank := BitVec.ofNat 4 x.cur, src := e.src, code := e.code }
  let x := x.putSet e.n.toNat { spc := e.spc, ssw := ssw, scx := x.cx, tc := tc, tv := e.tv }
  { x with cx := 0, waiting := false, slotMark := false,
           sw := { world := e.hw, priv := true, level := e.n, mask := e.n },
           cur := if e.n.toNat ≥ 6 then 8 else x.cur, pc := e.vec }

/-- Entry to a level by pilot `p`; a level-7 entry abandons the interrupted bank (R373). -/
def enter (s : State) (p : Nat) (e : Entry) : State :=
  let b := (pilot s p).cur
  let s := updPilot s p (fun x => x.enter e)
  let s := if e.n = 7 then logCheck (abandonBank s p b .check) p 0x301 else s
  let s := flowPacket s p e.spc e.vec
  levelPacket s p e.n.toNat e.src e.code

/-- The vector of trap code `c` in world `hw` (R371 step 9). -/
def Pilot.trapVec (x : Pilot) (hw : Bool) (c : BitVec 4) : BitVec 18 :=
  (if hw then x.vbs else x.vbo) ++ c ++ (0 : BitVec 5)

/-- The world of a trap's handler (R370). -/
def Pilot.trapWorld (x : Pilot) (n : BitVec 3) : Bool :=
  decide (n = 7) || x.sw.world || x.lwBit n.toNat

/-- A trap of fixed level `lv` (R367): it is taken at its level, or escalates to level 7 while MASK bars it;
an escalation at level 7 retires the pilot (R368). -/
def takeTrapAt (s : State) (p : Nat) (lv : BitVec 3) (code : BitVec 4) (tv : W64) (spc : BitVec 18)
    (slot : Bool) : State :=
  let x := pilot s p
  if x.sw.mask < lv ∧ lv ≠ 7 then
    enter s p ⟨lv, code, 0, false, tv, spc, slot, x.trapWorld lv, x.trapVec (x.trapWorld lv) code⟩
  else if x.sw.level = 7 then retire s p
  else enter s p ⟨7, code, 0, decide (lv ≠ 7), if lv = 7 then tv else 0, spc, slot, true,
                  x.trapVec true 14⟩

/-- The level of a trap code (R369); RIF and DBG have their own operations. -/
def trapLevel (code : BitVec 4) : BitVec 3 := if code = 13 then 6 else if code = 14 then 7 else 5

/-- A trap raised by an instruction (R369). -/
def takeTrap (s : State) (p : Nat) (code : BitVec 4) (tv : W64) (spc : BitVec 18) (slot : Bool) : State :=
  takeTrapAt s p (trapLevel code) code tv spc slot

/-- A refused return (R371, R377): only CODE, TV, the other bits of SW and the PC change. -/
def takeRif (s : State) (p : Nat) : State :=
  let x := (pilot s p).drain
  let n := x.sw.level.toNat
  let ss := x.setOf n
  let x := x.putSet n { ss with tc := { ss.tc with code := 12 }, tv := (ss.ssw.pack false).setWidth 64 }
  let vec := if n = 7 then x.trapVec true 14 else x.trapVec x.sw.world 12
  let w := x.sw
  let from_ := x.pc
  let s := setPilot s p { x with sw := { world := w.world, priv := w.priv, level := w.level, mask := w.mask },
                                 pc := vec }
  flowPacket s p from_ vec

/-! Debug events (R545 to R549). -/

/-- TV of a DBG entry (R545). -/
def DbgEvent.tv (e : DbgEvent) : W64 :=
  BitVec.ofNat 4 e.cause ++ bit1 e.deferred ++ bit1 e.lbrk ++ BitVec.ofNat 3 e.idx ++ (0 : BitVec 37) ++ e.addr

/-- A DBG entry at level DMON (R545, R549): STEP is satisfied by any DBG entry. -/
def enterDbg (s : State) (p : Nat) (e : DbgEvent) (spc : BitVec 18) : State :=
  let s := updPilot s p (fun x => { x with dbg := { x.dbg with again := none } })
  let x := pilot s p
  let hw := x.trapWorld x.dmon
  enter s p ⟨x.dmon, 15, 0, false, e.tv, spc, false, hw, x.trapVec hw 15⟩

/-- A deliverable event of a level above DMON is presented to the pilot (R549). -/
def higherEvent (s : State) (p : Nat) : Bool :=
  let x := pilot s p
  match presented s p with
  | some (_, l) =>
    decide (takenLevel l > x.dmon) && decide (takenLevel l > x.sw.mask) &&
      !(decide (1 ≤ l.toNat) && !x.lwBit (takenLevel l).toNat && x.sw.world)
  | none => false

/-- One debug event is counted as not taken (R546, R547). -/
def missDbg (s : State) : State := { s with dbg := { s.dbg with missed := satInc s.dbg.missed } }

/-- A debug event occurs at pilot `p` (R546, R547, R549).  Answers the state and whether the DBG entry was
made. -/
def debugEvent (s : State) (p : Nat) (e : DbgEvent) (spc : BitVec 18) : State × Bool :=
  let x := pilot s p
  if x.sw.mask ≥ x.dmon then (missDbg s, false)
  else if bankHolds s p x.cur then
    if x.dbg.deferred.isSome then (missDbg s, false)
    else (updPilot s p (fun x => { x with dbg := { x.dbg with deferred := some { e with deferred := true } } }),
          false)
  else if higherEvent s p then
    (updPilot s p (fun x => { x with dbg := { x.dbg with again := some e } }), false)
  else (enterDbg s p e spc, true)

/-- Bit `p` of DBG.REQ (R545). -/
def extReq (s : State) (p : Nat) : Bool := s.dbg.req.getLsbD p

/-- At a boundary of pilot `p`, with the PC to resume at in place: a deferred event whose bank holds no
mooring is taken, or an event raised again after a higher one, or an EXT request (R546, R547, R549). -/
def boundary (s : State) (p : Nat) : State :=
  let x := pilot s p
  if x.inReset || decide (x.role ≠ .active) && decide (p ≠ hmNo) then s
  else
    match x.dbg.deferred with
    | some e =>
      if (bankHolds s p x.cur && !e.lbrk) || decide (x.sw.mask ≥ x.dmon) then s
      else
        enterDbg (updPilot s p (fun x => { x with dbg := { x.dbg with deferred := none } })) p e x.pc
    | none =>
      match x.dbg.again with
      | some e =>
        if x.sw.mask ≥ x.dmon || higherEvent s p then s
        else enterDbg s p e x.pc
      | none =>
        if extReq s p && decide (x.sw.mask < x.dmon) then
          let req := s.dbg.req &&& ~~~((1 : BitVec 128) <<< p)
          (debugEvent { s with dbg := { s.dbg with req := req } } p ⟨5, 0, x.pc, false, false⟩ x.pc).1
        else s

/-- A watchdog expiry that waits for the pilot's next boundary is taken there (R480). -/
def watchdogBoundary (s : State) (p : Nat) : State :=
  let x := pilot s p
  match x.wdgDue with
  | none => boundary s p
  | some (tv, second) =>
    let s := updPilot s p (fun x => { x with wdgDue := none })
    if second then
      if x.sw.level = 7 then retire s p
      else enter s p ⟨7, 13, 0, true, 0, x.pc, false, true, x.trapVec true 14⟩
    else takeTrapAt s p 6 13 tv x.pc false

end Sys2Proof.Machine
end

