-- ==== Sys2Proof/Machine/MirrorOut.lean ====
section
/-! DEFINITION. Machine/MirrorOut.lean: mirror points of own entries (R118, R119, R123, R124): the images of
mirror records and the queue of records for the twin. -/

namespace Sys2Proof.Machine

/-- The block sends mirror records: the twin state is PAIRING, ACTIVE, SUSPECT or DROWSED (R124, R150,
R186). -/
def twinSends (s : State) : Bool :=
  decide (s.hbr.tstate = 1) || decide (s.hbr.tstate = 2) || decide (s.hbr.tstate = 3) ||
    decide (s.hbr.tstate = 6)

/-- M0 of a record of entry `e` (R118). -/
def Own.m0 (e : Own) (kind : BitVec 3) : W64 := kind ++ e.gen ++ e.ring ++ e.xtag

/-- M1 of a record of entry `e` (R118). -/
def Own.m1 (e : Own) : W64 :=
  e.berth ++ e.sslot ++ e.wait ++ bit1 e.fenced ++ bit1 e.unprot ++ bit1 e.redriven ++ bit1 e.tr ++ e.lastw

/-- The image of a mirror record of KIND `kind` (R118): 1 ADMITTED, 3 ISSUED, 4 DEVICE_DONE, 5 POSTED. -/
def Own.image (e : Own) (kind : BitVec 3) : Mir :=
  if kind = 5 then
    { m0 := e.m0 5, m1 := 0, m2 := 0, m3 := e.cqslot ++ (0 : BitVec 48) }
  else if kind = 4 then
    { m0 := e.m0 4, m1 := e.m1, m2 := e.xfer ++ e.pos.extractLsb' 0 32,
      m3 := e.cqslot ++ e.status ++ e.path ++ bit1 e.dsv ++ e.dstat ++ (0 : BitVec 22) }
  else
    { m0 := e.m0 kind, m1 := e.m1, m2 := e.prog ++ (0 : BitVec 4),
      m3 := if kind = 3 then (if e.fenced then e.fseq else 0) ++ e.path ++ (0 : BitVec 30) else 0 }

/-- Queue one record unit for the twin with the next RSEQ (R217, R219). -/
def queueRec (s : State) (rtype : BitVec 3) (index : Nat) (m : Mir) : State :=
  updTw s (fun t =>
    { t with rseqNext := t.rseqNext + 1,
             mq := t.mq ++ [⟨t.rseqNext, rtype, BitVec.ofNat 19 index, s.tide.count, m.m0, m.m1, m.m2, m.m3⟩] })

/-- A mirror point of entry `i` with its ISSUED FSEQ given by `fseq` (R123, R124, R181): LMP becomes the
kind; a served entry sends nothing; without a twin, or with TR = 1, no record is sent and UNPROT is set;
otherwise the record is sent and ACKP set. -/
def mirrorPoint (s : State) (i : Nat) (kind : BitVec 3) (fseq : W32) : State :=
  let e := { own s i with lmp := kind }
  if e.srv then setOwn s i e
  else if e.tr || !twinSends s then setOwn s i { e with ackp := false, unprot := true }
  else
    let m := e.image kind
    let m := if kind = 3 then { m with m3 := fseq ++ m.m3.extractLsb' 0 32 } else m
    queueRec (setOwn s i { e with ackp := true }) 0 i m

/-- The ring-state record of ring `n` (R156, R218). -/
def ringStateImage (n : Nat) (r : Ring) : Mir :=
  { m0 := r.sqb ++ (0 : BitVec 6), m1 := r.cqb ++ (0 : BitVec 6),
    m2 := BitVec.ofNat 16 n ++ bit1 r.en ++ r.sqlog ++ r.cqlog ++ r.group ++ (0 : BitVec 25),
    m3 := r.credit ++ r.ddl ++ (0 : BitVec 32) }

/-- Send the ring-state record of an own ring while records go to a twin (R156); an adoption ring sends
none. -/
def sendRingState (s : State) (n : Nat) : State :=
  if twinSends s && (decide (s.hbr.role ≠ 0) || decide (n < (halfRings s))) then
    queueRec s 3 0 (ringStateImage n (ring s n))
  else s

/-- Ring `n` is an adoption ring of a PAIRED block (R157). -/
def isAdoption (s : State) (n : Nat) : Bool := decide (s.hbr.role = 0) && decide ((halfRings s) ≤ n)

/-- A gleaned exchange counts as placed on a device, or need not be (R166). -/
def placedOn (s : State) (i : Nat) (e : Own) : Bool :=
  !e.redriven || !e.tr || decide (e.st = 0) || decide (4 ≤ e.st.toNat) || e.held || (xctx s i).heldWait || (xctx s i).placed

/-- The exchange has reached ISSUED, or leaves it, with no resolution to come: it counts as placed from then on (R166). -/
def markPlaced (s : State) (i : Nat) : State :=
  if (xctx s i).resolve then s else updXctx s i (fun x => { x with placed := true })

/-- STATE goes from GLEANING to NONE once every gleaned exchange counts as placed (R150, R166). -/
def gleaningEnd (s : State) : State :=
  if s.hbr.tstate = 5 ∧ s.tw.gleanDone = true ∧ s.own.all (fun e => placedOn s e.1 e.2) = true then
    raise (updTw { s with hbr := { s.hbr with tstate := 0 } } (fun t => { t with retwin := true, fencing := false })) 3
  else s

/-- BLK.MODE returns from Takeover to Service when the three conditions of R151 hold together. -/
def takeoverEnd (s : State) : State :=
  let s := gleaningEnd s
  let redriven := s.own.any (fun e => decide (e.2.st ≠ 0) && e.2.redriven)
  let adopting := s.rings.any (fun e => isAdoption s e.1 && e.2.en)
  if s.blk.mode = 5 ∧ s.hbr.tstate.toNat ≤ 2 ∧ redriven = false ∧ adopting = false then
    setMode s 3 0
  else s

end Sys2Proof.Machine
end

