-- ==== Sys2Proof/Machine/RingCore.lean ====
section
/-! DEFINITION. Machine/RingCore.lean: what rings share: stamps, credit, Manifest pools, the consumption
pointer, completion slots, completion records and the ring's MSI-X message (R49, R54, R58, R83 to R100,
R126). -/

namespace Sys2Proof.Machine

/-! Depths and pointers. -/

/-- Depths of the two rings (R65). -/
def Ring.sdepth (r : Ring) : Nat := 2 ^ r.sqlog.toNat
def Ring.cdepth (r : Ring) : Nat := 2 ^ r.cqlog.toNat

/-- (a − b) modulo the submission or completion depth. -/
def Ring.sdiff (r : Ring) (a b : BitVec 16) : Nat := (a.toNat + r.sdepth - b.toNat % r.sdepth) % r.sdepth
def Ring.cdiff (r : Ring) (a b : BitVec 16) : Nat := (a.toNat + r.cdepth - b.toNat % r.cdepth) % r.cdepth

/-- The slot after `a`, in each ring. -/
def Ring.snext (r : Ring) (a : Nat) : BitVec 16 := BitVec.ofNat 16 ((a + 1) % r.sdepth)
def Ring.cnext (r : Ring) (a : BitVec 16) : BitVec 16 := BitVec.ofNat 16 ((a.toNat + 1) % r.cdepth)

/-! Stamps (R83 to R87). -/

/-- The stamp that covers a submission slot: the oldest whose TAIL lies beyond it. -/
def Ring.stampOf (r : Ring) (slot : BitVec 16) : Option Stamp :=
  r.stamps.find? (fun t => decide (r.sdiff slot r.cons < r.sdiff t.tail r.cons))

/-- A stamp's age in tt (R85, R86). -/
def Stamp.age (t : Stamp) (now : W32) : Nat := if t.aged then 2 ^ 31 else (now - t.tick).toNat

/-- An entry with stamp `t` is due on the ring (R86, R87): its deadline has passed, or has been found to have passed
under this DDL, or its stamp is aged. -/
def Ring.due (r : Ring) (now : W32) (t : Stamp) : Bool :=
  decide (r.ddl ≠ 0) && (t.due || t.aged || decide (100 * r.ddl.toNat ≤ t.age now))

/-- TIDE[31:0]. -/
def now32 (s : State) : W32 := s.tide.count.extractLsb' 0 32

/-- Ticks as WAIT reports them (R54): whole µs, saturating. -/
def waitUs (t : Nat) : BitVec 16 := BitVec.ofNat 16 (Nat.min (t / 100) 65535)

/-- The admission interval of a slot in ticks (R54, R86). -/
def admTicks (s : State) (r : Ring) (slot : BitVec 16) : Nat :=
  match r.stampOf slot with
  | none => 0
  | some t => t.age (now32 s)

/-- The admission interval of a slot in µs (R54, R86). -/
def admWait (s : State) (r : Ring) (slot : BitVec 16) : BitVec 16 := waitUs (admTicks s r slot)

/-! Credit and pools. -/

/-- The credit and slot test of R93. -/
def Ring.free (r : Ring) : Int :=
  (r.cdepth : Int) - 1 - r.cdiff r.cqtail r.cqhead - r.outst.toNat - r.decw.toNat
def Ring.hasCredit (r : Ring) : Bool := decide (r.outst < r.credit) && decide (0 < r.free)

/-- Own entries taken from one pool, of one berth or of all. -/
def poolUse (s : State) (pool : BitVec 2) (f : Own → Bool) : Nat :=
  Table.count (fun _ e => decide (e.st ≠ 0) && decide (e.pool = pool) && f e) s.own
def rinUse (s : State) (b : Nat) : Nat := poolUse s 1 (fun e => decide (e.berth.toNat = b))

/-- Entries that the berth reserves keep from the general pool: each berth's reserve, or what is taken from
it where that is more. -/
def reservedTotal (s : State) : Nat :=
  s.berths.foldl (fun n e => if e.2.resv = 0 then n else n + Nat.max e.2.resv.toNat (rinUse s e.1)) 0 +
    poolUse s 1 (fun e => decide ((berth s e.berth.toNat).resv = 0))

/-- GFREE (R88): free entries in the general pool. -/
def gfree (s : State) : Nat :=
  s.blk.build.entries - (reservedTotal s + Nat.max s.sres.toNat (poolUse s 2 (fun _ => true)) +
    poolUse s 0 (fun _ => true))

/-- The sum that R89 bounds, with given WM, SRES and berths. -/
def poolSum (wm sres : BitVec 20) (bs : Table Berth) : Nat :=
  bs.foldl (fun n e => n + e.2.resv.toNat) (wm.toNat + sres.toNat)

/-- Admitted entries that berth `b` holds, from whichever pool (R90): every entry in use that serves no other block. -/
def berthHolds (s : State) (b : Nat) : Nat :=
  Table.count (fun _ e => decide (e.st ≠ 0) && !e.srv && decide (e.berth.toNat = b)) s.own

/-- Berth `b`'s reserve can serve an entry (R90). -/
def reserveOpen (s : State) (b : Nat) : Bool := decide (berthHolds s b < (berth s b).resv.toNat)

/-- The pools could serve a waiting entry (R91). -/
def poolOpen (s : State) (b : Nat) (gen : Bool) : Bool :=
  (!gen && reserveOpen s b) || decide (s.wm.toNat < gfree s)

/-! Consumption (R83, R93). -/

/-- CONS advances past disposed entries whose records are acknowledged, and stamps that it passes are
released. -/
def advance : Nat → Ring → Ring
  | 0, r => r
  | n + 1, r =>
    match r.disp with
    | d :: ds =>
      if d.acked then
        let c := r.snext d.slot
        advance n { r with disp := ds, cons := c,
                           stamps := match r.stamps with
                             | t :: ts => if t.tail = c then ts else r.stamps
                             | [] => [] }
      else r
    | [] => r

/-- Advance one ring's CONS. -/
def advanceCons (s : State) (n : Nat) : State :=
  let r := ring s n
  setRing s n (advance r.disp.length r)

/-- The block admits and declines on ring `n` (R73, R92): the ring is enabled, and the block is neither in Quarantine of
kind FREEZE nor fenced by a lost race. -/
def admits (s : State) (n : Nat) : Bool := (ring s n).en && !frozen s

/-- An entry of the ring is disposed of (R93): NEXT moves past it. -/
def dispose (s : State) (n slot : Nat) (key : DispKey) (acked : Bool) : State :=
  advanceCons (updRing s n (fun r => { r with next := r.snext slot, disp := r.disp ++ [⟨slot, key, acked⟩] })) n

/-! Completion slots (R58, R153). -/

/-- What a completion slot that is assigned and not written is kept for. -/
def Ring.use (r : Ring) (k : BitVec 16) : Option SlotUse := Table.get none r.slots k.toNat
def Ring.setUse (r : Ring) (k : BitVec 16) (u : Option SlotUse) : Ring :=
  { r with slots := Table.put none r.slots k.toNat u }

/-- The first slot from `k` upward that is not kept (R180); `fuel` bounds the search. -/
def Ring.unkept (r : Ring) : Nat → BitVec 16 → BitVec 16
  | 0, k => k
  | n + 1, k => if (r.use k).isSome then r.unkept n (r.cnext k) else k

/-- Slots kept for final records. -/
def Ring.keptFinals (r : Ring) : Nat :=
  Table.count (fun _ u => match u with
    | some (.kept _ _) => true
    | some (.fin _ _ _) => true
    | _ => false) r.slots

/-- An adoption ring writes nothing before its adoption and the host's first completion doorbell (R180). -/
def waitsDoorbell (s : State) (n : Nat) : Bool :=
  let a := Table.get {} s.tw.adopt (n - (halfRings s))
  isAdoption s n && (!a.adopted || a.waitDb)

/-- An adoption ring that has not been adopted has no slot sequence (R47, R178). -/
def notAdopted (s : State) (n : Nat) : Bool :=
  isAdoption s n && !(Table.get {} s.tw.adopt (n - (halfRings s))).adopted

/-- The ring's next unassigned completion slot, when one may be assigned (R153): for a final record, or for
a progress or held record, which takes only a slot that no outstanding exchange and no waiting decline
needs (R47). -/
def slotFor (s : State) (n : Nat) (final : Bool) : Option (BitVec 16) :=
  let r := ring s n
  let k := r.unkept r.slots.length r.slotNext
  let used := r.cdiff k r.cqhead
  if notAdopted s n || decide (r.cdepth ≤ used + 1) || r.postWait.contains k then none
  else if final then some k
  else if r.cdepth ≤ 1 + used + (r.outst.toNat + r.decw.toNat - r.keptFinals) then none
  else some k

/-- The slot of a record that an exchange writes now: on an adopted ring the remaining ledger declines take their slots
first (R180). -/
def freeSlot (s : State) (n : Nat) (final : Bool) : Option (BitVec 16) :=
  if isAdoption s n && (ring s n).decls.any (·.ledger) then none else slotFor s n final

/-- Assign slot `k`. -/
def takeSlot (s : State) (n : Nat) (k : BitVec 16) (u : SlotUse) : State :=
  updRing s n (fun r => { r.setUse k (some u) with slotNext := r.cnext k })

/-! Records (R49, R126). -/

/-- WCLASS of an exchange (R55, R126). -/
def Own.wclass (e : Own) : BitVec 3 := if e.redriven then 4 else if 2 ≤ e.wait.toNat then 1 else 0

/-- A record of an own entry: progress and held records report RESID 0 and STATUS GOOD (R52). -/
def Own.record (e : Own) (t : RecType) : Rec :=
  let fin := decide (t = .final)
  { typ := t, xtag := e.xtag, wclass := e.wclass, unprot := e.unprot, progLost := e.pl,
    status := if fin then e.status else 0, wait := e.wait, xfer := e.xfer,
    resid := if fin then e.pos.extractLsb' 0 32 else 0,
    dsv := fin && e.dsv, path := e.path, lastw := e.lastw, dstat := if fin && e.dsv then e.dstat else 0 }

/-- TYPE of a record (R49). -/
def RecType.code : RecType → BitVec 2
  | .final => 0
  | .progress => 1
  | .held => 2

/-- The eight dwords of a record as it is written now (R49): every record that is written in Solo carries UNPROTECTED
(R10). -/
def recDwords (s : State) (r : Ring) (x : Rec) : List W32 :=
  [r.cons ++ x.xtag,
   bit1 r.p ++ x.typ.code ++ x.wclass ++ bit1 (x.unprot || !twinSends s) ++ bit1 x.progLost ++ x.status ++ x.wait,
   x.xfer, x.resid,
   bit1 s.tide.unsync ++ bit1 x.dsv ++ x.path ++ x.lastw ++ (0 : BitVec 1) ++ x.dstat,
   s.tide.count.extractLsb' 0 32,
   (0 : BitVec 16) ++ s.tide.count.extractLsb' 32 16,
   0]

/-- Send the ring's message (R99). -/
def sendMsi (s : State) (n : Nat) : State :=
  let r := ring s n
  setRing (emit s (.msix r.lport.toNat (r.msia ++ (0 : BitVec 2)) r.msid)) n { r with since := 0 }

/-- A message is due: it is sent, or held by MASK (R98, R100). -/
def notifyNow (s : State) (n : Nat) : State :=
  let r := ring s n
  if !r.ven then s
  else if r.mask then setRing s n { r with mpend := true }
  else sendMsi s n

/-- After a record: the message rule of R98. -/
def notify (s : State) (n : Nat) : State :=
  let s := updRing s n (fun r =>
    { r with since := r.since + 1, firstTick := if r.since = 0 then s.tide.count else r.firstTick })
  let r := ring s n
  if Nat.max r.count.toNat 1 ≤ r.since ∨ r.holdoff = 0 then notifyNow s n else s

/-- Write one record at CQTAIL (R49, R58, R59) and step CQTAIL, inverting P on a wrap. -/
def writeRec (s : State) (n : Nat) (x : Rec) : State :=
  let r := ring s n
  let bytes := (recDwords s r x).foldr (fun w l => leBytes 4 w.toNat ++ l) []
  let addr : W64 := (r.cqb ++ (0 : BitVec 6)) + BitVec.ofNat 64 (32 * r.cqtail.toNat)
  let s := emit s (.hostWrite r.lport.toNat 0 r.pas addr false bytes)
  let t := r.cnext r.cqtail
  let r := { r.setUse r.cqtail none with
    cqtail := t, p := if t = 0 then !r.p else r.p,
    slotNext := if r.slotNext = r.cqtail then t else r.slotNext }
  notify (setRing s n r) n

/-- Completion records may be written now: not in Quarantine of kind FREEZE, nor, on an own ring, while the twin
is SUSPECT or the block FENCING (R164, R173, R503); on ring `n` also not before the doorbell that R180 waits for,
and only into a free slot. -/
def canWrite (s : State) (n : Nat) : Bool :=
  let r := ring s n
  !quarFreeze s && !s.tw.raceLost && (isAdoption s n || (decide (s.hbr.tstate ≠ 3) && decide (s.hbr.tstate ≠ 4))) &&
    !waitsDoorbell s n && decide (r.cdiff r.cqtail r.cqhead + 1 < r.cdepth)

/-- The exchange of entry `i` ends (R50, R52, R53): STATUS, RESID, and the device status if there is one. -/
def endX (s : State) (i : Nat) (st : BitVec 8) (resid : Nat) (dstat : Option (BitVec 15)) : State :=
  let s := updOwn (unhold s i) i (fun e =>
    { e with status := st, residHeld := BitVec.ofNat 32 resid, dsv := dstat.isSome, dstat := dstat.getD 0,
             held := false })
  updXctx s i (fun x =>
    { x with active := false, ended := true, cur := none, pre := none, cancel := false, heldWait := false,
             resolve := false })

/-- A progress or held record of entry `i` as it is written (R57): the wait class, WAIT and UNPROTECTED are those that
hold now, while the entry is still the exchange's. -/
def recNow (s : State) (i : Nat) (g : BitVec 29) (x : Rec) : Rec :=
  let e := own s i
  if e.gen = g then { x with wclass := e.wclass, wait := e.wait, unprot := e.unprot } else x

/-- Queued progress and held records at the head of the ring's slot order are written (R47, R48, R57, R58). -/
def drainRecs : Nat → State → Nat → State
  | 0, s, _ => s
  | k + 1, s, n =>
    let r := ring s n
    if !canWrite s n then s
    else
      match r.use r.cqtail with
      | some (.prog i g x) => drainRecs k (writeRec s n (recNow s i g x)) n
      | some (.held i g x) =>
        let s := writeRec s n (recNow s i g x)
        let s := if (own s i).gen = g then
            updXctx (updOwn s i (fun e => { e with held := true })) i
              (fun y => { y with heldWait := false, heldTick := s.tide.count })
          else s
        let s := if (own s i).gen = g ∧ (xctx s i).cancel = true then endX s i 0x40 0 none else s
        drainRecs k s n
      | _ => s

/-- Drain what can be written on one ring. -/
def drainRing (s : State) (n : Nat) : State := drainRecs (ring s n).slots.length s n

/-- A progress record (R47): it takes a spare slot, or sets PL. -/
def progressRec (s : State) (i : Nat) : State :=
  let e := own s i
  let n := ringOfEntry s e
  match freeSlot s n false with
  | none => setOwn s i { e with pl := true }
  | some k => drainRing (takeSlot s n k (.prog i e.gen (e.record .progress))) n

end Sys2Proof.Machine
end

