-- ==== Sys2Proof/Machine/Modes.lean ====
section
/-! DEFINITION. Machine/Modes.lean: what several commands share of the mode changes: wakes (R509, R519),
wiping the sealed banks (R257), entry to Quarantine (R187, R502, R503), orderly unpairing's pause (R188)
and entry to Maintenance (R500, R504). -/

namespace Sys2Proof.Machine

/-- Cellar words of one bank (R252). -/
def bankWords : Nat := 32768

/-- The owner of cellar bank `b` (R255). -/
def bankOwner (s : State) (b : Nat) : BitVec 2 := Table.get 0 s.celOwn b

/-- Set every word of the banks that satisfy `f` to EMPTY. -/
def wipeBanks (s : State) (f : Nat → Bool) : State :=
  { s with cellar := s.cellar.filter (fun e => !f (e.1 / bankWords)) }

/-- Wipe every bank that is SEALED now; its owner stays (R257). -/
def wipeSealed (s : State) : State := wipeBanks s (fun b => decide (bankOwner s b = 1))

/-- HBR.TWIN.STATE changes: source TWIN (R150, R449), and HBR.PD.ACTIVE with DROWSED (R194). -/
def setTstate (s : State) (v : BitVec 3) : State :=
  if s.hbr.tstate = v then s else raise { s with hbr := { s.hbr with tstate := v, pdActive := decide (v = 6) } } 3

/-- Entry to Quarantine with a cause and its kind (R187, R502, R503); a FREEZE withdraws a waiting pick (R92). -/
def quarNow (s : State) (cause : BitVec 8) : State :=
  let fz := decide (cause.toNat ≤ 7)
  let s := setMode { s with blk := { s.blk with freeze := fz }, boot := { s.boot with qcause := cause } } 6 0
  let s := if s.ltr.swipeQuar then wipeSealed s else s
  let former : Option (BitVec 16) := if s.hbr.tstate.toNat = 0 then s.tw.formerPeer else some s.hbr.tnum
  let s := if fz && s.pick.isSome then sampleLevel { s with pick := none } 0 else s
  if fz then
    updTw (setTstate s 0) (fun t =>
      { t with formerPeer := former, fencing := false, wakeSent := false, unpairing := false })
  else s

/-- A Quarantine trigger (R500, R501, R502): taken in Service and Takeover; in Drowse it wakes the block first;
in Quarantine it only turns a DRAIN into a FREEZE; elsewhere it has no effect. -/
def quarantine (s : State) (cause : BitVec 8) : State :=
  if s.blk.mode = 3 ∨ s.blk.mode = 5 then quarNow s cause
  else if s.blk.mode = 4 then startWake { s with boot := { s.boot with lateQuar := some cause } } 7
  else if s.blk.mode = 6 ∧ s.blk.freeze = false ∧ cause.toNat ≤ 7 then quarNow s cause
  else s

/-- Every ring is disabled (R504). -/
def disableRings (s : State) : State :=
  let s := { s with rings := Table.mapVals {} (fun _ r => { r with en := false }) s.rings }
  if s.pick.isSome then sampleLevel { s with pick := none } 0 else s

/-- Every cluster's source becomes ROOT; pilots follow at their next boundaries (R411, R504). -/
def selRoot (s : State) : State :=
  { s with csrc := Table.mapVals {} (fun _ c => { c with sel := 0 }) s.csrc }

/-- Entry to Maintenance with cause `c` (R500, R504 steps 3 to 5). -/
def maintNow (s : State) (c : BitVec 8) : State :=
  let s := selRoot (disableRings s)
  let s := setMode { s with boot := { s.boot with mcause := c, loading := none } } 7 0
  updTw (if s.ltr.swipeMaint then wipeSealed s else s) (fun t => { t with maintWait := false })

/-- A Maintenance trigger that waits for nothing (R500): in Drowse it wakes the block first. -/
def maintTrigger (s : State) (c : BitVec 8) : State :=
  if s.blk.mode = 7 then s
  else if s.blk.mode = 4 then startWake { s with boot := { s.boot with lateMaint := some c } } 9
  else maintNow s c

/-- Own entries in use: BLK.MINUSE.INUSE (R145). -/
def inUse (s : State) : Nat := Table.count (fun _ e => decide (e.st ≠ 0)) s.own

/-- Nothing is left of the block's exchanges and of its own rings' declines (R188). -/
def drainedOwn (s : State) : Bool :=
  decide (inUse s = 0) && s.rings.all (fun r => isAdoption s r.1 || decide (r.2.decw = 0))

/-- Nothing is left of the block's exchanges and declines (R504). -/
def drained (s : State) : Bool :=
  decide (inUse s = 0) && s.rings.all (fun r => decide (r.2.decw = 0))

end Sys2Proof.Machine
end

