-- ==== Sys2Proof/Machine/Exchange.lean ====
section
/-! DEFINITION. Machine/Exchange.lean: the execution of channel programs (R20 to R48, R51 to R53): decoding and
checking command words, gather lists, fenced programs, word ends, and completions of landward reads.  The
interpreter is firmware that the spec describes as the block's own behaviour; it keeps the own entry's CURW,
POS, XFER, STATUS, LASTW and PATH itself, and the entry's STATE moves by MSTEP alone (log 28). -/

namespace Sys2Proof.Machine

/-! Berths as an exchange sees them. -/

/-- LBS (R285). -/
def Berth.lbs (b : Berth) : Nat := if b.lbsz then 4096 else 512

/-- MXFER (R284): of the local controller, or 2 MiB without one. -/
def mxferOf (s : State) (b : Berth) : Nat :=
  let m := if (b.slot 0).v then (ctlOf s (b.slot 0).tgt.toNat).mdts.toNat else 0
  if m = 0 then 2097152 else Nat.min (2 ^ m * 4096) 2097152

/-- The local namespace of a berth, as its controller's start recorded it (R274, R285). -/
def localNs (s : State) (b : Berth) : Option NsInfo :=
  if (b.slot 0).v then (ctlOf s (b.slot 0).tgt.toNat).spaces.find? (fun n => decide (n.nsid = b.nsid)) else none

/-- CAPS (R285): 0 while slot 0 is not valid. -/
def capsOf (s : State) (b : Berth) : BitVec 8 :=
  if (b.slot 0).v then
    let c := ctlOf s (b.slot 0).tgt.toNat
    let zr := match localNs s b with
      | some n => n.zeroRead
      | none => false
    (0 : BitVec 3) ++ bit1 zr ++ bit1 (c.fuses.getLsbD 0) ++ bit1 (c.oncs.getLsbD 3) ++ bit1 (c.oncs.getLsbD 2) ++
      bit1 (c.oncs.getLsbD 0)
  else 0

/-- The berth can hold a fence log (R38, R298). -/
def hasFenceLog (b : Berth) : Bool := (b.slot 0).v && decide (b.flbn ≠ 0)

/-! Command words (R20 to R30). -/

/-- A command word from its two 64-bit halves (R20). -/
def CWord.decode (lo hi : W64) : CWord :=
  { op := hi.extractLsb' 56 8, rsv := hi.extractLsb' 54 2, buf := hi.extractLsb' 52 2,
    flags := hi.extractLsb' 48 4, modf := hi.extractLsb' 32 16, count := hi.extractLsb' 0 32, addr := lo }

def CWord.fence (w : CWord) : Bool := w.flags.getLsbD 3
def CWord.hold (w : CWord) : Bool := w.flags.getLsbD 2
def CWord.note (w : CWord) : Bool := w.flags.getLsbD 1
def CWord.clip (w : CWord) : Bool := w.flags.getLsbD 0

/-- READ, WRITE and COMPARE are data transfers (R23). -/
def CWord.transfer (w : CWord) : Bool := decide (1 ≤ w.op.toNat) && decide (w.op.toNat ≤ 3)
/-- Words whose COUNT a RESID reports (R52). -/
def CWord.residual (w : CWord) : Bool := w.transfer || decide (w.op = 5)
/-- The mutating opcodes (R22). -/
def CWord.mutating (w : CWord) : Bool :=
  decide (w.op = 2) || decide (w.op = 4) || decide (w.op = 5) || decide (w.op = 7)
/-- Words that issue device commands (R22). -/
def CWord.device (w : CWord) : Bool :=
  (decide (1 ≤ w.op.toNat) && decide (w.op.toNat ≤ 7)) || decide (w.op = 0x13)
/-- Words that need a position (R24). -/
def CWord.positioned (w : CWord) : Bool := w.device && decide (w.op ≠ 6)
/-- An opcode of R22. -/
def CWord.known (w : CWord) : Bool :=
  w.device || (decide (0x10 ≤ w.op.toNat) && decide (w.op.toNat ≤ 0x12)) || decide (w.op = 0x1F)

/-- Blocks and key length of KEY_SEARCH (R28). -/
def CWord.ksBlocks (w : CWord) : Nat := (w.count.extractLsb' 8 24).toNat
def CWord.ksLen (w : CWord) : Nat := (w.count.extractLsb' 0 8).toNat

/-- Bytes that a word addresses on the device (R30). -/
def CWord.bytes (w : CWord) (lbs : Nat) : Nat :=
  if w.op = 0x13 then w.ksBlocks * lbs else if w.positioned then w.count.toNat else 0

/-- BUF values that the opcode accepts (R22). -/
def CWord.bufOk (w : CWord) : Bool :=
  if w.op = 1 then decide (w.buf ≠ 3)
  else if w.op = 2 ∨ w.op = 3 ∨ w.op = 5 then decide (w.buf.toNat ≤ 1)
  else decide (w.buf = 0)

/-- Flags that the opcode accepts (R22). -/
def CWord.flagMask (w : CWord) : BitVec 4 :=
  if w.transfer then 0xF
  else if w.op = 5 ∨ w.op = 0x13 then 0xA
  else if w.op = 4 ∨ w.op = 6 ∨ w.op = 7 ∨ w.op = 0x11 then 0xE
  else if w.op = 0x10 then 0x8
  else 0

/-- COUNT breaks its limits (R22, R28, R30). -/
def CWord.countBad (w : CWord) (lbs : Nat) : Bool :=
  let n := w.count.toNat
  if w.op = 0x13 then decide (16777216 < w.ksBlocks * lbs)
  else if w.positioned then
    decide (n < lbs) || decide (n % lbs ≠ 0) || decide ((if w.op = 5 then 1048576 else 16777216) < n)
  else decide (n ≠ 0)

/-- ADDR is not as R22, R25 and R30 require. -/
def CWord.addrBad (w : CWord) : Bool :=
  if w.op = 0x12 then decide (w.addr.extractLsb' 0 4 ≠ 0)
  else if w.transfer ∨ w.op = 5 ∨ w.op = 0x13 ∨ w.op = 0x10 then
    decide (w.op = 1) && decide (w.buf = 2) && decide (w.addr ≠ 0)
  else decide (w.addr ≠ 0)

/-- Reserved bits, MOD or a KEY_SEARCH or JUMP operand break R28 or R30. -/
def CWord.fieldBad (w : CWord) (lbs : Nat) : Bool :=
  decide (w.rsv ≠ 0) ||
  (if w.op = 4 then decide (w.modf.extractLsb' 1 15 ≠ 0)
   else if w.op = 0x12 then decide (3 ≤ w.modf.toNat)
   else if w.op = 0x13 then
     decide (w.ksLen = 0) || decide (64 < w.ksLen) || decide (lbs < w.modf.toNat + w.ksLen) ||
       decide (w.ksBlocks = 0)
   else decide (w.modf ≠ 0))

/-- Each status of a word's own checks with its condition, in order of status code (R24, R29 to R31, R35, R39). -/
def wordFaults (b : Berth) (idx total : Nat) (posSet fenced : Bool) (w : CWord) : List (Bool × BitVec 8) :=
  [(!w.known, 0x10),
   (!w.bufOk || decide (w.flags &&& ~~~w.flagMask ≠ 0) || (w.fence && decide (idx ≠ 0)), 0x11),
   (w.positioned && !posSet, 0x12),
   (w.countBad b.lbs || decide (1073741824 < total + w.bytes b.lbs), 0x13),
   (w.addrBad, 0x14),
   (w.fieldBad b.lbs, 0x15),
   (decide (w.buf = 1) && decide (w.addr.extractLsb' 0 4 ≠ 0), 0x16),
   (decide (w.op = 5) && !fenced, 0x18),
   (b.ce && (decide (w.op = 3) || decide (w.op = 5) || decide (w.op = 0x13)), 0x19)]

/-- The failing condition with the lowest status code (R31). -/
def wordFault (b : Berth) (idx total : Nat) (posSet fenced : Bool) (w : CWord) : Option (BitVec 8) :=
  ((wordFaults b idx total posSet fenced w).find? (fun x => x.1)).map (·.2)

/-- The berth's device lacks the opcode (R27, R273, R286). -/
def capMissing (s : State) (b : Berth) (w : CWord) : Bool :=
  let c := capsOf s b
  (b.slot 0).v &&
    ((decide (w.op = 3) && !c.getLsbD 0) || (decide (w.op = 7) && !c.getLsbD 1) ||
     (decide (w.op = 4) && !c.getLsbD 2) || (decide (w.op = 5) && !c.getLsbD 3))

/-! Ends. -/

/-- The berth of an entry. -/
def berthOf (s : State) (i : Nat) : Berth := berth s (own s i).berth.toNat

/-- The exchange ends in word `w` of index `idx` with nothing more counted (R32, R52). -/
def failWord (s : State) (i idx : Nat) (w : CWord) (st : BitVec 8) : State :=
  endX (updOwn s i (fun e => { e with lastw := BitVec.ofNat 12 idx })) i st (if w.residual then w.count.toNat else 0) none

/-- The fenced exchange's fence-log record has been written, so a CANCEL is ignored (R45). -/
def pastCancel (e : Own) : Bool := e.fenced && decide (e.fseq ≠ 0)

/-- Word `w` ends normally with `bytes` counted; the next word stands at `next` (R21, R26, R30, R32, R42, R45, R47).
After the 4,096th word no other would start, so PROGRAM_LONG comes before a pending CANCEL. -/
def endWord (s : State) (i : Nat) (w : CWord) (idx bytes : Nat) (short : Bool) (next : W64) : State :=
  let b := berthOf s i
  let adv := if w.transfer then BitVec.ofNat 64 (bytes / b.lbs) else 0
  let s := updOwn s i (fun e =>
    { e with xfer := e.xfer + BitVec.ofNat 32 bytes, pos := e.pos + adv, lastw := BitVec.ofNat 12 idx })
  let s := updXctx s i (fun x => { x with cur := none, nwords := idx + 1, next := next, retries := 0 })
  let s := if w.note then progressRec s i else s
  if short then endX s i 1 (w.count.toNat - bytes) none
  else if w.hold then
    let n := ringOfEntry s (own s i)
    takeoverEnd (updXctx (updRing s n (fun r => { r with helds := r.helds ++ [i] })) i (fun x => { x with heldWait := true }))
  else if idx + 1 = 4096 then endX s i 0x17 0 none
  else if (xctx s i).cancel && !pastCancel (own s i) then endX s i 0x40 0 none
  else fetchWord s i

/-! Starting a word. -/

/-- The word being executed, once its checks and its gather list have passed (R26, R30, R31, R286): words without
a device command are executed at once; the others wait for their device work. -/
def runWord (s : State) (i : Nat) (wx : WordX) : State :=
  let b := berthOf s i
  let e := own s i
  let w := wx.w
  let next := wx.addr + 16
  let room := if e.pos.toNat ≤ b.nsze.toNat then (b.nsze.toNat - e.pos.toNat) * b.lbs else 0
  let n := w.bytes b.lbs
  let s := updXctx s i (fun x => { x with total := x.total + n })
  if w.op = 0x10 then endWord (updOwn s i (fun e => { e with pos := w.addr })) i w wx.idx 0 false next
  else if w.op = 0x11 then endWord s i w wx.idx 0 false next
  else if w.op = 0x12 then
    let m := (xctx s i).mark
    let taken := decide (w.modf = 0) || (decide (w.modf = 1) && m) || (decide (w.modf = 2) && !m)
    endWord s i w wx.idx 0 false (if taken then w.addr else next)
  else if w.op = 0x1F then
    endX (updXctx (updOwn s i (fun e => { e with lastw := BitVec.ofNat 12 wx.idx })) i
      (fun x => { x with nwords := wx.idx + 1 })) i 0 0 none
  else if capMissing s b w then failWord s i wx.idx w 0x32
  else if w.op = 0x13 then
    let k := Nat.min n room
    if k = 0 then endWord (updXctx s i (fun x => { x with mark := false })) i w wx.idx 0 false next
    else hostFetch (updXctx s i (fun x => { x with cur := some { wx with begun := true, bytes := k } })) i w.addr w.ksLen
  else if w.positioned && decide (room < n) then
    if w.transfer && w.clip then
      if room = 0 then endWord s i w wx.idx 0 true next
      else updXctx s i (fun x => { x with cur := some { wx with begun := true, bytes := room, short := true } })
    else failWord s i wx.idx w 0x21
  else updXctx s i (fun x => { x with cur := some { wx with begun := true, bytes := n } })

/-- Entry `k` of a word's gather list is read (R35). -/
def fetchList (s : State) (i : Nat) (w : CWord) (k : Nat) : State := hostFetch s i (w.addr + BitVec.ofNat 64 (16 * k)) 16

/-- A word has been fetched for execution (R30, R31): a status below BAD_LIST ends the exchange at once; with a
gather list to fetch, the word waits for it first.  DESIGN CHOICE (log 67): a position that SETPOS set to all ones is
the encoding of an unset one (R116) and counts as unset (R24). -/
def startWord (s : State) (i : Nat) (wx : WordX) : State :=
  let e := own s i
  let fault := wordFault (berthOf s i) wx.idx (xctx s i).total (decide (e.pos ≠ BitVec.allOnes 64)) e.fenced wx.w
  let lists := decide (wx.w.buf = 1) && !wx.listed
  let wait := fetchList (updXctx s i (fun x => { x with cur := some wx })) i wx.w 0
  match fault with
  | some c => if lists && decide (0x17 ≤ c.toNat) then wait else failWord s i wx.idx wx.w c
  | none => if lists then wait else runWord s i wx

/-! Gather lists (R35). -/

/-- One gather-list entry is acceptable (R35, R234): SPACE HOST, no reserved bits, a length in range, no wrap, and
SKIP only in the list of a READ. -/
def gatherOk (read : Bool) (g : BitVec 128) : Bool :=
  let len := (g.extractLsb' 64 32).toNat
  let skip := g.getLsbD 123
  decide (g.extractLsb' 124 4 = 0) && decide (g.extractLsb' 96 27 = 0) && decide (1 ≤ len) &&
    decide (len ≤ 16777216) && (!skip || read) &&
    (skip || decide ((g.extractLsb' 0 64).toNat + len ≤ 2 ^ 64))

/-- The outcome of the entries read so far: the list is complete, broken, or still short of its target. -/
inductive Gather where
  | full (l : List (BitVec 128))
  | broken
  | more
deriving DecidableEq, Repr

/-- Walk the entries against the target (R35); `cnt` entries with the sum `sum` have passed, newest first. -/
def gatherWalk (read : Bool) (target : Nat) : Nat → Nat → List (BitVec 128) → List (BitVec 128) → Gather
  | cnt, _, _, [] => if cnt = 256 then .broken else .more
  | cnt, sum, acc, g :: gs =>
    let t := sum + (g.extractLsb' 64 32).toNat
    if cnt = 256 || !gatherOk read g || decide (target < t) then .broken
    else if t = target then .full (acc ++ [g])
    else gatherWalk read target (cnt + 1) t (acc ++ [g]) gs

/-- Pairs of 64-bit words as 128-bit entries, low half first (R4). -/
def pairs128 : List W64 → List (BitVec 128)
  | a :: b :: t => (b ++ a) :: pairs128 t
  | _ => []

/-- A word's gather list as far as it has been read (R35). -/
def CWord.gather (w : CWord) (l : List (BitVec 128)) : Gather :=
  gatherWalk (decide (w.op = 1)) (if w.op = 5 then 2 * w.count.toNat else w.count.toNat) 0 0 [] l

/-! The whole-program check of a fenced exchange (R37, R38). -/

/-- Note the first word that breaks a condition of R38. -/
def PreX.note (p : PreX) (bad : Bool) : PreX :=
  { p with bad := if bad && p.bad.isNone then some p.idx else p.bad }

/-- The exchange ends before any word has run (R38): nothing is counted, and LASTW is given. -/
def endPre (s : State) (i : Nat) (st : BitVec 8) (lastw : Nat) : State :=
  endX (updOwn s i (fun e => { e with lastw := BitVec.ofNat 12 lastw, xfer := 0 })) i st 0 none

/-- A gleaned ISSUED entry whose program fails or has no mutating word ends with FENCE_UNKNOWN, LASTW as the mirror
entry gave it (R183, R184, R301). -/
def endUnknown (s : State) (i : Nat) : State :=
  let s := endX (updOwn s i (fun e => { e with xfer := 0 })) i 0x35 0 none
  { s with hbr := { s.hbr with fundet := satInc s.hbr.fundet } }

/-- The whole-program check ends the exchange (R38), or a settled exchange stays unknown (R183). -/
def failPre (s : State) (i : Nat) (st : BitVec 8) (k : Nat) : State :=
  if settling s i then endUnknown s i else endPre s i st k

/-- One word of the whole-program check (R31, R38), once a gather list that its status depends on has been read
(`listed`).  The maximum transfer size bounds what moves data (R284).  DESIGN CHOICE (log 67): LASTW of a program that
both breaks a condition at some word and does not reach END in time is the index of that word, and of one without a
mutating word on a berth that cannot hold a fence log the index of its END. -/
def preWord (s : State) (i : Nat) (p : PreX) (w : CWord) (listed : Bool) : State :=
  let b := berthOf s i
  let fail := failPre s i
  match wordFault b p.idx p.total p.posSet true w with
  | some c =>
    if decide (w.buf = 1) && !listed && decide (0x17 ≤ c.toNat) then
      fetchList (updXctx s i (fun x => { x with pre := some { p with listOf := some w, glist := [] } })) i w 0
    else fail c p.idx
  | none =>
    let big := decide (1048576 < w.count.toNat) || ((w.transfer || decide (w.op = 5)) && decide (mxferOf s b < w.count.toNat))
    let p := p.note (decide (w.op = 0x13) || w.hold || (w.mutating && (p.mutAt.isSome || big || !hasFenceLog b)))
    let total := p.total + w.bytes b.lbs
    let p := if w.mutating && p.mutAt.isNone then
        { p with mutAt := some p.idx, mutW := w, mutPos := p.pos, mutAddr := p.addr, mutTotal := total }
      else p
    if w.op = 0x1F then
      match (p.note (!hasFenceLog b)).bad with
      | some k => fail 0x18 k
      | none =>
        if settling s i && p.mutAt.isNone then endUnknown s i
        else fetchWord (updXctx s i (fun x => { x with pre := none, preOk := true, preMut := some p })) i
    else if p.idx = 4095 then fail 0x18 (p.bad.getD 4095)
    else
      let adv := if w.transfer then BitVec.ofNat 64 (w.count.toNat / b.lbs) else 0
      let taken := decide (w.op = 0x12) && decide (w.modf ≠ 1)
      let p' : PreX := { p with
        idx := p.idx + 1, addr := if taken then w.addr else p.addr + 16, total := total,
        pos := if w.op = 0x10 then w.addr else p.pos + adv, posSet := p.posSet || decide (w.op = 0x10) }
      fetchWord (updXctx s i (fun x => { x with pre := some p' })) i

/-- Gather-list entries arrive: of the word being executed (R35), or of the word that the whole-program check judges
(R31, R38). -/
def gotList (s : State) (i : Nat) (ws : List W64) : State :=
  match (xctx s i).cur, (xctx s i).pre with
  | some wx, _ =>
    if wx.w.buf ≠ 1 ∨ wx.listed = true then s
    else
      let l := wx.glist ++ pairs128 ws
      match wx.w.gather l with
      | .broken => failWord s i wx.idx wx.w 0x16
      | .more => fetchList (updXctx s i (fun x => { x with cur := some { wx with glist := l } })) i wx.w l.length
      | .full l => startWord s i { wx with glist := l, listed := true }
  | none, some p =>
    (match p.listOf with
     | none => s
     | some w =>
       let l := p.glist ++ pairs128 ws
       match w.gather l with
       | .broken => failPre s i 0x16 p.idx
       | .more => fetchList (updXctx s i (fun x => { x with pre := some { p with glist := l } })) i w l.length
       | .full _ => preWord s i { p with listOf := none, glist := [] } w true)
  | none, none => s

/-- The exchange waits for gather-list entries. -/
def wantsList (s : State) (i : Nat) : Bool :=
  match (xctx s i).cur with
  | some wx => decide (wx.w.buf = 1) && !wx.listed
  | none => PreX.waitsList (xctx s i).pre

/-! Landward reads (R28, R33, R35, R51, R566). -/

/-- A command word arrives (R30, R37, R38). -/
def gotWord (s : State) (i : Nat) (lo hi : W64) : State :=
  let x := xctx s i
  let w := CWord.decode lo hi
  let b := berthOf s i
  if x.nwords = 0 ∧ x.preOk = false ∧ x.pre = none then
    if w.fence || b.policy || (own s i).fenced then
      preWord (updOwn s i (fun e => { e with fenced := true })) i { addr := x.next } w false
    else startWord s i { idx := 0, addr := x.next, w := w }
  else
    match x.pre with
    | some p => preWord s i p w false
    | none =>
      startWord (updOwn s i (fun e => { e with curw := x.next.extractLsb' 4 60 })) i
        { idx := x.nwords, addr := x.next, w := w }

/-- A landward read for the exchange fails (R51, R52). -/
def hostFault (s : State) (i : Nat) : State :=
  let x := xctx s i
  match x.cur, x.pre with
  | some wx, _ => failWord s i wx.idx wx.w 0x20
  | none, some p => if settling s i then endUnknown s i else endPre s i 0x20 p.idx
  | none, none => failWord s i x.nwords {} 0x20

/-- The key of a KEY_SEARCH arrives (R28). -/
def gotKey (s : State) (i : Nat) (ws : List W64) : State :=
  match (xctx s i).cur with
  | none => s
  | some wx =>
    if wx.w.op = 0x13 ∧ wx.key = [] then
      let bs := (ws.foldr (fun w l => leBytes 8 w.toNat ++ l) []).take wx.w.ksLen
      updXctx s i (fun x => { x with cur := some { wx with key := bs } })
    else s

/-- PORT.QERR index of a landward read's port or of a dock read's, and its drop (R562, R571): the flags are LANE,
CRED, GAP and LEN in the order of R571. -/
def quayDrop (s : State) (q : QuayCpl) : Option State :=
  let lane := q.badLane || decide (12 ≤ q.port)
  if !(q.noCredit || q.gap || q.badLen || lane) then none
  else
    let f : BitVec 4 := bit1 q.badLen ++ bit1 q.gap ++ bit1 q.noCredit ++ bit1 lane
    some { s with plc := { s.plc with
      qdrops := Table.upd 0 s.plc.qdrops q.port satInc,
      qflags := Table.upd 0 s.plc.qflags q.port (· ||| f) } }

/-- The first two words of a completion. -/
def twoWords : List W64 → Option (W64 × W64)
  | a :: b :: _ => some (a, b)
  | _ => none

/-- QUAY_COMPLETION (R51, R562, R566). -/
def execQuayCompletion (r : Reader) (q : QuayCpl) (s : State) : Out :=
  .next (
    match quayDrop s q with
    | some s => s
    | none =>
      let bad := q.err || decide (q.cst ≠ 0)
      match r with
      | .word i =>
        if !wantsWord s i then s
        else if (xctx s i).nwords = 4096 then endX s i 0x17 0 none
        else if bad then hostFault s i
        else
          match twoWords q.data with
          | some (lo, hi) => gotWord s i lo hi
          | none => s
      | .glist i =>
        if !wantsList s i then s else if bad then hostFault s i else gotList s i q.data
      | .key i =>
        match (xctx s i).cur with
        | some wx => if wx.w.op = 0x13 then (if bad then hostFault s i else gotKey s i q.data) else s
        | none => s
      | .payload i =>
        match (xctx s i).cur with
        | some wx => if bad && (wx.w.residual && decide (wx.w.op ≠ 1)) then hostFault s i else s
        | none => s
      | .probe _ => s)

end Sys2Proof.Machine
end

