-- ==== Sys2Proof/Machine/PlaciaOut.lean ====
section
/-! DEFINITION. Machine/PlaciaOut.lean: Placia frames that the block sends (R196, R197, R205 to R214): the frame
check, the header, sequenced sending under credit, and acknowledgements. -/

namespace Sys2Proof.Machine

/-- One bit step of a reflected CRC. -/
def crcBit {w : Nat} (poly c : BitVec w) : BitVec w := if c.getLsbD 0 then (c >>> 1) ^^^ poly else c >>> 1

/-- One byte step of a reflected CRC. -/
def crcByte {w : Nat} (poly c : BitVec w) (b : Byte) : BitVec w :=
  (List.range 8).foldl (fun c _ => crcBit poly c) (c ^^^ b.setWidth w)

/-- CRC-32C (R197), bit-reflected with the polynomial 0x1EDC_6F41. -/
def crc32c (bs : List Byte) : W32 := ~~~ (bs.foldl (crcByte 0x82F63B78#32) (BitVec.allOnes 32))

/-- The 64-bit guard CRC of the NVM Command Set (R247). -/
def crc64 (bs : List Byte) : W64 :=
  ~~~ (bs.foldl (crcByte 0x9A6C9329AC4BC9B5#64) (BitVec.allOnes 64))

/-- Bytes of one 64-bit quadword, and of a list of them (R4). -/
def qBytes (q : W64) : List Byte := leBytes 8 q.toNat
def qsBytes (qs : List W64) : List Byte := qs.foldr (fun q l => qBytes q ++ l) []

/-- Credit units of a frame with `len` body bytes (R214). -/
def creditUnits (len : Nat) : Nat := (28 + len + 255) / 256

/-- The 24-byte header (R196). -/
def header (s : State) (p : Nat) (typ : BitVec 4) (lane : BitVec 3) (u av rx : Bool) (len : Nat) (crd : BitVec 13)
    (seq ack : W32) : List Byte :=
  let x := pathOf s p
  let d0 : W32 := (1 : BitVec 4) ++ typ ++ lane ++ bit1 u ++ bit1 av ++ bit1 rx ++ (0 : BitVec 2) ++ BitVec.ofNat 16 len
  let d1 : W32 := s.hbr.num ++ x.peer
  let d2 : W32 := x.epoch ++ lane ++ crd
  [d0, d1, d2, seq, ack, s.hbr.hid].foldr (fun d l => leBytes 4 d.toNat ++ l) []

/-- The tamper response has stopped every seaward transmission (R536). -/
def silenced (s : State) : Bool := decide (s.blk.mode = 7) && (decide (s.boot.mcause = 3) || decide (s.boot.mcause = 4))

/-- An RDATA or RCPL frame, other than a FENCED answer, to a block that is fenced here (R201). -/
def servedFrame (s : State) (peer : BitVec 16) (hdr body : List Byte) : Bool :=
  let typ : BitVec 4 := (hdr.getD 3 0).extractLsb' 0 4
  s.dock.fencedBy.contains peer &&
    (decide (typ = 7) || (decide (typ = 8) && decide ((body.getD 3 0).extractLsb' 5 3 ≠ (2 : BitVec 3))))

/-- A frame leaves the block on path `p` with its trailer, and with the ROUTE, ENC and UDP ports of its header beat (R196,
R197, R229, R231, R567); a block that entered Quarantine of kind FREEZE sends none to its former twin (R187), a serving
block no more data to a fenced one (R201), and none leaves after a tamper response (R536). -/
def putFrame (s : State) (p : Nat) (hdr body : List Byte) : State :=
  let x := pathOf s p
  if s.tw.formerPeer = some x.peer ∨ silenced s = true ∨ servedFrame s x.peer hdr body = true then s
  else
    let f := hdr ++ body
    let lane : BitVec 3 := (hdr.getD 2 0).extractLsb' 5 3
    emit s (.frame p x.route x.enc (BitVec.ofNat 16 (0xC000 + (p * 8 + lane.toNat) % 16384)) s.plc.udpport
      (f ++ leBytes 4 (crc32c f).toNat))

/-- An unsequenced frame (R215). -/
def sendU (s : State) (p : Nat) (typ : BitVec 4) (lane : BitVec 3) (body : List Byte) : State :=
  putFrame s p (header s p typ lane true false false body.length 0 0 0) body

/-- Credit that the next sequenced frame of a lane returns (R196): at most 8,191 units. -/
def owedNow (l : Lane) : Nat := Nat.min l.owed 8191

/-- A sequenced frame goes out, first or again: it carries the lane's acknowledgement and credit (R211, R213). -/
def sendS (s : State) (p lane : Nat) (f : TxF) (rx : Bool) : State :=
  let x := pathOf s p
  let l := x.lane lane
  let crd := owedNow l
  let h := header s p f.typ (BitVec.ofNat 3 lane) false true rx f.body.length (BitVec.ofNat 13 crd) f.seq l.exp
  putFrame (setPath s p (x.setLane lane { l with owed := l.owed - crd })) p h f.body

/-- Send waiting frames of a lane while credit and the window of 1,024 allow (R209, R214). -/
def pumpLane : Nat → State → Nat → Nat → State
  | 0, s, _, _ => s
  | n + 1, s, p, lane =>
    let x := pathOf s p
    let l := x.lane lane
    match l.wait with
    | [] => s
    | q :: qs =>
      let units := creditUnits q.body.length
      if x.state = 2 ∧ units ≤ l.credit ∧ l.unack.length < 1024 then
        let f : TxF := ⟨l.seq, q.typ, q.body, units, 0, false⟩
        let s := setPath s p (x.setLane lane
          { l with wait := qs, credit := l.credit - units, seq := l.seq + 1, unack := l.unack ++ [f] })
        pumpLane n (sendS s p lane f false) p lane
      else s

/-- Queue a sequenced frame on a lane of a path and send what can be sent. -/
def laneSend (s : State) (p lane : Nat) (typ : BitVec 4) (body : List Byte) : State :=
  let s := updPath s p (fun x =>
    let l := x.lane lane
    x.setLane lane { l with wait := l.wait ++ [⟨typ, body⟩] })
  pumpLane ((pathOf s p).lane lane).wait.length s p lane

/-- A CTRL body (R200): CODE and the other bits of Q0. -/
def ctrlQ (code : BitVec 8) (rest : BitVec 56) : W64 := code ++ rest

/-- A sequenced CTRL message on lane 0 of path `p`. -/
def sendCtrl (s : State) (p : Nat) (code : BitVec 8) (rest : BitVec 56) : State :=
  laneSend s p 0 2 (qBytes (ctrlQ code rest))

/-- SACK bits of held frames beyond the expected one (R212). -/
def sackBits (exp : W32) (held : List HeldF) : W64 :=
  held.foldl (fun b h =>
    let d := (h.seq - exp).toNat
    if 1 ≤ d ∧ d ≤ 64 then b ||| ((1 : W64) <<< (d - 1)) else b) 0

/-- The credit quadwords of an ACK frame (R212): what each lane owes, at most 65,535 units. -/
def creditQ (x : Path) (k : Nat) : W64 :=
  let c : Nat → BitVec 16 := fun n => BitVec.ofNat 16 (Nat.min (x.lane n).owed 65535)
  c (k + 3) ++ c (k + 2) ++ c (k + 1) ++ c k

/-- Every lane's returned credit has been reported. -/
def Path.clearOwed (x : Path) : Path :=
  { x with lanes := Table.mapVals {} (fun _ l => { l with owed := l.owed - Nat.min l.owed 65535 }) x.lanes }

/-- An ACK frame for a lane (R211, R212). -/
def sendAck (s : State) (p lane : Nat) : State :=
  let x := pathOf s p
  let l := x.lane lane
  let body := qsBytes [sackBits l.exp l.held, creditQ x 0, creditQ x 4]
  putFrame (setPath s p x.clearOwed) p
    (header s p 1 (BitVec.ofNat 3 lane) true true false 24 0 0 l.exp) body

/-! Paths to a peer. -/

/-- PROVEN paths whose peer is block `n`, in order of path number. -/
def provenTo (s : State) (n : BitVec 16) : List Nat :=
  (s.paths.filter (fun e => e.2.en && decide (e.2.state = 2) && decide (e.2.peer = n))).map (·.1)

/-- A path whose peer is the twin, while there is a twin number. -/
def isTwinPath (s : State) (p : Nat) : Bool :=
  decide (s.hbr.tstate ≠ 0) && decide ((pathOf s p).peer = s.hbr.tnum)

end Sys2Proof.Machine
end

