-- ==== Sys2Proof/Machine/SlotCore.lean ====
section
/-! DEFINITION. Machine/SlotCore.lean: path slots and berths (R285 to R292), the device commands of exchanges
(R281 to R284, R290 to R297, R300) and how a word ends with them (R36, R52, R53), the settling of a fenced
mutating command (R183 to R185, R291, R301), and the answers of a serving block (R293 to R295). -/

namespace Sys2Proof.Machine

/-! Namespaces and slots. -/

/-- The local namespace meets every condition on which a berth opens (R273, R286). -/
def nsGood (b : Berth) (n : NsInfo) : Bool :=
  n.lbaOk && decide (n.dps = 0) &&
    (if b.ce then decide (n.ms = 32) && n.sepMeta else decide (n.ms = 0)) &&
    decide (n.nguid = b.nguid) && (n.lba4k == b.lbsz) &&
    decide (b.nsze.toNat + 2 * b.flbn.toNat ≤ n.nsze.toNat)

/-- Slot 0's namespace conditions hold. -/
def localGood (s : State) (b : Berth) : Bool :=
  match localNs s b with
  | some n => nsGood b n
  | none => false

/-- The namespace and its controller can be shared with the twin (R273). -/
def shareable (s : State) (b : Berth) : Bool :=
  match localNs s b with
  | some n => decide ((ctlOf s (b.slot 0).tgt.toNat).cmic.extractLsb' 0 2 = 3) && n.nmic && n.rescap4
  | none => true

/-- The latest complete MEMBER message of block `n` lists a namespace (R149, R289). -/
def memberLists (s : State) (n : BitVec 16) (nguid : BitVec 128) : Bool :=
  let m := Table.get {} s.members n.toNat
  m.known && m.nguids.contains nguid

/-- PST of slot `k` (R286, R288, R289): 0 DOWN, 1 PROVING, 2 UP, 3 FAILED. -/
def slotState (s : State) (b : Berth) (k : Nat) : BitVec 2 :=
  let x := b.slot k
  if k = 0 then
    if b.state ≠ 0 ∧ x.v = true ∧ localGood s b = false then 3 else (ctlOf s x.tgt.toNat).pst
  else if x.pst = 3 then 3
  else if (pathOf s x.tgt.toNat).state = 2 ∧ memberLists s (pathOf s x.tgt.toNat).peer b.nguid = true then 2
  else 0

/-- Slot `k` is valid and UP. -/
def slotUp (s : State) (b : Berth) (k : Nat) : Bool := (b.slot k).v && decide (slotState s b k = 2)

/-- A command of the berth could take an UP slot other than `excl` (R290). -/
def anyUp (s : State) (b : Berth) (excl : Option Nat) : Bool :=
  (List.range 4).any (fun k => slotUp s b k && decide (excl ≠ some k))

/-- STATE as its slots make it (R286): OPEN with every valid slot DOWN or FAILED becomes NO_PATH, and NO_PATH
becomes OPEN again with a slot UP, except after a fence loss. -/
def settleBerth (s : State) (b : Berth) : Berth :=
  let dead := (List.range 4).all (fun k =>
    !(b.slot k).v || decide (slotState s b k = 0) || decide (slotState s b k = 3))
  if b.state = 1 ∧ dead = true then { b with state := 3 }
  else if b.state = 3 ∧ b.fenceLost = false ∧ anyUp s b none = true then { b with state := 1 }
  else b

/-- Settle every berth. -/
def settleBerths (s : State) : State := { s with berths := Table.mapVals {} (fun _ b => settleBerth s b) s.berths }

/-- The fence set (R170, R273). -/
def fenceSet (s : State) : List (BitVec 128) :=
  s.berths.foldl (fun l e =>
    if (e.2.slot 0).v && (e.2.slot 1).v && shareable s e.2 && !l.contains e.2.nguid then l ++ [e.2.nguid] else l) []

/-! Parts of a word. -/

/-- Bytes that one device command of the word covers at most (R28, R284). -/
def chunkOf (s : State) (b : Berth) (w : CWord) : Nat :=
  if w.op = 0x13 then Nat.min 131072 (mxferOf s b)
  else if w.transfer then mxferOf s b
  else Nat.max w.count.toNat 1

/-- How many device commands a word needs (R27, R36, R284). -/
def partsOf (s : State) (b : Berth) (wx : WordX) : Nat :=
  if wx.w.op = 5 then 2
  else if wx.w.op = 6 then 1
  else (wx.bytes + chunkOf s b wx.w - 1) / chunkOf s b wx.w

/-- Bytes of part `k`. -/
def partBytes (s : State) (b : Berth) (wx : WordX) (k : Nat) : Nat :=
  if wx.w.op = 5 then wx.bytes
  else Nat.min (chunkOf s b wx.w) (wx.bytes - k * chunkOf s b wx.w)

/-- The NVMe opcode of part `k` (R271). -/
def nvmeOp (w : CWord) (k : Nat) : BitVec 8 :=
  if w.op = 1 then 2
  else if w.op = 2 then 1
  else if w.op = 3 then 5
  else if w.op = 4 then 8
  else if w.op = 5 then (if k = 0 then 5 else 1)
  else if w.op = 7 then 9
  else if w.op = 0x13 then 2
  else 0

/-- The mutating command of a fenced exchange. -/
def isMutCmd (s : State) (c : DCmd) : Bool :=
  match c.kind, (xctx s c.idx).cur with
  | .part _, some wx => (own s c.idx).fenced && wx.w.mutating
  | _, _ => false

/-- The command still belongs to the entry that issued it. -/
def liveCmd (s : State) (c : DCmd) : Bool := decide ((own s c.idx).gen = c.gen)

/-! Commands of an exchange. -/

/-- Commands of entry `i` that satisfy `f`, with their keys. -/
def cmdsOf (s : State) (i : Nat) (f : DCmd → Bool) : List (Nat × DCmd) :=
  s.dcmds.filterMap (fun e => match e.2 with
    | some c => if decide (c.idx = i) && f c then some (e.1, c) else none
    | none => none)

/-- OUTST of a slot changes. -/
def slotOut (s : State) (b k : Nat) (up : Bool) : State :=
  let x := berth s b
  let v := (x.slot k).outst
  setBerth s b (x.setSlot k { x.slot k with outst := if up then v + 1 else if v = 0 then 0 else v - 1 })

/-- OUTST of a device queue changes; local keys lie below 2^26. -/
def queueOut (s : State) (key : Nat) (up : Bool) : State :=
  if 67108864 ≤ key then s
  else
    let q := dqOf s (key / 65536)
    setDq s (key / 65536) { q with outst := if up then q.outst + 1 else if q.outst = 0 then 0 else q.outst - 1 }

/-- A command is no longer outstanding on its slot and queue. -/
def cmdOff (s : State) (key : Nat) (c : DCmd) : State :=
  let s := slotOut s (own s c.idx).berth.toNat c.slot false
  queueOut s key false

/-- The command leaves the device and waits for `w`. -/
def cmdWait (s : State) (key : Nat) (c : DCmd) (w : CmdWait) (excl : Option Nat) (lost : W64) : State :=
  let s := if c.wait = .device then cmdOff s key c else s
  setDcmd s key (some { c with wait := w, excl := excl, lost := lost })

/-- Every command of the exchange is forgotten; those on a device stop counting when they complete. -/
def dropWaiting (s : State) (i : Nat) : State :=
  (cmdsOf s i (fun c => decide (c.wait ≠ .device))).foldl (fun s e => setDcmd s e.1 none) s

/-! WAIT (R54). -/

/-- Add the interval from tick `t` to the ticks that WAIT reports; WAIT only grows, and a value that MPUT or a mirror
record gave it stands for that many µs. -/
def addWait (s : State) (i : Nat) (t : W64) : State :=
  let n := Nat.max (xctx s i).waitT (100 * (own s i).wait.toNat) + since s t
  updOwn (updXctx s i (fun x => { x with waitT := n })) i (fun e => { e with wait := waitUs n })

/-- The device command of entry `i` has lost its path at tick `t`: the path-change interval runs from the first loss. -/
def pathChange (s : State) (i : Nat) (t : W64) : State :=
  updXctx s i (fun x => { x with pathTick := some (x.pathTick.getD t) })

/-- A command of entry `i` is issued again on slot `slot`, after slot `old`: on an alternate path, and with no other
command of the exchange left to re-issue, the path-change interval ends and counts once. -/
def pathChanged (s : State) (i old slot : Nat) : State :=
  match (xctx s i).pathTick with
  | none => s
  | some t =>
    if !(cmdsOf s i (fun c => decide (c.wait = .slot))).isEmpty then s
    else
      let s := updXctx s i (fun x => { x with pathTick := none })
      if old = slot then s else addWait s i t

/-- The entry's WAIT with the takeover interval added, at the survivor's first action for it (R54). -/
def addTakeoverWait (s : State) (i : Nat) : State :=
  if (xctx s i).tkoWait then updXctx (addWait s i s.tw.lostAt) i (fun x => { x with tkoWait := false }) else s

/-! Ends of words (R36, R52, R53). -/

/-- STATUS of a failing device status (R296). -/
def statusOf (d : BitVec 15) : BitVec 8 :=
  let sct := d.extractLsb' 8 3
  let sc := (d.extractLsb' 0 8).toNat
  if sct = 2 ∧ (sc = 0x80 ∨ sc = 0x81 ∨ sc = 0x87) then 0x31
  else if sct = 2 ∧ sc = 0x85 then 0x30
  else 0x32

/-- The exchange ends in the current word with `counted` of its bytes counted. -/
def failCur (s : State) (i : Nat) (wx : WordX) (counted : Nat) (st : BitVec 8) (d : Option (BitVec 15)) : State :=
  let s := updOwn s i (fun e =>
    { e with xfer := e.xfer + BitVec.ofNat 32 counted, lastw := BitVec.ofNat 12 wx.idx })
  dropWaiting (endX s i st (if wx.w.residual then wx.w.count.toNat - counted else 0) d) i

/-- STATUS and device status of failing part `k` (R53, R283, R296): a part whose timeout expired twice has none. -/
def partFault (wx : WordX) (k : Nat) (d : BitVec 15) : BitVec 8 × Option (BitVec 15) :=
  if wx.cto.contains k then (0x32, none) else (statusOf d, some d)

/-- The failing part that is first in address order. -/
def firstFail (wx : WordX) : Option (Nat × BitVec 15) :=
  wx.done.foldl (fun (b : Option (Nat × BitVec 15)) (d : Nat × Nat × BitVec 15) =>
    if d.2.2 = 0 then b else
      match b with
      | none => some (d.1, d.2.2)
      | some (k, _) => if d.1 < k then some (d.1, d.2.2) else b) none

/-- Byte `off` of the entry's staging range. -/
def stagedByte (s : State) (i off : Nat) : Byte :=
  let bay : Bay := Table.get {} s.bays (i * 4096 + off / 4096)
  Table.get 0 bay.data (off % 4096)

/-- The key equals the staged bytes at `off`. -/
def keyAt (s : State) (i : Nat) : Nat → List Byte → Bool
  | _, [] => true
  | off, k :: ks => decide (stagedByte s i off = k) && keyAt s i (off + 1) ks

/-- The first of `n` blocks from block `k` whose bytes at the key's offset match. -/
def findKey (s : State) (i lbs off : Nat) (key : List Byte) : Nat → Nat → Option Nat
  | 0, _ => none
  | n + 1, k => if keyAt s i (k * lbs + off) key then some k else findKey s i lbs off key n (k + 1)

/-- What the parts of a KEY_SEARCH read so far show, in address order (R28, R36): a part still to read, the first part
that failed, the first matching block, or a miss. -/
inductive Search where
  | more
  | fail (k : Nat) (d : BitVec 15)
  | hit (block : Nat)
  | miss
deriving DecidableEq, Repr

/-- Judge the parts of a KEY_SEARCH from part `k` on, `n` of them. -/
def searchFrom (s : State) (i : Nat) (wx : WordX) (k : Nat) : Nat → Search
  | 0 => .miss
  | n + 1 =>
    let b := berthOf s i
    match wx.done.find? (fun d => decide (d.1 = k)) with
    | none => .more
    | some (_, _, d) =>
      if d ≠ 0 then .fail k d
      else
        match findKey s i b.lbs wx.w.modf.toNat wx.key (partBytes s b wx k / b.lbs) (k * (chunkOf s b wx.w / b.lbs)) with
        | some m => .hit m
        | none => searchFrom s i wx (k + 1) n

/-- The KEY_SEARCH of entry `i` so far. -/
def searchOf (s : State) (i : Nat) (wx : WordX) : Search := searchFrom s i wx 0 (partsOf s (berthOf s i) wx)

/-- No device read of a KEY_SEARCH is outstanding (R28, R36, R52): a match, a miss or a failed part ends the word. -/
def endSearch (s : State) (i : Nat) (wx : WordX) : State :=
  match searchOf s i wx with
  | .more => s
  | .fail k d => failCur s i wx 0 (partFault wx k d).1 (partFault wx k d).2
  | .hit m =>
    let s := updOwn s i (fun e => { e with pos := e.pos + BitVec.ofNat 64 m })
    endWord (updXctx s i (fun x => { x with mark := true })) i wx.w wx.idx ((m + 1) * (berthOf s i).lbs) false (wx.addr + 16)
  | .miss =>
    endWord (updXctx s i (fun x => { x with mark := false })) i wx.w wx.idx wx.bytes false (wx.addr + 16)

/-- The current word's device work may have ended the word (R36, R52): every command has completed, and, for a
READ into host memory, the lighter has moved the bytes that count. -/
def tryEnd (s : State) (i : Nat) : State :=
  match (xctx s i).cur with
  | none => s
  | some wx =>
    let b := berthOf s i
    if wx.begun = false ∨ wx.outCmds ≠ 0 then s
    else if wx.w.op = 0x13 then endSearch s i wx
    else
      let delivered : Nat → Bool := fun n => decide (wx.w.op ≠ 1) || decide (wx.w.buf = 2) || decide (n ≤ wx.moved)
      match firstFail wx with
      | some (k, d) =>
        let n := if wx.w.transfer then Nat.min (k * chunkOf s b wx.w) wx.bytes else 0
        if delivered n then failCur s i wx n (partFault wx k d).1 (partFault wx k d).2 else s
      | none =>
        if partsOf s b wx ≤ wx.issued && delivered wx.bytes then
          endWord s i wx.w wx.idx (if wx.w.op = 6 then 0 else wx.bytes) wx.short (wx.addr + 16)
        else s

/-! Answers of a serving block (R222, R293, R294). -/

/-- The 16 bytes of a completion entry that carry a status; its other fields are 0 here (log 29). -/
def cqeBytes (st : BitVec 15) : List Byte := qBytes 0 ++ qBytes (st ++ (0 : BitVec 49))

/-- An RCPL to a requester, unless it is fenced here (R201, R221): with RSTAT not 0 its entries are not valid and 0. -/
def sendRcpl (s : State) (v : Serve) (rstat : BitVec 3) (sts : List (BitVec 15)) : State :=
  if s.dock.fencedBy.contains (pathOf s v.path).peer && decide (rstat ≠ 2) then s
  else
    let q : W64 := v.rqid ++ rstat ++ (0 : BitVec 29)
    let l := if sts.isEmpty then List.replicate (if v.fused then 2 else 1) 0 else sts
    laneSend s v.path v.lane.toNat 8 (qBytes q ++ l.foldr (fun t l => cqeBytes t ++ l) [])

/-- The serving of entry `i` ends with an answer. -/
def endServe (s : State) (i : Nat) (rstat : BitVec 3) (sts : List (BitVec 15)) : State :=
  match Table.get none s.serves i with
  | none => s
  | some v => sendRcpl { s with serves := Table.put none s.serves i none } v rstat sts

/-- Internal Path Error, which a serving block builds itself (R293). -/
def pathError : BitVec 15 := 0x300

/-- The served command cannot be carried on slot 0 (R293): DONE with an entry of its own making. -/
def failServe (s : State) (i : Nat) : State :=
  match Table.get none s.serves i with
  | none => s
  | some v => endServe s i 0 (if v.fused then [pathError, pathError] else [pathError])

/-- A served command's device commands have all completed (R293, R294): ABORTED for an aborted one; a read that
succeeded answers after its data; any other answers now. -/
def serveDone (s : State) (i : Nat) : State :=
  match Table.get none s.serves i with
  | none => s
  | some v =>
    let rd := decide (((v.sqe.headD 0).extractLsb' 0 8) = 2)
    let ok := v.sts.all (fun x => decide (x.2 = 0))
    if v.sts.length < (if v.fused then 2 else 1) then s
    else if v.aborted then endServe s i 4 []
    else if rd && ok then { s with serves := Table.put none s.serves i (some { v with done := true }) }
    else endServe s i 0 ((v.sts.filter (fun x => decide (x.1 = 0)) ++ v.sts.filter (fun x => decide (x.1 ≠ 0))).map (·.2))

/-! Losses (R290, R291, R300). -/

/-- A device command loses its slot, or fails on its path alone (R290, R291, R293, R300). -/
def loseCmd (s : State) (key : Nat) (c : DCmd) (excl : Option Nat) (lost : W64) : State :=
  if !liveCmd s c then setDcmd (cmdOff s key c) key none
  else
    match c.kind with
    | .served => failServe (setDcmd (cmdOff s key c) key none) c.idx
    | .flog => cmdWait s key c .slot none lost
    | .part _ =>
      if isMutCmd s c then cmdWait (pathChange s c.idx lost) key c .settle excl lost
      else cmdWait (pathChange (lfree s c.idx) c.idx lost) key c .slot excl lost

/-- Slot `k` of berth `b` has gone DOWN or FAILED (R290). -/
def slotLoss (s : State) (b k : Nat) (lost : W64) : State :=
  (s.dcmds.filterMap (fun e => match e.2 with
    | some c =>
      if decide ((own s c.idx).berth.toNat = b) && decide (c.slot = k) &&
          (decide (c.wait = .device) || decide (c.wait = .retry) || decide (c.wait = .noent)) then some (e.1, c) else none
    | none => none)).foldl (fun s e => loseCmd s e.1 e.2 none lost) s

/-- The tick of the last good probe or heartbeat of a slot (R290). -/
def lastGoodOf (s : State) (b : Berth) (k : Nat) : W64 :=
  if k = 0 then (ctlOf s (b.slot 0).tgt.toNat).lastGood else (pathOf s (b.slot k).tgt.toNat).lastHb

/-- Slots that were UP before and are not now, each with its berth. -/
def lostSlots (old new : State) : List (Nat × Nat) :=
  new.berths.foldl (fun l e =>
    l ++ ((List.range 4).filter (fun k => slotUp old (berth old e.1) k && !slotUp new e.2 k)).map (fun k => (e.1, k))) []

/-- LOSSES counts the times that a valid slot went DOWN (R285). -/
def countDowns (old new : State) : State :=
  { new with berths := Table.mapVals {} (fun n b =>
      { b with slots := Table.mapVals {} (fun k v =>
          if v.v && ((berth old n).slot k).v && decide (slotState old (berth old n) k ≠ 0) && decide (slotState new b k = 0) then
            { v with losses := satInc v.losses }
          else v) b.slots }) new.berths }

/-- The states that source PATH follows: Placia paths, controllers' slot-0 states and berths' path slots (R449). -/
def pathStates (s : State) : List (Nat × BitVec 2) :=
  s.paths.map (fun e => (e.1, e.2.state)) ++ s.ctls.map (fun e => (e.1, e.2.pst)) ++
    s.berths.foldl (fun l e => l ++ (List.range 4).map (fun k => (e.1, slotState s e.2 k))) []

/-- After an event that may have changed slots: LOSSES, the lost commands, then STATE of every berth (R286, R290), and source PATH
(R449). -/
def reslot (old new : State) : State :=
  let s := settleBerths ((lostSlots old new).foldl (fun s x => slotLoss s x.1 x.2 (lastGoodOf s (berth s x.1) x.2)) (countDowns old new))
  if pathStates old = pathStates new then s else raise s 5

/-! Settling a fenced mutating command (R183 to R185, R291, R301). -/

/-- What a fence-log resolution finds. -/
inductive Settled where
  | executed
  | redrive
  | unknown
deriving DecidableEq, Repr

/-- The record matches the exchange (R301). -/
def recMatches (s : State) (i : Nat) (p : PreX) (r : FenceRec) : Bool :=
  let e := own s i
  let writer := if e.redriven then s.tw.lost.getD s.hbr.tnum else s.hbr.num
  r.crcOk && decide (r.fseq = e.fseq) && decide (r.handle.extractLsb' 48 16 = writer) &&
    decide (r.opcode = p.mutW.op) && decide (r.slba = p.mutPos) &&
    decide (r.nlb.toNat + 1 = p.mutW.count.toNat / (berthOf s i).lbs)

/-- The table of R183. -/
def settleTable (s : State) (i : Nat) (p : PreX) (record : Option FenceRec) (range : Option W64) : Settled :=
  match record, range with
  | some r, some c =>
    if !recMatches s i p r then .unknown
    else if r.wpres && decide (c = r.wimg) then .executed
    else if p.mutW.op = 5 then .redrive
    else .unknown
  | _, _ => .unknown

/-- Re-drive from word 0 with no FSEQ (R183, R301). -/
def redriveX (s : State) (i : Nat) : State :=
  let e := own s i
  let x := xctx s i
  let s := setOwn s i { e with curw := e.prog, pos := BitVec.allOnes 64, xfer := 0, lastw := 0, fseq := 0, fs := false,
                               residHeld := 0 }
  let y : Xc := Xc.fresh e.prog
  let s := setXctx s i
    { y with seq := x.seq, tkoWait := x.tkoWait, cancel := x.cancel, waitT := x.waitT, placed := x.placed }
  let s := fetchWord s i
  { s with hbr := { s.hbr with fredrv := satInc s.hbr.fredrv } }

/-- Apply the outcome of a resolution carried by slot `k` (R49, R183, R184, R185). -/
def settleX (s : State) (i : Nat) (p : PreX) (k : Nat) (o : Settled) : State :=
  let s := dropWaiting (updOwn s i (fun e => { e with path := BitVec.ofNat 2 k })) i
  let idx := p.mutAt.getD 0
  match o with
  | .redrive => redriveX s i
  | .unknown =>
    let s := { s with hbr := { s.hbr with fundet := satInc s.hbr.fundet } }
    endX (addTakeoverWait (updOwn s i (fun e => { e with xfer := 0, lastw := BitVec.ofNat 12 idx })) i) i 0x35
      p.mutW.count.toNat none
  | .executed =>
    let b := berthOf s i
    let room := if p.mutPos.toNat ≤ b.nsze.toNat then (b.nsze.toNat - p.mutPos.toNat) * b.lbs else 0
    let n := if p.mutW.clip then Nat.min p.mutW.count.toNat room else p.mutW.count.toNat
    let s := { s with hbr := { s.hbr with fexec := satInc s.hbr.fexec } }
    let s := updXctx s i (fun x =>
      { x with cur := none, preMut := none, preOk := true, total := p.mutTotal, active := true, resolve := false })
    let s := addTakeoverWait (updOwn s i (fun e => { e with pos := p.mutPos })) i
    endWord s i p.mutW idx n (decide (n < p.mutW.count.toNat)) (p.mutAddr + 16)

/-- The lowest-numbered UP slot (R290). -/
def lowestUp (s : State) (b : Berth) : Option Nat := (List.range 4).find? (fun k => slotUp s b k)

/-! Doorbells and admin commands (R271, R274, R280). -/

/-- A doorbell write of queue `y` of a controller, `k` = 0 for the SQ tail and 1 for the CQ head (R280). -/
def doorbell (s : State) (c y k v : Nat) : State :=
  let x := ctlOf s c
  emit s (.dockWrite x.dport.toNat
    ((x.bar ++ (0 : BitVec 12)) + BitVec.ofNat 64 (0x1000 + (2 * y + k) * (4 * 2 ^ x.dstrd.toNat))) (BitVec.ofNat 64 v))

/-- An admin command in the controller's admin SQ, its doorbell and, where it completes, that of the CQ (R274, R280). -/
def adminCmd (s : State) (c : Nat) (op : BitVec 8) (cdw10 cdw11 nsid : W32) (prp : Option W64) (data : List Byte)
    (done : Bool) : State :=
  let x := ctlOf s c
  let s := emit (setCtl s c { x with atail := x.atail + 1 }) (.admin c op cdw10 cdw11 nsid prp data)
  let s := doorbell s c 0 0 (x.atail + 1).toNat
  if done then doorbell s c 0 1 (x.atail + 1).toNat else s

/-- A new entry of queue `q`: the SQ tail moves on, and the doorbell is written unless its fused partner follows (R281). -/
def ringSq (s : State) (q : Nat) (bell : Bool) : State :=
  let x := dqOf s q
  let t := (x.sqtail.toNat + 1) % 2 ^ x.sqlog.toNat
  let s := setDq s q { x with sqtail := BitVec.ofNat 16 t }
  if bell then doorbell s x.ctl.toNat x.qid.toNat 0 t else s

/-- Queue `q` has room for one more command (R281). -/
def Dq.room (q : Dq) : Bool := decide (q.outst.toNat + 1 < 2 ^ q.sqlog.toNat)

/-- No command of its queue has the CID of `key` (R281). -/
def keyFree (s : State) (key : Nat) : Bool := (dcmdOf s key).isNone && (Table.get none s.resvs key).isNone

/-! Completions (R283, R296, R297). -/

/-- The device status asks for a retry (R296, R297). -/
def retryable (d : BitVec 15) : Bool :=
  let sc := (d.extractLsb' 0 8).toNat
  decide (d.extractLsb' 8 3 = 0) && (decide (sc = 4) || decide (sc = 6) || decide (sc = 0x82)) && !d.getLsbD 14

/-- An aborted command (R283, R296). -/
def aborted (d : BitVec 15) : Bool :=
  let sc := (d.extractLsb' 0 8).toNat
  decide (d.extractLsb' 8 3 = 0) && (decide (sc = 7) || decide (sc = 8))

/-- Reservation Conflict (R296). -/
def resvConflict (d : BitVec 15) : Bool := decide (d.extractLsb' 0 11 = 0x083)

/-- A part of the current word, no longer outstanding, has ended with status `d` on slot `c.slot`. -/
def partEnd (s : State) (key : Nat) (c : DCmd) (k : Nat) (d : BitVec 15) : State :=
  let i := c.idx
  let s := setDcmd s key none
  match (xctx s i).cur with
  | none => s
  | some wx =>
    let n := partBytes s (berthOf s i) wx k
    let wx := { wx with done := wx.done ++ [(k, n, d)], outCmds := wx.outCmds - 1 }
    let s := updOwn (updXctx s i (fun x => { x with cur := some wx })) i (fun e => { e with path := BitVec.ofNat 2 c.slot })
    tryEnd s i

/-- A part of the current word has ended with status `d`. -/
def partDone (s : State) (key : Nat) (c : DCmd) (k : Nat) (d : BitVec 15) : State := partEnd (cmdOff s key c) key c k d

/-- Aborted due to Failed Fused Command (R296). -/
def fusedAbort : BitVec 15 := 0x009

/-- The write half of a fused pair follows its compare half (R281, R296): it ends once the compare half has ended, and
waits for what the compare half waits for. -/
def fusedFollow (s : State) (i : Nat) : State :=
  match (cmdsOf s i (fun c => decide (c.wait = .partner))).head?, (xctx s i).cur with
  | some (key, c), some wx =>
    if wx.done.any (fun d => decide (d.1 = 0)) then partEnd s key c 1 fusedAbort
    else
      (match (cmdsOf s i (fun c => decide (c.kind = .part 0))).head? with
       | some (_, f) => if f.wait = .device then s else setDcmd s key (some { c with wait := f.wait, excl := f.excl })
       | none => s)
  | _, _ => s

/-- The fence-log record write has ended with status `d` (R300): a failure ends the mutating word with DEVICE_ERROR. -/
def flogDone (s : State) (key : Nat) (c : DCmd) (d : BitVec 15) : State :=
  let i := c.idx
  let s := updOwn (setDcmd (cmdOff s key c) key none) i (fun e => { e with path := 0 })
  if d = 0 then updXctx s i (fun x => { x with cur := x.cur.map (fun w => { w with flogged := true }) })
  else
    match (xctx s i).cur with
    | none => s
    | some wx => failCur s i wx 0 0x32 (some d)

/-- A served command's device command has ended with status `d`. -/
def servedDone (s : State) (key : Nat) (c : DCmd) (k : Nat) (d : BitVec 15) : State :=
  let s := setDcmd (cmdOff s key c) key none
  match Table.get none s.serves c.idx with
  | none => s
  | some v => serveDone { s with serves := Table.put none s.serves c.idx (some { v with sts := v.sts ++ [(k, d)] }) } c.idx

/-- The final status of a command, by what the command is; a served command keeps its half in `noent`. -/
def cmdDone (s : State) (key : Nat) (c : DCmd) (d : BitVec 15) : State :=
  match c.kind with
  | .part k => partDone s key c k d
  | .flog => flogDone s key c d
  | .served => servedDone s key c c.noent d

/-- What the final or passing status of a command does (R283, R296, R297). -/
def cmdStatus (s : State) (key : Nat) (c : DCmd) (d : BitVec 15) : State :=
  let i := c.idx
  let served := decide (c.kind = .served)
  if !liveCmd s c then setDcmd (cmdOff s key c) key none
  else if d = 0 ∨ served = true then
    (if served && resvConflict d && (fenceSet s).contains (berthOf s i).nguid then cmdDone (quarantine s 3) key c d
     else cmdDone s key c d)
  else if decide (d.extractLsb' 0 11 = fusedAbort.extractLsb' 0 11) && decide (c.kind = .part 1) &&
      (match (xctx s i).cur with
       | some wx => decide (wx.w.op = 5) && !wx.done.any (fun x => decide (x.1 = 0))
       | none => false) then cmdWait s key c .partner none s.tide.count
  else if d.extractLsb' 8 3 = 3 then loseCmd s key c (some c.slot) s.tide.count
  else if retryable d && decide (c.tries < 2) && !isMutCmd s c then
    cmdWait s key { c with tries := c.tries + 1 } .retry none s.tide.count
  else if aborted d then
    if isMutCmd s c then cmdWait s key c .settle none s.tide.count
    else cmdWait (lfree s i) key c .slot none s.tide.count
  else if resvConflict d && (fenceSet s).contains (berthOf s i).nguid then quarantine s 3
  else cmdDone s key c d

/-- A device completion of command `key` with status `d`. -/
def cmdComplete (s : State) (key : Nat) (c : DCmd) (d : BitVec 15) : State := fusedFollow (cmdStatus s key c d) c.idx

/-! Issue of device commands (R123, R281, R290). -/

/-- The command that an announcement of entry `i` issues again, if one waits for a slot. -/
def waitingCmd (s : State) (i : Nat) : Option (Nat × DCmd) :=
  let l := cmdsOf s i (fun c => decide (c.wait = .slot))
  (l.find? (fun e => decide (e.2.kind = .part 0))).or l.head?

/-- Device commands that a served entry has issued. -/
def servedIssued (s : State) (i : Nat) (v : Serve) : Nat :=
  v.sts.length + (cmdsOf s i (fun c => decide (c.kind = .served))).length

/-- The served command has what it needs to be issued (R293): the last byte of its write data. -/
def servedReady (s : State) (i : Nat) (v : Serve) : Bool :=
  let op := (v.sqe.headD 0).extractLsb' 0 8
  !v.aborted && !v.done && decide (servedIssued s i v < (if v.fused then 2 else 1)) &&
    (v.last || !(decide (op = 1) || decide (op = 5)))

/-- What the next new command of entry `i` is: the fence-log record of a fenced mutating word in BOUND, or its next
part. -/
def nextKind (s : State) (i : Nat) : Option CmdKind :=
  let e := own s i
  if e.srv then
    (match Table.get none s.serves i with
     | some v => if servedReady s i v then some .served else none
     | none => none)
  else
    match (xctx s i).cur with
    | none => none
    | some wx =>
      if !wx.begun || (decide (wx.w.op = 0x13) && wx.key.isEmpty) then none
      else if e.fenced && wx.w.mutating && decide (e.st = 2) then
        (if wx.flogged || !(cmdsOf s i (fun c => decide (c.kind = .flog))).isEmpty then none else some .flog)
      else if decide (e.st ≠ 3) && !(decide (e.st = 2)) then none
      else if (firstFail wx).isSome || decide (partsOf s (berthOf s i) wx ≤ wx.issued) then none
      else if e.fenced && wx.w.mutating && (e.ackp || !wx.flogged) then none
      else if wx.w.op = 0x13 && decide (searchOf s i wx ≠ .more) then none
      else some (.part wx.issued)

/-- The staging address of byte `off` of entry `i` as a DBA (R233, R277). -/
def stagePage (md : Bool) (i off : Nat) : W64 :=
  (1 : BitVec 20) ++ bit1 md ++ BitVec.ofNat 19 i ++ BitVec.ofNat 24 off

/-- PRP1 and PRP2 of `n` bytes from byte `off` of entry `i` (R278). -/
def prpsOf (i off n : Nat) : W64 × W64 :=
  (stagePage false i off,
    if n ≤ 4096 then 0 else if n ≤ 8192 then stagePage false i (off + 4096)
    else (2 : BitVec 20) ++ (0 : BitVec 1) ++ BitVec.ofNat 19 i ++ BitVec.ofNat 12 (off / 4096) ++ (0 : BitVec 12))

/-- MPTR of data from byte `off` of entry `i` (R278). -/
def mptrOf (b : Berth) (i off : Nat) : Option W64 :=
  if b.ce then some (stagePage true i (off / b.lbs * 32)) else none

/-- MPTR in the zero region (R277, R278, R300). -/
def mptrZero (b : Berth) : Option W64 := if b.ce then some ((3 : BitVec 20) ++ (0 : BitVec 44)) else none

/-- The device command that covers part `k` of the word (R22, R271, R278, R284); the write half of a fused pair has its
data at the page after the compare data. -/
def partCmd (s : State) (i : Nat) (b : Berth) (wx : WordX) (k : Nat) : DevCmd :=
  let w := wx.w
  let n := partBytes s b wx k
  let off := if w.op = 5 then k * ((n + 4095) / 4096 * 4096) else k * chunkOf s b w
  let lba : W64 := (own s i).pos + BitVec.ofNat 64 (if w.op = 5 then 0 else k * chunkOf s b w / b.lbs)
  let c : DevCmd := { opcode := nvmeOp w k, nsid := b.nsid }
  if w.op = 6 then c
  else if w.op = 7 then
    { c with cdw11 := 4, range := some (0, BitVec.ofNat 32 (n / b.lbs), lba) }
  else
    let c := { c with cdw10 := lba.extractLsb' 0 32, cdw11 := lba.extractLsb' 32 32,
                      fuse := if w.op = 5 then (if k = 0 then 1 else 2) else 0,
                      cdw12 := (0 : BitVec 6) ++ bit1 (decide (w.op = 4) && w.modf.getLsbD 0) ++ (0 : BitVec 9) ++
                        BitVec.ofNat 16 (n / b.lbs - 1) }
    if w.op = 4 then c else { c with prp := some (prpsOf i off n), mptr := mptrOf b i off }

/-- A fence-log command: a Write with FUA, or a Read, of the record's block (R298, R300). -/
def flogCmd (b : Berth) (op : BitVec 8) (lba : W64) (prp : Option (W64 × W64)) : DevCmd :=
  { opcode := op, nsid := b.nsid, cdw10 := lba.extractLsb' 0 32, cdw11 := lba.extractLsb' 32 32,
    cdw12 := (0 : BitVec 1) ++ bit1 (decide (op = 1)) ++ (0 : BitVec 30), prp := prp, mptr := mptrZero b }

/-- Half `k` of a served command: the requester's submission entry with PRPs and MPTR of this block (R293). -/
def servedCmd (i : Nat) (b : Berth) (sqe : List W64) (k : Nat) : DevCmd :=
  let w : Nat → W64 := fun j => sqe.getD (8 * k + j) 0
  let op := (w 0).extractLsb' 0 8
  let n := ((w 6).extractLsb' 0 16).toNat * b.lbs + b.lbs
  let off := k * ((n + 4095) / 4096 * 4096)
  let moves := decide (op = 1) || decide (op = 2) || decide (op = 5)
  let dsm := decide (op = 9)
  { opcode := op, fuse := (w 0).extractLsb' 8 2, nsid := b.nsid, cdw10 := (w 5).extractLsb' 0 32,
    cdw11 := (w 5).extractLsb' 32 32, cdw12 := (w 6).extractLsb' 0 32,
    prp := if moves then some (prpsOf i off n) else if dsm then some (prpsOf i 0 16) else none,
    mptr := if moves then mptrOf b i off else none }

/-- The command goes out: counters, the word's count of commands, and what the device sees. -/
def putCmd (s : State) (key : Nat) (c : DCmd) : State :=
  let i := c.idx
  let b := berthOf s i
  let s := queueOut (slotOut s (own s i).berth.toNat c.slot true) key true
  let s := addTakeoverWait (setDcmd s key (some c)) i
  match c.frame with
  | some (p, lane, body) => laneSend s p lane.toNat 6 body
  | none =>
  match c.kind, (xctx s i).cur with
  | .part k, some wx =>
    if c.slot ≠ 0 then s else emit s (.device (own s i).berth.toNat c.slot false (some key) (partCmd s i b wx k))
  | .flog, _ =>
    emit s (.device (own s i).berth.toNat 0 true (some key)
      (flogCmd b 1 (b.flown + BitVec.ofNat 64 ((own s i).fseq.toNat % Nat.max b.flbn.toNat 1)) none))
  | .served, _ =>
    (match Table.get none s.serves i with
     | some v => emit s (.device (own s i).berth.toNat 0 false (some key) (servedCmd i b v.sqe c.noent))
     | none => s)
  | .part _, none => s

/-- Count a new part as issued. -/
def countPart (s : State) (i : Nat) (k : CmdKind) : State :=
  match k with
  | .part _ => updXctx s i (fun x =>
      { x with cur := x.cur.map (fun w => { w with issued := w.issued + 1, outCmds := w.outCmds + 1 }) })
  | _ => s

/-- The entry whose fused pair stands half issued on queue `q`: the queue takes nothing but the second half (R281). -/
def halfOf (s : State) (q : Nat) : Option Nat :=
  (s.dcmds.find? (fun e => match e.2 with
    | none => false
    | some c => decide (e.1 / 65536 = q) && decide (c.wait = .device) && liveCmd s c && (match c.kind with
        | .part k => decide (k = 0) && (match (xctx s c.idx).cur with
            | some wx => decide (wx.w.op = 5) && !wx.done.any (fun d => decide (d.1 = 1)) &&
                (cmdsOf s c.idx (fun f => decide (f.kind = .part 1) && decide (f.wait = .device))).isEmpty
            | none => false)
        | .served => decide (c.noent = 0) && (match Table.get none s.serves c.idx with
            | some v => v.fused && decide (servedIssued s c.idx v < 2)
            | none => false)
        | .flog => false))).bind (fun e => e.2.map (·.idx))

/-- Entry `i` may put its next command on queue `q` (R281): the halves of one fused pair go to one queue in turn. -/
def queueTakes (s : State) (q i : Nat) : Bool :=
  match halfOf s q with
  | some j => decide (j = i)
  | none => !(s.dqs.any (fun e => decide (e.1 ≠ q) && decide (halfOf s e.1 = some i)))

/-- Entry `i` issues a command under `key` on slot `slot`: a waiting command first (R290, R54), else a new one. -/
def issueCmd (s : State) (i slot key : Nat) (frame : Option (Nat × BitVec 3 × List Byte)) (sealedQ : Bool) : State :=
  let ok : CmdKind → Bool := fun k =>
    slotUp s (berthOf s i) slot && (if k = .flog then sealedQ && decide (slot = 0) else !sealedQ) &&
      keyFree s key
  match waitingCmd s i with
  | some (k0, c) =>
    if ok c.kind && decide (c.excl ≠ some slot) then
      let s := pathChanged (setDcmd s k0 none) i c.slot slot
      putCmd s key { c with wait := .device, slot := slot, frame := frame, tries := 0, noent := 0, abortSent := false }
    else s
  | none =>
    match nextKind s i with
    | none => s
    | some k =>
      let half := match Table.get none s.serves i with
        | some v => servedIssued s i v
        | none => 0
      let c : DCmd := { idx := i, slot := slot, kind := k, tries := 0, noent := half, expired := false, wait := .device,
                        excl := none, gen := (own s i).gen, lost := s.tide.count, abortSent := false, frame := frame }
      if ok k then putCmd (countPart s i k) key c
      else if k ≠ .served ∧ anyUp s (berthOf s i) none = false then
        setDcmd (countPart s i k) key (some { c with wait := .slot })
      else s

/-- An announcement of CID and DQ by MPUT (log 30): the entry's next command enters queue `dq`. -/
def noteCmd (s : State) (i : Nat) (cid dq : BitVec 16) : State :=
  let q := dqOf s dq.toNat
  if decide (dq.toNat < s.blk.build.queues) && q.en && q.room && !frozen s && queueTakes s dq.toNat i &&
      decide (q.ctl = ((berthOf s i).slot 0).tgt) then
    let key := dq.toNat * 65536 + cid.toNat
    let s' := issueCmd s i 0 key none q.sealedQ
    if (dcmdOf s' key).isSome && (dcmdOf s key).isNone then ringSq s' dq.toNat (halfOf s' dq.toNat).isNone else s'
  else s

end Sys2Proof.Machine
end

