-- ==== Sys2Proof/Machine/TwinCore.lean ====
section
/-! DEFINITION. Machine/TwinCore.lean: what ends the mirror link (R124, R187, R188), the declaration of loss (R162,
R166), fencing by reservation (R169 to R173) and the start of adoption (R178). -/

namespace Sys2Proof.Machine

/-- Records of unacknowledged declines. -/
def unackedDeclines (s : State) : List W32 := ((s.tw.mq ++ s.tw.maw).filter (fun u => decide (u.rtype = 1))).map (·.rseq)

/-- A ring once the block runs without a twin: every disposed entry counts as acknowledged, every slot is free of a
POSTED acknowledgement, and unacknowledged declines are UNPROTECTED (R57, R124). -/
def Ring.alone (r : Ring) (un : List W32) : Ring :=
  let d : List Disp := r.disp.map (fun d => { d with acked := true })
  let q : List QDecl := r.decls.map (fun d => if un.contains d.rseq then { d with unprot := true } else d)
  let r := { r with disp := d, postWait := [], decls := q }
  advance r.disp.length r

/-- The block starts running without a twin (R124): ACKP is cleared and UNPROT set. -/
def endRecords (s : State) : State :=
  let un := unackedDeclines s
  let f : Nat → Own → Own := fun _ e => if e.ackp then { e with ackp := false, unprot := true } else e
  let s := { s with own := Table.mapVals {} f s.own, rings := Table.mapVals {} (fun _ r => r.alone un) s.rings }
  updTw s (fun t => { t with mq := [], maw := [], fillTo := none, primPath := none })

/-- Write what the rings may write now. -/
def drainAll (s : State) : State := s.rings.foldl (fun s e => drainRing s e.1) s

/-- Paths to the twin that are PROVEN become DORMANT when STATE enters DROWSED (R206). -/
def twinPathsTo (s : State) (a b : BitVec 2) : State :=
  { s with paths := Table.mapVals {} (fun _ x => if x.peer = s.hbr.tnum ∧ x.state = a then { x with state := b, missed := 0 } else x) s.paths }

/-- The reservation key of block `n` of the harbour (R169). -/
def resvKey (s : State) (n : BitVec 16) : W64 := s.hbr.hid ++ (0 : BitVec 16) ++ n

/-- The controller and NSID of the local path to a namespace. -/
def localOf (s : State) (g : BitVec 128) : Option (Nat × BitVec 32) :=
  (s.berths.find? (fun e => (e.2.slot 0).v && decide (e.2.nguid = g))).map (fun e => ((e.2.slot 0).tgt.toNat, e.2.nsid))

/-! Reservation commands (R165, R171, R271, R281). -/

/-- Opcode, CDW10, CDW11 and the keys of a reservation command (R171, R271). -/
def resvForm (s : State) : ResvStep → BitVec 8 × W32 × W32 × List W64
  | .register _ => (0x0D, 0, 0, [0, resvKey s s.hbr.num])
  | .report _ => (0x0E, 0x3FF, 1, [])
  | .acquire => (0x11, 0x400, 0, [resvKey s s.hbr.num, 0])
  | .fence => (0x11, 0x402, 0, [resvKey s s.hbr.num, resvKey s (s.tw.lost.getD 0)])
  | .release => (0x15, 0x400, 0, [resvKey s s.hbr.num])
  | .unregister => (0x0D, 1, 0, [resvKey s s.hbr.num, 0])

/-- The sealed queue of a READY controller, with room, and its lowest free CID (R281, log 70). -/
def sealedKey (s : State) (c : Nat) : Option Nat :=
  match s.dqs.find? (fun e => e.2.en && e.2.sealedQ && decide (e.2.ctl.toNat = c) && e.2.room) with
  | some (q, x) =>
    if (ctlOf s c).state = 2 then
      ((List.range (2 ^ x.sqlog.toNat)).find? (fun cid => keyFree s (q * 65536 + cid))).map (fun cid => q * 65536 + cid)
    else none
  | none => none

/-- One reservation command goes to its sealed queue, or stays waiting for it. -/
def putResv (s : State) (r : Resv) : State :=
  let wait : State := updTw s (fun t => { t with resvq := t.resvq ++ [r] })
  match localOf s r.nguid with
  | none => wait
  | some (c, ns) =>
    match sealedKey s c with
    | none => wait
    | some key =>
      let f := resvForm s r.step
      let s := queueOut { s with resvs := Table.put none s.resvs key (some r) } key true
      ringSq (emit s (.resv c key f.1 f.2.1 f.2.2.1 ns (qsBytes f.2.2.2))) (key / 65536) true

/-- Waiting reservation commands go out, oldest first; a frozen block issues none (R173, R187). -/
def issueResv (s : State) : State :=
  if frozen s then s
  else s.tw.resvq.foldl putResv (updTw s (fun t => { t with resvq := [] }))

/-- A reservation command of R171 on the local dock path. -/
def resvCmd (s : State) (g : BitVec 128) (st : ResvStep) : State :=
  issueResv (updTw s (fun t => { t with resvq := t.resvq ++ [⟨st, g, 0⟩] }))

/-- The twin is declared lost (R124, R151, R162, R166): a block drowsing at D1 wakes first. -/
def declareLost (s : State) : State :=
  let n := s.hbr.tnum
  let s := endRecords s
  let s := { s with hbr := { s.hbr with tkot := now32 s, outcome := 0, gleaned := 0, poolw := false } }
  let s := hmLog s 0x202 (n.setWidth 64) (s.hbr.tkot.setWidth 64)
  let f : List FenceNs := (fenceSet s).map (fun g => ⟨g, 0⟩)
  let s := updTw s (fun t => { t with lost := some n, lostAt := t.last, hold := [], rest := [], shadowQ := [], fset := f, fencing := false,
                                      glean := none, gleanDone := false, wakeSent := false, unpairing := false })
  let s := if s.blk.mode = 3 then setMode s 5 0 else s
  let s := setTstate s 4
  if s.blk.mode = 4 then startWake s 7 else s

/-- Adoption of twin ring `r` starts (R178 steps 1 and 2). -/
def startAdopt (s : State) (r : Nat) : State :=
  let n := (halfRings s) + r
  let sh := shadow s r
  if (ring s n).en then s
  else
    let s := updRing s n (fun x => { x with
      cons := sh.cons, tail := sh.cons, next := sh.cons, stamps := [], disp := [], slots := [], postWait := [] })
    let s := updTw s (fun t => { t with adopt := Table.put {} t.adopt r { reading := true } })
    let x := ring s n
    let slot : BitVec 16 := match sh.posted with
      | some k => x.cnext k
      | none => 0
    emit s (.hostRead x.lport.toNat 0 x.pas ((x.cqb ++ (0 : BitVec 6)) + BitVec.ofNat 64 (32 * slot.toNat)) 32)

/-- The twin rings that R178 adopts: enabled ones, and ones that hold placed entries or ledger declines. -/
def adoptList (s : State) : List Nat :=
  let a := (s.tw.shadow.filter (fun e => e.2.en)).map (·.1)
  let b := (s.own.filter (fun e => decide (e.2.st ≠ 0) && e.2.redriven && e.2.tr)).map (fun e => e.2.ring.toNat)
  let c := s.tw.ledger.map (fun l => l.ring.toNat)
  ((a ++ b ++ c).filter (fun r => decide (r < (halfRings s)))).eraseDups

/-- Adoption starts once every namespace is fenced and the Gleaner has finished (R178, log 32). -/
def startAdoptions (s : State) : State :=
  if s.hbr.tstate = 5 ∧ s.tw.gleanDone = true ∧ s.hbr.role = 0 then
    (adoptList s).foldl (fun s r =>
      let a := Table.get {} s.tw.adopt r
      if a.reading || a.failed then s else startAdopt s r) s
  else s

/-- Every namespace of the fence set is settled (R166): GLEANING, the held writes, adoption. -/
def allFenced (s : State) : State :=
  if s.hbr.tstate = 4 ∧ s.tw.fencing = true ∧ s.tw.fset.all (fun f => decide (3 ≤ f.st)) = true then
    let s := setTstate { s with hbr := { s.hbr with outcome := 1 } } 5
    takeoverEnd (startAdoptions (drainAll s))
  else s

/-- Mark one namespace of the fence set. -/
def setFence (s : State) (g : BitVec 128) (st : Nat) : State :=
  updTw s (fun t => { t with fset := t.fset.map (fun f => if f.nguid = g then { f with st := st } else f) })

/-- The Preempt and Abort of a namespace (R171). -/
def preempt (s : State) (g : BitVec 128) : State :=
  resvCmd s g .fence

/-- A namespace loses its fence (R172): its berths go to NO_PATH and stay there, and its gleaned exchanges end with
NO_PATH. -/
def loseFence (s : State) (g : BitVec 128) : State :=
  let f : Nat → Berth → Berth := fun _ b =>
    if b.nguid = g ∧ (b.state = 1 ∨ b.state = 3) then { b with state := 3, fenceLost := true } else b
  let s := { s with berths := Table.mapVals {} f s.berths }
  (s.own.filter (fun e => decide (1 ≤ e.2.st.toNat) && decide (e.2.st.toNat ≤ 3) && e.2.redriven && e.2.tr &&
    decide ((berthOf s e.1).nguid = g))).foldl (fun s e => dropWaiting (endX s e.1 0x33 0 none) e.1) s

/-- The race is lost (R173). -/
def loseRace (s : State) : State :=
  let won := s.tw.fset.any (fun f => decide (f.st = 3))
  let n := s.hbr.tnum
  let s := { (updTw s (fun t => { t with raceLost := true })) with hbr := { s.hbr with outcome := 2 } }
  let s := quarantine s 4
  if won then hmLog s 0x203 (n.setWidth 64) 0 else s

/-- This block holds the reservation of a namespace, or does not. -/
def setHeld (s : State) (g : BitVec 128) (h : Bool) : State :=
  updTw s (fun t => { t with held := (t.held.filter (fun x => decide (x ≠ g))) ++ (if h then [g] else []) })

/-- A fencing Preempt and Abort has ended (R172, R173). -/
def fenceDone (s : State) (nguid : BitVec 128) (status : BitVec 15) : State :=
  match s.tw.fset.find? (fun f => decide (f.nguid = nguid)) with
  | none => s
  | some f =>
    let s := if status = 0 ∧ (f.st = 1 ∨ f.st = 2) then setHeld s nguid true else s
    if f.st ≠ 1 ∧ f.st ≠ 2 then s
    else if s.tw.raceLost then
      (if status = 0 then hmLog (setFence s nguid 3) 0x203 ((s.tw.lost.getD 0).setWidth 64) 0 else s)
    else if s.hbr.tstate ≠ 4 then s
    else if status = 0 then allFenced (setFence s nguid 3)
    else if resvConflict status then loseRace (setFence s nguid 4)
    else if f.st = 1 then preempt (setFence s nguid 2) nguid
    else allFenced (loseFence (setFence s nguid 4) nguid)

/-- A completion on queue `q` moves its CQ head, whose doorbell is written, and at the wrap its phase tag (R280, R302). -/
def stepCq (s : State) (q : Nat) : State :=
  let x := dqOf s q
  let h := (x.cqhead.toNat + 1) % 2 ^ x.cqlog.toNat
  doorbell (setDq s q { x with cqhead := BitVec.ofNat 16 h, phase := if h = 0 then !x.phase else x.phase })
    x.ctl.toNat x.qid.toNat 1 h

/-- After a completion with M = 1 the Harbourmaster reads the controller's error log (R276). -/
def errorLog (s : State) (c : Option (Nat × BitVec 32)) (status : BitVec 15) : State :=
  match c with
  | some (c, _) => if status.getLsbD 13 then adminCmd s c 2 1 0 0 none [] true else s
  | none => s

/-- STATE goes from PAIRING to ACTIVE (R192 step 6): every registration of step 2 is complete and every fill record is
acknowledged.  A twin that has missed two intervals is SUSPECT at once (R150). -/
def fillEnd (s : State) : State :=
  if s.hbr.tstate = 1 ∧ s.tw.regs.isEmpty = true ∧ s.tw.fillTo.isNone = true then
    let s := setTstate s 2
    if 2 ≤ s.tw.miss.toNat then setTstate s 3 else s
  else s

/-- The registration of a namespace is complete. -/
def regDone (s : State) (g : BitVec 128) : State := updTw s (fun t => { t with regs := t.regs.filter (fun x => decide (x ≠ g)) })

/-- A reservation command has ended (R165, R171, R192, R271, R499): a failure counts as that of its step and no more,
but a failed Acquire at pairing is followed by a new report.  Whether a report shows a holder is a free value (log 70). -/
def resvDone (s : State) (r : Resv) (d : BitVec 15) : State :=
  if r.step = .fence then fenceDone s r.nguid d
  else if retryable d && decide (r.tries < 2) then
    updTw s (fun t => { t with resvq := t.resvq ++ [{ r with tries := r.tries + 1 }] })
  else if d = 0 then
    (match r.step with
     | .register take =>
       let s := fillEnd (regDone s r.nguid)
       if take then resvCmd s r.nguid (.report true) else s
     | .report take =>
       let s := fillEnd (regDone s r.nguid)
       let x := takeFree s
       if take then (if x.1.getLsbD 0 then resvCmd x.2 r.nguid .acquire else x.2) else s
     | .acquire => setHeld s r.nguid true
     | .release => resvCmd (setHeld s r.nguid false) r.nguid .unregister
     | _ => s)
  else if r.step = .acquire ∧ 1 ≤ s.hbr.tstate.toNat ∧ s.hbr.tstate.toNat ≤ 3 then resvCmd s r.nguid (.report false)
  else if r.step = .release then resvCmd s r.nguid .unregister
  else s

/-- The completion of the reservation command under `key`. -/
def resvComplete (s : State) (key : Nat) (r : Resv) (d : BitVec 15) : State :=
  issueResv (resvDone (queueOut { s with resvs := Table.put none s.resvs key none } key false) r d)

/-- A block that leaves its pair releases the reservations that it holds, then unregisters (R188, R271). -/
def leaveKeys (s : State) : State :=
  (fenceSet s).foldl (fun s g => resvCmd s g (if s.tw.held.contains g then .release else .unregister)) s

end Sys2Proof.Machine
end

