-- ==== Sys2Proof/Machine/Dock.lean ====
section
/-! DEFINITION. Machine/Dock.lean: dock controllers and their probes (R274 to R276, R288), device completions,
timeouts and resets (R280 to R283, R296, R297), the waits of R291 and R292, and the berth registers (R285,
R286, R289, R584). -/

namespace Sys2Proof.Machine

/-- The requester may use SEAL fields (R5, R7, R541). -/
def sealRights (s : State) : Requester → Bool
  | .ctl => false
  | .pilot _ w => w
  | .hm => true
  | .dbg => devRights s

/-! Controllers. -/

/-- The host identifier (R275). -/
def hostId (s : State) : List Byte :=
  leBytes 4 s.hbr.hid.toNat ++ leBytes 2 s.hbr.num.toNat ++ leBytes 10 0

/-- The queue pairs that name controller `c`, the sealed pair first (R274). -/
def queuesOf (s : State) (c : Nat) : List Nat :=
  let l := (s.dqs.filter (fun e => e.2.en && decide (e.2.ctl.toNat = c)))
  ((l.filter (fun e => e.2.sealedQ)) ++ (l.filter (fun e => !e.2.sealedQ))).map (·.1)

/-- A queue's depths are within R302 for the controller. -/
def depthOk (mqes : BitVec 16) (q : Dq) : Bool :=
  let ok : BitVec 4 → Bool := fun l => decide (4 ≤ l.toNat) && decide (l.toNat ≤ 12) && decide (2 ^ l.toNat ≤ mqes.toNat + 1)
  ok q.sqlog && ok q.cqlog

/-- The step at which a start fails (R273, R274, R302). -/
def startFail (s : State) (c : Nat) (i : CtlInfo) : Option Nat :=
  if !i.cssNvm || decide (i.mpsmin ≠ 0) || decide (i.mqes.toNat < 63) then some 1
  else
    match i.failStep with
    | some k => some k
    | none => if (queuesOf s c).all (fun q => depthOk i.mqes (dqOf s q)) then none else some 8

/-- Controller `c` fails its start at a step (R274). -/
def ctlFailed (s : State) (c step : Nat) : State :=
  let old := s
  let s := setCtl s c { ctlOf s c with state := 3 }
  reslot old (hmLog s 0x401 (BitVec.ofNat 64 c) (BitVec.ofNat 64 step))

/-- Queue `q` is created with device queue ID `qid` (R274, R281). -/
def createQueue (s : State) (c : Nat) (q qid : Nat) : State :=
  let x := dqOf s q
  let s := setDq s q { x with qid := BitVec.ofNat 16 qid, outst := 0, sqtail := 0, cqhead := 0, phase := true }
  let id := BitVec.ofNat 16 qid
  let s := adminCmd s c 5 (BitVec.ofNat 16 (2 ^ x.cqlog.toNat - 1) ++ id) 1 0 (some (x.cqbase.setWidth 64 <<< 12)) [] true
  adminCmd s c 1 (BitVec.ofNat 16 (2 ^ x.sqlog.toNat - 1) ++ id) (id ++ (1 : BitVec 16)) 0
    (some (x.sqbase.setWidth 64 <<< 12)) [] true

/-- Create the controller's queues: the sealed pair has QID 1, open pairs follow from 2. -/
def createQueues (s : State) (c : Nat) : List Nat → Nat → State
  | [], _ => s
  | q :: qs, n =>
    if (dqOf s q).sealedQ then createQueues (createQueue s c q 1) c qs n
    else createQueues (createQueue s c q n) c qs (n + 1)

/-- A controller register at `off` from its BAR. -/
def ctlReg (x : Ctl) (off : Nat) : W64 := (x.bar ++ (0 : BitVec 12)) + BitVec.ofNat 64 off

/-- Where the admin queues lie in a SEALED bank is no value of the spec (R274 step 3): a free one, page aligned. -/
def freePage (s : State) : W64 × State :=
  let x := takeFree s
  ((0 : BitVec 41) ++ x.1.extractLsb' 12 11 ++ (0 : BitVec 12), x.2)

/-- What step `k` of a start does at the dock port (R274): `done`, whether the step's last command completes. -/
def startStep (s : State) (c : Nat) (ns : List NsInfo) (done : Bool) (k : Nat) : State :=
  let x := ctlOf s c
  let rd : State → Nat → State := fun s off => emit s (.dockRead x.dport.toNat (ctlReg x off))
  let wr : State → Nat → W64 → State := fun s off v => emit s (.dockWrite x.dport.toNat (ctlReg x off) v)
  if k = 1 then rd (rd s 0) 8
  else if k = 2 then rd (wr s 0x14 0) 0x1C
  else if k = 3 then
    let a := freePage (setCtl s c { x with atail := 0 })
    let b := freePage a.2
    wr (wr (wr b.2 0x24 0x001F001F) 0x28 a.1) 0x30 b.1
  else if k = 4 then rd (wr s 0x14 0x00460001) 0x1C
  else if k = 5 then adminCmd s c 6 1 0 0 none [] done
  else if k = 6 then adminCmd s c 9 0x81 1 0 none (hostId s) done
  else if k = 7 then
    let n := BitVec.ofNat 16 ((queuesOf s c).length - 1)
    adminCmd s c 9 7 (n ++ n) 0 none [] done
  else if k = 8 then createQueues s c (queuesOf s c) 2
  else if k = 9 then
    ns.foldl (fun s n => adminCmd (adminCmd s c 6 0 0 n.nsid none [] true) c 6 3 0 n.nsid none [] true) (adminCmd s c 6 2 0 0 none [] true)
  else if k = 10 then adminCmd s c 9 0x82 0xE 0xFFFFFFFF none [] done
  else s

/-- The steps of a start up to step `n`; a restart begins at step 2 (R288). -/
def startSteps (s : State) (c : Nat) (ns : List NsInfo) (done : Bool) (n : Nat) : State :=
  let l := (List.range n).filter (fun k => decide (k ≠ 0) || !(ctlOf s c).restart)
  l.foldl (fun s k => startStep s c ns (done || decide (k + 1 < n)) (k + 1)) s

/-- A path slot 1 that a berth may not have (R273): the namespace or its controller cannot be shared. -/
def dropUnshared (s : State) : State :=
  { s with berths := Table.mapVals {} (fun _ b =>
      if (b.slot 1).v && !shareable s b then b.setSlot 1 { b.slot 1 with v := false, unlisted := false, wentDown := false } else b) s.berths }

/-- A restart ends what was outstanding on the controller (R288, R290): its reservation commands wait to go out again. -/
def requeueResv (s : State) (c : Nat) : State :=
  let l := s.resvs.filterMap (fun e => match e.2 with
    | some r => if decide ((dqOf s (e.1 / 65536)).ctl.toNat = c) then some (e.1, r) else none
    | none => none)
  l.foldl (fun s e => updTw { s with resvs := Table.put none s.resvs e.1 none } (fun t => { t with resvq := t.resvq ++ [e.2] })) s

/-- CONTROLLER_START (R273, R274, R286, R288): the steps in order, up to the one that fails. -/
def execControllerStart (c : Nat) (info : CtlInfo) (s : State) : Out :=
  .next (
    let x := ctlOf s c
    if decide (s.blk.build.ctls ≤ c) || !x.en || decide (x.state = 2) || decide (s.blk.mode = 7) then s
    else
      let old := s
      let s := requeueResv (setCtl s c { x with dstrd := info.dstrd, state := 1 }) c
      match startFail s c info with
      | some k => ctlFailed (startSteps s c info.spaces true k) c k
      | none =>
        let nioq : BitVec 8 := if info.nioq < 256 then BitVec.ofNat 8 info.nioq else 255
        let s := startSteps s c info.spaces true 10
        let x := ctlOf s c
        let s := setCtl s c { x with
          state := 2, nioq := nioq, mdts := info.mdts, cntlid := info.cntlid,
          crdt1 := info.crdt1, crdt2 := info.crdt2, crdt3 := info.crdt3, oncs := info.oncs, fuses := info.fuses,
          cmic := info.cmic, spaces := info.spaces, pst := if x.restart then 1 else 0, good := 0, missed := 0,
          restart := false }
        issueResv (reslot old (dropUnshared s)))

/-- CONTROLLER_STEP_TIMEOUT (R274): the step that waits too long has been begun. -/
def execControllerStepTimeout (c : Nat) (step : Nat) (s : State) : Out :=
  .next (if c < s.blk.build.ctls ∧ (ctlOf s c).en = true ∧ (ctlOf s c).state ≠ 2 then
    ctlFailed (startSteps s c (ctlOf s c).spaces false step) c step else s)

/-- The effect of one probe on a READY controller (R288). -/
def Ctl.probe (x : Ctl) (answered rdy cfs : Bool) (now : W64) : Ctl :=
  if answered && cfs then { x with pst := 3, good := 0, missed := 0, state := 1, restart := true }
  else if answered && rdy then
    let x := { x with missed := 0, lastGood := now }
    if x.pst = 0 then
      (if x.restart then { x with state := 1, good := 0 } else { x with pst := 1, good := 1 })
    else if x.pst = 1 then
      (if x.good.toNat + 1 = 3 then { x with pst := 2, good := 3 } else { x with good := x.good + 1 })
    else x
  else
    let x := { x with good := 0, missed := if x.missed = 3 then 3 else x.missed + 1 }
    if x.missed = 3 ∧ (x.pst = 1 ∨ x.pst = 2) then { x with pst := 0, downs := satInc x.downs, restart := true } else x

/-- DOCK_PROBE (R286, R288, R290): probes pause while the fast clock is stopped. -/
def execDockProbe (c : Nat) (answered rdy cfs : Bool) (s : State) : Out :=
  .next (
    let x := ctlOf s c
    if decide (s.blk.build.ctls ≤ c) || decide (x.state ≠ 2) || s.fstop then s
    else
      let old := s
      let s := emit s (.dockRead x.dport.toNat ((x.bar ++ (0 : BitVec 12)) + 0x1C))
      let s := if answered && cfs then { s with dock := { s.dock with cfs := true } } else s
      reslot old (setCtl s c (x.probe answered rdy cfs s.tide.count)))

/-- SMART_LOG_READ (R276). -/
def execSmartLogRead (c : Nat) (warn : BitVec 8) (s : State) : Out :=
  .next (
    if c < s.blk.build.ctls ∧ (ctlOf s c).state = 2 then
      let s := adminCmd s c 2 2 0 0 none [] true
      if warn = 0 then s else hmLog s 0x402 (BitVec.ofNat 64 c) (warn.setWidth 64)
    else s)

/-! Completions and resets. -/

/-- DEVICE_COMPLETION (R280, R290, R296): writes of a lost controller are dropped until its restart. -/
def execDeviceCompletion (q : Nat) (cid : BitVec 16) (status : BitVec 15) (s : State) : Out :=
  .next (
    let x := dqOf s q
    if decide (s.blk.build.queues ≤ q) || !x.en || (ctlOf s x.ctl.toNat).restart then s
    else
      let key := q * 65536 + cid.toNat
      let s := stepCq (raise s (0x400 + q)) q
      let s := errorLog s (some (x.ctl.toNat, 0)) status
      issueResv (match dcmdOf s key, Table.get none s.resvs key with
      | some c, _ => if decide (c.wait = .device) && !frozen s then cmdComplete s key c status else s
      | none, some r => resvComplete s key r status
      | none, none => s))

/-- Aborted - SQ Deletion (R282). -/
def sqDeleted : BitVec 15 := 0x008

/-- A queue reset (R282, R283): both queues are deleted, every command of the pair ends, and both are created again. -/
def queueReset (s : State) (q : Nat) : State :=
  let x := dqOf s q
  let s := adminCmd s x.ctl.toNat 0 (x.qid.setWidth 32) 0 0 none [] true
  let s := adminCmd s x.ctl.toNat 4 (x.qid.setWidth 32) 0 0 none [] true
  let rs := s.resvs.filterMap (fun e => match e.2 with
    | some r => if decide (e.1 / 65536 = q) then some (e.1, r) else none
    | none => none)
  let cmds := s.dcmds.filterMap (fun e => match e.2 with
    | some c => if decide (e.1 / 65536 = q) && decide (c.wait = .device) then some (e.1, c) else none
    | none => none)
  let s := cmds.foldl (fun s e => cmdComplete s e.1 e.2 sqDeleted) s
  let s := createQueue s x.ctl.toNat q x.qid.toNat
  issueResv (rs.foldl (fun s e => resvDone { s with resvs := Table.put none s.resvs e.1 none } e.2 sqDeleted) s)

/-- A command's second expiry of CTO ends its exchange (R283): a part of a split transfer counts as failed, and the word
waits for its other commands (R52). -/
def expireTwice (s : State) (key : Nat) (c : DCmd) : State :=
  match (xctx s c.idx).cur, c.kind with
  | some wx, .part k =>
    if wx.w.op = 5 then failCur (setDcmd (cmdOff s key c) key none) c.idx wx 0 0x32 none
    else
      partDone (updXctx s c.idx (fun x => { x with cur := some { wx with cto := wx.cto ++ [k] } })) key c k sqDeleted
  | some wx, _ => failCur (setDcmd (cmdOff s key c) key none) c.idx wx 0 0x32 none
  | none, _ => setDcmd (cmdOff s key c) key none

/-- An admin command has exceeded CTO (R282): the controller is reset from step 2, and its path is DOWN meanwhile. -/
def adminTimeout (s : State) (c : Nat) : State :=
  let x := ctlOf s c
  if s.blk.build.ctls ≤ c ∨ x.state ≠ 2 then s
  else
    let down := decide (x.pst = 1) || decide (x.pst = 2)
    reslot s (setCtl s c { x with
      state := 1, pst := 0, good := 0, missed := 0, restart := true, downs := if down then satInc x.downs else x.downs })

/-- COMMAND_TIMEOUT (R143, R282, R283): for an admin command `q` is the controller. -/
def execCommandTimeout (q : Nat) (late : LateCmd) (s : State) : Out :=
  .next (
    let key := q * 65536 + late.cid.toNat
    if late.cause = .admin then adminTimeout s q
    else if s.blk.build.queues ≤ q ∨ frozen s = true then s
    else
      match dcmdOf s key, Table.get none s.resvs key with
      | some c, _ =>
        if c.wait ≠ .device then s
        else if late.cause = .recovery then queueReset s q
        else if c.expired && !isMutCmd s c && decide (c.kind ≠ .served) then queueReset (expireTwice s key c) q
        else queueReset (setDcmd s key (some { c with expired := true })) q
      | none, some _ => queueReset s q
      | none, none => s)

/-- PCIE_ERROR (R282). -/
def execPcieError (c : Nat) (s : State) : Out :=
  .next (if c < s.blk.build.ctls ∧ frozen s = false then (queuesOf s c).foldl queueReset s else s)

/-- The commands of an entry that wait for a retry, the compare half of a fused pair first (R281, R297). -/
def retryList (s : State) (i : Nat) : List (Nat × DCmd) :=
  let l := cmdsOf s i (fun c => decide (c.wait = .retry))
  l.filter (fun e => decide (e.2.kind = .part 0)) ++ l.filter (fun e => decide (e.2.kind ≠ .part 0))

/-- A retry takes a new SQ entry of its queue under the limit of R281; without room the command waits on. -/
def retryCmd (s : State) (e : Nat × DCmd) : State :=
  let c := { e.2 with wait := .device }
  if 67108864 ≤ e.1 then putCmd s e.1 c
  else
    let q := e.1 / 65536
    if (dqOf s q).room && queueTakes s q c.idx then
      let s := putCmd s e.1 c
      ringSq s q (halfOf s q).isNone
    else s

/-- RETRY_DELAY_EXPIRY (R297): the commands of the entry that wait for a retry go out again on their slots. -/
def execRetryDelayExpiry (idx : Nat) (s : State) : Out :=
  .next (if frozen s then s else
    (retryList s idx).foldl retryCmd s)

/-- Bytes of the current word that lie before every part that has not completed with status 0 (R52). -/
def prefixDone (s : State) (b : Berth) (wx : WordX) : Nat → Nat → Nat
  | 0, _ => 0
  | n + 1, k =>
    if wx.done.any (fun d => decide (d.1 = k) && decide (d.2.2 = 0)) then
      partBytes s b wx k + prefixDone s b wx n (k + 1)
    else 0

/-- NPWAIT_EXPIRY (R292, R293, R300): a command that still has no slot ends its exchange with NO_PATH; a served one
is answered. -/
def execNpwaitExpiry (idx : Nat) (s : State) : Out :=
  .next (
    let b := berthOf s idx
    if frozen s then s
    else if (own s idx).srv then
      (match Table.get none s.serves idx with
       | some v => if servedIssued s idx v = 0 ∧ slotUp s b 0 = false then failServe s idx else s
       | none => s)
    else
      match waitingCmd s idx, (xctx s idx).cur with
      | some (_, c), some wx =>
        let up := if c.kind = .flog then slotUp s b 0 else anyUp s b c.excl
        if up then s
        else
          let n := if wx.w.transfer then prefixDone s b wx wx.done.length 0 else 0
          failCur s idx wx n 0x33 none
      | _, _ => s)

/-- The fencing of a gleaned entry's namespace is complete, so its outcome may be settled (R172, R183). -/
def fencedNs (s : State) (i : Nat) : Bool :=
  let e := own s i
  !(e.redriven && e.tr) || (s.tw.fset.filter (fun f => decide (f.nguid = (berthOf s i).nguid))).all (fun f => decide (f.st = 3))

/-- The reads of a resolution on the local dock path (R183, R271, R291, R301): the writer's fence-log record and, where it
matches, the target range, into the entry's staging range. -/
def settleReads (s : State) (i : Nat) (p : PreX) (record : Option FenceRec) : State :=
  let b := berthOf s i
  if lowestUp s b ≠ some 0 then s
  else
    let e := own s i
    let half := if e.redriven && e.tr then b.fltwin else b.flown
    let rd : State → W64 → Nat → State := fun s lba n =>
      let c := flogCmd b 2 lba (some (prpsOf i 0 n))
      emit s (.device e.berth.toNat 0 false none
        { c with cdw12 := BitVec.ofNat 32 (n / b.lbs - 1), mptr := if n = b.lbs then c.mptr else mptrOf b i 0 })
    let s := rd s (half + BitVec.ofNat 64 (e.fseq.toNat % Nat.max b.flbn.toNat 1)) b.lbs
    match record with
    | some r => if recMatches s i p r then rd s p.mutPos p.mutW.count.toNat else s
    | none => s

/-- PSETTLE_EXPIRY (R183, R283, R291, R301): the fence-log record and the range have been read, as far as they can
be. -/
def execPsettleExpiry (idx : Nat) (record : Option FenceRec) (range : Option (BitVec 64)) (s : State) : Out :=
  .next (
    let waits := !(cmdsOf s idx (fun c => decide (c.wait = .settle))).isEmpty
    match (xctx s idx).preMut with
    | some p =>
      if frozen s || !(waits || settling s idx) || !fencedNs s idx then s
      else
        settleX (settleReads s idx p record) idx p ((lowestUp s (berthOf s idx)).getD 0) (settleTable s idx p record range)
    | none => s)

/-! Berth registers (R285, R286, R289, R584). -/

/-- The path-slot words B7 + 2k and B8 + 2k. -/
def slotWord (s : State) (b : Berth) (k : Nat) : W64 :=
  let x := b.slot k
  bit1 x.v ++ slotState s b k ++ x.tgt ++ (0 : BitVec 39) ++ x.sberth

/-- Berth word `w` as it reads with or without SEAL rights. -/
def berthRead (s : State) (rights : Bool) (n w : Nat) : W64 :=
  let b := berth s n
  let z : W64 → W64 := fun v => if rights then v else 0
  if w = 0 then
    b.state ++ (if rights then bit1 b.policy ++ bit1 b.ce ++ b.keyh else 0) ++ b.group ++ bit1 b.lbsz ++
      (0 : BitVec 15) ++ b.resv
  else if w = 1 then z b.rkey
  else if w = 2 then b.nsze
  else if w = 3 then z b.flown
  else if w = 4 then z b.fltwin
  else if w = 5 then (if rights then b.flbn else 0) ++ b.nsid
  else if w = 6 then BitVec.ofNat 32 (if (b.slot 0).v then mxferOf s b else 0) ++ (0 : BitVec 24) ++ capsOf s b
  else if 7 ≤ w ∧ w ≤ 14 then
    let k := (w - 7) / 2
    if w % 2 = 1 then slotWord s b k else (b.slot k).outst ++ (b.slot k).losses
  else 0

/-- OPEN is refused (R286). -/
def openRefused (s : State) (b : Berth) : Bool :=
  decide (b.nguid = 0) || (decide (1 ≤ b.flbn.toNat) && decide (b.flbn.toNat ≤ 1023)) ||
  decide (b.flown.toNat < b.nsze.toNat) || decide (b.fltwin.toNat < b.nsze.toNat) ||
  ((b.slot 0).v && !localGood s b)

/-- A management write of STATE (R286, R294). -/
def stateWrite (s : State) (b : Berth) (v : BitVec 2) : Berth :=
  if v = 1 then
    if openRefused s b then b
    else { b with state := 1, fenceLost := false, quiesced := b.quiesced && decide (b.state ≠ 0) }
  else if v = 3 then b
  else { b with state := v, fenceLost := false }

/-- A write of RESV (R89). -/
def resvWrite (s : State) (n : Nat) (v : BitVec 20) : State :=
  let b := berth s n
  let s' := setBerth s n { b with resv := v }
  if s.blk.build.entries < poolSum s.wm s.sres s'.berths then { s with resvRefused := true } else s'

/-- A write of berth word B0 (R285, R286). -/
def berthWrite0 (s : State) (rights : Bool) (n : Nat) (v : W64) : State :=
  let b := berth s n
  let b := { b with group := v.extractLsb' 36 12 }
  let b := if b.state = 0 then
      let b := { b with lbsz := v.getLsbD 35 }
      if rights then { b with policy := v.getLsbD 61, ce := v.getLsbD 60, keyh := v.extractLsb' 48 12 } else b
    else b
  let s := resvWrite (setBerth s n b) n (v.extractLsb' 0 20)
  settleBerths (setBerth s n (stateWrite s (berth s n) (v.extractLsb' 62 2)))

/-- A write of path-slot word `k` whose bits `m` are written (R285, R286, R289). -/
def slotWrite (s : State) (n k : Nat) (v m : W64) : State :=
  let b := berth s n
  let x := b.slot k
  let x := if b.state = 0 then
      { x with tgt := v.extractLsb' 55 6, sberth := if k = 0 then 0 else v.extractLsb' 0 16 } else x
  let nv := v.getLsbD 63
  let allowed := !(decide (k = 1) && nv && !shareable s b)
  let x := if m.getLsbD 63 && allowed then
      { x with v := nv, pst := if nv then 0 else x.pst, unlisted := x.unlisted && !nv, wentDown := x.wentDown && !nv }
    else x
  reslot s (let t := setBerth s n (b.setSlot k x); if k = 0 then dropUnshared t else t)

/-- A write of berth word `w` under mask `m` (R285, R286). -/
def berthWrite (s : State) (rights : Bool) (n w : Nat) (v m : W64) : State :=
  let b := berth s n
  let v := (v &&& m) ||| (berthRead s true n w &&& ~~~m)
  let closed := decide (b.state = 0)
  if w = 0 then berthWrite0 s rights n v
  else if w = 1 then (if closed && rights then setBerth s n { b with rkey := v } else s)
  else if w = 2 then (if closed then setBerth s n { b with nsze := v } else s)
  else if w = 3 then (if closed && rights then setBerth s n { b with flown := v } else s)
  else if w = 4 then (if closed && rights then setBerth s n { b with fltwin := v } else s)
  else if w = 5 then
    if closed then
      setBerth s n { b with nsid := v.extractLsb' 0 32, flbn := if rights then v.extractLsb' 32 32 else b.flbn }
    else s
  else if 7 ≤ w ∧ w ≤ 13 ∧ w % 2 = 1 then slotWrite s n ((w - 7) / 2) v m
  else s

/-- BERTH_STATE_WRITE (R286). -/
def execBerthStateWrite (rq : Requester) (b : Nat) (v : BitVec 64) (s : State) : Out :=
  .next (let s := ctlWake rq s
    if b < s.blk.build.berths then berthWrite s (sealRights s rq) b 0 v (BitVec.allOnes 64) else s)

/-- A write of one half of BERTH.NGUID (R584). -/
def nguidWrite (s : State) (n : Nat) (hi : Bool) (v m : W64) : State :=
  let b := berth s n
  let old : W64 := if hi then b.nguid.extractLsb' 64 64 else b.nguid.extractLsb' 0 64
  let v := (v &&& m) ||| (old &&& ~~~m)
  if b.state = 0 then
    setBerth s n { b with nguid := if hi then v ++ b.nguid.extractLsb' 0 64 else b.nguid.extractLsb' 64 64 ++ v }
  else s

/-- BERTH_NGUID_WRITE (R584). -/
def execBerthNguidWrite (rq : Requester) (b : Nat) (hi : Bool) (v : BitVec 64) (s : State) : Out :=
  .next (let s := ctlWake rq s
    if b < s.blk.build.berths then nguidWrite s b hi v (BitVec.allOnes 64) else s)

/-- SLOT_VALID_WRITE (R286, R289). -/
def execSlotValidWrite (rq : Requester) (b : Nat) (k : Nat) (v : BitVec 64) (s : State) : Out :=
  .next (let s := ctlWake rq s
    if b < s.blk.build.berths ∧ k < 4 then slotWrite s b k v (BitVec.allOnes 64) else s)

end Sys2Proof.Machine
end

