-- ==== Sys2Proof/Machine/Flags.lean ====
section
/-! DEFINITION. Machine/Flags.lean: the flag computations of the pilot's units (R312, R321 to R325). -/

namespace Sys2Proof.Machine

/-- A unit's result with the flags it computes. -/
structure Res where
  r : W64
  n : Bool
  z : Bool
  v : Bool
  c : Bool
deriving DecidableEq, Repr

/-- An addition (R322). -/
def addRes (s t : W64) (cin : Bool) : Res :=
  let sum := s.toNat + t.toNat + cin.toNat
  let r := BitVec.ofNat 64 sum
  { r := r, n := r.msb, z := decide (r = 0), v := (s.msb == t.msb) && (r.msb != s.msb),
    c := decide (2 ^ 64 ≤ sum) }

/-- A subtraction (R322). -/
def subRes (s t : W64) (bin : Bool) : Res :=
  let r := s - t - BitVec.ofNat 64 bin.toNat
  { r := r, n := r.msb, z := decide (r = 0), v := (s.msb != t.msb) && (r.msb != s.msb),
    c := decide (s.toNat < t.toNat + bin.toNat) }

/-- A logic result: N and Z of the value, V 0 (R310); C is not written. -/
def logicRes (r : W64) (c : Bool) : Res := ⟨r, r.msb, decide (r = 0), false, c⟩

/-- The four shifts of R323. -/
inductive Shift where
  | shl
  | shr
  | sar
  | ror
  | rol
deriving DecidableEq, Repr

/-- Bit `i` of a value, by number. -/
def bitAt (s : W64) (i : Nat) : Bool := s.getLsbD i

/-- A shift or rotate by count `k` (R323); `c` is the C flag before. -/
def shiftRes (op : Shift) (s : W64) (k : Nat) (c : Bool) : Res :=
  match op with
  | .rol => logicRes (s.rotateLeft (k % 64)) c
  | .ror => logicRes (s.rotateRight (k % 64)) c
  | .shl =>
    if k = 0 then logicRes s c
    else if k ≤ 63 then logicRes (s <<< k) (bitAt s (64 - k))
    else if k = 64 then logicRes 0 (bitAt s 0)
    else logicRes 0 false
  | .shr =>
    if k = 0 then logicRes s c
    else if k ≤ 63 then logicRes (s >>> k) (bitAt s (k - 1))
    else if k = 64 then logicRes 0 (bitAt s 63)
    else logicRes 0 false
  | .sar =>
    if k = 0 then logicRes s c
    else if k ≤ 63 then logicRes (s.sshiftRight k) (bitAt s (k - 1))
    else logicRes (if s.msb then BitVec.allOnes 64 else 0) (bitAt s 63)

/-- Write N, Z, V and C. -/
def Sw.nzvc (w : Sw) (r : Res) : Sw := { w with n := r.n, z := r.z, v := r.v, c := r.c }

/-- Write N and Z of a value. -/
def Sw.nz (w : Sw) (r : W64) : Sw := { w with n := r.msb, z := decide (r = 0) }

/-- The guard of an instruction is met (R312). -/
def Sw.guardMet (w : Sw) (g : BitVec 4) : Bool :=
  match g.toNat with
  | 0 => true
  | 1 => w.z
  | 2 => w.c
  | 3 => w.n
  | 4 => w.v
  | 5 => w.c || w.z
  | 6 => w.n != w.v
  | 7 => w.z || (w.n != w.v)
  | 8 => w.d
  | 9 => !w.z
  | 10 => !w.c
  | 11 => !w.n
  | 12 => !w.v
  | 13 => !w.c && !w.z
  | 14 => w.n == w.v
  | _ => !w.z && (w.n == w.v)

/-- The bytes of a 64-bit word in reverse order (R321, BSWAP). -/
def bswap64 (v : W64) : W64 :=
  v.extractLsb' 0 8 ++ v.extractLsb' 8 8 ++ v.extractLsb' 16 8 ++ v.extractLsb' 24 8 ++
    v.extractLsb' 32 8 ++ v.extractLsb' 40 8 ++ v.extractLsb' 48 8 ++ v.extractLsb' 56 8

/-- Leading zero bits of a value, 0 to 64 (R321, CLZ): the first of the `n` low bits that is set, from the
top. -/
def clzFrom (v : W64) : Nat → Nat
  | 0 => 0
  | n + 1 => if v.getLsbD n then 0 else 1 + clzFrom v n

/-- Set bits among the `n` low bits (R321, POPC). -/
def popFrom (v : W64) : Nat → Nat
  | 0 => 0
  | n + 1 => (if v.getLsbD n then 1 else 0) + popFrom v n

/-! Decimal numbers (R329 to R331). -/

/-- The nibbles of a value, least significant first. -/
def nibbles : Nat → W64 → List Nat
  | 0, _ => []
  | n + 1, v => (v.toNat % 16) :: nibbles n (v >>> 4)

/-- The value of packed digits, least significant first. -/
def digitsNat : List Nat → Nat
  | [] => 0
  | d :: ds => d + 10 * digitsNat ds

/-- The packed digits of a number: `n` nibbles, least significant lowest. -/
def packDigits : Nat → Nat → Nat
  | 0, _ => 0
  | n + 1, v => v % 10 + 16 * packDigits n (v / 10)

/-- The signed value of a DEC word (R329): sign nibbles 0xB and 0xD are negative. -/
def decVal (v : W64) : Int :=
  let ds := nibbles 16 v
  let m : Int := (digitsNat ds.tail : Nat)
  if ds.head? = some 11 ∨ ds.head? = some 13 then -m else m

/-- The DEC word of a value: the low 15 digits and the true sign; zero is positive (R329, R330). -/
def decWord (i : Int) : W64 :=
  let m := i.natAbs % 10 ^ 15
  let sgn := if i < 0 ∧ m ≠ 0 then 13 else 12
  BitVec.ofNat 64 (sgn + 16 * packDigits 15 m)

/-- The value of a multi-word decimal word. -/
def digVal (v : W64) : Nat := digitsNat (nibbles 16 v)

/-- The multi-word decimal word of a number modulo 10^16. -/
def digWord (n : Nat) : W64 := BitVec.ofNat 64 (packDigits 16 (n % 10 ^ 16))

/-- One word of DADDM or DSUBM: the result word and the carry or borrow out. -/
def decStep (sub : Bool) (a b : W64) (c : Bool) : W64 × Bool :=
  if sub then
    let need := digVal b + c.toNat
    if need ≤ digVal a then (digWord (digVal a - need), false)
    else (digWord (digVal a + 10 ^ 16 - need), true)
  else
    let t := digVal a + digVal b + c.toNat
    (digWord t, decide (10 ^ 16 ≤ t))

end Sys2Proof.Machine
end

