-- ==== Sys2Proof/Machine/Operands.lean ====
section
/-! DEFINITION. Machine/Operands.lean: tags of operands and results (R307 to R310), and what an
instruction's meaning answers: a state, or a trap. -/

namespace Sys2Proof.Machine

/-- What the body of an instruction answers.  `done` carries the state with the effect made and the PC in
place; `trap` a trap of R369 with its TV over the state with any committed prefix; `stop` a state in
which a debug entry has been taken instead, and `brk` a completed BKPT (R545). -/
inductive PRes where
  | done (s : State)
  | trap (code : BitVec 4) (tv : W64) (s : State)
  | stop (s : State)
  | brk (s : State)
deriving DecidableEq, Repr

/-- A tag code's readability as an operand: EMPTY and 0xA to 0xE trap, and SEAL traps in the open world
(R308). -/
def tagReadable (tag : BitVec 4) (world : Bool) : Bool :=
  decide (tag ≠ 0) && !(decide (10 ≤ tag.toNat) && decide (tag.toNat ≤ 14)) &&
    !(decide (tag = 15) && !world)

/-- TV of a TAG trap: the tag met and the operand (R369). -/
def tagTv (tag : BitVec 4) (operand : BitVec 2) : W64 := (0 : BitVec 58) ++ operand ++ tag

/-- The operands in the order s, t, d with their numbers, checked against a test: the first that fails
traps TAG (R320). -/
def tagFail (world : Bool) : List (TWord × BitVec 2 × (BitVec 4 → Bool)) → Option W64
  | [] => none
  | (w, k, ok) :: rest =>
    if tagReadable w.tag world && ok w.tag then tagFail world rest else some (tagTv w.tag k)

def isInt (t : BitVec 4) : Bool := decide (t = 1)
def isIntBits (t : BitVec 4) : Bool := decide (t = 1) || decide (t = 2)
def isDec (t : BitVec 4) : Bool := decide (t = 3)
def isAddr (t : BitVec 4) : Bool := decide (t = 4)
def isCode (t : BitVec 4) : Bool := decide (t = 5)
def isHandle (t : BitVec 4) : Bool := decide (t = 6)
def isDesc (t : BitVec 4) : Bool := decide (t = 8)
def anyTag (_ : BitVec 4) : Bool := true

/-- The result tag of a logic operation on two operands (R310). -/
def logicTag (s t : BitVec 4) : BitVec 4 := if s = 1 ∧ t = 1 then 1 else 2

/-- ADDR and CODE arithmetic (R314): an ADDR keeps its space and adds in 60 bits. -/
def addrAdd (a v : W64) : W64 := a.extractLsb' 60 4 ++ (a.extractLsb' 0 60 + v.extractLsb' 0 60)
def addrSub (a v : W64) : W64 := a.extractLsb' 60 4 ++ (a.extractLsb' 0 60 - v.extractLsb' 0 60)

/-- The result of the ADD row of R310: value and tag, and the flags when the row writes them; none on a
pair of tags the row does not list. -/
def addRule (s t : TWord) : Option (TWord × Option Res) :=
  let r := addRes s.val t.val false
  if s.tag = 1 ∧ t.tag = 1 then some (intW r.r, some r)
  else if s.tag = 4 ∧ t.tag = 1 then some (⟨addrAdd s.val t.val, 4⟩, none)
  else if s.tag = 1 ∧ t.tag = 4 then some (⟨addrAdd t.val s.val, 4⟩, none)
  else if s.tag = 5 ∧ t.tag = 1 then some (⟨r.r, 5⟩, none)
  else if s.tag = 7 ∧ t.tag = 1 then some (⟨r.r, 7⟩, none)
  else none

/-- Two ADDR words name one space. -/
def sameSpace (a b : W64) : Bool := decide (a.extractLsb' 60 4 = b.extractLsb' 60 4)

/-- The SUB row of R310. -/
def subRule (s t : TWord) : Option (TWord × Option Res) :=
  let r := subRes s.val t.val false
  if s.tag = 1 ∧ t.tag = 1 then some (intW r.r, some r)
  else if s.tag = 4 ∧ t.tag = 1 then some (⟨addrSub s.val t.val, 4⟩, none)
  else if s.tag = 5 ∧ t.tag = 1 then some (⟨r.r, 5⟩, none)
  else if s.tag = 7 ∧ t.tag = 1 then some (⟨r.r, 7⟩, none)
  else if s.tag = 4 ∧ t.tag = 4 ∧ sameSpace s.val t.val = true then some (intW r.r, some r)
  else if s.tag = 7 ∧ t.tag = 7 then some (intW r.r, some r)
  else none

/-- The CMP row of R310. -/
def cmpRule (s t : TWord) : Option Res :=
  if (s.tag = 1 ∧ t.tag = 1) ∨ (s.tag = 7 ∧ t.tag = 7) ∨
     (s.tag = 4 ∧ t.tag = 4 ∧ sameSpace s.val t.val = true) then
    some (subRes s.val t.val false)
  else none

/-- The tag that a failed pair rule reports: the first operand whose tag no row of the operation takes, else
the second operand (R320, R369). -/
def pairTv (s t : TWord) (sOk : BitVec 4 → Bool) : W64 :=
  if sOk s.tag then tagTv t.tag 1 else tagTv s.tag 0

/-- Tags that the ADD row takes as its first operand. -/
def addSrc (t : BitVec 4) : Bool := decide (t = 1) || decide (t = 4) || decide (t = 5) || decide (t = 7)

/-- Tags that the SUB and CMP rows take as their first operand. -/
def cmpSrc (t : BitVec 4) : Bool := decide (t = 1) || decide (t = 4) || decide (t = 7)

end Sys2Proof.Machine
end

