-- ==== Sys2Proof/Machine/Shadow.lean ====
section
/-! DEFINITION. Machine/Shadow.lean: the two runs of a micro-op: the shadow run's transformed operands (R424) and the
words that each run feeds its tally (R426).  The microcode of the shipped vintage is in no rule, so an instruction
enters its window by its own operands and result (DESIGN CHOICE, log 75). -/

namespace Sys2Proof.Machine

/-! The units' results, first run and shadow run (R424).  Each shadow transforms its operands, runs the unit on them and
undoes the transform. -/

/-- The adder of the shadow run: 66 bits, operands shifted left by 2. -/
def shAdd (a b : W64) (c : Bool) : W64 :=
  let r : BitVec 66 := (a.setWidth 66 <<< 2) + (b.setWidth 66 <<< 2) + (BitVec.ofNat 66 c.toNat <<< 2)
  r.extractLsb' 2 64

def shSub (a b : W64) (c : Bool) : W64 :=
  let r : BitVec 66 := (a.setWidth 66 <<< 2) - (b.setWidth 66 <<< 2) - (BitVec.ofNat 66 c.toNat <<< 2)
  r.extractLsb' 2 64

/-- The lesser of two values by the shifted operands, signed or not; `hi` takes the greater. -/
def shPick (signed hi : Bool) (a b : W64) : W64 :=
  let x : BitVec 66 := a.setWidth 66 <<< 2
  let y : BitVec 66 := b.setWidth 66 <<< 2
  let lt := if signed then (if hi then y.slt x else x.slt y) else (if hi then y.ult x else x.ult y)
  if lt then x.extractLsb' 2 64 else y.extractLsb' 2 64

/-- A shift on the reversed operand in the other direction; SAR fills from bit 0. -/
def shShift (op : Shift) (a : W64) (k : Nat) : W64 :=
  let v := a.reverse
  match op with
  | .shl => (v >>> k).reverse
  | .shr => (v <<< k).reverse
  | .sar => ((v <<< k) ||| (if v.getLsbD 0 then ~~~(BitVec.allOnes 64 <<< k) else 0)).reverse
  | .rol => (v.rotateRight (k % 64)).reverse
  | .ror => (v.rotateLeft (k % 64)).reverse

/-- Trailing zero bits of a value, 0 to 64. -/
def ctz (v : W64) : Nat := ((List.range 64).find? (fun k => v.getLsbD k)).getD 64

/-- The result of a UOP of unit 0x0 in the first run; the shifts' counts are `k` (R321, R323). -/
def aluVal (op : Nat) (a b : W64) (c : Bool) : W64 :=
  let m := b.toNat % 128
  match op with
  | 0 => a + b
  | 1 => (addRes a b c).r
  | 2 => a - b
  | 3 => (subRes a b c).r
  | 4 => a &&& b
  | 5 => a ||| b
  | 6 => a ^^^ b
  | 7 => a &&& ~~~b
  | 8 => (shiftRes .shl a m c).r
  | 9 => (shiftRes .shr a m c).r
  | 10 => (shiftRes .sar a m c).r
  | 11 => (shiftRes .rol a (m % 64) c).r
  | 12 => (shiftRes .ror a (m % 64) c).r
  | 13 => a - b
  | 14 => a &&& b
  | 15 => 0 - a
  | 16 => ~~~a
  | 17 => if a.slt b then a else b
  | 18 => if b.slt a then a else b
  | 19 => if a.ult b then a else b
  | 20 => if b.ult a then a else b
  | 21 => BitVec.ofNat 64 (clzFrom a 64)
  | 22 => BitVec.ofNat 64 (popFrom a 64)
  | _ => bswap64 a

/-- The same in the shadow run. -/
def aluShadow (op : Nat) (a b : W64) (c : Bool) : W64 :=
  let m := b.toNat % 128
  match op with
  | 0 => shAdd a b false
  | 1 => shAdd a b c
  | 2 => shSub a b false
  | 3 => shSub a b c
  | 4 => ~~~(~~~a ||| ~~~b)
  | 5 => ~~~(~~~a &&& ~~~b)
  | 6 => ~~~(~~~a ^^^ b)
  | 7 => ~~~(~~~a ||| ~~~(~~~b))
  | 8 => shShift .shl a m
  | 9 => shShift .shr a m
  | 10 => shShift .sar a m
  | 11 => shShift .rol a (m % 64)
  | 12 => shShift .ror a (m % 64)
  | 13 => shSub a b false
  | 14 => ~~~(~~~a ||| ~~~b)
  | 15 => shSub 0 a false
  | 16 => ~~~(~~~(~~~a))
  | 17 => shPick true false a b
  | 18 => shPick true true a b
  | 19 => shPick false false a b
  | 20 => shPick false true a b
  | 21 => BitVec.ofNat 64 (ctz a.reverse)
  | 22 => BitVec.ofNat 64 (64 - popFrom (~~~a) 64)
  | _ => (bswap64 (a.rotateLeft 32)).rotateLeft 32

/-- The word of unit 0x1 that enters the tally: the product's low half, or the quotient with the remainder xored in. -/
def mulVal (op : Nat) (a b : W64) : W64 :=
  match op with
  | 0 => a * b
  | 1 => a * b
  | 2 => a.sdiv b ^^^ a.srem b
  | 3 => a.udiv b ^^^ a.umod b
  | 4 => a * b
  | 5 => a * b
  | _ => 0

/-- The same in the shadow run: operands exchanged and the multiplier shifted in a 130-bit array; a 66-bit divider. -/
def mulShadow (op : Nat) (a b : W64) : W64 :=
  let mulS : W64 := (((a.signExtend 130 <<< 2) * b.signExtend 130 : BitVec 130)).extractLsb' 2 64
  let mulU : W64 := (((a.setWidth 130 <<< 2) * b.setWidth 130 : BitVec 130)).extractLsb' 2 64
  let x : BitVec 66 := a.setWidth 66 <<< 2
  let y : BitVec 66 := b.setWidth 66 <<< 2
  match op with
  | 0 => mulS
  | 1 => mulU
  | 2 => (x.sdiv y).setWidth 64 ^^^ (x.srem y).extractLsb' 2 64
  | 3 => (x.udiv y).setWidth 64 ^^^ (x.umod y).extractLsb' 2 64
  | 4 => mulS
  | 5 => mulU
  | _ => 0

/-- The result of a UOP of unit 0x2 in the first run (R330, R331). -/
def decUVal (op : Nat) (a b : W64) (c : Bool) : W64 :=
  match op with
  | 0 => decWord (decVal a + decVal b)
  | 1 => decWord (decVal a - decVal b)
  | 3 => decWord a.toInt
  | 4 => BitVec.ofInt 64 (decVal a)
  | 0x10 => (decStep false a b c).1
  | 0x11 => (decStep true a b c).1
  | _ => 0

/-- The same in the shadow run: operands one digit to the left in a 17-digit adder, the result one digit back. -/
def decUShadow (op : Nat) (a b : W64) (c : Bool) : W64 :=
  match op with
  | 0 => decWord ((10 * decVal a + 10 * decVal b) / 10)
  | 1 => decWord ((10 * decVal a - 10 * decVal b) / 10)
  | 3 => decWord (10 * a.toInt / 10)
  | 4 => BitVec.ofInt 64 (10 * decVal a / 10)
  | 0x10 => digWord ((10 * digVal a + 10 * digVal b + 10 * c.toNat) % 10 ^ 17 / 10)
  | 0x11 => digWord ((10 * digVal a + 10 ^ 17 - (10 * digVal b + 10 * c.toNat)) % 10 ^ 17 / 10)
  | _ => 0

/-- The address of a memory access in the shadow run: computed as ADD, within the space. -/
def shAddr (a v : W64) : W64 :=
  a.extractLsb' 60 4 ++ (shAdd (a &&& 0x0FFFFFFFFFFFFFFF) (v &&& 0x0FFFFFFFFFFFFFFF) false).extractLsb' 0 60

/-- A port request's word in the shadow run: assembled in complement and complemented back. -/
def shPort (v : W64) : W64 := ~~~(~~~v)

/-- A tag check in the shadow run works on the complemented code. -/
def shTag (t : BitVec 4) : BitVec 4 := ~~~(~~~t)

/-! The words of a run (R426). -/

/-- w2: result tag, flags D N Z V C, condition outcome, trap request, TCODE and next micro-address. -/
def tallyW2 (tag : BitVec 4) (w : Sw) (cond trap : Bool) (tcode : BitVec 4) (na : BitVec 14) : W64 :=
  tag ++ bit1 w.d ++ bit1 w.n ++ bit1 w.z ++ bit1 w.v ++ bit1 w.c ++ bit1 cond ++ bit1 trap ++ tcode ++ na ++
    (0 : BitVec 35)

/-! What an instruction word gives its runs.  `word` is the instruction, `ext` the second word of a long form. -/

def wMajor (word : W32) : Nat := (word.extractLsb' 22 6).toNat
def wD (word : W32) : BitVec 5 := word.extractLsb' 17 5
def wS (word : W32) : BitVec 5 := word.extractLsb' 12 5
def wT (word : W32) : BitVec 5 := word.extractLsb' 7 5
def wFn (word : W32) : Nat := (word.extractLsb' 0 7).toNat
def wImm (word : W32) : BitVec 12 := word.extractLsb' 0 12

/-- The results of both runs of an instruction of the ALU, the multiplier or the decimal unit (R321, R324, R326, R330,
R358); none of any other. -/
def unitRuns (word ext : W32) (x : Pilot) : Option (W64 × W64) :=
  let s := (x.reg (wS word)).val
  let t := (x.reg (wT word)).val
  let si : W64 := (wImm word).signExtend 64
  let zi : W64 := (wImm word).setWidth 64
  let li : W64 := ext.signExtend 64
  let alu : Nat → W64 → Option (W64 × W64) := fun op b => some (aluVal op s b x.sw.c, aluShadow op s b x.sw.c)
  match wMajor word with
  | 0x01 => alu (wFn word) t
  | 0x02 => alu 0 si
  | 0x03 => alu 4 zi
  | 0x04 => alu 5 zi
  | 0x05 => alu 6 zi
  | 0x06 => alu 13 si
  | 0x07 => alu ([8, 9, 10, 12].getD ((wImm word).extractLsb' 10 2).toNat 8) (zi &&& 0x7F)
  | 0x09 => some (mulVal (wFn word) s t, mulShadow (wFn word) s t)
  | 0x0A => some (decUVal (wFn word) s t x.sw.c, decUShadow (wFn word) s t x.sw.c)
  | 0x0F => alu 0 si
  | 0x32 => alu 0 li
  | 0x36 => alu 13 li
  | _ => none

/-- The address of an access in both runs; 0 of an instruction that makes none (R424, R426). -/
def addrRuns (word ext : W32) (x : Pilot) : W64 × W64 :=
  let s := (x.reg (wS word)).val
  let two : W64 → W64 × W64 := fun v => (addrAdd s v, shAddr s v)
  match wMajor word with
  | 0x0C => two ((wImm word).signExtend 64 <<< 3)
  | 0x0D => two ((wImm word).signExtend 64 <<< 3)
  | 0x0E =>
    if wFn word = 9 then (addrSub (x.reg 31).val 8, shAddr (x.reg 31).val (0 - 8))
    else if wFn word = 10 then ((x.reg 31).val, shAddr (x.reg 31).val 0)
    else two (x.reg (wT word)).val
  | 0x15 => ((wImm word).setWidth 64, (wImm word).setWidth 64)
  | 0x16 => ((wImm word).setWidth 64, (wImm word).setWidth 64)
  | 0x33 => two (ext.signExtend 64)
  | 0x34 => two (ext.signExtend 64)
  | _ => (0, 0)

/-- An instruction that stores its d operand: ST, STX, ST8 to ST32 and STL. -/
def storesD (word : W32) : Bool :=
  decide (wMajor word = 0x0D) || decide (wMajor word = 0x34) ||
    (decide (wMajor word = 0x0E) && (decide (wFn word = 1) || (decide (5 ≤ wFn word) && decide (wFn word ≤ 7))))

/-- w0 of both runs: the result, the loaded value or the store data, or the port request (R424, R426).  `x` is the pilot
before the instruction and `y` after it. -/
def valueRuns (word ext : W32) (x y : Pilot) : W64 × W64 :=
  match unitRuns word ext x with
  | some r => r
  | none =>
    let v := if storesD word then (x.reg (wD word)).val
      else if wMajor word = 0x0E ∧ wFn word = 9 then (x.reg (wS word)).val
      else if 0x10 ≤ wMajor word ∧ wMajor word ≤ 0x14 then 0
      else (y.reg (wD word)).val
    (v, if wMajor word = 0x18 ∨ wMajor word = 0x19 then shPort v else v)

/-- The words of both runs of an instruction; a custom routine has entered its own. -/
def wordsOf (word ext : W32) (x y : Pilot) : List W64 × List W64 :=
  if 0x2C ≤ wMajor word ∧ wMajor word ≤ 0x2F then ([], [])
  else
  let v := valueRuns word ext x y
  let a := addrRuns word ext x
  let tag := (y.reg (wD word)).tag
  let trap := decide (x.sw.level < y.sw.level)
  let code := if trap then (y.setOf y.sw.level.toNat).tc.code else 0
  let met := x.sw.guardMet (word.extractLsb' 28 4)
  ([v.1, a.1, tallyW2 tag y.sw met trap code 0], [v.2, a.2, tallyW2 (shTag tag) y.sw met trap code 0])

/-- The micro-ops of an instruction whose cycle counts of the manual are fixed: one for each 2 fc, but one for an access
to memory and for a divide, which wait (R321, R326, R330, R334, R338, R398).  A custom routine counts its own. -/
def opCount (word : W32) : Nat :=
  match wMajor word with
  | 0x0A => if wFn word < 3 then 3 else 12
  | 0x10 => 2
  | 0x11 => 2
  | 0x12 => if wFn word = 5 then 1 else 2
  | 0x15 => 2
  | 0x16 => 2
  | 0x2C => 0
  | 0x2D => 0
  | 0x2E => 0
  | 0x2F => 0
  | m => if 0x30 ≤ m then 2 else 1

/-- The instruction closes the window (R405, R427): it makes a port request, a take access or a store to the window space,
acts through a take register or EVEOI, closes at its restart points, waits for everything before it, or is WAIT. -/
def closes (word ext : W32) (x : Pilot) : Bool :=
  let m := wMajor word
  let n := (wImm word).toNat
  decide (m = 0x14) || decide (m = 0x18) || decide (m = 0x19) ||
    (decide (m = 0x17) && !decide (wFn word = 0) && !decide (wFn word = 5) && !decide (wFn word = 8)) ||
    (decide (m = 0x12) && (decide (wFn word = 3) || decide (wFn word = 4))) ||
    ((decide (m = 0x15) || decide (m = 0x16)) && decide (0x200 ≤ n) && decide (n < 0x300)) ||
    (decide (m = 0x0E) && decide (wFn word = 8)) ||
    (storesD word && decide ((addrRuns word ext x).1.extractLsb' 60 4 = 2))

end Sys2Proof.Machine
end

