-- ==== Sys2Proof/Machine/Issue.lean ====
section
/-! DEFINITION. Machine/Issue.lean: the issue and completion of one pilot instruction (R312, R313, R319,
R320, R327, R342, R343, R362, R411, R545, R555). -/

namespace Sys2Proof.Machine

/-- Words of the formats (R317). -/
def rrrWord (f : RRR) (major : BitVec 6) (fn : BitVec 7) : W32 := f.g ++ major ++ f.d ++ f.s ++ f.t ++ fn
def rriWord (f : RRI) (major : BitVec 6) : W32 := f.g ++ major ++ f.d ++ f.s ++ f.imm
def rifWord (f : RIF) (major : BitVec 6) : W32 := f.g ++ major ++ f.d ++ f.imm
def brfWord (f : BRF) (major : BitVec 6) : W32 := f.g ++ major ++ f.off
def lpfWord (f : LPF) : W32 := f.g ++ (0x13 : BitVec 6) ++ f.k ++ f.rc ++ f.cnt ++ f.fin
def lfWord (f : LF) (major : BitVec 6) : W32 := f.g ++ major ++ f.d ++ f.s ++ f.z

/-- The pilot is in WAIT: no event has been presented to it since, and no EXT request is set (R353, R364,
R546). -/
def inWait (s : State) (p : Nat) : Bool :=
  (pilot s p).waiting && (presented s p).isNone && !extReq s p

/-- Before a pending event is claimed or withdrawn: every pilot it has been presented to has left WAIT
(R364). -/
def settleWaits (s : State) : State :=
  (s.pilots.filter (fun e => e.2.waiting)).foldl (fun s e =>
    if (presented s e.1).isSome then updPilot s e.1 (fun x => { x with waiting := false }) else s) s

/-- The pilot can issue an instruction: it exists, is out of reset, runs firmware (role ACTIVE, or the
Harbourmaster), is not in WAIT, and a pilot's clock runs (R353, R385, R436, R508). -/
def canIssue (s : State) (p : Nat) : Bool :=
  let x := pilot s p
  pilotExists s p && !x.inReset && !inWait s p &&
    (decide (p = hmNo) || (decide (x.role = .active) && decide (s.blk.mode ≠ 4)))

/-- Code-store address `a` is sealed code under the pilot's CSEAL (R362). -/
def Pilot.sealedCode (x : Pilot) (a : BitVec 18) : Bool := decide (a.toNat < x.cseal.toNat * 4096)

/-- Remap unit `k` of cluster `c` (R557). -/
def remapOf (s : State) (c k : Nat) : Remap := Table.get {} s.dbg.remap (8 * c + k)

/-- The page a fetch from `a` is served from (R555): the lowest-numbered enabled unit that matches. -/
def remapAddr (s : State) (c : Nat) (a : BitVec 18) : BitVec 18 :=
  match (List.range 8).find? (fun k =>
      (remapOf s c k).v && decide ((remapOf s c k).srcpg = a.extractLsb' 8 10)) with
  | some k => (remapOf s c k).dstpg ++ a.extractLsb' 0 8
  | none => a

/-- The fetch of one instruction word at `a` fails: an open-world fetch from sealed code (R362), or a remap
across sealedness (R555). -/
def fetchFails (s : State) (p : Nat) (a : BitVec 18) : Bool × Bool :=
  let x := pilot s p
  let open_ := !x.sw.world && x.sealedCode a
  let b := if p = hmNo then a else remapAddr s (clusterOf p) a
  (open_, decide (x.sealedCode a ≠ x.sealedCode b))

/-- The fetch of an instruction of `len` words at the PC fails, and whether by a remap. -/
def fetchBad (s : State) (p len : Nat) : Bool × Bool :=
  let a := (pilot s p).pc
  let r := fetchFails s p a
  if len = 2 then
    let q := fetchFails s p (a + 4)
    (r.1 || q.1, r.2 || q.2)
  else r

/-- The comparator worlds of BPCk and WPCk: SW in the sealed world, OW in the open world (R551). -/
def cmpWorld (c : W64) (world : Bool) : Bool :=
  c.getLsbD 63 && (if world then c.getLsbD 62 else c.getLsbD 61)

/-- The code breakpoint that matches the PC (R545, R551). -/
def breakpointAt (x : Pilot) : Option Nat :=
  (List.range 4).find? (fun k =>
    let c := Table.get 0 x.dbg.bpc k
    cmpWorld c x.sw.world && decide (c.extractLsb' 2 16 = x.pc.extractLsb' 2 16))

/-- A breakpoint or a watchpoint before the effect of the instruction at `e.addr`: the state, and whether the
instruction stops.  Where a deliverable event of a level above DMON meets it, the event goes first and the
debug event is raised again when the instruction issues again (R549). -/
def instrDebug (s : State) (p : Nat) (e : DbgEvent) : State × Bool :=
  let x := pilot s p
  if x.sw.mask < x.dmon ∧ bankHolds s p x.cur = false ∧ higherEvent s p = true then
    (updPilot s p (fun x => { x with pc := e.addr }), true)
  else debugEvent s p e e.addr

/-- Loop `k` of the bank is active. -/
def Bank.loopOn (b : Bank) (k : Nat) : Bool := b.act.getLsbD k

/-- The highest active loop of a bank, plus one; 0 with none. -/
def Bank.loopTop (b : Bank) : Nat :=
  if b.loopOn 3 then 4 else if b.loopOn 2 then 3 else if b.loopOn 1 then 2 else if b.loopOn 0 then 1 else 0

/-- The address is LEk of an active loop of the current bank (R343). -/
def atLoopEnd (x : Pilot) (a : BitVec 18) : Bool :=
  (List.range 4).any (fun k => x.bankCur.loopOn k && decide ((x.bankCur.loop k).le = a))

/-- Clear ACT[k] of a bank. -/
def Bank.loopOff (b : Bank) (k : Nat) : Bank :=
  { b with act := b.act &&& ~~~((1 : BitVec 4) <<< k), dirty := b.dirty ||| 8 }

/-- Loop-end evaluation from loop `k - 1` downward (R342): the bank and, when a loop branches back, its
start. -/
def loopEnd (a : BitVec 18) (lvl : BitVec 3) : Nat → Bank → Bank × Option (BitVec 18)
  | 0, b => (b, none)
  | k + 1, b =>
    let l := b.loop k
    if b.loopOn k && decide (l.le = a) && decide (l.lvl = lvl) then
      let lc := l.lc - 1
      let b := b.setLoop k { l with lc := lc }
      if lc ≠ 0 then (b, some l.ls) else loopEnd a lvl k (b.loopOff k)
    else (b, none)

/-- The pilot takes its cluster's selected source at a boundary (R411). -/
def srcSwitch (s : State) (p : Nat) : State :=
  if p = hmNo then s else updPilot s p (fun x => { x with src := (csrcOf s (clusterOf p)).sel.toNat })

/-- An instruction at `pc` completes (R327, R342, R403, R545): multiplies count down, loops are evaluated,
and the boundary is reached; `t0` is SW.T before the instruction and `bk` says that it was BKPT.  Of BKPT and STEP the lower CAUSE
stands (R549). -/
def complete (s : State) (p : Nat) (pc : BitVec 18) (t0 bk : Bool) : State :=
  let x := (pilot s p).tickMul
  let x := if atLoopEnd x pc then
      let r := loopEnd pc x.sw.level x.bankCur.loopTop x.bankCur
      { x.setCur r.1 with pc := r.2.getD x.pc }
    else x
  let s := srcSwitch (setPilot s p x) p
  if bk || (t0 && x.sw.t) then
    let (s, taken) := debugEvent s p ⟨if bk then 1 else 4, 0, pc, false, false⟩ x.pc
    if taken then s else watchdogBoundary s p
  else watchdogBoundary s p

/-- Everything an instruction's issue checks before its effect. -/
structure Issue where
  p : Nat
  g : BitVec 4
  len : Nat
  word : W32
  rsv : Bool
  priv : Bool
  ctl : Bool
  ext : W32 := 0
deriving DecidableEq, Repr

/-- The trap that ends an instruction: pilots at a trap are at a boundary (R411). -/
def trapAt (s : State) (p : Nat) (code : BitVec 4) (tv : W64) (pc : BitVec 18) (slot : Bool) : State :=
  srcSwitch (takeTrap s p code tv pc slot) p

/-- A trap raised inside an instruction's shipped microcode: whether it arose in a delay slot, and so
SSWn.SLOT, is a free value, since no rule gives that microcode (log 21). -/
def bodyTrap (s : State) (p : Nat) (code : BitVec 4) (tv : W64) (pc : BitVec 18) : State :=
  let (f, s) := takeFree s
  trapAt s p code tv pc (f.getLsbD 0)

/-- Run one instruction of pilot `i.p` (R312, R319, R320, R343): the body gets the instruction's own address
and the state with the PC already past the instruction; a SLOT mark that an RTE passed ends with it (R396). -/
def runInstr (i : Issue) (s : State) (body : BitVec 18 → State → PRes) : State :=
  let x := pilot s i.p
  let pc := x.pc
  let word : W64 := i.word.setWidth 64
  let fin : State → State := fun s =>
    if x.dbg.exempt then updPilot s i.p (fun y => { y with dbg := { y.dbg with exempt := false } }) else s
  if i.rsv then fin (trapAt s i.p 1 word pc false)
  else if i.priv && x.sw.guardMet i.g && !x.sw.priv then fin (trapAt s i.p 2 word pc false)
  else if i.ctl && atLoopEnd x pc then fin (trapAt s i.p 3 word pc false)
  else
    let s1 := setPilot s i.p { x with pc := pc + BitVec.ofNat 18 (4 * i.len), waiting := false, slotMark := false }
    if !x.sw.guardMet i.g then fin (complete s1 i.p pc x.sw.t false)
    else
      match body pc s1 with
      | .done s2 => fin (complete s2 i.p pc x.sw.t false)
      | .brk s2 => fin (complete s2 i.p pc x.sw.t true)
      | .trap code tv s2 => fin (bodyTrap s2 i.p code tv pc)
      | .stop s2 => fin (srcSwitch s2 i.p)

/-- The window of pilot `p` after an instruction of the word `word` and, in a long form, `ext`, which began in `s` and left
`u` by its own effect (R426 to R432): its runs enter the tallies; a window that is full or that the instruction closes
is compared, and commits, or its mismatch discards all it did and begins the retry. -/
def ran (word ext : W32) (s : State) (p : Nat) (u : State) : State :=
  if (pilot u p).inReset then u
  else
    let x := pilot s p
    let r := wordsOf word ext x (pilot u p)
    let u := noteOp u p (some x.ctx) r.1 r.2 (opCount word)
    let w := (pilot u p).win
    let due := w.inner || closes word ext x || decide (16 ≤ w.ops)
    let u := updPilot u p (fun x => { x with win := { x.win with inner := false } })
    if x.frozen then u
    else if w.bad || (due && (x.armed || !w.agrees)) then mismatch s p
    else if due then commitWin u p
    else u

/-- While a window is retried, an instruction whose effect leaves the pilot waits for its compare (R430, R434). -/
def heldByRetry (i : Issue) (s : State) : Bool :=
  (pilot s i.p).frozen && closes i.word i.ext (pilot s i.p)

/-- Issue one instruction of a pilot.  Where the pilot cannot issue, nothing happens.  The fetch is checked
(R362, R555), then the code breakpoints (R545, R548), then the instruction runs. -/
def issueRaw (i : Issue) (s : State) (body : BitVec 18 → State → PRes) : State :=
  let x := pilot s i.p
  let (f, r) := fetchBad s i.p i.len
  if f || r then
    let s := if r then { s with dbg := { s.dbg with rmref := true } } else s
    trapAt s i.p 6 (x.pc.setWidth 64) x.pc false
  else
    match (if x.dbg.exempt then none else breakpointAt x) with
    | some k =>
      let (s, stops) := instrDebug s i.p ⟨2, k, x.pc, false, false⟩
      if stops then s else runInstr i s body
    | none => runInstr i s body

/-- An instruction of a pilot that can issue runs in its check window. -/
def issue (i : Issue) (s : State) (body : BitVec 18 → State → PRes) : State :=
  if !canIssue s i.p || heldByRetry i s then s else ran i.word i.ext s i.p (issueRaw i s body)

end Sys2Proof.Machine
end

