-- ==== Sys2Proof/Machine/PilotAlu.lean ====
section
/-! DEFINITION. Machine/PilotAlu.lean: the integer, logic and immediate instructions (R321 to R325), and the
moves and tag instructions (R332, R333). -/

namespace Sys2Proof.Machine

/-- A register field names a D register (R304). -/
def isD (i : BitVec 5) : Bool := decide (i < 16)
/-- A register field names an A register (R304). -/
def isA (i : BitVec 5) : Bool := !isD i

/-- Issue an RRR instruction. -/
def rrr (f : RRR) (major : BitVec 6) (fn : BitVec 7) (ok priv : Bool) (s : State)
    (body : Pilot → BitVec 18 → State → PRes) : State :=
  issue ⟨f.p, f.g, 1, rrrWord f major fn, !ok, priv, false, 0⟩ s (fun pc s => body (pilot s f.p) pc s)

/-- Issue an RRI instruction. -/
def rri (f : RRI) (major : BitVec 6) (ok : Bool) (s : State)
    (body : Pilot → BitVec 18 → State → PRes) : State :=
  issue ⟨f.p, f.g, 1, rriWord f major, !ok, false, false, 0⟩ s (fun pc s => body (pilot s f.p) pc s)

/-- Issue a long-form instruction: its unused bits must be 0 (R317, R319). -/
def lform (f : LF) (major : BitVec 6) (ok : Bool) (s : State)
    (body : Pilot → BitVec 18 → State → PRes) : State :=
  issue ⟨f.p, f.g, 2, lfWord f major, !(ok && decide (f.z = 0)), false, false, f.imm⟩ s
    (fun pc s => body (pilot s f.p) pc s)

/-- Write a result register and the flags. -/
def wrRes (s : State) (p : Nat) (d : BitVec 5) (w : TWord) (sw : Sw) : PRes :=
  .done (updPilot s p (fun x => { x.wr d w with sw := sw }))

/-- Write flags only. -/
def wrFlags (s : State) (p : Nat) (sw : Sw) : PRes := .done (updPilot s p (fun x => { x with sw := sw }))

/-- An operation on one or two operands that must pass tag tests, with a result register and flags. -/
def binary (x : Pilot) (s : State) (p : Nat) (d : BitVec 5) (a b : TWord) (ta tb : BitVec 4 → Bool)
    (r : TWord × Sw) : PRes :=
  match tagFail x.sw.world [(a, 0, ta), (b, 1, tb)] with
  | some tv => .trap 4 tv s
  | none => wrRes s p d r.1 r.2

/-- The same with one operand. -/
def unary (x : Pilot) (s : State) (p : Nat) (d : BitVec 5) (a : TWord) (ta : BitVec 4 → Bool)
    (r : TWord × Sw) : PRes :=
  match tagFail x.sw.world [(a, 0, ta)] with
  | some tv => .trap 4 tv s
  | none => wrRes s p d r.1 r.2

/-- Flags of a result that the R310 row writes or leaves. -/
def Sw.opt (w : Sw) : Option Res → Sw
  | some r => w.nzvc r
  | none => w

/-- ADD, ADDI and ADDL (R310). -/
def addBody (x : Pilot) (s : State) (p : Nat) (d : BitVec 5) (a b : TWord) : PRes :=
  match tagFail x.sw.world [(a, 0, anyTag), (b, 1, anyTag)] with
  | some tv => .trap 4 tv s
  | none =>
    match addRule a b with
    | none => .trap 4 (pairTv a b addSrc) s
    | some (w, r) => wrRes s p d w (x.sw.opt r)

/-- SUB (R310). -/
def subBody (x : Pilot) (s : State) (p : Nat) (d : BitVec 5) (a b : TWord) : PRes :=
  match tagFail x.sw.world [(a, 0, anyTag), (b, 1, anyTag)] with
  | some tv => .trap 4 tv s
  | none =>
    match subRule a b with
    | none => .trap 4 (pairTv a b addSrc) s
    | some (w, r) => wrRes s p d w (x.sw.opt r)

/-- CMP (R310). -/
def cmpBody (x : Pilot) (s : State) (p : Nat) (a b : TWord) : PRes :=
  match tagFail x.sw.world [(a, 0, anyTag), (b, 1, anyTag)] with
  | some tv => .trap 4 tv s
  | none =>
    match cmpRule a b with
    | none => .trap 4 (pairTv a b cmpSrc) s
    | some r => wrFlags s p (x.sw.nzvc r)

/-- A logic operation with its result tag and flags: V is 0 and C stays (R310). -/
def logicOut (x : Pilot) (v : W64) (tag : BitVec 4) : TWord × Sw :=
  (⟨v, tag⟩, x.sw.nzvc (logicRes v x.sw.c))

/-- AND, OR, XOR, ANDN on registers. -/
def logicBody (op : W64 → W64 → W64) (x : Pilot) (s : State) (p : Nat) (d : BitVec 5) (a b : TWord) : PRes :=
  binary x s p d a b isIntBits isIntBits (logicOut x (op a.val b.val) (logicTag a.tag b.tag))

/-- A shift or rotate: the value keeps its tag (R321, R323). -/
def shiftBody (op : Shift) (x : Pilot) (s : State) (p : Nat) (d : BitVec 5) (a b : TWord) : PRes :=
  let k := match op with
    | .rol => b.val.toNat % 64
    | .ror => b.val.toNat % 64
    | _ => b.val.toNat % 128
  let r := shiftRes op a.val k x.sw.c
  binary x s p d a b isIntBits isIntBits (⟨r.r, a.tag⟩, x.sw.nzvc r)

/-- An INT result of INT operands with N, Z, V and C. -/
def intOut (x : Pilot) (r : Res) : TWord × Sw := (intW r.r, x.sw.nzvc r)

/-- A minimum or maximum: N and Z of the result (R321). -/
def minmaxBody (lt : W64 → W64 → Bool) (x : Pilot) (s : State) (p : Nat) (d : BitVec 5) (a b : TWord) : PRes :=
  let v := if lt a.val b.val then a.val else b.val
  binary x s p d a b isInt isInt (intW v, x.sw.nz v)

def execAdd (f : RRR) (s : State) : Out :=
  .next (rrr f 1 0 true false s (fun x _ s => addBody x s f.p f.d (x.reg f.s) (x.reg f.t)))

def execAdc (f : RRR) (s : State) : Out :=
  .next (rrr f 1 1 (isD f.d && isD f.s && isD f.t) false s (fun x _ s =>
    binary x s f.p f.d (x.reg f.s) (x.reg f.t) isInt isInt
      (intOut x (addRes (x.reg f.s).val (x.reg f.t).val x.sw.c))))

def execSub (f : RRR) (s : State) : Out :=
  .next (rrr f 1 2 true false s (fun x _ s => subBody x s f.p f.d (x.reg f.s) (x.reg f.t)))

def execSbb (f : RRR) (s : State) : Out :=
  .next (rrr f 1 3 (isD f.d && isD f.s && isD f.t) false s (fun x _ s =>
    binary x s f.p f.d (x.reg f.s) (x.reg f.t) isInt isInt
      (intOut x (subRes (x.reg f.s).val (x.reg f.t).val x.sw.c))))

def execAnd (f : RRR) (s : State) : Out :=
  .next (rrr f 1 4 true false s (fun x _ s => logicBody (· &&& ·) x s f.p f.d (x.reg f.s) (x.reg f.t)))

def execOr (f : RRR) (s : State) : Out :=
  .next (rrr f 1 5 true false s (fun x _ s => logicBody (· ||| ·) x s f.p f.d (x.reg f.s) (x.reg f.t)))

def execXor (f : RRR) (s : State) : Out :=
  .next (rrr f 1 6 true false s (fun x _ s => logicBody (· ^^^ ·) x s f.p f.d (x.reg f.s) (x.reg f.t)))

def execAndn (f : RRR) (s : State) : Out :=
  .next (rrr f 1 7 true false s (fun x _ s =>
    logicBody (fun a b => a &&& ~~~b) x s f.p f.d (x.reg f.s) (x.reg f.t)))

def execShl (f : RRR) (s : State) : Out :=
  .next (rrr f 1 8 true false s (fun x _ s => shiftBody .shl x s f.p f.d (x.reg f.s) (x.reg f.t)))

def execShr (f : RRR) (s : State) : Out :=
  .next (rrr f 1 9 true false s (fun x _ s => shiftBody .shr x s f.p f.d (x.reg f.s) (x.reg f.t)))

def execSar (f : RRR) (s : State) : Out :=
  .next (rrr f 1 10 true false s (fun x _ s => shiftBody .sar x s f.p f.d (x.reg f.s) (x.reg f.t)))

def execRol (f : RRR) (s : State) : Out :=
  .next (rrr f 1 11 true false s (fun x _ s => shiftBody .rol x s f.p f.d (x.reg f.s) (x.reg f.t)))

def execRor (f : RRR) (s : State) : Out :=
  .next (rrr f 1 12 true false s (fun x _ s => shiftBody .ror x s f.p f.d (x.reg f.s) (x.reg f.t)))

def execCmp (f : RRR) (s : State) : Out :=
  .next (rrr f 1 13 (decide (f.d = 0)) false s (fun x _ s => cmpBody x s f.p (x.reg f.s) (x.reg f.t)))

def execTst (f : RRR) (s : State) : Out :=
  .next (rrr f 1 14 (decide (f.d = 0)) false s (fun x _ s =>
    match tagFail x.sw.world [(x.reg f.s, 0, isIntBits), (x.reg f.t, 1, isIntBits)] with
    | some tv => .trap 4 tv s
    | none => wrFlags s f.p (logicOut x ((x.reg f.s).val &&& (x.reg f.t).val) 1).2))

def execNeg (f : RRR) (s : State) : Out :=
  .next (rrr f 1 15 (isD f.d && isD f.s && decide (f.t = 0)) false s (fun x _ s =>
    unary x s f.p f.d (x.reg f.s) isInt (intOut x (subRes 0 (x.reg f.s).val false))))

def execNot (f : RRR) (s : State) : Out :=
  .next (rrr f 1 16 (decide (f.t = 0)) false s (fun x _ s =>
    unary x s f.p f.d (x.reg f.s) isIntBits (logicOut x (~~~(x.reg f.s).val) (x.reg f.s).tag)))

def execMin (f : RRR) (s : State) : Out :=
  .next (rrr f 1 17 (isD f.d && isD f.s && isD f.t) false s (fun x _ s =>
    minmaxBody (fun a b => a.slt b) x s f.p f.d (x.reg f.s) (x.reg f.t)))

def execMax (f : RRR) (s : State) : Out :=
  .next (rrr f 1 18 (isD f.d && isD f.s && isD f.t) false s (fun x _ s =>
    minmaxBody (fun a b => b.slt a) x s f.p f.d (x.reg f.s) (x.reg f.t)))

def execMinu (f : RRR) (s : State) : Out :=
  .next (rrr f 1 19 (isD f.d && isD f.s && isD f.t) false s (fun x _ s =>
    minmaxBody (fun a b => a.ult b) x s f.p f.d (x.reg f.s) (x.reg f.t)))

def execMaxu (f : RRR) (s : State) : Out :=
  .next (rrr f 1 20 (isD f.d && isD f.s && isD f.t) false s (fun x _ s =>
    minmaxBody (fun a b => b.ult a) x s f.p f.d (x.reg f.s) (x.reg f.t)))

def execClz (f : RRR) (s : State) : Out :=
  .next (rrr f 1 21 (isD f.d && isD f.s && decide (f.t = 0)) false s (fun x _ s =>
    let v := BitVec.ofNat 64 (clzFrom (x.reg f.s).val 64)
    unary x s f.p f.d (x.reg f.s) isIntBits (intW v, x.sw.nz v)))

def execPopc (f : RRR) (s : State) : Out :=
  .next (rrr f 1 22 (isD f.d && isD f.s && decide (f.t = 0)) false s (fun x _ s =>
    let v := BitVec.ofNat 64 (popFrom (x.reg f.s).val 64)
    unary x s f.p f.d (x.reg f.s) isIntBits (intW v, x.sw.nz v)))

/-- BSWAP keeps the tag of s (R321): INT or BITS alone may be byte-swapped, since no other instruction may
mint or forge a tag (R309, log 22). -/
def execBswap (f : RRR) (s : State) : Out :=
  .next (rrr f 1 23 (decide (f.t = 0)) false s (fun x _ s =>
    let v := bswap64 (x.reg f.s).val
    unary x s f.p f.d (x.reg f.s) isIntBits (⟨v, (x.reg f.s).tag⟩, x.sw.nz v)))

/-! Immediate forms (R324). -/

def execAddi (f : RRI) (s : State) : Out :=
  .next (rri f 2 true s (fun x _ s => addBody x s f.p f.d (x.reg f.s) (intW (f.imm.signExtend 64))))

def execAndi (f : RRI) (s : State) : Out :=
  .next (rri f 3 true s (fun x _ s =>
    logicBody (· &&& ·) x s f.p f.d (x.reg f.s) (intW (f.imm.setWidth 64))))

def execOri (f : RRI) (s : State) : Out :=
  .next (rri f 4 true s (fun x _ s =>
    logicBody (· ||| ·) x s f.p f.d (x.reg f.s) (intW (f.imm.setWidth 64))))

def execXori (f : RRI) (s : State) : Out :=
  .next (rri f 5 true s (fun x _ s =>
    logicBody (· ^^^ ·) x s f.p f.d (x.reg f.s) (intW (f.imm.setWidth 64))))

def execCmpi (f : RRI) (s : State) : Out :=
  .next (rri f 6 (decide (f.d = 0) && isD f.s) s (fun x _ s =>
    match tagFail x.sw.world [(x.reg f.s, 0, isInt)] with
    | some tv => .trap 4 tv s
    | none => wrFlags s f.p (x.sw.nzvc (subRes (x.reg f.s).val (f.imm.signExtend 64) false))))

/-- SHI (R324): IMM12 [11:10] selects the shift, [9:7] must be 0, [6:0] is the count. -/
def shiOp (k : BitVec 2) : Shift :=
  if k = 0 then .shl else if k = 1 then .shr else if k = 2 then .sar else .ror

def execShi (f : RRI) (s : State) : Out :=
  .next (rri f 7 (decide (f.imm.extractLsb' 7 3 = 0)) s (fun x _ s =>
    shiftBody (shiOp (f.imm.extractLsb' 10 2)) x s f.p f.d (x.reg f.s)
      (intW ((f.imm.extractLsb' 0 7).setWidth 64))))

def execMovi (f : RIF) (s : State) : Out :=
  .next (issue ⟨f.p, f.g, 1, rifWord f 8, false, false, false, 0⟩ s (fun _ s =>
    .done (updPilot s f.p (fun x => x.wrInt f.d (f.imm.signExtend 64)))))

/-! Long immediate forms (R358). -/

def execMovl (f : LF) (s : State) : Out :=
  .next (lform f 0x30 (decide (f.s = 0)) s (fun _ _ s =>
    .done (updPilot s f.p (fun x => x.wrInt f.d (f.imm.signExtend 64)))))

def execMovh (f : LF) (s : State) : Out :=
  .next (lform f 0x31 (isD f.d && decide (f.s = 0)) s (fun x _ s =>
    match tagFail x.sw.world [(x.reg f.d, 2, isInt)] with
    | some tv => .trap 4 tv s
    | none => .done (updPilot s f.p (fun x =>
        x.wrInt f.d (f.imm ++ (x.reg f.d).val.extractLsb' 0 32)))))

def execAddl (f : LF) (s : State) : Out :=
  .next (lform f 0x32 true s (fun x _ s =>
    addBody x s f.p f.d (x.reg f.s) (intW (f.imm.signExtend 64))))

def execCmpl (f : LF) (s : State) : Out :=
  .next (lform f 0x36 (decide (f.d = 0) && isD f.s) s (fun x _ s =>
    match tagFail x.sw.world [(x.reg f.s, 0, isInt)] with
    | some tv => .trap 4 tv s
    | none => wrFlags s f.p (x.sw.nzvc (subRes (x.reg f.s).val (f.imm.signExtend 64) false))))

/-! Moves and tags (R332, R333). -/

/-- A single DEC word is well formed (R329): digits 0 to 9 and a sign nibble 0xA to 0xF. -/
def decOk (v : W64) : Bool :=
  match nibbles 16 v with
  | sgn :: ds => decide (10 ≤ sgn) && ds.all (fun d => decide (d ≤ 9))
  | [] => false

/-- RETAG permits the change from tag `a` to tag `b` in this world (R333). -/
def retagOk (a b : BitVec 4) (world : Bool) : Bool :=
  ((decide (a = 1) || decide (a = 2) || decide (a = 3) || decide (a = 7)) &&
      (decide (b = 1) || decide (b = 2) || decide (b = 7))) ||
  ((decide (a = 1) || decide (a = 2)) && decide (b = 3)) ||
  (decide (a = 1) && decide (b = 4)) ||
  ((decide (a = 4) || decide (a = 5) || decide (a = 6)) && decide (b = 1)) ||
  (world && decide (a = 1) && (decide (b = 5) || decide (b = 8) || decide (b = 9) || decide (b = 15))) ||
  (world && (decide (a = 9) || decide (a = 8) || decide (a = 15)) && decide (b = 1))

/-- MOV moves value and tag; the operand must be readable (R308, R332). -/
def execMov (f : RRR) (s : State) : Out :=
  .next (rrr f 0xB 0 (decide (f.t = 0)) false s (fun x _ s =>
    unary x s f.p f.d (x.reg f.s) anyTag (x.reg f.s, x.sw)))

/-- A tag code in the t field: 0x0 and 0xA to 0xE, and codes above 0xF, trap RSV (R333). -/
def retagField (t : BitVec 5) : Bool :=
  decide (t ≠ 0) && decide (t < 16) && !(decide (10 ≤ t.toNat) && decide (t.toNat ≤ 14))

def execRetag (f : RRR) (s : State) : Out :=
  .next (rrr f 0xB 1 (retagField f.t) false s (fun x _ s =>
    let b : BitVec 4 := f.t.setWidth 4
    let a := x.reg f.s
    match tagFail x.sw.world [(a, 0, fun t => retagOk t b x.sw.world)] with
    | some tv => .trap 4 tv s
    | none =>
      if b = 3 ∧ decOk a.val = false then .trap 11 a.val s
      else wrRes s f.p f.d ⟨a.val, b⟩ x.sw))

def execClrt (f : RRR) (s : State) : Out :=
  .next (rrr f 0xB 2 (decide (f.s = 0) && decide (f.t = 0)) false s (fun _ _ s =>
    .done (updPilot s f.p (fun x => x.wr f.d emptyW))))

/-- TAGOF traps only on SEAL in the open world (R308, R332). -/
def execTagof (f : RRR) (s : State) : Out :=
  .next (rrr f 0xB 3 (isD f.d && decide (f.t = 0)) false s (fun x _ s =>
    let a := x.reg f.s
    if a.tag = 15 ∧ x.sw.world = false then .trap 4 (tagTv a.tag 0) s
    else .done (updPilot s f.p (fun x => x.wrInt f.d (a.tag.setWidth 64)))))

end Sys2Proof.Machine
end

