-- ==== Sys2Proof/Machine/Watch.lean ====
section
/-! DEFINITION. Machine/Watch.lean: watchpoints on the memory accesses of pilots (R545, R546, R551 to R553). -/

namespace Sys2Proof.Machine

/-- A memory access of a pilot, as a watchpoint sees it: address, bytes, store or load, and the value. -/
structure Access where
  a : W64
  n : Nat
  store : Bool
  v : W64
deriving DecidableEq, Repr

/-- Watchpoint `k` matches an access (R551, R552). -/
def watchMatch (x : Pilot) (c : Access) (k : Nat) : Bool :=
  let w := Table.get 0 x.dbg.wpc k
  let size := 3 + Nat.min 9 (w.extractLsb' 0 4).toNat
  let base := ((Table.get 0 x.dbg.wpa k) >>> size <<< size).toNat
  cmpWorld w x.sw.world && w.getLsbD (if c.store then 59 else 60) &&
    decide (c.a.toNat < base + 2 ^ size) && decide (base < c.a.toNat + c.n)

/-- Watchpoint `k` emits a packet instead of trapping. -/
def watchTrace (x : Pilot) (k : Nat) : Bool := (Table.get 0 x.dbg.wpc k).getLsbD 58

/-- The WATCH packets of an access that is made (R553). -/
def watchPackets (s : State) (p : Nat) (c : Access) : State :=
  let x := pilot s p
  (List.range 4).foldl (fun s k =>
    if watchMatch x c k && watchTrace x k then notePacket s p 4 (BitVec.ofNat 5 k) c.v else s) s

/-- The watchpoints before an access of the instruction at `pc` is made, after its ALN and MEM checks (R545,
R546): the state, and whether the access is not made. -/
def watch (s : State) (p : Nat) (pc : BitVec 18) (c : Access) : State × Bool :=
  let x := pilot s p
  if x.dbg.exempt then (s, false)
  else
    match (List.range 4).find? (fun k => watchMatch x c k && !watchTrace x k) with
    | none => (watchPackets s p c, false)
    | some k =>
      let s := if x.sw.mask < x.dmon then updPilot s p (fun x => { x with dbg := { x.dbg with dwaddr := c.a } }) else s
      let (s, stops) := instrDebug s p ⟨3, k, pc, false, false⟩
      if stops then (s, true) else (watchPackets s p c, false)

/-- The watchpoints of a run of accesses of one instruction, all before the first is made. -/
def watchAll (p : Nat) (pc : BitVec 18) : State → List Access → State × Option Access
  | s, [] => (s, none)
  | s, c :: cs =>
    match watch s p pc c with
    | (_, true) => (s, some c)
    | (s, false) => watchAll p pc s cs

end Sys2Proof.Machine
end

