-- ==== Sys2Proof/Machine/ManifestCore.lean ====
section
/-! DEFINITION. Machine/ManifestCore.lean: what the Manifest instructions share: the handle checks of R115,
allocation (R90, R129), the state table of R123, field access (R131), the scan engine (R132) and the
Gleaner (R174 to R177). -/

namespace Sys2Proof.Machine

/-- Issue a Manifest instruction (R127, R349): group 0x18, PRIV at user privilege. -/
def mani (f : RRR) (fn : BitVec 7) (ok : Bool) (s : State) (body : Pilot → BitVec 18 → State → PRes) : State :=
  rrr f 0x18 fn ok true s body

/-- A result code (R128): Dd := code as INT, Z says whether it is OK. -/
def mcode (s : State) (f : RRR) (code : Nat) : PRes :=
  .done (updPilot s f.p (fun x =>
    { x.wrInt f.d (BitVec.ofNat 64 code) with sw := { x.sw with z := decide (code = 0) } }))

/-- A result value with Z set. -/
def mval (s : State) (f : RRR) (v : TWord) : PRes :=
  .done (updPilot s f.p (fun x => { x.wr f.d v with sw := { x.sw with z := true } }))

/-- Only Z tells the result of an instruction without a destination register (log 23). -/
def mz (s : State) (p : Nat) (ok : Bool) : PRes :=
  .done (updPilot s p (fun x => { x with sw := { x.sw with z := ok } }))

/-- INDEX and GEN of a handle (R113). -/
def hIndex (h : W64) : Nat := (h.extractLsb' 29 19).toNat
def hGen (h : W64) : BitVec 29 := h.extractLsb' 0 29

/-- The checks of R115 after the tag: 4 FOREIGN, 1 STALE, or the entry's index. -/
def handleCheck (s : State) (h : W64) : Nat ⊕ Nat :=
  if h.extractLsb' 48 16 ≠ s.hbr.num ∨ s.blk.build.entries ≤ hIndex h then .inl 4
  else if hGen h ≠ (own s (hIndex h)).gen then .inl 1
  else .inr (hIndex h)

/-- The first FREE own entry at or after `i`, searching `n` entries around the partition. -/
def findFree (s : State) : Nat → Nat → Option Nat
  | 0, _ => none
  | n + 1, i => if (own s i).st = 0 then some i else findFree s n ((i + 1) % s.blk.build.entries)

/-- The FREE entry that an allocation takes: no rule says which, so the search starts at a free value
(log 24). -/
def pickFree (s : State) : Option Nat × State :=
  let (f, s) := takeFree s
  (findFree s s.blk.build.entries (f.toNat % s.blk.build.entries), s)

/-- A general entry can be taken above the watermark, or with `below` at all (R90, R129). -/
def generalOpen (s : State) (below : Bool) : Bool :=
  if below then decide (0 < gfree s) else decide (s.wm.toNat < gfree s)

/-- The pool that serves an allocation (R90, R129), by instruction: 0 MALLOC, 1 MALLOC.G, 2 MALLOC.S,
3 MALLOC.V; none where no pool can. -/
def poolFor (s : State) (kind b : Nat) : Option (BitVec 2) :=
  if kind = 0 ∧ reserveOpen s b = true then some 1
  else if kind = 2 ∧ poolUse s 2 (fun _ => true) < s.sres.toNat then some 2
  else if generalOpen s (decide (2 ≤ kind)) then some 0
  else none

/-- The entry that MALLOC fills (R123, R129): a FREE entry keeps its GEN. -/
def Own.alloc (e : Own) (c : Caller) (pool : BitVec 2) (tr : Bool) (ring sslot berth xtag : BitVec 16)
    (prog : BitVec 60) (wait : BitVec 16) : Own :=
  { gen := e.gen, st := 1, ring := ring, xtag := xtag, berth := berth, sslot := sslot, pool := pool, tr := tr,
    prog := prog, curw := prog, pos := BitVec.allOnes 64, wait := wait, moor := ({} : Moor).take c }

/-- BAD_FIELD, and the other codes of R50 that a command word or its program can end with. -/
def stBadField : BitVec 8 := 0x15
def stBadAddr : BitVec 8 := 0x14

/-- The exchange has ended before any word (R82): its STATUS stands, and no command word is fetched. -/
def endAtStart (s : State) (i : Nat) (st : BitVec 8) : State :=
  updXctx (updOwn s i (fun e => { e with status := st })) i (fun x => { ({} : Xc) with ended := true, seq := x.seq, waitT := x.waitT })

/-- MALLOC, MALLOC.G and MALLOC.S (R90, R93, R129): an entry of a pool is filled and moored, and, when it is
the ring's next one, consumed; the ADMITTED record is sent.  Where admission is stopped nothing is taken (R73, R92,
R148): the result is POOL (DESIGN CHOICE, log 67).  A caller that holds 8 moorings traps LCK (R137). -/
def mallocRing (kind : Nat) (f : RRR) (x : Pilot) (s : State) : PRes :=
  let d := (x.reg f.s).val
  let prog := (x.reg f.t).val
  match tagFail x.sw.world [(x.reg f.s, 0, isInt), (x.reg f.t, 1, isAddr)] with
  | some tv => .trap 4 tv s
  | none =>
    let ringNo := (d.extractLsb' 48 16).toNat
    let slot : BitVec 16 := d.extractLsb' 32 16
    let b : BitVec 16 := d.extractLsb' 16 16
    if !admits s ringNo || decide (s.hbr.role = 1) then mcode s f 3
    else if 8 ≤ heldCount s (callerOf s f.p) then .trap 7 d s
    else match poolFor s kind b.toNat with
    | none => mcode s f 3
    | some pool =>
      match pickFree s with
      | (none, s) => mcode s f 3
      | (some i, s) =>
        let r := ring s ringNo
        let tr := isAdoption s ringNo
        let e := (own s i).alloc (callerOf s f.p) pool tr (BitVec.ofNat 16 (if tr then ringNo - (halfRings s) else ringNo))
          slot b (d.extractLsb' 0 16) (prog.extractLsb' 4 60) (admWait s r slot)
        let s := setXctx (setOwn s i e) i { Xc.fresh e.prog with seq := s.admSeq, waitT := admTicks s r slot }
        let s := { s with admSeq := s.admSeq + 1 }
        let s := mirrorPoint s i 1 0
        let s := if r.next = slot ∧ r.next ≠ r.tail then
            dispose (updRing s ringNo (fun r => { r with outst := r.outst + 1, poolw := false })) ringNo slot.toNat
              (.own i e.gen) (!(own s i).ackp)
          else s
        let s := if kind = 1 then endAtStart s i stBadField
          else if prog.extractLsb' 0 4 ≠ 0 then endAtStart s i stBadAddr else fetchWord s i
        mval s f ⟨handleOf s i, 6⟩

/-- MALLOC.V (R117, R129): a served entry from the general pool.  It sends no record; DESIGN CHOICE (log 67): its LMP
still names the last mirror point passed, ADMITTED here, which is where a rollback returns to (R141). -/
def mallocV (f : RRR) (x : Pilot) (s : State) : PRes :=
  match tagFail x.sw.world [(x.reg f.s, 0, isInt)] with
  | some tv => .trap 4 tv s
  | none =>
    if 8 ≤ heldCount s (callerOf s f.p) then .trap 7 (x.reg f.s).val s
    else match poolFor s 3 0 with
    | none => mcode s f 3
    | some pool =>
      match pickFree s with
      | (none, s) => mcode s f 3
      | (some i, s) =>
        let e := (own s i).alloc (callerOf s f.p) pool false 0 0 ((x.reg f.s).val.extractLsb' 16 16) 0 0 0
        let s := setOwn s i { e with srv := true, lmp := 1 }
        mval s f ⟨handleOf s i, 6⟩

/-! Fields (R129, R131). -/

/-- W0, W1 and W7 of an entry (R116). -/
def Own.w0 (e : Own) : W64 := e.st ++ e.gen ++ e.ring ++ e.xtag
def Own.w1 (e : Own) : W64 :=
  e.berth ++ e.sslot ++ e.cqslot ++ e.lmp ++ bit1 e.ackp ++ bit1 e.fenced ++ bit1 e.held ++ bit1 e.unprot ++
    bit1 e.redriven ++ bit1 e.rb ++ bit1 e.dsv ++ e.pool ++ e.path ++ bit1 e.tr ++ bit1 e.srv
def Own.w2 (e : Own) : W64 := e.prog ++ (0 : BitVec 4)
def Own.w3 (e : Own) : W64 := e.curw ++ (0 : BitVec 4)
def Own.w5 (e : Own) : W64 :=
  e.xfer ++ e.status ++ e.dstat ++ bit1 e.pl ++ bit1 e.fs ++ (0 : BitVec 7)
def Own.w6 (e : Own) : W64 := e.cid ++ e.dq ++ e.wait ++ e.lastw ++ (0 : BitVec 4)
def Own.w7 (e : Own) : W64 := e.moor.word ++ e.fseq

/-- A field code that MGET reads; MPUT writes 0x3 to 0xE (R129, R131). -/
def getCode (t : BitVec 5) : Bool := decide (t.toNat ≤ 15) && decide (t.toNat ≠ 2)
def putCode (t : BitVec 5) : Bool := decide (3 ≤ t.toNat) && decide (t.toNat ≤ 14)

/-- The value that MGET reads (R129). -/
def Own.field (e : Own) (t : Nat) : TWord :=
  match t with
  | 0 => intW e.w0
  | 1 => intW e.w1
  | 3 => ⟨e.w3, 4⟩
  | 4 => intW e.pos
  | 5 => intW (e.xfer.setWidth 64)
  | 6 => intW ((e.status ++ bit1 e.dsv ++ e.dstat).setWidth 64)
  | 7 => intW ((if 4 ≤ e.st.toNat then e.pos.extractLsb' 0 32 else e.residHeld).setWidth 64)
  | 8 => intW ((e.cid ++ e.dq).setWidth 64)
  | 9 => intW (e.lastw.setWidth 64)
  | 10 => intW (e.path.setWidth 64)
  | 11 => intW ((bit1 e.fenced).setWidth 64)
  | 12 => intW ((bit1 e.held).setWidth 64)
  | 13 => intW (e.fseq.setWidth 64)
  | 14 => intW (e.wait.setWidth 64)
  | _ => intW e.w7

/-- The states in which MPUT may write a field (R131).  FENCED is written with 1 only; DESIGN CHOICE (log 67): a
value of 0 answers STATE. -/
def Own.mayPut (e : Own) (t : Nat) (v : W64) : Bool :=
  let st := e.st.toNat
  let abi := decide (1 ≤ st) && decide (st ≤ 3)
  match t with
  | 8 => decide (st = 2) || decide (st = 3)
  | 10 => decide (st = 2) || decide (st = 3)
  | 11 => (decide (st = 1) || decide (st = 2)) && decide (e.lmp.toNat ≤ 1) && v.getLsbD 0
  | 12 => decide (st = 2)
  | 13 => decide (st = 2)
  | 14 => decide (1 ≤ st) && decide (st ≤ 4)
  | _ => abi

/-- The write of MPUT (R131). -/
def Own.put (e : Own) (t : Nat) (v : W64) : Own :=
  match t with
  | 3 => { e with curw := v.extractLsb' 4 60 }
  | 4 => { e with pos := v }
  | 5 => { e with xfer := v.extractLsb' 0 32 }
  | 6 => { e with status := v.extractLsb' 16 8, dsv := v.getLsbD 15, dstat := v.extractLsb' 0 15 }
  | 7 => { e with residHeld := v.extractLsb' 0 32 }
  | 8 => { e with cid := v.extractLsb' 16 16, dq := v.extractLsb' 0 16 }
  | 9 => { e with lastw := v.extractLsb' 0 12 }
  | 10 => { e with path := v.extractLsb' 0 2 }
  | 11 => { e with fenced := true }
  | 12 => { e with held := v.getLsbD 0 }
  | 13 => { e with fseq := v.extractLsb' 0 32, fs := false }
  | 14 => { e with wait := if e.wait < v.extractLsb' 0 16 then v.extractLsb' 0 16 else e.wait }
  | _ => e

/-! Transitions (R123). -/

/-- The entry as its return to FREE leaves it (R112, R114, R123). -/
def Own.retired (e : Own) : Own := { gen := if e.gen = 0x1FFFFFFF then 1 else e.gen + 1 }

/-- Return entry `i` to FREE; the conditions of R151 may then hold. -/
def retireOwn (s : State) (i : Nat) : State :=
  let s := { s with bays := s.bays.filter (fun b => decide (bayEntry b.1 ≠ i)) }
  takeoverEnd (setXctx (setOwn s i (own s i).retired) i {})

/-- DEVICE_DONE (R123, R131): the held RESID moves into W4, the next completion slot is assigned, and the
record is sent.  A slot that cannot be assigned yet (R153) answers ACKWAIT (log 25). -/
def toDeviceDone (s : State) (i : Nat) : Nat × State :=
  let e := own s i
  if e.ackp then (7, s)
  else if e.srv then (0, setOwn s i { e with st := 4, pos := e.residHeld.setWidth 64, lmp := 4 })
  else
    let n := ringOfEntry s e
    match freeSlot s n true with
      | none => (7, s)
      | some k =>
        let s := addTakeoverWait s i
        let e := own s i
        let e' := { e with st := 4, pos := e.residHeld.setWidth 64 }
        let s := setOwn s i { e' with cqslot := k }
        let s := takeSlot s n k (.kept i e.gen)
        let s := if twinSends s && !e.tr then updRing s n (fun r => { r with postWait := r.postWait ++ [k] }) else s
        (0, mirrorPoint s i 4 0)

/-- POSTED (R123, R126): the final record is queued at CQSLOT.  Its POSTED record follows when it is written
(R153). -/
def toPosted (s : State) (i : Nat) : Nat × State :=
  let e := own s i
  if e.ackp then (7, s)
  else
    let n := ringOfEntry s e
    let e := { e with st := 5, lmp := 5, ackp := twinSends s && !e.tr,
                      unprot := e.unprot || !twinSends s || e.tr }
    (0, updRing (setOwn s i e) n (fun r => r.setUse e.cqslot (some (.fin i e.gen (e.record .final)))))

/-- The fence-log record of the entry's mutating word has been written (R40). -/
def flogWritten (s : State) (i : Nat) : Bool :=
  match (xctx s i).cur with
  | some wx => wx.flogged
  | none => false

/-- MSTEP's transition of entry `i` to `t` (R117, R123): the result code and the state.  The mutating word of a fenced
exchange goes to ISSUED only after its fence-log record has been written (R40), and no transition is made while the
block is frozen (R173, R503).  DESIGN CHOICE (log 67): the target that retires an SRV entry from DEVICE_DONE is FREE
or RETIRED, 0 or 6. -/
def mstepTo (s : State) (i t : Nat) : Nat × State :=
  let e := own s i
  if frozen s && !e.srv then (2, s)
  else match e.st.toNat, t with
  | 1, 2 => (0, setOwn s i { e with st := 2 })
  | 2, 3 =>
    if e.fenced && decide (e.fseq ≠ 0) && !e.fs then
      if e.ackp || !flogWritten s i then (2, s)
      else (0, mirrorPoint (setOwn (markPlaced s i) i { e with st := 3, fs := true }) i 3 e.fseq)
    else if e.lmp = 1 then (0, mirrorPoint (setOwn (markPlaced s i) i { e with st := 3 }) i 3 0)
    else (0, setOwn (markPlaced s i) i { e with st := 3 })
  | 3, 3 => (0, s)
  | 3, 2 => (0, setOwn (markPlaced s i) i { e with st := 2 })
  | 1, 4 => toDeviceDone s i
  | 2, 4 => toDeviceDone s i
  | 3, 4 => toDeviceDone s i
  | 4, 5 => if e.srv then (2, s) else toPosted s i
  | 5, 6 => if e.ackp then (7, s) else (0, retireOwn s i)
  | 4, 0 => if e.srv then (0, retireOwn s i) else (2, s)
  | 4, 6 => if e.srv then (0, retireOwn s i) else (2, s)
  | _, _ => (2, s)

/-! The scan engine (R132, R133). -/

/-- The predicate of MSCAN on one entry: state, ring, berth, RB and FENCED. -/
def scanMatch (q : W64) (st : BitVec 3) (rg b : BitVec 16) (rb fenced : Bool) : Bool :=
  q.getLsbD (56 + st.toNat) && decide (st.toNat < 7) &&
    (!q.getLsbD 55 || decide (rg = q.extractLsb' 32 16)) &&
    (!q.getLsbD 54 || decide (b = q.extractLsb' 16 16)) &&
    (!q.getLsbD 53 || rb) && (!q.getLsbD 52 || fenced)

/-- Entry `i` of the scanned partition: its handle when it matches. -/
def scanEntry (s : State) (q : W64) (i : Nat) : Option W64 :=
  if q.getLsbD 63 then
    let m := mirr s i
    if scanMatch q (m.m0.extractLsb' 61 3) (m.m0.extractLsb' 16 16) (m.m1.extractLsb' 48 16) false
        (m.m1.getLsbD 15) then
      some (s.hbr.tnum ++ BitVec.ofNat 19 i ++ m.m0.extractLsb' 32 29)
    else none
  else
    let e := own s i
    if scanMatch q e.st e.ring e.berth e.rb e.fenced then some (handleOf s i) else none

/-- How a scan stops: at N, at the limit, for an event, on a cask address, or at a
watchpoint. -/
inductive ScanEnd where
  | atN
  | limit
  | event
  | fault (a : W64)
  | hit (c : Access)
deriving DecidableEq, Repr

/-- An address in the caller's cask (R314): its word index. -/
def caskIdx (p : Nat) (a : W64) : Option Nat :=
  if a.extractLsb' 16 48 = 0 then some (p * 8192 + (a.extractLsb' 3 13).toNat) else none

/-- The scan from index `i` with `cnt` handles written, limit `lim` and at most `left` entries before an
event; `fuel` is at least the entries to examine.  `base` is the last restart point and `k` the entries examined
since: every fourth entry is one, and a fault leaves what stood there (R344, R346). -/
def scanLoop (p : Nat) (pc : BitVec 18) (q a : W64) (lim : Nat) :
    Nat → State → Nat → Nat → Option Nat → State × Nat × Nat → Nat → State × Nat × Nat × ScanEnd
  | 0, s, i, cnt, _, _, _ => (s, i, cnt, .atN)
  | fuel + 1, s, i, cnt, left, base, k =>
    if s.blk.build.entries ≤ i then (s, i, cnt, .atN)
    else if cnt = lim then (s, i, cnt, .limit)
    else if left = some 0 then (s, i, cnt, .event)
    else
      let left' := left.map (· - 1)
      let base := if k = 4 then (s, i, cnt) else base
      let k := if k = 4 then 0 else k
      match scanEntry s q i with
      | none => scanLoop p pc q a lim fuel s (i + 1) cnt left' base (k + 1)
      | some h =>
        let ad := a + BitVec.ofNat 64 (8 * cnt)
        match caskIdx p ad with
        | none => (base.1, base.2.1, base.2.2, .fault ad)
        | some w =>
          let c : Access := ⟨ad, 8, true, h⟩
          match watch s p pc c with
          | (_, true) => (base.1, base.2.1, base.2.2, .hit c)
          | (s, false) =>
            scanLoop p pc q a lim fuel (pendStore s p ⟨false, w, ⟨h, 6⟩⟩) (i + 1) (cnt + 1) left' base
              (k + 1)

/-- CX of MSCAN (R133). -/
def scanCx (i cnt : Nat) : W64 :=
  (4 : BitVec 4) ++ (0 : BitVec 9) ++ BitVec.ofNat 19 i ++ (0 : BitVec 18) ++ BitVec.ofNat 14 cnt

/-! The Gleaner (R174 to R177). -/

/-- The own entry that the Gleaner fills from mirror entry `m` (R175, R176). -/
def Own.glean (e : Own) (m : Mir) : Own :=
  let kind : BitVec 3 := m.m0.extractLsb' 61 3
  let fenced := m.m1.getLsbD 15
  let fseq : W32 := m.m3.extractLsb' 32 32
  let b : Own := { gen := e.gen, ring := m.m0.extractLsb' 16 16, xtag := m.m0.extractLsb' 0 16,
                   berth := m.m1.extractLsb' 48 16, sslot := m.m1.extractLsb' 32 16,
                   wait := m.m1.extractLsb' 16 16, fenced := fenced, redriven := true, tr := true,
                   unprot := true }
  if kind = 4 then
    { b with st := 4, lmp := 4, cqslot := m.m3.extractLsb' 48 16, status := m.m3.extractLsb' 40 8,
             path := m.m3.extractLsb' 38 2, dsv := m.m3.getLsbD 37, dstat := m.m3.extractLsb' 22 15,
             xfer := m.m2.extractLsb' 32 32, pos := (m.m2.extractLsb' 0 32).setWidth 64,
             residHeld := m.m2.extractLsb' 0 32, lastw := m.m1.extractLsb' 0 12 }
  else
    let b := { b with prog := m.m2.extractLsb' 4 60, curw := m.m2.extractLsb' 4 60, pos := BitVec.allOnes 64 }
    if kind = 3 ∧ fenced = true ∧ fseq ≠ 0 then
      { b with st := 3, lmp := 3, fs := true, fseq := fseq, path := m.m3.extractLsb' 30 2, lastw := m.m1.extractLsb' 0 12 }
    else { b with st := 1, lmp := 1 }

/-- Place mirror entry `j` in own entry `i`.  DESIGN CHOICE (log 67): gleaned exchanges count, for the oldest with an
XTAG (R44), as admitted in the order in which the Gleaner places them, that of mirror indices.  One on a namespace that has
lost its fence ends with NO_PATH at once (R172). -/
def gleanPlace (s : State) (i j : Nat) : State :=
  let e := (own s i).glean (mirr s j)
  let x : Xc := if e.st = 4 then { ended := true, tkoWait := true }
                else { Xc.fresh e.prog with tkoWait := true, resolve := decide (e.st = 3) }
  let s := setMirr (setXctx (setOwn s i e) i { x with seq := s.admSeq }) j {}
  let s := { s with admSeq := s.admSeq + 1 }
  let s := { s with recq := s.recq ++ [handleOf s i], hbr := { s.hbr with gleaned := s.hbr.gleaned + 1 } }
  let s := sampleLevel (arbPass s manifestArb 1 .gleaner) 1
  let lost := s.tw.fset.any (fun f => decide (f.nguid = (berthOf s i).nguid) && decide (f.st = 4))
  if lost && decide (e.st.toNat ≤ 3) then endX s i 0x33 0 none else fetchWord s i

/-- Place the listed mirror entries in order, until no own entry is free (R174). -/
def gleanList : State → List Nat → State
  | s, [] => updTw s (fun t => { t with glean := some s.blk.build.entries })
  | s, j :: js =>
    if (mirr s j).m0.extractLsb' 61 3 = (0 : BitVec 3) then gleanList s js
    else
      match (if gfree s = 0 then (none, s) else pickFree s) with
      | (none, s) =>
        raise { (updTw s (fun t => { t with glean := some j })) with hbr := { s.hbr with poolw := true } } 8
      | (some i, s) => gleanList (gleanPlace s i j) js

/-- Run the Gleaner from mirror index `from`. -/
def gleanFrom (s : State) (start : Nat) : State :=
  gleanList s ((s.mirror.map (·.1)).filter (fun j => decide (start ≤ j)))

end Sys2Proof.Machine
end

