-- ==== Sys2Proof/Machine/Lighter.lean ====
section
/-! DEFINITION. Machine/Lighter.lean: lading lists, staging bays, lighter orders (R232 to R251), the cellar's
banks (R252 to R257), the cipher port (R258 to R267), and the dock window (R277 to R280). -/

namespace Sys2Proof.Machine

/-! Lading lists (R232 to R234). -/

def LdSpace (g : BitVec 128) : Nat := (g.extractLsb' 124 4).toNat
def LdSkip (g : BitVec 128) : Bool := g.getLsbD 123
def LdLen (g : BitVec 128) : Nat := (g.extractLsb' 64 32).toNat
def LdAddr (g : BitVec 128) : W64 := g.extractLsb' 0 64

/-- A lading-list entry is reserved (R234). -/
def ladingBad (s : State) (source : Bool) (g : BitVec 128) : Bool :=
  let a := LdAddr g
  let n := LdLen g
  let sp := LdSpace g
  decide (4 ≤ sp) || decide (g.extractLsb' 96 27 ≠ 0) || decide (n = 0) || decide (16777216 < n) ||
    (source && (LdSkip g || decide (sp = 3))) ||
    (!LdSkip g &&
      ((decide (sp = 0) && decide (2 ^ 64 < a.toNat + n)) ||
       (decide (sp = 1) && (decide (a.extractLsb' 23 41 ≠ 0) || decide (s.blk.build.cellar < a.toNat + n))) ||
       (decide (sp = 2) && decide (a.extractLsb' 44 20 ≠ 0)) ||
       (decide (sp = 3) && decide (a.extractLsb' 62 2 ≠ 0))))

def ladingTotal (l : List (BitVec 128)) : Nat := l.foldl (fun n g => n + LdLen g) 0

/-! Bays (R235 to R239). -/

/-- The most bays that lighters may bind as destinations (R238). -/
def destBays (s : State) : Nat := s.blk.build.bays / 2

def bayOf (s : State) (k : Nat) : Bay := Table.get {} s.bays k
def boundBays (s : State) : Nat := Table.count (fun _ b => b.bound) s.bays
def boundDest (s : State) : Nat := Table.count (fun _ b => b.dest) s.bays

/-- The pages that `n` bytes at staging address `a` touch. -/
def pagesOf (a n : Nat) : List Nat :=
  (List.range ((a % 4096 + n + 4095) / 4096)).map (fun k => a / 4096 + k)

/-- Pages of a range that no bay is bound to. -/
def unboundIn (s : State) (a n : Nat) : List Nat := (pagesOf a n).filter (fun k => !(bayOf s k).bound)

/-- Store bytes at a staging address, binding bays (R235). -/
def putStage (s : State) (dest : Bool) : Nat → List Byte → State
  | _, [] => s
  | a, b :: bs =>
    let x := bayOf s (a / 4096)
    let x := if x.bound then x else { ({} : Bay) with bound := true, dest := dest }
    let x := { x with data := Table.put 0 x.data (a % 4096) b }
    putStage { s with bays := Table.put {} s.bays (a / 4096) x } dest (a + 1) bs

/-- Bytes of a staging range. -/
def getStage (s : State) : Nat → Nat → List Byte
  | _, 0 => []
  | a, n + 1 => Table.get 0 (bayOf s (a / 4096)).data (a % 4096) :: getStage s (a + 1) n

/-! The dock window (R277, R278). -/

def dbaRegion (d : BitVec 48) : Nat := (d.extractLsb' 44 4).toNat

/-- A refused request (R277). -/
def badDba (s : State) : State := { s with dock := { s.dock with baddba := true } }

/-- A stray write (R236): its INDEX names an own entry that is not ISSUED. -/
def strayTo (s : State) (d : BitVec 48) : Bool := decide ((own s (d.extractLsb' 24 19).toNat).st ≠ 3)

/-- A port's write to staging (R235, R236, R238). -/
def stageWrite (s : State) (d : BitVec 48) (data : List Byte) : State :=
  let a := (d.extractLsb' 0 44).toNat
  if data.isEmpty then s
  else if strayTo s d then
    { s with ltr := { s.ltr with stray := true, straycnt := satInc s.ltr.straycnt } }
  else if s.blk.build.bays < boundBays s + (unboundIn s a data.length).length then
    { s with ltr := { s.ltr with baywait := true, held := s.ltr.held ++ [⟨d, data⟩] } }
  else putStage s false a data

/-- STAGING_WRITE (R236, R238, R277). -/
def execStagingWrite (dba : BitVec 48) (data : List (BitVec 8)) (s : State) : Out :=
  .next (
    let r := dbaRegion dba
    if r = 1 then (if s.ltr.held.isEmpty then stageWrite s dba data
                   else { s with ltr := { s.ltr with held := s.ltr.held ++ [⟨dba, data⟩] } })
    else if r = 3 ∨ r = 0 ∨ (r = 2 ∧ dba.extractLsb' 0 3 = 0) then s
    else badDba s)

/-- Held writes go on in order while bays are free (R238); `fuel` bounds their number. -/
def resumeHeld : Nat → State → State
  | 0, s => s
  | n + 1, s =>
    match s.ltr.held with
    | [] => s
    | h :: hs =>
      if strayTo s h.dba || decide (boundBays s + (unboundIn s (h.dba.extractLsb' 0 44).toNat h.data.length).length ≤ s.blk.build.bays)
      then resumeHeld n (stageWrite { s with ltr := { s.ltr with held := hs } } h.dba h.data)
      else s

/-- BAYWAIT_RESUME (R238). -/
def execBaywaitResume (s : State) : Out := .next (resumeHeld s.ltr.held.length s)

/-- STAGING_READ (R239, R277): bound slots answer their bytes, an unbound one a Completer Abort. -/
def execStagingRead (port : Nat) (dba : BitVec 48) (len : Nat) (s : State) : Out :=
  .next (
    let r := dbaRegion dba
    let a := (dba.extractLsb' 0 44).toNat
    if r = 1 then
      if (unboundIn s a len).isEmpty then emit s (.dockReply port true (getStage s a len))
      else emit { s with ltr := { s.ltr with unladen := true } } (.dockReply port false [])
    else if r = 3 then emit s (.dockReply port true (List.replicate len 0))
    else emit (badDba s) (.dockReply port false []))

/-- PRP_LIST_READ (R277, R278). -/
def execPrpListRead (port : Nat) (dba : BitVec 48) (s : State) : Out :=
  .next (
    if dbaRegion dba = 2 ∧ dba.extractLsb' 0 3 = 0 then
      let page := (dba.extractLsb' 12 12).toNat + 1 + (dba.extractLsb' 3 9).toNat
      let v : W64 := (0 : BitVec 16) ++ (1 : BitVec 4) ++ dba.extractLsb' 24 20 ++ BitVec.ofNat 12 page ++ (0 : BitVec 12)
      emit s (.dockReply port true (qBytes (if 4095 < page then 0 else v)))
    else emit (badDba s) (.dockReply port false []))

/-- The cellar range of a queue: base in 4 KiB units, bytes. -/
def inRange (a n base size : Nat) : Bool := decide (base ≤ a) && decide (a + n ≤ base + size)

/-- The enabled queue entries of controller `c` whose SQ or CQ range holds the access (R279). -/
def queueHit (s : State) (c a n : Nat) : Option (Nat × Bool) :=
  (s.dqs.filterMap (fun e =>
    let q := e.2
    if q.en && decide (q.ctl.toNat = c) then
      if inRange a n (q.sqbase.toNat * 4096) (64 * 2 ^ q.sqlog.toNat) then some (e.1, false)
      else if inRange a n (q.cqbase.toNat * 4096) (16 * 2 ^ q.cqlog.toNat) then some (e.1, true)
      else none
    else none)).head?

def cellarWord (s : State) (k : Nat) : TWord := Table.get emptyW s.cellar k

/-- An order of a world may reach the bank (R255). -/
def bankOpen (s : State) (world : Bool) (b : Nat) : Bool :=
  decide (bankOwner s b = 0) || (world && decide (bankOwner s b = 1))

/-- CELLAR_DEVICE_ACCESS (R255, R277, R279, R280): reads and writes of whole words, as many as `data` lists; nobody
reaches a bank that is being wiped. -/
def execCellarDeviceAccess (c : Nat) (dba : BitVec 48) (write : Bool) (data : List (BitVec 64)) (s : State) : Out :=
  .next (
    let a := (dba.extractLsb' 0 23).toNat
    let port := (ctlOf s c).dport.toNat
    let refuse : State → State := fun s => if write then s else emit s (.dockReply port false [])
    if dbaRegion dba ≠ 0 ∨ dba.extractLsb' 23 21 ≠ 0 then refuse (badDba s)
    else
      match queueHit s c a (8 * data.length) with
      | none => refuse { s with dock := { s.dock with qacc := true } }
      | some (q, isCq) =>
        if bankOwner s (a / 8 / bankWords) = 2 then refuse { s with dock := { s.dock with qacc := true } }
        else if write then
          if (ctlOf s c).restart then s
          else
            let ws : List TWord := data.map (fun v => ⟨v, 2⟩)
            let s := { s with cellar := Table.putList emptyW s.cellar (a / 8) ws }
            if isCq then raise s (0x400 + q) else s
        else
          let ws := (Table.getList emptyW s.cellar (a / 8) data.length).map (fun (w : TWord) => w.val)
          emit s (.dockReply port true (qsBytes ws)))

/-! The cellar (R253, R256). -/

/-- CELLAR_STARVE (R253). -/
def execCellarStarve (b : Nat) (s : State) : Out :=
  .next (
    if b < s.blk.build.banks then
      raise { s with ltr := { s.ltr with starve := true, conf := Table.upd 0 s.ltr.conf b (fun c => satAdd c 1024) } } 6
    else s)

/-- A write of CEL.OWN[b] by one who may use SEAL fields (R256). -/
def celOwnWrite (s : State) (b : Nat) (v : BitVec 2) : State :=
  let o := bankOwner s b
  if !s.blk.build.handsOver then s else
  if o = 1 ∧ v = 0 then { s with celOwn := Table.put 0 s.celOwn b 2 }
  else if o = 0 ∧ v = 1 then { s with celOwn := Table.put 0 s.celOwn b 1 }
  else { s with ltr := { s.ltr with hbusy := true } }

/-- CEL_OWN_WRITE (R7, R256). -/
def execCelOwnWrite (rq : Requester) (b : Nat) (v : BitVec 32) (s : State) : Out :=
  .next (let s := ctlWake rq s
    if b < s.blk.build.banks ∧ sealRights s rq = true then celOwnWrite s b (v.extractLsb' 0 2) else s)

/-- BANK_WIPE_DONE (R256). -/
def execBankWipeDone (b : Nat) (s : State) : Out :=
  .next (
    if bankOwner s b = 2 then
      { wipeBanks s (fun k => decide (k = b)) with celOwn := Table.put 0 s.celOwn b 0 }
    else s)

/-! Orders (R241). -/

def lighterOf (s : State) (l : Nat) : Lighter := Table.get {} s.ltr.lighters l
def setLighter (s : State) (l : Nat) (x : Lighter) : State :=
  { s with ltr := { s.ltr with lighters := Table.put {} s.ltr.lighters l x } }

def Order.w (o : Order) (k : Nat) : W64 := o.q.getD k 0
def Order.ciph (o : Order) : BitVec 2 := (o.w 0).extractLsb' 58 2
def Order.sum (o : Order) : Bool := decide ((o.w 0).extractLsb' 60 4 = 2)
def Order.lbs (o : Order) : Nat := if (o.w 0).extractLsb' 28 2 = 1 then 4096 else 512
def Order.keyh (o : Order) : Nat := ((o.w 7).extractLsb' 0 12).toNat

/-- The live own entry that an order's handle names. -/
def orderEntry (s : State) (o : Order) : Option Nat :=
  match handleCheck s (o.w 4) with
  | .inr i => if (own s i).st = 0 then none else some i
  | .inl _ => none

/-! The cipher port (R263 to R266). -/

def keyOf (s : State) (h : Nat) : CKey := Table.get {} s.ltr.keys h
def setKey (s : State) (h : Nat) (k : CKey) : State := { s with ltr := { s.ltr with keys := Table.put {} s.ltr.keys h k } }

/-- LIMIT (R263). -/
def keyLimit (s : State) : Nat := if s.ltr.klim = 0 then 2 ^ 32 else s.ltr.klim.toNat

/-- The block requests a new generation from the engine. -/
def requestGen (s : State) (h : Nat) : State :=
  let k := keyOf s h
  if k.requested then s else emit (setKey s h { k with requested := true }) (.cipherKey h)

/-- KEY_ENABLE (R270): setting EN requests the first generation. -/
def keyWrite (s : State) (h : Nat) (v : W64) : State :=
  let k := keyOf s h
  let s := setKey s h { k with en := v.getLsbD 36 }
  if v.getLsbD 36 && !k.en then requestGen s h else s

def execKeyEnable (rq : Requester) (h : Nat) (v : BitVec 64) (s : State) : Out :=
  .next (let s := ctlWake rq s
    if h < 4096 ∧ sealRights s rq = true then keyWrite s h v else s)

/-- The account takes a generation's final USE (R537). -/
def acctAdd (s : State) (h : Nat) (rekey : Bool) : State :=
  let k := keyOf s h
  let a : KeyAcct := Table.get {} s.hm.acct h
  let a := { a with total := a.total + k.use.setWidth 64, rekeys := if rekey then a.rekeys + 1 else a.rekeys,
                    event := false }
  let s := { s with hm := { s.hm with acct := Table.put {} s.hm.acct h a } }
  hmLog s 0x501 ((0 : BitVec 28) ++ k.gen ++ BitVec.ofNat 12 h) a.total

/-- The rekey interval of exchange `i` ends (R54). -/
def endRekey (s : State) (i : Nat) : State :=
  match (xctx s i).rekeyTick with
  | some t => updXctx (addWait s i t) i (fun x => { x with rekeyTick := none })
  | none => s

/-- A decrypting order of entry `i` waits for a generation that the engine does not hold (R265). -/
def decryptWaits (s : State) (i : Nat) : Bool :=
  s.ltr.lighters.any (fun l => l.2.orders.any (fun o =>
    o.waits && decide (o.ciph = 2) && decide (orderEntry s o = some i)))

/-- The rekey interval of exchanges whose berth uses handle `h` ends (R54), but for those that wait for an earlier
generation. -/
def endRekeyWaits (s : State) (h : Nat) : State :=
  (s.xc.filter (fun e => decide ((berthOf s e.1).keyh.toNat = h) && !decryptWaits s e.1)).foldl
    (fun s e => endRekey s e.1) s

/-- GENERATION_INSTALLED (R264, R266, R537). -/
def execGenerationInstalled (h : Nat) (s : State) : Out :=
  .next (
    let k := keyOf s h
    if h < 4096 ∧ k.en = true ∧ k.requested = true ∧ k.gen ≠ 0xFFFFFF then
      let s := if k.st = 0 ∨ k.st = 4 then s else acctAdd s h true
      let s := setKey s h { k with gen := k.gen + 1, use := 0, st := 1, requested := false }
      raise (endRekeyWaits { s with ltr := { s.ltr with ready := true } } h) 7
    else s)

/-! Results and ends of orders (R245, R246). -/

/-- The word starts its device work again (R246, R267). -/
def redriveWord (s : State) (i : Nat) : State :=
  let s := orphanCmds s i
  updXctx s i (fun x => { x with
    rekeyTick := some (x.rekeyTick.getD s.tide.count),
    cur := x.cur.map (fun w => { w with issued := 0, outCmds := 0, done := [], moved := 0 }) })

/-- A path loss of the exchange's lighter order (R246, R290): its commands lose their slots. -/
def orderPathLost (s : State) (i : Nat) : State :=
  (cmdsOf s i (fun c => decide (c.wait = .device))).foldl (fun s e => loseCmd s e.1 e.2 none s.tide.count) s

/-- What an order's end means for its exchange (R246). -/
def orderOutcome (s : State) (o : Order) (st moved : Nat) : State :=
  match orderEntry s o with
  | none => s
  | some i =>
    if frozen s then s
    else
      match (xctx s i).cur with
      | none => s
      | some wx =>
        let fail : BitVec 8 → State := fun c => failCur s i wx 0 c none
        if st = 0 then
          if wx.w.op = 1 then
            tryEnd (updXctx s i (fun x => { x with cur := some { wx with moved := wx.moved + moved } })) i
          else s
        else if st = 1 then s
        else if st = 2 then fail 0x20
        else if st = 3 then fail (if wx.w.buf = 1 then 0x16 else 0x32)
        else if st = 7 then redriveWord s i
        else if st = 8 then fail 0x34
        else if st = 10 then orderPathLost s i
        else fail 0x32

/-- The served entry of a completed SEA order answers DONE (R293). -/
def orderServed (s : State) (o : Order) (st : Nat) : State :=
  match orderEntry s o with
  | none => s
  | some i =>
    match Table.get none s.serves i with
    | some v => if v.done && decide (st = 0) then endServe s i 0 (v.sts.map (·.2)) else s
    | none => s

/-- The list of an order in the cellar, or the status that its words end the order with (R254, R255). -/
def cellarList (s : State) (world : Bool) (a n : Nat) : List (BitVec 128) ⊕ Nat :=
  let ws := Table.getList emptyW s.cellar (a / 8) (2 * n)
  if !((List.range (2 * n)).all (fun k => bankOpen s world ((a / 8 + k) / bankWords))) then .inr 5
  else if !(ws.all (fun (w : TWord) => decide (1 ≤ w.tag.toNat) && decide (w.tag.toNat ≤ 3))) then .inr 4
  else .inl (pairs128 (ws.map (·.val)))

/-- One list of an order: from host memory or from the cellar. -/
def orderList (s : State) (o : Order) (host : Bool) (a : W64) (n : Nat) (given : List (BitVec 128)) :
    List (BitVec 128) ⊕ Nat :=
  if a.extractLsb' 0 4 ≠ 0 then .inr 3
  else if host then .inl (given.take n)
  else if a.extractLsb' 60 4 ≠ 1 ∨ a.extractLsb' 23 37 ≠ 0 then .inr 9
  else cellarList s o.world (a.extractLsb' 0 23).toNat n

/-- The source list of a queued order: the one it started with, or the one in the cellar; a list in host memory names
no bay (R234). -/
def queuedSrc (s : State) (o : Order) : List (BitVec 128) :=
  if o.started then o.src
  else if (o.w 3).getLsbD 47 then []
  else
    match orderList s o false (o.w 1) (((o.w 3).extractLsb' 56 8).toNat + 1) [] with
    | .inl l => l
    | .inr _ => []

/-- The staging pages that a list's entries lie on. -/
def stagePages (l : List (BitVec 128)) : List Nat :=
  (l.filter (fun g => decide (LdSpace g = 2) && !LdSkip g)).flatMap (fun g => pagesOf (LdAddr g).toNat (LdLen g))

/-- A queued order reads staging page `k`. -/
def pageWanted (s : State) (k : Nat) : Bool :=
  s.ltr.lighters.any (fun l => l.2.orders.any (fun o => (stagePages (queuedSrc s o)).contains k))

/-- A byte range without the bytes from `lo` to `hi`. -/
def cutRange (lo hi : Nat) (r : Nat × Nat) : List (Nat × Nat) :=
  (if r.1 < Nat.min r.2 lo then [(r.1, Nat.min r.2 lo)] else []) ++
    (if Nat.max r.1 hi < r.2 then [(Nat.max r.1 hi, r.2)] else [])

/-- An ended order has read the staging bytes from `a` to `a + n` and moved the first `m` of them (R237). -/
def markRead (s : State) (a n m : Nat) : State :=
  (pagesOf a n).foldl (fun s k =>
    let b := bayOf s k
    let lo := Nat.max a (4096 * k)
    let hi := Nat.min (a + n) (4096 * k + 4096)
    let mid := Nat.max lo (Nat.min hi (a + m))
    if !b.bound || b.dest then s
    else { s with bays := Table.put {} s.bays k
                    { b with unread := b.unread.flatMap (cutRange lo hi) ++ (if mid < hi then [(mid, hi)] else []) } }) s

/-- The same for every entry of a source list, of whose bytes the first `m` were moved. -/
def markList : State → List (BitVec 128) → Nat → State
  | s, [], _ => s
  | s, g :: gs, m =>
    let s := if LdSpace g = 2 then markRead s (LdAddr g).toNat (LdLen g) (Nat.min m (LdLen g)) else s
    markList s gs (m - LdLen g)

/-- The bays of the listed staging pages are released, but for those bound as destinations. -/
def freePages (s : State) (pages : List Nat) : State :=
  { s with bays := s.bays.filter (fun b => !(pages.contains b.1 && !b.2.dest)) }

/-- An order has ended with `moved` bytes moved: a source bay is released when every byte of it that some order reads
has been moved (R237); a SUM order moves none. -/
def releaseSource (s : State) (o : Order) (moved : Nat) : State :=
  if o.sum then s
  else
    let s := markList s o.src moved
    freePages s ((stagePages o.src).filter (fun k =>
      decide (0 < moved) && (bayOf s k).unread.isEmpty && !pageWanted s k))

/-- The images of a result that no rule states: those of an order with CRC = 0, or that did not run to its end, are
free values, but CIMG is 0 with SPLIT = 0 (R245, R247, log 69). -/
def freeImages (s : State) (o : Order) : W64 × W64 :=
  (Config.freeWord s.freeCtr, if (o.w 3).extractLsb' 0 32 = 0 then 0 else Config.freeWord (s.freeCtr + 1))

/-- The order at the head of lighter `l`, or a queued one, ends: result at RES, completion source, and its exchange
(R245, R246); a result that may not be written into its bank ends the order with OWNER (R255). -/
def endOrder (s : State) (l : Nat) (o : Order) (st moved : Nat) (img : Option (W64 × W64)) : State :=
  let x := lighterOf s l
  let src := queuedSrc s o
  let (wimg, cimg) := img.getD (freeImages s o)
  let s := if img.isNone then { s with freeCtr := s.freeCtr + 2 } else s
  let s := setLighter s l { x with orders := x.orders.erase o }
  let s := if o.started then planeLeave s l else s
  let a := ((o.w 6).extractLsb' 0 23).toNat
  let formed := decide ((o.w 6).extractLsb' 0 5 = 0) && decide ((o.w 6).extractLsb' 60 4 = 1) &&
    decide ((o.w 6).extractLsb' 23 37 = 0)
  let reach := bankOpen s o.world (a / 8 / bankWords)
  let st := if formed && !reach then 5 else st
  let w0 : W64 := BitVec.ofNat 8 st ++ (0 : BitVec 24) ++ BitVec.ofNat 32 moved
  let s := if formed && reach then
      { s with cellar := Table.putList emptyW s.cellar (a / 8) [intW w0, intW wimg, intW cimg, intW s.tide.count] }
    else s
  let s := raise s (0x20 + l)
  let s := if st = 7 then freePages s (stagePages src) else releaseSource s o moved
  let s := match orderEntry s o with
    | some i => if o.waits then endRekey s i else s
    | none => s
  orderServed (orderOutcome s o st moved) o st

/-! Orders (R241 to R244, R263). -/

/-- Tags of Q0 to Q7 (R241): a key handle is KEYREF, and Q7 is INT without a cipher. -/
def orderTags (q0 : W64) : List (BitVec 4) :=
  [1, 4, 4, 1, 6, 1, 4, if q0.extractLsb' 58 2 = 0 then 1 else 9]

/-- The first word whose tag is wrong. -/
def orderTagFail : List TWord → List (BitVec 4) → Option (BitVec 4)
  | w :: ws, t :: ts => if w.tag = t then orderTagFail ws ts else some w.tag
  | _, _ => none

/-- The lighter that takes an order for any lighter (R242). -/
def pickLighter (s : State) : Nat :=
  (List.range s.blk.build.lighters).foldl (fun b l =>
    if (lighterOf s l).orders.length < (lighterOf s b).orders.length then l else b) 0

/-- LGO (R242). -/
def lgoBody (f : RRR) (x : Pilot) (pc : BitVec 18) (s : State) : PRes :=
  let a := (x.reg f.s).val
  let d := (x.reg f.t).val.toNat
  let word : W64 := (rrrWord f 0x19 0).setWidth 64
  if d ≠ 0x3F ∧ s.blk.build.lighters ≤ d then .trap 1 word s
  else if x.sw.priv = false then .trap 2 word s
  else
    match tagFail x.sw.world [(x.reg f.s, 0, isAddr), (x.reg f.t, 1, isInt)] with
    | some tv => .trap 4 tv s
    | none =>
      if a.extractLsb' 0 6 ≠ 0 then .trap 5 a s
      else
        match caskIdx f.p a with
        | none => .trap 6 a s
        | some k =>
          let ws := (List.range 8).map (fun j => seenWord s f.p false (k + j))
          match orderTagFail ws (orderTags (ws.headD emptyW).val) with
          | some t => .trap 4 (tagTv t 3) s
          | none =>
            let cs := ((List.range 8).zip ws).map (fun (e : Nat × TWord) =>
              (⟨a + BitVec.ofNat 64 (8 * e.1), 8, false, e.2.val⟩ : Access))
            match watchAll f.p pc s cs with
            | (s', some c) => .stop (watch s' f.p pc c).1
            | (s, none) =>
              let l := if d = 0x3F then pickLighter s else d
              let y := lighterOf s l
              let full := decide (16 ≤ y.orders.length)
              let s := if full then s
                else setLighter s l { y with orders := y.orders ++ [{ q := ws.map (·.val), world := x.sw.world }] }
              .done (updPilot s f.p (fun x =>
                { x.wrInt f.d (BitVec.ofNat 64 (l + if full then 256 else 0)) with sw := { x.sw with z := !full } }))

def execLgo (f : RRR) (s : State) : Out :=
  .next (rrr f 0x19 0 (isD f.d && isA f.s && isD f.t) false s (fun x pc s => lgoBody f x pc s))

def execLfree (f : RRR) (s : State) : Out :=
  .next (rrr f 0x19 2 (isD f.d && isD f.s && decide (f.t = 0)) true s (fun x _ s =>
    match tagFail x.sw.world [(x.reg f.s, 0, isHandle)] with
    | some tv => .trap 4 tv s
    | none =>
      match handleCheck s (x.reg f.s).val with
      | .inl c => mcode s f c
      | .inr i => mcode (lfree s i) f 0))

/-- A reserved value stands in Q0 to Q7 (R241, R244). -/
def orderBad (o : Order) (sea : Bool) : Bool :=
  let q0 := o.w 0
  let op := (q0.extractLsb' 60 4).toNat
  decide (op ≠ 1 ∧ op ≠ 2) || decide (o.ciph = 3) || q0.getLsbD 56 ||
    (sea && decide ((q0.extractLsb' 53 3).toNat < 2)) || decide (2 ≤ (q0.extractLsb' 28 2).toNat) ||
    decide (q0.extractLsb' 0 28 ≠ 0) || decide ((o.w 3).extractLsb' 32 14 ≠ 0) ||
    (decide (o.ciph = 0) && (decide (o.w 5 ≠ 0) || decide (o.w 7 ≠ 0))) || decide ((o.w 7).extractLsb' 12 52 ≠ 0) ||
    decide ((o.w 6).extractLsb' 0 5 ≠ 0) || decide ((o.w 6).extractLsb' 60 4 ≠ 1) ||
    decide ((o.w 6).extractLsb' 23 37 ≠ 0)

/-- The rules of R234, R244 and R261 on an order's lists. -/
def listsBad (s : State) (o : Order) (src dst : List (BitVec 128)) : Bool :=
  let idx := (o.w 4).extractLsb' 29 19
  let stageBad := fun (g : BitVec 128) => decide (LdSpace g = 2) && !LdSkip g && decide ((LdAddr g).extractLsb' 24 19 ≠ idx)
  src.any (ladingBad s true) || dst.any (ladingBad s false) || (src ++ dst).any stageBad ||
    (!o.sum && decide (ladingTotal src ≠ ladingTotal dst)) ||
    (decide (o.ciph ≠ 0) && decide (ladingTotal src % o.lbs ≠ 0))

/-- The state of a handle follows its USE (R264): RETIRING from an eighth before LIMIT, which requests a generation
and tells the Harbourmaster, and RETIRED, or SPENT at the last generation, when no encrypting order can start. -/
def keyAge (s : State) (h : Nat) : State :=
  let k := keyOf s h
  let lim := keyLimit s
  let use := k.use.toNat
  if (k.st = 1 ∨ k.st = 2) ∧ lim - lim / 8 ≤ use then
    let st : BitVec 3 := if lim ≤ use then (if k.gen = 0xFFFFFF then 5 else 3) else 2
    let s := setKey s h { k with st := st }
    if k.gen = 0xFFFFFF then s
    else
      let a : KeyAcct := Table.get {} s.hm.acct h
      requestGen { s with hm := { s.hm with acct := Table.put {} s.hm.acct h { a with event := true } } } h
  else s

/-- Reserve the invocations of an encrypting order (R263): none when the order must wait. -/
def reserveInv (s : State) (h n : Nat) : Option Nat × State :=
  let k := keyOf s h
  if (k.st = 1 ∨ k.st = 2) ∧ k.en = true ∧ k.use.toNat + n ≤ keyLimit s then
    (some k.use.toNat, keyAge (setKey s h { k with use := BitVec.ofNat 33 (k.use.toNat + n) }) h)
  else (none, keyAge s h)

/-- An encrypting order cannot start: its exchange is delayed pending rekey (R54, R263). -/
def orderWaits (s : State) (l : Nat) (o : Order) : State :=
  let x := lighterOf s l
  let os := match x.orders with
    | _ :: t => { o with waits := true } :: t
    | [] => []
  let s := setLighter s l { x with orders := os }
  match orderEntry s o with
  | some i => updXctx s i (fun y => { y with rekeyTick := some (y.rekeyTick.getD s.tide.count) })
  | none => s

/-- The landward lane of lighter `l` (R564). -/
def lighterLane (l : Nat) : Nat := 2 + l % 6

/-- Landward reads of an order's HOST sources (R243), each of at most 4 KiB. -/
def hostReads (l : Nat) (o : Order) (src : List (BitVec 128)) : List Emit :=
  let pas := if (o.w 0).getLsbD 52 then some ((o.w 0).extractLsb' 30 20) else none
  let port := ((o.w 0).extractLsb' 50 2).toNat
  (src.filter (fun g => decide (LdSpace g = 0))).flatMap (fun g =>
    (List.range ((LdLen g + 4095) / 4096)).map (fun k =>
      .hostRead port (lighterLane l) pas (LdAddr g + BitVec.ofNat 64 (4096 * k)) (Nat.min 4096 (LdLen g - 4096 * k))))

/-- The order starts with its lists (R243, R263): it asks its plane (R250), and up to 8 landward reads go out. -/
def startOrder (s : State) (l : Nat) (o : Order) (src dst : List (BitVec 128)) : State :=
  let go : Nat → State → State := fun inv s =>
    let x := lighterOf s l
    let os := match x.orders with
      | _ :: t => { o with started := true, src := src, dst := dst, inv := inv, gen := (keyOf s o.keyh).gen } :: t
      | [] => []
    let s := planeAsk (setLighter s l { x with orders := os }) l
    ((hostReads l o src).take 8).foldl emit s
  if o.ciph = 1 then
    match reserveInv s o.keyh (ladingTotal src / o.lbs) with
    | (some inv, s) => go inv s
    | (none, s) => orderWaits s l o
  else go 0 s

/-- LIGHTER_ORDER_START (R243, R244, R246, R254, R255, R263). -/
def execLighterOrderStart (l : Nat) (hostErr : Bool) (slist : List (BitVec 128)) (dlist : List (BitVec 128))
    (s : State) : Out :=
  .next (
    match (lighterOf s l).orders with
    | [] => s
    | o :: _ =>
      let q3 := o.w 3
      let sn := (q3.extractLsb' 56 8).toNat + 1
      let dn := (q3.extractLsb' 48 8).toNat + 1
      if o.started || decide (s.blk.build.lighters ≤ l) then s
      else if orderBad o false then endOrder s l o 9 0 none
      else if hostErr && (q3.getLsbD 47 || q3.getLsbD 46) then endOrder s l o 2 0 none
      else
        match orderList s o (q3.getLsbD 47) (o.w 1) sn slist,
              (if o.sum then .inl [] else orderList s o (q3.getLsbD 46) (o.w 2) dn dlist) with
        | .inr c, _ => endOrder s l o c 0 none
        | .inl _, .inr c => endOrder s l o c 0 none
        | .inl src, .inl dst =>
          if src.length < sn ∨ (o.sum = false ∧ dst.length < dn) then s
          else if orderBad o (dst.any (fun g => decide (LdSpace g = 3))) then endOrder s l o 9 0 none
          else if listsBad s o src dst then endOrder s l o 3 0 none
          else startOrder s l o src dst)

/-! Moving an order's bytes (R239, R245 to R247, R254, R255, R260, R262). -/

/-- One byte of the cellar. -/
def cellarByte (s : State) (a : Nat) : Byte := (cellarWord s (a / 8)).val.extractLsb' (8 * (a % 8)) 8

/-- Source bytes of a cellar range, up to the first word that may not be read: bytes and the status there. -/
def cellarSrc (s : State) (world : Bool) : Nat → Nat → List Byte × Nat
  | _, 0 => ([], 0)
  | a, n + 1 =>
    let w := cellarWord s (a / 8)
    if !bankOpen s world (a / 8 / bankWords) then ([], 5)
    else if w.tag = 0 ∨ 4 ≤ w.tag.toNat then ([], 4)
    else
      let r := cellarSrc s world (a + 1) n
      (cellarByte s a :: r.1, r.2)

/-- Source bytes of an order in list order with the status that stops them; `host` is the landward data. -/
def srcBytes (s : State) (o : Order) (hostErr : Bool) : List (BitVec 128) → List Byte → List Byte × Nat
  | [], _ => ([], 0)
  | g :: gs, host =>
    let n := LdLen g
    let a := (LdAddr g).toNat
    let r : List Byte × Nat × List Byte :=
      if LdSpace g = 0 then
        (host.take n, (if host.length < n then 2 else 0), host.drop n)
      else if LdSpace g = 1 then
        let c := cellarSrc s o.world a n
        (c.1, c.2, host)
      else if (unboundIn s a n).isEmpty then (getStage s a n, 0, host)
      else ([], 6, host)
    if r.2.1 ≠ 0 then (r.1, r.2.1)
    else
      let t := srcBytes s o hostErr gs r.2.2
      (r.1 ++ t.1, t.2)

/-- Write one byte into the cellar, tagged BITS (R254). -/
def putCellarByte (s : State) (a : Nat) (b : Byte) : State :=
  let w := cellarWord s (a / 8)
  let m : W64 := (0xFF : W64) <<< (8 * (a % 8))
  let v := (w.val &&& ~~~m) ||| (b.setWidth 64 <<< (8 * (a % 8)))
  { s with cellar := Table.put emptyW s.cellar (a / 8) ⟨v, 2⟩ }

/-- Write bytes into the cellar up to a bank that the order may not reach. -/
def putCellar (s : State) (world : Bool) : Nat → List Byte → State × Nat × Nat
  | _, [] => (s, 0, 0)
  | a, b :: bs =>
    if bankOpen s world (a / 8 / bankWords) then
      let r := putCellar (putCellarByte s a b) world (a + 1) bs
      (r.1, r.2.1 + 1, r.2.2)
    else (s, 0, 5)

/-- Bytes of a body at MAXPL (R202). -/
def maxBody (x : Path) : Nat := 1024 * 2 ^ x.maxpl.toNat

/-- RDATA frames of a SEA destination (R221). -/
def sendRdata : Nat → State → Nat → Nat → W32 → Nat → List Byte → State
  | 0, s, _, _, _, _, _ => s
  | fuel + 1, s, p, lane, rqid, off, data =>
    if data.isEmpty then s
    else
      let k := maxBody (pathOf s p) - 8
      let q : W64 := rqid ++ BitVec.ofNat 32 off
      let s := laneSend s p lane 7 (qBytes q ++ data.take k)
      sendRdata fuel s p lane rqid (off + k) (data.drop k)

/-- Landward writes of at most 4 KiB each (R565). -/
def hostWrites : Nat → State → Nat → Nat → Option (BitVec 20) → W64 → List Byte → State
  | 0, s, _, _, _, _, _ => s
  | n + 1, s, port, lane, pas, a, bs =>
    if bs.isEmpty then s
    else
      let s := emit s (.hostWrite port lane pas a true (bs.take 4096))
      hostWrites n s port lane pas (a + 4096) (bs.drop 4096)

/-- Write an order's bytes to its destinations in order: the state, bytes written or skipped, and the status that
stopped it. -/
def putDest (l : Nat) (o : Order) (lost : Bool) : State → List (BitVec 128) → List Byte → State × Nat × Nat
  | s, [], _ => (s, 0, 0)
  | s, g :: gs, data =>
    let bs := data.take (LdLen g)
    let a := LdAddr g
    if bs.isEmpty then (s, 0, 0)
    else
      let pas := if (o.w 0).getLsbD 52 then some ((o.w 0).extractLsb' 30 20) else none
      let r : State × Nat × Nat :=
        if LdSkip g then (s, bs.length, 0)
        else if LdSpace g = 0 then
          (hostWrites (bs.length / 4096 + 1) s ((o.w 0).extractLsb' 50 2).toNat (lighterLane l) pas a bs, bs.length, 0)
        else if LdSpace g = 1 then putCellar s o.world a.toNat bs
        else if LdSpace g = 2 then (putStage s true a.toNat bs, bs.length, 0)
        else
          let p := (a.extractLsb' 56 6).toNat
          if lost || decide ((pathOf s p).state ≠ 2) then (s, 0, 10)
          else (sendRdata (bs.length + 1) s p ((o.w 0).extractLsb' 53 3).toNat (a.extractLsb' 24 32)
                  (a.extractLsb' 0 24).toNat bs, bs.length, 0)
      if r.2.2 ≠ 0 then (r.1, r.2.1, r.2.2)
      else
        let t := putDest l o lost r.1 gs (data.drop (LdLen g))
        (t.1, r.2.1 + t.2.1, t.2.2)

/-! Cipher blocks and records (R258 to R260). -/

/-- The staging offset of byte `n` of a list, or `n` itself where the byte is not staged (R260, log 69). -/
def stagePos : List (BitVec 128) → Nat → Nat → Nat
  | [], _, n => n
  | g :: gs, at_, n =>
    if at_ < LdLen g then
      (if LdSpace g = 2 ∧ LdSkip g = false then ((LdAddr g).extractLsb' 0 24).toNat + at_ else n)
    else stagePos gs (at_ - LdLen g) n

/-- The staging address of the cipher record of the block at byte `n` of a list (R260). -/
def recordAt (o : Order) (list : List (BitVec 128)) (n : Nat) : Nat :=
  2 ^ 43 + ((o.w 4).extractLsb' 29 19).toNat * 2 ^ 24 + stagePos list n n / o.lbs * 32

/-- Bytes of a string that stand for a number, first byte most significant. -/
def beNat (l : List Byte) : Nat := l.foldl (fun n b => n * 256 + b.toNat) 0

/-- The IV of invocation `inv` (R258). -/
def orderIv (s : State) (o : Order) (k : Nat) : BitVec 96 :=
  s.hbr.num ++ (BitVec.ofNat 16 o.keyh) ++ (o.gen.setWidth 32) ++ BitVec.ofNat 32 (o.inv + k)

/-- An IV as 12 bytes, byte 0 from bits [95:88] (R258). -/
def ivBytes (v : BitVec 96) : List Byte := (List.range 12).map (fun k => v.extractLsb' (88 - 8 * k) 8)

/-- The additional authenticated data of block `k` of an order (R259). -/
def orderAad (s : State) (o : Order) (k : Nat) : List Byte :=
  let nsid := (berthOf s ((o.w 4).extractLsb' 29 19).toNat).nsid
  qBytes (o.w 5 + BitVec.ofNat 64 k) ++ (qBytes ((BitVec.ofNat 16 o.keyh).setWidth 32 ++ nsid))

/-- The IV that block `k` of a decrypting order's source was encrypted with, from its stored record (R262). -/
def storedIv (s : State) (o : Order) (k : Nat) : BitVec 96 :=
  BitVec.ofNat 96 (beNat (getStage s (recordAt o o.src (k * o.lbs)) 12))

/-- What the stored record of block `k` ends a decryption with: UNLADEN where no bay holds it, AUTH where its bytes 28
to 31 are not 0 (R239, R260). -/
def recordFault (s : State) (o : Order) (k : Nat) : Option Nat :=
  let a := recordAt o o.src (k * o.lbs)
  if !(unboundIn s a 32).isEmpty then some 6
  else if (getStage s (a + 28) 4).any (fun b => decide (b ≠ 0)) then some 8
  else none

/-- The first block of a decryption that fails, and with which status: by its record or by the engine. -/
def firstFault (s : State) (o : Order) (authFail : Option Nat) (n : Nat) : Option (Nat × Nat) :=
  (List.range n).findSome? (fun k =>
    match recordFault s o k with
    | some c => some (k, c)
    | none => if authFail = some k then some (k, 8) else none)

/-- Block `k` of an order enters the cipher port of its plane (R251, R575). -/
def cipherBlock (l : Nat) (o : Order) (raw : List Byte) (s : State) (k : Nat) : State :=
  let iv := if o.ciph = 1 then orderIv s o k else storedIv s o k
  emit s (.cipher (lighterPlane s l) (decide (o.ciph = 2)) (BitVec.ofNat 16 o.keyh) (iv.extractLsb' 32 32) iv
    (orderAad s o k) ((raw.drop (k * o.lbs)).take o.lbs))

/-- The blocks of an order pass the cipher port; those of revoked bursts pass it again, with the same IV (R251).  Which
block a revoked burst was of is a free value (log 69). -/
def cipherPass (s : State) (l : Nat) (o : Order) (raw : List Byte) (n : Nat) : State :=
  if o.ciph = 0 ∨ n = 0 then s
  else
    let s := (List.range n).foldl (cipherBlock l o raw) s
    (List.range o.revoked).foldl (fun s _ =>
      let r := takeFree s
      cipherBlock l o raw r.2 (r.1.toNat % n)) s

/-- The cipher record of block `k` (R260): IV, tag, four bytes of 0. -/
def cipherRecord (s : State) (o : Order) (tags : List Byte) (k : Nat) : List Byte :=
  ivBytes (orderIv s o k) ++ ((tags.drop (16 * k)).take 16 ++ List.replicate 16 0).take 16 ++ [0, 0, 0, 0]

/-- The cipher records of the first `n` blocks go to staging with MD = 1 (R260). -/
def putRecords (s : State) (o : Order) (tags : List Byte) (n : Nat) : State :=
  (List.range n).foldl (fun s k => putStage s true (recordAt o o.dst (k * o.lbs)) (cipherRecord s o tags k)) s

/-- Staging pages that an order would newly bind: of its destinations, and of its cipher records (R238). -/
def newDest (s : State) (o : Order) : List Nat :=
  let recs := if o.ciph = 1 then
      (List.range (ladingTotal o.dst / o.lbs)).map (fun k => recordAt o o.dst (k * o.lbs) / 4096)
    else []
  ((if o.sum then [] else stagePages o.dst ++ recs).eraseDups).filter (fun k => !(bayOf s k).bound)

/-! Moving an order's bytes, whole or in part. -/

/-- Fc that an order's beats waited on banks that a pilot held (R253). -/
def addWaits (s : State) (ws : List (Nat × Nat)) : State :=
  ws.foldl (fun s w =>
    if w.1 < s.blk.build.banks then
      { s with ltr := { s.ltr with conf := Table.upd 0 s.ltr.conf w.1 (fun c => satAdd c w.2) } }
    else s) s

/-- The move of a started order: what it wrote and how it ended.  CIMG covers source bytes, WIMG the bytes written
(R247). -/
def runOrder (s : State) (l : Nat) (o : Order) (mv : LMove) : State :=
  let s := addWaits (((hostReads l o o.src).drop 8).foldl emit s) mv.waits
  let rd := srcBytes s o mv.hostErr o.src mv.host
  let raw := rd.1
  let blocks := if o.ciph = 0 then 0 else raw.length / o.lbs
  let bad := if o.ciph = 2 then firstFault s o mv.authFail blocks else none
  let good := match bad with
    | some b => Nat.min raw.length (b.1 * o.lbs)
    | none => raw.length
  let out := if o.ciph = 0 then raw else mv.engine.take good
  let crc := (o.w 0).getLsbD 57
  let split := ((o.w 3).extractLsb' 0 32).toNat
  let img := if crc then some (crc64 ((if o.ciph = 1 then out else raw).drop split),
      if split = 0 then 0 else crc64 (raw.take split)) else none
  let st0 := match bad with
    | some b => b.2
    | none => if mv.hostErr && decide (rd.2 = 0) then 2 else rd.2
  let s := cipherPass s l o raw blocks
  let s := if st0 = 8 then { s with ltr := { s.ltr with authf := satInc s.ltr.authf } } else s
  if o.sum then endOrder s l o st0 0 img
  else
    let w := putDest l o mv.pathLost s o.dst (out.take good)
    let s := if o.ciph = 1 then putRecords w.1 o mv.tags (w.2.1 / o.lbs) else w.1
    endOrder s l o (if w.2.2 ≠ 0 then w.2.2 else st0) w.2.1 img

/-- A decryption names a generation that the engine does not hold (R265): the order waits, its exchange is delayed
pending rekey, and the Harbourmaster logs the handle and the generation. -/
def decryptWait (s : State) (l : Nat) (o : Order) (k : Nat) : State :=
  orderWaits (hmLog s 0x502 (BitVec.ofNat 64 o.keyh) (((storedIv s o k).extractLsb' 32 32).setWidth 64)) l o

/-- LIGHTER_ORDER_COMPLETE (R238, R245, R265): an order that would bind destination bays beyond the cap, or beyond the
pool, waits, and so does a decryption whose generation the engine does not hold. -/
def execLighterOrderComplete (l : Nat) (mv : LMove) (s : State) : Out :=
  .next (
    match (lighterOf s l).orders with
    | [] => s
    | o :: _ =>
      let need := (newDest s o).length
      if !o.started then s
      else if 0 < need ∧ (destBays s < boundDest s + need ∨ s.blk.build.bays < boundBays s + need) then s
      else
        match (if o.ciph = 2 then mv.notHeld else none) with
        | some k => decryptWait s l o k
        | none => runOrder s l o mv)

/-- Bytes of a destination list's bursts that end at or before byte `n` of it (R249). -/
def burstFloor : List (BitVec 128) → Nat → Nat
  | [], _ => 0
  | g :: gs, n =>
    if LdLen g ≤ n then LdLen g + burstFloor gs (n - LdLen g)
    else (((LdAddr g).toNat % 256 + n) / 256) * 256 - (LdAddr g).toNat % 256

/-- `n` free bytes (log 69). -/
def freeBytes (s : State) (n : Nat) : List Byte :=
  (List.range n).map (fun k => (Config.freeWord (s.freeCtr + k / 8)).extractLsb' (8 * (k % 8)) 8)

/-- LSTOP of one order (R248): a queued one has moved nothing; a running one has moved its granted bursts.  How many,
what their landward reads returned and what the engine made of them are free values (log 69). -/
def stopOrder (s : State) (l : Nat) (o : Order) : State :=
  if !o.started || o.sum then endOrder s l o 1 0 none
  else
    let r := takeFree s
    let n := burstFloor o.dst (r.1.toNat % (ladingTotal o.dst + 1))
    let rd := srcBytes r.2 o false o.src (freeBytes r.2 n)
    let s := { r.2 with freeCtr := r.2.freeCtr + n }
    let out := if o.ciph = 0 then rd.1 else freeBytes s n
    let s := { s with freeCtr := s.freeCtr + n }
    let w := putDest l o false s o.dst (out.take (Nat.min n rd.1.length))
    endOrder w.1 l o 1 w.2.1 none

/-- End every order of a handle with CANCELLED, counting them (R248). -/
def stopOrders (s : State) (h : W64) : State × Nat :=
  s.ltr.lighters.foldl (fun (r : State × Nat) e =>
    (e.2.orders.filter (fun o => decide (o.w 4 = h))).foldl (fun r o => (stopOrder r.1 e.1 o, r.2 + 1)) r) (s, 0)

def execLstop (f : RRR) (s : State) : Out :=
  .next (rrr f 0x19 1 (isD f.d && isD f.s && decide (f.t = 0)) true s (fun x _ s =>
    match tagFail x.sw.world [(x.reg f.s, 0, isHandle)] with
    | some tv => .trap 4 tv s
    | none =>
      let r := stopOrders s (x.reg f.s).val
      .done (updPilot r.1 f.p (fun x => x.wrInt f.d (BitVec.ofNat 64 r.2)))))

/-- Every cipher order ends with KEYLOST (R266). -/
def endCipherOrders (s : State) : State :=
  s.ltr.lighters.foldl (fun (s : State) e =>
    (e.2.orders.filter (fun o => decide (o.ciph ≠ 0))).foldl (fun s o => endOrder s e.1 o 7 0 none) s) s

/-- Every enabled handle is LOST, and CIP.STAT shows the alarm (R266, R270, R537). -/
def alarmed (s : State) (ready : Bool) : State :=
  let hs := (s.ltr.keys.filter (fun k => k.2.en)).map (·.1)
  let s := hs.foldl (fun s h =>
    let s := if (keyOf s h).st = 0 ∨ (keyOf s h).st = 4 then s else acctAdd s h false
    setKey s h { keyOf s h with st := 4, requested := true }) s
  hmLog { s with ltr := { s.ltr with alarm := true, ready := ready } } 0x503 (BitVec.ofNat 64 hs.length) 0

/-- CIPHER_ALARM (R266, R537).  No rule says whether cip_ready (R270, R575) stays high with the alarm: READY then holds a
free value (log 69). -/
def execCipherAlarm (s : State) : Out :=
  let r := takeFree s
  .next (raise (endCipherOrders (alarmed r.2 (r.1.getLsbD 0))) 7)

/-- A burst of lighter `l` was revoked (R109, R250). -/
def revokeBurst (s : State) (l : Nat) : State :=
  let x := lighterOf s l
  setLighter s l { x with revk := satInc x.revk, orders := x.orders.map (fun o =>
    if o.started then { o with revoked := o.revoked + 1 } else o) }

/-- PLANE_BURST_REVOKE (R105 to R109): a class 0 request becomes pending at a plane.  A class 2 burst that holds the
grant is revoked, and its lighter asks again with its stamp; then the class 0 request is granted and passes. -/
def execPlaneBurstRevoke (plane : Nat) (s : State) : Out :=
  .next (
    if s.blk.build.planes ≤ plane then s
    else
      let a := arbOf s (planeArb plane)
      let s := match a.grant with
        | some ⟨2, .unit l, _⟩ => revokeBurst s l
        | _ => s
      arbPass (setArb s (planeArb plane) (a.revoke)) (planeArb plane) 0 pilotLane)

end Sys2Proof.Machine
end

