-- ==== Sys2Proof/Machine/Events.lean ====
section
/-! DEFINITION. Machine/Events.lean: the event controller's commands (R449 to R464): claims, delivery,
edges, level changes, wakes and orphans. -/

namespace Sys2Proof.Machine

/-- Pilot `p` claims source `n` (R451, R452, R460): an edge source's PEND clears; a level source is held. -/
def claimSrc (s : State) (n p bank : Nat) (lvl : BitVec 3) : State :=
  let s := settleWaits s
  let x := srcOf s n
  if isLevelSrc n then setSrc s n { x with claim := some ⟨p, bank, lvl⟩, hmT := false }
  else setSrc s n { x with pend := false, hmT := false }

/-- The event presented to pilot `p`, if it is of level 0 (R458). -/
def level0Event (s : State) (p : Nat) : Option Nat :=
  match presented s p with
  | some (n, l) => if l = 0 then some n else none
  | none => none

/-- The vector of source `n` for pilot `p` (R450, R460): EVC.HMVEC for the Harbourmaster as the target of an
orphan. -/
def vectorOf (s : State) (n p : Nat) : BitVec 18 :=
  let x := srcOf s n
  (if p = hmNo ∧ x.hmT = true ∧ (tsetOf s x.tset.toNat).getLsbD 127 = false then s.evc.hmvec else x.vec) ++
    (0 : BitVec 2)

/-- A presented event of level `l` is deliverable to the pilot (R363, R364, R366). -/
def deliverable (x : Pilot) (l : BitVec 3) : Bool :=
  let t := takenLevel l
  decide (t ≠ 0) && decide (t > x.sw.mask) && !(x.lwBit t.toNat == false && x.sw.world)

/-- The pilot reaches boundaries: it exists, is out of reset and runs firmware. -/
def atBoundary (s : State) (p : Nat) : Bool :=
  let x := pilot s p
  pilotExists s p && !x.inReset &&
    (decide (p = hmNo) || (decide (x.role = .active) && decide (s.blk.mode ≠ 4)))

/-- Entry of pilot `p` to an event's handler (R371), world by LW (R370). -/
def enterEvent (s : State) (p : Nat) (l : BitVec 3) (src : BitVec 12) (vec : BitVec 18) : State :=
  let x := pilot s p
  let t := takenLevel l
  srcSwitch (enter s p ⟨t, 0, src, false, 0, x.pc, false, x.lwBit t.toNat, vec⟩) p

/-- EVENT_DELIVERY (R363 to R366, R455, R456): pilot `p` commits the claim of the event presented to it at
its boundary and enters the handler.  With `lost := some n` the pilot commits, in the same fc as another
claimant or a withdrawal, a claim on source `n` that it does not own, and takes the spurious vector.  The pilot's
window closes before the claim; a mismatch leaves the event pending (R427, R434). -/
def execEventDelivery (p : Nat) (lost : Option Nat) (s : State) : Out :=
  .next (
    if !atBoundary s p then s
    else
      match lost with
      | none =>
        match presented s p with
        | none => s
        | some (n, l) =>
          if deliverable (pilot s p) l then
            match closeAtClaim s p with
            | (s, true) =>
              let v := vectorOf s n p
              enterEvent (claimSrc s n p (pilot s p).cur (takenLevel l)) p l (BitVec.ofNat 12 n) v
            | (s, false) => s
          else s
      | some n =>
        let l := (srcOf s n).level
        if srcExists s n && !(pendOf s n && eligible s n p) && deliverable (pilot s p) l then
          match closeAtClaim s p with
          | (s, true) =>
            let s := { s with evc := { s.evc with spur := satInc s.evc.spur } }
            enterEvent s p l 0xFFF ((srcOf s 0xFFF).vec ++ (0 : BitVec 2))
          | (s, false) => s
        else s)

/-- EDGE_SOURCE (R449, R451): an edge on source `n`. -/
def execEdgeSource (n : Nat) (s : State) : Out := .next (raise s n)

/-- LEVEL_SOURCE_CHANGE (R449, R452): a level source's input, which follows the condition of R449, is sampled
at value `v`. -/
def execLevelSourceChange (n : Nat) (v : Bool) (s : State) : Out :=
  .next (if isLevelSrc n && (srcIn s n == v) then sampleLevel s n else s)

/-- A pilot is awake while its clock runs (R459). -/
def awake (s : State) (p : Nat) : Bool := decide (p = hmNo) || decide (s.blk.mode ≠ 4)

/-- ORPHAN_TIMEOUT (R460): the source has stayed orphaned for 1,000 tt, and the Harbourmaster becomes a target
of it until it is claimed. -/
def execOrphanTimeout (n : Nat) (s : State) : Out :=
  .next (if orphOf s n then setSrc s n { srcOf s n with hmT := true } else s)

/-- A write of EVC.RAISE (R464): it raises an edge on a SOFT source, from any requester. -/
def evcRaise (s : State) (v : W32) : State :=
  let n := (v.extractLsb' 0 12).toNat
  if 0x80 ≤ n ∧ n ≤ 0xFF then raise s n else s

/-- EVC_RAISE. -/
def execEvcRaise (rq : Requester) (v : BitVec 32) (s : State) : Out := .next (evcRaise (ctlWake rq s) v)

/-! Registers of the EVC region (R450, R464). -/

/-- EVC.SRC[n] as a 64-bit word; SEAL fields read 0 without sealed rights (R5, R7). -/
def evcSrcWord (s : State) (n : Nat) (sealedRq : Bool) : W64 :=
  if !srcExists s n then 0
  else
    let x := srcOf s n
    let m : Src := if sealedRq then x else {}
    bit1 m.en ++ bit1 (!isLevelSrc n) ++ m.level ++ (0 : BitVec 1) ++ m.tset ++ (0 : BitVec 4) ++
      bit1 (pendOf s n) ++ bit1 x.claim.isSome ++ bit1 (orphOf s n) ++ bit1 (srcIn s n) ++ (0 : BitVec 26) ++
      m.vec ++ (0 : BitVec 2)

/-- A write of EVC.SRC[n] under a bit mask (R450 to R452): a write of EN = 0 clears PEND and a claim.  DESIGN CHOICE
(log 67): of the spurious source 0xFFF, of which VEC alone has effect (R449), EN, LEVEL and TSET keep no value and
read 0. -/
def evcSrcWrite (s : State) (n : Nat) (sealedRq : Bool) (v m : W64) : State :=
  if !srcExists s n || !sealedRq then s
  else
    let old : W64 := evcSrcWord s n true
    let w := (v &&& m) ||| (old &&& ~~~m)
    let s := settleWaits s
    let x := srcOf s n
    let x := { x with level := w.extractLsb' 59 3, tset := w.extractLsb' 52 6, vec := w.extractLsb' 2 16 }
    let x := if n = 0xFFF then { x with en := false, level := 0, tset := 0 }
             else if w.getLsbD 63 then { x with en := true }
             else { x with en := false, pend := false, claim := none, hmT := false }
    noteOrphan (setSrc s n x) n

/-- Sealed rights of a requester (R5, R7): a sealed-world pilot or the Harbourmaster, and the debug window
where the life cycle gives it the Harbourmaster's rights (R541). -/
def sealedRq (s : State) : Requester → Bool
  | .ctl => false
  | .pilot _ w => w
  | .hm => true
  | .dbg => devRights s

/-- SOURCE_DISABLE (R451, R452): a write of EVC.SRC[n]. -/
def execSourceDisable (rq : Requester) (n : Nat) (v : BitVec 64) (s : State) : Out :=
  .next (evcSrcWrite (ctlWake rq s) n (sealedRq s rq) v (BitVec.allOnes 64))

/-- A read of the EVC region's dword at `off` (R464); none where undecoded. -/
def evcRead (s : State) (off : Nat) (sl : Bool) : Option W32 :=
  if off < 0x8000 then
    let w := evcSrcWord s (off / 8) sl
    some (if off % 8 = 0 then w.extractLsb' 0 32 else w.extractLsb' 32 32)
  else if off < 0x8400 then
    let t := tsetOf s ((off - 0x8000) / 16)
    some (if sl then t.extractLsb' (32 * ((off / 4) % 4)) 32 else 0)
  else if off = 0x8400 then some (bit1 s.evc.orphAny ++ (0 : BitVec 19) ++ s.evc.orphLast)
  else if off = 0x8404 then
    some ((0 : BitVec 14) ++ (if sl then s.evc.hmvec else 0) ++ (0 : BitVec 2))
  else if off = 0x8408 then some 0
  else if off = 0x840C then some s.evc.merge
  else if off = 0x8410 then some s.evc.spur
  else none

/-- A 64-bit register of the EVC region starts at `off`. -/
def evcWide (off : Nat) : Bool := decide (off < 0x8400)

/-- Every source of a changed target set is judged for an orphan (R460). -/
def noteOrphans (s : State) : State := (s.evc.src.map (·.1)).foldl noteOrphan s

/-- A write of a 64-bit EVC register under a mask. -/
def evcWrite64 (s : State) (off : Nat) (sl : Bool) (v m : W64) : State :=
  if off < 0x8000 then evcSrcWrite s (off / 8) sl v m
  else if !sl then s
  else
    let k := (off - 0x8000) / 16
    let sh := 64 * ((off / 8) % 2)
    let t := tsetOf s k
    let vm : BitVec 128 := (v &&& m).setWidth 128 <<< sh
    let mm : BitVec 128 := m.setWidth 128 <<< sh
    let t := vm ||| (t &&& ~~~mm)
    noteOrphans { s with evc := { s.evc with tset := Table.put 0 s.evc.tset k t } }

/-- A write of a 32-bit EVC register. -/
def evcWrite32 (s : State) (off : Nat) (sl : Bool) (v : W32) : State :=
  if off = 0x8400 then
    if v.getLsbD 31 then { s with evc := { s.evc with orphAny := false } } else s
  else if off = 0x8404 then
    if sl then { s with evc := { s.evc with hmvec := v.extractLsb' 2 16 } } else s
  else if off = 0x8408 then evcRaise s v
  else s

/-- The RC fields of an EVC dword are cleared by a take (R5). -/
def evcTake (s : State) (off : Nat) : State :=
  if off = 0x840C then { s with evc := { s.evc with merge := 0 } }
  else if off = 0x8410 then { s with evc := { s.evc with spur := 0 } }
  else s

end Sys2Proof.Machine
end

