-- ==== Sys2Proof/Machine/Vintage.lean ====
section
/-! DEFINITION. Machine/Vintage.lean: control stores, grafts, images and the live switch (R391 to R422), and
checking, retry, substitution and the checkers (R432 to R448). -/

namespace Sys2Proof.Machine

/-! Micro-words and nano-words (R393, R397). -/

def uNano (w : BitVec 48) : Nat := (w.extractLsb' 36 12).toNat
def uSeq (w : BitVec 48) : Nat := (w.extractLsb' 33 3).toNat
def uCsel (w : BitVec 48) : Nat := (w.extractLsb' 28 5).toNat
def uCpol (w : BitVec 48) : Bool := w.getLsbD 27
def uTarget (w : BitVec 48) : Nat := (w.extractLsb' 13 14).toNat
def uCw (w : BitVec 48) : Bool := w.getLsbD 12
def uArg (w : BitVec 48) : BitVec 5 := w.extractLsb' 7 5
def uLit (w : BitVec 48) : BitVec 7 := w.extractLsb' 0 7

def nClen (n : BitVec 128) : Nat := (n.extractLsb' 126 2).toNat
def nUnit (n : BitVec 128) : Nat := (n.extractLsb' 122 4).toNat
def nUop (n : BitVec 128) : Nat := (n.extractLsb' 114 8).toNat
def nAsrc (n : BitVec 128) : Nat := (n.extractLsb' 108 6).toNat
def nBsrc (n : BitVec 128) : Nat := (n.extractLsb' 102 6).toNat
def nDst (n : BitVec 128) : Nat := (n.extractLsb' 96 6).toNat
def nTchk (n : BitVec 128) : Nat := (n.extractLsb' 92 4).toNat
def nTres (n : BitVec 128) : Nat := (n.extractLsb' 88 4).toNat
def nFupd (n : BitVec 128) : BitVec 5 := n.extractLsb' 83 5
def nTrap (n : BitVec 128) : Bool := n.getLsbD 81
def nTcode (n : BitVec 128) : BitVec 4 := n.extractLsb' 77 4
def nMsrc (n : BitVec 128) : Nat := (n.extractLsb' 71 6).toNat
def nMdst (n : BitVec 128) : Nat := (n.extractLsb' 65 6).toNat

/-- The operation codes of each unit (R399). -/
def uopOk (unit op : Nat) : Bool :=
  match unit with
  | 0 => decide (op ≤ 0x17)
  | 1 => decide (op ≤ 8)
  | 2 => decide (op ≤ 4) || (decide (0x10 ≤ op) && decide (op ≤ 0x12))
  | 3 => decide (op ≤ 8)
  | 4 => decide (op ≤ 1)
  | 5 => decide (op ≤ 0x10)
  | 6 => decide (op ≤ 2) || decide (op = 8) || decide (op = 9)
  | 7 => decide (op ≤ 6)
  | 8 => decide (op = 0)
  | _ => false

/-- An operand code that may be written (R400). -/
def dstOk (c : Nat) : Bool :=
  decide (c ≤ 4) || (decide (8 ≤ c) && decide (c ≤ 15)) || (decide (0x13 ≤ c) && decide (c ≤ 0x16)) ||
    decide (c = 0x18) || decide (c = 0x19) || decide (c = 0x3F)

/-- An operand code that may be read (R400). -/
def srcOk (c : Nat) : Bool :=
  decide (c ≤ 4) || (decide (8 ≤ c) && decide (c ≤ 0x19))

/-- A micro-word holds no reserved code (R394, R395). -/
def microOk (w : BitVec 48) : Bool := decide (uSeq w ≠ 7) && decide (uCsel w ≤ 25)

/-- A nano-word holds no reserved code and no reserved bit (R397 to R401); a move slot that is not used names
0x3F on both sides. -/
def nanoOk (n : BitVec 128) : Bool :=
  decide (n.extractLsb' 0 65 = 0) && uopOk (nUnit n) (nUop n) && srcOk (nAsrc n) && srcOk (nBsrc n) &&
    dstOk (nDst n) && (srcOk (nMsrc n) || decide (nMsrc n = 0x3F)) && dstOk (nMdst n) &&
    decide (nTchk n ≤ 12) && decide (nTres n ≠ 12) && decide (nTres n ≠ 13) &&
    (decide (nTres n ≠ 6) || decide (nUnit n = 5))

/-- The sequencer-only nano-word (R402). -/
def seqOnly : BitVec 128 :=
  (8 : BitVec 6) ++ (0 : BitVec 20) ++ (0x3F : BitVec 6) ++ (0 : BitVec 19) ++ (0x3F : BitVec 6) ++
    (0x3F : BitVec 6) ++ (0 : BitVec 65)

/-- A store from the listed words of an image. -/
def storeOf {w : Nat} (n : Nat) (l : List (Nat × BitVec w)) : Table (BitVec w) :=
  l.foldl (fun (t : Table (BitVec w)) (e : Nat × BitVec w) => if e.1 < n then Table.put 0 t e.1 e.2 else t) []

/-- The stores of one image. -/
structure Store where
  micro : Table (BitVec 48)
  nano : Table (BitVec 128)
deriving DecidableEq, Repr

def Store.u (t : Store) (a : Nat) : BitVec 48 := Table.get 0 t.micro (a % 0x4000)
def Store.n (t : Store) (a : Nat) : BitVec 128 := Table.get 0 t.nano a
/-- The nano-word that the micro-word at `a` executes. -/
def Store.at (t : Store) (a : Nat) : BitVec 128 := t.n (uNano (t.u a))

/-- A micro-op is TRAP with code RSV. -/
def Store.trapRsv (t : Store) (a : Nat) : Bool := nTrap (t.at a) && decide (nTcode (t.at a) = 1)

/-- The micro-word at `a` breaks the slot rule (R396). -/
def Store.slotBad (t : Store) (a : Nat) : Bool :=
  let w := t.u a
  (decide (uSeq w = 1) || decide (uSeq w = 2)) &&
    (uCw w || decide (uSeq (t.u (a + 1)) ≠ 0) || uCw (t.u (a + 1)))

/-- The micro-word at `a` is a port or take micro-op without CW (R405). -/
def Store.portBad (t : Store) (a : Nat) : Bool :=
  let n := t.at a
  (decide (nUnit n = 5) || decide (nUnit n = 6) || (decide (nUnit n = 3) && decide (nUop n = 8))) && !uCw (t.u a)

/-- The FN slot of custom MAJOR 0x2C + `k` (R414). -/
def fnSlot (k fn : Nat) : Nat := 0x3000 + 0x100 * k + 2 * fn

/-- The micro-words that may follow the one at `a` (R394). -/
def Store.follow (t : Store) (a : Nat) : List Nat :=
  let w := t.u a
  match uSeq w with
  | 1 => [a + 1, uTarget w, a + 2]
  | 2 => [a + 1, uTarget w, a + 2]
  | 3 => []
  | 4 => []
  | 5 => [uTarget w]
  | _ => [a + 1]

/-- The micro-words that a routine can issue; `fuel` bounds the search. -/
def Store.reach (t : Store) : Nat → List Nat → List Nat → List Nat
  | 0, _, seen => seen
  | _, [], seen => seen
  | fuel + 1, a :: todo, seen =>
    if seen.contains a then t.reach fuel todo seen else t.reach fuel (t.follow a ++ todo) (a :: seen)

/-- A micro-word of a custom routine keeps R415. -/
def Store.customOk (t : Store) (a : Nat) : Bool :=
  let w := t.u a
  let n := t.at a
  let br := decide (uSeq w = 1) || decide (uSeq w = 2)
  (decide (nUnit n ≤ 3) || decide (nUnit n = 8) || (decide (nUnit n = 4) && decide (nUop n = 0))) &&
  !(decide (nUnit n = 3) && decide (nUop n = 8)) && decide (nDst n ≠ 0x13) && decide (nMdst n ≠ 0x13) &&
  decide (nTchk n ≠ 0) && !(decide (10 ≤ nTchk n) && decide (nTchk n ≤ 12)) &&
  (decide (nTres n ≤ 3) || decide (nTres n = 10) || decide (nTres n = 11)) &&
  decide (uSeq w ≠ 6) && (!br || decide (0x3400 ≤ uTarget w)) && (!uCw w || decide (uSeq w = 4)) &&
  decide (0xE00 ≤ uNano w)

/-- The FN slots of custom MAJOR 0x2C + `k` that hold a routine (R414). -/
def Store.routines (t : Store) (k : Nat) : List Nat :=
  ((List.range 128).map (fnSlot k)).filter (fun a => !t.trapRsv a)

/-- FEAT3.CUSTOM of a vintage (R414). -/
def Store.custom (t : Store) : BitVec 4 :=
  bit1 (!(t.routines 3).isEmpty) ++ bit1 (!(t.routines 2).isEmpty) ++ bit1 (!(t.routines 1).isEmpty) ++
    bit1 (!(t.routines 0).isEmpty)

/-- Every routine keeps R414 and R415. -/
def Store.customsOk (t : Store) : Bool :=
  (List.range 4).all (fun k => (t.routines k).all (fun a => (t.reach 5000 [a] []).all t.customOk))

/-- The reserved MAJORs of R318. -/
def reservedMajor (m : Nat) : Bool :=
  decide (m = 0) || (decide (0x1A ≤ m) && decide (m ≤ 0x2B)) || (decide (0x37 ≤ m) && decide (m ≤ 0x3F))

/-- The fixed words of a vintage stand as R402 and R414 require. -/
def Store.fixedOk (t : Store) : Bool :=
  decide (t.n 0 = seqOnly) && ((List.range 64).filter reservedMajor).all (fun m => t.trapRsv (2 * m)) &&
    (List.range 4).all (fun k =>
      decide (uSeq (t.u (2 * (0x2C + k))) = 5) && decide (uTarget (t.u (2 * (0x2C + k))) = 0x3000 + 0x100 * k))

/-- The word checks of a vintage (R418 step 6), in the order of their codes (R420). -/
def Store.check (t : Store) : BitVec 8 :=
  if !(t.micro.all (fun e => microOk e.2) && t.nano.all (fun e => nanoOk e.2)) then 0x07
  else if t.micro.any (fun e => t.slotBad e.1) then 0x08
  else if t.micro.any (fun e => t.portBad e.1) then 0x09
  else if !t.customsOk then 0x0A
  else if !t.fixedOk then 0x0B
  else 0

/-- The word checks of a graft set: what is seen without the ROM. -/
def Store.checkGraft (t : Store) : BitVec 8 :=
  if !(t.micro.all (fun e => microOk e.2) && t.nano.all (fun e => nanoOk e.2)) then 0x07
  else if t.micro.any (fun e => decide (e.1 < 1023) && t.slotBad e.1) then 0x08
  else 0

/-! Envelopes (R416 to R420). -/

/-- Steps 1 to 3 of R418 on an envelope of kind `kind`: the code of the first failure, 0 with none. -/
def envHead (s : State) (kind : BitVec 16) (e : Envelope) : BitVec 8 :=
  if !e.fmtOk || !e.plenOk || decide (e.kind ≠ kind) then 0x01
  else if e.isa ≠ 1 ∨ e.config.getLsbD s.blk.build.imageBit = false ∨ e.config.extractLsb' 3 5 ≠ 0 then 0x02
  else if e.svn < s.hm.svn then 0x03
  else if s.hm.lc = 3 then 0x0D
  else if 2 ≤ e.keyset.toNat ∨ (e.keyset = 1 ∧ s.boot.keySet1 = false) then 0x04
  else if !e.ecdsaOk || (!e.mldsaOk && decide (s.hm.lc = 2)) then 0x04
  else 0

/-- A tolerated failure of the ML-DSA-87 signature is logged (R419, R530). -/
def noteMldsa (s : State) (e : Envelope) : State :=
  if e.mldsaOk then s else hmLog s 0x104 (e.kind.setWidth 64) (e.version.setWidth 64)

/-- Steps 4 and 5 of R418; without the vintage decryption key nothing decrypts. -/
def envBody (s : State) (e : Envelope) : BitVec 8 :=
  if !s.boot.key || !e.tagOk then 0x05 else if !e.digestOk then 0x06 else 0

/-- The first failure of an envelope before its words. -/
def envCode (s : State) (kind : BitVec 16) (e : Envelope) : BitVec 8 :=
  let h := envHead s kind e
  if h ≠ 0 then h else envBody s e

/-- The clusters that a mask names. -/
def maskClusters (s : State) (m : BitVec 16) : List Nat := (List.range s.blk.build.clusters).filter (fun c => m.getLsbD c)

/-- Write bank `v` of each listed cluster. -/
def putBanks (s : State) (cs : List Nat) (v : Bool) (x : VBank) : State :=
  cs.foldl (fun (s : State) (c : Nat) => setVbank s c v x) s

/-- Load a vintage envelope into one bank of each listed cluster: the state and the code of R420. -/
def loadVintage (s : State) (cs : List Nat) (v : Bool) (e : Envelope) : State × BitVec 8 :=
  let code := envCode s 1 e
  let s := if envHead s 1 e = 0 then noteMldsa s e else s
  if code ≠ 0 then (putBanks s cs v {}, code)
  else
    let t : Store := ⟨storeOf 0x4000 e.image.micro, storeOf 0x1000 e.image.nano⟩
    if t.check ≠ 0 then (putBanks s cs v {}, t.check)
    else
      (putBanks s cs v { version := e.version, state := 2, cxfmt := e.cxfmt, custom := t.custom,
                         micro := t.micro, nano := t.nano }, 0)

/-- The match register that a 32-bit value spells (R421). -/
def Gm.ofWord (v : W32) : Gm := { v := v.getLsbD 31, maddr := v.extractLsb' 16 14, gaddr := v.extractLsb' 0 10 }
def Gm.word (g : Gm) : W32 := bit1 g.v ++ (0 : BitVec 1) ++ g.maddr ++ (0 : BitVec 6) ++ g.gaddr

def gmOf (s : State) (c k : Nat) : Gm := Table.get {} s.gm (16 * c + k)

/-- A match register takes a value; an address at or above 0x3C00 leaves it unchanged (R408). -/
def putGm (s : State) (c k : Nat) (v : W32) : State :=
  if 0x3C00 ≤ (Gm.ofWord v).maddr.toNat then s
  else { s with gm := Table.put {} s.gm (16 * c + k) (Gm.ofWord v) }

/-- The rootstock of the Harbourmaster has enabled its match registers (R408). -/
def hmGrafted (s : State) : Bool := (List.range 16).any (fun k => (gmOf s 16 k).v)

/-- Graft memory and match registers of cluster `c` may be written (R408); index 16 is the Harbourmaster's,
which only its own rootstock writes. -/
def graftOpen (s : State) (rootstock : Bool) (c : Nat) : Bool :=
  if c = 16 then rootstock && !hmGrafted s
  else decide ((csrcOf s c).sel ≠ 0) || (csrcOf s c).hold

/-- The clusters of a graft set's target mask; bit 31 names the Harbourmaster, index 16 (R417). -/
def graftTargets (s : State) (m : BitVec 32) : List Nat :=
  (List.range s.blk.build.clusters).filter (fun c => m.getLsbD c) ++ (if m.getLsbD 31 then [16] else [])

/-- Write a list of match registers. -/
def putGms (s : State) (c : Nat) : Nat → List (BitVec 32) → State
  | _, [] => s
  | k, v :: vs => if k < 16 then putGms (putGm s c k v) c (k + 1) vs else s

/-- Install a graft set in one target (R417). -/
def putGraft (s : State) (e : Envelope) (t : Store) (c : Nat) : State :=
  putGms { s with graft := Table.put {} s.graft c { micro := t.micro, nano := t.nano } } c 0 e.gmatch

/-- Load a graft envelope: the state, the code and the first cluster that refused (R408, R417, R418). -/
def installGraft (s : State) (rootstock : Bool) (e : Envelope) : State × BitVec 8 × Nat :=
  let code := envCode s 2 e
  let s := if envHead s 2 e = 0 then noteMldsa s e else s
  let ts := graftTargets s e.gmask
  let c0 := (ts.head?).getD 0
  if code ≠ 0 then (s, code, c0)
  else
    let t : Store := ⟨storeOf 1024 e.image.micro, storeOf 256 e.image.nano⟩
    if t.checkGraft ≠ 0 then (s, t.checkGraft, c0)
    else
      let bad := ts.filter (fun c => !graftOpen s rootstock c)
      let s' := (ts.filter (graftOpen s rootstock)).foldl (fun (s : State) (c : Nat) => putGraft s e t c) s
      match bad with
      | [] => (s', 0, 0)
      | c :: _ => (s', 0x0C, c)

/-! The vintage loader (R410, R422). -/

/-- A switch is in progress in cluster `c`: PCL.CSRC.SWB (R411). -/
def swbOf (s : State) (c : Nat) : Bool :=
  (List.range 5).any (fun k => decide ((pilot s (8 * c + k)).src ≠ (csrcOf s c).sel.toNat))

/-- Set VIN.STAT.CODE. -/
def setCode (s : State) (code : BitVec 8) : State := { s with vin := { s.vin with code := code } }

/-- KIND of the envelope at VIN.SRC.OFFS (R416, R422). -/
def stagedKind (s : State) : BitVec 16 := (hmWord s (s.vin.offs.toNat / 8)).val.extractLsb' 48 16

/-- A vintage load of bank `v` of the listed clusters would be refused with BUSY (R410). -/
def loadBusy (s : State) (cs : List Nat) (v : Bool) : Bool :=
  cs.any (fun c => decide ((csrcOf s c).sel.toNat = 1 + v.toNat) || swbOf s c)

/-- A write of VIN.LOAD (R410, R422). -/
def vinWrite (s : State) (rights : Bool) (v : W32) : State :=
  let x := s.vin
  let s := if rights then { s with vin := { x with bank := v.getLsbD 16, cmask := v.extractLsb' 0 16 } } else s
  if v.getLsbD 31 = false then s
  else
    let x := s.vin
    let graft := decide (stagedKind s = 2)
    let cs := if graft then [] else maskClusters s x.cmask
    if x.busy || loadBusy s cs x.bank then setCode s 0x0C
    else
      putBanks { s with vin := { x with busy := true, ldBank := x.bank, ldMask := if graft then 0 else x.cmask } } cs x.bank
        { state := 1 }

/-- VIN_LOAD (R410). -/
def execVinLoad (rq : Requester) (v : BitVec 32) (s : State) : Out :=
  .next (vinWrite (ctlWake rq s) (sealRights s rq) v)

/-- The end of a load in VIN.STAT. -/
def endLoad (s : State) (code : BitVec 8) (c : Nat) : State :=
  { s with vin := { s.vin with busy := false, done := true, code := code,
                               cluster := if code = 0 then s.vin.cluster else BitVec.ofNat 4 c } }

/-- The first cluster of a list. -/
def firstCluster (cs : List Nat) : Nat := (cs.head?).getD 0

/-- VIN_LOAD_DONE (R410, R418 to R420). -/
def execVinLoadDone (env : Envelope) (s : State) : Out :=
  .next (
    if s.vin.busy = false then s
    else
      let cs := maskClusters s s.vin.ldMask
      if env.kind = 2 ∧ cs = [] then
        let r := installGraft s false env
        endLoad r.1 r.2.1 r.2.2
      else
        let r := loadVintage s cs s.vin.ldBank env
        endLoad r.1 r.2 (firstCluster cs))

/-! The control source (R409, R411 to R413, R421). -/

/-- PCL.CSRC[c] as it reads. -/
def csrcWord (s : State) (c : Nat) (rights : Bool) : W32 :=
  let x := csrcOf s c
  let cur : Nat → Bool := fun k => decide ((pilot s (8 * c + k)).src = x.sel.toNat)
  bit1 (swbOf s c) ++ bit1 (rights && x.hold) ++ (0 : BitVec 17) ++ bit1 (cur 4) ++ bit1 (cur 3) ++ bit1 (cur 2) ++
    bit1 (cur 1) ++ bit1 (cur 0) ++ (0 : BitVec 6) ++ (if rights then x.sel else 0)

/-- The pilot runs no instruction: it changes source at once (R411). -/
def idlePilot (s : State) (p : Nat) : Bool :=
  let x := pilot s p
  decide (x.role ≠ .active) || x.inReset || inWait s p

/-- Cluster `c` selects source `v`; pilots in WAIT or idle change at once (R411). -/
def selectSrc (s : State) (c : Nat) (v : BitVec 2) : State :=
  let s := setCsrc s c { csrcOf s c with sel := v }
  (List.range 5).foldl (fun (s : State) (k : Nat) =>
    if idlePilot s (8 * c + k) then updPilot s (8 * c + k) (fun x => { x with src := v.toNat }) else s) s

/-- CXFMT refuses the switch (R412). -/
def cxRefused (s : State) (c : Nat) (v : BitVec 2) : Bool :=
  let old := (csrcOf s c).sel
  let bank : BitVec 2 → VBank := fun k => vbankOf s c (decide (k = 2))
  if v = 0 then false
  else if old = 0 then
    (List.range 5).any (fun k => (List.range 8).any (fun n => decide (((pilot s (8 * c + k)).setOf n).scx ≠ 0)))
  else decide ((bank old).cxfmt ≠ (bank v).cxfmt)

/-- A write of SEL (R411 to R413, R421). -/
def selWrite (s : State) (c : Nat) (v : BitVec 2) : State :=
  if v = 3 then s
  else if swbOf s c then setCode s 0x0C
  else if v = (csrcOf s c).sel then s
  else if v ≠ 0 ∧ (vbankOf s c (decide (v = 2))).state ≠ 2 then setCode s 0x0C
  else if cxRefused s c v then setCode s 0x0E
  else selectSrc s c v

/-- Pilot `p` is put into reset: its moorings break with cause RESET, its turns and claims end (R139, R385,
R409). -/
def resetPilot (s : State) (p : Nat) : State :=
  let s := breakPilot s p .reset
  let s := endTurns s p (fun _ => true)
  let s := releaseClaims s (fun _ k => decide (k.pilot = p))
  updPilot s p (fun x => { x.reset with inReset := true })


/-- Pilot `p` may run: its role is ACTIVE, its cluster is not held, its checker has not failed, and Proving has
ended (R409, R445, R486). -/
def mayRun (s : State) (p : Nat) : Bool :=
  decide ((pilot s p).role = .active) && !(csrcOf s (clusterOf p)).hold &&
    decide ((chkOf s (clusterOf p)).state ≠ 2) && s.boot.served

/-- The pilot leaves reset where it may run. -/
def leaveReset (s : State) (p : Nat) : State :=
  if mayRun s p then updPilot s p (fun x => { x with inReset := false }) else s

/-- A change of HOLD of cluster `c` (R409). -/
def holdWrite (s : State) (c : Nat) (h : Bool) : State :=
  if (csrcOf s c).hold = h then s
  else
    let s := setCsrc s c { csrcOf s c with hold := h }
    let ps := (List.range 5).map (fun k => 8 * c + k)
    let s := ps.foldl (fun (s : State) (p : Nat) => if h then resetPilot s p else leaveReset s p) s
    let s := if h then ps.foldl (fun (s : State) (p : Nat) =>
        updPilot s p (fun x => { x with src := (csrcOf s c).sel.toNat })) s else s
    noteOrphans s

/-- A write of PCL.CSRC[c]: HOLD, then SEL (R421). -/
def csrcWrite (s : State) (rights : Bool) (c : Nat) (v : W32) : State :=
  if rights && decide (c < s.blk.build.clusters) then selWrite (holdWrite s c (v.getLsbD 30)) c (v.extractLsb' 0 2) else s

/-- SEL_WRITE (R411). -/
def execSelWrite (rq : Requester) (c : Nat) (v : BitVec 32) (s : State) : Out :=
  .next (csrcWrite (ctlWake rq s) (sealRights s rq) c v)

/-- HOLD_WRITE (R409). -/
def execHoldWrite (rq : Requester) (c : Nat) (v : BitVec 32) (s : State) : Out :=
  .next (csrcWrite (ctlWake rq s) (sealRights s rq) c v)

/-- A write of PCL.GM[c][k] (R408). -/
def gmWrite (s : State) (rights : Bool) (c k : Nat) (v : W32) : State :=
  if !rights || decide (16 < c) || decide (15 < k) then s
  else if graftOpen s false c then putGm s c k v
  else setCode s 0x0C

/-- GRAFT_MATCH_WRITE (R408). -/
def execGraftMatchWrite (rq : Requester) (c k : Nat) (v : BitVec 32) (s : State) : Out :=
  .next (gmWrite (ctlWake rq s) (sealRights s rq) c k v)

/-! Checkers (R441 to R447). -/

/-- The pilots of a cluster. -/
def slotsOf (c : Nat) : List Nat := (List.range 5).map (fun k => 8 * c + k)

/-- Every pilot of a cluster whose checker has FAILED is retired without a test and held in reset (R445). -/
def retireCluster (s : State) (c : Nat) : State :=
  let s := (slotsOf c).foldl (fun (s : State) (p : Nat) =>
    updPilot (retire s p) p (fun x => { x with role := .offline })) s
  noteOrphans (setChk s c { chkOf s c with sparePresent := false })

/-- A usable cluster remains: a checker that is not FAILED. -/
def anyCluster (s : State) : Bool := (List.range s.blk.build.clusters).any (fun c => decide ((chkOf s c).state ≠ 2))

/-- The checker of cluster `c` changes state (R444, R445): the change is logged. -/
def setChecker (s : State) (c : Nat) (v : BitVec 2) : State :=
  let k := chkOf s c
  if k.state = v then s
  else
    let s := setChk s c { k with state := v }
    let s := hmLog s 0x302 (BitVec.ofNat 64 c) ((k.state ++ v).setWidth 64)
    if v ≠ 2 then s
    else
      let s := retireCluster s c
      if anyCluster s then s else quarantine s 6

/-- An injection failure or a repeated rehabilitation moves the checker on (R444). -/
def suspect (s : State) (c : Nat) : State :=
  if (chkOf s c).state = 0 then setChecker s c 1 else setChecker s c 2

/-- Injection tests of cluster `c` are counted (R447). -/
def countInj (s : State) (c : Nat) (run fail : Nat) : State :=
  let k := chkOf s c
  setChk s c { k with run := satAdd k.run run, fail := satAdd k.fail fail }

/-- A checker's comparator exists and is clocked. -/
def injectable (s : State) (p : Nat) : Bool :=
  isPilot s p && decide (s.blk.mode ≠ 4) && decide ((chkOf s (clusterOf p)).state ≠ 2)

/-- INJECTION_TEST (R441, R442, R444): `again` is the verdict of the repeated test in GOOD. -/
def execInjectionTest (p : Nat) (pass again : Bool) (s : State) : Out :=
  .next (
    let c := clusterOf p
    if !injectable s p then s
    else if pass then countInj s c 1 0
    else if (chkOf s c).state = 0 then
      if again then setChecker (countInj s c 2 1) c 1 else setChecker (countInj s c 2 2) c 2
    else setChecker (countInj s c 1 1) c 2)

/-- INJECTION_FORCE (R442): the checker holds issue for 4 fc; FORCED counts. -/
def execInjectionForce (p : Nat) (s : State) : Out :=
  .next (
    if injectable s p then
      let k := chkOf s (clusterOf p)
      setChk s (clusterOf p) { k with forced := satInc k.forced }
    else s)

/-- A write of PCL.CHK[c].CTL (R447): one injection test on each of the five comparators. -/
def injnowWrite (s : State) (rights : Bool) (c : Nat) (v : W32) : State :=
  if rights && v.getLsbD 0 && decide (c < s.blk.build.clusters) && injectable s (8 * c) then countInj s c 5 0 else s

/-- INJNOW (R447). -/
def execInjnow (rq : Requester) (c : Nat) (v : BitVec 32) (s : State) : Out :=
  .next (injnowWrite (ctlWake rq s) (sealRights s rq) c v)

/-- A write of PCL.PST[p].FORCE (R448). -/
def forceWrite (s : State) (rights : Bool) (p : Nat) (v : W32) : State :=
  if rights && isPilot s p then
    updPilot s p (fun x => { x with once := x.once || v.getLsbD 0, twice := x.twice || v.getLsbD 1 })
  else s

/-- FORCE_ONCE (R448). -/
def execForceOnce (rq : Requester) (p : Nat) (v : BitVec 32) (s : State) : Out :=
  .next (forceWrite (ctlWake rq s) (sealRights s rq) p v)

/-- FORCE_TWICE (R448). -/
def execForceTwice (rq : Requester) (p : Nat) (v : BitVec 32) (s : State) : Out :=
  .next (forceWrite (ctlWake rq s) (sealRights s rq) p v)

/-! Retry, substitution and the pilot test (R432 to R439). -/

/-- One bit of a 128-bit set moves from `f` to `t`. -/
def moveBit (x : BitVec 128) (f t : Nat) : BitVec 128 :=
  if x.getLsbD f then (x &&& ~~~((1 : BitVec 128) <<< f)) ||| ((1 : BitVec 128) <<< t) else x

/-- Every reference to pilot `f` passes to `t` (R436 step 4). -/
def moveRefs (s : State) (f t : Nat) : State :=
  let mv : Moor → Moor := fun m => if m.mst = 1 ∧ m.owner.toNat = f then { m with owner := BitVec.ofNat 7 t } else m
  let tn : Option Turn → Option Turn := fun o => o.map (fun u => if u.pilot = f then { u with pilot := t } else u)
  let cl : Src → Src := fun x => { x with claim := x.claim.map (fun k => if k.pilot = f then { k with pilot := t } else k) }
  let evc := s.evc
  let srcs := Table.mapVals {} (fun _ x => cl x) evc.src
  let x := Table.get {} srcs (0xF00 + f)
  let y := Table.get {} srcs (0xF00 + t)
  let srcs := Table.put {} (Table.put {} srcs (0xF00 + f) { x with pend := false }) (0xF00 + t) { y with pend := y.pend || x.pend }
  { s with
    own := Table.mapVals {} (fun _ e => { e with moor := mv e.moor }) s.own,
    moor := Table.mapVals {} (fun _ m => mv m) s.moor,
    rings := Table.mapVals {} (fun _ r => { r with turn := tn r.turn }) s.rings,
    evc := { evc with src := srcs, tset := Table.mapVals 0 (fun _ v => moveBit v f t) evc.tset },
    dbg := { s.dbg with req := moveBit s.dbg.req f t } }

/-- The words of pilot `f`'s cask move to pilot `t`'s (R436 step 3). -/
def moveCask (s : State) (f t : Nat) : State :=
  let old := s.cask.filter (fun e => decide (e.1 / 8192 ≠ t))
  { s with cask := (s.cask.filter (fun e => decide (e.1 / 8192 = f))).foldl (fun (m : Table TWord) (e : Nat × TWord) =>
      Table.put emptyW m (8192 * t + e.1 % 8192) e.2) old }

/-- The context of pilot `f` runs on in `t`, whose own counters stay (R436, R446, R448). -/
def moveContext (s : State) (f t : Nat) : State :=
  let x := pilot s f
  let y := pilot s t
  let z : Pilot := { x with role := .active, standin := BitVec.ofNat 3 (f % 8), subbed := false,
                            subinfo := (1 : BitVec 1) ++ BitVec.ofNat 7 f, mism := y.mism, tpar := y.tpar,
                            retryok := y.retryok, fail2 := y.fail2, once := y.once, twice := y.twice,
                            mismBase := y.mismBase, mismTick := y.mismTick, frozen := false }
  let s := setPilot s t z
  updPilot s f (fun x => { x.reset with role := .testing, subbed := true, inReset := true })

/-- Spare substitution, or retirement where there is no spare or its sweep fails (R435, R436, R438, R525). -/
def substitute (s : State) (f : Nat) (sweepOk : Bool) : State :=
  let c := clusterOf f
  let k := chkOf s c
  let t := 8 * c + k.spare.toNat
  if f = hmNo ∨ k.sparePresent = false ∨ (pilot s t).role ≠ .spare then retire s f
  else if sweepOk = false then
    retire (setChk (updPilot s t (fun x => { x with role := .offline })) c { k with sparePresent := false }) f
  else
    let s := moveContext (moveCask (moveRefs s f t) f t) f t
    setChk s c { chkOf s c with sparePresent := false, subst := satInc k.subst }

/-- The pilot runs check windows: an ACTIVE pilot, or the Harbourmaster, out of reset. -/
def runsWindows (s : State) (p : Nat) : Bool :=
  let x := pilot s p
  pilotExists s p && !x.inReset && (decide (p = hmNo) || (decide (x.role = .active) && decide (s.blk.mode ≠ 4)))

/-- A retry agrees (R432): its window commits, and the lease and the watchdog run again. -/
def retryAgrees (s : State) (p : Nat) : State :=
  commitWin (updPilot s p (fun x => { x with retryok := satInc x.retryok, ckOk := satInc x.ckOk, frozen := false })) p

/-- A retry mismatches (R432, R435): the checkpoint is restored again, for the substitution that follows. -/
def retryFails (s : State) (p : Nat) : State :=
  updPilot s p (fun x => { x.restored with fail2 := satInc x.fail2, twice := false })

/-- RETRY_COMPARE (R432, R435 to R438): the retried window of pilot `p` closes and is compared.  A forced second flip
makes the retry mismatch (R448).  With no retry under way, the window under way mismatches by a fault and its retry
begins (DESIGN CHOICE, log 75). -/
def execRetryCompare (p : Nat) (agree sweepOk : Bool) (s : State) : Out :=
  .next (
    if !runsWindows s p then s
    else if !(pilot s p).frozen then mismatch s p
    else if agree && !(pilot s p).twice && (pilot s p).win.agrees then
      let s := retryAgrees s p
      if 8 ≤ (pilot s p).mismBase then substitute (updPilot s p (fun x => { x with mismBase := 0 })) p sweepOk
      else s
    else substitute (retryFails s p) p sweepOk)

/-- A substituted pilot has passed its test (R439, R444): it becomes the cluster's spare. -/
def rehabilitate (s : State) (p : Nat) : State :=
  let c := clusterOf p
  let k := chkOf s c
  let soon := match k.lastRehab with
    | some t => decide (since s t ≤ 100000000)
    | none => false
  let s := updPilot s p (fun x => { x with role := .spare, subbed := false })
  let s := setChk s c { k with sparePresent := true, spare := BitVec.ofNat 3 (p % 8), rehab := satInc k.rehab,
                               lastRehab := some s.tide.count }
  if soon then suspect s c else s

/-- PILOT_TEST_DONE (R439). -/
def execPilotTestDone (p : Nat) (pass : Bool) (s : State) : Out :=
  .next (
    if !pilotExists s p || decide ((pilot s p).role ≠ .testing) then s
    else if !pass then updPilot s p (fun x => { x with role := .offline, subbed := false })
    else if (pilot s p).subbed then rehabilitate s p
    else
      let s := updPilot s p (fun x => { x with role := .active, src := (csrcOf s (clusterOf p)).sel.toNat })
      noteOrphans (leaveReset s p))

end Sys2Proof.Machine
end

