-- ==== Sys2Proof/Machine/Mailbox.lean ====
section
/-! DEFINITION. Machine/Mailbox.lean: charter slots as they are judged (R491, R492, R507), the mailbox and its
commands (R532 to R537), the flash log (R531) and the processor's restart (R525). -/

namespace Sys2Proof.Machine

/-! A charter slot's headers (R490 to R492, R507). -/

/-- The checks of the key block and of the envelope of a charter, up to its signatures: the first failure's code, 0
with none. -/
def charterHead (s : State) (h : SlotHdr) : BitVec 8 :=
  let e := h.env
  if h.flashErr then 0x16
  else if h.erased then 0x17
  else if !h.keyBlockOk then 0x10
  else if !e.fmtOk || !e.plenOk || decide (e.kind ≠ 3) || decide (e.cxfmt ≠ 0) then 0x01
  else if 2 ≤ e.keyset.toNat ∨ (e.keyset = 1 ∧ h.keySet1 = false) then 0x11
  else if e.isa ≠ 1 ∨ e.config.getLsbD s.blk.build.imageBit = false ∨ e.config.extractLsb' 3 5 ≠ 0 then 0x02
  else if e.svn < s.hm.svn then 0x03
  else if !e.ecdsaOk || (!e.mldsaOk && decide (2 ≤ s.hm.lc.toNat)) then 0x04
  else 0

/-! Harbourmaster memory by bytes (R526). -/

/-- One byte of Harbourmaster memory. -/
def hmByte (s : State) (a : Nat) : Byte := (hmWord s (a / 8)).val.extractLsb' (8 * (a % 8)) 8

/-- Write one byte; the word becomes INT. -/
def putHmByte (s : State) (a : Nat) (b : Byte) : State :=
  let m : W64 := (0xFF : W64) <<< (8 * (a % 8))
  setHmWord s (a / 8) (intW (((hmWord s (a / 8)).val &&& ~~~m) ||| (b.setWidth 64 <<< (8 * (a % 8)))))

/-- Write bytes from `a` upward. -/
def putHmBytes : State → Nat → List Byte → State
  | s, _, [] => s
  | s, a, b :: bs => putHmBytes (putHmByte s a b) (a + 1) bs

/-- The first `n` bytes of the mailbox buffer. -/
def bufBytes (s : State) (n : Nat) : List Byte := (List.range n).map (fun k => hmByte s (0x160000 + k))

/-! Starting and ending a command (R532). -/

def mbOk : BitVec 8 := 0
def mbBadCmd : BitVec 8 := 1
def mbBadArg : BitVec 8 := 2
def mbState : BitVec 8 := 3
def mbVerify : BitVec 8 := 4
def mbFlash : BitVec 8 := 5
def mbDenied : BitVec 8 := 6

/-- ARG i of the command that runs. -/
def mbArg (s : State) (i : Nat) : W64 := Table.get 0 s.hm.arg i

/-- The command ends: STATUS, DETAIL, SEQ and the results are written, BUSY clears and DONE sets. -/
def mbEnd (s : State) (st dt : BitVec 8) : State :=
  let h := s.hm
  { s with hm := { h with busy := false, done := true, rseq := h.mbseq, rstatus := st, rdetail := dt } }

/-- Results. -/
def mbRes (s : State) (r0 r1 : W64) : State := { s with hm := { s.hm with res0 := r0, res1 := r1 } }

/-- BUSY as it reads: a command runs, or the processor restarts (R525, R532). -/
def mbBusy (s : State) : Bool := s.hm.busy || s.hm.restarting

/-- The block runs a mailbox command in mode 5, 6 or 7. -/
def modeIn (s : State) (l : List Nat) : Bool := l.contains s.blk.mode.toNat

/-- ECHO. -/
def mbEcho (s : State) : State := mbEnd (mbRes s (mbArg s 0) s.hm.res1) mbOk 0

/-- STAGE_BEGIN. -/
def mbStageBegin (s : State) : State :=
  let k : BitVec 16 := (mbArg s 0).extractLsb' 0 16
  let n := (mbArg s 1).toNat
  if k = 0 ∨ 3 < k.toNat ∨ (if k = 3 then 0x800000 else 0x40000) < n then mbEnd s mbBadArg 0
  else
    let c := if k = 3 then s.hm.committed else none
    let slot := decide (s.boot.slot = 1)
    let s := { s with hm := { s.hm with session := some ⟨k, n, 0, []⟩, committed := c } }
    let s := if k = 3 then emit s (.flashSlot slot 0 [255, 255, 255, 255]) else s
    mbEnd s mbOk 0

/-- The slot that a charter session writes: the one that BLK.BOOT.SLOT does not name, A when none is (R533). -/
def updateSlotB (s : State) : Bool := decide (s.boot.slot = 1)

/-- STAGE_DATA. -/
def mbStageData (s : State) : State :=
  match s.hm.session with
  | none => mbEnd s mbState 0
  | some x =>
    let off := (mbArg s 0).toNat
    let n := (mbArg s 1).toNat
    if n = 0 ∨ 32768 < n ∨ off ≠ x.got ∨ x.len < off + n then mbEnd s mbBadArg 0
    else
      let bs := bufBytes s n
      let keep := 4 - off
      let y := { x with got := x.got + n, first := x.first ++ bs.take keep }
      let s := { s with hm := { s.hm with session := some y } }
      let s := if x.kind = 3 then emit s (.flashSlot (updateSlotB s) (off + Nat.min keep n) (bs.drop keep))
               else putHmBytes s (0x100000 + off) bs
      mbEnd s mbOk 0

/-- A staged image is rejected: it is logged and the session closes (R533). -/
def reject (s : State) (k : BitVec 16) (st dt : BitVec 8) : State :=
  let s := hmLog s 0x703 (k.setWidth 64) ((st ++ dt).setWidth 64)
  mbEnd { s with hm := { s.hm with session := none } } st dt

/-- STAGE_COMMIT (R533). -/
def mbStageCommit (s : State) (h : SlotHdr) (flashErr : Bool) : State :=
  match s.hm.session with
  | none => mbEnd s mbState 0
  | some x =>
    if x.got < x.len then mbEnd s mbState 0
    else if x.kind = 3 then
      let c := charterHead s { h with erased := false }
      let e := h.env
      let c := if c = 0x16 then 0 else c
      if flashErr || h.flashErr then reject s 3 mbFlash 0
      else if c ≠ 0 then reject s 3 mbVerify c
      else
        let s := noteMldsa s e
        if envBody s e ≠ 0 then reject s 3 mbVerify (envBody s e)
        else
          mbEnd { (emit s (.flashSlot (updateSlotB s) 0 x.first)) with hm := { s.hm with session := none } } mbOk 0
    else
      let c := envHead s x.kind h.env
      if c ≠ 0 then reject s x.kind mbVerify c
      else
        let s := noteMldsa s h.env
        mbEnd { s with hm := { s.hm with session := none, committed := some x.kind } } mbOk 0

/-- The roll-out ends: RES0 reports the clusters switched (R534). -/
def rollEnd (s : State) (done : BitVec 16) (st dt : BitVec 8) : State :=
  let s := { s with hm := { s.hm with roll := none } }
  mbEnd (mbRes s (done.setWidth 64) s.hm.res1) st dt

/-- The roll-out writes SEL of its next cluster, or ends (R534). -/
def rollNext (s : State) (todo : List Nat) (done : BitVec 16) (bank : Bool) : State :=
  match todo with
  | [] => rollEnd s done mbOk 0
  | c :: _ =>
    let v : BitVec 2 := if bank then 2 else 1
    let s' := selWrite s c v
    if (csrcOf s' c).sel ≠ v then rollEnd s' done mbVerify s'.vin.code
    else { s' with hm := { s'.hm with roll := some (todo, done, bank) } }

/-- ROLLOUT (R534). -/
def mbRollout (s : State) (env : Envelope) : State :=
  let a := mbArg s 0
  let bank := a.getLsbD 16
  let cs := maskClusters s (a.extractLsb' 0 16)
  if modeIn s [5, 6, 7] || decide (s.hm.committed ≠ some 1) then mbEnd s mbState 0
  else if s.vin.busy || loadBusy s cs bank then
    mbEnd (mbRes (setCode s 0x0C) 0 (BitVec.ofNat 64 (firstCluster cs))) mbVerify 0x0C
  else
    let s := { s with vin := { s.vin with bank := bank, cmask := a.extractLsb' 0 16, ldBank := bank, ldMask := a.extractLsb' 0 16 } }
    let r := loadVintage s cs bank env
    let s := endLoad r.1 r.2 (firstCluster cs)
    if r.2 ≠ 0 then mbEnd (mbRes s 0 (s.vin.cluster.setWidth 64)) mbVerify r.2
    else rollNext s cs 0 bank

/-- The switch of the roll-out's current cluster has ended (R534). -/
def rollStep (s : State) : State :=
  match s.hm.roll with
  | none => s
  | some (todo, done, bank) =>
    match todo with
    | [] => rollEnd s done mbOk 0
    | c :: cs =>
      if swbOf s c then s
      else
        let done := done ||| ((1 : BitVec 16) <<< c)
        if modeIn s [5, 6, 7] then rollEnd s done mbOk 0 else rollNext s cs done bank

/-- GRAFT (R532): each target cluster is held while its graft is installed. -/
def mbGraft (s : State) (env : Envelope) : State :=
  if !modeIn s [7] || decide (s.hm.committed ≠ some 2) then mbEnd s mbState 0
  else
    let cs := (graftTargets s env.gmask).filter (fun c => decide (c < 16) && !(csrcOf s c).hold)
    let s := cs.foldl (fun (s : State) (c : Nat) => holdWrite s c true) s
    let r := installGraft s true env
    let s := cs.foldl (fun (s : State) (c : Nat) => holdWrite s c false) r.1
    let s := endLoad s r.2.1 r.2.2
    if r.2.1 = 0 then mbEnd s mbOk 0 else mbEnd s mbVerify r.2.1

/-- BOOTCTL. -/
def mbBootctl (s : State) : State :=
  let a := mbArg s 0
  mbEnd { s with boot := { s.boot with pick := a.extractLsb' 1 2, maint := a.getLsbD 0 } } mbOk 0

/-- Orderly unpairing starts: admission on own rings pauses (R188). -/
def startUnpair (s : State) : State :=
  let s := updTw s (fun t => { t with unpairing := true })
  if s.blk.mode = 4 then startWake s 7 else s

/-- UNPAIR. -/
def mbUnpair (s : State) : State :=
  if s.hbr.tstate = 0 then mbEnd s mbState 0 else mbEnd (startUnpair s) mbOk 0

/-- QUARANTINE (R502). -/
def mbQuarantine (s : State) : State :=
  if modeIn s [6, 7] then mbEnd s mbState 0 else mbEnd (quarantine s 9) mbOk 0

/-- The frozen entries of a block in Quarantine of kind FREEZE are discarded (R504). -/
def discardFrozen (s : State) : State :=
  { s with own := Table.mapVals {} (fun _ e => if e.st = 0 then e else e.retired) s.own, xc := [], dcmds := [], bays := [],
           rings := Table.mapVals {} (fun _ r => { r with outst := 0, decw := 0, slots := [], decls := [], helds := [] }) s.rings }

/-- A management command for Maintenance (R501, R504): entry follows once the block has unpaired and drained; in FREEZE
nothing is waited for, and in Takeover the entry waits for its end. -/
def startMaint (s : State) : State :=
  if modeIn s [0, 1, 2, 7] then s
  else if quarFreeze s then maintNow (discardFrozen s) 1
  else
    let s := updTw s (fun t => { t with maintWait := true })
    let s := if decide (s.hbr.tstate ≠ 0) && decide (s.blk.mode ≠ 5) then startUnpair s else s
    if s.blk.mode = 4 then startWake s 7 else s

/-- MAINTENANCE. -/
def mbMaintenance (s : State) : State :=
  if modeIn s [7] then mbEnd s mbState 0 else mbEnd (startMaint s) mbOk 0

/-- A log record by SEQ: from memory, or from a log page (R530, R531). -/
def logRec (s : State) (q : W32) : Option (List W64) :=
  let back := (s.hm.seqNext - q).toNat
  if 1 ≤ back ∧ back ≤ 2048 ∧ back ≤ s.hm.seqNext.toNat then
    let k := (s.hm.lognext.toNat + 2048 - back) % 2048
    let ws := Table.getList emptyW s.hmmem (0x28000 + 4 * k) 4
    if (ws.getD 1 emptyW).val.extractLsb' 32 32 = q then some (ws.map (·.val)) else none
  else
    (s.hm.pages.find? (fun p => decide ((q - p.first).toNat < p.recs.length))).bind
      (fun p => p.recs[(q - p.first).toNat]?)

/-- Records from SEQ `q` on, at most `n`. -/
def logRun (s : State) : Nat → W32 → List (List W64)
  | 0, _ => []
  | n + 1, q =>
    match logRec s q with
    | some r => r :: logRun s n (q + 1)
    | none => []

/-- The first SEQ at or after `q` that has a record. -/
def logFirst (s : State) (q : W32) : W32 :=
  if (logRec s q).isSome then q
  else
    let cands := (s.hm.pages.map (·.first)) ++ [s.hm.seqNext - BitVec.ofNat 32 (Nat.min 2048 s.hm.seqNext.toNat)]
    (cands.filter (fun c => decide (q.toNat ≤ c.toNat) && (logRec s c).isSome)).foldl
      (fun (m : W32) (c : W32) => if c.toNat < m.toNat then c else m) s.hm.seqNext

/-- Write the words of records into the mailbox buffer. -/
def putRecs : State → Nat → List (List W64) → State
  | s, _, [] => s
  | s, k, r :: rs => putRecs { s with hmmem := Table.putList emptyW s.hmmem (0x2C000 + 4 * k) (r.map intW) } (k + 1) rs

/-- LOGREAD. -/
def mbLogread (s : State) : State :=
  let n := (mbArg s 1).toNat
  if n = 0 ∨ 1024 < n then mbEnd s mbBadArg 0
  else
    let q := logFirst s ((mbArg s 0).extractLsb' 0 32)
    let rs := logRun s n q
    mbEnd (mbRes (putRecs s 0 rs) (q.setWidth 64) (BitVec.ofNat 64 rs.length)) mbOk 0

/-- KEYACCT (R537). -/
def mbKeyacct (s : State) : State :=
  let h := ((mbArg s 0).extractLsb' 0 12).toNat
  let a := Table.get {} s.hm.acct h
  let k := keyOf s h
  mbEnd (mbRes s (a.total + k.use.setWidth 64) (k.gen ++ (0 : BitVec 8) ++ a.rekeys)) mbOk 0

/-- SVNSET (R533). -/
def mbSvnset (s : State) : State :=
  let v : W32 := (mbArg s 0).extractLsb' 0 32
  if v < s.hm.svn then mbEnd s mbDenied 0 else mbEnd { s with hm := { s.hm with svn := v } } mbOk 0

/-- LCADV (R535). -/
def mbLcadv (s : State) : State :=
  let t : BitVec 2 := (mbArg s 0).extractLsb' 0 2
  if s.hm.lc < t then mbEnd (emit s (.lcAdvance t)) mbOk 0 else mbEnd s mbDenied 0

/-- A command that needs nothing from outside runs; STAGE_COMMIT, ROLLOUT and GRAFT stay BUSY until their images have
been judged. -/
def mbRun (s : State) (code : BitVec 8) : State :=
  match code.toNat with
  | 1 => mbEcho s
  | 2 => mbStageBegin s
  | 3 => mbStageData s
  | 4 => s
  | 5 => s
  | 6 => s
  | 7 => mbBootctl s
  | 8 => mbUnpair s
  | 9 => mbQuarantine s
  | 10 => mbMaintenance s
  | 11 => mbLogread s
  | 12 => mbKeyacct s
  | 13 => mbSvnset s
  | 14 => mbLcadv s
  | _ => mbEnd s mbBadCmd 0

/-- A write of HM.MBCMD (R532) with what runs when it is accepted. -/
def mbCommand (s : State) (code seq : BitVec 8) (run : State → State) : State :=
  if mbBusy s then { s with hm := { s.hm with ovr := true } }
  else run { s with hm := { s.hm with busy := true, mbcode := code, mbseq := seq } }

/-- The arguments are written. -/
def mbArgs (s : State) (m : Mbx) : State := { s with hm := { s.hm with arg := Table.putList 0 s.hm.arg 0 [m.a0, m.a1, m.a2, m.a3] } }

/-- A mailbox command as a whole: its arguments, its command word and what it does.  Where a command word of the same
CODE has been written and waits for its image's verdicts, the command is that one. -/
def mbWhole (s : State) (code : BitVec 8) (m : Mbx) (run : State → State) : State :=
  if s.hm.busy && !s.hm.restarting && decide (s.hm.mbcode = code) && decide (4 ≤ code.toNat) && decide (code.toNat ≤ 6) &&
      s.hm.roll.isNone then run s
  else mbCommand (mbArgs s m) code m.seq run

/-- ECHO (R532). -/
def execEcho (m : Mbx) (s : State) : Out := .next (mbWhole s 1 m mbEcho)

/-- STAGE_BEGIN (R532). -/
def execStageBegin (m : Mbx) (s : State) : Out := .next (mbWhole s 2 m mbStageBegin)

/-- STAGE_DATA (R532). -/
def execStageData (m : Mbx) (s : State) : Out := .next (mbWhole s 3 m mbStageData)

/-- STAGE_COMMIT (R533). -/
def execStageCommit (m : Mbx) (h : SlotHdr) (flashErr : Bool) (s : State) : Out :=
  .next (mbWhole s 4 m (fun s => mbStageCommit s h flashErr))

/-- ROLLOUT (R534). -/
def execRollout (m : Mbx) (env : Envelope) (s : State) : Out := .next (mbWhole s 5 m (fun s => mbRollout s env))

/-- ROLLOUT_NEXT_CLUSTER (R534). -/
def execRolloutNextCluster (s : State) : Out := .next (rollStep s)

/-- GRAFT (R532). -/
def execGraft (m : Mbx) (env : Envelope) (s : State) : Out := .next (mbWhole s 6 m (fun s => mbGraft s env))

/-- BOOTCTL (R532). -/
def execBootctl (m : Mbx) (s : State) : Out := .next (mbWhole s 7 m mbBootctl)

/-- UNPAIR (R188). -/
def execUnpair (m : Mbx) (s : State) : Out := .next (mbWhole s 8 m mbUnpair)

/-- QUARANTINE (R532). -/
def execQuarantine (m : Mbx) (s : State) : Out := .next (mbWhole s 9 m mbQuarantine)

/-- MAINTENANCE (R504). -/
def execMaintenance (m : Mbx) (s : State) : Out := .next (mbWhole s 10 m mbMaintenance)

/-- LOGREAD (R532). -/
def execLogread (m : Mbx) (s : State) : Out := .next (mbWhole s 11 m mbLogread)

/-- KEYACCT (R537). -/
def execKeyacct (m : Mbx) (s : State) : Out := .next (mbWhole s 12 m mbKeyacct)

/-- SVNSET (R533). -/
def execSvnset (m : Mbx) (s : State) : Out := .next (mbWhole s 13 m mbSvnset)

/-- LCADV (R535). -/
def execLcadv (m : Mbx) (s : State) : Out := .next (mbWhole s 14 m mbLcadv)

/-- MAINTENANCE_DRAINED (R504): the block has unpaired and drained, and Takeover has ended. -/
def execMaintenanceDrained (s : State) : Out :=
  .next (
    if !s.tw.maintWait || !modeIn s [3, 6] then s
    else if s.hbr.tstate ≠ 0 then (if s.tw.unpairing then s else startUnpair s)
    else if drained s then maintNow s 1
    else s)

/-- The erase that precedes the first page of a sector discards its four pages (R531). -/
def eraseFor (n : Nat) (l : List LogPage) : List LogPage :=
  if n % 4 = 0 then l.filter (fun p => decide (n < p.page + 61)) else l

/-- LOG_PAGE_WRITE (R531): at most 510 waiting records go to flash. -/
def execLogPageWrite (s : State) : Out :=
  .next (
    let h := s.hm
    let n := Nat.min 510 h.uncopied
    if n = 0 ∨ h.restarting = true then s
    else
      let first : W32 := h.seqNext - BitVec.ofNat 32 h.uncopied
      let recs := logRun s n first
      let pg : LogPage := ⟨h.nextPage, first, recs⟩
      let next := ((logRec s (first + BitVec.ofNat 32 n)).getD []).getD 0 0
      emit { s with hm := { h with uncopied := h.uncopied - n, oldest := if h.uncopied = n then h.oldest else next,
                                   pages := eraseFor h.nextPage h.pages ++ [pg], nextPage := h.nextPage + 1 } }
        (.flashWrite h.nextPage recs))

/-- HM_RESTART (R525): the processor restarts at Harbourmaster memory offset 0. -/
def execHmRestart (s : State) : Out :=
  .next (
    if s.hm.restarting then
      updPilot { s with hm := { s.hm with restarting := false } } hmNo (fun x => { x with inReset := false })
    else s)

end Sys2Proof.Machine
end

