-- ==== Sys2Proof/Machine/PilotMul.lean ====
section
/-! DEFINITION. Machine/PilotMul.lean: the multiplier, divider and accumulator instructions (R326, R327). -/

namespace Sys2Proof.Machine

/-- A field that names an accumulator: 0 to 3 (R326). -/
def isX (i : BitVec 5) : Bool := decide (i < 4)

/-- Signed and unsigned 128-bit products. -/
def mulS (a b : W64) : BitVec 128 := a.signExtend 128 * b.signExtend 128
def mulU (a b : W64) : BitVec 128 := a.setWidth 128 * b.setWidth 128

/-- A multiply issues (R327): it writes at the end of the third instruction that follows it. -/
def startMul (s : State) (p : Nat) (dst : MulDst) (v : BitVec 128) : State :=
  updPilot s p (fun x => { x with mulq := x.mulq ++ [⟨x.cur, 4, dst, v⟩] })

/-- The value that the next XMAC on Xk adds to: the result of the one in flight before it, or Xk (R327). -/
def xBase (x : Pilot) (k : Nat) : BitVec 128 :=
  match (x.mulq.filter (fun m => decide (m.dst = .acc k) && decide (m.bank = x.cur))).getLast? with
  | some m => m.val
  | none => (x.bankCur.xreg k).val

/-- MUL and MULU. -/
def mulBody (op : W64 → W64 → BitVec 128) (x : Pilot) (s : State) (f : RRR) : PRes :=
  match tagFail x.sw.world [(x.reg f.s, 0, isInt), (x.reg f.t, 1, isInt)] with
  | some tv => .trap 4 tv s
  | none => .done (startMul s f.p .mhml (op (x.reg f.s).val (x.reg f.t).val))

/-- XMAC and XMACU: an EMPTY accumulator traps TAG (R326). -/
def xmacBody (op : W64 → W64 → BitVec 128) (x : Pilot) (s : State) (f : RRR) : PRes :=
  let k := f.d.toNat
  let xt : TWord := ⟨0, (x.bankCur.xreg k).tag⟩
  match tagFail x.sw.world [(x.reg f.s, 0, isInt), (x.reg f.t, 1, isInt), (xt, 2, isInt)] with
  | some tv => .trap 4 tv s
  | none => .done (startMul s f.p (.acc k) (xBase x k + op (x.reg f.s).val (x.reg f.t).val))

/-- DIV and DIVU: quotient to Dd, remainder to D(d + 1); N and Z of the quotient, V under R325. -/
def divBody (q r : W64 → W64 → W64) (v : W64 → W64 → Bool) (x : Pilot) (s : State) (f : RRR) : PRes :=
  let a := x.reg f.s
  let b := x.reg f.t
  match tagFail x.sw.world [(a, 0, isInt), (b, 1, isInt)] with
  | some tv => .trap 4 tv s
  | none =>
    if b.val = 0 then .trap 10 0 s
    else
      let w := { x.sw.nz (q a.val b.val) with v := v a.val b.val }
      .done (updPilot s f.p (fun x =>
        { (x.wrInt f.d (q a.val b.val)).wrInt (f.d + 1) (r a.val b.val) with sw := w }))

def execMul (f : RRR) (s : State) : Out :=
  .next (rrr f 9 0 (decide (f.d = 0) && isD f.s && isD f.t) false s (fun x _ s => mulBody mulS x s f))

def execMulu (f : RRR) (s : State) : Out :=
  .next (rrr f 9 1 (decide (f.d = 0) && isD f.s && isD f.t) false s (fun x _ s => mulBody mulU x s f))

/-- The one signed quotient that overflows (R325). -/
def divOverflow (a b : W64) : Bool := decide (a = 0x8000000000000000) && decide (b = BitVec.allOnes 64)

/-- An even D register field (R326). -/
def isEvenD (i : BitVec 5) : Bool := isD i && !i.getLsbD 0

def execDiv (f : RRR) (s : State) : Out :=
  .next (rrr f 9 2 (isEvenD f.d && isD f.s && isD f.t) false s (fun x _ s =>
    divBody BitVec.sdiv BitVec.srem divOverflow x s f))

def execDivu (f : RRR) (s : State) : Out :=
  .next (rrr f 9 3 (isEvenD f.d && isD f.s && isD f.t) false s (fun x _ s =>
    divBody BitVec.udiv BitVec.umod (fun _ _ => false) x s f))

def execXmac (f : RRR) (s : State) : Out :=
  .next (rrr f 9 4 (isX f.d && isD f.s && isD f.t) false s (fun x _ s => xmacBody mulS x s f))

def execXmacu (f : RRR) (s : State) : Out :=
  .next (rrr f 9 5 (isX f.d && isD f.s && isD f.t) false s (fun x _ s => xmacBody mulU x s f))

def execMfx (f : RRR) (s : State) : Out :=
  .next (rrr f 9 6 (isD f.d && isX f.s && decide (f.t < 2)) false s (fun x _ s =>
    let r := x.bankCur.xreg f.s.toNat
    match tagFail x.sw.world [(⟨0, r.tag⟩, 0, isInt)] with
    | some tv => .trap 4 tv s
    | none => .done (updPilot s f.p (fun x =>
        x.wrInt f.d (if f.t = 0 then r.val.extractLsb' 0 64 else r.val.extractLsb' 64 64)))))

def execMtx (f : RRR) (s : State) : Out :=
  .next (rrr f 9 7 (isX f.d && isD f.s && isD f.t) false s (fun x _ s =>
    match tagFail x.sw.world [(x.reg f.s, 0, isInt), (x.reg f.t, 1, isInt)] with
    | some tv => .trap 4 tv s
    | none => .done (updPilot s f.p (fun x =>
        x.setCur (x.bankCur.setX f.d.toNat ⟨(x.reg f.t).val ++ (x.reg f.s).val, 1⟩)))))

def execXclr (f : RRR) (s : State) : Out :=
  .next (rrr f 9 8 (isX f.d && decide (f.s = 0) && decide (f.t = 0)) false s (fun _ _ s =>
    .done (updPilot s f.p (fun x => x.setCur (x.bankCur.setX f.d.toNat ⟨0, 1⟩)))))

end Sys2Proof.Machine
end

