-- ==== Sys2Proof/Machine/PilotDec.lean ====
section
/-! DEFINITION. Machine/PilotDec.lean: the single-word decimal instructions (R329, R330) and the word
operations of the multi-word ones (R331). -/

namespace Sys2Proof.Machine

/-- N and Z of a DEC word. -/
def decFlags (w : Sw) (v : W64) : Sw :=
  { w with n := decide (decVal v < 0), z := decide (decVal v = 0) }

/-- The sum or difference of two DEC words (R330): D records an overflow. -/
def decArith (i : Int) (x : Pilot) : TWord × Sw :=
  let r := decWord i
  (⟨r, 3⟩, { decFlags x.sw r with v := false, d := decide (10 ^ 15 ≤ i.natAbs) })

/-- DADD, DSUB and DCMP check their operands: DEC tags, then digits and signs (R320, R329, R330). -/
def decOperands (x : Pilot) (a b : TWord) : Option (BitVec 4 × W64) :=
  match tagFail x.sw.world [(a, 0, isDec), (b, 1, isDec)] with
  | some tv => some (4, tv)
  | none => if decOk a.val = false then some (11, a.val)
            else if decOk b.val = false then some (11, b.val) else none

def execDadd (f : RRR) (s : State) : Out :=
  .next (rrr f 10 0 (isD f.d && isD f.s && isD f.t) false s (fun x _ s =>
    match decOperands x (x.reg f.s) (x.reg f.t) with
    | some (c, tv) => .trap c tv s
    | none =>
      let r := decArith (decVal (x.reg f.s).val + decVal (x.reg f.t).val) x
      wrRes s f.p f.d r.1 r.2))

def execDsub (f : RRR) (s : State) : Out :=
  .next (rrr f 10 1 (isD f.d && isD f.s && isD f.t) false s (fun x _ s =>
    match decOperands x (x.reg f.s) (x.reg f.t) with
    | some (c, tv) => .trap c tv s
    | none =>
      let r := decArith (decVal (x.reg f.s).val - decVal (x.reg f.t).val) x
      wrRes s f.p f.d r.1 r.2))

def execDcmp (f : RRR) (s : State) : Out :=
  .next (rrr f 10 2 (decide (f.d = 0) && isD f.s && isD f.t) false s (fun x _ s =>
    match decOperands x (x.reg f.s) (x.reg f.t) with
    | some (c, tv) => .trap c tv s
    | none =>
      let a := decVal (x.reg f.s).val
      let b := decVal (x.reg f.t).val
      wrFlags s f.p { x.sw with z := decide (a = b), n := decide (a < b), v := false }))

/-- CVD (R325, R330): INT to DEC; a magnitude of 10^15 or more keeps the low 15 digits and the sign. -/
def execCvd (f : RRR) (s : State) : Out :=
  .next (rrr f 10 3 (isD f.d && isD f.s && decide (f.t = 0)) false s (fun x _ s =>
    match tagFail x.sw.world [(x.reg f.s, 0, isInt)] with
    | some tv => .trap 4 tv s
    | none =>
      let i := (x.reg f.s).val.toInt
      let r := decWord i
      wrRes s f.p f.d ⟨r, 3⟩ { decFlags x.sw r with d := decide (10 ^ 15 ≤ i.natAbs) }))

/-- CVB (R330): DEC to INT. -/
def execCvb (f : RRR) (s : State) : Out :=
  .next (rrr f 10 4 (isD f.d && isD f.s && decide (f.t = 0)) false s (fun x _ s =>
    match tagFail x.sw.world [(x.reg f.s, 0, isDec)] with
    | some tv => .trap 4 tv s
    | none =>
      if decOk (x.reg f.s).val = false then .trap 11 (x.reg f.s).val s
      else
        let v := BitVec.ofInt 64 (decVal (x.reg f.s).val)
        wrRes s f.p f.d (intW v) (x.sw.nz v)))

/-! Words of multi-word numbers (R331). -/

/-- Every nibble of a multi-word decimal word is a digit. -/
def digOk (v : W64) : Bool := (nibbles 16 v).all (fun d => decide (d ≤ 9))

/-- The value of a list of multi-word decimal words, word 0 least significant. -/
def digsVal : List W64 → Nat
  | [] => 0
  | w :: ws => digVal w + 10 ^ 16 * digsVal ws

/-- `n` multi-word decimal words of a number. -/
def digsWords : Nat → Nat → List W64
  | 0, _ => []
  | n + 1, v => digWord v :: digsWords n (v / 10 ^ 16)

end Sys2Proof.Machine
end

