-- ==== Sys2Proof/Machine/PilotCtl.lean ====
section
/-! DEFINITION. Machine/PilotCtl.lean: control transfer, loops, banks, gates and returns (R338 to R343,
R353, R354, R375 to R383). -/

namespace Sys2Proof.Machine

/-- Issue a control transfer in the RRR format. -/
def ctlRrr (f : RRR) (major : BitVec 6) (fn : BitVec 7) (ok priv : Bool) (s : State)
    (body : Pilot → BitVec 18 → State → PRes) : State :=
  issue ⟨f.p, f.g, 1, rrrWord f major fn, !ok, priv, true, 0⟩ s (fun pc s => body (pilot s f.p) pc s)

/-- A transfer of control to the code-store address `a` (R315): bits above [17] trap MEM. -/
def jump (s : State) (p : Nat) (pc : BitVec 18) (a : W64) (upd : Pilot → Pilot) : PRes :=
  if a.extractLsb' 0 2 ≠ 0 then .trap 5 a s
  else if a.extractLsb' 18 46 ≠ 0 then .trap 6 a s
  else
    let t : BitVec 18 := a.extractLsb' 0 18
    .done (flowPacket (updPilot s p (fun x => { upd x with pc := t })) p pc t)

/-- The target of a PC-relative branch (R338). -/
def relTarget (pc : BitVec 18) (off : BitVec 22) : W64 := pc.setWidth 64 + (off.signExtend 64 <<< 2)

/-- The depth of a return stack: cached and spilled entries. -/
def Bank.depth (b : Bank) : Nat := b.rcache.length + b.spilled

/-- The pilot runs the spill handler (R380). -/
def Pilot.inSpill (x : Pilot) : Bool := decide (x.sw.level = 5) && decide ((x.setOf 5).tc.code = 8)

/-- Push a return address (R380): it enters the cache and the shadow buffer. -/
def Pilot.push (x : Pilot) (a : BitVec 18) : Pilot :=
  let b := x.bankCur
  x.setCur { b with rcache := a :: b.rcache, shadow := a :: b.shadow }

/-- CALL and CALLR (R338, R339, R380, R382): a push beyond the headroom traps RSO, and one at depth 256
traps SSM. -/
def callTo (x : Pilot) (s : State) (p : Nat) (pc : BitVec 18) (a : W64) : PRes :=
  let b := x.bankCur
  if a.extractLsb' 0 2 ≠ 0 then .trap 5 a s
  else if a.extractLsb' 18 46 ≠ 0 then .trap 6 a s
  else if (if x.inSpill then 32 else 28) ≤ b.rcache.length then .trap 8 0 s
  else if 256 ≤ b.depth then .trap 9 ((1 : BitVec 64) <<< 63) s
  else jump s p pc a (fun x => x.push (pc + 4))

def execB (f : BRF) (s : State) : Out :=
  .next (issue ⟨f.p, f.g, 1, brfWord f 0x10, false, false, true, 0⟩ s (fun pc s =>
    jump s f.p pc (relTarget pc f.off) id))

def execCall (f : BRF) (s : State) : Out :=
  .next (issue ⟨f.p, f.g, 1, brfWord f 0x11, false, false, true, 0⟩ s (fun pc s =>
    callTo (pilot s f.p) s f.p pc (relTarget pc f.off)))

def execJmpr (f : RRR) (s : State) : Out :=
  .next (ctlRrr f 0x12 0 (decide (f.d = 0) && isA f.s && decide (f.t = 0)) false s (fun x pc s =>
    match tagFail x.sw.world [(x.reg f.s, 0, isCode)] with
    | some tv => .trap 4 tv s
    | none => jump s f.p pc (x.reg f.s).val id))

def execCallr (f : RRR) (s : State) : Out :=
  .next (ctlRrr f 0x12 1 (decide (f.d = 0) && isA f.s && decide (f.t = 0)) false s (fun x pc s =>
    match tagFail x.sw.world [(x.reg f.s, 0, isCode)] with
    | some tv => .trap 4 tv s
    | none => callTo x s f.p pc (x.reg f.s).val))

/-- RET (R338, R339, R382): the newest cache entry must equal the shadow entry at its depth. -/
def execRet (f : RRR) (s : State) : Out :=
  .next (ctlRrr f 0x12 2 (decide (f.d = 0) && decide (f.s = 0) && decide (f.t = 0)) false s (fun x pc s =>
    let b := x.bankCur
    match b.rcache, b.shadow with
    | a :: cs, h :: hs =>
      if a = h then
        .done (flowPacket (updPilot s f.p (fun x =>
          { x.setCur { b with rcache := cs, shadow := hs } with pc := a })) f.p pc a)
      else .trap 9 ((0 : BitVec 14) ++ h ++ (0 : BitVec 14) ++ a) s
    | _, _ => if b.depth = 0 then .trap 9 ((1 : BitVec 64) <<< 63) s else .trap 8 1 s))

/-- LEXIT k clears ACT[k] and every deeper bit (R342). -/
def execLexit (f : RRR) (s : State) : Out :=
  .next (ctlRrr f 0x12 5 (decide (f.d = 0) && decide (f.s = 0) && isX f.t) false s (fun _ _ s =>
    .done (updPilot s f.p (fun x =>
      let b := x.bankCur
      x.setCur { b with act := b.act &&& (((1 : BitVec 4) <<< f.t.toNat) - 1), dirty := b.dirty ||| 8 }))))

def execLeapc (f : LF) (s : State) : Out :=
  .next (lform f 0x35 (decide (f.s = 0)) s (fun _ pc s =>
    .done (updPilot s f.p (fun x => x.wr f.d ⟨pc.setWidth 64 + f.imm.signExtend 64, 5⟩))))

/-! Loops (R340, R341). -/

/-- Active loops of a bank. -/
def Bank.loopsOn (b : Bank) : Nat :=
  (b.loopOn 0).toNat + (b.loopOn 1).toNat + (b.loopOn 2).toNat + (b.loopOn 3).toNat

/-- The instruction word at a code-store address, after remapping (R555). -/
def codeWord (s : State) (p : Nat) (a : BitVec 18) : W32 :=
  let c := clusterOf p
  Table.get 0 s.code (c * 65536 + (remapAddr s c a).toNat / 4)

/-- Bytes of the instruction at a code-store address: 8 for a long form (R317, R318). -/
def instrBytes (s : State) (p : Nat) (a : BitVec 18) : BitVec 18 :=
  let m := (codeWord s p a).extractLsb' 22 6
  if 0x30 ≤ m.toNat ∧ m.toNat ≤ 0x36 then 8 else 4

/-- LOOP (R340, R341). -/
def loopBody (f : LPF) (pc : BitVec 18) (s : State) : PRes :=
  let x := pilot s f.p
  let b := x.bankCur
  let k := f.k.toNat
  let ls := pc.toNat + 4
  let le := pc.toNat + 4 * f.fin.toNat
  let up := b.loop (k - 1)
  let word : W64 := (lpfWord f).setWidth 64
  let r : BitVec 5 := f.cnt.extractLsb' 0 5
  if k ≠ b.loopsOn ∨ f.fin = 0 ∨ (0 < k ∧ (ls < up.ls.toNat ∨ up.le.toNat < le)) then .trap 3 word s
  else
    let n := if f.rc = 1 then (x.reg r).val.toNat else f.cnt.toNat
    if 2 ^ 32 ≤ n then .trap 3 word s
    else
      match (if f.rc = 1 then tagFail x.sw.world [(x.reg r, 0, isInt)] else none) with
      | some tv => .trap 4 tv s
      | none =>
        let l : LoopR := ⟨BitVec.ofNat 18 ls, BitVec.ofNat 18 le, BitVec.ofNat 32 n, x.sw.level⟩
        let b := b.setLoop k l
        if n = 0 then
          .done (updPilot s f.p (fun x =>
            { x.setCur b with pc := l.le + instrBytes s f.p l.le }))
        else
          .done (updPilot s f.p (fun x => x.setCur { b with act := b.act ||| ((1 : BitVec 4) <<< k) }))

/-- Reserved operands of LOOP: with RC = 1, CNT[8:5] must be 0 and CNT[4:0] must name a D register. -/
def loopOk (f : LPF) : Bool :=
  decide (f.rc = 0) || (decide (f.cnt.extractLsb' 5 4 = 0) && isD (f.cnt.extractLsb' 0 5))

def execLoop (f : LPF) (s : State) : Out :=
  .next (issue ⟨f.p, f.g, 1, lpfWord f, !loopOk f, false, true, 0⟩ s (loopBody f))

/-! System instructions (R353, R354). -/

def noOps (f : RRR) : Bool := decide (f.d = 0) && decide (f.s = 0) && decide (f.t = 0)

def execNop (f : RRR) (s : State) : Out := .next (rrr f 0x17 0 (noOps f) false s (fun _ _ s => .done s))

/-- SYNC: every earlier store, window access, MTC and multiply has taken effect (R328, R353). -/
def execSync (f : RRR) (s : State) : Out :=
  .next (rrr f 0x17 1 (noOps f) true s (fun _ _ s => .done (updPilot s f.p Pilot.drain)))

/-- WAIT stops issue until an event is presented (R353, R364). -/
def execWait (f : RRR) (s : State) : Out :=
  .next (ctlRrr f 0x17 2 (noOps f) true s (fun _ _ s =>
    .done (updPilot s f.p (fun x => { x with waiting := true }))))

/-- GTAB[g] (R389). -/
def Pilot.gate (x : Pilot) (g : Nat) : W64 := Table.get 0 x.gtab g

/-- GATE (R378). -/
def gateBody (f : RRR) (x : Pilot) (pc : BitVec 18) (s : State) : PRes :=
  let w : W64 := (rrrWord f 0x17 3).setWidth 64
  let d := x.reg f.s
  let g := x.gate (d.val.toNat % 64)
  if x.sw.world = true ∨ x.bankCur.glnk.v = true ∨ d.val.extractLsb' 6 26 ≠ 0 ∨ g.getLsbD 63 = false ∨
     (x.sw.priv = false ∧ g.getLsbD 62 = false) then .trap 2 w s
  else
    match tagFail x.sw.world [(d, 0, isDesc)] with
    | some tv => .trap 4 tv s
    | none =>
      let m := g.extractLsb' 59 3
      let t : BitVec 18 := g.extractLsb' 0 18
      let b := x.bankCur
      let gl : Glnk := ⟨true, x.sw.level, x.sw.mask, x.sw.priv, pc + 4⟩
      let s := updPilot s f.p (fun x =>
        { x.setCur { b with glnk := gl } with
          pc := t,
          sw := { x.sw with world := true, priv := true, mask := if x.sw.mask < m then m else x.sw.mask } })
      .done (flowPacket s f.p pc t)

def execGate (f : RRR) (s : State) : Out :=
  .next (ctlRrr f 0x17 3 (decide (f.d = 0) && isD f.s && decide (f.t = 0)) false s (gateBody f))

/-- The ceiling check of RTE (R375); a stored SSWn holds no reserved bit. -/
def SaveSet.ceilingOk (v : SaveSet) : Bool :=
  decide (v.ssw.level = v.tc.clevel) && (!v.ssw.world || v.tc.cworld) && (!v.ssw.priv || v.tc.cpriv) &&
    decide (v.ssw.mask ≤ v.tc.cmask) && decide (v.ssw.level ≤ v.ssw.mask)

/-- Clear the bits of ACT whose loop was started at level `n` (R376). -/
def Bank.endLoops (b : Bank) (n : BitVec 3) : Bank :=
  let keep : Nat → BitVec 4 := fun k =>
    if b.loopOn k && decide ((b.loop k).lvl ≠ n) then (1 : BitVec 4) <<< k else 0
  let act := keep 0 ||| keep 1 ||| keep 2 ||| keep 3
  { b with act := act, dirty := if act = b.act then b.dirty else b.dirty ||| 8 }

/-- The registers after a level return from level `n` (R376, R479, R548). -/
def Pilot.levelReturn (x : Pilot) : Pilot :=
  let n := x.sw.level
  let v := x.setOf n.toNat
  let x := x.leaveMonitor v.ssw.level
  let leave := decide (n = x.dmon)
  let x := { x with sw := { v.ssw with slot := false }, cx := v.scx, pc := v.spc, slotMark := v.ssw.slot,
                    cur := if n.toNat ≥ 6 then v.tc.bank.toNat else x.cur }
  let x := if leave && x.dbg.resume1 then
    { x with dbg := { x.dbg with resume1 := false, exempt := true } } else x
  x.setCur (x.bankCur.endLoops n)

/-- The registers after a gate return (R379). -/
def Pilot.gateReturn (x : Pilot) : Pilot :=
  let b := x.bankCur
  let g := b.glnk
  { x.setCur { b with glnk := { g with v := false } } with
    pc := g.rpc, sw := { x.sw with world := false, priv := g.priv, mask := g.mask } }

/-- RTE (R375 to R379): a gate return, a refusal, or a level return, which releases the claims made at the
level (R452). -/
def rteBody (f : RRR) (_ : Pilot) (pc : BitVec 18) (s : State) : PRes :=
  let s := updPilot s f.p Pilot.drain
  let x := pilot s f.p
  let g := x.bankCur.glnk
  let n := x.sw.level
  if x.sw.world && g.v && decide (g.level = n) then
    .done (flowPacket (updPilot s f.p Pilot.gateReturn) f.p pc g.rpc)
  else if n = 0 then .trap 1 ((rrrWord f 0x17 4).setWidth 64) s
  else if (x.setOf n.toNat).ceilingOk = false then
    .stop (takeRif (updPilot s f.p (fun x => { x with pc := pc })) f.p)
  else
    let s := updPilot s f.p Pilot.levelReturn
    let s := releaseClaims s (fun _ k => decide (k.pilot = f.p) && decide (k.level = n))
    .done (flowPacket s f.p pc (x.setOf n.toNat).spc)

def execRte (f : RRR) (s : State) : Out := .next (ctlRrr f 0x17 4 (noOps f) true s (rteBody f))

/-- BANK (R354): at level 6, or with a value above 7, it traps RSV, which R320 puts before PRIV and TAG. -/
def execBank (f : RRR) (s : State) : Out :=
  .next (rrr f 0x17 5 (decide (f.d = 0) && isD f.s && decide (f.t = 0)) false s (fun x _ s =>
    let w : W64 := (rrrWord f 0x17 5).setWidth 64
    if x.sw.level = 6 ∨ 7 < (x.reg f.s).val.toNat then .trap 1 w s
    else if x.sw.priv = false then .trap 2 w s
    else
      match tagFail x.sw.world [(x.reg f.s, 0, isInt)] with
      | some tv => .trap 4 tv s
      | none => .done (updPilot s f.p (fun x => { x.drain with cur := (x.reg f.s).val.toNat }))))

def execBkpt (f : RRR) (s : State) : Out := .next (rrr f 0x17 8 (noOps f) false s (fun _ _ s => .brk s))

end Sys2Proof.Machine
end

