-- ==== Sys2Proof/Machine/Bells.lean ====
section
/-! DEFINITION. Machine/Bells.lean: bells, event counters and the registers of the TIDE and BELL region
(R465 to R477, R485).  The block watchdog's stages are with the modes. -/

namespace Sys2Proof.Machine

def bellOf (s : State) (b : Nat) : Bell := Table.get {} s.bells b
def setBell (s : State) (b : Nat) (x : Bell) : State := { s with bells := Table.put {} s.bells b x }

/-- TIDE.LO (R465). -/
def tideLo (s : State) : W32 := s.tide.count.extractLsb' 0 32

/-- A compare value counts as already passed (R470). -/
def alreadyPassed (c cmp : W32) : Bool := !(c - cmp).getLsbD 31

/-- A one-shot bell armed at TIDE.LO `now` (R469, R470): a compare already passed sets LATE. -/
def Bell.arm (x : Bell) (now : W32) : Bell := { x with armed := true, late := x.late || alreadyPassed now x.cmp }

/-- A write of BELL.CMP[b] (R469): while MODE is 0 it arms the bell. -/
def bellCmpWrite (s : State) (b : Nat) (v : W32) : State :=
  let x := { bellOf s b with cmp := v }
  setBell s b (if x.mode then x else x.arm (tideLo s))

/-- A write of BELL.CTL[b] (R469, R471, R485): EN = 1 with MODE 0 arms the bell, EN = 1 with MODE 1 restarts
CNT; EN = 0 disarms it. -/
def bellCtlWrite (s : State) (b : Nat) (v : W32) : State :=
  let x := bellOf s b
  let x := { x with en := v.getLsbD 31, mode := v.getLsbD 30,
                    late := x.late && !v.getLsbD 29, plate := x.plate && !v.getLsbD 28,
                    fired := x.fired && !v.getLsbD 27 }
  setBell s b (if x.en = false then { x with armed := false }
    else if x.mode then { x with armed := false, cnt := 0 }
    else x.arm (tideLo s))

/-- A write of BELL.PERIOD[b] (R472): at or below a running CNT it sets PERIOD_LATE. -/
def bellPeriodWrite (s : State) (b : Nat) (v : W32) : State :=
  let x := bellOf s b
  let late := x.en && x.mode && decide (v ≠ 0) && decide (v.toNat ≤ x.cnt.toNat)
  setBell s b { x with period := v, plate := x.plate || late }

/-- A one-shot bell fires (R469): FIRED is set, the bell is disarmed and its source takes an edge. -/
def fireOneShot (s : State) (b : Nat) : State :=
  raise (setBell s b { bellOf s b with fired := true, armed := false }) (0x100 + b)

/-- A periodic bell fires (R471): CNT becomes 0. -/
def firePeriodic (s : State) (b : Nat) : State :=
  raise (setBell s b { bellOf s b with fired := true, cnt := 0 }) (0x100 + b)

/-- A one-shot bell that can fire: enabled, in MODE 0 and armed. -/
def Bell.canFire (x : Bell) : Bool := x.en && !x.mode && x.armed

/-- One tick of a bell, with TIDE.LO already stepped (R469, R471). -/
def tickBell (s : State) (b : Nat) : State :=
  let x := bellOf s b
  if x.canFire then (if tideLo s = x.cmp then fireOneShot s b else s)
  else if x.en && x.mode then
    if x.cnt + 1 = x.period then firePeriodic s b else setBell s b { x with cnt := x.cnt + 1 }
  else s

/-- One tick of an event counter of KIND 2 or 3 (R476): `fc` fast-clock cycles pass. -/
def tickEcnt (fc : Nat) (s : State) (k : Nat) : State :=
  let x := ecntOf s k
  if x.kind = 2 then ecAdd 200 s k 1
  else if x.kind = 3 ∧ s.blk.mode ≠ 4 then ecAdd 200 s k fc
  else s

/-- BELL_CMP_WRITE (R469, R470). -/
def execBellCmpWrite (_rq : Requester) (n : Nat) (v : BitVec 32) (s : State) : Out :=
  .next (if n < 256 then bellCmpWrite s n v else s)

/-- BELL_ENABLE (R469, R471). -/
def execBellEnable (_rq : Requester) (n : Nat) (v : BitVec 32) (s : State) : Out :=
  .next (if n < 256 then bellCtlWrite s n v else s)

/-- BELL_PERIOD_WRITE (R472). -/
def execBellPeriodWrite (_rq : Requester) (n : Nat) (v : BitVec 32) (s : State) : Out :=
  .next (if n < 256 then bellPeriodWrite s n v else s)

/-- BELL_FIRE (R469): TIDE.LO steps into CMP of an armed bell. -/
def execBellFire (n : Nat) (s : State) : Out :=
  .next (if n < 256 ∧ (bellOf s n).canFire = true then fireOneShot s n else s)

/-- PERIODIC_BELL_FIRE (R471): CNT of a running periodic bell steps into PERIOD. -/
def execPeriodicBellFire (n : Nat) (s : State) : Out :=
  .next (if n < 256 ∧ (bellOf s n).en = true ∧ (bellOf s n).mode = true then firePeriodic s n else s)

/-- ECOUNT_OVERFLOW (R477): counter k, which counts ticks or fast-clock cycles, wraps. -/
def execEcountOverflow (k : Nat) (s : State) : Out :=
  let x := ecntOf s k
  .next (if k < 64 ∧ (x.kind = 2 ∨ x.kind = 3) then
    ecAdd 200 (setEcnt s k { x with val := BitVec.allOnes 32 }) k 1 else s)

/-! Registers. -/

def Bell.ctlWord (x : Bell) : W32 :=
  bit1 x.en ++ bit1 x.mode ++ bit1 x.late ++ bit1 x.plate ++ bit1 x.fired ++ bit1 x.armed ++ (0 : BitVec 26)

/-- A read of the TIDE and BELL region's dword at `off` (R485). -/
def tideRead (s : State) (off : Nat) : Option W32 :=
  if off = 0 then some (tideLo s)
  else if off = 4 then some (s.tide.count.extractLsb' 32 32)
  else if off = 8 then some (s.tide.frac.setWidth 32)
  else if 0x1000 ≤ off ∧ off < 0x2000 then
    let x := bellOf s ((off - 0x1000) / 16)
    some (match (off / 4) % 4 with
      | 0 => x.ctlWord
      | 1 => x.cmp
      | 2 => x.period
      | _ => x.cnt)
  else if 0x2000 ≤ off ∧ off < 0x2200 then
    let x := ecntOf s ((off - 0x2000) / 8)
    some (if off % 8 = 0 then (0 : BitVec 1) ++ bit1 x.ovf ++ (0 : BitVec 14) ++ x.kind ++ x.src else x.val)
  else if off = 0x3000 then some s.bwd.period
  else if off = 0x3004 then some 0
  else if off = 0x3008 then some (s.bwd.stage.setWidth 32)
  else if off = 0x300C then some s.bwd.cnt
  else if off = 0x3010 then some s.bwd.bad
  else none

/-- KIND as a write of ECNT.CFG leaves it (R476): a reserved KIND, or 0x4 on counter 0, becomes 0x0. -/
def ecKind (k : Nat) (v : BitVec 4) : BitVec 4 := if 5 ≤ v.toNat ∨ (v = 4 ∧ k = 0) then 0 else v

/-- One write of BWD.KICK (R482): the Harbourmaster's two words kick; anything else breaks the sequence. -/
def bwdWrite (s : State) (rq : Requester) (v : W32) : State :=
  let b := s.bwd
  if rq = .hm ∧ b.half = false ∧ v = 0x0000A55A then { s with bwd := { b with half := true } }
  else if rq = .hm ∧ b.half = true ∧ v = 0x00005AA5 then
    { s with bwd := { b with half := false, cnt := b.period, stage := 0 } }
  else { s with bwd := { b with half := false, bad := satInc b.bad } }

/-- BWD_KICK (R482): the words written to BWD.KICK, in order. -/
def execBwdKick (rq : Requester) (words : List (BitVec 32)) (s : State) : Out :=
  .next (words.foldl (fun s v => bwdWrite s rq v) s)

/-- A write of a TIDE and BELL register (R485). -/
def tideWrite (s : State) (rq : Requester) (off : Nat) (v : W32) : State :=
  if 0x1000 ≤ off ∧ off < 0x2000 then
    let b := (off - 0x1000) / 16
    match (off / 4) % 4 with
    | 0 => bellCtlWrite s b v
    | 1 => bellCmpWrite s b v
    | 2 => bellPeriodWrite s b v
    | _ => s
  else if 0x2000 ≤ off ∧ off < 0x2200 then
    let k := (off - 0x2000) / 8
    let x := ecntOf s k
    if off % 8 = 0 then
      setEcnt s k { x with ovf := x.ovf && !v.getLsbD 30, kind := ecKind k (v.extractLsb' 12 4),
                           src := v.extractLsb' 0 12 }
    else setEcnt s k { x with val := v }
  else if off = 0x3000 then
    if s.bwd.lock then s else { s with bwd := { s.bwd with period := v, lock := true } }
  else if off = 0x3004 then bwdWrite s rq v
  else s

/-- The RC field BWD.BAD is cleared by a take. -/
def tideTake (s : State) (off : Nat) : State :=
  if off = 0x3010 then { s with bwd := { s.bwd with bad := 0 } } else s

end Sys2Proof.Machine
end

