-- ==== Sys2Proof/Machine/Manifest.lean ====
section
/-! DEFINITION. Machine/Manifest.lean: the Manifest instructions (R129 to R139, R349), and the commands of
the Gleaner, leases and rollbacks. -/

namespace Sys2Proof.Machine

/-- The sealed forms trap PRIV in the open world (R127). -/
def sealedOnly (f : RRR) (fn : BitVec 7) (x : Pilot) (s : State) (k : PRes) : PRes :=
  if x.sw.world then k else .trap 2 ((rrrWord f 0x18 fn).setWidth 64) s

/-- A reserved operand value of a Manifest instruction traps RSV. -/
def maniRsv (f : RRR) (fn : BitVec 7) (s : State) : PRes := .trap 1 ((rrrWord f 0x18 fn).setWidth 64) s

def ddd (f : RRR) : Bool := isD f.d && isD f.s && isD f.t
def dd0 (f : RRR) : Bool := isD f.d && isD f.s && decide (f.t = 0)
def d00 (f : RRR) : Bool := isD f.d && decide (f.s = 0) && decide (f.t = 0)

def execMalloc (f : RRR) (s : State) : Out :=
  .next (mani f 0 (ddd f) s (fun x _ s => mallocRing 0 f x s))

def execMallocG (f : RRR) (s : State) : Out :=
  .next (mani f 1 (ddd f) s (fun x _ s => mallocRing 1 f x s))

def execMallocS (f : RRR) (s : State) : Out :=
  .next (mani f 2 (ddd f) s (fun x _ s => sealedOnly f 2 x s (mallocRing 2 f x s)))

def execMallocV (f : RRR) (s : State) : Out :=
  .next (mani f 3 (dd0 f) s (fun x _ s => mallocV f x s))

/-- Run `k` on the entry that a handle operand names, with its result code otherwise (R115). -/
def onHandle (f : RRR) (x : Pilot) (s : State) (h : TWord) (num : BitVec 2) (k : Nat → PRes) : PRes :=
  match tagFail x.sw.world [(h, num, isHandle)] with
  | some tv => .trap 4 tv s
  | none =>
    match handleCheck s h.val with
    | .inl c => mcode s f c
    | .inr i => k i

def execMget (f : RRR) (s : State) : Out :=
  .next (mani f 4 (isD f.d && isD f.s && getCode f.t) s (fun x _ s =>
    onHandle f x s (x.reg f.s) 0 (fun i => mval s f ((own s i).field f.t.toNat))))

/-- MPUT (R130, R131, R349). -/
def mputBody (f : RRR) (x : Pilot) (s : State) : PRes :=
  let h := x.reg f.d
  let v := x.reg f.s
  match tagFail x.sw.world [(h, 2, isHandle)] with
  | some tv => .trap 4 tv s
  | none =>
    match handleCheck s h.val with
    | .inl _ => mz s f.p false
    | .inr i =>
      if (own s i).moor.heldBy (callerOf s f.p) = false then .trap 7 h.val s
      else
        match tagFail x.sw.world [(v, 0, if f.t = 3 then isAddr else isInt)] with
        | some tv => .trap 4 tv s
        | none =>
          if (own s i).mayPut f.t.toNat v.val then
            let s := updOwn s i (fun e => e.put f.t.toNat v.val)
            mz (if f.t = 8 then noteCmd s i (v.val.extractLsb' 16 16) (v.val.extractLsb' 0 16) else s) f.p true
          else mz s f.p false

def execMput (f : RRR) (s : State) : Out :=
  .next (mani f 5 (isD f.d && isD f.s && putCode f.t) s (fun x _ s => mputBody f x s))

def execMstep (f : RRR) (s : State) : Out :=
  .next (mani f 6 (isD f.d && isD f.s && decide (f.t.toNat ≤ 7)) s (fun x _ s =>
    onHandle f x s (x.reg f.s) 0 (fun i =>
      if (own s i).moor.heldBy (callerOf s f.p) = false then .trap 7 (x.reg f.s).val s
      else
        let r := mstepTo s i f.t.toNat
        let left := decide ((own s i).st = 3) && decide ((own r.2 i).st ≠ 3)
        mcode (takeoverEnd (if left then lfree r.2 i else r.2)) f r.1)))

def execMwack (f : RRR) (s : State) : Out :=
  .next (mani f 7 (dd0 f) s (fun x _ s =>
    onHandle f x s (x.reg f.s) 0 (fun i => mcode s f (if (own s i).ackp then 7 else 0))))

/-- The DECLINE image of a slot (R118). -/
def declineImage (ringNo slot b xtag wait : BitVec 16) (unprot : Bool) (wc : BitVec 3) : Mir :=
  { m0 := (6 : BitVec 3) ++ (0 : BitVec 29) ++ ringNo ++ xtag,
    m1 := b ++ slot ++ wait ++ (0 : BitVec 1) ++ bit1 unprot ++ (0 : BitVec 14),
    m2 := 0, m3 := wc.setWidth 64 }

/-- MDECL (R94, R129, R154, R181).  DESIGN CHOICE (log 67): WCLASS other than 2 or 3 traps RSV; a slot other than NEXT
queues its decline record and raises DECW, and moves NEXT not at all; where admission is stopped (R73, R92) nothing
happens and the result is STATE. -/
def mdeclBody (f : RRR) (x : Pilot) (s : State) : PRes :=
  let d := (x.reg f.s).val
  let wc : BitVec 3 := (x.reg f.t).val.extractLsb' 0 3
  match tagFail x.sw.world [(x.reg f.s, 0, isInt), (x.reg f.t, 1, isInt)] with
  | some tv => .trap 4 tv s
  | none =>
    if wc ≠ 2 ∧ wc ≠ 3 then maniRsv f 8 s
    else
      let n := (d.extractLsb' 48 16).toNat
      let slot : BitVec 16 := d.extractLsb' 32 16
      if !admits s n then mcode s f 2 else
      let wait := admWait s (ring s n) slot
      let send := twinSends s && !isAdoption s n
      let rseq := s.tw.rseqNext
      let s := if send then
        queueRec s 1 0 (declineImage (d.extractLsb' 48 16) slot (d.extractLsb' 16 16) (d.extractLsb' 0 16) wait
          (!send) wc) else s
      let s := updRing s n (fun r => { r with
        decw := r.decw + 1,
        decls := r.decls ++ [⟨slot.toNat, d.extractLsb' 0 16, wc, wait, !send, rseq, false⟩] })
      let s := if (ring s n).next = slot then dispose s n slot.toNat (.decl rseq) (!send) else s
      mcode s f 0

def execMdecl (f : RRR) (s : State) : Out :=
  .next (mani f 8 (ddd f) s (fun x _ s => mdeclBody f x s))

/-! Moorings. -/

/-- Run `k` on the mooring that Dm names (R129): a handle under R115, or an INT below 4,096.  DESIGN CHOICE (log 67):
an INT of 4,096 or more traps RSV. -/
def onMoor (f : RRR) (fn : BitVec 7) (x : Pilot) (s : State) (bad : Nat → PRes) (k : MoorRef → PRes) : PRes :=
  let m := x.reg f.s
  match tagFail x.sw.world [(m, 0, fun t => isHandle t || isInt t)] with
  | some tv => .trap 4 tv s
  | none =>
    if m.tag = 6 then
      match handleCheck s m.val with
      | .inl c => bad c
      | .inr i => k (.emb i)
    else if m.val.toNat < 4096 then k (.alone m.val.toNat)
    else maniRsv f fn s

/-- SW.BRK as a completed MOOR leaves it (R135). -/
def setBrk (s : State) (p : Nat) (b : Bool) : State :=
  updPilot s p (fun x => { x with sw := { x.sw with brk := b } })

/-- MOOR (R135, R137). -/
def moorBody (f : RRR) (x : Pilot) (s : State) : PRes :=
  let c := callerOf s f.p
  onMoor f 9 x s (mcode (setBrk s f.p false) f) (fun r =>
    let m := moorOf s r
    if m.heldBy c then .trap 7 (x.reg f.s).val s
    else if m.mst = 1 ∨ m.mst = 3 then mcode (setBrk s f.p false) f 5
    else if 8 ≤ heldCount s c then .trap 7 (x.reg f.s).val s
    else
      let s := setBrk (setMoor s r (m.take c)) f.p (decide (m.mst = 2))
      if m.mst = 2 then mval s f (intW m.rep) else mcode s f 0)

def execMoor (f : RRR) (s : State) : Out :=
  .next (mani f 9 (dd0 f) s (fun x _ s => moorBody f x s))

/-- An embedded mooring of a FREE entry (R137). -/
def freeEntry (s : State) : MoorRef → Bool
  | .emb i => decide ((own s i).st = 0)
  | .alone _ => false

/-- UNMOOR (R115, R128, R137): without a destination register, Z alone tells a FOREIGN or STALE handle (log 23). -/
def execUnmoor (f : RRR) (s : State) : Out :=
  .next (mani f 10 (decide (f.d = 0) && isD f.s && decide (f.t = 0)) s (fun x _ s =>
    let lck : PRes := .trap 7 (x.reg f.s).val s
    onMoor f 10 x s (fun _ => mz s f.p false) (fun r =>
      if (moorOf s r).heldBy (callerOf s f.p) = false ∨ freeEntry s r = true then lck
      else mz (setMoor s r (moorOf s r).free) f.p true)))

/-- An undo note belongs to a standalone mooring that the caller holds (R129, R130, R134).  DESIGN CHOICE (log 67): Dm
as a HANDLE, or a value of MNOTE.W that is not INT, traps TAG, and an INT of 4,096 or more traps RSV. -/
def onNote (f : RRR) (fn : BitVec 7) (x : Pilot) (s : State) (k : Nat → PRes) : PRes :=
  match tagFail x.sw.world [(x.reg f.s, 0, isInt)] with
  | some tv => .trap 4 tv s
  | none =>
    if 4096 ≤ (x.reg f.s).val.toNat then maniRsv f fn s
    else if (aloneMoor s (x.reg f.s).val.toNat).heldBy (callerOf s f.p) = false then
      .trap 7 (x.reg f.s).val s
    else k (x.reg f.s).val.toNat

def execMnoteW (f : RRR) (s : State) : Out :=
  .next (mani f 11 (decide (f.d = 0) && isD f.s && isD f.t) s (fun x _ s =>
    onNote f 11 x s (fun n =>
      match tagFail x.sw.world [(x.reg f.t, 1, isInt)] with
      | some tv => .trap 4 tv s
      | none => .done (setAloneMoor s n { aloneMoor s n with note := (x.reg f.t).val }))))

def execMnoteR (f : RRR) (s : State) : Out :=
  .next (mani f 12 (dd0 f) s (fun x _ s =>
    onNote f 12 x s (fun n => .done (updPilot s f.p (fun x => x.wrInt f.d (aloneMoor s n).note)))))

def execMforce (f : RRR) (s : State) : Out :=
  .next (mani f 13 (dd0 f) s (fun x _ s =>
    sealedOnly f 13 x s (onMoor f 13 x s (mcode s f) (fun r =>
      if (moorOf s r).mst = 1 then mcode (breakMoor s r .force) f 0 else mcode s f 6))))

def execMrq (f : RRR) (s : State) : Out :=
  .next (mani f 14 (d00 f) s (fun _ _ s =>
    match s.recq with
    | [] => mcode s f 6
    | h :: hs => mval (sampleLevel { s with recq := hs } 1) f ⟨h, 6⟩))

/-- MSCAN (R132, R133): resumes from CX of its kind; another kind traps RSV (R345). -/
def mscanBody (f : RRR) (upto : Option Nat) (x : Pilot) (pc : BitVec 18) (s : State) : PRes :=
  let d := (x.reg f.d).val
  let q := (x.reg f.t).val
  let a := (x.reg f.s).val
  let kind := (x.cx.extractLsb' 60 4).toNat
  let lim := (d.extractLsb' 0 14).toNat
  if kind ≠ 0 ∧ kind ≠ 4 then maniRsv f 15 s
  else
    match tagFail x.sw.world [(x.reg f.s, 0, isAddr), (x.reg f.t, 1, isInt), (x.reg f.d, 2, isInt)] with
    | some tv => .trap 4 tv s
    | none =>
      if q.extractLsb' 48 4 ≠ 0 ∨ q.extractLsb' 0 16 ≠ 0 ∨ lim = 0 ∨ 8192 < lim then maniRsv f 15 s
      else if q.getLsbD 63 && !x.sw.world then .trap 2 ((rrrWord f 0x18 15).setWidth 64) s
      else if a.extractLsb' 0 3 ≠ 0 then .trap 5 a s
      else
        let st := if kind = 4 then (x.cx.extractLsb' 32 19).toNat else (d.extractLsb' 32 19).toNat
        let cnt := if kind = 4 then (x.cx.extractLsb' 0 14).toNat else 0
        let (s, i, cnt, e) := scanLoop f.p pc q a lim (s.blk.build.entries + 1) s st cnt (upto.map (4 * ·)) (s, st, cnt) 0
        let fin : Bool → PRes := fun z =>
          mval (updPilot s f.p (fun x => { x with cx := 0 })) f
              (intW ((0 : BitVec 13) ++ BitVec.ofNat 19 i ++ (0 : BitVec 18) ++ BitVec.ofNat 14 cnt)) |> (fun r =>
            match r with
            | .done s => .done (updPilot s f.p (fun x => { x with sw := { x.sw with z := z } }))
            | r => r)
        match e with
        | .atN => fin true
        | .limit => fin false
        | .event =>
          .stop (updPilot s f.p (fun x => { x with cx := if i = st then x.cx else scanCx i cnt, pc := pc }))
        | .fault ad =>
          .trap 6 ad (if i = st then s else updPilot s f.p (fun x => { x with cx := scanCx i cnt }))
        | .hit c =>
          .stop (watch (if i = st then s else updPilot s f.p (fun x => { x with cx := scanCx i cnt })) f.p pc c).1

def execMscan (f : RRR) (upto : Option Nat) (s : State) : Out :=
  .next (mani f 15 (isD f.d && isA f.s && isD f.t) s (fun x pc s => mscanBody f upto x pc s))

/-! The Gleaner. -/

def execMglean (f : RRR) (s : State) : Out :=
  .next (mani f 16 (d00 f) s (fun x _ s =>
    sealedOnly f 16 x s
      (mcode (gleanFrom { s with hbr := { s.hbr with gleaned := 0, poolw := false } } 0) f 0)))

/-- GLEANER_RESUME (R174): an own entry has been freed, and the Gleaner goes on from the index it stopped
at. -/
def execGleanerResume (s : State) : Out :=
  .next (
    match s.tw.glean with
    | some j =>
      if s.hbr.poolw && decide (0 < gfree s) then
        gleanFrom { s with hbr := { s.hbr with poolw := false } } j
      else s
    | none => s)

/-- GLEANER_DONE (R177): the scan has passed N with every entry placed. -/
def execGleanerDone (s : State) : Out :=
  .next (if s.tw.glean = some s.blk.build.entries ∧ s.hbr.poolw = false then
    takeoverEnd (startAdoptions (raise { (updTw s (fun t => { t with glean := none, gleanDone := true })) with hbr := { s.hbr with tdone := true } } 8))
  else s)

/-- A mooring that exists (R129, R134). -/
def moorExists (s : State) : MoorRef → Bool
  | .emb i => decide (i < s.blk.build.entries)
  | .alone n => decide (n < 4096)

/-- A deferred debug event of a pilot that has lost its mooring to its lease is marked LBRK and taken at the
pilot's next boundary (R547). -/
def leaseBreakDebug (s : State) (p bank : Nat) : State :=
  let x := pilot s p
  match x.dbg.deferred with
  | some e =>
    if x.cur = bank then
      let s := updPilot s p (fun x => { x with dbg := { x.dbg with deferred := some { e with lbrk := true } } })
      boundary { s with dbg := { s.dbg with defbrk := true } } p
    else s
  | none => s

/-- LEASE_EXPIRY (R138, R139): a held mooring's LEASE reaches 0. -/
def execLeaseExpiry (m : MoorRef) (s : State) : Out :=
  .next (
    let x := moorOf s m
    if moorExists s m && decide (x.mst = 1) then
      leaseBreakDebug (breakMoor s m .lease) x.owner.toNat x.bank.toNat
    else s)

/-- ROLLBACK_COMPLETE (R142): a pending rollback completes once ACKP is 0. -/
def execRollbackComplete (idx : Nat) (s : State) : Out :=
  .next (if (own s idx).moor.mst = 3 ∧ (own s idx).ackp = false then finishRollback s idx else s)

end Sys2Proof.Machine
end

