-- ==== Sys2Proof/Machine/Rings.lean ====
section
/-! DEFINITION. Machine/Rings.lean: the ring window's writes, the ring registers, admission, and the writing
of records (R63 to R100, R351, R352). -/

namespace Sys2Proof.Machine

/-! Ring pages (R75 to R80). -/

/-- A page write acts at all (R76): one whole dword on the ring's port, to an enabled ring, or to one that the
rule still serves.  While the fast clock is stopped it is captured instead (R518). -/
def pageTakes (s : State) (w : PageWrite) (disabledToo : Bool) : Bool :=
  let r := ring s w.ring
  decide (w.ring < s.blk.build.rings) && decide (w.be = 15) && decide (w.lp = r.lport.toNat) &&
    (r.en || disabledToo) && !s.fstop

/-- A submission doorbell with value `t` that arrives at tick `tick` (R78, R83). -/
def sqDoorbell (s : State) (n : Nat) (t : BitVec 16) (tick : W32) : State :=
  let r := ring s n
  if r.sdepth ≤ t.toNat ∨ r.sdiff t r.cons < r.sdiff r.tail r.cons then setRing s n { r with badsqdb := true }
  else if t = r.tail then s
  else
    let st := if r.stamps.length < 4 then r.stamps ++ [⟨tick, t, false, false⟩]
      else r.stamps.dropLast ++ (r.stamps.getLast?.map (fun x => { x with tail := t })).toList
    raise (setRing s n { r with tail := t, stamps := st }) (0x200 + n % 256)

/-- A completion doorbell with value `h` (R79, R180): freed slots let queued records be written. -/
def cqDoorbell (s : State) (n : Nat) (h : BitVec 16) : State :=
  let r := ring s n
  if r.cdepth ≤ h.toNat ∨ r.cdiff r.cqtail r.cqhead < r.cdiff h r.cqhead then
    setRing s n { r with badcqdb := true }
  else
    let s := setRing s n { r with cqhead := h }
    let s := if isAdoption s n then
        updTw s (fun t => { t with adopt := Table.upd {} t.adopt (n - (halfRings s)) (fun a =>
          { a with waitDb := a.waitDb && !a.adopted }) })
      else s
    drainRing s n

/-- The entry of the ring that own entry `i` came from has not been consumed: CONS has not passed it (R80, R93). -/
def unconsumed (s : State) (n i : Nat) : Bool :=
  (ring s n).disp.any (fun d => decide (d.key = .own i (own s i).gen))

/-- Entry `i` is an outstanding exchange of ring `n` (R80): consumed, its final record not yet written. -/
def outstanding (s : State) (n i : Nat) : Bool :=
  let e := own s i
  !unconsumed s n i && !e.srv && decide (e.st ≠ 0) && decide (ringOfEntry s e = n) &&
    (decide (e.st ≠ 5) ||
      (match (ring s n).use e.cqslot with
       | some (.fin j g _) => decide (j = i) && decide (g = e.gen)
       | _ => false))

/-- The oldest outstanding exchange of the ring that carries the tag (R44). -/
def releaseTarget (s : State) (n : Nat) (xtag : BitVec 16) : Option Nat :=
  s.own.foldl (fun best e =>
    if decide (e.2.xtag = xtag) && outstanding s n e.1 then
      match best with
      | none => some e.1
      | some j => if (xctx s e.1).seq < (xctx s j).seq then some e.1 else best
    else best) none

/-- RESUME of entry `i` (R42, R46): a held exchange continues, unless its next word would be the 4,097th (R30); any
other ignores it. -/
def resumeX (s : State) (i : Nat) : State :=
  let e := own s i
  if e.held && !(xctx s i).ended then
    let s := setOwn s i { e with held := false }
    if (xctx s i).nwords = 4096 then endX s i 0x17 0 none else fetchWord s i
  else s

/-- CANCEL of entry `i` (R42, R45).  DESIGN CHOICE (log 67): on a re-driven exchange whose new held record has not
appeared, R46 ignores a release and R45 lets CANCEL act on an exchange that is not held; the model takes R45 for a
CANCEL and R46 for a RESUME. -/
def cancelX (s : State) (i : Nat) : State :=
  let e := own s i
  let x := xctx s i
  if x.ended || decide (4 ≤ e.st.toNat) || (e.fenced && decide (e.fseq ≠ 0)) then s
  else if e.held then endX s i 0x40 0 none
  else if x.cur.isSome || x.heldWait then setXctx s i { x with cancel := true }
  else endX s i 0x40 0 none

/-- A release write (R42 to R46, R80, R463): it enters the release queue and acts on the exchange it names.
While the queue is full the landward port holds it, behind those it holds already. -/
def relWrite (s : State) (n : Nat) (v : W32) : State :=
  let act : BitVec 2 := v.extractLsb' 30 2
  let xtag : BitVec 16 := v.extractLsb' 0 16
  if 1024 ≤ s.evc.relq.length then { s with evc := { s.evc with relHold := s.evc.relHold ++ [⟨n, v⟩] } }
  else
    match (if act = 1 ∨ act = 2 then releaseTarget s n xtag else none) with
    | none => updRing s n (fun r => { r with badrel := true })
    | some i =>
      let s := if act = 1 then resumeX s i else cancelX s i
      sampleLevel { s with evc := { s.evc with relq := s.evc.relq ++ [⟨BitVec.ofNat 16 n, act, xtag⟩] } } 2

/-- Room in the release queue lets the landward port pass on the release writes it holds, oldest first (R463); a write
to a ring that has been disabled meanwhile is ignored (R76).  `fuel` bounds the writes passed. -/
def passHeld : Nat → State → State
  | 0, s => s
  | fuel + 1, s =>
    match s.evc.relHold with
    | h :: hs =>
      if s.evc.relq.length < 1024 then
        let s := { s with evc := { s.evc with relHold := hs } }
        passHeld fuel (if (ring s h.ring).en then relWrite s h.ring h.data else s)
      else s
    | [] => s

/-- A dword of a ring page as the landward port reads it (R75): MASK alone reads back. -/
def pageRead (s : State) (n off : Nat) : W32 :=
  if off = 12 ∧ n < s.blk.build.rings then (bit1 (ring s n).mask).setWidth 32 else 0

/-- A write of MASK (R75, R100): back at 0 with MPEND set, one message is sent. -/
def maskWrite (s : State) (n : Nat) (m : Bool) : State :=
  let r := ring s n
  let s := setRing s n { r with mask := m }
  if !m && r.mpend then sendMsi (updRing s n (fun r => { r with mpend := false })) n else s

/-- A dword write of a ring page at its offset, arriving at tick `tick` (R75, R76). -/
def pageWrite (s : State) (n : Nat) (off : Nat) (v tick : W32) : State :=
  let r := ring s n
  if off = 0 then (if r.en then sqDoorbell s n (v.setWidth 16) tick else s)
  else if off = 4 then
    (if r.en || decide (r.outst ≠ 0) || decide (r.decw ≠ 0) then cqDoorbell s n (v.setWidth 16) else s)
  else if off = 8 then (if r.en then relWrite s n v else s)
  else if off = 12 then maskWrite s n (v.getLsbD 0)
  else s

def execSubmissionDoorbell (w : PageWrite) (s : State) : Out :=
  .next (if pageTakes s w false then pageWrite s w.ring 0 w.data (now32 s) else s)

def execCompletionDoorbell (w : PageWrite) (s : State) : Out :=
  .next (if pageTakes s w true then pageWrite s w.ring 4 w.data (now32 s) else s)

def execResume (w : PageWrite) (s : State) : Out :=
  .next (if pageTakes s w false then pageWrite s w.ring 8 w.data (now32 s) else s)

def execCancel (w : PageWrite) (s : State) : Out :=
  .next (if pageTakes s w false then pageWrite s w.ring 8 w.data (now32 s) else s)

def execMaskWrite (w : PageWrite) (s : State) : Out :=
  .next (if pageTakes s w true then pageWrite s w.ring 12 w.data (now32 s) else s)

/-! Ring registers (R63 to R74, R101, R102, R158). -/

/-- An accepted enable (R71, R93). -/
def Ring.enable (r : Ring) : Ring :=
  { r with en := true, cons := 0, tail := 0, cqhead := 0, cqtail := 0, p := true, halt := false, poolw := false,
           stamps := [], next := 0, slotNext := 0, slots := [], disp := [] }

/-- A write of EN = 1 is refused (R70). -/
def Ring.refuses (s : State) (r : Ring) : Bool :=
  let bad := fun (l : BitVec 5) => decide (l.toNat < 4) || decide (16 < l.toNat)
  bad r.sqlog || bad r.cqlog || decide (r.credit = 0) || decide (2 ^ r.cqlog.toNat - 1 < r.credit.toNat) ||
    decide (s.blk.build.ports ≤ r.lport.toNat) || decide (r.outst ≠ 0) || decide (r.decw ≠ 0)

/-- A pick of ring `n` that waits is withdrawn (R73). -/
def dropPick (s : State) (n : Nat) : State :=
  if s.pick = some n then sampleLevel { s with pick := none } 0 else s

/-- A write of RING.CFG (R65, R70 to R73, R156, R158). -/
def ringCfgWrite (s : State) (n : Nat) (v : W32) : State :=
  let r := ring s n
  let ad := isAdoption s n
  let r := { r with pause := v.getLsbD 30 }
  if r.en then
    if v.getLsbD 31 then setRing s n r
    else takeoverEnd (sendRingState (dropPick (setRing s n { r with en := false }) n) n)
  else
    let r := { r with lport := v.extractLsb' 25 2 }
    let r := if ad then r else
      { r with sqlog := v.extractLsb' 20 5, cqlog := v.extractLsb' 15 5, group := v.extractLsb' 0 12 }
    if !v.getLsbD 31 || ad then sendRingState (setRing s n r) n
    else if Ring.refuses s r then sendRingState (setRing s n { r with ecfg := true }) n
    else sendRingState (setRing s n r.enable) n

/-- A new DDL governs every later selection (R72): no entry stays due under the old one. -/
def Ring.setDdl (r : Ring) (v : BitVec 16) : Ring :=
  { r with ddl := v, stamps := r.stamps.map (fun t => { t with due := false }) }

/-- A write of RING.NOTE (R100, R101): VEN = 0 discards a held message. -/
def ringNoteWrite (s : State) (n : Nat) (v : W32) : State :=
  updRing s n (fun r => { r with
    count := v.extractLsb' 16 8, holdoff := v.extractLsb' 8 8, ven := v.getLsbD 0,
    mpend := r.mpend && v.getLsbD 0 })

/-- A write of a 32-bit ring register at `off` (R63 to R72, R158). -/
def ringWrite32 (s : State) (n : Nat) (off : Nat) (v : W32) : State :=
  let r := ring s n
  let ad := isAdoption s n
  if off = 0x10 then ringCfgWrite s n v
  else if off = 0x14 then
    if r.en then s else setRing s n { r with pv := v.getLsbD 31, pasid := v.extractLsb' 0 20 }
  else if off = 0x18 then
    let r := { r with weight := v.extractLsb' 0 4 }
    if ad then setRing s n r else sendRingState (setRing s n { r with credit := v.extractLsb' 16 16 }) n
  else if off = 0x1C then
    let r := { r with ltol := v.extractLsb' 16 16 }
    if ad then setRing s n r else sendRingState (setRing s n (r.setDdl (v.extractLsb' 0 16))) n
  else if off = 0x28 then setRing s n { r with msid := v }
  else if off = 0x2C then ringNoteWrite s n v
  else if off = 0x3C then
    setRing s n { r with ecfg := r.ecfg && !v.getLsbD 4, sqfault := r.sqfault && !v.getLsbD 3,
                         badrel := r.badrel && !v.getLsbD 2, badcqdb := r.badcqdb && !v.getLsbD 1,
                         badsqdb := r.badsqdb && !v.getLsbD 0 }
  else s

/-- A 64-bit ring register starts at `off` (R63). -/
def ringWide (off : Nat) : Bool := decide (off < 0x10) || decide (off / 8 = 4)

/-- The value of a 64-bit ring register. -/
def ringRead64 (r : Ring) (off : Nat) : W64 :=
  if off < 8 then r.sqb ++ (0 : BitVec 6)
  else if off < 16 then r.cqb ++ (0 : BitVec 6)
  else r.msia ++ (0 : BitVec 2)

/-- A write of a 64-bit ring register under a mask (R64, R72, R102, R158). -/
def ringWrite64 (s : State) (n : Nat) (off : Nat) (v m : W64) : State :=
  let r := ring s n
  let w := (v &&& m) ||| (ringRead64 r off &&& ~~~m)
  if off < 16 ∧ (r.en = true ∨ isAdoption s n = true) then s
  else if off < 8 then setRing s n { r with sqb := w.extractLsb' 6 58 }
  else if off < 16 then setRing s n { r with cqb := w.extractLsb' 6 58 }
  else setRing s n { r with msia := w.extractLsb' 2 62 }

/-- RING.CFG as it reads (R65). -/
def Ring.cfgWord (r : Ring) : W32 :=
  bit1 r.en ++ bit1 r.pause ++ (0 : BitVec 3) ++ r.lport ++ r.sqlog ++ r.cqlog ++ (0 : BitVec 3) ++ r.group

/-- A read of a ring register's dword (R63 to R69, R101, R102). -/
def ringRead (s : State) (n : Nat) (off : Nat) : W32 :=
  let r := ring s n
  if ringWide off then
    (if off % 8 = 0 then (ringRead64 r off).extractLsb' 0 32 else (ringRead64 r off).extractLsb' 32 32)
  else if off = 0x10 then r.cfgWord
  else if off = 0x14 then bit1 r.pv ++ (0 : BitVec 11) ++ r.pasid
  else if off = 0x18 then r.credit ++ (0 : BitVec 12) ++ r.weight
  else if off = 0x1C then r.ltol ++ r.ddl
  else if off = 0x28 then r.msid
  else if off = 0x2C then
    (0 : BitVec 8) ++ r.count ++ r.holdoff ++ (0 : BitVec 6) ++ bit1 r.mpend ++ bit1 r.ven
  else if off = 0x30 then r.cons ++ r.tail
  else if off = 0x34 then r.cqtail ++ r.cqhead
  else if off = 0x38 then r.outst ++ r.decw
  else if off = 0x3C then
    (0 : BitVec 24) ++ bit1 r.p ++ bit1 r.halt ++ bit1 r.poolw ++ bit1 r.ecfg ++ bit1 r.sqfault ++ bit1 r.badrel ++
      bit1 r.badcqdb ++ bit1 r.badsqdb
  else 0

/-- VEN_CLEAR (R100). -/
def execVenClear (rq : Requester) (n : Nat) (v : BitVec 32) (s : State) : Out :=
  .next (let s := ctlWake rq s
    if n < s.blk.build.rings then ringWrite32 s n 0x2C v else s)

/-! Admission. -/

/-- Mark the stamps whose age has reached 2^31 tt (R86). -/
def Ring.markAged (r : Ring) (now : W32) : Ring :=
  { r with stamps := r.stamps.map (fun t => if 2 ^ 31 ≤ t.age now then { t with aged := true } else t) }

/-- STAMP_EXAMINE (R86). -/
def execStampExamine (s : State) : Out :=
  .next { s with rings := Table.mapVals {} (fun _ r => r.markAged (now32 s)) s.rings }

/-- ENTRY_DUE (R87): the ring's first entry not yet disposed of is found due, once its age has reached 100 × DDL. -/
def execEntryDue (n : Nat) (s : State) : Out :=
  .next (updRing s n (fun r =>
    if r.next = r.tail then r
    else
      match r.stampOf r.next with
      | none => r
      | some t => if !r.due (now32 s) t then r else { r with stamps := r.stamps.map (fun u => if u = t then { u with due := true } else u) }))

/-- The block places gleaned exchanges before it admits (R168). -/
def placing (s : State) : Bool := decide (s.hbr.tstate = 4) || decide (s.hbr.tstate = 5)

/-- Ring `n` can be picked (R92, R93): a SPARE admits nothing (R148), and orderly unpairing pauses the own rings (R188). -/
def Ring.pickable (s : State) (n : Nat) (r : Ring) : Option Stamp :=
  if r.en && !r.halt && r.turn.isNone && decide (r.tail ≠ r.next) then
    match r.stampOf r.next with
    | none => none
    | some t =>
      let ready := r.hasCredit && !placing s && decide (s.hbr.role ≠ 1) && !(s.tw.unpairing && !isAdoption s n) && (!r.poolw || poolOpen s r.poolwBerth.toNat r.poolwGen)
      if r.pause || quarDrain s || r.due (now32 s) t || ready then some t else none
  else none

/-- The selector picks in Service, Takeover and Quarantine of kind DRAIN (R92, R503). -/
def selects (s : State) : Bool := decide (s.blk.mode = 3) || decide (s.blk.mode = 5) || quarDrain s

/-- The selector's choice (R93): the oldest stamp, the lower ring number on a tie. -/
def selectRing (s : State) : Option Nat :=
  (s.rings.foldl (fun best e =>
    match Ring.pickable s e.1 e.2 with
    | none => best
    | some t =>
      match best with
      | none => some (e.1, t.age (now32 s))
      | some (_, a) => if a < t.age (now32 s) then some (e.1, t.age (now32 s)) else best)
    (none : Option (Nat × Nat))).map (·.1)

/-- ADMISSION_PICK (R93): the selector presents its pick through source PICK. -/
def execAdmissionPick (s : State) : Out :=
  .next (
    if selects s && s.pick.isNone then
      match selectRing s with
      | some n => sampleLevel { s with pick := some n } 0
      | none => s
    else s)

/-- The landward reads of a turn (R93): one, or two when the entries wrap past the last slot. -/
def turnReads (s : State) (r : Ring) (n : Nat) : State :=
  let base : W64 := r.sqb ++ (0 : BitVec 6)
  let first := Nat.min n (r.sdepth - r.next.toNat)
  let s := emit s (.hostRead r.lport.toNat 0 r.pas (base + BitVec.ofNat 64 (64 * r.next.toNat)) (64 * first))
  if first < n then emit s (.hostRead r.lport.toNat 0 r.pas base (64 * (n - first))) else s

/-- Due bits of the entries of a turn (R351). -/
def dueBits (s : State) (r : Ring) : Nat → BitVec 16
  | 0 => 0
  | k + 1 =>
    let d := match r.stampOf (BitVec.ofNat 16 ((r.next.toNat + k) % r.sdepth)) with
      | some t => r.due (now32 s) t
      | none => false
    dueBits s r k ||| (if d then (1 : BitVec 16) <<< k else 0)

/-- The word that APICK writes (R351). -/
def pickWord (s : State) (n : Nat) (r : Ring) (k : Nat) : W64 :=
  let cr := Nat.min k (Nat.min (r.credit.toNat - r.outst.toNat) r.free.toNat)
  (0 : BitVec 16) ++ dueBits s r k ++ (0 : BitVec 5) ++ BitVec.ofNat 5 cr ++
    bit1 (r.pause || quarDrain s) ++ BitVec.ofNat 5 k ++ BitVec.ofNat 16 n

/-- APICK (R351). -/
def apickBody (f : RRR) (x : Pilot) (s : State) : PRes :=
  let a := (x.reg f.s).val
  match tagFail x.sw.world [(x.reg f.s, 0, isAddr)] with
  | some tv => .trap 4 tv s
  | none =>
    if a.extractLsb' 0 6 ≠ 0 then .trap 5 a s
    else if a.extractLsb' 16 48 ≠ 0 then .trap 6 a s
    else
      match s.pick with
      | none => .done (updPilot s f.p (fun x => { x.wrInt f.d 0 with sw := { x.sw with z := false } }))
      | some n =>
        let r := ring s n
        let k := Nat.min (r.weight.toNat + 1) (r.sdiff r.tail r.next)
        if 65536 < (a.extractLsb' 0 16).toNat + 64 * k then .trap 6 a s
        else
          let s1 := turnReads s r k
          let s1 := setRing s1 n { r with turn := some ⟨f.p, x.cur, k⟩ }
          let s1 := updPilot s1 f.p (fun x =>
            { x with pickrd := some ⟨n, r.next.toNat, k, (a.extractLsb' 0 16).toNat⟩ })
          mval (sampleLevel { s1 with pick := none } 0) f (intW (pickWord s n r k))

def execApick (f : RRR) (s : State) : Out :=
  .next (rrr f 0x19 8 (isD f.d && isA f.s && decide (f.t = 0)) true s (fun x _ s => apickBody f x s))

/-- PICK_READ_DONE (R93, R98, R351): the entries arrive in the cask, tagged BITS (log 26), or the ring halts
and its message is sent at once. -/
def execPickReadDone (p : Nat) (ok : Bool) (data : List (BitVec 64)) (s : State) : Out :=
  .next (
    match (pilot s p).pickrd with
    | none => s
    | some rd =>
      let s := updPilot s p (fun x =>
        { x with pickrd := none, pickst := bit1 (!ok) ++ BitVec.ofNat 16 rd.ring })
      let s := if ok then
          let ws : List TWord := (data.take (8 * rd.n)).map (fun v => ⟨v, 2⟩)
          { s with cask := Table.putList emptyW s.cask (p * 8192 + rd.base / 8) ws }
        else
          notifyNow (updRing s rd.ring (fun r => { r with halt := true, sqfault := true })) rd.ring
      raise s (0xF00 + p))

/-- AEND (R91, R352). -/
def aendBody (f : RRR) (x : Pilot) (s : State) : PRes :=
  let v := (x.reg f.s).val
  match tagFail x.sw.world [(x.reg f.s, 0, isInt)] with
  | some tv => .trap 4 tv s
  | none =>
    let n := (v.extractLsb' 0 16).toNat
    let r := ring s n
    if (r.turn.map (fun t => decide (t.pilot = f.p) && decide (t.bank = x.cur))) = some true then
      let r := { r with turn := none }
      let r := if v.getLsbD 16 then
        { r with poolw := true, poolwBerth := v.extractLsb' 32 16, poolwGen := v.getLsbD 17 } else r
      mz (setRing s n r) f.p true
    else mz s f.p false

def execAend (f : RRR) (s : State) : Out :=
  .next (rrr f 0x19 9 (decide (f.d = 0) && isD f.s && decide (f.t = 0)) true s (fun x _ s => aendBody f x s))

/-! Records. -/

/-- The record of a declined entry (R49, R52, R94). -/
def QDecl.record (d : QDecl) : Rec :=
  { typ := .final, xtag := d.xtag, wclass := d.wclass, unprot := d.unprot, progLost := false, status := 0x42,
    wait := d.wait, xfer := 0, resid := 0, dsv := false, path := 0, lastw := 0, dstat := 0 }

/-- A decline record awaits the twin's acknowledgement (R56, R62). -/
def declineUnacked (s : State) (rseq : W32) : Bool :=
  twinSends s && (s.tw.mq ++ s.tw.maw).any (fun u => decide (u.rseq = rseq) && decide (u.rtype = 1))

/-- The image of a decline-posted or POSTED record (R118, R154). -/
def postedImage (ringNo xtag : BitVec 16) (gen : BitVec 29) (slot : BitVec 16) : Mir :=
  { m0 := (5 : BitVec 3) ++ gen ++ ringNo ++ xtag, m1 := 0, m2 := 0, m3 := slot ++ (0 : BitVec 48) }

/-- DECLINE_FINAL_RECORD (R94, R154, R180): the oldest waiting decline is written once a slot is free and all
earlier records are written. -/
def execDeclineFinalRecord (n : Nat) (s : State) : Out :=
  .next (
    let r := ring s n
    match r.decls, slotFor s n true with
    | d :: ds, some k =>
      let spare := r.cdepth - 1 - r.cdiff k r.cqhead - (r.outst.toNat - r.keptFinals)
      if canWrite s n && decide (k = r.cqtail) && decide (0 < spare) && !declineUnacked s d.rseq then
        let send := twinSends s && !isAdoption s n
        let s := setRing s n { r with decls := ds, decw := r.decw - 1 }
        let s := writeRec s n d.record
        let s := if send then
            updRing (queueRec s 2 0 (postedImage (BitVec.ofNat 16 n) d.xtag 0 k)) n
              (fun r => { r with postWait := r.postWait ++ [k] })
          else s
        drainRing s n
      else s
    | _, _ => s)

/-- HELD_RECORD_WRITE (R42, R47, R48): a waiting held record takes a free slot, and the hold starts when it is
written. -/
def execHeldRecordWrite (idx : Nat) (s : State) : Out :=
  .next (
    let e := own s idx
    let n := ringOfEntry s e
    if (ring s n).helds.contains idx then
      match freeSlot s n false with
      | none => s
      | some k =>
        let s := takeSlot s n k (.held idx e.gen (e.record .held))
        takeoverEnd (drainRing (updRing s n (fun r => { r with helds := r.helds.erase idx })) n)
    else s)

/-- Payload writes still wait for their port's credit, which a final record may not overtake (R59). -/
def payloadWaits (s : State) (port : Nat) : Bool :=
  (List.range 8).any (fun k => (Table.get {} s.qtx (8 * port + k)).wait.any (fun e => match e with
    | .hostWrite _ _ _ _ relaxed _ => relaxed
    | _ => false))

/-- FINAL_RECORD_WRITE (R49, R58, R126, R153): the final record at the head of the ring's slot order is
written, OUTST falls, and the entry's POSTED record is sent. -/
def execFinalRecordWrite (n : Nat) (s : State) : Out :=
  .next (
    let r := ring s n
    match r.use r.cqtail with
    | some (.fin i g x) =>
      if canWrite s n && !payloadWaits s r.lport.toNat then
        let live := decide ((own s i).gen = g)
        let s := if live then addTakeoverWait s i else s
        let e := own s i
        let s := updRing s n (fun r => { r with outst := r.outst - (if r.outst = 0 then 0 else 1) })
        let s := writeRec s n (if live then e.record .final else x)
        let s := if live && e.ackp && twinSends s && !e.tr then queueRec s 0 i (e.image 5) else s
        takeoverEnd (drainRing s n)
      else s
    | _ => s)

/-- HOLDOFF_EXPIRY (R98): HOLDOFF µs have passed since the first record not covered by a message. -/
def execHoldoffExpiry (n : Nat) (s : State) : Out :=
  .next (if (ring s n).since ≠ 0 ∧ (ring s n).holdoff ≠ 0 then notifyNow s n else s)

/-- HOLD_EXPIRY (R42): a held exchange whose held record was written 2^30 tt ago ends with HOLD_EXPIRED. -/
def execHoldExpiry (idx : Nat) (s : State) : Out :=
  .next (if (own s idx).held = true ∧ (xctx s idx).ended = false then endX s idx 0x41 0 none else s)

end Sys2Proof.Machine
end

