-- ==== Sys2Proof/Machine/PilotSys.lean ====
section
/-! DEFINITION. Machine/PilotSys.lean: the pilot-internal control registers and MFC and MTC (R306, R311,
R357, R386 to R390, R446, R463, R484, R551), with the rows that name one register of them. -/

namespace Sys2Proof.Machine

/-- User access of a control register: the U column of R306. -/
inductive UAcc where
  | no
  | r
  | rw
deriving DecidableEq, Repr

/-- What a control register is: its user access, whether an open-world access traps PRIV (every field SEAL,
R7), and the tag test that a written value must pass; none where no register has the number. -/
def crInfo (n : Nat) : Option (UAcc × Bool × (BitVec 4 → Bool)) :=
  if n = 0x000 then some (.rw, false, isInt)
  else if n = 0x001 ∨ n = 0x002 ∨ n = 0x005 ∨ n = 0x007 ∨ n = 0x022 then some (.r, false, isInt)
  else if n = 0x003 then some (.no, false, isInt)
  else if n = 0x004 ∨ n = 0x006 then some (.no, false, isAddr)
  else if 0x008 ≤ n ∧ n ≤ 0x00B then some (.r, false, isInt)
  else if 0x010 ≤ n ∧ n ≤ 0x017 then some (.r, false, isCode)
  else if 0x018 ≤ n ∧ n ≤ 0x01B then some (.r, false, isInt)
  else if n = 0x020 ∨ n = 0x021 then some (.rw, false, isInt)
  else if n = 0x100 ∨ n = 0x103 then some (.no, true, isInt)
  else if n = 0x101 ∨ n = 0x102 then some (.no, true, isCode)
  else if n = 0x104 ∨ n = 0x105 then some (.no, false, isInt)
  else if 0x111 ≤ n ∧ n ≤ 0x117 then some (.no, false, isCode)
  else if (0x119 ≤ n ∧ n ≤ 0x11F) ∨ (0x121 ≤ n ∧ n ≤ 0x127) ∨ (0x129 ≤ n ∧ n ≤ 0x12F) ∨
      (0x131 ≤ n ∧ n ≤ 0x137) then some (.no, false, isInt)
  else if 0x140 ≤ n ∧ n ≤ 0x17F then some (.no, true, isInt)
  else if n = 0x200 then some (.r, false, isInt)
  else if 0x201 ≤ n ∧ n ≤ 0x204 then some (.no, false, isInt)
  else if n = 0x300 ∨ n = 0x302 ∨ n = 0x304 then some (.r, false, isInt)
  else if n = 0x301 ∨ n = 0x303 then some (.no, false, isInt)
  else if 0x400 ≤ n ∧ n ≤ 0x402 then some (.r, false, isInt)
  else if n = 0x500 ∨ (0x508 ≤ n ∧ n ≤ 0x50B) ∨ (0x518 ≤ n ∧ n ≤ 0x51B) then some (.no, false, isInt)
  else if n = 0x501 ∨ (0x510 ≤ n ∧ n ≤ 0x513) then some (.no, false, isAddr)
  else if 0x520 ≤ n ∧ n ≤ 0x53F then some (.no, false, isIntBits)
  else none

/-- The level whose save set a number names (R386). -/
def saveLevel (n : Nat) : Option Nat :=
  if 0x111 ≤ n ∧ n ≤ 0x137 ∧ n % 8 ≠ 0 then some (n % 8) else none

/-- DIRTY as one word (R306). -/
def Pilot.dirtyWord (x : Pilot) : W64 :=
  (0 : BitVec 19) ++ (x.bankOf 8).dirty ++ (x.bankOf 7).dirty ++ (x.bankOf 6).dirty ++ (x.bankOf 5).dirty ++
    (x.bankOf 4).dirty ++ (x.bankOf 3).dirty ++ (x.bankOf 2).dirty ++ (x.bankOf 1).dirty ++ (x.bankOf 0).dirty

/-- LSTAT of a bank (R306). -/
def Bank.lstat (b : Bank) : BitVec 16 :=
  (b.loop 3).lvl ++ (b.loop 2).lvl ++ (b.loop 1).lvl ++ (b.loop 0).lvl ++ b.act

/-- FEAT3.CUSTOM of a pilot (R357, R409, R422). -/
def customBits (s : State) (p : Nat) : BitVec 4 :=
  let x := pilot s p
  if x.src = 0 ∨ p = hmNo then 0 else (vbankOf s (clusterOf p) (decide (x.src = 2))).custom

/-- FEAT0 (R357). -/
def feat0 (s : State) : W64 :=
  ((1 : BitVec 4) ++ s.blk.build.code ++ BitVec.ofNat 8 s.blk.build.clusters ++ BitVec.ofNat 8 s.blk.build.lighters ++
    BitVec.ofNat 8 s.blk.build.banks).setWidth 64

/-- FEAT2 (R357). -/
def feat2 (s : State) : W64 :=
  (BitVec.ofNat 17 s.blk.build.berths ++ BitVec.ofNat 17 s.blk.build.rings ++ BitVec.ofNat 20 s.blk.build.entries).setWidth 64

/-- The watchdog's count is not running (R478, R484). -/
def wdFrozen (s : State) (p : Nat) : Bool :=
  let x := pilot s p
  inWait s p || (decide (p ≠ hmNo) && (csrcOf s (clusterOf p)).hold) || x.inReset || decide (s.blk.mode = 4) || x.frozen || x.atMonitor

/-- The value of a control register with its tag (R306); reads with a side effect and WINCNT are apart. -/
def crRead (s : State) (p n : Nat) : TWord :=
  let x := pilot s p
  let b := x.bankCur
  if n = 0x000 then intW (x.swWord.setWidth 64)
  else if n = 0x001 then intW x.cx
  else if n = 0x002 then intW (BitVec.ofNat 64 x.cur)
  else if n = 0x003 then intW x.dirtyWord
  else if n = 0x004 then b.rsp
  else if n = 0x005 then intW (BitVec.ofNat 64 b.rcache.length)
  else if n = 0x006 then b.dslim
  else if n = 0x007 then intW (b.lstat.setWidth 64)
  else if n = 0x008 then intW (feat0 s)
  else if n = 0x009 then intW 0x1F
  else if n = 0x00A then intW (feat2 s)
  else if n = 0x00B then intW ((customBits s p).setWidth 64)
  else if n < 0x014 then ⟨((b.loop (n - 0x010)).ls).setWidth 64, 5⟩
  else if n < 0x018 then ⟨((b.loop (n - 0x014)).le).setWidth 64, 5⟩
  else if n < 0x01C then intW ((b.loop (n - 0x018)).lc.setWidth 64)
  else if n = 0x020 then b.mh
  else if n = 0x021 then b.ml
  else if n = 0x022 then intW (BitVec.ofNat 64 p)
  else if n = 0x100 then
    intW (((0 : BitVec 21) ++ x.dmon ++ (0 : BitVec 1) ++ x.lw ++ (0 : BitVec 1)).setWidth 64)
  else if n = 0x101 then ⟨(x.vbo ++ (0 : BitVec 9)).setWidth 64, 5⟩
  else if n = 0x102 then ⟨(x.vbs ++ (0 : BitVec 9)).setWidth 64, 5⟩
  else if n = 0x103 then intW (x.cseal.setWidth 64)
  else if n = 0x104 then intW b.glnk.pack
  else if n = 0x105 then intW (BitVec.ofNat 64 b.depth)
  else if n < 0x118 then ⟨(x.setOf (n % 8)).spc.setWidth 64, 5⟩
  else if n < 0x120 then intW (((x.setOf (n % 8)).ssw.pack false).setWidth 64)
  else if n < 0x128 then intW (x.setOf (n % 8)).scx
  else if n < 0x130 then
    let t := (x.setOf (n % 8)).tc
    let t := if x.sw.world then t
             else { t with clevel := 0, cmask := 0, cworld := false, cpriv := false,
                           bank := if n % 8 = 7 then 0 else t.bank }
    intW t.pack
  else if n < 0x138 then intW (x.setOf (n % 8)).tv
  else if n < 0x180 then intW (x.gate (n - 0x140))
  else if n = 0x200 then
    match presented s p with
    | some (k, l) => intW (((1 : BitVec 1) ++ l ++ BitVec.ofNat 12 k).setWidth 64)
    | none => intW 0
  else if n = 0x203 then intW (x.pickst.setWidth 64)
  else if n = 0x300 then ⟨s.tide.count, 7⟩
  else if n = 0x301 then intW (x.wdper.setWidth 64)
  else if n = 0x302 then intW (x.wdcnt.setWidth 64)
  else if n = 0x304 then intW ((bit1 x.strike ++ bit1 (wdFrozen s p)).setWidth 64)
  else if n = 0x400 then intW x.win.count
  else if n = 0x401 then intW ((x.ckMism ++ x.ckOk).setWidth 64)
  else if n = 0x402 then intW (x.subinfo.setWidth 64)
  else if n = 0x500 then intW ((bit1 x.dbg.resume1).setWidth 64)
  else if n = 0x501 then ⟨x.dbg.dwaddr, 4⟩
  else if 0x508 ≤ n ∧ n ≤ 0x50B then intW (Table.get 0 x.dbg.bpc (n - 0x508))
  else if 0x510 ≤ n ∧ n ≤ 0x513 then ⟨Table.get 0 x.dbg.wpa (n - 0x510), 4⟩
  else if 0x518 ≤ n ∧ n ≤ 0x51B then intW (Table.get 0 x.dbg.wpc (n - 0x518))
  else intW 0

/-- The oldest release write as RELTAKE gives it (R463). -/
def relWord (r : RelW) : W64 :=
  (1 : BitVec 1) ++ (0 : BitVec 15) ++ r.ring ++ (0 : BitVec 14) ++ r.act ++ r.xtag

/-- What a take of EVTAKE or RELTAKE would return, without taking it (R463, R540). -/
def crPeekTake (s : State) (p n : Nat) : W64 :=
  if n = 0x201 then
    match level0Event s p with
    | some k => ((1 : BitVec 1) ++ (0 : BitVec 3) ++ BitVec.ofNat 12 k).setWidth 64
    | none => 0
  else
    match s.evc.relq with
    | r :: _ => relWord r
    | [] => 0

/-- The effect of a take of EVTAKE (R458) or RELTAKE (R463). -/
def crTake (s : State) (p n : Nat) : State :=
  if n = 0x201 then
    match level0Event s p with
    | some k => claimSrc s k p (pilot s p).cur 0
    | none => s
  else if n = 0x204 then
    let s := sampleLevel { s with evc := { s.evc with relq := s.evc.relq.tail } } 2
    passHeld s.evc.relHold.length s
  else s

/-- An open-world MFC or MTC of register `n` traps PRIV (R7, R387): every field is SEAL; or some are, as in TC1 to
TC7 (R390); or the save set was written by a sealed entry. -/
def crPriv (x : Pilot) (n : Nat) (allSeal : Bool) : Bool :=
  !x.sw.world && (allSeal || (decide (0x129 ≤ n) && decide (n ≤ 0x12F)) ||
    (match saveLevel n with
     | some k => (x.setOf k).tc.hw
     | none => false))

/-- MFC of number `n` into register `d` (R306). -/
def mfc (p : Nat) (d : BitVec 5) (n : Nat) (word : W32) (s : State) : PRes :=
  let x := pilot s p
  let w : W64 := word.setWidth 64
  match crInfo n with
  | none => .trap 1 w s
  | some (u, allSeal, _) =>
    if (x.sw.priv = false ∧ u = .no) ∨ crPriv x n allSeal = true then .trap 2 w s
    else if n = 0x201 ∨ n = 0x204 then
      let v := crPeekTake s p n
      .done (updPilot (crTake s p n) p (fun x => x.wrInt d v))
    else
      let v := crRead s p n
      match tagFail x.sw.world [(v, 0, anyTag)] with
      | some tv => .trap 4 tv s
      | none => .done (updPilot s p (fun x => x.wr d v))

/-- The bits of DIRTY of bank `k`. -/
def dirtyOf (v : W64) (k : Nat) : BitVec 5 := v.extractLsb' (5 * k) 5

/-- MTC of SW (R311, R363): user privilege writes D, N, Z, V and C only; BRK clears; MASK never falls below
LEVEL. -/
def Sw.write (w : Sw) (v : W32) : Sw :=
  let n := Sw.unpack v
  let w := { w with brk := false, d := n.d, n := n.n, z := n.z, v := n.v, c := n.c }
  if w.priv then { w with t := n.t, mask := if n.mask < w.level then w.level else n.mask } else w

/-- The writable bits of BPC and WPC (R551). -/
def bpcMask : W64 := 0xE00000000003FFFC
def wpcMask : W64 := 0xFC0000000000000F

/-- The effect of MTC on a pilot's own registers. -/
def crWriteP (x : Pilot) (n : Nat) (v : W64) : Pilot :=
  let b := x.bankCur
  if n = 0x000 then { x with sw := x.sw.write (v.setWidth 32) }
  else if n = 0x001 then { x with cx := v }
  else if n = 0x003 then
    (List.range 9).foldl (fun x k => x.setBank k { x.bankOf k with dirty := dirtyOf v k }) x
  else if n = 0x004 then x.setCur { b with rsp := ⟨v, 4⟩ }
  else if n = 0x006 then x.setCur { b with dslim := ⟨v, 4⟩ }
  else if n = 0x007 then x.setCur { b with act := b.act &&& v.setWidth 4, dirty := b.dirty ||| 8 }
  else if 0x010 ≤ n ∧ n < 0x014 then
    x.setCur (b.setLoop (n - 0x010) { b.loop (n - 0x010) with ls := v.setWidth 18 })
  else if 0x014 ≤ n ∧ n < 0x018 then
    x.setCur (b.setLoop (n - 0x014) { b.loop (n - 0x014) with le := v.setWidth 18 })
  else if 0x018 ≤ n ∧ n < 0x01C then
    x.setCur (b.setLoop (n - 0x018) { b.loop (n - 0x018) with lc := v.setWidth 32 })
  else if n = 0x020 then x.setCur { b with mh := intW v, dirty := b.dirty ||| 16 }
  else if n = 0x021 then x.setCur { b with ml := intW v, dirty := b.dirty ||| 16 }
  else if n = 0x100 then
    let dm := v.extractLsb' 8 3
    { x with dmon := if dm = 0 ∨ dm = 6 ∨ dm = 7 then x.dmon else dm, lw := v.extractLsb' 1 6 }
  else if n = 0x101 then { x with vbo := v.extractLsb' 9 9 }
  else if n = 0x102 then { x with vbs := v.extractLsb' 9 9 }
  else if n = 0x103 then
    { x with cseal := if 64 < (v.extractLsb' 0 7).toNat then x.cseal else v.extractLsb' 0 7 }
  else if 0x111 ≤ n ∧ n ≤ 0x117 then
    x.putSet (n % 8) { x.setOf (n % 8) with spc := v.setWidth 18 }
  else if 0x119 ≤ n ∧ n ≤ 0x11F then
    let o := x.setOf (n % 8)
    x.putSet (n % 8) { o with ssw := { Sw.unpack (v.setWidth 32) with slot := o.ssw.slot } }
  else if 0x121 ≤ n ∧ n ≤ 0x127 then x.putSet (n % 8) { x.setOf (n % 8) with scx := v }
  else if 0x129 ≤ n ∧ n ≤ 0x12F then
    if x.sw.world then
      let o := x.setOf (n % 8)
      x.putSet (n % 8) { o with tc := { o.tc with
        clevel := v.extractLsb' 59 3, cmask := v.extractLsb' 56 3, cworld := v.getLsbD 55,
        cpriv := v.getLsbD 54, bank := if n % 8 = 7 then v.extractLsb' 50 4 else o.tc.bank } }
    else x
  else if 0x140 ≤ n ∧ n ≤ 0x17F then
    { x with gtab := Table.put 0 x.gtab (n - 0x140) (v &&& 0xF80000000003FFFF) }
  else if n = 0x301 then { x with wdper := if v.setWidth 32 < (1000 : W32) then 1000 else v.setWidth 32 }
  else if n = 0x303 then { x with wdcnt := x.wdper, strike := false }
  else if n = 0x500 then { x with dbg := { x.dbg with resume1 := v.getLsbD 0 } }
  else if 0x508 ≤ n ∧ n ≤ 0x50B then
    { x with dbg := { x.dbg with bpc := Table.put 0 x.dbg.bpc (n - 0x508) (v &&& bpcMask) } }
  else if 0x510 ≤ n ∧ n ≤ 0x513 then
    { x with dbg := { x.dbg with wpa := Table.put 0 x.dbg.wpa (n - 0x510) v } }
  else if 0x518 ≤ n ∧ n ≤ 0x51B then
    { x with dbg := { x.dbg with wpc := Table.put 0 x.dbg.wpc (n - 0x518) (v &&& wpcMask) } }
  else x

/-- The effect of MTC outside the pilot's own registers: EVEOI releases a claim (R452, R463), and a STIM
write to an enabled port emits a packet (R553, R554). -/
def crWrite (s : State) (p n : Nat) (v : W64) : State :=
  if n = 0x202 then
    releaseClaims s (fun k c => decide (k = (v.extractLsb' 0 12).toNat) && decide (c.pilot = p))
  else if 0x520 ≤ n ∧ n ≤ 0x53F then
    if s.dbg.smask.getLsbD (n - 0x520) then notePacket s p 1 (BitVec.ofNat 5 (n - 0x520)) v else s
  else updPilot s p (fun x => crWriteP x n v)

/-- MTC at user privilege is allowed: the U column, and DBG.SUMASK for a STIM port (R306, R554). -/
def crUserWrite (s : State) (n : Nat) (u : UAcc) : Bool :=
  decide (u = .rw) || (decide (0x520 ≤ n) && decide (n ≤ 0x53F) && s.dbg.sumask.getLsbD (n - 0x520))

/-- MTC of register `g` into number `n` (R306). -/
def mtc (p : Nat) (g : BitVec 5) (n : Nat) (word : W32) (s : State) : PRes :=
  let x := pilot s p
  let w : W64 := word.setWidth 64
  let a := x.reg g
  match crInfo n with
  | none => .trap 1 w s
  | some (u, allSeal, ok) =>
    if (x.sw.priv = false ∧ crUserWrite s n u = false) ∨ crPriv x n allSeal = true then .trap 2 w s
    else
      match tagFail x.sw.world [(a, 0, ok)] with
      | some tv => .trap 4 tv s
      | none =>
        if x.sw.world = false ∧ ((0x508 ≤ n ∧ n ≤ 0x50B) ∨ (0x518 ≤ n ∧ n ≤ 0x51B)) ∧ a.val.getLsbD 62 = true
        then .trap 2 w s
        else .done (crWrite s p n a.val)

def execMfc (f : RRI) (s : State) : Out :=
  .next (rri f 0x15 (isD f.d && decide (f.s = 0)) s (fun _ _ s =>
    mfc f.p f.d f.imm.toNat (rriWord f 0x15) s))

def execMtc (f : RRI) (s : State) : Out :=
  .next (rri f 0x16 (decide (f.d = 0)) s (fun _ _ s => mtc f.p f.s f.imm.toNat (rriWord f 0x16) s))

/-- An MFC or MTC whose number the row names. -/
def crf (f : CRF) (n : BitVec 12) : RRI := ⟨f.p, f.g, f.d, f.s, n⟩

/-- EVTAKE: MFC of control register 0x201 (R458, R463). -/
def execEvtake (f : CRF) (s : State) : Out :=
  let r := crf f 0x201
  .next (rri r 0x15 (isD r.d && decide (r.s = 0)) s (fun _ _ s => mfc r.p r.d 0x201 (rriWord r 0x15) s))

/-- EVEOI: MTC of control register 0x202 (R452, R463). -/
def execEveoi (f : CRF) (s : State) : Out :=
  let r := crf f 0x202
  .next (rri r 0x16 (decide (r.d = 0)) s (fun _ _ s => mtc r.p r.s 0x202 (rriWord r 0x16) s))

/-- RELTAKE: MFC of control register 0x204 (R463). -/
def execReltake (f : CRF) (s : State) : Out :=
  let r := crf f 0x204
  .next (rri r 0x15 (isD r.d && decide (r.s = 0)) s (fun _ _ s => mfc r.p r.d 0x204 (rriWord r 0x15) s))

/-- WDKICK: MTC of control register 0x303 (R478, R484). -/
def execWdkick (f : CRF) (s : State) : Out :=
  let r := crf f 0x303
  .next (rri r 0x16 (decide (r.d = 0)) s (fun _ _ s => mtc r.p r.s 0x303 (rriWord r 0x16) s))

/-- STIM: MTC of control register 0x520 + n (R551, R554). -/
def execStim (f : CRF) (n : BitVec 5) (s : State) : Out :=
  let r := crf f (0x520 + n.setWidth 12)
  .next (rri r 0x16 (decide (r.d = 0)) s (fun _ _ s =>
    mtc r.p r.s (0x520 + n.toNat) (rriWord r 0x16) s))

end Sys2Proof.Machine
end

