-- ==== Sys2Proof/Machine/Governor.lean ====
section
/-! DEFINITION. Machine/Governor.lean: what the drowse governor computes (R103, R510, R511). -/

namespace Sys2Proof.Machine

/-- The smallest LTOL of the enabled rings, 0xFFFF with none (R524). -/
def ltolMin (s : State) : BitVec 16 :=
  s.rings.foldl (fun (m : BitVec 16) (e : Nat × Ring) => if e.2.en && decide (e.2.ltol < m) then e.2.ltol else m) 0xFFFF

/-- The level that LTOL permits (R103). -/
def ltolBound (s : State) : Nat :=
  if s.rings.any (fun e => e.2.en) then
    let m := (ltolMin s).toNat
    if m = 0 then 0 else if m ≤ 5 then 1 else if m ≤ 59 then 2 else 3
  else 3

/-- The pilots without the Harbourmaster's processor. -/
def fastPilots (s : State) : List Nat := (pilotNos s).filter (fun p => decide (p ≠ hmNo))

/-- Something is in flight that D2 would stop (R511). -/
def inFlight (s : State) : Bool :=
  decide (inUse s ≠ 0) ||
  s.own.any (fun e => decide (e.2.moor.mst = 1)) || s.moor.any (fun e => decide (e.2.mst = 1)) ||
  s.ltr.lighters.any (fun e => !e.2.orders.isEmpty) || s.bays.any (fun e => e.2.bound) ||
  s.rings.any (fun e => decide (e.2.tail ≠ e.2.cons) || decide (e.2.decw ≠ 0) || !e.2.slots.isEmpty || e.2.mpend ||
    (e.2.ven && decide (e.2.since ≠ 0))) ||
  s.paths.any (fun e => e.2.lanes.any (fun l => !l.2.unack.isEmpty)) ||
  s.vin.busy || s.pilots.any (fun e => decide (e.2.role = .active) && !e.2.inReset && decide (e.1 ≠ hmNo) &&
    decide (e.2.src ≠ (csrcOf s (clusterOf e.1)).sel.toNat)) ||
  s.hm.busy

/-- activity_bound() (R511). -/
def activityBound (s : State) : Nat :=
  if (fastPilots s).any (fun p => (decide ((pilot s p).role = .active) && !(pilot s p).waiting) || (presented s p).isSome) then 0
  else if inFlight s then 1 else 3

/-- The terms of R510 in the order of BIND, each with its code: mode, first-use hold, twin, LTOL, MAXLVL, activity. -/
def govTerms (s : State) : List (Nat × BitVec 3) :=
  let mode := if s.blk.mode = 3 ∨ s.blk.mode = 4 then 3 else 0
  let hold := if (now32 s - s.boot.svct).toNat < 1000000 then 0 else 3
  let t := s.hbr.tstate.toNat
  let twin := if 3 ≤ t ∧ t ≤ 5 then 0 else if t = 1 ∨ t = 2 then 2 else 3
  [(mode, 6), (hold, 5), (twin, 2), (ltolBound s, 1), (s.pwr.maxlvl.toNat, 4), (activityBound s, 3)]

/-- The permitted level and BIND (R510). -/
def permitted (s : State) : Nat × BitVec 3 :=
  (govTerms s).foldl (fun (b : Nat × BitVec 3) (t : Nat × BitVec 3) => if t.1 < b.1 then t else b) (3, 0)

/-- The governor permits D3 for R189: every term but the twin's allows it (R513). -/
def permitsD3 (s : State) : Bool := (govTerms s).all (fun t => decide (t.2 = 2) || decide (3 ≤ t.1))

/-- The level that the block is at or is entering. -/
def levelNow (s : State) : Nat := Nat.max s.blk.dlevel.toNat s.pwr.entering.toNat

/-- The governor works out the permitted level; a level deeper than that starts a wake (R104, R510, R512). -/
def govern (s : State) : State :=
  let p := permitted s
  let s := { s with pwr := { s.pwr with permit := BitVec.ofNat 2 p.1, bind := p.2, ltolmin := ltolMin s,
                                        run := decide (2 ≤ activityBound s) } }
  if p.1 < levelNow s then startWake s 7 else s

end Sys2Proof.Machine
end

