-- ==== Sys2Proof/Machine/MirrorIn.lean ====
section
/-! DEFINITION. Machine/MirrorIn.lean: mirror records that the block receives (R120, R121, R154 to R158, R160, R217
to R220) and the acknowledgement of those it sent (R124, R192, R220). -/

namespace Sys2Proof

/-- Fields of a unit's image (R118, R218). -/
def MUnit.kind (u : MUnit) : BitVec 3 := u.m0.extractLsb' 61 3
def MUnit.gen (u : MUnit) : BitVec 29 := u.m0.extractLsb' 32 29
def MUnit.ringNo (u : MUnit) : BitVec 16 := u.m0.extractLsb' 16 16
def MUnit.xtag (u : MUnit) : BitVec 16 := u.m0.extractLsb' 0 16
def MUnit.sslot (u : MUnit) : BitVec 16 := u.m1.extractLsb' 32 16
def MUnit.slot (u : MUnit) : BitVec 16 := u.m3.extractLsb' 48 16

end Sys2Proof

namespace Sys2Proof.Machine

/-- The image of a unit. -/
def mirOf (u : MUnit) : Mir := ⟨u.m0, u.m1, u.m2, u.m3⟩

/-- `a` is at or before `b` modulo 2^32. -/
def atOrBefore (a b : W32) : Bool := !(b - a).getLsbD 31

/-- CUM (R220): a record in the decline hold holds it back. -/
def cumOf (t : Twin) : W32 :=
  match t.hold with
  | u :: _ => u.rseq - 1
  | [] => t.rxLast

/-- A posted slot of twin ring `r` (R160). -/
def shadowPosted (s : State) (r : Nat) (k : BitVec 16) : State :=
  let x := shadow s r
  let turned := match x.posted with
    | some j => decide (k < j)
    | none => false
  setShadow s r { x with posted := some k, phase := if turned then !x.phase else x.phase }

/-- Consumption records that CUM covers move their rings' shadows (R160). -/
def flushShadow (s : State) : State :=
  let c := cumOf s.tw
  let go := s.tw.shadowQ.filter (fun u => atOrBefore u.rseq c)
  let s := go.foldl (fun s u =>
    let x := shadow s u.ringNo.toNat
    setShadow s u.ringNo.toNat { x with cons := BitVec.ofNat 16 ((u.sslot.toNat + 1) % 2 ^ x.sqlog.toNat) }) s
  updTw s (fun t => { t with shadowQ := t.shadowQ.filter (fun u => !atOrBefore u.rseq c) })

/-- An entry record (R120): written at INDEX; a POSTED record empties the entry.  DESIGN CHOICE (log 67): a POSTED
record for an entry that holds another GEN empties it too, without the mirror-sequence log. -/
def writeEntryRec (s : State) (u : MUnit) : State :=
  let i := u.index.toNat
  if u.kind = 5 then shadowPosted (setMirr s i {}) u.ringNo.toNat u.slot
  else if u.kind = 1 ∨ u.kind = 3 ∨ u.kind = 4 then
    let old := (mirr s i).m0
    let g : BitVec 29 := old.extractLsb' 32 29
    let s := if old.extractLsb' 61 3 ≠ 0 ∧ g ≠ u.gen then
        hmLog s 0x204 (u.index.setWidth 64) ((0 : BitVec 3) ++ u.gen ++ (0 : BitVec 3) ++ g) else s
    let s := setMirr s i (mirOf u)
    if u.kind = 1 then updTw s (fun t => { t with shadowQ := t.shadowQ ++ [u] }) else s
  else s

/-- The ledger entry of a DECLINE record (R155). -/
def ledOf (u : MUnit) : Led := ⟨u.ringNo, u.sslot, u.xtag, u.m3.extractLsb' 0 3, u.m1.extractLsb' 16 16⟩

/-- Held declines enter the ledger, oldest first, while it has room (R155). -/
def drainHold : Nat → Twin → Twin
  | 0, t => t
  | n + 1, t =>
    match t.hold with
    | u :: us => if t.ledger.length < 4096 then drainHold n { t with hold := us, ledger := t.ledger ++ [ledOf u] } else t
    | [] => t

/-- A DECLINE record (R155). -/
def writeDecline (s : State) (u : MUnit) : State :=
  updTw s (fun t =>
    let t := { t with shadowQ := t.shadowQ ++ [u] }
    if t.hold.isEmpty && decide (t.ledger.length < 4096) then { t with ledger := t.ledger ++ [ledOf u] }
    else { t with hold := t.hold ++ [u] })

/-- A decline-posted record removes the oldest ledger entry of its RING and XTAG (R155). -/
def writeDeclinePosted (s : State) (u : MUnit) : State :=
  let s := shadowPosted s u.ringNo.toNat u.slot
  updTw s (fun t =>
    let l := t.ledger.eraseP (fun l => decide (l.ring = u.ringNo) && decide (l.xtag = u.xtag))
    drainHold t.hold.length { t with ledger := l })

/-- A ring-state record (R156, R158, R218): an enable resets the shadow; the adoption ring takes the fields. -/
def writeRingState (s : State) (u : MUnit) : State :=
  let r := (u.m2.extractLsb' 48 16).toNat
  let en := u.m2.getLsbD 47
  let x := shadow s r
  let fresh := en && !x.en
  let y : Shadow := if fresh then {} else x
  let s := setShadow s r { y with
    seen := true, en := en, sqb := u.m0.extractLsb' 6 58, cqb := u.m1.extractLsb' 6 58,
    sqlog := u.m2.extractLsb' 42 5, cqlog := u.m2.extractLsb' 37 5, group := u.m2.extractLsb' 25 12,
    credit := u.m3.extractLsb' 48 16, ddl := u.m3.extractLsb' 32 16 }
  let s := if fresh then updTw s (fun t => { t with shadowQ := t.shadowQ.filter (fun v => decide (v.ringNo.toNat ≠ r)) }) else s
  let a := ring s ((halfRings s) + r)
  if s.hbr.role = 0 ∧ r < (halfRings s) ∧ a.en = false then
    let y := shadow s r
    setRing s ((halfRings s) + r) { a with
      sqb := y.sqb, cqb := y.cqb, sqlog := y.sqlog, cqlog := y.cqlog, group := y.group, credit := y.credit, ddl := y.ddl }
  else s

/-- One record unit in RSEQ order (R217, R219). -/
def applyUnit (s : State) (u : MUnit) : State :=
  let d := u.rseq - s.tw.rxLast
  if d = 1 then
    let s := updTw s (fun t => { t with rxLast := u.rseq })
    let s := if u.rtype = 0 then writeEntryRec s u
      else if u.rtype = 1 then writeDecline s u
      else if u.rtype = 2 then writeDeclinePosted s u
      else if u.rtype = 3 then writeRingState s u
      else hmLog s 0x205 (u.rseq.setWidth 64) (u.rtype.setWidth 64)
    flushShadow s
  else if atOrBefore u.rseq s.tw.rxLast then
    let old := (mirr s u.index.toNat).m0
    if u.rtype = 0 ∧ (u.kind = 1 ∨ u.kind = 3 ∨ u.kind = 4) ∧ old.extractLsb' 61 3 = u.kind ∧ old.extractLsb' 32 29 = u.gen then
      setMirr s u.index.toNat (mirOf u)
    else s
  else hmLog s 0x205 (u.rseq.setWidth 64) (u.rtype.setWidth 64)

/-- Apply units in order; a new DECLINE that needs the decline hold while it is full leaves itself and what follows
undelivered (R155). -/
def applyUnits : State → List MUnit → State
  | s, [] => s
  | s, u :: us =>
    if u.rtype = 1 ∧ u.rseq - s.tw.rxLast = 1 ∧ 64 ≤ s.tw.hold.length then updTw s (fun t => { t with rest := u :: us })
    else applyUnits (applyUnit s u) us

/-- The decline hold is full, so nothing more is delivered from lane 1 of the twin's path (R155). -/
def holdFull (s : State) : Bool := decide (64 ≤ s.tw.hold.length)

/-- A MACK on lane 1 of the path that carried the record (R220). -/
def sendMack (s : State) (p : Nat) : State := laneSend s p 1 5 (qBytes (cumOf s.tw ++ (0 : BitVec 32)))

/-- A MIRROR frame from the twin (R120, R219, R220). -/
def takeMirror (s : State) (p : Nat) (units : List MUnit) : State :=
  if isTwinPath s p then
    sendMack (applyUnits (updTw s (fun t => { t with rest := [] })) (s.tw.rest ++ units)) p
  else s

/-! Acknowledgements (R124, R219, R220). -/

/-- An entry of a ring's disposed list is acknowledged, and CONS may advance (R93). -/
def ackDisp (s : State) (n : Nat) (k : DispKey) : State :=
  advanceCons (updRing s n (fun r => { r with disp := r.disp.map (fun d => if d.key = k then { d with acked := true } else d) })) n

/-- The POSTED record of a slot is acknowledged (R153). -/
def ackPosted (s : State) (n : Nat) (k : BitVec 16) : State :=
  updRing s n (fun r => { r with postWait := r.postWait.erase k })

/-- One record that a MACK covers: the state, and whether ACKP was cleared; an entry's later record that is not yet
acknowledged keeps it (R62, R123). -/
def ackUnit (s : State) (u : MUnit) : State × Bool :=
  let i := u.index.toNat
  let n := u.ringNo.toNat
  if u.rtype = 0 then
    let later := (s.tw.mq ++ s.tw.maw).any (fun v => decide (v.rtype = 0) && decide (v.index = u.index) && decide (v.gen = u.gen))
    let hit := decide ((own s i).gen = u.gen) && (own s i).ackp && !later
    let s := if hit then updOwn s i (fun e => { e with ackp := false }) else s
    let s := if u.kind = 1 then ackDisp s n (.own i u.gen) else if u.kind = 5 then ackPosted s n u.slot else s
    (s, hit)
  else if u.rtype = 1 then (ackDisp s n (.decl u.rseq), false)
  else if u.rtype = 2 then (ackPosted s n u.slot, false)
  else (s, false)

/-- A MACK with CUM `c` (R220). -/
def takeMack (s : State) (p : Nat) (c : W32) : State :=
  if !isTwinPath s p then s
  else
    let hit := s.tw.maw.filter (fun u => atOrBefore u.rseq c)
    let s := updTw s (fun t => { t with
      maw := t.maw.filter (fun u => !atOrBefore u.rseq c),
      fillTo := match t.fillTo with
        | some r => if atOrBefore r c then none else some r
        | none => none })
    let x := hit.foldl (fun (x : State × Bool) u => let y := ackUnit x.1 u; (y.1, x.2 || y.2)) (s, false)
    fillEnd (if x.2 then raise x.1 4 else x.1)

/-! Pairing (R192, R499). -/

/-- The records of the fill: a ring-state record for each enabled own ring, and the LMP record of each own entry below
POSTED (R192 steps 3 and 4). -/
def sendFill (s : State) : State :=
  let s := (s.rings.filter (fun e => e.2.en && decide (e.1 < (halfRings s)))).foldl (fun s e => sendRingState s e.1) s
  (s.own.filter (fun e => decide (1 ≤ e.2.st.toNat) && decide (e.2.st.toNat < 5) && !e.2.tr && !e.2.srv)).foldl
    (fun s e => queueRec s 0 e.1 (e.2.image e.2.lmp)) s

/-- The registrations of R192 step 2 and R499: the survivor of a re-twinning reports; every other block registers, and
the lower-numbered one of a first pairing goes on to the report that precedes the Acquire. -/
def registerKeys (s : State) (first survivor : Bool) : State :=
  let st : ResvStep := if survivor then .report false else .register (first && decide (s.hbr.num < s.hbr.tnum))
  (fenceSet s).foldl (fun s g => resvCmd s g st) (updTw s (fun t => { t with regs := fenceSet s }))

/-- STATE enters PAIRING with block `n` (R162, R192, R219). -/
def beginPairing (s : State) (n : BitVec 16) (first survivor : Bool) : State :=
  let s := { s with hbr := { s.hbr with tnum := n, role := 0 } }
  let s := updTw s (fun t => { t with
    rseqNext := 1, mq := [], maw := [], rxLast := 0, ledger := [], hold := [], rest := [], shadowQ := [], shadow := [], fillTo := none,
    last := s.tide.count, miss := 0, wakeSent := false, retwin := false, asked := none,
    lost := if t.lost = some n then none else t.lost,
    primPath := none })
  let s := registerKeys (setTstate s 1) first survivor
  let s := sendFill s
  let s := updTw s (fun t => { t with fillTo := if t.mq.isEmpty then none else some (t.rseqNext - 1) })
  fillEnd s

/-- A PAIR (R192, R499): a spare accepts any, a PAIRED block its charter twin; it answers PAIR_ACK. -/
def takePair (s : State) (p : Nat) : State :=
  let n := (pathOf s p).peer
  let ok := decide (s.hbr.tstate = 0) && (decide (s.blk.mode = 3) || decide (s.blk.mode = 5)) &&
    (decide (s.hbr.role = 1) || (decide (s.hbr.role = 0) && decide (n = s.tw.charterTwin)))
  if ok then beginPairing (sendCtrl s p 7 0) n (decide (s.hbr.role = 0)) false else s

/-- A PAIR_ACK from the block that was asked (R192). -/
def takePairAck (s : State) (p : Nat) : State :=
  let n := (pathOf s p).peer
  if s.hbr.tstate = 0 ∧ s.tw.asked = some n then beginPairing s n (!s.tw.retwin) s.tw.retwin else s

/-- An UNPAIR from the twin (R124, R188, R271): STATE becomes NONE, by way of ACTIVE (R150, log 71), and the held writes go
out; the partner acquires the reservations that the other has released. -/
def takeUnpair (s : State) (p : Nat) : State :=
  if isTwinPath s p ∧ 1 ≤ s.hbr.tstate.toNat ∧ s.hbr.tstate.toNat ≤ 3 then
    let s := setTstate (setTstate (endRecords (updTw s (fun t => { t with unpairing := false }))) 2) 0
    let s := drainAll s
    ((fenceSet s).filter (fun g => !s.tw.held.contains g)).foldl (fun s g => resvCmd s g .acquire) s
  else s

end Sys2Proof.Machine
end

