-- ==== Sys2Proof/Machine/Remote.lean ====
section
/-! DEFINITION. Machine/Remote.lean: remote device commands, as a serving block (R201, R221, R222, R293, R294) and as a
requester (R295). -/

namespace Sys2Proof.Machine

/-- Keys of remote commands lie above those of the device queues; the second half of a fused pair has its own. -/
def remoteKey (rqid : W32) : Nat := 67108864 + rqid.toNat
def fusedKey (rqid : W32) : Nat := remoteKey rqid + 4294967296

/-- The served command of a peer and RQID. -/
def findServe (s : State) (peer : BitVec 16) (rqid : W32) : Option (Nat × Serve) :=
  s.serves.findSome? (fun e => match e.2 with
    | some v => if v.rqid = rqid ∧ (pathOf s v.path).peer = peer then some (e.1, v) else none
    | none => none)

def setServe (s : State) (i : Nat) (v : Serve) : State := { s with serves := Table.put none s.serves i (some v) }

/-- Served commands of a serving berth are outstanding. -/
def servesOf (s : State) (b : BitVec 16) : Bool :=
  s.serves.any (fun e => match e.2 with
    | some v => decide (v.berth = b)
    | none => false)

/-- The serving berth cannot serve the command (R293). -/
def noBerth (b : Berth) (sqe : List W64) : Bool :=
  decide (b.state = 0) || decide (b.state = 2) || decide (b.nsid ≠ (sqe.headD 0).extractLsb' 32 32) || !(b.slot 0).v

/-- The entry of a served command: allocated as MALLOC.V does, and stepped through BOUND to ISSUED, so that its data can
be staged (R117, R123, R293, log 34). -/
def serveEntry (s : State) (i : Nat) (pool : BitVec 2) (b : BitVec 16) : State :=
  let e := (own s i).alloc ⟨127, 0, true⟩ pool false 0 0 b 0 0 0
  let s := setOwn s i { e with srv := true, lmp := 1 }
  let s := (mstepTo (mstepTo s i 2).2 i 3).2
  updOwn s i (fun e => { e with moor := {} })

/-- An RCMD (R201, R222, R293, R294, R503). -/
def takeRcmd (s : State) (p : Nat) (lane : BitVec 3) (rqid : W32) (b : BitVec 16) (fused : Bool) (sqe : List W64) : State :=
  let v : Serve := { path := p, lane := lane, rqid := rqid, berth := b, fused := fused, sqe := sqe }
  let x := berth s b.toNat
  if s.dock.fencedBy.contains (pathOf s p).peer then sendRcpl s v 2 []
  else if s.blk.mode = 6 then sendRcpl s v 3 []
  else
    match poolFor s 3 0 with
    | none => sendRcpl s v 1 []
    | some pool =>
      match pickFree s with
      | (none, s) => sendRcpl s v 1 []
      | (some i, s) =>
        if noBerth x sqe then sendRcpl s v 3 []
        else if x.quiesced then sendRcpl s v 4 []
        else setServe (serveEntry s i pool b) i v

/-- The staging address of byte `off` of entry `i` (R233, R277). -/
def stageDba (i off : Nat) : BitVec 48 := (1 : BitVec 4) ++ BitVec.ofNat 20 i ++ BitVec.ofNat 24 off

/-- The read command of this block that an RDATA frame answers: its entry and the offset of its part. -/
def readOf (s : State) (p : Nat) (lane : BitVec 3) (rqid : W32) : Option (Nat × Nat) :=
  match dcmdOf s (remoteKey rqid) with
  | some c =>
    (match c.frame, c.kind, (xctx s c.idx).cur with
     | some (q, l, _), .part k, some wx =>
       if q = p ∧ l = lane ∧ liveCmd s c = true ∧ nvmeOp wx.w k = 2 then some (c.idx, k * chunkOf s (berthOf s c.idx) wx.w) else none
     | _, _, _ => none)
  | none => none

/-- An RDATA frame (R221, R236, R278, R293): the write data of a fused pair is staged from the page after its compare
data. -/
def takeRdata (s : State) (p : Nat) (lane : BitVec 3) (rqid off : W32) (last : Bool) (data : List Byte) : State :=
  let port := (pathOf s p).sp.toNat
  let bell : State → State := fun s => if last then raise s (0x303 + 4 * port) else s
  match readOf s p lane rqid with
  | some (i, base) => bell (stageWrite s (stageDba i (base + off.toNat)) data)
  | none =>
    match findServe s (pathOf s p).peer rqid with
    | some (i, v) =>
      let s := setServe s i { v with got := v.got + data.length, last := v.last || last }
      let n := (((v.sqe.getD 6 0).extractLsb' 0 16).toNat + 1) * (berthOf s i).lbs
      let cut := if v.fused then n - off.toNat else data.length
      let s := if cut = 0 then s else stageWrite s (stageDba i off.toNat) (data.take cut)
      let d := data.drop cut
      bell (if d.isEmpty then s
            else stageWrite s (stageDba i ((n + 4095) / 4096 * 4096 + (off.toNat + cut - n))) d)
    | none => s

/-- Both halves of a remote command. -/
def halves (rqid : W32) : List Nat := [remoteKey rqid, fusedKey rqid]

/-- Apply `f` to each half that is outstanding. -/
def onHalves (s : State) (rqid : W32) (f : State → Nat → DCmd → State) : State :=
  (halves rqid).foldl (fun s k => match dcmdOf s k with
    | some c => if c.wait = .device then f s k c else s
    | none => s) s

/-- An ABORTED that the requester caused (R283, R294, R295). -/
def abortedHere (s : State) (key : Nat) (c : DCmd) : State :=
  if !liveCmd s c then setDcmd (cmdOff s key c) key none
  else if isMutCmd s c then cmdWait s key c .settle none s.tide.count
  else if c.expired then expireTwice s key c
  else cmdWait (lfree s c.idx) key { c with expired := true, abortSent := false } .slot none s.tide.count

/-- An RCPL (R295). -/
def takeRcpl (s : State) (p : Nat) (rqid : W32) (rstat : BitVec 3) (st : List (BitVec 15)) : State :=
  match dcmdOf s (remoteKey rqid) with
  | none => s
  | some c =>
    if decide (c.wait ≠ .device) || frozen s || decide ((c.frame.map (·.1)) ≠ some p) then s
    else if rstat = 0 then
      onHalves s rqid (fun s k c => cmdComplete s k c (st.getD (if k = remoteKey rqid then 0 else 1) 0))
    else if rstat = 1 then
      onHalves s rqid (fun s k c =>
        if 8 ≤ c.noent then loseCmd s k c (some c.slot) s.tide.count
        else cmdWait s k { c with noent := c.noent + 1 } .noent none s.tide.count)
    else if rstat = 2 then quarantine s 5
    else if rstat = 3 then
      let b := (own s c.idx).berth.toNat
      let x := berth s b
      reslot s (setBerth s b (x.setSlot c.slot { x.slot c.slot with pst := 3, unlisted := false, wentDown := false }))
    else if rstat = 4 then
      onHalves s rqid (fun s k c => if c.abortSent then abortedHere s k c else loseCmd s k c (some c.slot) s.tide.count)
    else s

/-- NOENT_RETRY (R295): the entry's commands that met NOENT go out again on their slots. -/
def execNoentRetry (idx : Nat) (s : State) : Out :=
  .next (if frozen s then s else
    (cmdsOf s idx (fun c => decide (c.wait = .noent))).foldl (fun s e => putCmd s e.1 { e.2 with wait := .device }) s)

/-- An ABORT (R294). -/
def takeAbort (s : State) (peer : BitVec 16) (rqid : W32) : State :=
  match findServe s peer rqid with
  | some (i, v) => if servedIssued s i v = 0 ∨ v.done = true then endServe s i 4 [] else setServe s i { v with aborted := true }
  | none => s

/-- A QUIESCE for a serving berth (R294). -/
def takeQuiesce (s : State) (p : Nat) (b : BitVec 16) : State :=
  let x := berth s b.toNat
  setBerth s b.toNat { x with quiesced := true, quiesceBy := x.quiesceBy ++ [p] }

/-- QUIESCE_ACK_SEND (R294): once the berth has no served command outstanding. -/
def execQuiesceAckSend (b : BitVec 16) (s : State) : Out :=
  .next (
    let x := berth s b.toNat
    if x.quiesced && !servesOf s b then
      x.quiesceBy.foldl (fun s p => sendCtrl s p 0x12 (b.setWidth 56)) (setBerth s b.toNat { x with quiesceBy := [] })
    else s)

/-- A FENCE naming block `f` (R201): its commands are aborted, and only FENCED answers go to it. -/
def takeFence (s : State) (f : BitVec 16) : State :=
  let s := { s with dock := { s.dock with fencedBy := if s.dock.fencedBy.contains f then s.dock.fencedBy else s.dock.fencedBy ++ [f] } }
  let l := s.serves.filterMap (fun e => e.2.map (fun v => (e.1, v)))
  (l.filter (fun e => decide ((pathOf s e.2.path).peer = f))).foldl (fun s e => takeAbort s f e.2.rqid) s

end Sys2Proof.Machine
end

