-- ==== Sys2Proof/Machine/Placia.lean ====
section
/-! DEFINITION. Machine/Placia.lean: Placia paths (R202 to R208), the checks of received frames (R198, R199), sequenced
delivery (R209 to R214), and the frame windows' receive queues (R568). -/

namespace Sys2Proof.Machine

/-! Path states (R206 to R208). -/

/-- Change every path slot of every berth. -/
def mapSlots (s : State) (f : Nat → Slot → Slot) : State :=
  { s with berths := Table.mapVals {} (fun _ b => { b with slots := Table.mapVals {} f b.slots }) s.berths }

/-- The next EPOCH (R206). -/
def nextEpoch (e : BitVec 16) : BitVec 16 := if e = 0xFFFF then 1 else e + 1

/-- A path starts proving (R206). -/
def Path.proving (x : Path) : Path :=
  { x with state := 1, epoch := nextEpoch x.epoch, good := 0, missed := 0, peerEpoch := none }

/-- The path is a twin path now or in the charter (R214). -/
def twinCredit (s : State) (x : Path) : Bool :=
  (decide (s.hbr.tstate ≠ 0) && decide (x.peer = s.hbr.tnum)) || (decide (s.tw.charterRole = 0) && decide (x.peer = s.tw.charterTwin))

/-- Units of a port's receive buffer of 256 KiB that lanes 0 and 1 of a path reserve (R214). -/
def reservedUnits (s : State) (x : Path) : Nat := 4 + (if twinCredit s x then 128 else 4)

/-- Units that each payload lane of path `p` is lent when it becomes PROVEN: 32, or an equal share of what the port's
buffer has left.  DESIGN CHOICE (log 72): R214 states no share. -/
def payloadShare (s : State) (p : Nat) : Nat :=
  let sp := (pathOf s p).sp
  let used := s.paths.foldl (fun n e =>
    if e.2.en && decide (e.2.sp = sp) then
      n + reservedUnits s e.2 + (if e.1 ≠ p ∧ (e.2.state = 2 ∨ e.2.state = 3) then 6 * e.2.lent else 0)
    else n) 0
  Nat.min 32 ((1024 - used) / 6)

/-- A path becomes PROVEN (R206, R214, R289): the payload lanes' share is owed to the peer as credit. -/
def toProven (s : State) (p : Nat) : State :=
  let x := pathOf s p
  let n := payloadShare s p
  let l1 : Lane := { credit := if twinCredit s x then 128 else 4 }
  let pay : Table Lane := if n = 0 then [] else [2, 3, 4, 5, 6, 7].map (fun k => (k, { owed := n }))
  let s1 := setPath s p { x with
    state := 2, missed := 0, lastHb := s.tide.count, lent := n, lanes := [(0, { credit := 4 }), (1, l1)] ++ pay }
  let s1 := mapSlots s1 (fun k v => if k ≠ 0 ∧ v.tgt.toNat = p ∧ v.pst = 3 ∧ v.wentDown = true then
    { v with pst := 0, wentDown := false, unlisted := false } else v)
  retide (reslot s s1)

/-- What R208 does with the frames of a path that goes DOWN: lane 0 messages go out on another PROVEN path to the peer,
or their owners are told (log 72); lane 1 records are queued again, remote commands of both sides are lost. -/
def pathLost (s : State) (p : Nat) (x : Path) : State :=
  let l0 := x.lane 0
  let msgs : List TxQ := l0.unack.map (fun f => ⟨f.typ, f.body⟩) ++ l0.wait
  let s : State := match provenTo s x.peer with
    | q :: _ => msgs.foldl (fun s m => laneSend s q 0 m.typ m.body) s
    | [] => updPath s p (fun y => { y with told := msgs })
  let s := if s.tw.primPath = some p then
      updTw s (fun t => { t with mq := t.maw ++ t.mq, maw := [], primPath := none }) else s
  let gone : Nat → Option Serve → Option Serve := fun _ v => v.bind (fun w => if w.path = p then none else some w)
  { s with serves := Table.mapVals none gone s.serves }

/-- A path is marked DOWN (R206, R208, R289, R290); an enabled one starts proving at once. -/
def pathDown (s : State) (p : Nat) : State :=
  let x := pathOf s p
  let y : Path := { x with state := 0, lanes := [], downs := satInc x.downs, good := 0 }
  let s1 := setPath s p (if x.en then y.proving else y)
  let s1 := mapSlots s1 (fun k v => if k ≠ 0 ∧ v.tgt.toNat = p ∧ v.pst = 3 then { v with wentDown := true } else v)
  retide (reslot s (pathLost s1 p x))

/-- The path's state changes without loss of its lanes (R206). -/
def setPathState (s : State) (p : Nat) (v : BitVec 2) : State :=
  let x := pathOf s p
  retide (reslot s (setPath s p { x with state := v, missed := 0 }))

/-! Configuration (R202, R203). -/

/-- A write of EN = 1 is refused (R203). -/
def pathRefused (s : State) (p : Nat) (x : Path) : Bool :=
  decide (s.blk.build.ports ≤ x.sp.toNat) || decide (x.peer = s.hbr.num) || (x.enc && decide (s.plc.udpport = 0)) ||
  s.paths.any (fun e => decide (e.1 ≠ p) && e.2.en && decide (e.2.sp = x.sp) && decide (e.2.peer = x.peer)) ||
  decide (16 ≤ Table.count (fun _ e => e.en && decide (e.sp = x.sp)) s.paths)

/-- A write of PCFG (R202, R203). -/
def pcfgWrite (s : State) (p : Nat) (v : W32) : State :=
  let x := pathOf s p
  if s.blk.build.paths ≤ p then s
  else if x.en then (if v.getLsbD 31 then s else pathDown (setPath s p { x with en := false }) p)
  else
    let y := { x with enc := v.getLsbD 30, maxpl := v.extractLsb' 28 2, sp := v.extractLsb' 26 2, peer := v.extractLsb' 0 16 }
    if !v.getLsbD 31 then reslot s (setPath s p y)
    else if pathRefused s p y then let t := reslot s (setPath s p y); { t with plc := { t.plc with cfg := true } }
    else reslot s (setPath s p ({ y with en := true } : Path).proving)

/-- A write of PROUTE (R202, R203): ROUTE is ignored while EN = 1. -/
def prouteWrite (s : State) (p : Nat) (v : W32) : State :=
  let x := pathOf s p
  if s.blk.build.paths ≤ p then s
  else setPath s p { x with asym := v.extractLsb' 16 16, route := if x.en then x.route else v.extractLsb' 0 16 }

/-- PATH_ENABLE (R203, R206). -/
def execPathEnable (rq : Requester) (p : Nat) (v : BitVec 32) (s : State) : Out := .next (pcfgWrite (ctlWake rq s) p v)

/-- PATH_DISABLE (R203, R208). -/
def execPathDisable (rq : Requester) (p : Nat) (v : BitVec 32) (s : State) : Out := .next (pcfgWrite (ctlWake rq s) p v)

/-! Received frames (R195 to R199). -/

/-- The lane is allowed for the type (R195). -/
def laneOk (typ : BitVec 4) (lane : BitVec 3) : Bool :=
  if typ = 1 then true
  else if typ = 2 ∨ typ = 3 then decide (lane = 0)
  else if typ = 4 ∨ typ = 5 then decide (lane = 1)
  else decide (2 ≤ lane.toNat)

/-- The header's bytes (R196). -/
def hdrBytes (h : Hdr) (typ : BitVec 4) : List Byte :=
  let d0 : W32 := h.ver ++ typ ++ h.lane ++ bit1 h.u ++ bit1 h.av ++ bit1 h.rx ++ (0 : BitVec 2) ++ h.len
  [d0, h.src ++ h.dst, h.epoch ++ h.crlane ++ h.crd, h.seq, h.ack, h.hid].foldr (fun d l => leBytes 4 d.toNat ++ l) []

/-- Count a drop in PORT.PLCERR (R198): 0 CRC, 1 HDR, 2 NOPATH, 3 EPOCH. -/
def countDrop (s : State) (k : Nat) : State :=
  let q := s.plc
  { s with plc :=
      if k = 0 then { q with errCrc := satInc q.errCrc }
      else if k = 1 then { q with errHdr := satInc q.errHdr }
      else if k = 2 then { q with errNopath := satInc q.errNopath }
      else { q with errEpoch := satInc q.errEpoch } }

/-- The header breaks a check of R198 or the CODE one of R200, or the port has no room for an unsequenced frame (R215); a
U bit that the type's row does not have counts with them (log 35). -/
def hdrBad (s : State) (h : Hdr) (typ : BitVec 4) (sq : Bool) : Bool :=
  decide (h.ver ≠ 1) || decide (h.hid ≠ s.hbr.hid) || decide (h.dst ≠ s.hbr.num) || !h.known || !laneOk typ h.lane || !h.fits || (h.u == sq) ||
    (!sq && !h.room)

/-- The enabled path of a frame (R198). -/
def pathFor (s : State) (h : Hdr) : Option Nat :=
  (s.paths.find? (fun e => e.2.en && decide (e.2.sp.toNat = h.port) && decide (e.2.peer = h.src))).map (·.1)

/-- Remove the frames that a cumulative acknowledgement covers (R209, R211). -/
def Lane.acked (l : Lane) (a : W32) : Lane := { l with unack := l.unack.filter (fun f => atOrBefore a f.seq) }

/-- Send what waits on every lane of a path. -/
def pumpAll (s : State) (p : Nat) : State :=
  (List.range 8).foldl (fun s k => pumpLane ((pathOf s p).lane k).wait.length s p k) s

/-- AV, ACK, CRLANE and CRD of a frame that has passed the checks (R196, R211, R214). -/
def headerAck (s : State) (p : Nat) (h : Hdr) : State :=
  let x := pathOf s p
  if x.state ≠ 2 then s
  else
    let x := if h.av then x.setLane h.lane.toNat ((x.lane h.lane.toNat).acked h.ack) else x
    let k := h.crlane.toNat
    let x := if h.crd = 0 then x else x.setLane k { x.lane k with credit := (x.lane k).credit + h.crd.toNat }
    pumpAll (setPath s p x) p

/-- What a received frame is for the checks: its type, whether its type and code are sequenced, whether it is a
HEARTBEAT, and whether it is a HEARTBEAT or MEMBER message (R199). -/
structure FrameKind where
  typ : BitVec 4
  sq : Bool
  hb : Bool := false
  ident : Bool := false
deriving DecidableEq, Repr

/-- The checks of R198 and R199, in their order: the path of an accepted frame, and the state.  While the fast clock is
stopped, the surrounding chip holds every frame that the heartbeat unit does not take in, and its arrival is a wake
source (R517).  Any frame of the peer ends DORMANT (R206). -/
def arrive (s : State) (h : Hdr) (k : FrameKind) : Option Nat × State :=
  if s.fstop && !k.hb then (none, startWake s 3)
  else if !h.crcOk then (none, countDrop s 0)
  else if hdrBad s h k.typ k.sq then (none, countDrop s 1)
  else if h.src = s.hbr.num then
    let s := countDrop s 2
    (none, if k.ident then quarantine (hmLog s 0x201 (h.src.setWidth 64) 0) 1 else s)
  else
    match pathFor s h with
    | none => (none, countDrop s 2)
    | some p =>
      let x := pathOf s p
      if (k.sq && decide (x.state ≠ 2) && decide (x.state ≠ 3)) || (!k.hb && decide (x.peerEpoch ≠ some h.epoch)) then
        (none, countDrop s 3)
      else (some p, headerAck (if x.state = 3 then setPathState s p 2 else s) p h)

/-- Run `f` on the path of an accepted unsequenced frame. -/
def unseq (s : State) (h : Hdr) (k : FrameKind) (f : State → Nat → State) : State :=
  match arrive s h k with
  | (some p, s) => f s p
  | (none, s) => s

/-! Delivery in sequence (R210, R568). -/

/-- The body of a frame that a frame window shows. -/
def msgBody : Msg → List Byte
  | .abort r => qBytes ((0x10 : BitVec 8) ++ (0 : BitVec 24) ++ r)
  | .quiesce b => qBytes ((0x11 : BitVec 8) ++ (0 : BitVec 40) ++ b)
  | .quiesceAck b => qBytes ((0x12 : BitVec 8) ++ (0 : BitVec 40) ++ b)
  | .fence n => qBytes ((0x13 : BitVec 8) ++ (0 : BitVec 40) ++ n)
  | .rcmd r b fu sqe => qBytes (r ++ b ++ (0 : BitVec 15) ++ bit1 fu) ++ qsBytes sqe
  | .rcpl r st sts => qBytes (r ++ st ++ (0 : BitVec 29)) ++ sts.foldr (fun t l => cqeBytes t ++ l) []
  | _ => []

/-- The receive slot of a frame window that takes the message: 0 CTRL, 1 RCMD, 2 RCPL (R568). -/
def windowOf : Msg → Option Nat
  | .abort _ => some 0
  | .quiesce _ => some 0
  | .quiesceAck _ => some 0
  | .fence _ => some 0
  | .rcmd _ _ _ _ => some 1
  | .rcpl _ _ _ => some 2
  | _ => none

/-- Queue `k` of a frame window. -/
def FWin.queue (w : FWin) (k : Nat) : List RxFrame := if k = 0 then w.ctl else if k = 1 then w.rcmd else w.rcpl
def FWin.setQueue (w : FWin) (k : Nat) (l : List RxFrame) : FWin :=
  if k = 0 then { w with ctl := l } else if k = 1 then { w with rcmd := l } else { w with rcpl := l }

/-- The consumer can take the frame (R155, R568). -/
def roomFor (s : State) (p lane : Nat) (m : Msg) : Bool :=
  !(decide (lane = 1) && holdFull s && isTwinPath s p) &&
    (match windowOf m with
     | some k => decide (((fwinOf s (pathOf s p).sp.toNat).queue k).length < 64)
     | none => true)

/-- A frame enters a receive queue; its level source follows (R449, R568, R569). -/
def enterWindow (s : State) (p : Nat) (f : HeldF) : State :=
  match windowOf f.msg with
  | none => s
  | some k =>
    let port := (pathOf s p).sp.toNat
    let w := fwinOf s port
    let fr : RxFrame := ⟨BitVec.ofNat 6 p, f.hdr, msgBody f.msg⟩
    sampleLevel (setFwin s port (w.setQueue k (w.queue k ++ [fr]))) (0x300 + 4 * port + k)

/-! Paired drowse (R189, R190). -/

/-- STATE enters DROWSED (R189, R206). -/
def setDrowsed (s : State) : State := retide (reslot s (twinPathsTo (setTstate s 6) 2 3))

/-- Entry to level `n` starts; a block that enters D3 sends HBSUSP (R207, R512). -/
def startEntry (s : State) (n : BitVec 2) : State :=
  let s := if n = 3 then
      (s.paths.filter (fun e => e.2.en && decide (e.2.state = 2) && !isTwinPath s e.1)).foldl
        (fun s e => sendU s e.1 2 0 (qBytes (ctrlQ 2 0))) s
    else s
  { s with pwr := { s.pwr with entering := n, waking := false } }

/-- A DROWSE_REQ (R189). -/
def takeDrowseReq (s : State) (p : Nat) : State :=
  if isTwinPath s p && decide (s.hbr.tstate = 2) && s.hbr.pdEn && permitsD3 s && decide (inUse s = 0) && s.mirror.isEmpty &&
      s.tw.ledger.isEmpty && s.tw.hold.isEmpty then
    setDrowsed (sendCtrl s p 9 0)
  else s

/-- A DROWSE_ACK (R189, R513, R521): a wake source wins over it. -/
def takeDrowseAck (s : State) (p : Nat) : State :=
  if isTwinPath s p && decide (s.hbr.tstate = 2) && s.pwr.reqOut && !s.pwr.waking then
    let s := { s with pwr := { s.pwr with reqOut := false, nego := false } }
    startEntry (setDrowsed s) 3
  else s

/-- A WAKE from a drowsed twin (R190). -/
def takeWake (s : State) (p : Nat) : State :=
  if isTwinPath s p ∧ s.hbr.tstate = 6 then
    updTw (retide (reslot s (twinPathsTo (setTstate s 2) 3 2))) (fun t => { t with last := s.tide.count, miss := 0 })
  else s

/-- What the delivery of a sequenced frame does. -/
def deliver (s : State) (p lane : Nat) (m : Msg) : State :=
  match m with
  | .mirror u => takeMirror s p u
  | .mack c => takeMack s p c
  | .fenced => quarantine s 2
  | .unpair => takeUnpair s p
  | .pair => takePair s p
  | .pairAck => takePairAck s p
  | .drowseReq => takeDrowseReq s p
  | .drowseAck => takeDrowseAck s p
  | .wake => takeWake s p
  | .fence n => takeFence s n
  | .abort r => takeAbort s (pathOf s p).peer r
  | .quiesce b => takeQuiesce s p b
  | .quiesceAck _ => s
  | .rcmd r b fu sqe => takeRcmd s p (BitVec.ofNat 3 lane) r b fu sqe
  | .rdata r off last d => takeRdata s p (BitVec.ofNat 3 lane) r off last d
  | .rcpl r st sts => takeRcpl s p r st sts

/-- Deliver held frames in SEQ order without a gap, while their consumers have room (R210); `fuel` bounds them. -/
def deliverLane : Nat → State → Nat → Nat → State
  | 0, s, _, _ => s
  | n + 1, s, p, lane =>
    let x := pathOf s p
    let l := x.lane lane
    match l.held.find? (fun f => decide (f.seq = l.exp)) with
    | none => s
    | some f =>
      if x.state = 2 && roomFor s p lane f.msg then
        let s := setPath s p (x.setLane lane
          { l with held := l.held.filter (fun g => decide (g.seq ≠ f.seq)), exp := l.exp + 1, owed := l.owed + creditUnits f.len.toNat })
        deliverLane n (deliver (enterWindow s p f) p lane f.msg) p lane
      else s

/-- Deliver what a lane holds, and acknowledge (R210, R211). -/
def deliverHeld (s : State) (p lane : Nat) : State :=
  let old := ((pathOf s p).lane lane).exp
  let s := deliverLane ((pathOf s p).lane lane).held.length s p lane
  if (pathOf s p).state = 2 ∧ ((pathOf s p).lane lane).exp ≠ old then sendAck s p lane else s

/-- Lanes whose delivery waited for room go on (R155, R568). -/
def resumeLanes (s : State) : State :=
  (s.paths.map (·.1)).foldl (fun s p => (List.range 8).foldl (fun s k => deliverHeld s p k) s) s

/-- A sequenced frame that has passed the checks (R210): held for its turn if the lane's receive buffer allows it, or
dropped and acknowledged again. -/
def seqTake (s : State) (p : Nat) (h : Hdr) (typ : BitVec 4) (m : Msg) : State :=
  let k := h.lane.toNat
  let l := (pathOf s p).lane k
  let x := pathOf s p
  let size := if k = 0 then 4 else if k = 1 then reservedUnits s x - 4 else x.lent
  let used := l.held.foldl (fun n f => n + creditUnits f.len.toNat) 0
  let fits := decide (h.seq = l.exp) || decide (used + creditUnits h.len.toNat ≤ size)
  if (h.seq - l.exp).toNat ≤ 1023 ∧ l.held.all (fun f => decide (f.seq ≠ h.seq)) = true ∧ fits = true then
    let f : HeldF := ⟨h.seq, h.len, hdrBytes h typ, m⟩
    let s := updPath s p (fun x => 
      let l := x.lane k
      x.setLane k { l with held := l.held ++ [f] })
    let old := l.exp
    let s := deliverHeld s p k
    if ((pathOf s p).lane k).exp = old ∧ (pathOf s p).state = 2 then sendAck s p k else s
  else sendAck s p k

/-- A sequenced frame arrives (R198, R210); room that its delivery makes lets other lanes go on. -/
def seqFrame (s : State) (h : Hdr) (typ : BitVec 4) (m : Msg) : State :=
  match arrive s h { typ := typ, sq := true } with
  | (some p, s) => resumeLanes (seqTake s p h typ m)
  | (none, s) => s

end Sys2Proof.Machine
end

