-- ==== Sys2Proof/Machine/Twin.lean ====
section
/-! DEFINITION. Machine/Twin.lean: the rows of Placia and the twin: frames received and sent, paths, membership, tide
synchronisation, detection, takeover, adoption and re-twinning. -/

namespace Sys2Proof.Machine

/-! Sequenced messages (R195, R200). -/

def execMirror (h : Hdr) (units : List MUnit) (s : State) : Out := .next (seqFrame s h 4 (.mirror units))
def execMack (h : Hdr) (cum : BitVec 32) (s : State) : Out := .next (seqFrame s h 5 (.mack cum))
def execFenced (h : Hdr) (s : State) : Out := .next (seqFrame s h 2 .fenced)
def execUnpairMessage (h : Hdr) (s : State) : Out := .next (seqFrame s h 2 .unpair)
def execPair (h : Hdr) (s : State) : Out := .next (seqFrame s h 2 .pair)
def execPairAck (h : Hdr) (s : State) : Out := .next (seqFrame s h 2 .pairAck)
def execDrowseReq (h : Hdr) (s : State) : Out := .next (seqFrame s h 2 .drowseReq)
def execDrowseAck (h : Hdr) (s : State) : Out := .next (seqFrame s h 2 .drowseAck)
def execWake (h : Hdr) (s : State) : Out := .next (seqFrame s h 2 .wake)
def execFence (h : Hdr) (num : BitVec 16) (s : State) : Out := .next (seqFrame s h 2 (.fence num))
def execAbort (h : Hdr) (rqid : BitVec 32) (s : State) : Out := .next (seqFrame s h 2 (.abort rqid))
def execQuiesce (h : Hdr) (b : BitVec 16) (s : State) : Out := .next (seqFrame s h 2 (.quiesce b))
def execQuiesceAck (h : Hdr) (b : BitVec 16) (s : State) : Out := .next (seqFrame s h 2 (.quiesceAck b))

/-- RCMD (R221, R293). -/
def execRcmd (h : Hdr) (rqid : BitVec 32) (b : BitVec 16) (fused : Bool) (sqe : List (BitVec 64)) (s : State) : Out :=
  .next (seqFrame s h 6 (.rcmd rqid b fused sqe))

/-- RDATA (R221, R236). -/
def execRdata (h : Hdr) (rqid : BitVec 32) (off : BitVec 32) (last : Bool) (data : List (BitVec 8)) (s : State) : Out :=
  .next (seqFrame s h 7 (.rdata rqid off last data))

/-- RCPL (R221, R295). -/
def execRcpl (h : Hdr) (rqid : BitVec 32) (rstat : BitVec 3) (st : List (BitVec 15)) (s : State) : Out :=
  .next (seqFrame s h 8 (.rcpl rqid rstat st))

/-! Mirror frames (R152, R217). -/

/-- The bytes of one record unit (R217). -/
def unitBytes (u : MUnit) : List Byte :=
  qsBytes [u.rseq ++ u.rtype ++ (0 : BitVec 10) ++ u.index, u.tsend, u.m0, u.m1, u.m2, u.m3]

/-- The primary path (R152): the one in use while it is PROVEN, else the first PROVEN twin path. -/
def choosePrimary (s : State) : Option Nat :=
  match s.tw.primPath with
  | some p => if (pathOf s p).state = 2 then some p else (provenTo s s.hbr.tnum).head?
  | none => (provenTo s s.hbr.tnum).head?

/-- MIRROR_FRAME_SEND (R214, R217): the queued records leave in one frame once lane 1 holds its credit. -/
def execMirrorFrameSend (s : State) : Out :=
  .next (
    if !twinSends s || s.tw.mq.isEmpty then s
    else
      match choosePrimary s with
      | none => s
      | some p =>
        let x := pathOf s p
        let k := Nat.min s.tw.mq.length (maxBody x / 48)
        let l := x.lane 1
        if creditUnits (48 * k) ≤ l.credit ∧ l.unack.length < 1024 ∧ l.wait.isEmpty = true then
          let us := s.tw.mq.take k
          let s := updTw s (fun t => { t with mq := t.mq.drop k, maw := t.maw ++ us, primPath := some p })
          let s := { s with hbr := { s.hbr with prim := x.sp } }
          laneSend s p 1 4 (us.foldr (fun u b => unitBytes u ++ b) [])
        else s)

/-! Heartbeats (R161 to R163, R205, R206). -/

/-- A HEARTBEAT on one path (R200, R205). -/
def sendHeartbeat (s : State) (p : Nat) : State :=
  let x := pathOf s p
  let q : W64 := (1 : BitVec 8) ++ x.peerEpoch.getD 0 ++ s.blk.mode ++ s.hbr.tstate ++ s.plc.stratum ++ (0 : BitVec 30)
  sendU s p 2 0 (qBytes q)

/-- The paths that carry heartbeats now (R205): none from HBSUSP to the wake from D3 (R207), and the twin's again once WAKE
has been sent (R190). -/
def beatPaths (s : State) : List Nat :=
  if s.pwr.entering = 3 ∨ (s.blk.mode = 4 ∧ s.blk.dlevel = 3) then []
  else
    (s.paths.filter (fun e => e.2.en && decide (e.2.state ≠ 3) &&
      !(decide (s.hbr.tstate = 6) && !s.tw.wakeSent && isTwinPath s e.1))).map (·.1)

/-- HEARTBEAT_SEND (R205); while the fast clock is stopped the heartbeat unit sends (R161). -/
def execHeartbeatSend (s : State) : Out :=
  .next (if s.fstop then s else (beatPaths s).foldl sendHeartbeat s)

/-- A heartbeat from the twin (R162, R164, R190). -/
def twinBeat (s : State) : State :=
  let s := updTw s (fun t => { t with last := s.tide.count, miss := 0, wakeSent := false })
  if s.hbr.tstate = 3 then drainAll (setTstate s 2)
  else if s.hbr.tstate = 6 then setTstate s 2
  else s

/-- The port failed its loopback (R206, R497). -/
def portFailed (s : State) (x : Path) : Bool := s.plc.portFail.getLsbD (8 + x.sp.toNat)

/-- The path's part of a heartbeat (R205, R206). -/
def pathBeat (s : State) (p : Nat) (h : Hdr) (b : HbBody) : State :=
  let x := pathOf s p
  let x := { x with peerMode := b.mode, peerStratum := b.stratum, heard := true }
  if x.state = 2 then
    if x.peerEpoch ≠ some h.epoch then pathDown s p
    else retide (setPath s p { x with missed := 0, lastHb := s.tide.count })
  else if x.state = 1 then
    let good := decide (x.peerEpoch = some h.epoch) && decide (b.eseen = x.epoch)
    let n := if good then (if x.good = 3 then 3 else x.good + 1) else 0
    let s := setPath s p { x with peerEpoch := some h.epoch, good := n, missed := 0,
                                  lastHb := if good then s.tide.count else x.lastHb }
    if n = 3 ∧ portFailed s x = false then toProven s p else s
  else s

/-- HEARTBEAT (R162, R165, R205, R206). -/
def execHeartbeat (h : Hdr) (b : HbBody) (s : State) : Out :=
  .next (unseq s h { typ := 2, sq := false, hb := true, ident := true } (fun s p =>
    let n := (pathOf s p).peer
    let paired := decide (s.hbr.tnum = n) && ((decide (1 ≤ s.hbr.tstate.toNat) && decide (s.hbr.tstate.toNat ≤ 3)) ||
      (decide (s.hbr.tstate = 6) && s.tw.wakeSent))
    let s := if paired then twinBeat s else s
    let lost := decide (s.tw.lost = some n) && !(decide (s.hbr.tnum = n) && (paired || decide (s.hbr.tstate = 6)))
    let s := if lost && decide ((pathOf s p).state = 2) then sendCtrl s p 4 0 else s
    pathBeat s p h b))

/-- HBSUSP (R206). -/
def execHbsusp (h : Hdr) (s : State) : Out :=
  .next (unseq s h { typ := 2, sq := false } (fun s p => if (pathOf s p).state = 2 then setPathState s p 3 else s))

/-- PATH_MISSED_INTERVAL (R206, R207, R514). -/
def execPathMissedInterval (p : Nat) (s : State) : Out :=
  .next (
    let x := pathOf s p
    if !x.en || (decide (s.blk.mode = 4) && decide (s.blk.dlevel = 3)) || !(decide (x.state = 1) || decide (x.state = 2)) then s
    else if x.missed < 2 then
      let s := setPath s p { x with missed := x.missed + 1 }
      if s.fstop ∧ x.missed = 1 then startWake s 6 else s
    else if x.state = 1 then setPath s p { x with good := 0, missed := 0 }
    else pathDown s p)

/-! Acknowledgement and retransmission (R212, R213). -/

/-- A frame goes out again (R213). -/
def resend (s : State) (p lane : Nat) (f : TxF) : State :=
  let x := pathOf s p
  sendS (setPath s p { x with retx := satInc x.retx }) p lane f true

/-- SACK bits at or above bit `k` that are set. -/
def sackAbove (sack : W64) (k : Nat) : Nat := ((List.range 64).filter (fun j => decide (k ≤ j) && sack.getLsbD j)).length

/-- The unacknowledged frames that an ACK shows missing with three held beyond them, not yet sent again (R213). -/
def fastList (l : Lane) (a : W32) (sack : W64) : List TxF :=
  l.unack.filter (fun f =>
    let d := (f.seq - a).toNat
    !f.fast && decide (d ≤ 64) && !(decide (1 ≤ d) && sack.getLsbD (d - 1)) && decide (3 ≤ sackAbove sack d))

/-- Credit that an ACK frame returns to lane `k` (R212). -/
def ackCredit (q1 q2 : W64) (k : Nat) : Nat :=
  (if k < 4 then q1.extractLsb' (16 * k) 16 else q2.extractLsb' (16 * (k - 4)) 16).toNat

/-- ACK (R212 to R214). -/
def execAck (h : Hdr) (sack : BitVec 64) (q1 : BitVec 64) (q2 : BitVec 64) (s : State) : Out :=
  .next (unseq s h { typ := 1, sq := false } (fun s p =>
    let k := h.lane.toNat
    let x := pathOf s p
    if x.state ≠ 2 then s
    else
      let x := (List.range 8).foldl (fun (x : Path) n =>
        let c := ackCredit q1 q2 n
        if c = 0 then x else x.setLane n { x.lane n with credit := (x.lane n).credit + c }) x
      let fs := fastList (x.lane k) h.ack sack
      let l := x.lane k
      let x := x.setLane k { l with unack := l.unack.map (fun f => if fs.contains f then { f with fast := true } else f) }
      let s := fs.foldl (fun s f => resend s p k f) (setPath s p x)
      pumpAll s p))

/-- RETRANSMIT_TIMER (R213). -/
def execRetransmitTimer (p : Nat) (lane : BitVec 3) (seq : BitVec 32) (s : State) : Out :=
  .next (
    let k := lane.toNat
    let x := pathOf s p
    let l := x.lane k
    match l.unack.find? (fun f => decide (f.seq = seq)) with
    | none => s
    | some f =>
      if x.state ≠ 2 then s
      else
        let g := { f with dbl := Nat.min 3 (f.dbl + 1), fast := false }
        resend (setPath s p (x.setLane k { l with unack := l.unack.map (fun y => if y.seq = seq then g else y) })) p k f)

/-! Membership (R149, R200, R516). -/

/-- Namespaces that the block reaches by a proven local dock path (R149). -/
def reached (s : State) : List (BitVec 128) :=
  (s.berths.foldl (fun (l : List (BitVec 128)) (e : Nat × Berth) =>
    if slotUp s e.2 0 && decide (e.2.nguid ≠ 0) && !l.contains e.2.nguid then l ++ [e.2.nguid] else l) [])

/-- One part of the MEMBER message (R200). -/
def sendMemberPart (s : State) (p part nparts : Nat) (ns : List (BitVec 128)) : State :=
  let t : BitVec 16 := if s.hbr.tstate = 0 then 0 else s.hbr.tnum
  let q : W64 := (3 : BitVec 8) ++ s.hbr.role ++ s.blk.mode ++ t ++ s.hbr.tstate ++ BitVec.ofNat 8 part ++
    BitVec.ofNat 8 nparts ++ BitVec.ofNat 16 ns.length
  sendU s p 2 0 (qBytes q ++ ns.foldr (fun g l => leBytes 16 g.toNat ++ l) [])

/-- All parts of the MEMBER message on path `p` (R200). -/
def sendMember (s : State) (p : Nat) : State :=
  let ns := reached s
  let per := (maxBody (pathOf s p) - 8) / 16
  let n := Nat.max 1 ((ns.length + per - 1) / per)
  (List.range n).foldl (fun s k => sendMemberPart s p k n ((ns.drop (k * per)).take per)) s

/-- The MEMBER message goes out on every proven path (R149). -/
def sendMembers (s : State) : State :=
  ((s.paths.filter (fun e => e.2.en && decide (e.2.state = 2))).map (·.1)).foldl sendMember
    (updTw s (fun t => { t with memberAt := s.tide.count }))

/-- MEMBER_SEND (R149): the heartbeat unit sends while the fast clock is stopped (R514). -/
def execMemberSend (s : State) : Out := .next (if s.fstop then s else sendMembers s)

def memberOf (s : State) (n : Nat) : Member := Table.get {} s.members n
def setMember (s : State) (n : Nat) (m : Member) : State := { s with members := Table.put {} s.members n m }

/-- A complete MEMBER message of block `n` ends or marks FAILED slots (R289). -/
def memberSlots (s : State) (n : BitVec 16) (ns : List (BitVec 128)) : State :=
  { s with berths := Table.mapVals {} (fun _ b =>
      { b with slots := Table.mapVals {} (fun k v =>
          if k ≠ 0 ∧ v.pst = 3 ∧ (pathOf s v.tgt.toNat).peer = n then
            (if ns.contains b.nguid then (if v.unlisted then { v with pst := 0, unlisted := false, wentDown := false } else v)
             else { v with unlisted := true })
          else v) b.slots }) s.berths }

/-- MEMBER (R149, R200, R289). -/
def execMember (h : Hdr) (b : MemberBody) (s : State) : Out :=
  .next (unseq s h { typ := 2, sq := false, ident := true } (fun s p =>
    let n := (pathOf s p).peer
    let m := memberOf s n.toNat
    let joins := !m.haveParts.isEmpty && decide (since s m.setTick ≤ 100000) && !m.haveParts.contains b.part.toNat &&
      decide (m.setN = b.nparts)
    let m := if joins then m else { m with setN := b.nparts, setTick := s.tide.count, parts := [], haveParts := [] }
    let m := { m with parts := Table.put [] m.parts b.part.toNat b.nguids, haveParts := m.haveParts ++ [b.part.toNat] }
    if (List.range b.nparts.toNat).all (fun k => m.haveParts.contains k) then
      let ns := ((List.range b.nparts.toNat).map (fun k => Table.get [] m.parts k)).flatten
      let t := setMember s n.toNat
        { m with known := true, role := b.role, mode := b.mode, twin := b.twin, tstate := b.tstate, nguids := ns,
                 last := s.tide.count, parts := [], haveParts := [] }
      retide (reslot s (memberSlots t n ns))
    else setMember s n.toNat m))

/-- Every path to a member is DORMANT (R516). -/
def allDormant (s : State) (n : BitVec 16) : Bool :=
  let l := s.paths.filter (fun e => e.2.en && decide (e.2.peer = n))
  !l.isEmpty && l.all (fun e => decide (e.2.state = 3))

/-- MEMBER_DROP (R149, R516). -/
def execMemberDrop (num : BitVec 16) (s : State) : Out :=
  .next (if (memberOf s num.toNat).known && !allDormant s num then retide (reslot s (setMember s num.toNat {})) else s)

/-! Tide synchronisation (R224 to R226). -/

/-- A timestamp in 1/16 tt (R224): while a tick is owed to a removed sixteenth, the count is one ahead (R225). -/
def stamp16 (s : State) : W64 := (s.tide.count - (if s.tide.lag then 1 else 0)).extractLsb' 0 60 ++ s.tide.frac

/-- TIDE_REQUEST_SEND (R224): none in D2 and D3 (R520). -/
def execTideRequestSend (s : State) : Out :=
  .next (if !s.plc.refOk || s.fstop then s
    else
      let t := s.plc.tag + 1
      let t1 := stamp16 s
      let q : W64 := (1 : BitVec 4) ++ (0 : BitVec 4) ++ t ++ (0 : BitVec 48)
      sendU { s with plc := { s.plc with tag := t, reqOut := some t1 } } s.plc.ref.toNat 3 0 (qsBytes [q, t1, 0, 0]))

/-- TIDE_REQUEST (R224, R226). -/
def execTideRequest (h : Hdr) (tagid : BitVec 8) (t1 : BitVec 64) (s : State) : Out :=
  .next (unseq s h { typ := 3, sq := false } (fun s p =>
    let s := if s.plc.root then { s with tide := { s.tide with unsync := false } } else s
    let q : W64 := (2 : BitVec 4) ++ s.plc.stratum ++ tagid ++ (0 : BitVec 48)
    sendU s p 3 0 (qsBytes [q, t1, stamp16 s, stamp16 s])))

/-- OFFS saturates at ±32,767 (R228). -/
def satOffs (n : Int) : BitVec 16 := BitVec.ofInt 16 (if n < -32767 then -32767 else if n > 32767 then 32767 else n)

/-- A valid response with its offset (R225, R226). -/
def applyTide (s : State) (off : Int) (t4 : W64) : State :=
  let s := { s with plc := { s.plc with offs := satOffs off, reqOut := none } }
  if s.tide.stepped then
    let s := { s with tide := { s.tide with unsync := false }, plc := { s.plc with slew := off } }
    if off.natAbs > 160000 then hmLog s 0x206 ((satOffs off).setWidth 64) 0 else s
  else
    let v : W64 := BitVec.ofInt 64 ((t4.toNat : Int) + off)
    { s with tide := { s.tide with count := (0 : BitVec 4) ++ v.extractLsb' 4 60, frac := v.extractLsb' 0 4, lag := false,
                                   stepped := true, unsync := false } }

/-- TIDE_RESPONSE (R224 to R226). -/
def execTideResponse (h : Hdr) (_stratum : BitVec 4) (tagid : BitVec 8) (t1 : BitVec 64) (t2 : BitVec 64) (t3 : BitVec 64) (s : State) : Out :=
  .next (unseq s h { typ := 3, sq := false } (fun s p =>
    let t4 := stamp16 s
    match s.plc.reqOut with
    | none => s
    | some r =>
      if decide (tagid ≠ s.plc.tag) || decide (160000 < (t4 - r).toNat) || !s.plc.refOk ||
          decide ((pathOf s p).peer ≠ (pathOf s s.plc.ref.toNat).peer) then s
      else
        let asym : Int := (pathOf s s.plc.ref.toNat).asym.toInt
        let n : Int := ((t2.toNat : Int) - t1.toNat) - ((t4.toNat : Int) - t3.toNat) - asym
        applyTide s (n.tdiv 2) t4))

/-- TIDE_SLEW (R225): 1/16 tt is added or removed; a removed sixteenth never moves the count back. -/
def execTideSlew (s : State) : Out :=
  .next (
    let t := s.tide
    if s.plc.slew > 0 then
      let s := { s with plc := { s.plc with slew := s.plc.slew - 1 } }
      if t.frac = 15 then { s with tide := if t.lag then { t with frac := 0, lag := false } else { t with frac := 0, count := t.count + 1 } }
      else { s with tide := { t with frac := t.frac + 1 } }
    else if s.plc.slew < 0 ∧ (t.frac ≠ 0 ∨ t.lag = false) then
      let s := { s with plc := { s.plc with slew := s.plc.slew + 1 } }
      if t.frac = 0 then { s with tide := { t with frac := 15, lag := true } }
      else { s with tide := { t with frac := t.frac - 1 } }
    else s)

/-! Detection and takeover (R16, R162 to R173). -/

/-- MISSED_INTERVAL (R16, R162, R514, R515). -/
def execMissedInterval (s : State) : Out :=
  .next (
    let st := s.hbr.tstate.toNat
    if st = 0 ∨ 4 ≤ st ∨ s.tw.wakeSent = true ∨ 5 ≤ s.tw.miss.toNat then s
    else
      let s := updTw s (fun t => { t with miss := t.miss + 1 })
      let m := s.tw.miss.toNat
      let s := if m = 1 ∧ s.pwr.step = 2 then { s with pwr := { s.pwr with step := 1, hold := true } } else s
      if m = 2 then
        let s := if s.fstop then startWake s 6 else s
        if s.hbr.tstate = 2 then setTstate s 3 else s
      else s)

/-- CLOCK_RAISE_HOLD_END (R16): the twin has answered, or is none, and no takeover followed; a step asked for while the
raise was held takes effect. -/
def execClockRaiseHoldEnd (s : State) : Out :=
  .next (if s.pwr.hold = true ∧ (s.tw.miss = 0 ∨ s.hbr.tstate = 0) ∧ s.hbr.tstate ≠ 4 ∧ s.hbr.tstate ≠ 5 then { s with pwr := { s.pwr with hold := false, step := s.pwr.tgt } } else s)

/-- TWIN_DECLARED_LOST (R162, R166). -/
def execTwinDeclaredLost (s : State) : Out :=
  .next (if s.tw.miss = 5 ∧ 1 ≤ s.hbr.tstate.toNat ∧ s.hbr.tstate.toNat ≤ 3 then declareLost s else s)

/-- WAKE_TIMEOUT (R190). -/
def execWakeTimeout (s : State) : Out :=
  .next (if s.tw.wakeSent ∧ s.hbr.tstate = 6 then declareLost s else s)

/-- FENCING_START (R166, R171). -/
def execFencingStart (s : State) : Out :=
  .next (if s.hbr.tstate = 4 ∧ s.tw.fencing = false then
    let gs := s.tw.fset.map (·.nguid)
    let s := updTw s (fun t => { t with fencing := true, fset := t.fset.map (fun f => { f with st := 1 }) })
    allFenced (gs.foldl preempt s)
  else s)

/-- PREEMPT_AND_ABORT_DONE (R172, R173, R276): the command leaves its queue. -/
def execPreemptAndAbortDone (nguid : BitVec 128) (status : BitVec 15) (s : State) : Out :=
  .next (
    let r : Option (Nat × Option Resv) :=
      s.resvs.find? (fun e => match e.2 with
        | some r => decide (r.step = .fence) && decide (r.nguid = nguid)
        | none => false)
    let s := match r with
      | some (key, _) => stepCq (queueOut { s with resvs := Table.put none s.resvs key none } key false) (key / 65536)
      | none => updTw s (fun t => { t with resvq := t.resvq.filter (fun x => !(decide (x.step = .fence) && decide (x.nguid = nguid))) })
    issueResv (fenceDone (errorLog s (localOf s nguid) status) nguid status))

/-! Adoption (R178 to R180). -/

/-- Fields of a completion record (R49). -/
def recTag (r : List W32) : BitVec 16 := (r.getD 0 0).extractLsb' 0 16
def recPhase (r : List W32) : Bool := (r.getD 1 0).getLsbD 31
def recFinal (r : List W32) : Bool := decide ((r.getD 1 0).extractLsb' 29 2 = (0 : BitVec 2))
/-- A decline's final record: STATUS DECLINED in a Declined wait class (R55, R56). -/
def recDeclined (r : List W32) : Bool :=
  let d := r.getD 1 0
  decide (d.extractLsb' 16 8 = (0x42 : BitVec 8)) && (decide (d.extractLsb' 26 3 = (2 : BitVec 3)) || decide (d.extractLsb' 26 3 = (3 : BitVec 3)))

/-- The records of the expected phase from slot `k` on, each with its slot, and the first slot that holds none with its
phase (R178 step 2). -/
def expected (x : Ring) : List (List W32) → BitVec 16 → Bool → List (BitVec 16 × List W32) × BitVec 16 × Bool
  | [], k, ph => ([], k, ph)
  | r :: rs, k, ph =>
    if recPhase r == ph then
      let n := x.cnext k
      let t := expected x rs n (if n = 0 then !ph else ph)
      ((k, r) :: t.1, t.2)
    else ([], k, ph)

/-- A record already written retires its entry, or its decline's ledger entry (R178 step 3). -/
def foundRec (s : State) (r : Nat) (k : BitVec 16) (x : List W32) : State :=
  if !recFinal x then s
  else
    match s.own.find? (fun e => e.2.redriven && e.2.tr && decide (e.2.ring.toNat = r) && decide (e.2.st = 4) &&
        decide (e.2.xtag = recTag x) && decide (e.2.cqslot = k)) with
    | some e => retireOwn s e.1
    | none =>
      match s.tw.ledger.find? (fun l => decide (l.ring.toNat = r)) with
      | some l => if l.xtag = recTag x ∧ recDeclined x = true then updTw s (fun t => { t with ledger := t.ledger.erase l }) else s
      | none => s

/-- Steps 3 to 5 of R178. -/
def adoptRing (s : State) (r : Nat) (recs : List (List W32)) : State :=
  let n := (halfRings s) + r
  let sh := shadow s r
  let x := ring s n
  let start : BitVec 16 := match sh.posted with
    | some k => x.cnext k
    | none => 0
  let ph := match sh.posted with
    | some _ => if start = 0 then !sh.phase else sh.phase
    | none => true
  let f := expected x recs start ph
  let s := f.1.foldl (fun s e => foundRec s r e.1 e.2) s
  let left := s.tw.ledger.filter (fun l => decide (l.ring.toNat = r))
  let placed := s.own.filter (fun e => decide (e.2.st ≠ 0) && e.2.redriven && e.2.tr && decide (e.2.ring.toNat = r))
  let ds : List QDecl := left.map (fun l => ⟨l.sslot.toNat, l.xtag, l.wclass, l.wait, true, 0, true⟩)
  let kept := (placed.filter (fun e => decide (e.2.st = 4))).foldl
    (fun (x : Ring) (e : Nat × Own) => x.setUse e.2.cqslot (some (.kept e.1 e.2.gen))) (ring s n)
  let s := setRing s n { kept with
    cqtail := f.2.1, p := f.2.2, cqhead := x.cnext f.2.1, slotNext := f.2.1, en := sh.en,
    decw := BitVec.ofNat 16 left.length, outst := BitVec.ofNat 16 placed.length, decls := ds }
  let s := updTw s (fun t => { t with
    ledger := t.ledger.filter (fun l => decide (l.ring.toNat ≠ r)),
    adopt := Table.put {} t.adopt r { adopted := true, waitDb := true } })
  govern (notifyNow s n)

/-- ADOPTION_READ_DONE (R178): `n` is the twin's ring number. -/
def execAdoptionReadDone (n : Nat) (ok : Bool) (recs : List (List (BitVec 32))) (s : State) : Out :=
  .next (
    let a := Table.get {} s.tw.adopt n
    if !a.reading then s
    else if ok then takeoverEnd (adoptRing s n recs)
    else updTw s (fun t => { t with adopt := Table.put {} t.adopt n { failed := true } }))

/-- ADOPTION_READ_RETRY (R178). -/
def execAdoptionReadRetry (n : Nat) (s : State) : Out :=
  .next (if (Table.get {} s.tw.adopt n).failed then startAdopt s n else s)

/-! Pairing, re-twinning and unpairing (R188, R191, R192, R499). -/

/-- PAIR to block `n` on every PROVEN path (R192, R499). -/
def askPair (s : State) (n : BitVec 16) : State :=
  (provenTo s n).foldl (fun s p => sendCtrl s p 6 0) (updTw s (fun t => { t with asked := some n }))

/-- PAIR_SEND (R499). -/
def execPairSend (s : State) : Out :=
  .next (if s.hbr.role = 0 ∧ s.hbr.tstate = 0 ∧ s.blk.mode = 3 ∧ s.hbr.num < s.tw.charterTwin ∧ s.tw.charterRole = 0 then
    askPair s s.tw.charterTwin else s)

/-- RETWIN_SEARCH (R191): the lowest-numbered SPARE that reaches every namespace of the fence set. -/
def execRetwinSearch (s : State) : Out :=
  .next (if s.hbr.role = 0 ∧ s.hbr.tstate = 0 ∧ s.tw.retwin = true ∧ s.fstop = false ∧ s.blk.mode ≠ 7 ∧ quarFreeze s = false then
    match s.members.find? (fun e => e.2.known && decide (e.2.role = 1) && (fenceSet s).all (fun g => e.2.nguids.contains g)) with
    | some e => askPair s (BitVec.ofNat 16 e.1)
    | none => s
  else s)

/-- UNPAIR_DRAINED (R188, R504): keys are unregistered, UNPAIR is sent, and STATE becomes NONE. -/
def execUnpairDrained (s : State) : Out :=
  .next (if s.tw.unpairing && drainedOwn s && (unackedDeclines s).isEmpty && !(s.tw.mq ++ s.tw.maw).any (fun u => decide (u.rtype = 2)) &&
      decide (s.hbr.tstate = 2) then
    let s := leaveKeys s
    let s := match provenTo s s.hbr.tnum with
      | p :: _ => sendCtrl s p 5 0
      | [] => s
    setTstate (endRecords (updTw s (fun t => { t with unpairing := false }))) 0
  else s)

end Sys2Proof.Machine
end

