-- ==== Sys2Proof/Machine/RegRead.lean ====
section
/-! DEFINITION. Machine/RegRead.lean: what every register of the control-register window reads as (R5 to R8, R583),
with sealed rights or without. -/

namespace Sys2Proof.Machine

/-- A flag at bit `k` of a 32-bit register. -/
def fl (k : Nat) (b : Bool) : W32 := if b then (1 : W32) <<< k else 0

/-- A field at bit `k` of a 32-bit register. -/
def fd {w : Nat} (k : Nat) (v : BitVec w) : W32 := v.setWidth 32 <<< k

/-- The same of a 64-bit register. -/
def fl64 (k : Nat) (b : Bool) : W64 := if b then (1 : W64) <<< k else 0
def fd64 {w : Nat} (k : Nat) (v : BitVec w) : W64 := v.setWidth 64 <<< k

/-- A SEAL field reads 0 without sealed rights (R5, R7). -/
def sealF {w : Nat} (rt : Bool) (v : BitVec w) : BitVec w := if rt then v else 0

/-! BLK (R12, R17, R88, R145, R506). -/

/-- BLK.ID (R12). -/
def blkId (s : State) : W32 := fd 24 s.blk.build.code ||| fd 16 (1 : BitVec 8)

def blkRead (s : State) (rt : Bool) (off : Nat) : Option W32 :=
  let b := s.boot
  if off = 0x0 then some (blkId s)
  else if off = 0x8 then some (fd 4 s.blk.dlevel ||| fd 0 s.blk.mode)
  else if off = 0x10 then
    some (fd 30 b.slot ||| fl 29 b.slow ||| fl 28 b.fallbk ||| fd 16 b.code ||| fd 8 b.sect)
  else if off = 0x14 then some (sealF rt (fd 1 b.pick ||| fl 0 b.maint))
  else if off = 0x18 then some (fd 16 b.pfail ||| fd 0 b.clfail)
  else if off = 0x1C then some (fd 8 b.qcause ||| fd 0 b.mcause)
  else if off = 0x20 then some b.svct
  else if off = 0x100 then some (fd 0 s.wm)
  else if off = 0x104 then some (sealF rt (fd 0 s.sres))
  else if off = 0x108 then some (BitVec.ofNat 32 (gfree s))
  else if off = 0x10C then some (fl 0 s.resvRefused)
  else if off = 0x110 then some (BitVec.ofNat 32 (inUse s))
  else if off = 0x114 then some (fd 16 s.mbrkLease ||| fd 0 s.mbrkFault)
  else none

/-! HBR (R194). -/

/-- HBR.HB.PATHS: the seaward ports that carry a proven twin path. -/
def twinPorts (s : State) : W32 :=
  s.paths.foldl (fun (m : W32) (e : Nat × Path) =>
    if e.2.en && decide (e.2.state = 2) && isTwinPath s e.1 then m ||| ((1 : W32) <<< e.2.sp.toNat) else m) 0

def hbrRead (s : State) (off : Nat) : Option W32 :=
  let h := s.hbr
  if off = 0 then some (fd 16 h.role ||| fd 0 h.num)
  else if off = 4 then some h.hid
  else if off = 8 then some (fd 16 (if h.tstate = 0 then 0 else h.tnum) ||| fd 0 h.tstate)
  else if off = 0xC then some (twinPorts s <<< 8 ||| fd 4 h.prim ||| fd 0 s.tw.miss)
  else if off = 0x10 then some (fd 30 h.outcome ||| fl 29 h.poolw ||| fl 28 h.tdone ||| fd 0 h.gleaned)
  else if off = 0x14 then some h.tkot
  else if off = 0x18 then some (fd 20 h.fexec ||| fd 8 h.fredrv ||| fd 0 h.fundet)
  else if off = 0x1C then some (fl 1 h.pdActive ||| fl 0 h.pdEn)
  else if off = 0x20 then some (BitVec.ofNat 32 s.tw.ledger.length)
  else none

/-! PWR (R524). -/

def pwrRead (s : State) (rt : Bool) (off : Nat) : Option W32 :=
  let p := s.pwr
  if off = 0 then some (fd 0 p.maxlvl)
  else if off = 4 then some (fd 16 p.dwell3 ||| fd 0 p.dwell2)
  else if off = 8 then some (fd 16 p.ltolmin ||| fd 8 p.bind ||| fd 0 p.permit)
  else if off = 0xC then some (fl 31 p.wakeValid ||| fd 16 p.wakeCause ||| fd 0 p.wakeLat)
  else if off = 0x10 then some (sealF rt (fd 16 p.hyst ||| fd 8 p.t2 ||| fd 0 p.t1))
  else if off = 0x14 then some (fd 4 p.tgt ||| fl 2 p.hold ||| fd 0 p.step)
  else none

/-! HM (R538). -/

/-- HM.STAT.PROC: running, restarting, or at its debug monitor level. -/
def hmProc (s : State) : BitVec 2 :=
  if s.hm.restarting then 1 else if (pilot s hmNo).atMonitor then 2 else 0

def tempWord (t : Temp) : W32 := fl 31 t.valid ||| fd 0 t.temp
def voltWord (v : Volt) : W32 := fl 31 v.low ||| fl 30 v.high ||| fd 0 v.mv

def hmRead (s : State) (rt : Bool) (off : Nat) : Option W32 :=
  let h := s.hm
  if off = 0 then some (fd 30 (hmProc s) ||| fd 0 h.restarts)
  else if off = 0x10 then some (fd 24 h.mbcode ||| fd 16 h.mbseq)
  else if off = 0x40 then
    some (fl 31 (mbBusy s) ||| fl 30 h.done ||| fl 29 h.ovr ||| fl 28 h.ie ||| fd 16 h.rseq ||| fd 8 h.rstatus |||
      fd 0 h.rdetail)
  else if off = 0x60 then some h.svn
  else if off = 0x64 then some (fl 2 h.tamper ||| fd 0 h.lc)
  else if off = 0x68 then some (fd 16 h.lost ||| fd 0 h.lognext)
  else if off = 0x6C then some (sealF rt (fd 24 h.tcrit ||| fd 16 h.vcrit ||| fd 8 h.vwarn))
  else if 0x100 ≤ off ∧ off < 0x180 then some (tempWord (Table.get {} h.temp ((off - 0x100) / 4)))
  else if 0x180 ≤ off ∧ off < 0x1C0 then some (voltWord (Table.get {} h.volt ((off - 0x180) / 4)))
  else if 0x1C0 ≤ off ∧ off < 0x200 then some (fd 0 (Table.get 0 h.proc ((off - 0x1C0) / 4)))
  else none

def hmWide (off : Nat) : Bool :=
  (decide (0x18 ≤ off) && decide (off < 0x38)) || (decide (0x48 ≤ off) && decide (off < 0x58)) || decide (0x8000 ≤ off)

def hmRead64 (s : State) (off : Nat) : W64 :=
  if off < 0x38 then Table.get 0 s.hm.arg ((off - 0x18) / 8)
  else if off < 0x50 then s.hm.res0
  else if off < 0x58 then s.hm.res1
  else (hmWord s (0x2C000 + (off - 0x8000) / 8)).val

/-! DBG (R557). -/

/-- DBG.MON: the pilots that execute at their monitor level. -/
def monBits (s : State) : BitVec 128 :=
  (pilotNos s).foldl (fun (m : BitVec 128) (p : Nat) =>
    if (pilot s p).atMonitor && !(pilot s p).inReset then m ||| ((1 : BitVec 128) <<< p) else m) 0

def Remap.word (r : Remap) : W32 := fl 31 r.v ||| fd 20 r.srcpg ||| fd 0 r.dstpg

def acccWord (d : Dbg) : W32 :=
  fd 27 d.status ||| fd 24 d.space ||| fd 16 d.unitNo ||| fd 12 d.tag ||| fd 10 d.op ||| fl 9 d.width

def dbgWide (off : Nat) : Bool :=
  decide (off < 0x8) || (decide (0x10 ≤ off) && decide (off < 0x18)) || (decide (0x20 ≤ off) && decide (off < 0x40))

def dbgRead64 (s : State) (off : Nat) : W64 :=
  let d := s.dbg
  if off < 8 then d.addr
  else if off < 0x18 then d.data
  else if off < 0x28 then d.req.extractLsb' 0 64
  else if off < 0x30 then d.req.extractLsb' 64 64
  else if off < 0x38 then (monBits s).extractLsb' 0 64
  else (monBits s).extractLsb' 64 64

def dbgRead (s : State) (rt : Bool) (off : Nat) : Option W32 :=
  let d := s.dbg
  if off = 8 then some (acccWord d)
  else if off = 0x40 then some (fl 31 d.defbrk ||| fl 30 d.aovr ||| fl 29 d.rmref ||| fd 0 d.missed)
  else if off = 0x44 then some (sealF rt (fl 0 d.unlk))
  else if off = 0x48 then some (fl 31 d.ten ||| fl 30 d.tstop ||| fl 29 d.tflow ||| fl 28 d.tlvl ||| fl 27 d.tmode)
  else if off = 0x4C then some d.smask
  else if off = 0x50 then some (sealF rt d.sumask)
  else if off = 0x54 then some (fl 31 d.wrapped ||| fd 0 d.wr)
  else if off = 0x58 then some d.tlost
  else if 0x1000 ≤ off ∧ off < 0x1400 ∧ off % 0x40 < 0x20 then
    some (sealF rt (remapOf s ((off - 0x1000) / 0x40) (off % 0x40 / 4)).word)
  else none

/-! PORT and CIP (R202, R228, R270, R302, R568 to R571). -/

/-- Byte `k` of a list. -/
def byteAt (l : List Byte) (k : Nat) : Byte := l.getD k 0

/-- FSTAT of a receive slot (R569). -/
def fstatWord (l : List RxFrame) : W64 :=
  match l with
  | [] => 0
  | f :: rest => fl64 63 true ||| fd64 40 (BitVec.ofNat 8 rest.length) ||| fd64 32 f.path |||
      fd64 0 (BitVec.ofNat 13 f.body.length)

/-- The frame of the latest GO still waits for its Placia credit (R570). -/
def ftxBusy (s : State) (w : FWin) : Bool :=
  w.busy && s.paths.any (fun e => e.2.lanes.any (fun l => l.2.wait.any (fun q => decide (q.body = w.sent))))

/-- FTX as it reads (R570). -/
def ftxWord (s : State) (w : FWin) : W64 :=
  fl64 62 (ftxBusy s w) ||| fl64 61 w.err ||| fd64 50 w.path ||| fd64 47 w.lane ||| fd64 40 w.typ ||| fd64 0 w.len

/-- A word of a frame window (R568): header and body of the head frames, and the transmit slot. -/
def fwinRead64 (s : State) (p off : Nat) : W64 :=
  let w := fwinOf s p
  if off < 0x300 then
    let l := w.queue (off / 0x100)
    let o := off % 0x100 / 8 * 8
    if o = 0 then fstatWord l
    else
      match l with
      | [] => 0
      | f :: _ =>
        let bs := if o < 0x20 then f.hdr.drop (o - 8) else f.body.drop (o - 0x20)
        BitVec.ofNat 64 (leNat (bs.take 8))
  else if off < 0x308 then ftxWord s w
  else Table.get 0 w.body ((off - 0x308) / 8)

def portWide (off : Nat) : Bool :=
  (decide (0x2000 ≤ off) && decide (off < 0x2800) && decide (off % 0x20 < 8)) || decide (0x7000 ≤ off)

def portRead64 (s : State) (rt : Bool) (off : Nat) : W64 :=
  if off < 0x2800 then (ctlOf s ((off - 0x2000) / 0x20)).bar ++ (0 : BitVec 12)
  else if off < 0x8000 then fwinRead64 s ((off - 0x7000) / 0x400) (off % 0x400)
  else
    let k := keyOf s ((off - 0x8000) / 8)
    fd64 40 k.gen ||| fd64 37 k.st ||| fl64 36 (rt && k.en) ||| fd64 0 k.use

def pathRead (x : Path) (r : Nat) : W32 :=
  if r = 0 then fl 31 x.en ||| fl 30 x.enc ||| fd 28 x.maxpl ||| fd 26 x.sp ||| fd 0 x.peer
  else if r = 4 then x.asym ++ x.route
  else if r = 8 then fd 30 x.state ||| fd 28 x.good ||| fd 26 x.missed ||| fd 0 x.epoch
  else x.retx ++ x.downs

def ctlRead (x : Ctl) (r : Nat) : Option W32 :=
  if r = 0x8 then some (fl 31 x.en ||| fd 29 x.dport ||| fd 26 x.state ||| fd 8 x.nioq ||| fd 0 x.mdts)
  else if r = 0xC then some (fd 16 x.cntlid)
  else if r = 0x10 then some (fd 30 x.pst ||| fd 28 x.good ||| fd 26 x.missed ||| fd 0 x.downs)
  else none

def dqRead (q : Dq) (rt : Bool) (r : Nat) : W32 :=
  if r = 0 then fl 31 q.en ||| fl 30 (rt && q.sealedQ) ||| fd 24 q.ctl ||| fd 12 q.sqbase ||| fd 8 q.sqlog
  else if r = 4 then fd 28 q.cqlog ||| fd 12 q.cqbase
  else if r = 8 then q.qid ++ q.outst
  else q.sqtail ++ q.cqhead

def portRead (s : State) (rt : Bool) (off : Nat) : Option W32 :=
  let q := s.plc
  let d := s.dock
  if off = 0 then some (fl 31 q.cfg ||| fd 16 q.rto ||| fd 0 q.udpport)
  else if off = 4 then some (q.errCrc ++ q.errHdr ++ q.errNopath ++ q.errEpoch)
  else if off = 8 then
    some (fl 31 s.tide.unsync ||| fl 30 q.root ||| fd 24 q.stratum ||| fd 16 (if q.refOk then q.ref else 0) ||| fd 0 q.offs)
  else if 0x10 ≤ off ∧ off < 0x40 then
    some (fd 16 (Table.get 0 q.qdrops ((off - 0x10) / 4)) ||| fd 0 (Table.get 0 q.qflags ((off - 0x10) / 4)))
  else if off = 0x100 then some (sealF rt s.ltr.klim)
  else if off = 0x104 then some (fl 31 s.ltr.alarm ||| fl 30 s.ltr.ready)
  else if off = 0x108 then some s.ltr.authf
  else if 0x1000 ≤ off ∧ off < 0x1400 then some (pathRead (pathOf s ((off - 0x1000) / 0x10)) (off % 0x10))
  else if 0x2000 ≤ off ∧ off < 0x2800 then ctlRead (ctlOf s ((off - 0x2000) / 0x20)) (off % 0x20)
  else if off = 0x2800 then some d.cto
  else if off = 0x2804 then some d.psettle
  else if off = 0x2808 then some (fd 0 d.npwait)
  else if off = 0x280C then some (fl 2 d.baddba ||| fl 1 d.qacc ||| fl 0 d.cfs)
  else if 0x3000 ≤ off ∧ off < 0x7000 then some (dqRead (dqOf s ((off - 0x3000) / 0x10)) rt (off % 0x10))
  else none

/-! LTR and CEL (R268, R269). -/

def ltrRead (s : State) (rt : Bool) (off : Nat) : Option W32 :=
  let l := s.ltr
  if off < 0x100 ∧ off % 8 = 0 then
    let x := lighterOf s (off / 8)
    some (fd 16 (BitVec.ofNat 5 x.orders.length) ||| fd 0 x.revk)
  else if off = 0x400 then
    some (fd 16 (BitVec.ofNat 11 (boundDest s)) ||| fd 0 (BitVec.ofNat 11 (s.blk.build.bays - boundBays s)))
  else if off = 0x404 then some (fl 2 l.baywait ||| fl 1 l.stray ||| fl 0 l.unladen)
  else if off = 0x408 then some l.straycnt
  else if 0x8000 ≤ off ∧ off < 0x8080 then some (sealF rt (fd 0 (bankOwner s ((off - 0x8000) / 4))))
  else if 0x8100 ≤ off ∧ off < 0x8180 then some (Table.get 0 l.conf ((off - 0x8100) / 4))
  else if off = 0x8200 then some (fl 2 l.swipeQuar ||| fl 1 l.swipeMaint ||| fl 0 l.swipeWrst)
  else if off = 0x8204 then some (fl 1 l.starve ||| fl 0 l.hbusy)
  else none

/-! PCL and VIN (R421, R422, R447, R448). -/

def roleCode : Role → BitVec 2
  | .active => 0
  | .spare => 1
  | .testing => 2
  | .offline => 3

/-- Bit `k` of a five-bit set for each slot `k` of cluster `c` whose role is `r`. -/
def roleBits (s : State) (c : Nat) (r : Role) : W32 :=
  (List.range 5).foldl (fun (m : W32) (k : Nat) =>
    if (pilot s (8 * c + k)).role = r then m ||| ((1 : W32) <<< k) else m) 0

def chkRead (s : State) (c r : Nat) : Option W32 :=
  let k := chkOf s c
  if r = 0 then
    some (fd 30 k.state ||| fd 27 (if k.sparePresent then k.spare else 7) ||| roleBits s c .offline <<< 22 |||
      roleBits s c .testing <<< 17)
  else if r = 4 then some (k.run ++ k.fail ++ k.forced)
  else if r = 8 then some (k.subst ++ k.rehab ++ k.retire)
  else if r = 0xC then some 0
  else none

def pstRead (s : State) (p r : Nat) : W32 :=
  let x := pilot s p
  if r = 0 then fd 30 (roleCode x.role) ||| fd 27 x.standin
  else if r = 4 then x.mism ++ x.tpar
  else if r = 8 then x.retryok ++ x.fail2
  else 0

def pclWide (off : Nat) : Bool := (decide (0x8000 ≤ off) && decide (off < 0x8100)) || (decide (0x9000 ≤ off) && decide (off < 0x9008))

def pclRead64 (s : State) (rt : Bool) (off : Nat) : W64 :=
  if off < 0x9000 then
    let b := vbankOf s ((off - 0x8000) / 0x10) (decide (off % 0x10 = 8))
    b.version ++ (fd 30 b.state ||| fd 16 b.cxfmt ||| fd 12 b.custom)
  else sealF rt (fd64 0 s.vin.offs)

def pclRead (s : State) (rt : Bool) (off : Nat) : Option W32 :=
  let v := s.vin
  if off < 0x100 then (if off % 0x10 = 0 then some (csrcWord s (off / 0x10) rt) else none)
  else if 0x400 ≤ off ∧ off < 0x840 then
    some (sealF rt (gmOf s ((off - 0x400) / 0x40) (off % 0x40 / 4)).word)
  else if 0x1000 ≤ off ∧ off < 0x1200 then chkRead s ((off - 0x1000) / 0x20) (off % 0x20)
  else if 0x2000 ≤ off ∧ off < 0x2800 then
    some (pstRead s ((off - 0x2000) / 0x10) (off % 0x10))
  else if off = 0x9008 then some (sealF rt (fl 16 v.bank ||| fd 0 v.cmask))
  else if off = 0x900C then some (fl 31 v.busy ||| fl 30 v.done ||| fd 20 v.cluster ||| fd 0 v.code)
  else if off = 0x9010 then some (v.corr ++ v.uncorr)
  else none

/-! The Manifest view (R110, R111). -/

/-- The words of an own entry, value bits only. -/
def ownWord (e : Own) (k : Nat) : W64 :=
  if k = 0 then e.w0 else if k = 1 then e.w1 else if k = 2 then e.w2 else if k = 3 then e.w3
  else if k = 4 then e.pos else if k = 5 then e.w5 else if k = 6 then e.w6 else e.w7

def mirWord (m : Mir) (k : Nat) : W64 :=
  if k = 0 then m.m0 else if k = 1 then m.m1 else if k = 2 then m.m2 else m.m3

/-- The window's offset lies in the Manifest view. -/
def inView (off : Nat) : Bool := decide (0x4000000 ≤ off) && decide (off < 0x7000000)

def viewRead (s : State) (rt : Bool) (off : Nat) : W64 :=
  if !rt then 0
  else if off < 0x6000000 then ownWord (own s ((off - 0x4000000) / 0x40)) (off % 0x40 / 8)
  else mirWord (mirr s ((off - 0x6000000) / 0x20)) (off % 0x20 / 8)

/-! The window as a whole (R583). -/

/-- The region of an offset, and the offset in it: 0 to 9 are the 64 KiB regions, 16 RING, 17 BERTH, 18 BERTH NGUID,
19 the Manifest view. -/
def regionOf (off : Nat) : Nat × Nat :=
  if off < 0x1000000 then (if off < 0xA0000 then (off / 0x10000, off % 0x10000) else (99, 0))
  else if off < 0x1400000 then (16, off - 0x1000000)
  else if 0x2000000 ≤ off ∧ off < 0x2800000 then (17, off - 0x2000000)
  else if 0x3000000 ≤ off ∧ off < 0x3100000 then (18, off - 0x3000000)
  else if inView off then (19, off)
  else (99, 0)

/-- The offset lies in an entry of a table beyond the build's count, which reads 0 and ignores writes (R11).  Slots 5
to 7 of a cluster are no pilot slots (R134): PCL.PST of them is such an entry. -/
def beyond (b : Build) (off : Nat) : Bool :=
  match regionOf off with
  | (6, o) => decide (0x1000 ≤ o) && decide (o < 0x1400) && decide (b.clusters ≤ (o - 0x1000) / 0x40)
  | (7, o) =>
    (decide (0x10 ≤ o) && decide (o < 0x40) && b.noPort ((o - 0x10) / 4)) ||
    (decide (0x1000 ≤ o) && decide (o < 0x1400) && decide (b.paths ≤ (o - 0x1000) / 0x10)) ||
    (decide (0x2000 ≤ o) && decide (o < 0x2800) && decide (b.ctls ≤ (o - 0x2000) / 0x20)) ||
    (decide (0x3000 ≤ o) && decide (o < 0x7000) && decide (b.queues ≤ (o - 0x3000) / 0x10)) ||
    (decide (0x7000 ≤ o) && decide (o < 0x8000) && b.noPort ((o - 0x7000) / 0x400))
  | (8, o) =>
    (decide (o < 0x100) && decide (b.lighters ≤ o / 8)) ||
    (decide (0x8000 ≤ o) && decide (o < 0x8200) && decide (b.banks ≤ o % 0x100 / 4))
  | (9, o) =>
    (decide (o < 0x100) && decide (b.clusters ≤ o / 0x10)) ||
    (decide (0x400 ≤ o) && decide (o < 0x800) && decide (b.clusters ≤ (o - 0x400) / 0x40)) ||
    (decide (0x1000 ≤ o) && decide (o < 0x1200) && decide (b.clusters ≤ (o - 0x1000) / 0x20)) ||
    (decide (0x2000 ≤ o) && decide (o < 0x2800) &&
      (decide (8 * b.clusters ≤ (o - 0x2000) / 0x10) || decide (5 ≤ (o - 0x2000) / 0x10 % 8))) ||
    (decide (0x8000 ≤ o) && decide (o < 0x8100) && decide (b.clusters ≤ (o - 0x8000) / 0x10))
  | (16, o) => decide (b.rings ≤ o / 0x40)
  | (17, o) => decide (b.berths ≤ o / 0x80)
  | (18, o) => decide (b.berths ≤ o / 0x10)
  | (19, _) =>
    decide (b.entries ≤ (if off < 0x6000000 then (off - 0x4000000) / 0x40 else (off - 0x6000000) / 0x20))
  | _ => false

/-- PWR.RES lies at 0x20 to 0x3F (R524). -/
def pwrWide (off : Nat) : Bool := decide (0x20 ≤ off) && decide (off < 0x40)

/-- The aligned 8 bytes at `off` belong to one 64-bit register. -/
def regWide (off : Nat) : Bool :=
  match regionOf off with
  | (0, o) => decide (0x118 ≤ o) && decide (o < 0x120)
  | (3, o) => evcWide o
  | (4, o) => pwrWide o
  | (5, o) => hmWide o
  | (6, o) => dbgWide o
  | (7, o) => portWide o
  | (9, o) => pclWide o
  | (16, o) => ringWide (o % 0x40)
  | (17, _) => true
  | (18, _) => true
  | (19, _) => true
  | _ => false

/-- The value of the 64-bit register at the aligned offset `off`. -/
def regRead64 (s : State) (rt : Bool) (off : Nat) : W64 :=
  if beyond s.blk.build off then 0
  else match regionOf off with
  | (0, _) => s.mlast
  | (3, o) => ((evcRead s (o + 4) rt).getD 0) ++ ((evcRead s o rt).getD 0)
  | (4, o) => Table.get 0 s.pwr.res ((o - 0x20) / 8)
  | (5, o) => hmRead64 s o
  | (6, o) => dbgRead64 s o
  | (7, o) => portRead64 s rt o
  | (9, o) => pclRead64 s rt o
  | (16, o) => ringRead64 (ring s (o / 0x40)) (o % 0x40)
  | (17, o) => berthRead s rt (o / 0x80) (o % 0x80 / 8)
  | (18, o) =>
    if o % 0x10 = 0 then (berth s (o / 0x10)).nguid.extractLsb' 0 64 else (berth s (o / 0x10)).nguid.extractLsb' 64 64
  | (19, o) => viewRead s rt o
  | _ => 0

/-- The value of the 32-bit register at the aligned offset `off`; none where the offset is undecoded. -/
def regRead32 (s : State) (rt : Bool) (off : Nat) : Option W32 :=
  if beyond s.blk.build off then some 0
  else match regionOf off with
  | (0, o) => blkRead s rt o
  | (1, o) => hbrRead s o
  | (2, o) => tideRead s o
  | (3, o) => evcRead s o rt
  | (4, o) => pwrRead s rt o
  | (5, o) => hmRead s rt o
  | (6, o) => dbgRead s rt o
  | (7, o) => portRead s rt o
  | (8, o) => ltrRead s rt o
  | (9, o) => pclRead s rt o
  | (16, o) => some (ringRead s (o / 0x40) (o % 0x40))
  | _ => none

/-- A read of the window (R337, R573): 4 or 8 aligned bytes; none where undecoded or misaligned. -/
def winRead (s : State) (rt wide : Bool) (off : Nat) : Option W64 :=
  if off % 4 ≠ 0 ∨ (wide = true ∧ off % 8 ≠ 0) then none
  else
    let base := off / 8 * 8
    if regWide base then
      let v := regRead64 s rt base
      if wide then some v
      else some ((if off % 8 = 0 then v.extractLsb' 0 32 else v.extractLsb' 32 32).setWidth 64)
    else if wide then
      match regRead32 s rt off, regRead32 s rt (off + 4) with
      | some lo, some hi => some (hi ++ lo)
      | _, _ => none
    else (regRead32 s rt off).map (·.setWidth 64)

end Sys2Proof.Machine
end

