-- ==== Sys2Proof/Machine/RegWrite.lean ====
section
/-! DEFINITION. Machine/RegWrite.lean: what a write and a take of every register of the control-register window do
(R5 to R8, R583), frames sent through a frame window (R570) and frames removed from one (R569). -/

namespace Sys2Proof.Machine

/-- Bits `v` under mask `m` over the old value. -/
def mix (old v m : W64) : W64 := (v &&& m) ||| (old &&& ~~~m)

/-! Frames through a frame window (R568 to R570). -/

/-- The bytes that GO sends. -/
def ftxBody (w : FWin) : List Byte := ((Table.getList 0 w.body 0 31).foldr (fun q l => qBytes q ++ l) []).take w.len.toNat

/-- GO is refused (R570). -/
def ftxRefused (s : State) (p : Nat) (w : FWin) : Bool :=
  let x := pathOf s w.path.toNat
  ftxBusy s w || !(decide (w.typ = 2) || decide (w.typ = 6) || decide (w.typ = 8)) || !laneOk w.typ w.lane ||
    !(x.en && decide (x.state = 2) && decide (x.sp.toNat = p)) || decide (248 < w.len.toNat) ||
    decide (maxBody x < w.len.toNat)

/-- The first quadword of a body. -/
def bodyQ (bs : List Byte) : W64 := BitVec.ofNat 64 (leNat (bs.take 8))

/-- The berth slot that an RCMD on path `p` for serving berth `sb` names, of the exchange of entry `i`. -/
def rcmdSlot (s : State) (i p : Nat) (sb : BitVec 16) : Option Nat :=
  let b := berthOf s i
  [1, 2, 3].find? (fun k => (b.slot k).v && decide ((b.slot k).tgt.toNat = p) && decide ((b.slot k).sberth = sb))

/-- A command is outstanding under `key` that was not before. -/
def newCmd (s t : State) (key : Nat) : Bool :=
  (dcmdOf s key).isNone && (match dcmdOf t key with
    | some c => decide (c.wait = .device)
    | none => false)

/-- Firmware sends an RCMD (R221, R290, R293): RQID's low bits name the entry of the exchange whose next command it
carries; the second half of a fused pair shares its frame. -/
def sendRcmd (s : State) (p : Nat) (lane : BitVec 3) (body : List Byte) : State :=
  let q := bodyQ body
  let rqid : W32 := q.extractLsb' 32 32
  let i := (rqid.extractLsb' 0 19).toNat
  match rcmdSlot s i p (q.extractLsb' 16 16) with
  | none => if frozen s then s else laneSend s p lane.toNat 6 body
  | some k =>
    if frozen s then s else
    let t := issueCmd s i k (remoteKey rqid) (some (p, lane, body)) false
    if newCmd s t (remoteKey rqid) then
      (if q.getLsbD 0 then issueCmd t i k (fusedKey rqid) none false else t)
    else laneSend t p lane.toNat 6 body

/-- Firmware sends a CTRL message (R200): codes 0x01 to 0x03 are unsequenced, and an ABORT is noted with the command it
names. -/
def sendCtl (s : State) (p : Nat) (lane : BitVec 3) (body : List Byte) : State :=
  let q := bodyQ body
  let code : BitVec 8 := q.extractLsb' 56 8
  if 1 ≤ code.toNat ∧ code.toNat ≤ 3 then sendU s p 2 lane body
  else
    let s := if code = 0x10 then
        onHalves s (q.extractLsb' 0 32) (fun s k c => setDcmd s k (some { c with abortSent := true }))
      else s
    laneSend s p lane.toNat 2 body

/-- The bit of GO. -/
def ftxGoBit : Nat := 63

/-- A write of FTX under a mask (R570). -/
def ftxWrite (s : State) (p : Nat) (v m : W64) : State :=
  let w := fwinOf s p
  let x := mix (ftxWord s w) v m
  let go := v.getLsbD ftxGoBit && m.getLsbD ftxGoBit
  let w := { w with path := x.extractLsb' 50 6, lane := x.extractLsb' 47 3, typ := x.extractLsb' 40 4,
                    len := x.extractLsb' 0 13, err := w.err && !(v.getLsbD 61 && m.getLsbD 61) }
  if !go then setFwin s p w
  else if ftxRefused s p w then setFwin s p { w with err := true }
  else
    let body := ftxBody w
    let s := setFwin s p { w with busy := true, sent := body }
    if w.typ = 2 then sendCtl s w.path.toNat w.lane body
    else if w.typ = 6 then sendRcmd s w.path.toNat w.lane body
    else laneSend s w.path.toNat w.lane.toNat w.typ body

/-- A take of FSTAT removes the head frame; a lane whose delivery waited for room goes on (R210, R568, R569). -/
def fstatRemove (s : State) (p k : Nat) : State :=
  let w := fwinOf s p
  match w.queue k with
  | [] => s
  | _ :: rest => resumeLanes (sampleLevel (setFwin s p (w.setQueue k rest)) (0x300 + 4 * p + k))

/-! Writes of 32-bit registers. -/

/-- A pool field takes `wm` and `sres`, or the write is refused (R89). -/
def poolWrite (s : State) (wm sres : BitVec 20) : State :=
  if s.blk.build.entries < poolSum wm sres s.berths then { s with resvRefused := true } else { s with wm := wm, sres := sres }

def blkWrite (s : State) (rt : Bool) (off : Nat) (v : W32) : State :=
  if off = 0x14 then
    (if rt then { s with boot := { s.boot with pick := v.extractLsb' 1 2, maint := v.getLsbD 0 } } else s)
  else if off = 0x100 then poolWrite s (v.extractLsb' 0 20) s.sres
  else if off = 0x104 then (if rt then poolWrite s s.wm (v.extractLsb' 0 20) else s)
  else if off = 0x10C then { s with resvRefused := s.resvRefused && !v.getLsbD 0 }
  else s

def hbrWrite (s : State) (off : Nat) (v : W32) : State :=
  if off = 0x10 then { s with hbr := { s.hbr with tdone := s.hbr.tdone && !v.getLsbD 28 } }
  else if off = 0x1C then { s with hbr := { s.hbr with pdEn := v.getLsbD 0 } }
  else s

def pwrWrite (s : State) (rt : Bool) (off : Nat) (v : W32) : State :=
  let p := s.pwr
  if off = 0 then govern { s with pwr := { p with maxlvl := v.extractLsb' 0 2 } }
  else if off = 4 then { s with pwr := { p with dwell3 := v.extractLsb' 16 16, dwell2 := v.extractLsb' 0 16 } }
  else if off = 0xC then { s with pwr := { p with wakeValid := p.wakeValid && !v.getLsbD 31 } }
  else if off = 0x10 ∧ rt = true then
    { s with pwr := { p with hyst := v.extractLsb' 16 8, t2 := v.extractLsb' 8 8, t1 := v.extractLsb' 0 8 } }
  else s

def hmWrite (s : State) (rt : Bool) (off : Nat) (v : W32) : State :=
  let h := s.hm
  if off = 0x10 then
    mbCommand s (v.extractLsb' 24 8) (v.extractLsb' 16 8) (fun s => mbRun s (v.extractLsb' 24 8))
  else if off = 0x40 then
    { s with hm := { h with done := h.done && !v.getLsbD 30, ovr := h.ovr && !v.getLsbD 29, ie := v.getLsbD 28 } }
  else if off = 0x6C ∧ rt = true then
    { s with hm := { h with tcrit := v.extractLsb' 24 8, vcrit := v.extractLsb' 16 8, vwarn := v.extractLsb' 8 8 } }
  else if 0x180 ≤ off ∧ off < 0x1C0 then
    { s with hm := { h with volt := Table.upd {} h.volt ((off - 0x180) / 4) (fun x =>
        { x with low := x.low && !v.getLsbD 31, high := x.high && !v.getLsbD 30 }) } }
  else s

def hmWrite64 (s : State) (off : Nat) (v m : W64) : State :=
  let w := mix (hmRead64 s off) v m
  if off < 0x38 then { s with hm := { s.hm with arg := Table.put 0 s.hm.arg ((off - 0x18) / 8) w } }
  else if off < 0x58 then s
  else setHmWord s (0x2C000 + (off - 0x8000) / 8) (intW w)

/-- The fields of DBG.ACCC that a write sets (R557). -/
def accFields (s : State) (v : W32) : State :=
  { s with dbg := { s.dbg with space := v.extractLsb' 24 3, unitNo := v.extractLsb' 16 8, tag := v.extractLsb' 12 4,
                               op := v.extractLsb' 10 2, width := v.getLsbD 9 } }

/-- A write of a DBG register; of DBG.ACCC, as it is met while an access runs: GO only sets AOVR (R539). -/
def dbgWrite (s : State) (rt : Bool) (off : Nat) (v : W32) : State :=
  let d := s.dbg
  if off = 8 then
    let s := accFields s v
    { s with dbg := { s.dbg with aovr := s.dbg.aovr || v.getLsbD 31 } }
  else if off = 0x40 then
    { s with dbg := { d with defbrk := d.defbrk && !v.getLsbD 31, aovr := d.aovr && !v.getLsbD 30,
                             rmref := d.rmref && !v.getLsbD 29 } }
  else if off = 0x44 then (if rt then { s with dbg := { d with unlk := v.getLsbD 0 } } else s)
  else if off = 0x48 then
    { s with dbg := { d with ten := v.getLsbD 31, tstop := v.getLsbD 30, tflow := v.getLsbD 29, tlvl := v.getLsbD 28,
                             tmode := v.getLsbD 27 } }
  else if off = 0x4C then { s with dbg := { d with smask := v } }
  else if off = 0x50 then (if rt then { s with dbg := { d with sumask := v } } else s)
  else if 0x1000 ≤ off ∧ rt = true then
    let k := 8 * ((off - 0x1000) / 0x40) + off % 0x40 / 4
    let r : Remap := { v := v.getLsbD 31, srcpg := v.extractLsb' 20 10, dstpg := v.extractLsb' 0 10 }
    { s with dbg := { d with remap := Table.put {} d.remap k r } }
  else s

/-- EXT requests are set for the pilots of `m` that exist, and each of them meets its boundary (R545, R546). -/
def extSet (s : State) (m : BitVec 128) : State :=
  let ps := (pilotNos s).filter (fun p => m.getLsbD p)
  let bits := ps.foldl (fun (b : BitVec 128) (p : Nat) => b ||| ((1 : BitVec 128) <<< p)) 0
  ps.foldl watchdogBoundary { s with dbg := { s.dbg with req := s.dbg.req ||| bits } }

def dbgWrite64 (s : State) (off : Nat) (v m : W64) : State :=
  if off < 8 then { s with dbg := { s.dbg with addr := mix s.dbg.addr v m } }
  else if off < 0x18 then { s with dbg := { s.dbg with data := mix s.dbg.data v m } }
  else if off < 0x28 then extSet s ((v &&& m).setWidth 128)
  else if off < 0x30 then extSet s ((v &&& m).setWidth 128 <<< 64)
  else s

/-- A write of PORT.DCTL[c].CTL (R274, R302): EN = 1 starts the controller's start, EN = 0 stops the controller. -/
def dctlWrite (s : State) (c : Nat) (v : W32) : State :=
  let x := ctlOf s c
  let x := { x with dport := v.extractLsb' 29 2 }
  if v.getLsbD 31 = x.en then setCtl s c x
  else if v.getLsbD 31 then setCtl s c { x with en := true, state := 1 }
  else reslot s (setCtl s c { x with en := false, state := 0, pst := 0, good := 0, missed := 0,
                                     restart := x.restart || decide (x.state = 2) })

/-- A write of PORT.DQ[q] (R302): CFG and CQ are ignored while EN = 1. -/
def dqWrite (s : State) (rt : Bool) (q r : Nat) (v : W32) : State :=
  let x := dqOf s q
  if x.en then s
  else if r = 0 then
    setDq s q { x with en := v.getLsbD 31, sealedQ := if rt then v.getLsbD 30 else x.sealedQ, ctl := v.extractLsb' 24 6,
                       sqbase := v.extractLsb' 12 11, sqlog := v.extractLsb' 8 4 }
  else if r = 4 then setDq s q { x with cqlog := v.extractLsb' 28 4, cqbase := v.extractLsb' 12 11 }
  else s

def portWrite (s : State) (rt : Bool) (off : Nat) (v : W32) : State :=
  let q := s.plc
  let d := s.dock
  if off = 0 then
    { s with plc := { q with cfg := q.cfg && !v.getLsbD 31, rto := v.extractLsb' 16 8, udpport := v.extractLsb' 0 16 } }
  else if 0x10 ≤ off ∧ off < 0x40 then
    { s with plc := { q with qflags := Table.upd 0 q.qflags ((off - 0x10) / 4) (fun x => x &&& ~~~(v.extractLsb' 0 4)) } }
  else if off = 0x100 then (if rt then { s with ltr := { s.ltr with klim := v } } else s)
  else if off = 0x104 then { s with ltr := { s.ltr with alarm := s.ltr.alarm && !v.getLsbD 31 } }
  else if 0x1000 ≤ off ∧ off < 0x1400 then
    let p := (off - 0x1000) / 0x10
    if off % 0x10 = 0 then pcfgWrite s p v else if off % 0x10 = 4 then prouteWrite s p v else s
  else if 0x2000 ≤ off ∧ off < 0x2800 then (if off % 0x20 = 8 then dctlWrite s ((off - 0x2000) / 0x20) v else s)
  else if off = 0x2800 then { s with dock := { d with cto := v } }
  else if off = 0x2804 then { s with dock := { d with psettle := v } }
  else if off = 0x2808 then { s with dock := { d with npwait := v.extractLsb' 0 16 } }
  else if off = 0x280C then
    { s with dock := { d with baddba := d.baddba && !v.getLsbD 2, qacc := d.qacc && !v.getLsbD 1, cfs := d.cfs && !v.getLsbD 0 } }
  else if 0x3000 ≤ off ∧ off < 0x7000 then dqWrite s rt ((off - 0x3000) / 0x10) (off % 0x10) v
  else s

def portWrite64 (s : State) (rt : Bool) (off : Nat) (v m : W64) : State :=
  if off < 0x2800 then
    let c := (off - 0x2000) / 0x20
    setCtl s c { ctlOf s c with bar := (mix (portRead64 s rt off) v m).extractLsb' 12 52 }
  else if off < 0x8000 then
    let p := (off - 0x7000) / 0x400
    let o := off % 0x400
    if o < 0x300 then s
    else if o < 0x308 then ftxWrite s p v m
    else
      let w := fwinOf s p
      let k := (o - 0x308) / 8
      setFwin s p { w with body := Table.put 0 w.body k (mix (Table.get 0 w.body k) v m) }
  else if rt then keyWrite s ((off - 0x8000) / 8) (mix (portRead64 s true off) v m)
  else s

def ltrWrite (s : State) (rt : Bool) (off : Nat) (v : W32) : State :=
  let l := s.ltr
  if off = 0x404 then
    { s with ltr := { l with baywait := l.baywait && !v.getLsbD 2, stray := l.stray && !v.getLsbD 1,
                             unladen := l.unladen && !v.getLsbD 0 } }
  else if 0x8000 ≤ off ∧ off < 0x8080 then
    (if rt then celOwnWrite s ((off - 0x8000) / 4) (v.extractLsb' 0 2) else s)
  else if off = 0x8200 then
    (if l.swipeLock then s
     else { s with ltr := { l with swipeQuar := v.getLsbD 2, swipeMaint := v.getLsbD 1, swipeWrst := v.getLsbD 0,
                                   swipeLock := true } })
  else if off = 0x8204 then
    { s with ltr := { l with starve := l.starve && !v.getLsbD 1, hbusy := l.hbusy && !v.getLsbD 0 } }
  else s

def pclWrite (s : State) (rt : Bool) (off : Nat) (v : W32) : State :=
  if off < 0x100 then csrcWrite s rt (off / 0x10) v
  else if off < 0x840 then gmWrite s rt ((off - 0x400) / 0x40) (off % 0x40 / 4) v
  else if off < 0x1200 then (if off % 0x20 = 0xC then injnowWrite s rt ((off - 0x1000) / 0x20) v else s)
  else if off < 0x2800 then (if off % 0x10 = 0xC then forceWrite s rt ((off - 0x2000) / 0x10) v else s)
  else if off = 0x9008 then vinWrite s rt v
  else if off = 0x900C then { s with vin := { s.vin with done := s.vin.done && !v.getLsbD 30 } }
  else s

def pclWrite64 (s : State) (rt : Bool) (off : Nat) (v m : W64) : State :=
  if off < 0x9000 ∨ rt = false then s
  else { s with vin := { s.vin with offs := (mix (pclRead64 s true off) v m).extractLsb' 4 17 ++ (0 : BitVec 4) } }

/-- A ring register is written; EN and LTOL bear on the governor at once (R103, R510). -/
def ringRegWrite (s : State) (n off : Nat) (v : W32) : State :=
  let s := ringWrite32 s n off v
  if off = 0x10 ∨ off = 0x1C then govern s else s

/-! The window (R337, R573, R583). -/

/-- A write of the 32-bit register at `off`. -/
def regWrite32 (s : State) (rq : Requester) (off : Nat) (v : W32) : State :=
  let rt := sealRights s rq
  if beyond s.blk.build off then s
  else match regionOf off with
  | (0, o) => blkWrite s rt o v
  | (1, o) => hbrWrite s o v
  | (2, o) => tideWrite s rq o v
  | (3, o) => evcWrite32 s o rt v
  | (4, o) => pwrWrite s rt o v
  | (5, o) => hmWrite s rt o v
  | (6, o) => dbgWrite s rt o v
  | (7, o) => portWrite s rt o v
  | (8, o) => ltrWrite s rt o v
  | (9, o) => pclWrite s rt o v
  | (16, o) => ringRegWrite s (o / 0x40) (o % 0x40) v
  | _ => s

/-- A write of the 64-bit register at the aligned offset `off` under a mask. -/
def regWrite64 (s : State) (rq : Requester) (off : Nat) (v m : W64) : State :=
  let rt := sealRights s rq
  if beyond s.blk.build off then s
  else match regionOf off with
  | (0, _) => if (v &&& m).getLsbD 48 then { s with mlast := s.mlast &&& ~~~((1 : W64) <<< 48) } else s
  | (3, o) => evcWrite64 s o rt v m
  | (5, o) => hmWrite64 s o v m
  | (6, o) => dbgWrite64 s o v m
  | (7, o) => portWrite64 s rt o v m
  | (9, o) => pclWrite64 s rt o v m
  | (16, o) => ringWrite64 s (o / 0x40) (o % 0x40) v m
  | (17, o) => berthWrite s rt (o / 0x80) (o % 0x80 / 8) v m
  | (18, o) => nguidWrite s (o / 0x10) (decide (o % 0x10 = 8)) v m
  | _ => s

/-- The mask of the bytes that an access covers. -/
def accMask (wide : Bool) (off : Nat) : W64 :=
  if wide then BitVec.allOnes 64 else if off % 8 = 0 then 0xFFFFFFFF else 0xFFFFFFFF00000000

/-- A write of the window whose offset `winRead` decodes. -/
def winWrite (s : State) (rq : Requester) (wide : Bool) (off : Nat) (v : W64) : State :=
  let base := off / 8 * 8
  if regWide base then
    regWrite64 s rq base (if wide ∨ off % 8 = 0 then v else v <<< 32) (accMask wide off)
  else if wide then regWrite32 (regWrite32 s rq off (v.extractLsb' 0 32)) rq (off + 4) (v.extractLsb' 32 32)
  else regWrite32 s rq off (v.extractLsb' 0 32)

/-! Takes (R5): the RC fields of a register are cleared. -/

def blkTake (s : State) (off : Nat) : State :=
  if off = 0x114 then { s with mbrkLease := 0, mbrkFault := 0 } else s

def hbrTake (s : State) (off : Nat) : State :=
  if off = 0x18 then { s with hbr := { s.hbr with fexec := 0, fredrv := 0, fundet := 0 } } else s

def hmTake (s : State) (off : Nat) : State :=
  if off = 0 then { s with hm := { s.hm with restarts := 0 } }
  else if off = 0x68 then { s with hm := { s.hm with lost := 0 } }
  else s

def dbgTake (s : State) (off : Nat) : State :=
  if off = 0x40 then { s with dbg := { s.dbg with missed := 0 } }
  else if off = 0x58 then { s with dbg := { s.dbg with tlost := 0 } }
  else s

def portTake (s : State) (off : Nat) : State :=
  let q := s.plc
  if off = 4 then { s with plc := { q with errCrc := 0, errHdr := 0, errNopath := 0, errEpoch := 0 } }
  else if 0x10 ≤ off ∧ off < 0x40 then { s with plc := { q with qdrops := Table.put 0 q.qdrops ((off - 0x10) / 4) 0 } }
  else if off = 0x108 then { s with ltr := { s.ltr with authf := 0 } }
  else if 0x1000 ≤ off ∧ off < 0x1400 ∧ off % 0x10 = 0xC then
    updPath s ((off - 0x1000) / 0x10) (fun x => { x with retx := 0, downs := 0 })
  else if 0x2000 ≤ off ∧ off < 0x2800 ∧ off % 0x20 = 0x10 then
    let c := (off - 0x2000) / 0x20
    setCtl s c { ctlOf s c with downs := 0 }
  else s

def ltrTake (s : State) (off : Nat) : State :=
  let l := s.ltr
  if off < 0x100 then setLighter s (off / 8) { lighterOf s (off / 8) with revk := 0 }
  else if off = 0x408 then { s with ltr := { l with straycnt := 0 } }
  else if 0x8100 ≤ off ∧ off < 0x8180 then { s with ltr := { l with conf := Table.put 0 l.conf ((off - 0x8100) / 4) 0 } }
  else s

def pclTake (s : State) (off : Nat) : State :=
  if 0x1000 ≤ off ∧ off < 0x1200 then
    let c := (off - 0x1000) / 0x20
    let k := chkOf s c
    if off % 0x20 = 4 then setChk s c { k with run := 0, fail := 0, forced := 0 }
    else if off % 0x20 = 8 then setChk s c { k with subst := 0, rehab := 0, retire := 0 }
    else s
  else if 0x2000 ≤ off ∧ off < 0x2800 then
    let p := (off - 0x2000) / 0x10
    if off % 0x10 = 4 then updPilot s p (fun x => { x with mism := 0, tpar := 0 })
    else if off % 0x10 = 8 then updPilot s p (fun x => { x with retryok := 0, fail2 := 0 })
    else s
  else if off = 0x9010 then { s with vin := { s.vin with corr := 0, uncorr := 0 } }
  else s

/-- A take of the 32-bit register at `off`. -/
def regTake32 (s : State) (off : Nat) : State :=
  if beyond s.blk.build off then s
  else match regionOf off with
  | (0, o) => blkTake s o
  | (1, o) => hbrTake s o
  | (2, o) => tideTake s o
  | (3, o) => evcTake s o
  | (5, o) => hmTake s o
  | (6, o) => dbgTake s o
  | (7, o) => portTake s o
  | (8, o) => ltrTake s o
  | (9, o) => pclTake s o
  | _ => s

/-- A take of the bytes of mask `m` of the 64-bit register at `off`: FSTAT, and LOSSES of a berth's slot. -/
def regTake64 (s : State) (off : Nat) (m : W64) : State :=
  if beyond s.blk.build off then s
  else match regionOf off with
  | (7, o) =>
    if 0x7000 ≤ o ∧ o < 0x8000 ∧ o % 0x100 < 8 ∧ o % 0x400 < 0x300 then
      fstatRemove s ((o - 0x7000) / 0x400) (o % 0x400 / 0x100)
    else s
  | (17, o) =>
    let w := o % 0x80 / 8
    if 8 ≤ w ∧ w ≤ 14 ∧ w % 2 = 0 ∧ m.getLsbD 0 = true then
      let b := berth s (o / 0x80)
      let k := (w - 8) / 2
      setBerth s (o / 0x80) (b.setSlot k { b.slot k with losses := 0 })
    else s
  | _ => s

/-- The clearing part of a take of the window whose offset `winRead` decodes (R573). -/
def winTake (s : State) (wide : Bool) (off : Nat) : State :=
  let base := off / 8 * 8
  if regWide base then regTake64 s base (accMask wide off)
  else if wide then regTake32 (regTake32 s off) (off + 4)
  else regTake32 s off

end Sys2Proof.Machine
end

