-- ==== Sys2Proof/Machine/Debug.lean ====
section
/-! DEFINITION. Machine/Debug.lean: debug accesses (R539 to R543), EXT requests, code remap writes, SYNC packets and
the TAP (R544). -/

namespace Sys2Proof.Machine

/-! What an access answers. -/

def dbgOk : BitVec 3 := 0
def dbgDenied : BitVec 3 := 1
def dbgBadAddr : BitVec 3 := 2
def dbgTag : BitVec 3 := 3
def dbgRsv : BitVec 3 := 5

/-- The access ends with a status. -/
def accEnd (s : State) (st : BitVec 3) : State := { s with dbg := { s.dbg with status := st } }

/-- The access ends with data. -/
def accData (s : State) (v : W64) : State := { s with dbg := { s.dbg with status := dbgOk, data := v } }

/-- The aligned unit of a 64-bit word: the whole word, or one half. -/
def unitOf (wide : Bool) (a : Nat) (v : W64) : W64 :=
  if wide then v else (if a % 8 < 4 then v.extractLsb' 0 32 else v.extractLsb' 32 32).setWidth 64

/-- A 64-bit word with one unit replaced. -/
def putUnit (wide : Bool) (a : Nat) (old v : W64) : W64 :=
  if wide then v else if a % 8 < 4 then old.extractLsb' 32 32 ++ v.extractLsb' 0 32 else v.extractLsb' 0 32 ++ old.extractLsb' 0 32

/-- A tagged word is read: without Development rights a SEAL-tagged one answers 0 with TAG (R543). -/
def accWord (s : State) (a : Nat) (w : TWord) : State :=
  if w.tag = 15 ∧ devRights s = false then { s with dbg := { s.dbg with status := dbgTag, data := 0 } }
  else
    let v := unitOf s.dbg.width a w.val
    { s with dbg := { s.dbg with status := dbgOk, data := v, tag := w.tag } }

/-- The tags that a write may give (R541). -/
def tagAllowed (s : State) (t : BitVec 4) : Bool :=
  if devRights s then decide (t ≠ 6) && !(decide (10 ≤ t.toNat) && decide (t.toNat ≤ 14)) else decide (t.toNat ≤ 2)

/-- The word that a write makes of an old one. -/
def accNew (s : State) (a : Nat) (old : TWord) : TWord := ⟨putUnit s.dbg.width a old.val s.dbg.data, s.dbg.tag⟩

/-- The address is aligned to the unit and below `n`. -/
def accFits (s : State) (n : Nat) : Bool :=
  decide (s.dbg.addr.toNat < n) && decide (s.dbg.addr.toNat % (if s.dbg.width then 8 else 4) = 0)

/-- An access is a write. -/
def isWrite (s : State) : Bool := decide (s.dbg.op = 2)

/-! The spaces (R542). -/

/-- The control-register window (R542).  DESIGN CHOICE (log 67): the Manifest view, which R111 opens to the debug
window, follows the rights of R541 too, and reads 0 without sealed rights. -/
def accWindow (s : State) : State :=
  let a := s.dbg.addr.toNat
  let wide := s.dbg.width
  match (if accFits s 0x8000000 then winRead s (sealRights s .dbg) wide a else none) with
  | none => accEnd s dbgBadAddr
  | some v =>
    if s.dbg.op = 2 then accEnd (winWrite s .dbg wide a s.dbg.data) dbgOk
    else if s.dbg.op = 1 then accData (winTake s wide a) v
    else accData s v

def accCellar (s : State) : State :=
  let a := s.dbg.addr.toNat
  if !accFits s s.blk.build.cellar then accEnd s dbgBadAddr
  else
    let o := bankOwner s (a / 8 / bankWords)
    if o = 2 ∨ (o = 1 ∧ devRights s = false) then accEnd s dbgDenied
    else if !isWrite s then accWord s a (cellarWord s (a / 8))
    else if !tagAllowed s s.dbg.tag then accEnd s dbgRsv
    else if s.dbg.tag = 15 ∧ o = 0 then accEnd s dbgTag
    else accEnd { s with cellar := Table.put emptyW s.cellar (a / 8) (accNew s a (cellarWord s (a / 8))) } dbgOk

def accCask (s : State) : State :=
  let a := s.dbg.addr.toNat
  let p := s.dbg.unitNo.toNat
  if !accFits s 65536 || !pilotExists s p then accEnd s dbgBadAddr
  else
    let k := p * 8192 + a / 8
    let w := Table.get emptyW s.cask k
    if !isWrite s then accWord s a w
    else if !tagAllowed s s.dbg.tag then accEnd s dbgRsv
    else accEnd { s with cask := Table.put emptyW s.cask k (accNew s a w) } dbgOk

/-- An address of the code store is sealed code for some pilot of the cluster (R362). -/
def sealedCodeAt (s : State) (c a : Nat) : Bool :=
  (List.range 5).any (fun k => (pilot s (8 * c + k)).sealedCode (BitVec.ofNat 18 a))

def accCode (s : State) : State :=
  let a := s.dbg.addr.toNat
  let c := (s.dbg.unitNo.extractLsb' 0 4).toNat
  let k := c * 65536 + a / 4
  if !accFits s 262144 then accEnd s dbgBadAddr
  else if !devRights s && sealedCodeAt s c a then accEnd s dbgDenied
  else if isWrite s then
    let code := Table.put 0 s.code k (s.dbg.data.extractLsb' 0 32)
    let code := if s.dbg.width then Table.put 0 code (k + 1) (s.dbg.data.extractLsb' 32 32) else code
    accEnd { s with code := code } dbgOk
  else accData s ((if s.dbg.width then Table.get 0 s.code (k + 1) else 0) ++ Table.get 0 s.code k)

def accHmmem (s : State) : State :=
  let a := s.dbg.addr.toNat
  if !devRights s then accEnd s dbgDenied
  else if !accFits s 2097152 then accEnd s dbgBadAddr
  else if !isWrite s then accWord s a (hmWord s (a / 8))
  else if !tagAllowed s s.dbg.tag then accEnd s dbgRsv
  else accEnd (setHmWord s (a / 8) (accNew s a (hmWord s (a / 8)))) dbgOk

/-- The banks of a pilot; the Harbourmaster's processor has one context bank and the fast bank (R525). -/
def bankExists (p b : Nat) : Bool := if p = hmNo then decide (b = 0) || decide (b = 8) else decide (b ≤ 8)

/-- A control register as a debugger reads it: banked ones from bank `b`, TCn's SEAL fields by the debugger's rights. -/
def dbgCr (s : State) (p b n : Nat) : TWord :=
  if n = 2 then crRead s p n
  else
    let dev := devRights s
    let t := updPilot s p (fun x =>
      { x with cur := b, sw := if 0x129 ≤ n ∧ n ≤ 0x12F then { x.sw with world := dev } else x.sw })
    crRead t p n

/-- A control register's SEAL form is closed to the debugger (R7, R541). -/
def dbgCrSealed (s : State) (p n : Nat) (allSeal : Bool) : Bool :=
  !devRights s && (allSeal || (match saveLevel n with
    | some k => ((pilot s p).setOf k).tc.hw
    | none => false))

/-- Write control register `n` of pilot `p` in bank `b` as a supervisor, in the world of the debugger's rights (R541),
whatever the pilot's own world and privilege. -/
def dbgCrWrite (s : State) (p b n : Nat) (v : W64) : State :=
  let x := pilot s p
  let t := updPilot s p (fun x =>
    { x with cur := b, sw := { x.sw with priv := true, world := devRights s } })
  updPilot (crWrite t p n v) p (fun y =>
    { y with cur := x.cur, sw := { y.sw with priv := x.sw.priv, world := x.sw.world },
             win := { y.win with ck := x.win.ck.map (fun c =>
               let z := crWriteP { x.withCtx c with cur := b, sw := { c.sw with priv := true, world := devRights s } } n v
               ({ z with cur := c.cur, sw := { z.sw with priv := c.sw.priv, world := c.sw.world } } : Pilot).ctx) } })

/-- Half `h` of X register `h / 2`: the even half is the low one. -/
def xHalf (b : Bank) (h : Nat) : TWord :=
  let x := b.xreg (h / 2)
  ⟨if h % 2 = 0 then x.val.extractLsb' 0 64 else x.val.extractLsb' 64 64, x.tag⟩

def putXHalf (b : Bank) (h : Nat) (w : TWord) : Bank :=
  let x := b.xreg (h / 2)
  let v : BitVec 128 := if h % 2 = 0 then x.val.extractLsb' 64 64 ++ w.val else w.val ++ x.val.extractLsb' 0 64
  b.setX (h / 2) ⟨v, w.tag⟩

/-- A register of a pilot as its latest window close left it (R428, R542). -/
def accPregRead (s : State) (p b n : Nat) : State :=
  let v := updPilot s p Pilot.committed
  let k := (pilot v p).bankOf b
  if n < 0x20 then accWord s 0 (Table.get emptyW k.regs n)
  else if n < 0x28 then accWord s 0 (xHalf k (n - 0x20))
  else if n < 0x100 then accEnd s dbgBadAddr
  else
    let c := n - 0x100
    match crInfo c with
    | none => accEnd s dbgBadAddr
    | some (_, allSeal, _) =>
      if dbgCrSealed v p c allSeal then accWord s 0 (intW 0)
      else if c = 0x201 ∨ c = 0x204 then accWord s 0 (intW (crPeekTake v p c))
      else accWord s 0 (dbgCr v p b c)

def accPregWrite (s : State) (p b n : Nat) : State :=
  let x := pilot s p
  let k := x.bankOf b
  if n < 0x28 then
    if !tagAllowed s s.dbg.tag then accEnd s dbgRsv
    else if n < 0x20 then
      let w := accNew s 0 (Table.get emptyW k.regs n)
      accEnd (setPilot s p (x.both (fun y =>
        y.setBank b { y.bankOf b with regs := Table.put emptyW (y.bankOf b).regs n w }))) dbgOk
    else
      let w := accNew s 0 (xHalf k (n - 0x20))
      accEnd (setPilot s p (x.both (fun y => y.setBank b (putXHalf (y.bankOf b) (n - 0x20) w)))) dbgOk
  else if n < 0x100 then accEnd s dbgBadAddr
  else
    let c := n - 0x100
    match crInfo c with
    | none => accEnd s dbgBadAddr
    | some (_, allSeal, ok) =>
      if !tagAllowed s s.dbg.tag then accEnd s dbgRsv
      else if !ok s.dbg.tag then accEnd s dbgTag
      else if dbgCrSealed s p c allSeal then accEnd s dbgOk
      else accEnd (dbgCrWrite s p b c (putUnit s.dbg.width 0 (dbgCr s p b c).val s.dbg.data)) dbgOk

def accPreg (s : State) : State :=
  let p := s.dbg.unitNo.toNat
  let a := s.dbg.addr.toNat
  let b := a / 4096
  let x := pilot s p
  if !pilotExists s p || decide (65536 ≤ a) || !bankExists p b then accEnd s dbgBadAddr
  else if !isWrite s then accPregRead s p b (a % 4096)
  else if !x.atMonitor || decide (x.cur = b) then accEnd s dbgDenied
  else accPregWrite s p b (a % 4096)

def accTrace (s : State) : State :=
  let a := s.dbg.addr.toNat
  if !accFits s 262144 then accEnd s dbgBadAddr
  else if isWrite s then accEnd s dbgDenied
  else
    let w := Table.get 0 s.dbg.trace (a / 16)
    accData s (unitOf s.dbg.width a (if a % 16 < 8 then w.extractLsb' 0 64 else w.extractLsb' 64 64))

/-- One debug access with the fields that DBG.ACCC holds (R539 to R543). -/
def debugAccess (s : State) : State :=
  let d := s.dbg
  if s.hm.lc = 3 then accEnd s dbgDenied
  else if d.op = 3 ∨ d.space = 7 then accEnd s dbgRsv
  else
    match d.space.toNat with
    | 0 => accWindow s
    | 1 => accCellar s
    | 2 => accCask s
    | 3 => accCode s
    | 4 => accHmmem s
    | 5 => accPreg s
    | _ => accTrace s

/-- A write of DBG.ACCC from the control port, a pilot, the Harbourmaster or the TAP: GO runs the access, whole. -/
def acccWrite (s : State) (v : W32) : State :=
  let s := accFields s v
  if v.getLsbD 31 then debugAccess s else s

/-- The ACCC word of a row: GO set, OP as the row names it. -/
def acccRow (v : W32) (op : BitVec 2) : W32 := (v &&& 0x7FFFF3FF) ||| fl 31 true ||| fd 10 op

/-- DEBUG_PEEK (R540). -/
def execDebugPeek (v : BitVec 32) (s : State) : Out := .next (acccWrite s (acccRow v 0))

/-- DEBUG_TAKE (R540). -/
def execDebugTake (v : BitVec 32) (s : State) : Out := .next (acccWrite s (acccRow v 1))

/-- DEBUG_WRITE (R540, R541). -/
def execDebugWrite (v : BitVec 32) (s : State) : Out := .next (acccWrite s (acccRow v 2))

/-- EXT_REQUEST (R545, R546). -/
def execExtRequest (rq : Requester) (hi : Bool) (v : BitVec 64) (s : State) : Out :=
  .next (dbgWrite64 (ctlWake rq s) (if hi then 0x28 else 0x20) v (BitVec.allOnes 64))

/-- REMAP_WRITE (R555, R556): pilots of the model fetch each instruction at its issue, so that nothing fetched ahead is
left to discard. -/
def execRemapWrite (rq : Requester) (c k : Nat) (v : BitVec 32) (s : State) : Out :=
  .next (let s := ctlWake rq s
    if c < s.blk.build.clusters ∧ k < 8 then dbgWrite s (sealRights s rq) (0x1000 + 0x40 * c + 4 * k) v else s)

/-- SYNC_PACKET (R553): every 2^20 tt while trace is enabled. -/
def execSyncPacket (s : State) : Out :=
  .next (if s.dbg.ten then packet s hmNo 6 0 s.tide.count else s)

/-! The TAP (R544). -/

/-- The bits of a data register, in the order in which they leave on tap_tdo. -/
def tdoBits {w : Nat} (v : BitVec w) : List Bool := (List.range w).map (fun k => v.getLsbD k)

/-- An instruction is selected and its data register captured and shifted out. -/
def tapScan (s : State) (ir : BitVec 8) (bits : List Bool) : State :=
  emit { s with dbg := { s.dbg with ir := ir } } (.tdo bits)

/-- The identification code. -/
def idcodeWord : W32 := (1 : BitVec 4) ++ (0x0A51 : BitVec 16) ++ Config.idmfr ++ (1 : BitVec 1)

/-- IDCODE (R544). -/
def execIdcode (s : State) : Out := .next (tapScan s 0x01 (tdoBits idcodeWord))

/-- DADDR (R544): `shift` is the value at Update-DR. -/
def execDaddr (shift : Option (BitVec 64)) (s : State) : Out :=
  .next (let s := tapScan s 0x10 (tdoBits s.dbg.addr)
    match shift with
    | some v => { s with dbg := { s.dbg with addr := v } }
    | none => s)

/-- DCTRL (R544). -/
def execDctrl (shift : Option (BitVec 32)) (s : State) : Out :=
  .next (let s := tapScan s 0x11 (tdoBits (acccWord s.dbg))
    match shift with
    | some v => acccWrite s v
    | none => s)

/-- DDATA (R544). -/
def execDdata (shift : Option (BitVec 64)) (s : State) : Out :=
  .next (let s := tapScan s 0x12 (tdoBits s.dbg.data)
    match shift with
    | some v => { s with dbg := { s.dbg with data := v } }
    | none => s)

/-- BYPASS (R544). -/
def execBypass (s : State) : Out := .next (tapScan s 0xFF [false])

/-- TAP_RESET (R544). -/
def execTapReset (s : State) : Out := .next { s with dbg := { s.dbg with ir := 0x01 } }

end Sys2Proof.Machine
end

