-- ==== Sys2Proof/Machine/Regs.lean ====
section
/-! DEFINITION. Machine/Regs.lean: accesses to the control-register window as whole commands (R5, R573), the ring
registers' own commands, the frame windows' commands, and quay credit (R560). -/

namespace Sys2Proof.Machine

/-! The rings' registers. -/

/-- A write of register `off` of ring `n` by `rq`. -/
def ringAccess (rq : Requester) (n off : Nat) (v : W32) (s : State) : State :=
  let s := ctlWake rq s
  if n < s.blk.build.rings then ringRegWrite s n off v else s

/-- RING_ENABLE (R65, R70, R71). -/
def execRingEnable (rq : Requester) (n : Nat) (v : BitVec 32) (s : State) : Out := .next (ringAccess rq n 0x10 v s)

/-- RING_DISABLE (R73). -/
def execRingDisable (rq : Requester) (n : Nat) (v : BitVec 32) (s : State) : Out := .next (ringAccess rq n 0x10 v s)

/-- LTOL_WRITE (R103, R104). -/
def execLtolWrite (rq : Requester) (n : Nat) (v : BitVec 32) (s : State) : Out := .next (ringAccess rq n 0x1C v s)

/-! The window. -/

/-- The control port's wake: BLK, HBR, TIDE, BELL, PWR and HM are reached in drowse (R519). -/
def winWake (s : State) (rq : Requester) (off : Nat) : State :=
  let r := (regionOf off).1
  if r = 0 ∨ r = 1 ∨ r = 2 ∨ r = 4 ∨ r = 5 then s else ctlWake rq s

/-- What the control port sees of an access (R573). -/
def ctlAnswer (s : State) (rq : Requester) (err : Bool) (v : W64) : State :=
  match rq with
  | .ctl => { s with ctlErr := err, ctlRdat := if err then 0 else v }
  | _ => s

/-- The offset of DBG.ACCC. -/
def acccOff : Nat := 0x60008

/-- A write of the window: the one of DBG.ACCC starts a debug access (R539). -/
def winStore (s : State) (rq : Requester) (wide : Bool) (off : Nat) (v : W64) : State :=
  if off = acccOff ∧ wide = false then acccWrite s (v.extractLsb' 0 32) else winWrite s rq wide off v

/-- REGISTER_WRITE (R5 to R8, R573): a misaligned or undecoded access writes nothing. -/
def execRegisterWrite (rq : Requester) (wide : Bool) (off : BitVec 27) (v : BitVec 64) (s : State) : Out :=
  .next (
    let a := off.toNat
    let s := winWake s rq a
    match winRead s (sealRights s rq) wide a with
    | none => ctlAnswer s rq true 0
    | some _ => ctlAnswer (winStore s rq wide a v) rq false 0)

/-- REGISTER_TAKE (R5, R573). -/
def execRegisterTake (rq : Requester) (wide : Bool) (off : BitVec 27) (s : State) : Out :=
  .next (
    let a := off.toNat
    let s := winWake s rq a
    match winRead s (sealRights s rq) wide a with
    | none => ctlAnswer s rq true 0
    | some v => ctlAnswer (winTake s wide a) rq false v)

/-! Frame windows and the quay. -/

/-- FSTAT_TAKE (R569). -/
def execFstatTake (rq : Requester) (port slot : Nat) (s : State) : Out :=
  .next (
    if s.blk.build.ports ≤ port ∨ 3 ≤ slot then s
    else
      let s := ctlWake rq s
      ctlAnswer (fstatRemove s port slot) rq false (fstatWord ((fwinOf s port).queue slot)))

/-- FTX_GO (R570). -/
def execFtxGo (rq : Requester) (port : Nat) (v : BitVec 64) (s : State) : Out :=
  .next (
    if s.blk.build.ports ≤ port then s
    else ctlAnswer (ftxWrite (ctlWake rq s) port (v ||| fl64 ftxGoBit true) (BitVec.allOnes 64)) rq false 0)

/-- QUAY_CREDIT_RETURN (R560): ports 0 to 3 are landward, 4 to 7 dock, 8 to 11 seaward; the block holds at most 4,095
beats of credit on a lane. -/
def execQuayCreditReturn (port : Nat) (lane : BitVec 3) (cnt : BitVec 4) (s : State) : Out :=
  .next (
    if 12 ≤ port ∨ s.blk.build.noPort port = true then s
    else
      let k := 8 * port + lane.toNat
      let q := Table.get {} s.qtx k
      pumpQuay q.wait.length
        { s with qtx := Table.put {} s.qtx k { q with credit := Nat.min 4095 (q.credit + cnt.toNat) } } k)

end Sys2Proof.Machine
end

