-- ==== Sys2Proof/Machine/PilotMem.lean ====
section
/-! DEFINITION. Machine/PilotMem.lean: the pilot's address spaces (R314, R316), loads and stores, the data stack (R334 to R337), the return stack's spill (R381), and contexts (R356). -/

namespace Sys2Proof.Machine

/-! The address spaces. -/

def aSpace (a : W64) : Nat := (a.extractLsb' 60 4).toNat
def aOff (a : W64) : Nat := (a.extractLsb' 0 60).toNat

/-- The requester that a pilot's window access is (R5, R337). -/
def pilotRq (p : Nat) (world : Bool) : Requester := if p = hmNo then .hm else .pilot p world

/-- The cellar bank of an offset may be reached from this world (R255). -/
def celReach (s : State) (world : Bool) (off : Nat) : Bool :=
  let o := bankOwner s (off / 8 / bankWords)
  decide (o = 0) || (world && decide (o = 1))

/-- What a window read of `n` bytes at an offset gives: narrow loads read the 32-bit register that holds their
bytes (R337). -/
def winLoad (s : State) (p : Nat) (world : Bool) (off n : Nat) : Option W64 :=
  let rt := sealRights s (pilotRq p world)
  if n = 8 then winRead s rt true off
  else (winRead s rt false (off / 4 * 4)).map (fun (v : W64) => v >>> (8 * (off % 4)))

/-- A load of `n` bytes from `a` may be made (R314, R316). -/
def loadable (s : State) (p : Nat) (world : Bool) (a : W64) (n : Nat) : Bool :=
  match aSpace a with
  | 0 => decide (aOff a < 65536)
  | 1 => decide (aOff a < s.blk.build.cellar) && celReach s world (aOff a)
  | 2 => decide (aOff a < 0x8000000) && (winLoad s p world (aOff a) n).isSome
  | 3 => decide (aOff a < 2 ^ 44) && (bayOf s (aOff a / 4096)).bound
  | _ => false

/-- A store of `n` bytes to `a` may be made: no store to STAGE, and no window register is narrower than 4 bytes
(R314, R316, R337). -/
def storable (s : State) (p : Nat) (world : Bool) (a : W64) (n : Nat) : Bool :=
  match aSpace a with
  | 0 => loadable s p world a n
  | 1 => loadable s p world a n
  | 2 => decide (4 ≤ n) && loadable s p world a n
  | _ => false

/-- The word of memory that holds `a`, or the register value that a window load gives, tagged INT (R337). -/
def memWord (s : State) (p : Nat) (world : Bool) (a : W64) (n : Nat) : TWord :=
  let off := aOff a
  match aSpace a with
  | 0 => seenWord s p false (p * 8192 + off / 8)
  | 1 => seenWord s p true (off / 8)
  | 2 => intW ((winLoad s p world off n).getD 0 <<< (8 * (if n = 8 then 0 else off % 8)))
  | _ => ⟨BitVec.ofNat 64 (leNat (getStage s (off / 8 * 8) 8)), 2⟩

/-- Write a whole word of CASK or CELLAR: it waits in the commit buffer (R430). -/
def putWord (s : State) (p : Nat) (a : W64) (w : TWord) : State :=
  pendStore s p (if aSpace a = 0 then ⟨false, p * 8192 + aOff a / 8, w⟩ else ⟨true, aOff a / 8, w⟩)

/-- The `n` bytes of a word at address `a`, zero-extended. -/
def subVal (v a : W64) (n : Nat) : W64 :=
  (v >>> (8 * (a.toNat % 8))) &&& (BitVec.allOnes 64 >>> (64 - 8 * n))

/-- A word with `n` bytes at address `a` replaced. -/
def putSub (old v a : W64) (n : Nat) : W64 :=
  let m := (BitVec.allOnes 64 >>> (64 - 8 * n)) <<< (8 * (a.toNat % 8))
  (old &&& ~~~m) ||| ((v <<< (8 * (a.toNat % 8))) &&& m)

/-- How one access ends: made, with the word moved; a trap; or stopped by a watchpoint. -/
inductive Acc where
  | ok (s : State) (w : TWord)
  | trap (code : BitVec 4) (tv : W64)
  | hit (c : Access)
deriving DecidableEq, Repr

/-- The access `c` after its checks, made as `k` says unless a watchpoint stops it. -/
def guarded (s : State) (p : Nat) (pc : BitVec 18) (c : Access) (k : State → Acc) : Acc :=
  match watch s p pc c with
  | (_, true) => .hit c
  | (s, false) => k s

/-- A tag that a 64-bit load may move: any but those that trap as an operand (R308). -/
def loadTag (world : Bool) (t : BitVec 4) : Bool := tagReadable t world

/-- A tag that a copying instruction may read: any, but SEAL only in the sealed world (R308). -/
def copyTag (world : Bool) (t : BitVec 4) : Bool := world || decide (t ≠ 15)

/-- A tag that sub-word accesses read (R335). -/
def subTag (t : BitVec 4) : Bool := decide (t = 1) || decide (t = 2) || decide (t = 3)

/-- A load of `n` bytes (R334, R335): ALN, MEM, the word's tag, then the watchpoints.  A whole word comes with its
tag; fewer bytes come as INT. -/
def loadMem (s : State) (p : Nat) (pc : BitVec 18) (a : W64) (n : Nat) (tags : BitVec 4 → Bool) : Acc :=
  let world := (pilot s p).sw.world
  if a.toNat % n ≠ 0 then .trap 5 a
  else if loadable s p world a n = false then .trap 6 a
  else
    let w := memWord s p world a n
    if tags w.tag = false then .trap 4 (tagTv w.tag 3)
    else
      let r : TWord := if n = 8 then w else intW (subVal w.val a n)
      guarded s p pc ⟨a, n, false, r.val⟩ (fun s => .ok s r)

/-- The address lies in an OPEN cellar bank. -/
def inOpenBank (s : State) (a : W64) : Bool :=
  decide (aSpace a = 1) && decide (aOff a < s.blk.build.cellar) && decide (bankOwner s (aOff a / 8 / bankWords) = 0)

/-- The tag of a stored word is wrong for its destination: SEAL into an OPEN bank (R255), or other than INT and BITS
into the window (R337). -/
def storeTagBad (s : State) (a : W64) (t : BitVec 4) : Bool :=
  (decide (t = 15) && inOpenBank s a) || (decide (aSpace a = 2) && !isIntBits t)

/-- A store of `n` bytes of `w`, operand number `num` (R334 to R337): the operand's tag, ALN, MEM, the memory word's
tag, then the watchpoints. -/
def storeMem (s : State) (p : Nat) (pc : BitVec 18) (a : W64) (n : Nat) (w : TWord) (num : BitVec 2) : Acc :=
  let world := (pilot s p).sw.world
  if storeTagBad s a w.tag then .trap 4 (tagTv w.tag num)
  else if a.toNat % n ≠ 0 then .trap 5 a
  else if storable s p world a n = false then .trap 6 a
  else if aSpace a = 2 then
    guarded s p pc ⟨a, n, true, subVal w.val 0 n⟩ (fun s =>
      .ok (winStore s (pilotRq p world) (decide (n = 8)) (aOff a) (subVal w.val 0 n)) w)
  else
    let old := memWord s p world a n
    if n ≠ 8 ∧ subTag old.tag = false ∧ old.tag ≠ 0 then .trap 4 (tagTv old.tag 3)
    else
      let new : TWord := if n = 8 then w else ⟨putSub (if old.tag = 0 then 0 else old.val) w.val a n, 2⟩
      guarded s p pc ⟨a, n, true, subVal w.val 0 n⟩ (fun s => .ok (putWord s p a new) w)

/-- An instruction's answer from its one access. -/
def Acc.answer (r : Acc) (s : State) (p : Nat) (pc : BitVec 18) (k : State → TWord → State) : PRes :=
  match r with
  | .ok s' w => .done (k s' w)
  | .trap c tv => .trap c tv s
  | .hit c => .stop (watch s p pc c).1

/-! Loads and stores (R334, R335). -/

/-- A load into register `d`. -/
def loadTo (s : State) (p : Nat) (pc : BitVec 18) (d : BitVec 5) (a : W64) (n : Nat) : PRes :=
  let world := (pilot s p).sw.world
  (loadMem s p pc a n (if n = 8 then loadTag world else subTag)).answer s p pc (fun s w =>
    updPilot s p (fun x => x.wr d w))

/-- LD and LDL: base plus displacement. -/
def ldBody (p : Nat) (d b : BitVec 5) (disp : W64) (x : Pilot) (pc : BitVec 18) (s : State) : PRes :=
  match tagFail x.sw.world [(x.reg b, 0, isAddr)] with
  | some tv => .trap 4 tv s
  | none => loadTo s p pc d (addrAdd (x.reg b).val disp) 8

/-- ST and STL. -/
def stBody (p : Nat) (d b : BitVec 5) (disp : W64) (x : Pilot) (pc : BitVec 18) (s : State) : PRes :=
  match tagFail x.sw.world [(x.reg b, 0, isAddr), (x.reg d, 2, anyTag)] with
  | some tv => .trap 4 tv s
  | none => (storeMem s p pc (addrAdd (x.reg b).val disp) 8 (x.reg d) 2).answer s p pc (fun s _ => s)

/-- Indexed loads. -/
def ldxBody (n : Nat) (f : RRR) (x : Pilot) (pc : BitVec 18) (s : State) : PRes :=
  match tagFail x.sw.world [(x.reg f.s, 0, isAddr), (x.reg f.t, 1, isInt)] with
  | some tv => .trap 4 tv s
  | none => loadTo s f.p pc f.d (addrAdd (x.reg f.s).val (x.reg f.t).val) n

/-- Indexed stores. -/
def stxBody (n : Nat) (f : RRR) (x : Pilot) (pc : BitVec 18) (s : State) : PRes :=
  match tagFail x.sw.world [(x.reg f.s, 0, isAddr), (x.reg f.t, 1, isInt), (x.reg f.d, 2, anyTag)] with
  | some tv => .trap 4 tv s
  | none =>
    (storeMem s f.p pc (addrAdd (x.reg f.s).val (x.reg f.t).val) n (x.reg f.d) 2).answer s f.p pc (fun s _ => s)

/-- The displacement of LD and ST: words. -/
def wordDisp (i : BitVec 12) : W64 := i.signExtend 64 <<< 3

def execLd (f : RRI) (s : State) : Out :=
  .next (rri f 0x0C (isA f.s) s (ldBody f.p f.d f.s (wordDisp f.imm)))

def execSt (f : RRI) (s : State) : Out :=
  .next (rri f 0x0D (isA f.s) s (stBody f.p f.d f.s (wordDisp f.imm)))

/-- LEA (R314, R334): s is ADDR or CODE. -/
def execLea (f : RRI) (s : State) : Out :=
  .next (rri f 0x0F true s (fun x _ s =>
    let a := x.reg f.s
    match tagFail x.sw.world [(a, 0, fun t => isAddr t || isCode t)] with
    | some tv => .trap 4 tv s
    | none =>
      let i : W64 := f.imm.signExtend 64
      let v := if a.tag = 4 then addrAdd a.val i else a.val + i
      .done (updPilot s f.p (fun x => x.wr f.d ⟨v, a.tag⟩))))

def ixOk (f : RRR) : Bool := isA f.s && isD f.t
def ixOkD (f : RRR) : Bool := isD f.d && isA f.s && isD f.t

def execLdx (f : RRR) (s : State) : Out := .next (rrr f 0x0E 0 (ixOk f) false s (ldxBody 8 f))
def execStx (f : RRR) (s : State) : Out := .next (rrr f 0x0E 1 (ixOk f) false s (stxBody 8 f))
def execLdu8 (f : RRR) (s : State) : Out := .next (rrr f 0x0E 2 (ixOkD f) false s (ldxBody 1 f))
def execLdu16 (f : RRR) (s : State) : Out := .next (rrr f 0x0E 3 (ixOkD f) false s (ldxBody 2 f))
def execLdu32 (f : RRR) (s : State) : Out := .next (rrr f 0x0E 4 (ixOkD f) false s (ldxBody 4 f))
def execSt8 (f : RRR) (s : State) : Out := .next (rrr f 0x0E 5 (ixOkD f) false s (stxBody 1 f))
def execSt16 (f : RRR) (s : State) : Out := .next (rrr f 0x0E 6 (ixOkD f) false s (stxBody 2 f))
def execSt32 (f : RRR) (s : State) : Out := .next (rrr f 0x0E 7 (ixOkD f) false s (stxBody 4 f))

/-- LDT (R334, R337): as LDX, and a window access is a take. -/
def ldtBody (f : RRR) (x : Pilot) (pc : BitVec 18) (s : State) : PRes :=
  match tagFail x.sw.world [(x.reg f.s, 0, isAddr), (x.reg f.t, 1, isInt)] with
  | some tv => .trap 4 tv s
  | none =>
    let a := addrAdd (x.reg f.s).val (x.reg f.t).val
    (loadMem s f.p pc a 8 (loadTag x.sw.world)).answer s f.p pc (fun s w =>
      updPilot (if aSpace a = 2 then winTake s true (aOff a) else s) f.p (fun x => x.wr f.d w))

def execLdt (f : RRR) (s : State) : Out := .next (rrr f 0x0E 8 (ixOkD f) false s (ldtBody f))

def execLdl (f : LF) (s : State) : Out :=
  .next (lform f 0x33 (isA f.s) s (ldBody f.p f.d f.s (f.imm.signExtend 64)))

def execStl (f : LF) (s : State) : Out :=
  .next (lform f 0x34 (isA f.s) s (stBody f.p f.d f.s (f.imm.signExtend 64)))

/-! The data stack (R336). -/

/-- A stack's address lies in CASK or CELLAR. -/
def inStore (a : W64) : Bool := decide (aSpace a = 0) || decide (aSpace a = 1)

/-- PUSH. -/
def pushBody (f : RRR) (x : Pilot) (pc : BitVec 18) (s : State) : PRes :=
  let v := x.reg f.s
  match tagFail x.sw.world [(v, 0, anyTag), (x.reg 31, 2, isAddr)] with
  | some tv => .trap 4 tv s
  | none =>
    let a := addrSub (x.reg 31).val 8
    let lim := x.bankCur.dslim
    if storeTagBad s a v.tag then .trap 4 (tagTv v.tag 0) s
    else if a.toNat % 8 ≠ 0 then .trap 5 a s
    else if inStore a = false ∨ (lim.tag ≠ 0 ∧ a < lim.val) then .trap 6 a s
    else
      (storeMem s f.p pc a 8 v 0).answer s f.p pc (fun s _ => updPilot s f.p (fun x => x.wr 31 ⟨a, 4⟩))

def execPush (f : RRR) (s : State) : Out :=
  .next (rrr f 0x0E 9 (decide (f.d = 0) && isD f.s && decide (f.t = 0)) false s (pushBody f))

/-- POP. -/
def popBody (f : RRR) (x : Pilot) (pc : BitVec 18) (s : State) : PRes :=
  match tagFail x.sw.world [(x.reg 31, 2, isAddr)] with
  | some tv => .trap 4 tv s
  | none =>
    let a := (x.reg 31).val
    if a.toNat % 8 ≠ 0 then .trap 5 a s
    else if inStore a = false then .trap 6 a s
    else
      (loadMem s f.p pc a 8 (loadTag x.sw.world)).answer s f.p pc (fun s w =>
        updPilot s f.p (fun x => (x.wr f.d w).wr 31 ⟨addrAdd a 8, 4⟩))

def execPop (f : RRR) (s : State) : Out :=
  .next (rrr f 0x0E 0x0A (isD f.d && decide (f.s = 0) && decide (f.t = 0)) false s (popBody f))

/-! Runs of words, made or refused as a whole. -/

/-- Store words at consecutive addresses, each a listed offset in words from `a`. -/
def storeAll (p : Nat) (pc : BitVec 18) (a : W64) (tags : BitVec 4 → Bool) : State → List (Nat × TWord) → Acc
  | s, [] => .ok s emptyW
  | s, (k, w) :: ws =>
    if tags w.tag = false then .trap 4 (tagTv w.tag 3)
    else
      match storeMem s p pc (addrAdd a (BitVec.ofNat 64 (8 * k))) 8 w 3 with
      | .ok s _ => storeAll p pc a tags s ws
      | r => r

/-- How a run of loads ends: the state and the words, or as one access ends. -/
inductive Accs where
  | ok (s : State) (ws : List TWord)
  | bad (r : Acc)
deriving DecidableEq, Repr

/-- Load `n` words from `a` on, `step` bytes apart. -/
def loadAll (p : Nat) (pc : BitVec 18) (step : W64) (tags : BitVec 4 → Bool) : Nat → State → W64 → Accs
  | 0, s, _ => .ok s []
  | n + 1, s, a =>
    match loadMem s p pc a 8 tags with
    | .ok s w =>
      match loadAll p pc step tags n s (addrAdd a step) with
      | .ok s ws => .ok s (w :: ws)
      | r => r
    | r => .bad r

/-- The pilot with no watchpoint armed: what an instruction's accesses would do but for them. -/
def quiet (s : State) (p : Nat) : State :=
  updPilot s p (fun x => { x with dbg := { x.dbg with exempt := true } })

/-- `storeAll`, with a trap of any word before a watchpoint on another (R549). -/
def storeRun (p : Nat) (pc : BitVec 18) (a : W64) (tags : BitVec 4 → Bool) (s : State) (ws : List (Nat × TWord)) : Acc :=
  match storeAll p pc a tags (quiet s p) ws with
  | .trap c tv => .trap c tv
  | _ => storeAll p pc a tags s ws

/-- `loadAll`, with a trap of any word before a watchpoint on another (R549). -/
def loadRun (p : Nat) (pc : BitVec 18) (step : W64) (tags : BitVec 4 → Bool) (n : Nat) (s : State) (a : W64) : Accs :=
  match loadAll p pc step tags n (quiet s p) a with
  | .bad (.trap c tv) => .bad (.trap c tv)
  | _ => loadAll p pc step tags n s a

/-! The spill area of the return stack (R381). -/

/-- The checks that RSSPILL and RSFILL share after RSV: privilege (R361), the count's tag, and RSP. -/
def spillChecks (f : RRR) (fn : BitVec 7) (k : Nat) (x : Pilot) (s : State) (a : W64) (body : PRes) : PRes :=
  if x.sw.priv = false then .trap 2 ((rrrWord f 0x12 fn).setWidth 64) s
  else
    match tagFail x.sw.world [(x.reg f.s, 0, isInt)] with
    | some tv => .trap 4 tv s
    | none =>
      if k = 0 then .done s
      else
        match tagFail x.sw.world [(x.bankCur.rsp, 2, isAddr)] with
        | some tv => .trap 4 tv s
        | none =>
          if a.toNat % 8 ≠ 0 then .trap 5 a s
          else if inStore a = false then .trap 6 a s
          else body

/-- RSSPILL: the oldest entries go to memory, the oldest lowest. -/
def rsspillBody (f : RRR) (x : Pilot) (pc : BitVec 18) (s : State) : PRes :=
  let b := x.bankCur
  let k := ((x.reg f.s).val.extractLsb' 0 6).toNat
  let a := b.rsp.val
  let ws := ((List.range k).zip (b.rcache.reverse.take k)).map (fun (e : Nat × BitVec 18) =>
    (e.1, (⟨e.2.setWidth 64, 5⟩ : TWord)))
  if b.rcache.length < k then .trap 1 ((rrrWord f 0x12 3).setWidth 64) s
  else
    spillChecks f 3 k x s a
      ((storeRun f.p pc a anyTag s ws).answer s f.p pc (fun s _ => updPilot s f.p (fun x =>
        let b := x.bankCur
        x.setCur { b with rcache := b.rcache.take (b.rcache.length - k), spilled := b.spilled + k,
                          rsp := ⟨addrAdd a (BitVec.ofNat 64 (8 * k)), 4⟩ })))

def execRsspill (f : RRR) (s : State) : Out :=
  .next (rrr f 0x12 3 (decide (f.d = 0) && isD f.s && decide (f.t = 0)) false s (rsspillBody f))

/-- RSFILL: the newest spilled entries go below the cache's oldest. -/
def rsfillBody (f : RRR) (x : Pilot) (pc : BitVec 18) (s : State) : PRes :=
  let b := x.bankCur
  let k := ((x.reg f.s).val.extractLsb' 0 6).toNat
  let a := addrSub b.rsp.val 8
  if b.spilled < k ∨ 32 < b.rcache.length + k then .trap 1 ((rrrWord f 0x12 4).setWidth 64) s
  else
    spillChecks f 4 k x s a
      (match loadRun f.p pc (0 - 8) isCode k s a with
       | .bad r => r.answer s f.p pc (fun s _ => s)
       | .ok s ws => .done (updPilot s f.p (fun x =>
          let b := x.bankCur
          x.setCur { b with rcache := b.rcache ++ ws.map (fun w => w.val.setWidth 18), spilled := b.spilled - k,
                            rsp := ⟨addrSub b.rsp.val (BitVec.ofNat 64 (8 * k)), 4⟩ })))

def execRsfill (f : RRR) (s : State) : Out :=
  .next (rrr f 0x12 4 (decide (f.d = 0) && isD f.s && decide (f.t = 0)) false s (rsfillBody f))

/-! Contexts (R356). -/

/-- The words of a bank's save area with their places, group by group; loops and counts carry the tags that MFC gives
them. -/
def Bank.saveWords (b : Bank) : List (Nat × TWord) :=
  let on := fun (k : Nat) => b.dirty.getLsbD k
  let regs := fun (o n : Nat) => (List.range n).map (fun k => (o + k + 1, Table.get emptyW b.regs (o + k)))
  (if on 0 then regs 0 16 else []) ++ (if on 1 then regs 16 16 else []) ++
  (if on 2 then (List.range 4).flatMap (fun k =>
    [(33 + 2 * k, (⟨(b.xreg k).val.extractLsb' 0 64, (b.xreg k).tag⟩ : TWord)),
     (34 + 2 * k, ⟨(b.xreg k).val.extractLsb' 64 64, (b.xreg k).tag⟩)]) else []) ++
  (if on 3 then
    (List.range 4).map (fun k => (41 + k, (⟨(b.loop k).ls.setWidth 64, 5⟩ : TWord))) ++
    (List.range 4).map (fun k => (45 + k, (⟨(b.loop k).le.setWidth 64, 5⟩ : TWord))) ++
    (List.range 4).map (fun k => (49 + k, intW ((b.loop k).lc.setWidth 64))) ++
    [(53, intW (b.lstat.setWidth 64))] else []) ++
  (if on 4 then [(54, b.mh), (55, b.ml)] else [])

/-- A bank with the 55 words of a save area after word 0. -/
def Bank.loadWords (b : Bank) (ws : List TWord) : Bank :=
  let w := fun (k : Nat) => ws.getD (k - 1) emptyW
  let xs := (List.range 4).map (fun k => (⟨(w (34 + 2 * k)).val ++ (w (33 + 2 * k)).val, (w (33 + 2 * k)).tag⟩ : XReg))
  let st := (w 53).val
  let ls := (List.range 4).map (fun k =>
    (⟨(w (41 + k)).val.setWidth 18, (w (45 + k)).val.setWidth 18, (w (49 + k)).val.setWidth 32,
      st.extractLsb' (4 + 3 * k) 3⟩ : LoopR))
  { b with regs := Table.putList emptyW [] 0 (ws.take 32), x := Table.putList {} [] 0 xs,
           loops := Table.putList {} [] 0 ls, act := st.setWidth 4, mh := w 54, ml := w 55, dirty := 0 }

/-- CTXSV and CTXLD: RSV for the bank number, PRIV, TAG, then the area's alignment and space. -/
def ctxBody (fn : BitVec 7) (f : RRR) (s : State) (body : Pilot → Nat → W64 → State → PRes) : PRes :=
  let s0 := updPilot s f.p Pilot.drain
  let x := pilot s0 f.p
  let k := ((x.reg f.t).val.extractLsb' 0 4).toNat
  let a := (x.reg f.s).val
  let w : W64 := (rrrWord f 0x17 fn).setWidth 64
  if 8 ≤ k ∨ k = x.cur then .trap 1 w s
  else if x.sw.priv = false then .trap 2 w s
  else
    match tagFail x.sw.world [(x.reg f.s, 0, isAddr), (x.reg f.t, 1, isInt)] with
    | some tv => .trap 4 tv s
    | none =>
      if a.toNat % 64 ≠ 0 then .trap 5 a s
      else if inStore a = false then .trap 6 a s
      else body x k a s0

/-- CTXSV: word 0 and the words of the dirty groups. -/
def ctxsvBody (f : RRR) (pc : BitVec 18) (s : State) : PRes :=
  ctxBody 6 f s (fun x k a s =>
    let b := x.bankOf k
    let ws := (0, intW (b.dirty.setWidth 64)) :: b.saveWords
    (storeRun f.p pc a (copyTag x.sw.world) s ws).answer s f.p pc (fun s _ =>
      updPilot s f.p (fun x => x.setBank k { x.bankOf k with dirty := 0 })))

def execCtxsv (f : RRR) (s : State) : Out :=
  .next (rrr f 0x17 6 (decide (f.d = 0) && isA f.s && isD f.t) false s (fun _ pc s => ctxsvBody f pc s))

/-- CTXLD: every group. -/
def ctxldBody (f : RRR) (pc : BitVec 18) (s : State) : PRes :=
  ctxBody 7 f s (fun x k a s =>
    match loadRun f.p pc 8 (copyTag x.sw.world) 55 s (addrAdd a 8) with
    | .bad r => r.answer s f.p pc (fun s _ => s)
    | .ok s ws => .done (updPilot s f.p (fun x => x.setBank k ((x.bankOf k).loadWords ws))))

def execCtxld (f : RRR) (s : State) : Out :=
  .next (rrr f 0x17 7 (decide (f.d = 0) && isA f.s && isD f.t) false s (fun _ pc s => ctxldBody f pc s))

end Sys2Proof.Machine
end

