-- ==== Sys2Proof/Machine/PilotLong.lean ====
section
/-! DEFINITION. Machine/PilotLong.lean: the long instructions BMOVE, KSRCH, DADDM, DSUBM and DMULM (R331, R344 to
R348); MSCAN is in Machine/Manifest.lean. -/

namespace Sys2Proof.Machine

/-- A long instruction under way: the state, the next unit, a carry, borrow or match, and NZ. -/
structure Long where
  s : State
  i : Nat
  c : Bool := false
  nz : Bool := false
deriving DecidableEq, Repr

/-- How one unit ends. -/
inductive LStep where
  | ok (l : Long)
  | bad (r : Acc)
deriving DecidableEq, Repr

/-- How the instruction ends: complete, or with its answer. -/
inductive LEnd where
  | fin (l : Long)
  | ended (r : PRes)
deriving DecidableEq, Repr

/-- What a long instruction does: one unit, whether units are left, whether a restart point follows a unit (R344), and
CX there. -/
structure LongOp where
  unit : Long → LStep
  more : Long → Bool
  restart : Long → Bool
  cx : Long → W64

/-- A restart point: the window is committed, CX records it, and the exemption of R548 ends. -/
def restartPoint (s : State) (p : Nat) (cx : W64) : State :=
  updPilot s p (fun x => { x with cx := cx, dbg := { x.dbg with exempt := false } })

/-- Units up to the end, a trap, a watchpoint, or the restart point where an event is delivered (`left`, R346).
`base` is the state at the last restart point; `fuel` is at least the units left. -/
def longLoop (p : Nat) (pc : BitVec 18) (o : LongOp) : Nat → State → Long → Option Nat → LEnd
  | 0, _, l, _ => .fin l
  | fuel + 1, base, l, left =>
    if o.more l = false then .fin l
    else
      let r : LStep := match o.unit { l with s := quiet l.s p } with
        | .bad (.trap c tv) => .bad (.trap c tv)
        | _ => o.unit l
      match r with
      | .bad (.trap c tv) => .ended (.trap c tv base)
      | .bad (.hit c) => .ended (.stop (watch base p pc c).1)
      | .bad (.ok _ _) => .ended (.stop base)
      | .ok l =>
        if o.more l && o.restart l then
          let s := restartPoint l.s p (o.cx l)
          if left = some 1 then .ended (.stop (updPilot s p (fun x => { x with pc := pc })))
          else longLoop p pc o fuel s { l with s := s } (left.map (· - 1))
        else longLoop p pc o fuel base l left

/-- A long instruction from its start or from CX (R345); `upto` is the restart point, counted from 1, where an event
is delivered. -/
def runLong (p : Nat) (pc : BitVec 18) (o : LongOp) (n : Nat) (l : Long) (upto : Option Nat) (k : Long → PRes) : PRes :=
  if upto = some 0 then .stop (updPilot l.s p (fun x => { x with pc := pc }))
  else
    match longLoop p pc o (n + 1) l.s l upto with
    | .ended r => r
    | .fin l => k { l with s := updPilot l.s p (fun x => { x with cx := 0 }) }

def cxKind (x : Pilot) : Nat := (x.cx.extractLsb' 60 4).toNat

/-- Another instruction's progress in CX (R345). -/
def cxForeign (x : Pilot) (kind : Nat) : Bool := decide (cxKind x ≠ 0) && decide (cxKind x ≠ kind)

/-- The first operand address that is misaligned, or outside the spaces allowed, in the order s, d (R320). -/
def longAddrs (s d : W64) (sOk dOk : Nat → Bool) : Option (BitVec 4 × W64) :=
  if s.toNat % 8 ≠ 0 then some (5, s)
  else if d.toNat % 8 ≠ 0 then some (5, d)
  else if sOk (aSpace s) = false then some (6, s)
  else if dOk (aSpace d) = false then some (6, d)
  else none

def caskCellar (n : Nat) : Bool := decide (n = 0) || decide (n = 1)

/-- Word `i` of an operand. -/
def wordAt (a : W64) (i : Nat) : W64 := addrAdd a (BitVec.ofNat 64 (8 * i))

/-! BMOVE (R347). -/

/-- One word: value and tag together. -/
def bmoveUnit (p : Nat) (pc : BitVec 18) (src dst : W64) (l : Long) : LStep :=
  match loadMem l.s p pc (wordAt src l.i) 8 (copyTag (pilot l.s p).sw.world) with
  | .ok s w =>
    match storeMem s p pc (wordAt dst l.i) 8 w 3 with
    | .ok s _ => .ok { l with s := s, i := l.i + 1 }
    | r => .bad r
  | r => .bad r

def bmoveOp (p : Nat) (pc : BitVec 18) (src dst : W64) (n : Nat) : LongOp where
  unit := bmoveUnit p pc src dst
  more := fun l => decide (l.i < n)
  restart := fun l => decide (l.i % 8 = 0)
  cx := fun l => (1 : BitVec 4) ++ BitVec.ofNat 60 l.i

def bmoveBody (f : RRR) (upto : Option Nat) (x : Pilot) (pc : BitVec 18) (s : State) : PRes :=
  let src := (x.reg f.s).val
  let dst := (x.reg f.d).val
  let n := ((x.reg f.t).val.extractLsb' 0 20).toNat
  if cxForeign x 1 then .trap 1 ((rrrWord f 0x14 0).setWidth 64) s
  else
    match tagFail x.sw.world [(x.reg f.s, 0, isAddr), (x.reg f.t, 1, isInt), (x.reg f.d, 2, isAddr)] with
    | some tv => .trap 4 tv s
    | none =>
      match (if n = 0 then none else longAddrs src dst (fun k => caskCellar k || decide (k = 3)) caskCellar) with
      | some (c, a) => .trap c a s
      | none =>
        let i := if cxKind x = 1 then (x.cx.extractLsb' 0 20).toNat else 0
        runLong f.p pc (bmoveOp f.p pc src dst n) n { s := s, i := i } upto (fun l => .done l.s)

def execBmove (f : RRR) (upto : Option Nat) (s : State) : Out :=
  .next (rrr f 0x14 0 (isA f.d && isA f.s && isD f.t) false s (bmoveBody f upto))

/-! KSRCH (R348). -/

/-- The operand word of KSRCH: key offset, blocks, offset in a block, key length, block bytes. -/
structure KeyQ where
  key : Nat
  blocks : Nat
  off : Nat
  len : Nat
  size : Nat
deriving DecidableEq, Repr

def keyQ (v : W64) : KeyQ :=
  ⟨(v.extractLsb' 48 16).toNat, (v.extractLsb' 32 16).toNat, (v.extractLsb' 20 12).toNat, (v.extractLsb' 13 7).toNat,
   if v.getLsbD 12 then 4096 else 512⟩

/-- The operand values that trap RSV. -/
def KeyQ.bad (q : KeyQ) (v : W64) : Bool :=
  decide (q.len = 0) || decide (q.blocks = 0) || decide (64 < q.len) || decide (q.size < q.off + q.len) ||
    decide (v.extractLsb' 0 12 ≠ 0)

/-- The cask words that hold the key: the accesses that read it, or the trap (R308, R316). -/
def keyWords (s : State) (p : Nat) (q : KeyQ) (world : Bool) : (BitVec 4 × W64) ⊕ List Access :=
  let first := q.key / 8
  let count := (q.key + q.len - 1) / 8 - first + 1
  let ws := (List.range count).map (fun k => seenWord s p false (p * 8192 + first + k))
  if 65536 < q.key + q.len then .inl (6, 65536)
  else
    match ws.find? (fun w => !tagReadable w.tag world) with
    | some w => .inl (4, tagTv w.tag 3)
    | none => .inr (((List.range count).zip ws).map (fun (e : Nat × TWord) =>
        ⟨BitVec.ofNat 64 (8 * (first + e.1)), 8, false, e.2.val⟩))

/-- Bytes of the cask. -/
def caskBytes (s : State) (p : Nat) : Nat → Nat → List Byte
  | _, 0 => []
  | a, n + 1 =>
    (seenWord s p false (p * 8192 + a / 8)).val.extractLsb' (8 * (a % 8)) 8 :: caskBytes s p (a + 1) n

/-- One block: it is compared, or its slot is not bound. -/
def ksrchUnit (p : Nat) (pc : BitVec 18) (a : W64) (q : KeyQ) (l : Long) : LStep :=
  let b := addrAdd a (BitVec.ofNat 64 (q.size * l.i))
  if 2 ^ 44 ≤ aOff b ∨ (bayOf l.s (aOff b / 4096)).bound = false then .bad (.trap 6 b)
  else
    let at_ := addrAdd b (BitVec.ofNat 64 q.off)
    let bytes := getStage l.s (aOff at_) q.len
    match watch l.s p pc ⟨at_, q.len, false, BitVec.ofNat 64 (leNat (bytes.take 8))⟩ with
    | (_, true) => .bad (.hit ⟨at_, q.len, false, BitVec.ofNat 64 (leNat (bytes.take 8))⟩)
    | (s, false) =>
      if bytes = caskBytes s p q.key q.len then .ok { l with s := s, c := true }
      else .ok { l with s := s, i := l.i + 1 }

def ksrchOp (p : Nat) (pc : BitVec 18) (a : W64) (q : KeyQ) : LongOp where
  unit := ksrchUnit p pc a q
  more := fun l => decide (l.i < q.blocks) && !l.c
  restart := fun _ => true
  cx := fun l => (3 : BitVec 4) ++ BitVec.ofNat 60 l.i

def ksrchBody (f : RRR) (upto : Option Nat) (x : Pilot) (pc : BitVec 18) (s : State) : PRes :=
  let a := (x.reg f.s).val
  let v := (x.reg f.t).val
  let q := keyQ v
  if cxForeign x 3 || q.bad v then .trap 1 ((rrrWord f 0x14 1).setWidth 64) s
  else
    match tagFail x.sw.world [(x.reg f.s, 0, isAddr), (x.reg f.t, 1, isInt)] with
    | some tv => .trap 4 tv s
    | none =>
      if (a.extractLsb' 0 24).toNat % q.size ≠ 0 then .trap 5 a s
      else if aSpace a ≠ 3 then .trap 6 a s
      else
        match keyWords s f.p q x.sw.world with
        | .inl (c, tv) => .trap c tv s
        | .inr cs =>
          match watchAll f.p pc s cs with
          | (s', some c) => .stop (watch s' f.p pc c).1
          | (s, none) =>
            let i := if cxKind x = 3 then (x.cx.extractLsb' 0 16).toNat else 0
            runLong f.p pc (ksrchOp f.p pc a q) q.blocks { s := s, i := i } upto (fun l =>
              .done (updPilot l.s f.p (fun x =>
                { x.wrInt f.d (BitVec.ofNat 64 (if l.c then l.i else q.blocks)) with sw := { x.sw with z := l.c } })))

def execKsrch (f : RRR) (upto : Option Nat) (s : State) : Out :=
  .next (rrr f 0x14 1 (isD f.d && isA f.s && isD f.t) false s (ksrchBody f upto))

/-! Multi-word decimal (R331). -/

/-- A word of a multi-word number: its load, with the digit check. -/
def loadDigits (s : State) (p : Nat) (pc : BitVec 18) (a : W64) : Acc :=
  match loadMem s p pc a 8 isDec with
  | .ok s w => if digOk w.val then .ok s w else .trap 11 w.val
  | r => r

/-- Load `n` digit words. -/
def loadNumber (p : Nat) (pc : BitVec 18) : Nat → State → W64 → Accs
  | 0, s, _ => .ok s []
  | n + 1, s, a =>
    match loadDigits s p pc a with
    | .ok s w =>
      match loadNumber p pc n s (addrAdd a 8) with
      | .ok s ws => .ok s (w :: ws)
      | r => r
    | r => .bad r

/-- CX of kind 2. -/
def decCx (op : BitVec 2) (l : Long) : W64 :=
  (2 : BitVec 4) ++ op ++ (0 : BitVec 40) ++ bit1 l.nz ++ bit1 l.c ++ (0 : BitVec 2) ++ BitVec.ofNat 6 l.i ++ (0 : BitVec 8)

/-- One word of DADDM or DSUBM. -/
def addmUnit (sub : Bool) (p : Nat) (pc : BitVec 18) (src dst : W64) (l : Long) : LStep :=
  match loadDigits l.s p pc (wordAt src l.i) with
  | .ok s b =>
    match loadDigits s p pc (wordAt dst l.i) with
    | .ok s a =>
      let r := decStep sub a.val b.val l.c
      match storeMem s p pc (wordAt dst l.i) 8 ⟨r.1, 3⟩ 3 with
      | .ok s _ => .ok { s := s, i := l.i + 1, c := r.2, nz := l.nz || decide (r.1 ≠ 0) }
      | r => .bad r
    | r => .bad r
  | r => .bad r

def addmOp (sub : Bool) (p : Nat) (pc : BitVec 18) (src dst : W64) (n : Nat) : LongOp where
  unit := addmUnit sub p pc src dst
  more := fun l => decide (l.i < n)
  restart := fun _ => true
  cx := decCx (if sub then 1 else 0)

/-- Store digit words at consecutive addresses. -/
def storeNumber (p : Nat) (pc : BitVec 18) (s : State) (a : W64) (ws : List W64) : Acc :=
  storeAll p pc a anyTag s (((List.range ws.length).zip ws).map (fun (e : Nat × W64) => (e.1, (⟨e.2, 3⟩ : TWord))))

/-- One row of DMULM, written as a whole at its end: row 0 gives every word of the product, row i adds into words i to
i + m. -/
def mulmUnit (p : Nat) (pc : BitVec 18) (src dst : W64) (n m : Nat) (l : Long) : LStep :=
  match loadDigits l.s p pc (wordAt src l.i) with
  | .ok s a =>
    match loadNumber p pc m s (wordAt src n) with
    | .ok s b =>
      match (if l.i = 0 then .ok s [] else loadNumber p pc (m + 1) s (wordAt dst l.i)) with
      | .ok s t =>
        let v := digsVal (t.map (·.val)) + digVal a.val * digsVal (b.map (·.val))
        let ws := digsWords (if l.i = 0 then n + m else m + 1) v
        match storeNumber p pc s (wordAt dst l.i) ws with
        | .ok s _ => .ok { l with s := s, i := l.i + 1, nz := l.nz || ws.any (fun w => decide (w ≠ 0)) }
        | r => .bad r
      | .bad r => .bad r
    | .bad r => .bad r
  | r => .bad r

def mulmOp (p : Nat) (pc : BitVec 18) (src dst : W64) (n m : Nat) : LongOp where
  unit := mulmUnit p pc src dst n m
  more := fun l => decide (l.i < n)
  restart := fun _ => true
  cx := decCx 2

/-- Two ranges of words overlap. -/
def wordsOverlap (a b : W64) (n m : Nat) : Bool :=
  decide (a.toNat < b.toNat + 8 * m) && decide (b.toNat < a.toNat + 8 * n)

/-- What the three share: `fn`, the count check, the unit and its rows. -/
def decmBody (fn : BitVec 7) (f : RRR) (upto : Option Nat) (x : Pilot) (pc : BitVec 18) (s : State) (bad carry : Bool) (n : Nat)
    (o : LongOp) : PRes :=
  let src := (x.reg f.s).val
  let dst := (x.reg f.d).val
  if cxForeign x 2 || bad then .trap 1 ((rrrWord f 0x14 fn).setWidth 64) s
  else
    match tagFail x.sw.world [(x.reg f.s, 0, isAddr), (x.reg f.t, 1, isInt), (x.reg f.d, 2, isAddr)] with
    | some tv => .trap 4 tv s
    | none =>
      match longAddrs src dst caskCellar caskCellar with
      | some (c, a) => .trap c a s
      | none =>
        let on := decide (cxKind x = 2)
        let l : Long := ⟨s, if on then (x.cx.extractLsb' 8 6).toNat else 0, carry && on && x.cx.getLsbD 16, on && x.cx.getLsbD 17⟩
        runLong f.p pc o n l upto (fun l =>
          .done (updPilot l.s f.p (fun x => { x with sw := { x.sw with c := l.c, z := !l.nz, n := false, v := false } })))

/-- DADDM and DSUBM: n = t[5:0], 1 to 32. -/
def addmBody (sub : Bool) (f : RRR) (upto : Option Nat) (x : Pilot) (pc : BitVec 18) (s : State) : PRes :=
  let n := (x.reg f.t).val.toNat
  decmBody (if sub then 3 else 2) f upto x pc s (decide (n = 0) || decide (32 < n)) true n
    (addmOp sub f.p pc (x.reg f.s).val (x.reg f.d).val n)

def execDaddm (f : RRR) (upto : Option Nat) (s : State) : Out :=
  .next (rrr f 0x14 2 (isA f.d && isA f.s && isD f.t) false s (addmBody false f upto))

def execDsubm (f : RRR) (upto : Option Nat) (s : State) : Out :=
  .next (rrr f 0x14 3 (isA f.d && isA f.s && isD f.t) false s (addmBody true f upto))

/-- DMULM: n = t[5:0] and m = t[13:8], and the product does not overlap its sources. -/
def mulmBody (f : RRR) (upto : Option Nat) (x : Pilot) (pc : BitVec 18) (s : State) : PRes :=
  let v := (x.reg f.t).val
  let n := (v.extractLsb' 0 6).toNat
  let m := (v.extractLsb' 8 6).toNat
  let src := (x.reg f.s).val
  let dst := (x.reg f.d).val
  let bad := decide (n = 0) || decide (32 < n) || decide (m = 0) || decide (32 < m) ||
    decide (v &&& 0x3F3F ≠ v) || wordsOverlap src dst (n + m) (n + m)
  decmBody 4 f upto x pc s bad false n (mulmOp f.p pc src dst n m)

def execDmulm (f : RRR) (upto : Option Nat) (s : State) : Out :=
  .next (rrr f 0x14 4 (isA f.d && isA f.s && isD f.t) false s (mulmBody f upto))

end Sys2Proof.Machine
end

