-- ==== Sys2Proof/Machine/Start.lean ====
section
/-! DEFINITION. Machine/Start.lean: resets (R465, R581), the start from Cold to Service (R486 to R499), the tamper
response and life-cycle changes (R535, R536), and the loss of the tide reference (R579). -/

namespace Sys2Proof.Machine

/-! Resets. -/

/-- The next record SEQ after a reset: one more than the last in the flash log (R530, R531). -/
def flashSeq (s : State) : W32 :=
  match s.hm.pages.getLast? with
  | some p => p.first + BitVec.ofNat 32 p.recs.length
  | none => 0

/-- The block after power-on reset, with what lies outside it: the flash contents, the inputs, what has left it, the
commands that wait and the counter of free values. -/
def powerOn (s : State) : State :=
  let r := State.resetOf s.blk.build
  { r with
    hm := { r.hm with pages := s.hm.pages, nextPage := s.hm.nextPage, seqNext := flashSeq s, lc := s.hm.lc, tamper := s.hm.tamper },
    out := s.out, freeCtr := s.freeCtr, pending := s.pending }

/-- The block after warm reset (R465, R485, R498, R506, R533, R581): the tide count, the record that it has been stepped,
BLK.BOOTCTL and the SVN floor survive too. -/
def warm (s : State) : State :=
  let r := powerOn s
  let t : Tide := { s.tide with unsync := true }
  { r with
    tide := t, hm := { r.hm with svn := s.hm.svn },
    boot := { r.boot with porHeld := false, pick := s.boot.pick, maint := s.boot.maint } }

/-- POR_ASSERT (R465): the count is held at 0 while por_n is asserted. -/
def execPorAssert (s : State) : Out := .next (powerOn s)

/-- POR_RELEASE (R486): the life-cycle and tamper inputs stand at the values given. -/
def execPorRelease (lc : BitVec 2) (tamper : Bool) (s : State) : Out :=
  .next (
    if s.boot.porHeld then
      { s with boot := { s.boot with porHeld := false }, hm := { s.hm with lc := lc, tamper := tamper } }
    else s)

/-- WARM_RESET (R581); por_n takes precedence. -/
def execWarmReset (s : State) : Out := .next (if s.boot.porHeld then s else warm s)

/-! Cold and Charter. -/

/-- HARBOURMASTER_MEMORY_TEST_END (R486, R489, R500). -/
def execHarbourmasterMemoryTestEnd (ok octal : Bool) (s : State) : Out :=
  .next (
    if s.blk.mode ≠ 0 ∨ s.boot.porHeld = true then s
    else
      let s := { s with boot := { s.boot with slow := !octal } }
      if s.hm.lc = 3 then maintNow s 3
      else if s.hm.tamper then maintNow s 4
      else if !ok then maintNow s 6
      else if s.boot.maint then maintNow s 2
      else setMode { s with boot := { s.boot with keyWait := true } } 1 0)

/-- KEY_VALID (R577): the key is sampled once; a later key_vld is ignored. -/
def execKeyValid (s : State) : Out :=
  .next (
    if s.boot.keyWait then { s with boot := { s.boot with keyWait := false, keyAck := true, key := true } } else s)

/-- KEY_WAIT_TIMEOUT (R577). -/
def execKeyWaitTimeout (s : State) : Out := .next { s with boot := { s.boot with keyWait := false } }

/-- SRAM_PHASE1_END (R487). -/
def execSramPhase1End (ok : Bool) (s : State) : Out :=
  .next (
    if s.boot.porHeld ∨ s.boot.phase1 = true then s
    else { s with boot := { s.boot with phase1 := true, sramBad := !ok } })

/-- The slots that BLK.BOOTCTL.PICK allows (R490, R506). -/
def slotAllowed (s : State) (b : Bool) : Bool :=
  if s.boot.pick = 1 then !b else if s.boot.pick = 2 then b else true

/-- A slot has failed (R490): its writes are discarded, the failure is recorded and logged, and Maintenance follows the
last slot. -/
def slotFailed (s : State) (b : Bool) (code sect : BitVec 8) : State :=
  let tried := b :: s.boot.tried
  let s := { s with boot := { s.boot with code := code, sect := sect, fallbk := true, loading := none, tried := tried } }
  let slot : BitVec 8 := if b then 2 else 1
  let s := hmLog s 0x101 ((code ++ slot).setWidth 64) (sect.setWidth 64)
  if [false, true].all (fun k => !slotAllowed s k || tried.contains k) then maintNow s 5 else s

/-- CHARTER_SLOT_LOAD (R490 to R492): the headers of a slot have been read and judged. -/
def execCharterSlotLoad (slotB : Bool) (h : SlotHdr) (s : State) : Out :=
  .next (
    if s.blk.mode ≠ 1 ∨ s.boot.keyWait = true ∨ s.boot.loading.isSome = true ∨ slotAllowed s slotB = false ∨
        s.boot.tried.contains slotB = true then s
    else
      let c := charterHead s h
      if c ≠ 0 then slotFailed s slotB c 0
      else
        let s := noteMldsa s h.env
        { s with boot := { s.boot with loading := some h, loadingB := slotB, keySet1 := h.keySet1 } })

/-! Sections of a charter (R493 to R495). -/

/-- What applying a section or a register write gives: the state, or the code of its failure. -/
inductive Applied where
  | ok (s : State)
  | bad (code : BitVec 8) (vin : BitVec 8)
deriving DecidableEq, Repr

/-- IDENTITY (R494). -/
def applyIdentity (s : State) (hid : W32) (num : BitVec 16) (role : BitVec 8) (twin : BitVec 16) (rsvOk : Bool) : Applied :=
  if 3 ≤ role.toNat ∨ rsvOk = false ∨ twin = num ∨ (twin ≠ 0xFFFF ∧ role ≠ 0) then .bad 0x13 0
  else
    .ok (updTw { s with hbr := { s.hbr with hid := hid, num := num, role := role.extractLsb' 0 2 } }
      (fun t => { t with charterTwin := twin, charterRole := role.extractLsb' 0 2 }))

/-- VINTAGE (R494, R496). -/
def applyVintage (s : State) (cmask : BitVec 16) (bank select : Bool) (env : Envelope) : Applied :=
  let cs := maskClusters s cmask
  let r := loadVintage s cs bank env
  if r.2 ≠ 0 then .bad 0x15 r.2
  else
    let s := r.1
    let v : BitVec 2 := if bank then 2 else 1
    let sel := if select then cs.foldl (fun (t : Table (BitVec 2)) (c : Nat) => Table.put 0 t c v) s.boot.select else s.boot.select
    .ok { s with boot := { s.boot with select := sel } }

/-- GRAFT (R417, R494): no pilot runs in Charter, and the target clusters count as held. -/
def applyGraft (s : State) (env : Envelope) : Applied :=
  let cs := (graftTargets s env.gmask).filter (fun c => decide (c < 16) && !(csrcOf s c).hold)
  let s := cs.foldl (fun (s : State) (c : Nat) => setCsrc s c { csrcOf s c with hold := true }) s
  let r := installGraft s true env
  if r.2.1 ≠ 0 then .bad 0x15 r.2.1
  else .ok (cs.foldl (fun (s : State) (c : Nat) => setCsrc s c { csrcOf s c with hold := false }) r.1)

/-- CODE (R494). -/
def applyCode (s : State) (cmask : BitVec 16) (off : BitVec 18) (words : List W32) : Applied :=
  if off.extractLsb' 0 2 ≠ 0 ∨ 262144 < off.toNat + 4 * words.length then .bad 0x12 0
  else
    .ok ((maskClusters s cmask).foldl (fun (s : State) (c : Nat) =>
      { s with code := Table.putList 0 s.code (c * 65536 + off.toNat / 4) words }) s)

/-- HMCODE (R494). -/
def applyHmcode (s : State) (off : BitVec 21) (words : List W64) : Applied :=
  if off.extractLsb' 0 4 ≠ 0 ∨ 2097152 < off.toNat + 8 * words.length then .bad 0x12 0
  else .ok { s with hmmem := Table.putList emptyW s.hmmem (off.toNat / 8) (words.map intW) }

/-- A register write has set a flag that a charter may not set, or opened a berth (R495). -/
def regRejected (s t : State) (off : Nat) : Bool :=
  (t.resvRefused && !s.resvRefused) || (t.plc.cfg && !s.plc.cfg) || (t.ltr.hbusy && !s.ltr.hbusy) ||
    (match regionOf off with
     | (16, o) => (ring t (o / 0x40)).ecfg && !(ring s (o / 0x40)).ecfg
     | (17, o) => decide ((berth t (o / 0x80)).state ≠ 0)
     | _ => false)

/-- One entry of a REGS section (R495). -/
def applyReg (s : State) (e : RegsEntry) : Applied :=
  let off := e.off.toNat
  let wide := decide (e.width = 8)
  if (e.width ≠ 4 ∧ e.width ≠ 8) ∨ e.rsv = true ∨ (e.width = 4 ∧ e.value.extractLsb' 32 32 ≠ 0) ∨ (regionOf off).1 = 9 ∨
      (winRead s true wide off).isNone = true then .bad 0x14 0
  else
    let t := winStore s .hm wide off e.value
    if regRejected s t off then .bad 0x14 0 else .ok t

/-- A list of register writes, in order. -/
def applyRegs : State → List RegsEntry → Applied
  | s, [] => .ok s
  | s, e :: es =>
    match applyReg s e with
    | .ok t => applyRegs t es
    | .bad c v => .bad c v

/-- One section's effect. -/
def applySection (s : State) (x : Section) : Applied :=
  match x with
  | .identity hid num role twin rsvOk => applyIdentity s hid num role twin rsvOk
  | .vintage cmask bank select env => applyVintage s cmask bank select env
  | .graft env => applyGraft s env
  | .code cmask off words => applyCode s cmask off words
  | .regs es => applyRegs s es
  | .hmcode off words => applyHmcode s off words
  | .fin => .ok s
  | .bad => .bad 0x12 0

def isIdentity : Section → Bool
  | .identity .. => true
  | _ => false
def isFin : Section → Bool
  | .fin => true
  | _ => false

/-- The section at index `k` breaks the order of R493: IDENTITY is the first and only the first, END the last and only
the last. -/
def misplaced (k : Nat) (x : Section) (last : Bool) : Bool := (isIdentity x != decide (k = 0)) || (isFin x != last)

/-- The sections from index `k` on: the state, or the failing section and its code. -/
def applyAll : State → Nat → List Section → Sum State (Nat × BitVec 8 × BitVec 8)
  | _, k, [] => .inr (k, 0x12, 0)
  | s, k, x :: xs =>
    if misplaced k x xs.isEmpty then .inr (k, 0x12, 0)
    else
      match applySection s x with
      | .bad c v => .inr (k, c, v)
      | .ok t => if xs.isEmpty then .inl t else applyAll t (k + 1) xs

/-- A section index in BLK.BOOT.SECT (R506). -/
def sectNo (k : Nat) : BitVec 8 := if k < 255 then BitVec.ofNat 8 k else 0xFF

/-- A slot has loaded (R490, R496, R533): Proving starts. -/
def slotLoaded (s : State) (b : Bool) (svn : W32) : State :=
  setMode { s with boot := { s.boot with slot := if b then 2 else 1, loading := none }, hm := { s.hm with svn := svn } } 2 0

/-- CHARTER_PAYLOAD_DONE (R490, R492, R493): the payload read waits for SRAM phase 1 (R487), and nothing of the image
takes effect until tag and digest have passed. -/
def execCharterPayloadDone (flashErr tagOk digestOk : Bool) (secs : List Section) (s : State) : Out :=
  .next (
    match s.boot.loading with
    | none => s
    | some h =>
      let b := s.boot.loadingB
      if s.blk.mode ≠ 1 ∨ s.boot.phase1 = false then s
      else if flashErr then slotFailed s b 0x16 0
      else if !s.boot.key || !tagOk then slotFailed s b 0x05 0
      else if !digestOk then slotFailed s b 0x06 0
      else
        match applyAll s 0 secs with
        | .inl t => slotLoaded t b h.env.svn
        | .inr (k, c, v) => slotFailed (if c = 0x15 then setCode s v else s) b c (sectNo k))

/-! Proving (R496, R497). -/

/-- A cluster whose checker failed its sweep (R445, R497). -/
def sweepFailed (s : State) (c : Nat) : State :=
  if s.blk.build.clusters ≤ c then s
  else
    let b := s.boot
    setChecker { s with boot := { b with clfail := b.clfail ||| ((1 : BitVec 16) <<< c) } } c 2

/-- The spare of a cluster, while it has one. -/
def spareOf (s : State) (c : Nat) : Option Nat :=
  (slotsOf c).find? (fun p => decide ((pilot s p).role = .spare))

/-- An active pilot fails its test: a spare that passed takes its place (R497). -/
def pilotFailed (s : State) (p : Nat) : State :=
  if (pilot s p).role ≠ .active ∨ p = hmNo ∨ pilotExists s p = false then s
  else
    let s := updPilot s p (fun x => { x with role := .offline })
    let c := clusterOf p
    match spareOf s c with
    | some q =>
      setChk (updPilot s q (fun x => { x with role := .active })) c { chkOf s c with sparePresent := false }
    | none => s

/-- A spare fails its test (R497). -/
def spareFailed (s : State) (p : Nat) : State :=
  if (pilot s p).role ≠ .spare then s
  else
    let c := clusterOf p
    setChk (updPilot s p (fun x => { x with role := .offline })) c { chkOf s c with sparePresent := false }

/-- A port fails loopback (R497). -/
def portLost (s : State) (k : Nat) : State :=
  if 12 ≤ k then s
  else
    let bit : BitVec 12 := (1 : BitVec 12) <<< k
    { s with boot := { s.boot with pfail := s.boot.pfail ||| bit }, plc := { s.plc with portFail := s.plc.portFail ||| bit } }

/-- BLK.PROVE as a word. -/
def proveWord (s : State) : W64 := ((0 : BitVec 4) ++ s.boot.pfail ++ s.boot.clfail).setWidth 64

/-- Manifest initialisation (R112). -/
def initManifest (s : State) : State := { s with own := [], mirror := [], moor := [], xc := [] }

/-- Step 4 of Proving: the sources that the charter selected, then Manifest initialisation (R496). -/
def proveStep4 (s : State) : State :=
  let s := { s with cellar := [] }
  initManifest ((List.range s.blk.build.clusters).foldl (fun (s : State) (c : Nat) =>
    let v := Table.get 0 s.boot.select c
    let s := setCsrc s c { csrcOf s c with sel := v }
    (slotsOf c).foldl (fun (s : State) (p : Nat) => updPilot s p (fun x => { x with src := v.toNat })) s) s)

/-- Some cluster can run firmware (R497). -/
def anyRuns (s : State) : Bool :=
  (List.range s.blk.build.clusters).any (fun c => decide ((chkOf s c).state ≠ 2) &&
    (slotsOf c).any (fun p => decide ((pilot s p).role = .active)))

/-- Service entry from Proving (R385, R498, R506): pilots leave reset. -/
def enterService (s : State) : State :=
  let s := setMode { s with boot := { s.boot with svct := now32 s, served := true } } 3 0
  (fastPilots s).foldl (fun (s : State) (p : Nat) => leaveReset (updPilot s p Pilot.reset) p) s

/-- PROVING_END (R496, R497). -/
def execProvingEnd (r : ProveRes) (s : State) : Out :=
  .next (
    if s.blk.mode ≠ 2 then s
    else
      let s := r.sweepFail.foldl sweepFailed s
      let s := (r.pilotFail.filter (fun p => decide ((pilot s p).role = .spare))).foldl spareFailed s
      let s := r.pilotFail.foldl pilotFailed s
      let s := r.portFail.foldl portLost s
      let s := proveStep4 s
      let s := hmLog s 0x102 (proveWord s) 0
      if !r.sramOk || s.boot.sramBad then maintNow s 6
      else if !anyRuns s then maintNow s 7
      else enterService s)

/-! Tamper and life cycle (R535, R536). -/

/-- Words of Harbourmaster memory in the staging area and the mailbox buffer (R526). -/
def secretWord (k : Nat) : Bool :=
  (decide (0x20000 ≤ k) && decide (k < 0x28000)) || (decide (0x2C000 ≤ k) && decide (k < 0x2D000))

/-- Steps 2 and 3 of the tamper response (R536). -/
def wipeSecrets (s : State) : State :=
  let s := wipeSealed s
  let s := if s.hm.session.isSome && s.hm.busy then mbEnd s 7 0 else s
  { s with vbank := [], hmmem := s.hmmem.filter (fun e => !secretWord e.1),
           boot := { s.boot with key := false }, hm := { s.hm with session := none, committed := none, roll := none } }

/-- The tamper response with Maintenance cause `c` (R500, R536): in Drowse it follows the wake. -/
def tamperResponse (s : State) (c : BitVec 8) : State :=
  if s.blk.mode = 4 then startWake { s with boot := { s.boot with lateMaint := some c } } 9
  else
    let s := wipeSecrets s
    if s.blk.mode = 0 ∨ s.blk.mode = 7 then s else maintNow (discardFrozen s) c

/-- TAMPER (R536). -/
def execTamper (s : State) : Out :=
  .next (
    if s.boot.porHeld then { s with hm := { s.hm with tamper := true } }
    else tamperResponse (hmLog { s with hm := { s.hm with tamper := true } } 0x701 (s.blk.mode.setWidth 64) 0) 4)

/-- LIFECYCLE_CHANGE (R535). -/
def execLifecycleChange (lc : BitVec 2) (s : State) : Out :=
  .next (
    let old := s.hm.lc
    if lc = old then s
    else if s.boot.porHeld then { s with hm := { s.hm with lc := lc } }
    else
      let s := hmLog { s with hm := { s.hm with lc := lc } } 0x702 ((old ++ lc).setWidth 64) 0
      if lc = 3 then tamperResponse s 3
      else if lc < old then tamperResponse s 4
      else s)

/-- TIDE_REF_LOSS (R579). -/
def execTideRefLoss (s : State) : Out := .next { s with boot := { s.boot with bwdN := true } }

end Sys2Proof.Machine
end

