-- ==== Sys2Proof/Machine/Power.lean ====
section
/-! DEFINITION. Machine/Power.lean: drowse and wakes (R508 to R521), the thermal throttle (R522), sensors (R527 to
R529). -/

namespace Sys2Proof.Machine

/-! Sensors and the throttle. -/

/-- Nominal supply in mV (R580). -/
def nominalMv : Nat := 750

/-- A reading lies below nominal by more than `d` percent, and above. -/
def voltLow (mv d : Nat) : Bool := decide (mv * 100 < nominalMv * (100 - d))
def voltHigh (mv d : Nat) : Bool := decide (nominalMv * (100 + d) < mv * 100)

/-- One voltage reading (R528): its LOW and HIGH bits, and the log. -/
def sampleVolt (s : State) (k : Nat) (v : BitVec 12) : State :=
  let h := s.hm
  let lo := voltLow v.toNat h.vwarn.toNat
  let hi := voltHigh v.toNat h.vwarn.toNat
  let s := { s with hm := { h with volt := Table.upd {} h.volt k (fun x =>
      { low := x.low || lo, high := x.high || hi, mv := v }) } }
  if lo || hi then hmLog s 0x603 (BitVec.ofNat 64 k) (v.setWidth 64) else s

/-- The Harbourmaster samples: it is out of restart, and not off in D3 (R508, R525). -/
def hmSamples (s : State) : Bool :=
  !s.boot.porHeld && !s.hm.restarting && !(decide (s.blk.mode = 4) && decide (s.blk.dlevel = 3))

/-- Readings beside their indexes, at most `n`. -/
def indexed {α : Type} (n : Nat) (l : List α) : List (Nat × α) := (List.range n).zip l

/-- SENSOR_SAMPLE (R527, R528): the readings of the sensors in the order of their indexes. -/
def execSensorSample (temps : List (BitVec 11)) (volts : List (BitVec 12)) (procs : List (BitVec 16)) (s : State) : Out :=
  .next (
    if !hmSamples s then s
    else
      let s := (indexed 24 temps).foldl (fun (s : State) (e : Nat × BitVec 11) =>
        { s with hm := { s.hm with temp := Table.put {} s.hm.temp e.1 { valid := true, temp := e.2 } } }) s
      let s := (indexed 8 procs).foldl (fun (s : State) (e : Nat × BitVec 16) =>
        { s with hm := { s.hm with proc := Table.put 0 s.hm.proc e.1 e.2 } }) s
      (indexed 16 volts).foldl (fun (s : State) (e : Nat × BitVec 12) => sampleVolt s e.1 e.2) s)

/-- The hottest reading, in quarters of a degree. -/
def hottest (s : State) : Option Int :=
  s.hm.temp.foldl (fun (m : Option Int) (e : Nat × Temp) =>
    if e.2.valid then
      match m with
      | none => some e.2.temp.toInt
      | some v => some (if v < e.2.temp.toInt then e.2.temp.toInt else v)
    else m) none

/-- The step that the thermal rule asks for next, if the hottest reading allows it (R522): a step down in clock from
step k when it is at or above that step's threshold, a step up when it is below that threshold less HYST. -/
def nextStep (s : State) (up : Bool) : Option (BitVec 2) :=
  let p := s.pwr
  let th : BitVec 8 := if (if up then p.tgt = 1 else p.tgt = 0) then p.t1 else p.t2
  match hottest s with
  | none => none
  | some v =>
    if up then
      (if p.tgt ≠ 0 ∧ v < 4 * ((th.toNat : Int) - p.hyst.toNat) then some (p.tgt - 1) else none)
    else if p.tgt ≠ 2 ∧ 4 * (th.toNat : Int) ≤ v then some (p.tgt + 1)
    else none

/-- THROTTLE_STEP (R16, R521, R522): while the raise of R16 is held, or the fast clock stands, the step waits. -/
def execThrottleStep (up : Bool) (s : State) : Out :=
  .next (
    if !hmSamples s then s
    else
      match nextStep s up with
      | none => s
      | some t =>
        let old := s.pwr.step
        let hot : W64 := BitVec.ofInt 64 ((hottest s).getD 0)
        let p := s.pwr
        let s := { s with pwr := { p with tgt := t, step := if p.hold || s.fstop then p.step else t } }
        hmLog s 0x601 ((old ++ t).setWidth 64) hot)

/-- THERMAL_CRITICAL (R528): the Quarantine command follows. -/
def execThermalCritical (sensor : Nat) (reading : BitVec 11) (s : State) : Out :=
  .next (
    if hmSamples s ∧ 4 * (s.hm.tcrit.toNat : Int) ≤ reading.toInt then
      quarantine (hmLog s 0x602 (BitVec.ofNat 64 sensor) (reading.setWidth 64)) 9
    else s)

/-- VOLTAGE_CRITICAL (R528). -/
def execVoltageCritical (monitor : Nat) (reading : BitVec 12) (s : State) : Out :=
  .next (
    let d := s.hm.vcrit.toNat
    if hmSamples s ∧ (voltLow reading.toNat d || voltHigh reading.toNat d) then
      quarantine (hmLog s 0x604 (BitVec.ofNat 64 monitor) (reading.setWidth 64)) 9
    else s)

/-- THERMAL_TRIP (R519, R529). -/
def execThermalTrip (s : State) : Out := .next (startWake { s with boot := { s.boot with ttripN := true } } 9)

/-! The governor and the levels. -/

/-- The block rests between levels: no wake, no entry and no negotiation is under way. -/
def settled (s : State) : Bool := !s.pwr.waking && decide (s.pwr.entering = 0) && !s.pwr.nego && !s.pwr.reqOut

/-- D1 is entered as soon as the permitted level is at least 1 (R512). -/
def toD1 (s : State) : State :=
  if s.blk.mode = 3 ∧ settled s ∧ 1 ≤ (permitted s).1 then setMode s 4 1 else s

/-- GOVERNOR_EVALUATE (R510 to R512). -/
def execGovernorEvaluate (s : State) : Out := .next (toD1 (govern s))

/-- D2_DWELL_EXPIRY (R512). -/
def execD2DwellExpiry (s : State) : Out :=
  .next (
    let s := toD1 (govern s)
    if s.blk.mode = 4 ∧ s.blk.dlevel = 1 ∧ settled s ∧ 2 ≤ (permitted s).1 ∧ s.pwr.run = true then startEntry s 2
    else s)

/-- D3_DWELL_EXPIRY (R512, R513): D3, or a negotiation wake where an active twin stands against it. -/
def execD3DwellExpiry (s : State) : Out :=
  .next (
    let s := toD1 (govern s)
    if s.blk.mode ≠ 4 ∨ s.blk.dlevel = 3 ∨ settled s = false ∨ s.pwr.run = false then s
    else if 3 ≤ (permitted s).1 then startEntry s 3
    else if s.hbr.tstate = 2 ∧ s.hbr.pdEn = true ∧ permitsD3 s = true then
      startWake { s with pwr := { s.pwr with nego := true } } 8
    else s)

/-- DROWSE_ACK_TIMEOUT (R513): the block returns to D2. -/
def execDrowseAckTimeout (s : State) : Out :=
  .next (
    if s.pwr.reqOut then
      let s := { s with pwr := { s.pwr with reqOut := false, nego := false } }
      if s.blk.mode = 3 ∧ 2 ≤ (permitted s).1 then startEntry (toD1 s) 2 else s
    else s)

/-- A mooring is held (R138). -/
def moorHeld (s : State) : Bool :=
  s.own.any (fun e => decide (e.2.moor.mst = 1)) || s.moor.any (fun e => decide (e.2.mst = 1))

/-- DROWSE_LEVEL_ENTERED (R509, R572): the level shows, and the fast clock stops; not while a mooring is held (R138). -/
def execDrowseLevelEntered (s : State) : Out :=
  .next (
    if s.pwr.entering = 0 ∨ s.pwr.waking = true ∨ moorHeld s = true ∨ ¬(s.blk.mode = 3 ∨ s.blk.mode = 4) then s
    else
      let n := s.pwr.entering
      let s := setMode s 4 n
      { s with fstop := true, pwr := { s.pwr with entering := 0 } })

/-- RING_WRITE_CAPTURE (R84, R518, R572): one dword of a ring-window write with the tick of its arrival. -/
def execRingWriteCapture (lp : Nat) (off : BitVec 28) (data : BitVec 32) (be : BitVec 4) (s : State) : Out :=
  .next (
    if !s.fstop || decide (4 ≤ lp) || decide (256 ≤ s.pwr.capq.length) then s
    else
      let s := { s with pwr := { s.pwr with capq := s.pwr.capq ++ [⟨lp, off, data, be, now32 s⟩] } }
      if off.extractLsb' 0 12 = 0 ∧ be = 15 then startWake s 1 else s)

/-- What a wake source of R519 needs of the state. -/
def wakeHolds (s : State) (cause : BitVec 4) : Bool :=
  match cause.toNat with
  | 1 => s.pwr.capq.any (fun c => decide (c.off.extractLsb' 0 12 = 0) && decide (c.be = 15))
  | 2 => s.evc.latch.any (fun e => decide (0x100 ≤ e.1) && decide (e.1 ≤ 0x1FF))
  | 3 => true
  | 4 => s.evc.latch.any (fun e => decide (e.1 = 9))
  | 5 => true
  | 6 => decide (2 ≤ s.tw.miss.toNat) || s.paths.any (fun e => decide (2 ≤ e.2.missed.toNat))
  | 7 => decide ((permitted s).1 < levelNow s)
  | 8 => s.pwr.nego
  | 9 => s.hm.tamper || s.boot.ttripN || s.boot.lateMaint.isSome
  | _ => false

/-- WAKE_SOURCE (R519, R521). -/
def execWakeSource (cause : BitVec 4) (s : State) : Out := .next (if wakeHolds s cause then startWake s cause else s)

/-! The end of a wake (R520). -/

/-- A captured write is replayed with its arrival tick (R84, R518). -/
def replay (s : State) (c : Capture) : State :=
  let off := (c.off.extractLsb' 0 12).toNat
  let w : PageWrite := ⟨c.lp, (c.off.extractLsb' 12 16).toNat, c.be, c.data⟩
  if pageTakes s w (decide (off = 4) || decide (off = 12)) then pageWrite s w.ring off c.data c.tick else s

/-- The always-on latches transfer to PEND; edges merged while the clock stood are counted (R461). -/
def transferLatches (s : State) : State :=
  let l := s.evc.latch
  l.foldl (fun (s : State) (e : Nat × Nat) =>
    if e.2 = 0 then s
    else
      let s := { s with evc := { s.evc with merge := satAdd s.evc.merge (e.2 - 1) } }
      raise s e.1) { s with evc := { s.evc with latch := [] } }

/-- A block that leaves DROWSED sends WAKE to its twin and takes up heartbeats (R190, R206); STATE becomes ACTIVE when the
twin answers (R150). -/
def wakeTwin (s : State) : State :=
  if s.hbr.tstate ≠ 6 then s
  else
    let s := retide (reslot s (twinPathsTo s 3 2))
    let s := updTw s (fun t => { t with wakeSent := true, last := s.tide.count, miss := 0 })
    match provenTo s s.hbr.tnum with
    | p :: _ => sendCtrl s p 0x0A 0
    | [] => s

/-- After D3 every path's MISSED count starts again (R207). -/
def clearMissed (s : State) : State := { s with paths := Table.mapVals {} (fun _ x => { x with missed := 0 }) s.paths }

/-- Mode changes that waited for the wake (R500). -/
def lateModes (s : State) : State :=
  let m := s.boot.lateMaint
  let q := s.boot.lateQuar
  let s := { s with boot := { s.boot with lateMaint := none, lateQuar := none } }
  match m, q with
  | some c, _ => if c = 3 ∨ c = 4 then tamperResponse s c else maintNow s c
  | none, some c => quarNow s c
  | none, none => s

/-- A DROWSE_REQ follows a negotiation wake (R189, R513). -/
def negotiate (s : State) : State :=
  if !s.pwr.nego then s
  else
    match provenTo s s.hbr.tnum with
    | p :: _ =>
      if s.hbr.tstate = 2 then sendCtrl { s with pwr := { s.pwr with reqOut := true } } p 8 0
      else { s with pwr := { s.pwr with nego := false } }
    | [] => { s with pwr := { s.pwr with nego := false } }

/-- Ticks of a wake in units of 100 ns, saturating (R524). -/
def wakeLatency (s : State) : BitVec 16 :=
  let n := since s s.pwr.wakeTick / 10
  if n < 65536 then BitVec.ofNat 16 n else 0xFFFF

/-- WAKE_COMPLETE (R461, R500, R518 to R521, R524). -/
def execWakeComplete (s : State) : Out :=
  .next (
    if !s.pwr.waking then s
    else
      let d3 := decide (s.blk.mode = 4) && decide (s.blk.dlevel = 3)
      let stopped := s.fstop
      let p := s.pwr
      let s := { s with fstop := false, pwr := { p with waking := false, entering := 0, wakeValid := true, wakeLat := wakeLatency s,
                                                        step := if stopped && !p.hold then p.tgt else p.step } }
      let s := if d3 then clearMissed s else s
      let s := if s.blk.mode = 4 then setMode s (if s.hbr.tstate = 4 ∨ s.hbr.tstate = 5 then 5 else 3) 0 else s
      let s := wakeTwin (transferLatches s)
      let q := s.pwr.capq
      let s := q.foldl replay { s with pwr := { s.pwr with capq := [] } }
      negotiate (lateModes s))

/-- HEARTBEAT_UNIT_SEND (R161, R205, R514): in D2 the heartbeat unit sends heartbeats and, every 1 ms, MEMBER frames. -/
def execHeartbeatUnitSend (s : State) : Out :=
  .next (
    if !s.fstop || decide (s.blk.dlevel ≠ 2) then s
    else
      let s := (beatPaths s).foldl sendHeartbeat s
      if 100000 ≤ since s s.tw.memberAt then sendMembers s else s)

end Sys2Proof.Machine
end

