-- ==== Sys2Proof/Machine/Custom.lean ====
section
/-! DEFINITION. Machine/Custom.lean: custom micro-routines (R359, R414, R415), run micro-op by micro-op from the
pilot's vintage bank (R393 to R406).  Where the rules leave a micro-op's operands or corners open, log 50 says what
the model takes. -/

namespace Sys2Proof.Machine

/-- A routine under way: the state with its results and the state at the last commit (R404); the micro-address;
U0 to U7; the memory data register; the immediate; the micro-stack; UZ, UN, UC, UV, TOK and UFAIL (R395); the address
after a delay slot (R396); that a CW has passed (R405); and what both runs of the last micro-op put into w0 and w1, and its result tag
(R424, R426). -/
structure UCtx where
  s : State
  base : State
  a : Nat
  u : Table TWord
  md : TWord
  imm : TWord
  stk : List Nat
  uz : Bool
  un : Bool
  uc : Bool
  uv : Bool
  tok : Bool
  ufail : Bool
  slot : Option Nat
  cw : Bool
  tw : (W64 × W64) × (W64 × W64) × BitVec 4 := ((0, 0), (0, 0), 0)
deriving DecidableEq, Repr

/-- A micro-temporary before anything is written to it holds no meaning (R404): a free value with a free tag. -/
def freeTemp (s : State) (k : Nat) : TWord :=
  ⟨Config.freeWord (s.freeCtr + k), (Config.freeWord (s.freeCtr + 16 + k)).setWidth 4⟩

/-- The start of a routine at micro-address `a`. -/
def startU (s : State) (a : Nat) : UCtx :=
  let t := { s with freeCtr := s.freeCtr + 32 }
  let b := Config.freeWord (s.freeCtr + 10)
  { s := t, base := t, a := a, u := Table.putList emptyW [] 0 ((List.range 8).map (freeTemp s)), md := freeTemp s 8,
    imm := intW (Config.freeWord (s.freeCtr + 9)), stk := [], uz := b.getLsbD 0, un := b.getLsbD 1, uc := b.getLsbD 2,
    uv := b.getLsbD 3, tok := b.getLsbD 4, ufail := b.getLsbD 5, slot := none, cw := false }

/-! Operands (R400). -/

/-- The X register that codes 0x18 and 0x19 name. -/
def xOf (f : RRR) : Nat := f.d.toNat % 4

def UCtx.rd (c : UCtx) (f : RRR) (pc : BitVec 18) (w : BitVec 48) (code : Nat) : TWord :=
  let x := pilot c.s f.p
  let b := x.bankCur
  if code = 0 then x.reg f.s
  else if code = 1 then x.reg f.t
  else if code = 2 then x.reg f.d
  else if code = 3 then x.reg (uArg w)
  else if code = 4 then x.reg (f.d + 1)
  else if 8 ≤ code ∧ code ≤ 15 then Table.get emptyW c.u (code - 8)
  else if code = 0x10 then intW ((uLit w).setWidth 64)
  else if code = 0x11 then c.imm
  else if code = 0x12 then ⟨pc.setWidth 64, 5⟩
  else if code = 0x13 then intW x.cx
  else if code = 0x14 then b.mh
  else if code = 0x15 then b.ml
  else if code = 0x16 then c.md
  else if code = 0x18 then ⟨(b.xreg (xOf f)).val.extractLsb' 0 64, (b.xreg (xOf f)).tag⟩
  else if code = 0x19 then ⟨(b.xreg (xOf f)).val.extractLsb' 64 64, (b.xreg (xOf f)).tag⟩
  else intW 0

/-- Write an operand code; codes that are not writable, and 0x3F, write nothing. -/
def UCtx.wr (c : UCtx) (f : RRR) (w : BitVec 48) (code : Nat) (v : TWord) : UCtx :=
  let up : (Pilot → Pilot) → UCtx := fun g => { c with s := updPilot c.s f.p g }
  if code = 0 then up (fun x => x.wr f.s v)
  else if code = 1 then up (fun x => x.wr f.t v)
  else if code = 2 then up (fun x => x.wr f.d v)
  else if code = 3 then up (fun x => x.wr (uArg w) v)
  else if code = 4 then up (fun x => x.wr (f.d + 1) v)
  else if 8 ≤ code ∧ code ≤ 15 then { c with u := Table.put emptyW c.u (code - 8) v }
  else if code = 0x13 then up (fun x => { x with cx := v.val })
  else if code = 0x14 then up (fun x => x.setCur { x.bankCur with mh := v, dirty := x.bankCur.dirty ||| 16 })
  else if code = 0x15 then up (fun x => x.setCur { x.bankCur with ml := v, dirty := x.bankCur.dirty ||| 16 })
  else if code = 0x16 then { c with md := v }
  else if code = 0x18 then up (fun x =>
    x.setCur (x.bankCur.setX (xOf f) ⟨(x.bankCur.xreg (xOf f)).val.extractLsb' 64 64 ++ v.val, v.tag⟩))
  else if code = 0x19 then up (fun x =>
    x.setCur (x.bankCur.setX (xOf f) ⟨v.val ++ (x.bankCur.xreg (xOf f)).val.extractLsb' 0 64, v.tag⟩))
  else c

/-- The operand number that TV of a TAG trap gives (R369). -/
def opNum (code : Nat) : BitVec 2 := if code = 0 then 0 else if code = 1 then 1 else if code = 2 then 2 else 3

/-! Tag checks (R401). -/

/-- The tag that a rule yields and whether the row leaves the flags (R310), or TV of the TAG trap. -/
def tchk (k : Nat) (world : Bool) (a b : TWord) (ka kb : BitVec 2) : W64 ⊕ (BitVec 4 × Bool) :=
  let pair : (BitVec 4 → Bool) → BitVec 4 → W64 ⊕ (BitVec 4 × Bool) := fun ok t =>
    match tagFail world [(a, ka, ok), (b, kb, ok)] with
    | some tv => .inl tv
    | none => .inr (t, false)
  let one : (BitVec 4 → Bool) → W64 ⊕ (BitVec 4 × Bool) := fun ok =>
    match tagFail world [(a, ka, ok)] with
    | some tv => .inl tv
    | none => .inr (a.tag, false)
  let row : Option (TWord × Option Res) → (BitVec 4 → Bool) → W64 ⊕ (BitVec 4 × Bool) := fun r ok =>
    match tagFail world [(a, ka, anyTag), (b, kb, anyTag)], r with
    | some tv, _ => .inl tv
    | none, some (w, fl) => .inr (w.tag, fl.isNone)
    | none, none => .inl (if ok a.tag then tagTv b.tag kb else tagTv a.tag ka)
  match k with
  | 0 => .inr (a.tag, false)
  | 1 => pair isInt 1
  | 2 => row (addRule a b) addSrc
  | 3 => row (subRule a b) addSrc
  | 4 => row ((cmpRule a b).map (fun r => (intW r.r, some r))) cmpSrc
  | 5 => pair isIntBits (logicTag a.tag b.tag)
  | 6 => pair isDec 3
  | 7 => one isAddr
  | 8 => one isInt
  | 9 => one isCode
  | 10 => one isHandle
  | 11 => one isDesc
  | _ => one (fun t => decide (t = 9))

/-- The result tag (R401). -/
def tresTag (k : Nat) (rule a b : BitVec 4) : BitVec 4 :=
  if k = 0 then rule else if k = 10 then a else if k = 11 then b else if k = 14 then 0 else BitVec.ofNat 4 k

/-- A result tag that R309 lets no datapath result carry: HANDLE, DESC, KEYREF and SEAL, and CODE but as the rule's
own tag. -/
def minted (t rule : BitVec 4) : Bool :=
  decide (t = 6) || decide (t = 8) || decide (t = 9) || decide (t = 15) || (decide (t = 5) && decide (rule ≠ 5))

/-! Units (R399). -/

/-- A unit's result: the state, the value, flags N, Z, V, C, D, and the tag it comes with, if its own. -/
structure URes where
  s : State
  r : W64
  n : Bool
  z : Bool
  v : Bool
  c : Bool
  d : Bool
  tag : Option (BitVec 4) := none
  u6 : Option W64 := none
deriving DecidableEq, Repr

/-- How a unit's operation ends. -/
inductive UOut where
  | ok (r : URes)
  | trap (code : BitVec 4) (tv : W64)
  | hit (c : Access)
deriving DecidableEq, Repr

/-- A result whose flags are N and Z of the value. -/
def plainRes (s : State) (w : Sw) (r : W64) : URes := ⟨s, r, r.msb, decide (r = 0), false, w.c, w.d, none, none⟩

def ofRes (s : State) (w : Sw) (r : Res) : URes := ⟨s, r.r, r.n, r.z, r.v, r.c, w.d, none, none⟩

/-- UNIT 0x0: the operations of R321. -/
def aluUnit (op : Nat) (s : State) (w : Sw) (a b : TWord) : URes :=
  let m := b.val.toNat % 128
  let logic : W64 → URes := fun r => ofRes s w (logicRes r w.c)
  match op with
  | 0 => { ofRes s w (addRes a.val b.val false) with
           r := if a.tag = 4 then addrAdd a.val b.val else if b.tag = 4 then addrAdd b.val a.val else a.val + b.val }
  | 1 => ofRes s w (addRes a.val b.val w.c)
  | 2 => { ofRes s w (subRes a.val b.val false) with
           r := if a.tag = 4 ∧ b.tag ≠ 4 then addrSub a.val b.val else a.val - b.val }
  | 3 => ofRes s w (subRes a.val b.val w.c)
  | 4 => logic (a.val &&& b.val)
  | 5 => logic (a.val ||| b.val)
  | 6 => logic (a.val ^^^ b.val)
  | 7 => logic (a.val &&& ~~~b.val)
  | 8 => ofRes s w (shiftRes .shl a.val m w.c)
  | 9 => ofRes s w (shiftRes .shr a.val m w.c)
  | 10 => ofRes s w (shiftRes .sar a.val m w.c)
  | 11 => ofRes s w (shiftRes .rol a.val (m % 64) w.c)
  | 12 => ofRes s w (shiftRes .ror a.val (m % 64) w.c)
  | 13 => ofRes s w (subRes a.val b.val false)
  | 14 => logic (a.val &&& b.val)
  | 15 => ofRes s w (subRes 0 a.val false)
  | 16 => logic (~~~a.val)
  | 17 => plainRes s w (if a.val.slt b.val then a.val else b.val)
  | 18 => plainRes s w (if b.val.slt a.val then a.val else b.val)
  | 19 => plainRes s w (if a.val.ult b.val then a.val else b.val)
  | 20 => plainRes s w (if b.val.ult a.val then a.val else b.val)
  | 21 => plainRes s w (BitVec.ofNat 64 (clzFrom a.val 64))
  | 22 => plainRes s w (BitVec.ofNat 64 (popFrom a.val 64))
  | _ => plainRes s w (bswap64 a.val)

/-- UNIT 0x1: the operations of R326.  A divide's remainder goes to D(d + 1); X registers are named by the
instruction's fields. -/
def mulUnit (op : Nat) (f : RRR) (s : State) (w : Sw) (a b : TWord) : UOut :=
  let x := pilot s f.p
  let k := xOf f
  let empty := decide ((x.bankCur.xreg k).tag = 0)
  let half := x.bankCur.xreg (f.s.toNat % 4)
  match op with
  | 0 => .ok (plainRes (startMul s f.p .mhml (mulS a.val b.val)) w 0)
  | 1 => .ok (plainRes (startMul s f.p .mhml (mulU a.val b.val)) w 0)
  | 2 =>
    if b.val = 0 then .trap 10 0
    else .ok { plainRes (updPilot s f.p (fun x => x.wrInt (f.d + 1) (a.val.srem b.val))) w (a.val.sdiv b.val) with
               v := divOverflow a.val b.val }
  | 3 =>
    if b.val = 0 then .trap 10 0
    else .ok (plainRes (updPilot s f.p (fun x => x.wrInt (f.d + 1) (a.val.umod b.val))) w (a.val.udiv b.val))
  | 4 => if empty then .trap 4 (tagTv 0 2) else .ok (plainRes (startMul s f.p (.acc k) (xBase x k + mulS a.val b.val)) w 0)
  | 5 => if empty then .trap 4 (tagTv 0 2) else .ok (plainRes (startMul s f.p (.acc k) (xBase x k + mulU a.val b.val)) w 0)
  | 6 =>
    if half.tag = 0 then .trap 4 (tagTv 0 0)
    else .ok (plainRes s w (if f.t.getLsbD 0 then half.val.extractLsb' 64 64 else half.val.extractLsb' 0 64))
  | 7 => .ok (plainRes (updPilot s f.p (fun x => x.setCur (x.bankCur.setX k ⟨b.val ++ a.val, 1⟩))) w 0)
  | _ => .ok (plainRes (updPilot s f.p (fun x => x.setCur (x.bankCur.setX k ⟨0, 1⟩))) w 0)

/-- UNIT 0x2: the operations of R330 and the word operations; `uc` is UC, `u6` U6 and `t` the destination's value. -/
def decUnit (op : Nat) (s : State) (w : Sw) (a b : TWord) (uc : Bool) (u6 t : W64) : UOut :=
  let signed : Int → UOut := fun i =>
    let r := decWord i
    .ok { plainRes s w r with n := decide (decVal r < 0), z := decide (decVal r = 0), d := decide (10 ^ 15 ≤ i.natAbs) }
  let chk : List W64 → (W64 → Bool) → UOut → UOut := fun vs ok k =>
    match vs.find? (fun v => !ok v) with
    | some v => .trap 11 v
    | none => k
  match op with
  | 0 => chk [a.val, b.val] decOk (signed (decVal a.val + decVal b.val))
  | 1 => chk [a.val, b.val] decOk (signed (decVal a.val - decVal b.val))
  | 2 => chk [a.val, b.val] decOk (.ok { plainRes s w 0 with
      n := decide (decVal a.val < decVal b.val), z := decide (decVal a.val = decVal b.val) })
  | 3 => signed a.val.toInt
  | 4 => chk [a.val] decOk (.ok (plainRes s w (BitVec.ofInt 64 (decVal a.val))))
  | 0x10 => chk [a.val, b.val] digOk (let r := decStep false a.val b.val uc; .ok { plainRes s w r.1 with c := r.2 })
  | 0x11 => chk [a.val, b.val] digOk (let r := decStep true a.val b.val uc; .ok { plainRes s w r.1 with c := r.2 })
  | _ => chk [a.val, t, u6] digOk (
      let v := digVal t + digVal a.val * (b.val.toNat % 16) + digVal u6
      .ok { plainRes s w (digWord v) with u6 := some (digWord (v / 10 ^ 16)) })

/-- UNIT 0x3: the access forms of R334 at address A + B; A must be ADDR.  A store takes the memory data register, and a
load fills it. -/
def memUnit (op : Nat) (f : RRR) (pc : BitVec 18) (s : State) (w : Sw) (a b md : TWord) (ka : BitVec 2) : UOut :=
  let ad := addrAdd a.val b.val
  let sz := if op = 2 ∨ op = 5 then 1 else if op = 3 ∨ op = 6 then 2 else if op = 4 ∨ op = 7 then 4 else 8
  let fin : Acc → UOut := fun r =>
    match r with
    | .ok s v => .ok { plainRes s w v.val with tag := some v.tag }
    | .trap c tv => .trap c tv
    | .hit c => .hit c
  if a.tag ≠ 4 then .trap 4 (tagTv a.tag ka)
  else if op = 1 ∨ (5 ≤ op ∧ op ≤ 7) then
    if tagReadable md.tag w.world = false then .trap 4 (tagTv md.tag 3) else fin (storeMem s f.p pc ad sz md 3)
  else
    match loadMem s f.p pc ad sz (if sz = 8 then loadTag w.world else subTag) with
    | .ok s v => fin (.ok (if op = 8 ∧ aSpace ad = 2 then winTake s true (aOff ad) else s) v)
    | r => fin r

/-- UNIT 0x4: a read of control register `n` (R306). -/
def crUnit (n : Nat) (f : RRR) (s : State) (w : Sw) (word : W64) : UOut :=
  match crInfo n with
  | none => .trap 1 word
  | some (u, allSeal, _) =>
    if (w.priv = false ∧ u = .no) ∨ crPriv (pilot s f.p) n allSeal = true then .trap 2 word
    else if n = 0x201 ∨ n = 0x204 then .ok { plainRes (crTake s f.p n) w (crPeekTake s f.p n) with tag := some 1 }
    else
      let v := crRead s f.p n
      if tagReadable v.tag w.world = false then .trap 4 (tagTv v.tag 0)
      else .ok { plainRes s w v.val with tag := some v.tag }

/-- One unit's operation.  Units 0x5 to 0x7 and control-register writes are in no loaded routine (R415). -/
def UCtx.run (c : UCtx) (f : RRR) (pc : BitVec 18) (word : W64) (w : BitVec 48) (n : BitVec 128) (a b t : TWord) : UOut :=
  let sw := (pilot c.s f.p).sw
  match nUnit n with
  | 0 => .ok (aluUnit (nUop n) c.s sw a b)
  | 1 => mulUnit (nUop n) f c.s sw a b
  | 2 => decUnit (nUop n) c.s sw a b c.uc (Table.get emptyW c.u 6).val t.val
  | 3 => memUnit (nUop n) f pc c.s sw a b c.md (opNum (nAsrc n))
  | 4 => crUnit ((uArg w).toNat * 128 + (uLit w).toNat) f c.s sw word
  | _ => .ok (plainRes c.s sw 0)

/-- w0 of both runs of a unit's operation with result `r` (R424, R426). -/
def unitPair (unit op : Nat) (a b : TWord) (c uc : Bool) (r : W64) : W64 × W64 :=
  match unit with
  | 0 =>
    (r, if op = 0 ∧ a.tag = 4 then shAddr a.val b.val else if op = 0 ∧ b.tag = 4 then shAddr b.val a.val
        else if op = 2 ∧ a.tag = 4 ∧ b.tag ≠ 4 then shAddr a.val (0 - b.val) else aluShadow op a.val b.val c)
  | 1 => (mulVal op a.val b.val, mulShadow op a.val b.val)
  | 2 => (decUVal op a.val b.val uc, decUShadow op a.val b.val uc)
  | _ => (r, r)

/-- w1 of both runs: a memory address, or a control register's number (R426). -/
def addrPair (unit : Nat) (w : BitVec 48) (a b : TWord) : W64 × W64 :=
  match unit with
  | 3 => (addrAdd a.val b.val, shAddr a.val b.val)
  | 4 =>
    let n : W64 := BitVec.ofNat 64 ((uArg w).toNat * 128 + (uLit w).toNat)
    (n, n)
  | _ => (0, 0)

/-- SW after a micro-op with FUPD (R397). -/
def fupdSw (w : Sw) (m : BitVec 5) (r : URes) : Sw :=
  { w with d := if m.getLsbD 4 then r.d else w.d, n := if m.getLsbD 3 then r.n else w.n,
           z := if m.getLsbD 2 then r.z else w.z, v := if m.getLsbD 1 then r.v else w.v,
           c := if m.getLsbD 0 then r.c else w.c }

/-- How a micro-op ends: the routine goes on, or a trap, or a watchpoint. -/
inductive UStep where
  | ok (c : UCtx)
  | trap (code : BitVec 4) (tv : W64)
  | hit (a : Access)
deriving DecidableEq, Repr

/-- The datapath of one micro-op: tag check, unit, result, flags and the move slot (R397, R399 to R401). -/
def UCtx.dataOp (c : UCtx) (f : RRR) (pc : BitVec 18) (word : W64) (w : BitVec 48) (n : BitVec 128) : UStep :=
  let c := if n.getLsbD 82 then { c with s := updPilot c.s f.p Pilot.drain } else c
  let world := (pilot c.s f.p).sw.world
  let a := c.rd f pc w (nAsrc n)
  let b := c.rd f pc w (nBsrc n)
  let mv := c.rd f pc w (nMsrc n)
  let moved : UCtx → UCtx := fun c => if nMsrc n = 0x3F then c else c.wr f w (nMdst n) mv
  match (if nMsrc n = 0x3F then none else tagFail world [(mv, opNum (nMsrc n), anyTag)]) with
  | some tv => .trap 4 tv
  | none =>
    if nUnit n = 8 then .ok (moved { c with tw := ((0, 0), (0, 0), 0) })
    else
      match tchk (nTchk n) world a b (opNum (nAsrc n)) (opNum (nBsrc n)) with
      | .inl tv => .trap 4 tv
      | .inr (rule, keep) =>
        match c.run f pc word w n a b (c.rd f pc w (nDst n)) with
        | .trap code tv => .trap code tv
        | .hit h => .hit h
        | .ok r =>
          let rule := r.tag.getD rule
          let tag := tresTag (nTres n) rule a.tag b.tag
          if nDst n ≠ 0x3F ∧ r.tag.isNone = true ∧ minted tag rule = true then .trap 4 (tagTv tag (opNum (nBsrc n)))
          else
            let tw := (unitPair (nUnit n) (nUop n) a b (pilot c.s f.p).sw.c c.uc r.r, addrPair (nUnit n) w a b, tag)
            let c := moved { c with s := r.s, tw := tw }
            let c := if nUnit n = 3 then { c with md := ⟨r.r, rule⟩ } else c
            let c := match r.u6 with
              | some v => { c with u := Table.put emptyW c.u 6 ⟨v, 3⟩ }
              | none => c
            let c := c.wr f w (nDst n) ⟨r.r, tag⟩
            let c := if keep then c
              else { c with s := updPilot c.s f.p (fun x => { x with sw := fupdSw x.sw (nFupd n) r }) }
            .ok { c with uz := decide (r.r = 0), un := r.r.msb, uc := r.c, uv := r.v, tok := true }

/-! The sequencer (R394 to R396). -/

/-- A condition input (R395). -/
def UCtx.cond (c : UCtx) (f : RRR) (pc : BitVec 18) (w : BitVec 48) : Bool :=
  let x := pilot c.s f.p
  let b := x.bankCur
  match uCsel w with
  | 0 => true
  | 1 => x.sw.n
  | 2 => x.sw.z
  | 3 => x.sw.v
  | 4 => x.sw.c
  | 5 => x.sw.d
  | 6 => c.uz
  | 7 => c.un
  | 8 => c.uc
  | 9 => c.uv
  | 10 => x.sw.guardMet f.g
  | 11 => decide (cxKind x = 0)
  | 12 => decide (cxKind x = (uLit w).toNat % 16)
  | 13 => (match presented c.s f.p with
           | some (_, l) => deliverable x l
           | none => false)
  | 14 => x.mb
  | 15 => decide ((Table.get emptyW c.u 7).val = 0)
  | 16 => c.tok
  | 17 => x.sw.world
  | 18 => x.sw.priv
  | 19 => b.glnk.v
  | 20 => atLoopEnd x pc
  | 21 => decide ((if x.inSpill then 32 else 28) ≤ b.rcache.length)
  | 22 => b.rcache.isEmpty
  | 23 => c.ufail
  | 24 => x.slotMark
  | 25 => x.dbg.deferred.isSome || x.dbg.again.isSome || extReq c.s f.p
  | _ => false

/-- CW commits what the routine has done, and ends the SLOT input (R396, R404). -/
def UCtx.commit (c : UCtx) (p : Nat) : UCtx :=
  let s := updPilot c.s p (fun x => { x with slotMark := false })
  { c with s := s, base := s, cw := true }

/-- How a routine ends. -/
inductive UEnd where
  | fin (s : State)
  | trap (code : BitVec 4) (tv : W64) (s : State) (slot : Bool)
  | hit (a : Access) (s : State)
  | wait (s : State)
deriving DecidableEq, Repr

/-- A pilot check at micro-address `a` (R440). -/
def checkEnd (cause : BitVec 4) (a : Nat) (s : State) (slot : Bool) : UEnd :=
  .trap 14 (cause ++ (0 : BitVec 46) ++ BitVec.ofNat 14 a) s slot

/-- TV of a TRAP micro-op (R369): the instruction's word, 0 for DIV, and a free value for the rest. -/
def trapTv (code : BitVec 4) (word : W64) (s : State) : W64 :=
  if code = 1 ∨ code = 2 ∨ code = 3 then word else if code = 10 then 0 else Config.freeWord s.freeCtr

/-- The micro-address after a word (R394, R396). -/
def UCtx.nextA (c : UCtx) (w : BitVec 48) (word : W64) : Nat :=
  match c.slot with
  | some a => a
  | none =>
    match uSeq w with
    | 3 => c.stk.headD 0
    | 5 => uTarget w + 2 * (word.extractLsb' 0 7).toNat
    | _ => c.a + 1

/-- The micro-op enters the window with its two runs (R426), and the window closes at CW or at its 16th micro-op, which
for a BR or CALL is its delay slot (R427). -/
def UCtx.note (c : UCtx) (p : Nat) (w : BitVec 48) (held : Bool) (word : W64) : UCtx :=
  let sw := (pilot c.s p).sw
  let na := BitVec.ofNat 14 (c.nextA w word)
  let ((v, v'), (ad, ad'), tag) := c.tw
  let s := noteOp c.s p none [v, ad, tallyW2 tag sw held false 0 na] [v', ad', tallyW2 (shTag tag) sw held false 0 na] 1
  let branch := c.slot.isNone && (decide (uSeq w = 1) || decide (uSeq w = 2))
  { c with s := if uCw w || (decide (16 ≤ (pilot s p).win.ops) && !branch) then closeInside s p else s }

/-- The micro-ops of a routine, at most `fuel` (R406). -/
def runU (t : Store) (f : RRR) (pc : BitVec 18) (word : W64) : Nat → UCtx → UEnd
  | 0, c => checkEnd 3 c.a c.base c.slot.isSome
  | fuel + 1, c =>
    let w := t.u c.a
    let n := t.n (uNano w)
    let slot := c.slot.isSome
    let held := c.cond f pc w != uCpol w
    if nTrap n then
      if c.cw then checkEnd 1 c.a c.base slot
      else .trap (nTcode n) (trapTv (nTcode n) word c.base) { c.base with freeCtr := c.base.freeCtr + 1 } slot
    else
      match c.dataOp f pc word w n with
      | .trap code tv => if c.cw then checkEnd 1 c.a c.base slot else .trap code tv c.base slot
      | .hit h => .hit h c.base
      | .ok c =>
        let c := c.note f.p w held word
        let c := if uCw w then c.commit f.p else c
        if (pilot c.s f.p).win.bad then .fin c.s
        else
        match c.slot with
        | some a => runU t f pc word fuel { c with a := a, slot := none }
        | none =>
          match uSeq w with
          | 0 => runU t f pc word fuel { c with a := c.a + 1 }
          | 1 => runU t f pc word fuel { c with a := c.a + 1, slot := some (if held then uTarget w else c.a + 2) }
          | 2 =>
            if held && decide (4 ≤ c.stk.length) then checkEnd 2 c.a c.base slot
            else runU t f pc word fuel
              { c with a := c.a + 1, slot := some (if held then uTarget w else c.a + 2),
                       stk := if held then (c.a + 2) :: c.stk else c.stk }
          | 3 =>
            match c.stk with
            | [] => checkEnd 2 c.a c.base slot
            | r :: rs => runU t f pc word fuel { c with a := r, stk := rs }
          | 5 => runU t f pc word fuel { c with a := uTarget w + 2 * (word.extractLsb' 0 7).toNat }
          | 6 => if (presented c.s f.p).isSome then runU t f pc word fuel { c with a := c.a + 1 } else .wait c.base
          | _ => .fin c.s

/-- The vintage that a pilot runs from; the Harbourmaster and ROOT have no custom routine (R409). -/
def vintageOf (s : State) (p : Nat) : Option Store :=
  let x := pilot s p
  if p = hmNo ∨ x.src = 0 then none
  else
    let v := vbankOf s (clusterOf p) (decide (x.src = 2))
    some ⟨v.micro, v.nano⟩

/-- The slot of MAJOR 0x2C + `k` and `fn` holds a routine (R359, R414). -/
def hasRoutine (s : State) (p : Nat) (k : BitVec 2) (fn : BitVec 7) : Bool :=
  match vintageOf s p with
  | some t => !t.trapRsv (fnSlot k.toNat fn.toNat)
  | none => false

/-- The level that a TRAP micro-op's code is taken at (R369). -/
def utrapLevel (x : Pilot) (code : BitVec 4) : BitVec 3 := if code = 15 then x.dmon else trapLevel code

/-- The pilot's SLOT input (R394, R396). -/
def setSlotMark (s : State) (p : Nat) (m : Bool) : State := updPilot s p (fun x => { x with slotMark := m })

/-- The routine's effect; `m` is the SLOT input at its start.  A trap restores what stood at the last commit, and SLOT tells whether a delay-slot micro-op
raised it (R396, R404). -/
def customBody (k : BitVec 2) (fn : BitVec 7) (f : RRR) (word : W64) (m : Bool) (pc : BitVec 18) (s : State) : PRes :=
  match vintageOf s f.p with
  | none => .trap 1 word s
  | some t =>
    match runU t f pc word 4096 (startU (setSlotMark s f.p m) (fnSlot k.toNat fn.toNat)) with
    | .fin s => .done (setSlotMark s f.p false)
    | .trap code tv s slot =>
      .stop (srcSwitch (takeTrapAt s f.p (utrapLevel (pilot s f.p) code) code tv pc slot) f.p)
    | .hit c s => .stop (watch s f.p pc c).1
    | .wait s => .stop (updPilot s f.p (fun x => { x with pc := pc }))

/-- CUSTOM_ROUTINE (R359, R414, R415). -/
def execCustomRoutine (k : BitVec 2) (fn : BitVec 7) (f : RRR) (s : State) : Out :=
  let word := rrrWord f (0x2C + k.setWidth 6) fn
  let m := (pilot s f.p).slotMark
  .next (issue ⟨f.p, f.g, 1, word, !hasRoutine s f.p k fn, false, false, 0⟩ s (fun pc s =>
    customBody k fn f (word.setWidth 64) m pc s))

end Sys2Proof.Machine
end

