-- ==== Sys2Proof/Machine/Tick.lean ====
section
/-! DEFINITION. Machine/Tick.lean: the watchdogs (R478 to R483), the wake of a target (R459), and one tide tick of the
block. -/

namespace Sys2Proof.Machine

/-- The cause of the wake that source `n` starts (R519): a bell, HMMSG, or any other activity. -/
def wakeCauseOf (n : Nat) : BitVec 4 := if 0x100 ≤ n ∧ n ≤ 0x1FF then 2 else if n = 9 then 4 else 7

/-- TARGET_WAKE (R459): a pending, enabled source has eligible targets, none of them awake. -/
def execTargetWake (n : Nat) (s : State) : Out :=
  .next (
    let ts := (pilotNos s).filter (eligible s n)
    if srcExists s n && pendOf s n && !ts.isEmpty && ts.all (fun p => !awake s p) then startWake s (wakeCauseOf n) else s)

/-! Pilot watchdogs. -/

/-- WDCNT of pilot `p` reaches 0 (R480): the expiry is taken at the pilot's boundary, which is now unless the pilot
reaches none. -/
def watchdogFire (s : State) (p : Nat) : State :=
  let x := pilot s p
  let y := if x.strike then { x with wdcnt := 0, wdgDue := some (s.tide.count, true) }
           else { x with wdcnt := x.wdper, strike := true, wdgDue := some (s.tide.count, false) }
  let s := setPilot s p y
  if atBoundary s p then srcSwitch (watchdogBoundary s p) p else s

/-- WATCHDOG_EXPIRY (R480): the count runs and reaches 0. -/
def execWatchdogExpiry (p : Nat) (s : State) : Out :=
  .next (if pilotExists s p && !wdFrozen s p then watchdogFire s p else s)

/-! The block watchdog. -/

/-- BWD.CNT counts down (R482). -/
def bwdRuns (s : State) : Bool :=
  !s.boot.porHeld && decide (s.blk.mode ≠ 4) && !(pilot s hmNo).atMonitor

/-- Stage 1 (R483). -/
def bwdFirst (s : State) : State :=
  let s := { s with bwd := { s.bwd with stage := 1, cnt := s.bwd.period } }
  if s.blk.mode = 3 ∨ s.blk.mode = 5 then quarantine s 8
  else if s.blk.mode = 0 ∨ s.blk.mode = 1 ∨ s.blk.mode = 2 then maintNow s 8
  else s

/-- Stage 2 (R483): ctl_bwd_n is asserted until warm reset. -/
def bwdSecond (s : State) : State :=
  { s with bwd := { s.bwd with stage := 2, cnt := 0 }, boot := { s.boot with bwdN := true } }

/-- BWD_STAGE1 (R483). -/
def execBwdStage1 (s : State) : Out :=
  .next (if bwdRuns s = true ∧ s.bwd.stage = 0 then bwdFirst s else s)

/-- BWD_STAGE2 (R483). -/
def execBwdStage2 (s : State) : Out :=
  .next (if bwdRuns s = true ∧ s.bwd.stage = 1 then bwdSecond s else s)

/-! One tide tick. -/

/-- Fast-clock cycles in 10 ns at the step of PWR.FCLK (R522); none while the clock stands. -/
def fcPerTick (s : State) : Nat :=
  if s.fstop then 0 else if s.pwr.step = 0 then 20 else if s.pwr.step = 1 then 16 else 12

/-- LEASE of one held mooring after `fc` cycles (R138); at 0 it breaks (R139). -/
def tickLease (fc : Nat) (s : State) (m : MoorRef) : State :=
  let x := moorOf s m
  if x.mst ≠ 1 ∨ (pilot s x.owner.toNat).frozen = true then s
  else if x.lease.toNat ≤ fc then leaseBreakDebug (breakMoor s m .lease) x.owner.toNat x.bank.toNat
  else setMoor s m { x with lease := BitVec.ofNat 13 (x.lease.toNat - fc) }

/-- The moorings that are held. -/
def heldMoors (s : State) : List MoorRef :=
  (s.own.filter (fun e => decide (e.2.moor.mst = 1))).map (fun e => .emb e.1) ++
    (s.moor.filter (fun e => decide (e.2.mst = 1))).map (fun e => .alone e.1)

/-- What the fast clock advances in one tick: the arbiters' count, leases, and event counters of KIND 3 (R107, R138,
R476). -/
def tickFast (s : State) : State :=
  let fc := fcPerTick s
  if fc = 0 then s
  else
    let s := { s with arbCount := s.arbCount + BitVec.ofNat 32 fc }
    let s := (heldMoors s).foldl (tickLease fc) s
    (s.ecnt.map (·.1)).foldl (fun s k => if (ecntOf s k).kind = 3 then tickEcnt fc s k else s) s

/-- WDCNT of one pilot (R478). -/
def tickWatchdog (s : State) (p : Nat) : State :=
  let x := pilot s p
  if wdFrozen s p || decide (x.wdcnt = 0) then s
  else if x.wdcnt = 1 then watchdogFire s p
  else setPilot s p { x with wdcnt := x.wdcnt - 1 }

/-- BWD.CNT (R482, R483). -/
def tickBwd (s : State) : State :=
  if !bwdRuns s || decide (s.bwd.cnt = 0) then s
  else if s.bwd.cnt = 1 then
    (if s.bwd.stage = 0 then bwdFirst s else if s.bwd.stage = 1 then bwdSecond s
     else { s with bwd := { s.bwd with cnt := 0 } })
  else { s with bwd := { s.bwd with cnt := s.bwd.cnt - 1 } }

/-- PWR.RES (R524): ticks at the present level, in Service and Drowse. -/
def tickRes (s : State) : State :=
  let add : Nat → State := fun l =>
    { s with pwr := { s.pwr with res := Table.put 0 s.pwr.res l (Table.get 0 s.pwr.res l + 1) } }
  if s.blk.mode = 3 then add 0 else if s.blk.mode = 4 then add s.blk.dlevel.toNat else s

/-- What a tick advances: the count, the bells, the event counters of KIND 2, the watchdogs and PWR.RES (R465, R469,
R471, R476, R478, R482). -/
def tickTide (s : State) : State :=
  let s := { s with tide := { s.tide with count := s.tide.count + 1 } }
  let s := (s.bells.map (·.1)).foldl tickBell s
  let s := (s.ecnt.map (·.1)).foldl (fun s k => if (ecntOf s k).kind = 2 then tickEcnt 0 s k else s) s
  tickRes (tickBwd ((s.pilots.map (·.1)).foldl tickWatchdog s))

/-- 10 ns of the block with nothing commanded (log 51): power-on reset holds the count at 0 (R465), and a step that
slewing has taken back is no tick (R225). -/
def tick (s : State) : State :=
  if s.boot.porHeld then s
  else
    let s := tickFast s
    if s.tide.lag then { s with tide := { s.tide with lag := false } } else tickTide s

end Sys2Proof.Machine
end

