-- ==== Sys2Proof/Machine/Dispatch.lean ====
section
/-! DEFINITION. Machine/Dispatch.lean: one arm per command, each a direct call of its meaning. -/

namespace Sys2Proof.Machine

def exec (i : Instr) (s : State) : Host.Outcome State Fault Refusal :=
  match i with
  -- rings, exchanges and admission
  | .submissionDoorbell w => Sys2Proof.Machine.execSubmissionDoorbell w s
  | .completionDoorbell w => Sys2Proof.Machine.execCompletionDoorbell w s
  | .resume w => Sys2Proof.Machine.execResume w s
  | .cancel w => Sys2Proof.Machine.execCancel w s
  | .maskWrite w => Sys2Proof.Machine.execMaskWrite w s
  | .ringEnable rq n v => Sys2Proof.Machine.execRingEnable rq n v s
  | .ringDisable rq n v => Sys2Proof.Machine.execRingDisable rq n v s
  | .venClear rq n v => Sys2Proof.Machine.execVenClear rq n v s
  | .ltolWrite rq n v => Sys2Proof.Machine.execLtolWrite rq n v s
  | .stampExamine => Sys2Proof.Machine.execStampExamine s
  | .entryDue n => Sys2Proof.Machine.execEntryDue n s
  | .admissionPick => Sys2Proof.Machine.execAdmissionPick s
  | .apick f => Sys2Proof.Machine.execApick f s
  | .pickReadDone p ok data => Sys2Proof.Machine.execPickReadDone p ok data s
  | .aend f => Sys2Proof.Machine.execAend f s
  | .declineFinalRecord n => Sys2Proof.Machine.execDeclineFinalRecord n s
  | .heldRecordWrite idx => Sys2Proof.Machine.execHeldRecordWrite idx s
  | .finalRecordWrite n => Sys2Proof.Machine.execFinalRecordWrite n s
  | .holdoffExpiry n => Sys2Proof.Machine.execHoldoffExpiry n s
  | .holdExpiry idx => Sys2Proof.Machine.execHoldExpiry idx s
  | .planeBurstRevoke plane => Sys2Proof.Machine.execPlaneBurstRevoke plane s
  -- the Manifest and moorings
  | .malloc f => Sys2Proof.Machine.execMalloc f s
  | .mallocG f => Sys2Proof.Machine.execMallocG f s
  | .mallocS f => Sys2Proof.Machine.execMallocS f s
  | .mallocV f => Sys2Proof.Machine.execMallocV f s
  | .mget f => Sys2Proof.Machine.execMget f s
  | .mput f => Sys2Proof.Machine.execMput f s
  | .mstep f => Sys2Proof.Machine.execMstep f s
  | .mwack f => Sys2Proof.Machine.execMwack f s
  | .mdecl f => Sys2Proof.Machine.execMdecl f s
  | .moor f => Sys2Proof.Machine.execMoor f s
  | .unmoor f => Sys2Proof.Machine.execUnmoor f s
  | .mnoteW f => Sys2Proof.Machine.execMnoteW f s
  | .mnoteR f => Sys2Proof.Machine.execMnoteR f s
  | .mforce f => Sys2Proof.Machine.execMforce f s
  | .mrq f => Sys2Proof.Machine.execMrq f s
  | .mscan f upto => Sys2Proof.Machine.execMscan f upto s
  | .mglean f => Sys2Proof.Machine.execMglean f s
  | .gleanerResume => Sys2Proof.Machine.execGleanerResume s
  | .gleanerDone => Sys2Proof.Machine.execGleanerDone s
  | .leaseExpiry m => Sys2Proof.Machine.execLeaseExpiry m s
  | .rollbackComplete idx => Sys2Proof.Machine.execRollbackComplete idx s
  -- Placia and the twin
  | .mirror h units => Sys2Proof.Machine.execMirror h units s
  | .mack h cum => Sys2Proof.Machine.execMack h cum s
  | .mirrorFrameSend => Sys2Proof.Machine.execMirrorFrameSend s
  | .heartbeatSend => Sys2Proof.Machine.execHeartbeatSend s
  | .heartbeat h b => Sys2Proof.Machine.execHeartbeat h b s
  | .hbsusp h => Sys2Proof.Machine.execHbsusp h s
  | .pathMissedInterval p => Sys2Proof.Machine.execPathMissedInterval p s
  | .pathEnable rq p v => Sys2Proof.Machine.execPathEnable rq p v s
  | .pathDisable rq p v => Sys2Proof.Machine.execPathDisable rq p v s
  | .ack h sack q1 q2 => Sys2Proof.Machine.execAck h sack q1 q2 s
  | .retransmitTimer p lane seq => Sys2Proof.Machine.execRetransmitTimer p lane seq s
  | .memberSend => Sys2Proof.Machine.execMemberSend s
  | .member h b => Sys2Proof.Machine.execMember h b s
  | .memberDrop num => Sys2Proof.Machine.execMemberDrop num s
  | .fenced h => Sys2Proof.Machine.execFenced h s
  | .unpairMessage h => Sys2Proof.Machine.execUnpairMessage h s
  | .pair h => Sys2Proof.Machine.execPair h s
  | .pairAck h => Sys2Proof.Machine.execPairAck h s
  | .pairSend => Sys2Proof.Machine.execPairSend s
  | .drowseReq h => Sys2Proof.Machine.execDrowseReq h s
  | .drowseAck h => Sys2Proof.Machine.execDrowseAck h s
  | .wake h => Sys2Proof.Machine.execWake h s
  | .wakeTimeout => Sys2Proof.Machine.execWakeTimeout s
  | .fence h num => Sys2Proof.Machine.execFence h num s
  | .rcmd h rqid berth fused sqe => Sys2Proof.Machine.execRcmd h rqid berth fused sqe s
  | .rdata h rqid off last data => Sys2Proof.Machine.execRdata h rqid off last data s
  | .rcpl h rqid rstat st => Sys2Proof.Machine.execRcpl h rqid rstat st s
  | .noentRetry idx => Sys2Proof.Machine.execNoentRetry idx s
  | .abort h rqid => Sys2Proof.Machine.execAbort h rqid s
  | .quiesce h berth => Sys2Proof.Machine.execQuiesce h berth s
  | .quiesceAckSend berth => Sys2Proof.Machine.execQuiesceAckSend berth s
  | .quiesceAck h berth => Sys2Proof.Machine.execQuiesceAck h berth s
  | .tideRequestSend => Sys2Proof.Machine.execTideRequestSend s
  | .tideRequest h tagid t1 => Sys2Proof.Machine.execTideRequest h tagid t1 s
  | .tideResponse h stratum tagid t1 t2 t3 => Sys2Proof.Machine.execTideResponse h stratum tagid t1 t2 t3 s
  | .tideSlew => Sys2Proof.Machine.execTideSlew s
  | .missedInterval => Sys2Proof.Machine.execMissedInterval s
  | .clockRaiseHoldEnd => Sys2Proof.Machine.execClockRaiseHoldEnd s
  | .twinDeclaredLost => Sys2Proof.Machine.execTwinDeclaredLost s
  | .fencingStart => Sys2Proof.Machine.execFencingStart s
  | .preemptAndAbortDone nguid status => Sys2Proof.Machine.execPreemptAndAbortDone nguid status s
  | .adoptionReadDone n ok recs => Sys2Proof.Machine.execAdoptionReadDone n ok recs s
  | .adoptionReadRetry n => Sys2Proof.Machine.execAdoptionReadRetry n s
  | .retwinSearch => Sys2Proof.Machine.execRetwinSearch s
  | .unpairDrained => Sys2Proof.Machine.execUnpairDrained s
  -- lighters, cellar and cipher port
  | .lgo f => Sys2Proof.Machine.execLgo f s
  | .lstop f => Sys2Proof.Machine.execLstop f s
  | .lfree f => Sys2Proof.Machine.execLfree f s
  | .lighterOrderStart l hostErr slist dlist => Sys2Proof.Machine.execLighterOrderStart l hostErr slist dlist s
  | .lighterOrderComplete l mv => Sys2Proof.Machine.execLighterOrderComplete l mv s
  | .stagingWrite dba data => Sys2Proof.Machine.execStagingWrite dba data s
  | .baywaitResume => Sys2Proof.Machine.execBaywaitResume s
  | .stagingRead port dba len => Sys2Proof.Machine.execStagingRead port dba len s
  | .prpListRead port dba => Sys2Proof.Machine.execPrpListRead port dba s
  | .cellarDeviceAccess c dba write data => Sys2Proof.Machine.execCellarDeviceAccess c dba write data s
  | .cellarStarve b => Sys2Proof.Machine.execCellarStarve b s
  | .celOwnWrite rq b v => Sys2Proof.Machine.execCelOwnWrite rq b v s
  | .bankWipeDone b => Sys2Proof.Machine.execBankWipeDone b s
  | .keyEnable rq h v => Sys2Proof.Machine.execKeyEnable rq h v s
  | .generationInstalled h => Sys2Proof.Machine.execGenerationInstalled h s
  | .cipherAlarm => Sys2Proof.Machine.execCipherAlarm s
  -- dock
  | .controllerStart c info => Sys2Proof.Machine.execControllerStart c info s
  | .controllerStepTimeout c step => Sys2Proof.Machine.execControllerStepTimeout c step s
  | .dockProbe c answered rdy cfs => Sys2Proof.Machine.execDockProbe c answered rdy cfs s
  | .smartLogRead c warn => Sys2Proof.Machine.execSmartLogRead c warn s
  | .deviceCompletion q cid status => Sys2Proof.Machine.execDeviceCompletion q cid status s
  | .commandTimeout q late => Sys2Proof.Machine.execCommandTimeout q late s
  | .pcieError c => Sys2Proof.Machine.execPcieError c s
  | .retryDelayExpiry idx => Sys2Proof.Machine.execRetryDelayExpiry idx s
  | .psettleExpiry idx record range => Sys2Proof.Machine.execPsettleExpiry idx record range s
  | .npwaitExpiry idx => Sys2Proof.Machine.execNpwaitExpiry idx s
  | .berthStateWrite rq b v => Sys2Proof.Machine.execBerthStateWrite rq b v s
  | .berthNguidWrite rq b hi v => Sys2Proof.Machine.execBerthNguidWrite rq b hi v s
  | .slotValidWrite rq b k v => Sys2Proof.Machine.execSlotValidWrite rq b k v s
  -- pilot: integer and logic
  | .add f => Sys2Proof.Machine.execAdd f s
  | .adc f => Sys2Proof.Machine.execAdc f s
  | .sub f => Sys2Proof.Machine.execSub f s
  | .sbb f => Sys2Proof.Machine.execSbb f s
  | .and f => Sys2Proof.Machine.execAnd f s
  | .or f => Sys2Proof.Machine.execOr f s
  | .xor f => Sys2Proof.Machine.execXor f s
  | .andn f => Sys2Proof.Machine.execAndn f s
  | .shl f => Sys2Proof.Machine.execShl f s
  | .shr f => Sys2Proof.Machine.execShr f s
  | .sar f => Sys2Proof.Machine.execSar f s
  | .rol f => Sys2Proof.Machine.execRol f s
  | .ror f => Sys2Proof.Machine.execRor f s
  | .cmp f => Sys2Proof.Machine.execCmp f s
  | .tst f => Sys2Proof.Machine.execTst f s
  | .neg f => Sys2Proof.Machine.execNeg f s
  | .not f => Sys2Proof.Machine.execNot f s
  | .min f => Sys2Proof.Machine.execMin f s
  | .max f => Sys2Proof.Machine.execMax f s
  | .minu f => Sys2Proof.Machine.execMinu f s
  | .maxu f => Sys2Proof.Machine.execMaxu f s
  | .clz f => Sys2Proof.Machine.execClz f s
  | .popc f => Sys2Proof.Machine.execPopc f s
  | .bswap f => Sys2Proof.Machine.execBswap f s
  | .addi f => Sys2Proof.Machine.execAddi f s
  | .andi f => Sys2Proof.Machine.execAndi f s
  | .ori f => Sys2Proof.Machine.execOri f s
  | .xori f => Sys2Proof.Machine.execXori f s
  | .cmpi f => Sys2Proof.Machine.execCmpi f s
  | .shi f => Sys2Proof.Machine.execShi f s
  | .movi f => Sys2Proof.Machine.execMovi f s
  -- pilot: multiply, divide, decimal
  | .mul f => Sys2Proof.Machine.execMul f s
  | .mulu f => Sys2Proof.Machine.execMulu f s
  | .div f => Sys2Proof.Machine.execDiv f s
  | .divu f => Sys2Proof.Machine.execDivu f s
  | .xmac f => Sys2Proof.Machine.execXmac f s
  | .xmacu f => Sys2Proof.Machine.execXmacu f s
  | .mfx f => Sys2Proof.Machine.execMfx f s
  | .mtx f => Sys2Proof.Machine.execMtx f s
  | .xclr f => Sys2Proof.Machine.execXclr f s
  | .dadd f => Sys2Proof.Machine.execDadd f s
  | .dsub f => Sys2Proof.Machine.execDsub f s
  | .dcmp f => Sys2Proof.Machine.execDcmp f s
  | .cvd f => Sys2Proof.Machine.execCvd f s
  | .cvb f => Sys2Proof.Machine.execCvb f s
  | .daddm f upto => Sys2Proof.Machine.execDaddm f upto s
  | .dsubm f upto => Sys2Proof.Machine.execDsubm f upto s
  | .dmulm f upto => Sys2Proof.Machine.execDmulm f upto s
  -- pilot: moves, loads and stores
  | .mov f => Sys2Proof.Machine.execMov f s
  | .retag f => Sys2Proof.Machine.execRetag f s
  | .clrt f => Sys2Proof.Machine.execClrt f s
  | .tagof f => Sys2Proof.Machine.execTagof f s
  | .ld f => Sys2Proof.Machine.execLd f s
  | .st f => Sys2Proof.Machine.execSt f s
  | .lea f => Sys2Proof.Machine.execLea f s
  | .ldx f => Sys2Proof.Machine.execLdx f s
  | .stx f => Sys2Proof.Machine.execStx f s
  | .ldu8 f => Sys2Proof.Machine.execLdu8 f s
  | .ldu16 f => Sys2Proof.Machine.execLdu16 f s
  | .ldu32 f => Sys2Proof.Machine.execLdu32 f s
  | .st8 f => Sys2Proof.Machine.execSt8 f s
  | .st16 f => Sys2Proof.Machine.execSt16 f s
  | .st32 f => Sys2Proof.Machine.execSt32 f s
  | .ldt f => Sys2Proof.Machine.execLdt f s
  | .push f => Sys2Proof.Machine.execPush f s
  | .pop f => Sys2Proof.Machine.execPop f s
  | .ldl f => Sys2Proof.Machine.execLdl f s
  | .stl f => Sys2Proof.Machine.execStl f s
  -- pilot: control transfer
  | .b f => Sys2Proof.Machine.execB f s
  | .call f => Sys2Proof.Machine.execCall f s
  | .jmpr f => Sys2Proof.Machine.execJmpr f s
  | .callr f => Sys2Proof.Machine.execCallr f s
  | .ret f => Sys2Proof.Machine.execRet f s
  | .rsspill f => Sys2Proof.Machine.execRsspill f s
  | .rsfill f => Sys2Proof.Machine.execRsfill f s
  | .lexit f => Sys2Proof.Machine.execLexit f s
  | .leapc f => Sys2Proof.Machine.execLeapc f s
  | .loop f => Sys2Proof.Machine.execLoop f s
  -- pilot: long and system instructions
  | .bmove f upto => Sys2Proof.Machine.execBmove f upto s
  | .ksrch f upto => Sys2Proof.Machine.execKsrch f upto s
  | .mfc f => Sys2Proof.Machine.execMfc f s
  | .mtc f => Sys2Proof.Machine.execMtc f s
  | .evtake f => Sys2Proof.Machine.execEvtake f s
  | .eveoi f => Sys2Proof.Machine.execEveoi f s
  | .reltake f => Sys2Proof.Machine.execReltake f s
  | .wdkick f => Sys2Proof.Machine.execWdkick f s
  | .stim f n => Sys2Proof.Machine.execStim f n s
  | .nop f => Sys2Proof.Machine.execNop f s
  | .sync f => Sys2Proof.Machine.execSync f s
  | .wait f => Sys2Proof.Machine.execWait f s
  | .gate f => Sys2Proof.Machine.execGate f s
  | .rte f => Sys2Proof.Machine.execRte f s
  | .bank f => Sys2Proof.Machine.execBank f s
  | .ctxsv f => Sys2Proof.Machine.execCtxsv f s
  | .ctxld f => Sys2Proof.Machine.execCtxld f s
  | .bkpt f => Sys2Proof.Machine.execBkpt f s
  | .movl f => Sys2Proof.Machine.execMovl f s
  | .movh f => Sys2Proof.Machine.execMovh f s
  | .addl f => Sys2Proof.Machine.execAddl f s
  | .cmpl f => Sys2Proof.Machine.execCmpl f s
  | .customRoutine k fn f => Sys2Proof.Machine.execCustomRoutine k fn f s
  -- events, bells, watchdogs
  | .eventDelivery p lost => Sys2Proof.Machine.execEventDelivery p lost s
  | .edgeSource n => Sys2Proof.Machine.execEdgeSource n s
  | .levelSourceChange n v => Sys2Proof.Machine.execLevelSourceChange n v s
  | .targetWake n => Sys2Proof.Machine.execTargetWake n s
  | .orphanTimeout n => Sys2Proof.Machine.execOrphanTimeout n s
  | .evcRaise rq v => Sys2Proof.Machine.execEvcRaise rq v s
  | .sourceDisable rq n v => Sys2Proof.Machine.execSourceDisable rq n v s
  | .bellCmpWrite rq n v => Sys2Proof.Machine.execBellCmpWrite rq n v s
  | .bellEnable rq n v => Sys2Proof.Machine.execBellEnable rq n v s
  | .bellPeriodWrite rq n v => Sys2Proof.Machine.execBellPeriodWrite rq n v s
  | .bellFire n => Sys2Proof.Machine.execBellFire n s
  | .periodicBellFire n => Sys2Proof.Machine.execPeriodicBellFire n s
  | .ecountOverflow k => Sys2Proof.Machine.execEcountOverflow k s
  | .watchdogExpiry p => Sys2Proof.Machine.execWatchdogExpiry p s
  | .bwdKick rq words => Sys2Proof.Machine.execBwdKick rq words s
  | .bwdStage1 => Sys2Proof.Machine.execBwdStage1 s
  | .bwdStage2 => Sys2Proof.Machine.execBwdStage2 s
  -- start-up, modes, sensors, drowse
  | .porRelease lc tamper => Sys2Proof.Machine.execPorRelease lc tamper s
  | .porAssert => Sys2Proof.Machine.execPorAssert s
  | .warmReset => Sys2Proof.Machine.execWarmReset s
  | .keyValid => Sys2Proof.Machine.execKeyValid s
  | .keyWaitTimeout => Sys2Proof.Machine.execKeyWaitTimeout s
  | .sramPhase1End ok => Sys2Proof.Machine.execSramPhase1End ok s
  | .charterSlotLoad slotB h => Sys2Proof.Machine.execCharterSlotLoad slotB h s
  | .charterPayloadDone flashErr tagOk digestOk secs => Sys2Proof.Machine.execCharterPayloadDone flashErr tagOk digestOk secs s
  | .provingEnd r => Sys2Proof.Machine.execProvingEnd r s
  | .maintenanceDrained => Sys2Proof.Machine.execMaintenanceDrained s
  | .tamper => Sys2Proof.Machine.execTamper s
  | .lifecycleChange lc => Sys2Proof.Machine.execLifecycleChange lc s
  | .tideRefLoss => Sys2Proof.Machine.execTideRefLoss s
  | .sensorSample temps volts procs => Sys2Proof.Machine.execSensorSample temps volts procs s
  | .throttleStep up => Sys2Proof.Machine.execThrottleStep up s
  | .thermalCritical sensor reading => Sys2Proof.Machine.execThermalCritical sensor reading s
  | .voltageCritical monitor reading => Sys2Proof.Machine.execVoltageCritical monitor reading s
  | .thermalTrip => Sys2Proof.Machine.execThermalTrip s
  | .governorEvaluate => Sys2Proof.Machine.execGovernorEvaluate s
  | .d2DwellExpiry => Sys2Proof.Machine.execD2DwellExpiry s
  | .d3DwellExpiry => Sys2Proof.Machine.execD3DwellExpiry s
  | .drowseAckTimeout => Sys2Proof.Machine.execDrowseAckTimeout s
  | .ringWriteCapture lp off data be => Sys2Proof.Machine.execRingWriteCapture lp off data be s
  | .wakeSource cause => Sys2Proof.Machine.execWakeSource cause s
  | .wakeComplete => Sys2Proof.Machine.execWakeComplete s
  | .heartbeatUnitSend => Sys2Proof.Machine.execHeartbeatUnitSend s
  -- the mailbox and the Harbourmaster
  | .echo m => Sys2Proof.Machine.execEcho m s
  | .stageBegin m => Sys2Proof.Machine.execStageBegin m s
  | .stageData m => Sys2Proof.Machine.execStageData m s
  | .stageCommit m h flashErr => Sys2Proof.Machine.execStageCommit m h flashErr s
  | .rollout m env => Sys2Proof.Machine.execRollout m env s
  | .rolloutNextCluster => Sys2Proof.Machine.execRolloutNextCluster s
  | .graft m env => Sys2Proof.Machine.execGraft m env s
  | .bootctl m => Sys2Proof.Machine.execBootctl m s
  | .unpair m => Sys2Proof.Machine.execUnpair m s
  | .quarantine m => Sys2Proof.Machine.execQuarantine m s
  | .maintenance m => Sys2Proof.Machine.execMaintenance m s
  | .logread m => Sys2Proof.Machine.execLogread m s
  | .keyacct m => Sys2Proof.Machine.execKeyacct m s
  | .svnset m => Sys2Proof.Machine.execSvnset m s
  | .lcadv m => Sys2Proof.Machine.execLcadv m s
  | .logPageWrite => Sys2Proof.Machine.execLogPageWrite s
  | .hmRestart => Sys2Proof.Machine.execHmRestart s
  -- vintages, checking, debug
  | .vinLoad rq v => Sys2Proof.Machine.execVinLoad rq v s
  | .vinLoadDone env => Sys2Proof.Machine.execVinLoadDone env s
  | .selWrite rq c v => Sys2Proof.Machine.execSelWrite rq c v s
  | .holdWrite rq c v => Sys2Proof.Machine.execHoldWrite rq c v s
  | .graftMatchWrite rq c k v => Sys2Proof.Machine.execGraftMatchWrite rq c k v s
  | .retryCompare p agree sweepOk => Sys2Proof.Machine.execRetryCompare p agree sweepOk s
  | .pilotTestDone p pass => Sys2Proof.Machine.execPilotTestDone p pass s
  | .injectionTest p pass again => Sys2Proof.Machine.execInjectionTest p pass again s
  | .injectionForce p => Sys2Proof.Machine.execInjectionForce p s
  | .injnow rq c v => Sys2Proof.Machine.execInjnow rq c v s
  | .forceOnce rq p v => Sys2Proof.Machine.execForceOnce rq p v s
  | .forceTwice rq p v => Sys2Proof.Machine.execForceTwice rq p v s
  | .debugPeek v => Sys2Proof.Machine.execDebugPeek v s
  | .debugTake v => Sys2Proof.Machine.execDebugTake v s
  | .debugWrite v => Sys2Proof.Machine.execDebugWrite v s
  | .extRequest rq hi v => Sys2Proof.Machine.execExtRequest rq hi v s
  | .remapWrite rq c k v => Sys2Proof.Machine.execRemapWrite rq c k v s
  | .syncPacket => Sys2Proof.Machine.execSyncPacket s
  | .idcode => Sys2Proof.Machine.execIdcode s
  | .daddr shift => Sys2Proof.Machine.execDaddr shift s
  | .dctrl shift => Sys2Proof.Machine.execDctrl shift s
  | .ddata shift => Sys2Proof.Machine.execDdata shift s
  | .bypass => Sys2Proof.Machine.execBypass s
  | .tapReset => Sys2Proof.Machine.execTapReset s
  | .quayCompletion r q => Sys2Proof.Machine.execQuayCompletion r q s
  | .quayCreditReturn port lane cnt => Sys2Proof.Machine.execQuayCreditReturn port lane cnt s
  | .fstatTake rq port slot => Sys2Proof.Machine.execFstatTake rq port slot s
  | .ftxGo rq port v => Sys2Proof.Machine.execFtxGo rq port v s
  | .registerTake rq wide off => Sys2Proof.Machine.execRegisterTake rq wide off s
  | .registerWrite rq wide off v => Sys2Proof.Machine.execRegisterWrite rq wide off v s
  | .harbourmasterMemoryTestEnd ok octal => Sys2Proof.Machine.execHarbourmasterMemoryTestEnd ok octal s
  | .drowseLevelEntered => Sys2Proof.Machine.execDrowseLevelEntered s

end Sys2Proof.Machine
end

