-- ==== Sys2Proof/Machine/Claims.lean ====
section
/-! DEFINITION. Machine/Claims.lean: the terms in which statements speak: where an instruction runs undisturbed, and the
manual's own arithmetic. -/

namespace Sys2Proof.Machine

/-! Where a pilot issues an instruction and nothing of debug, watchdogs, loops or multiplies in flight meets it. -/

/-- The control source that pilot `p` runs from after an instruction boundary (R411); the Harbourmaster keeps its own. -/
def selected (s : State) (p : Nat) : Nat :=
  if p = hmNo then (pilot s p).src else (csrcOf s (clusterOf p)).sel.toNat

/-- No debug event, watchdog expiry or EXT request waits for the pilot's boundary (R480, R546, R549). -/
def calm (s : State) (p : Nat) : Bool :=
  let x := pilot s p
  x.dbg.deferred.isNone && x.dbg.again.isNone && x.wdgDue.isNone && !extReq s p && !x.dbg.exempt

/-- Pilot `p` issues an instruction of `len` words with guard `g`: it can issue (R353, R385, R436), the fetch succeeds
(R362, R555), no breakpoint is at the PC and no step is armed (R545), nothing waits for its boundary, and no active loop
of the bank ends at it (R342), and no window of the pilot is being retried (R432).  The guard and the multiplies in flight are open. -/
def issues (s : State) (p len : Nat) : Bool :=
  let x := pilot s p
  canIssue s p && decide (fetchBad s p len = (false, false)) && (breakpointAt x).isNone && !x.sw.t && calm s p &&
    !atLoopEnd x x.pc && !x.frozen

/-- The instruction issues and runs: its guard is met (R312), and no multiply is in flight (R327). -/
def ready (s : State) (p len : Nat) (g : BitVec 4) : Bool :=
  issues s p len && (pilot s p).sw.guardMet g && (pilot s p).mulq.isEmpty

/-- The pilot at an instruction's effect: the PC is past the instruction, and a WAIT and a SLOT mark are over. -/
def stepped (x : Pilot) (len : Nat) : Pilot :=
  { x with pc := x.pc + BitVec.ofNat 18 (4 * len), waiting := false, slotMark := false }

/-- The state once an instruction of `len` words of pilot `p` has changed the pilot's registers by `upd` and completed:
nothing but that pilot differs. -/
def afterInstr (s : State) (p len : Nat) (upd : Pilot → Pilot) : State :=
  setPilot s p { upd (stepped (pilot s p) len) with src := selected s p }

/-- An instruction of `len` words that writes `w` to register `d` and changes the status word by `fl`. -/
def setsReg (s : State) (p len : Nat) (d : BitVec 5) (w : TWord) (fl : Sw → Sw) : State :=
  afterInstr s p len (fun y => { y.wr d w with sw := fl y.sw })

/-- An instruction that changes the status word alone. -/
def setsFlags (s : State) (p len : Nat) (fl : Sw → Sw) : State :=
  afterInstr s p len (fun y => { y with sw := fl y.sw })

/-- The flags of the sum `r` of `a`, `b` and a carry in `k` (R322). -/
def sumFlags (a b r : W64) (k : Nat) (w : Sw) : Sw :=
  { w with n := r.getLsbD 63, z := decide (r = 0),
           v := decide (a.getLsbD 63 = b.getLsbD 63 ∧ r.getLsbD 63 ≠ a.getLsbD 63),
           c := decide (2 ^ 64 ≤ a.toNat + b.toNat + k) }

/-- The flags of the difference `r` of `a` less `b` less a borrow in `k` (R322). -/
def diffFlags (a b r : W64) (k : Nat) (w : Sw) : Sw :=
  { w with n := r.getLsbD 63, z := decide (r = 0),
           v := decide (a.getLsbD 63 ≠ b.getLsbD 63 ∧ r.getLsbD 63 ≠ a.getLsbD 63),
           c := decide (a.toNat < b.toNat + k) }

/-- N and Z of a value, V 0 (R310). -/
def logicFlags (r : W64) (w : Sw) : Sw := { w with n := r.getLsbD 63, z := decide (r = 0), v := false }

/-- N and Z of a value (R321). -/
def signFlags (r : W64) (w : Sw) : Sw := { w with n := r.getLsbD 63, z := decide (r = 0) }

/-! The shifts of R323 by a count 0 to 127, in the arithmetic of the manual. -/

def shlVal (a : W64) (k : Nat) : W64 := BitVec.ofNat 64 (a.toNat * 2 ^ k)
def shrVal (a : W64) (k : Nat) : W64 := BitVec.ofNat 64 (a.toNat / 2 ^ k)
def sarVal (a : W64) (k : Nat) : W64 := BitVec.ofInt 64 (a.toInt / 2 ^ k)

/-- The carry that a shift writes; none where C is unchanged. -/
def shlCarry (a : W64) (k : Nat) : Option Bool :=
  if k = 0 then none else some (decide (k ≤ 64) && a.getLsbD (64 - k))
def shrCarry (a : W64) (k : Nat) : Option Bool :=
  if k = 0 then none else some (decide (k ≤ 64) && a.getLsbD (k - 1))
def sarCarry (a : W64) (k : Nat) : Option Bool :=
  if k = 0 then none else some (if k ≤ 63 then a.getLsbD (k - 1) else a.getLsbD 63)

/-- The flags of a shift (R323). -/
def shiftFlags (r : W64) (c : Option Bool) (w : Sw) : Sw := { logicFlags r w with c := c.getD w.c }

/-! Memory accesses and transfers of control. -/

/-- No watchpoint of the pilot is enabled (R551). -/
def unwatched (x : Pilot) : Bool := (List.range 4).all (fun k => !(Table.get 0 x.dbg.wpc k).getLsbD 63)

/-- The state in which an instruction of `len` words of pilot `p` has its effect. -/
def atEffect (s : State) (p len : Nat) : State := setPilot s p (stepped (pilot s p) len)

/-- The state once an instruction of `p` whose effect left `u` has completed. -/
def completed (u : State) (p : Nat) : State :=
  setPilot u p { pilot u p with src := selected u p }

/-- An instruction operand that no rule of R308 bars: not EMPTY, not 0xA to 0xE, and SEAL only in the sealed world. -/
def readableIn (s : State) (p : Nat) (w : TWord) : Bool :=
  decide (w.tag ≠ 0) && !decide (10 ≤ w.tag.toNat ∧ w.tag.toNat ≤ 14) &&
    ((pilot s p).sw.world || decide (w.tag ≠ 15))

/-- The cask of pilot `p`, by word, as the pilot reads it. -/
def caskWord (s : State) (p k : Nat) : TWord := seenWord s p false (p * 8192 + k)

/-- An 8-byte aligned ADDR in the pilot's cask (R314). -/
def caskAddr (a : W64) : Bool := decide (a.toNat < 65536) && decide (a.toNat % 8 = 0)

/-! Taking a trap. -/

/-- The pilot after entry to level `n` (R371, R386, R479), with code `code` by event source `src`, 0 for a trap, and no
multiply in flight: the save
set of the level holds what was left, and the handler starts at `vec` in world `hw`. -/
def entered (x : Pilot) (n : BitVec 3) (code : BitVec 4) (src : BitVec 12) (esc : Bool) (tv : W64) (spc : BitVec 18)
    (slot hw : Bool) (vec : BitVec 18) : Pilot :=
  { x with
    sets := Table.put {} x.sets n.toNat
      { spc := spc, ssw := { x.sw with slot := slot }, scx := x.cx, tv := tv,
        tc := { esc := esc, hw := hw, clevel := x.sw.level, cmask := x.sw.mask, cworld := x.sw.world,
                cpriv := x.sw.priv, bank := BitVec.ofNat 4 x.cur, src := src, code := code } }
    cx := 0
    waiting := false
    slotMark := false
    sw := { world := hw, priv := true, level := n, mask := n }
    pc := vec
    cur := if n.toNat < 6 then x.cur else 8
    wdcnt := if x.sw.level = x.dmon ∧ n ≠ x.dmon then BitVec.ofNat 32 (Nat.max x.wdcnt.toNat (x.wdper.toNat / 8))
             else x.wdcnt }

/-- No trace of transfers or levels is on, so that an entry sends no packet (R553). -/
def untraced (s : State) : Bool := !s.dbg.tflow && !s.dbg.tlvl

/-! Exchanges. -/

/-- Exchange `i` as an end with STATUS `st`, RESID `resid` and no device status leaves it (R36, R50, R52). -/
def exchangeEnded (s : State) (i : Nat) (st : BitVec 8) (resid : Nat) : State :=
  setXctx
    (setOwn s i { own s i with
      status := st, residHeld := BitVec.ofNat 32 resid, dsv := false, dstat := 0, held := false }) i
    { xctx s i with
      active := false, ended := true, cur := none, pre := none, cancel := false, heldWait := false, resolve := false }

/-- An enabled ring's page takes the write: a whole dword on the ring's port while the fast clock runs (R75, R76, R518). -/
def pageOpen (s : State) (w : PageWrite) : Bool :=
  decide (w.ring < s.blk.build.rings) && decide (w.be = 15) && decide (w.lp = (ring s w.ring).lport.toNat) &&
    (ring s w.ring).en && !s.fstop

/-- The block sends no mirror records, and is neither in Takeover nor gleaning (R124, R150, R151). -/
def solo (s : State) : Bool := !twinSends s && decide (s.blk.mode ≠ 5) && decide (s.hbr.tstate ≠ 5)

/-- The word is the handle of own entry `i` (R113, R115). -/
def names (s : State) (w : TWord) (i : Nat) : Bool :=
  decide (w.tag = 6) && decide (i < s.blk.build.entries) && decide (w.val = s.hbr.num ++ BitVec.ofNat 19 i ++ (own s i).gen)

/-- A Manifest instruction that answers the code `c` (R128). -/
def answers (s : State) (f : RRR) (c : Nat) : State :=
  setsReg s f.p 1 f.d (intW (BitVec.ofNat 64 c)) (fun w => { w with z := decide (c = 0) })

/-- A Manifest instruction that answers a word, with Z set (R128). -/
def gives (s : State) (f : RRR) (w : TWord) : State := setsReg s f.p 1 f.d w (fun v => { v with z := true })

/-- Pilot `p`, its bank and world hold the mooring (R130). -/
def heldHere (s : State) (p : Nat) (m : Moor) : Bool :=
  decide (m.mst = 1) && decide (m.owner.toNat = p) && decide (m.bank.toNat = (pilot s p).cur) &&
    (m.world == (pilot s p).sw.world)

/-! Lighter orders. -/

/-- The order at the head of lighter `l` has ended: it leaves the queue, its result stands at RES and the lighter's source
is raised (R245); it gives up its grant.  The images of an order that computes no check are free values (log 69). -/
def orderEnded (s : State) (l : Nat) (o : Order) (more : List Order) (st moved : Nat) : State :=
  let a := ((o.w 6).extractLsb' 0 23).toNat / 8
  let w0 : W64 := BitVec.ofNat 8 st ++ (0 : BitVec 24) ++ BitVec.ofNat 32 moved
  let u := setLighter { s with freeCtr := s.freeCtr + 2 } l { lighterOf s l with orders := more }
  let u := if o.started then planeLeave u l else u
  let cimg : W64 := if (o.w 3).toNat % 2 ^ 32 = 0 then 0 else Config.freeWord (s.freeCtr + 1)
  raise { u with cellar := Table.putList emptyW u.cellar a [intW w0, intW (Config.freeWord s.freeCtr), intW cimg, intW s.tide.count] }
    (0x20 + l)

/-- A MOVE order without cipher or check, with its two lists of one entry each in host memory and a place for its result
(R241, R242). -/
def plainOrder (o : Order) : Bool :=
  decide (o.w 0 = 0x1000000000000000) && decide (o.w 3 = 0xC00000000000) && decide (o.w 5 = 0) && decide (o.w 7 = 0) &&
    decide ((o.w 1).toNat % 16 = 0) && decide ((o.w 2).toNat % 16 = 0) &&
    decide ((o.w 6).toNat / 2 ^ 23 = 2 ^ 37) && decide ((o.w 6).toNat % 32 = 0)

/-- The order's result may be written into its bank (R255). -/
def resultOpen (s : State) (o : Order) : Bool := bankOpen s o.world ((o.w 6).toNat % 2 ^ 23 / 8 / bankWords)

/-- The order's end changes nothing in an exchange: it names none, or one whose word reads no data from a device. -/
def quietOrder (s : State) (o : Order) : Bool :=
  !o.waits && resultOpen s o && (o.started || o.src.isEmpty) &&
  match orderEntry s o with
  | none => true
  | some i => (Table.get none s.serves i).isNone && ((xctx s i).cur.all fun wx => decide (wx.w.op ≠ 1))

/-! The mailbox. -/

/-- No mailbox command runs, and the Harbourmaster's processor does not restart (R525, R532). -/
def mbIdle (s : State) : Bool := !s.hm.busy && !s.hm.restarting

/-- The mailbox after command `code` has run: its arguments, its SEQ, and its end with STATUS `st` and DETAIL `dt` (R532). -/
def mbDone (s : State) (m : Mbx) (code st dt : BitVec 8) : State :=
  { s with hm := { s.hm with
      arg := Table.putList 0 s.hm.arg 0 [m.a0, m.a1, m.a2, m.a3], mbcode := code, mbseq := m.seq, busy := false, done := true
      rseq := m.seq, rstatus := st, rdetail := dt } }

/-- The mailbox shows the end of `m` with STATUS `st` and DETAIL `dt` (R532). -/
def mbShows (t : State) (m : Mbx) (st dt : BitVec 8) : Prop :=
  t.hm.busy = false ∧ t.hm.done = true ∧ t.hm.rseq = m.seq ∧ t.hm.rstatus = st ∧ t.hm.rdetail = dt

/-! Frames of Placia. -/

/-- A frame that passes the checks of R198 and R199 for its type on path `p`, but for that of the EPOCH. -/
def reaches (s : State) (h : Hdr) (typ : BitVec 4) (sq : Bool) (p : Nat) : Bool :=
  !s.fstop && h.crcOk && decide (h.ver = 1) && decide (h.hid = s.hbr.hid) && decide (h.dst = s.hbr.num) &&
    laneOk typ h.lane && h.fits && (h.u != sq) && decide (h.src ≠ s.hbr.num) && decide (pathFor s h = some p)

/-- A frame that passes all the checks on path `p`, and carries no acknowledgement or credit of its own (R211, R214). -/
def accepts (s : State) (h : Hdr) (typ : BitVec 4) (sq : Bool) (p : Nat) : Bool :=
  reaches s h typ sq p && decide ((pathOf s p).peerEpoch = some h.epoch) && !h.av && decide (h.crd = 0)

/-- No lane holds a frame out of its turn or waits for credit (R209, R210). -/
def idleLanes (s : State) : Bool := s.paths.all (fun e => e.2.lanes.all (fun l => l.2.held.isEmpty && l.2.wait.isEmpty))

/-- A sequenced frame is the next one that its lane expects (R210). -/
def inTurn (s : State) (h : Hdr) (typ : BitVec 4) (p : Nat) : Bool :=
  accepts s h typ true p && idleLanes s && decide (h.seq = ((pathOf s p).lane h.lane.toNat).exp)

/-- The frame is taken: its lane expects the next number and owes the credit of the frame (R210, R214). -/
def arrived (s : State) (h : Hdr) (p : Nat) : State :=
  let x := pathOf s p
  let l := x.lane h.lane.toNat
  setPath s p (x.setLane h.lane.toNat { l with exp := l.exp + 1, owed := l.owed + creditUnits h.len.toNat })

/-- The frame enters receive queue `k` of its port's frame window, and the queue's source is sampled (R568, R569). -/
def windowed (s : State) (h : Hdr) (typ : BitVec 4) (p k : Nat) (body : List Byte) : State :=
  let n := (pathOf s p).sp.toNat
  let w := fwinOf s n
  sampleLevel (setFwin s n (w.setQueue k (w.queue k ++ [⟨BitVec.ofNat 6 p, hdrBytes h typ, body⟩]))) (0x300 + 4 * n + k)

/-! Command words. -/

/-- A completion that R562 accepts and that reports no error, with data. -/
def cleanCpl (port : Nat) (data : List W64) : QuayCpl :=
  { port := port, lane := 0, noCredit := false, gap := false, badLen := false, badLane := false, cst := 0, err := false,
    data := data }

/-- Word `idx` of exchange `i` has run: the position is `pos`, the next word stands at `next`, and `tot` bytes have been
addressed so far (R21, R30, R32). -/
def wordOver (s : State) (i idx : Nat) (pos next : W64) (tot : Nat) : State :=
  let e := own s i
  let x := xctx s i
  setXctx (setOwn s i { e with curw := x.next.extractLsb' 4 60, pos := pos, lastw := BitVec.ofNat 12 idx }) i
    { x with cur := none, nwords := idx + 1, next := next, total := tot, retries := 0 }

/-- Exchange `i` ends in the word it has just fetched, of index `idx`, with `n` words executed (R32, R49, R52). -/
def wordEnded (s : State) (i idx n : Nat) (st : BitVec 8) (resid : Nat) : State :=
  let e := own s i
  let x := xctx s i
  exchangeEnded
    (setXctx (setOwn s i { e with curw := x.next.extractLsb' 4 60, lastw := BitVec.ofNat 12 idx }) i { x with nwords := n })
    i st resid

end Sys2Proof.Machine
end

