-- ==== Sys2Proof/Safety.lean ====
section
/-! DEFINITION. Safety.lean: what holds of a sound state of the block, in the terms that statements use. -/

namespace Sys2Proof.Machine

/-- The tagged memories and the code store are in their canonical form: addresses strictly rising, no listed word equal to
what an unlisted address reads as. -/
def Memory.wf (s : State) : Bool :=
  Table.wf emptyW s.cask && Table.wf emptyW s.cellar && Table.wf emptyW s.hmmem && Table.wf 0 s.code

/-- Every table of the block's units is in its canonical form: rings, Manifest, moorings, paths, dock, pilots, cluster
units, bells and the rest. -/
def tablesCanonical (s : State) : Bool :=
  Table.wf {} s.bells && Table.wf {} s.ecnt && Table.wf {} s.rings && Table.wf {} s.own &&
    Table.wf {} s.mirror && Table.wf {} s.moor && Table.wf {} s.xc && Table.wf {} s.paths &&
    Table.wf {} s.members && Table.wf {} s.berths && Table.wf {} s.ctls && Table.wf {} s.dqs &&
    Table.wf none s.dcmds && Table.wf none s.resvs && Table.wf none s.serves && Table.wf {} s.pilots &&
    Table.wf 0 s.celOwn && Table.wf {} s.bays && Table.wf {} s.arbs && Table.wf {} s.chk && Table.wf {} s.csrc &&
    Table.wf {} s.gm && Table.wf {} s.vbank && Table.wf {} s.graft && Table.wf {} s.fwin && Table.wf {} s.qtx

/-- Every cellar bank is OPEN, SEALED or WIPING (R255). -/
def ownersLegal (s : State) : Bool := s.celOwn.all (fun e => decide (e.2 ≠ 3))

/-- A drowse level stands only in Drowse (R17). -/
def levelLegal (s : State) : Bool := decide (s.blk.mode = 4) || decide (s.blk.dlevel = 0)

/-- A sound state: canonical memories and tables, legal bank owners, a drowse level only in Drowse. -/
def Sound (s : State) : Bool := Memory.wf s && tablesCanonical s && ownersLegal s && levelLegal s

end Sys2Proof.Machine
end

