-- ==== Sys2Proof/WellFormed.lean ====
section
/-! DEFINITION. WellFormed.lean: which commands name parts that the block has: pilots, rings, entries, paths, lighters,
controllers, clusters, banks and the rest, by the counts of R11.  A command that is not well formed names nothing, and
its meaning leaves the part that it names alone. -/

namespace Sys2Proof

/-- A pilot number (R134): cluster times 8 plus slot 0 to 4, or the Harbourmaster's. -/
def pilotNoOk (p : Nat) : Bool := (decide (p < 128) && decide (p % 8 ≤ 4)) || decide (p = 127)

/-- A write of a ring page comes by one of four ports to an existing ring. -/
def pageOk (w : PageWrite) : Bool := decide (w.lp < 4) && decide (w.ring < Config.nrings)

/-- A mooring that exists: of an own entry, or one of 4,096 standalone ones (R134). -/
def moorRefOk : MoorRef → Bool
  | .emb i => decide (i < Config.entries)
  | .alone n => decide (n < 4096)

/-- A landward read's reader: an own entry, or a controller's probe. -/
def readerOk : Reader → Bool
  | .word i => decide (i < Config.entries)
  | .glist i => decide (i < Config.entries)
  | .key i => decide (i < Config.entries)
  | .payload i => decide (i < Config.entries)
  | .probe c => decide (c < 64)

/-- An optional number below a bound. -/
def optLt : Option Nat → Nat → Bool
  | none, _ => true
  | some n, k => decide (n < k)

/-- The command names only parts that exist. -/
def wellFormed (i : Instr) : Bool :=
  match i with
  | .submissionDoorbell w => pageOk w
  | .completionDoorbell w => pageOk w
  | .resume w => pageOk w
  | .cancel w => pageOk w
  | .maskWrite w => pageOk w
  | .ringEnable _ n _ => decide (n < Config.nrings)
  | .ringDisable _ n _ => decide (n < Config.nrings)
  | .venClear _ n _ => decide (n < Config.nrings)
  | .ltolWrite _ n _ => decide (n < Config.nrings)
  | .stampExamine => true
  | .entryDue n => decide (n < Config.nrings)
  | .admissionPick => true
  | .apick f => pilotNoOk f.p
  | .pickReadDone p _ _ => pilotNoOk p
  | .aend f => pilotNoOk f.p
  | .declineFinalRecord n => decide (n < Config.nrings)
  | .heldRecordWrite idx => decide (idx < Config.entries)
  | .finalRecordWrite n => decide (n < Config.nrings)
  | .holdoffExpiry n => decide (n < Config.nrings)
  | .holdExpiry idx => decide (idx < Config.entries)
  | .planeBurstRevoke plane => decide (plane < 2)
  | .malloc f => pilotNoOk f.p
  | .mallocG f => pilotNoOk f.p
  | .mallocS f => pilotNoOk f.p
  | .mallocV f => pilotNoOk f.p
  | .mget f => pilotNoOk f.p
  | .mput f => pilotNoOk f.p
  | .mstep f => pilotNoOk f.p
  | .mwack f => pilotNoOk f.p
  | .mdecl f => pilotNoOk f.p
  | .moor f => pilotNoOk f.p
  | .unmoor f => pilotNoOk f.p
  | .mnoteW f => pilotNoOk f.p
  | .mnoteR f => pilotNoOk f.p
  | .mforce f => pilotNoOk f.p
  | .mrq f => pilotNoOk f.p
  | .mscan f _ => pilotNoOk f.p
  | .mglean f => pilotNoOk f.p
  | .gleanerResume => true
  | .gleanerDone => true
  | .leaseExpiry m => moorRefOk m
  | .rollbackComplete idx => decide (idx < Config.entries)
  | .mirror _ _ => true
  | .mack _ _ => true
  | .mirrorFrameSend => true
  | .heartbeatSend => true
  | .heartbeat _ _ => true
  | .hbsusp _ => true
  | .pathMissedInterval p => decide (p < 64)
  | .pathEnable _ p _ => decide (p < 64)
  | .pathDisable _ p _ => decide (p < 64)
  | .ack _ _ _ _ => true
  | .retransmitTimer p _ _ => decide (p < 64)
  | .memberSend => true
  | .member _ _ => true
  | .memberDrop _ => true
  | .fenced _ => true
  | .unpairMessage _ => true
  | .pair _ => true
  | .pairAck _ => true
  | .pairSend => true
  | .drowseReq _ => true
  | .drowseAck _ => true
  | .wake _ => true
  | .wakeTimeout => true
  | .fence _ _ => true
  | .rcmd _ _ _ _ _ => true
  | .rdata _ _ _ _ _ => true
  | .rcpl _ _ _ _ => true
  | .noentRetry idx => decide (idx < Config.entries)
  | .abort _ _ => true
  | .quiesce _ _ => true
  | .quiesceAckSend _ => true
  | .quiesceAck _ _ => true
  | .tideRequestSend => true
  | .tideRequest _ _ _ => true
  | .tideResponse _ _ _ _ _ _ => true
  | .tideSlew => true
  | .missedInterval => true
  | .clockRaiseHoldEnd => true
  | .twinDeclaredLost => true
  | .fencingStart => true
  | .preemptAndAbortDone _ _ => true
  | .adoptionReadDone n _ _ => decide (n < Config.nrings)
  | .adoptionReadRetry n => decide (n < Config.nrings)
  | .retwinSearch => true
  | .unpairDrained => true
  | .lgo f => pilotNoOk f.p
  | .lstop f => pilotNoOk f.p
  | .lfree f => pilotNoOk f.p
  | .lighterOrderStart l _ _ _ => decide (l < Config.nlighters)
  | .lighterOrderComplete l _ => decide (l < Config.nlighters)
  | .stagingWrite _ _ => true
  | .baywaitResume => true
  | .stagingRead port _ _ => decide (port < 4)
  | .prpListRead port _ => decide (port < 4)
  | .cellarDeviceAccess c _ _ _ => decide (c < 64)
  | .cellarStarve b => decide (b < Config.nbanks)
  | .celOwnWrite _ b _ => decide (b < Config.nbanks)
  | .bankWipeDone b => decide (b < Config.nbanks)
  | .keyEnable _ h _ => decide (h < 4096)
  | .generationInstalled h => decide (h < 4096)
  | .cipherAlarm => true
  | .controllerStart c _ => decide (c < 64)
  | .controllerStepTimeout c step => decide (c < 64) && decide (step < 16)
  | .dockProbe c _ _ _ => decide (c < 64)
  | .smartLogRead c _ => decide (c < 64)
  | .deviceCompletion q _ _ => decide (q < 1024)
  | .commandTimeout q _ => decide (q < 1024)
  | .pcieError c => decide (c < 64)
  | .retryDelayExpiry idx => decide (idx < Config.entries)
  | .psettleExpiry idx _ _ => decide (idx < Config.entries)
  | .npwaitExpiry idx => decide (idx < Config.entries)
  | .berthStateWrite _ b _ => decide (b < Config.nberths)
  | .berthNguidWrite _ b _ _ => decide (b < Config.nberths)
  | .slotValidWrite _ b k _ => decide (b < Config.nberths) && decide (k < 4)
  | .add f => pilotNoOk f.p
  | .adc f => pilotNoOk f.p
  | .sub f => pilotNoOk f.p
  | .sbb f => pilotNoOk f.p
  | .and f => pilotNoOk f.p
  | .or f => pilotNoOk f.p
  | .xor f => pilotNoOk f.p
  | .andn f => pilotNoOk f.p
  | .shl f => pilotNoOk f.p
  | .shr f => pilotNoOk f.p
  | .sar f => pilotNoOk f.p
  | .rol f => pilotNoOk f.p
  | .ror f => pilotNoOk f.p
  | .cmp f => pilotNoOk f.p
  | .tst f => pilotNoOk f.p
  | .neg f => pilotNoOk f.p
  | .not f => pilotNoOk f.p
  | .min f => pilotNoOk f.p
  | .max f => pilotNoOk f.p
  | .minu f => pilotNoOk f.p
  | .maxu f => pilotNoOk f.p
  | .clz f => pilotNoOk f.p
  | .popc f => pilotNoOk f.p
  | .bswap f => pilotNoOk f.p
  | .addi f => pilotNoOk f.p
  | .andi f => pilotNoOk f.p
  | .ori f => pilotNoOk f.p
  | .xori f => pilotNoOk f.p
  | .cmpi f => pilotNoOk f.p
  | .shi f => pilotNoOk f.p
  | .movi f => pilotNoOk f.p
  | .mul f => pilotNoOk f.p
  | .mulu f => pilotNoOk f.p
  | .div f => pilotNoOk f.p
  | .divu f => pilotNoOk f.p
  | .xmac f => pilotNoOk f.p
  | .xmacu f => pilotNoOk f.p
  | .mfx f => pilotNoOk f.p
  | .mtx f => pilotNoOk f.p
  | .xclr f => pilotNoOk f.p
  | .dadd f => pilotNoOk f.p
  | .dsub f => pilotNoOk f.p
  | .dcmp f => pilotNoOk f.p
  | .cvd f => pilotNoOk f.p
  | .cvb f => pilotNoOk f.p
  | .daddm f _ => pilotNoOk f.p
  | .dsubm f _ => pilotNoOk f.p
  | .dmulm f _ => pilotNoOk f.p
  | .mov f => pilotNoOk f.p
  | .retag f => pilotNoOk f.p
  | .clrt f => pilotNoOk f.p
  | .tagof f => pilotNoOk f.p
  | .ld f => pilotNoOk f.p
  | .st f => pilotNoOk f.p
  | .lea f => pilotNoOk f.p
  | .ldx f => pilotNoOk f.p
  | .stx f => pilotNoOk f.p
  | .ldu8 f => pilotNoOk f.p
  | .ldu16 f => pilotNoOk f.p
  | .ldu32 f => pilotNoOk f.p
  | .st8 f => pilotNoOk f.p
  | .st16 f => pilotNoOk f.p
  | .st32 f => pilotNoOk f.p
  | .ldt f => pilotNoOk f.p
  | .push f => pilotNoOk f.p
  | .pop f => pilotNoOk f.p
  | .ldl f => pilotNoOk f.p
  | .stl f => pilotNoOk f.p
  | .b f => pilotNoOk f.p
  | .call f => pilotNoOk f.p
  | .jmpr f => pilotNoOk f.p
  | .callr f => pilotNoOk f.p
  | .ret f => pilotNoOk f.p
  | .rsspill f => pilotNoOk f.p
  | .rsfill f => pilotNoOk f.p
  | .lexit f => pilotNoOk f.p
  | .leapc f => pilotNoOk f.p
  | .loop f => pilotNoOk f.p
  | .bmove f _ => pilotNoOk f.p
  | .ksrch f _ => pilotNoOk f.p
  | .mfc f => pilotNoOk f.p
  | .mtc f => pilotNoOk f.p
  | .evtake f => pilotNoOk f.p
  | .eveoi f => pilotNoOk f.p
  | .reltake f => pilotNoOk f.p
  | .wdkick f => pilotNoOk f.p
  | .stim f _ => pilotNoOk f.p
  | .nop f => pilotNoOk f.p
  | .sync f => pilotNoOk f.p
  | .wait f => pilotNoOk f.p
  | .gate f => pilotNoOk f.p
  | .rte f => pilotNoOk f.p
  | .bank f => pilotNoOk f.p
  | .ctxsv f => pilotNoOk f.p
  | .ctxld f => pilotNoOk f.p
  | .bkpt f => pilotNoOk f.p
  | .movl f => pilotNoOk f.p
  | .movh f => pilotNoOk f.p
  | .addl f => pilotNoOk f.p
  | .cmpl f => pilotNoOk f.p
  | .customRoutine _ _ f => pilotNoOk f.p
  | .eventDelivery p lost => pilotNoOk p && optLt lost 4096
  | .edgeSource n => decide (n < 4096)
  | .levelSourceChange n _ => decide (n < 4096)
  | .targetWake n => decide (n < 4096)
  | .orphanTimeout n => decide (n < 4096)
  | .evcRaise _ _ => true
  | .sourceDisable _ n _ => decide (n < 4096)
  | .bellCmpWrite _ n _ => decide (n < 256)
  | .bellEnable _ n _ => decide (n < 256)
  | .bellPeriodWrite _ n _ => decide (n < 256)
  | .bellFire n => decide (n < 256)
  | .periodicBellFire n => decide (n < 256)
  | .ecountOverflow k => decide (k < 64)
  | .watchdogExpiry p => pilotNoOk p
  | .bwdKick _ _ => true
  | .bwdStage1 => true
  | .bwdStage2 => true
  | .porRelease _ _ => true
  | .porAssert => true
  | .warmReset => true
  | .keyValid => true
  | .keyWaitTimeout => true
  | .sramPhase1End _ => true
  | .charterSlotLoad _ _ => true
  | .charterPayloadDone _ _ _ _ => true
  | .provingEnd _ => true
  | .maintenanceDrained => true
  | .tamper => true
  | .lifecycleChange _ => true
  | .tideRefLoss => true
  | .sensorSample _ _ _ => true
  | .throttleStep _ => true
  | .thermalCritical sensor _ => decide (sensor < 24)
  | .voltageCritical monitor _ => decide (monitor < 16)
  | .thermalTrip => true
  | .governorEvaluate => true
  | .d2DwellExpiry => true
  | .d3DwellExpiry => true
  | .drowseAckTimeout => true
  | .ringWriteCapture lp _ _ _ => decide (lp < 4)
  | .wakeSource _ => true
  | .wakeComplete => true
  | .heartbeatUnitSend => true
  | .echo _ => true
  | .stageBegin _ => true
  | .stageData _ => true
  | .stageCommit _ _ _ => true
  | .rollout _ _ => true
  | .rolloutNextCluster => true
  | .graft _ _ => true
  | .bootctl _ => true
  | .unpair _ => true
  | .quarantine _ => true
  | .maintenance _ => true
  | .logread _ => true
  | .keyacct _ => true
  | .svnset _ => true
  | .lcadv _ => true
  | .logPageWrite => true
  | .hmRestart => true
  | .vinLoad _ _ => true
  | .vinLoadDone _ => true
  | .selWrite _ c _ => decide (c < Config.clusters)
  | .holdWrite _ c _ => decide (c < Config.clusters)
  | .graftMatchWrite _ c k _ => decide (c < 17) && decide (k < 16)
  | .retryCompare p _ _ => pilotNoOk p
  | .pilotTestDone p _ => pilotNoOk p
  | .injectionTest p _ _ => pilotNoOk p
  | .injectionForce p => pilotNoOk p
  | .injnow _ c _ => decide (c < Config.clusters)
  | .forceOnce _ p _ => pilotNoOk p
  | .forceTwice _ p _ => pilotNoOk p
  | .debugPeek _ => true
  | .debugTake _ => true
  | .debugWrite _ => true
  | .extRequest _ _ _ => true
  | .remapWrite _ c k _ => decide (c < Config.clusters) && decide (k < 8)
  | .syncPacket => true
  | .idcode => true
  | .daddr _ => true
  | .dctrl _ => true
  | .ddata _ => true
  | .bypass => true
  | .tapReset => true
  | .quayCompletion r _ => readerOk r
  | .quayCreditReturn port _ _ => decide (port < 12)
  | .fstatTake _ port slot => decide (port < 4) && decide (slot < 3)
  | .ftxGo _ port _ => decide (port < 4)
  | .registerTake _ _ _ => true
  | .registerWrite _ _ _ _ => true
  | .harbourmasterMemoryTestEnd _ _ => true
  | .drowseLevelEntered => true

end Sys2Proof
end

