-- ==== Sys2Proof/Certificates/Slice0/Obligations.lean ====
section
/-! DEFINITION. Certificates/Slice0/Obligations.lean: the statements for the provers. -/

open Sys2Proof Sys2Proof.Machine

/-- R321, R322, R324, R358: sums and differences of INT words, with the carry and borrow of ADC and SBB.

R324, R358: the immediate forms of the sums and differences.

R310, R314: sums and differences with an address, a code address or a time leave the flags; two addresses of one space, or
two times, subtract and compare as integers. -/
def Obligations.Sums : Prop :=
  (∀ (s : State) (f : RRR), ready s f.p 1 f.g = true →
    let x := pilot s f.p
    let a := (x.reg f.s).val
    let b := (x.reg f.t).val
    let k := x.sw.c.toNat
    let allD := isD f.d && isD f.s && isD f.t
    (x.reg f.s).tag = 1 →
    (isD f.d = true → isD f.s = true → f.t = 0 →
      exec (.neg f) s = .next (ran (rrrWord f 1 15) 0 s f.p (setsReg s f.p 1 f.d (intW (0 - a)) (diffFlags 0 a (0 - a) 0)))) ∧
    ((x.reg f.t).tag = 1 →
      exec (.add f) s = .next (ran (rrrWord f 1 0) 0 s f.p (setsReg s f.p 1 f.d (intW (a + b)) (sumFlags a b (a + b) 0))) ∧
      exec (.sub f) s = .next (ran (rrrWord f 1 2) 0 s f.p (setsReg s f.p 1 f.d (intW (a - b)) (diffFlags a b (a - b) 0))) ∧
      (allD = true →
        exec (.adc f) s =
          .next (ran (rrrWord f 1 1) 0 s f.p (setsReg s f.p 1 f.d (intW (BitVec.ofNat 64 (a.toNat + b.toNat + k)))
            (sumFlags a b (BitVec.ofNat 64 (a.toNat + b.toNat + k)) k))) ∧
        exec (.sbb f) s =
          .next (ran (rrrWord f 1 3) 0 s f.p (setsReg s f.p 1 f.d (intW (a - b - BitVec.ofNat 64 k)) (diffFlags a b (a - b - BitVec.ofNat 64 k) k)))) ∧
      (f.d = 0 → exec (.cmp f) s = .next (ran (rrrWord f 1 13) 0 s f.p (setsFlags s f.p 1 (diffFlags a b (a - b) 0)))))) ∧
  (∀ (s : State) (f : RRI), ready s f.p 1 f.g = true →
    let a := ((pilot s f.p).reg f.s).val
    let i : W64 := f.imm.signExtend 64
    ((pilot s f.p).reg f.s).tag = 1 →
    exec (.addi f) s = .next (ran (rriWord f 2) 0 s f.p (setsReg s f.p 1 f.d (intW (a + i)) (sumFlags a i (a + i) 0))) ∧
    (f.d = 0 → isD f.s = true → exec (.cmpi f) s = .next (ran (rriWord f 6) 0 s f.p (setsFlags s f.p 1 (diffFlags a i (a - i) 0))))) ∧
  (∀ (s : State) (f : LF), ready s f.p 2 f.g = true → f.z = 0 →
    let a := ((pilot s f.p).reg f.s).val
    let i : W64 := f.imm.signExtend 64
    ((pilot s f.p).reg f.s).tag = 1 →
    exec (.addl f) s = .next (ran (lfWord f 0x32) f.imm s f.p (setsReg s f.p 2 f.d (intW (a + i)) (sumFlags a i (a + i) 0))) ∧
    (f.d = 0 → isD f.s = true → exec (.cmpl f) s = .next (ran (lfWord f 0x36) f.imm s f.p (setsFlags s f.p 2 (diffFlags a i (a - i) 0))))) ∧
  (∀ (s : State) (f : RRR), ready s f.p 1 f.g = true →
    let x := pilot s f.p
    let a := x.reg f.s
    let b := x.reg f.t
    let lo : W64 → BitVec 60 := fun v => v.extractLsb' 0 60
    let space : W64 → BitVec 4 := fun v => v.extractLsb' 60 4
    (b.tag = 1 →
      (a.tag = 4 →
        exec (.add f) s = .next (ran (rrrWord f 1 0) 0 s f.p (setsReg s f.p 1 f.d ⟨space a.val ++ (lo a.val + lo b.val), 4⟩ id)) ∧
        exec (.sub f) s = .next (ran (rrrWord f 1 2) 0 s f.p (setsReg s f.p 1 f.d ⟨space a.val ++ (lo a.val - lo b.val), 4⟩ id))) ∧
      (a.tag = 5 ∨ a.tag = 7 →
        exec (.add f) s = .next (ran (rrrWord f 1 0) 0 s f.p (setsReg s f.p 1 f.d ⟨a.val + b.val, a.tag⟩ id)) ∧
        exec (.sub f) s = .next (ran (rrrWord f 1 2) 0 s f.p (setsReg s f.p 1 f.d ⟨a.val - b.val, a.tag⟩ id)))) ∧
    (a.tag = 1 → b.tag = 4 →
      exec (.add f) s = .next (ran (rrrWord f 1 0) 0 s f.p (setsReg s f.p 1 f.d ⟨space b.val ++ (lo b.val + lo a.val), 4⟩ id))) ∧
    ((a.tag = 7 ∧ b.tag = 7) ∨ (a.tag = 4 ∧ b.tag = 4 ∧ space a.val = space b.val) →
      exec (.sub f) s =
        .next (ran (rrrWord f 1 2) 0 s f.p (setsReg s f.p 1 f.d (intW (a.val - b.val)) (diffFlags a.val b.val (a.val - b.val) 0))) ∧
      (f.d = 0 → exec (.cmp f) s = .next (ran (rrrWord f 1 13) 0 s f.p (setsFlags s f.p 1 (diffFlags a.val b.val (a.val - b.val) 0))))))

/-- R321, R324: the logic instructions; the result is INT if every operand is INT, else BITS.

R323: the shifts, with the count from the low seven bits of the count operand.

R321, R324, R332, R358: minima and maxima, counts of bits, byte order, and constants. -/
def Obligations.LogicAndShifts : Prop :=
  (∀ (s : State) (f : RRR), ready s f.p 1 f.g = true →
    let x := pilot s f.p
    let a := x.reg f.s
    let b := x.reg f.t
    let tag : BitVec 4 := if a.tag = 1 ∧ b.tag = 1 then 1 else 2
    let gives : W64 → State := fun r => setsReg s f.p 1 f.d ⟨r, tag⟩ (logicFlags r)
    (a.tag = 1 ∨ a.tag = 2 → f.t = 0 →
      exec (.not f) s = .next (ran (rrrWord f 1 16) 0 s f.p (setsReg s f.p 1 f.d ⟨~~~a.val, a.tag⟩ (logicFlags (~~~a.val))))) ∧
    (a.tag = 1 ∨ a.tag = 2 → b.tag = 1 ∨ b.tag = 2 →
      exec (.and f) s = .next (ran (rrrWord f 1 4) 0 s f.p (gives (a.val &&& b.val))) ∧
      exec (.or f) s = .next (ran (rrrWord f 1 5) 0 s f.p (gives (a.val ||| b.val))) ∧
      exec (.xor f) s = .next (ran (rrrWord f 1 6) 0 s f.p (gives (a.val ^^^ b.val))) ∧
      exec (.andn f) s = .next (ran (rrrWord f 1 7) 0 s f.p (gives (a.val &&& ~~~b.val))) ∧
      (f.d = 0 → exec (.tst f) s = .next (ran (rrrWord f 1 14) 0 s f.p (setsFlags s f.p 1 (logicFlags (a.val &&& b.val))))))) ∧
  (∀ (s : State) (f : RRI), ready s f.p 1 f.g = true →
    let a := (pilot s f.p).reg f.s
    let i : W64 := f.imm.setWidth 64
    let gives : W64 → State := fun r => setsReg s f.p 1 f.d ⟨r, a.tag⟩ (logicFlags r)
    a.tag = 1 ∨ a.tag = 2 →
    exec (.andi f) s = .next (ran (rriWord f 3) 0 s f.p (gives (a.val &&& i))) ∧
    exec (.ori f) s = .next (ran (rriWord f 4) 0 s f.p (gives (a.val ||| i))) ∧
    exec (.xori f) s = .next (ran (rriWord f 5) 0 s f.p (gives (a.val ^^^ i)))) ∧
  (∀ (s : State) (f : RRR), ready s f.p 1 f.g = true →
    let x := pilot s f.p
    let a := x.reg f.s
    let k := (x.reg f.t).val.toNat % 128
    a.tag = 1 ∨ a.tag = 2 → (x.reg f.t).tag = 1 ∨ (x.reg f.t).tag = 2 →
    exec (.shl f) s = .next (ran (rrrWord f 1 8) 0 s f.p (setsReg s f.p 1 f.d ⟨shlVal a.val k, a.tag⟩ (shiftFlags (shlVal a.val k) (shlCarry a.val k)))) ∧
    exec (.shr f) s = .next (ran (rrrWord f 1 9) 0 s f.p (setsReg s f.p 1 f.d ⟨shrVal a.val k, a.tag⟩ (shiftFlags (shrVal a.val k) (shrCarry a.val k)))) ∧
    exec (.sar f) s = .next (ran (rrrWord f 1 10) 0 s f.p (setsReg s f.p 1 f.d ⟨sarVal a.val k, a.tag⟩ (shiftFlags (sarVal a.val k) (sarCarry a.val k)))) ∧
    exec (.rol f) s =
      .next (ran (rrrWord f 1 11) 0 s f.p (setsReg s f.p 1 f.d ⟨a.val.rotateLeft (k % 64), a.tag⟩ (logicFlags (a.val.rotateLeft (k % 64))))) ∧
    exec (.ror f) s =
      .next (ran (rrrWord f 1 12) 0 s f.p (setsReg s f.p 1 f.d ⟨a.val.rotateRight (k % 64), a.tag⟩ (logicFlags (a.val.rotateRight (k % 64)))))) ∧
  (∀ (s : State) (f : RRI), ready s f.p 1 f.g = true →
    let a := (pilot s f.p).reg f.s
    let k := f.imm.toNat % 128
    let op := f.imm.toNat / 1024
    a.tag = 1 ∨ a.tag = 2 → f.imm.toNat / 128 % 8 = 0 →
    exec (.shi f) s = .next (ran (rriWord f 7) 0 s f.p (
      if op = 0 then setsReg s f.p 1 f.d ⟨shlVal a.val k, a.tag⟩ (shiftFlags (shlVal a.val k) (shlCarry a.val k))
      else if op = 1 then setsReg s f.p 1 f.d ⟨shrVal a.val k, a.tag⟩ (shiftFlags (shrVal a.val k) (shrCarry a.val k))
      else if op = 2 then setsReg s f.p 1 f.d ⟨sarVal a.val k, a.tag⟩ (shiftFlags (sarVal a.val k) (sarCarry a.val k))
      else
        setsReg s f.p 1 f.d ⟨a.val.rotateRight (k % 64), a.tag⟩ (logicFlags (a.val.rotateRight (k % 64)))))) ∧
  (∀ (s : State) (f : RRR), ready s f.p 1 f.g = true →
    let x := pilot s f.p
    let a := x.reg f.s
    let b := x.reg f.t
    let gives : W64 → State := fun r => setsReg s f.p 1 f.d (intW r) (signFlags r)
    (isD f.d = true → isD f.s = true → isD f.t = true → a.tag = 1 → b.tag = 1 →
      exec (.min f) s = .next (ran (rrrWord f 1 17) 0 s f.p (gives (if a.val.toInt < b.val.toInt then a.val else b.val))) ∧
      exec (.max f) s = .next (ran (rrrWord f 1 18) 0 s f.p (gives (if b.val.toInt < a.val.toInt then a.val else b.val))) ∧
      exec (.minu f) s = .next (ran (rrrWord f 1 19) 0 s f.p (gives (if a.val.toNat < b.val.toNat then a.val else b.val))) ∧
      exec (.maxu f) s = .next (ran (rrrWord f 1 20) 0 s f.p (gives (if b.val.toNat < a.val.toNat then a.val else b.val)))) ∧
    (a.tag = 1 ∨ a.tag = 2 → f.t = 0 →
      (isD f.d = true → isD f.s = true →
        exec (.clz f) s = .next (ran (rrrWord f 1 21) 0 s f.p (gives (BitVec.ofNat 64 (64 - (if a.val = 0 then 0 else a.val.toNat.log2 + 1))))) ∧
        exec (.popc f) s =
          .next (ran (rrrWord f 1 22) 0 s f.p (gives (BitVec.ofNat 64 ((List.range 64).filter (fun k => a.val.getLsbD k)).length)))) ∧
      (∃ r : W64, (∀ k, k < 8 → r.extractLsb' (8 * k) 8 = a.val.extractLsb' (56 - 8 * k) 8) ∧
        exec (.bswap f) s = .next (ran (rrrWord f 1 23) 0 s f.p (setsReg s f.p 1 f.d ⟨r, a.tag⟩ (signFlags r)))))) ∧
  (∀ (s : State) (f : RIF), ready s f.p 1 f.g = true →
    exec (.movi f) s = .next (ran (rifWord f 8) 0 s f.p (setsReg s f.p 1 f.d (intW (f.imm.signExtend 64)) id))) ∧
  (∀ (s : State) (f : LF), ready s f.p 2 f.g = true → f.z = 0 → f.s = 0 →
    exec (.movl f) s = .next (ran (lfWord f 0x30) f.imm s f.p (setsReg s f.p 2 f.d (intW (f.imm.signExtend 64)) id)) ∧
    exec (.leapc f) s =
      .next (ran (lfWord f 0x35) f.imm s f.p (setsReg s f.p 2 f.d ⟨(pilot s f.p).pc.setWidth 64 + f.imm.signExtend 64, 5⟩ id)) ∧
    (isD f.d = true → ((pilot s f.p).reg f.d).tag = 1 →
      exec (.movh f) s =
        .next (ran (lfWord f 0x31) f.imm s f.p (setsReg s f.p 2 f.d (intW (f.imm ++ ((pilot s f.p).reg f.d).val.extractLsb' 0 32)) id))))

/-- R326, R327: a multiply changes nothing but that its result is in flight, to be written at the end of the third instruction
that follows; XMAC adds to Xk.

R327: every instruction that completes counts a multiply in flight down, whether or not its guard is met; at 0 the result
is written to the bank that issued it, MH and ML as INT words or Xk as an INT accumulator. -/
def Obligations.Multiplies : Prop :=
  (∀ (s : State) (f : RRR), ready s f.p 1 f.g = true →
    let x := pilot s f.p
    let a := (x.reg f.s).val
    let b := (x.reg f.t).val
    let signed : BitVec 128 := BitVec.ofInt 128 (a.toInt * b.toInt)
    let unsigned : BitVec 128 := BitVec.ofNat 128 (a.toNat * b.toNat)
    let starts : MulDst → BitVec 128 → State := fun dst v =>
      afterInstr s f.p 1 (fun y => { y with mulq := [⟨y.cur, 3, dst, v⟩] })
    isD f.s = true → isD f.t = true → (x.reg f.s).tag = 1 → (x.reg f.t).tag = 1 →
    (f.d = 0 →
      exec (.mul f) s = .next (ran (rrrWord f 9 0) 0 s f.p (starts .mhml signed)) ∧ exec (.mulu f) s = .next (ran (rrrWord f 9 1) 0 s f.p (starts .mhml unsigned))) ∧
    (f.d < 4 → (x.bankCur.xreg f.d.toNat).tag = 1 →
      exec (.xmac f) s = .next (ran (rrrWord f 9 4) 0 s f.p (starts (.acc f.d.toNat) ((x.bankCur.xreg f.d.toNat).val + signed))) ∧
      exec (.xmacu f) s = .next (ran (rrrWord f 9 5) 0 s f.p (starts (.acc f.d.toNat) ((x.bankCur.xreg f.d.toNat).val + unsigned))))) ∧
  (∀ (s : State) (f : RRR) (k n : Nat) (v : BitVec 128), issues s f.p 1 = true → f.d = 0 → f.s = 0 → f.t = 0 →
    let x := pilot s f.p
    (∀ dst, x.mulq = [⟨k, n + 2, dst, v⟩] →
      exec (.nop f) s = .next (ran (rrrWord f 0x17 0) 0 s f.p (afterInstr s f.p 1 (fun y => { y with mulq := [⟨k, n + 1, dst, v⟩] })))) ∧
    (x.mulq = [⟨k, 1, .mhml, v⟩] →
      exec (.nop f) s = .next (ran (rrrWord f 0x17 0) 0 s f.p (afterInstr s f.p 1 (fun y =>
        { y.setBank k { y.bankOf k with mh := intW (v.extractLsb' 64 64), ml := intW (v.extractLsb' 0 64),
                                        dirty := (y.bankOf k).dirty ||| 16 } with mulq := [] })))) ∧
    (∀ j, x.mulq = [⟨k, 1, .acc j, v⟩] →
      exec (.nop f) s = .next (ran (rrrWord f 0x17 0) 0 s f.p (afterInstr s f.p 1 (fun y =>
        { y.setBank k ((y.bankOf k).setX j ⟨v, 1⟩) with mulq := [] })))))

/-- R325, R326: the quotient truncated toward zero to Dd, the remainder to D(d + 1), N and Z of the quotient, and V for the
one quotient that overflows.

R326: moves to and from the accumulators.

R308, R332, R333: moves and tags. MOV moves a readable word whole; RETAG changes only the tag; CLRT empties the register;
TAGOF gives the tag's code. -/
def Obligations.DividesAndMoves : Prop :=
  (∀ (s : State) (f : RRR), ready s f.p 1 f.g = true →
    let x := pilot s f.p
    let a := (x.reg f.s).val
    let b := (x.reg f.t).val
    let gives : W64 → W64 → Bool → State := fun q r v =>
      afterInstr s f.p 1 (fun y => { (y.wrInt f.d q).wrInt (f.d + 1) r with sw := { signFlags q y.sw with v := v } })
    f.d < 16 → f.d.getLsbD 0 = false → isD f.s = true → isD f.t = true → (x.reg f.s).tag = 1 → (x.reg f.t).tag = 1 →
    b ≠ 0 →
    exec (.div f) s = .next (ran (rrrWord f 9 2) 0 s f.p (gives (BitVec.ofInt 64 (a.toInt.tdiv b.toInt)) (BitVec.ofInt 64 (a.toInt.tmod b.toInt))
      (decide (a = 0x8000000000000000 ∧ b = 0xFFFFFFFFFFFFFFFF)))) ∧
    exec (.divu f) s =
      .next (ran (rrrWord f 9 3) 0 s f.p (gives (BitVec.ofNat 64 (a.toNat / b.toNat)) (BitVec.ofNat 64 (a.toNat % b.toNat)) false))) ∧
  (∀ (s : State) (f : RRR), ready s f.p 1 f.g = true →
    let x := pilot s f.p
    let setX : BitVec 128 → State := fun v =>
      afterInstr s f.p 1 (fun y => y.setCur (y.bankCur.setX f.d.toNat ⟨v, 1⟩))
    (isD f.d = true → f.s < 4 → (x.bankCur.xreg f.s.toNat).tag = 1 →
      let v := (x.bankCur.xreg f.s.toNat).val
      (f.t = 0 → exec (.mfx f) s = .next (ran (rrrWord f 9 6) 0 s f.p (setsReg s f.p 1 f.d (intW (v.extractLsb' 0 64)) id))) ∧
      (f.t = 1 → exec (.mfx f) s = .next (ran (rrrWord f 9 6) 0 s f.p (setsReg s f.p 1 f.d (intW (v.extractLsb' 64 64)) id)))) ∧
    (f.d < 4 →
      (f.s = 0 → f.t = 0 → exec (.xclr f) s = .next (ran (rrrWord f 9 8) 0 s f.p (setX 0))) ∧
      (isD f.s = true → isD f.t = true → (x.reg f.s).tag = 1 → (x.reg f.t).tag = 1 →
        exec (.mtx f) s = .next (ran (rrrWord f 9 7) 0 s f.p (setX ((x.reg f.t).val ++ (x.reg f.s).val)))))) ∧
  (∀ (s : State) (f : RRR), ready s f.p 1 f.g = true →
    let x := pilot s f.p
    let a := x.reg f.s
    let open_ := x.sw.world = false
    (f.t = 0 → a.tag ≠ 0 → ¬ (10 ≤ a.tag.toNat ∧ a.tag.toNat ≤ 14) → ¬ (a.tag = 15 ∧ open_) →
      exec (.mov f) s = .next (ran (rrrWord f 0xB 0) 0 s f.p (setsReg s f.p 1 f.d a id))) ∧
    (f.s = 0 → f.t = 0 → exec (.clrt f) s = .next (ran (rrrWord f 0xB 2) 0 s f.p (setsReg s f.p 1 f.d ⟨0, 0⟩ id))) ∧
    (isD f.d = true → f.t = 0 → ¬ (a.tag = 15 ∧ open_) →
      exec (.tagof f) s = .next (ran (rrrWord f 0xB 3) 0 s f.p (setsReg s f.p 1 f.d (intW (a.tag.setWidth 64)) id))) ∧
    (∀ b : BitVec 4, f.t = b.setWidth 5 →
      ((a.tag = 1 ∨ a.tag = 2 ∨ a.tag = 3 ∨ a.tag = 7) ∧ (b = 1 ∨ b = 2 ∨ b = 7)) ∨
      ((a.tag = 1 ∨ a.tag = 2) ∧ b = 3 ∧ decOk a.val = true) ∨
      (a.tag = 1 ∧ b = 4) ∨
      ((a.tag = 4 ∨ a.tag = 5 ∨ a.tag = 6) ∧ b = 1) ∨
      (x.sw.world = true ∧ a.tag = 1 ∧ (b = 5 ∨ b = 8 ∨ b = 9 ∨ b = 15)) ∨
      (x.sw.world = true ∧ (a.tag = 9 ∨ a.tag = 8 ∨ a.tag = 15) ∧ b = 1) →
      exec (.retag f) s = .next (ran (rrrWord f 0xB 1) 0 s f.p (setsReg s f.p 1 f.d ⟨a.val, b⟩ id))))

/-- R329, R330: a decimal sum, difference or conversion gives a well-formed DEC word with sign 0xC or 0xD that holds the low
15 digits of the true result and its sign, zero positive; D records the overflow.

R329, R331: DADDM, DSUBM and DMULM work on numbers of digit words, least significant word first: the sum or difference
goes over the destination with its carry or borrow in C, the product over the destination's n + m words. -/
def Obligations.DecimalNumbers : Prop :=
  (∀ (s : State) (f : RRR), ready s f.p 1 f.g = true →
    let x := pilot s f.p
    let a := x.reg f.s
    let b := x.reg f.t
    let holds : Int → W64 → Prop := fun i r =>
      decOk r = true ∧ (r.extractLsb' 0 4 = 0xC ∨ r.extractLsb' 0 4 = 0xD ∧ decVal r ≠ 0) ∧
        decVal r = i.sign * ((i.natAbs % 10 ^ 15 : Nat) : Int)
    let sum : Int → W64 → Sw → Sw := fun i r w =>
      { w with n := decide (decVal r < 0), z := decide (decVal r = 0), v := false, d := decide (10 ^ 15 ≤ i.natAbs) }
    isD f.d = true → isD f.s = true →
    (isD f.t = true → a.tag = 3 → b.tag = 3 → decOk a.val = true → decOk b.val = true →
      (∃ r, holds (decVal a.val + decVal b.val) r ∧
        exec (.dadd f) s = .next (ran (rrrWord f 10 0) 0 s f.p (setsReg s f.p 1 f.d ⟨r, 3⟩ (sum (decVal a.val + decVal b.val) r)))) ∧
      (∃ r, holds (decVal a.val - decVal b.val) r ∧
        exec (.dsub f) s = .next (ran (rrrWord f 10 1) 0 s f.p (setsReg s f.p 1 f.d ⟨r, 3⟩ (sum (decVal a.val - decVal b.val) r)))) ∧
      (f.d = 0 → exec (.dcmp f) s = .next (ran (rrrWord f 10 2) 0 s f.p (setsFlags s f.p 1 (fun w =>
        { w with z := decide (decVal a.val = decVal b.val), n := decide (decVal a.val < decVal b.val), v := false }))))) ∧
    (f.t = 0 → a.tag = 1 →
      ∃ r, holds a.val.toInt r ∧ exec (.cvd f) s = .next (ran (rrrWord f 10 3) 0 s f.p (setsReg s f.p 1 f.d ⟨r, 3⟩ (fun w =>
        { w with n := decide (decVal r < 0), z := decide (decVal r = 0), d := decide (10 ^ 15 ≤ a.val.toInt.natAbs) })))) ∧
    (f.t = 0 → a.tag = 3 → decOk a.val = true →
      ∃ r : W64, r.toInt = decVal a.val ∧ exec (.cvb f) s = .next (ran (rrrWord f 10 4) 0 s f.p (setsReg s f.p 1 f.d (intW r) (signFlags r))))) ∧
  (∀ (s : State) (f : RRR), ready s f.p 1 f.g = true → unwatched (pilot s f.p) = true →
    isA f.d = true → isA f.s = true → isD f.t = true →
    let x := pilot s f.p
    let src := (x.reg f.s).val
    let dst := (x.reg f.d).val
    let v := (x.reg f.t).val.toNat
    let n := v % 64
    let m := v / 256 % 64
    let b := caskWord s f.p
    let i := src.toNat / 8
    let j := dst.toNat / 8
    let num : Nat → Nat → Nat := fun k c => digsVal ((List.range c).map (fun e => (b (k + e)).val))
    let digits : Nat → Nat → Prop := fun k c => ∀ e, e < c → (b (k + e)).tag = 3 ∧ digOk (b (k + e)).val = true
    let out : Nat → Nat → State := fun c val =>
      ((List.range c).zip (digsWords c val)).foldl
        (fun u e => putWord u f.p (addrAdd dst (BitVec.ofNat 64 (8 * e.1))) ⟨e.2, 3⟩) s
    let fl : Bool → Bool → Pilot → Pilot := fun c z y =>
      { y with cx := 0, sw := { x.sw with c := c, z := z, n := false, v := false } }
    x.cx = 0 → (x.reg f.s).tag = 4 → (x.reg f.t).tag = 1 → (x.reg f.d).tag = 4 →
    caskAddr src = true → caskAddr dst = true →
    (0 < v → v ≤ 32 → i + v ≤ 8192 → j + v ≤ 8192 → (src = dst ∨ i + v ≤ j ∨ j + v ≤ i) → digits i v → digits j v →
      let sum := num j v + num i v
      let dif := num j v + 10 ^ (16 * v) - num i v
      exec (.daddm f none) s = .next (ran (rrrWord f 0x14 2) 0 s f.p (afterInstr (out v (sum % 10 ^ (16 * v))) f.p 1
        (fl (decide (10 ^ (16 * v) ≤ sum)) (decide (sum % 10 ^ (16 * v) = 0))))) ∧
      exec (.dsubm f none) s = .next (ran (rrrWord f 0x14 3) 0 s f.p (afterInstr (out v (dif % 10 ^ (16 * v))) f.p 1
        (fl (decide (num j v < num i v)) (decide (dif % 10 ^ (16 * v) = 0)))))) ∧
    (v = n + 256 * m → 0 < n → n ≤ 32 → 0 < m → m ≤ 32 → i + n + m ≤ 8192 → j + n + m ≤ 8192 →
      (i + n + m ≤ j ∨ j + n + m ≤ i) → digits i (n + m) →
      let prod := num i n * num (i + n) m
      exec (.dmulm f none) s = .next (ran (rrrWord f 0x14 4) 0 s f.p (afterInstr (out (n + m) prod) f.p 1 (fl false (decide (prod = 0)))))))

/-- R308, R314, R316, R334, R335: a load that meets no trap gives the register the word that its address names, with the tag
the word holds, or the bytes of it as an INT; nothing else changes.

R255, R314, R334, R335: a store to the cask or the cellar writes the word, value and tag, or its low bytes, at its address
and nothing else; a sub-word store leaves the word BITS, over an EMPTY word with the other bytes 0. -/
def Obligations.LoadsAndStores : Prop :=
  (∀ (s : State) (f : RRR), ready s f.p 1 f.g = true → unwatched (pilot s f.p) = true → isA f.s = true → isD f.t = true →
    let x := pilot s f.p
    let u := atEffect s f.p 1
    let a := addrAdd (x.reg f.s).val (x.reg f.t).val
    let word : Nat → TWord := fun n => memWord u f.p x.sw.world a n
    let bytes : Nat → W64 := fun n => BitVec.ofNat 64 ((word n).val.toNat / 2 ^ (8 * (a.toNat % 8)) % 2 ^ (8 * n))
    let may : Nat → Prop := fun n => a.toNat % n = 0 ∧ loadable u f.p x.sw.world a n = true
    let narrow : Nat → Prop := fun n => isD f.d = true ∧ may n ∧ ((word n).tag = 1 ∨ (word n).tag = 2 ∨ (word n).tag = 3)
    (x.reg f.s).tag = 4 → (x.reg f.t).tag = 1 →
    (may 8 → readableIn s f.p (word 8) = true →
      exec (.ldx f) s = .next (ran (rrrWord f 0x0E 0) 0 s f.p (setsReg s f.p 1 f.d (word 8) id)) ∧
      (isD f.d = true → aSpace a ≠ 2 → exec (.ldt f) s = .next (ran (rrrWord f 0x0E 8) 0 s f.p (setsReg s f.p 1 f.d (word 8) id)))) ∧
    (narrow 1 → exec (.ldu8 f) s = .next (ran (rrrWord f 0x0E 2) 0 s f.p (setsReg s f.p 1 f.d (intW (bytes 1)) id))) ∧
    (narrow 2 → exec (.ldu16 f) s = .next (ran (rrrWord f 0x0E 3) 0 s f.p (setsReg s f.p 1 f.d (intW (bytes 2)) id))) ∧
    (narrow 4 → exec (.ldu32 f) s = .next (ran (rrrWord f 0x0E 4) 0 s f.p (setsReg s f.p 1 f.d (intW (bytes 4)) id)))) ∧
  (∀ (s : State) (f : RRI), ready s f.p 1 f.g = true → unwatched (pilot s f.p) = true → isA f.s = true →
    let x := pilot s f.p
    let u := atEffect s f.p 1
    let a := addrAdd (x.reg f.s).val (BitVec.ofInt 64 (8 * f.imm.toInt))
    (x.reg f.s).tag = 4 → a.toNat % 8 = 0 → loadable u f.p x.sw.world a 8 = true →
    readableIn s f.p (memWord u f.p x.sw.world a 8) = true →
    exec (.ld f) s = .next (ran (rriWord f 0x0C) 0 s f.p (setsReg s f.p 1 f.d (memWord u f.p x.sw.world a 8) id))) ∧
  (∀ (s : State) (f : LF), ready s f.p 2 f.g = true → f.z = 0 → unwatched (pilot s f.p) = true → isA f.s = true →
    let x := pilot s f.p
    let u := atEffect s f.p 2
    let a := addrAdd (x.reg f.s).val (BitVec.ofInt 64 f.imm.toInt)
    (x.reg f.s).tag = 4 → a.toNat % 8 = 0 → loadable u f.p x.sw.world a 8 = true →
    readableIn s f.p (memWord u f.p x.sw.world a 8) = true →
    exec (.ldl f) s = .next (ran (lfWord f 0x33) f.imm s f.p (setsReg s f.p 2 f.d (memWord u f.p x.sw.world a 8) id))) ∧
  (∀ (s : State) (f : RRR), ready s f.p 1 f.g = true → unwatched (pilot s f.p) = true → isA f.s = true → isD f.t = true →
    let x := pilot s f.p
    let w := x.reg f.d
    let a := addrAdd (x.reg f.s).val (x.reg f.t).val
    let old := memWord s f.p x.sw.world a 8
    let base : W64 := if old.tag = 0 then 0 else old.val
    let may : Nat → Prop := fun n =>
      a.toNat % n = 0 ∧ storable s f.p x.sw.world a n = true ∧ (old.tag = 0 ∨ old.tag = 1 ∨ old.tag = 2 ∨ old.tag = 3)
    let gives : TWord → State := fun v => afterInstr (putWord s f.p a v) f.p 1 id
    let merged : Nat → W64 → Prop := fun n v => ∀ j, j < 8 → v.extractLsb' (8 * j) 8 =
      if a.toNat % 8 ≤ j ∧ j < a.toNat % 8 + n then w.val.extractLsb' (8 * (j - a.toNat % 8)) 8
      else base.extractLsb' (8 * j) 8
    (x.reg f.s).tag = 4 → (x.reg f.t).tag = 1 → aSpace a ≤ 1 → readableIn s f.p w = true →
    ¬ (w.tag = 15 ∧ aSpace a = 1 ∧ bankOwner s (aOff a / 8 / bankWords) = 0) →
    (a.toNat % 8 = 0 → storable s f.p x.sw.world a 8 = true → exec (.stx f) s = .next (ran (rrrWord f 0x0E 1) 0 s f.p (gives w))) ∧
    (isD f.d = true →
      (may 1 → ∃ v, merged 1 v ∧ exec (.st8 f) s = .next (ran (rrrWord f 0x0E 5) 0 s f.p (gives ⟨v, 2⟩))) ∧
      (may 2 → ∃ v, merged 2 v ∧ exec (.st16 f) s = .next (ran (rrrWord f 0x0E 6) 0 s f.p (gives ⟨v, 2⟩))) ∧
      (may 4 → ∃ v, merged 4 v ∧ exec (.st32 f) s = .next (ran (rrrWord f 0x0E 7) 0 s f.p (gives ⟨v, 2⟩))))) ∧
  (∀ (s : State) (f : RRI), ready s f.p 1 f.g = true → unwatched (pilot s f.p) = true → isA f.s = true →
    let x := pilot s f.p
    let w := x.reg f.d
    let a := addrAdd (x.reg f.s).val (BitVec.ofInt 64 (8 * f.imm.toInt))
    (x.reg f.s).tag = 4 → a.toNat % 8 = 0 → aSpace a ≤ 1 → storable s f.p x.sw.world a 8 = true →
    readableIn s f.p w = true → ¬ (w.tag = 15 ∧ aSpace a = 1 ∧ bankOwner s (aOff a / 8 / bankWords) = 0) →
    exec (.st f) s = .next (ran (rriWord f 0x0D) 0 s f.p (afterInstr (putWord s f.p a w) f.p 1 id))) ∧
  (∀ (s : State) (f : LF), ready s f.p 2 f.g = true → f.z = 0 → unwatched (pilot s f.p) = true → isA f.s = true →
    let x := pilot s f.p
    let w := x.reg f.d
    let a := addrAdd (x.reg f.s).val (BitVec.ofInt 64 f.imm.toInt)
    (x.reg f.s).tag = 4 → a.toNat % 8 = 0 → aSpace a ≤ 1 → storable s f.p x.sw.world a 8 = true →
    readableIn s f.p w = true → ¬ (w.tag = 15 ∧ aSpace a = 1 ∧ bankOwner s (aOff a / 8 / bankWords) = 0) →
    exec (.stl f) s = .next (ran (lfWord f 0x34) f.imm s f.p (afterInstr (putWord s f.p a w) f.p 2 id)))

/-- R314, R316, R430, R431: the words that addresses name: the cask of the pilot, and the cellar, both open to loads and
stores of the sealed world; a store is read back by its own pilot at once and leaves every other word, and another pilot
reads the word's old value while it waits in the commit buffer.

R314, R334, R337: LEA adds to an ADDR or a CODE word; a store to the control-register window writes the register as the
pilot's world may, and an LDT there has the effect of a take. -/
def Obligations.AddressSpaces : Prop :=
  (∀ (s : State) (p : Nat) (a b : W64) (w : TWord), a.toNat % 8 = 0 → b.toNat % 8 = 0 →
    (a.toNat < 65536 →
      loadable s p true a 8 = true ∧ storable s p true a 8 = true ∧ memWord s p true a 8 = caskWord s p (a.toNat / 8)) ∧
    (0x1000000000000000 ≤ a.toNat → a.toNat < 0x1000000000000000 + s.blk.build.cellar →
      bankOwner s (aOff a / 8 / bankWords) = 0 ∨ bankOwner s (aOff a / 8 / bankWords) = 1 →
      loadable s p true a 8 = true ∧ storable s p true a 8 = true ∧
        memWord s p true a 8 = seenWord s p true ((a.toNat - 0x1000000000000000) / 8)) ∧
    (0x4000000000000000 ≤ a.toNat → ∀ n, loadable s p true a n = false ∧ storable s p true a n = false) ∧
    (0x3000000000000000 ≤ a.toNat → ∀ n, storable s p true a n = false) ∧
    (aSpace a ≤ 1 → aSpace b ≤ 1 → a.toNat < 65536 ∨ aSpace a = 1 → b.toNat < 65536 ∨ aSpace b = 1 →
      memWord (putWord s p a w) p true a 8 = w ∧
      (b ≠ a → memWord (putWord s p a w) p true b 8 = memWord s p true b 8) ∧
      (∀ q, q ≠ p → (pilot s p).win.stores.length < 7 → memWord (putWord s p a w) q true b 8 = memWord s q true b 8))) ∧
  (∀ (s : State) (f : RRI), ready s f.p 1 f.g = true →
    let a := (pilot s f.p).reg f.s
    (a.tag = 4 → exec (.lea f) s = .next (ran (rriWord f 0x0F) 0 s f.p (setsReg s f.p 1 f.d ⟨addrAdd a.val (f.imm.signExtend 64), 4⟩ id))) ∧
    (a.tag = 5 → exec (.lea f) s = .next (ran (rriWord f 0x0F) 0 s f.p (setsReg s f.p 1 f.d ⟨a.val + f.imm.signExtend 64, 5⟩ id)))) ∧
  (∀ (s : State) (f : RRR), ready s f.p 1 f.g = true → unwatched (pilot s f.p) = true → isA f.s = true → isD f.t = true →
    isD f.d = true →
    let x := pilot s f.p
    let u := atEffect s f.p 1
    let a := addrAdd (x.reg f.s).val (x.reg f.t).val
    let w := (x.reg f.d).val
    let rq := pilotRq f.p x.sw.world
    let calm_ : State → Prop := fun v => pilot v f.p = pilot u f.p ∧ v.dbg.req = u.dbg.req
    (x.reg f.s).tag = 4 → (x.reg f.t).tag = 1 → aSpace a = 2 →
    ((x.reg f.d).tag = 1 ∨ (x.reg f.d).tag = 2 →
      (a.toNat % 8 = 0 → storable u f.p x.sw.world a 8 = true → calm_ (winStore u rq true (aOff a) w) →
        exec (.stx f) s = .next (ran (rrrWord f 0x0E 1) 0 s f.p (completed (winStore u rq true (aOff a) w) f.p))) ∧
      (a.toNat % 4 = 0 → storable u f.p x.sw.world a 4 = true →
        calm_ (winStore u rq false (aOff a) (BitVec.ofNat 64 (w.toNat % 2 ^ 32))) →
        exec (.st32 f) s = .next (ran (rrrWord f 0x0E 7) 0 s f.p (completed (winStore u rq false (aOff a) (BitVec.ofNat 64 (w.toNat % 2 ^ 32))) f.p)))) ∧
    (a.toNat % 8 = 0 → loadable u f.p x.sw.world a 8 = true →
      pilot (winTake u true (aOff a)) f.p = pilot u f.p → (winTake u true (aOff a)).dbg.req = u.dbg.req →
      exec (.ldt f) s = .next (ran (rrrWord f 0x0E 8) 0 s f.p (completed
        (updPilot (winTake u true (aOff a)) f.p (fun y => y.wr f.d (memWord u f.p x.sw.world a 8))) f.p))))

/-- R308, R336: PUSH lowers A15 by 8 and stores there; POP loads from A15 and raises it by 8.

R380, R381: RSSPILL moves the `k` oldest cache entries to the spill area at RSP, in the cask or the cellar, as CODE words
with the oldest lowest, and raises RSP by 8 `k`; RSFILL moves the `k` words below RSP back below the cache's oldest entry
and lowers it. A count of 0 changes nothing. -/
def Obligations.Stacks : Prop :=
  (∀ (s : State) (f : RRR), ready s f.p 1 f.g = true → unwatched (pilot s f.p) = true →
    let x := pilot s f.p
    let top := (x.reg 31).val
    let a := addrSub top 8
    let lim := x.bankCur.dslim
    (x.reg 31).tag = 4 → aSpace top ≤ 1 →
    (f.d = 0 → f.t = 0 → isD f.s = true → a.toNat % 8 = 0 → storable s f.p x.sw.world a 8 = true →
      lim.tag = 0 ∨ lim.val.toNat ≤ a.toNat →
      readableIn s f.p (x.reg f.s) = true →
      ¬ ((x.reg f.s).tag = 15 ∧ aSpace a = 1 ∧ bankOwner s (aOff a / 8 / bankWords) = 0) →
      exec (.push f) s = .next (ran (rrrWord f 0x0E 9) 0 s f.p (afterInstr (putWord s f.p a (x.reg f.s)) f.p 1 (fun y => y.wr 31 ⟨a, 4⟩)))) ∧
    (f.s = 0 → f.t = 0 → isD f.d = true → top.toNat % 8 = 0 → loadable s f.p x.sw.world top 8 = true →
      readableIn s f.p (memWord s f.p x.sw.world top 8) = true →
      exec (.pop f) s = .next (ran (rrrWord f 0x0E 0x0A) 0 s f.p (afterInstr s f.p 1 (fun y =>
        (y.wr f.d (memWord s f.p x.sw.world top 8)).wr 31 ⟨addrAdd top 8, 4⟩))))) ∧
  (∀ (s : State) (f : RRR), ready s f.p 1 f.g = true → unwatched (pilot s f.p) = true → f.d = 0 → f.t = 0 → isD f.s = true →
    let x := pilot s f.p
    let b := x.bankCur
    let k := (x.reg f.s).val.toNat % 64
    let a := b.rsp.val
    let up : Nat → W64 := fun j => addrAdd a (BitVec.ofNat 64 (8 * j))
    let down : Nat → W64 := fun j => addrSub a (BitVec.ofNat 64 (8 * (j + 1)))
    x.sw.priv = true → (x.reg f.s).tag = 1 → b.rsp.tag = 4 → a.toNat % 8 = 0 →
    (k = 0 →
      exec (.rsspill f) s = .next (ran (rrrWord f 0x12 3) 0 s f.p (afterInstr s f.p 1 id)) ∧ exec (.rsfill f) s = .next (ran (rrrWord f 0x12 4) 0 s f.p (afterInstr s f.p 1 id))) ∧
    (0 < k → k ≤ b.rcache.length → aSpace a ≤ 1 → (∀ j, j < k → storable s f.p x.sw.world (up j) 8 = true) →
      exec (.rsspill f) s = .next (ran (rrrWord f 0x12 3) 0 s f.p (afterInstr
        (((List.range k).zip (b.rcache.reverse.take k)).foldl
          (fun u e => putWord u f.p (up e.1) ⟨e.2.setWidth 64, 5⟩) s) f.p 1
        (fun y => y.setCur { b with rcache := b.rcache.take (b.rcache.length - k), spilled := b.spilled + k,
                                    rsp := ⟨up k, 4⟩ })))) ∧
    (0 < k → k ≤ b.spilled → b.rcache.length + k ≤ 32 → aSpace (down 0) ≤ 1 →
      (∀ j, j < k → loadable s f.p x.sw.world (down j) 8 = true ∧ (memWord s f.p x.sw.world (down j) 8).tag = 5) →
      exec (.rsfill f) s = .next (ran (rrrWord f 0x12 4) 0 s f.p (afterInstr s f.p 1 (fun y => y.setCur { b with
        rcache := b.rcache ++ ((List.range k).map (fun j => (memWord s f.p x.sw.world (down j) 8).val.setWidth 18)),
        spilled := b.spilled - k, rsp := ⟨addrSub a (BitVec.ofNat 64 (8 * k)), 4⟩ })))))

/-- R315, R338: branches and jumps; with trace of transfers off, nothing but the PC changes.

R338, R339, R380, R382: a call pushes the address of the next instruction onto the cache and the shadow buffer; a return
pops both and goes to the popped address, which must be the shadow's. -/
def Obligations.ControlFlow : Prop :=
  (∀ (s : State) (f : BRF), ready s f.p 1 f.g = true → s.dbg.tflow = false →
    let x := pilot s f.p
    let t : Int := x.pc.toNat + 4 * f.off.toInt
    x.pc.toNat % 4 = 0 → 0 ≤ t → t < 2 ^ 18 →
    exec (.b f) s = .next (ran (brfWord f 0x10) 0 s f.p (afterInstr s f.p 1 (fun y => { y with pc := BitVec.ofInt 18 t })))) ∧
  (∀ (s : State) (f : RRR), ready s f.p 1 f.g = true → s.dbg.tflow = false → f.d = 0 → f.t = 0 → isA f.s = true →
    let a := (pilot s f.p).reg f.s
    a.tag = 5 → a.val.toNat % 4 = 0 → a.val.toNat < 2 ^ 18 →
    exec (.jmpr f) s = .next (ran (rrrWord f 0x12 0) 0 s f.p (afterInstr s f.p 1 (fun y => { y with pc := BitVec.ofNat 18 a.val.toNat })))) ∧
  (∀ (s : State) (f : BRF), ready s f.p 1 f.g = true → s.dbg.tflow = false →
    let x := pilot s f.p
    let b := x.bankCur
    let t : Int := x.pc.toNat + 4 * f.off.toInt
    x.pc.toNat % 4 = 0 → 0 ≤ t → t < 2 ^ 18 → b.rcache.length < 28 → b.depth < 256 →
    exec (.call f) s = .next (ran (brfWord f 0x11) 0 s f.p (afterInstr s f.p 1 (fun y =>
      { y.setCur { b with rcache := (x.pc + 4) :: b.rcache, shadow := (x.pc + 4) :: b.shadow } with
        pc := BitVec.ofInt 18 t })))) ∧
  (∀ (s : State) (f : RRR), ready s f.p 1 f.g = true → s.dbg.tflow = false → f.d = 0 → f.t = 0 →
    let x := pilot s f.p
    let b := x.bankCur
    let a := x.reg f.s
    (isA f.s = true → a.tag = 5 → a.val.toNat % 4 = 0 → a.val.toNat < 2 ^ 18 → b.rcache.length < 28 → b.depth < 256 →
      exec (.callr f) s = .next (ran (rrrWord f 0x12 1) 0 s f.p (afterInstr s f.p 1 (fun y =>
        { y.setCur { b with rcache := (x.pc + 4) :: b.rcache, shadow := (x.pc + 4) :: b.shadow } with
          pc := BitVec.ofNat 18 a.val.toNat })))) ∧
    (∀ (r : BitVec 18) (cs hs : List (BitVec 18)), f.s = 0 → b.rcache = r :: cs → b.shadow = r :: hs →
      exec (.ret f) s = .next (ran (rrrWord f 0x12 2) 0 s f.p (afterInstr s f.p 1 (fun y =>
        { y.setCur { b with rcache := cs, shadow := hs } with pc := r })))))

/-- R340 to R342: LOOP starts the next loop of the bank, with its first and last instruction, its count and the level; LEXIT
ends a loop and every deeper one.

R342, R403: at the end of the innermost loop's last instruction, here an instruction with no effect of its own, the count
falls by 1; the loop starts again while it is not 0, and ends when it is. -/
def Obligations.Loops : Prop :=
  (∀ (s : State) (f : LPF), ready s f.p 1 f.g = true →
    let x := pilot s f.p
    let b := x.bankCur
    let k := f.k.toNat
    let fin := x.pc.toNat + 4 * f.fin.toNat
    let n := if f.rc = 1 then (x.reg (f.cnt.extractLsb' 0 5)).val.toNat else f.cnt.toNat
    (f.rc = 1 → f.cnt.toNat < 16 ∧ (x.reg (f.cnt.extractLsb' 0 5)).tag = 1) →
    k = b.loopsOn → f.fin ≠ 0 → n < 2 ^ 32 →
    (0 < k → (b.loop (k - 1)).ls.toNat ≤ x.pc.toNat + 4 ∧ fin ≤ (b.loop (k - 1)).le.toNat) →
    let l : LoopR := ⟨x.pc + 4, BitVec.ofNat 18 fin, BitVec.ofNat 32 n, x.sw.level⟩
    (n ≠ 0 → exec (.loop f) s = .next (ran (lpfWord f) 0 s f.p (afterInstr s f.p 1 (fun y =>
      y.setCur { b.setLoop k l with act := b.act ||| ((1 : BitVec 4) <<< k) })))) ∧
    (n = 0 → exec (.loop f) s = .next (ran (lpfWord f) 0 s f.p (afterInstr s f.p 1 (fun y =>
      { y.setCur (b.setLoop k l) with pc := l.le + instrBytes (atEffect s f.p 1) f.p l.le }))))) ∧
  (∀ (s : State) (f : RRR), ready s f.p 1 f.g = true → f.d = 0 → f.s = 0 → f.t < 4 →
    let b := (pilot s f.p).bankCur
    exec (.lexit f) s = .next (ran (rrrWord f 0x12 5) 0 s f.p (afterInstr s f.p 1 (fun y => y.setCur
      { b with act := b.act &&& (((1 : BitVec 4) <<< f.t.toNat) - 1), dirty := b.dirty ||| 8 })))) ∧
  (∀ (s : State) (f : RRR) (k : Nat), f.d = 0 → f.s = 0 → f.t = 0 → k < 4 →
    let x := pilot s f.p
    let b := x.bankCur
    let l := b.loop k
    canIssue s f.p = true → fetchBad s f.p 1 = (false, false) → breakpointAt x = none → x.sw.t = false →
    calm s f.p = true → x.mulq = [] → b.act = BitVec.ofNat 4 (2 ^ (k + 1) - 1) → l.le = x.pc → l.lvl = x.sw.level →
    (l.lc ≠ 1 → exec (.nop f) s = .next (ran (rrrWord f 0x17 0) 0 s f.p (afterInstr s f.p 1 (fun y =>
      { y.setCur (b.setLoop k { l with lc := l.lc - 1 }) with pc := l.ls })))) ∧
    (l.lc = 1 → (∀ j, j < k → (b.loop j).le ≠ x.pc) →
      exec (.nop f) s = .next (ran (rrrWord f 0x17 0) 0 s f.p (afterInstr s f.p 1 (fun y => y.setCur
        { b.setLoop k { l with lc := 0 } with act := BitVec.ofNat 4 (2 ^ k - 1) })))))

/-- R313: an instruction whose guard is not met completes without effect.

R328, R353, R354, R364: SYNC lands every multiply in flight, WAIT stops issue, BANK lands them and selects another bank.

R353, R545: BKPT completes and enters the debug monitor's level with cause BKPT. -/
def Obligations.SystemInstructions : Prop :=
  (∀ (s : State) (p : Nat) (g : BitVec 4) (d r t : BitVec 5), issues s p 1 = true → (pilot s p).mulq = [] →
    (pilot s p).sw.guardMet g = false →
    (∀ e ∈ [(Instr.add, (0 : BitVec 7)), (.sub, 2), (.and, 4), (.or, 5), (.xor, 6), (.andn, 7), (.shl, 8), (.shr, 9),
        (.sar, 10), (.rol, 11), (.ror, 12)],
      exec (e.1 ⟨p, g, d, r, t⟩) s = .next (ran (rrrWord ⟨p, g, d, r, t⟩ 1 e.2) 0 s p (afterInstr s p 1 id))) ∧
    (∀ imm : BitVec 12, exec (.addi ⟨p, g, d, r, imm⟩) s = .next (ran (rriWord ⟨p, g, d, r, imm⟩ 2) 0 s p (afterInstr s p 1 id))) ∧
    (∀ off : BitVec 22, exec (.b ⟨p, g, off⟩) s = .next (ran (brfWord ⟨p, g, off⟩ 0x10) 0 s p (afterInstr s p 1 id)) ∧
      exec (.call ⟨p, g, off⟩) s = .next (ran (brfWord ⟨p, g, off⟩ 0x11) 0 s p (afterInstr s p 1 id)))) ∧
  (∀ (s : State) (f : RRR), issues s f.p 1 = true → (pilot s f.p).sw.guardMet f.g = true →
    (pilot s f.p).sw.priv = true → f.d = 0 → f.t = 0 →
    let x := pilot s f.p
    (f.s = 0 → exec (.sync f) s = .next (ran (rrrWord f 0x17 1) 0 s f.p (afterInstr s f.p 1 Pilot.drain))) ∧
    (f.s = 0 → x.mulq = [] → exec (.wait f) s = .next (ran (rrrWord f 0x17 2) 0 s f.p (afterInstr s f.p 1 (fun y => { y with waiting := true })))) ∧
    (isD f.s = true → x.sw.level ≠ 6 → (x.reg f.s).tag = 1 → (x.reg f.s).val.toNat < 8 →
      atLoopEnd { x.drain with cur := (x.reg f.s).val.toNat } x.pc = false →
      exec (.bank f) s = .next (ran (rrrWord f 0x17 5) 0 s f.p (afterInstr s f.p 1 (fun y => { y.drain with cur := (x.reg f.s).val.toNat }))))) ∧
  (∀ (s : State) (f : RRR), ready s f.p 1 f.g = true → untraced s = true → f.d = 0 → f.s = 0 → f.t = 0 →
    let x := pilot s f.p
    let hw := decide (x.dmon = 7) || x.sw.world || (decide (x.dmon ≠ 0) && x.lw.getLsbD (x.dmon.toNat - 1))
    x.sw.mask < x.dmon → x.dmon ≠ 7 → bankHolds s f.p x.cur = false → presented s f.p = none →
    exec (.bkpt f) s = .next (ran (rrrWord f 0x17 8) 0 s f.p (setPilot s f.p
      { entered (stepped x 1) x.dmon 15 0 false ((1 : BitVec 4) ++ (0 : BitVec 42) ++ x.pc) (x.pc + 4) false hw
          ((if hw then x.vbs else x.vbo) ++ (15 : BitVec 4) ++ (0 : BitVec 5)) with
        src := selected s f.p })))

/-- R378, R379, R389, R390: GATE enters the sealed world at an open gate's target and links the caller; RTE with the link of
its level goes back.

R375, R376, R452: RTE without a gate link of its level restores what the save set of the level holds, when that lies under
the ceiling that the entry recorded; it ends the loops begun at the level and releases the claims made at it. -/
def Obligations.GatesAndReturns : Prop :=
  (∀ (s : State) (f : RRR), ready s f.p 1 f.g = true → s.dbg.tflow = false → f.d = 0 → f.t = 0 →
    let x := pilot s f.p
    let b := x.bankCur
    let d := x.reg f.s
    let g := Table.get 0 x.gtab d.val.toNat
    (isD f.s = true → x.sw.world = false → b.glnk.v = false → d.tag = 8 → d.val.toNat < 64 → g.getLsbD 63 = true →
      x.sw.priv = true ∨ g.getLsbD 62 = true →
      let m := g.extractLsb' 59 3
      exec (.gate f) s = .next (ran (rrrWord f 0x17 3) 0 s f.p (afterInstr s f.p 1 (fun y =>
        { y.setCur { b with glnk := ⟨true, x.sw.level, x.sw.mask, x.sw.priv, x.pc + 4⟩ } with
          pc := g.extractLsb' 0 18
          sw := { x.sw with world := true, priv := true, mask := if x.sw.mask < m then m else x.sw.mask } })))) ∧
    (f.s = 0 → x.sw.world = true → x.sw.priv = true → b.glnk.v = true → b.glnk.level = x.sw.level →
      exec (.rte f) s = .next (ran (rrrWord f 0x17 4) 0 s f.p (afterInstr s f.p 1 (fun y =>
        { y.setCur { b with glnk := { b.glnk with v := false } } with
          pc := b.glnk.rpc
          sw := { x.sw with world := false, priv := b.glnk.priv, mask := b.glnk.mask } }))))) ∧
  (∀ (s : State) (f : RRR) (a : BitVec 4), ready s f.p 1 f.g = true → s.dbg.tflow = false → f.d = 0 → f.s = 0 → f.t = 0 →
    let x := pilot s f.p
    let n := x.sw.level
    let v := x.setOf n.toNat
    let y : Pilot :=
      { stepped x 1 with
        sw := { v.ssw with slot := false }
        cx := v.scx
        pc := v.spc
        slotMark := v.ssw.slot
        cur := if n.toNat < 6 then x.cur else v.tc.bank.toNat }
    let b := y.bankCur
    let z := y.setCur { b with act := a, dirty := if a = b.act then b.dirty else b.dirty ||| 8 }
    n ≠ 0 → n ≠ x.dmon → x.sw.priv = true → x.sw.world = false ∨ x.bankCur.glnk.v = false ∨ x.bankCur.glnk.level ≠ n →
    v.ssw.level = v.tc.clevel → (v.ssw.world = true → v.tc.cworld = true) → (v.ssw.priv = true → v.tc.cpriv = true) →
    v.ssw.mask ≤ v.tc.cmask → v.ssw.level ≤ v.ssw.mask →
    (∀ k, k < 4 → a.getLsbD k = (b.act.getLsbD k && decide ((b.loop k).lvl ≠ n))) → atLoopEnd z x.pc = false →
    let t := setPilot s f.p { z with src := selected s f.p }
    exec (.rte f) s = .next (ran (rrrWord f 0x17 4) 0 s f.p (releaseClaims t (fun _ k => decide (k.pilot = f.p) && decide (k.level = n)))) ∧
    (∀ i, srcOf (releaseClaims t (fun _ k => decide (k.pilot = f.p) && decide (k.level = n))) i =
      match (srcOf s i).claim with
      | some k => if k.pilot = f.p ∧ k.level = n then { srcOf s i with claim := none } else srcOf s i
      | none => srcOf s i))

/-- R369 to R371: a trap of level 5, which MASK does not bar, enters level 5 with its code and value; a reserved operand traps
RSV, a privileged instruction at user privilege PRIV, and an operand without a tag TAG.

R367, R368, R373: a trap of level 5 that MASK bars enters level 7 as an escalation, in bank 8, and the interrupted bank is
emptied; at level 7 it retires the pilot. -/
def Obligations.Traps : Prop :=
  (∀ (s : State) (f : RRR), issues s f.p 1 = true → (pilot s f.p).mulq = [] → untraced s = true →
    (pilot s f.p).sw.guardMet f.g = true → (pilot s f.p).sw.mask < 5 →
    let x := pilot s f.p
    let hw := x.sw.world || x.lw.getLsbD 4
    let base := if hw then x.vbs else x.vbo
    (f.d ≠ 0 → exec (.nop f) s = .next (ran (rrrWord f 0x17 0) 0 s f.p (setPilot s f.p
      { entered x 5 1 0 false ((rrrWord f 0x17 0).setWidth 64) x.pc false hw (base ++ (1 : BitVec 4) ++ (0 : BitVec 5)) with
        src := selected s f.p }))) ∧
    (f.d = 0 → f.s = 0 → f.t = 0 → x.sw.priv = false → exec (.sync f) s = .next (ran (rrrWord f 0x17 1) 0 s f.p (setPilot s f.p
      { entered x 5 2 0 false ((rrrWord f 0x17 1).setWidth 64) x.pc false hw (base ++ (2 : BitVec 4) ++ (0 : BitVec 5)) with
        src := selected s f.p }))) ∧
    (isD f.d = true → isD f.s = true → isD f.t = true → (x.reg f.s).tag = 1 → (x.reg f.t).tag = 0 →
      exec (.mul ⟨f.p, f.g, 0, f.s, f.t⟩) s = .next (ran (rrrWord ⟨f.p, f.g, 0, f.s, f.t⟩ 9 0) 0 s f.p (setPilot { s with freeCtr := s.freeCtr + 1 } f.p
        { entered x 5 4 0 false 0x10 x.pc ((Config.freeWord s.freeCtr).getLsbD 0) hw (base ++ (4 : BitVec 4) ++ (0 : BitVec 5))
          with src := selected s f.p })))) ∧
  (∀ (s : State) (f : RRR), issues s f.p 1 = true → (pilot s f.p).mulq = [] → f.p < 127 → f.d ≠ 0 →
    let x := pilot s f.p
    5 ≤ x.sw.mask →
    ∃ t, exec (.nop f) s = .next (ran (rrrWord f 0x17 0) 0 s f.p t) ∧
      (x.sw.level ≠ 7 →
        (pilot t f.p).sw = { world := true, priv := true, level := 7, mask := 7 } ∧ (pilot t f.p).cur = 8 ∧
        (pilot t f.p).pc = x.vbs ++ (14 : BitVec 4) ++ (0 : BitVec 5) ∧ (pilot t f.p).cx = 0 ∧
        ((pilot t f.p).setOf 7).spc = x.pc ∧ ((pilot t f.p).setOf 7).scx = x.cx ∧ ((pilot t f.p).setOf 7).tv = 0 ∧
        ((pilot t f.p).setOf 7).ssw = { x.sw with slot := false } ∧
        ((pilot t f.p).setOf 7).tc = {
          esc := true, hw := true, clevel := x.sw.level, cmask := x.sw.mask
          cworld := x.sw.world, cpriv := x.sw.priv, bank := BitVec.ofNat 4 x.cur, src := 0, code := 1 } ∧
        ((pilot t f.p).bankOf x.cur).regs = [] ∧ ((pilot t f.p).bankOf x.cur).x = [] ∧
        ((pilot t f.p).bankOf x.cur).rcache = [] ∧ ((pilot t f.p).bankOf x.cur).act = 0 ∧
        (∀ k c, (srcOf t k).claim = some c → c.pilot = f.p → c.bank ≠ x.cur)) ∧
      (x.sw.level = 7 →
        (pilot t f.p).role = .testing ∧ (pilot t f.p).inReset = true ∧ (pilot t f.p).banks = [] ∧ (pilot t f.p).pc = 0 ∧
        (∀ k c, (srcOf t k).claim = some c → c.pilot ≠ f.p)))

/-- R355, R356: CTXSV stores DIRTY and the words of a bank's dirty groups at their places of the save area and clears DIRTY;
CTXLD loads every group and clears it. -/
def Obligations.ContextSwitch : Prop :=
  ∀ (s : State) (f : RRR) (w : Nat → TWord), ready s f.p 1 f.g = true → unwatched (pilot s f.p) = true → f.d = 0 →
    isA f.s = true → isD f.t = true →
    let x := pilot s f.p
    let a := (x.reg f.s).val
    let k := (x.reg f.t).val.toNat % 16
    let b := x.bankOf k
    let at_ : Nat → W64 := fun j => addrAdd a (BitVec.ofNat 64 (8 * j))
    let dirty : Nat → Bool := fun j =>
      if j = 0 then true else if j < 17 then b.dirty.getLsbD 0 else if j < 33 then b.dirty.getLsbD 1
      else if j < 41 then b.dirty.getLsbD 2 else if j < 54 then b.dirty.getLsbD 3 else b.dirty.getLsbD 4
    let lv : Nat → BitVec 64 := fun i => ((b.loop i).lvl.setWidth 64) <<< (4 + 3 * i)
    let word : Nat → TWord := fun j =>
      if j = 0 then intW (b.dirty.setWidth 64)
      else if j < 33 then Table.get emptyW b.regs (j - 1)
      else if j < 41 then ⟨(b.xreg ((j - 33) / 2)).val.extractLsb' (64 * ((j - 33) % 2)) 64, (b.xreg ((j - 33) / 2)).tag⟩
      else if j < 45 then ⟨(b.loop (j - 41)).ls.setWidth 64, 5⟩
      else if j < 49 then ⟨(b.loop (j - 45)).le.setWidth 64, 5⟩
      else if j < 53 then ⟨(b.loop (j - 49)).lc.setWidth 64, 1⟩
      else if j = 53 then intW (b.act.setWidth 64 ||| lv 0 ||| lv 1 ||| lv 2 ||| lv 3)
      else if j = 54 then b.mh else b.ml
    k < 8 → k ≠ x.cur → x.sw.priv = true → x.sw.world = true → (x.reg f.s).tag = 4 → (x.reg f.t).tag = 1 →
    a.toNat % 64 = 0 → aSpace a ≤ 1 →
    ((∀ j, j < 56 → dirty j = true → storable s f.p true (at_ j) 8 = true ∧ (word j).tag.toNat < 10) →
      exec (.ctxsv f) s = .next (ran (rrrWord f 0x17 6) 0 s f.p (afterInstr
        (((List.range 56).filter dirty).foldl (fun u j => putWord u f.p (at_ j) (word j)) s) f.p 1
        (fun y => y.setBank k { b with dirty := 0 })))) ∧
    ((∀ j, 0 < j → j < 56 → loadable s f.p true (at_ j) 8 = true ∧ memWord s f.p true (at_ j) 8 = w j ∧
        (w j).tag.toNat < 10) →
      exec (.ctxld f) s = .next (ran (rrrWord f 0x17 7) 0 s f.p (afterInstr s f.p 1 (fun y => y.setBank k
        { b with
          regs := Table.putList emptyW [] 0 ((List.range 32).map (fun j => w (j + 1)))
          x := Table.putList {} [] 0 ((List.range 4).map (fun i =>
            (⟨(w (34 + 2 * i)).val ++ (w (33 + 2 * i)).val, (w (33 + 2 * i)).tag⟩ : XReg)))
          loops := Table.putList {} [] 0 ((List.range 4).map (fun i =>
            (⟨(w (41 + i)).val.setWidth 18, (w (45 + i)).val.setWidth 18, (w (49 + i)).val.setWidth 32,
              (w 53).val.extractLsb' (4 + 3 * i) 3⟩ : LoopR)))
          act := (w 53).val.setWidth 4
          mh := w 54
          ml := w 55
          dirty := 0 }))))

/-- R306, R311, R357, R386, R389, R390: what MFC of each pilot-internal control register gives, in the sealed world.

R306, R311, R355, R363, R386, R389, R484, R551: what MTC to each of these control registers changes, from privileged
sealed firmware. -/
def Obligations.ControlRegisters : Prop :=
  (∀ (s : State) (f : RRI) (v : TWord), ready s f.p 1 f.g = true → isD f.d = true → f.s = 0 →
    let x := pilot s f.p
    let b := x.bankCur
    let n := f.imm.toNat
    x.sw.priv = true → x.sw.world = true → readableIn s f.p v = true →
    (n, v) ∈ [(0x000, intW ((x.sw.pack false).setWidth 64)), (0x001, intW x.cx), (0x002, intW (BitVec.ofNat 64 x.cur)),
      (0x004, b.rsp), (0x005, intW (BitVec.ofNat 64 b.rcache.length)), (0x006, b.dslim),
      (0x009, intW 31), (0x010, ⟨(b.loop 0).ls.setWidth 64, 5⟩), (0x017, ⟨(b.loop 3).le.setWidth 64, 5⟩),
      (0x019, intW ((b.loop 1).lc.setWidth 64)), (0x020, b.mh), (0x021, b.ml), (0x022, intW (BitVec.ofNat 64 f.p)),
      (0x100, intW (BitVec.ofNat 64 (2 * x.lw.toNat + 256 * x.dmon.toNat))),
      (0x101, ⟨BitVec.ofNat 64 (512 * x.vbo.toNat), 5⟩), (0x102, ⟨BitVec.ofNat 64 (512 * x.vbs.toNat), 5⟩),
      (0x103, intW (x.cseal.setWidth 64)), (0x104, intW b.glnk.pack), (0x105, intW (BitVec.ofNat 64 (b.rcache.length + b.spilled))),
      (0x111, ⟨(x.setOf 1).spc.setWidth 64, 5⟩), (0x117, ⟨(x.setOf 7).spc.setWidth 64, 5⟩),
      (0x11D, intW (((x.setOf 5).ssw.pack false).setWidth 64)), (0x125, intW (x.setOf 5).scx),
      (0x12D, intW (x.setOf 5).tc.pack), (0x135, intW (x.setOf 5).tv), (0x140, intW (Table.get 0 x.gtab 0)),
      (0x17F, intW (Table.get 0 x.gtab 63)), (0x203, intW (x.pickst.setWidth 64)), (0x300, ⟨s.tide.count, 7⟩),
      (0x301, intW (x.wdper.setWidth 64)), (0x302, intW (x.wdcnt.setWidth 64)),
      (0x400, intW x.win.count), (0x401, intW (BitVec.ofNat 64 (65536 * x.ckMism.toNat + x.ckOk.toNat))), (0x402, intW (x.subinfo.setWidth 64)),
      (0x501, ⟨x.dbg.dwaddr, 4⟩), (0x508, intW (Table.get 0 x.dbg.bpc 0)), (0x511, ⟨Table.get 0 x.dbg.wpa 1, 4⟩),
      (0x51B, intW (Table.get 0 x.dbg.wpc 3)), (0x202, intW 0), (0x303, intW 0), (0x520, intW 0)] →
    exec (.mfc f) s = .next (ran (rriWord f 0x15) 0 s f.p (setsReg s f.p 1 f.d v id))) ∧
  (∀ (s : State) (f : RRI) (z : Pilot), ready s f.p 1 f.g = true → f.d = 0 →
    let x := pilot s f.p
    let b := x.bankCur
    let w := x.reg f.s
    let v := w.val
    let y := stepped x 1
    x.sw.priv = true → x.sw.world = true →
    (f.imm, w.tag, z) ∈
      [((0x000 : BitVec 12), (1 : BitVec 4), { y with sw := { x.sw with
          brk := false, t := v.getLsbD 12, d := v.getLsbD 4, n := v.getLsbD 3, z := v.getLsbD 2, v := v.getLsbD 1, c := v.getLsbD 0
          mask := if v.extractLsb' 24 3 < x.sw.level then x.sw.level else v.extractLsb' 24 3 } }),
       (0x001, 1, { y with cx := v }), (0x004, 4, y.setCur { b with rsp := ⟨v, 4⟩ }),
       (0x006, 4, y.setCur { b with dslim := ⟨v, 4⟩ }),
       (0x007, 1, y.setCur { b with act := b.act &&& v.setWidth 4, dirty := b.dirty ||| 8 }),
       (0x020, 1, y.setCur { b with mh := intW v, dirty := b.dirty ||| 16 }),
       (0x021, 1, y.setCur { b with ml := intW v, dirty := b.dirty ||| 16 }),
       (0x101, 5, { y with vbo := v.extractLsb' 9 9 }), (0x102, 5, { y with vbs := v.extractLsb' 9 9 }),
       (0x103, 1, { y with cseal := if 64 < v.toNat % 128 then x.cseal else v.setWidth 7 }),
       (0x115, 5, { y with sets := Table.put {} x.sets 5 { x.setOf 5 with spc := v.setWidth 18 } }),
       (0x125, 1, { y with sets := Table.put {} x.sets 5 { x.setOf 5 with scx := v } }),
       (0x145, 1, { y with gtab := Table.put 0 x.gtab 5 (v &&& 0xF80000000003FFFF) }),
       (0x301, 1, { y with wdper := if v.toNat % 2 ^ 32 < 1000 then 1000 else v.setWidth 32 }),
       (0x303, 1, { y with wdcnt := x.wdper, strike := false }),
       (0x500, 1, { y with dbg := { x.dbg with resume1 := v.getLsbD 0 } }),
       (0x509, 1, { y with dbg := { x.dbg with bpc := Table.put 0 x.dbg.bpc 1 (v &&& 0xE00000000003FFFC) } }),
       (0x510, 4, { y with dbg := { x.dbg with wpa := Table.put 0 x.dbg.wpa 0 v } }),
       (0x51A, 1, { y with dbg := { x.dbg with wpc := Table.put 0 x.dbg.wpc 2 (v &&& 0xFC0000000000000F) } })] →
    exec (.mtc f) s = .next (ran (rriWord f 0x16) 0 s f.p (afterInstr s f.p 1 (fun _ => z))))

/-- R316, R344 to R347: BMOVE copies words with their tags in rising order; the event that is delivered at a restart point,
after a multiple of 8 words, leaves the words moved so far and their number in CX with the PC back.

R348: KSRCH finds the first block of the staging memory that holds the key of the cask, and sets Z; where none does, it
answers the number of blocks and clears Z. -/
def Obligations.BlockMoveAndSearch : Prop :=
  (∀ (s : State) (f : RRR), ready s f.p 1 f.g = true → unwatched (pilot s f.p) = true →
    isA f.d = true → isA f.s = true → isD f.t = true →
    let x := pilot s f.p
    let src := (x.reg f.s).val
    let dst := (x.reg f.d).val
    let n := (x.reg f.t).val.toNat % 2 ^ 20
    let at_ : W64 → Nat → W64 := fun a i => addrAdd a (BitVec.ofNat 64 (8 * i))
    let move : Nat → State := fun m =>
      (List.range m).foldl (fun u i => putWord u f.p (at_ dst i) (memWord u f.p true (at_ src i) 8)) s
    x.cx = 0 → x.sw.world = true → (x.reg f.s).tag = 4 → (x.reg f.t).tag = 1 → (x.reg f.d).tag = 4 →
    src.toNat % 8 = 0 → dst.toNat % 8 = 0 → aSpace src ≤ 1 → aSpace dst ≤ 1 →
    (∀ i, i < n → loadable s f.p true (at_ src i) 8 = true ∧ storable s f.p true (at_ dst i) 8 = true ∧
      (memWord (move i) f.p true (at_ src i) 8).tag.toNat < 10) →
    exec (.bmove f none) s = .next (ran (rrrWord f 0x14 0) 0 s f.p (afterInstr (move n) f.p 1 (fun y => { y with cx := 0 }))) ∧
    (∀ k, 0 < k → 8 * k < n → exec (.bmove f (some k)) s =
      .next (ran (rrrWord f 0x14 0) 0 s f.p (afterInstr (move (8 * k)) f.p 1 (fun y =>
        { y with cx := BitVec.ofNat 64 (2 ^ 60 + 8 * k), pc := x.pc }))))) ∧
  (∀ (s : State) (f : RRR) (m : Nat), ready s f.p 1 f.g = true → unwatched (pilot s f.p) = true →
    isD f.d = true → isA f.s = true → isD f.t = true →
    let x := pilot s f.p
    let a := (x.reg f.s).val
    let v := (x.reg f.t).val.toNat
    let key := v / 2 ^ 48
    let n := v / 2 ^ 32 % 2 ^ 16
    let off := v / 2 ^ 20 % 2 ^ 12
    let len := v / 2 ^ 13 % 2 ^ 7
    let size := if v / 2 ^ 12 % 2 = 1 then 4096 else 512
    let block : Nat → List Byte := fun i => getStage s (aOff a + size * i + off) len
    x.cx = 0 → x.sw.world = true → (x.reg f.s).tag = 4 → (x.reg f.t).tag = 1 → aSpace a = 3 → a.toNat % size = 0 →
    v % 2 ^ 12 = 0 → 0 < len → len ≤ 64 → 0 < n → off + len ≤ size → key + len ≤ 65536 → aOff a + size * n ≤ 2 ^ 44 →
    (∀ i, i ≤ (key + len - 1) / 8 → key / 8 ≤ i → 1 ≤ (caskWord s f.p i).tag.toNat ∧ (caskWord s f.p i).tag.toNat < 10) →
    (∀ i, i < n → (bayOf s ((aOff a + size * i) / 4096)).bound = true) →
    m ≤ n → (∀ i, i < m → block i ≠ caskBytes s f.p key len) → (m < n → block m = caskBytes s f.p key len) →
    exec (.ksrch f none) s = .next (ran (rrrWord f 0x14 1) 0 s f.p (setsReg s f.p 1 f.d (intW (BitVec.ofNat 64 m)) (fun w => { w with z := decide (m < n) }))))

/-- R359, R393, R397, R399 to R401, R414: a custom opcode runs the routine at its slot of the pilot's vintage; here a routine
of one micro-op, the sum of two INT registers with the flags its nano-word names. An empty slot traps RSV. -/
def Obligations.CustomRoutines : Prop :=
  ∀ (s : State) (f : RRR) (k : BitVec 2) (fn : BitVec 7), issues s f.p 1 = true → (pilot s f.p).mulq = [] → f.p < 127 →
    let x := pilot s f.p
    let bank := vbankOf s (clusterOf f.p) (decide (x.src = 2))
    let w := Table.get 0 bank.micro (0x3000 + 256 * k.toNat + 2 * fn.toNat)
    let n := Table.get 0 bank.nano (uNano w)
    let a := (x.reg f.s).val
    let b := (x.reg f.t).val
    let m := nFupd n
    let fl : Sw → Sw := fun o =>
      let r := sumFlags a b (a + b) 0 o
      { o with n := if m.getLsbD 3 then r.n else o.n, z := if m.getLsbD 2 then r.z else o.z,
               v := if m.getLsbD 1 then r.v else o.v, c := if m.getLsbD 0 then r.c else o.c }
    x.src = 1 ∨ x.src = 2 →
    (nTrap n = true → nTcode n = 1 → untraced s = true → x.sw.mask < 5 →
      let hw := x.sw.world || x.lw.getLsbD 4
      exec (.customRoutine k fn f) s = .next (ran (rrrWord f (0x2C + k.setWidth 6) fn) 0 s f.p (setPilot s f.p
        { entered x 5 1 0 false ((rrrWord f (0x2C + k.setWidth 6) fn).setWidth 64) x.pc false hw
            ((if hw then x.vbs else x.vbo) ++ (1 : BitVec 4) ++ (0 : BitVec 5)) with
          src := selected s f.p }))) ∧
    (x.sw.guardMet f.g = true → nTrap n = false → uSeq w = 4 → n.getLsbD 82 = false → nMsrc n = 0x3F → nUnit n = 0 →
      nUop n = 0 → nAsrc n = 0 → nBsrc n = 1 → nDst n = 2 → nTchk n = 1 → nTres n = 0 →
      (x.reg f.s).tag = 1 → (x.reg f.t).tag = 1 → uCsel w = 0 → uCw w = false → x.win.ops < 15 →
      x.win.bad = false →
      exec (.customRoutine k fn f) s =
        .next (ran (rrrWord f (0x2C + k.setWidth 6) fn) 0 s f.p
          (setsReg (noteOp { s with freeCtr := s.freeCtr + 32 } f.p none
            [a + b, 0, tallyW2 1 (fl x.sw) (uCpol w == false) false 0 (BitVec.ofNat 14 (0x3000 + 256 * k.toNat + 2 * fn.toNat + 1))]
            [a + b, 0, tallyW2 1 (fl x.sw) (uCpol w == false) false 0 (BitVec.ofNat 14 (0x3000 + 256 * k.toNat + 2 * fn.toNat + 1))]
            1) f.p 1 f.d (intW (a + b)) fl)))

/-- R452, R458, R463, R478, R484, R553: the control registers with a row of their own: EVTAKE gives and claims the presented
event of level 0, EVEOI ends a claim, RELTAKE takes the oldest release write, WDKICK restarts the watchdog, and STIM sends
a packet where its port is enabled.

R449 to R452, R460, R461, R464: what an edge and a level change do at the event controller: an edge makes its enabled
source pend, merges into a pending event, or waits in the always-on latch while the fast clock stands; a disabled source
takes none; a source without a target is an orphan.

R363 to R366, R370, R371, R427, R434, R452, R454, R456: the event presented to a pilot, when its level is above MASK and
its world may interrupt, is claimed and its handler entered at the source's vector; a claim lost to another is a spurious
event. The pilot's check window closes before the claim: a mismatch leaves the event pending. -/
def Obligations.Events : Prop :=
  (∀ (s : State) (f : CRF) (k : Nat), ready s f.p 1 f.g = true → isD f.d = true → f.s = 0 → (pilot s f.p).sw.priv = true →
    (∀ e, e ∈ s.pilots → e.2.waiting = false) →
    let u := atEffect s f.p 1
    (presented u f.p = none →
      exec (.evtake f) s = .next (ran (rriWord (crf f 0x201) 0x15) 0 s f.p (setsReg s f.p 1 f.d (intW 0) id))) ∧
    (presented u f.p = some (k, 0) → k < 4096 → isLevelSrc k = false →
      exec (.evtake f) s = .next (ran (rriWord (crf f 0x201) 0x15) 0 s f.p (setSrc (setsReg s f.p 1 f.d (intW (BitVec.ofNat 64 (32768 + k))) id) k
        { srcOf s k with pend := false, hmT := false }))) ∧
    (presented u f.p = some (k, 0) → k < 4096 → isLevelSrc k = true →
      exec (.evtake f) s = .next (ran (rriWord (crf f 0x201) 0x15) 0 s f.p (setSrc (setsReg s f.p 1 f.d (intW (BitVec.ofNat 64 (32768 + k))) id) k
        { srcOf s k with claim := some ⟨f.p, (pilot s f.p).cur, 0⟩, hmT := false })))) ∧
  (∀ (s : State) (f : CRF), ready s f.p 1 f.g = true → f.d = 0 → (pilot s f.p).sw.priv = true →
    let x := pilot s f.p
    let v := (x.reg f.s).val
    (x.reg f.s).tag = 1 →
    exec (.eveoi f) s = .next (ran (rriWord (crf f 0x202) 0x16) 0 s f.p (releaseClaims (afterInstr s f.p 1 id)
      (fun k c => decide (k = v.toNat % 4096) && decide (c.pilot = f.p)))) ∧
    exec (.wdkick f) s = .next (ran (rriWord (crf f 0x303) 0x16) 0 s f.p (afterInstr s f.p 1 (fun y => { y with wdcnt := x.wdper, strike := false }))) ∧
    (∀ n : BitVec 5, s.dbg.smask.getLsbD n.toNat = false → exec (.stim f n) s = .next (ran (rriWord (crf f (0x520 + n.setWidth 12)) 0x16) 0 s f.p (afterInstr s f.p 1 id))) ∧
    (∀ n : BitVec 5, s.dbg.smask.getLsbD n.toNat = true →
      exec (.stim f n) s = .next (ran (rriWord (crf f (0x520 + n.setWidth 12)) 0x16) 0 s f.p (completed (notePacket (atEffect s f.p 1) f.p 1 n v) f.p)))) ∧
  (∀ (s : State) (f : CRF) (r : RelW) (rs : List RelW), ready s f.p 1 f.g = true → isD f.d = true → f.s = 0 →
    (pilot s f.p).sw.priv = true → s.evc.relq = r :: rs →
    let v : W64 := BitVec.ofNat 64 (2 ^ 63 + 2 ^ 32 * r.ring.toNat + 2 ^ 16 * r.act.toNat + r.xtag.toNat)
    exec (.reltake f) s =
      .next (ran (rriWord (crf f 0x204) 0x15) 0 s f.p (setsReg (sampleLevel { s with evc := { s.evc with relq := rs } } 2) f.p 1 f.d (intW v) id))) ∧
  (∀ (s : State) (n : Nat), isEdgeSrc s n = true → countersOf s n = [] →
    let x := srcOf s n
    let pends := setSrc s n { x with pend := true }
    exec (.edgeSource n) s = .next (raise s n) ∧
    (s.fstop = true → hasLatch n = true → exec (.edgeSource n) s =
      .next { s with evc := { s.evc with latch := Table.upd 0 s.evc.latch n (· + 1) } }) ∧
    (s.fstop = false ∨ hasLatch n = false → x.en = false → exec (.edgeSource n) s = .next s) ∧
    (s.fstop = false ∨ hasLatch n = false → x.en = true → x.pend = true → exec (.edgeSource n) s =
      .next { s with evc := { s.evc with merge := if s.evc.merge = 0xFFFFFFFF then s.evc.merge else s.evc.merge + 1 } }) ∧
    (s.fstop = false ∨ hasLatch n = false → x.en = true → x.pend = false → hasTarget s n = true →
      exec (.edgeSource n) s = .next pends) ∧
    (s.fstop = false ∨ hasLatch n = false → x.en = true → x.pend = false → hasTarget s n = false →
      exec (.edgeSource n) s =
        .next { pends with evc := { pends.evc with orphAny := true, orphLast := BitVec.ofNat 12 n } })) ∧
  (∀ (s : State) (v : W32), 
    (128 ≤ v.toNat % 4096 → v.toNat % 4096 < 256 → exec (.evcRaise .hm v) s = exec (.edgeSource (v.toNat % 4096)) s) ∧
    (v.toNat % 4096 < 128 ∨ 256 ≤ v.toNat % 4096 → exec (.evcRaise .hm v) s = .next s)) ∧
  (∀ (s : State) (n : Nat) (v : Bool), isLevelSrc n = true → srcIn s n = v → countersOf s n = [] →
    (srcOf s n).en = false ∨ (srcOf s n).claim.isSome = true ∨ v = false ∨ hasTarget s n = true →
    exec (.levelSourceChange n v) s =
      .next (if (srcOf s n).inp = v then s else setSrc s n { srcOf s n with inp := v })) ∧
  (∀ (s : State) (n : Nat), pendOf s n = true → hasTarget s n = false →
    exec (.orphanTimeout n) s = .next (setSrc s n { srcOf s n with hmT := true }) ∧
    eligible (setSrc s n { srcOf s n with hmT := true }) n 127 = true) ∧
  (∀ (s : State) (n : Nat) (v : W64), srcExists s n = true → n ≠ 0xFFF → (∀ e, e ∈ s.pilots → e.2.waiting = false) →
    let x : Src := { srcOf s n with level := v.extractLsb' 59 3, tset := v.extractLsb' 52 6, vec := v.extractLsb' 2 16 }
    (v.getLsbD 63 = false → exec (.sourceDisable .hm n v) s =
      .next (setSrc s n { x with en := false, pend := false, claim := none, hmT := false })) ∧
    (v.getLsbD 63 = true → (isLevelSrc n = true → x.claim.isSome = true ∨ srcIn s n = false) →
      (isLevelSrc n = false → x.pend = false) →
      exec (.sourceDisable .hm n v) s = .next (setSrc s n { x with en := true }))) ∧
  (∀ (s : State) (n : Nat), srcExists s n = true → pendOf s n = true → hasTarget s n = true →
    (eligible s n 127 = true → exec (.targetWake n) s = .next s) ∧
    (eligible s n 127 = false → s.blk.mode = 4 → s.pwr.waking = false →
      exec (.targetWake n) s = .next { s with pwr := { s.pwr with
        waking := true, wakeTick := s.tide.count, run := false
        wakeCause := if 0x100 ≤ n ∧ n ≤ 0x1FF then 2 else if n = 9 then 4 else 7 } })) ∧
  (∀ (s : State) (p n : Nat) (l : BitVec 3), pilotExists s p = true → p ≠ 127 → untraced s = true → s.blk.mode ≠ 4 →
    let x := pilot s p
    let clean := x.win.ck = none ∨ (x.armed = false ∧ x.win.agrees = true)
    let u := if x.win.ck.isNone then s else commitWin s p
    let enter : BitVec 12 → BitVec 18 → State → State := fun src vec v => setPilot v p
      { entered (pilot u p) l 0 src false 0 x.pc false (x.lw.getLsbD (l.toNat - 1)) vec with
        src := selected s p }
    x.inReset = false → x.role = .active → x.mulq = [] → (∀ e, e ∈ s.pilots → e.2.waiting = false) →
    1 ≤ l → l ≤ 6 → x.sw.mask < l → x.sw.world = false ∨ x.lw.getLsbD (l.toNat - 1) = true →
    (presented s p = some (n, l) → x.frozen = true → exec (.eventDelivery p none) s = .next s) ∧
    (presented s p = some (n, l) → x.frozen = false → x.win.ck.isSome = true → x.armed = true →
      exec (.eventDelivery p none) s = .next (mismatch s p)) ∧
    (x.frozen = false → clean → presented s p = some (n, l) → n < 4096 → isLevelSrc n = false →
      exec (.eventDelivery p none) s =
      .next (enter (BitVec.ofNat 12 n) ((srcOf s n).vec ++ (0 : BitVec 2))
        (setSrc u n { srcOf s n with pend := false, hmT := false }))) ∧
    (x.frozen = false → clean → presented s p = some (n, l) → n < 4096 → isLevelSrc n = true →
      exec (.eventDelivery p none) s =
      .next (enter (BitVec.ofNat 12 n) ((srcOf s n).vec ++ (0 : BitVec 2))
        (setSrc u n { srcOf s n with claim := some ⟨p, x.cur, l⟩, hmT := false }))) ∧
    (x.frozen = false → clean → srcExists s n = true → (srcOf s n).level = l → pendOf s n = false →
      exec (.eventDelivery p (some n)) s =
      .next (enter 0xFFF ((srcOf s 0xFFF).vec ++ (0 : BitVec 2))
        { u with evc := { s.evc with spur := if s.evc.spur = 0xFFFFFFFF then s.evc.spur else s.evc.spur + 1 } })))

/-- R469 to R472: the bell registers and the two kinds of firing.

R477: a counter that wraps sets OVF, counts in the counter chained to it, and raises its source.

R478 to R484: a pilot's watchdog first enters level 6 with code WDG and the tick as its value, and at a second expiry
level 7; the block watchdog's kick, and its two stages, which leave service and then ask for reset. -/
def Obligations.Timers : Prop :=
  (∀ (s : State) (b : Nat) (rq : Requester) (v : W32), b < 256 →
    let x := bellOf s b
    let now := s.tide.count.setWidth 32
    let passed : W32 → Bool := fun cmp => decide ((now - cmp).toNat < 2 ^ 31)
    let y := { x with
      mode := v.getLsbD 30, late := x.late && !v.getLsbD 29, plate := x.plate && !v.getLsbD 28, fired := x.fired && !v.getLsbD 27 }
    (x.mode = false → exec (.bellCmpWrite rq b v) s =
      .next (setBell s b { x with cmp := v, armed := true, late := x.late || passed v })) ∧
    (x.mode = true → exec (.bellCmpWrite rq b v) s = .next (setBell s b { x with cmp := v })) ∧
    exec (.bellPeriodWrite rq b v) s = .next (setBell s b { x with
      period := v, plate := x.plate || (x.en && x.mode && decide (v ≠ 0) && decide (v.toNat ≤ x.cnt.toNat)) }) ∧
    exec (.bellEnable rq b v) s = .next (setBell s b
      (if v.getLsbD 31 = false then { y with en := false, armed := false }
       else if v.getLsbD 30 then { y with en := true, armed := false, cnt := 0 }
       else { y with en := true, armed := true, late := y.late || passed x.cmp })) ∧
    (x.en = true → x.mode = false → x.armed = true → exec (.bellFire b) s =
      .next (raise (setBell s b { x with fired := true, armed := false }) (256 + b))) ∧
    (x.en = true → x.mode = true → exec (.periodicBellFire b) s =
      .next (raise (setBell s b { x with fired := true, cnt := 0 }) (256 + b)))) ∧
  (∀ (s : State) (k : Nat), k < 64 →
    let x := ecntOf s k
    let u := setEcnt s k { x with val := 0, ovf := true }
    x.kind = 2 ∨ x.kind = 3 → countersOf s (64 + k) = [] →
    ((k = 63 ∨ (ecntOf s (k + 1)).kind ≠ 4) → exec (.ecountOverflow k) s = .next (raise u (64 + k))) ∧
    (k < 63 → (ecntOf s (k + 1)).kind = 4 → (ecntOf s (k + 1)).val ≠ 0xFFFFFFFF → exec (.ecountOverflow k) s =
      .next (raise (setEcnt u (k + 1) { ecntOf s (k + 1) with val := (ecntOf s (k + 1)).val + 1 }) (64 + k)))) ∧
  (∀ (s : State) (p : Nat), pilotExists s p = true → p ≠ 127 → untraced s = true → wdFrozen s p = false →
    let x := pilot s p
    let hw := x.sw.world || x.lw.getLsbD 5
    x.role = .active → x.mulq = [] → s.blk.mode ≠ 4 →
    (x.strike = false → x.sw.mask < 6 → exec (.watchdogExpiry p) s = .next (setPilot s p
      { entered { x with wdcnt := x.wdper, strike := true, wdgDue := none } 6 13 0 false s.tide.count x.pc false hw
          ((if hw then x.vbs else x.vbo) ++ (13 : BitVec 4) ++ (0 : BitVec 5)) with
        src := selected s p })) ∧
    (x.strike = true → x.sw.level ≠ 7 → ∃ t, exec (.watchdogExpiry p) s = .next t ∧ (pilot t p).sw.level = 7 ∧
      (pilot t p).cur = 8 ∧ (pilot t p).wdcnt = 0 ∧ ((pilot t p).setOf 7).tc.code = 13 ∧ ((pilot t p).setOf 7).tc.esc = true ∧
      ((pilot t p).setOf 7).tv = 0 ∧ ((pilot t p).setOf 7).spc = x.pc ∧
      (pilot t p).pc = x.vbs ++ (14 : BitVec 4) ++ (0 : BitVec 5))) ∧
  (∀ (s : State) (v : W32),
    exec (.bwdKick .hm [0xA55A, 0x5AA5]) { s with bwd := { s.bwd with half := false } } =
      .next { s with bwd := { s.bwd with half := false, cnt := s.bwd.period, stage := 0 } } ∧
    (v ≠ 0xA55A → v ≠ 0x5AA5 → exec (.bwdKick .hm [v]) s = .next { s with bwd := { s.bwd with
      half := false, bad := if s.bwd.bad = 0xFFFFFFFF then s.bwd.bad else s.bwd.bad + 1 } })) ∧
  (∀ (s : State), s.boot.porHeld = false → s.blk.mode ≠ 4 → (pilot s 127).sw.level ≠ (pilot s 127).dmon →
    (s.bwd.stage = 0 → s.blk.mode = 6 ∨ s.blk.mode = 7 → exec .bwdStage1 s =
      .next { s with bwd := { s.bwd with stage := 1, cnt := s.bwd.period } }) ∧
    (s.bwd.stage = 0 → ∃ t, exec .bwdStage1 s = .next t ∧ t.bwd = { s.bwd with stage := 1, cnt := s.bwd.period } ∧
      (s.blk.mode = 3 ∨ s.blk.mode = 5 → t.blk.mode = 6 ∧ t.blk.freeze = false ∧ t.boot.qcause = 8) ∧
      (s.blk.mode = 0 ∨ s.blk.mode = 1 ∨ s.blk.mode = 2 → t.blk.mode = 7 ∧ t.boot.mcause = 8)) ∧
    (s.bwd.stage = 1 → exec .bwdStage2 s =
      .next { s with bwd := { s.bwd with stage := 2, cnt := 0 }, boot := { s.boot with bwdN := true } }))

/-- R75, R76, R78, R79, R83, R99, R100: the doorbells of a ring page and its MASK.

R42 to R46, R80, R463: RESUME and CANCEL of the outstanding exchange that the write's tag names; the write enters the
release queue. -/
def Obligations.RingPages : Prop :=
  (∀ (s : State) (w : PageWrite), Sound s = true → pageOpen s w = true →
    let n := w.ring
    let r := ring s n
    let v : BitVec 16 := w.data.setWidth 16
    let sd := 2 ^ r.sqlog.toNat
    let cd := 2 ^ r.cqlog.toNat
    let mod : Nat → BitVec 16 → BitVec 16 → Nat := fun d a b => (a.toNat + d - b.toNat % d) % d
    let now : W32 := s.tide.count.setWidth 32
    (sd ≤ v.toNat ∨ mod sd v r.cons < mod sd r.tail r.cons →
      exec (.submissionDoorbell w) s = .next (setRing s n { r with badsqdb := true })) ∧
    (v.toNat < sd → v = r.tail → exec (.submissionDoorbell w) s = .next s) ∧
    (v.toNat < sd → mod sd r.tail r.cons ≤ mod sd v r.cons → v ≠ r.tail →
      (r.stamps.length < 4 → exec (.submissionDoorbell w) s = .next (raise
        (setRing s n { r with tail := v, stamps := r.stamps ++ [⟨now, v, false, false⟩] }) (0x200 + n % 256))) ∧
      (∀ (l : List Stamp) (t : Stamp), r.stamps = l ++ [t] → l.length = 3 →
        exec (.submissionDoorbell w) s = .next (raise
          (setRing s n { r with tail := v, stamps := l ++ [{ t with tail := v }] }) (0x200 + n % 256)))) ∧
    (cd ≤ v.toNat ∨ mod cd r.cqtail r.cqhead < mod cd v r.cqhead →
      exec (.completionDoorbell w) s = .next (setRing s n { r with badcqdb := true })) ∧
    (v.toNat < cd → mod cd v r.cqhead ≤ mod cd r.cqtail r.cqhead → r.slots = [] → isAdoption s n = false →
      exec (.completionDoorbell w) s = .next (setRing s n { r with cqhead := v })) ∧
    (w.data.getLsbD 0 = true ∨ r.mpend = false →
      exec (.maskWrite w) s = .next (setRing s n { r with mask := w.data.getLsbD 0 })) ∧
    (w.data.getLsbD 0 = false → r.mpend = true →
      exec (.maskWrite w) s = .next (emit (setRing s n { r with mask := false, mpend := false, since := 0 })
        (.msix r.lport.toNat (r.msia ++ (0 : BitVec 2)) r.msid)))) ∧
  (∀ (s : State) (w : PageWrite) (i : Nat), Sound s = true → pageOpen s w = true → s.evc.relq.length < 1024 →
    let n := w.ring
    let tag : BitVec 16 := w.data.setWidth 16
    let e := own s i
    let x := xctx s i
    let queued : State → BitVec 2 → State := fun u a =>
      sampleLevel { u with evc := { u.evc with relq := u.evc.relq ++ [⟨BitVec.ofNat 16 n, a, tag⟩] } } 2
    (releaseTarget s n tag = some i → w.data.extractLsb' 30 2 = 1 →
      (e.held = true → x.ended = false → x.nwords ≠ 4096 →
        exec (.resume w) s = .next (queued (fetchWord (setOwn s i { e with held := false }) i) 1)) ∧
      (e.held = true → x.ended = false → x.nwords = 4096 →
        exec (.resume w) s = .next (queued (exchangeEnded (setOwn s i { e with held := false }) i 0x17 0) 1)) ∧
      (e.held = false → exec (.resume w) s = .next (queued s 1))) ∧
    (releaseTarget s n tag = some i → w.data.extractLsb' 30 2 = 2 →
      (x.ended = false → e.st.toNat < 4 → e.fenced = false ∨ e.fseq = 0 →
        (e.held = true ∨ (x.cur = none ∧ x.heldWait = false) →
          exec (.cancel w) s = .next (queued (exchangeEnded s i 0x40 0) 2)) ∧
        (e.held = false → x.cur ≠ none ∨ x.heldWait = true →
          exec (.cancel w) s = .next (queued (setXctx s i { x with cancel := true }) 2))) ∧
      (x.ended = true ∨ 4 ≤ e.st.toNat ∨ (e.fenced = true ∧ e.fseq ≠ 0) → exec (.cancel w) s = .next (queued s 2))) ∧
    ((∀ j, outstanding s n j = true → (own s j).xtag ≠ tag) →
      exec (.cancel w) s = .next (setRing s n { ring s n with badrel := true })) ∧
    (outstanding s n i = true → e.xtag = tag →
      (∀ j, outstanding s n j = true → (own s j).xtag = tag → j ≠ i → x.seq < (xctx s j).seq) →
      releaseTarget s n tag = some i))

/-- R65, R70, R71, R73, R100, R103: the ring registers with a row of their own, in a block that sends no records to a twin and
is not in Takeover.

R42, R45, R49, R54, R58, R94, R98, R105, R109: records of a ring that has a free slot, in a block that may write them: the
record at CQTAIL is written in order and CQTAIL steps, turning P over at the end of the ring. -/
def Obligations.RingsAndRecords : Prop :=
  (∀ (s : State) (n : Nat) (v : W32), n < s.blk.build.rings → twinSends s = false → isAdoption s n = false → s.pick ≠ some n →
    s.blk.mode ≠ 5 → s.hbr.tstate ≠ 5 →
    let r := ring s n
    let set : Ring → State := fun x => govern (setRing s n x)
    let q := { r with
      pause := v.getLsbD 30, lport := v.extractLsb' 25 2, sqlog := v.extractLsb' 20 5, cqlog := v.extractLsb' 15 5
      group := v.extractLsb' 0 12 }
    let ok := 4 ≤ q.sqlog.toNat ∧ q.sqlog.toNat ≤ 16 ∧ 4 ≤ q.cqlog.toNat ∧ q.cqlog.toNat ≤ 16 ∧ r.credit ≠ 0 ∧
      r.credit.toNat ≤ 2 ^ q.cqlog.toNat - 1 ∧ q.lport.toNat < s.blk.build.ports ∧ r.outst = 0 ∧ r.decw = 0
    (r.en = false → v.getLsbD 31 = true → ok → exec (.ringEnable .hm n v) s = .next (set { q with
      en := true, cons := 0, tail := 0, cqhead := 0, cqtail := 0, p := true, halt := false, poolw := false
      stamps := [], next := 0, slotNext := 0, slots := [], disp := [] })) ∧
    (r.en = false → v.getLsbD 31 = true → ¬ ok → exec (.ringEnable .hm n v) s = .next (set { q with ecfg := true })) ∧
    (r.en = false → v.getLsbD 31 = false → exec (.ringEnable .hm n v) s = .next (set q)) ∧
    (r.en = true → v.getLsbD 31 = true →
      exec (.ringEnable .hm n v) s = .next (set { r with pause := v.getLsbD 30 })) ∧
    (r.en = true → v.getLsbD 31 = false →
      exec (.ringDisable .hm n v) s = .next (set { r with en := false, pause := v.getLsbD 30 })) ∧
    exec (.ltolWrite .hm n v) s = .next (set { r with
      ltol := v.extractLsb' 16 16, ddl := v.setWidth 16, stamps := r.stamps.map (fun t => { t with due := false }) }) ∧
    exec (.venClear .hm n v) s = .next (setRing s n { r with
      count := v.extractLsb' 16 8, holdoff := v.extractLsb' 8 8, ven := v.getLsbD 0, mpend := r.mpend && v.getLsbD 0 })) ∧
  (∀ (s : State) (n : Nat),
    let r := ring s n
    let c : BitVec 16 := BitVec.ofNat 16 ((r.cqtail.toNat + 1) % 2 ^ r.cqlog.toNat)
    let stepped : Ring → Ring := fun y => { y with
      cqtail := c, p := if c = 0 then !r.p else r.p, since := r.since + 1
      firstTick := if r.since = 0 then s.tide.count else r.firstTick
      slotNext := if r.slotNext = r.cqtail then c else r.slotNext }
    let write : State → Rec → State := fun u x => emit u (.hostWrite r.lport.toNat 0 r.pas
      ((r.cqb ++ (0 : BitVec 6)) + BitVec.ofNat 64 (32 * r.cqtail.toNat)) false
      ((recDwords s r x).flatMap (fun d => leBytes 4 d.toNat)))
    Sound s = true → canWrite s n = true → twinSends s = false → s.blk.mode ≠ 5 → s.hbr.tstate ≠ 5 → r.ven = false →
    payloadWaits s r.lport.toNat = false →
    (∀ i x, r.slots = [(r.cqtail.toNat, some (.fin i (own s i).gen x))] → (xctx s i).tkoWait = false → (own s i).ackp = false →
      exec (.finalRecordWrite n) s = .next (setRing (write s ((own s i).record .final)) n
        (stepped { r with slots := [], outst := if r.outst = 0 then 0 else r.outst - 1 }))) ∧
    (∀ d ds, r.decls = d :: ds → r.slots = [] → r.postWait = [] → r.slotNext = r.cqtail → r.outst = 0 → notAdopted s n = false →
      exec (.declineFinalRecord n) s =
        .next (setRing (write s d.record) n (stepped { r with decls := ds, decw := r.decw - 1 })))) ∧
  (∀ (s : State) (i : Nat) (k : BitVec 16), 
    let e := own s i
    let n := ringOfEntry s e
    let r := ring s n
    Sound s = true → canWrite s n = false → s.blk.mode ≠ 5 → s.hbr.tstate ≠ 5 → i ∈ r.helds → freeSlot s n false = some k →
    exec (.heldRecordWrite i) s = .next (setRing s n { r with
      helds := r.helds.erase i, slotNext := r.cnext k
      slots := Table.put none r.slots k.toNat (some (.held i e.gen (e.record .held))) })) ∧
  (∀ (s : State) (n : Nat),
    let r := ring s n
    r.since ≠ 0 → r.holdoff ≠ 0 → r.ven = true →
    (r.mask = true → exec (.holdoffExpiry n) s = .next (setRing s n { r with mpend := true })) ∧
    (r.mask = false → exec (.holdoffExpiry n) s = .next (emit (setRing s n { r with since := 0 })
      (.msix r.lport.toNat (r.msia ++ (0 : BitVec 2)) r.msid)))) ∧
  (∀ (s : State) (i : Nat), (own s i).held = true → (xctx s i).ended = false →
    exec (.holdExpiry i) s = .next (exchangeEnded s i 0x41 0)) ∧
  (∀ (s : State) (k : Nat), k < s.blk.build.planes →
    let a := arbOf s k
    (∀ l t, a.grant = some ⟨2, .unit l, t⟩ →
      exec (.planeBurstRevoke k) s =
        .next (arbPass (setArb (revokeBurst s l) k { a with grant := none, reqs := a.reqs ++ [⟨2, .unit l, t⟩] }) k 0 pilotLane) ∧
      (lighterOf (revokeBurst s l) l).revk =
        (if (lighterOf s l).revk = 0xFFFF then 0xFFFF else (lighterOf s l).revk + 1)) ∧
    (a.grant = none → exec (.planeBurstRevoke k) s = .next (arbPass (setArb s k a) k 0 pilotLane)))

/-- R72, R83, R86, R87, R93, R351, R352: stamps age and fall due; the selector picks a ring; APICK starts its turn and reads
its entries, the read ends in the cask or halts the ring, and AEND ends the turn. -/
def Obligations.Admission : Prop :=
  (∀ (s : State), Sound s = true → ∃ t, exec .stampExamine s = .next t ∧ t = { s with rings := t.rings } ∧
    ∀ n, ring t n = { ring s n with
      stamps := (ring s n).stamps.map (fun m =>
        if m.aged = true ∨ 2 ^ 31 ≤ (s.tide.count.setWidth 32 - m.tick).toNat then { m with aged := true } else m) }) ∧
  (∀ (s : State) (n : Nat) (m : Stamp) (l : List Stamp),
    let r := ring s n
    r.next ≠ r.tail → r.ddl ≠ 0 → r.stamps = m :: l → r.sdiff r.next r.cons < r.sdiff m.tail r.cons → m ∉ l →
    (100 * r.ddl.toNat ≤ (s.tide.count.setWidth 32 - m.tick).toNat ∨ m.aged = true →
      exec (.entryDue n) s = .next (setRing s n { r with stamps := { m with due := true } :: l })) ∧
    ((s.tide.count.setWidth 32 - m.tick).toNat < 100 * r.ddl.toNat → m.aged = false → m.due = false →
      exec (.entryDue n) s = .next (setRing s n r))) ∧
  (∀ (s : State) (n : Nat), s.blk.mode = 3 ∨ s.blk.mode = 5 → s.pick = none → selectRing s = some n →
    exec .admissionPick s = .next (sampleLevel { s with pick := some n } 0)) ∧
  (∀ (s : State) (n : Nat), Sound s = true → selectRing s = some n → ∃ m, Ring.pickable s n (ring s n) = some m ∧
    ∀ k o, Ring.pickable s k (ring s k) = some o →
      o.age (now32 s) < m.age (now32 s) ∨ (o.age (now32 s) = m.age (now32 s) ∧ n ≤ k)) ∧
  (∀ (s : State) (f : RRR) (n : Nat), ready s f.p 1 f.g = true → isD f.d = true → isA f.s = true → f.t = 0 →
    let x := pilot s f.p
    let a := (x.reg f.s).val
    let r := ring s n
    let k := Nat.min (r.weight.toNat + 1) (r.sdiff r.tail r.next)
    x.sw.priv = true → (x.reg f.s).tag = 4 → a.toNat % 64 = 0 → a.toNat + 64 * k ≤ 65536 → a.toNat < 65536 →
    (s.pick = none → exec (.apick f) s =
      .next (ran (rrrWord f 0x19 8) 0 s f.p (afterInstr s f.p 1 (fun y => { y.wr f.d (intW 0) with sw := { x.sw with z := false } })))) ∧
    (s.pick = some n → r.next.toNat + k ≤ 2 ^ r.sqlog.toNat →
      let u := setRing s n { r with turn := some ⟨f.p, x.cur, k⟩ }
      let u := emit u (.hostRead r.lport.toNat 0 r.pas ((r.sqb ++ (0 : BitVec 6)) + BitVec.ofNat 64 (64 * r.next.toNat)) (64 * k))
      exec (.apick f) s = .next (ran (rrrWord f 0x19 8) 0 s f.p (afterInstr (sampleLevel { u with pick := none } 0) f.p 1 (fun y =>
        { y.wr f.d (intW (pickWord s n r k)) with
          sw := { x.sw with z := true }, pickrd := some ⟨n, r.next.toNat, k, a.toNat⟩ }))))) ∧
  (∀ (s : State) (p : Nat) (rd : PickRd) (data : List W64), (pilot s p).pickrd = some rd →
    let y := { pilot s p with pickrd := none }
    let r := ring s rd.ring
    (data.length = 8 * rd.n → exec (.pickReadDone p true data) s = .next (raise
      { setPilot s p { y with pickst := BitVec.ofNat 17 (rd.ring % 65536) } with
        cask := Table.putList emptyW s.cask (p * 8192 + rd.base / 8) (data.map (fun v => ⟨v, 2⟩)) } (0xF00 + p))) ∧
    (r.ven = false → exec (.pickReadDone p false data) s = .next (raise
      (setRing (setPilot s p { y with pickst := BitVec.ofNat 17 (65536 + rd.ring % 65536) }) rd.ring
        { r with halt := true, sqfault := true }) (0xF00 + p)))) ∧
  (∀ (s : State) (f : RRR), ready s f.p 1 f.g = true → isD f.s = true → f.d = 0 → f.t = 0 →
    let x := pilot s f.p
    let v := (x.reg f.s).val
    let n := v.toNat % 65536
    let r := ring s n
    let z : Bool → Pilot → Pilot := fun b y => { y with sw := { x.sw with z := b } }
    x.sw.priv = true → (x.reg f.s).tag = 1 →
    (∀ k, r.turn = some ⟨f.p, x.cur, k⟩ → exec (.aend f) s = .next (ran (rrrWord f 0x19 9) 0 s f.p (afterInstr (setRing s n
      (if v.getLsbD 16 then
        { r with turn := none, poolw := true, poolwBerth := v.extractLsb' 32 16, poolwGen := v.getLsbD 17 }
       else { r with turn := none })) f.p 1 (z true)))) ∧
    (r.turn = none → exec (.aend f) s = .next (ran (rrrWord f 0x19 9) 0 s f.p (afterInstr s f.p 1 (z false)))))

/-- R88 to R90, R93, R112, R123, R124, R128, R129: the allocations of a block without a twin. The entry is one of the FREE own
entries, at a place the model leaves free; MALLOC also consumes the ring's next submission entry.

R128, R132, R133, R174 to R177: MSCAN writes the handles of the matching entries, in order of index, to the cask, and
stops at its limit or at the end; the Gleaner places each filled mirror entry in a FREE own entry. -/
def Obligations.AllocationAndScan : Prop :=
  (∀ (s : State) (k : Nat), k < s.blk.build.entries → (own s k).st = 0 →
    ∃ i, i < s.blk.build.entries ∧ (own s i).st = 0 ∧
      findFree s s.blk.build.entries ((Config.freeWord s.freeCtr).toNat % s.blk.build.entries) = some i) ∧
  (∀ (s : State) (f : RRR) (i : Nat), ready s f.p 1 f.g = true → (pilot s f.p).sw.priv = true → solo s = true →
    isD f.d = true → isD f.s = true →
    let x := pilot s f.p
    let d := (x.reg f.s).val
    let prog := (x.reg f.t).val
    let n := d.toNat / 2 ^ 48
    let slot : BitVec 16 := d.extractLsb' 32 16
    let b : BitVec 16 := d.extractLsb' 16 16
    let r := ring s n
    let c : BitVec 16 := BitVec.ofNat 16 ((slot.toNat + 1) % 2 ^ r.sqlog.toNat)
    let mooring : Moor := { mst := 1, owner := BitVec.ofNat 7 f.p, bank := BitVec.ofNat 4 x.cur, world := x.sw.world, lease := 4096 }
    let e : BitVec 2 → Own := fun pool =>
      { gen := (own s i).gen, st := 1, lmp := 1, ring := BitVec.ofNat 16 n, xtag := d.setWidth 16, berth := b, sslot := slot
        pool := pool, prog := prog.extractLsb' 4 60, curw := prog.extractLsb' 4 60, pos := BitVec.allOnes 64
        wait := admWait s r slot, unprot := true, moor := mooring }
    let put : Own → Xc → State := fun o y =>
      setXctx (setOwn { s with freeCtr := s.freeCtr + 1, admSeq := s.admSeq + 1 } i o) i { y with seq := s.admSeq }
    let start : Xc := { active := true, next := prog, waitT := admTicks s r slot }
    let handle : TWord := ⟨s.hbr.num ++ BitVec.ofNat 19 i ++ (own s i).gen, 6⟩
    let general := s.wm.toNat < gfree s
    let held := heldCount s ⟨f.p, x.cur, x.sw.world⟩
    let hw := x.sw.world || x.lw.getLsbD 4
    let full : State := setPilot { s with freeCtr := s.freeCtr + 1 } f.p
      { entered x 5 7 0 false d x.pc ((Config.freeWord s.freeCtr).getLsbD 0) hw
          ((if hw then x.vbs else x.vbo) ++ (7 : BitVec 4) ++ (0 : BitVec 5)) with src := selected s f.p }
    ((x.reg f.s).tag = 1 → 8 ≤ held → untraced s = true → x.mulq = [] → x.sw.mask < 5 →
      (f.t = 0 → exec (.mallocV f) s = .next (ran (rrrWord f 0x18 3) 0 s f.p full)) ∧
      (isD f.t = true → (x.reg f.t).tag = 4 → admits s n = true → s.hbr.role ≠ 1 →
        exec (.malloc f) s = .next (ran (rrrWord f 0x18 0) 0 s f.p full))) ∧
    (isD f.t = true → (x.reg f.s).tag = 1 → (x.reg f.t).tag = 4 → (admits s n = false ∨ s.hbr.role = 1) →
      exec (.malloc f) s = .next (ran (rrrWord f 0x18 0) 0 s f.p (answers s f 3))) ∧
    (findFree s s.blk.build.entries ((Config.freeWord s.freeCtr).toNat % s.blk.build.entries) = some i → held < 8 →
    (f.t = 0 → (x.reg f.s).tag = 1 → 0 < gfree s → exec (.mallocV f) s = .next (ran (rrrWord f 0x18 3) 0 s f.p (gives
      (setOwn { s with freeCtr := s.freeCtr + 1 } i
        { gen := (own s i).gen, st := 1, lmp := 1, srv := true, berth := b, pos := BitVec.allOnes 64, moor := mooring }) f handle))) ∧
    (isD f.t = true → (x.reg f.s).tag = 1 → (x.reg f.t).tag = 4 → isAdoption s n = false → prog.toNat % 16 = 0 →
      admits s n = true → s.hbr.role ≠ 1 →
      let own1 : BitVec 2 := if reserveOpen s b.toNat = true then 1 else 0
      (r.next ≠ slot ∨ r.next = r.tail →
        (reserveOpen s b.toNat = true ∨ general → exec (.malloc f) s = .next (ran (rrrWord f 0x18 0) 0 s f.p (gives (fetchWord (put (e own1) start) i) f handle))) ∧
        (general → exec (.mallocG f) s = .next (ran (rrrWord f 0x18 1) 0 s f.p (gives (put { e 0 with status := 0x15 } { ended := true, waitT := admTicks s r slot }) f handle))) ∧
        (x.sw.world = true → poolUse s 2 (fun _ => true) < s.sres.toNat →
          exec (.mallocS f) s = .next (ran (rrrWord f 0x18 2) 0 s f.p (gives (fetchWord (put (e 2) start) i) f handle))) ∧
        (x.sw.world = true → s.sres.toNat ≤ poolUse s 2 (fun _ => true) → 0 < gfree s →
          exec (.mallocS f) s = .next (ran (rrrWord f 0x18 2) 0 s f.p (gives (fetchWord (put (e 0) start) i) f handle)))) ∧
      (r.next = slot → r.next ≠ r.tail → r.disp = [] → reserveOpen s b.toNat = true ∨ general → Sound s = true →
        exec (.malloc f) s = .next (ran (rrrWord f 0x18 0) 0 s f.p (gives (fetchWord (setRing (put (e own1) start) n { r with
          next := c, cons := c, outst := r.outst + 1, poolw := false
          stamps := if (r.stamps.head?.map (fun t => t.tail)) = some c then r.stamps.tail else r.stamps }) i) f handle))) ∧
      (reserveOpen s b.toNat = false → ¬ general → exec (.malloc f) s = .next (ran (rrrWord f 0x18 0) 0 s f.p (answers s f 3))) ∧
      (¬ general → exec (.mallocG f) s = .next (ran (rrrWord f 0x18 1) 0 s f.p (answers s f 3)))))) ∧
  (∀ (s : State) (f : RRR), ready s f.p 1 f.g = true → unwatched (pilot s f.p) = true →
    isD f.d = true → isA f.s = true → isD f.t = true →
    let x := pilot s f.p
    let d := (x.reg f.d).val
    let q := (x.reg f.t).val
    let a := (x.reg f.s).val.toNat
    let lim := d.toNat % 16384
    let start := d.toNat / 2 ^ 32 % 2 ^ 19
    let meets : Own → Bool := fun e => q.getLsbD (56 + e.st.toNat) && decide (e.st.toNat < 7) &&
      (!q.getLsbD 55 || decide (e.ring = q.extractLsb' 32 16)) && (!q.getLsbD 54 || decide (e.berth = q.extractLsb' 16 16)) &&
      (!q.getLsbD 53 || e.rb) && (!q.getLsbD 52 || e.fenced)
    let all := (List.range s.blk.build.entries).filter (fun i => decide (start ≤ i) && meets (own s i))
    let found := all.take lim
    let handles : List TWord := found.map (fun i => ⟨s.hbr.num ++ BitVec.ofNat 19 i ++ (own s i).gen, 6⟩)
    let next := if all.length < lim then s.blk.build.entries else found.getLastD 0 + 1
    x.sw.priv = true → x.cx = 0 → (x.reg f.s).tag = 4 → (x.reg f.t).tag = 1 → (x.reg f.d).tag = 1 →
    q.extractLsb' 48 4 = 0 → q.extractLsb' 0 16 = 0 → q.getLsbD 63 = false → 0 < lim → lim ≤ 8192 →
    a % 8 = 0 → a + 8 * lim ≤ 65536 →
    exec (.mscan f none) s = .next (ran (rrrWord f 0x18 15) 0 s f.p (afterInstr
      ((handles.zipIdx (f.p * 8192 + a / 8)).foldl (fun u h => pendStore u f.p ⟨false, h.2, h.1⟩) s) f.p 1
      (fun y => { y.wr f.d (intW (BitVec.ofNat 64 (2 ^ 32 * (next % 2 ^ 19) + found.length))) with
        cx := 0, sw := { x.sw with z := decide (next = s.blk.build.entries) } })))) ∧
  (∀ (s : State) (f : RRR), ready s f.p 1 f.g = true → isD f.d = true → f.s = 0 → f.t = 0 →
    (pilot s f.p).sw.priv = true → (pilot s f.p).sw.world = true →
    let u : State := { s with hbr := { s.hbr with gleaned := 0, poolw := false } }
    (s.mirror = [] → exec (.mglean f) s = .next (ran (rrrWord f 0x18 16) 0 s f.p (answers (updTw u (fun t => { t with glean := some s.blk.build.entries })) f 0))) ∧
    (∀ i j m, s.mirror = [(j, m)] → (m.m0.extractLsb' 61 3 : BitVec 3) = 1 → gfree s ≠ 0 →
      findFree s s.blk.build.entries ((Config.freeWord s.freeCtr).toNat % s.blk.build.entries) = some i →
      let e : Own := {
        gen := (own s i).gen, ring := m.m0.extractLsb' 16 16, xtag := m.m0.setWidth 16, berth := m.m1.extractLsb' 48 16
        sslot := m.m1.extractLsb' 32 16, wait := m.m1.extractLsb' 16 16, fenced := m.m1.getLsbD 15, redriven := true
        tr := true, unprot := true, prog := m.m2.extractLsb' 4 60, curw := m.m2.extractLsb' 4 60, pos := BitVec.allOnes 64
        st := 1, lmp := 1 }
      let v := setXctx (setOwn u i e) i { active := true, next := e.prog ++ (0 : BitVec 4), tkoWait := true, seq := s.admSeq }
      let placed := sampleLevel (arbPass { v with
        mirror := [], freeCtr := s.freeCtr + 1, admSeq := s.admSeq + 1, hbr := { u.hbr with gleaned := 1 }
        recq := s.recq ++ [s.hbr.num ++ BitVec.ofNat 19 i ++ e.gen] } manifestArb 1 .gleaner) 1
      let lost := s.tw.fset.any (fun x => decide (x.nguid = (berth s e.berth.toNat).nguid) && decide (x.st = 4))
      exec (.mglean f) s = .next (ran (rrrWord f 0x18 16) 0 s f.p (answers
        (updTw (if lost then endX placed i 0x33 0 none else fetchWord placed i)
          (fun t => { t with glean := some s.blk.build.entries })) f 0))) ∧
    (∀ j m, s.mirror = [(j, m)] → (m.m0.extractLsb' 61 3 : BitVec 3) ≠ 0 → gfree s = 0 →
      exec (.mglean f) s = .next (ran (rrrWord f 0x18 16) 0 s f.p (answers (raise { updTw u (fun t => { t with glean := some j }) with
        hbr := { u.hbr with poolw := true } } 8) f 0)))) ∧
  (∀ (s : State) (j : Nat), s.tw.glean = some j → s.hbr.poolw = true →
    (gfree s = 0 → exec .gleanerResume s = .next s) ∧
    (0 < gfree s → (∀ e, e ∈ s.mirror → e.1 < j) → exec .gleanerResume s =
      .next (updTw { s with hbr := { s.hbr with poolw := false } } (fun t => { t with glean := some s.blk.build.entries })))) ∧
  (∀ (s : State), s.tw.glean = some s.blk.build.entries → s.hbr.poolw = false → s.hbr.tstate ≠ 5 → s.blk.mode ≠ 5 →
    exec .gleanerDone s = .next (raise { updTw s (fun t => { t with glean := none, gleanDone := true }) with
      hbr := { s.hbr with tdone := true } } 8))

/-- R113, R115, R116, R128, R130, R131: MGET reads a field of the entry that a handle names, MPUT writes one of a held entry
in the states of the table, MWACK answers ACKWAIT while a record is unacknowledged; a handle of another block or an old
generation is refused.

R114, R117, R123, R124, R126, R153: the transitions of MSTEP in a block without a twin, and the declines of MDECL. -/
def Obligations.Manifest : Prop :=
  (∀ (s : State) (f : RRR) (i : Nat) (z : Own) (w : TWord), ready s f.p 1 f.g = true → (pilot s f.p).sw.priv = true →
    (pilot s f.p).sw.world = true → isD f.d = true → isD f.s = true →
    let x := pilot s f.p
    let e := own s i
    let h := x.reg f.s
    let v := (x.reg f.s).val
    (names s h i = true →
      ((f.t, w) ∈ [((0 : BitVec 5), intW (e.st ++ e.gen ++ e.ring ++ e.xtag)), (3, ⟨e.curw ++ (0 : BitVec 4), 4⟩), (4, intW e.pos),
          (5, intW (e.xfer.setWidth 64)), (6, intW (BitVec.ofNat 64 (e.status.toNat * 65536 + e.dsv.toNat * 32768 + e.dstat.toNat))),
          (8, intW (BitVec.ofNat 64 (e.cid.toNat * 65536 + e.dq.toNat))), (9, intW (e.lastw.setWidth 64)),
          (10, intW (e.path.setWidth 64)), (11, intW (BitVec.ofNat 64 e.fenced.toNat)), (12, intW (BitVec.ofNat 64 e.held.toNat)),
          (13, intW (e.fseq.setWidth 64)), (14, intW (e.wait.setWidth 64)), (15, intW (e.moor.word ++ e.fseq))] →
        exec (.mget f) s = .next (ran (rrrWord f 0x18 4) 0 s f.p (gives s f w))) ∧
      (f.t = 7 → exec (.mget f) s = .next (ran (rrrWord f 0x18 4) 0 s f.p (gives s f
        (intW ((if 4 ≤ e.st.toNat then e.pos.setWidth 32 else e.residHeld).setWidth 64))))) ∧
      (f.t = 0 → exec (.mwack f) s = .next (ran (rrrWord f 0x18 7) 0 s f.p (answers s f (if e.ackp then 7 else 0))))) ∧
    (h.tag = 6 → (h.val.extractLsb' 48 16 ≠ s.hbr.num →
        exec (.mget { f with t := 0 }) s = .next (ran (rrrWord { f with t := 0 } 0x18 4) 0 s f.p (answers s f 4))) ∧
      (h.val.extractLsb' 48 16 = s.hbr.num → h.val.extractLsb' 29 19 = BitVec.ofNat 19 i → i < s.blk.build.entries →
        h.val.setWidth 29 ≠ e.gen → exec (.mget { f with t := 0 }) s = .next (ran (rrrWord { f with t := 0 } 0x18 4) 0 s f.p (answers s f 1))) ∧
      (names s h i = false → (h.val.extractLsb' 29 19 = BitVec.ofNat 19 i) → i < s.blk.build.entries →
        exec (.unmoor { f with d := 0, t := 0 }) s = .next (ran (rrrWord { f with d := 0, t := 0 } 0x18 10) 0 s f.p
          (afterInstr s f.p 1 (fun y => { y with sw := { x.sw with z := false } }))))) ∧
    (names s (x.reg f.d) i = true → heldHere s f.p e.moor = true → (x.reg f.s).tag = (if f.t = 3 then 4 else 1) →
      (f.t, z) ∈ [((3 : BitVec 5), { e with curw := v.extractLsb' 4 60 }), (4, { e with pos := v }), (5, { e with xfer := v.setWidth 32 }),
          (6, { e with status := v.extractLsb' 16 8, dsv := v.getLsbD 15, dstat := v.setWidth 15 }),
          (7, { e with residHeld := v.setWidth 32 }), (9, { e with lastw := v.setWidth 12 }), (10, { e with path := v.setWidth 2 }),
          (11, { e with fenced := true }), (12, { e with held := v.getLsbD 0 }), (13, { e with fseq := v.setWidth 32, fs := false }),
          (14, { e with wait := if e.wait < v.setWidth 16 then v.setWidth 16 else e.wait })] →
      let st := e.st.toNat
      let may := (f.t ∈ [(3 : BitVec 5), 4, 5, 6, 7, 9] ∧ 1 ≤ st ∧ st ≤ 3) ∨ (f.t = 10 ∧ (st = 2 ∨ st = 3)) ∨
        (f.t = 11 ∧ (st = 1 ∨ st = 2) ∧ e.lmp.toNat ≤ 1 ∧ v.getLsbD 0 = true) ∨ (f.t ∈ [(12 : BitVec 5), 13] ∧ st = 2) ∨
        (f.t = 14 ∧ 1 ≤ st ∧ st ≤ 4)
      let zed : Bool → Pilot → Pilot := fun b y => { y with sw := { x.sw with z := b } }
      (may → exec (.mput f) s = .next (ran (rrrWord f 0x18 5) 0 s f.p (afterInstr (setOwn s i z) f.p 1 (zed true)))) ∧
      (¬ may → exec (.mput f) s = .next (ran (rrrWord f 0x18 5) 0 s f.p (afterInstr s f.p 1 (zed false)))))) ∧
  (∀ (s : State) (f : RRR) (i : Nat) (k : BitVec 16), ready s f.p 1 f.g = true → (pilot s f.p).sw.priv = true → solo s = true →
    isD f.d = true → isD f.s = true →
    let e := own s i
    let n := ringOfEntry s e
    let r := ring s n
    let go : State → State := fun u => answers u f 0
    let posted : Own := { e with st := 5, lmp := 5, ackp := false, unprot := true }
    let mark : State → State := fun u =>
      if (xctx s i).resolve then u else setXctx u i { xctx s i with placed := true }
    let noBays : Bool → State → State := fun all u =>
      { u with bays := u.bays.filter (fun b => !(decide (b.1 % 2 ^ 31 / 4096 = i) && (all || b.2.dest))) }
    names s ((pilot s f.p).reg f.s) i = true → heldHere s f.p e.moor = true → e.srv = false → frozen s = false →
    (e.st = 1 → f.t = 2 → exec (.mstep f) s = .next (ran (rrrWord f 0x18 6) 0 s f.p (go (setOwn s i { e with st := 2 })))) ∧
    (e.st = 2 → f.t = 3 → e.fenced = false → e.lmp = 1 →
      exec (.mstep f) s = .next (ran (rrrWord f 0x18 6) 0 s f.p (go (mark (setOwn s i { e with st := 3, lmp := 3, ackp := false, unprot := true }))))) ∧
    (e.st = 2 → f.t = 3 → e.fenced = true → e.fseq ≠ 0 → e.fs = false →
      (flogWritten s i = false ∨ e.ackp = true → exec (.mstep f) s = .next (ran (rrrWord f 0x18 6) 0 s f.p (answers s f 2))) ∧
      (flogWritten s i = true → e.ackp = false → exec (.mstep f) s = .next (ran (rrrWord f 0x18 6) 0 s f.p
        (go (mark (setOwn s i { e with st := 3, fs := true, lmp := 3, ackp := false, unprot := true })))))) ∧
    (e.st = 2 → f.t = 3 → e.fenced = false → e.lmp = 3 → exec (.mstep f) s = .next (ran (rrrWord f 0x18 6) 0 s f.p (go (mark (setOwn s i { e with st := 3 }))))) ∧
    (e.st = 3 → f.t = 3 → exec (.mstep f) s = .next (ran (rrrWord f 0x18 6) 0 s f.p (go s))) ∧
    (e.st = 3 → f.t = 2 → exec (.mstep f) s = .next (ran (rrrWord f 0x18 6) 0 s f.p (go (noBays false (mark (setOwn s i { e with st := 2 })))))) ∧
    (e.st = 1 ∨ e.st = 2 → f.t = 4 → e.ackp = false → (xctx s i).tkoWait = false → freeSlot s n true = some k →
      Sound s = true → exec (.mstep f) s = .next (ran (rrrWord f 0x18 6) 0 s f.p (go (setRing
        (setOwn s i { e with
          st := 4, lmp := 4, pos := e.residHeld.setWidth 64, cqslot := k, ackp := false, unprot := true }) n
        { r with slots := Table.put none r.slots k.toNat (some (.kept i e.gen)), slotNext := r.cnext k })))) ∧
    (e.st = 4 → f.t = 5 → e.ackp = false → exec (.mstep f) s = .next (ran (rrrWord f 0x18 6) 0 s f.p (go (setOwn
      (setRing s n { r with slots := Table.put none r.slots e.cqslot.toNat (some (.fin i e.gen (posted.record .final))) }) i
      posted)))) ∧
    (e.st = 5 → f.t = 6 → e.ackp = false → exec (.mstep f) s = .next (ran (rrrWord f 0x18 6) 0 s f.p (go (noBays true (setXctx
      (setOwn s i { gen := if e.gen = 0x1FFFFFFF then 1 else e.gen + 1 }) i {}))))) ∧
    (e.st = 5 → f.t = 6 → e.ackp = true → exec (.mstep f) s = .next (ran (rrrWord f 0x18 6) 0 s f.p (answers s f 7))) ∧
    (f.t.toNat ≤ 7 → (e.st.toNat, f.t.toNat) ∉ [(1, 2), (2, 3), (3, 3), (3, 2), (1, 4), (2, 4), (3, 4), (4, 5), (5, 6)] →
      exec (.mstep f) s = .next (ran (rrrWord f 0x18 6) 0 s f.p (answers s f 2)))) ∧
  (∀ (s : State) (f : RRR), ready s f.p 1 f.g = true → (pilot s f.p).sw.priv = true → solo s = true →
    isD f.d = true → isD f.s = true → isD f.t = true →
    let x := pilot s f.p
    let d := (x.reg f.s).val
    let n := d.toNat / 2 ^ 48
    let slot : BitVec 16 := d.extractLsb' 32 16
    let r := ring s n
    let wc : BitVec 3 := (x.reg f.t).val.setWidth 3
    (x.reg f.s).tag = 1 → (x.reg f.t).tag = 1 → wc = 2 ∨ wc = 3 →
    (admits s n = false → exec (.mdecl f) s = .next (ran (rrrWord f 0x18 8) 0 s f.p (answers s f 2))) ∧
    (admits s n = true → r.next ≠ slot →
    exec (.mdecl f) s = .next (ran (rrrWord f 0x18 8) 0 s f.p (answers (setRing s n { r with
      decw := r.decw + 1
      decls := r.decls ++ [⟨slot.toNat, d.setWidth 16, wc, admWait s r slot, true, s.tw.rseqNext, false⟩] }) f 0))))

/-- R134 to R139, R141, R142: the moorings: taking a free or a broken one, leaving one alone, the undo note, a forced break,
the lease, the recovery queue, and the rollback of an entry to the state of its last mirror point. -/
def Obligations.Moorings : Prop :=
  (∀ (s : State) (f : RRR) (n : Nat), ready s f.p 1 f.g = true → (pilot s f.p).sw.priv = true → f.t = 0 →
    isD f.s = true → n < 4096 →
    let x := pilot s f.p
    let m := aloneMoor s n
    let mine : Moor := { m with
      mst := 1, owner := BitVec.ofNat 7 f.p, bank := BitVec.ofNat 4 x.cur, world := x.sw.world, lease := 4096, rep := 0 }
    let res : State → BitVec 64 → Bool → Bool → State := fun u v z brk =>
      setsReg u f.p 1 f.d (intW v) (fun w => { w with z := z, brk := brk })
    (x.reg f.s).tag = 1 → (x.reg f.s).val.toNat = n →
    (isD f.d = true → m.mst = 0 → heldCount s ⟨f.p, x.cur, x.sw.world⟩ < 8 →
      exec (.moor f) s = .next (ran (rrrWord f 0x18 9) 0 s f.p (res (setAloneMoor s n mine) 0 true false))) ∧
    (isD f.d = true → m.mst = 2 → heldCount s ⟨f.p, x.cur, x.sw.world⟩ < 8 →
      exec (.moor f) s = .next (ran (rrrWord f 0x18 9) 0 s f.p (res (setAloneMoor s n mine) m.rep true true))) ∧
    (isD f.d = true → m.mst = 1 → heldHere s f.p m = false → exec (.moor f) s = .next (ran (rrrWord f 0x18 9) 0 s f.p (res s 5 false false))) ∧
    (f.d = 0 → heldHere s f.p m = true →
      exec (.unmoor f) s = .next (ran (rrrWord f 0x18 10) 0 s f.p (afterInstr (setAloneMoor s n { note := m.note }) f.p 1 (fun y => { y with sw := { x.sw with z := true } })))) ∧
    (isD f.d = true → heldHere s f.p m = true →
      exec (.mnoteR f) s = .next (ran (rrrWord f 0x18 12) 0 s f.p (setsReg s f.p 1 f.d (intW m.note) id))) ∧
    (isD f.d = true → x.sw.world = true → m.mst = 1 →
      exec (.mforce f) s = .next (ran (rrrWord f 0x18 13) 0 s f.p (answers
        { setAloneMoor s n { m with mst := 2, rep := (3 : BitVec 2) ++ m.owner ++ m.bank ++ bit1 m.world ++ (0 : BitVec 50), lease := 0 } with
          mbrkFault := if s.mbrkFault = 0xFFFF then s.mbrkFault else s.mbrkFault + 1
          mlast := (3 : BitVec 2) ++ m.owner ++ m.bank ++ bit1 m.world ++ (1 : BitVec 2) ++ (0 : BitVec 29) ++ BitVec.ofNat 19 n }
        f 0))) ∧
    (isD f.d = true → x.sw.world = true → m.mst ≠ 1 → exec (.mforce f) s = .next (ran (rrrWord f 0x18 13) 0 s f.p (answers s f 6)))) ∧
  (∀ (s : State) (f : RRR) (n : Nat), ready s f.p 1 f.g = true → (pilot s f.p).sw.priv = true → f.d = 0 →
    isD f.s = true → isD f.t = true → n < 4096 →
    let x := pilot s f.p
    (x.reg f.s).tag = 1 → (x.reg f.s).val.toNat = n → (x.reg f.t).tag = 1 → heldHere s f.p (aloneMoor s n) = true →
    exec (.mnoteW f) s = .next (ran (rrrWord f 0x18 11) 0 s f.p (afterInstr (setAloneMoor s n { aloneMoor s n with note := (x.reg f.t).val }) f.p 1 id))) ∧
  (∀ (s : State) (f : RRR), ready s f.p 1 f.g = true → (pilot s f.p).sw.priv = true → isD f.d = true → f.s = 0 → f.t = 0 →
    (s.recq = [] → exec (.mrq f) s = .next (ran (rrrWord f 0x18 14) 0 s f.p (answers s f 6))) ∧
    (∀ h hs, s.recq = h :: hs → exec (.mrq f) s = .next (ran (rrrWord f 0x18 14) 0 s f.p (gives (sampleLevel { s with recq := hs } 1) f ⟨h, 6⟩)))) ∧
  (∀ (s : State) (n : Nat), n < 4096 →
    let m := aloneMoor s n
    m.mst = 1 → (pilot s m.owner.toNat).dbg.deferred = none →
    exec (.leaseExpiry (.alone n)) s = .next { setAloneMoor s n
        { m with mst := 2, rep := (0 : BitVec 2) ++ m.owner ++ m.bank ++ bit1 m.world ++ (0 : BitVec 50), lease := 0 } with
      mbrkLease := if s.mbrkLease = 0xFFFF then s.mbrkLease else s.mbrkLease + 1
      mlast := (0 : BitVec 2) ++ m.owner ++ m.bank ++ bit1 m.world ++ (1 : BitVec 2) ++ (0 : BitVec 29) ++ BitVec.ofNat 19 n }) ∧
  (∀ (s : State) (i : Nat),
    let e := own s i
    let st : BitVec 3 := if e.lmp = 0 then 1 else e.lmp
    let m : Moor := { e.moor with
      mst := 2, owner := e.moor.rep.extractLsb' 55 7, lease := 0
      rep := e.moor.rep ||| ((0 : BitVec 14) ++ e.st ++ st ++ (0 : BitVec 44)) }
    let back : Own := { e with st := st, rb := true, held := false, moor := m }
    let queued : State → State := fun u => sampleLevel
      { u with recq := u.recq ++ [s.hbr.num ++ BitVec.ofNat 19 i ++ e.gen] } 1
    e.moor.mst = 3 → e.ackp = false → e.st ≠ 3 ∨ st = 3 →
    (st ≠ 1 → exec (.rollbackComplete i) s = .next (queued (setOwn s i back))) ∧
    (st = 1 → s.dcmds = [] → (xctx s i).active = true → exec (.rollbackComplete i) s = .next (queued
      (fetchWord (setXctx (setOwn (unhold s i) i { back with
        curw := e.prog, pos := BitVec.allOnes 64, xfer := 0, status := 0, dsv := false, dstat := 0, lastw := 0, residHeld := 0 }) i
        { active := true, next := e.prog ++ (0 : BitVec 4), seq := (xctx s i).seq, waitT := (xctx s i).waitT }) i))))

/-- R118, R120, R121, R124, R160, R187 to R192, R210, R217 to R220: what a twin's message does when it arrives in its turn,
and that it is acknowledged. -/
def Obligations.TwinMessages : Prop :=
  ∀ (s : State) (h : Hdr) (p : Nat), Sound s = true →
    let x := pathOf s p
    let u := arrived s h p
    let done : State → State := fun t => sendAck t p h.lane.toNat
    (inTurn s h 4 p = true → x.state = 2 → isTwinPath s p = true → s.tw.hold = [] → s.tw.rest = [] → s.tw.shadowQ = [] →
      ∀ m : MUnit, m.rseq = s.tw.rxLast + 1 → m.rtype = 0 →
        let i := m.index.toNat
        let kind : BitVec 3 := m.m0.extractLsb' 61 3
        let old : BitVec 64 := (mirr s i).m0
        let mack : State → State := fun t => done (laneSend t p 1 5 (leBytes 8 (m.rseq ++ (0 : BitVec 32)).toNat))
        let v := updTw (setMirr u i ⟨m.m0, m.m1, m.m2, m.m3⟩) (fun t => { t with rxLast := m.rseq })
        (kind = 3 ∨ kind = 4 → (old.extractLsb' 61 3 : BitVec 3) = 0 ∨ (old.extractLsb' 32 29 : BitVec 29) = m.m0.extractLsb' 32 29 →
          exec (.mirror h [m]) s = .next (mack v)) ∧
        (kind = 1 → (old.extractLsb' 61 3 : BitVec 3) = 0 →
          let r := (m.m0.extractLsb' 16 16 : BitVec 16).toNat
          let sh := shadow s r
          exec (.mirror h [m]) s = .next (mack (setShadow v r { sh with
            cons := BitVec.ofNat 16 (((m.m1.extractLsb' 32 16 : BitVec 16).toNat + 1) % 2 ^ sh.sqlog.toNat) })))) ∧
    (inTurn s h 5 p = true → x.state = 2 → isTwinPath s p = true → s.hbr.tstate = 2 →
      ∀ (v : MUnit) (i : Nat), s.tw.maw = [v] → s.tw.mq = [] → s.tw.fillTo = none → v.index.toNat = i → v.rtype = 0 →
        (v.m0.extractLsb' 61 3 : BitVec 3) = 3 → (v.m0.extractLsb' 32 29 : BitVec 29) = (own s i).gen → (own s i).ackp = true →
        s.tw.hold = [] →
        exec (.mack h v.rseq) s = .next (done (raise (setOwn (updTw u (fun t => { t with maw := [] })) i
          { own s i with ackp := false }) 4))) ∧
    (inTurn s h 2 p = true → x.state = 2 → s.blk.mode = 3 →
      ∃ t, exec (.fenced h) s = .next t ∧ t.blk = { mode := 6, dlevel := 0, freeze := true, build := s.blk.build } ∧ t.boot.qcause = 2 ∧
        t.hbr.tstate = 0) ∧
    (inTurn s h 2 p = true → x.state = 2 → isTwinPath s p = true → s.hbr.tstate ≠ 4 → s.hbr.tstate ≠ 5 →
      ∃ t, exec (.unpairMessage h) s = .next t ∧ t.hbr.tstate = 0 ∧ t.tw.mq = [] ∧ t.tw.maw = [] ∧
        ∀ i, own t i = if (own s i).ackp then { own s i with ackp := false, unprot := true } else own s i) ∧
    (inTurn s h 2 p = true → x.state = 2 → s.hbr.tstate = 0 → s.blk.mode = 3 →
      let rings := s.rings.filter (fun e => e.2.en && decide (e.1 < (halfRings s)))
      let live := s.own.filter (fun e => decide (1 ≤ e.2.st.toNat) && decide (e.2.st.toNat < 5) && !e.2.tr && !e.2.srv)
      let paired : State → Prop := fun t => t.hbr.tnum = x.peer ∧ t.hbr.role = 0 ∧
        t.hbr.tstate = (if rings.isEmpty && live.isEmpty && (fenceSet s).isEmpty then 2 else 1) ∧ t.tw.rxLast = 0 ∧ t.tw.ledger = [] ∧
        t.tw.last = s.tide.count ∧ t.tw.miss = 0 ∧
        t.tw.mq.map (fun v => (v.rtype, v.index)) =
          rings.map (fun _ => ((3 : BitVec 3), (0 : BitVec 19))) ++ live.map (fun e => (0, BitVec.ofNat 19 e.1))
      (s.hbr.role = 1 ∨ (s.hbr.role = 0 ∧ x.peer = s.tw.charterTwin) → ∃ t, exec (.pair h) s = .next t ∧ paired t) ∧
      (s.hbr.role ≠ 1 → s.hbr.role ≠ 0 ∨ x.peer ≠ s.tw.charterTwin → exec (.pair h) s = .next (done u)) ∧
      (s.tw.asked = some x.peer → ∃ t, exec (.pairAck h) s = .next t ∧ paired t) ∧
      (s.tw.asked ≠ some x.peer → exec (.pairAck h) s = .next (done u))) ∧
    (inTurn s h 2 p = true → x.state = 2 → isTwinPath s p = true → s.hbr.tstate = 2 →
      (s.hbr.pdEn = true → permitsD3 u = true → (∀ i, (own s i).st = 0) → s.mirror = [] → s.tw.ledger = [] → s.tw.hold = [] →
        ∃ t, exec (.drowseReq h) s = .next t ∧ t.hbr.tstate = 6 ∧ (pathOf t p).state = 3) ∧
      (s.hbr.pdEn = false → exec (.drowseReq h) s = .next (done u)) ∧
      (s.pwr.reqOut = true → s.pwr.waking = false →
        ∃ t, exec (.drowseAck h) s = .next t ∧ t.hbr.tstate = 6 ∧ t.pwr.entering = 3 ∧ t.pwr.reqOut = false)) ∧
    (inTurn s h 2 p = true → x.state = 3 → isTwinPath s p = true → s.hbr.tstate = 6 →
      ∃ t, exec (.wake h) s = .next t ∧ t.hbr.tstate = 2 ∧ (pathOf t p).state = 2 ∧ t.tw.miss = 0 ∧ t.tw.last = s.tide.count)

/-- R195, R201, R221, R222, R236, R293 to R295, R568: the frames of remote device commands. CTRL, RCMD and RCPL also enter the
frame window; a serving block takes an RCMD into a free entry, stores its RDATA and answers what it cannot serve; a
requester acts on the answer. -/
def Obligations.RemoteCommands : Prop :=
  (∀ (s : State) (h : Hdr) (p : Nat), Sound s = true → inTurn s h 2 p = true → (pathOf s p).state = 2 →
    (fwinOf s (pathOf s p).sp.toNat).ctl.length < 64 →
    let peer := (pathOf s p).peer
    let u := arrived s h p
    let took : Msg → State := fun m => windowed u h 2 p 0 (msgBody m)
    let done : State → State := fun t => sendAck t p h.lane.toNat
    (∀ num, s.serves = [] → exec (.fence h num) s = .next (done { took (.fence num) with dock := { s.dock with
      fencedBy := if s.dock.fencedBy.contains num then s.dock.fencedBy else s.dock.fencedBy ++ [num] } })) ∧
    (∀ b, exec (.quiesceAck h b) s = .next (done (took (.quiesceAck b)))) ∧
    (∀ b, exec (.quiesce h b) s = .next (done (setBerth (took (.quiesce b)) b.toNat
      { berth s b.toNat with quiesced := true, quiesceBy := (berth s b.toNat).quiesceBy ++ [p] }))) ∧
    (∀ rqid, findServe s peer rqid = none → exec (.abort h rqid) s = .next (done (took (.abort rqid)))) ∧
    (∀ rqid i v, findServe s peer rqid = some (i, v) → servedIssued s i v ≠ 0 → v.done = false →
      exec (.abort h rqid) s = .next (done (setServe (took (.abort rqid)) i { v with aborted := true }))) ∧
    (∀ rqid i v, s.serves = [(i, some v)] → findServe s peer rqid = some (i, v) → servedIssued s i v = 0 →
      s.dock.fencedBy = [] →
      let w := took (.abort rqid)
      exec (.abort h rqid) s = .next (done (laneSend { w with serves := [] } v.path v.lane.toNat 8
        (qBytes (v.rqid ++ (4 : BitVec 3) ++ (0 : BitVec 29)) ++ List.replicate (if v.fused then 32 else 16) 0))))) ∧
  (∀ (s : State) (h : Hdr) (p : Nat) (rqid : BitVec 32) (b : BitVec 16) (fused : Bool) (sqe : List W64),
    Sound s = true → inTurn s h 6 p = true → (pathOf s p).state = 2 → (fwinOf s (pathOf s p).sp.toNat).rcmd.length < 64 →
    let peer := (pathOf s p).peer
    let u := windowed (arrived s h p) h 6 p 1 (msgBody (.rcmd rqid b fused sqe))
    let done : State → State := fun t => sendAck t p h.lane.toNat
    let answer : State → BitVec 3 → State := fun t r => laneSend t p h.lane.toNat 8 (qBytes (rqid ++ r ++ (0 : BitVec 29)) ++ List.replicate (if fused then 32 else 16) 0)
    let x := berth s b.toNat
    let free := { u with freeCtr := s.freeCtr + 1 }
    let v : Serve := { path := p, lane := h.lane, rqid := rqid, berth := b, fused := fused, sqe := sqe }
    let unfit := x.state = 0 ∨ x.state = 2 ∨ x.nsid ≠ (sqe.headD 0).extractLsb' 32 32 ∨ (x.slot 0).v = false
    (s.dock.fencedBy.contains peer = true → exec (.rcmd h rqid b fused sqe) s = .next (done (answer u 2))) ∧
    (s.dock.fencedBy.contains peer = false →
      (s.blk.mode = 6 → exec (.rcmd h rqid b fused sqe) s = .next (done (answer u 3))) ∧
      (s.blk.mode ≠ 6 → gfree s = 0 → exec (.rcmd h rqid b fused sqe) s = .next (done (answer u 1))) ∧
      (s.blk.mode ≠ 6 → 0 < gfree s →
        (unfit → exec (.rcmd h rqid b fused sqe) s = .next (done (answer free 3))) ∧
        (¬ unfit → x.quiesced = true → exec (.rcmd h rqid b fused sqe) s = .next (done (answer free 4))) ∧
        (∀ i, ¬ unfit → x.quiesced = false →
          findFree s s.blk.build.entries ((Config.freeWord s.freeCtr).toNat % s.blk.build.entries) = some i →
          exec (.rcmd h rqid b fused sqe) s = .next (done (setServe (setOwn
            (if (xctx s i).resolve then free else setXctx free i { xctx s i with placed := true }) i
            { gen := (own s i).gen, st := 3, srv := true, lmp := 3, pos := BitVec.allOnes 64, berth := b }) i v)))))) ∧
  (∀ (s : State) (h : Hdr) (p : Nat) (rqid off : BitVec 32) (last : Bool) (data : List (BitVec 8)),
    Sound s = true → inTurn s h 7 p = true → (pathOf s p).state = 2 → data ≠ [] →
    let u := arrived s h p
    let done : State → State := fun t => sendAck t p h.lane.toNat
    let bell : State → State := fun t => if last then raise t (0x303 + 4 * (pathOf s p).sp.toNat) else t
    dcmdOf s (remoteKey rqid) = none →
    (findServe s (pathOf s p).peer rqid = none → exec (.rdata h rqid off last data) s = .next (done u)) ∧
    (∀ i v, findServe s (pathOf s p).peer rqid = some (i, v) → i < s.blk.build.entries → (own s i).st = 3 → off.toNat + data.length ≤ 2 ^ 24 →
      (unboundIn s (i * 2 ^ 24 + off.toNat) data.length).length + boundBays s ≤ s.blk.build.bays →
      exec (.rdata h rqid off last data) s = .next (done (bell (putStage
        (setServe u i { v with got := v.got + data.length, last := v.last || last }) false (i * 2 ^ 24 + off.toNat) data))))) ∧
  (∀ (s : State) (h : Hdr) (p : Nat) (rqid : BitVec 32) (r : BitVec 3) (st : List (BitVec 15)),
    Sound s = true → inTurn s h 8 p = true → (pathOf s p).state = 2 → (fwinOf s (pathOf s p).sp.toNat).rcpl.length < 64 →
    let u := windowed (arrived s h p) h 8 p 2 (msgBody (.rcpl rqid r st))
    let done : State → State := fun t => sendAck t p h.lane.toNat
    let key := remoteKey rqid
    (dcmdOf s key = none → exec (.rcpl h rqid r st) s = .next (done u)) ∧
    (∀ c, dcmdOf s key = some c → dcmdOf s (fusedKey rqid) = none → c.wait = .device → (c.frame.map (·.1)) = some p →
      s.blk.mode = 3 → s.tw.raceLost = false → liveCmd s c = true → c.kind = .part 0 →
      (r = 1 → c.noent < 8 →
        ∃ t, exec (.rcpl h rqid r st) s = .next t ∧ dcmdOf t key = some { c with noent := c.noent + 1, wait := .noent, excl := none, lost := s.tide.count }) ∧
      (r = 2 → ∃ t, exec (.rcpl h rqid r st) s = .next t ∧ t.blk = { mode := 6, dlevel := 0, freeze := true, build := s.blk.build } ∧ t.boot.qcause = 5) ∧
      (r = 4 → c.abortSent = false → isMutCmd s c = false → c.slot ≠ 0 → (own s c.idx).fenced = false →
        ∃ t, exec (.rcpl h rqid r st) s = .next t ∧
          dcmdOf t key = some { c with wait := .slot, excl := some c.slot, lost := s.tide.count }) ∧
      (∀ x wx, r = 0 → st = [0] → s.dcmds = [(key, some c)] → xctx s c.idx = x → x.cur = some wx → x.resolve = false →
        wx.w.op = 1 → wx.issued = 1 → 2 ≤ partsOf s (berthOf s c.idx) wx → wx.done = [] → wx.outCmds = 1 →
        ∃ t, exec (.rcpl h rqid r st) s = .next t ∧ t.dcmds = [] ∧ (own t c.idx).path = BitVec.ofNat 2 c.slot ∧
          (xctx t c.idx).cur = some { wx with done := [(0, partBytes s (berthOf s c.idx) wx 0, 0)], outCmds := 0 }))) ∧
  (∀ (s : State) (i : Nat), frozen s = false →
    (cmdsOf s i (fun c => decide (c.wait = .noent)) = [] → exec (.noentRetry i) s = .next s) ∧
    (∀ k c p lane body, cmdsOf s i (fun c => decide (c.wait = .noent)) = [(k, c)] → c.idx = i → c.frame = some (p, lane, body) →
      2 ^ 26 ≤ k → (xctx s i).tkoWait = false →
      let b := (own s i).berth.toNat
      let x := berth s b
      exec (.noentRetry i) s = .next (laneSend (setDcmd (setBerth s b (x.setSlot c.slot
        { x.slot c.slot with outst := (x.slot c.slot).outst + 1 })) k (some { c with wait := .device })) p lane.toNat 6 body))) ∧
  (∀ (s : State) (b : BitVec 16),
    let x := berth s b.toNat
    (∀ p, x.quiesced = true → s.serves = [] → x.quiesceBy = [p] →
      exec (.quiesceAckSend b) s = .next (laneSend (setBerth s b.toNat { x with quiesceBy := [] }) p 0 2
        (qBytes ((0x12 : BitVec 8) ++ (0 : BitVec 40) ++ b)))) ∧
    (x.quiesced = false → exec (.quiesceAckSend b) s = .next s))

/-- R197 to R199, R202 to R207, R215: configuring a path, proving it by heartbeats, losing it, and the frames that the block
drops.

R206, R209, R211 to R214, R217: an ACK frame releases what it covers and returns credit; three frames held beyond a
missing one, or the timer, send it again; and the queued mirror records leave in one frame. -/
def Obligations.Placia : Prop :=
  (∀ (s : State) (p : Nat) (x : Path), s.paths = [(p, x)] → x.en = true → x.state ≠ 3 → s.hbr.tstate ≠ 6 → s.fstop = false →
    exec .heartbeatSend s = .next (sendU s p 2 0 (qBytes
      ((1 : BitVec 8) ++ x.peerEpoch.getD 0 ++ s.blk.mode ++ s.hbr.tstate ++ s.plc.stratum ++ (0 : BitVec 30))))) ∧
  (∀ (s : State) (h : Hdr) (b : HbBody) (p : Nat), Sound s = true → reaches s h 2 false p = true → h.av = false → h.crd = 0 →
    let x := pathOf s p
    let twin := s.hbr.tnum = x.peer ∧ 1 ≤ s.hbr.tstate.toNat ∧ s.hbr.tstate.toNat ≤ 3
    let good := x.peerEpoch = some h.epoch ∧ b.eseen = x.epoch
    s.tw.lost ≠ some x.peer →
    ∃ t, exec (.heartbeat h b) s = .next t ∧
      (twin → t.tw.last = s.tide.count ∧ t.tw.miss = 0 ∧ t.tw.wakeSent = false ∧
        t.hbr.tstate = (if s.hbr.tstate = 3 then 2 else s.hbr.tstate)) ∧
      (¬ twin → t.tw.last = s.tw.last ∧ t.tw.miss = s.tw.miss ∧ t.hbr.tstate = s.hbr.tstate) ∧
      (x.state = 2 → x.peerEpoch = some h.epoch →
        pathOf t p = { x with peerMode := b.mode, peerStratum := b.stratum, heard := true, missed := 0, lastHb := s.tide.count }) ∧
      (x.state = 2 → x.peerEpoch ≠ some h.epoch → (pathOf t p).state = 1 ∧ (pathOf t p).downs = satInc x.downs ∧
        (pathOf t p).epoch = (if x.epoch = 0xFFFF then 1 else x.epoch + 1) ∧ (pathOf t p).peerEpoch = none) ∧
      (x.state = 1 → (pathOf t p).peerEpoch = some h.epoch ∧ (pathOf t p).missed = 0 ∧
        (¬ good → (pathOf t p).state = 1 ∧ (pathOf t p).good = 0) ∧
        (good → x.good.toNat < 2 → (pathOf t p).state = 1 ∧ (pathOf t p).good = x.good + 1) ∧
        (good → x.good = 2 → s.plc.portFail.getLsbD (8 + x.sp.toNat) = false → (pathOf t p).state = 2 ∧
          ((pathOf t p).lane 0).seq = 0 ∧ ((pathOf t p).lane 0).exp = 0))) ∧
  (∀ (s : State) (h : Hdr) (p : Nat), Sound s = true → accepts s h 2 false p = true →
    ((pathOf s p).state = 2 → ∃ t, exec (.hbsusp h) s = .next t ∧ (pathOf t p).state = 3 ∧ (pathOf t p).missed = 0) ∧
    ((pathOf s p).state = 3 → ∃ t, exec (.hbsusp h) s = .next t)) ∧
  (∀ (s : State) (h : Hdr),
    let drop : Plc → Out := fun q => .next { s with plc := q }
    (s.fstop = true → exec (.hbsusp h) s = .next (startWake s 3)) ∧
    (s.fstop = false → h.crcOk = false → exec (.hbsusp h) s = drop { s.plc with errCrc := satInc s.plc.errCrc }) ∧
    (s.fstop = false → h.crcOk = true →
      (h.ver ≠ 1 ∨ h.hid ≠ s.hbr.hid ∨ h.dst ≠ s.hbr.num ∨ h.lane ≠ 0 ∨ h.fits = false ∨ h.u = false →
        exec (.hbsusp h) s = drop { s.plc with errHdr := satInc s.plc.errHdr }) ∧
      (h.ver = 1 → h.hid = s.hbr.hid → h.dst = s.hbr.num → h.lane = 0 → h.fits = true → h.u = true → h.src ≠ s.hbr.num →
        (pathFor s h = none → exec (.hbsusp h) s = drop { s.plc with errNopath := satInc s.plc.errNopath }) ∧
        (∀ p, pathFor s h = some p → (pathOf s p).state ≠ 3 → (pathOf s p).peerEpoch ≠ some h.epoch →
          exec (.hbsusp h) s = drop { s.plc with errEpoch := satInc s.plc.errEpoch })))) ∧
  (∀ (s : State) (p : Nat), Sound s = true → (s.blk.mode ≠ 4 ∨ s.blk.dlevel ≠ 3) → s.fstop = false →
    let x := pathOf s p
    x.en = true → x.state = 1 ∨ x.state = 2 →
    (x.missed.toNat < 2 → exec (.pathMissedInterval p) s = .next (setPath s p { x with missed := x.missed + 1 })) ∧
    (2 ≤ x.missed.toNat → x.state = 1 → exec (.pathMissedInterval p) s = .next (setPath s p { x with good := 0, missed := 0 })) ∧
    (2 ≤ x.missed.toNat → x.state = 2 → ∃ t, exec (.pathMissedInterval p) s = .next t ∧ (pathOf t p).state = 1 ∧
      (pathOf t p).downs = satInc x.downs ∧ (pathOf t p).epoch = (if x.epoch = 0xFFFF then 1 else x.epoch + 1))) ∧
  (∀ (s : State) (rq : Requester) (p : Nat) (v : W32), Sound s = true → p < s.blk.build.paths → rq ≠ .ctl →
    let x := pathOf s p
    let y : Path := { x with enc := v.getLsbD 30, maxpl := v.extractLsb' 28 2, sp := v.extractLsb' 26 2, peer := v.extractLsb' 0 16 }
    let barred := y.peer = s.hbr.num ∨ (y.enc = true ∧ s.plc.udpport = 0) ∨
      (∃ q z, (q, z) ∈ s.paths ∧ q ≠ p ∧ z.en = true ∧ z.sp = y.sp ∧ z.peer = y.peer) ∨
      16 ≤ Table.count (fun _ e => e.en && decide (e.sp = y.sp)) s.paths
    (x.en = false → v.getLsbD 31 = true → ¬ barred → ∃ t, exec (.pathEnable rq p v) s = .next t ∧
      pathOf t p = { y with en := true, state := 1, epoch := if x.epoch = 0xFFFF then 1 else x.epoch + 1, good := 0, missed := 0, peerEpoch := none }) ∧
    (x.en = false → v.getLsbD 31 = true → barred → ∃ t, exec (.pathEnable rq p v) s = .next t ∧ pathOf t p = y ∧ t.plc.cfg = true) ∧
    (x.en = true → v.getLsbD 31 = true → exec (.pathEnable rq p v) s = .next s) ∧
    (x.en = true → v.getLsbD 31 = false → ∃ t, exec (.pathDisable rq p v) s = .next t ∧ (pathOf t p).en = false ∧
      (pathOf t p).state = 0 ∧ (pathOf t p).lanes = [])) ∧
  (∀ (s : State) (h : Hdr) (p : Nat) (sack q1 q2 : W64), Sound s = true → reaches s h 1 false p = true → idleLanes s = true →
    (pathOf s p).peerEpoch = some h.epoch → (pathOf s p).state = 2 → h.crd = 0 → h.av = true →
    let x := pathOf s p
    let k := h.lane.toNat
    let kept := (x.lane k).unack.filter (fun f => !(f.seq - h.ack).getLsbD 31)
    let grant : Nat → Nat := fun n => ((q2 ++ q1).extractLsb' (16 * n) 16 : BitVec 16).toNat
    (sack = 0 → ∃ t, exec (.ack h sack q1 q2) s = .next t ∧ t.out = s.out ∧
      ∀ n, n < 8 → (pathOf t p).lane n = { x.lane n with
        credit := (x.lane n).credit + grant n, unack := if n = k then kept else (x.lane n).unack }) ∧
    (∀ f, (x.lane k).unack = [f] → f.seq = h.ack → f.fast = false → sack = 0 → q1 = 0 → q2 = 0 →
      exec (.ack h 7 0 0) s = .next (sendS (setPath s p { x.setLane k { x.lane k with unack := [{ f with fast := true }] } with
        retx := satInc x.retx }) p k f true))) ∧
  (∀ (s : State) (p : Nat) (k : BitVec 3) (f : TxF), Sound s = true →
    let x := pathOf s p
    let l := x.lane k.toNat
    x.state = 2 → l.unack = [f] → exec (.retransmitTimer p k f.seq) s = .next
      (let g := { f with dbl := Nat.min 3 (f.dbl + 1), fast := false }
       sendS (setPath s p { x.setLane k.toNat { l with unack := [g] } with retx := satInc x.retx }) p k.toNat f true)) ∧
  (∀ (s : State) (p : Nat) (u : MUnit), Sound s = true → twinSends s = true → s.tw.mq = [u] → s.tw.primPath = some p →
    let x := pathOf s p
    let l := x.lane 1
    let f : TxF := ⟨l.seq, 4, unitBytes u, 1, 0, false⟩
    let v : State := { updTw s (fun t => { t with mq := [], maw := t.maw ++ [u] }) with hbr := { s.hbr with prim := x.sp } }
    x.state = 2 → l.wait = [] →
    (1 ≤ l.credit → l.unack.length < 1024 → exec .mirrorFrameSend s = .next
      (sendS (setPath v p (x.setLane 1 { l with wait := [], credit := l.credit - 1, seq := l.seq + 1, unack := l.unack ++ [f] })) p 1 f false)) ∧
    (l.credit = 0 → exec .mirrorFrameSend s = .next s))

/-- R149, R200, R289, R516: the MEMBER message in parts, the membership table, and a member that is dropped.

R224 to R228, R520: the request and the answer of tide synchronisation, the offset that a valid answer gives, the step
that the first one makes, and the slewing of the later ones, a sixteenth at a time. -/
def Obligations.HarbourAndTide : Prop :=
  (∀ (s : State), (s.fstop = true → exec .memberSend s = .next s) ∧
    (∀ p x, s.fstop = false → s.paths = [(p, x)] → x.en = true → x.state = 2 → 8 + 16 * (reached s).length ≤ 1024 →
      let head : W64 := (3 : BitVec 8) ++ s.hbr.role ++ s.blk.mode ++ (if s.hbr.tstate = 0 then 0 else s.hbr.tnum) ++
        s.hbr.tstate ++ (0 : BitVec 8) ++ (1 : BitVec 8) ++ BitVec.ofNat 16 (reached s).length
      exec .memberSend s = .next (sendU (updTw s (fun t => { t with memberAt := s.tide.count })) p 2 0
        (qBytes head ++ (reached s).foldr (fun g l => leBytes 16 g.toNat ++ l) []))) ∧
    ((s.paths.all fun e => decide (e.2.state ≠ 2)) = true → s.fstop = false →
      exec .memberSend s = .next (updTw s (fun t => { t with memberAt := s.tide.count })))) ∧
  (∀ (s : State) (h : Hdr) (b : MemberBody) (p : Nat), Sound s = true → accepts s h 2 false p = true →
    (pathOf s p).state = 2 →
    let n := (pathOf s p).peer.toNat
    let m := memberOf s n
    let now := s.tide.count
    let first : Member := { m with setN := b.nparts, setTick := now, parts := Table.put [] [] b.part.toNat b.nguids, haveParts := [b.part.toNat] }
    let known : List (BitVec 128) → Member := fun l =>
      { m with known := true, role := b.role, mode := b.mode, twin := b.twin, tstate := b.tstate, nguids := l, last := now, setN := b.nparts, parts := [], haveParts := [] }
    (b.nparts = 1 → b.part = 0 → m.haveParts = [] → ∃ t, exec (.member h b) s = .next t ∧
      memberOf t n = { known b.nguids with setTick := now }) ∧
    (1 < b.nparts.toNat → m.haveParts = [] ∨ 100000 < (now - m.setTick).toNat ∨ b.part.toNat ∈ m.haveParts ∨ m.setN ≠ b.nparts →
      exec (.member h b) s = .next (setMember s n first)) ∧
    (∀ other : List (BitVec 128), b.nparts = 2 → b.part = 1 → m.setN = 2 → m.haveParts = [0] → Table.get [] m.parts 0 = other →
      (now - m.setTick).toNat ≤ 100000 →
      ∃ t, exec (.member h b) s = .next t ∧ memberOf t n = known (other ++ b.nguids))) ∧
  (∀ (s : State) (num : BitVec 16), Sound s = true →
    (s.paths.all fun e => e.2.en && decide (e.2.state = 3) && decide (e.2.peer = num)) = true → s.paths ≠ [] →
      exec (.memberDrop num) s = .next s) ∧
  (∀ (s : State) (num : BitVec 16), Sound s = true → (s.paths.all fun e => decide (e.2.peer ≠ num)) = true →
    ((memberOf s num.toNat).known = false → exec (.memberDrop num) s = .next s) ∧
    ((memberOf s num.toNat).known = true → ∃ t, exec (.memberDrop num) s = .next t ∧ memberOf t num.toNat = {})) ∧
  (∀ (s : State),
    let t1 : W64 := (s.tide.count - (if s.tide.lag then 1 else 0)).extractLsb' 0 60 ++ s.tide.frac
    let tag := s.plc.tag + 1
    (s.plc.refOk = true → s.fstop = false → exec .tideRequestSend s =
      .next (sendU { s with plc := { s.plc with tag := tag, reqOut := some t1 } } s.plc.ref.toNat 3 0
        (qsBytes [(1 : BitVec 4) ++ (0 : BitVec 4) ++ tag ++ (0 : BitVec 48), t1, 0, 0]))) ∧
    (s.plc.refOk = false ∨ s.fstop = true → exec .tideRequestSend s = .next s)) ∧
  (∀ (s : State) (h : Hdr) (p : Nat) (tag : BitVec 8) (t1 : W64), Sound s = true → accepts s h 3 false p = true →
    (pathOf s p).state = 2 → idleLanes s = true → s.plc.root = false →
    let now : W64 := (s.tide.count - (if s.tide.lag then 1 else 0)).extractLsb' 0 60 ++ s.tide.frac
    exec (.tideRequest h tag t1) s = .next (sendU s p 3 0
      (qsBytes [(2 : BitVec 4) ++ s.plc.stratum ++ tag ++ (0 : BitVec 48), t1, now, now]))) ∧
  (∀ (s : State) (h : Hdr) (p : Nat) (stratum : BitVec 4) (tag : BitVec 8) (t1 t2 t3 r : W64), Sound s = true →
    accepts s h 3 false p = true → (pathOf s p).state = 2 → idleLanes s = true →
    let t4 : W64 := (s.tide.count - (if s.tide.lag then 1 else 0)).extractLsb' 0 60 ++ s.tide.frac
    let answered := s.plc.reqOut = some r ∧ tag = s.plc.tag ∧ (t4 - r).toNat ≤ 160000 ∧ s.plc.refOk = true ∧
      s.plc.ref.toNat = p
    let off := (((t2.toNat : Int) - t1.toNat) - ((t4.toNat : Int) - t3.toNat) - (pathOf s p).asym.toInt).tdiv 2
    let offs : BitVec 16 := if off < -32767 then BitVec.ofInt 16 (-32767) else if off > 32767 then 32767 else BitVec.ofInt 16 off
    let v : W64 := BitVec.ofInt 64 ((t4.toNat : Int) + off)
    (s.plc.reqOut = none ∨ (s.plc.reqOut = some r ∧ (tag ≠ s.plc.tag ∨ 160000 < (t4 - r).toNat)) →
      exec (.tideResponse h stratum tag t1 t2 t3) s = .next s) ∧
    (answered → s.tide.stepped = false → exec (.tideResponse h stratum tag t1 t2 t3) s = .next { s with
      plc := { s.plc with offs := offs, reqOut := none }
      tide := { s.tide with
        count := (0 : BitVec 4) ++ v.extractLsb' 4 60, frac := v.extractLsb' 0 4, lag := false, stepped := true, unsync := false } }) ∧
    (answered → s.tide.stepped = true → off.natAbs ≤ 160000 → exec (.tideResponse h stratum tag t1 t2 t3) s = .next { s with
      plc := { s.plc with offs := offs, reqOut := none, slew := off }
      tide := { s.tide with unsync := false } })) ∧
  (∀ (s : State),
    let t := s.tide
    let q := s.plc
    (q.slew = 0 → exec .tideSlew s = .next s) ∧
    (0 < q.slew → t.frac ≠ 15 → exec .tideSlew s = .next { s with plc := { q with slew := q.slew - 1 }, tide := { t with frac := t.frac + 1 } }) ∧
    (0 < q.slew → t.frac = 15 → t.lag = false →
      exec .tideSlew s = .next { s with plc := { q with slew := q.slew - 1 }, tide := { t with frac := 0, count := t.count + 1 } }) ∧
    (0 < q.slew → t.frac = 15 → t.lag = true →
      exec .tideSlew s = .next { s with plc := { q with slew := q.slew - 1 }, tide := { t with frac := 0, lag := false } }) ∧
    (q.slew < 0 → t.frac = 0 → t.lag = false →
      exec .tideSlew s = .next { s with plc := { q with slew := q.slew + 1 }, tide := { t with frac := 15, lag := true } }) ∧
    (q.slew < 0 → t.frac = 0 → t.lag = true → exec .tideSlew s = .next s) ∧
    (q.slew < 0 → t.frac ≠ 0 → exec .tideSlew s = .next { s with plc := { q with slew := q.slew + 1 }, tide := { t with frac := t.frac - 1 } }))

/-- R16, R162, R164, R166, R190: counting missed heartbeats, SUSPECT at the second, the declaration of loss after the fifth or
when a drowsed twin does not wake, and the hold on a clock raise.

R166, R169, R171 to R173, R175, R187, R271, R281: fencing: a Preempt and Abort for each namespace on the sealed queue of
its controller, what its end does, GLEANING once all are settled, a lost race, and a namespace whose fence is lost. -/
def Obligations.LossAndFencing : Prop :=
  (∀ (s : State), 1 ≤ s.hbr.tstate.toNat → s.hbr.tstate.toNat ≤ 3 → s.tw.wakeSent = false → s.tw.miss.toNat < 5 →
    let u : State := updTw s (fun t => { t with miss := s.tw.miss + 1 })
    ((s.tw.miss = 0 → s.pwr.step ≠ 2) → (s.tw.miss = 1 → s.hbr.tstate ≠ 2 ∧ s.fstop = false) → exec .missedInterval s = .next u) ∧
    (s.tw.miss = 0 → s.pwr.step = 2 → exec .missedInterval s = .next { u with pwr := { s.pwr with step := 1, hold := true } }) ∧
    (s.tw.miss = 1 → s.hbr.tstate = 2 → s.fstop = false →
      exec .missedInterval s = .next (raise { u with hbr := { s.hbr with tstate := 3 } } 3))) ∧
  (∀ (s : State), (s.pwr.hold = true → s.tw.miss = 0 ∨ s.hbr.tstate = 0 → s.hbr.tstate ≠ 4 → s.hbr.tstate ≠ 5 →
      exec .clockRaiseHoldEnd s = .next { s with pwr := { s.pwr with hold := false, step := s.pwr.tgt } }) ∧
    (s.hbr.tstate = 4 ∨ s.hbr.tstate = 5 ∨ (s.tw.miss ≠ 0 ∧ s.hbr.tstate ≠ 0) → exec .clockRaiseHoldEnd s = .next s)) ∧
  (∀ (s : State), Sound s = true →
    let lost : State → Prop := fun t =>
      t.hbr.tstate = 4 ∧ t.hbr.tkot = s.tide.count.setWidth 32 ∧ t.hbr.outcome = 0 ∧ t.hbr.gleaned = 0 ∧
      t.blk.mode = (if s.blk.mode = 3 then 5 else s.blk.mode) ∧ t.tw.lost = some s.hbr.tnum ∧ t.tw.lostAt = s.tw.last ∧
      t.tw.fset = (fenceSet s).map (fun g => ⟨g, 0⟩) ∧ t.tw.fencing = false ∧ t.tw.mq = [] ∧ t.tw.maw = [] ∧
      t.tw.hold = [] ∧ t.tw.shadowQ = [] ∧ t.tw.glean = none ∧ t.tw.gleanDone = false
    let live := 1 ≤ s.hbr.tstate.toNat ∧ s.hbr.tstate.toNat ≤ 3
    (s.tw.miss = 5 → live → ∃ t, exec .twinDeclaredLost s = .next t ∧ lost t) ∧
    (s.tw.miss ≠ 5 ∨ ¬ live → exec .twinDeclaredLost s = .next s) ∧
    (s.tw.wakeSent = true → s.hbr.tstate = 6 → ∃ t, exec .wakeTimeout s = .next t ∧ lost t) ∧
    (s.tw.wakeSent = false ∨ s.hbr.tstate ≠ 6 → exec .wakeTimeout s = .next s)) ∧
  (∀ (s : State) (g : BitVec 128) (c : Nat) (ns : W32) (key : Nat), s.hbr.tstate = 4 → frozen s = false → s.tw.resvq = [] →
    let id : BitVec 16 → W64 := fun n => s.hbr.hid ++ (0 : BitVec 16) ++ n
    let cmd : Nat → State → State := fun k u =>
      ringSq (emit (queueOut { u with resvs := Table.put none u.resvs k (some ⟨.fence, g, 0⟩) } k true)
        (.resv c k 0x11 0x402 0 ns (qsBytes [id s.hbr.num, id (s.tw.lost.getD 0)]))) (k / 65536) true
    localOf s g = some (c, ns) →
    (s.tw.fencing = false → s.tw.fset = [⟨g, 0⟩] → sealedKey s c = some key → exec .fencingStart s =
      .next (cmd key (updTw s (fun t => { t with fencing := true, fset := [⟨g, 1⟩] })))) ∧
    (s.tw.fencing = false → s.tw.fset = [⟨g, 0⟩] → sealedKey s c = none → exec .fencingStart s =
      .next (updTw s (fun t => { t with fencing := true, fset := [⟨g, 1⟩], resvq := [⟨.fence, g, 0⟩] }))) ∧
    (s.tw.fencing = false → s.tw.fset = [] → s.tw.gleanDone = false →
      ∃ t, exec .fencingStart s = .next t ∧ t.hbr.tstate = 5 ∧ t.hbr.outcome = 1) ∧
    (s.tw.fencing = true → exec .fencingStart s = .next s) ∧
    (∀ (d : BitVec 15) (k : Nat), s.tw.fencing = true → s.tw.fset = [⟨g, 1⟩] → d ≠ 0 → d.setWidth 11 ≠ (0x83 : BitVec 11) →
      s.resvs = [(key, some ⟨.fence, g, 0⟩)] →
      let w := errorLog (stepCq (queueOut { s with resvs := [] } key false) (key / 65536)) (some (c, ns)) d
      sealedKey w c = some k →
      exec (.preemptAndAbortDone g d) s = .next (cmd k (updTw w (fun t => { t with fset := [⟨g, 2⟩] }))))) ∧
  (∀ (s : State) (g : BitVec 128) (f : FenceNs) (more : List FenceNs) (d : BitVec 15) (key : Nat), s.hbr.tstate = 4 →
    s.tw.fencing = true → frozen s = false → s.tw.gleanDone = false → s.tw.fset = f :: more → f.nguid = g → f.st = 1 ∨ f.st = 2 →
    (∀ m, m ∈ more → m.nguid ≠ g) → s.tw.resvq = [] → s.resvs = [(key, some ⟨.fence, g, 0⟩)] →
    let w := errorLog (stepCq (queueOut { s with resvs := [] } key false) (key / 65536)) (localOf s g) d
    let settled := (more.all fun m => decide (3 ≤ m.st)) = true
    (d = 0 → ¬ settled →
      exec (.preemptAndAbortDone g d) s = .next (updTw w (fun t => { t with
        fset := { f with st := 3 } :: more, held := s.tw.held.filter (fun x => decide (x ≠ g)) ++ [g] }))) ∧
    (d = 0 → settled → ∃ t, exec (.preemptAndAbortDone g d) s = .next t ∧ t.hbr.tstate = 5 ∧ t.hbr.outcome = 1) ∧
    (d.setWidth 11 = (0x83 : BitVec 11) → s.blk.mode = 3 ∨ s.blk.mode = 5 →
      ∃ t, exec (.preemptAndAbortDone g d) s = .next t ∧ t.tw.raceLost = true ∧ t.hbr.outcome = 2 ∧ t.hbr.tstate = 0 ∧
        t.blk = { s.blk with mode := 6, dlevel := 0, freeze := true } ∧ t.boot.qcause = 4) ∧
    (d ≠ 0 → d.setWidth 11 ≠ (0x83 : BitVec 11) → f.st = 2 → ¬ settled → s.own = [] →
      exec (.preemptAndAbortDone g d) s = .next { updTw w (fun t => { t with fset := { f with st := 4 } :: more }) with
        berths := Table.mapVals {} (fun _ b =>
          if b.nguid = g ∧ (b.state = 1 ∨ b.state = 3) then { b with state := 3, fenceLost := true } else b) w.berths }))

/-- R178 to R180: the adoption of a twin ring: the read of its completion queue, and the ring as its shadow and the records
already written leave it.

R188, R191, R192, R499: PAIR to the charter's twin and to a spare that reaches every namespace of the fence set, and the
end of an unpairing once the block is drained. -/
def Obligations.AdoptionAndPairing : Prop :=
  (∀ (s : State) (n : Nat), Sound s = true → n < halfRings s →
    let sh := shadow s n
    let r := ring s (halfRings s + n)
    let k : BitVec 16 := match sh.posted with
      | some j => BitVec.ofNat 16 ((j.toNat + 1) % 2 ^ r.cqlog.toNat)
      | none => 0
    let a := Table.get {} s.tw.adopt n
    (a.failed = true → r.en = false → exec (.adoptionReadRetry n) s = .next (emit
      (updTw (setRing s (halfRings s + n) { r with
        cons := sh.cons, tail := sh.cons, next := sh.cons, stamps := [], disp := [], slots := [], postWait := [] })
        (fun t => { t with adopt := Table.put {} t.adopt n { reading := true } }))
      (.hostRead r.lport.toNat 0 r.pas ((r.cqb ++ (0 : BitVec 6)) + BitVec.ofNat 64 (32 * k.toNat)) 32))) ∧
    (a.failed = false → exec (.adoptionReadRetry n) s = .next s) ∧
    (a.reading = true → ∀ recs, exec (.adoptionReadDone n false recs) s =
      .next (updTw s (fun t => { t with adopt := Table.put {} t.adopt n { failed := true } }))) ∧
    (a.reading = true → s.own = [] → s.tw.ledger = [] → r.ven = false → r.cqlog.toNat < 16 → s.blk.mode ≠ 5 → s.hbr.tstate ≠ 5 →
      let phase := match sh.posted with
        | some _ => if k = 0 then !sh.phase else sh.phase
        | none => true
      r.slots = [] →
      ∃ t, exec (.adoptionReadDone n true []) s = .next t ∧
        ring t (halfRings s + n) = { r with
          cqtail := k, p := phase, cqhead := BitVec.ofNat 16 ((k.toNat + 1) % 2 ^ r.cqlog.toNat), slotNext := k
          en := sh.en, decw := 0, outst := 0, decls := [] } ∧
        Table.get {} t.tw.adopt n = { adopted := true, waitDb := true })) ∧
  (∀ (s : State) (p : Nat), Sound s = true → s.fstop = false →
    let ask : BitVec 16 → State := fun n => laneSend (updTw s (fun t => { t with asked := some n })) p 0 2
      (qBytes ((6 : BitVec 8) ++ (0 : BitVec 56)))
    s.hbr.role = 0 → s.hbr.tstate = 0 →
    (s.blk.mode = 3 → s.hbr.num < s.tw.charterTwin → s.tw.charterRole = 0 → provenTo s s.tw.charterTwin = [p] →
      exec .pairSend s = .next (ask s.tw.charterTwin)) ∧
    (s.blk.mode ≠ 3 ∨ ¬ s.hbr.num < s.tw.charterTwin → exec .pairSend s = .next s) ∧
    (∀ n m, s.tw.retwin = true → s.blk.mode ≠ 7 → quarFreeze s = false → n < 65536 →
      s.members = [(n, m)] → m.known = true → m.role = 1 → (∀ g, g ∈ fenceSet s → g ∈ m.nguids) → provenTo s (BitVec.ofNat 16 n) = [p] →
      exec .retwinSearch s = .next (ask (BitVec.ofNat 16 n))) ∧
    (s.tw.retwin = false → exec .retwinSearch s = .next s)) ∧
  (∀ (s : State), Sound s = true →
    (s.tw.unpairing = true → s.hbr.tstate = 2 → (∀ i, (own s i).st = 0) → (∀ n, (ring s n).decw = 0) →
      s.tw.mq = [] → s.tw.maw = [] → fenceSet s = [] →
      ∃ t, exec .unpairDrained s = .next t ∧ t.hbr.tstate = 0 ∧ t.tw.unpairing = false ∧ t.tw.primPath = none) ∧
    (s.tw.unpairing = false → exec .unpairDrained s = .next s))

/-- R232 to R235, R241 to R246, R248: posting an order, its start, its end with its result, stopping the orders of a handle,
and freeing the destination bays of an entry. -/
def Obligations.Lighters : Prop :=
  (∀ (s : State) (f : RRR) (k l : Nat) (q : List W64), ready s f.p 1 f.g = true → (pilot s f.p).sw.priv = true →
    unwatched (pilot s f.p) = true → isD f.d = true → isA f.s = true → isD f.t = true →
    let x := pilot s f.p
    let y := lighterOf s l
    let lane := (x.reg f.t).val
    (x.reg f.s).tag = 4 → (x.reg f.s).val.toNat = 64 * k → k < 1024 → (x.reg f.t).tag = 1 →
    lane.toNat = l ∧ l < s.blk.build.lighters ∨ lane = 0x3F ∧ l = 0 ∧ s.ltr.lighters = [] →
    Table.getList emptyW s.cask (f.p * 8192 + 8 * k) 8 = (q.zip (orderTags (q.headD 0))).map (fun e => ⟨e.1, e.2⟩) → q.length = 8 →
    (y.orders.length < 16 → exec (.lgo f) s = .next (ran (rrrWord f 0x19 0) 0 s f.p (afterInstr
      (setLighter s l { y with orders := y.orders ++ [{ q := q, world := x.sw.world }] }) f.p 1
      (fun z => { z.wr f.d (intW (BitVec.ofNat 64 l)) with sw := { x.sw with z := true } })))) ∧
    (16 ≤ y.orders.length → exec (.lgo f) s = .next (ran (rrrWord f 0x19 0) 0 s f.p (setsReg s f.p 1 f.d (intW (BitVec.ofNat 64 (l + 256))) (fun w => { w with z := false }))))) ∧
  (∀ (s : State) (f : RRR), Sound s = true → ready s f.p 1 f.g = true → (pilot s f.p).sw.priv = true →
    isD f.d = true → isD f.s = true → f.t = 0 →
    let h := (pilot s f.p).reg f.s
    h.tag = 6 →
    ((s.ltr.lighters.all fun e => e.2.orders.all fun o => decide (o.w 4 ≠ h.val)) = true →
      exec (.lstop f) s = .next (ran (rrrWord f 0x19 1) 0 s f.p (setsReg s f.p 1 f.d (intW 0) id))) ∧
    (∀ l o, s.ltr.lighters = [(l, { orders := [o] })] → o.w 4 = h.val → o.started = false → o.src = [] → o.waits = false → resultOpen s o = true → (o.w 6).toNat / 2 ^ 23 = 2 ^ 37 → (o.w 6).toNat % 32 = 0 →
      (∀ i, orderEntry s o = some i → Table.get none s.serves i = none) →
      exec (.lstop f) s = .next (ran (rrrWord f 0x19 1) 0 s f.p (setsReg (orderEnded s l o [] 1 0) f.p 1 f.d (intW 1) id))) ∧
    (∀ i, names s h i = true → exec (.lfree f) s = .next (ran (rrrWord f 0x19 2) 0 s f.p (answers
      { s with bays := s.bays.filter (fun b => !(b.2.dest && decide (b.1 % 2 ^ 31 / 4096 = i))) } f 0))) ∧
    (h.val.extractLsb' 48 16 ≠ s.hbr.num → exec (.lfree f) s = .next (ran (rrrWord f 0x19 2) 0 s f.p (answers s f 4)))) ∧
  (∀ (s : State) (l : Nat) (o : Order) (more : List Order) (src dst : BitVec 128),
    Sound s = true → l < s.blk.build.lighters → (lighterOf s l).orders = o :: more → plainOrder o = true → quietOrder s o = true →
    let sa := src.extractLsb' 0 64
    let n := (src.extractLsb' 64 32).toNat
    let da := (dst.extractLsb' 0 64).toNat
    let fits := src.extractLsb' 96 32 = 0 ∧ dst.extractLsb' 96 32 = 0x20000000 ∧ 0 < n ∧ n ≤ 4096 ∧
      (dst.extractLsb' 64 32).toNat = n ∧ sa.toNat + n ≤ 2 ^ 64 ∧ da < 2 ^ 44 ∧ da % 2 ^ 43 / 2 ^ 24 = ((o.w 4).extractLsb' 29 19).toNat
    (o.started = false →
      (fits → exec (.lighterOrderStart l false [src] [dst]) s = .next (emit
        (planeAsk (setLighter s l { lighterOf s l with
          orders := { o with started := true, src := [src], dst := [dst], inv := 0, gen := (keyOf s o.keyh).gen } :: more }) l)
        (.hostRead 0 (2 + l % 6) none sa n))) ∧
      (orderEntry s o = none → exec (.lighterOrderStart l true [src] [dst]) s = .next (orderEnded s l o more 2 0)) ∧
      (orderEntry s o = none → src.extractLsb' 64 32 = 0 →
        exec (.lighterOrderStart l false [src] [dst]) s = .next (orderEnded s l o more 3 0))) ∧
    (∀ bs : List Byte, o.started = true → o.src = [src] → o.dst = [dst] → fits → bs.length = n →
      let mv : LMove := { hostErr := false, host := bs, engine := [], tags := [], authFail := none, notHeld := none, pathLost := false, waits := [] }
      let need := (unboundIn s da n).length
      (boundDest s + need ≤ destBays s → boundBays s + need ≤ s.blk.build.bays →
        exec (.lighterOrderComplete l mv) s = .next (orderEnded (putStage s true da bs) l o more 0 n)) ∧
      (0 < need → destBays s < boundDest s + need ∨ s.blk.build.bays < boundBays s + need → exec (.lighterOrderComplete l mv) s = .next s)))

/-- R235, R236, R238, R239, R277, R278: what a port's writes and reads of the dock window do: staging, its bays, and the
computed PRP lists.

R253, R255, R256, R277, R279, R280: the cellar: device accesses to the queues of an enabled pair, a starved bank, and the
owner of a bank with its wipe. -/
def Obligations.DockAndCellar : Prop :=
  (∀ (s : State) (dba : BitVec 48) (data : List Byte),
    let r : BitVec 4 := dba.extractLsb' 44 4
    let a := dba.toNat % 2 ^ 44
    let i := dba.toNat / 2 ^ 24 % 2 ^ 19
    let need := (unboundIn s a data.length).length
    (r = 1 → s.ltr.held = [] → data ≠ [] →
      ((own s i).st = 3 → boundBays s + need ≤ s.blk.build.bays → exec (.stagingWrite dba data) s = .next (putStage s false a data)) ∧
      ((own s i).st = 3 → s.blk.build.bays < boundBays s + need → exec (.stagingWrite dba data) s =
        .next { s with ltr := { s.ltr with baywait := true, held := [⟨dba, data⟩] } }) ∧
      ((own s i).st ≠ 3 → exec (.stagingWrite dba data) s =
        .next { s with ltr := { s.ltr with stray := true, straycnt := satInc s.ltr.straycnt } })) ∧
    (r = 1 → s.ltr.held ≠ [] → exec (.stagingWrite dba data) s =
      .next { s with ltr := { s.ltr with held := s.ltr.held ++ [⟨dba, data⟩] } }) ∧
    (r = 0 ∨ r = 3 ∨ r = 2 ∧ dba.toNat % 8 = 0 → exec (.stagingWrite dba data) s = .next s) ∧
    (3 < r.toNat ∨ r = 2 ∧ dba.toNat % 8 ≠ 0 → exec (.stagingWrite dba data) s = .next { s with dock := { s.dock with baddba := true } }) ∧
    (s.ltr.held = [] → exec .baywaitResume s = .next s) ∧
    (s.ltr.held = [⟨dba, data⟩] → data ≠ [] → (own s i).st = 3 →
      (boundBays s + need ≤ s.blk.build.bays → exec .baywaitResume s = .next (putStage { s with ltr := { s.ltr with held := [] } } false a data)) ∧
      (s.blk.build.bays < boundBays s + need → exec .baywaitResume s = .next s))) ∧
  (∀ (s : State) (a : Nat) (data : List Byte) (d : Bool),
    getStage (putStage s d a data) a data.length = data) ∧
  (∀ (s : State) (port len : Nat) (dba : BitVec 48),
    let r : BitVec 4 := dba.extractLsb' 44 4
    let a := dba.toNat % 2 ^ 44
    let held := (pagesOf a len).all (fun k => (bayOf s k).bound) = true
    let page := dba.toNat / 4096 % 4096 + 1 + dba.toNat / 8 % 512
    (r = 1 → held → exec (.stagingRead port dba len) s = .next (emit s (.dockReply port true (getStage s a len)))) ∧
    (r = 1 → ¬ held → exec (.stagingRead port dba len) s =
      .next (emit { s with ltr := { s.ltr with unladen := true } } (.dockReply port false []))) ∧
    (r = 3 → exec (.stagingRead port dba len) s = .next (emit s (.dockReply port true (List.replicate len 0)))) ∧
    (r = 2 → dba.toNat % 8 = 0 → exec (.prpListRead port dba) s = .next (emit s (.dockReply port true (qBytes
      (if 4095 < page then 0 else BitVec.ofNat 64 (2 ^ 44 + dba.toNat / 2 ^ 24 % 2 ^ 20 * 2 ^ 24 + page * 4096)))))) ∧
    (r ≠ 2 ∨ dba.toNat % 8 ≠ 0 → exec (.prpListRead port dba) s =
      .next (emit { s with dock := { s.dock with baddba := true } } (.dockReply port false [])))) ∧
  (∀ (s : State) (c q : Nat) (x : Dq) (dba : BitVec 48) (data : List W64), s.dqs = [(q, x)] → x.en = true → x.ctl.toNat = c →
    data ≠ [] →
    let a := dba.toNat
    let n := 8 * data.length
    let inSq := x.sqbase.toNat * 4096 ≤ a ∧ a + n ≤ x.sqbase.toNat * 4096 + 64 * 2 ^ x.sqlog.toNat
    let inCq := x.cqbase.toNat * 4096 ≤ a ∧ a + n ≤ x.cqbase.toNat * 4096 + 16 * 2 ^ x.cqlog.toNat
    let port := (ctlOf s c).dport.toNat
    let words : List TWord := data.map (fun v => ⟨v, 2⟩)
    let put : State := { s with cellar := Table.putList emptyW s.cellar (a / 8) words }
    (a < s.blk.build.cellar → (ctlOf s c).restart = false → inSq → exec (.cellarDeviceAccess c dba true data) s = .next put) ∧
    (a < s.blk.build.cellar → (ctlOf s c).restart = false → inCq → ¬ inSq →
      exec (.cellarDeviceAccess c dba true data) s = .next (raise put (0x400 + q))) ∧
    (a < s.blk.build.cellar → inSq ∨ inCq → exec (.cellarDeviceAccess c dba false data) s =
      .next (emit s (.dockReply port true (qsBytes ((Table.getList emptyW s.cellar (a / 8) data.length).map (fun w => w.val)))))) ∧
    (a < s.blk.build.cellar → ¬ inSq → ¬ inCq → exec (.cellarDeviceAccess c dba true data) s =
      .next { s with dock := { s.dock with qacc := true } }) ∧
    (s.blk.build.cellar ≤ a → exec (.cellarDeviceAccess c dba true data) s = .next { s with dock := { s.dock with baddba := true } })) ∧
  (∀ (s : State) (b : Nat), b < s.blk.build.banks →
    (exec (.cellarStarve b) s = .next (raise { s with ltr := { s.ltr with
      starve := true, conf := Table.upd 0 s.ltr.conf b (fun c => satAdd c 1024) } } 6)) ∧
    (∀ (rq : Requester) (v : W32), rq ≠ .ctl → sealRights s rq = true → s.blk.build.handsOver = true →
      let o := bankOwner s b
      (o = 1 → v.setWidth 2 = (0 : BitVec 2) → exec (.celOwnWrite rq b v) s = .next { s with celOwn := Table.put 0 s.celOwn b 2 }) ∧
      (o = 0 → v.setWidth 2 = (1 : BitVec 2) → exec (.celOwnWrite rq b v) s = .next { s with celOwn := Table.put 0 s.celOwn b 1 }) ∧
      ((o = 1 → v.setWidth 2 ≠ (0 : BitVec 2)) → (o = 0 → v.setWidth 2 ≠ (1 : BitVec 2)) →
        exec (.celOwnWrite rq b v) s = .next { s with ltr := { s.ltr with hbusy := true } })) ∧
    (∀ (rq : Requester) (v : W32), rq ≠ .ctl → sealRights s rq = false ∨ s.blk.build.handsOver = false → exec (.celOwnWrite rq b v) s = .next s) ∧
    (bankOwner s b = 2 → ∃ t, exec (.bankWipeDone b) s = .next t ∧ t.celOwn = Table.put 0 s.celOwn b 0 ∧
      (∀ k, k / 32768 = b → Table.get emptyW t.cellar k = emptyW) ∧
      (∀ k, k / 32768 ≠ b → Table.get emptyW t.cellar k = Table.get emptyW s.cellar k)) ∧
    (bankOwner s b ≠ 2 → exec (.bankWipeDone b) s = .next s))

/-- R54, R263, R264, R266, R270, R537: the keys of the cipher port: enabling one, a new generation, and an alarm. -/
def Obligations.CipherKeys : Prop :=
  (∀ (s : State) (rq : Requester) (h : Nat) (v : W64), Sound s = true → rq ≠ .ctl → sealRights s rq = true → h < 4096 →
    let k := keyOf s h
    (v.getLsbD 36 = true → k.en = false → k.requested = false →
      exec (.keyEnable rq h v) s = .next (emit (setKey s h { k with en := true, requested := true }) (.cipherKey h))) ∧
    (v.getLsbD 36 = true → k.en = true ∨ k.requested = true → exec (.keyEnable rq h v) s = .next (setKey s h { k with en := true })) ∧
    (v.getLsbD 36 = false → exec (.keyEnable rq h v) s = .next (setKey s h { k with en := false }))) ∧
  (∀ (s : State) (h : Nat), Sound s = true → h < 4096 → s.xc = [] →
    let k := keyOf s h
    (k.en = true → k.requested = true → k.gen ≠ 0xFFFFFF → k.st = 0 ∨ k.st = 4 → exec (.generationInstalled h) s = .next (raise
      { s with ltr := { s.ltr with
        ready := true, keys := Table.put {} s.ltr.keys h { k with gen := k.gen + 1, use := 0, st := 1, requested := false } } } 7)) ∧
    (k.en = true → k.requested = true → k.gen ≠ 0xFFFFFF → k.st ≠ 0 → k.st ≠ 4 → ∃ t, exec (.generationInstalled h) s = .next t ∧
      keyOf t h = { k with gen := k.gen + 1, use := 0, st := 1, requested := false } ∧
      (Table.get {} t.hm.acct h).total = (Table.get {} s.hm.acct h).total + k.use.setWidth 64 ∧
      (Table.get {} t.hm.acct h).rekeys = (Table.get {} s.hm.acct h).rekeys + 1) ∧
    (k.en = false ∨ k.requested = false → exec (.generationInstalled h) s = .next s)) ∧
  (∀ (s : State) (h : Nat) (k : CKey), s.ltr.keys = [(h, k)] → k.en = true → s.ltr.lighters = [] →
    ∃ t, exec .cipherAlarm s = .next t ∧ t.ltr.alarm = true ∧ t.ltr.ready = (Config.freeWord s.freeCtr).getLsbD 0 ∧ keyOf t h = { k with st := 4, requested := true })

/-- R274 to R276, R286, R288: starting a controller, a step that fails, the probes that prove a slot 0 and find it lost, and
the reading of its health log.

R89, R285, R286, R289, R584: a berth is written while CLOSED, opens with a slot that is UP, and its namespace and its path
slots. -/
def Obligations.DockControllers : Prop :=
  (∀ (s : State) (c : Nat) (i : CtlInfo), Sound s = true → c < s.blk.build.ctls → s.blk.mode ≠ 7 → (ctlOf s c).en = true →
    (ctlOf s c).state ≠ 2 →
    let x := ctlOf s c
    let fit := i.cssNvm = true ∧ i.mpsmin = 0 ∧ 63 ≤ i.mqes.toNat
    let ready : Ctl := { x with
      state := 2, nioq := if i.nioq < 256 then BitVec.ofNat 8 i.nioq else 255, mdts := i.mdts, cntlid := i.cntlid
      dstrd := i.dstrd, crdt1 := i.crdt1, crdt2 := i.crdt2, crdt3 := i.crdt3, oncs := i.oncs, fuses := i.fuses
      cmic := i.cmic, spaces := i.spaces, pst := if x.restart then 1 else 0, good := 0, missed := 0, restart := false }
    let is : Ctl → Ctl → Prop := fun u v => { u with atail := 0 } = { v with atail := 0 }
    (¬ fit → ∃ t, exec (.controllerStart c i) s = .next t ∧ is (ctlOf t c) { x with state := 3, dstrd := i.dstrd }) ∧
    (fit → i.failStep ≠ none → ∃ t, exec (.controllerStart c i) s = .next t ∧ is (ctlOf t c) { x with state := 3, dstrd := i.dstrd }) ∧
    (fit → i.failStep = none → s.dqs = [] → ∃ t, exec (.controllerStart c i) s = .next t ∧ is (ctlOf t c) ready) ∧
    (∀ q y, fit → i.failStep = none → s.dqs = [(q, y)] → y.en = true → y.ctl.toNat = c →
      4 ≤ y.sqlog.toNat → y.sqlog.toNat ≤ 12 → 2 ^ y.sqlog.toNat ≤ i.mqes.toNat + 1 →
      4 ≤ y.cqlog.toNat → y.cqlog.toNat ≤ 12 → 2 ^ y.cqlog.toNat ≤ i.mqes.toNat + 1 →
      s.resvs = [] → s.tw.resvq = [] →
      ∃ t, exec (.controllerStart c i) s = .next t ∧ is (ctlOf t c) ready ∧
        dqOf t q = { y with qid := if y.sealedQ then 1 else 2, outst := 0, sqtail := 0, cqhead := 0, phase := true }) ∧
    (∀ step, ∃ t, exec (.controllerStepTimeout c step) s = .next t ∧ is (ctlOf t c) { x with state := 3 })) ∧
  (∀ (s : State) (c : Nat) (answered rdy cfs : Bool), Sound s = true → c < s.blk.build.ctls → (ctlOf s c).state = 2 → s.fstop = false →
    let x := ctlOf s c
    let now := s.tide.count
    let good := answered = true ∧ rdy = true ∧ cfs = false
    let probed : Ctl → Prop := fun y => ∃ t, exec (.dockProbe c answered rdy cfs) s = .next t ∧ ctlOf t c = y
    (answered = true → cfs = true → probed { x with pst := 3, good := 0, missed := 0, state := 1, restart := true }) ∧
    (good → x.pst = 0 → x.restart = false → probed { x with missed := 0, lastGood := now, pst := 1, good := 1 }) ∧
    (good → x.pst = 0 → x.restart = true → probed { x with missed := 0, lastGood := now, state := 1, good := 0 }) ∧
    (good → x.pst = 1 → x.good.toNat < 2 → probed { x with missed := 0, lastGood := now, good := x.good + 1 }) ∧
    (good → x.pst = 1 → x.good = 2 → probed { x with missed := 0, lastGood := now, pst := 2, good := 3 }) ∧
    (good → 2 ≤ x.pst.toNat → probed { x with missed := 0, lastGood := now }) ∧
    (answered = false ∨ (rdy = false ∧ cfs = false) → x.missed.toNat < 2 → probed { x with good := 0, missed := x.missed + 1 }) ∧
    (answered = false ∨ (rdy = false ∧ cfs = false) → 2 ≤ x.missed.toNat → x.pst = 1 ∨ x.pst = 2 →
      probed { x with good := 0, missed := 3, pst := 0, downs := satInc x.downs, restart := true })) ∧
  (∀ (s : State) (c : Nat) (warn : BitVec 8),
    let x := ctlOf s c
    let asked := doorbell (doorbell (emit (setCtl s c { x with atail := x.atail + 1 }) (.admin c 2 2 0 0 none [])) c 0 0
      (x.atail + 1).toNat) c 0 1 (x.atail + 1).toNat
    (c < s.blk.build.ctls → (ctlOf s c).state = 2 → exec (.smartLogRead c warn) s = .next
      (if warn = 0 then asked else hmLog asked 0x402 (BitVec.ofNat 64 c) (warn.setWidth 64))) ∧
    ((ctlOf s c).state ≠ 2 → exec (.smartLogRead c warn) s = .next s)) ∧
  (∀ (s : State) (rq : Requester) (b : Nat) (v : W64), Sound s = true → rq ≠ .ctl → b < s.blk.build.berths →
    let x := berth s b
    let rights := sealRights s rq
    let y : Berth := { x with group := v.extractLsb' 36 12, resv := v.setWidth 20 }
    let z : Berth := if rights then { y with lbsz := v.getLsbD 35, policy := v.getLsbD 61, ce := v.getLsbD 60, keyh := v.extractLsb' 48 12 }
                     else { y with lbsz := v.getLsbD 35 }
    let sum := poolSum s.wm s.sres (setBerth s b y).berths
    sum ≤ s.blk.build.entries →
    (x.state = 0 → v.toNat / 2 ^ 62 = 0 → ∃ t, exec (.berthStateWrite rq b v) s = .next t ∧
      berth t b = { z with fenceLost := false }) ∧
    (x.state = 0 → v.toNat / 2 ^ 62 = 2 → ∃ t, exec (.berthStateWrite rq b v) s = .next t ∧
      berth t b = { z with state := 2, fenceLost := false }) ∧
    (x.state = 0 → v.toNat / 2 ^ 62 = 1 → openRefused s z = false →
      let o : Berth := { z with state := 1, fenceLost := false, quiesced := false }
      slotUp s o 0 = true → ∃ t, exec (.berthStateWrite rq b v) s = .next t ∧ berth t b = o) ∧
    (x.state = 0 → v.toNat / 2 ^ 62 = 1 → openRefused s z = true →
      ∃ t, exec (.berthStateWrite rq b v) s = .next t ∧ berth t b = z) ∧
    (x.state = 2 → v.toNat / 2 ^ 62 = 0 → ∃ t, exec (.berthStateWrite rq b v) s = .next t ∧
      berth t b = { y with state := 0, fenceLost := false })) ∧
  (∀ (s : State) (rq : Requester) (b : Nat) (v : W64), Sound s = true → rq ≠ .ctl → b < s.blk.build.berths →
    s.blk.build.entries < poolSum s.wm s.sres (setBerth s b { berth s b with resv := v.setWidth 20 }).berths →
    ∃ t, exec (.berthStateWrite rq b v) s = .next t ∧ t.resvRefused = true ∧ (berth t b).resv = (berth s b).resv) ∧
  (∀ (s : State) (rq : Requester) (b : Nat) (v : W64), rq ≠ .ctl → b < s.blk.build.berths →
    let x := berth s b
    let lo : W64 := x.nguid.setWidth 64
    let hi : W64 := x.nguid.extractLsb' 64 64
    (x.state = 0 → exec (.berthNguidWrite rq b true v) s = .next (setBerth s b { x with nguid := v ++ lo }) ∧
      exec (.berthNguidWrite rq b false v) s = .next (setBerth s b { x with nguid := hi ++ v })) ∧
    (x.state ≠ 0 → ∀ half, exec (.berthNguidWrite rq b half v) s = .next s)) ∧
  (∀ (s : State) (rq : Requester) (b k : Nat) (v : W64), Sound s = true → rq ≠ .ctl → b < s.blk.build.berths → k < 4 →
    let x := berth s b
    let w := x.slot k
    let on := v.getLsbD 63
    let aimed : Slot := { w with tgt := v.extractLsb' 55 6, sberth := if k = 0 then 0 else v.setWidth 16 }
    let set : Slot → Slot := fun y => { y with v := on, pst := if on then 0 else y.pst, unlisted := y.unlisted && !on, wentDown := y.wentDown && !on }
    let fell : Slot → Bool := fun y =>
      y.v && w.v && decide (slotState s x k ≠ 0) && decide (slotState s (x.setSlot k y) k = 0)
    let counted : Slot → Slot := fun y => { y with losses := if fell y then satInc y.losses else y.losses }
    let wrote : Slot → Prop := fun y => ∃ t, exec (.slotValidWrite rq b k v) s = .next t ∧ (berth t b).slot k = counted y
    (x.state = 0 → k ≠ 1 ∨ on = false ∨ shareable s x = true → slotUp s x k = false → wrote (set aimed)) ∧
    (x.state = 0 → k = 1 → on = true → shareable s x = false → wrote aimed) ∧
    (x.state ≠ 0 → k ≠ 1 ∨ on = false ∨ shareable s x = true → slotUp s x k = false → wrote (set w)))

/-- R183, R280 to R283, R290 to R292, R296, R297, R301: the completions of device commands, the retries of them, a command
that takes too long, a queue that is reset, and the waits for a path and for the settling of a fenced command. -/
def Obligations.DeviceCommands : Prop :=
  (∀ (s : State) (q : Nat) (cid : BitVec 16) (d : BitVec 15), Sound s = true → q < s.blk.build.queues → (dqOf s q).en = true →
    (ctlOf s (dqOf s q).ctl.toNat).restart = false → d.getLsbD 13 = false →
    s.tw.resvq = [] →
    let y := dqOf s q
    let key := q * 65536 + cid.toNat
    let head : BitVec 16 := BitVec.ofNat 16 ((y.cqhead.toNat + 1) % 2 ^ y.cqlog.toNat)
    (dcmdOf s key = none → Table.get none s.resvs key = none → exec (.deviceCompletion q cid d) s = .next
      (doorbell (setDq (raise s (0x400 + q)) q { y with cqhead := head, phase := if head = 0 then !y.phase else y.phase })
        y.ctl.toNat y.qid.toNat 1 head.toNat)) ∧
    (∀ c wx, dcmdOf s key = some c → c.wait = .device → c.kind = .part 0 → frozen s = false → liveCmd s c = true →
      isMutCmd s c = false → (xctx s c.idx).cur = some wx → cmdsOf s c.idx (fun x => decide (x.wait = .partner)) = [] →
      let tail := fun (t : State) => (dqOf t q).cqhead = head ∧ (dqOf t q).outst = (if y.outst = 0 then 0 else y.outst - 1)
      (d = 0 → s.dcmds = [(key, some c)] → wx.w.op = 1 → wx.done = [] → wx.outCmds = 1 → wx.issued = 1 →
        2 ≤ partsOf s (berthOf s c.idx) wx →
        ∃ t, exec (.deviceCompletion q cid d) s = .next t ∧ tail t ∧ t.dcmds = [] ∧ (own t c.idx).path = BitVec.ofNat 2 c.slot ∧
          (xctx t c.idx).cur = some { wx with done := [(0, partBytes s (berthOf s c.idx) wx 0, 0)], outCmds := 0 }) ∧
      (d = 0x04 ∨ d = 0x06 ∨ d = 0x82 → c.tries < 2 → ∃ t, exec (.deviceCompletion q cid d) s = .next t ∧ tail t ∧
        dcmdOf t key = some { c with tries := c.tries + 1, wait := .retry, excl := none, lost := s.tide.count }) ∧
      (d = 0x07 ∨ d = 0x08 → ∃ t, exec (.deviceCompletion q cid d) s = .next t ∧ tail t ∧
        dcmdOf t key = some { c with wait := .slot, excl := none, lost := s.tide.count }) ∧
      (d.extractLsb' 8 3 = (3 : BitVec 3) → ∃ t, exec (.deviceCompletion q cid d) s = .next t ∧ tail t ∧
        dcmdOf t key = some { c with wait := .slot, excl := some c.slot, lost := s.tide.count }))) ∧
  (∀ (s : State) (q : Nat) (cid : BitVec 16) (c : DCmd) (wx : WordX), Sound s = true → q < s.blk.build.queues → frozen s = false →
    let y := dqOf s q
    let key := q * 65536 + cid.toNat
    let fresh := fun (t : State) => dqOf t q = { y with outst := 0, sqtail := 0, cqhead := 0, phase := true }
    (dcmdOf s key = none → Table.get none s.resvs key = none →
      exec (.commandTimeout q ⟨cid, .cto⟩) s = .next s ∧ exec (.commandTimeout q ⟨cid, .recovery⟩) s = .next s) ∧
    (q < s.blk.build.ctls → (ctlOf s q).state = 2 →
      let x := ctlOf s q
      ∃ t, exec (.commandTimeout q ⟨cid, .admin⟩) s = .next t ∧ ctlOf t q = { x with
        state := 1, pst := 0, good := 0, missed := 0, restart := true
        downs := if x.pst = 1 ∨ x.pst = 2 then satInc x.downs else x.downs }) ∧
    (s.resvs = [] → s.tw.resvq = [] → s.dcmds = [(key, some c)] → c.wait = .device → c.kind = .part 0 → liveCmd s c = true → isMutCmd s c = false →
      (xctx s c.idx).cur = some wx →
      (c.expired = false → ∃ t, exec (.commandTimeout q ⟨cid, .cto⟩) s = .next t ∧ fresh t ∧
        dcmdOf t key = some { c with expired := true, wait := .slot, excl := none, lost := s.tide.count }) ∧
      (∃ t, exec (.commandTimeout q ⟨cid, .recovery⟩) s = .next t ∧ fresh t ∧
        dcmdOf t key = some { c with wait := .slot, excl := none, lost := s.tide.count }) ∧
      (c.expired = true → wx.w.op = 1 → wx.outCmds = 1 → wx.issued = 1 → wx.done = [] → wx.cto = [] →
        ∃ t, exec (.commandTimeout q ⟨cid, .cto⟩) s = .next t ∧ fresh t ∧ t.dcmds = [] ∧
        (own t c.idx).status = 0x32 ∧ (xctx t c.idx).ended = true))) ∧
  (∀ (s : State) (c q : Nat) (y : Dq), Sound s = true → c < s.blk.build.ctls → frozen s = false → s.dqs = [(q, y)] → s.dcmds = [] → s.resvs = [] → s.tw.resvq = [] →
    (y.en = true → y.ctl.toNat = c → ∃ t, exec (.pcieError c) s = .next t ∧
      dqOf t q = { y with outst := 0, sqtail := 0, cqhead := 0, phase := true }) ∧
    (y.en = false ∨ y.ctl.toNat ≠ c → exec (.pcieError c) s = .next s)) ∧
  (∀ (s : State) (i : Nat), frozen s = false →
    let waits := fun (w : CmdWait) => cmdsOf s i (fun c => decide (c.wait = w))
    (waits .retry = [] → exec (.retryDelayExpiry i) s = .next s) ∧
    (∀ k c p lane body, waits .retry = [(k, c)] → c.idx = i → c.frame = some (p, lane, body) → 2 ^ 26 ≤ k →
      (xctx s i).tkoWait = false →
      let b := (own s i).berth.toNat
      let x := berth s b
      exec (.retryDelayExpiry i) s = .next (laneSend (setDcmd (setBerth s b (x.setSlot c.slot
        { x.slot c.slot with outst := (x.slot c.slot).outst + 1 })) k (some { c with wait := .device })) p lane.toNat 6 body)) ∧
    (∀ k c wx, (own s i).srv = false → waits .slot = [(k, c)] → c.kind = .part 0 → (xctx s i).cur = some wx →
      (anyUp s (berthOf s i) c.excl = true → exec (.npwaitExpiry i) s = .next s) ∧
      (anyUp s (berthOf s i) c.excl = false → wx.done = [] → s.dcmds = [(k, some c)] → ∃ t, exec (.npwaitExpiry i) s = .next t ∧
        t.dcmds = [] ∧ own t i = { own s i with
          lastw := BitVec.ofNat 12 wx.idx, status := 0x33, dsv := false, dstat := 0, held := false
          residHeld := BitVec.ofNat 32 (if wx.w.residual then wx.w.count.toNat else 0) } ∧ (xctx t i).ended = true)) ∧
    ((xctx s i).preMut = none → ∀ r w, exec (.psettleExpiry i r w) s = .next s) ∧
    (∀ p, (xctx s i).preMut = some p → (xctx s i).resolve = true → (xctx s i).tkoWait = false → fencedNs s i = true →
      ∃ t, exec (.psettleExpiry i none none) s = .next t ∧ t.hbr.fundet = satInc s.hbr.fundet ∧
        (own t i).status = 0x35 ∧ (own t i).xfer = 0 ∧ (xctx t i).ended = true ∧ (xctx t i).resolve = false))

/-- R465, R485, R486, R498, R500, R533, R581: the resets, what a warm reset keeps, and the end of the Harbourmaster's memory
test.

R486, R487, R490 to R494, R500, R506: the load of a charter slot: its headers, its payload, and what a slot that fails
leaves. -/
def Obligations.ResetsAndCharter : Prop :=
  (∀ (s : State),
    let cleared : State → Prop := fun t => t.blk = { build := s.blk.build } ∧ t.pilots = resetPilots s.blk.build ∧ t.rings = [] ∧ t.own = [] ∧ t.mirror = [] ∧
      t.berths = [] ∧ t.paths = [] ∧ t.cellar = [] ∧ t.hmmem = [] ∧ t.cask = [] ∧ t.code = [] ∧ t.evc = {} ∧ t.hm.pages = s.hm.pages ∧
      t.hm.lc = s.hm.lc ∧ t.hm.tamper = s.hm.tamper ∧ t.boot.key = false ∧ t.hbr = {}
    (∃ t, exec .porAssert s = .next t ∧ cleared t ∧ t.boot = {} ∧ t.tide = {} ∧ t.hm.svn = 0) ∧
    (s.boot.porHeld = false → ∃ t, exec .warmReset s = .next t ∧ cleared t ∧ t.tide = { s.tide with unsync := true } ∧
      t.hm.svn = s.hm.svn ∧ t.boot = { pick := s.boot.pick, maint := s.boot.maint, porHeld := false }) ∧
    (s.boot.porHeld = true → exec .warmReset s = .next s) ∧
    (∀ lc tamper, s.boot.porHeld = true → exec (.porRelease lc tamper) s = .next
      { s with boot := { s.boot with porHeld := false }, hm := { s.hm with lc := lc, tamper := tamper } }) ∧
    (∀ lc tamper, s.boot.porHeld = false → exec (.porRelease lc tamper) s = .next s)) ∧
  (∀ (s : State) (ok octal : Bool), s.blk.mode = 0 → s.boot.porHeld = false →
    let run := exec (.harbourmasterMemoryTestEnd ok octal) s
    let held : BitVec 8 → Prop := fun c => ∃ t, run = .next t ∧ t.blk = { s.blk with mode := 7, dlevel := 0 } ∧
      t.boot = { s.boot with slow := !octal, mcause := c, loading := none }
    (s.hm.lc = 3 → held 3) ∧
    (s.hm.lc ≠ 3 → s.hm.tamper = true → held 4) ∧
    (s.hm.lc ≠ 3 → s.hm.tamper = false → ok = false → held 6) ∧
    (s.hm.lc ≠ 3 → s.hm.tamper = false → ok = true → s.boot.maint = true → held 2) ∧
    (s.hm.lc ≠ 3 → s.hm.tamper = false → ok = true → s.boot.maint = false → ∃ t, run = .next t ∧
      t.blk = { s.blk with mode := 1, dlevel := 0 } ∧ t.boot = { s.boot with slow := !octal, keyWait := true })) ∧
  (∀ (s : State), s.blk.mode ≠ 0 ∨ s.boot.porHeld = true →
    ∀ ok octal, exec (.harbourmasterMemoryTestEnd ok octal) s = .next s) ∧
  (∀ (s : State),
    (s.boot.keyWait = true → exec .keyValid s = .next { s with boot := { s.boot with keyWait := false, keyAck := true, key := true } }) ∧
    (s.boot.keyWait = false → exec .keyValid s = .next s) ∧
    exec .keyWaitTimeout s = .next { s with boot := { s.boot with keyWait := false } } ∧
    (∀ ok, s.boot.porHeld = false → s.boot.phase1 = false →
      exec (.sramPhase1End ok) s = .next { s with boot := { s.boot with phase1 := true, sramBad := !ok } }) ∧
    (∀ ok, s.boot.porHeld = true ∨ s.boot.phase1 = true → exec (.sramPhase1End ok) s = .next s)) ∧
  (∀ (s : State) (b : Bool) (h : SlotHdr), s.blk.mode = 1 → s.boot.keyWait = false → s.boot.loading = none → b ∉ s.boot.tried →
    (s.boot.pick = 1 → b = false) → (s.boot.pick = 2 → b = true) →
    let failed : BitVec 8 → Prop := fun c => ∃ t, exec (.charterSlotLoad b h) s = .next t ∧ t.boot.code = c ∧ t.boot.sect = 0 ∧
      t.boot.fallbk = true ∧ t.boot.loading = none ∧ t.boot.tried = b :: s.boot.tried ∧
      t.blk.mode = (if (!b) ∈ s.boot.tried ∨ s.boot.pick = 1 ∨ s.boot.pick = 2 then 7 else 1) ∧
      t.boot.mcause = (if (!b) ∈ s.boot.tried ∨ s.boot.pick = 1 ∨ s.boot.pick = 2 then 5 else s.boot.mcause)
    let e := h.env
    let read := h.flashErr = false ∧ h.erased = false ∧ h.keyBlockOk = true
    let shaped := e.fmtOk = true ∧ e.plenOk = true ∧ e.kind = 3 ∧ e.cxfmt = 0
    let keyed := e.keyset = 0 ∨ (e.keyset = 1 ∧ h.keySet1 = true)
    let aimed := e.isa = 1 ∧ e.config.toNat < 8 ∧ e.config.getLsbD s.blk.build.imageBit = true
    let signed := e.ecdsaOk = true ∧ (e.mldsaOk = true ∨ s.hm.lc.toNat < 2)
    (h.flashErr = true → failed 0x16) ∧
    (h.flashErr = false → h.erased = true → failed 0x17) ∧
    (h.flashErr = false → h.erased = false → h.keyBlockOk = false → failed 0x10) ∧
    (read → ¬ shaped → failed 0x01) ∧
    (read → shaped → ¬ keyed → failed 0x11) ∧
    (read → shaped → keyed → ¬ aimed → failed 0x02) ∧
    (read → shaped → keyed → aimed → e.svn < s.hm.svn → failed 0x03) ∧
    (read → shaped → keyed → aimed → ¬ e.svn < s.hm.svn → ¬ signed → failed 0x04) ∧
    (read → shaped → keyed → aimed → ¬ e.svn < s.hm.svn → signed → ∃ t, exec (.charterSlotLoad b h) s = .next t ∧
      t.blk = s.blk ∧ t.boot = { s.boot with loading := some h, loadingB := b, keySet1 := h.keySet1 })) ∧
  (∀ (s : State) (h : SlotHdr) (flashErr tagOk digestOk : Bool) (hid : BitVec 32) (num twin : BitVec 16) (role : BitVec 8)
    (rsvOk : Bool), s.blk.mode = 1 → s.boot.loading = some h → s.boot.tried = [] → s.boot.pick = 0 →
    let b := s.boot.loadingB
    let run := exec (.charterPayloadDone flashErr tagOk digestOk [.identity hid num role twin rsvOk, .fin]) s
    let failed : BitVec 8 → Prop := fun c => ∃ t, run = .next t ∧ t.blk = s.blk ∧
      t.boot = { s.boot with code := c, sect := 0, fallbk := true, loading := none, tried := [b] }
    let fair := role.toNat < 3 ∧ rsvOk = true ∧ twin ≠ num ∧ (twin = 0xFFFF ∨ role = 0)
    (s.boot.phase1 = false → run = .next s) ∧
    (s.boot.phase1 = true → flashErr = true → failed 0x16) ∧
    (s.boot.phase1 = true → flashErr = false → s.boot.key = false ∨ tagOk = false → failed 0x05) ∧
    (s.boot.phase1 = true → flashErr = false → s.boot.key = true → tagOk = true →
      (digestOk = false → failed 0x06) ∧
      (digestOk = true → ¬ fair → failed 0x13) ∧
      (digestOk = true → fair → ∃ t, run = .next t ∧ t.blk.mode = 2 ∧ t.hm.svn = h.env.svn ∧
        t.boot = { s.boot with slot := if b then 2 else 1, loading := none } ∧
        t.hbr = { s.hbr with hid := hid, num := num, role := role.setWidth 2 } ∧
        t.tw.charterTwin = twin ∧ t.tw.charterRole = role.setWidth 2))) ∧
  (∀ (s : State), s.boot.loading = none → ∀ f t d l, exec (.charterPayloadDone f t d l) s = .next s)

/-- R112, R496 to R498, R500, R504, R506, R535, R536, R579: the end of Proving, a drained block that was to enter Maintenance,
the tamper response, a change of life cycle, and the loss of the tide reference. -/
def Obligations.ModeEvents : Prop :=
  (∀ (s : State) (ok : Bool),
    let r : ProveRes := { sramOk := ok, sweepFail := [], pilotFail := [], portFail := [] }
    (s.blk.mode ≠ 2 → exec (.provingEnd r) s = .next s) ∧
    (s.blk.mode = 2 → ok = false ∨ s.boot.sramBad = true → ∃ t, exec (.provingEnd r) s = .next t ∧ t.blk.mode = 7 ∧ t.boot.mcause = 6) ∧
    (s.blk.mode = 2 → ok = true → s.boot.sramBad = false → anyRuns s = false →
      ∃ t, exec (.provingEnd r) s = .next t ∧ t.blk.mode = 7 ∧ t.boot.mcause = 7) ∧
    (s.blk.mode = 2 → ok = true → s.boot.sramBad = false → anyRuns s = true → ∃ t, exec (.provingEnd r) s = .next t ∧
      t.blk.mode = 3 ∧ t.boot.svct = s.tide.count.setWidth 32 ∧ t.own = [] ∧ t.mirror = [] ∧ t.moor = [] ∧
      ∀ c, c < s.blk.build.clusters → (csrcOf t c).sel = Table.get 0 s.boot.select c)) ∧
  (∀ (s : State), s.hbr.tstate = 0 → s.blk.mode = 3 ∨ s.blk.mode = 6 →
    (s.tw.maintWait = true → (∀ e, e ∈ s.own → e.2.st = 0) → (∀ e, e ∈ s.rings → e.2.decw = 0) →
      ∃ t, exec .maintenanceDrained s = .next t ∧ t.blk.mode = 7 ∧ t.boot.mcause = 1 ∧ t.tw.maintWait = false ∧
        (∀ e, e ∈ t.rings → e.2.en = false) ∧ (∀ e, e ∈ t.csrc → e.2.sel = 0)) ∧
    (s.tw.maintWait = false → exec .maintenanceDrained s = .next s)) ∧
  (∀ (s : State), s.boot.porHeld = false → s.blk.mode ≠ 4 → s.hm.session = none →
    let wiped : State → Prop := fun t => t.vbank = [] ∧ t.boot.key = false ∧ t.hm.committed = none ∧
      (∀ k, 0x20000 ≤ k → k < 0x28000 → Table.get emptyW t.hmmem k = emptyW) ∧
      (∀ k, bankOwner s (k / 32768) = 1 → Table.get emptyW t.cellar k = emptyW)
    let toMaint : BitVec 8 → State → Prop := fun c t =>
      if s.blk.mode = 0 ∨ s.blk.mode = 7 then t.blk = s.blk else t.blk.mode = 7 ∧ t.boot.mcause = c
    (∃ t, exec .tamper s = .next t ∧ t.hm.tamper = true ∧ wiped t ∧ toMaint 4 t) ∧
    (∀ lc, lc ≠ s.hm.lc → lc = 3 ∨ lc < s.hm.lc → ∃ t, exec (.lifecycleChange lc) s = .next t ∧ t.hm.lc = lc ∧ wiped t ∧
      toMaint (if lc = 3 then 3 else 4) t) ∧
    (∀ lc, s.hm.lc < lc → lc ≠ 3 → exec (.lifecycleChange lc) s = .next
      (hmLog { s with hm := { s.hm with lc := lc } } 0x702 ((s.hm.lc ++ lc).setWidth 64) 0))) ∧
  (∀ (s : State), exec .tideRefLoss s = .next { s with boot := { s.boot with bwdN := true } })

/-- R16, R508, R522, R527 to R529, R580: the sensors' readings, the thermal throttle's steps, and the readings that put the
block into Quarantine or raise the trip.

R84, R103, R161, R205, R461, R509 to R521, R524: the drowse levels: the governor, the dwells, the entry, what may wake the
block, and the end of a wake. -/
def Obligations.PowerAndSensors : Prop :=
  (∀ (s : State), s.boot.porHeld = false → s.hm.restarting = false → s.blk.mode ≠ 4 →
    let v := 750
    let under : Nat → Nat → Bool := fun mv d => decide (mv * 100 < v * (100 - d))
    let beyond : Nat → Nat → Bool := fun mv d => decide (v * (100 + d) < mv * 100)
    (∀ (a : BitVec 11) (p : BitVec 16), exec (.sensorSample [a] [] [p]) s = .next { s with hm := { s.hm with
      temp := Table.put {} s.hm.temp 0 { valid := true, temp := a }, proc := Table.put 0 s.hm.proc 0 p } }) ∧
    (∀ (m : BitVec 12),
      let low := under m.toNat s.hm.vwarn.toNat
      let high := beyond m.toNat s.hm.vwarn.toNat
      let u : State := { s with hm := { s.hm with volt := Table.upd {} s.hm.volt 0 (fun x =>
        { low := x.low || low, high := x.high || high, mv := m }) } }
      exec (.sensorSample [] [m] []) s = .next (if low || high then hmLog u 0x603 0 (m.setWidth 64) else u)) ∧
    (∀ (k : Nat) (a : BitVec 11),
      (4 * (s.hm.tcrit.toNat : Int) ≤ a.toInt → s.blk.mode = 3 ∨ s.blk.mode = 5 →
        ∃ t, exec (.thermalCritical k a) s = .next t ∧ t.blk = { s.blk with mode := 6, dlevel := 0, freeze := false } ∧ t.boot.qcause = 9) ∧
      (a.toInt < 4 * (s.hm.tcrit.toNat : Int) → exec (.thermalCritical k a) s = .next s)) ∧
    (∀ (k : Nat) (m : BitVec 12),
      let out := under m.toNat s.hm.vcrit.toNat || beyond m.toNat s.hm.vcrit.toNat
      (out = true → s.blk.mode = 3 ∨ s.blk.mode = 5 →
        ∃ t, exec (.voltageCritical k m) s = .next t ∧ t.blk = { s.blk with mode := 6, dlevel := 0, freeze := false } ∧ t.boot.qcause = 9) ∧
      (out = false → exec (.voltageCritical k m) s = .next s))) ∧
  (∀ (s : State) (a : BitVec 11), s.boot.porHeld = false → s.hm.restarting = false → s.blk.mode ≠ 4 → s.fstop = false →
    s.hm.temp = [(0, { valid := true, temp := a })] →
    let p := s.pwr
    let step : BitVec 2 → State := fun n => hmLog { s with pwr := { p with tgt := n, step := if p.hold then p.step else n } } 0x601
      ((p.step ++ n).setWidth 64) (BitVec.ofInt 64 a.toInt)
    (p.tgt = 0 → 4 * (p.t1.toNat : Int) ≤ a.toInt → exec (.throttleStep false) s = .next (step 1)) ∧
    (p.tgt = 1 → 4 * (p.t2.toNat : Int) ≤ a.toInt → exec (.throttleStep false) s = .next (step 2)) ∧
    (p.tgt = 2 → a.toInt < 4 * ((p.t2.toNat : Int) - p.hyst.toNat) → exec (.throttleStep true) s = .next (step 1)) ∧
    (p.tgt = 1 → a.toInt < 4 * ((p.t1.toNat : Int) - p.hyst.toNat) → exec (.throttleStep true) s = .next (step 0)) ∧
    (p.tgt = 0 → a.toInt < 4 * (p.t1.toNat : Int) → exec (.throttleStep false) s = .next s)) ∧
  (∀ (s : State), s.blk.mode ≠ 4 → s.pwr.entering = 0 →
    exec .thermalTrip s = .next { s with boot := { s.boot with ttripN := true } }) ∧
  (∀ (s : State), s.fstop = false → s.pwr.waking = false → s.pwr.entering = 0 → s.pwr.nego = false → s.pwr.reqOut = false →
    let lvl := (permitted s).1
    let noted : State := { s with pwr := { s.pwr with
      permit := BitVec.ofNat 2 lvl, bind := (permitted s).2, ltolmin := ltolMin s, run := decide (2 ≤ activityBound s) } }
    (s.blk.mode = 3 → s.blk.dlevel = 0 → 1 ≤ lvl → ∃ t, exec .governorEvaluate s = .next t ∧ t.pwr = noted.pwr ∧
      t.blk = { s.blk with mode := 4, dlevel := 1 } ∧ t.fstop = false) ∧
    (s.blk.mode = 3 → s.blk.dlevel = 0 → lvl = 0 → exec .governorEvaluate s = .next noted ∧ exec .d2DwellExpiry s = .next noted ∧
      exec .d3DwellExpiry s = .next noted) ∧
    (s.blk.mode = 4 → s.blk.dlevel = 1 →
      (lvl = 0 → exec .governorEvaluate s = .next
        { noted with pwr := { noted.pwr with waking := true, wakeCause := 7, wakeTick := s.tide.count, run := false } }) ∧
      (2 ≤ lvl → 2 ≤ activityBound s → exec .d2DwellExpiry s = .next { noted with pwr := { noted.pwr with entering := 2 } }) ∧
      (lvl = 1 → exec .d2DwellExpiry s = .next noted) ∧
      (3 ≤ lvl → 2 ≤ activityBound s → s.paths = [] →
        exec .d3DwellExpiry s = .next { noted with pwr := { noted.pwr with entering := 3 } }) ∧
      (lvl = 2 → 2 ≤ activityBound s → s.hbr.tstate = 2 → s.hbr.pdEn = true → permitsD3 s = true → exec .d3DwellExpiry s = .next
        { noted with pwr := { noted.pwr with nego := true, waking := true, wakeCause := 8, wakeTick := s.tide.count, run := false } }))) ∧
  (∀ (s : State), (s.pwr.reqOut = false → exec .drowseAckTimeout s = .next s) ∧
    (s.pwr.reqOut = true → s.blk.mode ≠ 3 →
      exec .drowseAckTimeout s = .next { s with pwr := { s.pwr with reqOut := false, nego := false } }) ∧
    (s.pwr.waking = false → s.blk.mode = 3 ∨ s.blk.mode = 4 → s.pwr.entering ≠ 0 → ∃ t, exec .drowseLevelEntered s = .next t ∧
      t.blk = { s.blk with mode := 4, dlevel := s.pwr.entering } ∧ t.fstop = true ∧ t.pwr = { s.pwr with entering := 0 }) ∧
    (s.pwr.entering = 0 ∨ s.pwr.waking = true → exec .drowseLevelEntered s = .next s)) ∧
  (∀ (s : State) (lp : Nat) (off : BitVec 28) (data : BitVec 32) (be : BitVec 4),
    let u : State := { s with pwr := { s.pwr with capq := s.pwr.capq ++ [⟨lp, off, data, be, s.tide.count.setWidth 32⟩] } }
    (s.fstop = false → exec (.ringWriteCapture lp off data be) s = .next s) ∧
    (s.fstop = true → lp < s.blk.build.ports → s.pwr.capq.length < 256 → off.toNat % 4096 ≠ 0 ∨ be ≠ 15 ∨ s.pwr.waking = true →
      exec (.ringWriteCapture lp off data be) s = .next u) ∧
    (s.fstop = true → lp < s.blk.build.ports → s.pwr.capq.length < 256 → off.toNat % 4096 = 0 → be = 15 → s.pwr.waking = false → s.blk.mode = 4 →
      exec (.ringWriteCapture lp off data be) s = .next { u with pwr := { u.pwr with
        waking := true, wakeCause := 1, wakeTick := s.tide.count, run := false } })) ∧
  (∀ (s : State) (c : BitVec 4), s.blk.mode = 4 → s.pwr.waking = false →
    let holds := c = 3 ∨ c = 5 ∨ (c = 1 ∧ ∃ w, w ∈ s.pwr.capq ∧ w.off.toNat % 4096 = 0 ∧ w.be = 15) ∨
      (c = 2 ∧ ∃ e, e ∈ s.evc.latch ∧ 0x100 ≤ e.1 ∧ e.1 ≤ 0x1FF) ∨ (c = 4 ∧ ∃ e, e ∈ s.evc.latch ∧ e.1 = 9) ∨
      (c = 6 ∧ (2 ≤ s.tw.miss.toNat ∨ ∃ e, e ∈ s.paths ∧ 2 ≤ e.2.missed.toNat)) ∨ (c = 7 ∧ (permitted s).1 < levelNow s) ∨
      (c = 8 ∧ s.pwr.nego = true) ∨ (c = 9 ∧ (s.hm.tamper = true ∨ s.boot.ttripN = true ∨ s.boot.lateMaint ≠ none))
    (holds → exec (.wakeSource c) s = .next { s with pwr := { s.pwr with
      waking := true, wakeCause := c, wakeTick := s.tide.count, run := false } }) ∧
    (¬ holds → exec (.wakeSource c) s = .next s)) ∧
  (∀ (s : State), (s.pwr.waking = false → exec .wakeComplete s = .next s) ∧
    (s.pwr.waking = true → s.blk.mode = 4 → s.hbr.tstate = 0 → s.pwr.capq = [] → s.evc.latch = [] → s.pwr.nego = false →
      s.boot.lateMaint = none → s.boot.lateQuar = none → ∃ t, exec .wakeComplete s = .next t ∧
        t.blk = { s.blk with mode := 3, dlevel := 0 } ∧ t.fstop = false ∧ t.pwr.waking = false ∧ t.pwr.entering = 0 ∧
        t.pwr.wakeValid = true ∧ t.pwr.wakeCause = s.pwr.wakeCause ∧
        t.pwr.wakeLat.toNat = Nat.min 0xFFFF ((s.tide.count - s.pwr.wakeTick).toNat / 10)) ∧
    (s.pwr.waking = true → s.blk.mode = 4 → s.hbr.tstate = 4 → s.pwr.capq = [] → s.evc.latch = [] → s.pwr.nego = false →
      s.boot.lateMaint = none → s.boot.lateQuar = some 9 → ∃ t, exec .wakeComplete s = .next t ∧
        t.blk = { s.blk with mode := 6, dlevel := 0, freeze := false } ∧ t.boot.qcause = 9)) ∧
  (∀ (s : State), (s.fstop = false ∨ s.blk.dlevel ≠ 2 → exec .heartbeatUnitSend s = .next s) ∧
    (∀ p x, s.fstop = true → s.blk.dlevel = 2 → s.paths = [(p, x)] → x.en = true → x.state ≠ 3 → s.hbr.tstate ≠ 6 →
      (s.tide.count - s.tw.memberAt).toNat < 100000 → exec .heartbeatUnitSend s = .next (sendU s p 2 0 (qBytes
        ((1 : BitVec 8) ++ x.peerEpoch.getD 0 ++ s.blk.mode ++ s.hbr.tstate ++ s.plc.stratum ++ (0 : BitVec 30))))))

/-- R188, R501, R502, R504, R530 to R533, R535, R537: the mailbox's commands that need no image, and a command that comes
while another runs.

R416 to R420, R532 to R534: an image through the mailbox: its session, its data, its commit, a roll-out cluster by
cluster, and a graft. -/
def Obligations.Mailbox : Prop :=
  (∀ (s : State) (m : Mbx), mbIdle s = false →
    exec (.echo m) s = .next { s with hm := { s.hm with arg := Table.putList 0 s.hm.arg 0 [m.a0, m.a1, m.a2, m.a3], ovr := true } }) ∧
  (∀ (s : State) (m : Mbx), mbIdle s = true →
    let fin : BitVec 8 → BitVec 8 → State := fun code st => mbDone s m code st 0
    let pair : State → W64 → W64 → State := fun t a b => { t with hm := { t.hm with res0 := a, res1 := b } }
    exec (.echo m) s = .next (pair (fin 1 0) m.a0 s.hm.res1) ∧
    exec (.bootctl m) s = .next { fin 7 0 with boot := { s.boot with pick := m.a0.extractLsb' 1 2, maint := m.a0.getLsbD 0 } } ∧
    (s.hbr.tstate = 0 → exec (.unpair m) s = .next (fin 8 3)) ∧
    (s.hbr.tstate ≠ 0 → s.blk.mode ≠ 4 → exec (.unpair m) s = .next (updTw (fin 8 0) (fun t => { t with unpairing := true }))) ∧
    (s.blk.mode = 6 ∨ s.blk.mode = 7 → exec (.quarantine m) s = .next (fin 9 3)) ∧
    (s.blk.mode = 3 ∨ s.blk.mode = 5 → ∃ t, exec (.quarantine m) s = .next t ∧ mbShows t m 0 0 ∧
      t.blk = { s.blk with mode := 6, dlevel := 0, freeze := false } ∧ t.boot.qcause = 9) ∧
    (s.blk.mode = 7 → exec (.maintenance m) s = .next (fin 10 3)) ∧
    (s.blk.mode = 3 → s.hbr.tstate = 0 → exec (.maintenance m) s = .next (updTw (fin 10 0) (fun t => { t with maintWait := true }))) ∧
    (s.blk.mode = 3 → s.hbr.tstate ≠ 0 →
      exec (.maintenance m) s = .next (updTw (fin 10 0) (fun t => { t with maintWait := true, unpairing := true }))) ∧
    (s.blk.mode = 6 → s.blk.freeze = true → ∃ t, exec (.maintenance m) s = .next t ∧ mbShows t m 0 0 ∧ t.blk.mode = 7 ∧
      t.boot.mcause = 1 ∧ (∀ i, (own t i).st = 0) ∧ t.xc = [] ∧ t.dcmds = [] ∧ t.bays = []) ∧
    (m.a1 = 0 ∨ 1024 < m.a1.toNat → exec (.logread m) s = .next (fin 11 2)) ∧
    (∀ q a b c d, m.a1 = 1 → m.a0.setWidth 32 = q → logRec s q = some [a, b, c, d] → ∃ t, exec (.logread m) s = .next t ∧
      mbShows t m 0 0 ∧ t.hm.res0 = q.setWidth 64 ∧ t.hm.res1 = 1 ∧
      Table.getList emptyW t.hmmem 0x2C000 4 = [intW a, intW b, intW c, intW d]) ∧
    (let h := m.a0.toNat % 4096
     let acct := Table.get {} s.hm.acct h
     exec (.keyacct m) s = .next (pair (fin 12 0) (acct.total + (keyOf s h).use.setWidth 64)
       ((keyOf s h).gen ++ (0 : BitVec 8) ++ acct.rekeys))) ∧
    (m.a0.setWidth 32 < s.hm.svn → exec (.svnset m) s = .next (fin 13 6)) ∧
    (¬ m.a0.setWidth 32 < s.hm.svn → exec (.svnset m) s = .next { fin 13 0 with hm := { (fin 13 0).hm with svn := m.a0.setWidth 32 } }) ∧
    (s.hm.lc < m.a0.setWidth 2 → ∃ t, exec (.lcadv m) s = .next t ∧ mbShows t m 0 0 ∧ t.hm.lc = s.hm.lc ∧
      t.out = Emit.lcAdvance (m.a0.setWidth 2) :: s.out) ∧
    (¬ s.hm.lc < m.a0.setWidth 2 → exec (.lcadv m) s = .next (fin 14 6))) ∧
  (∀ (s : State),
    (s.hm.uncopied = 0 ∨ s.hm.restarting = true → exec .logPageWrite s = .next s) ∧
    (∀ r, s.hm.uncopied = 1 → s.hm.restarting = false → s.hm.nextPage % 4 ≠ 0 → logRec s (s.hm.seqNext - 1) = some r →
      ∃ t, exec .logPageWrite s = .next t ∧ t.hm.uncopied = 0 ∧ t.hm.nextPage = s.hm.nextPage + 1 ∧
        t.hm.pages = s.hm.pages ++ [⟨s.hm.nextPage, s.hm.seqNext - 1, [r]⟩] ∧ t.out = Emit.flashWrite s.hm.nextPage [r] :: s.out) ∧
    (s.hm.restarting = false → exec .hmRestart s = .next s) ∧
    (s.hm.restarting = true → exec .hmRestart s = .next
      (setPilot { s with hm := { s.hm with restarting := false } } hmNo { pilot s hmNo with inReset := false }))) ∧
  (∀ (s : State) (m : Mbx), mbIdle s = true →
    let fin : BitVec 8 → BitVec 8 → State := fun code st => mbDone s m code st 0
    let k : BitVec 16 := m.a0.setWidth 16
    (k = 1 ∨ k = 2 → m.a1.toNat ≤ 0x40000 → exec (.stageBegin m) s = .next
      { fin 2 0 with hm := { (fin 2 0).hm with session := some ⟨k, m.a1.toNat, 0, []⟩, committed := none } }) ∧
    (k = 3 → m.a1.toNat ≤ 0x800000 → ∃ t, exec (.stageBegin m) s = .next t ∧ mbShows t m 0 0 ∧
      t.hm.session = some ⟨3, m.a1.toNat, 0, []⟩ ∧ t.hm.committed = s.hm.committed ∧
      t.out = Emit.flashSlot (decide (s.boot.slot = 1)) 0 [255, 255, 255, 255] :: s.out) ∧
    (k = 0 ∨ 3 < k.toNat ∨ (k ≠ 3 ∧ 0x40000 < m.a1.toNat) ∨ 0x800000 < m.a1.toNat → exec (.stageBegin m) s = .next (fin 2 2)) ∧
    (s.hm.session = none → exec (.stageData m) s = .next (fin 3 3)) ∧
    (∀ x, s.hm.session = some x →
      let off := m.a0.toNat
      let n := m.a1.toNat
      (n = 0 ∨ 32768 < n ∨ off ≠ x.got ∨ x.len < off + n → exec (.stageData m) s = .next (fin 3 2)) ∧
      (0 < n → n ≤ 32768 → off = x.got → off + n ≤ x.len → x.len ≤ 0x40000 → x.kind ≠ 3 → ∃ t, exec (.stageData m) s = .next t ∧
        mbShows t m 0 0 ∧ t.hm.session = some { x with got := off + n, first := x.first ++ (bufBytes s n).take (4 - off) } ∧
        (∀ j, j < n → hmByte t (0x100000 + off + j) = hmByte s (0x160000 + j)) ∧
        (∀ j, j < 0x100000 + off ∨ 0x100000 + off + n ≤ j → hmByte t j = hmByte s j)) ∧
      (∀ h, x.got < x.len → exec (.stageCommit m h false) s = .next (fin 4 3)) ∧
      (∀ h, x.len ≤ x.got → x.kind ≠ 3 → envHead s x.kind h.env = 0 → h.env.mldsaOk = true → ∃ t, exec (.stageCommit m h false) s = .next t ∧
        mbShows t m 0 0 ∧ t.hm.session = none ∧ t.hm.committed = some x.kind) ∧
      (∀ h, x.len ≤ x.got → x.kind ≠ 3 → envHead s x.kind h.env ≠ 0 → ∃ t, exec (.stageCommit m h false) s = .next t ∧
        mbShows t m 4 (envHead s x.kind h.env) ∧ t.hm.session = none ∧ t.hm.committed = s.hm.committed) ∧
      (∀ h, x.len ≤ x.got → x.kind = 3 → h.flashErr = false → charterHead s { h with erased := false } = 0 → h.env.mldsaOk = true →
        s.boot.key = true → h.env.tagOk = true → h.env.digestOk = true → ∃ t, exec (.stageCommit m h false) s = .next t ∧
        mbShows t m 0 0 ∧ t.hm.session = none ∧ t.out = Emit.flashSlot (decide (s.boot.slot = 1)) 0 x.first :: s.out) ∧
      (∀ h, x.len ≤ x.got → x.kind = 3 → ∃ t, exec (.stageCommit m h true) s = .next t ∧ mbShows t m 5 0 ∧ t.hm.session = none)) ∧
    (s.hm.session = none → ∀ h e, exec (.stageCommit m h e) s = .next (fin 4 3))) ∧
  (∀ (s : State) (m : Mbx) (e : Envelope), mbIdle s = true →
    let fin : BitVec 8 → BitVec 8 → State := fun code st => mbDone s m code st 0
    let bank := m.a0.getLsbD 16
    let v : BitVec 2 := if bank then 2 else 1
    let fresh : Store := ⟨storeOf 0x4000 e.image.micro, storeOf 0x1000 e.image.nano⟩
    let loaded : VBank :=
      { version := e.version, state := 2, cxfmt := e.cxfmt, custom := fresh.custom, micro := fresh.micro, nano := fresh.nano }
    (5 ≤ s.blk.mode.toNat ∨ s.hm.committed ≠ some 1 → exec (.rollout m e) s = .next (fin 5 3)) ∧
    (s.blk.mode.toNat < 5 → s.hm.committed = some 1 → m.a0.setWidth 16 = (1 : BitVec 16) → s.vin.busy = false →
      (csrcOf s 0).sel ≠ v → swbOf s 0 = false →
      (envCode s 1 e = 0 → fresh.check = 0 → cxRefused (setVbank s 0 bank loaded) 0 v = false →
        ∃ t, exec (.rollout m e) s = .next t ∧ t.hm.busy = true ∧ vbankOf t 0 bank = loaded ∧ (csrcOf t 0).sel = v ∧
          t.hm.roll = some ([0], 0, bank)) ∧
      (envCode s 1 e ≠ 0 → ∃ t, exec (.rollout m e) s = .next t ∧ mbShows t m 4 (envCode s 1 e) ∧ vbankOf t 0 bank = {} ∧
        t.hm.res0 = 0 ∧ t.hm.res1 = 0)) ∧
    (s.blk.mode ≠ 7 ∨ s.hm.committed ≠ some 2 → exec (.graft m e) s = .next (fin 6 3)) ∧
    (s.blk.mode = 7 → s.hm.committed = some 2 → envCode s 2 e = 0 → e.mldsaOk = true → e.gmask = 1 → e.gmatch = [] →
      let g : Store := ⟨storeOf 1024 e.image.micro, storeOf 256 e.image.nano⟩
      g.checkGraft = 0 → ∃ t, exec (.graft m e) s = .next t ∧ mbShows t m 0 0 ∧
        Table.get {} t.graft 0 = { micro := g.micro, nano := g.nano } ∧ csrcOf t 0 = csrcOf s 0 ∧ t.gm = s.gm)) ∧
  (∀ (s : State), (s.hm.roll = none → exec .rolloutNextCluster s = .next s) ∧
    (∀ c cs done bank, s.hm.roll = some (c :: cs, done, bank) → swbOf s c = true → exec .rolloutNextCluster s = .next s) ∧
    (∀ c cs done bank, s.hm.roll = some (c :: cs, done, bank) → swbOf s c = false → cs = [] ∨ 5 ≤ s.blk.mode.toNat →
      exec .rolloutNextCluster s = .next { s with hm := { s.hm with
        roll := none, res0 := (done ||| ((1 : BitVec 16) <<< c)).setWidth 64, busy := false, done := true
        rseq := s.hm.mbseq, rstatus := 0, rdetail := 0 } }))

/-- R408 to R413, R416 to R422: loading a vintage into a bank, the codes of an envelope that is refused, the switch of a
cluster's source, its hold, and the match registers of its graft. -/
def Obligations.VintagesAndSources : Prop :=
  (∀ (s : State) (rq : Requester) (v : W32), rq ≠ .ctl →
    let x := s.vin
    let y : Vin := if sealRights s rq then { x with bank := v.getLsbD 16, cmask := v.setWidth 16 } else x
    (v.getLsbD 31 = false → exec (.vinLoad rq v) s = .next { s with vin := y }) ∧
    (v.getLsbD 31 = true → x.busy = true → exec (.vinLoad rq v) s = .next { s with vin := { y with code := 0x0C } }) ∧
    (v.getLsbD 31 = true → x.busy = false → (hmWord s (x.offs.toNat / 8)).val.toNat / 2 ^ 48 ≠ 2 → y.cmask = 1 →
      ((csrcOf s 0).sel.toNat = 1 + y.bank.toNat ∨ swbOf s 0 = true →
        exec (.vinLoad rq v) s = .next { s with vin := { y with code := 0x0C } }) ∧
      ((csrcOf s 0).sel.toNat ≠ 1 + y.bank.toNat → swbOf s 0 = false → exec (.vinLoad rq v) s = .next
        (setVbank { s with vin := { y with busy := true, ldBank := y.bank, ldMask := 1 } } 0 y.bank { state := 1 })))) ∧
  (∀ (s : State) (e : Envelope), e.kind ≠ 2 →
    let v := s.vin.ldBank
    let fresh : Store := ⟨storeOf 0x4000 e.image.micro, storeOf 0x1000 e.image.nano⟩
    let shaped := e.fmtOk = true ∧ e.plenOk = true ∧ e.kind = 1
    let aimed := e.isa = 1 ∧ e.config.toNat < 8 ∧ e.config.getLsbD s.blk.build.imageBit = true
    let signed := (e.keyset = 0 ∨ (e.keyset = 1 ∧ s.boot.keySet1 = true)) ∧ e.ecdsaOk = true ∧ (e.mldsaOk = true ∨ s.hm.lc ≠ 2)
    let ended : BitVec 8 → VBank → Prop := fun c b => ∃ t, exec (.vinLoadDone e) s = .next t ∧ vbankOf t 0 v = b ∧
      t.vin = { s.vin with busy := false, done := true, code := c, cluster := if c = 0 then s.vin.cluster else 0 }
    (s.vin.busy = false → exec (.vinLoadDone e) s = .next s) ∧
    (s.vin.busy = true → s.vin.ldMask = 1 →
      (¬ shaped → ended 1 {}) ∧
      (shaped → ¬ aimed → ended 2 {}) ∧
      (shaped → aimed → e.svn < s.hm.svn → ended 3 {}) ∧
      (shaped → aimed → ¬ e.svn < s.hm.svn → s.hm.lc = 3 → ended 0x0D {}) ∧
      (shaped → aimed → ¬ e.svn < s.hm.svn → s.hm.lc ≠ 3 → ¬ signed → ended 4 {}) ∧
      (shaped → aimed → ¬ e.svn < s.hm.svn → s.hm.lc ≠ 3 → signed →
        (s.boot.key = false ∨ e.tagOk = false → ended 5 {}) ∧
        (s.boot.key = true → e.tagOk = true → e.digestOk = false → ended 6 {}) ∧
        (s.boot.key = true → e.tagOk = true → e.digestOk = true → fresh.check ≠ 0 → ended fresh.check {}) ∧
        (s.boot.key = true → e.tagOk = true → e.digestOk = true → fresh.check = 0 → ended 0
          { version := e.version, state := 2, cxfmt := e.cxfmt, custom := fresh.custom, micro := fresh.micro, nano := fresh.nano })))) ∧
  (∀ (s : State) (rq : Requester) (c k : Nat) (v : W32), rq ≠ .ctl → sealRights s rq = true → c < s.blk.build.clusters →
    let x := csrcOf s c
    let sel : BitVec 2 := v.setWidth 2
    let refused : BitVec 8 → Out := fun d => .next { s with vin := { s.vin with code := d } }
    let ready := sel = 0 ∨ (vbankOf s c (decide (sel = 2))).state = 2
    (v.getLsbD 30 = x.hold →
      (swbOf s c = false → sel = 3 ∨ sel = x.sel → exec (.selWrite rq c v) s = .next s) ∧
      (swbOf s c = true → sel ≠ 3 → exec (.selWrite rq c v) s = refused 0x0C) ∧
      (swbOf s c = false → sel ≠ 3 → sel ≠ x.sel → ¬ ready → exec (.selWrite rq c v) s = refused 0x0C) ∧
      (swbOf s c = false → sel ≠ 3 → sel ≠ x.sel → ready → cxRefused s c sel = true → exec (.selWrite rq c v) s = refused 0x0E) ∧
      (swbOf s c = false → sel ≠ 3 → sel ≠ x.sel → ready → cxRefused s c sel = false → ∃ t, exec (.selWrite rq c v) s = .next t ∧
        csrcOf t c = { x with sel := sel } ∧
        ∀ j, j < 5 → (pilot t (8 * c + j)).src = (if idlePilot s (8 * c + j) then sel.toNat else (pilot s (8 * c + j)).src))) ∧
    (v.getLsbD 30 = true → x.hold = false → sel = x.sel → ∃ t, exec (.holdWrite rq c v) s = .next t ∧ (csrcOf t c).hold = true ∧
      ∀ j, j < 5 → (pilot t (8 * c + j)).inReset = true ∧ (pilot t (8 * c + j)).src = x.sel.toNat) ∧
    (v.getLsbD 30 = false → x.hold = true → sel = x.sel → swbOf s c = false → ∃ t, exec (.holdWrite rq c v) s = .next t ∧
      csrcOf t c = { x with hold := false } ∧
      ∀ j, j < 5 → (pilot s (8 * c + j)).role = .active → (chkOf s c).state ≠ 2 → s.boot.served = true →
        (pilot t (8 * c + j)).inReset = false) ∧
    (k < 16 → x.sel ≠ 0 ∨ x.hold = true →
      ((v.toNat / 2 ^ 16 % 2 ^ 14) < 0x3C00 → exec (.graftMatchWrite rq c k v) s = .next { s with
        gm := Table.put {} s.gm (16 * c + k) { v := v.getLsbD 31, maddr := v.extractLsb' 16 14, gaddr := v.setWidth 10 } }) ∧
      (0x3C00 ≤ v.toNat / 2 ^ 16 % 2 ^ 14 → exec (.graftMatchWrite rq c k v) s = .next s)) ∧
    (k < 16 → x.sel = 0 → x.hold = false → exec (.graftMatchWrite rq c k v) s = refused 0x0C)) ∧
  (∀ (s : State) (rq : Requester) (c k : Nat) (v : W32), rq ≠ .ctl → sealRights s rq = false →
    exec (.selWrite rq c v) s = .next s ∧ exec (.holdWrite rq c v) s = .next s ∧ exec (.graftMatchWrite rq c k v) s = .next s)

/-- R428, R432 to R448: a mismatch and its retry, substitution by the spare, the test of a retired pilot, and the injection
tests of the checkers. -/
def Obligations.CheckingAndSpares : Prop :=
  (∀ (s : State) (p : Nat) (sweepOk : Bool), p < 8 * s.blk.build.clusters → p % 8 ≤ 4 → (pilot s p).inReset = false →
    (pilot s p).role = .active → s.blk.mode ≠ 4 →
    let x := pilot s p
    let c := p / 8
    let k := chkOf s c
    let q := 8 * c + k.spare.toNat
    let again := decide (100000 ≤ (s.tide.count - x.mismTick).toNat) || decide (x.mismBase = 0)
    let good := x.win.tp.val = x.win.ts.val ∧ x.win.tp.ok = true ∧ x.win.ts.ok = true
    let counted : Pilot := { x with
      mism := satInc x.mism, ckMism := satInc x.ckMism
      tpar := if x.win.tp.ok = true ∧ x.win.ts.ok = true then x.tpar else satInc x.tpar
      mismBase := if again then 1 else x.mismBase + 1, mismTick := if again then s.tide.count else x.mismTick }
    let agreed : State := commitWin (setPilot s p { x with retryok := satInc x.retryok, ckOk := satInc x.ckOk, frozen := false }) p
    let moved := fun (y : Pilot) (t : State) => (pilot t q).role = .active ∧ (pilot t q).pc = y.pc ∧ (pilot t q).banks = y.banks ∧
      (pilot t q).sw = y.sw ∧ (pilot t q).cx = y.cx ∧ (pilot t q).mism = (pilot s q).mism ∧ (pilot t q).frozen = false ∧
      (pilot t p).role = .testing ∧ (pilot t p).inReset = true ∧ (pilot t p).subbed = true ∧
      (chkOf t c).sparePresent = false ∧ (chkOf t c).subst = satInc k.subst
    let retired := fun (t : State) => (pilot t p).role = .testing ∧ (pilot t p).inReset = true ∧ (chkOf t c).retire = satInc k.retire
    let able := k.sparePresent = true ∧ (pilot s q).role = .spare ∧ q ≠ p
    (x.frozen = false → ∀ a, exec (.retryCompare p a sweepOk) s =
      .next (setPilot s p { counted.restored with frozen := true, once := false })) ∧
    (x.frozen = true → x.twice = false → good → x.mismBase < 8 → exec (.retryCompare p true sweepOk) s = .next agreed) ∧
    (x.frozen = true → x.twice = false → good → 8 ≤ x.mismBase → able → sweepOk = true →
      ∃ t, exec (.retryCompare p true sweepOk) s = .next t ∧ moved x t) ∧
    (∀ a, x.frozen = true → a = false ∨ x.twice = true ∨ ¬ good →
      (able → sweepOk = true → ∃ t, exec (.retryCompare p a sweepOk) s = .next t ∧ moved x.restored t ∧
        (pilot t p).fail2 = satInc x.fail2) ∧
      (able → sweepOk = false → ∃ t, exec (.retryCompare p a sweepOk) s = .next t ∧ retired t ∧ (pilot t q).role = .offline ∧
        (chkOf t c).sparePresent = false) ∧
      (k.sparePresent = false → ∃ t, exec (.retryCompare p a sweepOk) s = .next t ∧ retired t))) ∧
  (∀ (s : State) (p : Nat), p < 8 * s.blk.build.clusters → p % 8 ≤ 4 → (pilot s p).role = .testing →
    let x := pilot s p
    let c := p / 8
    let k := chkOf s c
    let soon := match k.lastRehab with
      | some t => decide ((s.tide.count - t).toNat ≤ 100000000)
      | none => false
    exec (.pilotTestDone p false) s = .next (setPilot s p { x with role := .offline, subbed := false }) ∧
    (x.subbed = true → soon = false → exec (.pilotTestDone p true) s = .next (setChk (setPilot s p { x with role := .spare, subbed := false }) c
      { k with sparePresent := true, spare := BitVec.ofNat 3 (p % 8), rehab := satInc k.rehab, lastRehab := some s.tide.count })) ∧
    (x.subbed = true → soon = true → k.state = 0 → ∃ t, exec (.pilotTestDone p true) s = .next t ∧ (chkOf t c).state = 1 ∧
      (pilot t p).role = .spare) ∧
    (x.subbed = false → (csrcOf s c).hold = false → k.state ≠ 2 → s.boot.served = true →
      ∃ t, exec (.pilotTestDone p true) s = .next t ∧ (pilot t p).role = .active ∧ (pilot t p).inReset = false ∧
        (pilot t p).src = (csrcOf s c).sel.toNat)) ∧
  (∀ (s : State) (p : Nat) (again : Bool), p < 8 * s.blk.build.clusters → p % 8 ≤ 4 → s.blk.mode ≠ 4 →
    let c := p / 8
    let k := chkOf s c
    k.state ≠ 2 →
    exec (.injectionTest p true again) s = .next (setChk s c { k with run := satAdd k.run 1, fail := satAdd k.fail 0 }) ∧
    (k.state = 0 → again = true → ∃ t, exec (.injectionTest p false again) s = .next t ∧
      chkOf t c = { k with state := 1, run := satAdd k.run 2, fail := satAdd k.fail 1 }) ∧
    (k.state = 1 ∨ again = false → ∃ t, exec (.injectionTest p false again) s = .next t ∧ (chkOf t c).state = 2 ∧
      (chkOf t c).sparePresent = false ∧ ∀ j, j < 5 → (pilot t (8 * c + j)).role = .offline ∧ (pilot t (8 * c + j)).inReset = true) ∧
    exec (.injectionForce p) s = .next (setChk s c { k with forced := satInc k.forced }) ∧
    (∀ (rq : Requester) (v : W32), rq ≠ .ctl → sealRights s rq = true →
      let y := pilot s p
      (v.getLsbD 0 = true → exec (.injnow rq c v) s = .next (setChk s c { k with run := satAdd k.run 5, fail := satAdd k.fail 0 })) ∧
      (v = 1 → exec (.forceOnce rq p v) s = .next (setPilot s p { y with once := true, twice := y.twice })) ∧
      (v = 2 → exec (.forceTwice rq p v) s = .next (setPilot s p { y with once := y.once, twice := true }))) ∧
    (∀ (rq : Requester) (v : W32), rq ≠ .ctl → sealRights s rq = false →
      exec (.injnow rq c v) s = .next s ∧ exec (.forceOnce rq p v) s = .next s ∧ exec (.forceTwice rq p v) s = .next s))

/-- R20 to R26, R30 to R32, R50 to R52: the words of an unfenced program after its first. A clean SETPOS, NOP, JUMP and END
have their effects, a transfer inside the namespace starts its device work, and a word that breaks a rule ends the
exchange with the status of that rule, its index in LASTW and its COUNT in RESID.

R28, R35, R37, R38, R51, R562: the completion of a landward read that R562 drops is counted and flagged and has no other
effect; one that reports an error ends the exchange with HOST_FAULT; a gather list grows until it is complete, or ends the
exchange with BAD_LIST; a key is kept; a program whose first word carries FENCE is walked, word for word, before anything
of it runs, and a second mutating word or an END after a broken condition ends it with BAD_FENCE. -/
def Obligations.ChannelPrograms : Prop :=
  (∀ (s : State) (i port : Nat) (lo hi : W64) (l : List W64), Sound s = true → port < 12 → wantsWord s i = true →
    (xctx s i).nwords ≠ 0 → (xctx s i).nwords < 4095 → (xctx s i).pre = none → (own s i).fenced = false →
    (xctx s i).cancel = false →
    let x := xctx s i
    let e := own s i
    let w := CWord.decode lo hi
    let b := berthOf s i
    let k := x.nwords
    let n := w.count.toNat
    let run : Out → Prop := fun o => exec (.quayCompletion (.word i) (cleanCpl port (lo :: hi :: l))) s = o
    let plain := w.rsv = 0 ∧ w.buf = 0 ∧ n = 0
    let rw := w.op = 1 ∨ w.op = 2
    let good := rw ∧ w.rsv = 0 ∧ w.buf = 0 ∧ w.flags.getLsbD 3 = false ∧ w.modf = 0 ∧ b.lbs ≤ n ∧ n % b.lbs = 0 ∧
      n ≤ 16777216 ∧ x.total + n ≤ 1073741824
    let room := (b.nsze.toNat - e.pos.toNat) * b.lbs
    (w.op = 0x10 → plain → w.flags = 0 → w.modf = 0 → x.total ≤ 1073741824 →
      run (.next (fetchWord (wordOver s i k w.addr (x.next + 16) x.total) i))) ∧
    (w.op = 0x11 → plain → w.flags = 0 → w.modf = 0 → w.addr = 0 → x.total ≤ 1073741824 →
      run (.next (fetchWord (wordOver s i k e.pos (x.next + 16) x.total) i))) ∧
    (w.op = 0x12 → plain → w.flags = 0 → w.modf.toNat < 3 → w.addr.toNat % 16 = 0 → x.total ≤ 1073741824 →
      let taken := w.modf = 0 ∨ (w.modf = 1 ∧ x.mark = true) ∨ (w.modf = 2 ∧ x.mark = false)
      (taken → run (.next (fetchWord (wordOver s i k e.pos w.addr x.total) i))) ∧
      (¬ taken → run (.next (fetchWord (wordOver s i k e.pos (x.next + 16) x.total) i)))) ∧
    (w.op = 0x1F → plain → w.flags = 0 → w.modf = 0 → w.addr = 0 → x.total ≤ 1073741824 →
      run (.next (wordEnded s i k (k + 1) 0 0))) ∧
    (good → e.pos ≠ BitVec.allOnes 64 → e.pos.toNat ≤ b.nsze.toNat →
      (n ≤ room → run (.next (setXctx (setOwn s i { e with curw := x.next.extractLsb' 4 60 }) i { x with
        total := x.total + n, cur := some { idx := k, addr := x.next, w := w, begun := true, bytes := n } }))) ∧
      (room < n → w.clip = false → ∃ t, run (.next t) ∧ (own t i).status = 0x21 ∧ (own t i).residHeld = w.count ∧
        (own t i).xfer = e.xfer ∧ (own t i).lastw = BitVec.ofNat 12 k ∧ (xctx t i).ended = true) ∧
      (room < n → w.clip = true → room ≠ 0 → ∃ t, run (.next t) ∧ (xctx t i).ended = false ∧
        (xctx t i).cur = some { idx := k, addr := x.next, w := w, begun := true, bytes := room, short := true }) ∧
      (room = 0 → w.clip = true → w.note = false → ∃ t, run (.next t) ∧ (own t i).status = 1 ∧
        (own t i).residHeld = w.count ∧ (own t i).xfer = e.xfer ∧ (xctx t i).ended = true)) ∧
    (w.op = 0 ∨ (8 ≤ w.op.toNat ∧ w.op.toNat < 0x10) ∨ (0x14 ≤ w.op.toNat ∧ w.op ≠ 0x1F) →
      run (.next (wordEnded s i k k 0x10 0))) ∧
    (rw → w.buf = 3 → run (.next (wordEnded s i k k 0x11 n))) ∧
    (rw → w.flags.getLsbD 3 = true → run (.next (wordEnded s i k k 0x11 n))) ∧
    (w.op = 0x1F → w.flags ≠ 0 → run (.next (wordEnded s i k k 0x11 0))) ∧
    (good → e.pos = BitVec.allOnes 64 → run (.next (wordEnded s i k k 0x12 n))) ∧
    (rw → w.buf = 0 → w.flags.getLsbD 3 = false → e.pos ≠ BitVec.allOnes 64 → n < b.lbs ∨ n % b.lbs ≠ 0 ∨ 16777216 < n ∨
      1073741824 < x.total + n → run (.next (wordEnded s i k k 0x13 n))) ∧
    (w.op = 0x12 → w.buf = 0 → w.flags = 0 → n = 0 → x.total ≤ 1073741824 → w.addr.toNat % 16 ≠ 0 →
      run (.next (wordEnded s i k k 0x14 0))) ∧
    (w.op = 0x12 → w.buf = 0 → w.flags = 0 → n = 0 → x.total ≤ 1073741824 → w.addr.toNat % 16 = 0 →
      w.rsv ≠ 0 ∨ 3 ≤ w.modf.toNat → run (.next (wordEnded s i k k 0x15 0)))) ∧
  (∀ (s : State) (r : Reader) (q : QuayCpl), q.noCredit = true ∨ q.gap = true ∨ q.badLen = true ∨ q.badLane = true ∨ 12 ≤ q.port →
    let f : BitVec 4 := bit1 q.badLen ++ bit1 q.gap ++ bit1 q.noCredit ++ bit1 (q.badLane || decide (12 ≤ q.port))
    exec (.quayCompletion r q) s = .next { s with plc := { s.plc with
      qdrops := Table.put 0 s.plc.qdrops q.port (satInc (Table.get 0 s.plc.qdrops q.port)),
      qflags := Table.put 0 s.plc.qflags q.port (Table.get 0 s.plc.qflags q.port ||| f) } }) ∧
  (∀ (s : State) (i port : Nat) (l : List W64), Sound s = true → port < 12 → wantsWord s i = true → (xctx s i).nwords < 4096 →
    (xctx s i).pre = none →
    exec (.quayCompletion (.word i) { cleanCpl port l with err := true }) s = .next (exchangeEnded
      (setOwn s i { own s i with lastw := BitVec.ofNat 12 (xctx s i).nwords }) i 0x20 0)) ∧
  (∀ (s : State) (i port : Nat) (wx : WordX) (a b : W64), Sound s = true → port < 12 → (xctx s i).cur = some wx →
    wx.w.op = 2 → wx.w.buf = 1 → wx.listed = false → wx.glist = [] →
    let len := (b.extractLsb' 0 32).toNat
    let g : BitVec 128 := b ++ a
    (b.extractLsb' 60 4 ≠ 0 ∨ b.getLsbD 59 = true ∨ len = 0 ∨ wx.w.count.toNat < len →
      exec (.quayCompletion (.glist i) (cleanCpl port [a, b])) s = .next (exchangeEnded
        (setOwn s i { own s i with lastw := BitVec.ofNat 12 wx.idx }) i 0x16 wx.w.count.toNat)) ∧
    (b.extractLsb' 32 32 = 0 → 1 ≤ len → len ≤ 16777216 → a.toNat + len ≤ 2 ^ 64 → len < wx.w.count.toNat →
      exec (.quayCompletion (.glist i) (cleanCpl port [a, b])) s = .next
        (hostFetch (setXctx s i { xctx s i with cur := some { wx with glist := [g] } }) i (wx.w.addr + 16) 16))) ∧
  (∀ (s : State) (i port : Nat) (wx : WordX) (a : W64) (l : List W64), Sound s = true → port < 12 →
    (xctx s i).cur = some wx → wx.w.op = 0x13 → wx.key = [] → wx.w.ksLen ≤ 8 →
    exec (.quayCompletion (.key i) (cleanCpl port (a :: l))) s = .next (setXctx s i { xctx s i with
      cur := some { wx with key := (leBytes 8 a.toNat).take wx.w.ksLen } })) ∧
  (∀ (s : State) (c port : Nat) (l : List W64), port < 12 → exec (.quayCompletion (.probe c) (cleanCpl port l)) s = .next s) ∧
  (∀ (s : State) (i port : Nat) (lo hi : W64) (l : List W64), Sound s = true → port < 12 → wantsWord s i = true →
    (xctx s i).nwords = 0 → (xctx s i).preOk = false → (xctx s i).resolve = false →
    let x := xctx s i
    let e := own s i
    let w := CWord.decode lo hi
    let b := berthOf s i
    let run : Out → Prop := fun o => exec (.quayCompletion (.word i) (cleanCpl port (lo :: hi :: l))) s = o
    let stopped : Nat → State := fun k => exchangeEnded (setOwn s i { e with lastw := BitVec.ofNat 12 k, xfer := 0 }) i 0x18 0
    let setpos := w.op = 0x10 ∧ w.rsv = 0 ∧ w.buf = 0 ∧ w.modf = 0 ∧ w.count = 0
    let endw := w.op = 0x1F ∧ w.rsv = 0 ∧ w.buf = 0 ∧ w.modf = 0 ∧ w.count = 0 ∧ w.flags = 0 ∧ w.addr = 0
    let write := w.op = 2 ∧ w.rsv = 0 ∧ w.buf = 0 ∧ w.modf = 0 ∧ w.flags = 0 ∧ w.count.toNat = b.lbs
    (x.pre = none → setpos → w.flags = 8 → run (.next (fetchWord (setXctx (setOwn s i { e with fenced := true }) i { x with
      pre := some { idx := 1, addr := x.next + 16, pos := w.addr, posSet := true } }) i))) ∧
    (∀ p, x.pre = some p → endw → p.bad = none → p.total ≤ 1073741824 →
      (hasFenceLog b = true → run (.next (fetchWord (setXctx s i { x with pre := none, preOk := true, preMut := some p }) i))) ∧
      (hasFenceLog b = false → run (.next (stopped p.idx)))) ∧
    (∀ p k, x.pre = some p → endw → p.bad = some k → p.total ≤ 1073741824 → run (.next (stopped k))) ∧
    (∀ p, x.pre = some p → write → p.posSet = true → p.total + w.count.toNat ≤ 1073741824 → p.idx ≠ 4095 → p.idx ≠ 0 →
      hasFenceLog b = true → b.lbs ≤ mxferOf s b →
      (p.mutAt = none → ∃ p', run (.next (fetchWord (setXctx s i { x with pre := some p' }) i)) ∧ p'.idx = p.idx + 1 ∧ p'.addr = p.addr + 16 ∧
        p'.pos = p.pos + 1 ∧ p'.mutAt = some p.idx ∧ p'.mutW = w ∧ p'.bad = p.bad) ∧
      (p.mutAt.isSome = true → p.bad = none → ∃ p', run (.next (fetchWord (setXctx s i { x with pre := some p' }) i)) ∧ p'.bad = some p.idx)))

/-- R539 to R543, R545, R553, R556: what the debug port answers. A RMA part, an unaligned or absent address, a reserved space,
sealed contents and a running pilot are each turned away with their status; a cask, the cellar, the code store and the
registers of a halted pilot are read and written whole, and a half write keeps the other half.

R544: each instruction of the test port, with what leaves on tap_tdo least significant bit first, and what an update
writes. -/
def Obligations.DebugAndTestPort : Prop :=
  (∀ (s : State) (v : W32) (op : BitVec 2),
    let row : Instr := if op = 0 then .debugPeek v else if op = 1 then .debugTake v else .debugWrite v
    let u := v.extractLsb' 16 8
    let d : Dbg := { s.dbg with space := v.extractLsb' 24 3, unitNo := u, tag := v.extractLsb' 12 4, op := op, width := v.getLsbD 9 }
    let a := s.dbg.addr.toNat
    let sp := (v.extractLsb' 24 3).toNat
    let ends : BitVec 3 → Prop := fun st => exec row s = .next { s with dbg := { d with status := st } }
    let unit := if d.width then 8 else 4
    let tagOk := if devRights s then d.tag ≠ 6 ∧ (d.tag.toNat < 10 ∨ d.tag.toNat = 15) else d.tag.toNat ≤ 2
    let reads : TWord → Prop := fun w =>
      if w.tag = 15 ∧ devRights s = false then exec row s = .next { s with dbg := { d with status := 3, data := 0 } }
      else d.width = true → exec row s = .next { s with dbg := { d with status := 0, data := w.val, tag := w.tag } }
    op ≠ 3 →
    (s.hm.lc = 3 → ends 1) ∧
    (s.hm.lc ≠ 3 → sp = 7 → ends 5) ∧
    (s.hm.lc ≠ 3 → (sp = 1 ∧ s.blk.build.cellar ≤ a) ∨ (sp = 2 ∧ 65536 ≤ a) ∨ (sp = 3 ∧ 262144 ≤ a) ∨ (sp = 6 ∧ 262144 ≤ a) ∨
      (1 ≤ sp ∧ sp ≤ 3 ∧ a % unit ≠ 0) → ends 2) ∧
    (s.hm.lc ≠ 3 → sp = 2 → a < 65536 → a % unit = 0 → pilotExists s u.toNat = true →
      let k := u.toNat * 8192 + a / 8
      let old := Table.get emptyW s.cask k
      let lo : W64 := d.data.setWidth 32 |>.setWidth 64
      (op ≠ 2 → reads old) ∧
      (op = 2 → ¬ tagOk → ends 5) ∧
      (op = 2 → tagOk → d.width = true →
        exec row s = .next { s with dbg := { d with status := 0 }, cask := Table.put emptyW s.cask k ⟨d.data, d.tag⟩ }) ∧
      (op = 2 → tagOk → d.width = false → a % 8 = 4 → exec row s = .next { s with
        dbg := { d with status := 0 },
        cask := Table.put emptyW s.cask k ⟨lo <<< 32 ||| (old.val &&& 0xFFFFFFFF), d.tag⟩ })) ∧
    (s.hm.lc ≠ 3 → sp = 1 → a < s.blk.build.cellar → a % unit = 0 →
      let o := bankOwner s (a / 8 / 32768)
      (o = 2 ∨ (o = 1 ∧ devRights s = false) → ends 1) ∧
      (o = 0 ∨ (o = 1 ∧ devRights s = true) → op ≠ 2 → reads (cellarWord s (a / 8))) ∧
      (o = 0 → op = 2 → devRights s = true → d.tag = 15 → ends 3) ∧
      (o = 0 ∨ (o = 1 ∧ devRights s = true) → op = 2 → tagOk → d.tag ≠ 15 → d.width = true → exec row s = .next { s with
        dbg := { d with status := 0 }, cellar := Table.put emptyW s.cellar (a / 8) ⟨d.data, d.tag⟩ })) ∧
    (s.hm.lc ≠ 3 → sp = 3 → a < 262144 → a % unit = 0 →
      let k := (u.extractLsb' 0 4).toNat * 65536 + a / 4
      let shut := devRights s = false ∧ sealedCodeAt s (u.extractLsb' 0 4).toNat a = true
      (shut → ends 1) ∧
      (¬ shut → op ≠ 2 → d.width = false → exec row s = .next { s with dbg := { d with
        status := 0, data := (Table.get 0 s.code k).setWidth 64 } }) ∧
      (¬ shut → op = 2 → d.width = false → exec row s = .next { s with
        dbg := { d with status := 0 }, code := Table.put 0 s.code k (d.data.setWidth 32) })) ∧
    (s.hm.lc ≠ 3 → sp = 4 → devRights s = false → ends 1) ∧
    (s.hm.lc ≠ 3 → sp = 5 → a < 65536 → pilotExists s u.toNat = true → u.toNat ≠ 127 →
      let b := a / 4096
      let n := a % 4096
      let x := pilot s u.toNat
      let k := x.bankOf b
      (8 < b → ends 2) ∧
      (b ≤ 8 → 0x28 ≤ n → n < 0x100 → op ≠ 2 → ends 2) ∧
      (b ≤ 8 → n < 0x20 → op ≠ 2 → reads (Table.get emptyW k.regs n)) ∧
      (b ≤ 8 → op = 2 → x.atMonitor = false ∨ x.cur = b → ends 1) ∧
      (b ≤ 8 → op = 2 → x.atMonitor = true → x.cur ≠ b → n < 0x20 → tagOk → d.width = true → exec row s = .next (setPilot
        { s with dbg := { d with status := 0 } } u.toNat (x.setBank b { k with regs := Table.put emptyW k.regs n ⟨d.data, d.tag⟩ })))) ∧
    (s.hm.lc ≠ 3 → sp = 6 → a < 262144 → a % unit = 0 →
      (op = 2 → ends 1) ∧
      (op ≠ 2 → d.width = true → a % 16 = 8 → exec row s = .next { s with dbg := { d with
        status := 0, data := (Table.get 0 s.dbg.trace (a / 16)).extractLsb' 64 64 } }))) ∧
  (∀ (s : State) (rq : Requester) (c k : Nat) (v : W32), rq ≠ .ctl →
    (sealRights s rq = true → c < s.blk.build.clusters → k < 8 → exec (.remapWrite rq c k v) s = .next { s with dbg := { s.dbg with
      remap := Table.put {} s.dbg.remap (8 * c + k) { v := v.getLsbD 31, srcpg := v.extractLsb' 20 10, dstpg := v.extractLsb' 0 10 } } }) ∧
    (sealRights s rq = false → exec (.remapWrite rq c k v) s = .next s)) ∧
  (∀ (s : State) (rq : Requester) (hi : Bool) (v : W64), rq ≠ .ctl → v = 0 → exec (.extRequest rq hi v) s = .next s) ∧
  (∀ (s : State) (rq : Requester) (p : Nat), rq ≠ .ctl → p < 64 → pilotExists s p = true → calm s p = true →
    (pilot s p).mulq = [] →
    let x := pilot s p
    let hw := x.sw.world || (decide (x.dmon ≠ 0) && x.lw.getLsbD (x.dmon.toNat - 1))
    (x.inReset = true ∨ x.dmon ≤ x.sw.mask → exec (.extRequest rq false ((1 : W64) <<< p)) s = .next { s with
      dbg := { s.dbg with req := s.dbg.req ||| ((1 : BitVec 128) <<< p) } }) ∧
    (x.inReset = false → x.role = .active → x.sw.mask < x.dmon → x.dmon ≠ 7 → bankHolds s p x.cur = false →
      presented s p = none → untraced s = true →
      exec (.extRequest rq false ((1 : W64) <<< p)) s = .next (setPilot s p
        (entered x x.dmon 15 0 false ((5 : BitVec 4) ++ (0 : BitVec 42) ++ x.pc) x.pc false hw
          ((if hw then x.vbs else x.vbo) ++ (15 : BitVec 4) ++ (0 : BitVec 5)))))) ∧
  (∀ (s : State),
    (s.dbg.ten = false → exec .syncPacket s = .next s) ∧
    (s.dbg.ten = true → (s.dbg.tstop && s.dbg.wrapped) = false → ∃ t, exec .syncPacket s = .next t ∧
      (Table.get 0 t.dbg.trace s.dbg.wr.toNat).extractLsb' 0 64 = s.tide.count ∧
      (Table.get 0 t.dbg.trace s.dbg.wr.toNat).extractLsb' 124 4 = 6 ∧ t.dbg.wr = s.dbg.wr + 1)) ∧
  (∀ (s : State) (v : W64),
    let bits : ∀ n : Nat, BitVec n → List Bool := fun n x => (List.range n).map (fun k => x.getLsbD k)
    let at_ : BitVec 8 → Dbg := fun i => { s.dbg with ir := i }
    let sent : State → List Bool → State := fun t l => { t with out := .tdo l :: s.out }
    exec .tapReset s = .next { s with dbg := at_ 1 } ∧
    exec .idcode s = .next (sent { s with dbg := at_ 1 } (bits 32 ((1 : BitVec 4) ++ (0x0A51 : BitVec 16) ++ Config.idmfr ++ (1 : BitVec 1)))) ∧
    exec (.daddr none) s = .next (sent { s with dbg := at_ 0x10 } (bits 64 s.dbg.addr)) ∧
    exec (.daddr (some v)) s = .next (sent { s with dbg := { at_ 0x10 with addr := v } } (bits 64 s.dbg.addr)) ∧
    exec (.ddata none) s = .next (sent { s with dbg := at_ 0x12 } (bits 64 s.dbg.data)) ∧
    exec (.ddata (some v)) s = .next (sent { s with dbg := { at_ 0x12 with data := v } } (bits 64 s.dbg.data)) ∧
    exec (.dctrl none) s = .next (sent { s with dbg := at_ 0x11 } (bits 32 (acccWord s.dbg))) ∧
    (v.getLsbD 31 = false → exec (.dctrl (some (v.setWidth 32))) s = .next (sent { s with dbg := { at_ 0x11 with
      space := v.extractLsb' 24 3, unitNo := v.extractLsb' 16 8, tag := v.extractLsb' 12 4, op := v.extractLsb' 10 2,
      width := v.getLsbD 9 } } (bits 32 (acccWord s.dbg)))) ∧
    exec .bypass s = .next (sent { s with dbg := at_ 0xFF } [false]))

/-- R5, R573: a misaligned or undecoded access of the control-register window changes nothing, and the control port is told so
with a read value of 0; a read has no effect but its clearing one; a take clears the counters of its register; a write
sets the fields that software may set and leaves the rest. An awake block is meant where the control port asks. -/
def Obligations.RegisterAccess : Prop :=
  (∀ (s : State) (rq : Requester) (wide : Bool) (off : BitVec 27) (v : W64),
    let a := off.toNat
    a % 4 ≠ 0 ∨ (wide = true ∧ a % 8 ≠ 0) ∨ 0x7000000 ≤ a ∨ (0xA0000 ≤ a ∧ a < 0x1000000) →
    (rq ≠ .ctl → exec (.registerTake rq wide off) s = .next s ∧ exec (.registerWrite rq wide off v) s = .next s) ∧
    (rq = .ctl → s.blk.mode ≠ 4 → s.pwr.entering = 0 →
      exec (.registerTake rq wide off) s = .next { s with ctlErr := true, ctlRdat := 0 } ∧
      exec (.registerWrite rq wide off v) s = .next { s with ctlErr := true, ctlRdat := 0 })) ∧
  (∀ (s : State), s.blk.mode ≠ 4 → s.pwr.entering = 0 →
    let shown : State → W32 → Out := fun t r => .next { t with ctlErr := false, ctlRdat := r.setWidth 64 }
    exec (.registerTake .ctl false 0x8) s = shown s (s.blk.dlevel.setWidth 32 <<< 4 ||| s.blk.mode.setWidth 32) ∧
    exec (.registerTake .ctl false 0x100) s = shown s (s.wm.setWidth 32) ∧
    exec (.registerTake .ctl false 0x104) s = shown s 0 ∧
    exec (.registerTake .ctl false 0x114) s = shown { s with mbrkLease := 0, mbrkFault := 0 }
      (s.mbrkLease.setWidth 32 <<< 16 ||| s.mbrkFault.setWidth 32)) ∧
  (∀ (s : State) (rq : Requester), rq ≠ .ctl →
    exec (.registerTake rq false 0x10018) s = .next { s with hbr := { s.hbr with fexec := 0, fredrv := 0, fundet := 0 } } ∧
    exec (.registerTake rq false 0x50000) s = .next { s with hm := { s.hm with restarts := 0 } } ∧
    exec (.registerTake rq false 0x50068) s = .next { s with hm := { s.hm with lost := 0 } } ∧
    exec (.registerTake rq false 0x60040) s = .next { s with dbg := { s.dbg with missed := 0 } } ∧
    exec (.registerTake rq false 0x60058) s = .next { s with dbg := { s.dbg with tlost := 0 } } ∧
    exec (.registerTake rq false 0x70004) s = .next { s with plc := { s.plc with
      errCrc := 0, errHdr := 0, errNopath := 0, errEpoch := 0 } } ∧
    exec (.registerTake rq false 0x70018) s = .next { s with plc := { s.plc with qdrops := Table.put 0 s.plc.qdrops 2 0 } } ∧
    exec (.registerTake rq false 0x70108) s = .next { s with ltr := { s.ltr with authf := 0 } } ∧
    exec (.registerTake rq false 0x8) s = .next s) ∧
  (∀ (s : State) (rq : Requester) (v : W64), rq ≠ .ctl →
    let lo := v.extractLsb' 0 32
    let fits := lo.extractLsb' 0 20 |>.toNat
    (fits + s.sres.toNat + (s.berths.map (fun e => e.2.resv.toNat)).sum ≤ s.blk.build.entries →
      exec (.registerWrite rq false 0x100 v) s = .next { s with wm := lo.extractLsb' 0 20 }) ∧
    (s.blk.build.entries < fits + s.sres.toNat + (s.berths.map (fun e => e.2.resv.toNat)).sum →
      exec (.registerWrite rq false 0x100 v) s = .next { s with resvRefused := true }) ∧
    exec (.registerWrite rq false 0x10C v) s = .next { s with resvRefused := s.resvRefused && !lo.getLsbD 0 } ∧
    exec (.registerWrite rq false 0x40004 v) s = .next { s with pwr := { s.pwr with
      dwell3 := lo.extractLsb' 16 16, dwell2 := lo.extractLsb' 0 16 } } ∧
    exec (.registerWrite rq false 0x5006C v) s = .next (if sealRights s rq then { s with hm := { s.hm with
      tcrit := lo.extractLsb' 24 8, vcrit := lo.extractLsb' 16 8, vwarn := lo.extractLsb' 8 8 } } else s) ∧
    exec (.registerWrite rq false 0x60048 v) s = .next { s with dbg := { s.dbg with
      ten := lo.getLsbD 31, tstop := lo.getLsbD 30, tflow := lo.getLsbD 29, tlvl := lo.getLsbD 28, tmode := lo.getLsbD 27 } } ∧
    exec (.registerWrite rq false 0x60040 v) s = .next { s with dbg := { s.dbg with
      defbrk := s.dbg.defbrk && !lo.getLsbD 31, aovr := s.dbg.aovr && !lo.getLsbD 30, rmref := s.dbg.rmref && !lo.getLsbD 29 } } ∧
    exec (.registerWrite rq false 0x88200 v) s = .next (if s.ltr.swipeLock then s else { s with ltr := { s.ltr with
      swipeQuar := lo.getLsbD 2, swipeMaint := lo.getLsbD 1, swipeWrst := lo.getLsbD 0, swipeLock := true } }) ∧
    exec (.registerWrite rq false 0x8 v) s = .next s)

/-- R560, R568 to R570: a take of FSTAT answers and removes the head frame of its receive slot, GO sends the body of the
transmit slot or sets ERR, and credit that returns lets the packets of its lane leave in order. -/
def Obligations.FrameWindows : Prop :=
  (∀ (s : State) (rq : Requester) (port slot : Nat), port < 4 → slot < 3 → idleLanes s = true →
    let w := fwinOf s port
    let l := w.queue slot
    (rq ≠ .ctl → l = [] → exec (.fstatTake rq port slot) s = .next s) ∧
    (rq ≠ .ctl → l ≠ [] → ∃ t, exec (.fstatTake rq port slot) s = .next t ∧ (fwinOf t port).queue slot = l.drop 1) ∧
    (rq = .ctl → s.blk.mode ≠ 4 → s.pwr.entering = 0 → ∃ t, exec (.fstatTake rq port slot) s = .next t ∧ t.ctlErr = false ∧
      t.ctlRdat.getLsbD 63 = !l.isEmpty ∧
      ∀ f r, l = f :: r → r.length < 64 → f.body.length ≤ 224 → (t.ctlRdat.extractLsb' 40 8).toNat = r.length ∧
        t.ctlRdat.extractLsb' 32 6 = f.path ∧ (t.ctlRdat.extractLsb' 0 13).toNat = f.body.length)) ∧
  (∀ (s : State) (rq : Requester) (port : Nat) (v : W64), rq ≠ .ctl → port < 4 →
    let w := fwinOf s port
    let p := (v.extractLsb' 50 6).toNat
    let x := pathOf s p
    let n := v.extractLsb' 0 13
    let typ := v.extractLsb' 40 4
    let lane := v.extractLsb' 47 3
    let w' : FWin := { w with path := v.extractLsb' 50 6, lane := lane, typ := typ, len := n, err := w.err && !v.getLsbD 61 }
    let fit := (typ = 2 ∨ typ = 6 ∨ typ = 8) ∧ laneOk typ lane = true ∧ x.en = true ∧ x.state = 2 ∧ x.sp.toNat = port ∧
      n.toNat ≤ 248 ∧ n.toNat ≤ maxBody x
    let body := ((Table.getList 0 w.body 0 31).foldr (fun q l => leBytes 8 q.toNat ++ l) []).take n.toNat
    (w.busy = false → ¬ fit → exec (.ftxGo rq port v) s = .next (setFwin s port { w' with err := true })) ∧
    (w.busy = false → fit → typ = 8 → exec (.ftxGo rq port v) s = .next
      (laneSend (setFwin s port { w' with busy := true, sent := body }) p lane.toNat 8 body)) ∧
    (ftxBusy s w' = true → exec (.ftxGo rq port v) s = .next (setFwin s port { w' with err := true }))) ∧
  (∀ (s : State) (port : Nat) (lane : BitVec 3) (cnt : BitVec 4), port < 12 →
    let k := 8 * port + lane.toNat
    let q := Table.get {} s.qtx k
    let c := Nat.min 4095 (q.credit + cnt.toNat)
    (q.wait = [] → exec (.quayCreditReturn port lane cnt) s = .next { s with
      qtx := Table.put {} s.qtx k { q with credit := c } }) ∧
    (∀ e es p l b, Sound s = true → q.wait = e :: es → quayOf s e = some (p, l, b) →
      (c < b → exec (.quayCreditReturn port lane cnt) s = .next { s with qtx := Table.put {} s.qtx k { q with credit := c } }) ∧
      (b ≤ c → es = [] → exec (.quayCreditReturn port lane cnt) s = .next { s with
        qtx := Table.put {} s.qtx k { credit := c - b, wait := [] }, out := e :: s.out })))

/-- R29, R39, at the words of a program that break no rule with a lower code (R31): a berth with a key handle turns away
COMPARE, COMPARE_WRITE and KEY_SEARCH with CIPHER_CONFLICT, and a COMPARE_WRITE of an exchange that is not fenced ends it
with BAD_FENCE; a word with a gather list ends so once its list has been read. `plainB` is the berth without its key. -/
def Obligations.RefusedWords : Prop :=
  (∀ (s : State) (i port : Nat) (lo hi : W64) (l : List W64), Sound s = true → port < 12 → wantsWord s i = true →
    (xctx s i).nwords ≠ 0 → (xctx s i).nwords < 4095 → (xctx s i).pre = none →
    let x := xctx s i
    let e := own s i
    let w := CWord.decode lo hi
    let b := berthOf s i
    let plainB : Berth := { b with ce := false }
    let n := w.count.toNat
    let run : Out → Prop := fun o => exec (.quayCompletion (.word i) (cleanCpl port (lo :: hi :: l))) s = o
    let wx : WordX := { idx := x.nwords, addr := x.next, w := w }
    let waits : State := hostFetch (setXctx (setOwn s i { e with curw := x.next.extractLsb' 4 60 }) i { x with cur := some wx }) i w.addr 16
    let ends : BitVec 8 → Prop := fun st => run (.next (wordEnded s i x.nwords x.nwords st (if w.op = 0x13 then 0 else n)))
    wordFault plainB x.nwords x.total (decide (e.pos ≠ BitVec.allOnes 64)) true w = none →
    (w.op = 5 → e.fenced = false → (w.buf ≠ 1 → ends 0x18) ∧ (w.buf = 1 → run (.next waits))) ∧
    (w.op = 5 → e.fenced = true → b.ce = true →
      (w.buf ≠ 1 → ends 0x19) ∧ (w.buf = 1 → run (.next waits))) ∧
    (w.op = 3 ∨ w.op = 0x13 → b.ce = true → (w.buf ≠ 1 → ends 0x19) ∧ (w.buf = 1 → run (.next waits)))) ∧
  (∀ (s : State) (i port : Nat) (wx : WordX) (a c : W64), Sound s = true → port < 12 → (xctx s i).cur = some wx →
    wx.w.buf = 1 → wx.listed = false → wx.glist = [] → wx.w.op = 3 ∨ wx.w.op = 5 →
    let x := xctx s i
    let e := own s i
    let b := berthOf s i
    let plainB : Berth := { b with ce := false }
    let len := (c.extractLsb' 0 32).toNat
    let ended : BitVec 8 → State := fun st => exchangeEnded (setOwn s i { e with lastw := BitVec.ofNat 12 wx.idx }) i st wx.w.count.toNat
    wordFault plainB wx.idx x.total (decide (e.pos ≠ BitVec.allOnes 64)) true wx.w = none →
    c.extractLsb' 32 32 = 0 → 1 ≤ len → len ≤ 16777216 → a.toNat + len ≤ 2 ^ 64 →
    len = (if wx.w.op = 5 then 2 * wx.w.count.toNat else wx.w.count.toNat) →
    (wx.w.op = 5 → e.fenced = false → exec (.quayCompletion (.glist i) (cleanCpl port [a, c])) s = .next (ended 0x18)) ∧
    (wx.w.op = 3 ∨ e.fenced = true → b.ce = true →
      exec (.quayCompletion (.glist i) (cleanCpl port [a, c])) s = .next (ended 0x19))) ∧
  (∀ (s : State) (i port : Nat) (lo hi : W64) (l : List W64) (p : PreX), Sound s = true → port < 12 → wantsWord s i = true →
    (xctx s i).nwords ≠ 4096 → (xctx s i).pre = some p → (xctx s i).resolve = false →
    let w := CWord.decode lo hi
    let plainB : Berth := { berthOf s i with ce := false }
    wordFault plainB p.idx p.total p.posSet true w = none → (berthOf s i).ce = true → w.op = 3 ∨ w.op = 5 ∨ w.op = 0x13 →
    (w.buf ≠ 1 → exec (.quayCompletion (.word i) (cleanCpl port (lo :: hi :: l))) s = .next (exchangeEnded
      (setOwn s i { own s i with lastw := BitVec.ofNat 12 p.idx, xfer := 0 }) i 0x19 0)) ∧
    (w.buf = 1 → exec (.quayCompletion (.word i) (cleanCpl port (lo :: hi :: l))) s = .next (hostFetch
      (setXctx s i { xctx s i with pre := some { p with listOf := some w, glist := [] } }) i w.addr 16)))

/-- R305, R409: a cluster that HOLD holds has its pilots in reset, each with every register of every bank EMPTY, its loops
inactive with LC 0, DIRTY, CX and PBANK 0, and SW and PC as at reset; and the moorings they held break with cause RESET. -/
def Obligations.HeldCluster : Prop :=
  ∀ (s : State) (rq : Requester) (c : Nat) (v : W32), Sound s = true → rq ≠ .ctl → sealRights s rq = true → c < s.blk.build.clusters →
    (csrcOf s c).hold = false → v.getLsbD 30 = true → v.extractLsb' 0 2 = (csrcOf s c).sel → ∃ t,
    exec (.holdWrite rq c v) s = .next t ∧ (csrcOf t c).hold = true ∧
    (∀ j, j < 5 →
      let x := pilot t (8 * c + j)
      x.inReset = true ∧ x.cx = 0 ∧ x.cur = 0 ∧ x.pc = 0 ∧ x.sw = { world := true, priv := true, level := 0, mask := 6 } ∧
      ∀ b r, Table.get emptyW (x.bankOf b).regs r = emptyW ∧ ((x.bankOf b).xreg r).tag = 0 ∧ (x.bankOf b).mh = emptyW ∧ (x.bankOf b).ml = emptyW ∧
        ((x.bankOf b).loop r).lc = 0 ∧ (x.bankOf b).act = 0 ∧ (x.bankOf b).dirty = 0) ∧
    (∀ i, let m := aloneMoor s i
      m.mst = 1 → 8 * c ≤ m.owner.toNat → m.owner.toNat < 8 * c + 5 →
        aloneMoor t i = { m with mst := 2, rep := repBase .reset m, lease := 0 }) ∧
    (∀ i, let m := (own s i).moor
      m.mst = 1 → 8 * c ≤ m.owner.toNat → m.owner.toNat < 8 * c + 5 → (own s i).ackp = true →
        (own t i).moor = { m with mst := 3, owner := 0x7E, rep := repBase .reset m, lease := 0 }) ∧
    (∀ i, let m := (own s i).moor
      m.mst = 1 → 8 * c ≤ m.owner.toNat → m.owner.toNat < 8 * c + 5 → (own t i).moor.mst ≠ 1)

/-- For every command and state, a step with the command at the front of the queue is exec of it with the rest of the queue. -/
def Obligations.StepRunsFront : Prop :=
  ∀ (c : Instr) (rest : List Instr) (s : State), step { s with pending := c :: rest } = exec c { s with pending := rest }

/-- With no command waiting, one step is 10 ns of the block: R465 holds the count under power-on reset and counts it
otherwise, R225 takes back a slewed step, R478 counts a watchdog, R138 a lease and R524 the time in a mode. That an empty
queue stands for a tick is the model's choice (log 51). -/
def Obligations.IdleTick : Prop :=
  ∀ (s : State), s.pending = [] →
    let on := { s with tide := { s.tide with count := s.tide.count + 1 } }
    let still := s.boot.porHeld = false ∧ s.bells = [] ∧ s.ecnt = [] ∧ s.own = [] ∧ bwdRuns s = false
    (s.boot.porHeld = true → step s = .next s) ∧
    (still → s.moor = [] → s.tide.lag = true → step s = .next { s with tide := { s.tide with lag := false } }) ∧
    (still → s.moor = [] → s.tide.lag = false → s.pilots = [] → s.blk.mode ≠ 3 → s.blk.mode ≠ 4 → step s = .next on) ∧
    (still → s.moor = [] → s.tide.lag = false → s.pilots = [] → s.blk.mode = 3 → step s = .next { on with
      pwr := { s.pwr with res := Table.put 0 s.pwr.res 0 (Table.get 0 s.pwr.res 0 + 1) } }) ∧
    (∀ p x, still → s.moor = [] → s.tide.lag = false → s.pilots = [(p, x)] → s.blk.mode = 2 → wdFrozen s p = false →
      1 < x.wdcnt.toNat → step s = .next (setPilot on p { x with wdcnt := x.wdcnt - 1 })) ∧
    (∀ i m, still → s.moor = [(i, m)] → s.tide.lag = false → s.pilots = [] → s.blk.mode = 2 → s.fstop = false →
      s.pwr.step = 0 → m.mst = 1 → 20 < m.lease.toNat →
      step s = .next (setAloneMoor on i { m with lease := BitVec.ofNat 13 (m.lease.toNat - 20) }))

/-- What power-on reset leaves, where the spec gives a value: Cold (R500), a count of 0 (R465), every pilot sealed,
supervisor, at level 0 with MASK 6 and PC 0 (R385), the power and watch thresholds (R524, R530), banks 0 and 1 SEALED and
the others OPEN (R256) and nothing waiting; and the state is sound. -/
def Obligations.ResetState : Prop :=
  let s := State.reset
  Sound s = true ∧ s.pending = [] ∧ s.blk.mode = 0 ∧ s.blk.dlevel = 0 ∧ s.tide.count = 0 ∧ s.celOwn = [(0, 1), (1, 1)] ∧ s.cask = [] ∧
  s.cellar = [] ∧ s.pwr.maxlvl = 3 ∧ s.pwr.dwell3 = 100 ∧ s.pwr.dwell2 = 20 ∧ s.pwr.t1 = 100 ∧ s.pwr.t2 = 105 ∧ s.pwr.hyst = 5 ∧
  s.hm.tcrit = 112 ∧ s.hm.vcrit = 10 ∧ s.hm.vwarn = 5 ∧ s.hbr.tstate = 0 ∧ s.paths = [] ∧ s.rings = [] ∧
  (∀ p, p < 128 → let x := pilot s p
    x.sw.world = true ∧ x.sw.priv = true ∧ x.sw.level = 0 ∧ x.sw.mask = 6 ∧ x.pc = 0 ∧ x.cx = 0 ∧ x.waiting = false ∧
    x.inReset = decide (p ≠ 127))

/-- Every command of the table has its effect in every state: no fault and no refusal ends a run. -/
def Obligations.EveryCommandAnswers : Prop :=
  ∀ (c : Instr) (s : State), ∃ t, exec c s = .next t

/-- No command's effect touches the queue of the commands that wait. -/
def Obligations.QueueUntouched : Prop :=
  ∀ (c : Instr) (s t : State), Sound s = true → exec c s = .next t → t.pending = s.pending

/-- Every step of the block keeps a sound state sound: canonical memories and tables, every cellar bank OPEN, SEALED or WIPING
(R255), a drowse level only in Drowse (R17). -/
def Obligations.SoundKept : Prop :=
  ∀ s t : State, Sound s = true → step s = .next t → Sound t = true

/-- R426 to R432, R434: what the check window of a pilot does when an instruction has run (`ran`): its two runs enter the
tallies; a window that is not due stays open with its stores pending; one that is due and agrees commits, its stores
taking effect with the newest of each word; one that does not agree leaves nothing of itself but its count, restores the
checkpoint and begins the retry; a window under retry stays open. No two runs that differ in one word agree (R426). A
pending store shows to its own pilot alone (R430, R431). An event's delivery closes the window first and does not go on
where it mismatches (R434). When an instruction's window closes inside it is the model's choice (log 75). -/
def Obligations.CheckWindows : Prop :=
  (∀ (word ext : W32) (s u : State) (p : Nat), (pilot u p).inReset = false →
    let x := pilot s p
    let y := pilot u p
    let t := ran word ext s p u
    let r := wordsOf word ext x y
    let w : Win := { y.win with ck := y.win.ck.or (some x.ctx), ops := y.win.ops + opCount word,
                                tp := y.win.tp.feed r.1, ts := y.win.ts.feed r.2, inner := false }
    let due := y.win.inner = true ∨ closes word ext x = true ∨ 16 ≤ w.ops
    let clean := x.armed = false ∧ w.tp.val = w.ts.val ∧ w.tp.par = parity w.tp.val ∧ w.ts.par = parity w.ts.val
    let stays : Prop := pilot t p = { y with win := w } ∧ (∀ q, q ≠ p → pilot t q = pilot u q) ∧ { t with pilots := u.pilots } = u
    (x.frozen = true ∨ (w.bad = false ∧ ¬ due) → stays) ∧
    (x.frozen = false → w.bad = false → due → clean →
      pilot t p = { y with win := { count := w.count + 1 } } ∧ (∀ q, q ≠ p → pilot t q = pilot u q) ∧
      (∀ k, Table.get emptyW t.cellar k =
        ((w.stores.find? (fun e => e.cel && decide (e.k = k))).map (fun e => e.w)).getD (Table.get emptyW u.cellar k)) ∧
      (∀ k, Table.get emptyW t.cask k =
        ((w.stores.find? (fun e => !e.cel && decide (e.k = k))).map (fun e => e.w)).getD (Table.get emptyW u.cask k))) ∧
    (x.frozen = false → w.bad = true ∨ (due ∧ ¬ clean) →
      (pilot t p).ctx = x.win.ck.getD x.ctx ∧ (pilot t p).win = { count := x.win.count } ∧ (pilot t p).frozen = true ∧
      (pilot t p).once = false ∧ (pilot t p).twice = x.twice ∧ (pilot t p).mism = satInc x.mism ∧ (pilot t p).ckMism = satInc x.ckMism ∧
      (∀ q, q ≠ p → pilot t q = pilot s q) ∧ { t with pilots := s.pilots } = s)) ∧
  (∀ (t : Tally) (ws vs : List W64) (a b : W64), a ≠ b → (t.feed (ws ++ a :: vs)).val ≠ (t.feed (ws ++ b :: vs)).val) ∧
  (∀ (s : State) (p : Nat) (e : PStore),
    let t := pendStore s p e
    ((pilot s p).win.stores.length < 7 → t.cellar = s.cellar ∧ t.cask = s.cask ∧ seenWord t p e.cel e.k = e.w ∧
      ∀ q cel k, q ≠ p → seenWord t q cel k = seenWord s q cel k) ∧
    ((pilot s p).win.stores.length = 7 → (pilot s p).frozen = false → (pilot s p).armed = false → (pilot s p).win.agrees = true →
      (pilot t p).win.stores = [] ∧ (pilot t p).win.count = (pilot s p).win.count + 1 ∧
      Table.get emptyW (if e.cel then t.cellar else t.cask) e.k = e.w)) ∧
  (∀ (s : State) (p : Nat),
    let x := pilot s p
    (x.frozen = true → closeAtClaim s p = (s, false)) ∧
    (x.frozen = false → x.win.ck = none → closeAtClaim s p = (s, true)) ∧
    (x.frozen = false → x.win.ck.isSome = true → x.armed = true ∨ x.win.agrees = false →
      (closeAtClaim s p).2 = false ∧ { (closeAtClaim s p).1 with pilots := s.pilots } = s ∧ (pilot (closeAtClaim s p).1 p).frozen = true) ∧
    (x.frozen = false → x.win.ck.isSome = true → x.armed = false → x.win.agrees = true →
      (closeAtClaim s p).2 = true ∧ (pilot (closeAtClaim s p).1 p).win = { count := x.win.count + 1, inner := x.win.inner }))

/-- R424: the shadow run of every instruction, with its operands transformed and the transform undone, gives the words of the
primary run, so that no window of a sound pilot mismatches; and each unit's shadow gives the unit's result. -/
def Obligations.ShadowRuns : Prop :=
  (∀ (op : Nat) (a b : W64) (c : Bool), aluShadow op a b c = aluVal op a b c) ∧
  (∀ (op : Nat) (a b : W64), mulShadow op a b = mulVal op a b) ∧
  (∀ (op : Nat) (a b : W64) (c : Bool), decUShadow op a b c = decUVal op a b c) ∧
  (∀ (a v : W64), shAddr a v = addrAdd a v) ∧ (∀ v : W64, shPort v = v) ∧ (∀ t : BitVec 4, shTag t = t) ∧
  (∀ (word ext : W32) (x y : Pilot), (wordsOf word ext x y).1 = (wordsOf word ext x y).2)
end

