-- ==== Sys2Proof/Laws/Table.lean ====
section
/-! SUPPORT. Laws/Table.lean: the laws of sparse tables: a read after a write, and that every operation keeps the
canonical form. -/

namespace Sys2Proof.Machine

variable {α : Type} [DecidableEq α]

/-- An index below the lower bound of a canonical table reads as the default. -/
theorem Table.get_below (d : α) : ∀ (t : Table α) (m k : Nat), Table.above d m t = true → k < m → Table.get d t k = d
  | [], _, _, _, _ => rfl
  | (j, v) :: t, m, k, h, hk => by
    simp only [Table.above, Bool.and_eq_true, decide_eq_true_eq] at h
    obtain ⟨⟨hj, _⟩, ht⟩ := h
    have hne : ¬ j = k := by omega
    simp only [Table.get, if_neg hne]
    exact Table.get_below d t (j + 1) k ht (by omega)

/-- A lower bound may be lowered. -/
theorem Table.above_mono (d : α) : ∀ (t : Table α) (m n : Nat), Table.above d m t = true → n ≤ m → Table.above d n t = true
  | [], _, _, _, _ => rfl
  | (j, v) :: t, m, n, h, hn => by
    simp only [Table.above, Bool.and_eq_true, decide_eq_true_eq] at h ⊢
    exact ⟨⟨by omega, h.1.2⟩, h.2⟩

/-- Dropping entries keeps the canonical form. -/
theorem Table.above_filter (d : α) (p : Nat × α → Bool) : ∀ (t : Table α) (m : Nat), Table.above d m t = true →
    Table.above d m (t.filter p) = true
  | [], _, h => h
  | (j, v) :: t, m, h => by
    simp only [Table.above, Bool.and_eq_true, decide_eq_true_eq] at h
    obtain ⟨⟨hj, hv⟩, ht⟩ := h
    have ih := Table.above_filter d p t (j + 1) ht
    by_cases hp : p (j, v) = true
    · rw [List.filter_cons_of_pos hp]
      simp only [Table.above, Bool.and_eq_true, decide_eq_true_eq]
      exact ⟨⟨hj, hv⟩, ih⟩
    · rw [List.filter_cons_of_neg hp]
      exact Table.above_mono d _ (j + 1) m ih (by omega)

/-- Listing a value keeps a canonical table above its bound. -/
theorem Table.above_insert (d : α) : ∀ (t : Table α) (m k : Nat) (v : α),
    Table.above d m t = true → m ≤ k → v ≠ d → Table.above d m (Table.insert t k v) = true
  | [], m, k, v, _, hk, hv => by simp [Table.insert, hv, Table.above, hk]
  | (j, w) :: t, m, k, v, h, hk, hv => by
    simp only [Table.above, Bool.and_eq_true, decide_eq_true_eq] at h
    obtain ⟨⟨hj, hw⟩, ht⟩ := h
    by_cases hjk : j = k
    · subst hjk
      simp [Table.insert, hv, Table.above, hj, ht]
    · by_cases hlt : k < j
      · simp only [Table.insert, if_neg hjk, if_pos hlt, Table.above, Bool.and_eq_true, decide_eq_true_eq]
        exact ⟨⟨hk, hv⟩, ⟨by omega, hw⟩, ht⟩
      · simp only [Table.insert, if_neg hjk, if_neg hlt, Table.above, Bool.and_eq_true, decide_eq_true_eq]
        exact ⟨⟨hj, hw⟩, Table.above_insert d t (j + 1) k v ht (by omega) hv⟩

/-- A write keeps a canonical table above its bound. -/
theorem Table.above_put (d : α) (t : Table α) (m k : Nat) (v : α)
    (h : Table.above d m t = true) (hk : m ≤ k) : Table.above d m (Table.put d t k v) = true := by
  unfold Table.put
  split
  · exact Table.above_filter d _ t m h
  · exact Table.above_insert d t m k v h hk ‹_›

/-- A write keeps the canonical form. -/
theorem Table.wf_put (d : α) (t : Table α) (k : Nat) (v : α) (h : Table.wf d t = true) :
    Table.wf d (Table.put d t k v) = true := Table.above_put d t 0 k v h (Nat.zero_le k)

/-- Writing a list of values keeps the canonical form. -/
theorem Table.wf_putList (d : α) : ∀ (vs : List α) (t : Table α) (k : Nat), Table.wf d t = true →
    Table.wf d (Table.putList d t k vs) = true
  | [], _, _, h => h
  | v :: vs, t, k, h => Table.wf_putList d vs _ _ (Table.wf_put d t k v h)

theorem Table.wf_filter (d : α) (p : Nat × α → Bool) (t : Table α) (h : Table.wf d t = true) :
    Table.wf d (t.filter p) = true := Table.above_filter d p t 0 h

omit [DecidableEq α] in
theorem Table.get_insert_self (d : α) : ∀ (t : Table α) (k : Nat) (v : α), Table.get d (Table.insert t k v) k = v
  | [], k, v => by simp [Table.insert, Table.get]
  | (j, w) :: t, k, v => by
    unfold Table.insert
    by_cases hjk : j = k
    · simp [hjk, Table.get]
    · by_cases hlt : k < j
      · simp [hjk, hlt, Table.get]
      · simp [hjk, hlt, Table.get, Table.get_insert_self d t k v]

omit [DecidableEq α] in
theorem Table.get_insert_other (d : α) : ∀ (t : Table α) (k i : Nat) (v : α), i ≠ k →
    Table.get d (Table.insert t k v) i = Table.get d t i
  | [], k, i, v, h => by simp [Table.insert, Table.get, Ne.symm h]
  | (j, w) :: t, k, i, v, h => by
    unfold Table.insert
    by_cases hjk : j = k
    · subst hjk; simp [Table.get, Ne.symm h]
    · by_cases hlt : k < j
      · simp [hjk, hlt, Table.get, Ne.symm h]
      · simp [hjk, hlt, Table.get, Table.get_insert_other d t k i v h]

omit [DecidableEq α] in
/-- An index that is not listed reads as the default. -/
theorem Table.get_filter_self (d : α) : ∀ (t : Table α) (k : Nat),
    Table.get d (t.filter (fun e => decide (e.1 ≠ k))) k = d
  | [], _ => rfl
  | (j, w) :: t, k => by
    by_cases hjk : j = k
    · rw [List.filter_cons_of_neg (by simp [hjk])]
      exact Table.get_filter_self d t k
    · rw [List.filter_cons_of_pos (by simp [hjk])]
      simp only [Table.get, if_neg hjk]
      exact Table.get_filter_self d t k

omit [DecidableEq α] in
theorem Table.get_filter_other (d : α) : ∀ (t : Table α) (k i : Nat), i ≠ k →
    Table.get d (t.filter (fun e => decide (e.1 ≠ k))) i = Table.get d t i
  | [], _, _, _ => rfl
  | (j, w) :: t, k, i, h => by
    by_cases hjk : j = k
    · rw [List.filter_cons_of_neg (by simp [hjk])]
      have h' : ¬ j = i := by rw [hjk]; exact Ne.symm h
      simp only [Table.get, if_neg h']
      exact Table.get_filter_other d t k i h
    · rw [List.filter_cons_of_pos (by simp [hjk])]
      simp only [Table.get, Table.get_filter_other d t k i h]

/-- A read after a write at the same index gives the value written. -/
@[simp] theorem Table.get_put_self (d : α) (t : Table α) (k : Nat) (v : α) : Table.get d (Table.put d t k v) k = v := by
  unfold Table.put
  split
  · rename_i h; rw [h]; exact Table.get_filter_self d t k
  · exact Table.get_insert_self d t k v

/-- A write leaves every other index alone. -/
theorem Table.get_put_other (d : α) (t : Table α) (k i : Nat) (v : α) (h : i ≠ k) :
    Table.get d (Table.put d t k v) i = Table.get d t i := by
  unfold Table.put
  split
  · exact Table.get_filter_other d t k i h
  · exact Table.get_insert_other d t k i v h

omit [DecidableEq α] in
theorem Table.insert_insert : ∀ (t : Table α) (k : Nat) (v w : α),
    Table.insert (Table.insert t k v) k w = Table.insert t k w
  | [], k, v, w => by simp [Table.insert]
  | (j, u) :: t, k, v, w => by
    by_cases hjk : j = k
    · simp [Table.insert, hjk]
    · by_cases hlt : k < j
      · simp [Table.insert, hjk, hlt]
      · simp [Table.insert, hjk, hlt, Table.insert_insert t k v w]

omit [DecidableEq α] in
theorem Table.filter_insert : ∀ (t : Table α) (k : Nat) (v : α),
    (Table.insert t k v).filter (fun e => decide (e.1 ≠ k)) = t.filter (fun e => decide (e.1 ≠ k))
  | [], k, v => by simp [Table.insert]
  | (j, u) :: t, k, v => by
    by_cases hjk : j = k
    · simp [Table.insert, hjk]
    · by_cases hlt : k < j
      · simp [Table.insert, hjk, hlt]
      · simp only [Table.insert, if_neg hjk, if_neg hlt]
        rw [List.filter_cons, List.filter_cons, Table.filter_insert t k v]

/-- The second of two writes at one index stands, where the first did not write the default. -/
theorem Table.put_put_ne (d v w : α) (hv : v ≠ d) (t : Table α) (k : Nat) :
    Table.put d (Table.put d t k v) k w = Table.put d t k w := by
  unfold Table.put
  rw [if_neg hv]
  split
  · exact Table.filter_insert t k v
  · exact Table.insert_insert t k v w

end Sys2Proof.Machine
end

