-- ==== Sys2Proof/Laws/Inv.lean ====
section
/-! SUPPORT. Laws/Inv.lean: the invariant of a sound state as one structure with the queue of waiting commands, and the
lemmas by which a function of the state keeps it. -/

namespace Sys2Proof.Machine

/-- Applying a function to every value keeps the canonical form. -/
theorem Table.above_mapVals {α : Type} [DecidableEq α] (d : α) (f : Nat → α → α) : ∀ (t : Table α) (m : Nat),
    Table.above d m t = true → Table.above d m (Table.mapVals d f t) = true
  | [], _, h => h
  | (j, v) :: t, m, h => by
    simp only [Table.above, Bool.and_eq_true, decide_eq_true_eq] at h
    obtain ⟨⟨hj, _⟩, ht⟩ := h
    have ih := Table.above_mapVals d f t (j + 1) ht
    by_cases hv : f j v = d
    · simp only [Table.mapVals, if_pos hv]
      exact Table.above_mono d _ (j + 1) m ih (by omega)
    · simp only [Table.mapVals, if_neg hv, Table.above, Bool.and_eq_true, decide_eq_true_eq]
      exact ⟨⟨hj, hv⟩, ih⟩

theorem Table.wf_mapVals {α : Type} [DecidableEq α] (d : α) (f : Nat → α → α) (t : Table α)
    (h : Table.wf d t = true) : Table.wf d (Table.mapVals d f t) = true := Table.above_mapVals d f t 0 h

theorem Table.wf_upd {α : Type} [DecidableEq α] (d : α) (t : Table α) (k : Nat) (f : α → α)
    (h : Table.wf d t = true) : Table.wf d (Table.upd d t k f) = true := Table.wf_put d t k _ h

/-- A write of a legal owner keeps the owners legal. -/
theorem owners_put (k : Nat) (v : BitVec 2) (hv : v ≠ 3) (t : Table (BitVec 2))
    (h : t.all (fun e => decide (e.2 ≠ 3)) = true) : (Table.put 0 t k v).all (fun e => decide (e.2 ≠ 3)) = true := by
  have hv' : decide (v ≠ 3) = true := decide_eq_true hv
  unfold Table.put
  split
  · rw [List.all_eq_true] at h ⊢
    intro e he
    exact h e (List.mem_filter.1 he).1
  · rename_i h0; clear h0
    induction t with
    | nil => simp only [Table.insert, List.all_cons, List.all_nil, Bool.and_true]; exact hv'
    | cons e t ih =>
      obtain ⟨j, w⟩ := e
      simp only [List.all_cons, Bool.and_eq_true] at h
      by_cases hjk : j = k
      · simp only [Table.insert, if_pos hjk, List.all_cons, Bool.and_eq_true]; exact ⟨hv', h.2⟩
      · by_cases hlt : k < j
        · simp only [Table.insert, if_neg hjk, if_pos hlt, List.all_cons, Bool.and_eq_true]; exact ⟨hv', h⟩
        · simp only [Table.insert, if_neg hjk, if_neg hlt, List.all_cons, Bool.and_eq_true]; exact ⟨h.1, ih h.2⟩

/-- The invariant, with the queue `q`. -/
structure Inv (q : List Instr) (s : State) : Prop where
  queue : s.pending = q
  bells : Table.wf {} s.bells = true
  ecnt : Table.wf {} s.ecnt = true
  rings : Table.wf {} s.rings = true
  own : Table.wf {} s.own = true
  mirror : Table.wf {} s.mirror = true
  moor : Table.wf {} s.moor = true
  xc : Table.wf {} s.xc = true
  paths : Table.wf {} s.paths = true
  members : Table.wf {} s.members = true
  berths : Table.wf {} s.berths = true
  ctls : Table.wf {} s.ctls = true
  dqs : Table.wf {} s.dqs = true
  dcmds : Table.wf none s.dcmds = true
  resvs : Table.wf none s.resvs = true
  serves : Table.wf none s.serves = true
  pilots : Table.wf {} s.pilots = true
  cask : Table.wf emptyW s.cask = true
  cellar : Table.wf emptyW s.cellar = true
  celOwn : Table.wf 0 s.celOwn = true
  bays : Table.wf {} s.bays = true
  arbs : Table.wf {} s.arbs = true
  code : Table.wf 0 s.code = true
  hmmem : Table.wf emptyW s.hmmem = true
  chk : Table.wf {} s.chk = true
  csrc : Table.wf {} s.csrc = true
  gm : Table.wf {} s.gm = true
  vbank : Table.wf {} s.vbank = true
  graft : Table.wf {} s.graft = true
  fwin : Table.wf {} s.fwin = true
  qtx : Table.wf {} s.qtx = true
  owners : ownersLegal s = true
  level : levelLegal s = true

/-- `Inv` is `Sound` and the queue. -/
theorem inv_iff (q : List Instr) (s : State) : Inv q s ↔ Sound s = true ∧ s.pending = q := by
  constructor
  · intro h
    refine ⟨?_, h.queue⟩
    simp only [Sound, Memory.wf, tablesCanonical, Bool.and_eq_true, and_assoc]
    exact ⟨h.cask, h.cellar, h.hmmem, h.code, h.bells, h.ecnt, h.rings, h.own, h.mirror, h.moor, h.xc, h.paths, h.members, h.berths, h.ctls, h.dqs, h.dcmds, h.resvs, h.serves, h.pilots, h.celOwn, h.bays, h.arbs, h.chk, h.csrc, h.gm, h.vbank, h.graft, h.fwin, h.qtx, h.owners, h.level⟩
  · rintro ⟨h, hq⟩
    simp only [Sound, Memory.wf, tablesCanonical, Bool.and_eq_true, and_assoc] at h
    obtain ⟨hcask, hcellar, hhmmem, hcode, hbells, hecnt, hrings, hown, hmirror, hmoor, hxc, hpaths, hmembers, hberths, hctls, hdqs, hdcmds, hresvs, hserves, hpilots, hcelOwn, hbays, harbs, hchk, hcsrc, hgm, hvbank, hgraft, hfwin, hqtx, howners, hlevel⟩ := h
    exact { queue := hq, owners := howners, level := hlevel, cask := hcask, cellar := hcellar, hmmem := hhmmem, code := hcode, bells := hbells, ecnt := hecnt, rings := hrings, own := hown, mirror := hmirror, moor := hmoor, xc := hxc, paths := hpaths, members := hmembers, berths := hberths, ctls := hctls, dqs := hdqs, dcmds := hdcmds, resvs := hresvs, serves := hserves, pilots := hpilots, celOwn := hcelOwn, bays := hbays, arbs := harbs, chk := hchk, csrc := hcsrc, gm := hgm, vbank := hvbank, graft := hgraft, fwin := hfwin, qtx := hqtx }

/-- The part of a state that the invariant reads. -/
structure Part where
  queue : List Instr
  bells : Table Bell
  ecnt : Table Ecnt
  rings : Table Ring
  own : Table Own
  mirror : Table Mir
  moor : Table Moor
  xc : Table Xc
  paths : Table Path
  members : Table Member
  berths : Table Berth
  ctls : Table Ctl
  dqs : Table Dq
  dcmds : Table (Option DCmd)
  resvs : Table (Option Resv)
  serves : Table (Option Serve)
  pilots : Table Pilot
  cask : Table TWord
  cellar : Table TWord
  celOwn : Table (BitVec 2)
  bays : Table Bay
  arbs : Table Arb
  code : Table W32
  hmmem : Table TWord
  chk : Table Chk
  csrc : Table Csrc
  gm : Table Gm
  vbank : Table VBank
  graft : Table Graft
  fwin : Table FWin
  qtx : Table QLane
  blk : Blk

/-- The part of `s`. -/
def State.part (s : State) : Part :=
  { queue := s.pending, blk := s.blk, bells := s.bells, ecnt := s.ecnt, rings := s.rings, own := s.own, mirror
    := s.mirror, moor := s.moor, xc := s.xc, paths := s.paths, members := s.members, berths := s.berths, ctls :=
    s.ctls, dqs := s.dqs, dcmds := s.dcmds, resvs := s.resvs, serves := s.serves, pilots := s.pilots, cask :=
    s.cask, cellar := s.cellar, celOwn := s.celOwn, bays := s.bays, arbs := s.arbs, code := s.code, hmmem :=
    s.hmmem, chk := s.chk, csrc := s.csrc, gm := s.gm, vbank := s.vbank, graft := s.graft, fwin := s.fwin, qtx :=
    s.qtx }

/-- What leaves the part alone keeps the invariant. -/
theorem Inv.plain {q : List Instr} {s t : State} (h : Inv q s) (e : t.part = s.part) : Inv q t := by
  have e0 : t.pending = s.pending := congrArg Part.queue e
  have eb : t.blk = s.blk := congrArg Part.blk e
  have e_bells : t.bells = s.bells := congrArg Part.bells e
  have e_ecnt : t.ecnt = s.ecnt := congrArg Part.ecnt e
  have e_rings : t.rings = s.rings := congrArg Part.rings e
  have e_own : t.own = s.own := congrArg Part.own e
  have e_mirror : t.mirror = s.mirror := congrArg Part.mirror e
  have e_moor : t.moor = s.moor := congrArg Part.moor e
  have e_xc : t.xc = s.xc := congrArg Part.xc e
  have e_paths : t.paths = s.paths := congrArg Part.paths e
  have e_members : t.members = s.members := congrArg Part.members e
  have e_berths : t.berths = s.berths := congrArg Part.berths e
  have e_ctls : t.ctls = s.ctls := congrArg Part.ctls e
  have e_dqs : t.dqs = s.dqs := congrArg Part.dqs e
  have e_dcmds : t.dcmds = s.dcmds := congrArg Part.dcmds e
  have e_resvs : t.resvs = s.resvs := congrArg Part.resvs e
  have e_serves : t.serves = s.serves := congrArg Part.serves e
  have e_pilots : t.pilots = s.pilots := congrArg Part.pilots e
  have e_cask : t.cask = s.cask := congrArg Part.cask e
  have e_cellar : t.cellar = s.cellar := congrArg Part.cellar e
  have e_celOwn : t.celOwn = s.celOwn := congrArg Part.celOwn e
  have e_bays : t.bays = s.bays := congrArg Part.bays e
  have e_arbs : t.arbs = s.arbs := congrArg Part.arbs e
  have e_code : t.code = s.code := congrArg Part.code e
  have e_hmmem : t.hmmem = s.hmmem := congrArg Part.hmmem e
  have e_chk : t.chk = s.chk := congrArg Part.chk e
  have e_csrc : t.csrc = s.csrc := congrArg Part.csrc e
  have e_gm : t.gm = s.gm := congrArg Part.gm e
  have e_vbank : t.vbank = s.vbank := congrArg Part.vbank e
  have e_graft : t.graft = s.graft := congrArg Part.graft e
  have e_fwin : t.fwin = s.fwin := congrArg Part.fwin e
  have e_qtx : t.qtx = s.qtx := congrArg Part.qtx e
  exact { queue := e0.trans h.queue,
          owners := by have := h.owners; unfold ownersLegal at *; rw [e_celOwn]; exact this,
          level := by have := h.level; unfold levelLegal at *; rw [eb]; exact this,
          bells := by rw [e_bells]; exact h.bells,
          ecnt := by rw [e_ecnt]; exact h.ecnt,
          rings := by rw [e_rings]; exact h.rings,
          own := by rw [e_own]; exact h.own,
          mirror := by rw [e_mirror]; exact h.mirror,
          moor := by rw [e_moor]; exact h.moor,
          xc := by rw [e_xc]; exact h.xc,
          paths := by rw [e_paths]; exact h.paths,
          members := by rw [e_members]; exact h.members,
          berths := by rw [e_berths]; exact h.berths,
          ctls := by rw [e_ctls]; exact h.ctls,
          dqs := by rw [e_dqs]; exact h.dqs,
          dcmds := by rw [e_dcmds]; exact h.dcmds,
          resvs := by rw [e_resvs]; exact h.resvs,
          serves := by rw [e_serves]; exact h.serves,
          pilots := by rw [e_pilots]; exact h.pilots,
          cask := by rw [e_cask]; exact h.cask,
          cellar := by rw [e_cellar]; exact h.cellar,
          celOwn := by rw [e_celOwn]; exact h.celOwn,
          bays := by rw [e_bays]; exact h.bays,
          arbs := by rw [e_arbs]; exact h.arbs,
          code := by rw [e_code]; exact h.code,
          hmmem := by rw [e_hmmem]; exact h.hmmem,
          chk := by rw [e_chk]; exact h.chk,
          csrc := by rw [e_csrc]; exact h.csrc,
          gm := by rw [e_gm]; exact h.gm,
          vbank := by rw [e_vbank]; exact h.vbank,
          graft := by rw [e_graft]; exact h.graft,
          fwin := by rw [e_fwin]; exact h.fwin,
          qtx := by rw [e_qtx]; exact h.qtx }

theorem Inv.put_bells {q : List Instr} {s : State} (h : Inv q s) {t : Table Bell} (ht : Table.wf {} t = true) :
    Inv q { s with bells := t } :=
  { queue := h.queue, owners := h.owners, level := h.level, bells := ht,
    ecnt := h.ecnt, rings := h.rings, own := h.own, mirror := h.mirror, moor := h.moor, xc := h.xc, paths :=
    h.paths, members := h.members, berths := h.berths, ctls := h.ctls, dqs := h.dqs, dcmds := h.dcmds, resvs
    := h.resvs, serves := h.serves, pilots := h.pilots, cask := h.cask, cellar := h.cellar, celOwn :=
    h.celOwn, bays := h.bays, arbs := h.arbs, code := h.code, hmmem := h.hmmem, chk := h.chk, csrc := h.csrc,
    gm := h.gm, vbank := h.vbank, graft := h.graft, fwin := h.fwin, qtx := h.qtx }

theorem Inv.put_ecnt {q : List Instr} {s : State} (h : Inv q s) {t : Table Ecnt} (ht : Table.wf {} t = true) :
    Inv q { s with ecnt := t } :=
  { queue := h.queue, owners := h.owners, level := h.level, ecnt := ht,
    bells := h.bells, rings := h.rings, own := h.own, mirror := h.mirror, moor := h.moor, xc := h.xc, paths
    := h.paths, members := h.members, berths := h.berths, ctls := h.ctls, dqs := h.dqs, dcmds := h.dcmds,
    resvs := h.resvs, serves := h.serves, pilots := h.pilots, cask := h.cask, cellar := h.cellar, celOwn :=
    h.celOwn, bays := h.bays, arbs := h.arbs, code := h.code, hmmem := h.hmmem, chk := h.chk, csrc := h.csrc,
    gm := h.gm, vbank := h.vbank, graft := h.graft, fwin := h.fwin, qtx := h.qtx }

theorem Inv.put_rings {q : List Instr} {s : State} (h : Inv q s) {t : Table Ring} (ht : Table.wf {} t = true) :
    Inv q { s with rings := t } :=
  { queue := h.queue, owners := h.owners, level := h.level, rings := ht,
    bells := h.bells, ecnt := h.ecnt, own := h.own, mirror := h.mirror, moor := h.moor, xc := h.xc, paths :=
    h.paths, members := h.members, berths := h.berths, ctls := h.ctls, dqs := h.dqs, dcmds := h.dcmds, resvs
    := h.resvs, serves := h.serves, pilots := h.pilots, cask := h.cask, cellar := h.cellar, celOwn :=
    h.celOwn, bays := h.bays, arbs := h.arbs, code := h.code, hmmem := h.hmmem, chk := h.chk, csrc := h.csrc,
    gm := h.gm, vbank := h.vbank, graft := h.graft, fwin := h.fwin, qtx := h.qtx }

theorem Inv.put_own {q : List Instr} {s : State} (h : Inv q s) {t : Table Own} (ht : Table.wf {} t = true) :
    Inv q { s with own := t } :=
  { queue := h.queue, owners := h.owners, level := h.level, own := ht,
    bells := h.bells, ecnt := h.ecnt, rings := h.rings, mirror := h.mirror, moor := h.moor, xc := h.xc, paths
    := h.paths, members := h.members, berths := h.berths, ctls := h.ctls, dqs := h.dqs, dcmds := h.dcmds,
    resvs := h.resvs, serves := h.serves, pilots := h.pilots, cask := h.cask, cellar := h.cellar, celOwn :=
    h.celOwn, bays := h.bays, arbs := h.arbs, code := h.code, hmmem := h.hmmem, chk := h.chk, csrc := h.csrc,
    gm := h.gm, vbank := h.vbank, graft := h.graft, fwin := h.fwin, qtx := h.qtx }

theorem Inv.put_mirror {q : List Instr} {s : State} (h : Inv q s) {t : Table Mir} (ht : Table.wf {} t = true) :
    Inv q { s with mirror := t } :=
  { queue := h.queue, owners := h.owners, level := h.level, mirror := ht,
    bells := h.bells, ecnt := h.ecnt, rings := h.rings, own := h.own, moor := h.moor, xc := h.xc, paths :=
    h.paths, members := h.members, berths := h.berths, ctls := h.ctls, dqs := h.dqs, dcmds := h.dcmds, resvs
    := h.resvs, serves := h.serves, pilots := h.pilots, cask := h.cask, cellar := h.cellar, celOwn :=
    h.celOwn, bays := h.bays, arbs := h.arbs, code := h.code, hmmem := h.hmmem, chk := h.chk, csrc := h.csrc,
    gm := h.gm, vbank := h.vbank, graft := h.graft, fwin := h.fwin, qtx := h.qtx }

theorem Inv.put_moor {q : List Instr} {s : State} (h : Inv q s) {t : Table Moor} (ht : Table.wf {} t = true) :
    Inv q { s with moor := t } :=
  { queue := h.queue, owners := h.owners, level := h.level, moor := ht,
    bells := h.bells, ecnt := h.ecnt, rings := h.rings, own := h.own, mirror := h.mirror, xc := h.xc, paths
    := h.paths, members := h.members, berths := h.berths, ctls := h.ctls, dqs := h.dqs, dcmds := h.dcmds,
    resvs := h.resvs, serves := h.serves, pilots := h.pilots, cask := h.cask, cellar := h.cellar, celOwn :=
    h.celOwn, bays := h.bays, arbs := h.arbs, code := h.code, hmmem := h.hmmem, chk := h.chk, csrc := h.csrc,
    gm := h.gm, vbank := h.vbank, graft := h.graft, fwin := h.fwin, qtx := h.qtx }

theorem Inv.put_xc {q : List Instr} {s : State} (h : Inv q s) {t : Table Xc} (ht : Table.wf {} t = true) :
    Inv q { s with xc := t } :=
  { queue := h.queue, owners := h.owners, level := h.level, xc := ht,
    bells := h.bells, ecnt := h.ecnt, rings := h.rings, own := h.own, mirror := h.mirror, moor := h.moor,
    paths := h.paths, members := h.members, berths := h.berths, ctls := h.ctls, dqs := h.dqs, dcmds :=
    h.dcmds, resvs := h.resvs, serves := h.serves, pilots := h.pilots, cask := h.cask, cellar := h.cellar,
    celOwn := h.celOwn, bays := h.bays, arbs := h.arbs, code := h.code, hmmem := h.hmmem, chk := h.chk, csrc
    := h.csrc, gm := h.gm, vbank := h.vbank, graft := h.graft, fwin := h.fwin, qtx := h.qtx }

theorem Inv.put_paths {q : List Instr} {s : State} (h : Inv q s) {t : Table Path} (ht : Table.wf {} t = true) :
    Inv q { s with paths := t } :=
  { queue := h.queue, owners := h.owners, level := h.level, paths := ht,
    bells := h.bells, ecnt := h.ecnt, rings := h.rings, own := h.own, mirror := h.mirror, moor := h.moor, xc
    := h.xc, members := h.members, berths := h.berths, ctls := h.ctls, dqs := h.dqs, dcmds := h.dcmds, resvs
    := h.resvs, serves := h.serves, pilots := h.pilots, cask := h.cask, cellar := h.cellar, celOwn :=
    h.celOwn, bays := h.bays, arbs := h.arbs, code := h.code, hmmem := h.hmmem, chk := h.chk, csrc := h.csrc,
    gm := h.gm, vbank := h.vbank, graft := h.graft, fwin := h.fwin, qtx := h.qtx }

theorem Inv.put_members {q : List Instr} {s : State} (h : Inv q s) {t : Table Member} (ht : Table.wf {} t = true) :
    Inv q { s with members := t } :=
  { queue := h.queue, owners := h.owners, level := h.level, members := ht,
    bells := h.bells, ecnt := h.ecnt, rings := h.rings, own := h.own, mirror := h.mirror, moor := h.moor, xc
    := h.xc, paths := h.paths, berths := h.berths, ctls := h.ctls, dqs := h.dqs, dcmds := h.dcmds, resvs :=
    h.resvs, serves := h.serves, pilots := h.pilots, cask := h.cask, cellar := h.cellar, celOwn := h.celOwn,
    bays := h.bays, arbs := h.arbs, code := h.code, hmmem := h.hmmem, chk := h.chk, csrc := h.csrc, gm :=
    h.gm, vbank := h.vbank, graft := h.graft, fwin := h.fwin, qtx := h.qtx }

theorem Inv.put_berths {q : List Instr} {s : State} (h : Inv q s) {t : Table Berth} (ht : Table.wf {} t = true) :
    Inv q { s with berths := t } :=
  { queue := h.queue, owners := h.owners, level := h.level, berths := ht,
    bells := h.bells, ecnt := h.ecnt, rings := h.rings, own := h.own, mirror := h.mirror, moor := h.moor, xc
    := h.xc, paths := h.paths, members := h.members, ctls := h.ctls, dqs := h.dqs, dcmds := h.dcmds, resvs :=
    h.resvs, serves := h.serves, pilots := h.pilots, cask := h.cask, cellar := h.cellar, celOwn := h.celOwn,
    bays := h.bays, arbs := h.arbs, code := h.code, hmmem := h.hmmem, chk := h.chk, csrc := h.csrc, gm :=
    h.gm, vbank := h.vbank, graft := h.graft, fwin := h.fwin, qtx := h.qtx }

theorem Inv.put_ctls {q : List Instr} {s : State} (h : Inv q s) {t : Table Ctl} (ht : Table.wf {} t = true) :
    Inv q { s with ctls := t } :=
  { queue := h.queue, owners := h.owners, level := h.level, ctls := ht,
    bells := h.bells, ecnt := h.ecnt, rings := h.rings, own := h.own, mirror := h.mirror, moor := h.moor, xc
    := h.xc, paths := h.paths, members := h.members, berths := h.berths, dqs := h.dqs, dcmds := h.dcmds,
    resvs := h.resvs, serves := h.serves, pilots := h.pilots, cask := h.cask, cellar := h.cellar, celOwn :=
    h.celOwn, bays := h.bays, arbs := h.arbs, code := h.code, hmmem := h.hmmem, chk := h.chk, csrc := h.csrc,
    gm := h.gm, vbank := h.vbank, graft := h.graft, fwin := h.fwin, qtx := h.qtx }

theorem Inv.put_dqs {q : List Instr} {s : State} (h : Inv q s) {t : Table Dq} (ht : Table.wf {} t = true) :
    Inv q { s with dqs := t } :=
  { queue := h.queue, owners := h.owners, level := h.level, dqs := ht,
    bells := h.bells, ecnt := h.ecnt, rings := h.rings, own := h.own, mirror := h.mirror, moor := h.moor, xc
    := h.xc, paths := h.paths, members := h.members, berths := h.berths, ctls := h.ctls, dcmds := h.dcmds,
    resvs := h.resvs, serves := h.serves, pilots := h.pilots, cask := h.cask, cellar := h.cellar, celOwn :=
    h.celOwn, bays := h.bays, arbs := h.arbs, code := h.code, hmmem := h.hmmem, chk := h.chk, csrc := h.csrc,
    gm := h.gm, vbank := h.vbank, graft := h.graft, fwin := h.fwin, qtx := h.qtx }

theorem Inv.put_dcmds {q : List Instr} {s : State} (h : Inv q s) {t : Table (Option DCmd)} (ht : Table.wf none t = true) :
    Inv q { s with dcmds := t } :=
  { queue := h.queue, owners := h.owners, level := h.level, dcmds := ht,
    bells := h.bells, ecnt := h.ecnt, rings := h.rings, own := h.own, mirror := h.mirror, moor := h.moor, xc
    := h.xc, paths := h.paths, members := h.members, berths := h.berths, ctls := h.ctls, dqs := h.dqs, resvs
    := h.resvs, serves := h.serves, pilots := h.pilots, cask := h.cask, cellar := h.cellar, celOwn :=
    h.celOwn, bays := h.bays, arbs := h.arbs, code := h.code, hmmem := h.hmmem, chk := h.chk, csrc := h.csrc,
    gm := h.gm, vbank := h.vbank, graft := h.graft, fwin := h.fwin, qtx := h.qtx }

theorem Inv.put_resvs {q : List Instr} {s : State} (h : Inv q s) {t : Table (Option Resv)} (ht : Table.wf none t = true) :
    Inv q { s with resvs := t } :=
  { queue := h.queue, owners := h.owners, level := h.level, resvs := ht,
    bells := h.bells, ecnt := h.ecnt, rings := h.rings, own := h.own, mirror := h.mirror, moor := h.moor, xc
    := h.xc, paths := h.paths, members := h.members, berths := h.berths, ctls := h.ctls, dqs := h.dqs, dcmds
    := h.dcmds, serves := h.serves, pilots := h.pilots, cask := h.cask, cellar := h.cellar, celOwn :=
    h.celOwn, bays := h.bays, arbs := h.arbs, code := h.code, hmmem := h.hmmem, chk := h.chk, csrc := h.csrc,
    gm := h.gm, vbank := h.vbank, graft := h.graft, fwin := h.fwin, qtx := h.qtx }

theorem Inv.put_serves {q : List Instr} {s : State} (h : Inv q s) {t : Table (Option Serve)} (ht : Table.wf none t = true) :
    Inv q { s with serves := t } :=
  { queue := h.queue, owners := h.owners, level := h.level, serves := ht,
    bells := h.bells, ecnt := h.ecnt, rings := h.rings, own := h.own, mirror := h.mirror, moor := h.moor, xc
    := h.xc, paths := h.paths, members := h.members, berths := h.berths, ctls := h.ctls, dqs := h.dqs, dcmds
    := h.dcmds, resvs := h.resvs, pilots := h.pilots, cask := h.cask, cellar := h.cellar, celOwn := h.celOwn,
    bays := h.bays, arbs := h.arbs, code := h.code, hmmem := h.hmmem, chk := h.chk, csrc := h.csrc, gm :=
    h.gm, vbank := h.vbank, graft := h.graft, fwin := h.fwin, qtx := h.qtx }

theorem Inv.put_pilots {q : List Instr} {s : State} (h : Inv q s) {t : Table Pilot} (ht : Table.wf {} t = true) :
    Inv q { s with pilots := t } :=
  { queue := h.queue, owners := h.owners, level := h.level, pilots := ht,
    bells := h.bells, ecnt := h.ecnt, rings := h.rings, own := h.own, mirror := h.mirror, moor := h.moor, xc
    := h.xc, paths := h.paths, members := h.members, berths := h.berths, ctls := h.ctls, dqs := h.dqs, dcmds
    := h.dcmds, resvs := h.resvs, serves := h.serves, cask := h.cask, cellar := h.cellar, celOwn := h.celOwn,
    bays := h.bays, arbs := h.arbs, code := h.code, hmmem := h.hmmem, chk := h.chk, csrc := h.csrc, gm :=
    h.gm, vbank := h.vbank, graft := h.graft, fwin := h.fwin, qtx := h.qtx }

theorem Inv.put_cask {q : List Instr} {s : State} (h : Inv q s) {t : Table TWord} (ht : Table.wf emptyW t = true) :
    Inv q { s with cask := t } :=
  { queue := h.queue, owners := h.owners, level := h.level, cask := ht,
    bells := h.bells, ecnt := h.ecnt, rings := h.rings, own := h.own, mirror := h.mirror, moor := h.moor, xc
    := h.xc, paths := h.paths, members := h.members, berths := h.berths, ctls := h.ctls, dqs := h.dqs, dcmds
    := h.dcmds, resvs := h.resvs, serves := h.serves, pilots := h.pilots, cellar := h.cellar, celOwn :=
    h.celOwn, bays := h.bays, arbs := h.arbs, code := h.code, hmmem := h.hmmem, chk := h.chk, csrc := h.csrc,
    gm := h.gm, vbank := h.vbank, graft := h.graft, fwin := h.fwin, qtx := h.qtx }

theorem Inv.put_cellar {q : List Instr} {s : State} (h : Inv q s) {t : Table TWord} (ht : Table.wf emptyW t = true) :
    Inv q { s with cellar := t } :=
  { queue := h.queue, owners := h.owners, level := h.level, cellar := ht,
    bells := h.bells, ecnt := h.ecnt, rings := h.rings, own := h.own, mirror := h.mirror, moor := h.moor, xc
    := h.xc, paths := h.paths, members := h.members, berths := h.berths, ctls := h.ctls, dqs := h.dqs, dcmds
    := h.dcmds, resvs := h.resvs, serves := h.serves, pilots := h.pilots, cask := h.cask, celOwn := h.celOwn,
    bays := h.bays, arbs := h.arbs, code := h.code, hmmem := h.hmmem, chk := h.chk, csrc := h.csrc, gm :=
    h.gm, vbank := h.vbank, graft := h.graft, fwin := h.fwin, qtx := h.qtx }

theorem Inv.put_bays {q : List Instr} {s : State} (h : Inv q s) {t : Table Bay} (ht : Table.wf {} t = true) :
    Inv q { s with bays := t } :=
  { queue := h.queue, owners := h.owners, level := h.level, bays := ht,
    bells := h.bells, ecnt := h.ecnt, rings := h.rings, own := h.own, mirror := h.mirror, moor := h.moor, xc
    := h.xc, paths := h.paths, members := h.members, berths := h.berths, ctls := h.ctls, dqs := h.dqs, dcmds
    := h.dcmds, resvs := h.resvs, serves := h.serves, pilots := h.pilots, cask := h.cask, cellar := h.cellar,
    celOwn := h.celOwn, arbs := h.arbs, code := h.code, hmmem := h.hmmem, chk := h.chk, csrc := h.csrc, gm :=
    h.gm, vbank := h.vbank, graft := h.graft, fwin := h.fwin, qtx := h.qtx }

theorem Inv.put_arbs {q : List Instr} {s : State} (h : Inv q s) {t : Table Arb} (ht : Table.wf {} t = true) :
    Inv q { s with arbs := t } :=
  { queue := h.queue, owners := h.owners, level := h.level, arbs := ht,
    bells := h.bells, ecnt := h.ecnt, rings := h.rings, own := h.own, mirror := h.mirror, moor := h.moor, xc
    := h.xc, paths := h.paths, members := h.members, berths := h.berths, ctls := h.ctls, dqs := h.dqs, dcmds
    := h.dcmds, resvs := h.resvs, serves := h.serves, pilots := h.pilots, cask := h.cask, cellar := h.cellar,
    celOwn := h.celOwn, bays := h.bays, code := h.code, hmmem := h.hmmem, chk := h.chk, csrc := h.csrc, gm :=
    h.gm, vbank := h.vbank, graft := h.graft, fwin := h.fwin, qtx := h.qtx }

theorem Inv.put_code {q : List Instr} {s : State} (h : Inv q s) {t : Table W32} (ht : Table.wf 0 t = true) :
    Inv q { s with code := t } :=
  { queue := h.queue, owners := h.owners, level := h.level, code := ht,
    bells := h.bells, ecnt := h.ecnt, rings := h.rings, own := h.own, mirror := h.mirror, moor := h.moor, xc
    := h.xc, paths := h.paths, members := h.members, berths := h.berths, ctls := h.ctls, dqs := h.dqs, dcmds
    := h.dcmds, resvs := h.resvs, serves := h.serves, pilots := h.pilots, cask := h.cask, cellar := h.cellar,
    celOwn := h.celOwn, bays := h.bays, arbs := h.arbs, hmmem := h.hmmem, chk := h.chk, csrc := h.csrc, gm :=
    h.gm, vbank := h.vbank, graft := h.graft, fwin := h.fwin, qtx := h.qtx }

theorem Inv.put_hmmem {q : List Instr} {s : State} (h : Inv q s) {t : Table TWord} (ht : Table.wf emptyW t = true) :
    Inv q { s with hmmem := t } :=
  { queue := h.queue, owners := h.owners, level := h.level, hmmem := ht,
    bells := h.bells, ecnt := h.ecnt, rings := h.rings, own := h.own, mirror := h.mirror, moor := h.moor, xc
    := h.xc, paths := h.paths, members := h.members, berths := h.berths, ctls := h.ctls, dqs := h.dqs, dcmds
    := h.dcmds, resvs := h.resvs, serves := h.serves, pilots := h.pilots, cask := h.cask, cellar := h.cellar,
    celOwn := h.celOwn, bays := h.bays, arbs := h.arbs, code := h.code, chk := h.chk, csrc := h.csrc, gm :=
    h.gm, vbank := h.vbank, graft := h.graft, fwin := h.fwin, qtx := h.qtx }

theorem Inv.put_chk {q : List Instr} {s : State} (h : Inv q s) {t : Table Chk} (ht : Table.wf {} t = true) :
    Inv q { s with chk := t } :=
  { queue := h.queue, owners := h.owners, level := h.level, chk := ht,
    bells := h.bells, ecnt := h.ecnt, rings := h.rings, own := h.own, mirror := h.mirror, moor := h.moor, xc
    := h.xc, paths := h.paths, members := h.members, berths := h.berths, ctls := h.ctls, dqs := h.dqs, dcmds
    := h.dcmds, resvs := h.resvs, serves := h.serves, pilots := h.pilots, cask := h.cask, cellar := h.cellar,
    celOwn := h.celOwn, bays := h.bays, arbs := h.arbs, code := h.code, hmmem := h.hmmem, csrc := h.csrc, gm
    := h.gm, vbank := h.vbank, graft := h.graft, fwin := h.fwin, qtx := h.qtx }

theorem Inv.put_csrc {q : List Instr} {s : State} (h : Inv q s) {t : Table Csrc} (ht : Table.wf {} t = true) :
    Inv q { s with csrc := t } :=
  { queue := h.queue, owners := h.owners, level := h.level, csrc := ht,
    bells := h.bells, ecnt := h.ecnt, rings := h.rings, own := h.own, mirror := h.mirror, moor := h.moor, xc
    := h.xc, paths := h.paths, members := h.members, berths := h.berths, ctls := h.ctls, dqs := h.dqs, dcmds
    := h.dcmds, resvs := h.resvs, serves := h.serves, pilots := h.pilots, cask := h.cask, cellar := h.cellar,
    celOwn := h.celOwn, bays := h.bays, arbs := h.arbs, code := h.code, hmmem := h.hmmem, chk := h.chk, gm :=
    h.gm, vbank := h.vbank, graft := h.graft, fwin := h.fwin, qtx := h.qtx }

theorem Inv.put_gm {q : List Instr} {s : State} (h : Inv q s) {t : Table Gm} (ht : Table.wf {} t = true) :
    Inv q { s with gm := t } :=
  { queue := h.queue, owners := h.owners, level := h.level, gm := ht,
    bells := h.bells, ecnt := h.ecnt, rings := h.rings, own := h.own, mirror := h.mirror, moor := h.moor, xc
    := h.xc, paths := h.paths, members := h.members, berths := h.berths, ctls := h.ctls, dqs := h.dqs, dcmds
    := h.dcmds, resvs := h.resvs, serves := h.serves, pilots := h.pilots, cask := h.cask, cellar := h.cellar,
    celOwn := h.celOwn, bays := h.bays, arbs := h.arbs, code := h.code, hmmem := h.hmmem, chk := h.chk, csrc
    := h.csrc, vbank := h.vbank, graft := h.graft, fwin := h.fwin, qtx := h.qtx }

theorem Inv.put_vbank {q : List Instr} {s : State} (h : Inv q s) {t : Table VBank} (ht : Table.wf {} t = true) :
    Inv q { s with vbank := t } :=
  { queue := h.queue, owners := h.owners, level := h.level, vbank := ht,
    bells := h.bells, ecnt := h.ecnt, rings := h.rings, own := h.own, mirror := h.mirror, moor := h.moor, xc
    := h.xc, paths := h.paths, members := h.members, berths := h.berths, ctls := h.ctls, dqs := h.dqs, dcmds
    := h.dcmds, resvs := h.resvs, serves := h.serves, pilots := h.pilots, cask := h.cask, cellar := h.cellar,
    celOwn := h.celOwn, bays := h.bays, arbs := h.arbs, code := h.code, hmmem := h.hmmem, chk := h.chk, csrc
    := h.csrc, gm := h.gm, graft := h.graft, fwin := h.fwin, qtx := h.qtx }

theorem Inv.put_graft {q : List Instr} {s : State} (h : Inv q s) {t : Table Graft} (ht : Table.wf {} t = true) :
    Inv q { s with graft := t } :=
  { queue := h.queue, owners := h.owners, level := h.level, graft := ht,
    bells := h.bells, ecnt := h.ecnt, rings := h.rings, own := h.own, mirror := h.mirror, moor := h.moor, xc
    := h.xc, paths := h.paths, members := h.members, berths := h.berths, ctls := h.ctls, dqs := h.dqs, dcmds
    := h.dcmds, resvs := h.resvs, serves := h.serves, pilots := h.pilots, cask := h.cask, cellar := h.cellar,
    celOwn := h.celOwn, bays := h.bays, arbs := h.arbs, code := h.code, hmmem := h.hmmem, chk := h.chk, csrc
    := h.csrc, gm := h.gm, vbank := h.vbank, fwin := h.fwin, qtx := h.qtx }

theorem Inv.put_fwin {q : List Instr} {s : State} (h : Inv q s) {t : Table FWin} (ht : Table.wf {} t = true) :
    Inv q { s with fwin := t } :=
  { queue := h.queue, owners := h.owners, level := h.level, fwin := ht,
    bells := h.bells, ecnt := h.ecnt, rings := h.rings, own := h.own, mirror := h.mirror, moor := h.moor, xc
    := h.xc, paths := h.paths, members := h.members, berths := h.berths, ctls := h.ctls, dqs := h.dqs, dcmds
    := h.dcmds, resvs := h.resvs, serves := h.serves, pilots := h.pilots, cask := h.cask, cellar := h.cellar,
    celOwn := h.celOwn, bays := h.bays, arbs := h.arbs, code := h.code, hmmem := h.hmmem, chk := h.chk, csrc
    := h.csrc, gm := h.gm, vbank := h.vbank, graft := h.graft, qtx := h.qtx }

theorem Inv.put_qtx {q : List Instr} {s : State} (h : Inv q s) {t : Table QLane} (ht : Table.wf {} t = true) :
    Inv q { s with qtx := t } :=
  { queue := h.queue, owners := h.owners, level := h.level, qtx := ht,
    bells := h.bells, ecnt := h.ecnt, rings := h.rings, own := h.own, mirror := h.mirror, moor := h.moor, xc
    := h.xc, paths := h.paths, members := h.members, berths := h.berths, ctls := h.ctls, dqs := h.dqs, dcmds
    := h.dcmds, resvs := h.resvs, serves := h.serves, pilots := h.pilots, cask := h.cask, cellar := h.cellar,
    celOwn := h.celOwn, bays := h.bays, arbs := h.arbs, code := h.code, hmmem := h.hmmem, chk := h.chk, csrc
    := h.csrc, gm := h.gm, vbank := h.vbank, graft := h.graft, fwin := h.fwin }

theorem Inv.put_celOwn {q : List Instr} {s : State} (h : Inv q s) {t : Table (BitVec 2)} (ht : Table.wf 0 t = true)
    (hl : t.all (fun e => decide (e.2 ≠ 3)) = true) : Inv q { s with celOwn := t } :=
  { queue := h.queue, owners := hl, level := h.level, celOwn := ht,
    bells := h.bells, ecnt := h.ecnt, rings := h.rings, own := h.own, mirror := h.mirror, moor := h.moor, xc
    := h.xc, paths := h.paths, members := h.members, berths := h.berths, ctls := h.ctls, dqs := h.dqs, dcmds
    := h.dcmds, resvs := h.resvs, serves := h.serves, pilots := h.pilots, cask := h.cask, cellar := h.cellar,
    bays := h.bays, arbs := h.arbs, code := h.code, hmmem := h.hmmem, chk := h.chk, csrc := h.csrc, gm :=
    h.gm, vbank := h.vbank, graft := h.graft, fwin := h.fwin, qtx := h.qtx }

theorem Inv.put_blk {q : List Instr} {s : State} (h : Inv q s) {b : Blk} (hb : (decide (b.mode = 4) || decide (b.dlevel = 0)) = true) :
    Inv q { s with blk := b } :=
  { queue := h.queue, owners := h.owners, level := hb,
    bells := h.bells, ecnt := h.ecnt, rings := h.rings, own := h.own, mirror := h.mirror, moor := h.moor, xc
    := h.xc, paths := h.paths, members := h.members, berths := h.berths, ctls := h.ctls, dqs := h.dqs, dcmds
    := h.dcmds, resvs := h.resvs, serves := h.serves, pilots := h.pilots, cask := h.cask, cellar := h.cellar,
    celOwn := h.celOwn, bays := h.bays, arbs := h.arbs, code := h.code, hmmem := h.hmmem, chk := h.chk, csrc
    := h.csrc, gm := h.gm, vbank := h.vbank, graft := h.graft, fwin := h.fwin, qtx := h.qtx }

/-! How the invariant passes through conditionals, folds and pairs. -/

theorem inv_ite {q : List Instr} {c : Prop} [Decidable c] {x y : State} (hx : Inv q x) (hy : Inv q y) :
    Inv q (if c then x else y) := by
  split
  · exact hx
  · exact hy

theorem inv_foldl {q : List Instr} {β : Type} {f : State → β → State} (hf : ∀ s b, Inv q s → Inv q (f s b)) :
    ∀ (l : List β) (s : State), Inv q s → Inv q (l.foldl f s)
  | [], _, h => h
  | b :: l, s, h => inv_foldl hf l (f s b) (hf s b h)

theorem inv_foldl_fst {q : List Instr} {β γ : Type} {f : State × γ → β → State × γ}
    (hf : ∀ r b, Inv q r.1 → Inv q (f r b).1) : ∀ (l : List β) (r : State × γ), Inv q r.1 → Inv q (l.foldl f r).1
  | [], _, h => h
  | b :: l, r, h => inv_foldl_fst hf l (f r b) (hf r b h)

theorem inv_foldr {q : List Instr} {β : Type} {f : β → State → State} (hf : ∀ b s, Inv q s → Inv q (f b s)) :
    ∀ (l : List β) (s : State), Inv q s → Inv q (l.foldr f s)
  | [], _, h => h
  | b :: l, s, h => hf b _ (inv_foldr hf l s h)

theorem inv_fst {q : List Instr} {β : Type} {p : State × β} {s : State} {b : β} (e : p = (s, b)) (h : Inv q p.1) :
    Inv q s := by subst e; exact h

theorem inv_snd {q : List Instr} {β : Type} {p : β × State} {s : State} {b : β} (e : p = (b, s)) (h : Inv q p.2) :
    Inv q s := by subst e; exact h

/-- The invariant of what an instruction's body answers. -/
def PRes.Inv (q : List Instr) : PRes → Prop
  | .done s => Machine.Inv q s
  | .brk s => Machine.Inv q s
  | .trap _ _ s => Machine.Inv q s
  | .stop s => Machine.Inv q s

theorem pinv_done {q : List Instr} {s : State} (h : Machine.Inv q s) : PRes.Inv q (.done s) := h

theorem pinv_brk {q : List Instr} {s : State} (h : Machine.Inv q s) : PRes.Inv q (.brk s) := h

theorem pinv_trap {q : List Instr} {c : BitVec 4} {v : W64} {s : State} (h : Machine.Inv q s) : PRes.Inv q (.trap c v s) := h

theorem pinv_stop {q : List Instr} {s : State} (h : Machine.Inv q s) : PRes.Inv q (.stop s) := h

theorem pinv_of_done {q : List Instr} {r : PRes} {s : State} (e : r = .done s) (h : r.Inv q) : Machine.Inv q s := by
  subst e; exact h

theorem pinv_of_brk {q : List Instr} {r : PRes} {s : State} (e : r = .brk s) (h : r.Inv q) : Machine.Inv q s := by
  subst e; exact h

theorem pinv_of_trap {q : List Instr} {r : PRes} {c : BitVec 4} {v : W64} {s : State} (e : r = .trap c v s)
    (h : r.Inv q) : Machine.Inv q s := by
  subst e; exact h

theorem pinv_of_stop {q : List Instr} {r : PRes} {s : State} (e : r = .stop s) (h : r.Inv q) : Machine.Inv q s := by
  subst e; exact h

theorem pinv_ite {q : List Instr} {c : Prop} [Decidable c] {x y : PRes} (hx : x.Inv q) (hy : y.Inv q) :
    PRes.Inv q (if c then x else y) := by
  split
  · exact hx
  · exact hy

/-- The invariant of a command's answer. -/
def OInv (q : List Instr) (o : Out) : Prop := ∀ t, o = .next t → Inv q t

theorem oinv_next {q : List Instr} {s : State} (h : Inv q s) : OInv q (.next s) := by
  intro t e
  cases e
  exact h

theorem oinv_ite {q : List Instr} {c : Prop} [Decidable c] {x y : Out} (hx : OInv q x) (hy : OInv q y) :
    OInv q (if c then x else y) := by
  split
  · exact hx
  · exact hy

/-! A state built from a sound one: what changes outside the part, with at most one table of the part, or with all of
them. -/

variable
    {tide' : Tide} {bwd' : Bwd} {evc' : Evc} {pick' : Option Nat} {wm' : BitVec 20} {sres' : BitVec 20}
    {resvRefused' : Bool} {recq' : List W64} {hbr' : Hbr} {hm' : Hm} {mbrkLease' : BitVec 16} {mbrkFault' : BitVec
    16} {mlast' : W64} {admSeq' : Nat} {tw' : Twin} {plc' : Plc} {dock' : Dock} {arbCount' : W32} {ltr' : Ltr}
    {boot' : Boot} {pwr' : Pwr} {vin' : Vin} {dbg' : Dbg} {fstop' : Bool} {ctlRdat' : W64} {ctlErr' : Bool} {out'
    : List Emit} {freeCtr' : Nat}

theorem Inv.mk_plain {q : List Instr} {s : State} (h : Inv q s)
    : Inv q { s with
    tide := tide', bwd := bwd', evc := evc', pick := pick', wm := wm', sres := sres', resvRefused := resvRefused',
    recq := recq', hbr := hbr', hm := hm', mbrkLease := mbrkLease', mbrkFault := mbrkFault', mlast := mlast',
    admSeq := admSeq', tw := tw', plc := plc', dock := dock', arbCount := arbCount', ltr := ltr', boot := boot',
    pwr := pwr', vin := vin', dbg := dbg', fstop := fstop', ctlRdat := ctlRdat', ctlErr := ctlErr', out := out',
    freeCtr := freeCtr' } :=
  Inv.plain h rfl

theorem Inv.mk_bells {q : List Instr} {s : State} (h : Inv q s) {t : Table Bell}
    (ht : Table.wf {} s.bells = true → Table.wf {} t = true)
    : Inv q { s with
    bells := t, tide := tide', bwd := bwd', evc := evc', pick := pick', wm := wm', sres := sres', resvRefused := resvRefused',
    recq := recq', hbr := hbr', hm := hm', mbrkLease := mbrkLease', mbrkFault := mbrkFault', mlast := mlast',
    admSeq := admSeq', tw := tw', plc := plc', dock := dock', arbCount := arbCount', ltr := ltr', boot := boot',
    pwr := pwr', vin := vin', dbg := dbg', fstop := fstop', ctlRdat := ctlRdat', ctlErr := ctlErr', out := out',
    freeCtr := freeCtr' } :=
  Inv.plain (Inv.put_bells h (ht h.bells)) rfl

theorem Inv.mk_ecnt {q : List Instr} {s : State} (h : Inv q s) {t : Table Ecnt}
    (ht : Table.wf {} s.ecnt = true → Table.wf {} t = true)
    : Inv q { s with
    ecnt := t, tide := tide', bwd := bwd', evc := evc', pick := pick', wm := wm', sres := sres', resvRefused := resvRefused',
    recq := recq', hbr := hbr', hm := hm', mbrkLease := mbrkLease', mbrkFault := mbrkFault', mlast := mlast',
    admSeq := admSeq', tw := tw', plc := plc', dock := dock', arbCount := arbCount', ltr := ltr', boot := boot',
    pwr := pwr', vin := vin', dbg := dbg', fstop := fstop', ctlRdat := ctlRdat', ctlErr := ctlErr', out := out',
    freeCtr := freeCtr' } :=
  Inv.plain (Inv.put_ecnt h (ht h.ecnt)) rfl

theorem Inv.mk_rings {q : List Instr} {s : State} (h : Inv q s) {t : Table Ring}
    (ht : Table.wf {} s.rings = true → Table.wf {} t = true)
    : Inv q { s with
    rings := t, tide := tide', bwd := bwd', evc := evc', pick := pick', wm := wm', sres := sres', resvRefused := resvRefused',
    recq := recq', hbr := hbr', hm := hm', mbrkLease := mbrkLease', mbrkFault := mbrkFault', mlast := mlast',
    admSeq := admSeq', tw := tw', plc := plc', dock := dock', arbCount := arbCount', ltr := ltr', boot := boot',
    pwr := pwr', vin := vin', dbg := dbg', fstop := fstop', ctlRdat := ctlRdat', ctlErr := ctlErr', out := out',
    freeCtr := freeCtr' } :=
  Inv.plain (Inv.put_rings h (ht h.rings)) rfl

theorem Inv.mk_own {q : List Instr} {s : State} (h : Inv q s) {t : Table Own}
    (ht : Table.wf {} s.own = true → Table.wf {} t = true)
    : Inv q { s with
    own := t, tide := tide', bwd := bwd', evc := evc', pick := pick', wm := wm', sres := sres', resvRefused := resvRefused',
    recq := recq', hbr := hbr', hm := hm', mbrkLease := mbrkLease', mbrkFault := mbrkFault', mlast := mlast',
    admSeq := admSeq', tw := tw', plc := plc', dock := dock', arbCount := arbCount', ltr := ltr', boot := boot',
    pwr := pwr', vin := vin', dbg := dbg', fstop := fstop', ctlRdat := ctlRdat', ctlErr := ctlErr', out := out',
    freeCtr := freeCtr' } :=
  Inv.plain (Inv.put_own h (ht h.own)) rfl

theorem Inv.mk_mirror {q : List Instr} {s : State} (h : Inv q s) {t : Table Mir}
    (ht : Table.wf {} s.mirror = true → Table.wf {} t = true)
    : Inv q { s with
    mirror := t, tide := tide', bwd := bwd', evc := evc', pick := pick', wm := wm', sres := sres', resvRefused := resvRefused',
    recq := recq', hbr := hbr', hm := hm', mbrkLease := mbrkLease', mbrkFault := mbrkFault', mlast := mlast',
    admSeq := admSeq', tw := tw', plc := plc', dock := dock', arbCount := arbCount', ltr := ltr', boot := boot',
    pwr := pwr', vin := vin', dbg := dbg', fstop := fstop', ctlRdat := ctlRdat', ctlErr := ctlErr', out := out',
    freeCtr := freeCtr' } :=
  Inv.plain (Inv.put_mirror h (ht h.mirror)) rfl

theorem Inv.mk_moor {q : List Instr} {s : State} (h : Inv q s) {t : Table Moor}
    (ht : Table.wf {} s.moor = true → Table.wf {} t = true)
    : Inv q { s with
    moor := t, tide := tide', bwd := bwd', evc := evc', pick := pick', wm := wm', sres := sres', resvRefused := resvRefused',
    recq := recq', hbr := hbr', hm := hm', mbrkLease := mbrkLease', mbrkFault := mbrkFault', mlast := mlast',
    admSeq := admSeq', tw := tw', plc := plc', dock := dock', arbCount := arbCount', ltr := ltr', boot := boot',
    pwr := pwr', vin := vin', dbg := dbg', fstop := fstop', ctlRdat := ctlRdat', ctlErr := ctlErr', out := out',
    freeCtr := freeCtr' } :=
  Inv.plain (Inv.put_moor h (ht h.moor)) rfl

theorem Inv.mk_xc {q : List Instr} {s : State} (h : Inv q s) {t : Table Xc}
    (ht : Table.wf {} s.xc = true → Table.wf {} t = true)
    : Inv q { s with
    xc := t, tide := tide', bwd := bwd', evc := evc', pick := pick', wm := wm', sres := sres', resvRefused := resvRefused',
    recq := recq', hbr := hbr', hm := hm', mbrkLease := mbrkLease', mbrkFault := mbrkFault', mlast := mlast',
    admSeq := admSeq', tw := tw', plc := plc', dock := dock', arbCount := arbCount', ltr := ltr', boot := boot',
    pwr := pwr', vin := vin', dbg := dbg', fstop := fstop', ctlRdat := ctlRdat', ctlErr := ctlErr', out := out',
    freeCtr := freeCtr' } :=
  Inv.plain (Inv.put_xc h (ht h.xc)) rfl

theorem Inv.mk_paths {q : List Instr} {s : State} (h : Inv q s) {t : Table Path}
    (ht : Table.wf {} s.paths = true → Table.wf {} t = true)
    : Inv q { s with
    paths := t, tide := tide', bwd := bwd', evc := evc', pick := pick', wm := wm', sres := sres', resvRefused := resvRefused',
    recq := recq', hbr := hbr', hm := hm', mbrkLease := mbrkLease', mbrkFault := mbrkFault', mlast := mlast',
    admSeq := admSeq', tw := tw', plc := plc', dock := dock', arbCount := arbCount', ltr := ltr', boot := boot',
    pwr := pwr', vin := vin', dbg := dbg', fstop := fstop', ctlRdat := ctlRdat', ctlErr := ctlErr', out := out',
    freeCtr := freeCtr' } :=
  Inv.plain (Inv.put_paths h (ht h.paths)) rfl

theorem Inv.mk_members {q : List Instr} {s : State} (h : Inv q s) {t : Table Member}
    (ht : Table.wf {} s.members = true → Table.wf {} t = true)
    : Inv q { s with
    members := t, tide := tide', bwd := bwd', evc := evc', pick := pick', wm := wm', sres := sres', resvRefused := resvRefused',
    recq := recq', hbr := hbr', hm := hm', mbrkLease := mbrkLease', mbrkFault := mbrkFault', mlast := mlast',
    admSeq := admSeq', tw := tw', plc := plc', dock := dock', arbCount := arbCount', ltr := ltr', boot := boot',
    pwr := pwr', vin := vin', dbg := dbg', fstop := fstop', ctlRdat := ctlRdat', ctlErr := ctlErr', out := out',
    freeCtr := freeCtr' } :=
  Inv.plain (Inv.put_members h (ht h.members)) rfl

theorem Inv.mk_berths {q : List Instr} {s : State} (h : Inv q s) {t : Table Berth}
    (ht : Table.wf {} s.berths = true → Table.wf {} t = true)
    : Inv q { s with
    berths := t, tide := tide', bwd := bwd', evc := evc', pick := pick', wm := wm', sres := sres', resvRefused := resvRefused',
    recq := recq', hbr := hbr', hm := hm', mbrkLease := mbrkLease', mbrkFault := mbrkFault', mlast := mlast',
    admSeq := admSeq', tw := tw', plc := plc', dock := dock', arbCount := arbCount', ltr := ltr', boot := boot',
    pwr := pwr', vin := vin', dbg := dbg', fstop := fstop', ctlRdat := ctlRdat', ctlErr := ctlErr', out := out',
    freeCtr := freeCtr' } :=
  Inv.plain (Inv.put_berths h (ht h.berths)) rfl

theorem Inv.mk_ctls {q : List Instr} {s : State} (h : Inv q s) {t : Table Ctl}
    (ht : Table.wf {} s.ctls = true → Table.wf {} t = true)
    : Inv q { s with
    ctls := t, tide := tide', bwd := bwd', evc := evc', pick := pick', wm := wm', sres := sres', resvRefused := resvRefused',
    recq := recq', hbr := hbr', hm := hm', mbrkLease := mbrkLease', mbrkFault := mbrkFault', mlast := mlast',
    admSeq := admSeq', tw := tw', plc := plc', dock := dock', arbCount := arbCount', ltr := ltr', boot := boot',
    pwr := pwr', vin := vin', dbg := dbg', fstop := fstop', ctlRdat := ctlRdat', ctlErr := ctlErr', out := out',
    freeCtr := freeCtr' } :=
  Inv.plain (Inv.put_ctls h (ht h.ctls)) rfl

theorem Inv.mk_dqs {q : List Instr} {s : State} (h : Inv q s) {t : Table Dq}
    (ht : Table.wf {} s.dqs = true → Table.wf {} t = true)
    : Inv q { s with
    dqs := t, tide := tide', bwd := bwd', evc := evc', pick := pick', wm := wm', sres := sres', resvRefused := resvRefused',
    recq := recq', hbr := hbr', hm := hm', mbrkLease := mbrkLease', mbrkFault := mbrkFault', mlast := mlast',
    admSeq := admSeq', tw := tw', plc := plc', dock := dock', arbCount := arbCount', ltr := ltr', boot := boot',
    pwr := pwr', vin := vin', dbg := dbg', fstop := fstop', ctlRdat := ctlRdat', ctlErr := ctlErr', out := out',
    freeCtr := freeCtr' } :=
  Inv.plain (Inv.put_dqs h (ht h.dqs)) rfl

theorem Inv.mk_dcmds {q : List Instr} {s : State} (h : Inv q s) {t : Table (Option DCmd)}
    (ht : Table.wf none s.dcmds = true → Table.wf none t = true)
    : Inv q { s with
    dcmds := t, tide := tide', bwd := bwd', evc := evc', pick := pick', wm := wm', sres := sres', resvRefused := resvRefused',
    recq := recq', hbr := hbr', hm := hm', mbrkLease := mbrkLease', mbrkFault := mbrkFault', mlast := mlast',
    admSeq := admSeq', tw := tw', plc := plc', dock := dock', arbCount := arbCount', ltr := ltr', boot := boot',
    pwr := pwr', vin := vin', dbg := dbg', fstop := fstop', ctlRdat := ctlRdat', ctlErr := ctlErr', out := out',
    freeCtr := freeCtr' } :=
  Inv.plain (Inv.put_dcmds h (ht h.dcmds)) rfl

theorem Inv.mk_resvs {q : List Instr} {s : State} (h : Inv q s) {t : Table (Option Resv)}
    (ht : Table.wf none s.resvs = true → Table.wf none t = true)
    : Inv q { s with
    resvs := t, tide := tide', bwd := bwd', evc := evc', pick := pick', wm := wm', sres := sres', resvRefused := resvRefused',
    recq := recq', hbr := hbr', hm := hm', mbrkLease := mbrkLease', mbrkFault := mbrkFault', mlast := mlast',
    admSeq := admSeq', tw := tw', plc := plc', dock := dock', arbCount := arbCount', ltr := ltr', boot := boot',
    pwr := pwr', vin := vin', dbg := dbg', fstop := fstop', ctlRdat := ctlRdat', ctlErr := ctlErr', out := out',
    freeCtr := freeCtr' } :=
  Inv.plain (Inv.put_resvs h (ht h.resvs)) rfl

theorem Inv.mk_serves {q : List Instr} {s : State} (h : Inv q s) {t : Table (Option Serve)}
    (ht : Table.wf none s.serves = true → Table.wf none t = true)
    : Inv q { s with
    serves := t, tide := tide', bwd := bwd', evc := evc', pick := pick', wm := wm', sres := sres', resvRefused := resvRefused',
    recq := recq', hbr := hbr', hm := hm', mbrkLease := mbrkLease', mbrkFault := mbrkFault', mlast := mlast',
    admSeq := admSeq', tw := tw', plc := plc', dock := dock', arbCount := arbCount', ltr := ltr', boot := boot',
    pwr := pwr', vin := vin', dbg := dbg', fstop := fstop', ctlRdat := ctlRdat', ctlErr := ctlErr', out := out',
    freeCtr := freeCtr' } :=
  Inv.plain (Inv.put_serves h (ht h.serves)) rfl

theorem Inv.mk_pilots {q : List Instr} {s : State} (h : Inv q s) {t : Table Pilot}
    (ht : Table.wf {} s.pilots = true → Table.wf {} t = true)
    : Inv q { s with
    pilots := t, tide := tide', bwd := bwd', evc := evc', pick := pick', wm := wm', sres := sres', resvRefused := resvRefused',
    recq := recq', hbr := hbr', hm := hm', mbrkLease := mbrkLease', mbrkFault := mbrkFault', mlast := mlast',
    admSeq := admSeq', tw := tw', plc := plc', dock := dock', arbCount := arbCount', ltr := ltr', boot := boot',
    pwr := pwr', vin := vin', dbg := dbg', fstop := fstop', ctlRdat := ctlRdat', ctlErr := ctlErr', out := out',
    freeCtr := freeCtr' } :=
  Inv.plain (Inv.put_pilots h (ht h.pilots)) rfl

theorem Inv.mk_cask {q : List Instr} {s : State} (h : Inv q s) {t : Table TWord}
    (ht : Table.wf emptyW s.cask = true → Table.wf emptyW t = true)
    : Inv q { s with
    cask := t, tide := tide', bwd := bwd', evc := evc', pick := pick', wm := wm', sres := sres', resvRefused := resvRefused',
    recq := recq', hbr := hbr', hm := hm', mbrkLease := mbrkLease', mbrkFault := mbrkFault', mlast := mlast',
    admSeq := admSeq', tw := tw', plc := plc', dock := dock', arbCount := arbCount', ltr := ltr', boot := boot',
    pwr := pwr', vin := vin', dbg := dbg', fstop := fstop', ctlRdat := ctlRdat', ctlErr := ctlErr', out := out',
    freeCtr := freeCtr' } :=
  Inv.plain (Inv.put_cask h (ht h.cask)) rfl

theorem Inv.mk_cellar {q : List Instr} {s : State} (h : Inv q s) {t : Table TWord}
    (ht : Table.wf emptyW s.cellar = true → Table.wf emptyW t = true)
    : Inv q { s with
    cellar := t, tide := tide', bwd := bwd', evc := evc', pick := pick', wm := wm', sres := sres', resvRefused := resvRefused',
    recq := recq', hbr := hbr', hm := hm', mbrkLease := mbrkLease', mbrkFault := mbrkFault', mlast := mlast',
    admSeq := admSeq', tw := tw', plc := plc', dock := dock', arbCount := arbCount', ltr := ltr', boot := boot',
    pwr := pwr', vin := vin', dbg := dbg', fstop := fstop', ctlRdat := ctlRdat', ctlErr := ctlErr', out := out',
    freeCtr := freeCtr' } :=
  Inv.plain (Inv.put_cellar h (ht h.cellar)) rfl

theorem Inv.mk_bays {q : List Instr} {s : State} (h : Inv q s) {t : Table Bay}
    (ht : Table.wf {} s.bays = true → Table.wf {} t = true)
    : Inv q { s with
    bays := t, tide := tide', bwd := bwd', evc := evc', pick := pick', wm := wm', sres := sres', resvRefused := resvRefused',
    recq := recq', hbr := hbr', hm := hm', mbrkLease := mbrkLease', mbrkFault := mbrkFault', mlast := mlast',
    admSeq := admSeq', tw := tw', plc := plc', dock := dock', arbCount := arbCount', ltr := ltr', boot := boot',
    pwr := pwr', vin := vin', dbg := dbg', fstop := fstop', ctlRdat := ctlRdat', ctlErr := ctlErr', out := out',
    freeCtr := freeCtr' } :=
  Inv.plain (Inv.put_bays h (ht h.bays)) rfl

theorem Inv.mk_arbs {q : List Instr} {s : State} (h : Inv q s) {t : Table Arb}
    (ht : Table.wf {} s.arbs = true → Table.wf {} t = true)
    : Inv q { s with
    arbs := t, tide := tide', bwd := bwd', evc := evc', pick := pick', wm := wm', sres := sres', resvRefused := resvRefused',
    recq := recq', hbr := hbr', hm := hm', mbrkLease := mbrkLease', mbrkFault := mbrkFault', mlast := mlast',
    admSeq := admSeq', tw := tw', plc := plc', dock := dock', arbCount := arbCount', ltr := ltr', boot := boot',
    pwr := pwr', vin := vin', dbg := dbg', fstop := fstop', ctlRdat := ctlRdat', ctlErr := ctlErr', out := out',
    freeCtr := freeCtr' } :=
  Inv.plain (Inv.put_arbs h (ht h.arbs)) rfl

theorem Inv.mk_code {q : List Instr} {s : State} (h : Inv q s) {t : Table W32}
    (ht : Table.wf 0 s.code = true → Table.wf 0 t = true)
    : Inv q { s with
    code := t, tide := tide', bwd := bwd', evc := evc', pick := pick', wm := wm', sres := sres', resvRefused := resvRefused',
    recq := recq', hbr := hbr', hm := hm', mbrkLease := mbrkLease', mbrkFault := mbrkFault', mlast := mlast',
    admSeq := admSeq', tw := tw', plc := plc', dock := dock', arbCount := arbCount', ltr := ltr', boot := boot',
    pwr := pwr', vin := vin', dbg := dbg', fstop := fstop', ctlRdat := ctlRdat', ctlErr := ctlErr', out := out',
    freeCtr := freeCtr' } :=
  Inv.plain (Inv.put_code h (ht h.code)) rfl

theorem Inv.mk_hmmem {q : List Instr} {s : State} (h : Inv q s) {t : Table TWord}
    (ht : Table.wf emptyW s.hmmem = true → Table.wf emptyW t = true)
    : Inv q { s with
    hmmem := t, tide := tide', bwd := bwd', evc := evc', pick := pick', wm := wm', sres := sres', resvRefused := resvRefused',
    recq := recq', hbr := hbr', hm := hm', mbrkLease := mbrkLease', mbrkFault := mbrkFault', mlast := mlast',
    admSeq := admSeq', tw := tw', plc := plc', dock := dock', arbCount := arbCount', ltr := ltr', boot := boot',
    pwr := pwr', vin := vin', dbg := dbg', fstop := fstop', ctlRdat := ctlRdat', ctlErr := ctlErr', out := out',
    freeCtr := freeCtr' } :=
  Inv.plain (Inv.put_hmmem h (ht h.hmmem)) rfl

theorem Inv.mk_chk {q : List Instr} {s : State} (h : Inv q s) {t : Table Chk}
    (ht : Table.wf {} s.chk = true → Table.wf {} t = true)
    : Inv q { s with
    chk := t, tide := tide', bwd := bwd', evc := evc', pick := pick', wm := wm', sres := sres', resvRefused := resvRefused',
    recq := recq', hbr := hbr', hm := hm', mbrkLease := mbrkLease', mbrkFault := mbrkFault', mlast := mlast',
    admSeq := admSeq', tw := tw', plc := plc', dock := dock', arbCount := arbCount', ltr := ltr', boot := boot',
    pwr := pwr', vin := vin', dbg := dbg', fstop := fstop', ctlRdat := ctlRdat', ctlErr := ctlErr', out := out',
    freeCtr := freeCtr' } :=
  Inv.plain (Inv.put_chk h (ht h.chk)) rfl

theorem Inv.mk_csrc {q : List Instr} {s : State} (h : Inv q s) {t : Table Csrc}
    (ht : Table.wf {} s.csrc = true → Table.wf {} t = true)
    : Inv q { s with
    csrc := t, tide := tide', bwd := bwd', evc := evc', pick := pick', wm := wm', sres := sres', resvRefused := resvRefused',
    recq := recq', hbr := hbr', hm := hm', mbrkLease := mbrkLease', mbrkFault := mbrkFault', mlast := mlast',
    admSeq := admSeq', tw := tw', plc := plc', dock := dock', arbCount := arbCount', ltr := ltr', boot := boot',
    pwr := pwr', vin := vin', dbg := dbg', fstop := fstop', ctlRdat := ctlRdat', ctlErr := ctlErr', out := out',
    freeCtr := freeCtr' } :=
  Inv.plain (Inv.put_csrc h (ht h.csrc)) rfl

theorem Inv.mk_gm {q : List Instr} {s : State} (h : Inv q s) {t : Table Gm}
    (ht : Table.wf {} s.gm = true → Table.wf {} t = true)
    : Inv q { s with
    gm := t, tide := tide', bwd := bwd', evc := evc', pick := pick', wm := wm', sres := sres', resvRefused := resvRefused',
    recq := recq', hbr := hbr', hm := hm', mbrkLease := mbrkLease', mbrkFault := mbrkFault', mlast := mlast',
    admSeq := admSeq', tw := tw', plc := plc', dock := dock', arbCount := arbCount', ltr := ltr', boot := boot',
    pwr := pwr', vin := vin', dbg := dbg', fstop := fstop', ctlRdat := ctlRdat', ctlErr := ctlErr', out := out',
    freeCtr := freeCtr' } :=
  Inv.plain (Inv.put_gm h (ht h.gm)) rfl

theorem Inv.mk_vbank {q : List Instr} {s : State} (h : Inv q s) {t : Table VBank}
    (ht : Table.wf {} s.vbank = true → Table.wf {} t = true)
    : Inv q { s with
    vbank := t, tide := tide', bwd := bwd', evc := evc', pick := pick', wm := wm', sres := sres', resvRefused := resvRefused',
    recq := recq', hbr := hbr', hm := hm', mbrkLease := mbrkLease', mbrkFault := mbrkFault', mlast := mlast',
    admSeq := admSeq', tw := tw', plc := plc', dock := dock', arbCount := arbCount', ltr := ltr', boot := boot',
    pwr := pwr', vin := vin', dbg := dbg', fstop := fstop', ctlRdat := ctlRdat', ctlErr := ctlErr', out := out',
    freeCtr := freeCtr' } :=
  Inv.plain (Inv.put_vbank h (ht h.vbank)) rfl

theorem Inv.mk_graft {q : List Instr} {s : State} (h : Inv q s) {t : Table Graft}
    (ht : Table.wf {} s.graft = true → Table.wf {} t = true)
    : Inv q { s with
    graft := t, tide := tide', bwd := bwd', evc := evc', pick := pick', wm := wm', sres := sres', resvRefused := resvRefused',
    recq := recq', hbr := hbr', hm := hm', mbrkLease := mbrkLease', mbrkFault := mbrkFault', mlast := mlast',
    admSeq := admSeq', tw := tw', plc := plc', dock := dock', arbCount := arbCount', ltr := ltr', boot := boot',
    pwr := pwr', vin := vin', dbg := dbg', fstop := fstop', ctlRdat := ctlRdat', ctlErr := ctlErr', out := out',
    freeCtr := freeCtr' } :=
  Inv.plain (Inv.put_graft h (ht h.graft)) rfl

theorem Inv.mk_fwin {q : List Instr} {s : State} (h : Inv q s) {t : Table FWin}
    (ht : Table.wf {} s.fwin = true → Table.wf {} t = true)
    : Inv q { s with
    fwin := t, tide := tide', bwd := bwd', evc := evc', pick := pick', wm := wm', sres := sres', resvRefused := resvRefused',
    recq := recq', hbr := hbr', hm := hm', mbrkLease := mbrkLease', mbrkFault := mbrkFault', mlast := mlast',
    admSeq := admSeq', tw := tw', plc := plc', dock := dock', arbCount := arbCount', ltr := ltr', boot := boot',
    pwr := pwr', vin := vin', dbg := dbg', fstop := fstop', ctlRdat := ctlRdat', ctlErr := ctlErr', out := out',
    freeCtr := freeCtr' } :=
  Inv.plain (Inv.put_fwin h (ht h.fwin)) rfl

theorem Inv.mk_qtx {q : List Instr} {s : State} (h : Inv q s) {t : Table QLane}
    (ht : Table.wf {} s.qtx = true → Table.wf {} t = true)
    : Inv q { s with
    qtx := t, tide := tide', bwd := bwd', evc := evc', pick := pick', wm := wm', sres := sres', resvRefused := resvRefused',
    recq := recq', hbr := hbr', hm := hm', mbrkLease := mbrkLease', mbrkFault := mbrkFault', mlast := mlast',
    admSeq := admSeq', tw := tw', plc := plc', dock := dock', arbCount := arbCount', ltr := ltr', boot := boot',
    pwr := pwr', vin := vin', dbg := dbg', fstop := fstop', ctlRdat := ctlRdat', ctlErr := ctlErr', out := out',
    freeCtr := freeCtr' } :=
  Inv.plain (Inv.put_qtx h (ht h.qtx)) rfl

theorem Inv.mk_blk {q : List Instr} {s : State} (h : Inv q s) {b : Blk}
    (hb : (decide (s.blk.mode = 4) || decide (s.blk.dlevel = 0)) = true → (decide (b.mode = 4) || decide (b.dlevel = 0)) = true)
    : Inv q { s with
    blk := b, tide := tide', bwd := bwd', evc := evc', pick := pick', wm := wm', sres := sres', resvRefused := resvRefused',
    recq := recq', hbr := hbr', hm := hm', mbrkLease := mbrkLease', mbrkFault := mbrkFault', mlast := mlast',
    admSeq := admSeq', tw := tw', plc := plc', dock := dock', arbCount := arbCount', ltr := ltr', boot := boot',
    pwr := pwr', vin := vin', dbg := dbg', fstop := fstop', ctlRdat := ctlRdat', ctlErr := ctlErr', out := out',
    freeCtr := freeCtr' } :=
  Inv.plain (Inv.put_blk h (hb h.level)) rfl

theorem Inv.mk_celOwn {q : List Instr} {s : State} (h : Inv q s) {t : Table (BitVec 2)}
    (ht : Table.wf 0 s.celOwn = true → Table.wf 0 t = true)
    (hl : s.celOwn.all (fun e => decide (e.2 ≠ 3)) = true → t.all (fun e => decide (e.2 ≠ 3)) = true)
    : Inv q { s with
    celOwn := t, tide := tide', bwd := bwd', evc := evc', pick := pick', wm := wm', sres := sres', resvRefused := resvRefused',
    recq := recq', hbr := hbr', hm := hm', mbrkLease := mbrkLease', mbrkFault := mbrkFault', mlast := mlast',
    admSeq := admSeq', tw := tw', plc := plc', dock := dock', arbCount := arbCount', ltr := ltr', boot := boot',
    pwr := pwr', vin := vin', dbg := dbg', fstop := fstop', ctlRdat := ctlRdat', ctlErr := ctlErr', out := out',
    freeCtr := freeCtr' } :=
  Inv.plain (Inv.put_celOwn h (ht h.celOwn) (hl h.owners)) rfl

theorem Inv.mk_all {q : List Instr} {s : State} (h : Inv q s)
    {bells' : Table Bell} {ecnt' : Table Ecnt} {rings' : Table Ring} {own' : Table Own} {mirror' : Table Mir}
    {moor' : Table Moor} {xc' : Table Xc} {paths' : Table Path} {members' : Table Member} {berths' : Table Berth}
    {ctls' : Table Ctl} {dqs' : Table Dq} {dcmds' : Table (Option DCmd)} {resvs' : Table (Option Resv)} {serves' :
    Table (Option Serve)} {pilots' : Table Pilot} {cask' : Table TWord} {cellar' : Table TWord} {bays' : Table
    Bay} {arbs' : Table Arb} {code' : Table W32} {hmmem' : Table TWord} {chk' : Table Chk} {csrc' : Table Csrc}
    {gm' : Table Gm} {vbank' : Table VBank} {graft' : Table Graft} {fwin' : Table FWin} {qtx' : Table QLane}
    (h_bells : Table.wf {} s.bells = true → Table.wf {} bells' = true)
    (h_ecnt : Table.wf {} s.ecnt = true → Table.wf {} ecnt' = true)
    (h_rings : Table.wf {} s.rings = true → Table.wf {} rings' = true)
    (h_own : Table.wf {} s.own = true → Table.wf {} own' = true)
    (h_mirror : Table.wf {} s.mirror = true → Table.wf {} mirror' = true)
    (h_moor : Table.wf {} s.moor = true → Table.wf {} moor' = true)
    (h_xc : Table.wf {} s.xc = true → Table.wf {} xc' = true)
    (h_paths : Table.wf {} s.paths = true → Table.wf {} paths' = true)
    (h_members : Table.wf {} s.members = true → Table.wf {} members' = true)
    (h_berths : Table.wf {} s.berths = true → Table.wf {} berths' = true)
    (h_ctls : Table.wf {} s.ctls = true → Table.wf {} ctls' = true)
    (h_dqs : Table.wf {} s.dqs = true → Table.wf {} dqs' = true)
    (h_dcmds : Table.wf none s.dcmds = true → Table.wf none dcmds' = true)
    (h_resvs : Table.wf none s.resvs = true → Table.wf none resvs' = true)
    (h_serves : Table.wf none s.serves = true → Table.wf none serves' = true)
    (h_pilots : Table.wf {} s.pilots = true → Table.wf {} pilots' = true)
    (h_cask : Table.wf emptyW s.cask = true → Table.wf emptyW cask' = true)
    (h_cellar : Table.wf emptyW s.cellar = true → Table.wf emptyW cellar' = true)
    (h_bays : Table.wf {} s.bays = true → Table.wf {} bays' = true)
    (h_arbs : Table.wf {} s.arbs = true → Table.wf {} arbs' = true)
    (h_code : Table.wf 0 s.code = true → Table.wf 0 code' = true)
    (h_hmmem : Table.wf emptyW s.hmmem = true → Table.wf emptyW hmmem' = true)
    (h_chk : Table.wf {} s.chk = true → Table.wf {} chk' = true)
    (h_csrc : Table.wf {} s.csrc = true → Table.wf {} csrc' = true)
    (h_gm : Table.wf {} s.gm = true → Table.wf {} gm' = true)
    (h_vbank : Table.wf {} s.vbank = true → Table.wf {} vbank' = true)
    (h_graft : Table.wf {} s.graft = true → Table.wf {} graft' = true)
    (h_fwin : Table.wf {} s.fwin = true → Table.wf {} fwin' = true)
    (h_qtx : Table.wf {} s.qtx = true → Table.wf {} qtx' = true)
    : Inv q { s with
    bells := bells', ecnt := ecnt', rings := rings', own := own', mirror := mirror', moor := moor', xc := xc',
    paths := paths', members := members', berths := berths', ctls := ctls', dqs := dqs', dcmds := dcmds', resvs :=
    resvs', serves := serves', pilots := pilots', cask := cask', cellar := cellar', bays := bays', arbs := arbs',
    code := code', hmmem := hmmem', chk := chk', csrc := csrc', gm := gm', vbank := vbank', graft := graft', fwin
    := fwin', qtx := qtx', tide := tide', bwd := bwd', evc := evc', pick := pick', wm := wm', sres := sres',
    resvRefused := resvRefused', recq := recq', hbr := hbr', hm := hm', mbrkLease := mbrkLease', mbrkFault :=
    mbrkFault', mlast := mlast', admSeq := admSeq', tw := tw', plc := plc', dock := dock', arbCount := arbCount',
    ltr := ltr', boot := boot', pwr := pwr', vin := vin', dbg := dbg', fstop := fstop', ctlRdat := ctlRdat',
    ctlErr := ctlErr', out := out', freeCtr := freeCtr' } :=
  Inv.plain (s := { s with
    bells := bells', ecnt := ecnt', rings := rings', own := own', mirror := mirror', moor := moor', xc := xc',
    paths := paths', members := members', berths := berths', ctls := ctls', dqs := dqs', dcmds := dcmds', resvs :=
    resvs', serves := serves', pilots := pilots', cask := cask', cellar := cellar', bays := bays', arbs := arbs',
    code := code', hmmem := hmmem', chk := chk', csrc := csrc', gm := gm', vbank := vbank', graft := graft', fwin
    := fwin', qtx := qtx' })
    { queue := h.queue, owners := h.owners, level := h.level, celOwn := h.celOwn,
      bells := (h_bells h.bells), ecnt := (h_ecnt h.ecnt), rings := (h_rings h.rings), own := (h_own h.own),
      mirror := (h_mirror h.mirror), moor := (h_moor h.moor), xc := (h_xc h.xc), paths := (h_paths h.paths),
      members := (h_members h.members), berths := (h_berths h.berths), ctls := (h_ctls h.ctls), dqs := (h_dqs h.dqs),
      dcmds := (h_dcmds h.dcmds), resvs := (h_resvs h.resvs), serves := (h_serves h.serves), pilots := (h_pilots h.pilots),
      cask := (h_cask h.cask), cellar := (h_cellar h.cellar), bays := (h_bays h.bays), arbs := (h_arbs h.arbs),
      code := (h_code h.code), hmmem := (h_hmmem h.hmmem), chk := (h_chk h.chk), csrc := (h_csrc h.csrc), gm := (h_gm h.gm),
      vbank := (h_vbank h.vbank), graft := (h_graft h.graft), fwin := (h_fwin h.fwin), qtx := (h_qtx h.qtx) } rfl

end Sys2Proof.Machine
end

