-- ==== Sys2Proof/Laws/InvArb.lean ====
section
/-! SUPPORT. Laws/InvArb.lean: every function of Machine/Arb.lean keeps the invariant of a sound state. -/

namespace Sys2Proof.Machine

theorem setArb_inv {q : List Instr} : ∀ s x1 x2, Inv q s → Inv q (setArb s x1 x2) := by
  intro s x1 x2 h
  unfold setArb
  repeat' first
    | with_reducible assumption
    | with_reducible intro _
    | with_reducible apply inv_ite
    | split
    | (dsimp only; split)
    | refine inv_fst (by with_reducible assumption) ?_
    | refine inv_snd (by with_reducible assumption) ?_
    | with_reducible apply Inv.mk_plain
    | with_reducible refine Inv.mk_arbs ?_ (by first | exact id | exact Table.wf_put _ _ _ _ | exact Table.wf_upd _ _ _ _ | exact Table.wf_mapVals _ _ _ | exact Table.wf_putList _ _ _ _ | exact Table.wf_filter _ _ _ | exact fun h => Table.wf_put _ _ _ _ (Table.wf_put _ _ _ _ h) | exact fun _ => rfl)
    | (dsimp only; with_reducible apply Inv.mk_plain)
    | (dsimp only; with_reducible refine Inv.mk_arbs ?_ (by first | exact id | exact Table.wf_put _ _ _ _ | exact Table.wf_upd _ _ _ _ | exact Table.wf_mapVals _ _ _ | exact Table.wf_putList _ _ _ _ | exact Table.wf_filter _ _ _ | exact fun h => Table.wf_put _ _ _ _ (Table.wf_put _ _ _ _ h) | exact fun _ => rfl))

theorem arbPass_inv {q : List Instr} : ∀ s x1 x2 x3, Inv q s → Inv q (arbPass s x1 x2 x3) := by
  intro s x1 x2 x3 h
  unfold arbPass
  repeat' first
    | with_reducible assumption
    | with_reducible intro _
    | with_reducible apply setArb_inv
    | with_reducible apply inv_ite
    | split
    | (dsimp only; split)
    | refine inv_fst (by with_reducible assumption) ?_
    | refine inv_snd (by with_reducible assumption) ?_

theorem planeAsk_inv {q : List Instr} : ∀ s x1, Inv q s → Inv q (planeAsk s x1) := by
  intro s x1 h
  unfold planeAsk
  repeat' first
    | with_reducible assumption
    | with_reducible intro _
    | with_reducible apply setArb_inv
    | with_reducible apply inv_ite
    | split
    | (dsimp only; split)
    | refine inv_fst (by with_reducible assumption) ?_
    | refine inv_snd (by with_reducible assumption) ?_

theorem planeLeave_inv {q : List Instr} : ∀ s x1, Inv q s → Inv q (planeLeave s x1) := by
  intro s x1 h
  unfold planeLeave
  repeat' first
    | with_reducible assumption
    | with_reducible intro _
    | with_reducible apply setArb_inv
    | with_reducible apply inv_ite
    | split
    | (dsimp only; split)
    | refine inv_fst (by with_reducible assumption) ?_
    | refine inv_snd (by with_reducible assumption) ?_

end Sys2Proof.Machine
end

