-- ==== Sys2Proof/Laws/InvOps.lean ====
section
/-! SUPPORT. Laws/InvOps.lean: every function of Machine/Ops.lean keeps the invariant of a sound state. -/

namespace Sys2Proof.Machine

theorem pumpQuay_inv {q : List Instr} : ∀ n s k, Inv q s → Inv q (pumpQuay n s k)
  | 0, _, _, h => h
  | n + 1, s, k, h => by
    unfold pumpQuay
    dsimp only
    repeat' split
    all_goals first
      | exact h
      | (refine pumpQuay_inv n _ k ?_; exact Inv.mk_qtx h (Table.wf_put _ _ _ _))

theorem emit_inv {q : List Instr} : ∀ s x1, Inv q s → Inv q (emit s x1) := by
  intro s x1 h
  unfold emit
  repeat' first
    | with_reducible assumption
    | with_reducible intro _
    | with_reducible apply pumpQuay_inv
    | with_reducible apply inv_ite
    | split
    | (dsimp only; split)
    | refine inv_fst (by with_reducible assumption) ?_
    | refine inv_snd (by with_reducible assumption) ?_
    | with_reducible apply Inv.mk_plain
    | with_reducible refine Inv.mk_qtx ?_ (by first | exact id | exact Table.wf_put _ _ _ _ | exact Table.wf_upd _ _ _ _ | exact Table.wf_mapVals _ _ _ | exact Table.wf_putList _ _ _ _ | exact Table.wf_filter _ _ _ | exact fun h => Table.wf_put _ _ _ _ (Table.wf_put _ _ _ _ h) | exact fun _ => rfl)
    | (dsimp only; with_reducible apply Inv.mk_plain)
    | (dsimp only; with_reducible refine Inv.mk_qtx ?_ (by first | exact id | exact Table.wf_put _ _ _ _ | exact Table.wf_upd _ _ _ _ | exact Table.wf_mapVals _ _ _ | exact Table.wf_putList _ _ _ _ | exact Table.wf_filter _ _ _ | exact fun h => Table.wf_put _ _ _ _ (Table.wf_put _ _ _ _ h) | exact fun _ => rfl))

theorem takeFree_inv {q : List Instr} : ∀ s, Inv q s → Inv q (takeFree s).2 := by
  intro s h
  exact Inv.plain h rfl

theorem setHmWord_inv {q : List Instr} : ∀ s x1 x2, Inv q s → Inv q (setHmWord s x1 x2) := by
  intro s x1 x2 h
  unfold setHmWord
  repeat' first
    | with_reducible assumption
    | with_reducible intro _
    | with_reducible apply inv_ite
    | split
    | (dsimp only; split)
    | refine inv_fst (by with_reducible assumption) ?_
    | refine inv_snd (by with_reducible assumption) ?_
    | with_reducible apply Inv.mk_plain
    | with_reducible refine Inv.mk_hmmem ?_ (by first | exact id | exact Table.wf_put _ _ _ _ | exact Table.wf_upd _ _ _ _ | exact Table.wf_mapVals _ _ _ | exact Table.wf_putList _ _ _ _ | exact Table.wf_filter _ _ _ | exact fun h => Table.wf_put _ _ _ _ (Table.wf_put _ _ _ _ h) | exact fun _ => rfl)
    | (dsimp only; with_reducible apply Inv.mk_plain)
    | (dsimp only; with_reducible refine Inv.mk_hmmem ?_ (by first | exact id | exact Table.wf_put _ _ _ _ | exact Table.wf_upd _ _ _ _ | exact Table.wf_mapVals _ _ _ | exact Table.wf_putList _ _ _ _ | exact Table.wf_filter _ _ _ | exact fun h => Table.wf_put _ _ _ _ (Table.wf_put _ _ _ _ h) | exact fun _ => rfl))

theorem hmLog_inv {q : List Instr} : ∀ s c d0 d1, Inv q s → Inv q (hmLog s c d0 d1) := by
  intro s c d0 d1 h
  exact Inv.mk_hmmem h (Table.wf_putList _ _ _ _)

theorem setPilot_inv {q : List Instr} : ∀ s x1 x2, Inv q s → Inv q (setPilot s x1 x2) := by
  intro s x1 x2 h
  unfold setPilot
  repeat' first
    | with_reducible assumption
    | with_reducible intro _
    | with_reducible apply inv_ite
    | split
    | (dsimp only; split)
    | refine inv_fst (by with_reducible assumption) ?_
    | refine inv_snd (by with_reducible assumption) ?_
    | with_reducible apply Inv.mk_plain
    | with_reducible refine Inv.mk_pilots ?_ (by first | exact id | exact Table.wf_put _ _ _ _ | exact Table.wf_upd _ _ _ _ | exact Table.wf_mapVals _ _ _ | exact Table.wf_putList _ _ _ _ | exact Table.wf_filter _ _ _ | exact fun h => Table.wf_put _ _ _ _ (Table.wf_put _ _ _ _ h) | exact fun _ => rfl)
    | (dsimp only; with_reducible apply Inv.mk_plain)
    | (dsimp only; with_reducible refine Inv.mk_pilots ?_ (by first | exact id | exact Table.wf_put _ _ _ _ | exact Table.wf_upd _ _ _ _ | exact Table.wf_mapVals _ _ _ | exact Table.wf_putList _ _ _ _ | exact Table.wf_filter _ _ _ | exact fun h => Table.wf_put _ _ _ _ (Table.wf_put _ _ _ _ h) | exact fun _ => rfl))

theorem updPilot_inv {q : List Instr} : ∀ s x1 x2, Inv q s → Inv q (updPilot s x1 x2) := by
  intro s x1 x2 h
  unfold updPilot
  repeat' first
    | with_reducible assumption
    | with_reducible intro _
    | with_reducible apply setPilot_inv
    | with_reducible apply inv_ite
    | split
    | (dsimp only; split)
    | refine inv_fst (by with_reducible assumption) ?_
    | refine inv_snd (by with_reducible assumption) ?_

theorem setRing_inv {q : List Instr} : ∀ s x1 x2, Inv q s → Inv q (setRing s x1 x2) := by
  intro s x1 x2 h
  unfold setRing
  repeat' first
    | with_reducible assumption
    | with_reducible intro _
    | with_reducible apply inv_ite
    | split
    | (dsimp only; split)
    | refine inv_fst (by with_reducible assumption) ?_
    | refine inv_snd (by with_reducible assumption) ?_
    | with_reducible apply Inv.mk_plain
    | with_reducible refine Inv.mk_rings ?_ (by first | exact id | exact Table.wf_put _ _ _ _ | exact Table.wf_upd _ _ _ _ | exact Table.wf_mapVals _ _ _ | exact Table.wf_putList _ _ _ _ | exact Table.wf_filter _ _ _ | exact fun h => Table.wf_put _ _ _ _ (Table.wf_put _ _ _ _ h) | exact fun _ => rfl)
    | (dsimp only; with_reducible apply Inv.mk_plain)
    | (dsimp only; with_reducible refine Inv.mk_rings ?_ (by first | exact id | exact Table.wf_put _ _ _ _ | exact Table.wf_upd _ _ _ _ | exact Table.wf_mapVals _ _ _ | exact Table.wf_putList _ _ _ _ | exact Table.wf_filter _ _ _ | exact fun h => Table.wf_put _ _ _ _ (Table.wf_put _ _ _ _ h) | exact fun _ => rfl))

theorem updRing_inv {q : List Instr} : ∀ s x1 x2, Inv q s → Inv q (updRing s x1 x2) := by
  intro s x1 x2 h
  unfold updRing
  repeat' first
    | with_reducible assumption
    | with_reducible intro _
    | with_reducible apply setRing_inv
    | with_reducible apply inv_ite
    | split
    | (dsimp only; split)
    | refine inv_fst (by with_reducible assumption) ?_
    | refine inv_snd (by with_reducible assumption) ?_

theorem setOwn_inv {q : List Instr} : ∀ s x1 x2, Inv q s → Inv q (setOwn s x1 x2) := by
  intro s x1 x2 h
  unfold setOwn
  repeat' first
    | with_reducible assumption
    | with_reducible intro _
    | with_reducible apply inv_ite
    | split
    | (dsimp only; split)
    | refine inv_fst (by with_reducible assumption) ?_
    | refine inv_snd (by with_reducible assumption) ?_
    | with_reducible apply Inv.mk_plain
    | with_reducible refine Inv.mk_own ?_ (by first | exact id | exact Table.wf_put _ _ _ _ | exact Table.wf_upd _ _ _ _ | exact Table.wf_mapVals _ _ _ | exact Table.wf_putList _ _ _ _ | exact Table.wf_filter _ _ _ | exact fun h => Table.wf_put _ _ _ _ (Table.wf_put _ _ _ _ h) | exact fun _ => rfl)
    | (dsimp only; with_reducible apply Inv.mk_plain)
    | (dsimp only; with_reducible refine Inv.mk_own ?_ (by first | exact id | exact Table.wf_put _ _ _ _ | exact Table.wf_upd _ _ _ _ | exact Table.wf_mapVals _ _ _ | exact Table.wf_putList _ _ _ _ | exact Table.wf_filter _ _ _ | exact fun h => Table.wf_put _ _ _ _ (Table.wf_put _ _ _ _ h) | exact fun _ => rfl))

theorem updOwn_inv {q : List Instr} : ∀ s x1 x2, Inv q s → Inv q (updOwn s x1 x2) := by
  intro s x1 x2 h
  unfold updOwn
  repeat' first
    | with_reducible assumption
    | with_reducible intro _
    | with_reducible apply setOwn_inv
    | with_reducible apply inv_ite
    | split
    | (dsimp only; split)
    | refine inv_fst (by with_reducible assumption) ?_
    | refine inv_snd (by with_reducible assumption) ?_

theorem setMirr_inv {q : List Instr} : ∀ s x1 x2, Inv q s → Inv q (setMirr s x1 x2) := by
  intro s x1 x2 h
  unfold setMirr
  repeat' first
    | with_reducible assumption
    | with_reducible intro _
    | with_reducible apply inv_ite
    | split
    | (dsimp only; split)
    | refine inv_fst (by with_reducible assumption) ?_
    | refine inv_snd (by with_reducible assumption) ?_
    | with_reducible apply Inv.mk_plain
    | with_reducible refine Inv.mk_mirror ?_ (by first | exact id | exact Table.wf_put _ _ _ _ | exact Table.wf_upd _ _ _ _ | exact Table.wf_mapVals _ _ _ | exact Table.wf_putList _ _ _ _ | exact Table.wf_filter _ _ _ | exact fun h => Table.wf_put _ _ _ _ (Table.wf_put _ _ _ _ h) | exact fun _ => rfl)
    | (dsimp only; with_reducible apply Inv.mk_plain)
    | (dsimp only; with_reducible refine Inv.mk_mirror ?_ (by first | exact id | exact Table.wf_put _ _ _ _ | exact Table.wf_upd _ _ _ _ | exact Table.wf_mapVals _ _ _ | exact Table.wf_putList _ _ _ _ | exact Table.wf_filter _ _ _ | exact fun h => Table.wf_put _ _ _ _ (Table.wf_put _ _ _ _ h) | exact fun _ => rfl))

theorem setAloneMoor_inv {q : List Instr} : ∀ s x1 x2, Inv q s → Inv q (setAloneMoor s x1 x2) := by
  intro s x1 x2 h
  unfold setAloneMoor
  repeat' first
    | with_reducible assumption
    | with_reducible intro _
    | with_reducible apply inv_ite
    | split
    | (dsimp only; split)
    | refine inv_fst (by with_reducible assumption) ?_
    | refine inv_snd (by with_reducible assumption) ?_
    | with_reducible apply Inv.mk_plain
    | with_reducible refine Inv.mk_moor ?_ (by first | exact id | exact Table.wf_put _ _ _ _ | exact Table.wf_upd _ _ _ _ | exact Table.wf_mapVals _ _ _ | exact Table.wf_putList _ _ _ _ | exact Table.wf_filter _ _ _ | exact fun h => Table.wf_put _ _ _ _ (Table.wf_put _ _ _ _ h) | exact fun _ => rfl)
    | (dsimp only; with_reducible apply Inv.mk_plain)
    | (dsimp only; with_reducible refine Inv.mk_moor ?_ (by first | exact id | exact Table.wf_put _ _ _ _ | exact Table.wf_upd _ _ _ _ | exact Table.wf_mapVals _ _ _ | exact Table.wf_putList _ _ _ _ | exact Table.wf_filter _ _ _ | exact fun h => Table.wf_put _ _ _ _ (Table.wf_put _ _ _ _ h) | exact fun _ => rfl))

theorem setXctx_inv {q : List Instr} : ∀ s x1 x2, Inv q s → Inv q (setXctx s x1 x2) := by
  intro s x1 x2 h
  unfold setXctx
  repeat' first
    | with_reducible assumption
    | with_reducible intro _
    | with_reducible apply inv_ite
    | split
    | (dsimp only; split)
    | refine inv_fst (by with_reducible assumption) ?_
    | refine inv_snd (by with_reducible assumption) ?_
    | with_reducible apply Inv.mk_plain
    | with_reducible refine Inv.mk_xc ?_ (by first | exact id | exact Table.wf_put _ _ _ _ | exact Table.wf_upd _ _ _ _ | exact Table.wf_mapVals _ _ _ | exact Table.wf_putList _ _ _ _ | exact Table.wf_filter _ _ _ | exact fun h => Table.wf_put _ _ _ _ (Table.wf_put _ _ _ _ h) | exact fun _ => rfl)
    | (dsimp only; with_reducible apply Inv.mk_plain)
    | (dsimp only; with_reducible refine Inv.mk_xc ?_ (by first | exact id | exact Table.wf_put _ _ _ _ | exact Table.wf_upd _ _ _ _ | exact Table.wf_mapVals _ _ _ | exact Table.wf_putList _ _ _ _ | exact Table.wf_filter _ _ _ | exact fun h => Table.wf_put _ _ _ _ (Table.wf_put _ _ _ _ h) | exact fun _ => rfl))

theorem updXctx_inv {q : List Instr} : ∀ s x1 x2, Inv q s → Inv q (updXctx s x1 x2) := by
  intro s x1 x2 h
  unfold updXctx
  repeat' first
    | with_reducible assumption
    | with_reducible intro _
    | with_reducible apply setXctx_inv
    | with_reducible apply inv_ite
    | split
    | (dsimp only; split)
    | refine inv_fst (by with_reducible assumption) ?_
    | refine inv_snd (by with_reducible assumption) ?_

theorem setChk_inv {q : List Instr} : ∀ s x1 x2, Inv q s → Inv q (setChk s x1 x2) := by
  intro s x1 x2 h
  unfold setChk
  repeat' first
    | with_reducible assumption
    | with_reducible intro _
    | with_reducible apply inv_ite
    | split
    | (dsimp only; split)
    | refine inv_fst (by with_reducible assumption) ?_
    | refine inv_snd (by with_reducible assumption) ?_
    | with_reducible apply Inv.mk_plain
    | with_reducible refine Inv.mk_chk ?_ (by first | exact id | exact Table.wf_put _ _ _ _ | exact Table.wf_upd _ _ _ _ | exact Table.wf_mapVals _ _ _ | exact Table.wf_putList _ _ _ _ | exact Table.wf_filter _ _ _ | exact fun h => Table.wf_put _ _ _ _ (Table.wf_put _ _ _ _ h) | exact fun _ => rfl)
    | (dsimp only; with_reducible apply Inv.mk_plain)
    | (dsimp only; with_reducible refine Inv.mk_chk ?_ (by first | exact id | exact Table.wf_put _ _ _ _ | exact Table.wf_upd _ _ _ _ | exact Table.wf_mapVals _ _ _ | exact Table.wf_putList _ _ _ _ | exact Table.wf_filter _ _ _ | exact fun h => Table.wf_put _ _ _ _ (Table.wf_put _ _ _ _ h) | exact fun _ => rfl))

theorem setCsrc_inv {q : List Instr} : ∀ s x1 x2, Inv q s → Inv q (setCsrc s x1 x2) := by
  intro s x1 x2 h
  unfold setCsrc
  repeat' first
    | with_reducible assumption
    | with_reducible intro _
    | with_reducible apply inv_ite
    | split
    | (dsimp only; split)
    | refine inv_fst (by with_reducible assumption) ?_
    | refine inv_snd (by with_reducible assumption) ?_
    | with_reducible apply Inv.mk_plain
    | with_reducible refine Inv.mk_csrc ?_ (by first | exact id | exact Table.wf_put _ _ _ _ | exact Table.wf_upd _ _ _ _ | exact Table.wf_mapVals _ _ _ | exact Table.wf_putList _ _ _ _ | exact Table.wf_filter _ _ _ | exact fun h => Table.wf_put _ _ _ _ (Table.wf_put _ _ _ _ h) | exact fun _ => rfl)
    | (dsimp only; with_reducible apply Inv.mk_plain)
    | (dsimp only; with_reducible refine Inv.mk_csrc ?_ (by first | exact id | exact Table.wf_put _ _ _ _ | exact Table.wf_upd _ _ _ _ | exact Table.wf_mapVals _ _ _ | exact Table.wf_putList _ _ _ _ | exact Table.wf_filter _ _ _ | exact fun h => Table.wf_put _ _ _ _ (Table.wf_put _ _ _ _ h) | exact fun _ => rfl))

theorem setVbank_inv {q : List Instr} : ∀ s x1 x2 x3, Inv q s → Inv q (setVbank s x1 x2 x3) := by
  intro s x1 x2 x3 h
  unfold setVbank
  repeat' first
    | with_reducible assumption
    | with_reducible intro _
    | with_reducible apply inv_ite
    | split
    | (dsimp only; split)
    | refine inv_fst (by with_reducible assumption) ?_
    | refine inv_snd (by with_reducible assumption) ?_
    | with_reducible apply Inv.mk_plain
    | with_reducible refine Inv.mk_vbank ?_ (by first | exact id | exact Table.wf_put _ _ _ _ | exact Table.wf_upd _ _ _ _ | exact Table.wf_mapVals _ _ _ | exact Table.wf_putList _ _ _ _ | exact Table.wf_filter _ _ _ | exact fun h => Table.wf_put _ _ _ _ (Table.wf_put _ _ _ _ h) | exact fun _ => rfl)
    | (dsimp only; with_reducible apply Inv.mk_plain)
    | (dsimp only; with_reducible refine Inv.mk_vbank ?_ (by first | exact id | exact Table.wf_put _ _ _ _ | exact Table.wf_upd _ _ _ _ | exact Table.wf_mapVals _ _ _ | exact Table.wf_putList _ _ _ _ | exact Table.wf_filter _ _ _ | exact fun h => Table.wf_put _ _ _ _ (Table.wf_put _ _ _ _ h) | exact fun _ => rfl))

theorem setFwin_inv {q : List Instr} : ∀ s x1 x2, Inv q s → Inv q (setFwin s x1 x2) := by
  intro s x1 x2 h
  unfold setFwin
  repeat' first
    | with_reducible assumption
    | with_reducible intro _
    | with_reducible apply inv_ite
    | split
    | (dsimp only; split)
    | refine inv_fst (by with_reducible assumption) ?_
    | refine inv_snd (by with_reducible assumption) ?_
    | with_reducible apply Inv.mk_plain
    | with_reducible refine Inv.mk_fwin ?_ (by first | exact id | exact Table.wf_put _ _ _ _ | exact Table.wf_upd _ _ _ _ | exact Table.wf_mapVals _ _ _ | exact Table.wf_putList _ _ _ _ | exact Table.wf_filter _ _ _ | exact fun h => Table.wf_put _ _ _ _ (Table.wf_put _ _ _ _ h) | exact fun _ => rfl)
    | (dsimp only; with_reducible apply Inv.mk_plain)
    | (dsimp only; with_reducible refine Inv.mk_fwin ?_ (by first | exact id | exact Table.wf_put _ _ _ _ | exact Table.wf_upd _ _ _ _ | exact Table.wf_mapVals _ _ _ | exact Table.wf_putList _ _ _ _ | exact Table.wf_filter _ _ _ | exact fun h => Table.wf_put _ _ _ _ (Table.wf_put _ _ _ _ h) | exact fun _ => rfl))

theorem setBerth_inv {q : List Instr} : ∀ s x1 x2, Inv q s → Inv q (setBerth s x1 x2) := by
  intro s x1 x2 h
  unfold setBerth
  repeat' first
    | with_reducible assumption
    | with_reducible intro _
    | with_reducible apply inv_ite
    | split
    | (dsimp only; split)
    | refine inv_fst (by with_reducible assumption) ?_
    | refine inv_snd (by with_reducible assumption) ?_
    | with_reducible apply Inv.mk_plain
    | with_reducible refine Inv.mk_berths ?_ (by first | exact id | exact Table.wf_put _ _ _ _ | exact Table.wf_upd _ _ _ _ | exact Table.wf_mapVals _ _ _ | exact Table.wf_putList _ _ _ _ | exact Table.wf_filter _ _ _ | exact fun h => Table.wf_put _ _ _ _ (Table.wf_put _ _ _ _ h) | exact fun _ => rfl)
    | (dsimp only; with_reducible apply Inv.mk_plain)
    | (dsimp only; with_reducible refine Inv.mk_berths ?_ (by first | exact id | exact Table.wf_put _ _ _ _ | exact Table.wf_upd _ _ _ _ | exact Table.wf_mapVals _ _ _ | exact Table.wf_putList _ _ _ _ | exact Table.wf_filter _ _ _ | exact fun h => Table.wf_put _ _ _ _ (Table.wf_put _ _ _ _ h) | exact fun _ => rfl))

theorem setCtl_inv {q : List Instr} : ∀ s x1 x2, Inv q s → Inv q (setCtl s x1 x2) := by
  intro s x1 x2 h
  unfold setCtl
  repeat' first
    | with_reducible assumption
    | with_reducible intro _
    | with_reducible apply inv_ite
    | split
    | (dsimp only; split)
    | refine inv_fst (by with_reducible assumption) ?_
    | refine inv_snd (by with_reducible assumption) ?_
    | with_reducible apply Inv.mk_plain
    | with_reducible refine Inv.mk_ctls ?_ (by first | exact id | exact Table.wf_put _ _ _ _ | exact Table.wf_upd _ _ _ _ | exact Table.wf_mapVals _ _ _ | exact Table.wf_putList _ _ _ _ | exact Table.wf_filter _ _ _ | exact fun h => Table.wf_put _ _ _ _ (Table.wf_put _ _ _ _ h) | exact fun _ => rfl)
    | with_reducible refine Inv.mk_dqs ?_ (by first | exact id | exact Table.wf_put _ _ _ _ | exact Table.wf_upd _ _ _ _ | exact Table.wf_mapVals _ _ _ | exact Table.wf_putList _ _ _ _ | exact Table.wf_filter _ _ _ | exact fun h => Table.wf_put _ _ _ _ (Table.wf_put _ _ _ _ h) | exact fun _ => rfl)
    | with_reducible refine Inv.mk_dcmds ?_ (by first | exact id | exact Table.wf_put _ _ _ _ | exact Table.wf_upd _ _ _ _ | exact Table.wf_mapVals _ _ _ | exact Table.wf_putList _ _ _ _ | exact Table.wf_filter _ _ _ | exact fun h => Table.wf_put _ _ _ _ (Table.wf_put _ _ _ _ h) | exact fun _ => rfl)
    | (dsimp only; with_reducible apply Inv.mk_plain)
    | (dsimp only; with_reducible refine Inv.mk_ctls ?_ (by first | exact id | exact Table.wf_put _ _ _ _ | exact Table.wf_upd _ _ _ _ | exact Table.wf_mapVals _ _ _ | exact Table.wf_putList _ _ _ _ | exact Table.wf_filter _ _ _ | exact fun h => Table.wf_put _ _ _ _ (Table.wf_put _ _ _ _ h) | exact fun _ => rfl))
    | (dsimp only; with_reducible refine Inv.mk_dqs ?_ (by first | exact id | exact Table.wf_put _ _ _ _ | exact Table.wf_upd _ _ _ _ | exact Table.wf_mapVals _ _ _ | exact Table.wf_putList _ _ _ _ | exact Table.wf_filter _ _ _ | exact fun h => Table.wf_put _ _ _ _ (Table.wf_put _ _ _ _ h) | exact fun _ => rfl))
    | (dsimp only; with_reducible refine Inv.mk_dcmds ?_ (by first | exact id | exact Table.wf_put _ _ _ _ | exact Table.wf_upd _ _ _ _ | exact Table.wf_mapVals _ _ _ | exact Table.wf_putList _ _ _ _ | exact Table.wf_filter _ _ _ | exact fun h => Table.wf_put _ _ _ _ (Table.wf_put _ _ _ _ h) | exact fun _ => rfl))
    | refine Inv.mk_all ?_ (by first | exact id | exact Table.wf_put _ _ _ _ | exact Table.wf_upd _ _ _ _ | exact Table.wf_mapVals _ _ _ | exact Table.wf_putList _ _ _ _ | exact Table.wf_filter _ _ _ | exact fun h => Table.wf_put _ _ _ _ (Table.wf_put _ _ _ _ h) | exact fun _ => rfl) (by first | exact id | exact Table.wf_put _ _ _ _ | exact Table.wf_upd _ _ _ _ | exact Table.wf_mapVals _ _ _ | exact Table.wf_putList _ _ _ _ | exact Table.wf_filter _ _ _ | exact fun h => Table.wf_put _ _ _ _ (Table.wf_put _ _ _ _ h) | exact fun _ => rfl) (by first | exact id | exact Table.wf_put _ _ _ _ | exact Table.wf_upd _ _ _ _ | exact Table.wf_mapVals _ _ _ | exact Table.wf_putList _ _ _ _ | exact Table.wf_filter _ _ _ | exact fun h => Table.wf_put _ _ _ _ (Table.wf_put _ _ _ _ h) | exact fun _ => rfl) (by first | exact id | exact Table.wf_put _ _ _ _ | exact Table.wf_upd _ _ _ _ | exact Table.wf_mapVals _ _ _ | exact Table.wf_putList _ _ _ _ | exact Table.wf_filter _ _ _ | exact fun h => Table.wf_put _ _ _ _ (Table.wf_put _ _ _ _ h) | exact fun _ => rfl) (by first | exact id | exact Table.wf_put _ _ _ _ | exact Table.wf_upd _ _ _ _ | exact Table.wf_mapVals _ _ _ | exact Table.wf_putList _ _ _ _ | exact Table.wf_filter _ _ _ | exact fun h => Table.wf_put _ _ _ _ (Table.wf_put _ _ _ _ h) | exact fun _ => rfl) (by first | exact id | exact Table.wf_put _ _ _ _ | exact Table.wf_upd _ _ _ _ | exact Table.wf_mapVals _ _ _ | exact Table.wf_putList _ _ _ _ | exact Table.wf_filter _ _ _ | exact fun h => Table.wf_put _ _ _ _ (Table.wf_put _ _ _ _ h) | exact fun _ => rfl) (by first | exact id | exact Table.wf_put _ _ _ _ | exact Table.wf_upd _ _ _ _ | exact Table.wf_mapVals _ _ _ | exact Table.wf_putList _ _ _ _ | exact Table.wf_filter _ _ _ | exact fun h => Table.wf_put _ _ _ _ (Table.wf_put _ _ _ _ h) | exact fun _ => rfl) (by first | exact id | exact Table.wf_put _ _ _ _ | exact Table.wf_upd _ _ _ _ | exact Table.wf_mapVals _ _ _ | exact Table.wf_putList _ _ _ _ | exact Table.wf_filter _ _ _ | exact fun h => Table.wf_put _ _ _ _ (Table.wf_put _ _ _ _ h) | exact fun _ => rfl) (by first | exact id | exact Table.wf_put _ _ _ _ | exact Table.wf_upd _ _ _ _ | exact Table.wf_mapVals _ _ _ | exact Table.wf_putList _ _ _ _ | exact Table.wf_filter _ _ _ | exact fun h => Table.wf_put _ _ _ _ (Table.wf_put _ _ _ _ h) | exact fun _ => rfl) (by first | exact id | exact Table.wf_put _ _ _ _ | exact Table.wf_upd _ _ _ _ | exact Table.wf_mapVals _ _ _ | exact Table.wf_putList _ _ _ _ | exact Table.wf_filter _ _ _ | exact fun h => Table.wf_put _ _ _ _ (Table.wf_put _ _ _ _ h) | exact fun _ => rfl) (by first | exact id | exact Table.wf_put _ _ _ _ | exact Table.wf_upd _ _ _ _ | exact Table.wf_mapVals _ _ _ | exact Table.wf_putList _ _ _ _ | exact Table.wf_filter _ _ _ | exact fun h => Table.wf_put _ _ _ _ (Table.wf_put _ _ _ _ h) | exact fun _ => rfl) (by first | exact id | exact Table.wf_put _ _ _ _ | exact Table.wf_upd _ _ _ _ | exact Table.wf_mapVals _ _ _ | exact Table.wf_putList _ _ _ _ | exact Table.wf_filter _ _ _ | exact fun h => Table.wf_put _ _ _ _ (Table.wf_put _ _ _ _ h) | exact fun _ => rfl) (by first | exact id | exact Table.wf_put _ _ _ _ | exact Table.wf_upd _ _ _ _ | exact Table.wf_mapVals _ _ _ | exact Table.wf_putList _ _ _ _ | exact Table.wf_filter _ _ _ | exact fun h => Table.wf_put _ _ _ _ (Table.wf_put _ _ _ _ h) | exact fun _ => rfl) (by first | exact id | exact Table.wf_put _ _ _ _ | exact Table.wf_upd _ _ _ _ | exact Table.wf_mapVals _ _ _ | exact Table.wf_putList _ _ _ _ | exact Table.wf_filter _ _ _ | exact fun h => Table.wf_put _ _ _ _ (Table.wf_put _ _ _ _ h) | exact fun _ => rfl) (by first | exact id | exact Table.wf_put _ _ _ _ | exact Table.wf_upd _ _ _ _ | exact Table.wf_mapVals _ _ _ | exact Table.wf_putList _ _ _ _ | exact Table.wf_filter _ _ _ | exact fun h => Table.wf_put _ _ _ _ (Table.wf_put _ _ _ _ h) | exact fun _ => rfl) (by first | exact id | exact Table.wf_put _ _ _ _ | exact Table.wf_upd _ _ _ _ | exact Table.wf_mapVals _ _ _ | exact Table.wf_putList _ _ _ _ | exact Table.wf_filter _ _ _ | exact fun h => Table.wf_put _ _ _ _ (Table.wf_put _ _ _ _ h) | exact fun _ => rfl) (by first | exact id | exact Table.wf_put _ _ _ _ | exact Table.wf_upd _ _ _ _ | exact Table.wf_mapVals _ _ _ | exact Table.wf_putList _ _ _ _ | exact Table.wf_filter _ _ _ | exact fun h => Table.wf_put _ _ _ _ (Table.wf_put _ _ _ _ h) | exact fun _ => rfl) (by first | exact id | exact Table.wf_put _ _ _ _ | exact Table.wf_upd _ _ _ _ | exact Table.wf_mapVals _ _ _ | exact Table.wf_putList _ _ _ _ | exact Table.wf_filter _ _ _ | exact fun h => Table.wf_put _ _ _ _ (Table.wf_put _ _ _ _ h) | exact fun _ => rfl) (by first | exact id | exact Table.wf_put _ _ _ _ | exact Table.wf_upd _ _ _ _ | exact Table.wf_mapVals _ _ _ | exact Table.wf_putList _ _ _ _ | exact Table.wf_filter _ _ _ | exact fun h => Table.wf_put _ _ _ _ (Table.wf_put _ _ _ _ h) | exact fun _ => rfl) (by first | exact id | exact Table.wf_put _ _ _ _ | exact Table.wf_upd _ _ _ _ | exact Table.wf_mapVals _ _ _ | exact Table.wf_putList _ _ _ _ | exact Table.wf_filter _ _ _ | exact fun h => Table.wf_put _ _ _ _ (Table.wf_put _ _ _ _ h) | exact fun _ => rfl) (by first | exact id | exact Table.wf_put _ _ _ _ | exact Table.wf_upd _ _ _ _ | exact Table.wf_mapVals _ _ _ | exact Table.wf_putList _ _ _ _ | exact Table.wf_filter _ _ _ | exact fun h => Table.wf_put _ _ _ _ (Table.wf_put _ _ _ _ h) | exact fun _ => rfl) (by first | exact id | exact Table.wf_put _ _ _ _ | exact Table.wf_upd _ _ _ _ | exact Table.wf_mapVals _ _ _ | exact Table.wf_putList _ _ _ _ | exact Table.wf_filter _ _ _ | exact fun h => Table.wf_put _ _ _ _ (Table.wf_put _ _ _ _ h) | exact fun _ => rfl) (by first | exact id | exact Table.wf_put _ _ _ _ | exact Table.wf_upd _ _ _ _ | exact Table.wf_mapVals _ _ _ | exact Table.wf_putList _ _ _ _ | exact Table.wf_filter _ _ _ | exact fun h => Table.wf_put _ _ _ _ (Table.wf_put _ _ _ _ h) | exact fun _ => rfl) (by first | exact id | exact Table.wf_put _ _ _ _ | exact Table.wf_upd _ _ _ _ | exact Table.wf_mapVals _ _ _ | exact Table.wf_putList _ _ _ _ | exact Table.wf_filter _ _ _ | exact fun h => Table.wf_put _ _ _ _ (Table.wf_put _ _ _ _ h) | exact fun _ => rfl) (by first | exact id | exact Table.wf_put _ _ _ _ | exact Table.wf_upd _ _ _ _ | exact Table.wf_mapVals _ _ _ | exact Table.wf_putList _ _ _ _ | exact Table.wf_filter _ _ _ | exact fun h => Table.wf_put _ _ _ _ (Table.wf_put _ _ _ _ h) | exact fun _ => rfl) (by first | exact id | exact Table.wf_put _ _ _ _ | exact Table.wf_upd _ _ _ _ | exact Table.wf_mapVals _ _ _ | exact Table.wf_putList _ _ _ _ | exact Table.wf_filter _ _ _ | exact fun h => Table.wf_put _ _ _ _ (Table.wf_put _ _ _ _ h) | exact fun _ => rfl) (by first | exact id | exact Table.wf_put _ _ _ _ | exact Table.wf_upd _ _ _ _ | exact Table.wf_mapVals _ _ _ | exact Table.wf_putList _ _ _ _ | exact Table.wf_filter _ _ _ | exact fun h => Table.wf_put _ _ _ _ (Table.wf_put _ _ _ _ h) | exact fun _ => rfl) (by first | exact id | exact Table.wf_put _ _ _ _ | exact Table.wf_upd _ _ _ _ | exact Table.wf_mapVals _ _ _ | exact Table.wf_putList _ _ _ _ | exact Table.wf_filter _ _ _ | exact fun h => Table.wf_put _ _ _ _ (Table.wf_put _ _ _ _ h) | exact fun _ => rfl) (by first | exact id | exact Table.wf_put _ _ _ _ | exact Table.wf_upd _ _ _ _ | exact Table.wf_mapVals _ _ _ | exact Table.wf_putList _ _ _ _ | exact Table.wf_filter _ _ _ | exact fun h => Table.wf_put _ _ _ _ (Table.wf_put _ _ _ _ h) | exact fun _ => rfl)

theorem setDq_inv {q : List Instr} : ∀ s x1 x2, Inv q s → Inv q (setDq s x1 x2) := by
  intro s x1 x2 h
  unfold setDq
  repeat' first
    | with_reducible assumption
    | with_reducible intro _
    | with_reducible apply inv_ite
    | split
    | (dsimp only; split)
    | refine inv_fst (by with_reducible assumption) ?_
    | refine inv_snd (by with_reducible assumption) ?_
    | with_reducible apply Inv.mk_plain
    | with_reducible refine Inv.mk_dqs ?_ (by first | exact id | exact Table.wf_put _ _ _ _ | exact Table.wf_upd _ _ _ _ | exact Table.wf_mapVals _ _ _ | exact Table.wf_putList _ _ _ _ | exact Table.wf_filter _ _ _ | exact fun h => Table.wf_put _ _ _ _ (Table.wf_put _ _ _ _ h) | exact fun _ => rfl)
    | with_reducible refine Inv.mk_dcmds ?_ (by first | exact id | exact Table.wf_put _ _ _ _ | exact Table.wf_upd _ _ _ _ | exact Table.wf_mapVals _ _ _ | exact Table.wf_putList _ _ _ _ | exact Table.wf_filter _ _ _ | exact fun h => Table.wf_put _ _ _ _ (Table.wf_put _ _ _ _ h) | exact fun _ => rfl)
    | (dsimp only; with_reducible apply Inv.mk_plain)
    | (dsimp only; with_reducible refine Inv.mk_dqs ?_ (by first | exact id | exact Table.wf_put _ _ _ _ | exact Table.wf_upd _ _ _ _ | exact Table.wf_mapVals _ _ _ | exact Table.wf_putList _ _ _ _ | exact Table.wf_filter _ _ _ | exact fun h => Table.wf_put _ _ _ _ (Table.wf_put _ _ _ _ h) | exact fun _ => rfl))
    | (dsimp only; with_reducible refine Inv.mk_dcmds ?_ (by first | exact id | exact Table.wf_put _ _ _ _ | exact Table.wf_upd _ _ _ _ | exact Table.wf_mapVals _ _ _ | exact Table.wf_putList _ _ _ _ | exact Table.wf_filter _ _ _ | exact fun h => Table.wf_put _ _ _ _ (Table.wf_put _ _ _ _ h) | exact fun _ => rfl))
    | refine Inv.mk_all ?_ (by first | exact id | exact Table.wf_put _ _ _ _ | exact Table.wf_upd _ _ _ _ | exact Table.wf_mapVals _ _ _ | exact Table.wf_putList _ _ _ _ | exact Table.wf_filter _ _ _ | exact fun h => Table.wf_put _ _ _ _ (Table.wf_put _ _ _ _ h) | exact fun _ => rfl) (by first | exact id | exact Table.wf_put _ _ _ _ | exact Table.wf_upd _ _ _ _ | exact Table.wf_mapVals _ _ _ | exact Table.wf_putList _ _ _ _ | exact Table.wf_filter _ _ _ | exact fun h => Table.wf_put _ _ _ _ (Table.wf_put _ _ _ _ h) | exact fun _ => rfl) (by first | exact id | exact Table.wf_put _ _ _ _ | exact Table.wf_upd _ _ _ _ | exact Table.wf_mapVals _ _ _ | exact Table.wf_putList _ _ _ _ | exact Table.wf_filter _ _ _ | exact fun h => Table.wf_put _ _ _ _ (Table.wf_put _ _ _ _ h) | exact fun _ => rfl) (by first | exact id | exact Table.wf_put _ _ _ _ | exact Table.wf_upd _ _ _ _ | exact Table.wf_mapVals _ _ _ | exact Table.wf_putList _ _ _ _ | exact Table.wf_filter _ _ _ | exact fun h => Table.wf_put _ _ _ _ (Table.wf_put _ _ _ _ h) | exact fun _ => rfl) (by first | exact id | exact Table.wf_put _ _ _ _ | exact Table.wf_upd _ _ _ _ | exact Table.wf_mapVals _ _ _ | exact Table.wf_putList _ _ _ _ | exact Table.wf_filter _ _ _ | exact fun h => Table.wf_put _ _ _ _ (Table.wf_put _ _ _ _ h) | exact fun _ => rfl) (by first | exact id | exact Table.wf_put _ _ _ _ | exact Table.wf_upd _ _ _ _ | exact Table.wf_mapVals _ _ _ | exact Table.wf_putList _ _ _ _ | exact Table.wf_filter _ _ _ | exact fun h => Table.wf_put _ _ _ _ (Table.wf_put _ _ _ _ h) | exact fun _ => rfl) (by first | exact id | exact Table.wf_put _ _ _ _ | exact Table.wf_upd _ _ _ _ | exact Table.wf_mapVals _ _ _ | exact Table.wf_putList _ _ _ _ | exact Table.wf_filter _ _ _ | exact fun h => Table.wf_put _ _ _ _ (Table.wf_put _ _ _ _ h) | exact fun _ => rfl) (by first | exact id | exact Table.wf_put _ _ _ _ | exact Table.wf_upd _ _ _ _ | exact Table.wf_mapVals _ _ _ | exact Table.wf_putList _ _ _ _ | exact Table.wf_filter _ _ _ | exact fun h => Table.wf_put _ _ _ _ (Table.wf_put _ _ _ _ h) | exact fun _ => rfl) (by first | exact id | exact Table.wf_put _ _ _ _ | exact Table.wf_upd _ _ _ _ | exact Table.wf_mapVals _ _ _ | exact Table.wf_putList _ _ _ _ | exact Table.wf_filter _ _ _ | exact fun h => Table.wf_put _ _ _ _ (Table.wf_put _ _ _ _ h) | exact fun _ => rfl) (by first | exact id | exact Table.wf_put _ _ _ _ | exact Table.wf_upd _ _ _ _ | exact Table.wf_mapVals _ _ _ | exact Table.wf_putList _ _ _ _ | exact Table.wf_filter _ _ _ | exact fun h => Table.wf_put _ _ _ _ (Table.wf_put _ _ _ _ h) | exact fun _ => rfl) (by first | exact id | exact Table.wf_put _ _ _ _ | exact Table.wf_upd _ _ _ _ | exact Table.wf_mapVals _ _ _ | exact Table.wf_putList _ _ _ _ | exact Table.wf_filter _ _ _ | exact fun h => Table.wf_put _ _ _ _ (Table.wf_put _ _ _ _ h) | exact fun _ => rfl) (by first | exact id | exact Table.wf_put _ _ _ _ | exact Table.wf_upd _ _ _ _ | exact Table.wf_mapVals _ _ _ | exact Table.wf_putList _ _ _ _ | exact Table.wf_filter _ _ _ | exact fun h => Table.wf_put _ _ _ _ (Table.wf_put _ _ _ _ h) | exact fun _ => rfl) (by first | exact id | exact Table.wf_put _ _ _ _ | exact Table.wf_upd _ _ _ _ | exact Table.wf_mapVals _ _ _ | exact Table.wf_putList _ _ _ _ | exact Table.wf_filter _ _ _ | exact fun h => Table.wf_put _ _ _ _ (Table.wf_put _ _ _ _ h) | exact fun _ => rfl) (by first | exact id | exact Table.wf_put _ _ _ _ | exact Table.wf_upd _ _ _ _ | exact Table.wf_mapVals _ _ _ | exact Table.wf_putList _ _ _ _ | exact Table.wf_filter _ _ _ | exact fun h => Table.wf_put _ _ _ _ (Table.wf_put _ _ _ _ h) | exact fun _ => rfl) (by first | exact id | exact Table.wf_put _ _ _ _ | exact Table.wf_upd _ _ _ _ | exact Table.wf_mapVals _ _ _ | exact Table.wf_putList _ _ _ _ | exact Table.wf_filter _ _ _ | exact fun h => Table.wf_put _ _ _ _ (Table.wf_put _ _ _ _ h) | exact fun _ => rfl) (by first | exact id | exact Table.wf_put _ _ _ _ | exact Table.wf_upd _ _ _ _ | exact Table.wf_mapVals _ _ _ | exact Table.wf_putList _ _ _ _ | exact Table.wf_filter _ _ _ | exact fun h => Table.wf_put _ _ _ _ (Table.wf_put _ _ _ _ h) | exact fun _ => rfl) (by first | exact id | exact Table.wf_put _ _ _ _ | exact Table.wf_upd _ _ _ _ | exact Table.wf_mapVals _ _ _ | exact Table.wf_putList _ _ _ _ | exact Table.wf_filter _ _ _ | exact fun h => Table.wf_put _ _ _ _ (Table.wf_put _ _ _ _ h) | exact fun _ => rfl) (by first | exact id | exact Table.wf_put _ _ _ _ | exact Table.wf_upd _ _ _ _ | exact Table.wf_mapVals _ _ _ | exact Table.wf_putList _ _ _ _ | exact Table.wf_filter _ _ _ | exact fun h => Table.wf_put _ _ _ _ (Table.wf_put _ _ _ _ h) | exact fun _ => rfl) (by first | exact id | exact Table.wf_put _ _ _ _ | exact Table.wf_upd _ _ _ _ | exact Table.wf_mapVals _ _ _ | exact Table.wf_putList _ _ _ _ | exact Table.wf_filter _ _ _ | exact fun h => Table.wf_put _ _ _ _ (Table.wf_put _ _ _ _ h) | exact fun _ => rfl) (by first | exact id | exact Table.wf_put _ _ _ _ | exact Table.wf_upd _ _ _ _ | exact Table.wf_mapVals _ _ _ | exact Table.wf_putList _ _ _ _ | exact Table.wf_filter _ _ _ | exact fun h => Table.wf_put _ _ _ _ (Table.wf_put _ _ _ _ h) | exact fun _ => rfl) (by first | exact id | exact Table.wf_put _ _ _ _ | exact Table.wf_upd _ _ _ _ | exact Table.wf_mapVals _ _ _ | exact Table.wf_putList _ _ _ _ | exact Table.wf_filter _ _ _ | exact fun h => Table.wf_put _ _ _ _ (Table.wf_put _ _ _ _ h) | exact fun _ => rfl) (by first | exact id | exact Table.wf_put _ _ _ _ | exact Table.wf_upd _ _ _ _ | exact Table.wf_mapVals _ _ _ | exact Table.wf_putList _ _ _ _ | exact Table.wf_filter _ _ _ | exact fun h => Table.wf_put _ _ _ _ (Table.wf_put _ _ _ _ h) | exact fun _ => rfl) (by first | exact id | exact Table.wf_put _ _ _ _ | exact Table.wf_upd _ _ _ _ | exact Table.wf_mapVals _ _ _ | exact Table.wf_putList _ _ _ _ | exact Table.wf_filter _ _ _ | exact fun h => Table.wf_put _ _ _ _ (Table.wf_put _ _ _ _ h) | exact fun _ => rfl) (by first | exact id | exact Table.wf_put _ _ _ _ | exact Table.wf_upd _ _ _ _ | exact Table.wf_mapVals _ _ _ | exact Table.wf_putList _ _ _ _ | exact Table.wf_filter _ _ _ | exact fun h => Table.wf_put _ _ _ _ (Table.wf_put _ _ _ _ h) | exact fun _ => rfl) (by first | exact id | exact Table.wf_put _ _ _ _ | exact Table.wf_upd _ _ _ _ | exact Table.wf_mapVals _ _ _ | exact Table.wf_putList _ _ _ _ | exact Table.wf_filter _ _ _ | exact fun h => Table.wf_put _ _ _ _ (Table.wf_put _ _ _ _ h) | exact fun _ => rfl) (by first | exact id | exact Table.wf_put _ _ _ _ | exact Table.wf_upd _ _ _ _ | exact Table.wf_mapVals _ _ _ | exact Table.wf_putList _ _ _ _ | exact Table.wf_filter _ _ _ | exact fun h => Table.wf_put _ _ _ _ (Table.wf_put _ _ _ _ h) | exact fun _ => rfl) (by first | exact id | exact Table.wf_put _ _ _ _ | exact Table.wf_upd _ _ _ _ | exact Table.wf_mapVals _ _ _ | exact Table.wf_putList _ _ _ _ | exact Table.wf_filter _ _ _ | exact fun h => Table.wf_put _ _ _ _ (Table.wf_put _ _ _ _ h) | exact fun _ => rfl) (by first | exact id | exact Table.wf_put _ _ _ _ | exact Table.wf_upd _ _ _ _ | exact Table.wf_mapVals _ _ _ | exact Table.wf_putList _ _ _ _ | exact Table.wf_filter _ _ _ | exact fun h => Table.wf_put _ _ _ _ (Table.wf_put _ _ _ _ h) | exact fun _ => rfl) (by first | exact id | exact Table.wf_put _ _ _ _ | exact Table.wf_upd _ _ _ _ | exact Table.wf_mapVals _ _ _ | exact Table.wf_putList _ _ _ _ | exact Table.wf_filter _ _ _ | exact fun h => Table.wf_put _ _ _ _ (Table.wf_put _ _ _ _ h) | exact fun _ => rfl)

theorem setDcmd_inv {q : List Instr} : ∀ s x1 x2, Inv q s → Inv q (setDcmd s x1 x2) := by
  intro s x1 x2 h
  unfold setDcmd
  repeat' first
    | with_reducible assumption
    | with_reducible intro _
    | with_reducible apply inv_ite
    | split
    | (dsimp only; split)
    | refine inv_fst (by with_reducible assumption) ?_
    | refine inv_snd (by with_reducible assumption) ?_
    | with_reducible apply Inv.mk_plain
    | with_reducible refine Inv.mk_dcmds ?_ (by first | exact id | exact Table.wf_put _ _ _ _ | exact Table.wf_upd _ _ _ _ | exact Table.wf_mapVals _ _ _ | exact Table.wf_putList _ _ _ _ | exact Table.wf_filter _ _ _ | exact fun h => Table.wf_put _ _ _ _ (Table.wf_put _ _ _ _ h) | exact fun _ => rfl)
    | (dsimp only; with_reducible apply Inv.mk_plain)
    | (dsimp only; with_reducible refine Inv.mk_dcmds ?_ (by first | exact id | exact Table.wf_put _ _ _ _ | exact Table.wf_upd _ _ _ _ | exact Table.wf_mapVals _ _ _ | exact Table.wf_putList _ _ _ _ | exact Table.wf_filter _ _ _ | exact fun h => Table.wf_put _ _ _ _ (Table.wf_put _ _ _ _ h) | exact fun _ => rfl))

theorem setPath_inv {q : List Instr} : ∀ s x1 x2, Inv q s → Inv q (setPath s x1 x2) := by
  intro s x1 x2 h
  unfold setPath
  repeat' first
    | with_reducible assumption
    | with_reducible intro _
    | with_reducible apply inv_ite
    | split
    | (dsimp only; split)
    | refine inv_fst (by with_reducible assumption) ?_
    | refine inv_snd (by with_reducible assumption) ?_
    | with_reducible apply Inv.mk_plain
    | with_reducible refine Inv.mk_paths ?_ (by first | exact id | exact Table.wf_put _ _ _ _ | exact Table.wf_upd _ _ _ _ | exact Table.wf_mapVals _ _ _ | exact Table.wf_putList _ _ _ _ | exact Table.wf_filter _ _ _ | exact fun h => Table.wf_put _ _ _ _ (Table.wf_put _ _ _ _ h) | exact fun _ => rfl)
    | (dsimp only; with_reducible apply Inv.mk_plain)
    | (dsimp only; with_reducible refine Inv.mk_paths ?_ (by first | exact id | exact Table.wf_put _ _ _ _ | exact Table.wf_upd _ _ _ _ | exact Table.wf_mapVals _ _ _ | exact Table.wf_putList _ _ _ _ | exact Table.wf_filter _ _ _ | exact fun h => Table.wf_put _ _ _ _ (Table.wf_put _ _ _ _ h) | exact fun _ => rfl))

theorem updPath_inv {q : List Instr} : ∀ s x1 x2, Inv q s → Inv q (updPath s x1 x2) := by
  intro s x1 x2 h
  unfold updPath
  repeat' first
    | with_reducible assumption
    | with_reducible intro _
    | with_reducible apply setPath_inv
    | with_reducible apply inv_ite
    | split
    | (dsimp only; split)
    | refine inv_fst (by with_reducible assumption) ?_
    | refine inv_snd (by with_reducible assumption) ?_

theorem updTw_inv {q : List Instr} : ∀ s x1, Inv q s → Inv q (updTw s x1) := by
  intro s x1 h
  unfold updTw
  repeat' first
    | with_reducible assumption
    | with_reducible intro _
    | with_reducible apply inv_ite
    | split
    | (dsimp only; split)
    | refine inv_fst (by with_reducible assumption) ?_
    | refine inv_snd (by with_reducible assumption) ?_
    | with_reducible apply Inv.mk_plain
    | (dsimp only; with_reducible apply Inv.mk_plain)

theorem setShadow_inv {q : List Instr} : ∀ s x1 x2, Inv q s → Inv q (setShadow s x1 x2) := by
  intro s x1 x2 h
  unfold setShadow
  repeat' first
    | with_reducible assumption
    | with_reducible intro _
    | with_reducible apply updTw_inv
    | with_reducible apply inv_ite
    | split
    | (dsimp only; split)
    | refine inv_fst (by with_reducible assumption) ?_
    | refine inv_snd (by with_reducible assumption) ?_
    | with_reducible apply Inv.mk_plain
    | (dsimp only; with_reducible apply Inv.mk_plain)

theorem hostFetch_inv {q : List Instr} : ∀ s x1 x2 x3, Inv q s → Inv q (hostFetch s x1 x2 x3) := by
  intro s x1 x2 x3 h
  unfold hostFetch
  repeat' first
    | with_reducible assumption
    | with_reducible intro _
    | with_reducible apply emit_inv
    | with_reducible apply inv_ite
    | split
    | (dsimp only; split)
    | refine inv_fst (by with_reducible assumption) ?_
    | refine inv_snd (by with_reducible assumption) ?_

theorem fetchWord_inv {q : List Instr} : ∀ s x1, Inv q s → Inv q (fetchWord s x1) := by
  intro s x1 h
  unfold fetchWord
  repeat' first
    | with_reducible assumption
    | with_reducible intro _
    | with_reducible apply hostFetch_inv
    | with_reducible apply inv_ite
    | split
    | (dsimp only; split)
    | refine inv_fst (by with_reducible assumption) ?_
    | refine inv_snd (by with_reducible assumption) ?_

theorem unhold_inv {q : List Instr} : ∀ s x1, Inv q s → Inv q (unhold s x1) := by
  intro s x1 h
  unfold unhold
  repeat' first
    | with_reducible assumption
    | with_reducible intro _
    | with_reducible apply updRing_inv
    | with_reducible apply inv_ite
    | split
    | (dsimp only; split)
    | refine inv_fst (by with_reducible assumption) ?_
    | refine inv_snd (by with_reducible assumption) ?_

theorem setSrc_inv {q : List Instr} : ∀ s x1 x2, Inv q s → Inv q (setSrc s x1 x2) := by
  intro s x1 x2 h
  unfold setSrc
  repeat' first
    | with_reducible assumption
    | with_reducible intro _
    | with_reducible apply inv_ite
    | split
    | (dsimp only; split)
    | refine inv_fst (by with_reducible assumption) ?_
    | refine inv_snd (by with_reducible assumption) ?_
    | with_reducible apply Inv.mk_plain
    | (dsimp only; with_reducible apply Inv.mk_plain)

theorem noteOrphan_inv {q : List Instr} : ∀ s x1, Inv q s → Inv q (noteOrphan s x1) := by
  intro s x1 h
  unfold noteOrphan
  repeat' first
    | with_reducible assumption
    | with_reducible intro _
    | with_reducible apply inv_ite
    | split
    | (dsimp only; split)
    | refine inv_fst (by with_reducible assumption) ?_
    | refine inv_snd (by with_reducible assumption) ?_
    | with_reducible apply Inv.mk_plain
    | (dsimp only; with_reducible apply Inv.mk_plain)

theorem edgeOnly_inv {q : List Instr} : ∀ s x1, Inv q s → Inv q (edgeOnly s x1) := by
  intro s x1 h
  unfold edgeOnly
  repeat' first
    | with_reducible assumption
    | with_reducible intro _
    | with_reducible apply noteOrphan_inv
    | with_reducible apply setSrc_inv
    | with_reducible apply inv_ite
    | split
    | (dsimp only; split)
    | refine inv_fst (by with_reducible assumption) ?_
    | refine inv_snd (by with_reducible assumption) ?_
    | with_reducible apply Inv.mk_plain
    | (dsimp only; with_reducible apply Inv.mk_plain)

theorem setEcnt_inv {q : List Instr} : ∀ s x1 x2, Inv q s → Inv q (setEcnt s x1 x2) := by
  intro s x1 x2 h
  unfold setEcnt
  repeat' first
    | with_reducible assumption
    | with_reducible intro _
    | with_reducible apply inv_ite
    | split
    | (dsimp only; split)
    | refine inv_fst (by with_reducible assumption) ?_
    | refine inv_snd (by with_reducible assumption) ?_
    | with_reducible apply Inv.mk_plain
    | with_reducible refine Inv.mk_ecnt ?_ (by first | exact id | exact Table.wf_put _ _ _ _ | exact Table.wf_upd _ _ _ _ | exact Table.wf_mapVals _ _ _ | exact Table.wf_putList _ _ _ _ | exact Table.wf_filter _ _ _ | exact fun h => Table.wf_put _ _ _ _ (Table.wf_put _ _ _ _ h) | exact fun _ => rfl)
    | (dsimp only; with_reducible apply Inv.mk_plain)
    | (dsimp only; with_reducible refine Inv.mk_ecnt ?_ (by first | exact id | exact Table.wf_put _ _ _ _ | exact Table.wf_upd _ _ _ _ | exact Table.wf_mapVals _ _ _ | exact Table.wf_putList _ _ _ _ | exact Table.wf_filter _ _ _ | exact fun h => Table.wf_put _ _ _ _ (Table.wf_put _ _ _ _ h) | exact fun _ => rfl))

mutual
theorem ecAdd_inv {q : List Instr} : ∀ n s k m, Inv q s → Inv q (ecAdd n s k m)
  | 0, _, _, _, h => h
  | n + 1, s, k, m, h => by
    unfold ecAdd
    dsimp only
    split
    · exact setEcnt_inv _ _ _ h
    · apply raiseF_inv
      split
      · exact ecAdd_inv n _ _ _ (setEcnt_inv _ _ _ h)
      · exact setEcnt_inv _ _ _ h
theorem raiseF_inv {q : List Instr} : ∀ n s k, Inv q s → Inv q (raiseF n s k)
  | 0, _, _, h => h
  | n + 1, s, k, h => by
    unfold raiseF
    dsimp only
    apply edgeOnly_inv
    split
    · exact h
    · exact countAll_inv n _ _ h
theorem countAll_inv {q : List Instr} : ∀ n s l, Inv q s → Inv q (countAll n s l)
  | 0, _, _, h => h
  | _ + 1, _, [], h => h
  | n + 1, s, k :: ks, h => by
    unfold countAll
    exact countAll_inv n _ _ (ecAdd_inv n _ _ _ h)
end

theorem raise_inv {q : List Instr} : ∀ s x1, Inv q s → Inv q (raise s x1) := by
  intro s x1 h
  unfold raise
  repeat' first
    | with_reducible assumption
    | with_reducible intro _
    | with_reducible apply raiseF_inv
    | with_reducible apply inv_ite
    | split
    | (dsimp only; split)
    | refine inv_fst (by with_reducible assumption) ?_
    | refine inv_snd (by with_reducible assumption) ?_

theorem sampleLevel_inv {q : List Instr} : ∀ s x1, Inv q s → Inv q (sampleLevel s x1) := by
  intro s x1 h
  unfold sampleLevel
  repeat' first
    | with_reducible assumption
    | with_reducible intro _
    | with_reducible apply setSrc_inv
    | with_reducible apply noteOrphan_inv
    | with_reducible apply countAll_inv
    | with_reducible apply inv_ite
    | split
    | (dsimp only; split)
    | refine inv_fst (by with_reducible assumption) ?_
    | refine inv_snd (by with_reducible assumption) ?_

theorem releaseClaims_inv {q : List Instr} : ∀ s x1, Inv q s → Inv q (releaseClaims s x1) := by
  intro s x1 h
  unfold releaseClaims
  repeat' first
    | with_reducible assumption
    | with_reducible intro _
    | with_reducible apply inv_ite
    | split
    | (dsimp only; split)
    | refine inv_fst (by with_reducible assumption) ?_
    | refine inv_snd (by with_reducible assumption) ?_
    | with_reducible apply Inv.mk_plain
    | (dsimp only; with_reducible apply Inv.mk_plain)

end Sys2Proof.Machine
end

