-- ==== Sys2Proof/Laws/InvModeCore.lean ====
section
/-! SUPPORT. Laws/InvModeCore.lean: every function of Machine/ModeCore.lean keeps the invariant of a sound state. -/

namespace Sys2Proof.Machine

theorem putPacket_inv {q : List Instr} : ∀ s t i c o p, Inv q s → Inv q (putPacket s t i c o p).1 := by
  intro s t i c o p h
  unfold putPacket
  dsimp only
  repeat' split
  all_goals first
    | exact h
    | exact Inv.mk_plain h

theorem packet_inv {q : List Instr} : ∀ s p t c v, Inv q s → Inv q (packet s p t c v) := by
  intro s p t c v h
  unfold packet
  split
  · exact h
  · exact updPilot_inv _ _ _ (putPacket_inv _ _ _ _ _ _ h)

theorem retide_inv {q : List Instr} : ∀ s, Inv q s → Inv q (retide s) := by
  intro s h
  unfold retide
  repeat' first
    | with_reducible assumption
    | with_reducible intro _
    | with_reducible apply inv_ite
    | split
    | (dsimp only; split)
    | refine inv_fst (by with_reducible assumption) ?_
    | refine inv_snd (by with_reducible assumption) ?_
    | with_reducible apply Inv.mk_plain
    | (dsimp only; with_reducible apply Inv.mk_plain)

theorem startWake_inv {q : List Instr} : ∀ s x1, Inv q s → Inv q (startWake s x1) := by
  intro s x1 h
  unfold startWake
  repeat' first
    | with_reducible assumption
    | with_reducible intro _
    | with_reducible apply inv_ite
    | split
    | (dsimp only; split)
    | refine inv_fst (by with_reducible assumption) ?_
    | refine inv_snd (by with_reducible assumption) ?_
    | with_reducible apply Inv.mk_plain
    | (dsimp only; with_reducible apply Inv.mk_plain)

theorem ctlWake_inv {q : List Instr} : ∀ x0 s, Inv q s → Inv q (ctlWake x0 s) := by
  intro x0 s h
  unfold ctlWake
  repeat' first
    | with_reducible assumption
    | with_reducible intro _
    | with_reducible apply startWake_inv
    | with_reducible apply inv_ite
    | split
    | (dsimp only; split)
    | refine inv_fst (by with_reducible assumption) ?_
    | refine inv_snd (by with_reducible assumption) ?_

theorem setMode_inv {q : List Instr} : ∀ s m d, (m = 4 ∨ d = 0) → Inv q s → Inv q (setMode s m d) := by
  intro s m d hm h
  unfold setMode
  split
  · exact h
  · apply retide_inv
    have h1 : Inv q { s with blk := { s.blk with mode := m, dlevel := d } } :=
      Inv.mk_blk h (fun _ => by rcases hm with e | e <;> simp [e])
    have h2 := fun a b => hmLog_inv _ 0x103 a b h1
    dsimp only
    split
    · exact packet_inv _ _ _ _ _ (h2 _ _)
    · exact h2 _ _

end Sys2Proof.Machine
end

