-- ==== Sys2Proof/Laws/InvMoorings.lean ====
section
/-! SUPPORT. Laws/InvMoorings.lean: every function of Machine/Moorings.lean keeps the invariant of a sound state. -/

namespace Sys2Proof.Machine

theorem setMoor_inv {q : List Instr} : ∀ s x1 x2, Inv q s → Inv q (setMoor s x1 x2) := by
  intro s x1 x2 h
  unfold setMoor
  repeat' first
    | with_reducible assumption
    | with_reducible intro _
    | with_reducible apply updOwn_inv
    | with_reducible apply setAloneMoor_inv
    | with_reducible apply inv_ite
    | split
    | (dsimp only; split)
    | refine inv_fst (by with_reducible assumption) ?_
    | refine inv_snd (by with_reducible assumption) ?_

theorem lfree_inv {q : List Instr} : ∀ s x1, Inv q s → Inv q (lfree s x1) := by
  intro s x1 h
  unfold lfree
  repeat' first
    | with_reducible assumption
    | with_reducible intro _
    | with_reducible apply inv_ite
    | split
    | (dsimp only; split)
    | refine inv_fst (by with_reducible assumption) ?_
    | refine inv_snd (by with_reducible assumption) ?_
    | with_reducible apply Inv.mk_plain
    | with_reducible refine Inv.mk_bays ?_ (by first | exact id | exact Table.wf_put _ _ _ _ | exact Table.wf_upd _ _ _ _ | exact Table.wf_mapVals _ _ _ | exact Table.wf_putList _ _ _ _ | exact Table.wf_filter _ _ _ | exact fun h => Table.wf_put _ _ _ _ (Table.wf_put _ _ _ _ h) | exact fun _ => rfl)
    | (dsimp only; with_reducible apply Inv.mk_plain)
    | (dsimp only; with_reducible refine Inv.mk_bays ?_ (by first | exact id | exact Table.wf_put _ _ _ _ | exact Table.wf_upd _ _ _ _ | exact Table.wf_mapVals _ _ _ | exact Table.wf_putList _ _ _ _ | exact Table.wf_filter _ _ _ | exact fun h => Table.wf_put _ _ _ _ (Table.wf_put _ _ _ _ h) | exact fun _ => rfl))

theorem orphanCmds_inv {q : List Instr} : ∀ s x1, Inv q s → Inv q (orphanCmds s x1) := by
  intro s x1 h
  unfold orphanCmds
  repeat' first
    | with_reducible assumption
    | with_reducible intro _
    | with_reducible apply inv_ite
    | split
    | (dsimp only; split)
    | refine inv_fst (by with_reducible assumption) ?_
    | refine inv_snd (by with_reducible assumption) ?_
    | with_reducible apply Inv.mk_plain
    | with_reducible refine Inv.mk_dcmds ?_ (by first | exact id | exact Table.wf_put _ _ _ _ | exact Table.wf_upd _ _ _ _ | exact Table.wf_mapVals _ _ _ | exact Table.wf_putList _ _ _ _ | exact Table.wf_filter _ _ _ | exact fun h => Table.wf_put _ _ _ _ (Table.wf_put _ _ _ _ h) | exact fun _ => rfl)
    | (dsimp only; with_reducible apply Inv.mk_plain)
    | (dsimp only; with_reducible refine Inv.mk_dcmds ?_ (by first | exact id | exact Table.wf_put _ _ _ _ | exact Table.wf_upd _ _ _ _ | exact Table.wf_mapVals _ _ _ | exact Table.wf_putList _ _ _ _ | exact Table.wf_filter _ _ _ | exact fun h => Table.wf_put _ _ _ _ (Table.wf_put _ _ _ _ h) | exact fun _ => rfl))

theorem finishRollback_inv {q : List Instr} : ∀ s x1, Inv q s → Inv q (finishRollback s x1) := by
  intro s x1 h
  unfold finishRollback
  repeat' first
    | with_reducible assumption
    | with_reducible intro _
    | with_reducible apply setOwn_inv
    | with_reducible apply lfree_inv
    | with_reducible apply fetchWord_inv
    | with_reducible apply orphanCmds_inv
    | with_reducible apply updXctx_inv
    | with_reducible apply unhold_inv
    | with_reducible apply sampleLevel_inv
    | with_reducible apply inv_ite
    | split
    | (dsimp only; split)
    | refine inv_fst (by with_reducible assumption) ?_
    | refine inv_snd (by with_reducible assumption) ?_
    | with_reducible apply Inv.mk_plain
    | with_reducible refine Inv.mk_moor ?_ (by first | exact id | exact Table.wf_put _ _ _ _ | exact Table.wf_upd _ _ _ _ | exact Table.wf_mapVals _ _ _ | exact Table.wf_putList _ _ _ _ | exact Table.wf_filter _ _ _ | exact fun h => Table.wf_put _ _ _ _ (Table.wf_put _ _ _ _ h) | exact fun _ => rfl)
    | (dsimp only; with_reducible apply Inv.mk_plain)
    | (dsimp only; with_reducible refine Inv.mk_moor ?_ (by first | exact id | exact Table.wf_put _ _ _ _ | exact Table.wf_upd _ _ _ _ | exact Table.wf_mapVals _ _ _ | exact Table.wf_putList _ _ _ _ | exact Table.wf_filter _ _ _ | exact fun h => Table.wf_put _ _ _ _ (Table.wf_put _ _ _ _ h) | exact fun _ => rfl))

theorem noteBreak_inv {q : List Instr} : ∀ s x1 x2 x3 x4, Inv q s → Inv q (noteBreak s x1 x2 x3 x4) := by
  intro s x1 x2 x3 x4 h
  unfold noteBreak
  repeat' first
    | with_reducible assumption
    | with_reducible intro _
    | with_reducible apply inv_ite
    | split
    | (dsimp only; split)
    | refine inv_fst (by with_reducible assumption) ?_
    | refine inv_snd (by with_reducible assumption) ?_
    | with_reducible apply Inv.mk_plain
    | (dsimp only; with_reducible apply Inv.mk_plain)

theorem breakMoor_inv {q : List Instr} : ∀ s x1 x2, Inv q s → Inv q (breakMoor s x1 x2) := by
  intro s x1 x2 h
  unfold breakMoor
  repeat' first
    | with_reducible assumption
    | with_reducible intro _
    | with_reducible apply noteBreak_inv
    | with_reducible apply setAloneMoor_inv
    | with_reducible apply updOwn_inv
    | with_reducible apply finishRollback_inv
    | with_reducible apply inv_ite
    | split
    | (dsimp only; split)
    | refine inv_fst (by with_reducible assumption) ?_
    | refine inv_snd (by with_reducible assumption) ?_

theorem breakAll_inv {q : List Instr} : ∀ s x1 x2, Inv q s → Inv q (breakAll s x1 x2) := by
  intro s x1 x2 h
  unfold breakAll
  repeat' first
    | with_reducible assumption
    | with_reducible intro _
    | with_reducible apply breakMoor_inv
    | with_reducible apply inv_ite
    | with_reducible refine inv_foldl (fun _ _ _ => ?_) _ _ ?_
    | split
    | (dsimp only; split)
    | refine inv_fst (by with_reducible assumption) ?_
    | refine inv_snd (by with_reducible assumption) ?_

theorem breakBank_inv {q : List Instr} : ∀ s x1 x2 x3, Inv q s → Inv q (breakBank s x1 x2 x3) := by
  intro s x1 x2 x3 h
  unfold breakBank
  repeat' first
    | with_reducible assumption
    | with_reducible intro _
    | with_reducible apply breakAll_inv
    | with_reducible apply inv_ite
    | split
    | (dsimp only; split)
    | refine inv_fst (by with_reducible assumption) ?_
    | refine inv_snd (by with_reducible assumption) ?_

theorem breakPilot_inv {q : List Instr} : ∀ s x1 x2, Inv q s → Inv q (breakPilot s x1 x2) := by
  intro s x1 x2 h
  unfold breakPilot
  repeat' first
    | with_reducible assumption
    | with_reducible intro _
    | with_reducible apply breakAll_inv
    | with_reducible apply inv_ite
    | split
    | (dsimp only; split)
    | refine inv_fst (by with_reducible assumption) ?_
    | refine inv_snd (by with_reducible assumption) ?_

theorem reownMoorings_inv {q : List Instr} : ∀ s x1 x2, Inv q s → Inv q (reownMoorings s x1 x2) := by
  intro s x1 x2 h
  unfold reownMoorings
  repeat' first
    | with_reducible assumption
    | with_reducible intro _
    | with_reducible apply inv_ite
    | split
    | (dsimp only; split)
    | refine inv_fst (by with_reducible assumption) ?_
    | refine inv_snd (by with_reducible assumption) ?_
    | with_reducible apply Inv.mk_plain
    | with_reducible refine Inv.mk_own ?_ (by first | exact id | exact Table.wf_put _ _ _ _ | exact Table.wf_upd _ _ _ _ | exact Table.wf_mapVals _ _ _ | exact Table.wf_putList _ _ _ _ | exact Table.wf_filter _ _ _ | exact fun h => Table.wf_put _ _ _ _ (Table.wf_put _ _ _ _ h) | exact fun _ => rfl)
    | with_reducible refine Inv.mk_moor ?_ (by first | exact id | exact Table.wf_put _ _ _ _ | exact Table.wf_upd _ _ _ _ | exact Table.wf_mapVals _ _ _ | exact Table.wf_putList _ _ _ _ | exact Table.wf_filter _ _ _ | exact fun h => Table.wf_put _ _ _ _ (Table.wf_put _ _ _ _ h) | exact fun _ => rfl)
    | (dsimp only; with_reducible apply Inv.mk_plain)
    | (dsimp only; with_reducible refine Inv.mk_own ?_ (by first | exact id | exact Table.wf_put _ _ _ _ | exact Table.wf_upd _ _ _ _ | exact Table.wf_mapVals _ _ _ | exact Table.wf_putList _ _ _ _ | exact Table.wf_filter _ _ _ | exact fun h => Table.wf_put _ _ _ _ (Table.wf_put _ _ _ _ h) | exact fun _ => rfl))
    | (dsimp only; with_reducible refine Inv.mk_moor ?_ (by first | exact id | exact Table.wf_put _ _ _ _ | exact Table.wf_upd _ _ _ _ | exact Table.wf_mapVals _ _ _ | exact Table.wf_putList _ _ _ _ | exact Table.wf_filter _ _ _ | exact fun h => Table.wf_put _ _ _ _ (Table.wf_put _ _ _ _ h) | exact fun _ => rfl))
    | refine Inv.mk_all ?_ (by first | exact id | exact Table.wf_put _ _ _ _ | exact Table.wf_upd _ _ _ _ | exact Table.wf_mapVals _ _ _ | exact Table.wf_putList _ _ _ _ | exact Table.wf_filter _ _ _ | exact fun h => Table.wf_put _ _ _ _ (Table.wf_put _ _ _ _ h) | exact fun _ => rfl) (by first | exact id | exact Table.wf_put _ _ _ _ | exact Table.wf_upd _ _ _ _ | exact Table.wf_mapVals _ _ _ | exact Table.wf_putList _ _ _ _ | exact Table.wf_filter _ _ _ | exact fun h => Table.wf_put _ _ _ _ (Table.wf_put _ _ _ _ h) | exact fun _ => rfl) (by first | exact id | exact Table.wf_put _ _ _ _ | exact Table.wf_upd _ _ _ _ | exact Table.wf_mapVals _ _ _ | exact Table.wf_putList _ _ _ _ | exact Table.wf_filter _ _ _ | exact fun h => Table.wf_put _ _ _ _ (Table.wf_put _ _ _ _ h) | exact fun _ => rfl) (by first | exact id | exact Table.wf_put _ _ _ _ | exact Table.wf_upd _ _ _ _ | exact Table.wf_mapVals _ _ _ | exact Table.wf_putList _ _ _ _ | exact Table.wf_filter _ _ _ | exact fun h => Table.wf_put _ _ _ _ (Table.wf_put _ _ _ _ h) | exact fun _ => rfl) (by first | exact id | exact Table.wf_put _ _ _ _ | exact Table.wf_upd _ _ _ _ | exact Table.wf_mapVals _ _ _ | exact Table.wf_putList _ _ _ _ | exact Table.wf_filter _ _ _ | exact fun h => Table.wf_put _ _ _ _ (Table.wf_put _ _ _ _ h) | exact fun _ => rfl) (by first | exact id | exact Table.wf_put _ _ _ _ | exact Table.wf_upd _ _ _ _ | exact Table.wf_mapVals _ _ _ | exact Table.wf_putList _ _ _ _ | exact Table.wf_filter _ _ _ | exact fun h => Table.wf_put _ _ _ _ (Table.wf_put _ _ _ _ h) | exact fun _ => rfl) (by first | exact id | exact Table.wf_put _ _ _ _ | exact Table.wf_upd _ _ _ _ | exact Table.wf_mapVals _ _ _ | exact Table.wf_putList _ _ _ _ | exact Table.wf_filter _ _ _ | exact fun h => Table.wf_put _ _ _ _ (Table.wf_put _ _ _ _ h) | exact fun _ => rfl) (by first | exact id | exact Table.wf_put _ _ _ _ | exact Table.wf_upd _ _ _ _ | exact Table.wf_mapVals _ _ _ | exact Table.wf_putList _ _ _ _ | exact Table.wf_filter _ _ _ | exact fun h => Table.wf_put _ _ _ _ (Table.wf_put _ _ _ _ h) | exact fun _ => rfl) (by first | exact id | exact Table.wf_put _ _ _ _ | exact Table.wf_upd _ _ _ _ | exact Table.wf_mapVals _ _ _ | exact Table.wf_putList _ _ _ _ | exact Table.wf_filter _ _ _ | exact fun h => Table.wf_put _ _ _ _ (Table.wf_put _ _ _ _ h) | exact fun _ => rfl) (by first | exact id | exact Table.wf_put _ _ _ _ | exact Table.wf_upd _ _ _ _ | exact Table.wf_mapVals _ _ _ | exact Table.wf_putList _ _ _ _ | exact Table.wf_filter _ _ _ | exact fun h => Table.wf_put _ _ _ _ (Table.wf_put _ _ _ _ h) | exact fun _ => rfl) (by first | exact id | exact Table.wf_put _ _ _ _ | exact Table.wf_upd _ _ _ _ | exact Table.wf_mapVals _ _ _ | exact Table.wf_putList _ _ _ _ | exact Table.wf_filter _ _ _ | exact fun h => Table.wf_put _ _ _ _ (Table.wf_put _ _ _ _ h) | exact fun _ => rfl) (by first | exact id | exact Table.wf_put _ _ _ _ | exact Table.wf_upd _ _ _ _ | exact Table.wf_mapVals _ _ _ | exact Table.wf_putList _ _ _ _ | exact Table.wf_filter _ _ _ | exact fun h => Table.wf_put _ _ _ _ (Table.wf_put _ _ _ _ h) | exact fun _ => rfl) (by first | exact id | exact Table.wf_put _ _ _ _ | exact Table.wf_upd _ _ _ _ | exact Table.wf_mapVals _ _ _ | exact Table.wf_putList _ _ _ _ | exact Table.wf_filter _ _ _ | exact fun h => Table.wf_put _ _ _ _ (Table.wf_put _ _ _ _ h) | exact fun _ => rfl) (by first | exact id | exact Table.wf_put _ _ _ _ | exact Table.wf_upd _ _ _ _ | exact Table.wf_mapVals _ _ _ | exact Table.wf_putList _ _ _ _ | exact Table.wf_filter _ _ _ | exact fun h => Table.wf_put _ _ _ _ (Table.wf_put _ _ _ _ h) | exact fun _ => rfl) (by first | exact id | exact Table.wf_put _ _ _ _ | exact Table.wf_upd _ _ _ _ | exact Table.wf_mapVals _ _ _ | exact Table.wf_putList _ _ _ _ | exact Table.wf_filter _ _ _ | exact fun h => Table.wf_put _ _ _ _ (Table.wf_put _ _ _ _ h) | exact fun _ => rfl) (by first | exact id | exact Table.wf_put _ _ _ _ | exact Table.wf_upd _ _ _ _ | exact Table.wf_mapVals _ _ _ | exact Table.wf_putList _ _ _ _ | exact Table.wf_filter _ _ _ | exact fun h => Table.wf_put _ _ _ _ (Table.wf_put _ _ _ _ h) | exact fun _ => rfl) (by first | exact id | exact Table.wf_put _ _ _ _ | exact Table.wf_upd _ _ _ _ | exact Table.wf_mapVals _ _ _ | exact Table.wf_putList _ _ _ _ | exact Table.wf_filter _ _ _ | exact fun h => Table.wf_put _ _ _ _ (Table.wf_put _ _ _ _ h) | exact fun _ => rfl) (by first | exact id | exact Table.wf_put _ _ _ _ | exact Table.wf_upd _ _ _ _ | exact Table.wf_mapVals _ _ _ | exact Table.wf_putList _ _ _ _ | exact Table.wf_filter _ _ _ | exact fun h => Table.wf_put _ _ _ _ (Table.wf_put _ _ _ _ h) | exact fun _ => rfl) (by first | exact id | exact Table.wf_put _ _ _ _ | exact Table.wf_upd _ _ _ _ | exact Table.wf_mapVals _ _ _ | exact Table.wf_putList _ _ _ _ | exact Table.wf_filter _ _ _ | exact fun h => Table.wf_put _ _ _ _ (Table.wf_put _ _ _ _ h) | exact fun _ => rfl) (by first | exact id | exact Table.wf_put _ _ _ _ | exact Table.wf_upd _ _ _ _ | exact Table.wf_mapVals _ _ _ | exact Table.wf_putList _ _ _ _ | exact Table.wf_filter _ _ _ | exact fun h => Table.wf_put _ _ _ _ (Table.wf_put _ _ _ _ h) | exact fun _ => rfl) (by first | exact id | exact Table.wf_put _ _ _ _ | exact Table.wf_upd _ _ _ _ | exact Table.wf_mapVals _ _ _ | exact Table.wf_putList _ _ _ _ | exact Table.wf_filter _ _ _ | exact fun h => Table.wf_put _ _ _ _ (Table.wf_put _ _ _ _ h) | exact fun _ => rfl) (by first | exact id | exact Table.wf_put _ _ _ _ | exact Table.wf_upd _ _ _ _ | exact Table.wf_mapVals _ _ _ | exact Table.wf_putList _ _ _ _ | exact Table.wf_filter _ _ _ | exact fun h => Table.wf_put _ _ _ _ (Table.wf_put _ _ _ _ h) | exact fun _ => rfl) (by first | exact id | exact Table.wf_put _ _ _ _ | exact Table.wf_upd _ _ _ _ | exact Table.wf_mapVals _ _ _ | exact Table.wf_putList _ _ _ _ | exact Table.wf_filter _ _ _ | exact fun h => Table.wf_put _ _ _ _ (Table.wf_put _ _ _ _ h) | exact fun _ => rfl) (by first | exact id | exact Table.wf_put _ _ _ _ | exact Table.wf_upd _ _ _ _ | exact Table.wf_mapVals _ _ _ | exact Table.wf_putList _ _ _ _ | exact Table.wf_filter _ _ _ | exact fun h => Table.wf_put _ _ _ _ (Table.wf_put _ _ _ _ h) | exact fun _ => rfl) (by first | exact id | exact Table.wf_put _ _ _ _ | exact Table.wf_upd _ _ _ _ | exact Table.wf_mapVals _ _ _ | exact Table.wf_putList _ _ _ _ | exact Table.wf_filter _ _ _ | exact fun h => Table.wf_put _ _ _ _ (Table.wf_put _ _ _ _ h) | exact fun _ => rfl) (by first | exact id | exact Table.wf_put _ _ _ _ | exact Table.wf_upd _ _ _ _ | exact Table.wf_mapVals _ _ _ | exact Table.wf_putList _ _ _ _ | exact Table.wf_filter _ _ _ | exact fun h => Table.wf_put _ _ _ _ (Table.wf_put _ _ _ _ h) | exact fun _ => rfl) (by first | exact id | exact Table.wf_put _ _ _ _ | exact Table.wf_upd _ _ _ _ | exact Table.wf_mapVals _ _ _ | exact Table.wf_putList _ _ _ _ | exact Table.wf_filter _ _ _ | exact fun h => Table.wf_put _ _ _ _ (Table.wf_put _ _ _ _ h) | exact fun _ => rfl) (by first | exact id | exact Table.wf_put _ _ _ _ | exact Table.wf_upd _ _ _ _ | exact Table.wf_mapVals _ _ _ | exact Table.wf_putList _ _ _ _ | exact Table.wf_filter _ _ _ | exact fun h => Table.wf_put _ _ _ _ (Table.wf_put _ _ _ _ h) | exact fun _ => rfl) (by first | exact id | exact Table.wf_put _ _ _ _ | exact Table.wf_upd _ _ _ _ | exact Table.wf_mapVals _ _ _ | exact Table.wf_putList _ _ _ _ | exact Table.wf_filter _ _ _ | exact fun h => Table.wf_put _ _ _ _ (Table.wf_put _ _ _ _ h) | exact fun _ => rfl)

theorem endTurns_inv {q : List Instr} : ∀ s x1 x2, Inv q s → Inv q (endTurns s x1 x2) := by
  intro s x1 x2 h
  unfold endTurns
  repeat' first
    | with_reducible assumption
    | with_reducible intro _
    | with_reducible apply inv_ite
    | split
    | (dsimp only; split)
    | refine inv_fst (by with_reducible assumption) ?_
    | refine inv_snd (by with_reducible assumption) ?_
    | with_reducible apply Inv.mk_plain
    | with_reducible refine Inv.mk_rings ?_ (by first | exact id | exact Table.wf_put _ _ _ _ | exact Table.wf_upd _ _ _ _ | exact Table.wf_mapVals _ _ _ | exact Table.wf_putList _ _ _ _ | exact Table.wf_filter _ _ _ | exact fun h => Table.wf_put _ _ _ _ (Table.wf_put _ _ _ _ h) | exact fun _ => rfl)
    | (dsimp only; with_reducible apply Inv.mk_plain)
    | (dsimp only; with_reducible refine Inv.mk_rings ?_ (by first | exact id | exact Table.wf_put _ _ _ _ | exact Table.wf_upd _ _ _ _ | exact Table.wf_mapVals _ _ _ | exact Table.wf_putList _ _ _ _ | exact Table.wf_filter _ _ _ | exact fun h => Table.wf_put _ _ _ _ (Table.wf_put _ _ _ _ h) | exact fun _ => rfl))

end Sys2Proof.Machine
end

