-- ==== Sys2Proof/Laws/InvWindow.lean ====
section
/-! SUPPORT. Laws/InvWindow.lean: every function of Machine/Window.lean keeps the invariant of a sound state. -/

namespace Sys2Proof.Machine

theorem drainStore_inv {q : List Instr} : ∀ s x1, Inv q s → Inv q (drainStore s x1) := by
  intro s x1 h
  unfold drainStore
  repeat' first
    | with_reducible assumption
    | with_reducible intro _
    | with_reducible apply inv_ite
    | split
    | (dsimp only; split)
    | refine inv_fst (by with_reducible assumption) ?_
    | refine inv_snd (by with_reducible assumption) ?_
    | with_reducible apply Inv.mk_plain
    | with_reducible refine Inv.mk_cask ?_ (by first | exact id | exact Table.wf_put _ _ _ _ | exact Table.wf_upd _ _ _ _ | exact Table.wf_mapVals _ _ _ | exact Table.wf_putList _ _ _ _ | exact Table.wf_filter _ _ _ | exact fun h => Table.wf_put _ _ _ _ (Table.wf_put _ _ _ _ h) | exact fun _ => rfl)
    | with_reducible refine Inv.mk_cellar ?_ (by first | exact id | exact Table.wf_put _ _ _ _ | exact Table.wf_upd _ _ _ _ | exact Table.wf_mapVals _ _ _ | exact Table.wf_putList _ _ _ _ | exact Table.wf_filter _ _ _ | exact fun h => Table.wf_put _ _ _ _ (Table.wf_put _ _ _ _ h) | exact fun _ => rfl)
    | (dsimp only; with_reducible apply Inv.mk_plain)
    | (dsimp only; with_reducible refine Inv.mk_cask ?_ (by first | exact id | exact Table.wf_put _ _ _ _ | exact Table.wf_upd _ _ _ _ | exact Table.wf_mapVals _ _ _ | exact Table.wf_putList _ _ _ _ | exact Table.wf_filter _ _ _ | exact fun h => Table.wf_put _ _ _ _ (Table.wf_put _ _ _ _ h) | exact fun _ => rfl))
    | (dsimp only; with_reducible refine Inv.mk_cellar ?_ (by first | exact id | exact Table.wf_put _ _ _ _ | exact Table.wf_upd _ _ _ _ | exact Table.wf_mapVals _ _ _ | exact Table.wf_putList _ _ _ _ | exact Table.wf_filter _ _ _ | exact fun h => Table.wf_put _ _ _ _ (Table.wf_put _ _ _ _ h) | exact fun _ => rfl))
    | refine Inv.mk_all ?_ (by first | exact id | exact Table.wf_put _ _ _ _ | exact Table.wf_upd _ _ _ _ | exact Table.wf_mapVals _ _ _ | exact Table.wf_putList _ _ _ _ | exact Table.wf_filter _ _ _ | exact fun h => Table.wf_put _ _ _ _ (Table.wf_put _ _ _ _ h) | exact fun _ => rfl) (by first | exact id | exact Table.wf_put _ _ _ _ | exact Table.wf_upd _ _ _ _ | exact Table.wf_mapVals _ _ _ | exact Table.wf_putList _ _ _ _ | exact Table.wf_filter _ _ _ | exact fun h => Table.wf_put _ _ _ _ (Table.wf_put _ _ _ _ h) | exact fun _ => rfl) (by first | exact id | exact Table.wf_put _ _ _ _ | exact Table.wf_upd _ _ _ _ | exact Table.wf_mapVals _ _ _ | exact Table.wf_putList _ _ _ _ | exact Table.wf_filter _ _ _ | exact fun h => Table.wf_put _ _ _ _ (Table.wf_put _ _ _ _ h) | exact fun _ => rfl) (by first | exact id | exact Table.wf_put _ _ _ _ | exact Table.wf_upd _ _ _ _ | exact Table.wf_mapVals _ _ _ | exact Table.wf_putList _ _ _ _ | exact Table.wf_filter _ _ _ | exact fun h => Table.wf_put _ _ _ _ (Table.wf_put _ _ _ _ h) | exact fun _ => rfl) (by first | exact id | exact Table.wf_put _ _ _ _ | exact Table.wf_upd _ _ _ _ | exact Table.wf_mapVals _ _ _ | exact Table.wf_putList _ _ _ _ | exact Table.wf_filter _ _ _ | exact fun h => Table.wf_put _ _ _ _ (Table.wf_put _ _ _ _ h) | exact fun _ => rfl) (by first | exact id | exact Table.wf_put _ _ _ _ | exact Table.wf_upd _ _ _ _ | exact Table.wf_mapVals _ _ _ | exact Table.wf_putList _ _ _ _ | exact Table.wf_filter _ _ _ | exact fun h => Table.wf_put _ _ _ _ (Table.wf_put _ _ _ _ h) | exact fun _ => rfl) (by first | exact id | exact Table.wf_put _ _ _ _ | exact Table.wf_upd _ _ _ _ | exact Table.wf_mapVals _ _ _ | exact Table.wf_putList _ _ _ _ | exact Table.wf_filter _ _ _ | exact fun h => Table.wf_put _ _ _ _ (Table.wf_put _ _ _ _ h) | exact fun _ => rfl) (by first | exact id | exact Table.wf_put _ _ _ _ | exact Table.wf_upd _ _ _ _ | exact Table.wf_mapVals _ _ _ | exact Table.wf_putList _ _ _ _ | exact Table.wf_filter _ _ _ | exact fun h => Table.wf_put _ _ _ _ (Table.wf_put _ _ _ _ h) | exact fun _ => rfl) (by first | exact id | exact Table.wf_put _ _ _ _ | exact Table.wf_upd _ _ _ _ | exact Table.wf_mapVals _ _ _ | exact Table.wf_putList _ _ _ _ | exact Table.wf_filter _ _ _ | exact fun h => Table.wf_put _ _ _ _ (Table.wf_put _ _ _ _ h) | exact fun _ => rfl) (by first | exact id | exact Table.wf_put _ _ _ _ | exact Table.wf_upd _ _ _ _ | exact Table.wf_mapVals _ _ _ | exact Table.wf_putList _ _ _ _ | exact Table.wf_filter _ _ _ | exact fun h => Table.wf_put _ _ _ _ (Table.wf_put _ _ _ _ h) | exact fun _ => rfl) (by first | exact id | exact Table.wf_put _ _ _ _ | exact Table.wf_upd _ _ _ _ | exact Table.wf_mapVals _ _ _ | exact Table.wf_putList _ _ _ _ | exact Table.wf_filter _ _ _ | exact fun h => Table.wf_put _ _ _ _ (Table.wf_put _ _ _ _ h) | exact fun _ => rfl) (by first | exact id | exact Table.wf_put _ _ _ _ | exact Table.wf_upd _ _ _ _ | exact Table.wf_mapVals _ _ _ | exact Table.wf_putList _ _ _ _ | exact Table.wf_filter _ _ _ | exact fun h => Table.wf_put _ _ _ _ (Table.wf_put _ _ _ _ h) | exact fun _ => rfl) (by first | exact id | exact Table.wf_put _ _ _ _ | exact Table.wf_upd _ _ _ _ | exact Table.wf_mapVals _ _ _ | exact Table.wf_putList _ _ _ _ | exact Table.wf_filter _ _ _ | exact fun h => Table.wf_put _ _ _ _ (Table.wf_put _ _ _ _ h) | exact fun _ => rfl) (by first | exact id | exact Table.wf_put _ _ _ _ | exact Table.wf_upd _ _ _ _ | exact Table.wf_mapVals _ _ _ | exact Table.wf_putList _ _ _ _ | exact Table.wf_filter _ _ _ | exact fun h => Table.wf_put _ _ _ _ (Table.wf_put _ _ _ _ h) | exact fun _ => rfl) (by first | exact id | exact Table.wf_put _ _ _ _ | exact Table.wf_upd _ _ _ _ | exact Table.wf_mapVals _ _ _ | exact Table.wf_putList _ _ _ _ | exact Table.wf_filter _ _ _ | exact fun h => Table.wf_put _ _ _ _ (Table.wf_put _ _ _ _ h) | exact fun _ => rfl) (by first | exact id | exact Table.wf_put _ _ _ _ | exact Table.wf_upd _ _ _ _ | exact Table.wf_mapVals _ _ _ | exact Table.wf_putList _ _ _ _ | exact Table.wf_filter _ _ _ | exact fun h => Table.wf_put _ _ _ _ (Table.wf_put _ _ _ _ h) | exact fun _ => rfl) (by first | exact id | exact Table.wf_put _ _ _ _ | exact Table.wf_upd _ _ _ _ | exact Table.wf_mapVals _ _ _ | exact Table.wf_putList _ _ _ _ | exact Table.wf_filter _ _ _ | exact fun h => Table.wf_put _ _ _ _ (Table.wf_put _ _ _ _ h) | exact fun _ => rfl) (by first | exact id | exact Table.wf_put _ _ _ _ | exact Table.wf_upd _ _ _ _ | exact Table.wf_mapVals _ _ _ | exact Table.wf_putList _ _ _ _ | exact Table.wf_filter _ _ _ | exact fun h => Table.wf_put _ _ _ _ (Table.wf_put _ _ _ _ h) | exact fun _ => rfl) (by first | exact id | exact Table.wf_put _ _ _ _ | exact Table.wf_upd _ _ _ _ | exact Table.wf_mapVals _ _ _ | exact Table.wf_putList _ _ _ _ | exact Table.wf_filter _ _ _ | exact fun h => Table.wf_put _ _ _ _ (Table.wf_put _ _ _ _ h) | exact fun _ => rfl) (by first | exact id | exact Table.wf_put _ _ _ _ | exact Table.wf_upd _ _ _ _ | exact Table.wf_mapVals _ _ _ | exact Table.wf_putList _ _ _ _ | exact Table.wf_filter _ _ _ | exact fun h => Table.wf_put _ _ _ _ (Table.wf_put _ _ _ _ h) | exact fun _ => rfl) (by first | exact id | exact Table.wf_put _ _ _ _ | exact Table.wf_upd _ _ _ _ | exact Table.wf_mapVals _ _ _ | exact Table.wf_putList _ _ _ _ | exact Table.wf_filter _ _ _ | exact fun h => Table.wf_put _ _ _ _ (Table.wf_put _ _ _ _ h) | exact fun _ => rfl) (by first | exact id | exact Table.wf_put _ _ _ _ | exact Table.wf_upd _ _ _ _ | exact Table.wf_mapVals _ _ _ | exact Table.wf_putList _ _ _ _ | exact Table.wf_filter _ _ _ | exact fun h => Table.wf_put _ _ _ _ (Table.wf_put _ _ _ _ h) | exact fun _ => rfl) (by first | exact id | exact Table.wf_put _ _ _ _ | exact Table.wf_upd _ _ _ _ | exact Table.wf_mapVals _ _ _ | exact Table.wf_putList _ _ _ _ | exact Table.wf_filter _ _ _ | exact fun h => Table.wf_put _ _ _ _ (Table.wf_put _ _ _ _ h) | exact fun _ => rfl) (by first | exact id | exact Table.wf_put _ _ _ _ | exact Table.wf_upd _ _ _ _ | exact Table.wf_mapVals _ _ _ | exact Table.wf_putList _ _ _ _ | exact Table.wf_filter _ _ _ | exact fun h => Table.wf_put _ _ _ _ (Table.wf_put _ _ _ _ h) | exact fun _ => rfl) (by first | exact id | exact Table.wf_put _ _ _ _ | exact Table.wf_upd _ _ _ _ | exact Table.wf_mapVals _ _ _ | exact Table.wf_putList _ _ _ _ | exact Table.wf_filter _ _ _ | exact fun h => Table.wf_put _ _ _ _ (Table.wf_put _ _ _ _ h) | exact fun _ => rfl) (by first | exact id | exact Table.wf_put _ _ _ _ | exact Table.wf_upd _ _ _ _ | exact Table.wf_mapVals _ _ _ | exact Table.wf_putList _ _ _ _ | exact Table.wf_filter _ _ _ | exact fun h => Table.wf_put _ _ _ _ (Table.wf_put _ _ _ _ h) | exact fun _ => rfl) (by first | exact id | exact Table.wf_put _ _ _ _ | exact Table.wf_upd _ _ _ _ | exact Table.wf_mapVals _ _ _ | exact Table.wf_putList _ _ _ _ | exact Table.wf_filter _ _ _ | exact fun h => Table.wf_put _ _ _ _ (Table.wf_put _ _ _ _ h) | exact fun _ => rfl) (by first | exact id | exact Table.wf_put _ _ _ _ | exact Table.wf_upd _ _ _ _ | exact Table.wf_mapVals _ _ _ | exact Table.wf_putList _ _ _ _ | exact Table.wf_filter _ _ _ | exact fun h => Table.wf_put _ _ _ _ (Table.wf_put _ _ _ _ h) | exact fun _ => rfl) (by first | exact id | exact Table.wf_put _ _ _ _ | exact Table.wf_upd _ _ _ _ | exact Table.wf_mapVals _ _ _ | exact Table.wf_putList _ _ _ _ | exact Table.wf_filter _ _ _ | exact fun h => Table.wf_put _ _ _ _ (Table.wf_put _ _ _ _ h) | exact fun _ => rfl)

theorem drainStores_inv {q : List Instr} : ∀ s x1, Inv q s → Inv q (drainStores s x1) := by
  intro s x1 h
  unfold drainStores
  repeat' first
    | with_reducible assumption
    | with_reducible intro _
    | with_reducible apply drainStore_inv
    | with_reducible apply inv_ite
    | with_reducible refine inv_foldl (fun _ _ _ => ?_) _ _ ?_
    | split
    | (dsimp only; split)
    | refine inv_fst (by with_reducible assumption) ?_
    | refine inv_snd (by with_reducible assumption) ?_

theorem drainPkts_inv {q : List Instr} : ∀ s x1 x2, Inv q s → Inv q (drainPkts s x1 x2) := by
  intro s x1 x2 h
  unfold drainPkts
  repeat' first
    | with_reducible assumption
    | with_reducible intro _
    | with_reducible apply packet_inv
    | with_reducible apply inv_ite
    | with_reducible refine inv_foldl (fun _ _ _ => ?_) _ _ ?_
    | split
    | (dsimp only; split)
    | refine inv_fst (by with_reducible assumption) ?_
    | refine inv_snd (by with_reducible assumption) ?_

theorem commitWin_inv {q : List Instr} : ∀ s x1, Inv q s → Inv q (commitWin s x1) := by
  intro s x1 h
  unfold commitWin
  repeat' first
    | with_reducible assumption
    | with_reducible intro _
    | with_reducible apply updPilot_inv
    | with_reducible apply drainPkts_inv
    | with_reducible apply drainStores_inv
    | with_reducible apply inv_ite
    | split
    | (dsimp only; split)
    | refine inv_fst (by with_reducible assumption) ?_
    | refine inv_snd (by with_reducible assumption) ?_

theorem closeInside_inv {q : List Instr} : ∀ s x1, Inv q s → Inv q (closeInside s x1) := by
  intro s x1 h
  unfold closeInside
  repeat' first
    | with_reducible assumption
    | with_reducible intro _
    | with_reducible apply updPilot_inv
    | with_reducible apply commitWin_inv
    | with_reducible apply inv_ite
    | split
    | (dsimp only; split)
    | refine inv_fst (by with_reducible assumption) ?_
    | refine inv_snd (by with_reducible assumption) ?_

theorem pendStore_inv {q : List Instr} : ∀ s x1 x2, Inv q s → Inv q (pendStore s x1 x2) := by
  intro s x1 x2 h
  unfold pendStore
  repeat' first
    | with_reducible assumption
    | with_reducible intro _
    | with_reducible apply updPilot_inv
    | with_reducible apply closeInside_inv
    | with_reducible apply inv_ite
    | split
    | (dsimp only; split)
    | refine inv_fst (by with_reducible assumption) ?_
    | refine inv_snd (by with_reducible assumption) ?_

theorem notePacket_inv {q : List Instr} : ∀ s x1 x2 x3 x4, Inv q s → Inv q (notePacket s x1 x2 x3 x4) := by
  intro s x1 x2 x3 x4 h
  unfold notePacket
  repeat' first
    | with_reducible assumption
    | with_reducible intro _
    | with_reducible apply updPilot_inv
    | with_reducible apply inv_ite
    | split
    | (dsimp only; split)
    | refine inv_fst (by with_reducible assumption) ?_
    | refine inv_snd (by with_reducible assumption) ?_

theorem noteOp_inv {q : List Instr} : ∀ s x1 x2 x3 x4 x5, Inv q s → Inv q (noteOp s x1 x2 x3 x4 x5) := by
  intro s x1 x2 x3 x4 x5 h
  unfold noteOp
  repeat' first
    | with_reducible assumption
    | with_reducible intro _
    | with_reducible apply updPilot_inv
    | with_reducible apply inv_ite
    | split
    | (dsimp only; split)
    | refine inv_fst (by with_reducible assumption) ?_
    | refine inv_snd (by with_reducible assumption) ?_

theorem mismatch_inv {q : List Instr} : ∀ s x1, Inv q s → Inv q (mismatch s x1) := by
  intro s x1 h
  unfold mismatch
  repeat' first
    | with_reducible assumption
    | with_reducible intro _
    | with_reducible apply updPilot_inv
    | with_reducible apply inv_ite
    | split
    | (dsimp only; split)
    | refine inv_fst (by with_reducible assumption) ?_
    | refine inv_snd (by with_reducible assumption) ?_

theorem closeAtClaim_inv {q : List Instr} : ∀ s p, Inv q s → Inv q (closeAtClaim s p).1 := by
  intro s p h
  unfold closeAtClaim
  dsimp only
  repeat' split
  · exact h
  · exact h
  · exact mismatch_inv _ _ h
  · exact commitWin_inv _ _ h

end Sys2Proof.Machine
end

