-- ==== Sys2Proof/Laws/InvPilotCore.lean ====
section
/-! SUPPORT. Laws/InvPilotCore.lean: every function of Machine/PilotCore.lean keeps the invariant of a sound state. -/

namespace Sys2Proof.Machine

theorem flowPacket_inv {q : List Instr} : ∀ s x1 x2 x3, Inv q s → Inv q (flowPacket s x1 x2 x3) := by
  intro s x1 x2 x3 h
  unfold flowPacket
  repeat' first
    | with_reducible assumption
    | with_reducible intro _
    | with_reducible apply notePacket_inv
    | with_reducible apply inv_ite
    | split
    | (dsimp only; split)
    | refine inv_fst (by with_reducible assumption) ?_
    | refine inv_snd (by with_reducible assumption) ?_

theorem levelPacket_inv {q : List Instr} : ∀ s x1 x2 x3 x4, Inv q s → Inv q (levelPacket s x1 x2 x3 x4) := by
  intro s x1 x2 x3 x4 h
  unfold levelPacket
  repeat' first
    | with_reducible assumption
    | with_reducible intro _
    | with_reducible apply notePacket_inv
    | with_reducible apply inv_ite
    | split
    | (dsimp only; split)
    | refine inv_fst (by with_reducible assumption) ?_
    | refine inv_snd (by with_reducible assumption) ?_

theorem abandonBank_inv {q : List Instr} : ∀ s x1 x2 x3, Inv q s → Inv q (abandonBank s x1 x2 x3) := by
  intro s x1 x2 x3 h
  unfold abandonBank
  repeat' first
    | with_reducible assumption
    | with_reducible intro _
    | with_reducible apply breakBank_inv
    | with_reducible apply endTurns_inv
    | with_reducible apply releaseClaims_inv
    | with_reducible apply updPilot_inv
    | with_reducible apply inv_ite
    | split
    | (dsimp only; split)
    | refine inv_fst (by with_reducible assumption) ?_
    | refine inv_snd (by with_reducible assumption) ?_

theorem logCheck_inv {q : List Instr} : ∀ s x1 x2, Inv q s → Inv q (logCheck s x1 x2) := by
  intro s x1 x2 h
  unfold logCheck
  repeat' first
    | with_reducible assumption
    | with_reducible intro _
    | with_reducible apply hmLog_inv
    | with_reducible apply inv_ite
    | split
    | (dsimp only; split)
    | refine inv_fst (by with_reducible assumption) ?_
    | refine inv_snd (by with_reducible assumption) ?_

theorem restartHm_inv {q : List Instr} : ∀ s, Inv q s → Inv q (restartHm s) := by
  intro s h
  unfold restartHm
  repeat' first
    | with_reducible assumption
    | with_reducible intro _
    | with_reducible apply logCheck_inv
    | with_reducible apply breakPilot_inv
    | with_reducible apply endTurns_inv
    | with_reducible apply releaseClaims_inv
    | with_reducible apply updPilot_inv
    | with_reducible apply inv_ite
    | split
    | (dsimp only; split)
    | refine inv_fst (by with_reducible assumption) ?_
    | refine inv_snd (by with_reducible assumption) ?_
    | with_reducible apply Inv.mk_plain
    | (dsimp only; with_reducible apply Inv.mk_plain)

theorem retire_inv {q : List Instr} : ∀ s x1, Inv q s → Inv q (retire s x1) := by
  intro s x1 h
  unfold retire
  repeat' first
    | with_reducible assumption
    | with_reducible intro _
    | with_reducible apply restartHm_inv
    | with_reducible apply breakPilot_inv
    | with_reducible apply endTurns_inv
    | with_reducible apply releaseClaims_inv
    | with_reducible apply updPilot_inv
    | with_reducible apply setChk_inv
    | with_reducible apply inv_ite
    | split
    | (dsimp only; split)
    | refine inv_fst (by with_reducible assumption) ?_
    | refine inv_snd (by with_reducible assumption) ?_

theorem enter_inv {q : List Instr} : ∀ s x1 x2, Inv q s → Inv q (enter s x1 x2) := by
  intro s x1 x2 h
  unfold enter
  repeat' first
    | with_reducible assumption
    | with_reducible intro _
    | with_reducible apply updPilot_inv
    | with_reducible apply logCheck_inv
    | with_reducible apply abandonBank_inv
    | with_reducible apply flowPacket_inv
    | with_reducible apply levelPacket_inv
    | with_reducible apply inv_ite
    | split
    | (dsimp only; split)
    | refine inv_fst (by with_reducible assumption) ?_
    | refine inv_snd (by with_reducible assumption) ?_

theorem takeTrapAt_inv {q : List Instr} : ∀ s x1 x2 x3 x4 x5 x6, Inv q s → Inv q (takeTrapAt s x1 x2 x3 x4 x5 x6) := by
  intro s x1 x2 x3 x4 x5 x6 h
  unfold takeTrapAt
  repeat' first
    | with_reducible assumption
    | with_reducible intro _
    | with_reducible apply enter_inv
    | with_reducible apply retire_inv
    | with_reducible apply inv_ite
    | split
    | (dsimp only; split)
    | refine inv_fst (by with_reducible assumption) ?_
    | refine inv_snd (by with_reducible assumption) ?_

theorem takeTrap_inv {q : List Instr} : ∀ s x1 x2 x3 x4 x5, Inv q s → Inv q (takeTrap s x1 x2 x3 x4 x5) := by
  intro s x1 x2 x3 x4 x5 h
  unfold takeTrap
  repeat' first
    | with_reducible assumption
    | with_reducible intro _
    | with_reducible apply takeTrapAt_inv
    | with_reducible apply inv_ite
    | split
    | (dsimp only; split)
    | refine inv_fst (by with_reducible assumption) ?_
    | refine inv_snd (by with_reducible assumption) ?_

theorem takeRif_inv {q : List Instr} : ∀ s x1, Inv q s → Inv q (takeRif s x1) := by
  intro s x1 h
  unfold takeRif
  repeat' first
    | with_reducible assumption
    | with_reducible intro _
    | with_reducible apply setPilot_inv
    | with_reducible apply flowPacket_inv
    | with_reducible apply inv_ite
    | split
    | (dsimp only; split)
    | refine inv_fst (by with_reducible assumption) ?_
    | refine inv_snd (by with_reducible assumption) ?_

theorem enterDbg_inv {q : List Instr} : ∀ s x1 x2 x3, Inv q s → Inv q (enterDbg s x1 x2 x3) := by
  intro s x1 x2 x3 h
  unfold enterDbg
  repeat' first
    | with_reducible assumption
    | with_reducible intro _
    | with_reducible apply updPilot_inv
    | with_reducible apply enter_inv
    | with_reducible apply inv_ite
    | split
    | (dsimp only; split)
    | refine inv_fst (by with_reducible assumption) ?_
    | refine inv_snd (by with_reducible assumption) ?_

theorem missDbg_inv {q : List Instr} : ∀ s, Inv q s → Inv q (missDbg s) := by
  intro s h
  unfold missDbg
  repeat' first
    | with_reducible assumption
    | with_reducible intro _
    | with_reducible apply inv_ite
    | split
    | (dsimp only; split)
    | refine inv_fst (by with_reducible assumption) ?_
    | refine inv_snd (by with_reducible assumption) ?_
    | with_reducible apply Inv.mk_plain
    | (dsimp only; with_reducible apply Inv.mk_plain)

theorem debugEvent_inv {q : List Instr} : ∀ s p e c, Inv q s → Inv q (debugEvent s p e c).1 := by
  intro s p e c h
  unfold debugEvent
  dsimp only
  repeat' split
  all_goals first
    | exact missDbg_inv _ h
    | (dsimp only; exact updPilot_inv _ _ _ h)
    | exact enterDbg_inv _ _ _ _ h

theorem boundary_inv {q : List Instr} : ∀ s x1, Inv q s → Inv q (boundary s x1) := by
  intro s x1 h
  unfold boundary
  repeat' first
    | with_reducible assumption
    | with_reducible intro _
    | with_reducible apply enterDbg_inv
    | with_reducible apply updPilot_inv
    | with_reducible apply debugEvent_inv
    | with_reducible apply inv_ite
    | split
    | (dsimp only; split)
    | refine inv_fst (by with_reducible assumption) ?_
    | refine inv_snd (by with_reducible assumption) ?_
    | with_reducible apply Inv.mk_plain
    | (dsimp only; with_reducible apply Inv.mk_plain)

theorem watchdogBoundary_inv {q : List Instr} : ∀ s x1, Inv q s → Inv q (watchdogBoundary s x1) := by
  intro s x1 h
  unfold watchdogBoundary
  repeat' first
    | with_reducible assumption
    | with_reducible intro _
    | with_reducible apply boundary_inv
    | with_reducible apply updPilot_inv
    | with_reducible apply retire_inv
    | with_reducible apply enter_inv
    | with_reducible apply takeTrapAt_inv
    | with_reducible apply inv_ite
    | split
    | (dsimp only; split)
    | refine inv_fst (by with_reducible assumption) ?_
    | refine inv_snd (by with_reducible assumption) ?_

end Sys2Proof.Machine
end

