-- ==== Sys2Proof/Laws/InvOperands.lean ====
section
/-! SUPPORT. Laws/InvOperands.lean: every function of Machine/Operands.lean keeps the invariant of a sound state. -/

namespace Sys2Proof.Machine

end Sys2Proof.Machine
end

