-- ==== Sys2Proof/Laws/InvIssue.lean ====
section
/-! SUPPORT. Laws/InvIssue.lean: every function of Machine/Issue.lean keeps the invariant of a sound state. -/

namespace Sys2Proof.Machine

theorem settleWaits_inv {q : List Instr} : ∀ s, Inv q s → Inv q (settleWaits s) := by
  intro s h
  unfold settleWaits
  repeat' first
    | with_reducible assumption
    | with_reducible intro _
    | with_reducible apply updPilot_inv
    | with_reducible apply inv_ite
    | with_reducible refine inv_foldl (fun _ _ _ => ?_) _ _ ?_
    | split
    | (dsimp only; split)
    | refine inv_fst (by with_reducible assumption) ?_
    | refine inv_snd (by with_reducible assumption) ?_

theorem instrDebug_inv {q : List Instr} : ∀ s p e, Inv q s → Inv q (instrDebug s p e).1 := by
  intro s p e h
  unfold instrDebug
  dsimp only
  split
  · dsimp only
    exact updPilot_inv _ _ _ h
  · exact debugEvent_inv _ _ _ _ h

theorem srcSwitch_inv {q : List Instr} : ∀ s x1, Inv q s → Inv q (srcSwitch s x1) := by
  intro s x1 h
  unfold srcSwitch
  repeat' first
    | with_reducible assumption
    | with_reducible intro _
    | with_reducible apply updPilot_inv
    | with_reducible apply inv_ite
    | split
    | (dsimp only; split)
    | refine inv_fst (by with_reducible assumption) ?_
    | refine inv_snd (by with_reducible assumption) ?_

theorem complete_inv {q : List Instr} : ∀ s x1 x2 x3 x4, Inv q s → Inv q (complete s x1 x2 x3 x4) := by
  intro s x1 x2 x3 x4 h
  unfold complete
  repeat' first
    | with_reducible assumption
    | with_reducible intro _
    | with_reducible apply srcSwitch_inv
    | with_reducible apply setPilot_inv
    | with_reducible apply debugEvent_inv
    | with_reducible apply watchdogBoundary_inv
    | with_reducible apply inv_ite
    | split
    | (dsimp only; split)
    | refine inv_fst (by with_reducible assumption) ?_
    | refine inv_snd (by with_reducible assumption) ?_

theorem trapAt_inv {q : List Instr} : ∀ s x1 x2 x3 x4 x5, Inv q s → Inv q (trapAt s x1 x2 x3 x4 x5) := by
  intro s x1 x2 x3 x4 x5 h
  unfold trapAt
  repeat' first
    | with_reducible assumption
    | with_reducible intro _
    | with_reducible apply srcSwitch_inv
    | with_reducible apply takeTrap_inv
    | with_reducible apply inv_ite
    | split
    | (dsimp only; split)
    | refine inv_fst (by with_reducible assumption) ?_
    | refine inv_snd (by with_reducible assumption) ?_

theorem bodyTrap_inv {q : List Instr} : ∀ s x1 x2 x3 x4, Inv q s → Inv q (bodyTrap s x1 x2 x3 x4) := by
  intro s x1 x2 x3 x4 h
  unfold bodyTrap
  repeat' first
    | with_reducible assumption
    | with_reducible intro _
    | with_reducible apply takeFree_inv
    | with_reducible apply trapAt_inv
    | with_reducible apply inv_ite
    | split
    | (dsimp only; split)
    | refine inv_fst (by with_reducible assumption) ?_
    | refine inv_snd (by with_reducible assumption) ?_

theorem runInstr_inv {q : List Instr} : ∀ i s (body : BitVec 18 → State → PRes),
    (∀ pc s, Inv q s → PRes.Inv q (body pc s)) → Inv q s → Inv q (runInstr i s body) := by
  intro i s body hb h
  unfold runInstr
  dsimp only
  repeat' first
    | assumption
    | with_reducible apply inv_ite
    | with_reducible apply updPilot_inv
    | with_reducible apply setPilot_inv
    | with_reducible apply trapAt_inv
    | with_reducible apply complete_inv
    | with_reducible apply bodyTrap_inv
    | with_reducible apply srcSwitch_inv
    | with_reducible apply hb
    | split
    | refine pinv_of_done (by assumption) ?_
    | refine pinv_of_brk (by assumption) ?_
    | refine pinv_of_trap (by assumption) ?_
    | refine pinv_of_stop (by assumption) ?_

theorem ran_inv {q : List Instr} : ∀ x0 x1 s x3 s4, Inv q s → Inv q s4 → Inv q (ran x0 x1 s x3 s4) := by
  intro x0 x1 s x3 s4 h h1
  unfold ran
  repeat' first
    | with_reducible assumption
    | with_reducible intro _
    | with_reducible apply noteOp_inv
    | with_reducible apply updPilot_inv
    | with_reducible apply mismatch_inv
    | with_reducible apply commitWin_inv
    | with_reducible apply inv_ite
    | split
    | (dsimp only; split)
    | refine inv_fst (by with_reducible assumption) ?_
    | refine inv_snd (by with_reducible assumption) ?_

theorem issueRaw_inv {q : List Instr} : ∀ x0 s x2, Inv q s → (∀ a0 a1, Inv q a1 → PRes.Inv q (x2 a0 a1)) → Inv q (issueRaw x0 s x2) := by
  intro x0 s x2 h h1
  unfold issueRaw
  repeat' first
    | with_reducible assumption
    | with_reducible intro _
    | with_reducible apply trapAt_inv
    | with_reducible apply instrDebug_inv
    | with_reducible apply runInstr_inv
    | with_reducible apply h1
    | with_reducible apply inv_ite
    | split
    | (dsimp only; split)
    | refine inv_fst (by with_reducible assumption) ?_
    | refine inv_snd (by with_reducible assumption) ?_
    | with_reducible apply Inv.mk_plain
    | (dsimp only; with_reducible apply Inv.mk_plain)

theorem issue_inv {q : List Instr} : ∀ x0 s x2, Inv q s → (∀ a0 a1, Inv q a1 → PRes.Inv q (x2 a0 a1)) → Inv q (issue x0 s x2) := by
  intro x0 s x2 h h1
  unfold issue
  repeat' first
    | with_reducible assumption
    | with_reducible intro _
    | with_reducible apply ran_inv
    | with_reducible apply issueRaw_inv
    | with_reducible apply h1
    | with_reducible apply inv_ite
    | split
    | (dsimp only; split)
    | refine inv_fst (by with_reducible assumption) ?_
    | refine inv_snd (by with_reducible assumption) ?_

end Sys2Proof.Machine
end

