-- ==== Sys2Proof/Laws/InvEvents.lean ====
section
/-! SUPPORT. Laws/InvEvents.lean: every function of Machine/Events.lean keeps the invariant of a sound state. -/

namespace Sys2Proof.Machine

theorem claimSrc_inv {q : List Instr} : ∀ s x1 x2 x3 x4, Inv q s → Inv q (claimSrc s x1 x2 x3 x4) := by
  intro s x1 x2 x3 x4 h
  unfold claimSrc
  repeat' first
    | with_reducible assumption
    | with_reducible intro _
    | with_reducible apply settleWaits_inv
    | with_reducible apply setSrc_inv
    | with_reducible apply inv_ite
    | split
    | (dsimp only; split)
    | refine inv_fst (by with_reducible assumption) ?_
    | refine inv_snd (by with_reducible assumption) ?_

theorem enterEvent_inv {q : List Instr} : ∀ s x1 x2 x3 x4, Inv q s → Inv q (enterEvent s x1 x2 x3 x4) := by
  intro s x1 x2 x3 x4 h
  unfold enterEvent
  repeat' first
    | with_reducible assumption
    | with_reducible intro _
    | with_reducible apply srcSwitch_inv
    | with_reducible apply enter_inv
    | with_reducible apply inv_ite
    | split
    | (dsimp only; split)
    | refine inv_fst (by with_reducible assumption) ?_
    | refine inv_snd (by with_reducible assumption) ?_

theorem execEventDelivery_inv {q : List Instr} : ∀ x0 x1 s, Inv q s → OInv q (execEventDelivery x0 x1 s) := by
  intro x0 x1 s h
  unfold execEventDelivery
  repeat' first
    | with_reducible assumption
    | with_reducible intro _
    | with_reducible apply closeAtClaim_inv
    | with_reducible apply enterEvent_inv
    | with_reducible apply claimSrc_inv
    | with_reducible apply inv_ite
    | with_reducible apply oinv_next
    | with_reducible apply oinv_ite
    | split
    | (dsimp only; split)
    | refine inv_fst (by with_reducible assumption) ?_
    | refine inv_snd (by with_reducible assumption) ?_
    | with_reducible apply Inv.mk_plain
    | (dsimp only; with_reducible apply Inv.mk_plain)

theorem execEdgeSource_inv {q : List Instr} : ∀ x0 s, Inv q s → OInv q (execEdgeSource x0 s) := by
  intro x0 s h
  unfold execEdgeSource
  repeat' first
    | with_reducible assumption
    | with_reducible intro _
    | with_reducible apply raise_inv
    | with_reducible apply inv_ite
    | with_reducible apply oinv_next
    | with_reducible apply oinv_ite
    | split
    | (dsimp only; split)
    | refine inv_fst (by with_reducible assumption) ?_
    | refine inv_snd (by with_reducible assumption) ?_

theorem execLevelSourceChange_inv {q : List Instr} : ∀ x0 x1 s, Inv q s → OInv q (execLevelSourceChange x0 x1 s) := by
  intro x0 x1 s h
  unfold execLevelSourceChange
  repeat' first
    | with_reducible assumption
    | with_reducible intro _
    | with_reducible apply sampleLevel_inv
    | with_reducible apply inv_ite
    | with_reducible apply oinv_next
    | with_reducible apply oinv_ite
    | split
    | (dsimp only; split)
    | refine inv_fst (by with_reducible assumption) ?_
    | refine inv_snd (by with_reducible assumption) ?_

theorem execOrphanTimeout_inv {q : List Instr} : ∀ x0 s, Inv q s → OInv q (execOrphanTimeout x0 s) := by
  intro x0 s h
  unfold execOrphanTimeout
  repeat' first
    | with_reducible assumption
    | with_reducible intro _
    | with_reducible apply setSrc_inv
    | with_reducible apply inv_ite
    | with_reducible apply oinv_next
    | with_reducible apply oinv_ite
    | split
    | (dsimp only; split)
    | refine inv_fst (by with_reducible assumption) ?_
    | refine inv_snd (by with_reducible assumption) ?_
    | with_reducible apply Inv.mk_plain
    | (dsimp only; with_reducible apply Inv.mk_plain)

theorem evcRaise_inv {q : List Instr} : ∀ s x1, Inv q s → Inv q (evcRaise s x1) := by
  intro s x1 h
  unfold evcRaise
  repeat' first
    | with_reducible assumption
    | with_reducible intro _
    | with_reducible apply raise_inv
    | with_reducible apply inv_ite
    | split
    | (dsimp only; split)
    | refine inv_fst (by with_reducible assumption) ?_
    | refine inv_snd (by with_reducible assumption) ?_

theorem execEvcRaise_inv {q : List Instr} : ∀ x0 x1 s, Inv q s → OInv q (execEvcRaise x0 x1 s) := by
  intro x0 x1 s h
  unfold execEvcRaise
  repeat' first
    | with_reducible assumption
    | with_reducible intro _
    | with_reducible apply evcRaise_inv
    | with_reducible apply ctlWake_inv
    | with_reducible apply inv_ite
    | with_reducible apply oinv_next
    | with_reducible apply oinv_ite
    | split
    | (dsimp only; split)
    | refine inv_fst (by with_reducible assumption) ?_
    | refine inv_snd (by with_reducible assumption) ?_

theorem evcSrcWrite_inv {q : List Instr} : ∀ s x1 x2 x3 x4, Inv q s → Inv q (evcSrcWrite s x1 x2 x3 x4) := by
  intro s x1 x2 x3 x4 h
  unfold evcSrcWrite
  repeat' first
    | with_reducible assumption
    | with_reducible intro _
    | with_reducible apply settleWaits_inv
    | with_reducible apply noteOrphan_inv
    | with_reducible apply setSrc_inv
    | with_reducible apply inv_ite
    | split
    | (dsimp only; split)
    | refine inv_fst (by with_reducible assumption) ?_
    | refine inv_snd (by with_reducible assumption) ?_

theorem execSourceDisable_inv {q : List Instr} : ∀ x0 x1 x2 s, Inv q s → OInv q (execSourceDisable x0 x1 x2 s) := by
  intro x0 x1 x2 s h
  unfold execSourceDisable
  repeat' first
    | with_reducible assumption
    | with_reducible intro _
    | with_reducible apply evcSrcWrite_inv
    | with_reducible apply ctlWake_inv
    | with_reducible apply inv_ite
    | with_reducible apply oinv_next
    | with_reducible apply oinv_ite
    | split
    | (dsimp only; split)
    | refine inv_fst (by with_reducible assumption) ?_
    | refine inv_snd (by with_reducible assumption) ?_

theorem noteOrphans_inv {q : List Instr} : ∀ s, Inv q s → Inv q (noteOrphans s) := by
  intro s h
  unfold noteOrphans
  repeat' first
    | with_reducible assumption
    | with_reducible intro _
    | with_reducible apply noteOrphan_inv
    | with_reducible apply inv_ite
    | with_reducible refine inv_foldl (fun _ _ _ => ?_) _ _ ?_
    | split
    | (dsimp only; split)
    | refine inv_fst (by with_reducible assumption) ?_
    | refine inv_snd (by with_reducible assumption) ?_

theorem evcWrite64_inv {q : List Instr} : ∀ s x1 x2 x3 x4, Inv q s → Inv q (evcWrite64 s x1 x2 x3 x4) := by
  intro s x1 x2 x3 x4 h
  unfold evcWrite64
  repeat' first
    | with_reducible assumption
    | with_reducible intro _
    | with_reducible apply evcSrcWrite_inv
    | with_reducible apply noteOrphans_inv
    | with_reducible apply inv_ite
    | split
    | (dsimp only; split)
    | refine inv_fst (by with_reducible assumption) ?_
    | refine inv_snd (by with_reducible assumption) ?_
    | with_reducible apply Inv.mk_plain
    | (dsimp only; with_reducible apply Inv.mk_plain)

theorem evcWrite32_inv {q : List Instr} : ∀ s x1 x2 x3, Inv q s → Inv q (evcWrite32 s x1 x2 x3) := by
  intro s x1 x2 x3 h
  unfold evcWrite32
  repeat' first
    | with_reducible assumption
    | with_reducible intro _
    | with_reducible apply evcRaise_inv
    | with_reducible apply inv_ite
    | split
    | (dsimp only; split)
    | refine inv_fst (by with_reducible assumption) ?_
    | refine inv_snd (by with_reducible assumption) ?_
    | with_reducible apply Inv.mk_plain
    | (dsimp only; with_reducible apply Inv.mk_plain)

theorem evcTake_inv {q : List Instr} : ∀ s x1, Inv q s → Inv q (evcTake s x1) := by
  intro s x1 h
  unfold evcTake
  repeat' first
    | with_reducible assumption
    | with_reducible intro _
    | with_reducible apply inv_ite
    | split
    | (dsimp only; split)
    | refine inv_fst (by with_reducible assumption) ?_
    | refine inv_snd (by with_reducible assumption) ?_
    | with_reducible apply Inv.mk_plain
    | (dsimp only; with_reducible apply Inv.mk_plain)

end Sys2Proof.Machine
end

