-- ==== Sys2Proof/Laws/InvBells.lean ====
section
/-! SUPPORT. Laws/InvBells.lean: every function of Machine/Bells.lean keeps the invariant of a sound state. -/

namespace Sys2Proof.Machine

theorem setBell_inv {q : List Instr} : ∀ s x1 x2, Inv q s → Inv q (setBell s x1 x2) := by
  intro s x1 x2 h
  unfold setBell
  repeat' first
    | with_reducible assumption
    | with_reducible intro _
    | with_reducible apply inv_ite
    | split
    | (dsimp only; split)
    | refine inv_fst (by with_reducible assumption) ?_
    | refine inv_snd (by with_reducible assumption) ?_
    | with_reducible apply Inv.mk_plain
    | with_reducible refine Inv.mk_bells ?_ (by first | exact id | exact Table.wf_put _ _ _ _ | exact Table.wf_upd _ _ _ _ | exact Table.wf_mapVals _ _ _ | exact Table.wf_putList _ _ _ _ | exact Table.wf_filter _ _ _ | exact fun h => Table.wf_put _ _ _ _ (Table.wf_put _ _ _ _ h) | exact fun _ => rfl)
    | (dsimp only; with_reducible apply Inv.mk_plain)
    | (dsimp only; with_reducible refine Inv.mk_bells ?_ (by first | exact id | exact Table.wf_put _ _ _ _ | exact Table.wf_upd _ _ _ _ | exact Table.wf_mapVals _ _ _ | exact Table.wf_putList _ _ _ _ | exact Table.wf_filter _ _ _ | exact fun h => Table.wf_put _ _ _ _ (Table.wf_put _ _ _ _ h) | exact fun _ => rfl))

theorem bellCmpWrite_inv {q : List Instr} : ∀ s x1 x2, Inv q s → Inv q (bellCmpWrite s x1 x2) := by
  intro s x1 x2 h
  unfold bellCmpWrite
  repeat' first
    | with_reducible assumption
    | with_reducible intro _
    | with_reducible apply setBell_inv
    | with_reducible apply inv_ite
    | split
    | (dsimp only; split)
    | refine inv_fst (by with_reducible assumption) ?_
    | refine inv_snd (by with_reducible assumption) ?_
    | with_reducible apply Inv.mk_plain
    | (dsimp only; with_reducible apply Inv.mk_plain)

theorem bellCtlWrite_inv {q : List Instr} : ∀ s x1 x2, Inv q s → Inv q (bellCtlWrite s x1 x2) := by
  intro s x1 x2 h
  unfold bellCtlWrite
  repeat' first
    | with_reducible assumption
    | with_reducible intro _
    | with_reducible apply setBell_inv
    | with_reducible apply inv_ite
    | split
    | (dsimp only; split)
    | refine inv_fst (by with_reducible assumption) ?_
    | refine inv_snd (by with_reducible assumption) ?_

theorem bellPeriodWrite_inv {q : List Instr} : ∀ s x1 x2, Inv q s → Inv q (bellPeriodWrite s x1 x2) := by
  intro s x1 x2 h
  unfold bellPeriodWrite
  repeat' first
    | with_reducible assumption
    | with_reducible intro _
    | with_reducible apply setBell_inv
    | with_reducible apply inv_ite
    | split
    | (dsimp only; split)
    | refine inv_fst (by with_reducible assumption) ?_
    | refine inv_snd (by with_reducible assumption) ?_

theorem fireOneShot_inv {q : List Instr} : ∀ s x1, Inv q s → Inv q (fireOneShot s x1) := by
  intro s x1 h
  unfold fireOneShot
  repeat' first
    | with_reducible assumption
    | with_reducible intro _
    | with_reducible apply raise_inv
    | with_reducible apply setBell_inv
    | with_reducible apply inv_ite
    | split
    | (dsimp only; split)
    | refine inv_fst (by with_reducible assumption) ?_
    | refine inv_snd (by with_reducible assumption) ?_
    | with_reducible apply Inv.mk_plain
    | (dsimp only; with_reducible apply Inv.mk_plain)

theorem firePeriodic_inv {q : List Instr} : ∀ s x1, Inv q s → Inv q (firePeriodic s x1) := by
  intro s x1 h
  unfold firePeriodic
  repeat' first
    | with_reducible assumption
    | with_reducible intro _
    | with_reducible apply raise_inv
    | with_reducible apply setBell_inv
    | with_reducible apply inv_ite
    | split
    | (dsimp only; split)
    | refine inv_fst (by with_reducible assumption) ?_
    | refine inv_snd (by with_reducible assumption) ?_
    | with_reducible apply Inv.mk_plain
    | (dsimp only; with_reducible apply Inv.mk_plain)

theorem tickBell_inv {q : List Instr} : ∀ s x1, Inv q s → Inv q (tickBell s x1) := by
  intro s x1 h
  unfold tickBell
  repeat' first
    | with_reducible assumption
    | with_reducible intro _
    | with_reducible apply fireOneShot_inv
    | with_reducible apply firePeriodic_inv
    | with_reducible apply setBell_inv
    | with_reducible apply inv_ite
    | split
    | (dsimp only; split)
    | refine inv_fst (by with_reducible assumption) ?_
    | refine inv_snd (by with_reducible assumption) ?_

theorem tickEcnt_inv {q : List Instr} : ∀ x0 s x2, Inv q s → Inv q (tickEcnt x0 s x2) := by
  intro x0 s x2 h
  unfold tickEcnt
  repeat' first
    | with_reducible assumption
    | with_reducible intro _
    | with_reducible apply ecAdd_inv
    | with_reducible apply inv_ite
    | split
    | (dsimp only; split)
    | refine inv_fst (by with_reducible assumption) ?_
    | refine inv_snd (by with_reducible assumption) ?_

theorem execBellCmpWrite_inv {q : List Instr} : ∀ x0 x1 x2 s, Inv q s → OInv q (execBellCmpWrite x0 x1 x2 s) := by
  intro x0 x1 x2 s h
  unfold execBellCmpWrite
  repeat' first
    | with_reducible assumption
    | with_reducible intro _
    | with_reducible apply bellCmpWrite_inv
    | with_reducible apply inv_ite
    | with_reducible apply oinv_next
    | with_reducible apply oinv_ite
    | split
    | (dsimp only; split)
    | refine inv_fst (by with_reducible assumption) ?_
    | refine inv_snd (by with_reducible assumption) ?_

theorem execBellEnable_inv {q : List Instr} : ∀ x0 x1 x2 s, Inv q s → OInv q (execBellEnable x0 x1 x2 s) := by
  intro x0 x1 x2 s h
  unfold execBellEnable
  repeat' first
    | with_reducible assumption
    | with_reducible intro _
    | with_reducible apply bellCtlWrite_inv
    | with_reducible apply inv_ite
    | with_reducible apply oinv_next
    | with_reducible apply oinv_ite
    | split
    | (dsimp only; split)
    | refine inv_fst (by with_reducible assumption) ?_
    | refine inv_snd (by with_reducible assumption) ?_

theorem execBellPeriodWrite_inv {q : List Instr} : ∀ x0 x1 x2 s, Inv q s → OInv q (execBellPeriodWrite x0 x1 x2 s) := by
  intro x0 x1 x2 s h
  unfold execBellPeriodWrite
  repeat' first
    | with_reducible assumption
    | with_reducible intro _
    | with_reducible apply bellPeriodWrite_inv
    | with_reducible apply inv_ite
    | with_reducible apply oinv_next
    | with_reducible apply oinv_ite
    | split
    | (dsimp only; split)
    | refine inv_fst (by with_reducible assumption) ?_
    | refine inv_snd (by with_reducible assumption) ?_

theorem execBellFire_inv {q : List Instr} : ∀ x0 s, Inv q s → OInv q (execBellFire x0 s) := by
  intro x0 s h
  unfold execBellFire
  repeat' first
    | with_reducible assumption
    | with_reducible intro _
    | with_reducible apply fireOneShot_inv
    | with_reducible apply inv_ite
    | with_reducible apply oinv_next
    | with_reducible apply oinv_ite
    | split
    | (dsimp only; split)
    | refine inv_fst (by with_reducible assumption) ?_
    | refine inv_snd (by with_reducible assumption) ?_

theorem execPeriodicBellFire_inv {q : List Instr} : ∀ x0 s, Inv q s → OInv q (execPeriodicBellFire x0 s) := by
  intro x0 s h
  unfold execPeriodicBellFire
  repeat' first
    | with_reducible assumption
    | with_reducible intro _
    | with_reducible apply firePeriodic_inv
    | with_reducible apply inv_ite
    | with_reducible apply oinv_next
    | with_reducible apply oinv_ite
    | split
    | (dsimp only; split)
    | refine inv_fst (by with_reducible assumption) ?_
    | refine inv_snd (by with_reducible assumption) ?_

theorem execEcountOverflow_inv {q : List Instr} : ∀ x0 s, Inv q s → OInv q (execEcountOverflow x0 s) := by
  intro x0 s h
  unfold execEcountOverflow
  repeat' first
    | with_reducible assumption
    | with_reducible intro _
    | with_reducible apply ecAdd_inv
    | with_reducible apply setEcnt_inv
    | with_reducible apply inv_ite
    | with_reducible apply oinv_next
    | with_reducible apply oinv_ite
    | split
    | (dsimp only; split)
    | refine inv_fst (by with_reducible assumption) ?_
    | refine inv_snd (by with_reducible assumption) ?_

theorem bwdWrite_inv {q : List Instr} : ∀ s x1 x2, Inv q s → Inv q (bwdWrite s x1 x2) := by
  intro s x1 x2 h
  unfold bwdWrite
  repeat' first
    | with_reducible assumption
    | with_reducible intro _
    | with_reducible apply inv_ite
    | split
    | (dsimp only; split)
    | refine inv_fst (by with_reducible assumption) ?_
    | refine inv_snd (by with_reducible assumption) ?_
    | with_reducible apply Inv.mk_plain
    | (dsimp only; with_reducible apply Inv.mk_plain)

theorem execBwdKick_inv {q : List Instr} : ∀ x0 x1 s, Inv q s → OInv q (execBwdKick x0 x1 s) := by
  intro x0 x1 s h
  unfold execBwdKick
  repeat' first
    | with_reducible assumption
    | with_reducible intro _
    | with_reducible apply bwdWrite_inv
    | with_reducible apply inv_ite
    | with_reducible apply oinv_next
    | with_reducible apply oinv_ite
    | with_reducible refine inv_foldl (fun _ _ _ => ?_) _ _ ?_
    | split
    | (dsimp only; split)
    | refine inv_fst (by with_reducible assumption) ?_
    | refine inv_snd (by with_reducible assumption) ?_

theorem tideWrite_inv {q : List Instr} : ∀ s x1 x2 x3, Inv q s → Inv q (tideWrite s x1 x2 x3) := by
  intro s x1 x2 x3 h
  unfold tideWrite
  repeat' first
    | with_reducible assumption
    | with_reducible intro _
    | with_reducible apply bellCtlWrite_inv
    | with_reducible apply bellCmpWrite_inv
    | with_reducible apply bellPeriodWrite_inv
    | with_reducible apply setEcnt_inv
    | with_reducible apply bwdWrite_inv
    | with_reducible apply inv_ite
    | split
    | (dsimp only; split)
    | refine inv_fst (by with_reducible assumption) ?_
    | refine inv_snd (by with_reducible assumption) ?_
    | with_reducible apply Inv.mk_plain
    | (dsimp only; with_reducible apply Inv.mk_plain)

theorem tideTake_inv {q : List Instr} : ∀ s x1, Inv q s → Inv q (tideTake s x1) := by
  intro s x1 h
  unfold tideTake
  repeat' first
    | with_reducible assumption
    | with_reducible intro _
    | with_reducible apply inv_ite
    | split
    | (dsimp only; split)
    | refine inv_fst (by with_reducible assumption) ?_
    | refine inv_snd (by with_reducible assumption) ?_
    | with_reducible apply Inv.mk_plain
    | (dsimp only; with_reducible apply Inv.mk_plain)

end Sys2Proof.Machine
end

