-- ==== Sys2Proof/Laws/InvPilotAlu.lean ====
section
/-! SUPPORT. Laws/InvPilotAlu.lean: every function of Machine/PilotAlu.lean keeps the invariant of a sound state. -/

namespace Sys2Proof.Machine

theorem rrr_inv {q : List Instr} : ∀ x0 x1 x2 x3 x4 s x6, Inv q s → (∀ a0 a1 a2, Inv q a2 → PRes.Inv q (x6 a0 a1 a2)) → Inv q (rrr x0 x1 x2 x3 x4 s x6) := by
  intro x0 x1 x2 x3 x4 s x6 h h1
  unfold rrr
  repeat' first
    | with_reducible assumption
    | with_reducible intro _
    | with_reducible apply issue_inv
    | with_reducible apply h1
    | with_reducible apply inv_ite
    | split
    | (dsimp only; split)
    | refine inv_fst (by with_reducible assumption) ?_
    | refine inv_snd (by with_reducible assumption) ?_

theorem rri_inv {q : List Instr} : ∀ x0 x1 x2 s x4, Inv q s → (∀ a0 a1 a2, Inv q a2 → PRes.Inv q (x4 a0 a1 a2)) → Inv q (rri x0 x1 x2 s x4) := by
  intro x0 x1 x2 s x4 h h1
  unfold rri
  repeat' first
    | with_reducible assumption
    | with_reducible intro _
    | with_reducible apply issue_inv
    | with_reducible apply h1
    | with_reducible apply inv_ite
    | split
    | (dsimp only; split)
    | refine inv_fst (by with_reducible assumption) ?_
    | refine inv_snd (by with_reducible assumption) ?_

theorem lform_inv {q : List Instr} : ∀ x0 x1 x2 s x4, Inv q s → (∀ a0 a1 a2, Inv q a2 → PRes.Inv q (x4 a0 a1 a2)) → Inv q (lform x0 x1 x2 s x4) := by
  intro x0 x1 x2 s x4 h h1
  unfold lform
  repeat' first
    | with_reducible assumption
    | with_reducible intro _
    | with_reducible apply issue_inv
    | with_reducible apply h1
    | with_reducible apply inv_ite
    | split
    | (dsimp only; split)
    | refine inv_fst (by with_reducible assumption) ?_
    | refine inv_snd (by with_reducible assumption) ?_

theorem wrRes_inv {q : List Instr} : ∀ s x1 x2 x3 x4, Inv q s → PRes.Inv q (wrRes s x1 x2 x3 x4) := by
  intro s x1 x2 x3 x4 h
  unfold wrRes
  repeat' first
    | with_reducible assumption
    | with_reducible intro _
    | with_reducible apply updPilot_inv
    | with_reducible apply inv_ite
    | with_reducible apply pinv_ite
    | with_reducible apply pinv_done
    | with_reducible apply pinv_trap
    | with_reducible apply pinv_brk
    | with_reducible apply pinv_stop
    | split
    | (dsimp only; split)
    | refine inv_fst (by with_reducible assumption) ?_
    | refine inv_snd (by with_reducible assumption) ?_
    | refine pinv_of_done (by with_reducible assumption) ?_
    | refine pinv_of_brk (by with_reducible assumption) ?_
    | refine pinv_of_trap (by with_reducible assumption) ?_
    | refine pinv_of_stop (by with_reducible assumption) ?_

theorem wrFlags_inv {q : List Instr} : ∀ s x1 x2, Inv q s → PRes.Inv q (wrFlags s x1 x2) := by
  intro s x1 x2 h
  unfold wrFlags
  repeat' first
    | with_reducible assumption
    | with_reducible intro _
    | with_reducible apply updPilot_inv
    | with_reducible apply inv_ite
    | with_reducible apply pinv_ite
    | with_reducible apply pinv_done
    | with_reducible apply pinv_trap
    | with_reducible apply pinv_brk
    | with_reducible apply pinv_stop
    | split
    | (dsimp only; split)
    | refine inv_fst (by with_reducible assumption) ?_
    | refine inv_snd (by with_reducible assumption) ?_
    | refine pinv_of_done (by with_reducible assumption) ?_
    | refine pinv_of_brk (by with_reducible assumption) ?_
    | refine pinv_of_trap (by with_reducible assumption) ?_
    | refine pinv_of_stop (by with_reducible assumption) ?_

theorem binary_inv {q : List Instr} : ∀ x0 s x2 x3 x4 x5 x6 x7 x8, Inv q s → PRes.Inv q (binary x0 s x2 x3 x4 x5 x6 x7 x8) := by
  intro x0 s x2 x3 x4 x5 x6 x7 x8 h
  unfold binary
  repeat' first
    | with_reducible assumption
    | with_reducible intro _
    | with_reducible apply wrRes_inv
    | with_reducible apply inv_ite
    | with_reducible apply pinv_ite
    | with_reducible apply pinv_done
    | with_reducible apply pinv_trap
    | with_reducible apply pinv_brk
    | with_reducible apply pinv_stop
    | split
    | (dsimp only; split)
    | refine inv_fst (by with_reducible assumption) ?_
    | refine inv_snd (by with_reducible assumption) ?_
    | refine pinv_of_done (by with_reducible assumption) ?_
    | refine pinv_of_brk (by with_reducible assumption) ?_
    | refine pinv_of_trap (by with_reducible assumption) ?_
    | refine pinv_of_stop (by with_reducible assumption) ?_

theorem unary_inv {q : List Instr} : ∀ x0 s x2 x3 x4 x5 x6, Inv q s → PRes.Inv q (unary x0 s x2 x3 x4 x5 x6) := by
  intro x0 s x2 x3 x4 x5 x6 h
  unfold unary
  repeat' first
    | with_reducible assumption
    | with_reducible intro _
    | with_reducible apply wrRes_inv
    | with_reducible apply inv_ite
    | with_reducible apply pinv_ite
    | with_reducible apply pinv_done
    | with_reducible apply pinv_trap
    | with_reducible apply pinv_brk
    | with_reducible apply pinv_stop
    | split
    | (dsimp only; split)
    | refine inv_fst (by with_reducible assumption) ?_
    | refine inv_snd (by with_reducible assumption) ?_
    | refine pinv_of_done (by with_reducible assumption) ?_
    | refine pinv_of_brk (by with_reducible assumption) ?_
    | refine pinv_of_trap (by with_reducible assumption) ?_
    | refine pinv_of_stop (by with_reducible assumption) ?_

theorem addBody_inv {q : List Instr} : ∀ x0 s x2 x3 x4 x5, Inv q s → PRes.Inv q (addBody x0 s x2 x3 x4 x5) := by
  intro x0 s x2 x3 x4 x5 h
  unfold addBody
  repeat' first
    | with_reducible assumption
    | with_reducible intro _
    | with_reducible apply wrRes_inv
    | with_reducible apply inv_ite
    | with_reducible apply pinv_ite
    | with_reducible apply pinv_done
    | with_reducible apply pinv_trap
    | with_reducible apply pinv_brk
    | with_reducible apply pinv_stop
    | split
    | (dsimp only; split)
    | refine inv_fst (by with_reducible assumption) ?_
    | refine inv_snd (by with_reducible assumption) ?_
    | refine pinv_of_done (by with_reducible assumption) ?_
    | refine pinv_of_brk (by with_reducible assumption) ?_
    | refine pinv_of_trap (by with_reducible assumption) ?_
    | refine pinv_of_stop (by with_reducible assumption) ?_

theorem subBody_inv {q : List Instr} : ∀ x0 s x2 x3 x4 x5, Inv q s → PRes.Inv q (subBody x0 s x2 x3 x4 x5) := by
  intro x0 s x2 x3 x4 x5 h
  unfold subBody
  repeat' first
    | with_reducible assumption
    | with_reducible intro _
    | with_reducible apply wrRes_inv
    | with_reducible apply inv_ite
    | with_reducible apply pinv_ite
    | with_reducible apply pinv_done
    | with_reducible apply pinv_trap
    | with_reducible apply pinv_brk
    | with_reducible apply pinv_stop
    | split
    | (dsimp only; split)
    | refine inv_fst (by with_reducible assumption) ?_
    | refine inv_snd (by with_reducible assumption) ?_
    | refine pinv_of_done (by with_reducible assumption) ?_
    | refine pinv_of_brk (by with_reducible assumption) ?_
    | refine pinv_of_trap (by with_reducible assumption) ?_
    | refine pinv_of_stop (by with_reducible assumption) ?_

theorem cmpBody_inv {q : List Instr} : ∀ x0 s x2 x3 x4, Inv q s → PRes.Inv q (cmpBody x0 s x2 x3 x4) := by
  intro x0 s x2 x3 x4 h
  unfold cmpBody
  repeat' first
    | with_reducible assumption
    | with_reducible intro _
    | with_reducible apply wrFlags_inv
    | with_reducible apply inv_ite
    | with_reducible apply pinv_ite
    | with_reducible apply pinv_done
    | with_reducible apply pinv_trap
    | with_reducible apply pinv_brk
    | with_reducible apply pinv_stop
    | split
    | (dsimp only; split)
    | refine inv_fst (by with_reducible assumption) ?_
    | refine inv_snd (by with_reducible assumption) ?_
    | refine pinv_of_done (by with_reducible assumption) ?_
    | refine pinv_of_brk (by with_reducible assumption) ?_
    | refine pinv_of_trap (by with_reducible assumption) ?_
    | refine pinv_of_stop (by with_reducible assumption) ?_

theorem logicBody_inv {q : List Instr} : ∀ x0 x1 s x3 x4 x5 x6, Inv q s → PRes.Inv q (logicBody x0 x1 s x3 x4 x5 x6) := by
  intro x0 x1 s x3 x4 x5 x6 h
  unfold logicBody
  repeat' first
    | with_reducible assumption
    | with_reducible intro _
    | with_reducible apply binary_inv
    | with_reducible apply inv_ite
    | with_reducible apply pinv_ite
    | with_reducible apply pinv_done
    | with_reducible apply pinv_trap
    | with_reducible apply pinv_brk
    | with_reducible apply pinv_stop
    | split
    | (dsimp only; split)
    | refine inv_fst (by with_reducible assumption) ?_
    | refine inv_snd (by with_reducible assumption) ?_

theorem shiftBody_inv {q : List Instr} : ∀ x0 x1 s x3 x4 x5 x6, Inv q s → PRes.Inv q (shiftBody x0 x1 s x3 x4 x5 x6) := by
  intro x0 x1 s x3 x4 x5 x6 h
  unfold shiftBody
  repeat' first
    | with_reducible assumption
    | with_reducible intro _
    | with_reducible apply binary_inv
    | with_reducible apply inv_ite
    | with_reducible apply pinv_ite
    | with_reducible apply pinv_done
    | with_reducible apply pinv_trap
    | with_reducible apply pinv_brk
    | with_reducible apply pinv_stop
    | split
    | (dsimp only; split)
    | refine inv_fst (by with_reducible assumption) ?_
    | refine inv_snd (by with_reducible assumption) ?_

theorem minmaxBody_inv {q : List Instr} : ∀ x0 x1 s x3 x4 x5 x6, Inv q s → PRes.Inv q (minmaxBody x0 x1 s x3 x4 x5 x6) := by
  intro x0 x1 s x3 x4 x5 x6 h
  unfold minmaxBody
  repeat' first
    | with_reducible assumption
    | with_reducible intro _
    | with_reducible apply binary_inv
    | with_reducible apply inv_ite
    | with_reducible apply pinv_ite
    | with_reducible apply pinv_done
    | with_reducible apply pinv_trap
    | with_reducible apply pinv_brk
    | with_reducible apply pinv_stop
    | split
    | (dsimp only; split)
    | refine inv_fst (by with_reducible assumption) ?_
    | refine inv_snd (by with_reducible assumption) ?_

theorem execAdd_inv {q : List Instr} : ∀ x0 s, Inv q s → OInv q (execAdd x0 s) := by
  intro x0 s h
  unfold execAdd
  repeat' first
    | with_reducible assumption
    | with_reducible intro _
    | with_reducible apply rrr_inv
    | with_reducible apply addBody_inv
    | with_reducible apply inv_ite
    | with_reducible apply oinv_next
    | with_reducible apply oinv_ite
    | split
    | (dsimp only; split)
    | refine inv_fst (by with_reducible assumption) ?_
    | refine inv_snd (by with_reducible assumption) ?_

theorem execAdc_inv {q : List Instr} : ∀ x0 s, Inv q s → OInv q (execAdc x0 s) := by
  intro x0 s h
  unfold execAdc
  repeat' first
    | with_reducible assumption
    | with_reducible intro _
    | with_reducible apply rrr_inv
    | with_reducible apply binary_inv
    | with_reducible apply inv_ite
    | with_reducible apply oinv_next
    | with_reducible apply oinv_ite
    | split
    | (dsimp only; split)
    | refine inv_fst (by with_reducible assumption) ?_
    | refine inv_snd (by with_reducible assumption) ?_

theorem execSub_inv {q : List Instr} : ∀ x0 s, Inv q s → OInv q (execSub x0 s) := by
  intro x0 s h
  unfold execSub
  repeat' first
    | with_reducible assumption
    | with_reducible intro _
    | with_reducible apply rrr_inv
    | with_reducible apply subBody_inv
    | with_reducible apply inv_ite
    | with_reducible apply oinv_next
    | with_reducible apply oinv_ite
    | split
    | (dsimp only; split)
    | refine inv_fst (by with_reducible assumption) ?_
    | refine inv_snd (by with_reducible assumption) ?_

theorem execSbb_inv {q : List Instr} : ∀ x0 s, Inv q s → OInv q (execSbb x0 s) := by
  intro x0 s h
  unfold execSbb
  repeat' first
    | with_reducible assumption
    | with_reducible intro _
    | with_reducible apply rrr_inv
    | with_reducible apply binary_inv
    | with_reducible apply inv_ite
    | with_reducible apply oinv_next
    | with_reducible apply oinv_ite
    | split
    | (dsimp only; split)
    | refine inv_fst (by with_reducible assumption) ?_
    | refine inv_snd (by with_reducible assumption) ?_

theorem execAnd_inv {q : List Instr} : ∀ x0 s, Inv q s → OInv q (execAnd x0 s) := by
  intro x0 s h
  unfold execAnd
  repeat' first
    | with_reducible assumption
    | with_reducible intro _
    | with_reducible apply rrr_inv
    | with_reducible apply logicBody_inv
    | with_reducible apply inv_ite
    | with_reducible apply oinv_next
    | with_reducible apply oinv_ite
    | split
    | (dsimp only; split)
    | refine inv_fst (by with_reducible assumption) ?_
    | refine inv_snd (by with_reducible assumption) ?_

theorem execOr_inv {q : List Instr} : ∀ x0 s, Inv q s → OInv q (execOr x0 s) := by
  intro x0 s h
  unfold execOr
  repeat' first
    | with_reducible assumption
    | with_reducible intro _
    | with_reducible apply rrr_inv
    | with_reducible apply logicBody_inv
    | with_reducible apply inv_ite
    | with_reducible apply oinv_next
    | with_reducible apply oinv_ite
    | split
    | (dsimp only; split)
    | refine inv_fst (by with_reducible assumption) ?_
    | refine inv_snd (by with_reducible assumption) ?_

theorem execXor_inv {q : List Instr} : ∀ x0 s, Inv q s → OInv q (execXor x0 s) := by
  intro x0 s h
  unfold execXor
  repeat' first
    | with_reducible assumption
    | with_reducible intro _
    | with_reducible apply rrr_inv
    | with_reducible apply logicBody_inv
    | with_reducible apply inv_ite
    | with_reducible apply oinv_next
    | with_reducible apply oinv_ite
    | split
    | (dsimp only; split)
    | refine inv_fst (by with_reducible assumption) ?_
    | refine inv_snd (by with_reducible assumption) ?_

theorem execAndn_inv {q : List Instr} : ∀ x0 s, Inv q s → OInv q (execAndn x0 s) := by
  intro x0 s h
  unfold execAndn
  repeat' first
    | with_reducible assumption
    | with_reducible intro _
    | with_reducible apply rrr_inv
    | with_reducible apply logicBody_inv
    | with_reducible apply inv_ite
    | with_reducible apply oinv_next
    | with_reducible apply oinv_ite
    | split
    | (dsimp only; split)
    | refine inv_fst (by with_reducible assumption) ?_
    | refine inv_snd (by with_reducible assumption) ?_

theorem execShl_inv {q : List Instr} : ∀ x0 s, Inv q s → OInv q (execShl x0 s) := by
  intro x0 s h
  unfold execShl
  repeat' first
    | with_reducible assumption
    | with_reducible intro _
    | with_reducible apply rrr_inv
    | with_reducible apply shiftBody_inv
    | with_reducible apply inv_ite
    | with_reducible apply oinv_next
    | with_reducible apply oinv_ite
    | split
    | (dsimp only; split)
    | refine inv_fst (by with_reducible assumption) ?_
    | refine inv_snd (by with_reducible assumption) ?_

theorem execShr_inv {q : List Instr} : ∀ x0 s, Inv q s → OInv q (execShr x0 s) := by
  intro x0 s h
  unfold execShr
  repeat' first
    | with_reducible assumption
    | with_reducible intro _
    | with_reducible apply rrr_inv
    | with_reducible apply shiftBody_inv
    | with_reducible apply inv_ite
    | with_reducible apply oinv_next
    | with_reducible apply oinv_ite
    | split
    | (dsimp only; split)
    | refine inv_fst (by with_reducible assumption) ?_
    | refine inv_snd (by with_reducible assumption) ?_

theorem execSar_inv {q : List Instr} : ∀ x0 s, Inv q s → OInv q (execSar x0 s) := by
  intro x0 s h
  unfold execSar
  repeat' first
    | with_reducible assumption
    | with_reducible intro _
    | with_reducible apply rrr_inv
    | with_reducible apply shiftBody_inv
    | with_reducible apply inv_ite
    | with_reducible apply oinv_next
    | with_reducible apply oinv_ite
    | split
    | (dsimp only; split)
    | refine inv_fst (by with_reducible assumption) ?_
    | refine inv_snd (by with_reducible assumption) ?_

theorem execRol_inv {q : List Instr} : ∀ x0 s, Inv q s → OInv q (execRol x0 s) := by
  intro x0 s h
  unfold execRol
  repeat' first
    | with_reducible assumption
    | with_reducible intro _
    | with_reducible apply rrr_inv
    | with_reducible apply shiftBody_inv
    | with_reducible apply inv_ite
    | with_reducible apply oinv_next
    | with_reducible apply oinv_ite
    | split
    | (dsimp only; split)
    | refine inv_fst (by with_reducible assumption) ?_
    | refine inv_snd (by with_reducible assumption) ?_

theorem execRor_inv {q : List Instr} : ∀ x0 s, Inv q s → OInv q (execRor x0 s) := by
  intro x0 s h
  unfold execRor
  repeat' first
    | with_reducible assumption
    | with_reducible intro _
    | with_reducible apply rrr_inv
    | with_reducible apply shiftBody_inv
    | with_reducible apply inv_ite
    | with_reducible apply oinv_next
    | with_reducible apply oinv_ite
    | split
    | (dsimp only; split)
    | refine inv_fst (by with_reducible assumption) ?_
    | refine inv_snd (by with_reducible assumption) ?_

theorem execCmp_inv {q : List Instr} : ∀ x0 s, Inv q s → OInv q (execCmp x0 s) := by
  intro x0 s h
  unfold execCmp
  repeat' first
    | with_reducible assumption
    | with_reducible intro _
    | with_reducible apply rrr_inv
    | with_reducible apply cmpBody_inv
    | with_reducible apply inv_ite
    | with_reducible apply oinv_next
    | with_reducible apply oinv_ite
    | split
    | (dsimp only; split)
    | refine inv_fst (by with_reducible assumption) ?_
    | refine inv_snd (by with_reducible assumption) ?_

theorem execTst_inv {q : List Instr} : ∀ x0 s, Inv q s → OInv q (execTst x0 s) := by
  intro x0 s h
  unfold execTst
  repeat' first
    | with_reducible assumption
    | with_reducible intro _
    | with_reducible apply rrr_inv
    | with_reducible apply wrFlags_inv
    | with_reducible apply inv_ite
    | with_reducible apply pinv_ite
    | with_reducible apply pinv_done
    | with_reducible apply pinv_trap
    | with_reducible apply pinv_brk
    | with_reducible apply pinv_stop
    | with_reducible apply oinv_next
    | with_reducible apply oinv_ite
    | split
    | (dsimp only; split)
    | refine inv_fst (by with_reducible assumption) ?_
    | refine inv_snd (by with_reducible assumption) ?_
    | refine pinv_of_done (by with_reducible assumption) ?_
    | refine pinv_of_brk (by with_reducible assumption) ?_
    | refine pinv_of_trap (by with_reducible assumption) ?_
    | refine pinv_of_stop (by with_reducible assumption) ?_

theorem execNeg_inv {q : List Instr} : ∀ x0 s, Inv q s → OInv q (execNeg x0 s) := by
  intro x0 s h
  unfold execNeg
  repeat' first
    | with_reducible assumption
    | with_reducible intro _
    | with_reducible apply rrr_inv
    | with_reducible apply unary_inv
    | with_reducible apply inv_ite
    | with_reducible apply oinv_next
    | with_reducible apply oinv_ite
    | split
    | (dsimp only; split)
    | refine inv_fst (by with_reducible assumption) ?_
    | refine inv_snd (by with_reducible assumption) ?_

theorem execNot_inv {q : List Instr} : ∀ x0 s, Inv q s → OInv q (execNot x0 s) := by
  intro x0 s h
  unfold execNot
  repeat' first
    | with_reducible assumption
    | with_reducible intro _
    | with_reducible apply rrr_inv
    | with_reducible apply unary_inv
    | with_reducible apply inv_ite
    | with_reducible apply oinv_next
    | with_reducible apply oinv_ite
    | split
    | (dsimp only; split)
    | refine inv_fst (by with_reducible assumption) ?_
    | refine inv_snd (by with_reducible assumption) ?_

theorem execMin_inv {q : List Instr} : ∀ x0 s, Inv q s → OInv q (execMin x0 s) := by
  intro x0 s h
  unfold execMin
  repeat' first
    | with_reducible assumption
    | with_reducible intro _
    | with_reducible apply rrr_inv
    | with_reducible apply minmaxBody_inv
    | with_reducible apply inv_ite
    | with_reducible apply oinv_next
    | with_reducible apply oinv_ite
    | split
    | (dsimp only; split)
    | refine inv_fst (by with_reducible assumption) ?_
    | refine inv_snd (by with_reducible assumption) ?_

theorem execMax_inv {q : List Instr} : ∀ x0 s, Inv q s → OInv q (execMax x0 s) := by
  intro x0 s h
  unfold execMax
  repeat' first
    | with_reducible assumption
    | with_reducible intro _
    | with_reducible apply rrr_inv
    | with_reducible apply minmaxBody_inv
    | with_reducible apply inv_ite
    | with_reducible apply oinv_next
    | with_reducible apply oinv_ite
    | split
    | (dsimp only; split)
    | refine inv_fst (by with_reducible assumption) ?_
    | refine inv_snd (by with_reducible assumption) ?_

theorem execMinu_inv {q : List Instr} : ∀ x0 s, Inv q s → OInv q (execMinu x0 s) := by
  intro x0 s h
  unfold execMinu
  repeat' first
    | with_reducible assumption
    | with_reducible intro _
    | with_reducible apply rrr_inv
    | with_reducible apply minmaxBody_inv
    | with_reducible apply inv_ite
    | with_reducible apply oinv_next
    | with_reducible apply oinv_ite
    | split
    | (dsimp only; split)
    | refine inv_fst (by with_reducible assumption) ?_
    | refine inv_snd (by with_reducible assumption) ?_

theorem execMaxu_inv {q : List Instr} : ∀ x0 s, Inv q s → OInv q (execMaxu x0 s) := by
  intro x0 s h
  unfold execMaxu
  repeat' first
    | with_reducible assumption
    | with_reducible intro _
    | with_reducible apply rrr_inv
    | with_reducible apply minmaxBody_inv
    | with_reducible apply inv_ite
    | with_reducible apply oinv_next
    | with_reducible apply oinv_ite
    | split
    | (dsimp only; split)
    | refine inv_fst (by with_reducible assumption) ?_
    | refine inv_snd (by with_reducible assumption) ?_

theorem execClz_inv {q : List Instr} : ∀ x0 s, Inv q s → OInv q (execClz x0 s) := by
  intro x0 s h
  unfold execClz
  repeat' first
    | with_reducible assumption
    | with_reducible intro _
    | with_reducible apply rrr_inv
    | with_reducible apply unary_inv
    | with_reducible apply inv_ite
    | with_reducible apply oinv_next
    | with_reducible apply oinv_ite
    | split
    | (dsimp only; split)
    | refine inv_fst (by with_reducible assumption) ?_
    | refine inv_snd (by with_reducible assumption) ?_

theorem execPopc_inv {q : List Instr} : ∀ x0 s, Inv q s → OInv q (execPopc x0 s) := by
  intro x0 s h
  unfold execPopc
  repeat' first
    | with_reducible assumption
    | with_reducible intro _
    | with_reducible apply rrr_inv
    | with_reducible apply unary_inv
    | with_reducible apply inv_ite
    | with_reducible apply oinv_next
    | with_reducible apply oinv_ite
    | split
    | (dsimp only; split)
    | refine inv_fst (by with_reducible assumption) ?_
    | refine inv_snd (by with_reducible assumption) ?_

theorem execBswap_inv {q : List Instr} : ∀ x0 s, Inv q s → OInv q (execBswap x0 s) := by
  intro x0 s h
  unfold execBswap
  repeat' first
    | with_reducible assumption
    | with_reducible intro _
    | with_reducible apply rrr_inv
    | with_reducible apply unary_inv
    | with_reducible apply inv_ite
    | with_reducible apply oinv_next
    | with_reducible apply oinv_ite
    | split
    | (dsimp only; split)
    | refine inv_fst (by with_reducible assumption) ?_
    | refine inv_snd (by with_reducible assumption) ?_

theorem execAddi_inv {q : List Instr} : ∀ x0 s, Inv q s → OInv q (execAddi x0 s) := by
  intro x0 s h
  unfold execAddi
  repeat' first
    | with_reducible assumption
    | with_reducible intro _
    | with_reducible apply rri_inv
    | with_reducible apply addBody_inv
    | with_reducible apply inv_ite
    | with_reducible apply oinv_next
    | with_reducible apply oinv_ite
    | split
    | (dsimp only; split)
    | refine inv_fst (by with_reducible assumption) ?_
    | refine inv_snd (by with_reducible assumption) ?_

theorem execAndi_inv {q : List Instr} : ∀ x0 s, Inv q s → OInv q (execAndi x0 s) := by
  intro x0 s h
  unfold execAndi
  repeat' first
    | with_reducible assumption
    | with_reducible intro _
    | with_reducible apply rri_inv
    | with_reducible apply logicBody_inv
    | with_reducible apply inv_ite
    | with_reducible apply oinv_next
    | with_reducible apply oinv_ite
    | split
    | (dsimp only; split)
    | refine inv_fst (by with_reducible assumption) ?_
    | refine inv_snd (by with_reducible assumption) ?_

theorem execOri_inv {q : List Instr} : ∀ x0 s, Inv q s → OInv q (execOri x0 s) := by
  intro x0 s h
  unfold execOri
  repeat' first
    | with_reducible assumption
    | with_reducible intro _
    | with_reducible apply rri_inv
    | with_reducible apply logicBody_inv
    | with_reducible apply inv_ite
    | with_reducible apply oinv_next
    | with_reducible apply oinv_ite
    | split
    | (dsimp only; split)
    | refine inv_fst (by with_reducible assumption) ?_
    | refine inv_snd (by with_reducible assumption) ?_

theorem execXori_inv {q : List Instr} : ∀ x0 s, Inv q s → OInv q (execXori x0 s) := by
  intro x0 s h
  unfold execXori
  repeat' first
    | with_reducible assumption
    | with_reducible intro _
    | with_reducible apply rri_inv
    | with_reducible apply logicBody_inv
    | with_reducible apply inv_ite
    | with_reducible apply oinv_next
    | with_reducible apply oinv_ite
    | split
    | (dsimp only; split)
    | refine inv_fst (by with_reducible assumption) ?_
    | refine inv_snd (by with_reducible assumption) ?_

theorem execCmpi_inv {q : List Instr} : ∀ x0 s, Inv q s → OInv q (execCmpi x0 s) := by
  intro x0 s h
  unfold execCmpi
  repeat' first
    | with_reducible assumption
    | with_reducible intro _
    | with_reducible apply rri_inv
    | with_reducible apply wrFlags_inv
    | with_reducible apply inv_ite
    | with_reducible apply pinv_ite
    | with_reducible apply pinv_done
    | with_reducible apply pinv_trap
    | with_reducible apply pinv_brk
    | with_reducible apply pinv_stop
    | with_reducible apply oinv_next
    | with_reducible apply oinv_ite
    | split
    | (dsimp only; split)
    | refine inv_fst (by with_reducible assumption) ?_
    | refine inv_snd (by with_reducible assumption) ?_
    | refine pinv_of_done (by with_reducible assumption) ?_
    | refine pinv_of_brk (by with_reducible assumption) ?_
    | refine pinv_of_trap (by with_reducible assumption) ?_
    | refine pinv_of_stop (by with_reducible assumption) ?_

theorem execShi_inv {q : List Instr} : ∀ x0 s, Inv q s → OInv q (execShi x0 s) := by
  intro x0 s h
  unfold execShi
  repeat' first
    | with_reducible assumption
    | with_reducible intro _
    | with_reducible apply rri_inv
    | with_reducible apply shiftBody_inv
    | with_reducible apply inv_ite
    | with_reducible apply oinv_next
    | with_reducible apply oinv_ite
    | split
    | (dsimp only; split)
    | refine inv_fst (by with_reducible assumption) ?_
    | refine inv_snd (by with_reducible assumption) ?_

theorem execMovi_inv {q : List Instr} : ∀ x0 s, Inv q s → OInv q (execMovi x0 s) := by
  intro x0 s h
  unfold execMovi
  repeat' first
    | with_reducible assumption
    | with_reducible intro _
    | with_reducible apply issue_inv
    | with_reducible apply updPilot_inv
    | with_reducible apply inv_ite
    | with_reducible apply pinv_ite
    | with_reducible apply pinv_done
    | with_reducible apply pinv_trap
    | with_reducible apply pinv_brk
    | with_reducible apply pinv_stop
    | with_reducible apply oinv_next
    | with_reducible apply oinv_ite
    | split
    | (dsimp only; split)
    | refine inv_fst (by with_reducible assumption) ?_
    | refine inv_snd (by with_reducible assumption) ?_
    | refine pinv_of_done (by with_reducible assumption) ?_
    | refine pinv_of_brk (by with_reducible assumption) ?_
    | refine pinv_of_trap (by with_reducible assumption) ?_
    | refine pinv_of_stop (by with_reducible assumption) ?_

theorem execMovl_inv {q : List Instr} : ∀ x0 s, Inv q s → OInv q (execMovl x0 s) := by
  intro x0 s h
  unfold execMovl
  repeat' first
    | with_reducible assumption
    | with_reducible intro _
    | with_reducible apply lform_inv
    | with_reducible apply updPilot_inv
    | with_reducible apply inv_ite
    | with_reducible apply pinv_ite
    | with_reducible apply pinv_done
    | with_reducible apply pinv_trap
    | with_reducible apply pinv_brk
    | with_reducible apply pinv_stop
    | with_reducible apply oinv_next
    | with_reducible apply oinv_ite
    | split
    | (dsimp only; split)
    | refine inv_fst (by with_reducible assumption) ?_
    | refine inv_snd (by with_reducible assumption) ?_
    | refine pinv_of_done (by with_reducible assumption) ?_
    | refine pinv_of_brk (by with_reducible assumption) ?_
    | refine pinv_of_trap (by with_reducible assumption) ?_
    | refine pinv_of_stop (by with_reducible assumption) ?_

theorem execMovh_inv {q : List Instr} : ∀ x0 s, Inv q s → OInv q (execMovh x0 s) := by
  intro x0 s h
  unfold execMovh
  repeat' first
    | with_reducible assumption
    | with_reducible intro _
    | with_reducible apply lform_inv
    | with_reducible apply updPilot_inv
    | with_reducible apply inv_ite
    | with_reducible apply pinv_ite
    | with_reducible apply pinv_done
    | with_reducible apply pinv_trap
    | with_reducible apply pinv_brk
    | with_reducible apply pinv_stop
    | with_reducible apply oinv_next
    | with_reducible apply oinv_ite
    | split
    | (dsimp only; split)
    | refine inv_fst (by with_reducible assumption) ?_
    | refine inv_snd (by with_reducible assumption) ?_
    | refine pinv_of_done (by with_reducible assumption) ?_
    | refine pinv_of_brk (by with_reducible assumption) ?_
    | refine pinv_of_trap (by with_reducible assumption) ?_
    | refine pinv_of_stop (by with_reducible assumption) ?_

theorem execAddl_inv {q : List Instr} : ∀ x0 s, Inv q s → OInv q (execAddl x0 s) := by
  intro x0 s h
  unfold execAddl
  repeat' first
    | with_reducible assumption
    | with_reducible intro _
    | with_reducible apply lform_inv
    | with_reducible apply addBody_inv
    | with_reducible apply inv_ite
    | with_reducible apply oinv_next
    | with_reducible apply oinv_ite
    | split
    | (dsimp only; split)
    | refine inv_fst (by with_reducible assumption) ?_
    | refine inv_snd (by with_reducible assumption) ?_

theorem execCmpl_inv {q : List Instr} : ∀ x0 s, Inv q s → OInv q (execCmpl x0 s) := by
  intro x0 s h
  unfold execCmpl
  repeat' first
    | with_reducible assumption
    | with_reducible intro _
    | with_reducible apply lform_inv
    | with_reducible apply wrFlags_inv
    | with_reducible apply inv_ite
    | with_reducible apply pinv_ite
    | with_reducible apply pinv_done
    | with_reducible apply pinv_trap
    | with_reducible apply pinv_brk
    | with_reducible apply pinv_stop
    | with_reducible apply oinv_next
    | with_reducible apply oinv_ite
    | split
    | (dsimp only; split)
    | refine inv_fst (by with_reducible assumption) ?_
    | refine inv_snd (by with_reducible assumption) ?_
    | refine pinv_of_done (by with_reducible assumption) ?_
    | refine pinv_of_brk (by with_reducible assumption) ?_
    | refine pinv_of_trap (by with_reducible assumption) ?_
    | refine pinv_of_stop (by with_reducible assumption) ?_

theorem execMov_inv {q : List Instr} : ∀ x0 s, Inv q s → OInv q (execMov x0 s) := by
  intro x0 s h
  unfold execMov
  repeat' first
    | with_reducible assumption
    | with_reducible intro _
    | with_reducible apply rrr_inv
    | with_reducible apply unary_inv
    | with_reducible apply inv_ite
    | with_reducible apply oinv_next
    | with_reducible apply oinv_ite
    | split
    | (dsimp only; split)
    | refine inv_fst (by with_reducible assumption) ?_
    | refine inv_snd (by with_reducible assumption) ?_

theorem execRetag_inv {q : List Instr} : ∀ x0 s, Inv q s → OInv q (execRetag x0 s) := by
  intro x0 s h
  unfold execRetag
  repeat' first
    | with_reducible assumption
    | with_reducible intro _
    | with_reducible apply rrr_inv
    | with_reducible apply wrRes_inv
    | with_reducible apply inv_ite
    | with_reducible apply pinv_ite
    | with_reducible apply pinv_done
    | with_reducible apply pinv_trap
    | with_reducible apply pinv_brk
    | with_reducible apply pinv_stop
    | with_reducible apply oinv_next
    | with_reducible apply oinv_ite
    | split
    | (dsimp only; split)
    | refine inv_fst (by with_reducible assumption) ?_
    | refine inv_snd (by with_reducible assumption) ?_
    | refine pinv_of_done (by with_reducible assumption) ?_
    | refine pinv_of_brk (by with_reducible assumption) ?_
    | refine pinv_of_trap (by with_reducible assumption) ?_
    | refine pinv_of_stop (by with_reducible assumption) ?_

theorem execClrt_inv {q : List Instr} : ∀ x0 s, Inv q s → OInv q (execClrt x0 s) := by
  intro x0 s h
  unfold execClrt
  repeat' first
    | with_reducible assumption
    | with_reducible intro _
    | with_reducible apply rrr_inv
    | with_reducible apply updPilot_inv
    | with_reducible apply inv_ite
    | with_reducible apply pinv_ite
    | with_reducible apply pinv_done
    | with_reducible apply pinv_trap
    | with_reducible apply pinv_brk
    | with_reducible apply pinv_stop
    | with_reducible apply oinv_next
    | with_reducible apply oinv_ite
    | split
    | (dsimp only; split)
    | refine inv_fst (by with_reducible assumption) ?_
    | refine inv_snd (by with_reducible assumption) ?_
    | refine pinv_of_done (by with_reducible assumption) ?_
    | refine pinv_of_brk (by with_reducible assumption) ?_
    | refine pinv_of_trap (by with_reducible assumption) ?_
    | refine pinv_of_stop (by with_reducible assumption) ?_

theorem execTagof_inv {q : List Instr} : ∀ x0 s, Inv q s → OInv q (execTagof x0 s) := by
  intro x0 s h
  unfold execTagof
  repeat' first
    | with_reducible assumption
    | with_reducible intro _
    | with_reducible apply rrr_inv
    | with_reducible apply updPilot_inv
    | with_reducible apply inv_ite
    | with_reducible apply pinv_ite
    | with_reducible apply pinv_done
    | with_reducible apply pinv_trap
    | with_reducible apply pinv_brk
    | with_reducible apply pinv_stop
    | with_reducible apply oinv_next
    | with_reducible apply oinv_ite
    | split
    | (dsimp only; split)
    | refine inv_fst (by with_reducible assumption) ?_
    | refine inv_snd (by with_reducible assumption) ?_
    | refine pinv_of_done (by with_reducible assumption) ?_
    | refine pinv_of_brk (by with_reducible assumption) ?_
    | refine pinv_of_trap (by with_reducible assumption) ?_
    | refine pinv_of_stop (by with_reducible assumption) ?_

end Sys2Proof.Machine
end

