-- ==== Sys2Proof/Laws/InvPilotMul.lean ====
section
/-! SUPPORT. Laws/InvPilotMul.lean: every function of Machine/PilotMul.lean keeps the invariant of a sound state. -/

namespace Sys2Proof.Machine

theorem startMul_inv {q : List Instr} : ∀ s x1 x2 x3, Inv q s → Inv q (startMul s x1 x2 x3) := by
  intro s x1 x2 x3 h
  unfold startMul
  repeat' first
    | with_reducible assumption
    | with_reducible intro _
    | with_reducible apply updPilot_inv
    | with_reducible apply inv_ite
    | split
    | (dsimp only; split)
    | refine inv_fst (by with_reducible assumption) ?_
    | refine inv_snd (by with_reducible assumption) ?_

theorem mulBody_inv {q : List Instr} : ∀ x0 x1 s x3, Inv q s → PRes.Inv q (mulBody x0 x1 s x3) := by
  intro x0 x1 s x3 h
  unfold mulBody
  repeat' first
    | with_reducible assumption
    | with_reducible intro _
    | with_reducible apply startMul_inv
    | with_reducible apply inv_ite
    | with_reducible apply pinv_ite
    | with_reducible apply pinv_done
    | with_reducible apply pinv_trap
    | with_reducible apply pinv_brk
    | with_reducible apply pinv_stop
    | split
    | (dsimp only; split)
    | refine inv_fst (by with_reducible assumption) ?_
    | refine inv_snd (by with_reducible assumption) ?_
    | refine pinv_of_done (by with_reducible assumption) ?_
    | refine pinv_of_brk (by with_reducible assumption) ?_
    | refine pinv_of_trap (by with_reducible assumption) ?_
    | refine pinv_of_stop (by with_reducible assumption) ?_

theorem xmacBody_inv {q : List Instr} : ∀ x0 x1 s x3, Inv q s → PRes.Inv q (xmacBody x0 x1 s x3) := by
  intro x0 x1 s x3 h
  unfold xmacBody
  repeat' first
    | with_reducible assumption
    | with_reducible intro _
    | with_reducible apply startMul_inv
    | with_reducible apply inv_ite
    | with_reducible apply pinv_ite
    | with_reducible apply pinv_done
    | with_reducible apply pinv_trap
    | with_reducible apply pinv_brk
    | with_reducible apply pinv_stop
    | split
    | (dsimp only; split)
    | refine inv_fst (by with_reducible assumption) ?_
    | refine inv_snd (by with_reducible assumption) ?_
    | refine pinv_of_done (by with_reducible assumption) ?_
    | refine pinv_of_brk (by with_reducible assumption) ?_
    | refine pinv_of_trap (by with_reducible assumption) ?_
    | refine pinv_of_stop (by with_reducible assumption) ?_

theorem divBody_inv {q : List Instr} : ∀ x0 x1 x2 x3 s x5, Inv q s → PRes.Inv q (divBody x0 x1 x2 x3 s x5) := by
  intro x0 x1 x2 x3 s x5 h
  unfold divBody
  repeat' first
    | with_reducible assumption
    | with_reducible intro _
    | with_reducible apply updPilot_inv
    | with_reducible apply inv_ite
    | with_reducible apply pinv_ite
    | with_reducible apply pinv_done
    | with_reducible apply pinv_trap
    | with_reducible apply pinv_brk
    | with_reducible apply pinv_stop
    | split
    | (dsimp only; split)
    | refine inv_fst (by with_reducible assumption) ?_
    | refine inv_snd (by with_reducible assumption) ?_
    | refine pinv_of_done (by with_reducible assumption) ?_
    | refine pinv_of_brk (by with_reducible assumption) ?_
    | refine pinv_of_trap (by with_reducible assumption) ?_
    | refine pinv_of_stop (by with_reducible assumption) ?_

theorem execMul_inv {q : List Instr} : ∀ x0 s, Inv q s → OInv q (execMul x0 s) := by
  intro x0 s h
  unfold execMul
  repeat' first
    | with_reducible assumption
    | with_reducible intro _
    | with_reducible apply rrr_inv
    | with_reducible apply mulBody_inv
    | with_reducible apply inv_ite
    | with_reducible apply oinv_next
    | with_reducible apply oinv_ite
    | split
    | (dsimp only; split)
    | refine inv_fst (by with_reducible assumption) ?_
    | refine inv_snd (by with_reducible assumption) ?_

theorem execMulu_inv {q : List Instr} : ∀ x0 s, Inv q s → OInv q (execMulu x0 s) := by
  intro x0 s h
  unfold execMulu
  repeat' first
    | with_reducible assumption
    | with_reducible intro _
    | with_reducible apply rrr_inv
    | with_reducible apply mulBody_inv
    | with_reducible apply inv_ite
    | with_reducible apply oinv_next
    | with_reducible apply oinv_ite
    | split
    | (dsimp only; split)
    | refine inv_fst (by with_reducible assumption) ?_
    | refine inv_snd (by with_reducible assumption) ?_

theorem execDiv_inv {q : List Instr} : ∀ x0 s, Inv q s → OInv q (execDiv x0 s) := by
  intro x0 s h
  unfold execDiv
  repeat' first
    | with_reducible assumption
    | with_reducible intro _
    | with_reducible apply rrr_inv
    | with_reducible apply divBody_inv
    | with_reducible apply inv_ite
    | with_reducible apply oinv_next
    | with_reducible apply oinv_ite
    | split
    | (dsimp only; split)
    | refine inv_fst (by with_reducible assumption) ?_
    | refine inv_snd (by with_reducible assumption) ?_

theorem execDivu_inv {q : List Instr} : ∀ x0 s, Inv q s → OInv q (execDivu x0 s) := by
  intro x0 s h
  unfold execDivu
  repeat' first
    | with_reducible assumption
    | with_reducible intro _
    | with_reducible apply rrr_inv
    | with_reducible apply divBody_inv
    | with_reducible apply inv_ite
    | with_reducible apply oinv_next
    | with_reducible apply oinv_ite
    | split
    | (dsimp only; split)
    | refine inv_fst (by with_reducible assumption) ?_
    | refine inv_snd (by with_reducible assumption) ?_

theorem execXmac_inv {q : List Instr} : ∀ x0 s, Inv q s → OInv q (execXmac x0 s) := by
  intro x0 s h
  unfold execXmac
  repeat' first
    | with_reducible assumption
    | with_reducible intro _
    | with_reducible apply rrr_inv
    | with_reducible apply xmacBody_inv
    | with_reducible apply inv_ite
    | with_reducible apply oinv_next
    | with_reducible apply oinv_ite
    | split
    | (dsimp only; split)
    | refine inv_fst (by with_reducible assumption) ?_
    | refine inv_snd (by with_reducible assumption) ?_

theorem execXmacu_inv {q : List Instr} : ∀ x0 s, Inv q s → OInv q (execXmacu x0 s) := by
  intro x0 s h
  unfold execXmacu
  repeat' first
    | with_reducible assumption
    | with_reducible intro _
    | with_reducible apply rrr_inv
    | with_reducible apply xmacBody_inv
    | with_reducible apply inv_ite
    | with_reducible apply oinv_next
    | with_reducible apply oinv_ite
    | split
    | (dsimp only; split)
    | refine inv_fst (by with_reducible assumption) ?_
    | refine inv_snd (by with_reducible assumption) ?_

theorem execMfx_inv {q : List Instr} : ∀ x0 s, Inv q s → OInv q (execMfx x0 s) := by
  intro x0 s h
  unfold execMfx
  repeat' first
    | with_reducible assumption
    | with_reducible intro _
    | with_reducible apply rrr_inv
    | with_reducible apply updPilot_inv
    | with_reducible apply inv_ite
    | with_reducible apply pinv_ite
    | with_reducible apply pinv_done
    | with_reducible apply pinv_trap
    | with_reducible apply pinv_brk
    | with_reducible apply pinv_stop
    | with_reducible apply oinv_next
    | with_reducible apply oinv_ite
    | split
    | (dsimp only; split)
    | refine inv_fst (by with_reducible assumption) ?_
    | refine inv_snd (by with_reducible assumption) ?_
    | refine pinv_of_done (by with_reducible assumption) ?_
    | refine pinv_of_brk (by with_reducible assumption) ?_
    | refine pinv_of_trap (by with_reducible assumption) ?_
    | refine pinv_of_stop (by with_reducible assumption) ?_

theorem execMtx_inv {q : List Instr} : ∀ x0 s, Inv q s → OInv q (execMtx x0 s) := by
  intro x0 s h
  unfold execMtx
  repeat' first
    | with_reducible assumption
    | with_reducible intro _
    | with_reducible apply rrr_inv
    | with_reducible apply updPilot_inv
    | with_reducible apply inv_ite
    | with_reducible apply pinv_ite
    | with_reducible apply pinv_done
    | with_reducible apply pinv_trap
    | with_reducible apply pinv_brk
    | with_reducible apply pinv_stop
    | with_reducible apply oinv_next
    | with_reducible apply oinv_ite
    | split
    | (dsimp only; split)
    | refine inv_fst (by with_reducible assumption) ?_
    | refine inv_snd (by with_reducible assumption) ?_
    | refine pinv_of_done (by with_reducible assumption) ?_
    | refine pinv_of_brk (by with_reducible assumption) ?_
    | refine pinv_of_trap (by with_reducible assumption) ?_
    | refine pinv_of_stop (by with_reducible assumption) ?_

theorem execXclr_inv {q : List Instr} : ∀ x0 s, Inv q s → OInv q (execXclr x0 s) := by
  intro x0 s h
  unfold execXclr
  repeat' first
    | with_reducible assumption
    | with_reducible intro _
    | with_reducible apply rrr_inv
    | with_reducible apply updPilot_inv
    | with_reducible apply inv_ite
    | with_reducible apply pinv_ite
    | with_reducible apply pinv_done
    | with_reducible apply pinv_trap
    | with_reducible apply pinv_brk
    | with_reducible apply pinv_stop
    | with_reducible apply oinv_next
    | with_reducible apply oinv_ite
    | split
    | (dsimp only; split)
    | refine inv_fst (by with_reducible assumption) ?_
    | refine inv_snd (by with_reducible assumption) ?_
    | refine pinv_of_done (by with_reducible assumption) ?_
    | refine pinv_of_brk (by with_reducible assumption) ?_
    | refine pinv_of_trap (by with_reducible assumption) ?_
    | refine pinv_of_stop (by with_reducible assumption) ?_

end Sys2Proof.Machine
end

