-- ==== Sys2Proof/Laws/InvPilotDec.lean ====
section
/-! SUPPORT. Laws/InvPilotDec.lean: every function of Machine/PilotDec.lean keeps the invariant of a sound state. -/

namespace Sys2Proof.Machine

theorem execDadd_inv {q : List Instr} : ∀ x0 s, Inv q s → OInv q (execDadd x0 s) := by
  intro x0 s h
  unfold execDadd
  repeat' first
    | with_reducible assumption
    | with_reducible intro _
    | with_reducible apply rrr_inv
    | with_reducible apply wrRes_inv
    | with_reducible apply inv_ite
    | with_reducible apply pinv_ite
    | with_reducible apply pinv_done
    | with_reducible apply pinv_trap
    | with_reducible apply pinv_brk
    | with_reducible apply pinv_stop
    | with_reducible apply oinv_next
    | with_reducible apply oinv_ite
    | split
    | (dsimp only; split)
    | refine inv_fst (by with_reducible assumption) ?_
    | refine inv_snd (by with_reducible assumption) ?_
    | refine pinv_of_done (by with_reducible assumption) ?_
    | refine pinv_of_brk (by with_reducible assumption) ?_
    | refine pinv_of_trap (by with_reducible assumption) ?_
    | refine pinv_of_stop (by with_reducible assumption) ?_

theorem execDsub_inv {q : List Instr} : ∀ x0 s, Inv q s → OInv q (execDsub x0 s) := by
  intro x0 s h
  unfold execDsub
  repeat' first
    | with_reducible assumption
    | with_reducible intro _
    | with_reducible apply rrr_inv
    | with_reducible apply wrRes_inv
    | with_reducible apply inv_ite
    | with_reducible apply pinv_ite
    | with_reducible apply pinv_done
    | with_reducible apply pinv_trap
    | with_reducible apply pinv_brk
    | with_reducible apply pinv_stop
    | with_reducible apply oinv_next
    | with_reducible apply oinv_ite
    | split
    | (dsimp only; split)
    | refine inv_fst (by with_reducible assumption) ?_
    | refine inv_snd (by with_reducible assumption) ?_
    | refine pinv_of_done (by with_reducible assumption) ?_
    | refine pinv_of_brk (by with_reducible assumption) ?_
    | refine pinv_of_trap (by with_reducible assumption) ?_
    | refine pinv_of_stop (by with_reducible assumption) ?_

theorem execDcmp_inv {q : List Instr} : ∀ x0 s, Inv q s → OInv q (execDcmp x0 s) := by
  intro x0 s h
  unfold execDcmp
  repeat' first
    | with_reducible assumption
    | with_reducible intro _
    | with_reducible apply rrr_inv
    | with_reducible apply wrFlags_inv
    | with_reducible apply inv_ite
    | with_reducible apply pinv_ite
    | with_reducible apply pinv_done
    | with_reducible apply pinv_trap
    | with_reducible apply pinv_brk
    | with_reducible apply pinv_stop
    | with_reducible apply oinv_next
    | with_reducible apply oinv_ite
    | split
    | (dsimp only; split)
    | refine inv_fst (by with_reducible assumption) ?_
    | refine inv_snd (by with_reducible assumption) ?_
    | refine pinv_of_done (by with_reducible assumption) ?_
    | refine pinv_of_brk (by with_reducible assumption) ?_
    | refine pinv_of_trap (by with_reducible assumption) ?_
    | refine pinv_of_stop (by with_reducible assumption) ?_

theorem execCvd_inv {q : List Instr} : ∀ x0 s, Inv q s → OInv q (execCvd x0 s) := by
  intro x0 s h
  unfold execCvd
  repeat' first
    | with_reducible assumption
    | with_reducible intro _
    | with_reducible apply rrr_inv
    | with_reducible apply wrRes_inv
    | with_reducible apply inv_ite
    | with_reducible apply pinv_ite
    | with_reducible apply pinv_done
    | with_reducible apply pinv_trap
    | with_reducible apply pinv_brk
    | with_reducible apply pinv_stop
    | with_reducible apply oinv_next
    | with_reducible apply oinv_ite
    | split
    | (dsimp only; split)
    | refine inv_fst (by with_reducible assumption) ?_
    | refine inv_snd (by with_reducible assumption) ?_
    | refine pinv_of_done (by with_reducible assumption) ?_
    | refine pinv_of_brk (by with_reducible assumption) ?_
    | refine pinv_of_trap (by with_reducible assumption) ?_
    | refine pinv_of_stop (by with_reducible assumption) ?_

theorem execCvb_inv {q : List Instr} : ∀ x0 s, Inv q s → OInv q (execCvb x0 s) := by
  intro x0 s h
  unfold execCvb
  repeat' first
    | with_reducible assumption
    | with_reducible intro _
    | with_reducible apply rrr_inv
    | with_reducible apply wrRes_inv
    | with_reducible apply inv_ite
    | with_reducible apply pinv_ite
    | with_reducible apply pinv_done
    | with_reducible apply pinv_trap
    | with_reducible apply pinv_brk
    | with_reducible apply pinv_stop
    | with_reducible apply oinv_next
    | with_reducible apply oinv_ite
    | split
    | (dsimp only; split)
    | refine inv_fst (by with_reducible assumption) ?_
    | refine inv_snd (by with_reducible assumption) ?_
    | refine pinv_of_done (by with_reducible assumption) ?_
    | refine pinv_of_brk (by with_reducible assumption) ?_
    | refine pinv_of_trap (by with_reducible assumption) ?_
    | refine pinv_of_stop (by with_reducible assumption) ?_

end Sys2Proof.Machine
end

