-- ==== Sys2Proof/Laws/InvPilotCtl.lean ====
section
/-! SUPPORT. Laws/InvPilotCtl.lean: every function of Machine/PilotCtl.lean keeps the invariant of a sound state. -/

namespace Sys2Proof.Machine

theorem ctlRrr_inv {q : List Instr} : ∀ x0 x1 x2 x3 x4 s x6, Inv q s → (∀ a0 a1 a2, Inv q a2 → PRes.Inv q (x6 a0 a1 a2)) → Inv q (ctlRrr x0 x1 x2 x3 x4 s x6) := by
  intro x0 x1 x2 x3 x4 s x6 h h1
  unfold ctlRrr
  repeat' first
    | with_reducible assumption
    | with_reducible intro _
    | with_reducible apply issue_inv
    | with_reducible apply h1
    | with_reducible apply inv_ite
    | split
    | (dsimp only; split)
    | refine inv_fst (by with_reducible assumption) ?_
    | refine inv_snd (by with_reducible assumption) ?_

theorem jump_inv {q : List Instr} : ∀ s x1 x2 x3 x4, Inv q s → PRes.Inv q (jump s x1 x2 x3 x4) := by
  intro s x1 x2 x3 x4 h
  unfold jump
  repeat' first
    | with_reducible assumption
    | with_reducible intro _
    | with_reducible apply flowPacket_inv
    | with_reducible apply updPilot_inv
    | with_reducible apply inv_ite
    | with_reducible apply pinv_ite
    | with_reducible apply pinv_done
    | with_reducible apply pinv_trap
    | with_reducible apply pinv_brk
    | with_reducible apply pinv_stop
    | split
    | (dsimp only; split)
    | refine inv_fst (by with_reducible assumption) ?_
    | refine inv_snd (by with_reducible assumption) ?_
    | refine pinv_of_done (by with_reducible assumption) ?_
    | refine pinv_of_brk (by with_reducible assumption) ?_
    | refine pinv_of_trap (by with_reducible assumption) ?_
    | refine pinv_of_stop (by with_reducible assumption) ?_

theorem callTo_inv {q : List Instr} : ∀ x0 s x2 x3 x4, Inv q s → PRes.Inv q (callTo x0 s x2 x3 x4) := by
  intro x0 s x2 x3 x4 h
  unfold callTo
  repeat' first
    | with_reducible assumption
    | with_reducible intro _
    | with_reducible apply jump_inv
    | with_reducible apply inv_ite
    | with_reducible apply pinv_ite
    | with_reducible apply pinv_done
    | with_reducible apply pinv_trap
    | with_reducible apply pinv_brk
    | with_reducible apply pinv_stop
    | split
    | (dsimp only; split)
    | refine inv_fst (by with_reducible assumption) ?_
    | refine inv_snd (by with_reducible assumption) ?_
    | refine pinv_of_done (by with_reducible assumption) ?_
    | refine pinv_of_brk (by with_reducible assumption) ?_
    | refine pinv_of_trap (by with_reducible assumption) ?_
    | refine pinv_of_stop (by with_reducible assumption) ?_

theorem execB_inv {q : List Instr} : ∀ x0 s, Inv q s → OInv q (execB x0 s) := by
  intro x0 s h
  unfold execB
  repeat' first
    | with_reducible assumption
    | with_reducible intro _
    | with_reducible apply issue_inv
    | with_reducible apply jump_inv
    | with_reducible apply inv_ite
    | with_reducible apply oinv_next
    | with_reducible apply oinv_ite
    | split
    | (dsimp only; split)
    | refine inv_fst (by with_reducible assumption) ?_
    | refine inv_snd (by with_reducible assumption) ?_

theorem execCall_inv {q : List Instr} : ∀ x0 s, Inv q s → OInv q (execCall x0 s) := by
  intro x0 s h
  unfold execCall
  repeat' first
    | with_reducible assumption
    | with_reducible intro _
    | with_reducible apply issue_inv
    | with_reducible apply callTo_inv
    | with_reducible apply inv_ite
    | with_reducible apply oinv_next
    | with_reducible apply oinv_ite
    | split
    | (dsimp only; split)
    | refine inv_fst (by with_reducible assumption) ?_
    | refine inv_snd (by with_reducible assumption) ?_

theorem execJmpr_inv {q : List Instr} : ∀ x0 s, Inv q s → OInv q (execJmpr x0 s) := by
  intro x0 s h
  unfold execJmpr
  repeat' first
    | with_reducible assumption
    | with_reducible intro _
    | with_reducible apply ctlRrr_inv
    | with_reducible apply jump_inv
    | with_reducible apply inv_ite
    | with_reducible apply pinv_ite
    | with_reducible apply pinv_done
    | with_reducible apply pinv_trap
    | with_reducible apply pinv_brk
    | with_reducible apply pinv_stop
    | with_reducible apply oinv_next
    | with_reducible apply oinv_ite
    | split
    | (dsimp only; split)
    | refine inv_fst (by with_reducible assumption) ?_
    | refine inv_snd (by with_reducible assumption) ?_
    | refine pinv_of_done (by with_reducible assumption) ?_
    | refine pinv_of_brk (by with_reducible assumption) ?_
    | refine pinv_of_trap (by with_reducible assumption) ?_
    | refine pinv_of_stop (by with_reducible assumption) ?_

theorem execCallr_inv {q : List Instr} : ∀ x0 s, Inv q s → OInv q (execCallr x0 s) := by
  intro x0 s h
  unfold execCallr
  repeat' first
    | with_reducible assumption
    | with_reducible intro _
    | with_reducible apply ctlRrr_inv
    | with_reducible apply callTo_inv
    | with_reducible apply inv_ite
    | with_reducible apply pinv_ite
    | with_reducible apply pinv_done
    | with_reducible apply pinv_trap
    | with_reducible apply pinv_brk
    | with_reducible apply pinv_stop
    | with_reducible apply oinv_next
    | with_reducible apply oinv_ite
    | split
    | (dsimp only; split)
    | refine inv_fst (by with_reducible assumption) ?_
    | refine inv_snd (by with_reducible assumption) ?_
    | refine pinv_of_done (by with_reducible assumption) ?_
    | refine pinv_of_brk (by with_reducible assumption) ?_
    | refine pinv_of_trap (by with_reducible assumption) ?_
    | refine pinv_of_stop (by with_reducible assumption) ?_

theorem execRet_inv {q : List Instr} : ∀ x0 s, Inv q s → OInv q (execRet x0 s) := by
  intro x0 s h
  unfold execRet
  repeat' first
    | with_reducible assumption
    | with_reducible intro _
    | with_reducible apply ctlRrr_inv
    | with_reducible apply flowPacket_inv
    | with_reducible apply updPilot_inv
    | with_reducible apply inv_ite
    | with_reducible apply pinv_ite
    | with_reducible apply pinv_done
    | with_reducible apply pinv_trap
    | with_reducible apply pinv_brk
    | with_reducible apply pinv_stop
    | with_reducible apply oinv_next
    | with_reducible apply oinv_ite
    | split
    | (dsimp only; split)
    | refine inv_fst (by with_reducible assumption) ?_
    | refine inv_snd (by with_reducible assumption) ?_
    | refine pinv_of_done (by with_reducible assumption) ?_
    | refine pinv_of_brk (by with_reducible assumption) ?_
    | refine pinv_of_trap (by with_reducible assumption) ?_
    | refine pinv_of_stop (by with_reducible assumption) ?_

theorem execLexit_inv {q : List Instr} : ∀ x0 s, Inv q s → OInv q (execLexit x0 s) := by
  intro x0 s h
  unfold execLexit
  repeat' first
    | with_reducible assumption
    | with_reducible intro _
    | with_reducible apply ctlRrr_inv
    | with_reducible apply updPilot_inv
    | with_reducible apply inv_ite
    | with_reducible apply pinv_ite
    | with_reducible apply pinv_done
    | with_reducible apply pinv_trap
    | with_reducible apply pinv_brk
    | with_reducible apply pinv_stop
    | with_reducible apply oinv_next
    | with_reducible apply oinv_ite
    | split
    | (dsimp only; split)
    | refine inv_fst (by with_reducible assumption) ?_
    | refine inv_snd (by with_reducible assumption) ?_
    | refine pinv_of_done (by with_reducible assumption) ?_
    | refine pinv_of_brk (by with_reducible assumption) ?_
    | refine pinv_of_trap (by with_reducible assumption) ?_
    | refine pinv_of_stop (by with_reducible assumption) ?_

theorem execLeapc_inv {q : List Instr} : ∀ x0 s, Inv q s → OInv q (execLeapc x0 s) := by
  intro x0 s h
  unfold execLeapc
  repeat' first
    | with_reducible assumption
    | with_reducible intro _
    | with_reducible apply lform_inv
    | with_reducible apply updPilot_inv
    | with_reducible apply inv_ite
    | with_reducible apply pinv_ite
    | with_reducible apply pinv_done
    | with_reducible apply pinv_trap
    | with_reducible apply pinv_brk
    | with_reducible apply pinv_stop
    | with_reducible apply oinv_next
    | with_reducible apply oinv_ite
    | split
    | (dsimp only; split)
    | refine inv_fst (by with_reducible assumption) ?_
    | refine inv_snd (by with_reducible assumption) ?_
    | refine pinv_of_done (by with_reducible assumption) ?_
    | refine pinv_of_brk (by with_reducible assumption) ?_
    | refine pinv_of_trap (by with_reducible assumption) ?_
    | refine pinv_of_stop (by with_reducible assumption) ?_

theorem loopBody_inv {q : List Instr} : ∀ x0 x1 s, Inv q s → PRes.Inv q (loopBody x0 x1 s) := by
  intro x0 x1 s h
  unfold loopBody
  repeat' first
    | with_reducible assumption
    | with_reducible intro _
    | with_reducible apply updPilot_inv
    | with_reducible apply inv_ite
    | with_reducible apply pinv_ite
    | with_reducible apply pinv_done
    | with_reducible apply pinv_trap
    | with_reducible apply pinv_brk
    | with_reducible apply pinv_stop
    | split
    | (dsimp only; split)
    | refine inv_fst (by with_reducible assumption) ?_
    | refine inv_snd (by with_reducible assumption) ?_
    | refine pinv_of_done (by with_reducible assumption) ?_
    | refine pinv_of_brk (by with_reducible assumption) ?_
    | refine pinv_of_trap (by with_reducible assumption) ?_
    | refine pinv_of_stop (by with_reducible assumption) ?_

theorem execLoop_inv {q : List Instr} : ∀ x0 s, Inv q s → OInv q (execLoop x0 s) := by
  intro x0 s h
  unfold execLoop
  repeat' first
    | with_reducible assumption
    | with_reducible intro _
    | with_reducible apply issue_inv
    | with_reducible apply loopBody_inv
    | with_reducible apply inv_ite
    | with_reducible apply oinv_next
    | with_reducible apply oinv_ite
    | split
    | (dsimp only; split)
    | refine inv_fst (by with_reducible assumption) ?_
    | refine inv_snd (by with_reducible assumption) ?_

theorem execNop_inv {q : List Instr} : ∀ x0 s, Inv q s → OInv q (execNop x0 s) := by
  intro x0 s h
  unfold execNop
  repeat' first
    | with_reducible assumption
    | with_reducible intro _
    | with_reducible apply rrr_inv
    | with_reducible apply inv_ite
    | with_reducible apply pinv_ite
    | with_reducible apply pinv_done
    | with_reducible apply pinv_trap
    | with_reducible apply pinv_brk
    | with_reducible apply pinv_stop
    | with_reducible apply oinv_next
    | with_reducible apply oinv_ite
    | split
    | (dsimp only; split)
    | refine inv_fst (by with_reducible assumption) ?_
    | refine inv_snd (by with_reducible assumption) ?_
    | refine pinv_of_done (by with_reducible assumption) ?_
    | refine pinv_of_brk (by with_reducible assumption) ?_
    | refine pinv_of_trap (by with_reducible assumption) ?_
    | refine pinv_of_stop (by with_reducible assumption) ?_

theorem execSync_inv {q : List Instr} : ∀ x0 s, Inv q s → OInv q (execSync x0 s) := by
  intro x0 s h
  unfold execSync
  repeat' first
    | with_reducible assumption
    | with_reducible intro _
    | with_reducible apply rrr_inv
    | with_reducible apply updPilot_inv
    | with_reducible apply inv_ite
    | with_reducible apply pinv_ite
    | with_reducible apply pinv_done
    | with_reducible apply pinv_trap
    | with_reducible apply pinv_brk
    | with_reducible apply pinv_stop
    | with_reducible apply oinv_next
    | with_reducible apply oinv_ite
    | split
    | (dsimp only; split)
    | refine inv_fst (by with_reducible assumption) ?_
    | refine inv_snd (by with_reducible assumption) ?_
    | refine pinv_of_done (by with_reducible assumption) ?_
    | refine pinv_of_brk (by with_reducible assumption) ?_
    | refine pinv_of_trap (by with_reducible assumption) ?_
    | refine pinv_of_stop (by with_reducible assumption) ?_

theorem execWait_inv {q : List Instr} : ∀ x0 s, Inv q s → OInv q (execWait x0 s) := by
  intro x0 s h
  unfold execWait
  repeat' first
    | with_reducible assumption
    | with_reducible intro _
    | with_reducible apply ctlRrr_inv
    | with_reducible apply updPilot_inv
    | with_reducible apply inv_ite
    | with_reducible apply pinv_ite
    | with_reducible apply pinv_done
    | with_reducible apply pinv_trap
    | with_reducible apply pinv_brk
    | with_reducible apply pinv_stop
    | with_reducible apply oinv_next
    | with_reducible apply oinv_ite
    | split
    | (dsimp only; split)
    | refine inv_fst (by with_reducible assumption) ?_
    | refine inv_snd (by with_reducible assumption) ?_
    | refine pinv_of_done (by with_reducible assumption) ?_
    | refine pinv_of_brk (by with_reducible assumption) ?_
    | refine pinv_of_trap (by with_reducible assumption) ?_
    | refine pinv_of_stop (by with_reducible assumption) ?_

theorem gateBody_inv {q : List Instr} : ∀ x0 x1 x2 s, Inv q s → PRes.Inv q (gateBody x0 x1 x2 s) := by
  intro x0 x1 x2 s h
  unfold gateBody
  repeat' first
    | with_reducible assumption
    | with_reducible intro _
    | with_reducible apply updPilot_inv
    | with_reducible apply flowPacket_inv
    | with_reducible apply inv_ite
    | with_reducible apply pinv_ite
    | with_reducible apply pinv_done
    | with_reducible apply pinv_trap
    | with_reducible apply pinv_brk
    | with_reducible apply pinv_stop
    | split
    | (dsimp only; split)
    | refine inv_fst (by with_reducible assumption) ?_
    | refine inv_snd (by with_reducible assumption) ?_
    | refine pinv_of_done (by with_reducible assumption) ?_
    | refine pinv_of_brk (by with_reducible assumption) ?_
    | refine pinv_of_trap (by with_reducible assumption) ?_
    | refine pinv_of_stop (by with_reducible assumption) ?_

theorem execGate_inv {q : List Instr} : ∀ x0 s, Inv q s → OInv q (execGate x0 s) := by
  intro x0 s h
  unfold execGate
  repeat' first
    | with_reducible assumption
    | with_reducible intro _
    | with_reducible apply ctlRrr_inv
    | with_reducible apply gateBody_inv
    | with_reducible apply inv_ite
    | with_reducible apply oinv_next
    | with_reducible apply oinv_ite
    | split
    | (dsimp only; split)
    | refine inv_fst (by with_reducible assumption) ?_
    | refine inv_snd (by with_reducible assumption) ?_

theorem rteBody_inv {q : List Instr} : ∀ x0 x1 x2 s, Inv q s → PRes.Inv q (rteBody x0 x1 x2 s) := by
  intro x0 x1 x2 s h
  unfold rteBody
  repeat' first
    | with_reducible assumption
    | with_reducible intro _
    | with_reducible apply updPilot_inv
    | with_reducible apply flowPacket_inv
    | with_reducible apply takeRif_inv
    | with_reducible apply releaseClaims_inv
    | with_reducible apply inv_ite
    | with_reducible apply pinv_ite
    | with_reducible apply pinv_done
    | with_reducible apply pinv_trap
    | with_reducible apply pinv_brk
    | with_reducible apply pinv_stop
    | split
    | (dsimp only; split)
    | refine inv_fst (by with_reducible assumption) ?_
    | refine inv_snd (by with_reducible assumption) ?_
    | refine pinv_of_done (by with_reducible assumption) ?_
    | refine pinv_of_brk (by with_reducible assumption) ?_
    | refine pinv_of_trap (by with_reducible assumption) ?_
    | refine pinv_of_stop (by with_reducible assumption) ?_

theorem execRte_inv {q : List Instr} : ∀ x0 s, Inv q s → OInv q (execRte x0 s) := by
  intro x0 s h
  unfold execRte
  repeat' first
    | with_reducible assumption
    | with_reducible intro _
    | with_reducible apply ctlRrr_inv
    | with_reducible apply rteBody_inv
    | with_reducible apply inv_ite
    | with_reducible apply oinv_next
    | with_reducible apply oinv_ite
    | split
    | (dsimp only; split)
    | refine inv_fst (by with_reducible assumption) ?_
    | refine inv_snd (by with_reducible assumption) ?_

theorem execBank_inv {q : List Instr} : ∀ x0 s, Inv q s → OInv q (execBank x0 s) := by
  intro x0 s h
  unfold execBank
  repeat' first
    | with_reducible assumption
    | with_reducible intro _
    | with_reducible apply rrr_inv
    | with_reducible apply updPilot_inv
    | with_reducible apply inv_ite
    | with_reducible apply pinv_ite
    | with_reducible apply pinv_done
    | with_reducible apply pinv_trap
    | with_reducible apply pinv_brk
    | with_reducible apply pinv_stop
    | with_reducible apply oinv_next
    | with_reducible apply oinv_ite
    | split
    | (dsimp only; split)
    | refine inv_fst (by with_reducible assumption) ?_
    | refine inv_snd (by with_reducible assumption) ?_
    | refine pinv_of_done (by with_reducible assumption) ?_
    | refine pinv_of_brk (by with_reducible assumption) ?_
    | refine pinv_of_trap (by with_reducible assumption) ?_
    | refine pinv_of_stop (by with_reducible assumption) ?_

theorem execBkpt_inv {q : List Instr} : ∀ x0 s, Inv q s → OInv q (execBkpt x0 s) := by
  intro x0 s h
  unfold execBkpt
  repeat' first
    | with_reducible assumption
    | with_reducible intro _
    | with_reducible apply rrr_inv
    | with_reducible apply inv_ite
    | with_reducible apply pinv_ite
    | with_reducible apply pinv_done
    | with_reducible apply pinv_trap
    | with_reducible apply pinv_brk
    | with_reducible apply pinv_stop
    | with_reducible apply oinv_next
    | with_reducible apply oinv_ite
    | split
    | (dsimp only; split)
    | refine inv_fst (by with_reducible assumption) ?_
    | refine inv_snd (by with_reducible assumption) ?_
    | refine pinv_of_done (by with_reducible assumption) ?_
    | refine pinv_of_brk (by with_reducible assumption) ?_
    | refine pinv_of_trap (by with_reducible assumption) ?_
    | refine pinv_of_stop (by with_reducible assumption) ?_

end Sys2Proof.Machine
end

