-- ==== Sys2Proof/Laws/InvMirrorOut.lean ====
section
/-! SUPPORT. Laws/InvMirrorOut.lean: every function of Machine/MirrorOut.lean keeps the invariant of a sound state. -/

namespace Sys2Proof.Machine

theorem queueRec_inv {q : List Instr} : ∀ s x1 x2 x3, Inv q s → Inv q (queueRec s x1 x2 x3) := by
  intro s x1 x2 x3 h
  unfold queueRec
  repeat' first
    | with_reducible assumption
    | with_reducible intro _
    | with_reducible apply updTw_inv
    | with_reducible apply inv_ite
    | split
    | (dsimp only; split)
    | refine inv_fst (by with_reducible assumption) ?_
    | refine inv_snd (by with_reducible assumption) ?_
    | with_reducible apply Inv.mk_plain
    | (dsimp only; with_reducible apply Inv.mk_plain)

theorem mirrorPoint_inv {q : List Instr} : ∀ s x1 x2 x3, Inv q s → Inv q (mirrorPoint s x1 x2 x3) := by
  intro s x1 x2 x3 h
  unfold mirrorPoint
  repeat' first
    | with_reducible assumption
    | with_reducible intro _
    | with_reducible apply setOwn_inv
    | with_reducible apply queueRec_inv
    | with_reducible apply inv_ite
    | split
    | (dsimp only; split)
    | refine inv_fst (by with_reducible assumption) ?_
    | refine inv_snd (by with_reducible assumption) ?_
    | with_reducible apply Inv.mk_plain
    | (dsimp only; with_reducible apply Inv.mk_plain)

theorem sendRingState_inv {q : List Instr} : ∀ s x1, Inv q s → Inv q (sendRingState s x1) := by
  intro s x1 h
  unfold sendRingState
  repeat' first
    | with_reducible assumption
    | with_reducible intro _
    | with_reducible apply queueRec_inv
    | with_reducible apply inv_ite
    | split
    | (dsimp only; split)
    | refine inv_fst (by with_reducible assumption) ?_
    | refine inv_snd (by with_reducible assumption) ?_

theorem markPlaced_inv {q : List Instr} : ∀ s x1, Inv q s → Inv q (markPlaced s x1) := by
  intro s x1 h
  unfold markPlaced
  repeat' first
    | with_reducible assumption
    | with_reducible intro _
    | with_reducible apply updXctx_inv
    | with_reducible apply inv_ite
    | split
    | (dsimp only; split)
    | refine inv_fst (by with_reducible assumption) ?_
    | refine inv_snd (by with_reducible assumption) ?_

theorem gleaningEnd_inv {q : List Instr} : ∀ s, Inv q s → Inv q (gleaningEnd s) := by
  intro s h
  unfold gleaningEnd
  repeat' first
    | with_reducible assumption
    | with_reducible intro _
    | with_reducible apply raise_inv
    | with_reducible apply updTw_inv
    | with_reducible apply inv_ite
    | split
    | (dsimp only; split)
    | refine inv_fst (by with_reducible assumption) ?_
    | refine inv_snd (by with_reducible assumption) ?_
    | with_reducible apply Inv.mk_plain
    | (dsimp only; with_reducible apply Inv.mk_plain)

theorem takeoverEnd_inv {q : List Instr} : ∀ s, Inv q s → Inv q (takeoverEnd s) := by
  intro s h
  unfold takeoverEnd
  repeat' first
    | with_reducible assumption
    | with_reducible intro _
    | with_reducible apply gleaningEnd_inv
    | with_reducible apply setMode_inv
    | exact Or.inr rfl
    | exact Or.inl rfl
    | with_reducible apply inv_ite
    | split
    | (dsimp only; split)
    | refine inv_fst (by with_reducible assumption) ?_
    | refine inv_snd (by with_reducible assumption) ?_

end Sys2Proof.Machine
end

