-- ==== Sys2Proof/Laws/InvRingCore.lean ====
section
/-! SUPPORT. Laws/InvRingCore.lean: every function of Machine/RingCore.lean keeps the invariant of a sound state. -/

namespace Sys2Proof.Machine

theorem advanceCons_inv {q : List Instr} : ∀ s x1, Inv q s → Inv q (advanceCons s x1) := by
  intro s x1 h
  unfold advanceCons
  repeat' first
    | with_reducible assumption
    | with_reducible intro _
    | with_reducible apply setRing_inv
    | with_reducible apply inv_ite
    | split
    | (dsimp only; split)
    | refine inv_fst (by with_reducible assumption) ?_
    | refine inv_snd (by with_reducible assumption) ?_

theorem dispose_inv {q : List Instr} : ∀ s x1 x2 x3 x4, Inv q s → Inv q (dispose s x1 x2 x3 x4) := by
  intro s x1 x2 x3 x4 h
  unfold dispose
  repeat' first
    | with_reducible assumption
    | with_reducible intro _
    | with_reducible apply advanceCons_inv
    | with_reducible apply updRing_inv
    | with_reducible apply inv_ite
    | split
    | (dsimp only; split)
    | refine inv_fst (by with_reducible assumption) ?_
    | refine inv_snd (by with_reducible assumption) ?_

theorem takeSlot_inv {q : List Instr} : ∀ s x1 x2 x3, Inv q s → Inv q (takeSlot s x1 x2 x3) := by
  intro s x1 x2 x3 h
  unfold takeSlot
  repeat' first
    | with_reducible assumption
    | with_reducible intro _
    | with_reducible apply updRing_inv
    | with_reducible apply inv_ite
    | split
    | (dsimp only; split)
    | refine inv_fst (by with_reducible assumption) ?_
    | refine inv_snd (by with_reducible assumption) ?_

theorem sendMsi_inv {q : List Instr} : ∀ s x1, Inv q s → Inv q (sendMsi s x1) := by
  intro s x1 h
  unfold sendMsi
  repeat' first
    | with_reducible assumption
    | with_reducible intro _
    | with_reducible apply setRing_inv
    | with_reducible apply emit_inv
    | with_reducible apply inv_ite
    | split
    | (dsimp only; split)
    | refine inv_fst (by with_reducible assumption) ?_
    | refine inv_snd (by with_reducible assumption) ?_

theorem notifyNow_inv {q : List Instr} : ∀ s x1, Inv q s → Inv q (notifyNow s x1) := by
  intro s x1 h
  unfold notifyNow
  repeat' first
    | with_reducible assumption
    | with_reducible intro _
    | with_reducible apply setRing_inv
    | with_reducible apply sendMsi_inv
    | with_reducible apply inv_ite
    | split
    | (dsimp only; split)
    | refine inv_fst (by with_reducible assumption) ?_
    | refine inv_snd (by with_reducible assumption) ?_

theorem notify_inv {q : List Instr} : ∀ s x1, Inv q s → Inv q (notify s x1) := by
  intro s x1 h
  unfold notify
  repeat' first
    | with_reducible assumption
    | with_reducible intro _
    | with_reducible apply updRing_inv
    | with_reducible apply notifyNow_inv
    | with_reducible apply inv_ite
    | split
    | (dsimp only; split)
    | refine inv_fst (by with_reducible assumption) ?_
    | refine inv_snd (by with_reducible assumption) ?_

theorem writeRec_inv {q : List Instr} : ∀ s x1 x2, Inv q s → Inv q (writeRec s x1 x2) := by
  intro s x1 x2 h
  unfold writeRec
  repeat' first
    | with_reducible assumption
    | with_reducible intro _
    | with_reducible apply emit_inv
    | with_reducible apply notify_inv
    | with_reducible apply setRing_inv
    | with_reducible apply inv_ite
    | with_reducible refine inv_foldr (fun _ _ _ => ?_) _ _ ?_
    | split
    | (dsimp only; split)
    | refine inv_fst (by with_reducible assumption) ?_
    | refine inv_snd (by with_reducible assumption) ?_

theorem endX_inv {q : List Instr} : ∀ s x1 x2 x3 x4, Inv q s → Inv q (endX s x1 x2 x3 x4) := by
  intro s x1 x2 x3 x4 h
  unfold endX
  repeat' first
    | with_reducible assumption
    | with_reducible intro _
    | with_reducible apply updOwn_inv
    | with_reducible apply unhold_inv
    | with_reducible apply updXctx_inv
    | with_reducible apply inv_ite
    | split
    | (dsimp only; split)
    | refine inv_fst (by with_reducible assumption) ?_
    | refine inv_snd (by with_reducible assumption) ?_

theorem drainRecs_inv {q : List Instr} : ∀ x0 s x2, Inv q s → Inv q (drainRecs x0 s x2) := by
  intro x0 s x2
  induction x0 generalizing s x2 with
  | zero => intro h; exact h
  | succ k ih =>
    intro h
    unfold drainRecs
    try dsimp only
    repeat' first
      | with_reducible assumption
      | with_reducible intro _
      | with_reducible apply writeRec_inv
      | with_reducible apply updXctx_inv
      | with_reducible apply updOwn_inv
      | with_reducible apply endX_inv
      | with_reducible apply ih
      | with_reducible apply inv_ite
      | split
      | (dsimp only; split)
      | refine inv_fst (by with_reducible assumption) ?_
      | refine inv_snd (by with_reducible assumption) ?_

theorem drainRing_inv {q : List Instr} : ∀ s x1, Inv q s → Inv q (drainRing s x1) := by
  intro s x1 h
  unfold drainRing
  repeat' first
    | with_reducible assumption
    | with_reducible intro _
    | with_reducible apply drainRecs_inv
    | with_reducible apply inv_ite
    | split
    | (dsimp only; split)
    | refine inv_fst (by with_reducible assumption) ?_
    | refine inv_snd (by with_reducible assumption) ?_

theorem progressRec_inv {q : List Instr} : ∀ s x1, Inv q s → Inv q (progressRec s x1) := by
  intro s x1 h
  unfold progressRec
  repeat' first
    | with_reducible assumption
    | with_reducible intro _
    | with_reducible apply setOwn_inv
    | with_reducible apply drainRing_inv
    | with_reducible apply takeSlot_inv
    | with_reducible apply inv_ite
    | split
    | (dsimp only; split)
    | refine inv_fst (by with_reducible assumption) ?_
    | refine inv_snd (by with_reducible assumption) ?_

end Sys2Proof.Machine
end

