-- ==== Sys2Proof/Laws/InvModes.lean ====
section
/-! SUPPORT. Laws/InvModes.lean: every function of Machine/Modes.lean keeps the invariant of a sound state. -/

namespace Sys2Proof.Machine

theorem wipeBanks_inv {q : List Instr} : ∀ s x1, Inv q s → Inv q (wipeBanks s x1) := by
  intro s x1 h
  unfold wipeBanks
  repeat' first
    | with_reducible assumption
    | with_reducible intro _
    | with_reducible apply inv_ite
    | split
    | (dsimp only; split)
    | refine inv_fst (by with_reducible assumption) ?_
    | refine inv_snd (by with_reducible assumption) ?_
    | with_reducible apply Inv.mk_plain
    | with_reducible refine Inv.mk_cellar ?_ (by first | exact id | exact Table.wf_put _ _ _ _ | exact Table.wf_upd _ _ _ _ | exact Table.wf_mapVals _ _ _ | exact Table.wf_putList _ _ _ _ | exact Table.wf_filter _ _ _ | exact fun h => Table.wf_put _ _ _ _ (Table.wf_put _ _ _ _ h) | exact fun _ => rfl)
    | (dsimp only; with_reducible apply Inv.mk_plain)
    | (dsimp only; with_reducible refine Inv.mk_cellar ?_ (by first | exact id | exact Table.wf_put _ _ _ _ | exact Table.wf_upd _ _ _ _ | exact Table.wf_mapVals _ _ _ | exact Table.wf_putList _ _ _ _ | exact Table.wf_filter _ _ _ | exact fun h => Table.wf_put _ _ _ _ (Table.wf_put _ _ _ _ h) | exact fun _ => rfl))

theorem wipeSealed_inv {q : List Instr} : ∀ s, Inv q s → Inv q (wipeSealed s) := by
  intro s h
  unfold wipeSealed
  repeat' first
    | with_reducible assumption
    | with_reducible intro _
    | with_reducible apply wipeBanks_inv
    | with_reducible apply inv_ite
    | split
    | (dsimp only; split)
    | refine inv_fst (by with_reducible assumption) ?_
    | refine inv_snd (by with_reducible assumption) ?_

theorem setTstate_inv {q : List Instr} : ∀ s x1, Inv q s → Inv q (setTstate s x1) := by
  intro s x1 h
  unfold setTstate
  repeat' first
    | with_reducible assumption
    | with_reducible intro _
    | with_reducible apply raise_inv
    | with_reducible apply inv_ite
    | split
    | (dsimp only; split)
    | refine inv_fst (by with_reducible assumption) ?_
    | refine inv_snd (by with_reducible assumption) ?_
    | with_reducible apply Inv.mk_plain
    | (dsimp only; with_reducible apply Inv.mk_plain)

theorem quarNow_inv {q : List Instr} : ∀ s x1, Inv q s → Inv q (quarNow s x1) := by
  intro s x1 h
  unfold quarNow
  repeat' first
    | with_reducible assumption
    | with_reducible intro _
    | with_reducible apply setMode_inv
    | with_reducible apply wipeSealed_inv
    | with_reducible apply sampleLevel_inv
    | with_reducible apply updTw_inv
    | with_reducible apply setTstate_inv
    | exact Or.inr rfl
    | exact Or.inl rfl
    | with_reducible apply inv_ite
    | split
    | (dsimp only; split)
    | refine inv_fst (by with_reducible assumption) ?_
    | refine inv_snd (by with_reducible assumption) ?_
    | with_reducible apply Inv.mk_plain
    | (dsimp only; with_reducible apply Inv.mk_plain)
    | (refine Inv.mk_blk ?_ (by exact id))

theorem quarantine_inv {q : List Instr} : ∀ s x1, Inv q s → Inv q (quarantine s x1) := by
  intro s x1 h
  unfold quarantine
  repeat' first
    | with_reducible assumption
    | with_reducible intro _
    | with_reducible apply quarNow_inv
    | with_reducible apply startWake_inv
    | with_reducible apply inv_ite
    | split
    | (dsimp only; split)
    | refine inv_fst (by with_reducible assumption) ?_
    | refine inv_snd (by with_reducible assumption) ?_
    | with_reducible apply Inv.mk_plain
    | (dsimp only; with_reducible apply Inv.mk_plain)

theorem disableRings_inv {q : List Instr} : ∀ s, Inv q s → Inv q (disableRings s) := by
  intro s h
  unfold disableRings
  repeat' first
    | with_reducible assumption
    | with_reducible intro _
    | with_reducible apply sampleLevel_inv
    | with_reducible apply inv_ite
    | split
    | (dsimp only; split)
    | refine inv_fst (by with_reducible assumption) ?_
    | refine inv_snd (by with_reducible assumption) ?_
    | with_reducible apply Inv.mk_plain
    | with_reducible refine Inv.mk_rings ?_ (by first | exact id | exact Table.wf_put _ _ _ _ | exact Table.wf_upd _ _ _ _ | exact Table.wf_mapVals _ _ _ | exact Table.wf_putList _ _ _ _ | exact Table.wf_filter _ _ _ | exact fun h => Table.wf_put _ _ _ _ (Table.wf_put _ _ _ _ h) | exact fun _ => rfl)
    | (dsimp only; with_reducible apply Inv.mk_plain)
    | (dsimp only; with_reducible refine Inv.mk_rings ?_ (by first | exact id | exact Table.wf_put _ _ _ _ | exact Table.wf_upd _ _ _ _ | exact Table.wf_mapVals _ _ _ | exact Table.wf_putList _ _ _ _ | exact Table.wf_filter _ _ _ | exact fun h => Table.wf_put _ _ _ _ (Table.wf_put _ _ _ _ h) | exact fun _ => rfl))

theorem selRoot_inv {q : List Instr} : ∀ s, Inv q s → Inv q (selRoot s) := by
  intro s h
  unfold selRoot
  repeat' first
    | with_reducible assumption
    | with_reducible intro _
    | with_reducible apply inv_ite
    | split
    | (dsimp only; split)
    | refine inv_fst (by with_reducible assumption) ?_
    | refine inv_snd (by with_reducible assumption) ?_
    | with_reducible apply Inv.mk_plain
    | with_reducible refine Inv.mk_csrc ?_ (by first | exact id | exact Table.wf_put _ _ _ _ | exact Table.wf_upd _ _ _ _ | exact Table.wf_mapVals _ _ _ | exact Table.wf_putList _ _ _ _ | exact Table.wf_filter _ _ _ | exact fun h => Table.wf_put _ _ _ _ (Table.wf_put _ _ _ _ h) | exact fun _ => rfl)
    | (dsimp only; with_reducible apply Inv.mk_plain)
    | (dsimp only; with_reducible refine Inv.mk_csrc ?_ (by first | exact id | exact Table.wf_put _ _ _ _ | exact Table.wf_upd _ _ _ _ | exact Table.wf_mapVals _ _ _ | exact Table.wf_putList _ _ _ _ | exact Table.wf_filter _ _ _ | exact fun h => Table.wf_put _ _ _ _ (Table.wf_put _ _ _ _ h) | exact fun _ => rfl))

theorem maintNow_inv {q : List Instr} : ∀ s x1, Inv q s → Inv q (maintNow s x1) := by
  intro s x1 h
  unfold maintNow
  repeat' first
    | with_reducible assumption
    | with_reducible intro _
    | with_reducible apply selRoot_inv
    | with_reducible apply disableRings_inv
    | with_reducible apply setMode_inv
    | with_reducible apply updTw_inv
    | with_reducible apply wipeSealed_inv
    | exact Or.inr rfl
    | exact Or.inl rfl
    | with_reducible apply inv_ite
    | split
    | (dsimp only; split)
    | refine inv_fst (by with_reducible assumption) ?_
    | refine inv_snd (by with_reducible assumption) ?_
    | with_reducible apply Inv.mk_plain
    | (dsimp only; with_reducible apply Inv.mk_plain)

theorem maintTrigger_inv {q : List Instr} : ∀ s x1, Inv q s → Inv q (maintTrigger s x1) := by
  intro s x1 h
  unfold maintTrigger
  repeat' first
    | with_reducible assumption
    | with_reducible intro _
    | with_reducible apply startWake_inv
    | with_reducible apply maintNow_inv
    | with_reducible apply inv_ite
    | split
    | (dsimp only; split)
    | refine inv_fst (by with_reducible assumption) ?_
    | refine inv_snd (by with_reducible assumption) ?_
    | with_reducible apply Inv.mk_plain
    | (dsimp only; with_reducible apply Inv.mk_plain)

end Sys2Proof.Machine
end

