-- ==== Sys2Proof/Laws/InvExchange.lean ====
section
/-! SUPPORT. Laws/InvExchange.lean: every function of Machine/Exchange.lean keeps the invariant of a sound state. -/

namespace Sys2Proof.Machine

theorem failWord_inv {q : List Instr} : ∀ s x1 x2 x3 x4, Inv q s → Inv q (failWord s x1 x2 x3 x4) := by
  intro s x1 x2 x3 x4 h
  unfold failWord
  repeat' first
    | with_reducible assumption
    | with_reducible intro _
    | with_reducible apply endX_inv
    | with_reducible apply updOwn_inv
    | with_reducible apply inv_ite
    | split
    | (dsimp only; split)
    | refine inv_fst (by with_reducible assumption) ?_
    | refine inv_snd (by with_reducible assumption) ?_

theorem endWord_inv {q : List Instr} : ∀ s x1 x2 x3 x4 x5 x6, Inv q s → Inv q (endWord s x1 x2 x3 x4 x5 x6) := by
  intro s x1 x2 x3 x4 x5 x6 h
  unfold endWord
  repeat' first
    | with_reducible assumption
    | with_reducible intro _
    | with_reducible apply updOwn_inv
    | with_reducible apply updXctx_inv
    | with_reducible apply progressRec_inv
    | with_reducible apply endX_inv
    | with_reducible apply takeoverEnd_inv
    | with_reducible apply updRing_inv
    | with_reducible apply fetchWord_inv
    | with_reducible apply inv_ite
    | split
    | (dsimp only; split)
    | refine inv_fst (by with_reducible assumption) ?_
    | refine inv_snd (by with_reducible assumption) ?_

theorem runWord_inv {q : List Instr} : ∀ s x1 x2, Inv q s → Inv q (runWord s x1 x2) := by
  intro s x1 x2 h
  unfold runWord
  repeat' first
    | with_reducible assumption
    | with_reducible intro _
    | with_reducible apply updXctx_inv
    | with_reducible apply endWord_inv
    | with_reducible apply updOwn_inv
    | with_reducible apply endX_inv
    | with_reducible apply failWord_inv
    | with_reducible apply hostFetch_inv
    | with_reducible apply inv_ite
    | split
    | (dsimp only; split)
    | refine inv_fst (by with_reducible assumption) ?_
    | refine inv_snd (by with_reducible assumption) ?_

theorem fetchList_inv {q : List Instr} : ∀ s x1 x2 x3, Inv q s → Inv q (fetchList s x1 x2 x3) := by
  intro s x1 x2 x3 h
  unfold fetchList
  repeat' first
    | with_reducible assumption
    | with_reducible intro _
    | with_reducible apply hostFetch_inv
    | with_reducible apply inv_ite
    | split
    | (dsimp only; split)
    | refine inv_fst (by with_reducible assumption) ?_
    | refine inv_snd (by with_reducible assumption) ?_

theorem startWord_inv {q : List Instr} : ∀ s x1 x2, Inv q s → Inv q (startWord s x1 x2) := by
  intro s x1 x2 h
  unfold startWord
  repeat' first
    | with_reducible assumption
    | with_reducible intro _
    | with_reducible apply fetchList_inv
    | with_reducible apply updXctx_inv
    | with_reducible apply failWord_inv
    | with_reducible apply runWord_inv
    | with_reducible apply inv_ite
    | split
    | (dsimp only; split)
    | refine inv_fst (by with_reducible assumption) ?_
    | refine inv_snd (by with_reducible assumption) ?_

theorem endPre_inv {q : List Instr} : ∀ s x1 x2 x3, Inv q s → Inv q (endPre s x1 x2 x3) := by
  intro s x1 x2 x3 h
  unfold endPre
  repeat' first
    | with_reducible assumption
    | with_reducible intro _
    | with_reducible apply endX_inv
    | with_reducible apply updOwn_inv
    | with_reducible apply inv_ite
    | split
    | (dsimp only; split)
    | refine inv_fst (by with_reducible assumption) ?_
    | refine inv_snd (by with_reducible assumption) ?_

theorem endUnknown_inv {q : List Instr} : ∀ s x1, Inv q s → Inv q (endUnknown s x1) := by
  intro s x1 h
  unfold endUnknown
  repeat' first
    | with_reducible assumption
    | with_reducible intro _
    | with_reducible apply endX_inv
    | with_reducible apply updOwn_inv
    | with_reducible apply inv_ite
    | split
    | (dsimp only; split)
    | refine inv_fst (by with_reducible assumption) ?_
    | refine inv_snd (by with_reducible assumption) ?_
    | with_reducible apply Inv.mk_plain
    | (dsimp only; with_reducible apply Inv.mk_plain)

theorem failPre_inv {q : List Instr} : ∀ s x1 x2 x3, Inv q s → Inv q (failPre s x1 x2 x3) := by
  intro s x1 x2 x3 h
  unfold failPre
  repeat' first
    | with_reducible assumption
    | with_reducible intro _
    | with_reducible apply endUnknown_inv
    | with_reducible apply endPre_inv
    | with_reducible apply inv_ite
    | split
    | (dsimp only; split)
    | refine inv_fst (by with_reducible assumption) ?_
    | refine inv_snd (by with_reducible assumption) ?_

theorem preWord_inv {q : List Instr} : ∀ s x1 x2 x3 x4, Inv q s → Inv q (preWord s x1 x2 x3 x4) := by
  intro s x1 x2 x3 x4 h
  unfold preWord
  repeat' first
    | with_reducible assumption
    | with_reducible intro _
    | with_reducible apply failPre_inv
    | with_reducible apply fetchList_inv
    | with_reducible apply updXctx_inv
    | with_reducible apply endUnknown_inv
    | with_reducible apply fetchWord_inv
    | with_reducible apply inv_ite
    | split
    | (dsimp only; split)
    | refine inv_fst (by with_reducible assumption) ?_
    | refine inv_snd (by with_reducible assumption) ?_

theorem gotList_inv {q : List Instr} : ∀ s x1 x2, Inv q s → Inv q (gotList s x1 x2) := by
  intro s x1 x2 h
  unfold gotList
  repeat' first
    | with_reducible assumption
    | with_reducible intro _
    | with_reducible apply failWord_inv
    | with_reducible apply fetchList_inv
    | with_reducible apply updXctx_inv
    | with_reducible apply startWord_inv
    | with_reducible apply failPre_inv
    | with_reducible apply preWord_inv
    | with_reducible apply inv_ite
    | split
    | (dsimp only; split)
    | refine inv_fst (by with_reducible assumption) ?_
    | refine inv_snd (by with_reducible assumption) ?_

theorem gotWord_inv {q : List Instr} : ∀ s x1 x2 x3, Inv q s → Inv q (gotWord s x1 x2 x3) := by
  intro s x1 x2 x3 h
  unfold gotWord
  repeat' first
    | with_reducible assumption
    | with_reducible intro _
    | with_reducible apply preWord_inv
    | with_reducible apply updOwn_inv
    | with_reducible apply startWord_inv
    | with_reducible apply inv_ite
    | split
    | (dsimp only; split)
    | refine inv_fst (by with_reducible assumption) ?_
    | refine inv_snd (by with_reducible assumption) ?_

theorem hostFault_inv {q : List Instr} : ∀ s x1, Inv q s → Inv q (hostFault s x1) := by
  intro s x1 h
  unfold hostFault
  repeat' first
    | with_reducible assumption
    | with_reducible intro _
    | with_reducible apply failWord_inv
    | with_reducible apply endUnknown_inv
    | with_reducible apply endPre_inv
    | with_reducible apply inv_ite
    | split
    | (dsimp only; split)
    | refine inv_fst (by with_reducible assumption) ?_
    | refine inv_snd (by with_reducible assumption) ?_

theorem gotKey_inv {q : List Instr} : ∀ s x1 x2, Inv q s → Inv q (gotKey s x1 x2) := by
  intro s x1 x2 h
  unfold gotKey
  repeat' first
    | with_reducible assumption
    | with_reducible intro _
    | with_reducible apply updXctx_inv
    | with_reducible apply inv_ite
    | with_reducible refine inv_foldr (fun _ _ _ => ?_) _ _ ?_
    | split
    | (dsimp only; split)
    | refine inv_fst (by with_reducible assumption) ?_
    | refine inv_snd (by with_reducible assumption) ?_

theorem quayDrop_inv {q : List Instr} : ∀ s c t, quayDrop s c = some t → Inv q s → Inv q t := by
  intro s c t e h
  unfold quayDrop at e
  dsimp only at e
  split at e
  · cases e
  · cases e
    exact Inv.mk_plain h

theorem execQuayCompletion_inv {q : List Instr} : ∀ x0 x1 s, Inv q s → OInv q (execQuayCompletion x0 x1 s) := by
  intro x0 x1 s h
  unfold execQuayCompletion
  repeat' first
    | with_reducible assumption
    | with_reducible intro _
    | with_reducible apply endX_inv
    | with_reducible apply hostFault_inv
    | with_reducible apply gotWord_inv
    | with_reducible apply gotList_inv
    | with_reducible apply gotKey_inv
    | exact quayDrop_inv _ _ _ (by assumption) h
    | with_reducible apply inv_ite
    | with_reducible apply oinv_next
    | with_reducible apply oinv_ite
    | split
    | (dsimp only; split)
    | refine inv_fst (by with_reducible assumption) ?_
    | refine inv_snd (by with_reducible assumption) ?_

end Sys2Proof.Machine
end

