-- ==== Sys2Proof/Laws/InvPlaciaOut.lean ====
section
/-! SUPPORT. Laws/InvPlaciaOut.lean: every function of Machine/PlaciaOut.lean keeps the invariant of a sound state. -/

namespace Sys2Proof.Machine

theorem putFrame_inv {q : List Instr} : ∀ s x1 x2 x3, Inv q s → Inv q (putFrame s x1 x2 x3) := by
  intro s x1 x2 x3 h
  unfold putFrame
  repeat' first
    | with_reducible assumption
    | with_reducible intro _
    | with_reducible apply emit_inv
    | with_reducible apply inv_ite
    | split
    | (dsimp only; split)
    | refine inv_fst (by with_reducible assumption) ?_
    | refine inv_snd (by with_reducible assumption) ?_

theorem sendU_inv {q : List Instr} : ∀ s x1 x2 x3 x4, Inv q s → Inv q (sendU s x1 x2 x3 x4) := by
  intro s x1 x2 x3 x4 h
  unfold sendU
  repeat' first
    | with_reducible assumption
    | with_reducible intro _
    | with_reducible apply putFrame_inv
    | with_reducible apply inv_ite
    | split
    | (dsimp only; split)
    | refine inv_fst (by with_reducible assumption) ?_
    | refine inv_snd (by with_reducible assumption) ?_

theorem sendS_inv {q : List Instr} : ∀ s x1 x2 x3 x4, Inv q s → Inv q (sendS s x1 x2 x3 x4) := by
  intro s x1 x2 x3 x4 h
  unfold sendS
  repeat' first
    | with_reducible assumption
    | with_reducible intro _
    | with_reducible apply putFrame_inv
    | with_reducible apply setPath_inv
    | with_reducible apply inv_ite
    | split
    | (dsimp only; split)
    | refine inv_fst (by with_reducible assumption) ?_
    | refine inv_snd (by with_reducible assumption) ?_

theorem pumpLane_inv {q : List Instr} : ∀ x0 s x2 x3, Inv q s → Inv q (pumpLane x0 s x2 x3) := by
  intro x0 s x2 x3
  induction x0 generalizing s x2 x3 with
  | zero => intro h; exact h
  | succ k ih =>
    intro h
    unfold pumpLane
    try dsimp only
    repeat' first
      | with_reducible assumption
      | with_reducible intro _
      | with_reducible apply setPath_inv
      | with_reducible apply sendS_inv
      | with_reducible apply ih
      | with_reducible apply inv_ite
      | split
      | (dsimp only; split)
      | refine inv_fst (by with_reducible assumption) ?_
      | refine inv_snd (by with_reducible assumption) ?_

theorem laneSend_inv {q : List Instr} : ∀ s x1 x2 x3 x4, Inv q s → Inv q (laneSend s x1 x2 x3 x4) := by
  intro s x1 x2 x3 x4 h
  unfold laneSend
  repeat' first
    | with_reducible assumption
    | with_reducible intro _
    | with_reducible apply updPath_inv
    | with_reducible apply pumpLane_inv
    | with_reducible apply inv_ite
    | split
    | (dsimp only; split)
    | refine inv_fst (by with_reducible assumption) ?_
    | refine inv_snd (by with_reducible assumption) ?_

theorem sendCtrl_inv {q : List Instr} : ∀ s x1 x2 x3, Inv q s → Inv q (sendCtrl s x1 x2 x3) := by
  intro s x1 x2 x3 h
  unfold sendCtrl
  repeat' first
    | with_reducible assumption
    | with_reducible intro _
    | with_reducible apply laneSend_inv
    | with_reducible apply inv_ite
    | split
    | (dsimp only; split)
    | refine inv_fst (by with_reducible assumption) ?_
    | refine inv_snd (by with_reducible assumption) ?_

theorem sendAck_inv {q : List Instr} : ∀ s x1 x2, Inv q s → Inv q (sendAck s x1 x2) := by
  intro s x1 x2 h
  unfold sendAck
  repeat' first
    | with_reducible assumption
    | with_reducible intro _
    | with_reducible apply putFrame_inv
    | with_reducible apply setPath_inv
    | with_reducible apply inv_ite
    | split
    | (dsimp only; split)
    | refine inv_fst (by with_reducible assumption) ?_
    | refine inv_snd (by with_reducible assumption) ?_

end Sys2Proof.Machine
end

