-- ==== Sys2Proof/Laws/InvSlotCore.lean ====
section
/-! SUPPORT. Laws/InvSlotCore.lean: every function of Machine/SlotCore.lean keeps the invariant of a sound state. -/

namespace Sys2Proof.Machine

theorem settleBerths_inv {q : List Instr} : ∀ s, Inv q s → Inv q (settleBerths s) := by
  intro s h
  unfold settleBerths
  repeat' first
    | with_reducible assumption
    | with_reducible intro _
    | with_reducible apply inv_ite
    | split
    | (dsimp only; split)
    | refine inv_fst (by with_reducible assumption) ?_
    | refine inv_snd (by with_reducible assumption) ?_
    | with_reducible apply Inv.mk_plain
    | with_reducible refine Inv.mk_berths ?_ (by first | exact id | exact Table.wf_put _ _ _ _ | exact Table.wf_upd _ _ _ _ | exact Table.wf_mapVals _ _ _ | exact Table.wf_putList _ _ _ _ | exact Table.wf_filter _ _ _ | exact fun h => Table.wf_put _ _ _ _ (Table.wf_put _ _ _ _ h) | exact fun _ => rfl)
    | (dsimp only; with_reducible apply Inv.mk_plain)
    | (dsimp only; with_reducible refine Inv.mk_berths ?_ (by first | exact id | exact Table.wf_put _ _ _ _ | exact Table.wf_upd _ _ _ _ | exact Table.wf_mapVals _ _ _ | exact Table.wf_putList _ _ _ _ | exact Table.wf_filter _ _ _ | exact fun h => Table.wf_put _ _ _ _ (Table.wf_put _ _ _ _ h) | exact fun _ => rfl))

theorem slotOut_inv {q : List Instr} : ∀ s x1 x2 x3, Inv q s → Inv q (slotOut s x1 x2 x3) := by
  intro s x1 x2 x3 h
  unfold slotOut
  repeat' first
    | with_reducible assumption
    | with_reducible intro _
    | with_reducible apply setBerth_inv
    | with_reducible apply inv_ite
    | split
    | (dsimp only; split)
    | refine inv_fst (by with_reducible assumption) ?_
    | refine inv_snd (by with_reducible assumption) ?_

theorem queueOut_inv {q : List Instr} : ∀ s x1 x2, Inv q s → Inv q (queueOut s x1 x2) := by
  intro s x1 x2 h
  unfold queueOut
  repeat' first
    | with_reducible assumption
    | with_reducible intro _
    | with_reducible apply setDq_inv
    | with_reducible apply inv_ite
    | split
    | (dsimp only; split)
    | refine inv_fst (by with_reducible assumption) ?_
    | refine inv_snd (by with_reducible assumption) ?_

theorem cmdOff_inv {q : List Instr} : ∀ s x1 x2, Inv q s → Inv q (cmdOff s x1 x2) := by
  intro s x1 x2 h
  unfold cmdOff
  repeat' first
    | with_reducible assumption
    | with_reducible intro _
    | with_reducible apply slotOut_inv
    | with_reducible apply queueOut_inv
    | with_reducible apply inv_ite
    | split
    | (dsimp only; split)
    | refine inv_fst (by with_reducible assumption) ?_
    | refine inv_snd (by with_reducible assumption) ?_

theorem cmdWait_inv {q : List Instr} : ∀ s x1 x2 x3 x4 x5, Inv q s → Inv q (cmdWait s x1 x2 x3 x4 x5) := by
  intro s x1 x2 x3 x4 x5 h
  unfold cmdWait
  repeat' first
    | with_reducible assumption
    | with_reducible intro _
    | with_reducible apply cmdOff_inv
    | with_reducible apply setDcmd_inv
    | with_reducible apply inv_ite
    | split
    | (dsimp only; split)
    | refine inv_fst (by with_reducible assumption) ?_
    | refine inv_snd (by with_reducible assumption) ?_

theorem dropWaiting_inv {q : List Instr} : ∀ s x1, Inv q s → Inv q (dropWaiting s x1) := by
  intro s x1 h
  unfold dropWaiting
  repeat' first
    | with_reducible assumption
    | with_reducible intro _
    | with_reducible apply setDcmd_inv
    | with_reducible apply inv_ite
    | with_reducible refine inv_foldl (fun _ _ _ => ?_) _ _ ?_
    | split
    | (dsimp only; split)
    | refine inv_fst (by with_reducible assumption) ?_
    | refine inv_snd (by with_reducible assumption) ?_

theorem addWait_inv {q : List Instr} : ∀ s x1 x2, Inv q s → Inv q (addWait s x1 x2) := by
  intro s x1 x2 h
  unfold addWait
  repeat' first
    | with_reducible assumption
    | with_reducible intro _
    | with_reducible apply updOwn_inv
    | with_reducible apply updXctx_inv
    | with_reducible apply inv_ite
    | split
    | (dsimp only; split)
    | refine inv_fst (by with_reducible assumption) ?_
    | refine inv_snd (by with_reducible assumption) ?_

theorem pathChange_inv {q : List Instr} : ∀ s x1 x2, Inv q s → Inv q (pathChange s x1 x2) := by
  intro s x1 x2 h
  unfold pathChange
  repeat' first
    | with_reducible assumption
    | with_reducible intro _
    | with_reducible apply updXctx_inv
    | with_reducible apply inv_ite
    | split
    | (dsimp only; split)
    | refine inv_fst (by with_reducible assumption) ?_
    | refine inv_snd (by with_reducible assumption) ?_

theorem pathChanged_inv {q : List Instr} : ∀ s x1 x2 x3, Inv q s → Inv q (pathChanged s x1 x2 x3) := by
  intro s x1 x2 x3 h
  unfold pathChanged
  repeat' first
    | with_reducible assumption
    | with_reducible intro _
    | with_reducible apply updXctx_inv
    | with_reducible apply addWait_inv
    | with_reducible apply inv_ite
    | split
    | (dsimp only; split)
    | refine inv_fst (by with_reducible assumption) ?_
    | refine inv_snd (by with_reducible assumption) ?_

theorem addTakeoverWait_inv {q : List Instr} : ∀ s x1, Inv q s → Inv q (addTakeoverWait s x1) := by
  intro s x1 h
  unfold addTakeoverWait
  repeat' first
    | with_reducible assumption
    | with_reducible intro _
    | with_reducible apply updXctx_inv
    | with_reducible apply addWait_inv
    | with_reducible apply inv_ite
    | split
    | (dsimp only; split)
    | refine inv_fst (by with_reducible assumption) ?_
    | refine inv_snd (by with_reducible assumption) ?_

theorem failCur_inv {q : List Instr} : ∀ s x1 x2 x3 x4 x5, Inv q s → Inv q (failCur s x1 x2 x3 x4 x5) := by
  intro s x1 x2 x3 x4 x5 h
  unfold failCur
  repeat' first
    | with_reducible assumption
    | with_reducible intro _
    | with_reducible apply updOwn_inv
    | with_reducible apply dropWaiting_inv
    | with_reducible apply endX_inv
    | with_reducible apply inv_ite
    | split
    | (dsimp only; split)
    | refine inv_fst (by with_reducible assumption) ?_
    | refine inv_snd (by with_reducible assumption) ?_

theorem endSearch_inv {q : List Instr} : ∀ s x1 x2, Inv q s → Inv q (endSearch s x1 x2) := by
  intro s x1 x2 h
  unfold endSearch
  repeat' first
    | with_reducible assumption
    | with_reducible intro _
    | with_reducible apply failCur_inv
    | with_reducible apply updOwn_inv
    | with_reducible apply endWord_inv
    | with_reducible apply updXctx_inv
    | with_reducible apply inv_ite
    | split
    | (dsimp only; split)
    | refine inv_fst (by with_reducible assumption) ?_
    | refine inv_snd (by with_reducible assumption) ?_

theorem tryEnd_inv {q : List Instr} : ∀ s x1, Inv q s → Inv q (tryEnd s x1) := by
  intro s x1 h
  unfold tryEnd
  repeat' first
    | with_reducible assumption
    | with_reducible intro _
    | with_reducible apply endSearch_inv
    | with_reducible apply failCur_inv
    | with_reducible apply endWord_inv
    | with_reducible apply inv_ite
    | split
    | (dsimp only; split)
    | refine inv_fst (by with_reducible assumption) ?_
    | refine inv_snd (by with_reducible assumption) ?_

theorem sendRcpl_inv {q : List Instr} : ∀ s x1 x2 x3, Inv q s → Inv q (sendRcpl s x1 x2 x3) := by
  intro s x1 x2 x3 h
  unfold sendRcpl
  repeat' first
    | with_reducible assumption
    | with_reducible intro _
    | with_reducible apply laneSend_inv
    | with_reducible apply inv_ite
    | with_reducible refine inv_foldr (fun _ _ _ => ?_) _ _ ?_
    | split
    | (dsimp only; split)
    | refine inv_fst (by with_reducible assumption) ?_
    | refine inv_snd (by with_reducible assumption) ?_

theorem endServe_inv {q : List Instr} : ∀ s x1 x2 x3, Inv q s → Inv q (endServe s x1 x2 x3) := by
  intro s x1 x2 x3 h
  unfold endServe
  repeat' first
    | with_reducible assumption
    | with_reducible intro _
    | with_reducible apply sendRcpl_inv
    | with_reducible apply inv_ite
    | split
    | (dsimp only; split)
    | refine inv_fst (by with_reducible assumption) ?_
    | refine inv_snd (by with_reducible assumption) ?_
    | with_reducible apply Inv.mk_plain
    | with_reducible refine Inv.mk_serves ?_ (by first | exact id | exact Table.wf_put _ _ _ _ | exact Table.wf_upd _ _ _ _ | exact Table.wf_mapVals _ _ _ | exact Table.wf_putList _ _ _ _ | exact Table.wf_filter _ _ _ | exact fun h => Table.wf_put _ _ _ _ (Table.wf_put _ _ _ _ h) | exact fun _ => rfl)
    | (dsimp only; with_reducible apply Inv.mk_plain)
    | (dsimp only; with_reducible refine Inv.mk_serves ?_ (by first | exact id | exact Table.wf_put _ _ _ _ | exact Table.wf_upd _ _ _ _ | exact Table.wf_mapVals _ _ _ | exact Table.wf_putList _ _ _ _ | exact Table.wf_filter _ _ _ | exact fun h => Table.wf_put _ _ _ _ (Table.wf_put _ _ _ _ h) | exact fun _ => rfl))

theorem failServe_inv {q : List Instr} : ∀ s x1, Inv q s → Inv q (failServe s x1) := by
  intro s x1 h
  unfold failServe
  repeat' first
    | with_reducible assumption
    | with_reducible intro _
    | with_reducible apply endServe_inv
    | with_reducible apply inv_ite
    | split
    | (dsimp only; split)
    | refine inv_fst (by with_reducible assumption) ?_
    | refine inv_snd (by with_reducible assumption) ?_

theorem serveDone_inv {q : List Instr} : ∀ s x1, Inv q s → Inv q (serveDone s x1) := by
  intro s x1 h
  unfold serveDone
  repeat' first
    | with_reducible assumption
    | with_reducible intro _
    | with_reducible apply endServe_inv
    | with_reducible apply inv_ite
    | split
    | (dsimp only; split)
    | refine inv_fst (by with_reducible assumption) ?_
    | refine inv_snd (by with_reducible assumption) ?_
    | with_reducible apply Inv.mk_plain
    | with_reducible refine Inv.mk_serves ?_ (by first | exact id | exact Table.wf_put _ _ _ _ | exact Table.wf_upd _ _ _ _ | exact Table.wf_mapVals _ _ _ | exact Table.wf_putList _ _ _ _ | exact Table.wf_filter _ _ _ | exact fun h => Table.wf_put _ _ _ _ (Table.wf_put _ _ _ _ h) | exact fun _ => rfl)
    | (dsimp only; with_reducible apply Inv.mk_plain)
    | (dsimp only; with_reducible refine Inv.mk_serves ?_ (by first | exact id | exact Table.wf_put _ _ _ _ | exact Table.wf_upd _ _ _ _ | exact Table.wf_mapVals _ _ _ | exact Table.wf_putList _ _ _ _ | exact Table.wf_filter _ _ _ | exact fun h => Table.wf_put _ _ _ _ (Table.wf_put _ _ _ _ h) | exact fun _ => rfl))

theorem loseCmd_inv {q : List Instr} : ∀ s x1 x2 x3 x4, Inv q s → Inv q (loseCmd s x1 x2 x3 x4) := by
  intro s x1 x2 x3 x4 h
  unfold loseCmd
  repeat' first
    | with_reducible assumption
    | with_reducible intro _
    | with_reducible apply setDcmd_inv
    | with_reducible apply cmdOff_inv
    | with_reducible apply failServe_inv
    | with_reducible apply cmdWait_inv
    | with_reducible apply pathChange_inv
    | with_reducible apply lfree_inv
    | with_reducible apply inv_ite
    | split
    | (dsimp only; split)
    | refine inv_fst (by with_reducible assumption) ?_
    | refine inv_snd (by with_reducible assumption) ?_

theorem slotLoss_inv {q : List Instr} : ∀ s x1 x2 x3, Inv q s → Inv q (slotLoss s x1 x2 x3) := by
  intro s x1 x2 x3 h
  unfold slotLoss
  repeat' first
    | with_reducible assumption
    | with_reducible intro _
    | with_reducible apply loseCmd_inv
    | with_reducible apply inv_ite
    | with_reducible refine inv_foldl (fun _ _ _ => ?_) _ _ ?_
    | split
    | (dsimp only; split)
    | refine inv_fst (by with_reducible assumption) ?_
    | refine inv_snd (by with_reducible assumption) ?_

theorem countDowns_inv {q : List Instr} : ∀ s s1, Inv q s → Inv q s1 → Inv q (countDowns s s1) := by
  intro s s1 h h1
  unfold countDowns
  repeat' first
    | with_reducible assumption
    | with_reducible intro _
    | with_reducible apply inv_ite
    | split
    | (dsimp only; split)
    | refine inv_fst (by with_reducible assumption) ?_
    | refine inv_snd (by with_reducible assumption) ?_
    | with_reducible apply Inv.mk_plain
    | with_reducible refine Inv.mk_berths ?_ (by first | exact id | exact Table.wf_put _ _ _ _ | exact Table.wf_upd _ _ _ _ | exact Table.wf_mapVals _ _ _ | exact Table.wf_putList _ _ _ _ | exact Table.wf_filter _ _ _ | exact fun h => Table.wf_put _ _ _ _ (Table.wf_put _ _ _ _ h) | exact fun _ => rfl)
    | (dsimp only; with_reducible apply Inv.mk_plain)
    | (dsimp only; with_reducible refine Inv.mk_berths ?_ (by first | exact id | exact Table.wf_put _ _ _ _ | exact Table.wf_upd _ _ _ _ | exact Table.wf_mapVals _ _ _ | exact Table.wf_putList _ _ _ _ | exact Table.wf_filter _ _ _ | exact fun h => Table.wf_put _ _ _ _ (Table.wf_put _ _ _ _ h) | exact fun _ => rfl))

theorem reslot_inv {q : List Instr} : ∀ s s1, Inv q s → Inv q s1 → Inv q (reslot s s1) := by
  intro s s1 h h1
  unfold reslot
  repeat' first
    | with_reducible assumption
    | with_reducible intro _
    | with_reducible apply settleBerths_inv
    | with_reducible apply slotLoss_inv
    | with_reducible apply countDowns_inv
    | with_reducible apply raise_inv
    | with_reducible apply inv_ite
    | with_reducible refine inv_foldl (fun _ _ _ => ?_) _ _ ?_
    | split
    | (dsimp only; split)
    | refine inv_fst (by with_reducible assumption) ?_
    | refine inv_snd (by with_reducible assumption) ?_

theorem redriveX_inv {q : List Instr} : ∀ s x1, Inv q s → Inv q (redriveX s x1) := by
  intro s x1 h
  unfold redriveX
  repeat' first
    | with_reducible assumption
    | with_reducible intro _
    | with_reducible apply setOwn_inv
    | with_reducible apply setXctx_inv
    | with_reducible apply fetchWord_inv
    | with_reducible apply inv_ite
    | split
    | (dsimp only; split)
    | refine inv_fst (by with_reducible assumption) ?_
    | refine inv_snd (by with_reducible assumption) ?_
    | with_reducible apply Inv.mk_plain
    | (dsimp only; with_reducible apply Inv.mk_plain)

theorem settleX_inv {q : List Instr} : ∀ s x1 x2 x3 x4, Inv q s → Inv q (settleX s x1 x2 x3 x4) := by
  intro s x1 x2 x3 x4 h
  unfold settleX
  repeat' first
    | with_reducible assumption
    | with_reducible intro _
    | with_reducible apply dropWaiting_inv
    | with_reducible apply updOwn_inv
    | with_reducible apply redriveX_inv
    | with_reducible apply endX_inv
    | with_reducible apply addTakeoverWait_inv
    | with_reducible apply updXctx_inv
    | with_reducible apply endWord_inv
    | with_reducible apply inv_ite
    | split
    | (dsimp only; split)
    | refine inv_fst (by with_reducible assumption) ?_
    | refine inv_snd (by with_reducible assumption) ?_
    | with_reducible apply Inv.mk_plain
    | (dsimp only; with_reducible apply Inv.mk_plain)

theorem doorbell_inv {q : List Instr} : ∀ s x1 x2 x3 x4, Inv q s → Inv q (doorbell s x1 x2 x3 x4) := by
  intro s x1 x2 x3 x4 h
  unfold doorbell
  repeat' first
    | with_reducible assumption
    | with_reducible intro _
    | with_reducible apply emit_inv
    | with_reducible apply inv_ite
    | split
    | (dsimp only; split)
    | refine inv_fst (by with_reducible assumption) ?_
    | refine inv_snd (by with_reducible assumption) ?_

theorem adminCmd_inv {q : List Instr} : ∀ s x1 x2 x3 x4 x5 x6 x7 x8, Inv q s → Inv q (adminCmd s x1 x2 x3 x4 x5 x6 x7 x8) := by
  intro s x1 x2 x3 x4 x5 x6 x7 x8 h
  unfold adminCmd
  repeat' first
    | with_reducible assumption
    | with_reducible intro _
    | with_reducible apply emit_inv
    | with_reducible apply setCtl_inv
    | with_reducible apply doorbell_inv
    | with_reducible apply inv_ite
    | split
    | (dsimp only; split)
    | refine inv_fst (by with_reducible assumption) ?_
    | refine inv_snd (by with_reducible assumption) ?_

theorem ringSq_inv {q : List Instr} : ∀ s x1 x2, Inv q s → Inv q (ringSq s x1 x2) := by
  intro s x1 x2 h
  unfold ringSq
  repeat' first
    | with_reducible assumption
    | with_reducible intro _
    | with_reducible apply setDq_inv
    | with_reducible apply doorbell_inv
    | with_reducible apply inv_ite
    | split
    | (dsimp only; split)
    | refine inv_fst (by with_reducible assumption) ?_
    | refine inv_snd (by with_reducible assumption) ?_

theorem partEnd_inv {q : List Instr} : ∀ s x1 x2 x3 x4, Inv q s → Inv q (partEnd s x1 x2 x3 x4) := by
  intro s x1 x2 x3 x4 h
  unfold partEnd
  repeat' first
    | with_reducible assumption
    | with_reducible intro _
    | with_reducible apply setDcmd_inv
    | with_reducible apply updOwn_inv
    | with_reducible apply updXctx_inv
    | with_reducible apply tryEnd_inv
    | with_reducible apply inv_ite
    | with_reducible apply pinv_ite
    | with_reducible apply pinv_done
    | with_reducible apply pinv_trap
    | with_reducible apply pinv_brk
    | with_reducible apply pinv_stop
    | split
    | (dsimp only; split)
    | refine inv_fst (by with_reducible assumption) ?_
    | refine inv_snd (by with_reducible assumption) ?_
    | refine pinv_of_done (by with_reducible assumption) ?_
    | refine pinv_of_brk (by with_reducible assumption) ?_
    | refine pinv_of_trap (by with_reducible assumption) ?_
    | refine pinv_of_stop (by with_reducible assumption) ?_

theorem partDone_inv {q : List Instr} : ∀ s x1 x2 x3 x4, Inv q s → Inv q (partDone s x1 x2 x3 x4) := by
  intro s x1 x2 x3 x4 h
  unfold partDone
  repeat' first
    | with_reducible assumption
    | with_reducible intro _
    | with_reducible apply partEnd_inv
    | with_reducible apply cmdOff_inv
    | with_reducible apply inv_ite
    | split
    | (dsimp only; split)
    | refine inv_fst (by with_reducible assumption) ?_
    | refine inv_snd (by with_reducible assumption) ?_

theorem fusedFollow_inv {q : List Instr} : ∀ s x1, Inv q s → Inv q (fusedFollow s x1) := by
  intro s x1 h
  unfold fusedFollow
  repeat' first
    | with_reducible assumption
    | with_reducible intro _
    | with_reducible apply partEnd_inv
    | with_reducible apply setDcmd_inv
    | with_reducible apply inv_ite
    | with_reducible apply pinv_ite
    | with_reducible apply pinv_done
    | with_reducible apply pinv_trap
    | with_reducible apply pinv_brk
    | with_reducible apply pinv_stop
    | split
    | (dsimp only; split)
    | refine inv_fst (by with_reducible assumption) ?_
    | refine inv_snd (by with_reducible assumption) ?_
    | refine pinv_of_done (by with_reducible assumption) ?_
    | refine pinv_of_brk (by with_reducible assumption) ?_
    | refine pinv_of_trap (by with_reducible assumption) ?_
    | refine pinv_of_stop (by with_reducible assumption) ?_

theorem flogDone_inv {q : List Instr} : ∀ s x1 x2 x3, Inv q s → Inv q (flogDone s x1 x2 x3) := by
  intro s x1 x2 x3 h
  unfold flogDone
  repeat' first
    | with_reducible assumption
    | with_reducible intro _
    | with_reducible apply updOwn_inv
    | with_reducible apply setDcmd_inv
    | with_reducible apply cmdOff_inv
    | with_reducible apply updXctx_inv
    | with_reducible apply failCur_inv
    | with_reducible apply inv_ite
    | split
    | (dsimp only; split)
    | refine inv_fst (by with_reducible assumption) ?_
    | refine inv_snd (by with_reducible assumption) ?_

theorem servedDone_inv {q : List Instr} : ∀ s x1 x2 x3 x4, Inv q s → Inv q (servedDone s x1 x2 x3 x4) := by
  intro s x1 x2 x3 x4 h
  unfold servedDone
  repeat' first
    | with_reducible assumption
    | with_reducible intro _
    | with_reducible apply setDcmd_inv
    | with_reducible apply cmdOff_inv
    | with_reducible apply serveDone_inv
    | with_reducible apply inv_ite
    | split
    | (dsimp only; split)
    | refine inv_fst (by with_reducible assumption) ?_
    | refine inv_snd (by with_reducible assumption) ?_
    | with_reducible apply Inv.mk_plain
    | with_reducible refine Inv.mk_serves ?_ (by first | exact id | exact Table.wf_put _ _ _ _ | exact Table.wf_upd _ _ _ _ | exact Table.wf_mapVals _ _ _ | exact Table.wf_putList _ _ _ _ | exact Table.wf_filter _ _ _ | exact fun h => Table.wf_put _ _ _ _ (Table.wf_put _ _ _ _ h) | exact fun _ => rfl)
    | (dsimp only; with_reducible apply Inv.mk_plain)
    | (dsimp only; with_reducible refine Inv.mk_serves ?_ (by first | exact id | exact Table.wf_put _ _ _ _ | exact Table.wf_upd _ _ _ _ | exact Table.wf_mapVals _ _ _ | exact Table.wf_putList _ _ _ _ | exact Table.wf_filter _ _ _ | exact fun h => Table.wf_put _ _ _ _ (Table.wf_put _ _ _ _ h) | exact fun _ => rfl))

theorem cmdDone_inv {q : List Instr} : ∀ s x1 x2 x3, Inv q s → Inv q (cmdDone s x1 x2 x3) := by
  intro s x1 x2 x3 h
  unfold cmdDone
  repeat' first
    | with_reducible assumption
    | with_reducible intro _
    | with_reducible apply partDone_inv
    | with_reducible apply flogDone_inv
    | with_reducible apply servedDone_inv
    | with_reducible apply inv_ite
    | split
    | (dsimp only; split)
    | refine inv_fst (by with_reducible assumption) ?_
    | refine inv_snd (by with_reducible assumption) ?_

theorem cmdStatus_inv {q : List Instr} : ∀ s x1 x2 x3, Inv q s → Inv q (cmdStatus s x1 x2 x3) := by
  intro s x1 x2 x3 h
  unfold cmdStatus
  repeat' first
    | with_reducible assumption
    | with_reducible intro _
    | with_reducible apply setDcmd_inv
    | with_reducible apply cmdOff_inv
    | with_reducible apply cmdDone_inv
    | with_reducible apply quarantine_inv
    | with_reducible apply cmdWait_inv
    | with_reducible apply loseCmd_inv
    | with_reducible apply lfree_inv
    | with_reducible apply inv_ite
    | with_reducible apply pinv_ite
    | with_reducible apply pinv_done
    | with_reducible apply pinv_trap
    | with_reducible apply pinv_brk
    | with_reducible apply pinv_stop
    | split
    | (dsimp only; split)
    | refine inv_fst (by with_reducible assumption) ?_
    | refine inv_snd (by with_reducible assumption) ?_
    | refine pinv_of_done (by with_reducible assumption) ?_
    | refine pinv_of_brk (by with_reducible assumption) ?_
    | refine pinv_of_trap (by with_reducible assumption) ?_
    | refine pinv_of_stop (by with_reducible assumption) ?_

theorem cmdComplete_inv {q : List Instr} : ∀ s x1 x2 x3, Inv q s → Inv q (cmdComplete s x1 x2 x3) := by
  intro s x1 x2 x3 h
  unfold cmdComplete
  repeat' first
    | with_reducible assumption
    | with_reducible intro _
    | with_reducible apply fusedFollow_inv
    | with_reducible apply cmdStatus_inv
    | with_reducible apply inv_ite
    | split
    | (dsimp only; split)
    | refine inv_fst (by with_reducible assumption) ?_
    | refine inv_snd (by with_reducible assumption) ?_

theorem putCmd_inv {q : List Instr} : ∀ s x1 x2, Inv q s → Inv q (putCmd s x1 x2) := by
  intro s x1 x2 h
  unfold putCmd
  repeat' first
    | with_reducible assumption
    | with_reducible intro _
    | with_reducible apply queueOut_inv
    | with_reducible apply slotOut_inv
    | with_reducible apply addTakeoverWait_inv
    | with_reducible apply setDcmd_inv
    | with_reducible apply laneSend_inv
    | with_reducible apply emit_inv
    | with_reducible apply inv_ite
    | split
    | (dsimp only; split)
    | refine inv_fst (by with_reducible assumption) ?_
    | refine inv_snd (by with_reducible assumption) ?_

theorem countPart_inv {q : List Instr} : ∀ s x1 x2, Inv q s → Inv q (countPart s x1 x2) := by
  intro s x1 x2 h
  unfold countPart
  repeat' first
    | with_reducible assumption
    | with_reducible intro _
    | with_reducible apply updXctx_inv
    | with_reducible apply inv_ite
    | split
    | (dsimp only; split)
    | refine inv_fst (by with_reducible assumption) ?_
    | refine inv_snd (by with_reducible assumption) ?_

theorem issueCmd_inv {q : List Instr} : ∀ s x1 x2 x3 x4 x5, Inv q s → Inv q (issueCmd s x1 x2 x3 x4 x5) := by
  intro s x1 x2 x3 x4 x5 h
  unfold issueCmd
  repeat' first
    | with_reducible assumption
    | with_reducible intro _
    | with_reducible apply pathChanged_inv
    | with_reducible apply setDcmd_inv
    | with_reducible apply putCmd_inv
    | with_reducible apply countPart_inv
    | with_reducible apply inv_ite
    | split
    | (dsimp only; split)
    | refine inv_fst (by with_reducible assumption) ?_
    | refine inv_snd (by with_reducible assumption) ?_

theorem noteCmd_inv {q : List Instr} : ∀ s x1 x2 x3, Inv q s → Inv q (noteCmd s x1 x2 x3) := by
  intro s x1 x2 x3 h
  unfold noteCmd
  repeat' first
    | with_reducible assumption
    | with_reducible intro _
    | with_reducible apply issueCmd_inv
    | with_reducible apply ringSq_inv
    | with_reducible apply inv_ite
    | split
    | (dsimp only; split)
    | refine inv_fst (by with_reducible assumption) ?_
    | refine inv_snd (by with_reducible assumption) ?_

end Sys2Proof.Machine
end

