-- ==== Sys2Proof/Laws/InvDock.lean ====
section
/-! SUPPORT. Laws/InvDock.lean: every function of Machine/Dock.lean keeps the invariant of a sound state. -/

namespace Sys2Proof.Machine

theorem ctlFailed_inv {q : List Instr} : ∀ s x1 x2, Inv q s → Inv q (ctlFailed s x1 x2) := by
  intro s x1 x2 h
  unfold ctlFailed
  repeat' first
    | with_reducible assumption
    | with_reducible intro _
    | with_reducible apply setCtl_inv
    | with_reducible apply reslot_inv
    | with_reducible apply hmLog_inv
    | with_reducible apply inv_ite
    | split
    | (dsimp only; split)
    | refine inv_fst (by with_reducible assumption) ?_
    | refine inv_snd (by with_reducible assumption) ?_
    | with_reducible apply Inv.mk_plain
    | (dsimp only; with_reducible apply Inv.mk_plain)

theorem createQueue_inv {q : List Instr} : ∀ s x1 x2 x3, Inv q s → Inv q (createQueue s x1 x2 x3) := by
  intro s x1 x2 x3 h
  unfold createQueue
  repeat' first
    | with_reducible assumption
    | with_reducible intro _
    | with_reducible apply setDq_inv
    | with_reducible apply adminCmd_inv
    | with_reducible apply inv_ite
    | split
    | (dsimp only; split)
    | refine inv_fst (by with_reducible assumption) ?_
    | refine inv_snd (by with_reducible assumption) ?_

theorem createQueues_inv {q : List Instr} : ∀ s x1 x2 x3, Inv q s → Inv q (createQueues s x1 x2 x3) := by
  intro s x1 x2 x3
  induction x2 generalizing s x1 x3 with
  | nil => intro h; exact h
  | cons b l ih =>
    intro h
    unfold createQueues
    try dsimp only
    repeat' first
      | with_reducible assumption
      | with_reducible intro _
      | with_reducible apply createQueue_inv
      | with_reducible apply ih
      | with_reducible apply inv_ite
      | split
      | (dsimp only; split)
      | refine inv_fst (by with_reducible assumption) ?_
      | refine inv_snd (by with_reducible assumption) ?_

theorem freePage_inv {q : List Instr} : ∀ s, Inv q s → Inv q (freePage s).2 := by
  intro s h
  unfold freePage
  repeat' first
    | with_reducible assumption
    | with_reducible intro _
    | with_reducible apply takeFree_inv
    | with_reducible apply inv_ite
    | split
    | (dsimp only; split)
    | dsimp only
    | refine inv_fst (by with_reducible assumption) ?_
    | refine inv_snd (by with_reducible assumption) ?_

theorem startStep_inv {q : List Instr} : ∀ s x1 x2 x3 x4, Inv q s → Inv q (startStep s x1 x2 x3 x4) := by
  intro s x1 x2 x3 x4 h
  unfold startStep
  repeat' first
    | with_reducible assumption
    | with_reducible intro _
    | with_reducible apply emit_inv
    | with_reducible apply freePage_inv
    | with_reducible apply setCtl_inv
    | with_reducible apply adminCmd_inv
    | with_reducible apply createQueues_inv
    | with_reducible apply inv_ite
    | with_reducible refine inv_foldl (fun _ _ _ => ?_) _ _ ?_
    | split
    | (dsimp only; split)
    | refine inv_fst (by with_reducible assumption) ?_
    | refine inv_snd (by with_reducible assumption) ?_

theorem startSteps_inv {q : List Instr} : ∀ s x1 x2 x3 x4, Inv q s → Inv q (startSteps s x1 x2 x3 x4) := by
  intro s x1 x2 x3 x4 h
  unfold startSteps
  repeat' first
    | with_reducible assumption
    | with_reducible intro _
    | with_reducible apply startStep_inv
    | with_reducible apply inv_ite
    | with_reducible refine inv_foldl (fun _ _ _ => ?_) _ _ ?_
    | split
    | (dsimp only; split)
    | refine inv_fst (by with_reducible assumption) ?_
    | refine inv_snd (by with_reducible assumption) ?_

theorem dropUnshared_inv {q : List Instr} : ∀ s, Inv q s → Inv q (dropUnshared s) := by
  intro s h
  unfold dropUnshared
  repeat' first
    | with_reducible assumption
    | with_reducible intro _
    | with_reducible apply inv_ite
    | split
    | (dsimp only; split)
    | refine inv_fst (by with_reducible assumption) ?_
    | refine inv_snd (by with_reducible assumption) ?_
    | with_reducible apply Inv.mk_plain
    | with_reducible refine Inv.mk_berths ?_ (by first | exact id | exact Table.wf_put _ _ _ _ | exact Table.wf_upd _ _ _ _ | exact Table.wf_mapVals _ _ _ | exact Table.wf_putList _ _ _ _ | exact Table.wf_filter _ _ _ | exact fun h => Table.wf_put _ _ _ _ (Table.wf_put _ _ _ _ h) | exact fun _ => rfl)
    | (dsimp only; with_reducible apply Inv.mk_plain)
    | (dsimp only; with_reducible refine Inv.mk_berths ?_ (by first | exact id | exact Table.wf_put _ _ _ _ | exact Table.wf_upd _ _ _ _ | exact Table.wf_mapVals _ _ _ | exact Table.wf_putList _ _ _ _ | exact Table.wf_filter _ _ _ | exact fun h => Table.wf_put _ _ _ _ (Table.wf_put _ _ _ _ h) | exact fun _ => rfl))

theorem requeueResv_inv {q : List Instr} : ∀ s x1, Inv q s → Inv q (requeueResv s x1) := by
  intro s x1 h
  unfold requeueResv
  repeat' first
    | with_reducible assumption
    | with_reducible intro _
    | with_reducible apply updTw_inv
    | with_reducible apply inv_ite
    | with_reducible refine inv_foldl (fun _ _ _ => ?_) _ _ ?_
    | split
    | (dsimp only; split)
    | refine inv_fst (by with_reducible assumption) ?_
    | refine inv_snd (by with_reducible assumption) ?_
    | with_reducible apply Inv.mk_plain
    | with_reducible refine Inv.mk_resvs ?_ (by first | exact id | exact Table.wf_put _ _ _ _ | exact Table.wf_upd _ _ _ _ | exact Table.wf_mapVals _ _ _ | exact Table.wf_putList _ _ _ _ | exact Table.wf_filter _ _ _ | exact fun h => Table.wf_put _ _ _ _ (Table.wf_put _ _ _ _ h) | exact fun _ => rfl)
    | (dsimp only; with_reducible apply Inv.mk_plain)
    | (dsimp only; with_reducible refine Inv.mk_resvs ?_ (by first | exact id | exact Table.wf_put _ _ _ _ | exact Table.wf_upd _ _ _ _ | exact Table.wf_mapVals _ _ _ | exact Table.wf_putList _ _ _ _ | exact Table.wf_filter _ _ _ | exact fun h => Table.wf_put _ _ _ _ (Table.wf_put _ _ _ _ h) | exact fun _ => rfl))

theorem execControllerStart_inv {q : List Instr} : ∀ x0 x1 s, Inv q s → OInv q (execControllerStart x0 x1 s) := by
  intro x0 x1 s h
  unfold execControllerStart
  repeat' first
    | with_reducible assumption
    | with_reducible intro _
    | with_reducible apply requeueResv_inv
    | with_reducible apply setCtl_inv
    | with_reducible apply ctlFailed_inv
    | with_reducible apply startSteps_inv
    | with_reducible apply issueResv_inv
    | with_reducible apply reslot_inv
    | with_reducible apply dropUnshared_inv
    | with_reducible apply inv_ite
    | with_reducible apply oinv_next
    | with_reducible apply oinv_ite
    | split
    | (dsimp only; split)
    | refine inv_fst (by with_reducible assumption) ?_
    | refine inv_snd (by with_reducible assumption) ?_

theorem execControllerStepTimeout_inv {q : List Instr} : ∀ x0 x1 s, Inv q s → OInv q (execControllerStepTimeout x0 x1 s) := by
  intro x0 x1 s h
  unfold execControllerStepTimeout
  repeat' first
    | with_reducible assumption
    | with_reducible intro _
    | with_reducible apply ctlFailed_inv
    | with_reducible apply startSteps_inv
    | with_reducible apply inv_ite
    | with_reducible apply oinv_next
    | with_reducible apply oinv_ite
    | split
    | (dsimp only; split)
    | refine inv_fst (by with_reducible assumption) ?_
    | refine inv_snd (by with_reducible assumption) ?_

theorem execDockProbe_inv {q : List Instr} : ∀ x0 x1 x2 x3 s, Inv q s → OInv q (execDockProbe x0 x1 x2 x3 s) := by
  intro x0 x1 x2 x3 s h
  unfold execDockProbe
  repeat' first
    | with_reducible assumption
    | with_reducible intro _
    | with_reducible apply emit_inv
    | with_reducible apply reslot_inv
    | with_reducible apply setCtl_inv
    | with_reducible apply inv_ite
    | with_reducible apply oinv_next
    | with_reducible apply oinv_ite
    | split
    | (dsimp only; split)
    | refine inv_fst (by with_reducible assumption) ?_
    | refine inv_snd (by with_reducible assumption) ?_
    | with_reducible apply Inv.mk_plain
    | (dsimp only; with_reducible apply Inv.mk_plain)

theorem execSmartLogRead_inv {q : List Instr} : ∀ x0 x1 s, Inv q s → OInv q (execSmartLogRead x0 x1 s) := by
  intro x0 x1 s h
  unfold execSmartLogRead
  repeat' first
    | with_reducible assumption
    | with_reducible intro _
    | with_reducible apply adminCmd_inv
    | with_reducible apply hmLog_inv
    | with_reducible apply inv_ite
    | with_reducible apply oinv_next
    | with_reducible apply oinv_ite
    | split
    | (dsimp only; split)
    | refine inv_fst (by with_reducible assumption) ?_
    | refine inv_snd (by with_reducible assumption) ?_

theorem execDeviceCompletion_inv {q : List Instr} : ∀ x0 x1 x2 s, Inv q s → OInv q (execDeviceCompletion x0 x1 x2 s) := by
  intro x0 x1 x2 s h
  unfold execDeviceCompletion
  repeat' first
    | with_reducible assumption
    | with_reducible intro _
    | with_reducible apply stepCq_inv
    | with_reducible apply raise_inv
    | with_reducible apply errorLog_inv
    | with_reducible apply issueResv_inv
    | with_reducible apply cmdComplete_inv
    | with_reducible apply resvComplete_inv
    | with_reducible apply inv_ite
    | with_reducible apply oinv_next
    | with_reducible apply oinv_ite
    | split
    | (dsimp only; split)
    | refine inv_fst (by with_reducible assumption) ?_
    | refine inv_snd (by with_reducible assumption) ?_

theorem queueReset_inv {q : List Instr} : ∀ s x1, Inv q s → Inv q (queueReset s x1) := by
  intro s x1 h
  unfold queueReset
  repeat' first
    | with_reducible assumption
    | with_reducible intro _
    | with_reducible apply adminCmd_inv
    | with_reducible apply cmdComplete_inv
    | with_reducible apply createQueue_inv
    | with_reducible apply issueResv_inv
    | with_reducible apply resvDone_inv
    | with_reducible apply inv_ite
    | with_reducible refine inv_foldl (fun _ _ _ => ?_) _ _ ?_
    | split
    | (dsimp only; split)
    | refine inv_fst (by with_reducible assumption) ?_
    | refine inv_snd (by with_reducible assumption) ?_
    | with_reducible apply Inv.mk_plain
    | with_reducible refine Inv.mk_resvs ?_ (by first | exact id | exact Table.wf_put _ _ _ _ | exact Table.wf_upd _ _ _ _ | exact Table.wf_mapVals _ _ _ | exact Table.wf_putList _ _ _ _ | exact Table.wf_filter _ _ _ | exact fun h => Table.wf_put _ _ _ _ (Table.wf_put _ _ _ _ h) | exact fun _ => rfl)
    | (dsimp only; with_reducible apply Inv.mk_plain)
    | (dsimp only; with_reducible refine Inv.mk_resvs ?_ (by first | exact id | exact Table.wf_put _ _ _ _ | exact Table.wf_upd _ _ _ _ | exact Table.wf_mapVals _ _ _ | exact Table.wf_putList _ _ _ _ | exact Table.wf_filter _ _ _ | exact fun h => Table.wf_put _ _ _ _ (Table.wf_put _ _ _ _ h) | exact fun _ => rfl))

theorem expireTwice_inv {q : List Instr} : ∀ s x1 x2, Inv q s → Inv q (expireTwice s x1 x2) := by
  intro s x1 x2 h
  unfold expireTwice
  repeat' first
    | with_reducible assumption
    | with_reducible intro _
    | with_reducible apply failCur_inv
    | with_reducible apply setDcmd_inv
    | with_reducible apply cmdOff_inv
    | with_reducible apply partDone_inv
    | with_reducible apply updXctx_inv
    | with_reducible apply inv_ite
    | split
    | (dsimp only; split)
    | refine inv_fst (by with_reducible assumption) ?_
    | refine inv_snd (by with_reducible assumption) ?_

theorem adminTimeout_inv {q : List Instr} : ∀ s x1, Inv q s → Inv q (adminTimeout s x1) := by
  intro s x1 h
  unfold adminTimeout
  repeat' first
    | with_reducible assumption
    | with_reducible intro _
    | with_reducible apply reslot_inv
    | with_reducible apply setCtl_inv
    | with_reducible apply inv_ite
    | split
    | (dsimp only; split)
    | refine inv_fst (by with_reducible assumption) ?_
    | refine inv_snd (by with_reducible assumption) ?_

theorem execCommandTimeout_inv {q : List Instr} : ∀ x0 x1 s, Inv q s → OInv q (execCommandTimeout x0 x1 s) := by
  intro x0 x1 s h
  unfold execCommandTimeout
  repeat' first
    | with_reducible assumption
    | with_reducible intro _
    | with_reducible apply adminTimeout_inv
    | with_reducible apply queueReset_inv
    | with_reducible apply expireTwice_inv
    | with_reducible apply setDcmd_inv
    | with_reducible apply inv_ite
    | with_reducible apply oinv_next
    | with_reducible apply oinv_ite
    | split
    | (dsimp only; split)
    | refine inv_fst (by with_reducible assumption) ?_
    | refine inv_snd (by with_reducible assumption) ?_

theorem execPcieError_inv {q : List Instr} : ∀ x0 s, Inv q s → OInv q (execPcieError x0 s) := by
  intro x0 s h
  unfold execPcieError
  repeat' first
    | with_reducible assumption
    | with_reducible intro _
    | with_reducible apply queueReset_inv
    | with_reducible apply inv_ite
    | with_reducible apply oinv_next
    | with_reducible apply oinv_ite
    | with_reducible refine inv_foldl (fun _ _ _ => ?_) _ _ ?_
    | split
    | (dsimp only; split)
    | refine inv_fst (by with_reducible assumption) ?_
    | refine inv_snd (by with_reducible assumption) ?_

theorem retryCmd_inv {q : List Instr} : ∀ s x1, Inv q s → Inv q (retryCmd s x1) := by
  intro s x1 h
  unfold retryCmd
  repeat' first
    | with_reducible assumption
    | with_reducible intro _
    | with_reducible apply putCmd_inv
    | with_reducible apply ringSq_inv
    | with_reducible apply inv_ite
    | split
    | (dsimp only; split)
    | refine inv_fst (by with_reducible assumption) ?_
    | refine inv_snd (by with_reducible assumption) ?_

theorem execRetryDelayExpiry_inv {q : List Instr} : ∀ x0 s, Inv q s → OInv q (execRetryDelayExpiry x0 s) := by
  intro x0 s h
  unfold execRetryDelayExpiry
  repeat' first
    | with_reducible assumption
    | with_reducible intro _
    | with_reducible apply retryCmd_inv
    | with_reducible apply inv_ite
    | with_reducible apply oinv_next
    | with_reducible apply oinv_ite
    | with_reducible refine inv_foldl (fun _ _ _ => ?_) _ _ ?_
    | split
    | (dsimp only; split)
    | refine inv_fst (by with_reducible assumption) ?_
    | refine inv_snd (by with_reducible assumption) ?_

theorem execNpwaitExpiry_inv {q : List Instr} : ∀ x0 s, Inv q s → OInv q (execNpwaitExpiry x0 s) := by
  intro x0 s h
  unfold execNpwaitExpiry
  repeat' first
    | with_reducible assumption
    | with_reducible intro _
    | with_reducible apply failServe_inv
    | with_reducible apply failCur_inv
    | with_reducible apply inv_ite
    | with_reducible apply pinv_ite
    | with_reducible apply pinv_done
    | with_reducible apply pinv_trap
    | with_reducible apply pinv_brk
    | with_reducible apply pinv_stop
    | with_reducible apply oinv_next
    | with_reducible apply oinv_ite
    | split
    | (dsimp only; split)
    | refine inv_fst (by with_reducible assumption) ?_
    | refine inv_snd (by with_reducible assumption) ?_
    | refine pinv_of_done (by with_reducible assumption) ?_
    | refine pinv_of_brk (by with_reducible assumption) ?_
    | refine pinv_of_trap (by with_reducible assumption) ?_
    | refine pinv_of_stop (by with_reducible assumption) ?_

theorem settleReads_inv {q : List Instr} : ∀ s x1 x2 x3, Inv q s → Inv q (settleReads s x1 x2 x3) := by
  intro s x1 x2 x3 h
  unfold settleReads
  repeat' first
    | with_reducible assumption
    | with_reducible intro _
    | with_reducible apply emit_inv
    | with_reducible apply inv_ite
    | split
    | (dsimp only; split)
    | refine inv_fst (by with_reducible assumption) ?_
    | refine inv_snd (by with_reducible assumption) ?_

theorem execPsettleExpiry_inv {q : List Instr} : ∀ x0 x1 x2 s, Inv q s → OInv q (execPsettleExpiry x0 x1 x2 s) := by
  intro x0 x1 x2 s h
  unfold execPsettleExpiry
  repeat' first
    | with_reducible assumption
    | with_reducible intro _
    | with_reducible apply settleX_inv
    | with_reducible apply settleReads_inv
    | with_reducible apply inv_ite
    | with_reducible apply oinv_next
    | with_reducible apply oinv_ite
    | split
    | (dsimp only; split)
    | refine inv_fst (by with_reducible assumption) ?_
    | refine inv_snd (by with_reducible assumption) ?_

theorem resvWrite_inv {q : List Instr} : ∀ s x1 x2, Inv q s → Inv q (resvWrite s x1 x2) := by
  intro s x1 x2 h
  unfold resvWrite
  repeat' first
    | with_reducible assumption
    | with_reducible intro _
    | with_reducible apply setBerth_inv
    | with_reducible apply inv_ite
    | split
    | (dsimp only; split)
    | refine inv_fst (by with_reducible assumption) ?_
    | refine inv_snd (by with_reducible assumption) ?_
    | with_reducible apply Inv.mk_plain
    | (dsimp only; with_reducible apply Inv.mk_plain)

theorem berthWrite0_inv {q : List Instr} : ∀ s x1 x2 x3, Inv q s → Inv q (berthWrite0 s x1 x2 x3) := by
  intro s x1 x2 x3 h
  unfold berthWrite0
  repeat' first
    | with_reducible assumption
    | with_reducible intro _
    | with_reducible apply resvWrite_inv
    | with_reducible apply setBerth_inv
    | with_reducible apply settleBerths_inv
    | with_reducible apply inv_ite
    | split
    | (dsimp only; split)
    | refine inv_fst (by with_reducible assumption) ?_
    | refine inv_snd (by with_reducible assumption) ?_

theorem slotWrite_inv {q : List Instr} : ∀ s x1 x2 x3 x4, Inv q s → Inv q (slotWrite s x1 x2 x3 x4) := by
  intro s x1 x2 x3 x4 h
  unfold slotWrite
  repeat' first
    | with_reducible assumption
    | with_reducible intro _
    | with_reducible apply reslot_inv
    | with_reducible apply setBerth_inv
    | with_reducible apply dropUnshared_inv
    | with_reducible apply inv_ite
    | split
    | (dsimp only; split)
    | refine inv_fst (by with_reducible assumption) ?_
    | refine inv_snd (by with_reducible assumption) ?_

theorem berthWrite_inv {q : List Instr} : ∀ s x1 x2 x3 x4 x5, Inv q s → Inv q (berthWrite s x1 x2 x3 x4 x5) := by
  intro s x1 x2 x3 x4 x5 h
  unfold berthWrite
  repeat' first
    | with_reducible assumption
    | with_reducible intro _
    | with_reducible apply berthWrite0_inv
    | with_reducible apply setBerth_inv
    | with_reducible apply slotWrite_inv
    | with_reducible apply inv_ite
    | split
    | (dsimp only; split)
    | refine inv_fst (by with_reducible assumption) ?_
    | refine inv_snd (by with_reducible assumption) ?_

theorem execBerthStateWrite_inv {q : List Instr} : ∀ x0 x1 x2 s, Inv q s → OInv q (execBerthStateWrite x0 x1 x2 s) := by
  intro x0 x1 x2 s h
  unfold execBerthStateWrite
  repeat' first
    | with_reducible assumption
    | with_reducible intro _
    | with_reducible apply ctlWake_inv
    | with_reducible apply berthWrite_inv
    | with_reducible apply inv_ite
    | with_reducible apply oinv_next
    | with_reducible apply oinv_ite
    | split
    | (dsimp only; split)
    | refine inv_fst (by with_reducible assumption) ?_
    | refine inv_snd (by with_reducible assumption) ?_

theorem nguidWrite_inv {q : List Instr} : ∀ s x1 x2 x3 x4, Inv q s → Inv q (nguidWrite s x1 x2 x3 x4) := by
  intro s x1 x2 x3 x4 h
  unfold nguidWrite
  repeat' first
    | with_reducible assumption
    | with_reducible intro _
    | with_reducible apply setBerth_inv
    | with_reducible apply inv_ite
    | split
    | (dsimp only; split)
    | refine inv_fst (by with_reducible assumption) ?_
    | refine inv_snd (by with_reducible assumption) ?_

theorem execBerthNguidWrite_inv {q : List Instr} : ∀ x0 x1 x2 x3 s, Inv q s → OInv q (execBerthNguidWrite x0 x1 x2 x3 s) := by
  intro x0 x1 x2 x3 s h
  unfold execBerthNguidWrite
  repeat' first
    | with_reducible assumption
    | with_reducible intro _
    | with_reducible apply ctlWake_inv
    | with_reducible apply nguidWrite_inv
    | with_reducible apply inv_ite
    | with_reducible apply oinv_next
    | with_reducible apply oinv_ite
    | split
    | (dsimp only; split)
    | refine inv_fst (by with_reducible assumption) ?_
    | refine inv_snd (by with_reducible assumption) ?_

theorem execSlotValidWrite_inv {q : List Instr} : ∀ x0 x1 x2 x3 s, Inv q s → OInv q (execSlotValidWrite x0 x1 x2 x3 s) := by
  intro x0 x1 x2 x3 s h
  unfold execSlotValidWrite
  repeat' first
    | with_reducible assumption
    | with_reducible intro _
    | with_reducible apply ctlWake_inv
    | with_reducible apply slotWrite_inv
    | with_reducible apply inv_ite
    | with_reducible apply oinv_next
    | with_reducible apply oinv_ite
    | split
    | (dsimp only; split)
    | refine inv_fst (by with_reducible assumption) ?_
    | refine inv_snd (by with_reducible assumption) ?_

end Sys2Proof.Machine
end

