-- ==== Sys2Proof/Laws/InvWatch.lean ====
section
/-! SUPPORT. Laws/InvWatch.lean: every function of Machine/Watch.lean keeps the invariant of a sound state. -/

namespace Sys2Proof.Machine

theorem watchPackets_inv {q : List Instr} : ∀ s x1 x2, Inv q s → Inv q (watchPackets s x1 x2) := by
  intro s x1 x2 h
  unfold watchPackets
  repeat' first
    | with_reducible assumption
    | with_reducible intro _
    | with_reducible apply notePacket_inv
    | with_reducible apply inv_ite
    | with_reducible refine inv_foldl (fun _ _ _ => ?_) _ _ ?_
    | split
    | (dsimp only; split)
    | refine inv_fst (by with_reducible assumption) ?_
    | refine inv_snd (by with_reducible assumption) ?_

theorem watch_inv {q : List Instr} : ∀ s x1 x2 x3, Inv q s → Inv q (watch s x1 x2 x3).1 := by
  intro s x1 x2 x3 h
  unfold watch
  repeat' first
    | with_reducible assumption
    | with_reducible intro _
    | with_reducible apply watchPackets_inv
    | with_reducible apply updPilot_inv
    | with_reducible apply instrDebug_inv
    | with_reducible apply inv_ite
    | split
    | (dsimp only; split)
    | dsimp only
    | refine inv_fst (by with_reducible assumption) ?_
    | refine inv_snd (by with_reducible assumption) ?_

theorem watchAll_inv {q : List Instr} : ∀ p pc s l, Inv q s → Inv q (watchAll p pc s l).1 := by
  intro p pc s l
  induction l generalizing s with
  | nil => intro h; exact h
  | cons c l ih =>
    intro h
    unfold watchAll
    have hw := watch_inv s p pc c h
    split
    · exact h
    · rename_i t e
      rw [e] at hw
      exact ih _ hw

end Sys2Proof.Machine
end

