-- ==== Sys2Proof/Laws/InvManifestCore.lean ====
section
/-! SUPPORT. Laws/InvManifestCore.lean: every function of Machine/ManifestCore.lean keeps the invariant of a sound state. -/

namespace Sys2Proof.Machine

theorem mani_inv {q : List Instr} : ∀ x0 x1 x2 s x4, Inv q s → (∀ a0 a1 a2, Inv q a2 → PRes.Inv q (x4 a0 a1 a2)) → Inv q (mani x0 x1 x2 s x4) := by
  intro x0 x1 x2 s x4 h h1
  unfold mani
  repeat' first
    | with_reducible assumption
    | with_reducible intro _
    | with_reducible apply rrr_inv
    | with_reducible apply h1
    | with_reducible apply inv_ite
    | split
    | (dsimp only; split)
    | refine inv_fst (by with_reducible assumption) ?_
    | refine inv_snd (by with_reducible assumption) ?_

theorem mcode_inv {q : List Instr} : ∀ s x1 x2, Inv q s → PRes.Inv q (mcode s x1 x2) := by
  intro s x1 x2 h
  unfold mcode
  repeat' first
    | with_reducible assumption
    | with_reducible intro _
    | with_reducible apply updPilot_inv
    | with_reducible apply inv_ite
    | with_reducible apply pinv_ite
    | with_reducible apply pinv_done
    | with_reducible apply pinv_trap
    | with_reducible apply pinv_brk
    | with_reducible apply pinv_stop
    | split
    | (dsimp only; split)
    | refine inv_fst (by with_reducible assumption) ?_
    | refine inv_snd (by with_reducible assumption) ?_
    | refine pinv_of_done (by with_reducible assumption) ?_
    | refine pinv_of_brk (by with_reducible assumption) ?_
    | refine pinv_of_trap (by with_reducible assumption) ?_
    | refine pinv_of_stop (by with_reducible assumption) ?_

theorem mval_inv {q : List Instr} : ∀ s x1 x2, Inv q s → PRes.Inv q (mval s x1 x2) := by
  intro s x1 x2 h
  unfold mval
  repeat' first
    | with_reducible assumption
    | with_reducible intro _
    | with_reducible apply updPilot_inv
    | with_reducible apply inv_ite
    | with_reducible apply pinv_ite
    | with_reducible apply pinv_done
    | with_reducible apply pinv_trap
    | with_reducible apply pinv_brk
    | with_reducible apply pinv_stop
    | split
    | (dsimp only; split)
    | refine inv_fst (by with_reducible assumption) ?_
    | refine inv_snd (by with_reducible assumption) ?_
    | refine pinv_of_done (by with_reducible assumption) ?_
    | refine pinv_of_brk (by with_reducible assumption) ?_
    | refine pinv_of_trap (by with_reducible assumption) ?_
    | refine pinv_of_stop (by with_reducible assumption) ?_

theorem mz_inv {q : List Instr} : ∀ s x1 x2, Inv q s → PRes.Inv q (mz s x1 x2) := by
  intro s x1 x2 h
  unfold mz
  repeat' first
    | with_reducible assumption
    | with_reducible intro _
    | with_reducible apply updPilot_inv
    | with_reducible apply inv_ite
    | with_reducible apply pinv_ite
    | with_reducible apply pinv_done
    | with_reducible apply pinv_trap
    | with_reducible apply pinv_brk
    | with_reducible apply pinv_stop
    | split
    | (dsimp only; split)
    | refine inv_fst (by with_reducible assumption) ?_
    | refine inv_snd (by with_reducible assumption) ?_
    | refine pinv_of_done (by with_reducible assumption) ?_
    | refine pinv_of_brk (by with_reducible assumption) ?_
    | refine pinv_of_trap (by with_reducible assumption) ?_
    | refine pinv_of_stop (by with_reducible assumption) ?_

theorem pickFree_inv {q : List Instr} : ∀ s, Inv q s → Inv q (pickFree s).2 := by
  intro s h
  unfold pickFree
  repeat' first
    | with_reducible assumption
    | with_reducible intro _
    | with_reducible apply takeFree_inv
    | with_reducible apply inv_ite
    | split
    | (dsimp only; split)
    | dsimp only
    | refine inv_fst (by with_reducible assumption) ?_
    | refine inv_snd (by with_reducible assumption) ?_

theorem endAtStart_inv {q : List Instr} : ∀ s x1 x2, Inv q s → Inv q (endAtStart s x1 x2) := by
  intro s x1 x2 h
  unfold endAtStart
  repeat' first
    | with_reducible assumption
    | with_reducible intro _
    | with_reducible apply updXctx_inv
    | with_reducible apply updOwn_inv
    | with_reducible apply inv_ite
    | split
    | (dsimp only; split)
    | refine inv_fst (by with_reducible assumption) ?_
    | refine inv_snd (by with_reducible assumption) ?_

theorem mallocRing_inv {q : List Instr} : ∀ x0 x1 x2 s, Inv q s → PRes.Inv q (mallocRing x0 x1 x2 s) := by
  intro x0 x1 x2 s h
  unfold mallocRing
  repeat' first
    | with_reducible assumption
    | with_reducible intro _
    | with_reducible apply mcode_inv
    | with_reducible apply pickFree_inv
    | with_reducible apply setXctx_inv
    | with_reducible apply setOwn_inv
    | with_reducible apply mirrorPoint_inv
    | with_reducible apply dispose_inv
    | with_reducible apply updRing_inv
    | with_reducible apply endAtStart_inv
    | with_reducible apply fetchWord_inv
    | with_reducible apply mval_inv
    | with_reducible apply inv_ite
    | with_reducible apply pinv_ite
    | with_reducible apply pinv_done
    | with_reducible apply pinv_trap
    | with_reducible apply pinv_brk
    | with_reducible apply pinv_stop
    | split
    | (dsimp only; split)
    | refine inv_fst (by with_reducible assumption) ?_
    | refine inv_snd (by with_reducible assumption) ?_
    | refine pinv_of_done (by with_reducible assumption) ?_
    | refine pinv_of_brk (by with_reducible assumption) ?_
    | refine pinv_of_trap (by with_reducible assumption) ?_
    | refine pinv_of_stop (by with_reducible assumption) ?_
    | with_reducible apply Inv.mk_plain
    | (dsimp only; with_reducible apply Inv.mk_plain)

theorem mallocV_inv {q : List Instr} : ∀ x0 x1 s, Inv q s → PRes.Inv q (mallocV x0 x1 s) := by
  intro x0 x1 s h
  unfold mallocV
  repeat' first
    | with_reducible assumption
    | with_reducible intro _
    | with_reducible apply mcode_inv
    | with_reducible apply pickFree_inv
    | with_reducible apply setOwn_inv
    | with_reducible apply mval_inv
    | with_reducible apply inv_ite
    | with_reducible apply pinv_ite
    | with_reducible apply pinv_done
    | with_reducible apply pinv_trap
    | with_reducible apply pinv_brk
    | with_reducible apply pinv_stop
    | split
    | (dsimp only; split)
    | refine inv_fst (by with_reducible assumption) ?_
    | refine inv_snd (by with_reducible assumption) ?_
    | refine pinv_of_done (by with_reducible assumption) ?_
    | refine pinv_of_brk (by with_reducible assumption) ?_
    | refine pinv_of_trap (by with_reducible assumption) ?_
    | refine pinv_of_stop (by with_reducible assumption) ?_

theorem retireOwn_inv {q : List Instr} : ∀ s x1, Inv q s → Inv q (retireOwn s x1) := by
  intro s x1 h
  unfold retireOwn
  repeat' first
    | with_reducible assumption
    | with_reducible intro _
    | with_reducible apply takeoverEnd_inv
    | with_reducible apply setXctx_inv
    | with_reducible apply setOwn_inv
    | with_reducible apply inv_ite
    | split
    | (dsimp only; split)
    | refine inv_fst (by with_reducible assumption) ?_
    | refine inv_snd (by with_reducible assumption) ?_
    | with_reducible apply Inv.mk_plain
    | with_reducible refine Inv.mk_bays ?_ (by first | exact id | exact Table.wf_put _ _ _ _ | exact Table.wf_upd _ _ _ _ | exact Table.wf_mapVals _ _ _ | exact Table.wf_putList _ _ _ _ | exact Table.wf_filter _ _ _ | exact fun h => Table.wf_put _ _ _ _ (Table.wf_put _ _ _ _ h) | exact fun _ => rfl)
    | (dsimp only; with_reducible apply Inv.mk_plain)
    | (dsimp only; with_reducible refine Inv.mk_bays ?_ (by first | exact id | exact Table.wf_put _ _ _ _ | exact Table.wf_upd _ _ _ _ | exact Table.wf_mapVals _ _ _ | exact Table.wf_putList _ _ _ _ | exact Table.wf_filter _ _ _ | exact fun h => Table.wf_put _ _ _ _ (Table.wf_put _ _ _ _ h) | exact fun _ => rfl))

theorem toDeviceDone_inv {q : List Instr} : ∀ s x1, Inv q s → Inv q (toDeviceDone s x1).2 := by
  intro s x1 h
  unfold toDeviceDone
  repeat' first
    | with_reducible assumption
    | with_reducible intro _
    | with_reducible apply setOwn_inv
    | with_reducible apply addTakeoverWait_inv
    | with_reducible apply takeSlot_inv
    | with_reducible apply updRing_inv
    | with_reducible apply mirrorPoint_inv
    | with_reducible apply inv_ite
    | split
    | (dsimp only; split)
    | dsimp only
    | refine inv_fst (by with_reducible assumption) ?_
    | refine inv_snd (by with_reducible assumption) ?_

theorem toPosted_inv {q : List Instr} : ∀ s x1, Inv q s → Inv q (toPosted s x1).2 := by
  intro s x1 h
  unfold toPosted
  repeat' first
    | with_reducible assumption
    | with_reducible intro _
    | with_reducible apply updRing_inv
    | with_reducible apply setOwn_inv
    | with_reducible apply inv_ite
    | split
    | (dsimp only; split)
    | dsimp only
    | refine inv_fst (by with_reducible assumption) ?_
    | refine inv_snd (by with_reducible assumption) ?_

theorem mstepTo_inv {q : List Instr} : ∀ s x1 x2, Inv q s → Inv q (mstepTo s x1 x2).2 := by
  intro s x1 x2 h
  unfold mstepTo
  repeat' first
    | with_reducible assumption
    | with_reducible intro _
    | with_reducible apply setOwn_inv
    | with_reducible apply mirrorPoint_inv
    | with_reducible apply markPlaced_inv
    | with_reducible apply toDeviceDone_inv
    | with_reducible apply toPosted_inv
    | with_reducible apply retireOwn_inv
    | with_reducible apply inv_ite
    | split
    | (dsimp only; split)
    | dsimp only
    | refine inv_fst (by with_reducible assumption) ?_
    | refine inv_snd (by with_reducible assumption) ?_

theorem scanLoop_inv {q : List Instr} (p : Nat) (pc : BitVec 18) (v a : W64) (lim : Nat) : ∀ fuel s i cnt left base k,
    Inv q s → Inv q base.1 → Inv q (scanLoop p pc v a lim fuel s i cnt left base k).1 := by
  intro fuel
  induction fuel with
  | zero => intro s i cnt left base k h _; exact h
  | succ n ih =>
    intro s i cnt left base k h hb
    unfold scanLoop
    split
    · exact h
    · split
      · exact h
      · split
        · exact h
        · have hb' : Inv q (if k = 4 then (s, i, cnt) else base).1 := by
            split
            · exact h
            · exact hb
          dsimp only
          split
          · exact ih _ _ _ _ _ _ h hb'
          · split
            · exact hb'
            · rename_i w _
              rename_i hv _ _ _ _
              have hw := fun c => watch_inv s p pc c h
              split
              · exact hb'
              · rename_i t e
                exact ih _ _ _ _ _ _ (pendStore_inv _ _ _ (inv_fst e (hw _))) hb'

theorem gleanPlace_inv {q : List Instr} : ∀ s x1 x2, Inv q s → Inv q (gleanPlace s x1 x2) := by
  intro s x1 x2 h
  unfold gleanPlace
  repeat' first
    | with_reducible assumption
    | with_reducible intro _
    | with_reducible apply setMirr_inv
    | with_reducible apply setXctx_inv
    | with_reducible apply setOwn_inv
    | with_reducible apply sampleLevel_inv
    | with_reducible apply arbPass_inv
    | with_reducible apply endX_inv
    | with_reducible apply fetchWord_inv
    | with_reducible apply inv_ite
    | split
    | (dsimp only; split)
    | refine inv_fst (by with_reducible assumption) ?_
    | refine inv_snd (by with_reducible assumption) ?_
    | with_reducible apply Inv.mk_plain
    | (dsimp only; with_reducible apply Inv.mk_plain)

theorem gleanList_inv {q : List Instr} : ∀ s x1, Inv q s → Inv q (gleanList s x1) := by
  intro s x1
  induction x1 generalizing s with
  | nil => intro h; exact updTw_inv _ _ h
  | cons b l ih =>
    intro h
    unfold gleanList
    try dsimp only
    repeat' first
      | with_reducible assumption
      | with_reducible intro _
      | with_reducible apply updTw_inv
      | with_reducible apply pickFree_inv
      | with_reducible apply raise_inv
      | with_reducible apply gleanPlace_inv
      | with_reducible apply ih
      | with_reducible apply inv_ite
      | split
      | (dsimp only; split)
      | refine inv_fst (by with_reducible assumption) ?_
      | refine inv_snd (by with_reducible assumption) ?_
      | with_reducible apply Inv.mk_plain
      | (dsimp only; with_reducible apply Inv.mk_plain)

theorem gleanFrom_inv {q : List Instr} : ∀ s x1, Inv q s → Inv q (gleanFrom s x1) := by
  intro s x1 h
  unfold gleanFrom
  repeat' first
    | with_reducible assumption
    | with_reducible intro _
    | with_reducible apply gleanList_inv
    | with_reducible apply inv_ite
    | split
    | (dsimp only; split)
    | refine inv_fst (by with_reducible assumption) ?_
    | refine inv_snd (by with_reducible assumption) ?_

end Sys2Proof.Machine
end

