-- ==== Sys2Proof/Laws/InvLighter.lean ====
section
/-! SUPPORT. Laws/InvLighter.lean: every function of Machine/Lighter.lean keeps the invariant of a sound state. -/

namespace Sys2Proof.Machine

theorem putStage_inv {q : List Instr} : ∀ s x1 x2 x3, Inv q s → Inv q (putStage s x1 x2 x3) := by
  intro s x1 x2 x3
  induction x3 generalizing s x1 x2 with
  | nil => intro h; exact h
  | cons b l ih =>
    intro h
    unfold putStage
    try dsimp only
    repeat' first
      | with_reducible assumption
      | with_reducible intro _
      | with_reducible apply ih
      | with_reducible apply inv_ite
      | split
      | (dsimp only; split)
      | refine inv_fst (by with_reducible assumption) ?_
      | refine inv_snd (by with_reducible assumption) ?_
      | with_reducible apply Inv.mk_plain
      | with_reducible refine Inv.mk_bays ?_ (by first | exact id | exact Table.wf_put _ _ _ _ | exact Table.wf_upd _ _ _ _ | exact Table.wf_mapVals _ _ _ | exact Table.wf_putList _ _ _ _ | exact Table.wf_filter _ _ _ | exact fun h => Table.wf_put _ _ _ _ (Table.wf_put _ _ _ _ h) | exact fun _ => rfl)
      | (dsimp only; with_reducible apply Inv.mk_plain)
      | (dsimp only; with_reducible refine Inv.mk_bays ?_ (by first | exact id | exact Table.wf_put _ _ _ _ | exact Table.wf_upd _ _ _ _ | exact Table.wf_mapVals _ _ _ | exact Table.wf_putList _ _ _ _ | exact Table.wf_filter _ _ _ | exact fun h => Table.wf_put _ _ _ _ (Table.wf_put _ _ _ _ h) | exact fun _ => rfl))

theorem badDba_inv {q : List Instr} : ∀ s, Inv q s → Inv q (badDba s) := by
  intro s h
  unfold badDba
  repeat' first
    | with_reducible assumption
    | with_reducible intro _
    | with_reducible apply inv_ite
    | split
    | (dsimp only; split)
    | refine inv_fst (by with_reducible assumption) ?_
    | refine inv_snd (by with_reducible assumption) ?_
    | with_reducible apply Inv.mk_plain
    | (dsimp only; with_reducible apply Inv.mk_plain)

theorem stageWrite_inv {q : List Instr} : ∀ s x1 x2, Inv q s → Inv q (stageWrite s x1 x2) := by
  intro s x1 x2 h
  unfold stageWrite
  repeat' first
    | with_reducible assumption
    | with_reducible intro _
    | with_reducible apply putStage_inv
    | with_reducible apply inv_ite
    | split
    | (dsimp only; split)
    | refine inv_fst (by with_reducible assumption) ?_
    | refine inv_snd (by with_reducible assumption) ?_
    | with_reducible apply Inv.mk_plain
    | (dsimp only; with_reducible apply Inv.mk_plain)

theorem execStagingWrite_inv {q : List Instr} : ∀ x0 x1 s, Inv q s → OInv q (execStagingWrite x0 x1 s) := by
  intro x0 x1 s h
  unfold execStagingWrite
  repeat' first
    | with_reducible assumption
    | with_reducible intro _
    | with_reducible apply stageWrite_inv
    | with_reducible apply badDba_inv
    | with_reducible apply inv_ite
    | with_reducible apply oinv_next
    | with_reducible apply oinv_ite
    | split
    | (dsimp only; split)
    | refine inv_fst (by with_reducible assumption) ?_
    | refine inv_snd (by with_reducible assumption) ?_
    | with_reducible apply Inv.mk_plain
    | (dsimp only; with_reducible apply Inv.mk_plain)

theorem resumeHeld_inv {q : List Instr} : ∀ x0 s, Inv q s → Inv q (resumeHeld x0 s) := by
  intro x0 s
  induction x0 generalizing s with
  | zero => intro h; exact h
  | succ k ih =>
    intro h
    unfold resumeHeld
    try dsimp only
    repeat' first
      | with_reducible assumption
      | with_reducible intro _
      | with_reducible apply stageWrite_inv
      | with_reducible apply ih
      | with_reducible apply inv_ite
      | split
      | (dsimp only; split)
      | refine inv_fst (by with_reducible assumption) ?_
      | refine inv_snd (by with_reducible assumption) ?_
      | with_reducible apply Inv.mk_plain
      | (dsimp only; with_reducible apply Inv.mk_plain)

theorem execBaywaitResume_inv {q : List Instr} : ∀ s, Inv q s → OInv q (execBaywaitResume s) := by
  intro s h
  unfold execBaywaitResume
  repeat' first
    | with_reducible assumption
    | with_reducible intro _
    | with_reducible apply resumeHeld_inv
    | with_reducible apply inv_ite
    | with_reducible apply oinv_next
    | with_reducible apply oinv_ite
    | split
    | (dsimp only; split)
    | refine inv_fst (by with_reducible assumption) ?_
    | refine inv_snd (by with_reducible assumption) ?_

theorem execStagingRead_inv {q : List Instr} : ∀ x0 x1 x2 s, Inv q s → OInv q (execStagingRead x0 x1 x2 s) := by
  intro x0 x1 x2 s h
  unfold execStagingRead
  repeat' first
    | with_reducible assumption
    | with_reducible intro _
    | with_reducible apply emit_inv
    | with_reducible apply badDba_inv
    | with_reducible apply inv_ite
    | with_reducible apply oinv_next
    | with_reducible apply oinv_ite
    | split
    | (dsimp only; split)
    | refine inv_fst (by with_reducible assumption) ?_
    | refine inv_snd (by with_reducible assumption) ?_
    | with_reducible apply Inv.mk_plain
    | (dsimp only; with_reducible apply Inv.mk_plain)

theorem execPrpListRead_inv {q : List Instr} : ∀ x0 x1 s, Inv q s → OInv q (execPrpListRead x0 x1 s) := by
  intro x0 x1 s h
  unfold execPrpListRead
  repeat' first
    | with_reducible assumption
    | with_reducible intro _
    | with_reducible apply emit_inv
    | with_reducible apply badDba_inv
    | with_reducible apply inv_ite
    | with_reducible apply oinv_next
    | with_reducible apply oinv_ite
    | split
    | (dsimp only; split)
    | refine inv_fst (by with_reducible assumption) ?_
    | refine inv_snd (by with_reducible assumption) ?_

theorem execCellarDeviceAccess_inv {q : List Instr} : ∀ x0 x1 x2 x3 s, Inv q s → OInv q (execCellarDeviceAccess x0 x1 x2 x3 s) := by
  intro x0 x1 x2 x3 s h
  unfold execCellarDeviceAccess
  repeat' first
    | with_reducible assumption
    | with_reducible intro _
    | with_reducible apply emit_inv
    | with_reducible apply badDba_inv
    | with_reducible apply raise_inv
    | with_reducible apply inv_ite
    | with_reducible apply oinv_next
    | with_reducible apply oinv_ite
    | split
    | (dsimp only; split)
    | refine inv_fst (by with_reducible assumption) ?_
    | refine inv_snd (by with_reducible assumption) ?_
    | with_reducible apply Inv.mk_plain
    | with_reducible refine Inv.mk_cellar ?_ (by first | exact id | exact Table.wf_put _ _ _ _ | exact Table.wf_upd _ _ _ _ | exact Table.wf_mapVals _ _ _ | exact Table.wf_putList _ _ _ _ | exact Table.wf_filter _ _ _ | exact fun h => Table.wf_put _ _ _ _ (Table.wf_put _ _ _ _ h) | exact fun _ => rfl)
    | (dsimp only; with_reducible apply Inv.mk_plain)
    | (dsimp only; with_reducible refine Inv.mk_cellar ?_ (by first | exact id | exact Table.wf_put _ _ _ _ | exact Table.wf_upd _ _ _ _ | exact Table.wf_mapVals _ _ _ | exact Table.wf_putList _ _ _ _ | exact Table.wf_filter _ _ _ | exact fun h => Table.wf_put _ _ _ _ (Table.wf_put _ _ _ _ h) | exact fun _ => rfl))

theorem execCellarStarve_inv {q : List Instr} : ∀ x0 s, Inv q s → OInv q (execCellarStarve x0 s) := by
  intro x0 s h
  unfold execCellarStarve
  repeat' first
    | with_reducible assumption
    | with_reducible intro _
    | with_reducible apply raise_inv
    | with_reducible apply inv_ite
    | with_reducible apply oinv_next
    | with_reducible apply oinv_ite
    | split
    | (dsimp only; split)
    | refine inv_fst (by with_reducible assumption) ?_
    | refine inv_snd (by with_reducible assumption) ?_
    | with_reducible apply Inv.mk_plain
    | (dsimp only; with_reducible apply Inv.mk_plain)

theorem celOwnWrite_inv {q : List Instr} : ∀ s b v, Inv q s → Inv q (celOwnWrite s b v) := by
  intro s b v h
  unfold celOwnWrite
  dsimp only
  split
  · exact h
  split
  · exact Inv.mk_celOwn h (Table.wf_put _ _ _ _) (owners_put _ _ (by decide) _)
  · split
    · exact Inv.mk_celOwn h (Table.wf_put _ _ _ _) (owners_put _ _ (by decide) _)
    · exact Inv.mk_plain h

theorem execCelOwnWrite_inv {q : List Instr} : ∀ x0 x1 x2 s, Inv q s → OInv q (execCelOwnWrite x0 x1 x2 s) := by
  intro x0 x1 x2 s h
  unfold execCelOwnWrite
  repeat' first
    | with_reducible assumption
    | with_reducible intro _
    | with_reducible apply ctlWake_inv
    | with_reducible apply celOwnWrite_inv
    | with_reducible apply inv_ite
    | with_reducible apply oinv_next
    | with_reducible apply oinv_ite
    | split
    | (dsimp only; split)
    | refine inv_fst (by with_reducible assumption) ?_
    | refine inv_snd (by with_reducible assumption) ?_

theorem execBankWipeDone_inv {q : List Instr} : ∀ b s, Inv q s → OInv q (execBankWipeDone b s) := by
  intro b s h
  unfold execBankWipeDone
  apply oinv_next
  split
  · exact Inv.mk_celOwn (wipeBanks_inv _ _ h) (Table.wf_put _ _ _ _) (owners_put _ _ (by decide) _)
  · exact h

theorem setLighter_inv {q : List Instr} : ∀ s x1 x2, Inv q s → Inv q (setLighter s x1 x2) := by
  intro s x1 x2 h
  unfold setLighter
  repeat' first
    | with_reducible assumption
    | with_reducible intro _
    | with_reducible apply inv_ite
    | split
    | (dsimp only; split)
    | refine inv_fst (by with_reducible assumption) ?_
    | refine inv_snd (by with_reducible assumption) ?_
    | with_reducible apply Inv.mk_plain
    | (dsimp only; with_reducible apply Inv.mk_plain)

theorem setKey_inv {q : List Instr} : ∀ s x1 x2, Inv q s → Inv q (setKey s x1 x2) := by
  intro s x1 x2 h
  unfold setKey
  repeat' first
    | with_reducible assumption
    | with_reducible intro _
    | with_reducible apply inv_ite
    | split
    | (dsimp only; split)
    | refine inv_fst (by with_reducible assumption) ?_
    | refine inv_snd (by with_reducible assumption) ?_
    | with_reducible apply Inv.mk_plain
    | (dsimp only; with_reducible apply Inv.mk_plain)

theorem requestGen_inv {q : List Instr} : ∀ s x1, Inv q s → Inv q (requestGen s x1) := by
  intro s x1 h
  unfold requestGen
  repeat' first
    | with_reducible assumption
    | with_reducible intro _
    | with_reducible apply emit_inv
    | with_reducible apply setKey_inv
    | with_reducible apply inv_ite
    | split
    | (dsimp only; split)
    | refine inv_fst (by with_reducible assumption) ?_
    | refine inv_snd (by with_reducible assumption) ?_

theorem keyWrite_inv {q : List Instr} : ∀ s x1 x2, Inv q s → Inv q (keyWrite s x1 x2) := by
  intro s x1 x2 h
  unfold keyWrite
  repeat' first
    | with_reducible assumption
    | with_reducible intro _
    | with_reducible apply setKey_inv
    | with_reducible apply requestGen_inv
    | with_reducible apply inv_ite
    | split
    | (dsimp only; split)
    | refine inv_fst (by with_reducible assumption) ?_
    | refine inv_snd (by with_reducible assumption) ?_

theorem execKeyEnable_inv {q : List Instr} : ∀ x0 x1 x2 s, Inv q s → OInv q (execKeyEnable x0 x1 x2 s) := by
  intro x0 x1 x2 s h
  unfold execKeyEnable
  repeat' first
    | with_reducible assumption
    | with_reducible intro _
    | with_reducible apply ctlWake_inv
    | with_reducible apply keyWrite_inv
    | with_reducible apply inv_ite
    | with_reducible apply oinv_next
    | with_reducible apply oinv_ite
    | split
    | (dsimp only; split)
    | refine inv_fst (by with_reducible assumption) ?_
    | refine inv_snd (by with_reducible assumption) ?_

theorem acctAdd_inv {q : List Instr} : ∀ s x1 x2, Inv q s → Inv q (acctAdd s x1 x2) := by
  intro s x1 x2 h
  unfold acctAdd
  repeat' first
    | with_reducible assumption
    | with_reducible intro _
    | with_reducible apply hmLog_inv
    | with_reducible apply inv_ite
    | split
    | (dsimp only; split)
    | refine inv_fst (by with_reducible assumption) ?_
    | refine inv_snd (by with_reducible assumption) ?_
    | with_reducible apply Inv.mk_plain
    | (dsimp only; with_reducible apply Inv.mk_plain)

theorem endRekey_inv {q : List Instr} : ∀ s x1, Inv q s → Inv q (endRekey s x1) := by
  intro s x1 h
  unfold endRekey
  repeat' first
    | with_reducible assumption
    | with_reducible intro _
    | with_reducible apply updXctx_inv
    | with_reducible apply addWait_inv
    | with_reducible apply inv_ite
    | split
    | (dsimp only; split)
    | refine inv_fst (by with_reducible assumption) ?_
    | refine inv_snd (by with_reducible assumption) ?_

theorem endRekeyWaits_inv {q : List Instr} : ∀ s x1, Inv q s → Inv q (endRekeyWaits s x1) := by
  intro s x1 h
  unfold endRekeyWaits
  repeat' first
    | with_reducible assumption
    | with_reducible intro _
    | with_reducible apply endRekey_inv
    | with_reducible apply inv_ite
    | with_reducible refine inv_foldl (fun _ _ _ => ?_) _ _ ?_
    | split
    | (dsimp only; split)
    | refine inv_fst (by with_reducible assumption) ?_
    | refine inv_snd (by with_reducible assumption) ?_

theorem execGenerationInstalled_inv {q : List Instr} : ∀ x0 s, Inv q s → OInv q (execGenerationInstalled x0 s) := by
  intro x0 s h
  unfold execGenerationInstalled
  repeat' first
    | with_reducible assumption
    | with_reducible intro _
    | with_reducible apply acctAdd_inv
    | with_reducible apply setKey_inv
    | with_reducible apply raise_inv
    | with_reducible apply endRekeyWaits_inv
    | with_reducible apply inv_ite
    | with_reducible apply oinv_next
    | with_reducible apply oinv_ite
    | split
    | (dsimp only; split)
    | refine inv_fst (by with_reducible assumption) ?_
    | refine inv_snd (by with_reducible assumption) ?_
    | with_reducible apply Inv.mk_plain
    | (dsimp only; with_reducible apply Inv.mk_plain)

theorem redriveWord_inv {q : List Instr} : ∀ s x1, Inv q s → Inv q (redriveWord s x1) := by
  intro s x1 h
  unfold redriveWord
  repeat' first
    | with_reducible assumption
    | with_reducible intro _
    | with_reducible apply orphanCmds_inv
    | with_reducible apply updXctx_inv
    | with_reducible apply inv_ite
    | split
    | (dsimp only; split)
    | refine inv_fst (by with_reducible assumption) ?_
    | refine inv_snd (by with_reducible assumption) ?_

theorem orderPathLost_inv {q : List Instr} : ∀ s x1, Inv q s → Inv q (orderPathLost s x1) := by
  intro s x1 h
  unfold orderPathLost
  repeat' first
    | with_reducible assumption
    | with_reducible intro _
    | with_reducible apply loseCmd_inv
    | with_reducible apply inv_ite
    | with_reducible refine inv_foldl (fun _ _ _ => ?_) _ _ ?_
    | split
    | (dsimp only; split)
    | refine inv_fst (by with_reducible assumption) ?_
    | refine inv_snd (by with_reducible assumption) ?_

theorem orderOutcome_inv {q : List Instr} : ∀ s x1 x2 x3, Inv q s → Inv q (orderOutcome s x1 x2 x3) := by
  intro s x1 x2 x3 h
  unfold orderOutcome
  repeat' first
    | with_reducible assumption
    | with_reducible intro _
    | with_reducible apply failCur_inv
    | with_reducible apply tryEnd_inv
    | with_reducible apply updXctx_inv
    | with_reducible apply redriveWord_inv
    | with_reducible apply orderPathLost_inv
    | with_reducible apply inv_ite
    | split
    | (dsimp only; split)
    | refine inv_fst (by with_reducible assumption) ?_
    | refine inv_snd (by with_reducible assumption) ?_

theorem orderServed_inv {q : List Instr} : ∀ s x1 x2, Inv q s → Inv q (orderServed s x1 x2) := by
  intro s x1 x2 h
  unfold orderServed
  repeat' first
    | with_reducible assumption
    | with_reducible intro _
    | with_reducible apply endServe_inv
    | with_reducible apply inv_ite
    | with_reducible apply pinv_ite
    | with_reducible apply pinv_done
    | with_reducible apply pinv_trap
    | with_reducible apply pinv_brk
    | with_reducible apply pinv_stop
    | split
    | (dsimp only; split)
    | refine inv_fst (by with_reducible assumption) ?_
    | refine inv_snd (by with_reducible assumption) ?_
    | refine pinv_of_done (by with_reducible assumption) ?_
    | refine pinv_of_brk (by with_reducible assumption) ?_
    | refine pinv_of_trap (by with_reducible assumption) ?_
    | refine pinv_of_stop (by with_reducible assumption) ?_

theorem markRead_inv {q : List Instr} : ∀ s x1 x2 x3, Inv q s → Inv q (markRead s x1 x2 x3) := by
  intro s x1 x2 x3 h
  unfold markRead
  repeat' first
    | with_reducible assumption
    | with_reducible intro _
    | with_reducible apply inv_ite
    | with_reducible refine inv_foldl (fun _ _ _ => ?_) _ _ ?_
    | split
    | (dsimp only; split)
    | refine inv_fst (by with_reducible assumption) ?_
    | refine inv_snd (by with_reducible assumption) ?_
    | with_reducible apply Inv.mk_plain
    | with_reducible refine Inv.mk_bays ?_ (by first | exact id | exact Table.wf_put _ _ _ _ | exact Table.wf_upd _ _ _ _ | exact Table.wf_mapVals _ _ _ | exact Table.wf_putList _ _ _ _ | exact Table.wf_filter _ _ _ | exact fun h => Table.wf_put _ _ _ _ (Table.wf_put _ _ _ _ h) | exact fun _ => rfl)
    | (dsimp only; with_reducible apply Inv.mk_plain)
    | (dsimp only; with_reducible refine Inv.mk_bays ?_ (by first | exact id | exact Table.wf_put _ _ _ _ | exact Table.wf_upd _ _ _ _ | exact Table.wf_mapVals _ _ _ | exact Table.wf_putList _ _ _ _ | exact Table.wf_filter _ _ _ | exact fun h => Table.wf_put _ _ _ _ (Table.wf_put _ _ _ _ h) | exact fun _ => rfl))

theorem markList_inv {q : List Instr} : ∀ gs s m, Inv q s → Inv q (markList s gs m)
  | [], _, _, h => h
  | g :: gs, s, m, h => by
    unfold markList
    dsimp only
    refine markList_inv gs _ _ ?_
    split
    · exact markRead_inv _ _ _ _ h
    · exact h

theorem freePages_inv {q : List Instr} : ∀ s x1, Inv q s → Inv q (freePages s x1) := by
  intro s x1 h
  unfold freePages
  repeat' first
    | with_reducible assumption
    | with_reducible intro _
    | with_reducible apply inv_ite
    | split
    | (dsimp only; split)
    | refine inv_fst (by with_reducible assumption) ?_
    | refine inv_snd (by with_reducible assumption) ?_
    | with_reducible apply Inv.mk_plain
    | with_reducible refine Inv.mk_bays ?_ (by first | exact id | exact Table.wf_put _ _ _ _ | exact Table.wf_upd _ _ _ _ | exact Table.wf_mapVals _ _ _ | exact Table.wf_putList _ _ _ _ | exact Table.wf_filter _ _ _ | exact fun h => Table.wf_put _ _ _ _ (Table.wf_put _ _ _ _ h) | exact fun _ => rfl)
    | (dsimp only; with_reducible apply Inv.mk_plain)
    | (dsimp only; with_reducible refine Inv.mk_bays ?_ (by first | exact id | exact Table.wf_put _ _ _ _ | exact Table.wf_upd _ _ _ _ | exact Table.wf_mapVals _ _ _ | exact Table.wf_putList _ _ _ _ | exact Table.wf_filter _ _ _ | exact fun h => Table.wf_put _ _ _ _ (Table.wf_put _ _ _ _ h) | exact fun _ => rfl))

theorem releaseSource_inv {q : List Instr} : ∀ s x1 x2, Inv q s → Inv q (releaseSource s x1 x2) := by
  intro s x1 x2 h
  unfold releaseSource
  repeat' first
    | with_reducible assumption
    | with_reducible intro _
    | with_reducible apply markList_inv
    | with_reducible apply freePages_inv
    | with_reducible apply inv_ite
    | split
    | (dsimp only; split)
    | refine inv_fst (by with_reducible assumption) ?_
    | refine inv_snd (by with_reducible assumption) ?_

theorem endOrder_inv {q : List Instr} : ∀ s x1 x2 x3 x4 x5, Inv q s → Inv q (endOrder s x1 x2 x3 x4 x5) := by
  intro s x1 x2 x3 x4 x5 h
  unfold endOrder
  repeat' first
    | with_reducible assumption
    | with_reducible intro _
    | with_reducible apply setLighter_inv
    | with_reducible apply planeLeave_inv
    | with_reducible apply raise_inv
    | with_reducible apply freePages_inv
    | with_reducible apply releaseSource_inv
    | with_reducible apply endRekey_inv
    | with_reducible apply orderServed_inv
    | with_reducible apply orderOutcome_inv
    | with_reducible apply inv_ite
    | split
    | (dsimp only; split)
    | refine inv_fst (by with_reducible assumption) ?_
    | refine inv_snd (by with_reducible assumption) ?_
    | with_reducible apply Inv.mk_plain
    | with_reducible refine Inv.mk_cellar ?_ (by first | exact id | exact Table.wf_put _ _ _ _ | exact Table.wf_upd _ _ _ _ | exact Table.wf_mapVals _ _ _ | exact Table.wf_putList _ _ _ _ | exact Table.wf_filter _ _ _ | exact fun h => Table.wf_put _ _ _ _ (Table.wf_put _ _ _ _ h) | exact fun _ => rfl)
    | (dsimp only; with_reducible apply Inv.mk_plain)
    | (dsimp only; with_reducible refine Inv.mk_cellar ?_ (by first | exact id | exact Table.wf_put _ _ _ _ | exact Table.wf_upd _ _ _ _ | exact Table.wf_mapVals _ _ _ | exact Table.wf_putList _ _ _ _ | exact Table.wf_filter _ _ _ | exact fun h => Table.wf_put _ _ _ _ (Table.wf_put _ _ _ _ h) | exact fun _ => rfl))

theorem lgoBody_inv {q : List Instr} : ∀ x0 x1 x2 s, Inv q s → PRes.Inv q (lgoBody x0 x1 x2 s) := by
  intro x0 x1 x2 s h
  unfold lgoBody
  repeat' first
    | with_reducible assumption
    | with_reducible intro _
    | with_reducible apply watchAll_inv
    | with_reducible apply watch_inv
    | with_reducible apply setLighter_inv
    | with_reducible apply updPilot_inv
    | with_reducible apply inv_ite
    | with_reducible apply pinv_ite
    | with_reducible apply pinv_done
    | with_reducible apply pinv_trap
    | with_reducible apply pinv_brk
    | with_reducible apply pinv_stop
    | split
    | (dsimp only; split)
    | refine inv_fst (by with_reducible assumption) ?_
    | refine inv_snd (by with_reducible assumption) ?_
    | refine pinv_of_done (by with_reducible assumption) ?_
    | refine pinv_of_brk (by with_reducible assumption) ?_
    | refine pinv_of_trap (by with_reducible assumption) ?_
    | refine pinv_of_stop (by with_reducible assumption) ?_

theorem execLgo_inv {q : List Instr} : ∀ x0 s, Inv q s → OInv q (execLgo x0 s) := by
  intro x0 s h
  unfold execLgo
  repeat' first
    | with_reducible assumption
    | with_reducible intro _
    | with_reducible apply rrr_inv
    | with_reducible apply lgoBody_inv
    | with_reducible apply inv_ite
    | with_reducible apply oinv_next
    | with_reducible apply oinv_ite
    | split
    | (dsimp only; split)
    | refine inv_fst (by with_reducible assumption) ?_
    | refine inv_snd (by with_reducible assumption) ?_

theorem execLfree_inv {q : List Instr} : ∀ x0 s, Inv q s → OInv q (execLfree x0 s) := by
  intro x0 s h
  unfold execLfree
  repeat' first
    | with_reducible assumption
    | with_reducible intro _
    | with_reducible apply rrr_inv
    | with_reducible apply mcode_inv
    | with_reducible apply lfree_inv
    | with_reducible apply inv_ite
    | with_reducible apply pinv_ite
    | with_reducible apply pinv_done
    | with_reducible apply pinv_trap
    | with_reducible apply pinv_brk
    | with_reducible apply pinv_stop
    | with_reducible apply oinv_next
    | with_reducible apply oinv_ite
    | split
    | (dsimp only; split)
    | refine inv_fst (by with_reducible assumption) ?_
    | refine inv_snd (by with_reducible assumption) ?_
    | refine pinv_of_done (by with_reducible assumption) ?_
    | refine pinv_of_brk (by with_reducible assumption) ?_
    | refine pinv_of_trap (by with_reducible assumption) ?_
    | refine pinv_of_stop (by with_reducible assumption) ?_

theorem keyAge_inv {q : List Instr} : ∀ s x1, Inv q s → Inv q (keyAge s x1) := by
  intro s x1 h
  unfold keyAge
  repeat' first
    | with_reducible assumption
    | with_reducible intro _
    | with_reducible apply setKey_inv
    | with_reducible apply requestGen_inv
    | with_reducible apply inv_ite
    | split
    | (dsimp only; split)
    | refine inv_fst (by with_reducible assumption) ?_
    | refine inv_snd (by with_reducible assumption) ?_
    | with_reducible apply Inv.mk_plain
    | (dsimp only; with_reducible apply Inv.mk_plain)

theorem reserveInv_inv {q : List Instr} : ∀ s x1 x2, Inv q s → Inv q (reserveInv s x1 x2).2 := by
  intro s x1 x2 h
  unfold reserveInv
  repeat' first
    | with_reducible assumption
    | with_reducible intro _
    | with_reducible apply keyAge_inv
    | with_reducible apply setKey_inv
    | with_reducible apply inv_ite
    | split
    | (dsimp only; split)
    | dsimp only
    | refine inv_fst (by with_reducible assumption) ?_
    | refine inv_snd (by with_reducible assumption) ?_

theorem orderWaits_inv {q : List Instr} : ∀ s x1 x2, Inv q s → Inv q (orderWaits s x1 x2) := by
  intro s x1 x2 h
  unfold orderWaits
  repeat' first
    | with_reducible assumption
    | with_reducible intro _
    | with_reducible apply setLighter_inv
    | with_reducible apply updXctx_inv
    | with_reducible apply inv_ite
    | split
    | (dsimp only; split)
    | refine inv_fst (by with_reducible assumption) ?_
    | refine inv_snd (by with_reducible assumption) ?_

theorem startOrder_inv {q : List Instr} : ∀ s x1 x2 x3 x4, Inv q s → Inv q (startOrder s x1 x2 x3 x4) := by
  intro s x1 x2 x3 x4 h
  unfold startOrder
  repeat' first
    | with_reducible assumption
    | with_reducible intro _
    | with_reducible apply planeAsk_inv
    | with_reducible apply setLighter_inv
    | with_reducible apply emit_inv
    | with_reducible apply reserveInv_inv
    | with_reducible apply orderWaits_inv
    | with_reducible apply inv_ite
    | with_reducible refine inv_foldl (fun _ _ _ => ?_) _ _ ?_
    | split
    | (dsimp only; split)
    | refine inv_fst (by with_reducible assumption) ?_
    | refine inv_snd (by with_reducible assumption) ?_

theorem execLighterOrderStart_inv {q : List Instr} : ∀ x0 x1 x2 x3 s, Inv q s → OInv q (execLighterOrderStart x0 x1 x2 x3 s) := by
  intro x0 x1 x2 x3 s h
  unfold execLighterOrderStart
  repeat' first
    | with_reducible assumption
    | with_reducible intro _
    | with_reducible apply endOrder_inv
    | with_reducible apply startOrder_inv
    | with_reducible apply inv_ite
    | with_reducible apply oinv_next
    | with_reducible apply oinv_ite
    | split
    | (dsimp only; split)
    | refine inv_fst (by with_reducible assumption) ?_
    | refine inv_snd (by with_reducible assumption) ?_

theorem putCellarByte_inv {q : List Instr} : ∀ s x1 x2, Inv q s → Inv q (putCellarByte s x1 x2) := by
  intro s x1 x2 h
  unfold putCellarByte
  repeat' first
    | with_reducible assumption
    | with_reducible intro _
    | with_reducible apply inv_ite
    | split
    | (dsimp only; split)
    | refine inv_fst (by with_reducible assumption) ?_
    | refine inv_snd (by with_reducible assumption) ?_
    | with_reducible apply Inv.mk_plain
    | with_reducible refine Inv.mk_cellar ?_ (by first | exact id | exact Table.wf_put _ _ _ _ | exact Table.wf_upd _ _ _ _ | exact Table.wf_mapVals _ _ _ | exact Table.wf_putList _ _ _ _ | exact Table.wf_filter _ _ _ | exact fun h => Table.wf_put _ _ _ _ (Table.wf_put _ _ _ _ h) | exact fun _ => rfl)
    | (dsimp only; with_reducible apply Inv.mk_plain)
    | (dsimp only; with_reducible refine Inv.mk_cellar ?_ (by first | exact id | exact Table.wf_put _ _ _ _ | exact Table.wf_upd _ _ _ _ | exact Table.wf_mapVals _ _ _ | exact Table.wf_putList _ _ _ _ | exact Table.wf_filter _ _ _ | exact fun h => Table.wf_put _ _ _ _ (Table.wf_put _ _ _ _ h) | exact fun _ => rfl))

theorem putCellar_inv {q : List Instr} : ∀ s x1 x2 x3, Inv q s → Inv q (putCellar s x1 x2 x3).1 := by
  intro s x1 x2 x3
  induction x3 generalizing s x1 x2 with
  | nil => intro h; exact h
  | cons b l ih =>
    intro h
    unfold putCellar
    try dsimp only
    repeat' first
      | with_reducible assumption
      | with_reducible intro _
      | with_reducible apply putCellarByte_inv
      | with_reducible apply ih
      | with_reducible apply inv_ite
      | split
      | (dsimp only; split)
      | dsimp only
      | refine inv_fst (by with_reducible assumption) ?_
      | refine inv_snd (by with_reducible assumption) ?_

theorem sendRdata_inv {q : List Instr} : ∀ x0 s x2 x3 x4 x5 x6, Inv q s → Inv q (sendRdata x0 s x2 x3 x4 x5 x6) := by
  intro x0 s x2 x3 x4 x5 x6
  induction x0 generalizing s x2 x3 x4 x5 x6 with
  | zero => intro h; exact h
  | succ k ih =>
    intro h
    unfold sendRdata
    try dsimp only
    repeat' first
      | with_reducible assumption
      | with_reducible intro _
      | with_reducible apply laneSend_inv
      | with_reducible apply ih
      | with_reducible apply inv_ite
      | split
      | (dsimp only; split)
      | refine inv_fst (by with_reducible assumption) ?_
      | refine inv_snd (by with_reducible assumption) ?_

theorem hostWrites_inv {q : List Instr} : ∀ x0 s x2 x3 x4 x5 x6, Inv q s → Inv q (hostWrites x0 s x2 x3 x4 x5 x6) := by
  intro x0 s x2 x3 x4 x5 x6
  induction x0 generalizing s x2 x3 x4 x5 x6 with
  | zero => intro h; exact h
  | succ k ih =>
    intro h
    unfold hostWrites
    try dsimp only
    repeat' first
      | with_reducible assumption
      | with_reducible intro _
      | with_reducible apply emit_inv
      | with_reducible apply ih
      | with_reducible apply inv_ite
      | split
      | (dsimp only; split)
      | refine inv_fst (by with_reducible assumption) ?_
      | refine inv_snd (by with_reducible assumption) ?_

/-- One entry of the destination list. -/
theorem putDest_cons (l : Nat) (o : Order) (lost : Bool) (s : State) (g : BitVec 128) (gs : List (BitVec 128))
    (data : List Byte) : putDest l o lost s (g :: gs) data = (
    let bs := data.take (LdLen g)
    let a := LdAddr g
    if bs.isEmpty then (s, 0, 0)
    else
      let pas := if (o.w 0).getLsbD 52 then some ((o.w 0).extractLsb' 30 20) else none
      let r : State × Nat × Nat :=
        if LdSkip g then (s, bs.length, 0)
        else if LdSpace g = 0 then
          (hostWrites (bs.length / 4096 + 1) s ((o.w 0).extractLsb' 50 2).toNat (lighterLane l) pas a bs, bs.length, 0)
        else if LdSpace g = 1 then putCellar s o.world a.toNat bs
        else if LdSpace g = 2 then (putStage s true a.toNat bs, bs.length, 0)
        else
          let p := (a.extractLsb' 56 6).toNat
          if lost || decide ((pathOf s p).state ≠ 2) then (s, 0, 10)
          else (sendRdata (bs.length + 1) s p ((o.w 0).extractLsb' 53 3).toNat (a.extractLsb' 24 32)
                  (a.extractLsb' 0 24).toNat bs, bs.length, 0)
      if r.2.2 ≠ 0 then (r.1, r.2.1, r.2.2)
      else
        let t := putDest l o lost r.1 gs (data.drop (LdLen g))
        (t.1, r.2.1 + t.2.1, t.2.2)) := rfl

theorem putDest_inv {q : List Instr} (l : Nat) (o : Order) (lost : Bool) : ∀ s gs data,
    Inv q s → Inv q (putDest l o lost s gs data).1 := by
  intro s gs
  induction gs generalizing s with
  | nil => intro _ h; exact h
  | cons g gs ih =>
    intro data h
    rw [putDest_cons]
    dsimp only
    split
    · exact h
    · generalize hr : (if LdSkip g = true then (s, (List.take (LdLen g) data).length, 0) else _ : State × Nat × Nat) = r
      have h1 : Inv q r.1 := by
        rw [← hr]
        repeat' first
          | with_reducible assumption
          | with_reducible apply hostWrites_inv
          | with_reducible apply putCellar_inv
          | with_reducible apply putStage_inv
          | with_reducible apply sendRdata_inv
          | split
          | dsimp only
      split
      · exact h1
      · exact ih _ _ h1

theorem cipherBlock_inv {q : List Instr} : ∀ x0 x1 x2 s x4, Inv q s → Inv q (cipherBlock x0 x1 x2 s x4) := by
  intro x0 x1 x2 s x4 h
  unfold cipherBlock
  repeat' first
    | with_reducible assumption
    | with_reducible intro _
    | with_reducible apply emit_inv
    | with_reducible apply inv_ite
    | split
    | (dsimp only; split)
    | refine inv_fst (by with_reducible assumption) ?_
    | refine inv_snd (by with_reducible assumption) ?_

theorem cipherPass_inv {q : List Instr} : ∀ s x1 x2 x3 x4, Inv q s → Inv q (cipherPass s x1 x2 x3 x4) := by
  intro s x1 x2 x3 x4 h
  unfold cipherPass
  repeat' first
    | with_reducible assumption
    | with_reducible intro _
    | with_reducible apply cipherBlock_inv
    | with_reducible apply takeFree_inv
    | with_reducible apply inv_ite
    | with_reducible refine inv_foldl (fun _ _ _ => ?_) _ _ ?_
    | split
    | (dsimp only; split)
    | refine inv_fst (by with_reducible assumption) ?_
    | refine inv_snd (by with_reducible assumption) ?_

theorem putRecords_inv {q : List Instr} : ∀ s x1 x2 x3, Inv q s → Inv q (putRecords s x1 x2 x3) := by
  intro s x1 x2 x3 h
  unfold putRecords
  repeat' first
    | with_reducible assumption
    | with_reducible intro _
    | with_reducible apply putStage_inv
    | with_reducible apply inv_ite
    | with_reducible refine inv_foldl (fun _ _ _ => ?_) _ _ ?_
    | split
    | (dsimp only; split)
    | refine inv_fst (by with_reducible assumption) ?_
    | refine inv_snd (by with_reducible assumption) ?_

theorem addWaits_inv {q : List Instr} : ∀ s x1, Inv q s → Inv q (addWaits s x1) := by
  intro s x1 h
  unfold addWaits
  repeat' first
    | with_reducible assumption
    | with_reducible intro _
    | with_reducible apply inv_ite
    | with_reducible refine inv_foldl (fun _ _ _ => ?_) _ _ ?_
    | split
    | (dsimp only; split)
    | refine inv_fst (by with_reducible assumption) ?_
    | refine inv_snd (by with_reducible assumption) ?_
    | with_reducible apply Inv.mk_plain
    | (dsimp only; with_reducible apply Inv.mk_plain)

theorem runOrder_inv {q : List Instr} : ∀ s x1 x2 x3, Inv q s → Inv q (runOrder s x1 x2 x3) := by
  intro s x1 x2 x3 h
  unfold runOrder
  repeat' first
    | with_reducible assumption
    | with_reducible intro _
    | with_reducible apply addWaits_inv
    | with_reducible apply emit_inv
    | with_reducible apply cipherPass_inv
    | with_reducible apply endOrder_inv
    | with_reducible apply putDest_inv
    | with_reducible apply putRecords_inv
    | with_reducible apply inv_ite
    | with_reducible refine inv_foldl (fun _ _ _ => ?_) _ _ ?_
    | split
    | (dsimp only; split)
    | refine inv_fst (by with_reducible assumption) ?_
    | refine inv_snd (by with_reducible assumption) ?_
    | with_reducible apply Inv.mk_plain
    | (dsimp only; with_reducible apply Inv.mk_plain)

theorem decryptWait_inv {q : List Instr} : ∀ s x1 x2 x3, Inv q s → Inv q (decryptWait s x1 x2 x3) := by
  intro s x1 x2 x3 h
  unfold decryptWait
  repeat' first
    | with_reducible assumption
    | with_reducible intro _
    | with_reducible apply orderWaits_inv
    | with_reducible apply hmLog_inv
    | with_reducible apply inv_ite
    | split
    | (dsimp only; split)
    | refine inv_fst (by with_reducible assumption) ?_
    | refine inv_snd (by with_reducible assumption) ?_

theorem execLighterOrderComplete_inv {q : List Instr} : ∀ x0 x1 s, Inv q s → OInv q (execLighterOrderComplete x0 x1 s) := by
  intro x0 x1 s h
  unfold execLighterOrderComplete
  repeat' first
    | with_reducible assumption
    | with_reducible intro _
    | with_reducible apply decryptWait_inv
    | with_reducible apply runOrder_inv
    | with_reducible apply inv_ite
    | with_reducible apply oinv_next
    | with_reducible apply oinv_ite
    | split
    | (dsimp only; split)
    | refine inv_fst (by with_reducible assumption) ?_
    | refine inv_snd (by with_reducible assumption) ?_

theorem stopOrder_inv {q : List Instr} : ∀ s x1 x2, Inv q s → Inv q (stopOrder s x1 x2) := by
  intro s x1 x2 h
  unfold stopOrder
  repeat' first
    | with_reducible assumption
    | with_reducible intro _
    | with_reducible apply endOrder_inv
    | with_reducible apply takeFree_inv
    | with_reducible apply putDest_inv
    | with_reducible apply inv_ite
    | split
    | (dsimp only; split)
    | refine inv_fst (by with_reducible assumption) ?_
    | refine inv_snd (by with_reducible assumption) ?_
    | with_reducible apply Inv.mk_plain
    | (dsimp only; with_reducible apply Inv.mk_plain)

theorem stopOrders_inv {q : List Instr} : ∀ s h0, Inv q s → Inv q (stopOrders s h0).1 := by
  intro s h0 h
  unfold stopOrders
  refine inv_foldl_fst (fun r e hr => ?_) _ _ h
  refine inv_foldl_fst (fun r o hr => ?_) _ _ hr
  exact stopOrder_inv _ _ _ hr

theorem execLstop_inv {q : List Instr} : ∀ x0 s, Inv q s → OInv q (execLstop x0 s) := by
  intro x0 s h
  unfold execLstop
  repeat' first
    | with_reducible assumption
    | with_reducible intro _
    | with_reducible apply rrr_inv
    | with_reducible apply stopOrders_inv
    | with_reducible apply updPilot_inv
    | with_reducible apply inv_ite
    | with_reducible apply pinv_ite
    | with_reducible apply pinv_done
    | with_reducible apply pinv_trap
    | with_reducible apply pinv_brk
    | with_reducible apply pinv_stop
    | with_reducible apply oinv_next
    | with_reducible apply oinv_ite
    | split
    | (dsimp only; split)
    | refine inv_fst (by with_reducible assumption) ?_
    | refine inv_snd (by with_reducible assumption) ?_
    | refine pinv_of_done (by with_reducible assumption) ?_
    | refine pinv_of_brk (by with_reducible assumption) ?_
    | refine pinv_of_trap (by with_reducible assumption) ?_
    | refine pinv_of_stop (by with_reducible assumption) ?_

theorem endCipherOrders_inv {q : List Instr} : ∀ s, Inv q s → Inv q (endCipherOrders s) := by
  intro s h
  unfold endCipherOrders
  repeat' first
    | with_reducible assumption
    | with_reducible intro _
    | with_reducible apply endOrder_inv
    | with_reducible apply inv_ite
    | with_reducible refine inv_foldl (fun _ _ _ => ?_) _ _ ?_
    | split
    | (dsimp only; split)
    | refine inv_fst (by with_reducible assumption) ?_
    | refine inv_snd (by with_reducible assumption) ?_

theorem alarmed_inv {q : List Instr} : ∀ s r, Inv q s → Inv q (alarmed s r) := by
  intro s r h
  unfold alarmed
  repeat' first
    | with_reducible assumption
    | with_reducible intro _
    | with_reducible apply acctAdd_inv
    | with_reducible apply setKey_inv
    | with_reducible apply hmLog_inv
    | with_reducible apply raise_inv
    | with_reducible apply endCipherOrders_inv
    | with_reducible apply inv_ite
    | with_reducible apply oinv_next
    | with_reducible apply oinv_ite
    | with_reducible refine inv_foldl (fun _ _ _ => ?_) _ _ ?_
    | split
    | (dsimp only; split)
    | refine inv_fst (by with_reducible assumption) ?_
    | refine inv_snd (by with_reducible assumption) ?_
    | with_reducible apply Inv.mk_plain
    | (dsimp only; with_reducible apply Inv.mk_plain)

theorem execCipherAlarm_inv {q : List Instr} : ∀ s, Inv q s → OInv q (execCipherAlarm s) := by
  intro s h
  exact oinv_next (raise_inv _ _ (endCipherOrders_inv _ (alarmed_inv _ _ (takeFree_inv _ h))))

theorem revokeBurst_inv {q : List Instr} : ∀ s x1, Inv q s → Inv q (revokeBurst s x1) := by
  intro s x1 h
  unfold revokeBurst
  repeat' first
    | with_reducible assumption
    | with_reducible intro _
    | with_reducible apply setLighter_inv
    | with_reducible apply inv_ite
    | split
    | (dsimp only; split)
    | refine inv_fst (by with_reducible assumption) ?_
    | refine inv_snd (by with_reducible assumption) ?_

theorem execPlaneBurstRevoke_inv {q : List Instr} : ∀ x0 s, Inv q s → OInv q (execPlaneBurstRevoke x0 s) := by
  intro x0 s h
  unfold execPlaneBurstRevoke
  repeat' first
    | with_reducible assumption
    | with_reducible intro _
    | with_reducible apply revokeBurst_inv
    | with_reducible apply arbPass_inv
    | with_reducible apply setArb_inv
    | with_reducible apply inv_ite
    | with_reducible apply oinv_next
    | with_reducible apply oinv_ite
    | split
    | (dsimp only; split)
    | refine inv_fst (by with_reducible assumption) ?_
    | refine inv_snd (by with_reducible assumption) ?_

end Sys2Proof.Machine
end

