-- ==== Sys2Proof/Laws/InvVintage.lean ====
section
/-! SUPPORT. Laws/InvVintage.lean: every function of Machine/Vintage.lean keeps the invariant of a sound state. -/

namespace Sys2Proof.Machine

theorem noteMldsa_inv {q : List Instr} : ∀ s x1, Inv q s → Inv q (noteMldsa s x1) := by
  intro s x1 h
  unfold noteMldsa
  repeat' first
    | with_reducible assumption
    | with_reducible intro _
    | with_reducible apply hmLog_inv
    | with_reducible apply inv_ite
    | split
    | (dsimp only; split)
    | refine inv_fst (by with_reducible assumption) ?_
    | refine inv_snd (by with_reducible assumption) ?_

theorem putBanks_inv {q : List Instr} : ∀ s x1 x2 x3, Inv q s → Inv q (putBanks s x1 x2 x3) := by
  intro s x1 x2 x3 h
  unfold putBanks
  repeat' first
    | with_reducible assumption
    | with_reducible intro _
    | with_reducible apply setVbank_inv
    | with_reducible apply inv_ite
    | with_reducible refine inv_foldl (fun _ _ _ => ?_) _ _ ?_
    | split
    | (dsimp only; split)
    | refine inv_fst (by with_reducible assumption) ?_
    | refine inv_snd (by with_reducible assumption) ?_

theorem loadVintage_inv {q : List Instr} : ∀ s x1 x2 x3, Inv q s → Inv q (loadVintage s x1 x2 x3).1 := by
  intro s x1 x2 x3 h
  unfold loadVintage
  repeat' first
    | with_reducible assumption
    | with_reducible intro _
    | with_reducible apply noteMldsa_inv
    | with_reducible apply putBanks_inv
    | with_reducible apply inv_ite
    | split
    | (dsimp only; split)
    | dsimp only
    | refine inv_fst (by with_reducible assumption) ?_
    | refine inv_snd (by with_reducible assumption) ?_

theorem putGm_inv {q : List Instr} : ∀ s x1 x2 x3, Inv q s → Inv q (putGm s x1 x2 x3) := by
  intro s x1 x2 x3 h
  unfold putGm
  repeat' first
    | with_reducible assumption
    | with_reducible intro _
    | with_reducible apply inv_ite
    | split
    | (dsimp only; split)
    | refine inv_fst (by with_reducible assumption) ?_
    | refine inv_snd (by with_reducible assumption) ?_
    | with_reducible apply Inv.mk_plain
    | with_reducible refine Inv.mk_gm ?_ (by first | exact id | exact Table.wf_put _ _ _ _ | exact Table.wf_upd _ _ _ _ | exact Table.wf_mapVals _ _ _ | exact Table.wf_putList _ _ _ _ | exact Table.wf_filter _ _ _ | exact fun h => Table.wf_put _ _ _ _ (Table.wf_put _ _ _ _ h) | exact fun _ => rfl)
    | (dsimp only; with_reducible apply Inv.mk_plain)
    | (dsimp only; with_reducible refine Inv.mk_gm ?_ (by first | exact id | exact Table.wf_put _ _ _ _ | exact Table.wf_upd _ _ _ _ | exact Table.wf_mapVals _ _ _ | exact Table.wf_putList _ _ _ _ | exact Table.wf_filter _ _ _ | exact fun h => Table.wf_put _ _ _ _ (Table.wf_put _ _ _ _ h) | exact fun _ => rfl))

theorem putGms_inv {q : List Instr} : ∀ s x1 x2 x3, Inv q s → Inv q (putGms s x1 x2 x3) := by
  intro s x1 x2 x3
  induction x3 generalizing s x1 x2 with
  | nil => intro h; exact h
  | cons b l ih =>
    intro h
    unfold putGms
    try dsimp only
    repeat' first
      | with_reducible assumption
      | with_reducible intro _
      | with_reducible apply putGm_inv
      | with_reducible apply ih
      | with_reducible apply inv_ite
      | split
      | (dsimp only; split)
      | refine inv_fst (by with_reducible assumption) ?_
      | refine inv_snd (by with_reducible assumption) ?_

theorem putGraft_inv {q : List Instr} : ∀ s x1 x2 x3, Inv q s → Inv q (putGraft s x1 x2 x3) := by
  intro s x1 x2 x3 h
  unfold putGraft
  repeat' first
    | with_reducible assumption
    | with_reducible intro _
    | with_reducible apply putGms_inv
    | with_reducible apply inv_ite
    | split
    | (dsimp only; split)
    | refine inv_fst (by with_reducible assumption) ?_
    | refine inv_snd (by with_reducible assumption) ?_
    | with_reducible apply Inv.mk_plain
    | with_reducible refine Inv.mk_graft ?_ (by first | exact id | exact Table.wf_put _ _ _ _ | exact Table.wf_upd _ _ _ _ | exact Table.wf_mapVals _ _ _ | exact Table.wf_putList _ _ _ _ | exact Table.wf_filter _ _ _ | exact fun h => Table.wf_put _ _ _ _ (Table.wf_put _ _ _ _ h) | exact fun _ => rfl)
    | (dsimp only; with_reducible apply Inv.mk_plain)
    | (dsimp only; with_reducible refine Inv.mk_graft ?_ (by first | exact id | exact Table.wf_put _ _ _ _ | exact Table.wf_upd _ _ _ _ | exact Table.wf_mapVals _ _ _ | exact Table.wf_putList _ _ _ _ | exact Table.wf_filter _ _ _ | exact fun h => Table.wf_put _ _ _ _ (Table.wf_put _ _ _ _ h) | exact fun _ => rfl))

theorem installGraft_inv {q : List Instr} : ∀ s x1 x2, Inv q s → Inv q (installGraft s x1 x2).1 := by
  intro s x1 x2 h
  unfold installGraft
  repeat' first
    | with_reducible assumption
    | with_reducible intro _
    | with_reducible apply noteMldsa_inv
    | with_reducible apply putGraft_inv
    | with_reducible apply inv_ite
    | with_reducible refine inv_foldl (fun _ _ _ => ?_) _ _ ?_
    | split
    | (dsimp only; split)
    | dsimp only
    | refine inv_fst (by with_reducible assumption) ?_
    | refine inv_snd (by with_reducible assumption) ?_

theorem setCode_inv {q : List Instr} : ∀ s x1, Inv q s → Inv q (setCode s x1) := by
  intro s x1 h
  unfold setCode
  repeat' first
    | with_reducible assumption
    | with_reducible intro _
    | with_reducible apply inv_ite
    | split
    | (dsimp only; split)
    | refine inv_fst (by with_reducible assumption) ?_
    | refine inv_snd (by with_reducible assumption) ?_
    | with_reducible apply Inv.mk_plain
    | with_reducible refine Inv.mk_code ?_ (by first | exact id | exact Table.wf_put _ _ _ _ | exact Table.wf_upd _ _ _ _ | exact Table.wf_mapVals _ _ _ | exact Table.wf_putList _ _ _ _ | exact Table.wf_filter _ _ _ | exact fun h => Table.wf_put _ _ _ _ (Table.wf_put _ _ _ _ h) | exact fun _ => rfl)
    | (dsimp only; with_reducible apply Inv.mk_plain)
    | (dsimp only; with_reducible refine Inv.mk_code ?_ (by first | exact id | exact Table.wf_put _ _ _ _ | exact Table.wf_upd _ _ _ _ | exact Table.wf_mapVals _ _ _ | exact Table.wf_putList _ _ _ _ | exact Table.wf_filter _ _ _ | exact fun h => Table.wf_put _ _ _ _ (Table.wf_put _ _ _ _ h) | exact fun _ => rfl))

theorem vinWrite_inv {q : List Instr} : ∀ s x1 x2, Inv q s → Inv q (vinWrite s x1 x2) := by
  intro s x1 x2 h
  unfold vinWrite
  repeat' first
    | with_reducible assumption
    | with_reducible intro _
    | with_reducible apply setCode_inv
    | with_reducible apply putBanks_inv
    | with_reducible apply inv_ite
    | split
    | (dsimp only; split)
    | refine inv_fst (by with_reducible assumption) ?_
    | refine inv_snd (by with_reducible assumption) ?_
    | with_reducible apply Inv.mk_plain
    | with_reducible refine Inv.mk_graft ?_ (by first | exact id | exact Table.wf_put _ _ _ _ | exact Table.wf_upd _ _ _ _ | exact Table.wf_mapVals _ _ _ | exact Table.wf_putList _ _ _ _ | exact Table.wf_filter _ _ _ | exact fun h => Table.wf_put _ _ _ _ (Table.wf_put _ _ _ _ h) | exact fun _ => rfl)
    | (dsimp only; with_reducible apply Inv.mk_plain)
    | (dsimp only; with_reducible refine Inv.mk_graft ?_ (by first | exact id | exact Table.wf_put _ _ _ _ | exact Table.wf_upd _ _ _ _ | exact Table.wf_mapVals _ _ _ | exact Table.wf_putList _ _ _ _ | exact Table.wf_filter _ _ _ | exact fun h => Table.wf_put _ _ _ _ (Table.wf_put _ _ _ _ h) | exact fun _ => rfl))

theorem execVinLoad_inv {q : List Instr} : ∀ x0 x1 s, Inv q s → OInv q (execVinLoad x0 x1 s) := by
  intro x0 x1 s h
  unfold execVinLoad
  repeat' first
    | with_reducible assumption
    | with_reducible intro _
    | with_reducible apply vinWrite_inv
    | with_reducible apply ctlWake_inv
    | with_reducible apply inv_ite
    | with_reducible apply oinv_next
    | with_reducible apply oinv_ite
    | split
    | (dsimp only; split)
    | refine inv_fst (by with_reducible assumption) ?_
    | refine inv_snd (by with_reducible assumption) ?_

theorem endLoad_inv {q : List Instr} : ∀ s x1 x2, Inv q s → Inv q (endLoad s x1 x2) := by
  intro s x1 x2 h
  unfold endLoad
  repeat' first
    | with_reducible assumption
    | with_reducible intro _
    | with_reducible apply inv_ite
    | split
    | (dsimp only; split)
    | refine inv_fst (by with_reducible assumption) ?_
    | refine inv_snd (by with_reducible assumption) ?_
    | with_reducible apply Inv.mk_plain
    | with_reducible refine Inv.mk_code ?_ (by first | exact id | exact Table.wf_put _ _ _ _ | exact Table.wf_upd _ _ _ _ | exact Table.wf_mapVals _ _ _ | exact Table.wf_putList _ _ _ _ | exact Table.wf_filter _ _ _ | exact fun h => Table.wf_put _ _ _ _ (Table.wf_put _ _ _ _ h) | exact fun _ => rfl)
    | (dsimp only; with_reducible apply Inv.mk_plain)
    | (dsimp only; with_reducible refine Inv.mk_code ?_ (by first | exact id | exact Table.wf_put _ _ _ _ | exact Table.wf_upd _ _ _ _ | exact Table.wf_mapVals _ _ _ | exact Table.wf_putList _ _ _ _ | exact Table.wf_filter _ _ _ | exact fun h => Table.wf_put _ _ _ _ (Table.wf_put _ _ _ _ h) | exact fun _ => rfl))

theorem execVinLoadDone_inv {q : List Instr} : ∀ x0 s, Inv q s → OInv q (execVinLoadDone x0 s) := by
  intro x0 s h
  unfold execVinLoadDone
  repeat' first
    | with_reducible assumption
    | with_reducible intro _
    | with_reducible apply installGraft_inv
    | with_reducible apply endLoad_inv
    | with_reducible apply loadVintage_inv
    | with_reducible apply inv_ite
    | with_reducible apply oinv_next
    | with_reducible apply oinv_ite
    | split
    | (dsimp only; split)
    | refine inv_fst (by with_reducible assumption) ?_
    | refine inv_snd (by with_reducible assumption) ?_

theorem selectSrc_inv {q : List Instr} : ∀ s x1 x2, Inv q s → Inv q (selectSrc s x1 x2) := by
  intro s x1 x2 h
  unfold selectSrc
  repeat' first
    | with_reducible assumption
    | with_reducible intro _
    | with_reducible apply setCsrc_inv
    | with_reducible apply updPilot_inv
    | with_reducible apply inv_ite
    | with_reducible refine inv_foldl (fun _ _ _ => ?_) _ _ ?_
    | split
    | (dsimp only; split)
    | refine inv_fst (by with_reducible assumption) ?_
    | refine inv_snd (by with_reducible assumption) ?_
    | with_reducible apply Inv.mk_plain
    | (dsimp only; with_reducible apply Inv.mk_plain)

theorem selWrite_inv {q : List Instr} : ∀ s x1 x2, Inv q s → Inv q (selWrite s x1 x2) := by
  intro s x1 x2 h
  unfold selWrite
  repeat' first
    | with_reducible assumption
    | with_reducible intro _
    | with_reducible apply setCode_inv
    | with_reducible apply selectSrc_inv
    | with_reducible apply inv_ite
    | split
    | (dsimp only; split)
    | refine inv_fst (by with_reducible assumption) ?_
    | refine inv_snd (by with_reducible assumption) ?_

theorem resetPilot_inv {q : List Instr} : ∀ s x1, Inv q s → Inv q (resetPilot s x1) := by
  intro s x1 h
  unfold resetPilot
  repeat' first
    | with_reducible assumption
    | with_reducible intro _
    | with_reducible apply breakPilot_inv
    | with_reducible apply endTurns_inv
    | with_reducible apply releaseClaims_inv
    | with_reducible apply updPilot_inv
    | with_reducible apply inv_ite
    | split
    | (dsimp only; split)
    | refine inv_fst (by with_reducible assumption) ?_
    | refine inv_snd (by with_reducible assumption) ?_

theorem leaveReset_inv {q : List Instr} : ∀ s x1, Inv q s → Inv q (leaveReset s x1) := by
  intro s x1 h
  unfold leaveReset
  repeat' first
    | with_reducible assumption
    | with_reducible intro _
    | with_reducible apply updPilot_inv
    | with_reducible apply inv_ite
    | split
    | (dsimp only; split)
    | refine inv_fst (by with_reducible assumption) ?_
    | refine inv_snd (by with_reducible assumption) ?_

theorem holdWrite_inv {q : List Instr} : ∀ s x1 x2, Inv q s → Inv q (holdWrite s x1 x2) := by
  intro s x1 x2 h
  unfold holdWrite
  repeat' first
    | with_reducible assumption
    | with_reducible intro _
    | with_reducible apply setCsrc_inv
    | with_reducible apply resetPilot_inv
    | with_reducible apply leaveReset_inv
    | with_reducible apply updPilot_inv
    | with_reducible apply noteOrphans_inv
    | with_reducible apply inv_ite
    | with_reducible refine inv_foldl (fun _ _ _ => ?_) _ _ ?_
    | split
    | (dsimp only; split)
    | refine inv_fst (by with_reducible assumption) ?_
    | refine inv_snd (by with_reducible assumption) ?_
    | with_reducible apply Inv.mk_plain
    | (dsimp only; with_reducible apply Inv.mk_plain)

theorem csrcWrite_inv {q : List Instr} : ∀ s x1 x2 x3, Inv q s → Inv q (csrcWrite s x1 x2 x3) := by
  intro s x1 x2 x3 h
  unfold csrcWrite
  repeat' first
    | with_reducible assumption
    | with_reducible intro _
    | with_reducible apply selWrite_inv
    | with_reducible apply holdWrite_inv
    | with_reducible apply inv_ite
    | split
    | (dsimp only; split)
    | refine inv_fst (by with_reducible assumption) ?_
    | refine inv_snd (by with_reducible assumption) ?_

theorem execSelWrite_inv {q : List Instr} : ∀ x0 x1 x2 s, Inv q s → OInv q (execSelWrite x0 x1 x2 s) := by
  intro x0 x1 x2 s h
  unfold execSelWrite
  repeat' first
    | with_reducible assumption
    | with_reducible intro _
    | with_reducible apply csrcWrite_inv
    | with_reducible apply ctlWake_inv
    | with_reducible apply inv_ite
    | with_reducible apply oinv_next
    | with_reducible apply oinv_ite
    | split
    | (dsimp only; split)
    | refine inv_fst (by with_reducible assumption) ?_
    | refine inv_snd (by with_reducible assumption) ?_

theorem execHoldWrite_inv {q : List Instr} : ∀ x0 x1 x2 s, Inv q s → OInv q (execHoldWrite x0 x1 x2 s) := by
  intro x0 x1 x2 s h
  unfold execHoldWrite
  repeat' first
    | with_reducible assumption
    | with_reducible intro _
    | with_reducible apply csrcWrite_inv
    | with_reducible apply ctlWake_inv
    | with_reducible apply inv_ite
    | with_reducible apply oinv_next
    | with_reducible apply oinv_ite
    | split
    | (dsimp only; split)
    | refine inv_fst (by with_reducible assumption) ?_
    | refine inv_snd (by with_reducible assumption) ?_

theorem gmWrite_inv {q : List Instr} : ∀ s x1 x2 x3 x4, Inv q s → Inv q (gmWrite s x1 x2 x3 x4) := by
  intro s x1 x2 x3 x4 h
  unfold gmWrite
  repeat' first
    | with_reducible assumption
    | with_reducible intro _
    | with_reducible apply putGm_inv
    | with_reducible apply setCode_inv
    | with_reducible apply inv_ite
    | split
    | (dsimp only; split)
    | refine inv_fst (by with_reducible assumption) ?_
    | refine inv_snd (by with_reducible assumption) ?_

theorem execGraftMatchWrite_inv {q : List Instr} : ∀ x0 x1 x2 x3 s, Inv q s → OInv q (execGraftMatchWrite x0 x1 x2 x3 s) := by
  intro x0 x1 x2 x3 s h
  unfold execGraftMatchWrite
  repeat' first
    | with_reducible assumption
    | with_reducible intro _
    | with_reducible apply gmWrite_inv
    | with_reducible apply ctlWake_inv
    | with_reducible apply inv_ite
    | with_reducible apply oinv_next
    | with_reducible apply oinv_ite
    | split
    | (dsimp only; split)
    | refine inv_fst (by with_reducible assumption) ?_
    | refine inv_snd (by with_reducible assumption) ?_

theorem retireCluster_inv {q : List Instr} : ∀ s x1, Inv q s → Inv q (retireCluster s x1) := by
  intro s x1 h
  unfold retireCluster
  repeat' first
    | with_reducible assumption
    | with_reducible intro _
    | with_reducible apply updPilot_inv
    | with_reducible apply retire_inv
    | with_reducible apply noteOrphans_inv
    | with_reducible apply setChk_inv
    | with_reducible apply inv_ite
    | with_reducible refine inv_foldl (fun _ _ _ => ?_) _ _ ?_
    | split
    | (dsimp only; split)
    | refine inv_fst (by with_reducible assumption) ?_
    | refine inv_snd (by with_reducible assumption) ?_
    | with_reducible apply Inv.mk_plain
    | (dsimp only; with_reducible apply Inv.mk_plain)

theorem setChecker_inv {q : List Instr} : ∀ s x1 x2, Inv q s → Inv q (setChecker s x1 x2) := by
  intro s x1 x2 h
  unfold setChecker
  repeat' first
    | with_reducible assumption
    | with_reducible intro _
    | with_reducible apply setChk_inv
    | with_reducible apply hmLog_inv
    | with_reducible apply retireCluster_inv
    | with_reducible apply quarantine_inv
    | with_reducible apply inv_ite
    | split
    | (dsimp only; split)
    | refine inv_fst (by with_reducible assumption) ?_
    | refine inv_snd (by with_reducible assumption) ?_

theorem suspect_inv {q : List Instr} : ∀ s x1, Inv q s → Inv q (suspect s x1) := by
  intro s x1 h
  unfold suspect
  repeat' first
    | with_reducible assumption
    | with_reducible intro _
    | with_reducible apply setChecker_inv
    | with_reducible apply inv_ite
    | split
    | (dsimp only; split)
    | refine inv_fst (by with_reducible assumption) ?_
    | refine inv_snd (by with_reducible assumption) ?_

theorem countInj_inv {q : List Instr} : ∀ s x1 x2 x3, Inv q s → Inv q (countInj s x1 x2 x3) := by
  intro s x1 x2 x3 h
  unfold countInj
  repeat' first
    | with_reducible assumption
    | with_reducible intro _
    | with_reducible apply setChk_inv
    | with_reducible apply inv_ite
    | split
    | (dsimp only; split)
    | refine inv_fst (by with_reducible assumption) ?_
    | refine inv_snd (by with_reducible assumption) ?_

theorem execInjectionTest_inv {q : List Instr} : ∀ x0 x1 x2 s, Inv q s → OInv q (execInjectionTest x0 x1 x2 s) := by
  intro x0 x1 x2 s h
  unfold execInjectionTest
  repeat' first
    | with_reducible assumption
    | with_reducible intro _
    | with_reducible apply countInj_inv
    | with_reducible apply setChecker_inv
    | with_reducible apply inv_ite
    | with_reducible apply oinv_next
    | with_reducible apply oinv_ite
    | split
    | (dsimp only; split)
    | refine inv_fst (by with_reducible assumption) ?_
    | refine inv_snd (by with_reducible assumption) ?_

theorem execInjectionForce_inv {q : List Instr} : ∀ x0 s, Inv q s → OInv q (execInjectionForce x0 s) := by
  intro x0 s h
  unfold execInjectionForce
  repeat' first
    | with_reducible assumption
    | with_reducible intro _
    | with_reducible apply setChk_inv
    | with_reducible apply inv_ite
    | with_reducible apply oinv_next
    | with_reducible apply oinv_ite
    | split
    | (dsimp only; split)
    | refine inv_fst (by with_reducible assumption) ?_
    | refine inv_snd (by with_reducible assumption) ?_

theorem injnowWrite_inv {q : List Instr} : ∀ s x1 x2 x3, Inv q s → Inv q (injnowWrite s x1 x2 x3) := by
  intro s x1 x2 x3 h
  unfold injnowWrite
  repeat' first
    | with_reducible assumption
    | with_reducible intro _
    | with_reducible apply countInj_inv
    | with_reducible apply inv_ite
    | split
    | (dsimp only; split)
    | refine inv_fst (by with_reducible assumption) ?_
    | refine inv_snd (by with_reducible assumption) ?_

theorem execInjnow_inv {q : List Instr} : ∀ x0 x1 x2 s, Inv q s → OInv q (execInjnow x0 x1 x2 s) := by
  intro x0 x1 x2 s h
  unfold execInjnow
  repeat' first
    | with_reducible assumption
    | with_reducible intro _
    | with_reducible apply injnowWrite_inv
    | with_reducible apply ctlWake_inv
    | with_reducible apply inv_ite
    | with_reducible apply oinv_next
    | with_reducible apply oinv_ite
    | split
    | (dsimp only; split)
    | refine inv_fst (by with_reducible assumption) ?_
    | refine inv_snd (by with_reducible assumption) ?_

theorem forceWrite_inv {q : List Instr} : ∀ s x1 x2 x3, Inv q s → Inv q (forceWrite s x1 x2 x3) := by
  intro s x1 x2 x3 h
  unfold forceWrite
  repeat' first
    | with_reducible assumption
    | with_reducible intro _
    | with_reducible apply updPilot_inv
    | with_reducible apply inv_ite
    | split
    | (dsimp only; split)
    | refine inv_fst (by with_reducible assumption) ?_
    | refine inv_snd (by with_reducible assumption) ?_

theorem execForceOnce_inv {q : List Instr} : ∀ x0 x1 x2 s, Inv q s → OInv q (execForceOnce x0 x1 x2 s) := by
  intro x0 x1 x2 s h
  unfold execForceOnce
  repeat' first
    | with_reducible assumption
    | with_reducible intro _
    | with_reducible apply forceWrite_inv
    | with_reducible apply ctlWake_inv
    | with_reducible apply inv_ite
    | with_reducible apply oinv_next
    | with_reducible apply oinv_ite
    | split
    | (dsimp only; split)
    | refine inv_fst (by with_reducible assumption) ?_
    | refine inv_snd (by with_reducible assumption) ?_

theorem execForceTwice_inv {q : List Instr} : ∀ x0 x1 x2 s, Inv q s → OInv q (execForceTwice x0 x1 x2 s) := by
  intro x0 x1 x2 s h
  unfold execForceTwice
  repeat' first
    | with_reducible assumption
    | with_reducible intro _
    | with_reducible apply forceWrite_inv
    | with_reducible apply ctlWake_inv
    | with_reducible apply inv_ite
    | with_reducible apply oinv_next
    | with_reducible apply oinv_ite
    | split
    | (dsimp only; split)
    | refine inv_fst (by with_reducible assumption) ?_
    | refine inv_snd (by with_reducible assumption) ?_

theorem moveRefs_inv {q : List Instr} : ∀ s x1 x2, Inv q s → Inv q (moveRefs s x1 x2) := by
  intro s x1 x2 h
  unfold moveRefs
  repeat' first
    | with_reducible assumption
    | with_reducible intro _
    | with_reducible apply inv_ite
    | split
    | (dsimp only; split)
    | refine inv_fst (by with_reducible assumption) ?_
    | refine inv_snd (by with_reducible assumption) ?_
    | with_reducible apply Inv.mk_plain
    | with_reducible refine Inv.mk_rings ?_ (by first | exact id | exact Table.wf_put _ _ _ _ | exact Table.wf_upd _ _ _ _ | exact Table.wf_mapVals _ _ _ | exact Table.wf_putList _ _ _ _ | exact Table.wf_filter _ _ _ | exact fun h => Table.wf_put _ _ _ _ (Table.wf_put _ _ _ _ h) | exact fun _ => rfl)
    | with_reducible refine Inv.mk_own ?_ (by first | exact id | exact Table.wf_put _ _ _ _ | exact Table.wf_upd _ _ _ _ | exact Table.wf_mapVals _ _ _ | exact Table.wf_putList _ _ _ _ | exact Table.wf_filter _ _ _ | exact fun h => Table.wf_put _ _ _ _ (Table.wf_put _ _ _ _ h) | exact fun _ => rfl)
    | with_reducible refine Inv.mk_moor ?_ (by first | exact id | exact Table.wf_put _ _ _ _ | exact Table.wf_upd _ _ _ _ | exact Table.wf_mapVals _ _ _ | exact Table.wf_putList _ _ _ _ | exact Table.wf_filter _ _ _ | exact fun h => Table.wf_put _ _ _ _ (Table.wf_put _ _ _ _ h) | exact fun _ => rfl)
    | (dsimp only; with_reducible apply Inv.mk_plain)
    | (dsimp only; with_reducible refine Inv.mk_rings ?_ (by first | exact id | exact Table.wf_put _ _ _ _ | exact Table.wf_upd _ _ _ _ | exact Table.wf_mapVals _ _ _ | exact Table.wf_putList _ _ _ _ | exact Table.wf_filter _ _ _ | exact fun h => Table.wf_put _ _ _ _ (Table.wf_put _ _ _ _ h) | exact fun _ => rfl))
    | (dsimp only; with_reducible refine Inv.mk_own ?_ (by first | exact id | exact Table.wf_put _ _ _ _ | exact Table.wf_upd _ _ _ _ | exact Table.wf_mapVals _ _ _ | exact Table.wf_putList _ _ _ _ | exact Table.wf_filter _ _ _ | exact fun h => Table.wf_put _ _ _ _ (Table.wf_put _ _ _ _ h) | exact fun _ => rfl))
    | (dsimp only; with_reducible refine Inv.mk_moor ?_ (by first | exact id | exact Table.wf_put _ _ _ _ | exact Table.wf_upd _ _ _ _ | exact Table.wf_mapVals _ _ _ | exact Table.wf_putList _ _ _ _ | exact Table.wf_filter _ _ _ | exact fun h => Table.wf_put _ _ _ _ (Table.wf_put _ _ _ _ h) | exact fun _ => rfl))
    | refine Inv.mk_all ?_ (by first | exact id | exact Table.wf_put _ _ _ _ | exact Table.wf_upd _ _ _ _ | exact Table.wf_mapVals _ _ _ | exact Table.wf_putList _ _ _ _ | exact Table.wf_filter _ _ _ | exact fun h => Table.wf_put _ _ _ _ (Table.wf_put _ _ _ _ h) | exact fun _ => rfl) (by first | exact id | exact Table.wf_put _ _ _ _ | exact Table.wf_upd _ _ _ _ | exact Table.wf_mapVals _ _ _ | exact Table.wf_putList _ _ _ _ | exact Table.wf_filter _ _ _ | exact fun h => Table.wf_put _ _ _ _ (Table.wf_put _ _ _ _ h) | exact fun _ => rfl) (by first | exact id | exact Table.wf_put _ _ _ _ | exact Table.wf_upd _ _ _ _ | exact Table.wf_mapVals _ _ _ | exact Table.wf_putList _ _ _ _ | exact Table.wf_filter _ _ _ | exact fun h => Table.wf_put _ _ _ _ (Table.wf_put _ _ _ _ h) | exact fun _ => rfl) (by first | exact id | exact Table.wf_put _ _ _ _ | exact Table.wf_upd _ _ _ _ | exact Table.wf_mapVals _ _ _ | exact Table.wf_putList _ _ _ _ | exact Table.wf_filter _ _ _ | exact fun h => Table.wf_put _ _ _ _ (Table.wf_put _ _ _ _ h) | exact fun _ => rfl) (by first | exact id | exact Table.wf_put _ _ _ _ | exact Table.wf_upd _ _ _ _ | exact Table.wf_mapVals _ _ _ | exact Table.wf_putList _ _ _ _ | exact Table.wf_filter _ _ _ | exact fun h => Table.wf_put _ _ _ _ (Table.wf_put _ _ _ _ h) | exact fun _ => rfl) (by first | exact id | exact Table.wf_put _ _ _ _ | exact Table.wf_upd _ _ _ _ | exact Table.wf_mapVals _ _ _ | exact Table.wf_putList _ _ _ _ | exact Table.wf_filter _ _ _ | exact fun h => Table.wf_put _ _ _ _ (Table.wf_put _ _ _ _ h) | exact fun _ => rfl) (by first | exact id | exact Table.wf_put _ _ _ _ | exact Table.wf_upd _ _ _ _ | exact Table.wf_mapVals _ _ _ | exact Table.wf_putList _ _ _ _ | exact Table.wf_filter _ _ _ | exact fun h => Table.wf_put _ _ _ _ (Table.wf_put _ _ _ _ h) | exact fun _ => rfl) (by first | exact id | exact Table.wf_put _ _ _ _ | exact Table.wf_upd _ _ _ _ | exact Table.wf_mapVals _ _ _ | exact Table.wf_putList _ _ _ _ | exact Table.wf_filter _ _ _ | exact fun h => Table.wf_put _ _ _ _ (Table.wf_put _ _ _ _ h) | exact fun _ => rfl) (by first | exact id | exact Table.wf_put _ _ _ _ | exact Table.wf_upd _ _ _ _ | exact Table.wf_mapVals _ _ _ | exact Table.wf_putList _ _ _ _ | exact Table.wf_filter _ _ _ | exact fun h => Table.wf_put _ _ _ _ (Table.wf_put _ _ _ _ h) | exact fun _ => rfl) (by first | exact id | exact Table.wf_put _ _ _ _ | exact Table.wf_upd _ _ _ _ | exact Table.wf_mapVals _ _ _ | exact Table.wf_putList _ _ _ _ | exact Table.wf_filter _ _ _ | exact fun h => Table.wf_put _ _ _ _ (Table.wf_put _ _ _ _ h) | exact fun _ => rfl) (by first | exact id | exact Table.wf_put _ _ _ _ | exact Table.wf_upd _ _ _ _ | exact Table.wf_mapVals _ _ _ | exact Table.wf_putList _ _ _ _ | exact Table.wf_filter _ _ _ | exact fun h => Table.wf_put _ _ _ _ (Table.wf_put _ _ _ _ h) | exact fun _ => rfl) (by first | exact id | exact Table.wf_put _ _ _ _ | exact Table.wf_upd _ _ _ _ | exact Table.wf_mapVals _ _ _ | exact Table.wf_putList _ _ _ _ | exact Table.wf_filter _ _ _ | exact fun h => Table.wf_put _ _ _ _ (Table.wf_put _ _ _ _ h) | exact fun _ => rfl) (by first | exact id | exact Table.wf_put _ _ _ _ | exact Table.wf_upd _ _ _ _ | exact Table.wf_mapVals _ _ _ | exact Table.wf_putList _ _ _ _ | exact Table.wf_filter _ _ _ | exact fun h => Table.wf_put _ _ _ _ (Table.wf_put _ _ _ _ h) | exact fun _ => rfl) (by first | exact id | exact Table.wf_put _ _ _ _ | exact Table.wf_upd _ _ _ _ | exact Table.wf_mapVals _ _ _ | exact Table.wf_putList _ _ _ _ | exact Table.wf_filter _ _ _ | exact fun h => Table.wf_put _ _ _ _ (Table.wf_put _ _ _ _ h) | exact fun _ => rfl) (by first | exact id | exact Table.wf_put _ _ _ _ | exact Table.wf_upd _ _ _ _ | exact Table.wf_mapVals _ _ _ | exact Table.wf_putList _ _ _ _ | exact Table.wf_filter _ _ _ | exact fun h => Table.wf_put _ _ _ _ (Table.wf_put _ _ _ _ h) | exact fun _ => rfl) (by first | exact id | exact Table.wf_put _ _ _ _ | exact Table.wf_upd _ _ _ _ | exact Table.wf_mapVals _ _ _ | exact Table.wf_putList _ _ _ _ | exact Table.wf_filter _ _ _ | exact fun h => Table.wf_put _ _ _ _ (Table.wf_put _ _ _ _ h) | exact fun _ => rfl) (by first | exact id | exact Table.wf_put _ _ _ _ | exact Table.wf_upd _ _ _ _ | exact Table.wf_mapVals _ _ _ | exact Table.wf_putList _ _ _ _ | exact Table.wf_filter _ _ _ | exact fun h => Table.wf_put _ _ _ _ (Table.wf_put _ _ _ _ h) | exact fun _ => rfl) (by first | exact id | exact Table.wf_put _ _ _ _ | exact Table.wf_upd _ _ _ _ | exact Table.wf_mapVals _ _ _ | exact Table.wf_putList _ _ _ _ | exact Table.wf_filter _ _ _ | exact fun h => Table.wf_put _ _ _ _ (Table.wf_put _ _ _ _ h) | exact fun _ => rfl) (by first | exact id | exact Table.wf_put _ _ _ _ | exact Table.wf_upd _ _ _ _ | exact Table.wf_mapVals _ _ _ | exact Table.wf_putList _ _ _ _ | exact Table.wf_filter _ _ _ | exact fun h => Table.wf_put _ _ _ _ (Table.wf_put _ _ _ _ h) | exact fun _ => rfl) (by first | exact id | exact Table.wf_put _ _ _ _ | exact Table.wf_upd _ _ _ _ | exact Table.wf_mapVals _ _ _ | exact Table.wf_putList _ _ _ _ | exact Table.wf_filter _ _ _ | exact fun h => Table.wf_put _ _ _ _ (Table.wf_put _ _ _ _ h) | exact fun _ => rfl) (by first | exact id | exact Table.wf_put _ _ _ _ | exact Table.wf_upd _ _ _ _ | exact Table.wf_mapVals _ _ _ | exact Table.wf_putList _ _ _ _ | exact Table.wf_filter _ _ _ | exact fun h => Table.wf_put _ _ _ _ (Table.wf_put _ _ _ _ h) | exact fun _ => rfl) (by first | exact id | exact Table.wf_put _ _ _ _ | exact Table.wf_upd _ _ _ _ | exact Table.wf_mapVals _ _ _ | exact Table.wf_putList _ _ _ _ | exact Table.wf_filter _ _ _ | exact fun h => Table.wf_put _ _ _ _ (Table.wf_put _ _ _ _ h) | exact fun _ => rfl) (by first | exact id | exact Table.wf_put _ _ _ _ | exact Table.wf_upd _ _ _ _ | exact Table.wf_mapVals _ _ _ | exact Table.wf_putList _ _ _ _ | exact Table.wf_filter _ _ _ | exact fun h => Table.wf_put _ _ _ _ (Table.wf_put _ _ _ _ h) | exact fun _ => rfl) (by first | exact id | exact Table.wf_put _ _ _ _ | exact Table.wf_upd _ _ _ _ | exact Table.wf_mapVals _ _ _ | exact Table.wf_putList _ _ _ _ | exact Table.wf_filter _ _ _ | exact fun h => Table.wf_put _ _ _ _ (Table.wf_put _ _ _ _ h) | exact fun _ => rfl) (by first | exact id | exact Table.wf_put _ _ _ _ | exact Table.wf_upd _ _ _ _ | exact Table.wf_mapVals _ _ _ | exact Table.wf_putList _ _ _ _ | exact Table.wf_filter _ _ _ | exact fun h => Table.wf_put _ _ _ _ (Table.wf_put _ _ _ _ h) | exact fun _ => rfl) (by first | exact id | exact Table.wf_put _ _ _ _ | exact Table.wf_upd _ _ _ _ | exact Table.wf_mapVals _ _ _ | exact Table.wf_putList _ _ _ _ | exact Table.wf_filter _ _ _ | exact fun h => Table.wf_put _ _ _ _ (Table.wf_put _ _ _ _ h) | exact fun _ => rfl) (by first | exact id | exact Table.wf_put _ _ _ _ | exact Table.wf_upd _ _ _ _ | exact Table.wf_mapVals _ _ _ | exact Table.wf_putList _ _ _ _ | exact Table.wf_filter _ _ _ | exact fun h => Table.wf_put _ _ _ _ (Table.wf_put _ _ _ _ h) | exact fun _ => rfl) (by first | exact id | exact Table.wf_put _ _ _ _ | exact Table.wf_upd _ _ _ _ | exact Table.wf_mapVals _ _ _ | exact Table.wf_putList _ _ _ _ | exact Table.wf_filter _ _ _ | exact fun h => Table.wf_put _ _ _ _ (Table.wf_put _ _ _ _ h) | exact fun _ => rfl) (by first | exact id | exact Table.wf_put _ _ _ _ | exact Table.wf_upd _ _ _ _ | exact Table.wf_mapVals _ _ _ | exact Table.wf_putList _ _ _ _ | exact Table.wf_filter _ _ _ | exact fun h => Table.wf_put _ _ _ _ (Table.wf_put _ _ _ _ h) | exact fun _ => rfl)

theorem wf_foldl_put (g : Nat × TWord → Nat) : ∀ (l : List (Nat × TWord)) (m : Table TWord), Table.wf emptyW m = true →
    Table.wf emptyW (l.foldl (fun (m : Table TWord) e => Table.put emptyW m (g e) e.2) m) = true
  | [], _, h => h
  | e :: l, m, h => wf_foldl_put g l _ (Table.wf_put _ _ _ _ h)

theorem moveCask_inv {q : List Instr} : ∀ s f t, Inv q s → Inv q (moveCask s f t) := by
  intro s f t h
  exact Inv.mk_cask h (fun hw => wf_foldl_put _ _ _ (Table.wf_filter _ _ _ hw))

theorem moveContext_inv {q : List Instr} : ∀ s x1 x2, Inv q s → Inv q (moveContext s x1 x2) := by
  intro s x1 x2 h
  unfold moveContext
  repeat' first
    | with_reducible assumption
    | with_reducible intro _
    | with_reducible apply setPilot_inv
    | with_reducible apply updPilot_inv
    | with_reducible apply inv_ite
    | split
    | (dsimp only; split)
    | refine inv_fst (by with_reducible assumption) ?_
    | refine inv_snd (by with_reducible assumption) ?_

theorem substitute_inv {q : List Instr} : ∀ s x1 x2, Inv q s → Inv q (substitute s x1 x2) := by
  intro s x1 x2 h
  unfold substitute
  repeat' first
    | with_reducible assumption
    | with_reducible intro _
    | with_reducible apply retire_inv
    | with_reducible apply setChk_inv
    | with_reducible apply updPilot_inv
    | with_reducible apply moveContext_inv
    | with_reducible apply moveCask_inv
    | with_reducible apply moveRefs_inv
    | with_reducible apply inv_ite
    | split
    | (dsimp only; split)
    | refine inv_fst (by with_reducible assumption) ?_
    | refine inv_snd (by with_reducible assumption) ?_
    | with_reducible apply Inv.mk_plain
    | (dsimp only; with_reducible apply Inv.mk_plain)

theorem retryAgrees_inv {q : List Instr} : ∀ s x1, Inv q s → Inv q (retryAgrees s x1) := by
  intro s x1 h
  unfold retryAgrees
  repeat' first
    | with_reducible assumption
    | with_reducible intro _
    | with_reducible apply commitWin_inv
    | with_reducible apply updPilot_inv
    | with_reducible apply inv_ite
    | split
    | (dsimp only; split)
    | refine inv_fst (by with_reducible assumption) ?_
    | refine inv_snd (by with_reducible assumption) ?_

theorem retryFails_inv {q : List Instr} : ∀ s x1, Inv q s → Inv q (retryFails s x1) := by
  intro s x1 h
  unfold retryFails
  repeat' first
    | with_reducible assumption
    | with_reducible intro _
    | with_reducible apply updPilot_inv
    | with_reducible apply inv_ite
    | split
    | (dsimp only; split)
    | refine inv_fst (by with_reducible assumption) ?_
    | refine inv_snd (by with_reducible assumption) ?_

theorem execRetryCompare_inv {q : List Instr} : ∀ x0 x1 x2 s, Inv q s → OInv q (execRetryCompare x0 x1 x2 s) := by
  intro x0 x1 x2 s h
  unfold execRetryCompare
  repeat' first
    | with_reducible assumption
    | with_reducible intro _
    | with_reducible apply mismatch_inv
    | with_reducible apply retryAgrees_inv
    | with_reducible apply substitute_inv
    | with_reducible apply updPilot_inv
    | with_reducible apply retryFails_inv
    | with_reducible apply inv_ite
    | with_reducible apply oinv_next
    | with_reducible apply oinv_ite
    | split
    | (dsimp only; split)
    | refine inv_fst (by with_reducible assumption) ?_
    | refine inv_snd (by with_reducible assumption) ?_

theorem rehabilitate_inv {q : List Instr} : ∀ s x1, Inv q s → Inv q (rehabilitate s x1) := by
  intro s x1 h
  unfold rehabilitate
  repeat' first
    | with_reducible assumption
    | with_reducible intro _
    | with_reducible apply updPilot_inv
    | with_reducible apply setChk_inv
    | with_reducible apply suspect_inv
    | with_reducible apply inv_ite
    | split
    | (dsimp only; split)
    | refine inv_fst (by with_reducible assumption) ?_
    | refine inv_snd (by with_reducible assumption) ?_

theorem execPilotTestDone_inv {q : List Instr} : ∀ x0 x1 s, Inv q s → OInv q (execPilotTestDone x0 x1 s) := by
  intro x0 x1 s h
  unfold execPilotTestDone
  repeat' first
    | with_reducible assumption
    | with_reducible intro _
    | with_reducible apply updPilot_inv
    | with_reducible apply rehabilitate_inv
    | with_reducible apply noteOrphans_inv
    | with_reducible apply leaveReset_inv
    | with_reducible apply inv_ite
    | with_reducible apply oinv_next
    | with_reducible apply oinv_ite
    | split
    | (dsimp only; split)
    | refine inv_fst (by with_reducible assumption) ?_
    | refine inv_snd (by with_reducible assumption) ?_

end Sys2Proof.Machine
end

