-- ==== Sys2Proof/Laws/InvMailbox.lean ====
section
/-! SUPPORT. Laws/InvMailbox.lean: every function of Machine/Mailbox.lean keeps the invariant of a sound state. -/

namespace Sys2Proof.Machine

theorem putHmByte_inv {q : List Instr} : ∀ s x1 x2, Inv q s → Inv q (putHmByte s x1 x2) := by
  intro s x1 x2 h
  unfold putHmByte
  repeat' first
    | with_reducible assumption
    | with_reducible intro _
    | with_reducible apply setHmWord_inv
    | with_reducible apply inv_ite
    | split
    | (dsimp only; split)
    | refine inv_fst (by with_reducible assumption) ?_
    | refine inv_snd (by with_reducible assumption) ?_

theorem putHmBytes_inv {q : List Instr} : ∀ s x1 x2, Inv q s → Inv q (putHmBytes s x1 x2) := by
  intro s x1 x2
  induction x2 generalizing s x1 with
  | nil => intro h; exact h
  | cons b l ih =>
    intro h
    unfold putHmBytes
    try dsimp only
    repeat' first
      | with_reducible assumption
      | with_reducible intro _
      | with_reducible apply putHmByte_inv
      | with_reducible apply ih
      | with_reducible apply inv_ite
      | split
      | (dsimp only; split)
      | refine inv_fst (by with_reducible assumption) ?_
      | refine inv_snd (by with_reducible assumption) ?_

theorem mbEnd_inv {q : List Instr} : ∀ s x1 x2, Inv q s → Inv q (mbEnd s x1 x2) := by
  intro s x1 x2 h
  unfold mbEnd
  repeat' first
    | with_reducible assumption
    | with_reducible intro _
    | with_reducible apply inv_ite
    | split
    | (dsimp only; split)
    | refine inv_fst (by with_reducible assumption) ?_
    | refine inv_snd (by with_reducible assumption) ?_
    | with_reducible apply Inv.mk_plain
    | (dsimp only; with_reducible apply Inv.mk_plain)

theorem mbRes_inv {q : List Instr} : ∀ s x1 x2, Inv q s → Inv q (mbRes s x1 x2) := by
  intro s x1 x2 h
  unfold mbRes
  repeat' first
    | with_reducible assumption
    | with_reducible intro _
    | with_reducible apply inv_ite
    | split
    | (dsimp only; split)
    | refine inv_fst (by with_reducible assumption) ?_
    | refine inv_snd (by with_reducible assumption) ?_
    | with_reducible apply Inv.mk_plain
    | (dsimp only; with_reducible apply Inv.mk_plain)

theorem mbEcho_inv {q : List Instr} : ∀ s, Inv q s → Inv q (mbEcho s) := by
  intro s h
  unfold mbEcho
  repeat' first
    | with_reducible assumption
    | with_reducible intro _
    | with_reducible apply mbEnd_inv
    | with_reducible apply mbRes_inv
    | with_reducible apply inv_ite
    | split
    | (dsimp only; split)
    | refine inv_fst (by with_reducible assumption) ?_
    | refine inv_snd (by with_reducible assumption) ?_

theorem mbStageBegin_inv {q : List Instr} : ∀ s, Inv q s → Inv q (mbStageBegin s) := by
  intro s h
  unfold mbStageBegin
  repeat' first
    | with_reducible assumption
    | with_reducible intro _
    | with_reducible apply mbEnd_inv
    | with_reducible apply emit_inv
    | with_reducible apply inv_ite
    | split
    | (dsimp only; split)
    | refine inv_fst (by with_reducible assumption) ?_
    | refine inv_snd (by with_reducible assumption) ?_
    | with_reducible apply Inv.mk_plain
    | (dsimp only; with_reducible apply Inv.mk_plain)

theorem mbStageData_inv {q : List Instr} : ∀ s, Inv q s → Inv q (mbStageData s) := by
  intro s h
  unfold mbStageData
  repeat' first
    | with_reducible assumption
    | with_reducible intro _
    | with_reducible apply mbEnd_inv
    | with_reducible apply emit_inv
    | with_reducible apply putHmBytes_inv
    | with_reducible apply inv_ite
    | split
    | (dsimp only; split)
    | refine inv_fst (by with_reducible assumption) ?_
    | refine inv_snd (by with_reducible assumption) ?_
    | with_reducible apply Inv.mk_plain
    | (dsimp only; with_reducible apply Inv.mk_plain)

theorem reject_inv {q : List Instr} : ∀ s x1 x2 x3, Inv q s → Inv q (reject s x1 x2 x3) := by
  intro s x1 x2 x3 h
  unfold reject
  repeat' first
    | with_reducible assumption
    | with_reducible intro _
    | with_reducible apply hmLog_inv
    | with_reducible apply mbEnd_inv
    | with_reducible apply inv_ite
    | split
    | (dsimp only; split)
    | refine inv_fst (by with_reducible assumption) ?_
    | refine inv_snd (by with_reducible assumption) ?_
    | with_reducible apply Inv.mk_plain
    | (dsimp only; with_reducible apply Inv.mk_plain)

theorem mbStageCommit_inv {q : List Instr} : ∀ s x1 x2, Inv q s → Inv q (mbStageCommit s x1 x2) := by
  intro s x1 x2 h
  unfold mbStageCommit
  repeat' first
    | with_reducible assumption
    | with_reducible intro _
    | with_reducible apply mbEnd_inv
    | with_reducible apply reject_inv
    | with_reducible apply noteMldsa_inv
    | with_reducible apply emit_inv
    | with_reducible apply inv_ite
    | split
    | (dsimp only; split)
    | refine inv_fst (by with_reducible assumption) ?_
    | refine inv_snd (by with_reducible assumption) ?_
    | with_reducible apply Inv.mk_plain
    | (dsimp only; with_reducible apply Inv.mk_plain)

theorem rollEnd_inv {q : List Instr} : ∀ s x1 x2 x3, Inv q s → Inv q (rollEnd s x1 x2 x3) := by
  intro s x1 x2 x3 h
  unfold rollEnd
  repeat' first
    | with_reducible assumption
    | with_reducible intro _
    | with_reducible apply mbEnd_inv
    | with_reducible apply mbRes_inv
    | with_reducible apply inv_ite
    | split
    | (dsimp only; split)
    | refine inv_fst (by with_reducible assumption) ?_
    | refine inv_snd (by with_reducible assumption) ?_
    | with_reducible apply Inv.mk_plain
    | (dsimp only; with_reducible apply Inv.mk_plain)

theorem rollNext_inv {q : List Instr} : ∀ s x1 x2 x3, Inv q s → Inv q (rollNext s x1 x2 x3) := by
  intro s x1 x2 x3 h
  unfold rollNext
  repeat' first
    | with_reducible assumption
    | with_reducible intro _
    | with_reducible apply rollEnd_inv
    | with_reducible apply selWrite_inv
    | with_reducible apply inv_ite
    | split
    | (dsimp only; split)
    | refine inv_fst (by with_reducible assumption) ?_
    | refine inv_snd (by with_reducible assumption) ?_
    | with_reducible apply Inv.mk_plain
    | (dsimp only; with_reducible apply Inv.mk_plain)

theorem mbRollout_inv {q : List Instr} : ∀ s x1, Inv q s → Inv q (mbRollout s x1) := by
  intro s x1 h
  unfold mbRollout
  repeat' first
    | with_reducible assumption
    | with_reducible intro _
    | with_reducible apply mbEnd_inv
    | with_reducible apply mbRes_inv
    | with_reducible apply setCode_inv
    | with_reducible apply loadVintage_inv
    | with_reducible apply endLoad_inv
    | with_reducible apply rollNext_inv
    | with_reducible apply inv_ite
    | split
    | (dsimp only; split)
    | refine inv_fst (by with_reducible assumption) ?_
    | refine inv_snd (by with_reducible assumption) ?_
    | with_reducible apply Inv.mk_plain
    | (dsimp only; with_reducible apply Inv.mk_plain)

theorem rollStep_inv {q : List Instr} : ∀ s, Inv q s → Inv q (rollStep s) := by
  intro s h
  unfold rollStep
  repeat' first
    | with_reducible assumption
    | with_reducible intro _
    | with_reducible apply rollEnd_inv
    | with_reducible apply rollNext_inv
    | with_reducible apply inv_ite
    | split
    | (dsimp only; split)
    | refine inv_fst (by with_reducible assumption) ?_
    | refine inv_snd (by with_reducible assumption) ?_

theorem mbGraft_inv {q : List Instr} : ∀ s x1, Inv q s → Inv q (mbGraft s x1) := by
  intro s x1 h
  unfold mbGraft
  repeat' first
    | with_reducible assumption
    | with_reducible intro _
    | with_reducible apply mbEnd_inv
    | with_reducible apply holdWrite_inv
    | with_reducible apply installGraft_inv
    | with_reducible apply endLoad_inv
    | with_reducible apply inv_ite
    | with_reducible refine inv_foldl (fun _ _ _ => ?_) _ _ ?_
    | split
    | (dsimp only; split)
    | refine inv_fst (by with_reducible assumption) ?_
    | refine inv_snd (by with_reducible assumption) ?_

theorem mbBootctl_inv {q : List Instr} : ∀ s, Inv q s → Inv q (mbBootctl s) := by
  intro s h
  unfold mbBootctl
  repeat' first
    | with_reducible assumption
    | with_reducible intro _
    | with_reducible apply mbEnd_inv
    | with_reducible apply inv_ite
    | split
    | (dsimp only; split)
    | refine inv_fst (by with_reducible assumption) ?_
    | refine inv_snd (by with_reducible assumption) ?_
    | with_reducible apply Inv.mk_plain
    | (dsimp only; with_reducible apply Inv.mk_plain)

theorem startUnpair_inv {q : List Instr} : ∀ s, Inv q s → Inv q (startUnpair s) := by
  intro s h
  unfold startUnpair
  repeat' first
    | with_reducible assumption
    | with_reducible intro _
    | with_reducible apply updTw_inv
    | with_reducible apply startWake_inv
    | with_reducible apply inv_ite
    | split
    | (dsimp only; split)
    | refine inv_fst (by with_reducible assumption) ?_
    | refine inv_snd (by with_reducible assumption) ?_
    | with_reducible apply Inv.mk_plain
    | (dsimp only; with_reducible apply Inv.mk_plain)

theorem mbUnpair_inv {q : List Instr} : ∀ s, Inv q s → Inv q (mbUnpair s) := by
  intro s h
  unfold mbUnpair
  repeat' first
    | with_reducible assumption
    | with_reducible intro _
    | with_reducible apply mbEnd_inv
    | with_reducible apply startUnpair_inv
    | with_reducible apply inv_ite
    | split
    | (dsimp only; split)
    | refine inv_fst (by with_reducible assumption) ?_
    | refine inv_snd (by with_reducible assumption) ?_

theorem mbQuarantine_inv {q : List Instr} : ∀ s, Inv q s → Inv q (mbQuarantine s) := by
  intro s h
  unfold mbQuarantine
  repeat' first
    | with_reducible assumption
    | with_reducible intro _
    | with_reducible apply mbEnd_inv
    | with_reducible apply quarantine_inv
    | with_reducible apply inv_ite
    | split
    | (dsimp only; split)
    | refine inv_fst (by with_reducible assumption) ?_
    | refine inv_snd (by with_reducible assumption) ?_

theorem discardFrozen_inv {q : List Instr} : ∀ s, Inv q s → Inv q (discardFrozen s) := by
  intro s h
  unfold discardFrozen
  repeat' first
    | with_reducible assumption
    | with_reducible intro _
    | with_reducible apply inv_ite
    | split
    | (dsimp only; split)
    | refine inv_fst (by with_reducible assumption) ?_
    | refine inv_snd (by with_reducible assumption) ?_
    | with_reducible apply Inv.mk_plain
    | with_reducible refine Inv.mk_rings ?_ (by first | exact id | exact Table.wf_put _ _ _ _ | exact Table.wf_upd _ _ _ _ | exact Table.wf_mapVals _ _ _ | exact Table.wf_putList _ _ _ _ | exact Table.wf_filter _ _ _ | exact fun h => Table.wf_put _ _ _ _ (Table.wf_put _ _ _ _ h) | exact fun _ => rfl)
    | with_reducible refine Inv.mk_own ?_ (by first | exact id | exact Table.wf_put _ _ _ _ | exact Table.wf_upd _ _ _ _ | exact Table.wf_mapVals _ _ _ | exact Table.wf_putList _ _ _ _ | exact Table.wf_filter _ _ _ | exact fun h => Table.wf_put _ _ _ _ (Table.wf_put _ _ _ _ h) | exact fun _ => rfl)
    | with_reducible refine Inv.mk_xc ?_ (by first | exact id | exact Table.wf_put _ _ _ _ | exact Table.wf_upd _ _ _ _ | exact Table.wf_mapVals _ _ _ | exact Table.wf_putList _ _ _ _ | exact Table.wf_filter _ _ _ | exact fun h => Table.wf_put _ _ _ _ (Table.wf_put _ _ _ _ h) | exact fun _ => rfl)
    | with_reducible refine Inv.mk_dcmds ?_ (by first | exact id | exact Table.wf_put _ _ _ _ | exact Table.wf_upd _ _ _ _ | exact Table.wf_mapVals _ _ _ | exact Table.wf_putList _ _ _ _ | exact Table.wf_filter _ _ _ | exact fun h => Table.wf_put _ _ _ _ (Table.wf_put _ _ _ _ h) | exact fun _ => rfl)
    | with_reducible refine Inv.mk_bays ?_ (by first | exact id | exact Table.wf_put _ _ _ _ | exact Table.wf_upd _ _ _ _ | exact Table.wf_mapVals _ _ _ | exact Table.wf_putList _ _ _ _ | exact Table.wf_filter _ _ _ | exact fun h => Table.wf_put _ _ _ _ (Table.wf_put _ _ _ _ h) | exact fun _ => rfl)
    | (dsimp only; with_reducible apply Inv.mk_plain)
    | (dsimp only; with_reducible refine Inv.mk_rings ?_ (by first | exact id | exact Table.wf_put _ _ _ _ | exact Table.wf_upd _ _ _ _ | exact Table.wf_mapVals _ _ _ | exact Table.wf_putList _ _ _ _ | exact Table.wf_filter _ _ _ | exact fun h => Table.wf_put _ _ _ _ (Table.wf_put _ _ _ _ h) | exact fun _ => rfl))
    | (dsimp only; with_reducible refine Inv.mk_own ?_ (by first | exact id | exact Table.wf_put _ _ _ _ | exact Table.wf_upd _ _ _ _ | exact Table.wf_mapVals _ _ _ | exact Table.wf_putList _ _ _ _ | exact Table.wf_filter _ _ _ | exact fun h => Table.wf_put _ _ _ _ (Table.wf_put _ _ _ _ h) | exact fun _ => rfl))
    | (dsimp only; with_reducible refine Inv.mk_xc ?_ (by first | exact id | exact Table.wf_put _ _ _ _ | exact Table.wf_upd _ _ _ _ | exact Table.wf_mapVals _ _ _ | exact Table.wf_putList _ _ _ _ | exact Table.wf_filter _ _ _ | exact fun h => Table.wf_put _ _ _ _ (Table.wf_put _ _ _ _ h) | exact fun _ => rfl))
    | (dsimp only; with_reducible refine Inv.mk_dcmds ?_ (by first | exact id | exact Table.wf_put _ _ _ _ | exact Table.wf_upd _ _ _ _ | exact Table.wf_mapVals _ _ _ | exact Table.wf_putList _ _ _ _ | exact Table.wf_filter _ _ _ | exact fun h => Table.wf_put _ _ _ _ (Table.wf_put _ _ _ _ h) | exact fun _ => rfl))
    | (dsimp only; with_reducible refine Inv.mk_bays ?_ (by first | exact id | exact Table.wf_put _ _ _ _ | exact Table.wf_upd _ _ _ _ | exact Table.wf_mapVals _ _ _ | exact Table.wf_putList _ _ _ _ | exact Table.wf_filter _ _ _ | exact fun h => Table.wf_put _ _ _ _ (Table.wf_put _ _ _ _ h) | exact fun _ => rfl))
    | refine Inv.mk_all ?_ (by first | exact id | exact Table.wf_put _ _ _ _ | exact Table.wf_upd _ _ _ _ | exact Table.wf_mapVals _ _ _ | exact Table.wf_putList _ _ _ _ | exact Table.wf_filter _ _ _ | exact fun h => Table.wf_put _ _ _ _ (Table.wf_put _ _ _ _ h) | exact fun _ => rfl) (by first | exact id | exact Table.wf_put _ _ _ _ | exact Table.wf_upd _ _ _ _ | exact Table.wf_mapVals _ _ _ | exact Table.wf_putList _ _ _ _ | exact Table.wf_filter _ _ _ | exact fun h => Table.wf_put _ _ _ _ (Table.wf_put _ _ _ _ h) | exact fun _ => rfl) (by first | exact id | exact Table.wf_put _ _ _ _ | exact Table.wf_upd _ _ _ _ | exact Table.wf_mapVals _ _ _ | exact Table.wf_putList _ _ _ _ | exact Table.wf_filter _ _ _ | exact fun h => Table.wf_put _ _ _ _ (Table.wf_put _ _ _ _ h) | exact fun _ => rfl) (by first | exact id | exact Table.wf_put _ _ _ _ | exact Table.wf_upd _ _ _ _ | exact Table.wf_mapVals _ _ _ | exact Table.wf_putList _ _ _ _ | exact Table.wf_filter _ _ _ | exact fun h => Table.wf_put _ _ _ _ (Table.wf_put _ _ _ _ h) | exact fun _ => rfl) (by first | exact id | exact Table.wf_put _ _ _ _ | exact Table.wf_upd _ _ _ _ | exact Table.wf_mapVals _ _ _ | exact Table.wf_putList _ _ _ _ | exact Table.wf_filter _ _ _ | exact fun h => Table.wf_put _ _ _ _ (Table.wf_put _ _ _ _ h) | exact fun _ => rfl) (by first | exact id | exact Table.wf_put _ _ _ _ | exact Table.wf_upd _ _ _ _ | exact Table.wf_mapVals _ _ _ | exact Table.wf_putList _ _ _ _ | exact Table.wf_filter _ _ _ | exact fun h => Table.wf_put _ _ _ _ (Table.wf_put _ _ _ _ h) | exact fun _ => rfl) (by first | exact id | exact Table.wf_put _ _ _ _ | exact Table.wf_upd _ _ _ _ | exact Table.wf_mapVals _ _ _ | exact Table.wf_putList _ _ _ _ | exact Table.wf_filter _ _ _ | exact fun h => Table.wf_put _ _ _ _ (Table.wf_put _ _ _ _ h) | exact fun _ => rfl) (by first | exact id | exact Table.wf_put _ _ _ _ | exact Table.wf_upd _ _ _ _ | exact Table.wf_mapVals _ _ _ | exact Table.wf_putList _ _ _ _ | exact Table.wf_filter _ _ _ | exact fun h => Table.wf_put _ _ _ _ (Table.wf_put _ _ _ _ h) | exact fun _ => rfl) (by first | exact id | exact Table.wf_put _ _ _ _ | exact Table.wf_upd _ _ _ _ | exact Table.wf_mapVals _ _ _ | exact Table.wf_putList _ _ _ _ | exact Table.wf_filter _ _ _ | exact fun h => Table.wf_put _ _ _ _ (Table.wf_put _ _ _ _ h) | exact fun _ => rfl) (by first | exact id | exact Table.wf_put _ _ _ _ | exact Table.wf_upd _ _ _ _ | exact Table.wf_mapVals _ _ _ | exact Table.wf_putList _ _ _ _ | exact Table.wf_filter _ _ _ | exact fun h => Table.wf_put _ _ _ _ (Table.wf_put _ _ _ _ h) | exact fun _ => rfl) (by first | exact id | exact Table.wf_put _ _ _ _ | exact Table.wf_upd _ _ _ _ | exact Table.wf_mapVals _ _ _ | exact Table.wf_putList _ _ _ _ | exact Table.wf_filter _ _ _ | exact fun h => Table.wf_put _ _ _ _ (Table.wf_put _ _ _ _ h) | exact fun _ => rfl) (by first | exact id | exact Table.wf_put _ _ _ _ | exact Table.wf_upd _ _ _ _ | exact Table.wf_mapVals _ _ _ | exact Table.wf_putList _ _ _ _ | exact Table.wf_filter _ _ _ | exact fun h => Table.wf_put _ _ _ _ (Table.wf_put _ _ _ _ h) | exact fun _ => rfl) (by first | exact id | exact Table.wf_put _ _ _ _ | exact Table.wf_upd _ _ _ _ | exact Table.wf_mapVals _ _ _ | exact Table.wf_putList _ _ _ _ | exact Table.wf_filter _ _ _ | exact fun h => Table.wf_put _ _ _ _ (Table.wf_put _ _ _ _ h) | exact fun _ => rfl) (by first | exact id | exact Table.wf_put _ _ _ _ | exact Table.wf_upd _ _ _ _ | exact Table.wf_mapVals _ _ _ | exact Table.wf_putList _ _ _ _ | exact Table.wf_filter _ _ _ | exact fun h => Table.wf_put _ _ _ _ (Table.wf_put _ _ _ _ h) | exact fun _ => rfl) (by first | exact id | exact Table.wf_put _ _ _ _ | exact Table.wf_upd _ _ _ _ | exact Table.wf_mapVals _ _ _ | exact Table.wf_putList _ _ _ _ | exact Table.wf_filter _ _ _ | exact fun h => Table.wf_put _ _ _ _ (Table.wf_put _ _ _ _ h) | exact fun _ => rfl) (by first | exact id | exact Table.wf_put _ _ _ _ | exact Table.wf_upd _ _ _ _ | exact Table.wf_mapVals _ _ _ | exact Table.wf_putList _ _ _ _ | exact Table.wf_filter _ _ _ | exact fun h => Table.wf_put _ _ _ _ (Table.wf_put _ _ _ _ h) | exact fun _ => rfl) (by first | exact id | exact Table.wf_put _ _ _ _ | exact Table.wf_upd _ _ _ _ | exact Table.wf_mapVals _ _ _ | exact Table.wf_putList _ _ _ _ | exact Table.wf_filter _ _ _ | exact fun h => Table.wf_put _ _ _ _ (Table.wf_put _ _ _ _ h) | exact fun _ => rfl) (by first | exact id | exact Table.wf_put _ _ _ _ | exact Table.wf_upd _ _ _ _ | exact Table.wf_mapVals _ _ _ | exact Table.wf_putList _ _ _ _ | exact Table.wf_filter _ _ _ | exact fun h => Table.wf_put _ _ _ _ (Table.wf_put _ _ _ _ h) | exact fun _ => rfl) (by first | exact id | exact Table.wf_put _ _ _ _ | exact Table.wf_upd _ _ _ _ | exact Table.wf_mapVals _ _ _ | exact Table.wf_putList _ _ _ _ | exact Table.wf_filter _ _ _ | exact fun h => Table.wf_put _ _ _ _ (Table.wf_put _ _ _ _ h) | exact fun _ => rfl) (by first | exact id | exact Table.wf_put _ _ _ _ | exact Table.wf_upd _ _ _ _ | exact Table.wf_mapVals _ _ _ | exact Table.wf_putList _ _ _ _ | exact Table.wf_filter _ _ _ | exact fun h => Table.wf_put _ _ _ _ (Table.wf_put _ _ _ _ h) | exact fun _ => rfl) (by first | exact id | exact Table.wf_put _ _ _ _ | exact Table.wf_upd _ _ _ _ | exact Table.wf_mapVals _ _ _ | exact Table.wf_putList _ _ _ _ | exact Table.wf_filter _ _ _ | exact fun h => Table.wf_put _ _ _ _ (Table.wf_put _ _ _ _ h) | exact fun _ => rfl) (by first | exact id | exact Table.wf_put _ _ _ _ | exact Table.wf_upd _ _ _ _ | exact Table.wf_mapVals _ _ _ | exact Table.wf_putList _ _ _ _ | exact Table.wf_filter _ _ _ | exact fun h => Table.wf_put _ _ _ _ (Table.wf_put _ _ _ _ h) | exact fun _ => rfl) (by first | exact id | exact Table.wf_put _ _ _ _ | exact Table.wf_upd _ _ _ _ | exact Table.wf_mapVals _ _ _ | exact Table.wf_putList _ _ _ _ | exact Table.wf_filter _ _ _ | exact fun h => Table.wf_put _ _ _ _ (Table.wf_put _ _ _ _ h) | exact fun _ => rfl) (by first | exact id | exact Table.wf_put _ _ _ _ | exact Table.wf_upd _ _ _ _ | exact Table.wf_mapVals _ _ _ | exact Table.wf_putList _ _ _ _ | exact Table.wf_filter _ _ _ | exact fun h => Table.wf_put _ _ _ _ (Table.wf_put _ _ _ _ h) | exact fun _ => rfl) (by first | exact id | exact Table.wf_put _ _ _ _ | exact Table.wf_upd _ _ _ _ | exact Table.wf_mapVals _ _ _ | exact Table.wf_putList _ _ _ _ | exact Table.wf_filter _ _ _ | exact fun h => Table.wf_put _ _ _ _ (Table.wf_put _ _ _ _ h) | exact fun _ => rfl) (by first | exact id | exact Table.wf_put _ _ _ _ | exact Table.wf_upd _ _ _ _ | exact Table.wf_mapVals _ _ _ | exact Table.wf_putList _ _ _ _ | exact Table.wf_filter _ _ _ | exact fun h => Table.wf_put _ _ _ _ (Table.wf_put _ _ _ _ h) | exact fun _ => rfl) (by first | exact id | exact Table.wf_put _ _ _ _ | exact Table.wf_upd _ _ _ _ | exact Table.wf_mapVals _ _ _ | exact Table.wf_putList _ _ _ _ | exact Table.wf_filter _ _ _ | exact fun h => Table.wf_put _ _ _ _ (Table.wf_put _ _ _ _ h) | exact fun _ => rfl) (by first | exact id | exact Table.wf_put _ _ _ _ | exact Table.wf_upd _ _ _ _ | exact Table.wf_mapVals _ _ _ | exact Table.wf_putList _ _ _ _ | exact Table.wf_filter _ _ _ | exact fun h => Table.wf_put _ _ _ _ (Table.wf_put _ _ _ _ h) | exact fun _ => rfl) (by first | exact id | exact Table.wf_put _ _ _ _ | exact Table.wf_upd _ _ _ _ | exact Table.wf_mapVals _ _ _ | exact Table.wf_putList _ _ _ _ | exact Table.wf_filter _ _ _ | exact fun h => Table.wf_put _ _ _ _ (Table.wf_put _ _ _ _ h) | exact fun _ => rfl)

theorem startMaint_inv {q : List Instr} : ∀ s, Inv q s → Inv q (startMaint s) := by
  intro s h
  unfold startMaint
  repeat' first
    | with_reducible assumption
    | with_reducible intro _
    | with_reducible apply maintNow_inv
    | with_reducible apply discardFrozen_inv
    | with_reducible apply updTw_inv
    | with_reducible apply startUnpair_inv
    | with_reducible apply startWake_inv
    | with_reducible apply inv_ite
    | split
    | (dsimp only; split)
    | refine inv_fst (by with_reducible assumption) ?_
    | refine inv_snd (by with_reducible assumption) ?_
    | with_reducible apply Inv.mk_plain
    | (dsimp only; with_reducible apply Inv.mk_plain)

theorem mbMaintenance_inv {q : List Instr} : ∀ s, Inv q s → Inv q (mbMaintenance s) := by
  intro s h
  unfold mbMaintenance
  repeat' first
    | with_reducible assumption
    | with_reducible intro _
    | with_reducible apply mbEnd_inv
    | with_reducible apply startMaint_inv
    | with_reducible apply inv_ite
    | split
    | (dsimp only; split)
    | refine inv_fst (by with_reducible assumption) ?_
    | refine inv_snd (by with_reducible assumption) ?_

theorem putRecs_inv {q : List Instr} : ∀ s x1 x2, Inv q s → Inv q (putRecs s x1 x2) := by
  intro s x1 x2
  induction x2 generalizing s x1 with
  | nil => intro h; exact h
  | cons b l ih =>
    intro h
    unfold putRecs
    try dsimp only
    repeat' first
      | with_reducible assumption
      | with_reducible intro _
      | with_reducible apply ih
      | with_reducible apply inv_ite
      | split
      | (dsimp only; split)
      | refine inv_fst (by with_reducible assumption) ?_
      | refine inv_snd (by with_reducible assumption) ?_
      | with_reducible apply Inv.mk_plain
      | with_reducible refine Inv.mk_hmmem ?_ (by first | exact id | exact Table.wf_put _ _ _ _ | exact Table.wf_upd _ _ _ _ | exact Table.wf_mapVals _ _ _ | exact Table.wf_putList _ _ _ _ | exact Table.wf_filter _ _ _ | exact fun h => Table.wf_put _ _ _ _ (Table.wf_put _ _ _ _ h) | exact fun _ => rfl)
      | (dsimp only; with_reducible apply Inv.mk_plain)
      | (dsimp only; with_reducible refine Inv.mk_hmmem ?_ (by first | exact id | exact Table.wf_put _ _ _ _ | exact Table.wf_upd _ _ _ _ | exact Table.wf_mapVals _ _ _ | exact Table.wf_putList _ _ _ _ | exact Table.wf_filter _ _ _ | exact fun h => Table.wf_put _ _ _ _ (Table.wf_put _ _ _ _ h) | exact fun _ => rfl))

theorem mbLogread_inv {q : List Instr} : ∀ s, Inv q s → Inv q (mbLogread s) := by
  intro s h
  unfold mbLogread
  repeat' first
    | with_reducible assumption
    | with_reducible intro _
    | with_reducible apply mbEnd_inv
    | with_reducible apply mbRes_inv
    | with_reducible apply putRecs_inv
    | with_reducible apply inv_ite
    | split
    | (dsimp only; split)
    | refine inv_fst (by with_reducible assumption) ?_
    | refine inv_snd (by with_reducible assumption) ?_

theorem mbKeyacct_inv {q : List Instr} : ∀ s, Inv q s → Inv q (mbKeyacct s) := by
  intro s h
  unfold mbKeyacct
  repeat' first
    | with_reducible assumption
    | with_reducible intro _
    | with_reducible apply mbEnd_inv
    | with_reducible apply mbRes_inv
    | with_reducible apply inv_ite
    | split
    | (dsimp only; split)
    | refine inv_fst (by with_reducible assumption) ?_
    | refine inv_snd (by with_reducible assumption) ?_

theorem mbSvnset_inv {q : List Instr} : ∀ s, Inv q s → Inv q (mbSvnset s) := by
  intro s h
  unfold mbSvnset
  repeat' first
    | with_reducible assumption
    | with_reducible intro _
    | with_reducible apply mbEnd_inv
    | with_reducible apply inv_ite
    | split
    | (dsimp only; split)
    | refine inv_fst (by with_reducible assumption) ?_
    | refine inv_snd (by with_reducible assumption) ?_
    | with_reducible apply Inv.mk_plain
    | (dsimp only; with_reducible apply Inv.mk_plain)

theorem mbLcadv_inv {q : List Instr} : ∀ s, Inv q s → Inv q (mbLcadv s) := by
  intro s h
  unfold mbLcadv
  repeat' first
    | with_reducible assumption
    | with_reducible intro _
    | with_reducible apply mbEnd_inv
    | with_reducible apply emit_inv
    | with_reducible apply inv_ite
    | split
    | (dsimp only; split)
    | refine inv_fst (by with_reducible assumption) ?_
    | refine inv_snd (by with_reducible assumption) ?_

theorem mbRun_inv {q : List Instr} : ∀ s x1, Inv q s → Inv q (mbRun s x1) := by
  intro s x1 h
  unfold mbRun
  repeat' first
    | with_reducible assumption
    | with_reducible intro _
    | with_reducible apply mbEcho_inv
    | with_reducible apply mbStageBegin_inv
    | with_reducible apply mbStageData_inv
    | with_reducible apply mbBootctl_inv
    | with_reducible apply mbUnpair_inv
    | with_reducible apply mbQuarantine_inv
    | with_reducible apply mbMaintenance_inv
    | with_reducible apply mbLogread_inv
    | with_reducible apply mbKeyacct_inv
    | with_reducible apply mbSvnset_inv
    | with_reducible apply mbLcadv_inv
    | with_reducible apply mbEnd_inv
    | with_reducible apply inv_ite
    | split
    | (dsimp only; split)
    | refine inv_fst (by with_reducible assumption) ?_
    | refine inv_snd (by with_reducible assumption) ?_

theorem mbCommand_inv {q : List Instr} : ∀ s x1 x2 x3, Inv q s → (∀ a0, Inv q a0 → Inv q (x3 a0)) → Inv q (mbCommand s x1 x2 x3) := by
  intro s x1 x2 x3 h h1
  unfold mbCommand
  repeat' first
    | with_reducible assumption
    | with_reducible intro _
    | with_reducible apply h1
    | with_reducible apply inv_ite
    | split
    | (dsimp only; split)
    | refine inv_fst (by with_reducible assumption) ?_
    | refine inv_snd (by with_reducible assumption) ?_
    | with_reducible apply Inv.mk_plain
    | (dsimp only; with_reducible apply Inv.mk_plain)

theorem mbArgs_inv {q : List Instr} : ∀ s x1, Inv q s → Inv q (mbArgs s x1) := by
  intro s x1 h
  unfold mbArgs
  repeat' first
    | with_reducible assumption
    | with_reducible intro _
    | with_reducible apply inv_ite
    | split
    | (dsimp only; split)
    | refine inv_fst (by with_reducible assumption) ?_
    | refine inv_snd (by with_reducible assumption) ?_
    | with_reducible apply Inv.mk_plain
    | (dsimp only; with_reducible apply Inv.mk_plain)

theorem mbWhole_inv {q : List Instr} : ∀ s x1 x2 x3, Inv q s → (∀ a0, Inv q a0 → Inv q (x3 a0)) → Inv q (mbWhole s x1 x2 x3) := by
  intro s x1 x2 x3 h h1
  unfold mbWhole
  repeat' first
    | with_reducible assumption
    | with_reducible intro _
    | with_reducible apply mbCommand_inv
    | with_reducible apply mbArgs_inv
    | with_reducible apply h1
    | with_reducible apply inv_ite
    | split
    | (dsimp only; split)
    | refine inv_fst (by with_reducible assumption) ?_
    | refine inv_snd (by with_reducible assumption) ?_

theorem execEcho_inv {q : List Instr} : ∀ x0 s, Inv q s → OInv q (execEcho x0 s) := by
  intro x0 s h
  unfold execEcho
  repeat' first
    | with_reducible assumption
    | with_reducible intro _
    | with_reducible apply mbWhole_inv
    | with_reducible apply mbEcho_inv
    | with_reducible apply inv_ite
    | with_reducible apply oinv_next
    | with_reducible apply oinv_ite
    | split
    | (dsimp only; split)
    | refine inv_fst (by with_reducible assumption) ?_
    | refine inv_snd (by with_reducible assumption) ?_

theorem execStageBegin_inv {q : List Instr} : ∀ x0 s, Inv q s → OInv q (execStageBegin x0 s) := by
  intro x0 s h
  unfold execStageBegin
  repeat' first
    | with_reducible assumption
    | with_reducible intro _
    | with_reducible apply mbWhole_inv
    | with_reducible apply mbStageBegin_inv
    | with_reducible apply inv_ite
    | with_reducible apply oinv_next
    | with_reducible apply oinv_ite
    | split
    | (dsimp only; split)
    | refine inv_fst (by with_reducible assumption) ?_
    | refine inv_snd (by with_reducible assumption) ?_

theorem execStageData_inv {q : List Instr} : ∀ x0 s, Inv q s → OInv q (execStageData x0 s) := by
  intro x0 s h
  unfold execStageData
  repeat' first
    | with_reducible assumption
    | with_reducible intro _
    | with_reducible apply mbWhole_inv
    | with_reducible apply mbStageData_inv
    | with_reducible apply inv_ite
    | with_reducible apply oinv_next
    | with_reducible apply oinv_ite
    | split
    | (dsimp only; split)
    | refine inv_fst (by with_reducible assumption) ?_
    | refine inv_snd (by with_reducible assumption) ?_

theorem execStageCommit_inv {q : List Instr} : ∀ x0 x1 x2 s, Inv q s → OInv q (execStageCommit x0 x1 x2 s) := by
  intro x0 x1 x2 s h
  unfold execStageCommit
  repeat' first
    | with_reducible assumption
    | with_reducible intro _
    | with_reducible apply mbWhole_inv
    | with_reducible apply mbStageCommit_inv
    | with_reducible apply inv_ite
    | with_reducible apply oinv_next
    | with_reducible apply oinv_ite
    | split
    | (dsimp only; split)
    | refine inv_fst (by with_reducible assumption) ?_
    | refine inv_snd (by with_reducible assumption) ?_

theorem execRollout_inv {q : List Instr} : ∀ x0 x1 s, Inv q s → OInv q (execRollout x0 x1 s) := by
  intro x0 x1 s h
  unfold execRollout
  repeat' first
    | with_reducible assumption
    | with_reducible intro _
    | with_reducible apply mbWhole_inv
    | with_reducible apply mbRollout_inv
    | with_reducible apply inv_ite
    | with_reducible apply oinv_next
    | with_reducible apply oinv_ite
    | split
    | (dsimp only; split)
    | refine inv_fst (by with_reducible assumption) ?_
    | refine inv_snd (by with_reducible assumption) ?_

theorem execRolloutNextCluster_inv {q : List Instr} : ∀ s, Inv q s → OInv q (execRolloutNextCluster s) := by
  intro s h
  unfold execRolloutNextCluster
  repeat' first
    | with_reducible assumption
    | with_reducible intro _
    | with_reducible apply rollStep_inv
    | with_reducible apply inv_ite
    | with_reducible apply oinv_next
    | with_reducible apply oinv_ite
    | split
    | (dsimp only; split)
    | refine inv_fst (by with_reducible assumption) ?_
    | refine inv_snd (by with_reducible assumption) ?_

theorem execGraft_inv {q : List Instr} : ∀ x0 x1 s, Inv q s → OInv q (execGraft x0 x1 s) := by
  intro x0 x1 s h
  unfold execGraft
  repeat' first
    | with_reducible assumption
    | with_reducible intro _
    | with_reducible apply mbWhole_inv
    | with_reducible apply mbGraft_inv
    | with_reducible apply inv_ite
    | with_reducible apply oinv_next
    | with_reducible apply oinv_ite
    | split
    | (dsimp only; split)
    | refine inv_fst (by with_reducible assumption) ?_
    | refine inv_snd (by with_reducible assumption) ?_

theorem execBootctl_inv {q : List Instr} : ∀ x0 s, Inv q s → OInv q (execBootctl x0 s) := by
  intro x0 s h
  unfold execBootctl
  repeat' first
    | with_reducible assumption
    | with_reducible intro _
    | with_reducible apply mbWhole_inv
    | with_reducible apply mbBootctl_inv
    | with_reducible apply inv_ite
    | with_reducible apply oinv_next
    | with_reducible apply oinv_ite
    | split
    | (dsimp only; split)
    | refine inv_fst (by with_reducible assumption) ?_
    | refine inv_snd (by with_reducible assumption) ?_

theorem execUnpair_inv {q : List Instr} : ∀ x0 s, Inv q s → OInv q (execUnpair x0 s) := by
  intro x0 s h
  unfold execUnpair
  repeat' first
    | with_reducible assumption
    | with_reducible intro _
    | with_reducible apply mbWhole_inv
    | with_reducible apply mbUnpair_inv
    | with_reducible apply inv_ite
    | with_reducible apply oinv_next
    | with_reducible apply oinv_ite
    | split
    | (dsimp only; split)
    | refine inv_fst (by with_reducible assumption) ?_
    | refine inv_snd (by with_reducible assumption) ?_

theorem execQuarantine_inv {q : List Instr} : ∀ x0 s, Inv q s → OInv q (execQuarantine x0 s) := by
  intro x0 s h
  unfold execQuarantine
  repeat' first
    | with_reducible assumption
    | with_reducible intro _
    | with_reducible apply mbWhole_inv
    | with_reducible apply mbQuarantine_inv
    | with_reducible apply inv_ite
    | with_reducible apply oinv_next
    | with_reducible apply oinv_ite
    | split
    | (dsimp only; split)
    | refine inv_fst (by with_reducible assumption) ?_
    | refine inv_snd (by with_reducible assumption) ?_

theorem execMaintenance_inv {q : List Instr} : ∀ x0 s, Inv q s → OInv q (execMaintenance x0 s) := by
  intro x0 s h
  unfold execMaintenance
  repeat' first
    | with_reducible assumption
    | with_reducible intro _
    | with_reducible apply mbWhole_inv
    | with_reducible apply mbMaintenance_inv
    | with_reducible apply inv_ite
    | with_reducible apply oinv_next
    | with_reducible apply oinv_ite
    | split
    | (dsimp only; split)
    | refine inv_fst (by with_reducible assumption) ?_
    | refine inv_snd (by with_reducible assumption) ?_

theorem execLogread_inv {q : List Instr} : ∀ x0 s, Inv q s → OInv q (execLogread x0 s) := by
  intro x0 s h
  unfold execLogread
  repeat' first
    | with_reducible assumption
    | with_reducible intro _
    | with_reducible apply mbWhole_inv
    | with_reducible apply mbLogread_inv
    | with_reducible apply inv_ite
    | with_reducible apply oinv_next
    | with_reducible apply oinv_ite
    | split
    | (dsimp only; split)
    | refine inv_fst (by with_reducible assumption) ?_
    | refine inv_snd (by with_reducible assumption) ?_

theorem execKeyacct_inv {q : List Instr} : ∀ x0 s, Inv q s → OInv q (execKeyacct x0 s) := by
  intro x0 s h
  unfold execKeyacct
  repeat' first
    | with_reducible assumption
    | with_reducible intro _
    | with_reducible apply mbWhole_inv
    | with_reducible apply mbKeyacct_inv
    | with_reducible apply inv_ite
    | with_reducible apply oinv_next
    | with_reducible apply oinv_ite
    | split
    | (dsimp only; split)
    | refine inv_fst (by with_reducible assumption) ?_
    | refine inv_snd (by with_reducible assumption) ?_

theorem execSvnset_inv {q : List Instr} : ∀ x0 s, Inv q s → OInv q (execSvnset x0 s) := by
  intro x0 s h
  unfold execSvnset
  repeat' first
    | with_reducible assumption
    | with_reducible intro _
    | with_reducible apply mbWhole_inv
    | with_reducible apply mbSvnset_inv
    | with_reducible apply inv_ite
    | with_reducible apply oinv_next
    | with_reducible apply oinv_ite
    | split
    | (dsimp only; split)
    | refine inv_fst (by with_reducible assumption) ?_
    | refine inv_snd (by with_reducible assumption) ?_

theorem execLcadv_inv {q : List Instr} : ∀ x0 s, Inv q s → OInv q (execLcadv x0 s) := by
  intro x0 s h
  unfold execLcadv
  repeat' first
    | with_reducible assumption
    | with_reducible intro _
    | with_reducible apply mbWhole_inv
    | with_reducible apply mbLcadv_inv
    | with_reducible apply inv_ite
    | with_reducible apply oinv_next
    | with_reducible apply oinv_ite
    | split
    | (dsimp only; split)
    | refine inv_fst (by with_reducible assumption) ?_
    | refine inv_snd (by with_reducible assumption) ?_

theorem execMaintenanceDrained_inv {q : List Instr} : ∀ s, Inv q s → OInv q (execMaintenanceDrained s) := by
  intro s h
  unfold execMaintenanceDrained
  repeat' first
    | with_reducible assumption
    | with_reducible intro _
    | with_reducible apply startUnpair_inv
    | with_reducible apply maintNow_inv
    | with_reducible apply inv_ite
    | with_reducible apply oinv_next
    | with_reducible apply oinv_ite
    | split
    | (dsimp only; split)
    | refine inv_fst (by with_reducible assumption) ?_
    | refine inv_snd (by with_reducible assumption) ?_

theorem execLogPageWrite_inv {q : List Instr} : ∀ s, Inv q s → OInv q (execLogPageWrite s) := by
  intro s h
  unfold execLogPageWrite
  repeat' first
    | with_reducible assumption
    | with_reducible intro _
    | with_reducible apply emit_inv
    | with_reducible apply inv_ite
    | with_reducible apply oinv_next
    | with_reducible apply oinv_ite
    | split
    | (dsimp only; split)
    | refine inv_fst (by with_reducible assumption) ?_
    | refine inv_snd (by with_reducible assumption) ?_
    | with_reducible apply Inv.mk_plain
    | (dsimp only; with_reducible apply Inv.mk_plain)

theorem execHmRestart_inv {q : List Instr} : ∀ s, Inv q s → OInv q (execHmRestart s) := by
  intro s h
  unfold execHmRestart
  repeat' first
    | with_reducible assumption
    | with_reducible intro _
    | with_reducible apply updPilot_inv
    | with_reducible apply inv_ite
    | with_reducible apply oinv_next
    | with_reducible apply oinv_ite
    | split
    | (dsimp only; split)
    | refine inv_fst (by with_reducible assumption) ?_
    | refine inv_snd (by with_reducible assumption) ?_
    | with_reducible apply Inv.mk_plain
    | (dsimp only; with_reducible apply Inv.mk_plain)

end Sys2Proof.Machine
end

