-- ==== Sys2Proof/Laws/InvManifest.lean ====
section
/-! SUPPORT. Laws/InvManifest.lean: every function of Machine/Manifest.lean keeps the invariant of a sound state. -/

namespace Sys2Proof.Machine

theorem sealedOnly_inv {q : List Instr} : ∀ f fn x s (r : PRes), Inv q s → PRes.Inv q r → PRes.Inv q (sealedOnly f fn x s r) := by
  intro f fn x s r h hr
  unfold sealedOnly
  split
  · exact hr
  · exact h

theorem maniRsv_inv {q : List Instr} : ∀ x0 x1 s, Inv q s → PRes.Inv q (maniRsv x0 x1 s) := by
  intro x0 x1 s h
  unfold maniRsv
  repeat' first
    | with_reducible assumption
    | with_reducible intro _
    | with_reducible apply inv_ite
    | with_reducible apply pinv_ite
    | with_reducible apply pinv_done
    | with_reducible apply pinv_trap
    | with_reducible apply pinv_brk
    | with_reducible apply pinv_stop
    | split
    | (dsimp only; split)
    | refine inv_fst (by with_reducible assumption) ?_
    | refine inv_snd (by with_reducible assumption) ?_
    | refine pinv_of_done (by with_reducible assumption) ?_
    | refine pinv_of_brk (by with_reducible assumption) ?_
    | refine pinv_of_trap (by with_reducible assumption) ?_
    | refine pinv_of_stop (by with_reducible assumption) ?_

theorem execMalloc_inv {q : List Instr} : ∀ x0 s, Inv q s → OInv q (execMalloc x0 s) := by
  intro x0 s h
  unfold execMalloc
  repeat' first
    | with_reducible assumption
    | with_reducible intro _
    | with_reducible apply mani_inv
    | with_reducible apply mallocRing_inv
    | with_reducible apply inv_ite
    | with_reducible apply oinv_next
    | with_reducible apply oinv_ite
    | split
    | (dsimp only; split)
    | refine inv_fst (by with_reducible assumption) ?_
    | refine inv_snd (by with_reducible assumption) ?_

theorem execMallocG_inv {q : List Instr} : ∀ x0 s, Inv q s → OInv q (execMallocG x0 s) := by
  intro x0 s h
  unfold execMallocG
  repeat' first
    | with_reducible assumption
    | with_reducible intro _
    | with_reducible apply mani_inv
    | with_reducible apply mallocRing_inv
    | with_reducible apply inv_ite
    | with_reducible apply oinv_next
    | with_reducible apply oinv_ite
    | split
    | (dsimp only; split)
    | refine inv_fst (by with_reducible assumption) ?_
    | refine inv_snd (by with_reducible assumption) ?_

theorem execMallocS_inv {q : List Instr} : ∀ x0 s, Inv q s → OInv q (execMallocS x0 s) := by
  intro x0 s h
  unfold execMallocS
  repeat' first
    | with_reducible assumption
    | with_reducible intro _
    | with_reducible apply mani_inv
    | with_reducible apply sealedOnly_inv
    | with_reducible apply mallocRing_inv
    | with_reducible apply inv_ite
    | with_reducible apply oinv_next
    | with_reducible apply oinv_ite
    | split
    | (dsimp only; split)
    | refine inv_fst (by with_reducible assumption) ?_
    | refine inv_snd (by with_reducible assumption) ?_

theorem execMallocV_inv {q : List Instr} : ∀ x0 s, Inv q s → OInv q (execMallocV x0 s) := by
  intro x0 s h
  unfold execMallocV
  repeat' first
    | with_reducible assumption
    | with_reducible intro _
    | with_reducible apply mani_inv
    | with_reducible apply mallocV_inv
    | with_reducible apply inv_ite
    | with_reducible apply oinv_next
    | with_reducible apply oinv_ite
    | split
    | (dsimp only; split)
    | refine inv_fst (by with_reducible assumption) ?_
    | refine inv_snd (by with_reducible assumption) ?_

theorem onHandle_inv {q : List Instr} : ∀ x0 x1 s x3 x4 x5, Inv q s → (∀ a0, PRes.Inv q (x5 a0)) → PRes.Inv q (onHandle x0 x1 s x3 x4 x5) := by
  intro x0 x1 s x3 x4 x5 h h1
  unfold onHandle
  repeat' first
    | with_reducible assumption
    | with_reducible intro _
    | with_reducible apply mcode_inv
    | with_reducible apply h1
    | with_reducible apply inv_ite
    | with_reducible apply pinv_ite
    | with_reducible apply pinv_done
    | with_reducible apply pinv_trap
    | with_reducible apply pinv_brk
    | with_reducible apply pinv_stop
    | split
    | (dsimp only; split)
    | refine inv_fst (by with_reducible assumption) ?_
    | refine inv_snd (by with_reducible assumption) ?_
    | refine pinv_of_done (by with_reducible assumption) ?_
    | refine pinv_of_brk (by with_reducible assumption) ?_
    | refine pinv_of_trap (by with_reducible assumption) ?_
    | refine pinv_of_stop (by with_reducible assumption) ?_

theorem execMget_inv {q : List Instr} : ∀ x0 s, Inv q s → OInv q (execMget x0 s) := by
  intro x0 s h
  unfold execMget
  repeat' first
    | with_reducible assumption
    | with_reducible intro _
    | with_reducible apply mani_inv
    | with_reducible apply onHandle_inv
    | with_reducible apply mval_inv
    | with_reducible apply inv_ite
    | with_reducible apply oinv_next
    | with_reducible apply oinv_ite
    | split
    | (dsimp only; split)
    | refine inv_fst (by with_reducible assumption) ?_
    | refine inv_snd (by with_reducible assumption) ?_

theorem mputBody_inv {q : List Instr} : ∀ x0 x1 s, Inv q s → PRes.Inv q (mputBody x0 x1 s) := by
  intro x0 x1 s h
  unfold mputBody
  repeat' first
    | with_reducible assumption
    | with_reducible intro _
    | with_reducible apply mz_inv
    | with_reducible apply updOwn_inv
    | with_reducible apply noteCmd_inv
    | with_reducible apply inv_ite
    | with_reducible apply pinv_ite
    | with_reducible apply pinv_done
    | with_reducible apply pinv_trap
    | with_reducible apply pinv_brk
    | with_reducible apply pinv_stop
    | split
    | (dsimp only; split)
    | refine inv_fst (by with_reducible assumption) ?_
    | refine inv_snd (by with_reducible assumption) ?_
    | refine pinv_of_done (by with_reducible assumption) ?_
    | refine pinv_of_brk (by with_reducible assumption) ?_
    | refine pinv_of_trap (by with_reducible assumption) ?_
    | refine pinv_of_stop (by with_reducible assumption) ?_

theorem execMput_inv {q : List Instr} : ∀ x0 s, Inv q s → OInv q (execMput x0 s) := by
  intro x0 s h
  unfold execMput
  repeat' first
    | with_reducible assumption
    | with_reducible intro _
    | with_reducible apply mani_inv
    | with_reducible apply mputBody_inv
    | with_reducible apply inv_ite
    | with_reducible apply oinv_next
    | with_reducible apply oinv_ite
    | split
    | (dsimp only; split)
    | refine inv_fst (by with_reducible assumption) ?_
    | refine inv_snd (by with_reducible assumption) ?_

theorem execMstep_inv {q : List Instr} : ∀ x0 s, Inv q s → OInv q (execMstep x0 s) := by
  intro x0 s h
  unfold execMstep
  repeat' first
    | with_reducible assumption
    | with_reducible intro _
    | with_reducible apply mani_inv
    | with_reducible apply onHandle_inv
    | with_reducible apply mstepTo_inv
    | with_reducible apply mcode_inv
    | with_reducible apply takeoverEnd_inv
    | with_reducible apply lfree_inv
    | with_reducible apply inv_ite
    | with_reducible apply pinv_ite
    | with_reducible apply pinv_done
    | with_reducible apply pinv_trap
    | with_reducible apply pinv_brk
    | with_reducible apply pinv_stop
    | with_reducible apply oinv_next
    | with_reducible apply oinv_ite
    | split
    | (dsimp only; split)
    | refine inv_fst (by with_reducible assumption) ?_
    | refine inv_snd (by with_reducible assumption) ?_
    | refine pinv_of_done (by with_reducible assumption) ?_
    | refine pinv_of_brk (by with_reducible assumption) ?_
    | refine pinv_of_trap (by with_reducible assumption) ?_
    | refine pinv_of_stop (by with_reducible assumption) ?_

theorem execMwack_inv {q : List Instr} : ∀ x0 s, Inv q s → OInv q (execMwack x0 s) := by
  intro x0 s h
  unfold execMwack
  repeat' first
    | with_reducible assumption
    | with_reducible intro _
    | with_reducible apply mani_inv
    | with_reducible apply onHandle_inv
    | with_reducible apply mcode_inv
    | with_reducible apply inv_ite
    | with_reducible apply oinv_next
    | with_reducible apply oinv_ite
    | split
    | (dsimp only; split)
    | refine inv_fst (by with_reducible assumption) ?_
    | refine inv_snd (by with_reducible assumption) ?_

theorem mdeclBody_inv {q : List Instr} : ∀ x0 x1 s, Inv q s → PRes.Inv q (mdeclBody x0 x1 s) := by
  intro x0 x1 s h
  unfold mdeclBody
  repeat' first
    | with_reducible assumption
    | with_reducible intro _
    | with_reducible apply maniRsv_inv
    | with_reducible apply mcode_inv
    | with_reducible apply queueRec_inv
    | with_reducible apply updRing_inv
    | with_reducible apply dispose_inv
    | with_reducible apply inv_ite
    | with_reducible apply pinv_ite
    | with_reducible apply pinv_done
    | with_reducible apply pinv_trap
    | with_reducible apply pinv_brk
    | with_reducible apply pinv_stop
    | split
    | (dsimp only; split)
    | refine inv_fst (by with_reducible assumption) ?_
    | refine inv_snd (by with_reducible assumption) ?_
    | refine pinv_of_done (by with_reducible assumption) ?_
    | refine pinv_of_brk (by with_reducible assumption) ?_
    | refine pinv_of_trap (by with_reducible assumption) ?_
    | refine pinv_of_stop (by with_reducible assumption) ?_

theorem execMdecl_inv {q : List Instr} : ∀ x0 s, Inv q s → OInv q (execMdecl x0 s) := by
  intro x0 s h
  unfold execMdecl
  repeat' first
    | with_reducible assumption
    | with_reducible intro _
    | with_reducible apply mani_inv
    | with_reducible apply mdeclBody_inv
    | with_reducible apply inv_ite
    | with_reducible apply oinv_next
    | with_reducible apply oinv_ite
    | split
    | (dsimp only; split)
    | refine inv_fst (by with_reducible assumption) ?_
    | refine inv_snd (by with_reducible assumption) ?_

theorem onMoor_inv {q : List Instr} : ∀ x0 x1 x2 s x4 x5, Inv q s → (∀ a0, PRes.Inv q (x4 a0)) → (∀ a0, PRes.Inv q (x5 a0)) → PRes.Inv q (onMoor x0 x1 x2 s x4 x5) := by
  intro x0 x1 x2 s x4 x5 h h1 h2
  unfold onMoor
  repeat' first
    | with_reducible assumption
    | with_reducible intro _
    | with_reducible apply maniRsv_inv
    | with_reducible apply h1
    | with_reducible apply h2
    | with_reducible apply inv_ite
    | with_reducible apply pinv_ite
    | with_reducible apply pinv_done
    | with_reducible apply pinv_trap
    | with_reducible apply pinv_brk
    | with_reducible apply pinv_stop
    | split
    | (dsimp only; split)
    | refine inv_fst (by with_reducible assumption) ?_
    | refine inv_snd (by with_reducible assumption) ?_
    | refine pinv_of_done (by with_reducible assumption) ?_
    | refine pinv_of_brk (by with_reducible assumption) ?_
    | refine pinv_of_trap (by with_reducible assumption) ?_
    | refine pinv_of_stop (by with_reducible assumption) ?_

theorem setBrk_inv {q : List Instr} : ∀ s x1 x2, Inv q s → Inv q (setBrk s x1 x2) := by
  intro s x1 x2 h
  unfold setBrk
  repeat' first
    | with_reducible assumption
    | with_reducible intro _
    | with_reducible apply updPilot_inv
    | with_reducible apply inv_ite
    | split
    | (dsimp only; split)
    | refine inv_fst (by with_reducible assumption) ?_
    | refine inv_snd (by with_reducible assumption) ?_

theorem moorBody_inv {q : List Instr} : ∀ x0 x1 s, Inv q s → PRes.Inv q (moorBody x0 x1 s) := by
  intro x0 x1 s h
  unfold moorBody
  repeat' first
    | with_reducible assumption
    | with_reducible intro _
    | with_reducible apply onMoor_inv
    | with_reducible apply mcode_inv
    | with_reducible apply setBrk_inv
    | with_reducible apply setMoor_inv
    | with_reducible apply mval_inv
    | with_reducible apply inv_ite
    | with_reducible apply pinv_ite
    | with_reducible apply pinv_done
    | with_reducible apply pinv_trap
    | with_reducible apply pinv_brk
    | with_reducible apply pinv_stop
    | split
    | (dsimp only; split)
    | refine inv_fst (by with_reducible assumption) ?_
    | refine inv_snd (by with_reducible assumption) ?_
    | refine pinv_of_done (by with_reducible assumption) ?_
    | refine pinv_of_brk (by with_reducible assumption) ?_
    | refine pinv_of_trap (by with_reducible assumption) ?_
    | refine pinv_of_stop (by with_reducible assumption) ?_

theorem execMoor_inv {q : List Instr} : ∀ x0 s, Inv q s → OInv q (execMoor x0 s) := by
  intro x0 s h
  unfold execMoor
  repeat' first
    | with_reducible assumption
    | with_reducible intro _
    | with_reducible apply mani_inv
    | with_reducible apply moorBody_inv
    | with_reducible apply inv_ite
    | with_reducible apply oinv_next
    | with_reducible apply oinv_ite
    | split
    | (dsimp only; split)
    | refine inv_fst (by with_reducible assumption) ?_
    | refine inv_snd (by with_reducible assumption) ?_

theorem execUnmoor_inv {q : List Instr} : ∀ x0 s, Inv q s → OInv q (execUnmoor x0 s) := by
  intro x0 s h
  unfold execUnmoor
  repeat' first
    | with_reducible assumption
    | with_reducible intro _
    | with_reducible apply mani_inv
    | with_reducible apply onMoor_inv
    | with_reducible apply mz_inv
    | with_reducible apply setMoor_inv
    | with_reducible apply inv_ite
    | with_reducible apply pinv_ite
    | with_reducible apply pinv_done
    | with_reducible apply pinv_trap
    | with_reducible apply pinv_brk
    | with_reducible apply pinv_stop
    | with_reducible apply oinv_next
    | with_reducible apply oinv_ite
    | split
    | (dsimp only; split)
    | refine inv_fst (by with_reducible assumption) ?_
    | refine inv_snd (by with_reducible assumption) ?_
    | refine pinv_of_done (by with_reducible assumption) ?_
    | refine pinv_of_brk (by with_reducible assumption) ?_
    | refine pinv_of_trap (by with_reducible assumption) ?_
    | refine pinv_of_stop (by with_reducible assumption) ?_

theorem onNote_inv {q : List Instr} : ∀ x0 x1 x2 s x4, Inv q s → (∀ a0, PRes.Inv q (x4 a0)) → PRes.Inv q (onNote x0 x1 x2 s x4) := by
  intro x0 x1 x2 s x4 h h1
  unfold onNote
  repeat' first
    | with_reducible assumption
    | with_reducible intro _
    | with_reducible apply maniRsv_inv
    | with_reducible apply h1
    | with_reducible apply inv_ite
    | with_reducible apply pinv_ite
    | with_reducible apply pinv_done
    | with_reducible apply pinv_trap
    | with_reducible apply pinv_brk
    | with_reducible apply pinv_stop
    | split
    | (dsimp only; split)
    | refine inv_fst (by with_reducible assumption) ?_
    | refine inv_snd (by with_reducible assumption) ?_
    | refine pinv_of_done (by with_reducible assumption) ?_
    | refine pinv_of_brk (by with_reducible assumption) ?_
    | refine pinv_of_trap (by with_reducible assumption) ?_
    | refine pinv_of_stop (by with_reducible assumption) ?_

theorem execMnoteW_inv {q : List Instr} : ∀ x0 s, Inv q s → OInv q (execMnoteW x0 s) := by
  intro x0 s h
  unfold execMnoteW
  repeat' first
    | with_reducible assumption
    | with_reducible intro _
    | with_reducible apply mani_inv
    | with_reducible apply onNote_inv
    | with_reducible apply setAloneMoor_inv
    | with_reducible apply inv_ite
    | with_reducible apply pinv_ite
    | with_reducible apply pinv_done
    | with_reducible apply pinv_trap
    | with_reducible apply pinv_brk
    | with_reducible apply pinv_stop
    | with_reducible apply oinv_next
    | with_reducible apply oinv_ite
    | split
    | (dsimp only; split)
    | refine inv_fst (by with_reducible assumption) ?_
    | refine inv_snd (by with_reducible assumption) ?_
    | refine pinv_of_done (by with_reducible assumption) ?_
    | refine pinv_of_brk (by with_reducible assumption) ?_
    | refine pinv_of_trap (by with_reducible assumption) ?_
    | refine pinv_of_stop (by with_reducible assumption) ?_
    | with_reducible apply Inv.mk_plain
    | (dsimp only; with_reducible apply Inv.mk_plain)

theorem execMnoteR_inv {q : List Instr} : ∀ x0 s, Inv q s → OInv q (execMnoteR x0 s) := by
  intro x0 s h
  unfold execMnoteR
  repeat' first
    | with_reducible assumption
    | with_reducible intro _
    | with_reducible apply mani_inv
    | with_reducible apply onNote_inv
    | with_reducible apply updPilot_inv
    | with_reducible apply inv_ite
    | with_reducible apply pinv_ite
    | with_reducible apply pinv_done
    | with_reducible apply pinv_trap
    | with_reducible apply pinv_brk
    | with_reducible apply pinv_stop
    | with_reducible apply oinv_next
    | with_reducible apply oinv_ite
    | split
    | (dsimp only; split)
    | refine inv_fst (by with_reducible assumption) ?_
    | refine inv_snd (by with_reducible assumption) ?_
    | refine pinv_of_done (by with_reducible assumption) ?_
    | refine pinv_of_brk (by with_reducible assumption) ?_
    | refine pinv_of_trap (by with_reducible assumption) ?_
    | refine pinv_of_stop (by with_reducible assumption) ?_

theorem execMforce_inv {q : List Instr} : ∀ x0 s, Inv q s → OInv q (execMforce x0 s) := by
  intro x0 s h
  unfold execMforce
  repeat' first
    | with_reducible assumption
    | with_reducible intro _
    | with_reducible apply mani_inv
    | with_reducible apply sealedOnly_inv
    | with_reducible apply onMoor_inv
    | with_reducible apply mcode_inv
    | with_reducible apply breakMoor_inv
    | with_reducible apply inv_ite
    | with_reducible apply oinv_next
    | with_reducible apply oinv_ite
    | split
    | (dsimp only; split)
    | refine inv_fst (by with_reducible assumption) ?_
    | refine inv_snd (by with_reducible assumption) ?_

theorem execMrq_inv {q : List Instr} : ∀ x0 s, Inv q s → OInv q (execMrq x0 s) := by
  intro x0 s h
  unfold execMrq
  repeat' first
    | with_reducible assumption
    | with_reducible intro _
    | with_reducible apply mani_inv
    | with_reducible apply mcode_inv
    | with_reducible apply mval_inv
    | with_reducible apply sampleLevel_inv
    | with_reducible apply inv_ite
    | with_reducible apply oinv_next
    | with_reducible apply oinv_ite
    | split
    | (dsimp only; split)
    | refine inv_fst (by with_reducible assumption) ?_
    | refine inv_snd (by with_reducible assumption) ?_
    | with_reducible apply Inv.mk_plain
    | (dsimp only; with_reducible apply Inv.mk_plain)

theorem mscanBody_inv {q : List Instr} : ∀ x0 x1 x2 x3 s, Inv q s → PRes.Inv q (mscanBody x0 x1 x2 x3 s) := by
  intro x0 x1 x2 x3 s h
  unfold mscanBody
  repeat' first
    | with_reducible assumption
    | with_reducible intro _
    | with_reducible apply maniRsv_inv
    | with_reducible apply scanLoop_inv
    | with_reducible apply updPilot_inv
    | with_reducible apply mval_inv
    | with_reducible apply watch_inv
    | with_reducible apply inv_ite
    | with_reducible apply pinv_ite
    | with_reducible apply pinv_done
    | with_reducible apply pinv_trap
    | with_reducible apply pinv_brk
    | with_reducible apply pinv_stop
    | split
    | (dsimp only; split)
    | refine inv_fst (by with_reducible assumption) ?_
    | refine inv_snd (by with_reducible assumption) ?_
    | refine pinv_of_done (by with_reducible assumption) ?_
    | refine pinv_of_brk (by with_reducible assumption) ?_
    | refine pinv_of_trap (by with_reducible assumption) ?_
    | refine pinv_of_stop (by with_reducible assumption) ?_

theorem execMscan_inv {q : List Instr} : ∀ x0 x1 s, Inv q s → OInv q (execMscan x0 x1 s) := by
  intro x0 x1 s h
  unfold execMscan
  repeat' first
    | with_reducible assumption
    | with_reducible intro _
    | with_reducible apply mani_inv
    | with_reducible apply mscanBody_inv
    | with_reducible apply inv_ite
    | with_reducible apply oinv_next
    | with_reducible apply oinv_ite
    | split
    | (dsimp only; split)
    | refine inv_fst (by with_reducible assumption) ?_
    | refine inv_snd (by with_reducible assumption) ?_

theorem execMglean_inv {q : List Instr} : ∀ x0 s, Inv q s → OInv q (execMglean x0 s) := by
  intro x0 s h
  unfold execMglean
  repeat' first
    | with_reducible assumption
    | with_reducible intro _
    | with_reducible apply mani_inv
    | with_reducible apply sealedOnly_inv
    | with_reducible apply mcode_inv
    | with_reducible apply gleanFrom_inv
    | with_reducible apply inv_ite
    | with_reducible apply oinv_next
    | with_reducible apply oinv_ite
    | split
    | (dsimp only; split)
    | refine inv_fst (by with_reducible assumption) ?_
    | refine inv_snd (by with_reducible assumption) ?_
    | with_reducible apply Inv.mk_plain
    | (dsimp only; with_reducible apply Inv.mk_plain)

theorem execGleanerResume_inv {q : List Instr} : ∀ s, Inv q s → OInv q (execGleanerResume s) := by
  intro s h
  unfold execGleanerResume
  repeat' first
    | with_reducible assumption
    | with_reducible intro _
    | with_reducible apply gleanFrom_inv
    | with_reducible apply inv_ite
    | with_reducible apply oinv_next
    | with_reducible apply oinv_ite
    | split
    | (dsimp only; split)
    | refine inv_fst (by with_reducible assumption) ?_
    | refine inv_snd (by with_reducible assumption) ?_
    | with_reducible apply Inv.mk_plain
    | (dsimp only; with_reducible apply Inv.mk_plain)

theorem execGleanerDone_inv {q : List Instr} : ∀ s, Inv q s → OInv q (execGleanerDone s) := by
  intro s h
  unfold execGleanerDone
  repeat' first
    | with_reducible assumption
    | with_reducible intro _
    | with_reducible apply takeoverEnd_inv
    | with_reducible apply startAdoptions_inv
    | with_reducible apply raise_inv
    | with_reducible apply updTw_inv
    | with_reducible apply inv_ite
    | with_reducible apply oinv_next
    | with_reducible apply oinv_ite
    | split
    | (dsimp only; split)
    | refine inv_fst (by with_reducible assumption) ?_
    | refine inv_snd (by with_reducible assumption) ?_
    | with_reducible apply Inv.mk_plain
    | (dsimp only; with_reducible apply Inv.mk_plain)

theorem leaseBreakDebug_inv {q : List Instr} : ∀ s x1 x2, Inv q s → Inv q (leaseBreakDebug s x1 x2) := by
  intro s x1 x2 h
  unfold leaseBreakDebug
  repeat' first
    | with_reducible assumption
    | with_reducible intro _
    | with_reducible apply updPilot_inv
    | with_reducible apply boundary_inv
    | with_reducible apply inv_ite
    | split
    | (dsimp only; split)
    | refine inv_fst (by with_reducible assumption) ?_
    | refine inv_snd (by with_reducible assumption) ?_
    | with_reducible apply Inv.mk_plain
    | (dsimp only; with_reducible apply Inv.mk_plain)

theorem execLeaseExpiry_inv {q : List Instr} : ∀ x0 s, Inv q s → OInv q (execLeaseExpiry x0 s) := by
  intro x0 s h
  unfold execLeaseExpiry
  repeat' first
    | with_reducible assumption
    | with_reducible intro _
    | with_reducible apply leaseBreakDebug_inv
    | with_reducible apply breakMoor_inv
    | with_reducible apply inv_ite
    | with_reducible apply oinv_next
    | with_reducible apply oinv_ite
    | split
    | (dsimp only; split)
    | refine inv_fst (by with_reducible assumption) ?_
    | refine inv_snd (by with_reducible assumption) ?_

theorem execRollbackComplete_inv {q : List Instr} : ∀ x0 s, Inv q s → OInv q (execRollbackComplete x0 s) := by
  intro x0 s h
  unfold execRollbackComplete
  repeat' first
    | with_reducible assumption
    | with_reducible intro _
    | with_reducible apply finishRollback_inv
    | with_reducible apply inv_ite
    | with_reducible apply oinv_next
    | with_reducible apply oinv_ite
    | split
    | (dsimp only; split)
    | refine inv_fst (by with_reducible assumption) ?_
    | refine inv_snd (by with_reducible assumption) ?_

end Sys2Proof.Machine
end

