-- ==== Sys2Proof/Laws/InvRings.lean ====
section
/-! SUPPORT. Laws/InvRings.lean: every function of Machine/Rings.lean keeps the invariant of a sound state. -/

namespace Sys2Proof.Machine

theorem sqDoorbell_inv {q : List Instr} : ∀ s x1 x2 x3, Inv q s → Inv q (sqDoorbell s x1 x2 x3) := by
  intro s x1 x2 x3 h
  unfold sqDoorbell
  repeat' first
    | with_reducible assumption
    | with_reducible intro _
    | with_reducible apply setRing_inv
    | with_reducible apply raise_inv
    | with_reducible apply inv_ite
    | split
    | (dsimp only; split)
    | refine inv_fst (by with_reducible assumption) ?_
    | refine inv_snd (by with_reducible assumption) ?_

theorem cqDoorbell_inv {q : List Instr} : ∀ s x1 x2, Inv q s → Inv q (cqDoorbell s x1 x2) := by
  intro s x1 x2 h
  unfold cqDoorbell
  repeat' first
    | with_reducible assumption
    | with_reducible intro _
    | with_reducible apply setRing_inv
    | with_reducible apply updTw_inv
    | with_reducible apply drainRing_inv
    | with_reducible apply inv_ite
    | split
    | (dsimp only; split)
    | refine inv_fst (by with_reducible assumption) ?_
    | refine inv_snd (by with_reducible assumption) ?_
    | with_reducible apply Inv.mk_plain
    | (dsimp only; with_reducible apply Inv.mk_plain)

theorem resumeX_inv {q : List Instr} : ∀ s x1, Inv q s → Inv q (resumeX s x1) := by
  intro s x1 h
  unfold resumeX
  repeat' first
    | with_reducible assumption
    | with_reducible intro _
    | with_reducible apply setOwn_inv
    | with_reducible apply endX_inv
    | with_reducible apply fetchWord_inv
    | with_reducible apply inv_ite
    | split
    | (dsimp only; split)
    | refine inv_fst (by with_reducible assumption) ?_
    | refine inv_snd (by with_reducible assumption) ?_

theorem cancelX_inv {q : List Instr} : ∀ s x1, Inv q s → Inv q (cancelX s x1) := by
  intro s x1 h
  unfold cancelX
  repeat' first
    | with_reducible assumption
    | with_reducible intro _
    | with_reducible apply endX_inv
    | with_reducible apply setXctx_inv
    | with_reducible apply inv_ite
    | split
    | (dsimp only; split)
    | refine inv_fst (by with_reducible assumption) ?_
    | refine inv_snd (by with_reducible assumption) ?_

theorem relWrite_inv {q : List Instr} : ∀ s x1 x2, Inv q s → Inv q (relWrite s x1 x2) := by
  intro s x1 x2 h
  unfold relWrite
  repeat' first
    | with_reducible assumption
    | with_reducible intro _
    | with_reducible apply updRing_inv
    | with_reducible apply resumeX_inv
    | with_reducible apply cancelX_inv
    | with_reducible apply sampleLevel_inv
    | with_reducible apply inv_ite
    | split
    | (dsimp only; split)
    | refine inv_fst (by with_reducible assumption) ?_
    | refine inv_snd (by with_reducible assumption) ?_
    | with_reducible apply Inv.mk_plain
    | (dsimp only; with_reducible apply Inv.mk_plain)

theorem passHeld_inv {q : List Instr} : ∀ n s, Inv q s → Inv q (passHeld n s)
  | 0, _, h => h
  | n + 1, s, h => by
    unfold passHeld
    split
    · split
      · dsimp only
        refine passHeld_inv n _ ?_
        split
        · exact relWrite_inv _ _ _ (Inv.mk_plain h)
        · exact Inv.mk_plain h
      · exact h
    · exact h

theorem maskWrite_inv {q : List Instr} : ∀ s x1 x2, Inv q s → Inv q (maskWrite s x1 x2) := by
  intro s x1 x2 h
  unfold maskWrite
  repeat' first
    | with_reducible assumption
    | with_reducible intro _
    | with_reducible apply setRing_inv
    | with_reducible apply sendMsi_inv
    | with_reducible apply updRing_inv
    | with_reducible apply inv_ite
    | split
    | (dsimp only; split)
    | refine inv_fst (by with_reducible assumption) ?_
    | refine inv_snd (by with_reducible assumption) ?_

theorem pageWrite_inv {q : List Instr} : ∀ s x1 x2 x3 x4, Inv q s → Inv q (pageWrite s x1 x2 x3 x4) := by
  intro s x1 x2 x3 x4 h
  unfold pageWrite
  repeat' first
    | with_reducible assumption
    | with_reducible intro _
    | with_reducible apply sqDoorbell_inv
    | with_reducible apply cqDoorbell_inv
    | with_reducible apply relWrite_inv
    | with_reducible apply maskWrite_inv
    | with_reducible apply inv_ite
    | split
    | (dsimp only; split)
    | refine inv_fst (by with_reducible assumption) ?_
    | refine inv_snd (by with_reducible assumption) ?_

theorem execSubmissionDoorbell_inv {q : List Instr} : ∀ x0 s, Inv q s → OInv q (execSubmissionDoorbell x0 s) := by
  intro x0 s h
  unfold execSubmissionDoorbell
  repeat' first
    | with_reducible assumption
    | with_reducible intro _
    | with_reducible apply pageWrite_inv
    | with_reducible apply inv_ite
    | with_reducible apply oinv_next
    | with_reducible apply oinv_ite
    | split
    | (dsimp only; split)
    | refine inv_fst (by with_reducible assumption) ?_
    | refine inv_snd (by with_reducible assumption) ?_

theorem execCompletionDoorbell_inv {q : List Instr} : ∀ x0 s, Inv q s → OInv q (execCompletionDoorbell x0 s) := by
  intro x0 s h
  unfold execCompletionDoorbell
  repeat' first
    | with_reducible assumption
    | with_reducible intro _
    | with_reducible apply pageWrite_inv
    | with_reducible apply inv_ite
    | with_reducible apply oinv_next
    | with_reducible apply oinv_ite
    | split
    | (dsimp only; split)
    | refine inv_fst (by with_reducible assumption) ?_
    | refine inv_snd (by with_reducible assumption) ?_

theorem execResume_inv {q : List Instr} : ∀ x0 s, Inv q s → OInv q (execResume x0 s) := by
  intro x0 s h
  unfold execResume
  repeat' first
    | with_reducible assumption
    | with_reducible intro _
    | with_reducible apply pageWrite_inv
    | with_reducible apply inv_ite
    | with_reducible apply oinv_next
    | with_reducible apply oinv_ite
    | split
    | (dsimp only; split)
    | refine inv_fst (by with_reducible assumption) ?_
    | refine inv_snd (by with_reducible assumption) ?_

theorem execCancel_inv {q : List Instr} : ∀ x0 s, Inv q s → OInv q (execCancel x0 s) := by
  intro x0 s h
  unfold execCancel
  repeat' first
    | with_reducible assumption
    | with_reducible intro _
    | with_reducible apply pageWrite_inv
    | with_reducible apply inv_ite
    | with_reducible apply oinv_next
    | with_reducible apply oinv_ite
    | split
    | (dsimp only; split)
    | refine inv_fst (by with_reducible assumption) ?_
    | refine inv_snd (by with_reducible assumption) ?_

theorem execMaskWrite_inv {q : List Instr} : ∀ x0 s, Inv q s → OInv q (execMaskWrite x0 s) := by
  intro x0 s h
  unfold execMaskWrite
  repeat' first
    | with_reducible assumption
    | with_reducible intro _
    | with_reducible apply pageWrite_inv
    | with_reducible apply inv_ite
    | with_reducible apply oinv_next
    | with_reducible apply oinv_ite
    | split
    | (dsimp only; split)
    | refine inv_fst (by with_reducible assumption) ?_
    | refine inv_snd (by with_reducible assumption) ?_

theorem dropPick_inv {q : List Instr} : ∀ s x1, Inv q s → Inv q (dropPick s x1) := by
  intro s x1 h
  unfold dropPick
  repeat' first
    | with_reducible assumption
    | with_reducible intro _
    | with_reducible apply sampleLevel_inv
    | with_reducible apply inv_ite
    | split
    | (dsimp only; split)
    | refine inv_fst (by with_reducible assumption) ?_
    | refine inv_snd (by with_reducible assumption) ?_
    | with_reducible apply Inv.mk_plain
    | (dsimp only; with_reducible apply Inv.mk_plain)

theorem ringCfgWrite_inv {q : List Instr} : ∀ s x1 x2, Inv q s → Inv q (ringCfgWrite s x1 x2) := by
  intro s x1 x2 h
  unfold ringCfgWrite
  repeat' first
    | with_reducible assumption
    | with_reducible intro _
    | with_reducible apply setRing_inv
    | with_reducible apply takeoverEnd_inv
    | with_reducible apply sendRingState_inv
    | with_reducible apply dropPick_inv
    | with_reducible apply inv_ite
    | split
    | (dsimp only; split)
    | refine inv_fst (by with_reducible assumption) ?_
    | refine inv_snd (by with_reducible assumption) ?_

theorem ringNoteWrite_inv {q : List Instr} : ∀ s x1 x2, Inv q s → Inv q (ringNoteWrite s x1 x2) := by
  intro s x1 x2 h
  unfold ringNoteWrite
  repeat' first
    | with_reducible assumption
    | with_reducible intro _
    | with_reducible apply updRing_inv
    | with_reducible apply inv_ite
    | split
    | (dsimp only; split)
    | refine inv_fst (by with_reducible assumption) ?_
    | refine inv_snd (by with_reducible assumption) ?_

theorem ringWrite32_inv {q : List Instr} : ∀ s x1 x2 x3, Inv q s → Inv q (ringWrite32 s x1 x2 x3) := by
  intro s x1 x2 x3 h
  unfold ringWrite32
  repeat' first
    | with_reducible assumption
    | with_reducible intro _
    | with_reducible apply ringCfgWrite_inv
    | with_reducible apply setRing_inv
    | with_reducible apply sendRingState_inv
    | with_reducible apply ringNoteWrite_inv
    | with_reducible apply inv_ite
    | split
    | (dsimp only; split)
    | refine inv_fst (by with_reducible assumption) ?_
    | refine inv_snd (by with_reducible assumption) ?_

theorem ringWrite64_inv {q : List Instr} : ∀ s x1 x2 x3 x4, Inv q s → Inv q (ringWrite64 s x1 x2 x3 x4) := by
  intro s x1 x2 x3 x4 h
  unfold ringWrite64
  repeat' first
    | with_reducible assumption
    | with_reducible intro _
    | with_reducible apply setRing_inv
    | with_reducible apply inv_ite
    | split
    | (dsimp only; split)
    | refine inv_fst (by with_reducible assumption) ?_
    | refine inv_snd (by with_reducible assumption) ?_

theorem execVenClear_inv {q : List Instr} : ∀ x0 x1 x2 s, Inv q s → OInv q (execVenClear x0 x1 x2 s) := by
  intro x0 x1 x2 s h
  unfold execVenClear
  repeat' first
    | with_reducible assumption
    | with_reducible intro _
    | with_reducible apply ctlWake_inv
    | with_reducible apply ringWrite32_inv
    | with_reducible apply inv_ite
    | with_reducible apply oinv_next
    | with_reducible apply oinv_ite
    | split
    | (dsimp only; split)
    | refine inv_fst (by with_reducible assumption) ?_
    | refine inv_snd (by with_reducible assumption) ?_

theorem execStampExamine_inv {q : List Instr} : ∀ s, Inv q s → OInv q (execStampExamine s) := by
  intro s h
  unfold execStampExamine
  repeat' first
    | with_reducible assumption
    | with_reducible intro _
    | with_reducible apply inv_ite
    | with_reducible apply oinv_next
    | with_reducible apply oinv_ite
    | split
    | (dsimp only; split)
    | refine inv_fst (by with_reducible assumption) ?_
    | refine inv_snd (by with_reducible assumption) ?_
    | with_reducible apply Inv.mk_plain
    | with_reducible refine Inv.mk_rings ?_ (by first | exact id | exact Table.wf_put _ _ _ _ | exact Table.wf_upd _ _ _ _ | exact Table.wf_mapVals _ _ _ | exact Table.wf_putList _ _ _ _ | exact Table.wf_filter _ _ _ | exact fun h => Table.wf_put _ _ _ _ (Table.wf_put _ _ _ _ h) | exact fun _ => rfl)
    | (dsimp only; with_reducible apply Inv.mk_plain)
    | (dsimp only; with_reducible refine Inv.mk_rings ?_ (by first | exact id | exact Table.wf_put _ _ _ _ | exact Table.wf_upd _ _ _ _ | exact Table.wf_mapVals _ _ _ | exact Table.wf_putList _ _ _ _ | exact Table.wf_filter _ _ _ | exact fun h => Table.wf_put _ _ _ _ (Table.wf_put _ _ _ _ h) | exact fun _ => rfl))

theorem execEntryDue_inv {q : List Instr} : ∀ x0 s, Inv q s → OInv q (execEntryDue x0 s) := by
  intro x0 s h
  unfold execEntryDue
  repeat' first
    | with_reducible assumption
    | with_reducible intro _
    | with_reducible apply updRing_inv
    | with_reducible apply inv_ite
    | with_reducible apply oinv_next
    | with_reducible apply oinv_ite
    | split
    | (dsimp only; split)
    | refine inv_fst (by with_reducible assumption) ?_
    | refine inv_snd (by with_reducible assumption) ?_

theorem execAdmissionPick_inv {q : List Instr} : ∀ s, Inv q s → OInv q (execAdmissionPick s) := by
  intro s h
  unfold execAdmissionPick
  repeat' first
    | with_reducible assumption
    | with_reducible intro _
    | with_reducible apply sampleLevel_inv
    | with_reducible apply inv_ite
    | with_reducible apply oinv_next
    | with_reducible apply oinv_ite
    | split
    | (dsimp only; split)
    | refine inv_fst (by with_reducible assumption) ?_
    | refine inv_snd (by with_reducible assumption) ?_
    | with_reducible apply Inv.mk_plain
    | (dsimp only; with_reducible apply Inv.mk_plain)

theorem turnReads_inv {q : List Instr} : ∀ s x1 x2, Inv q s → Inv q (turnReads s x1 x2) := by
  intro s x1 x2 h
  unfold turnReads
  repeat' first
    | with_reducible assumption
    | with_reducible intro _
    | with_reducible apply emit_inv
    | with_reducible apply inv_ite
    | split
    | (dsimp only; split)
    | refine inv_fst (by with_reducible assumption) ?_
    | refine inv_snd (by with_reducible assumption) ?_

theorem apickBody_inv {q : List Instr} : ∀ x0 x1 s, Inv q s → PRes.Inv q (apickBody x0 x1 s) := by
  intro x0 x1 s h
  unfold apickBody
  repeat' first
    | with_reducible assumption
    | with_reducible intro _
    | with_reducible apply updPilot_inv
    | with_reducible apply turnReads_inv
    | with_reducible apply setRing_inv
    | with_reducible apply mval_inv
    | with_reducible apply sampleLevel_inv
    | with_reducible apply inv_ite
    | with_reducible apply pinv_ite
    | with_reducible apply pinv_done
    | with_reducible apply pinv_trap
    | with_reducible apply pinv_brk
    | with_reducible apply pinv_stop
    | split
    | (dsimp only; split)
    | refine inv_fst (by with_reducible assumption) ?_
    | refine inv_snd (by with_reducible assumption) ?_
    | refine pinv_of_done (by with_reducible assumption) ?_
    | refine pinv_of_brk (by with_reducible assumption) ?_
    | refine pinv_of_trap (by with_reducible assumption) ?_
    | refine pinv_of_stop (by with_reducible assumption) ?_
    | with_reducible apply Inv.mk_plain
    | (dsimp only; with_reducible apply Inv.mk_plain)

theorem execApick_inv {q : List Instr} : ∀ x0 s, Inv q s → OInv q (execApick x0 s) := by
  intro x0 s h
  unfold execApick
  repeat' first
    | with_reducible assumption
    | with_reducible intro _
    | with_reducible apply rrr_inv
    | with_reducible apply apickBody_inv
    | with_reducible apply inv_ite
    | with_reducible apply oinv_next
    | with_reducible apply oinv_ite
    | split
    | (dsimp only; split)
    | refine inv_fst (by with_reducible assumption) ?_
    | refine inv_snd (by with_reducible assumption) ?_

theorem execPickReadDone_inv {q : List Instr} : ∀ x0 x1 x2 s, Inv q s → OInv q (execPickReadDone x0 x1 x2 s) := by
  intro x0 x1 x2 s h
  unfold execPickReadDone
  repeat' first
    | with_reducible assumption
    | with_reducible intro _
    | with_reducible apply updPilot_inv
    | with_reducible apply notifyNow_inv
    | with_reducible apply updRing_inv
    | with_reducible apply raise_inv
    | with_reducible apply inv_ite
    | with_reducible apply oinv_next
    | with_reducible apply oinv_ite
    | split
    | (dsimp only; split)
    | refine inv_fst (by with_reducible assumption) ?_
    | refine inv_snd (by with_reducible assumption) ?_
    | with_reducible apply Inv.mk_plain
    | with_reducible refine Inv.mk_cask ?_ (by first | exact id | exact Table.wf_put _ _ _ _ | exact Table.wf_upd _ _ _ _ | exact Table.wf_mapVals _ _ _ | exact Table.wf_putList _ _ _ _ | exact Table.wf_filter _ _ _ | exact fun h => Table.wf_put _ _ _ _ (Table.wf_put _ _ _ _ h) | exact fun _ => rfl)
    | (dsimp only; with_reducible apply Inv.mk_plain)
    | (dsimp only; with_reducible refine Inv.mk_cask ?_ (by first | exact id | exact Table.wf_put _ _ _ _ | exact Table.wf_upd _ _ _ _ | exact Table.wf_mapVals _ _ _ | exact Table.wf_putList _ _ _ _ | exact Table.wf_filter _ _ _ | exact fun h => Table.wf_put _ _ _ _ (Table.wf_put _ _ _ _ h) | exact fun _ => rfl))

theorem aendBody_inv {q : List Instr} : ∀ x0 x1 s, Inv q s → PRes.Inv q (aendBody x0 x1 s) := by
  intro x0 x1 s h
  unfold aendBody
  repeat' first
    | with_reducible assumption
    | with_reducible intro _
    | with_reducible apply mz_inv
    | with_reducible apply setRing_inv
    | with_reducible apply inv_ite
    | with_reducible apply pinv_ite
    | with_reducible apply pinv_done
    | with_reducible apply pinv_trap
    | with_reducible apply pinv_brk
    | with_reducible apply pinv_stop
    | split
    | (dsimp only; split)
    | refine inv_fst (by with_reducible assumption) ?_
    | refine inv_snd (by with_reducible assumption) ?_
    | refine pinv_of_done (by with_reducible assumption) ?_
    | refine pinv_of_brk (by with_reducible assumption) ?_
    | refine pinv_of_trap (by with_reducible assumption) ?_
    | refine pinv_of_stop (by with_reducible assumption) ?_

theorem execAend_inv {q : List Instr} : ∀ x0 s, Inv q s → OInv q (execAend x0 s) := by
  intro x0 s h
  unfold execAend
  repeat' first
    | with_reducible assumption
    | with_reducible intro _
    | with_reducible apply rrr_inv
    | with_reducible apply aendBody_inv
    | with_reducible apply inv_ite
    | with_reducible apply oinv_next
    | with_reducible apply oinv_ite
    | split
    | (dsimp only; split)
    | refine inv_fst (by with_reducible assumption) ?_
    | refine inv_snd (by with_reducible assumption) ?_

theorem execDeclineFinalRecord_inv {q : List Instr} : ∀ x0 s, Inv q s → OInv q (execDeclineFinalRecord x0 s) := by
  intro x0 s h
  unfold execDeclineFinalRecord
  repeat' first
    | with_reducible assumption
    | with_reducible intro _
    | with_reducible apply setRing_inv
    | with_reducible apply writeRec_inv
    | with_reducible apply updRing_inv
    | with_reducible apply queueRec_inv
    | with_reducible apply drainRing_inv
    | with_reducible apply inv_ite
    | with_reducible apply oinv_next
    | with_reducible apply oinv_ite
    | split
    | (dsimp only; split)
    | refine inv_fst (by with_reducible assumption) ?_
    | refine inv_snd (by with_reducible assumption) ?_

theorem execHeldRecordWrite_inv {q : List Instr} : ∀ x0 s, Inv q s → OInv q (execHeldRecordWrite x0 s) := by
  intro x0 s h
  unfold execHeldRecordWrite
  repeat' first
    | with_reducible assumption
    | with_reducible intro _
    | with_reducible apply takeSlot_inv
    | with_reducible apply takeoverEnd_inv
    | with_reducible apply drainRing_inv
    | with_reducible apply updRing_inv
    | with_reducible apply inv_ite
    | with_reducible apply oinv_next
    | with_reducible apply oinv_ite
    | split
    | (dsimp only; split)
    | refine inv_fst (by with_reducible assumption) ?_
    | refine inv_snd (by with_reducible assumption) ?_

theorem execFinalRecordWrite_inv {q : List Instr} : ∀ x0 s, Inv q s → OInv q (execFinalRecordWrite x0 s) := by
  intro x0 s h
  unfold execFinalRecordWrite
  repeat' first
    | with_reducible assumption
    | with_reducible intro _
    | with_reducible apply addTakeoverWait_inv
    | with_reducible apply updRing_inv
    | with_reducible apply writeRec_inv
    | with_reducible apply queueRec_inv
    | with_reducible apply takeoverEnd_inv
    | with_reducible apply drainRing_inv
    | with_reducible apply inv_ite
    | with_reducible apply oinv_next
    | with_reducible apply oinv_ite
    | split
    | (dsimp only; split)
    | refine inv_fst (by with_reducible assumption) ?_
    | refine inv_snd (by with_reducible assumption) ?_

theorem execHoldoffExpiry_inv {q : List Instr} : ∀ x0 s, Inv q s → OInv q (execHoldoffExpiry x0 s) := by
  intro x0 s h
  unfold execHoldoffExpiry
  repeat' first
    | with_reducible assumption
    | with_reducible intro _
    | with_reducible apply notifyNow_inv
    | with_reducible apply inv_ite
    | with_reducible apply oinv_next
    | with_reducible apply oinv_ite
    | split
    | (dsimp only; split)
    | refine inv_fst (by with_reducible assumption) ?_
    | refine inv_snd (by with_reducible assumption) ?_

theorem execHoldExpiry_inv {q : List Instr} : ∀ x0 s, Inv q s → OInv q (execHoldExpiry x0 s) := by
  intro x0 s h
  unfold execHoldExpiry
  repeat' first
    | with_reducible assumption
    | with_reducible intro _
    | with_reducible apply endX_inv
    | with_reducible apply inv_ite
    | with_reducible apply oinv_next
    | with_reducible apply oinv_ite
    | split
    | (dsimp only; split)
    | refine inv_fst (by with_reducible assumption) ?_
    | refine inv_snd (by with_reducible assumption) ?_

end Sys2Proof.Machine
end

