-- ==== Sys2Proof/Laws/InvPilotSys.lean ====
section
/-! SUPPORT. Laws/InvPilotSys.lean: every function of Machine/PilotSys.lean keeps the invariant of a sound state. -/

namespace Sys2Proof.Machine

theorem crTake_inv {q : List Instr} : ∀ s x1 x2, Inv q s → Inv q (crTake s x1 x2) := by
  intro s x1 x2 h
  unfold crTake
  repeat' first
    | with_reducible assumption
    | with_reducible intro _
    | with_reducible apply claimSrc_inv
    | with_reducible apply sampleLevel_inv
    | with_reducible apply passHeld_inv
    | with_reducible apply inv_ite
    | split
    | (dsimp only; split)
    | refine inv_fst (by with_reducible assumption) ?_
    | refine inv_snd (by with_reducible assumption) ?_
    | with_reducible apply Inv.mk_plain
    | (dsimp only; with_reducible apply Inv.mk_plain)

theorem mfc_inv {q : List Instr} : ∀ x0 x1 x2 x3 s, Inv q s → PRes.Inv q (mfc x0 x1 x2 x3 s) := by
  intro x0 x1 x2 x3 s h
  unfold mfc
  repeat' first
    | with_reducible assumption
    | with_reducible intro _
    | with_reducible apply updPilot_inv
    | with_reducible apply crTake_inv
    | with_reducible apply inv_ite
    | with_reducible apply pinv_ite
    | with_reducible apply pinv_done
    | with_reducible apply pinv_trap
    | with_reducible apply pinv_brk
    | with_reducible apply pinv_stop
    | split
    | (dsimp only; split)
    | refine inv_fst (by with_reducible assumption) ?_
    | refine inv_snd (by with_reducible assumption) ?_
    | refine pinv_of_done (by with_reducible assumption) ?_
    | refine pinv_of_brk (by with_reducible assumption) ?_
    | refine pinv_of_trap (by with_reducible assumption) ?_
    | refine pinv_of_stop (by with_reducible assumption) ?_

theorem crWrite_inv {q : List Instr} : ∀ s x1 x2 x3, Inv q s → Inv q (crWrite s x1 x2 x3) := by
  intro s x1 x2 x3 h
  unfold crWrite
  repeat' first
    | with_reducible assumption
    | with_reducible intro _
    | with_reducible apply releaseClaims_inv
    | with_reducible apply notePacket_inv
    | with_reducible apply updPilot_inv
    | with_reducible apply inv_ite
    | split
    | (dsimp only; split)
    | refine inv_fst (by with_reducible assumption) ?_
    | refine inv_snd (by with_reducible assumption) ?_

theorem mtc_inv {q : List Instr} : ∀ x0 x1 x2 x3 s, Inv q s → PRes.Inv q (mtc x0 x1 x2 x3 s) := by
  intro x0 x1 x2 x3 s h
  unfold mtc
  repeat' first
    | with_reducible assumption
    | with_reducible intro _
    | with_reducible apply crWrite_inv
    | with_reducible apply inv_ite
    | with_reducible apply pinv_ite
    | with_reducible apply pinv_done
    | with_reducible apply pinv_trap
    | with_reducible apply pinv_brk
    | with_reducible apply pinv_stop
    | split
    | (dsimp only; split)
    | refine inv_fst (by with_reducible assumption) ?_
    | refine inv_snd (by with_reducible assumption) ?_
    | refine pinv_of_done (by with_reducible assumption) ?_
    | refine pinv_of_brk (by with_reducible assumption) ?_
    | refine pinv_of_trap (by with_reducible assumption) ?_
    | refine pinv_of_stop (by with_reducible assumption) ?_

theorem execMfc_inv {q : List Instr} : ∀ x0 s, Inv q s → OInv q (execMfc x0 s) := by
  intro x0 s h
  unfold execMfc
  repeat' first
    | with_reducible assumption
    | with_reducible intro _
    | with_reducible apply rri_inv
    | with_reducible apply mfc_inv
    | with_reducible apply inv_ite
    | with_reducible apply oinv_next
    | with_reducible apply oinv_ite
    | split
    | (dsimp only; split)
    | refine inv_fst (by with_reducible assumption) ?_
    | refine inv_snd (by with_reducible assumption) ?_

theorem execMtc_inv {q : List Instr} : ∀ x0 s, Inv q s → OInv q (execMtc x0 s) := by
  intro x0 s h
  unfold execMtc
  repeat' first
    | with_reducible assumption
    | with_reducible intro _
    | with_reducible apply rri_inv
    | with_reducible apply mtc_inv
    | with_reducible apply inv_ite
    | with_reducible apply oinv_next
    | with_reducible apply oinv_ite
    | split
    | (dsimp only; split)
    | refine inv_fst (by with_reducible assumption) ?_
    | refine inv_snd (by with_reducible assumption) ?_

theorem execEvtake_inv {q : List Instr} : ∀ x0 s, Inv q s → OInv q (execEvtake x0 s) := by
  intro x0 s h
  unfold execEvtake
  repeat' first
    | with_reducible assumption
    | with_reducible intro _
    | with_reducible apply rri_inv
    | with_reducible apply mfc_inv
    | with_reducible apply inv_ite
    | with_reducible apply oinv_next
    | with_reducible apply oinv_ite
    | split
    | (dsimp only; split)
    | refine inv_fst (by with_reducible assumption) ?_
    | refine inv_snd (by with_reducible assumption) ?_

theorem execEveoi_inv {q : List Instr} : ∀ x0 s, Inv q s → OInv q (execEveoi x0 s) := by
  intro x0 s h
  unfold execEveoi
  repeat' first
    | with_reducible assumption
    | with_reducible intro _
    | with_reducible apply rri_inv
    | with_reducible apply mtc_inv
    | with_reducible apply inv_ite
    | with_reducible apply oinv_next
    | with_reducible apply oinv_ite
    | split
    | (dsimp only; split)
    | refine inv_fst (by with_reducible assumption) ?_
    | refine inv_snd (by with_reducible assumption) ?_

theorem execReltake_inv {q : List Instr} : ∀ x0 s, Inv q s → OInv q (execReltake x0 s) := by
  intro x0 s h
  unfold execReltake
  repeat' first
    | with_reducible assumption
    | with_reducible intro _
    | with_reducible apply rri_inv
    | with_reducible apply mfc_inv
    | with_reducible apply inv_ite
    | with_reducible apply oinv_next
    | with_reducible apply oinv_ite
    | split
    | (dsimp only; split)
    | refine inv_fst (by with_reducible assumption) ?_
    | refine inv_snd (by with_reducible assumption) ?_

theorem execWdkick_inv {q : List Instr} : ∀ x0 s, Inv q s → OInv q (execWdkick x0 s) := by
  intro x0 s h
  unfold execWdkick
  repeat' first
    | with_reducible assumption
    | with_reducible intro _
    | with_reducible apply rri_inv
    | with_reducible apply mtc_inv
    | with_reducible apply inv_ite
    | with_reducible apply oinv_next
    | with_reducible apply oinv_ite
    | split
    | (dsimp only; split)
    | refine inv_fst (by with_reducible assumption) ?_
    | refine inv_snd (by with_reducible assumption) ?_

theorem execStim_inv {q : List Instr} : ∀ x0 x1 s, Inv q s → OInv q (execStim x0 x1 s) := by
  intro x0 x1 s h
  unfold execStim
  repeat' first
    | with_reducible assumption
    | with_reducible intro _
    | with_reducible apply rri_inv
    | with_reducible apply mtc_inv
    | with_reducible apply inv_ite
    | with_reducible apply oinv_next
    | with_reducible apply oinv_ite
    | split
    | (dsimp only; split)
    | refine inv_fst (by with_reducible assumption) ?_
    | refine inv_snd (by with_reducible assumption) ?_

end Sys2Proof.Machine
end

