-- ==== Sys2Proof/Laws/InvGovernor.lean ====
section
/-! SUPPORT. Laws/InvGovernor.lean: every function of Machine/Governor.lean keeps the invariant of a sound state. -/

namespace Sys2Proof.Machine

theorem govern_inv {q : List Instr} : ∀ s, Inv q s → Inv q (govern s) := by
  intro s h
  unfold govern
  repeat' first
    | with_reducible assumption
    | with_reducible intro _
    | with_reducible apply startWake_inv
    | with_reducible apply inv_ite
    | split
    | (dsimp only; split)
    | refine inv_fst (by with_reducible assumption) ?_
    | refine inv_snd (by with_reducible assumption) ?_
    | with_reducible apply Inv.mk_plain
    | (dsimp only; with_reducible apply Inv.mk_plain)

end Sys2Proof.Machine
end

