-- ==== Sys2Proof/Laws/InvMirrorIn.lean ====
section
/-! SUPPORT. Laws/InvMirrorIn.lean: every function of Machine/MirrorIn.lean keeps the invariant of a sound state. -/

namespace Sys2Proof.Machine

theorem shadowPosted_inv {q : List Instr} : ∀ s x1 x2, Inv q s → Inv q (shadowPosted s x1 x2) := by
  intro s x1 x2 h
  unfold shadowPosted
  repeat' first
    | with_reducible assumption
    | with_reducible intro _
    | with_reducible apply setShadow_inv
    | with_reducible apply inv_ite
    | split
    | (dsimp only; split)
    | refine inv_fst (by with_reducible assumption) ?_
    | refine inv_snd (by with_reducible assumption) ?_

theorem flushShadow_inv {q : List Instr} : ∀ s, Inv q s → Inv q (flushShadow s) := by
  intro s h
  unfold flushShadow
  repeat' first
    | with_reducible assumption
    | with_reducible intro _
    | with_reducible apply setShadow_inv
    | with_reducible apply updTw_inv
    | with_reducible apply inv_ite
    | with_reducible refine inv_foldl (fun _ _ _ => ?_) _ _ ?_
    | split
    | (dsimp only; split)
    | refine inv_fst (by with_reducible assumption) ?_
    | refine inv_snd (by with_reducible assumption) ?_
    | with_reducible apply Inv.mk_plain
    | (dsimp only; with_reducible apply Inv.mk_plain)

theorem writeEntryRec_inv {q : List Instr} : ∀ s x1, Inv q s → Inv q (writeEntryRec s x1) := by
  intro s x1 h
  unfold writeEntryRec
  repeat' first
    | with_reducible assumption
    | with_reducible intro _
    | with_reducible apply shadowPosted_inv
    | with_reducible apply setMirr_inv
    | with_reducible apply hmLog_inv
    | with_reducible apply updTw_inv
    | with_reducible apply inv_ite
    | split
    | (dsimp only; split)
    | refine inv_fst (by with_reducible assumption) ?_
    | refine inv_snd (by with_reducible assumption) ?_
    | with_reducible apply Inv.mk_plain
    | (dsimp only; with_reducible apply Inv.mk_plain)

theorem writeDecline_inv {q : List Instr} : ∀ s x1, Inv q s → Inv q (writeDecline s x1) := by
  intro s x1 h
  unfold writeDecline
  repeat' first
    | with_reducible assumption
    | with_reducible intro _
    | with_reducible apply updTw_inv
    | with_reducible apply inv_ite
    | split
    | (dsimp only; split)
    | refine inv_fst (by with_reducible assumption) ?_
    | refine inv_snd (by with_reducible assumption) ?_
    | with_reducible apply Inv.mk_plain
    | (dsimp only; with_reducible apply Inv.mk_plain)

theorem writeDeclinePosted_inv {q : List Instr} : ∀ s x1, Inv q s → Inv q (writeDeclinePosted s x1) := by
  intro s x1 h
  unfold writeDeclinePosted
  repeat' first
    | with_reducible assumption
    | with_reducible intro _
    | with_reducible apply shadowPosted_inv
    | with_reducible apply updTw_inv
    | with_reducible apply inv_ite
    | split
    | (dsimp only; split)
    | refine inv_fst (by with_reducible assumption) ?_
    | refine inv_snd (by with_reducible assumption) ?_
    | with_reducible apply Inv.mk_plain
    | (dsimp only; with_reducible apply Inv.mk_plain)

theorem writeRingState_inv {q : List Instr} : ∀ s x1, Inv q s → Inv q (writeRingState s x1) := by
  intro s x1 h
  unfold writeRingState
  repeat' first
    | with_reducible assumption
    | with_reducible intro _
    | with_reducible apply setShadow_inv
    | with_reducible apply updTw_inv
    | with_reducible apply setRing_inv
    | with_reducible apply inv_ite
    | split
    | (dsimp only; split)
    | refine inv_fst (by with_reducible assumption) ?_
    | refine inv_snd (by with_reducible assumption) ?_
    | with_reducible apply Inv.mk_plain
    | (dsimp only; with_reducible apply Inv.mk_plain)

theorem applyUnit_inv {q : List Instr} : ∀ s x1, Inv q s → Inv q (applyUnit s x1) := by
  intro s x1 h
  unfold applyUnit
  repeat' first
    | with_reducible assumption
    | with_reducible intro _
    | with_reducible apply updTw_inv
    | with_reducible apply writeEntryRec_inv
    | with_reducible apply writeDecline_inv
    | with_reducible apply writeDeclinePosted_inv
    | with_reducible apply writeRingState_inv
    | with_reducible apply hmLog_inv
    | with_reducible apply flushShadow_inv
    | with_reducible apply setMirr_inv
    | with_reducible apply inv_ite
    | split
    | (dsimp only; split)
    | refine inv_fst (by with_reducible assumption) ?_
    | refine inv_snd (by with_reducible assumption) ?_
    | with_reducible apply Inv.mk_plain
    | (dsimp only; with_reducible apply Inv.mk_plain)

theorem applyUnits_inv {q : List Instr} : ∀ s us, Inv q s → Inv q (applyUnits s us)
  | _, [], h => h
  | s, u :: us, h => by
    unfold applyUnits
    split
    · exact updTw_inv _ _ h
    · exact applyUnits_inv _ us (applyUnit_inv _ _ h)

theorem sendMack_inv {q : List Instr} : ∀ s x1, Inv q s → Inv q (sendMack s x1) := by
  intro s x1 h
  unfold sendMack
  repeat' first
    | with_reducible assumption
    | with_reducible intro _
    | with_reducible apply laneSend_inv
    | with_reducible apply inv_ite
    | split
    | (dsimp only; split)
    | refine inv_fst (by with_reducible assumption) ?_
    | refine inv_snd (by with_reducible assumption) ?_

theorem takeMirror_inv {q : List Instr} : ∀ s x1 x2, Inv q s → Inv q (takeMirror s x1 x2) := by
  intro s x1 x2 h
  unfold takeMirror
  repeat' first
    | with_reducible assumption
    | with_reducible intro _
    | with_reducible apply sendMack_inv
    | with_reducible apply applyUnits_inv
    | with_reducible apply updTw_inv
    | with_reducible apply inv_ite
    | split
    | (dsimp only; split)
    | refine inv_fst (by with_reducible assumption) ?_
    | refine inv_snd (by with_reducible assumption) ?_
    | with_reducible apply Inv.mk_plain
    | (dsimp only; with_reducible apply Inv.mk_plain)

theorem ackDisp_inv {q : List Instr} : ∀ s x1 x2, Inv q s → Inv q (ackDisp s x1 x2) := by
  intro s x1 x2 h
  unfold ackDisp
  repeat' first
    | with_reducible assumption
    | with_reducible intro _
    | with_reducible apply advanceCons_inv
    | with_reducible apply updRing_inv
    | with_reducible apply inv_ite
    | split
    | (dsimp only; split)
    | refine inv_fst (by with_reducible assumption) ?_
    | refine inv_snd (by with_reducible assumption) ?_

theorem ackPosted_inv {q : List Instr} : ∀ s x1 x2, Inv q s → Inv q (ackPosted s x1 x2) := by
  intro s x1 x2 h
  unfold ackPosted
  repeat' first
    | with_reducible assumption
    | with_reducible intro _
    | with_reducible apply updRing_inv
    | with_reducible apply inv_ite
    | split
    | (dsimp only; split)
    | refine inv_fst (by with_reducible assumption) ?_
    | refine inv_snd (by with_reducible assumption) ?_

theorem ackUnit_inv {q : List Instr} : ∀ s x1, Inv q s → Inv q (ackUnit s x1).1 := by
  intro s x1 h
  unfold ackUnit
  repeat' first
    | with_reducible assumption
    | with_reducible intro _
    | with_reducible apply updOwn_inv
    | with_reducible apply ackDisp_inv
    | with_reducible apply ackPosted_inv
    | with_reducible apply inv_ite
    | split
    | (dsimp only; split)
    | dsimp only
    | refine inv_fst (by with_reducible assumption) ?_
    | refine inv_snd (by with_reducible assumption) ?_

theorem takeMack_inv {q : List Instr} : ∀ s p c, Inv q s → Inv q (takeMack s p c) := by
  intro s p c h
  unfold takeMack
  split
  · exact h
  · have h1 := fun t (ht : Inv q t) => inv_foldl_fst
      (f := fun (x : State × Bool) (u : MUnit) => ((ackUnit x.1 u).1, x.2 || (ackUnit x.1 u).2))
      (fun r u hr => ackUnit_inv r.1 u hr) (s.tw.maw.filter (fun u => atOrBefore u.rseq c)) (t, false) ht
    refine fillEnd_inv _ (inv_ite (raise_inv _ _ ?_) ?_)
    all_goals exact h1 _ (updTw_inv _ _ h)

theorem sendFill_inv {q : List Instr} : ∀ s, Inv q s → Inv q (sendFill s) := by
  intro s h
  unfold sendFill
  repeat' first
    | with_reducible assumption
    | with_reducible intro _
    | with_reducible apply sendRingState_inv
    | with_reducible apply queueRec_inv
    | with_reducible apply inv_ite
    | with_reducible refine inv_foldl (fun _ _ _ => ?_) _ _ ?_
    | split
    | (dsimp only; split)
    | refine inv_fst (by with_reducible assumption) ?_
    | refine inv_snd (by with_reducible assumption) ?_

theorem registerKeys_inv {q : List Instr} : ∀ s x1 x2, Inv q s → Inv q (registerKeys s x1 x2) := by
  intro s x1 x2 h
  unfold registerKeys
  repeat' first
    | with_reducible assumption
    | with_reducible intro _
    | with_reducible apply resvCmd_inv
    | with_reducible apply updTw_inv
    | with_reducible apply inv_ite
    | with_reducible refine inv_foldl (fun _ _ _ => ?_) _ _ ?_
    | split
    | (dsimp only; split)
    | refine inv_fst (by with_reducible assumption) ?_
    | refine inv_snd (by with_reducible assumption) ?_
    | with_reducible apply Inv.mk_plain
    | (dsimp only; with_reducible apply Inv.mk_plain)

theorem beginPairing_inv {q : List Instr} : ∀ s x1 x2 x3, Inv q s → Inv q (beginPairing s x1 x2 x3) := by
  intro s x1 x2 x3 h
  unfold beginPairing
  repeat' first
    | with_reducible assumption
    | with_reducible intro _
    | with_reducible apply updTw_inv
    | with_reducible apply registerKeys_inv
    | with_reducible apply setTstate_inv
    | with_reducible apply sendFill_inv
    | with_reducible apply fillEnd_inv
    | with_reducible apply inv_ite
    | split
    | (dsimp only; split)
    | refine inv_fst (by with_reducible assumption) ?_
    | refine inv_snd (by with_reducible assumption) ?_
    | with_reducible apply Inv.mk_plain
    | (dsimp only; with_reducible apply Inv.mk_plain)

theorem takePair_inv {q : List Instr} : ∀ s x1, Inv q s → Inv q (takePair s x1) := by
  intro s x1 h
  unfold takePair
  repeat' first
    | with_reducible assumption
    | with_reducible intro _
    | with_reducible apply beginPairing_inv
    | with_reducible apply sendCtrl_inv
    | with_reducible apply inv_ite
    | split
    | (dsimp only; split)
    | refine inv_fst (by with_reducible assumption) ?_
    | refine inv_snd (by with_reducible assumption) ?_

theorem takePairAck_inv {q : List Instr} : ∀ s x1, Inv q s → Inv q (takePairAck s x1) := by
  intro s x1 h
  unfold takePairAck
  repeat' first
    | with_reducible assumption
    | with_reducible intro _
    | with_reducible apply beginPairing_inv
    | with_reducible apply inv_ite
    | split
    | (dsimp only; split)
    | refine inv_fst (by with_reducible assumption) ?_
    | refine inv_snd (by with_reducible assumption) ?_

theorem takeUnpair_inv {q : List Instr} : ∀ s x1, Inv q s → Inv q (takeUnpair s x1) := by
  intro s x1 h
  unfold takeUnpair
  repeat' first
    | with_reducible assumption
    | with_reducible intro _
    | with_reducible apply setTstate_inv
    | with_reducible apply endRecords_inv
    | with_reducible apply updTw_inv
    | with_reducible apply drainAll_inv
    | with_reducible apply resvCmd_inv
    | with_reducible apply inv_ite
    | with_reducible refine inv_foldl (fun _ _ _ => ?_) _ _ ?_
    | split
    | (dsimp only; split)
    | refine inv_fst (by with_reducible assumption) ?_
    | refine inv_snd (by with_reducible assumption) ?_
    | with_reducible apply Inv.mk_plain
    | (dsimp only; with_reducible apply Inv.mk_plain)

end Sys2Proof.Machine
end

