-- ==== Sys2Proof/Laws/InvRemote.lean ====
section
/-! SUPPORT. Laws/InvRemote.lean: every function of Machine/Remote.lean keeps the invariant of a sound state. -/

namespace Sys2Proof.Machine

theorem setServe_inv {q : List Instr} : ∀ s x1 x2, Inv q s → Inv q (setServe s x1 x2) := by
  intro s x1 x2 h
  unfold setServe
  repeat' first
    | with_reducible assumption
    | with_reducible intro _
    | with_reducible apply inv_ite
    | split
    | (dsimp only; split)
    | refine inv_fst (by with_reducible assumption) ?_
    | refine inv_snd (by with_reducible assumption) ?_
    | with_reducible apply Inv.mk_plain
    | with_reducible refine Inv.mk_serves ?_ (by first | exact id | exact Table.wf_put _ _ _ _ | exact Table.wf_upd _ _ _ _ | exact Table.wf_mapVals _ _ _ | exact Table.wf_putList _ _ _ _ | exact Table.wf_filter _ _ _ | exact fun h => Table.wf_put _ _ _ _ (Table.wf_put _ _ _ _ h) | exact fun _ => rfl)
    | (dsimp only; with_reducible apply Inv.mk_plain)
    | (dsimp only; with_reducible refine Inv.mk_serves ?_ (by first | exact id | exact Table.wf_put _ _ _ _ | exact Table.wf_upd _ _ _ _ | exact Table.wf_mapVals _ _ _ | exact Table.wf_putList _ _ _ _ | exact Table.wf_filter _ _ _ | exact fun h => Table.wf_put _ _ _ _ (Table.wf_put _ _ _ _ h) | exact fun _ => rfl))

theorem serveEntry_inv {q : List Instr} : ∀ s x1 x2 x3, Inv q s → Inv q (serveEntry s x1 x2 x3) := by
  intro s x1 x2 x3 h
  unfold serveEntry
  repeat' first
    | with_reducible assumption
    | with_reducible intro _
    | with_reducible apply setOwn_inv
    | with_reducible apply mstepTo_inv
    | with_reducible apply updOwn_inv
    | with_reducible apply inv_ite
    | split
    | (dsimp only; split)
    | refine inv_fst (by with_reducible assumption) ?_
    | refine inv_snd (by with_reducible assumption) ?_

theorem takeRcmd_inv {q : List Instr} : ∀ s x1 x2 x3 x4 x5 x6, Inv q s → Inv q (takeRcmd s x1 x2 x3 x4 x5 x6) := by
  intro s x1 x2 x3 x4 x5 x6 h
  unfold takeRcmd
  repeat' first
    | with_reducible assumption
    | with_reducible intro _
    | with_reducible apply sendRcpl_inv
    | with_reducible apply pickFree_inv
    | with_reducible apply setServe_inv
    | with_reducible apply serveEntry_inv
    | with_reducible apply inv_ite
    | split
    | (dsimp only; split)
    | refine inv_fst (by with_reducible assumption) ?_
    | refine inv_snd (by with_reducible assumption) ?_

theorem takeRdata_inv {q : List Instr} : ∀ s x1 x2 x3 x4 x5 x6, Inv q s → Inv q (takeRdata s x1 x2 x3 x4 x5 x6) := by
  intro s x1 x2 x3 x4 x5 x6 h
  unfold takeRdata
  repeat' first
    | with_reducible assumption
    | with_reducible intro _
    | with_reducible apply raise_inv
    | with_reducible apply stageWrite_inv
    | with_reducible apply setServe_inv
    | with_reducible apply inv_ite
    | split
    | (dsimp only; split)
    | refine inv_fst (by with_reducible assumption) ?_
    | refine inv_snd (by with_reducible assumption) ?_

theorem onHalves_inv {q : List Instr} : ∀ s x1 x2, Inv q s → (∀ a0 a1 a2, Inv q a0 → Inv q (x2 a0 a1 a2)) → Inv q (onHalves s x1 x2) := by
  intro s x1 x2 h h1
  unfold onHalves
  repeat' first
    | with_reducible assumption
    | with_reducible intro _
    | with_reducible apply h1
    | with_reducible apply inv_ite
    | with_reducible refine inv_foldl (fun _ _ _ => ?_) _ _ ?_
    | split
    | (dsimp only; split)
    | refine inv_fst (by with_reducible assumption) ?_
    | refine inv_snd (by with_reducible assumption) ?_

theorem abortedHere_inv {q : List Instr} : ∀ s x1 x2, Inv q s → Inv q (abortedHere s x1 x2) := by
  intro s x1 x2 h
  unfold abortedHere
  repeat' first
    | with_reducible assumption
    | with_reducible intro _
    | with_reducible apply setDcmd_inv
    | with_reducible apply cmdOff_inv
    | with_reducible apply cmdWait_inv
    | with_reducible apply expireTwice_inv
    | with_reducible apply lfree_inv
    | with_reducible apply inv_ite
    | split
    | (dsimp only; split)
    | refine inv_fst (by with_reducible assumption) ?_
    | refine inv_snd (by with_reducible assumption) ?_

theorem takeRcpl_inv {q : List Instr} : ∀ s x1 x2 x3 x4, Inv q s → Inv q (takeRcpl s x1 x2 x3 x4) := by
  intro s x1 x2 x3 x4 h
  unfold takeRcpl
  repeat' first
    | with_reducible assumption
    | with_reducible intro _
    | with_reducible apply onHalves_inv
    | with_reducible apply cmdComplete_inv
    | with_reducible apply loseCmd_inv
    | with_reducible apply cmdWait_inv
    | with_reducible apply quarantine_inv
    | with_reducible apply reslot_inv
    | with_reducible apply setBerth_inv
    | with_reducible apply abortedHere_inv
    | with_reducible apply inv_ite
    | split
    | (dsimp only; split)
    | refine inv_fst (by with_reducible assumption) ?_
    | refine inv_snd (by with_reducible assumption) ?_

theorem execNoentRetry_inv {q : List Instr} : ∀ x0 s, Inv q s → OInv q (execNoentRetry x0 s) := by
  intro x0 s h
  unfold execNoentRetry
  repeat' first
    | with_reducible assumption
    | with_reducible intro _
    | with_reducible apply putCmd_inv
    | with_reducible apply inv_ite
    | with_reducible apply oinv_next
    | with_reducible apply oinv_ite
    | with_reducible refine inv_foldl (fun _ _ _ => ?_) _ _ ?_
    | split
    | (dsimp only; split)
    | refine inv_fst (by with_reducible assumption) ?_
    | refine inv_snd (by with_reducible assumption) ?_

theorem takeAbort_inv {q : List Instr} : ∀ s x1 x2, Inv q s → Inv q (takeAbort s x1 x2) := by
  intro s x1 x2 h
  unfold takeAbort
  repeat' first
    | with_reducible assumption
    | with_reducible intro _
    | with_reducible apply endServe_inv
    | with_reducible apply setServe_inv
    | with_reducible apply inv_ite
    | with_reducible apply pinv_ite
    | with_reducible apply pinv_done
    | with_reducible apply pinv_trap
    | with_reducible apply pinv_brk
    | with_reducible apply pinv_stop
    | split
    | (dsimp only; split)
    | refine inv_fst (by with_reducible assumption) ?_
    | refine inv_snd (by with_reducible assumption) ?_
    | refine pinv_of_done (by with_reducible assumption) ?_
    | refine pinv_of_brk (by with_reducible assumption) ?_
    | refine pinv_of_trap (by with_reducible assumption) ?_
    | refine pinv_of_stop (by with_reducible assumption) ?_

theorem takeQuiesce_inv {q : List Instr} : ∀ s x1 x2, Inv q s → Inv q (takeQuiesce s x1 x2) := by
  intro s x1 x2 h
  unfold takeQuiesce
  repeat' first
    | with_reducible assumption
    | with_reducible intro _
    | with_reducible apply setBerth_inv
    | with_reducible apply inv_ite
    | split
    | (dsimp only; split)
    | refine inv_fst (by with_reducible assumption) ?_
    | refine inv_snd (by with_reducible assumption) ?_

theorem execQuiesceAckSend_inv {q : List Instr} : ∀ x0 s, Inv q s → OInv q (execQuiesceAckSend x0 s) := by
  intro x0 s h
  unfold execQuiesceAckSend
  repeat' first
    | with_reducible assumption
    | with_reducible intro _
    | with_reducible apply sendCtrl_inv
    | with_reducible apply setBerth_inv
    | with_reducible apply inv_ite
    | with_reducible apply oinv_next
    | with_reducible apply oinv_ite
    | with_reducible refine inv_foldl (fun _ _ _ => ?_) _ _ ?_
    | split
    | (dsimp only; split)
    | refine inv_fst (by with_reducible assumption) ?_
    | refine inv_snd (by with_reducible assumption) ?_

theorem takeFence_inv {q : List Instr} : ∀ s x1, Inv q s → Inv q (takeFence s x1) := by
  intro s x1 h
  unfold takeFence
  repeat' first
    | with_reducible assumption
    | with_reducible intro _
    | with_reducible apply takeAbort_inv
    | with_reducible apply inv_ite
    | with_reducible refine inv_foldl (fun _ _ _ => ?_) _ _ ?_
    | split
    | (dsimp only; split)
    | refine inv_fst (by with_reducible assumption) ?_
    | refine inv_snd (by with_reducible assumption) ?_
    | with_reducible apply Inv.mk_plain
    | (dsimp only; with_reducible apply Inv.mk_plain)

end Sys2Proof.Machine
end

