-- ==== Sys2Proof/Laws/InvPlacia.lean ====
section
/-! SUPPORT. Laws/InvPlacia.lean: every function of Machine/Placia.lean keeps the invariant of a sound state. -/

namespace Sys2Proof.Machine

theorem mapSlots_inv {q : List Instr} : ∀ s x1, Inv q s → Inv q (mapSlots s x1) := by
  intro s x1 h
  unfold mapSlots
  repeat' first
    | with_reducible assumption
    | with_reducible intro _
    | with_reducible apply inv_ite
    | split
    | (dsimp only; split)
    | refine inv_fst (by with_reducible assumption) ?_
    | refine inv_snd (by with_reducible assumption) ?_
    | with_reducible apply Inv.mk_plain
    | with_reducible refine Inv.mk_berths ?_ (by first | exact id | exact Table.wf_put _ _ _ _ | exact Table.wf_upd _ _ _ _ | exact Table.wf_mapVals _ _ _ | exact Table.wf_putList _ _ _ _ | exact Table.wf_filter _ _ _ | exact fun h => Table.wf_put _ _ _ _ (Table.wf_put _ _ _ _ h) | exact fun _ => rfl)
    | (dsimp only; with_reducible apply Inv.mk_plain)
    | (dsimp only; with_reducible refine Inv.mk_berths ?_ (by first | exact id | exact Table.wf_put _ _ _ _ | exact Table.wf_upd _ _ _ _ | exact Table.wf_mapVals _ _ _ | exact Table.wf_putList _ _ _ _ | exact Table.wf_filter _ _ _ | exact fun h => Table.wf_put _ _ _ _ (Table.wf_put _ _ _ _ h) | exact fun _ => rfl))

theorem toProven_inv {q : List Instr} : ∀ s x1, Inv q s → Inv q (toProven s x1) := by
  intro s x1 h
  unfold toProven
  repeat' first
    | with_reducible assumption
    | with_reducible intro _
    | with_reducible apply setPath_inv
    | with_reducible apply mapSlots_inv
    | with_reducible apply retide_inv
    | with_reducible apply reslot_inv
    | with_reducible apply inv_ite
    | split
    | (dsimp only; split)
    | refine inv_fst (by with_reducible assumption) ?_
    | refine inv_snd (by with_reducible assumption) ?_

theorem pathLost_inv {q : List Instr} : ∀ s x1 x2, Inv q s → Inv q (pathLost s x1 x2) := by
  intro s x1 x2 h
  unfold pathLost
  repeat' first
    | with_reducible assumption
    | with_reducible intro _
    | with_reducible apply laneSend_inv
    | with_reducible apply updPath_inv
    | with_reducible apply updTw_inv
    | with_reducible apply inv_ite
    | with_reducible refine inv_foldl (fun _ _ _ => ?_) _ _ ?_
    | split
    | (dsimp only; split)
    | refine inv_fst (by with_reducible assumption) ?_
    | refine inv_snd (by with_reducible assumption) ?_
    | with_reducible apply Inv.mk_plain
    | with_reducible refine Inv.mk_serves ?_ (by first | exact id | exact Table.wf_put _ _ _ _ | exact Table.wf_upd _ _ _ _ | exact Table.wf_mapVals _ _ _ | exact Table.wf_putList _ _ _ _ | exact Table.wf_filter _ _ _ | exact fun h => Table.wf_put _ _ _ _ (Table.wf_put _ _ _ _ h) | exact fun _ => rfl)
    | (dsimp only; with_reducible apply Inv.mk_plain)
    | (dsimp only; with_reducible refine Inv.mk_serves ?_ (by first | exact id | exact Table.wf_put _ _ _ _ | exact Table.wf_upd _ _ _ _ | exact Table.wf_mapVals _ _ _ | exact Table.wf_putList _ _ _ _ | exact Table.wf_filter _ _ _ | exact fun h => Table.wf_put _ _ _ _ (Table.wf_put _ _ _ _ h) | exact fun _ => rfl))

theorem pathDown_inv {q : List Instr} : ∀ s x1, Inv q s → Inv q (pathDown s x1) := by
  intro s x1 h
  unfold pathDown
  repeat' first
    | with_reducible assumption
    | with_reducible intro _
    | with_reducible apply setPath_inv
    | with_reducible apply mapSlots_inv
    | with_reducible apply retide_inv
    | with_reducible apply reslot_inv
    | with_reducible apply pathLost_inv
    | with_reducible apply inv_ite
    | split
    | (dsimp only; split)
    | refine inv_fst (by with_reducible assumption) ?_
    | refine inv_snd (by with_reducible assumption) ?_

theorem setPathState_inv {q : List Instr} : ∀ s x1 x2, Inv q s → Inv q (setPathState s x1 x2) := by
  intro s x1 x2 h
  unfold setPathState
  repeat' first
    | with_reducible assumption
    | with_reducible intro _
    | with_reducible apply retide_inv
    | with_reducible apply reslot_inv
    | with_reducible apply setPath_inv
    | with_reducible apply inv_ite
    | split
    | (dsimp only; split)
    | refine inv_fst (by with_reducible assumption) ?_
    | refine inv_snd (by with_reducible assumption) ?_

theorem pcfgWrite_inv {q : List Instr} : ∀ s x1 x2, Inv q s → Inv q (pcfgWrite s x1 x2) := by
  intro s x1 x2 h
  unfold pcfgWrite
  repeat' first
    | with_reducible assumption
    | with_reducible intro _
    | with_reducible apply pathDown_inv
    | with_reducible apply setPath_inv
    | with_reducible apply reslot_inv
    | with_reducible apply inv_ite
    | split
    | (dsimp only; split)
    | refine inv_fst (by with_reducible assumption) ?_
    | refine inv_snd (by with_reducible assumption) ?_
    | with_reducible apply Inv.mk_plain
    | (dsimp only; with_reducible apply Inv.mk_plain)

theorem prouteWrite_inv {q : List Instr} : ∀ s x1 x2, Inv q s → Inv q (prouteWrite s x1 x2) := by
  intro s x1 x2 h
  unfold prouteWrite
  repeat' first
    | with_reducible assumption
    | with_reducible intro _
    | with_reducible apply setPath_inv
    | with_reducible apply inv_ite
    | split
    | (dsimp only; split)
    | refine inv_fst (by with_reducible assumption) ?_
    | refine inv_snd (by with_reducible assumption) ?_

theorem execPathEnable_inv {q : List Instr} : ∀ x0 x1 x2 s, Inv q s → OInv q (execPathEnable x0 x1 x2 s) := by
  intro x0 x1 x2 s h
  unfold execPathEnable
  repeat' first
    | with_reducible assumption
    | with_reducible intro _
    | with_reducible apply pcfgWrite_inv
    | with_reducible apply ctlWake_inv
    | with_reducible apply inv_ite
    | with_reducible apply oinv_next
    | with_reducible apply oinv_ite
    | split
    | (dsimp only; split)
    | refine inv_fst (by with_reducible assumption) ?_
    | refine inv_snd (by with_reducible assumption) ?_

theorem execPathDisable_inv {q : List Instr} : ∀ x0 x1 x2 s, Inv q s → OInv q (execPathDisable x0 x1 x2 s) := by
  intro x0 x1 x2 s h
  unfold execPathDisable
  repeat' first
    | with_reducible assumption
    | with_reducible intro _
    | with_reducible apply pcfgWrite_inv
    | with_reducible apply ctlWake_inv
    | with_reducible apply inv_ite
    | with_reducible apply oinv_next
    | with_reducible apply oinv_ite
    | split
    | (dsimp only; split)
    | refine inv_fst (by with_reducible assumption) ?_
    | refine inv_snd (by with_reducible assumption) ?_

theorem countDrop_inv {q : List Instr} : ∀ s x1, Inv q s → Inv q (countDrop s x1) := by
  intro s x1 h
  unfold countDrop
  repeat' first
    | with_reducible assumption
    | with_reducible intro _
    | with_reducible apply inv_ite
    | split
    | (dsimp only; split)
    | refine inv_fst (by with_reducible assumption) ?_
    | refine inv_snd (by with_reducible assumption) ?_
    | with_reducible apply Inv.mk_plain
    | (dsimp only; with_reducible apply Inv.mk_plain)

theorem pumpAll_inv {q : List Instr} : ∀ s x1, Inv q s → Inv q (pumpAll s x1) := by
  intro s x1 h
  unfold pumpAll
  repeat' first
    | with_reducible assumption
    | with_reducible intro _
    | with_reducible apply pumpLane_inv
    | with_reducible apply inv_ite
    | with_reducible refine inv_foldl (fun _ _ _ => ?_) _ _ ?_
    | split
    | (dsimp only; split)
    | refine inv_fst (by with_reducible assumption) ?_
    | refine inv_snd (by with_reducible assumption) ?_

theorem headerAck_inv {q : List Instr} : ∀ s x1 x2, Inv q s → Inv q (headerAck s x1 x2) := by
  intro s x1 x2 h
  unfold headerAck
  repeat' first
    | with_reducible assumption
    | with_reducible intro _
    | with_reducible apply pumpAll_inv
    | with_reducible apply setPath_inv
    | with_reducible apply inv_ite
    | split
    | (dsimp only; split)
    | refine inv_fst (by with_reducible assumption) ?_
    | refine inv_snd (by with_reducible assumption) ?_

theorem arrive_inv {q : List Instr} : ∀ s x1 x2, Inv q s → Inv q (arrive s x1 x2).2 := by
  intro s x1 x2 h
  unfold arrive
  repeat' first
    | with_reducible assumption
    | with_reducible intro _
    | with_reducible apply startWake_inv
    | with_reducible apply countDrop_inv
    | with_reducible apply quarantine_inv
    | with_reducible apply hmLog_inv
    | with_reducible apply headerAck_inv
    | with_reducible apply setPathState_inv
    | with_reducible apply inv_ite
    | split
    | (dsimp only; split)
    | dsimp only
    | refine inv_fst (by with_reducible assumption) ?_
    | refine inv_snd (by with_reducible assumption) ?_

theorem unseq_inv {q : List Instr} : ∀ s x1 x2 x3, Inv q s → (∀ a0 a1, Inv q a0 → Inv q (x3 a0 a1)) → Inv q (unseq s x1 x2 x3) := by
  intro s x1 x2 x3 h h1
  unfold unseq
  repeat' first
    | with_reducible assumption
    | with_reducible intro _
    | with_reducible apply arrive_inv
    | with_reducible apply h1
    | with_reducible apply inv_ite
    | split
    | (dsimp only; split)
    | refine inv_fst (by with_reducible assumption) ?_
    | refine inv_snd (by with_reducible assumption) ?_

theorem enterWindow_inv {q : List Instr} : ∀ s x1 x2, Inv q s → Inv q (enterWindow s x1 x2) := by
  intro s x1 x2 h
  unfold enterWindow
  repeat' first
    | with_reducible assumption
    | with_reducible intro _
    | with_reducible apply sampleLevel_inv
    | with_reducible apply setFwin_inv
    | with_reducible apply inv_ite
    | split
    | (dsimp only; split)
    | refine inv_fst (by with_reducible assumption) ?_
    | refine inv_snd (by with_reducible assumption) ?_

theorem setDrowsed_inv {q : List Instr} : ∀ s, Inv q s → Inv q (setDrowsed s) := by
  intro s h
  unfold setDrowsed
  repeat' first
    | with_reducible assumption
    | with_reducible intro _
    | with_reducible apply retide_inv
    | with_reducible apply reslot_inv
    | with_reducible apply twinPathsTo_inv
    | with_reducible apply setTstate_inv
    | with_reducible apply inv_ite
    | split
    | (dsimp only; split)
    | refine inv_fst (by with_reducible assumption) ?_
    | refine inv_snd (by with_reducible assumption) ?_

theorem startEntry_inv {q : List Instr} : ∀ s x1, Inv q s → Inv q (startEntry s x1) := by
  intro s x1 h
  unfold startEntry
  repeat' first
    | with_reducible assumption
    | with_reducible intro _
    | with_reducible apply sendU_inv
    | with_reducible apply inv_ite
    | with_reducible refine inv_foldl (fun _ _ _ => ?_) _ _ ?_
    | split
    | (dsimp only; split)
    | refine inv_fst (by with_reducible assumption) ?_
    | refine inv_snd (by with_reducible assumption) ?_
    | with_reducible apply Inv.mk_plain
    | (dsimp only; with_reducible apply Inv.mk_plain)

theorem takeDrowseReq_inv {q : List Instr} : ∀ s x1, Inv q s → Inv q (takeDrowseReq s x1) := by
  intro s x1 h
  unfold takeDrowseReq
  repeat' first
    | with_reducible assumption
    | with_reducible intro _
    | with_reducible apply setDrowsed_inv
    | with_reducible apply sendCtrl_inv
    | with_reducible apply inv_ite
    | split
    | (dsimp only; split)
    | refine inv_fst (by with_reducible assumption) ?_
    | refine inv_snd (by with_reducible assumption) ?_

theorem takeDrowseAck_inv {q : List Instr} : ∀ s x1, Inv q s → Inv q (takeDrowseAck s x1) := by
  intro s x1 h
  unfold takeDrowseAck
  repeat' first
    | with_reducible assumption
    | with_reducible intro _
    | with_reducible apply startEntry_inv
    | with_reducible apply setDrowsed_inv
    | with_reducible apply inv_ite
    | split
    | (dsimp only; split)
    | refine inv_fst (by with_reducible assumption) ?_
    | refine inv_snd (by with_reducible assumption) ?_
    | with_reducible apply Inv.mk_plain
    | (dsimp only; with_reducible apply Inv.mk_plain)

theorem takeWake_inv {q : List Instr} : ∀ s x1, Inv q s → Inv q (takeWake s x1) := by
  intro s x1 h
  unfold takeWake
  repeat' first
    | with_reducible assumption
    | with_reducible intro _
    | with_reducible apply updTw_inv
    | with_reducible apply retide_inv
    | with_reducible apply reslot_inv
    | with_reducible apply twinPathsTo_inv
    | with_reducible apply setTstate_inv
    | with_reducible apply inv_ite
    | split
    | (dsimp only; split)
    | refine inv_fst (by with_reducible assumption) ?_
    | refine inv_snd (by with_reducible assumption) ?_
    | with_reducible apply Inv.mk_plain
    | (dsimp only; with_reducible apply Inv.mk_plain)

theorem deliver_inv {q : List Instr} : ∀ s x1 x2 x3, Inv q s → Inv q (deliver s x1 x2 x3) := by
  intro s x1 x2 x3 h
  unfold deliver
  repeat' first
    | with_reducible assumption
    | with_reducible intro _
    | with_reducible apply takeMirror_inv
    | with_reducible apply takeMack_inv
    | with_reducible apply quarantine_inv
    | with_reducible apply takeUnpair_inv
    | with_reducible apply takePair_inv
    | with_reducible apply takePairAck_inv
    | with_reducible apply takeDrowseReq_inv
    | with_reducible apply takeDrowseAck_inv
    | with_reducible apply takeWake_inv
    | with_reducible apply takeFence_inv
    | with_reducible apply takeAbort_inv
    | with_reducible apply takeQuiesce_inv
    | with_reducible apply takeRcmd_inv
    | with_reducible apply takeRdata_inv
    | with_reducible apply takeRcpl_inv
    | with_reducible apply inv_ite
    | split
    | (dsimp only; split)
    | refine inv_fst (by with_reducible assumption) ?_
    | refine inv_snd (by with_reducible assumption) ?_

theorem deliverLane_inv {q : List Instr} : ∀ x0 s x2 x3, Inv q s → Inv q (deliverLane x0 s x2 x3) := by
  intro x0 s x2 x3
  induction x0 generalizing s x2 x3 with
  | zero => intro h; exact h
  | succ k ih =>
    intro h
    unfold deliverLane
    try dsimp only
    repeat' first
      | with_reducible assumption
      | with_reducible intro _
      | with_reducible apply setPath_inv
      | with_reducible apply deliver_inv
      | with_reducible apply enterWindow_inv
      | with_reducible apply ih
      | with_reducible apply inv_ite
      | split
      | (dsimp only; split)
      | refine inv_fst (by with_reducible assumption) ?_
      | refine inv_snd (by with_reducible assumption) ?_

theorem deliverHeld_inv {q : List Instr} : ∀ s x1 x2, Inv q s → Inv q (deliverHeld s x1 x2) := by
  intro s x1 x2 h
  unfold deliverHeld
  repeat' first
    | with_reducible assumption
    | with_reducible intro _
    | with_reducible apply deliverLane_inv
    | with_reducible apply sendAck_inv
    | with_reducible apply inv_ite
    | split
    | (dsimp only; split)
    | refine inv_fst (by with_reducible assumption) ?_
    | refine inv_snd (by with_reducible assumption) ?_

theorem resumeLanes_inv {q : List Instr} : ∀ s, Inv q s → Inv q (resumeLanes s) := by
  intro s h
  unfold resumeLanes
  repeat' first
    | with_reducible assumption
    | with_reducible intro _
    | with_reducible apply deliverHeld_inv
    | with_reducible apply inv_ite
    | with_reducible refine inv_foldl (fun _ _ _ => ?_) _ _ ?_
    | split
    | (dsimp only; split)
    | refine inv_fst (by with_reducible assumption) ?_
    | refine inv_snd (by with_reducible assumption) ?_

theorem seqTake_inv {q : List Instr} : ∀ s x1 x2 x3 x4, Inv q s → Inv q (seqTake s x1 x2 x3 x4) := by
  intro s x1 x2 x3 x4 h
  unfold seqTake
  repeat' first
    | with_reducible assumption
    | with_reducible intro _
    | with_reducible apply updPath_inv
    | with_reducible apply deliverHeld_inv
    | with_reducible apply sendAck_inv
    | with_reducible apply inv_ite
    | with_reducible refine inv_foldl (fun _ _ _ => ?_) _ _ ?_
    | split
    | (dsimp only; split)
    | refine inv_fst (by with_reducible assumption) ?_
    | refine inv_snd (by with_reducible assumption) ?_

theorem seqFrame_inv {q : List Instr} : ∀ s x1 x2 x3, Inv q s → Inv q (seqFrame s x1 x2 x3) := by
  intro s x1 x2 x3 h
  unfold seqFrame
  repeat' first
    | with_reducible assumption
    | with_reducible intro _
    | with_reducible apply arrive_inv
    | with_reducible apply resumeLanes_inv
    | with_reducible apply seqTake_inv
    | with_reducible apply inv_ite
    | split
    | (dsimp only; split)
    | refine inv_fst (by with_reducible assumption) ?_
    | refine inv_snd (by with_reducible assumption) ?_

end Sys2Proof.Machine
end

