-- ==== Sys2Proof/Laws/InvTwin.lean ====
section
/-! SUPPORT. Laws/InvTwin.lean: every function of Machine/Twin.lean keeps the invariant of a sound state. -/

namespace Sys2Proof.Machine

theorem execMirror_inv {q : List Instr} : ∀ x0 x1 s, Inv q s → OInv q (execMirror x0 x1 s) := by
  intro x0 x1 s h
  unfold execMirror
  repeat' first
    | with_reducible assumption
    | with_reducible intro _
    | with_reducible apply seqFrame_inv
    | with_reducible apply inv_ite
    | with_reducible apply oinv_next
    | with_reducible apply oinv_ite
    | split
    | (dsimp only; split)
    | refine inv_fst (by with_reducible assumption) ?_
    | refine inv_snd (by with_reducible assumption) ?_

theorem execMack_inv {q : List Instr} : ∀ x0 x1 s, Inv q s → OInv q (execMack x0 x1 s) := by
  intro x0 x1 s h
  unfold execMack
  repeat' first
    | with_reducible assumption
    | with_reducible intro _
    | with_reducible apply seqFrame_inv
    | with_reducible apply inv_ite
    | with_reducible apply oinv_next
    | with_reducible apply oinv_ite
    | split
    | (dsimp only; split)
    | refine inv_fst (by with_reducible assumption) ?_
    | refine inv_snd (by with_reducible assumption) ?_

theorem execFenced_inv {q : List Instr} : ∀ x0 s, Inv q s → OInv q (execFenced x0 s) := by
  intro x0 s h
  unfold execFenced
  repeat' first
    | with_reducible assumption
    | with_reducible intro _
    | with_reducible apply seqFrame_inv
    | with_reducible apply inv_ite
    | with_reducible apply oinv_next
    | with_reducible apply oinv_ite
    | split
    | (dsimp only; split)
    | refine inv_fst (by with_reducible assumption) ?_
    | refine inv_snd (by with_reducible assumption) ?_

theorem execUnpairMessage_inv {q : List Instr} : ∀ x0 s, Inv q s → OInv q (execUnpairMessage x0 s) := by
  intro x0 s h
  unfold execUnpairMessage
  repeat' first
    | with_reducible assumption
    | with_reducible intro _
    | with_reducible apply seqFrame_inv
    | with_reducible apply inv_ite
    | with_reducible apply oinv_next
    | with_reducible apply oinv_ite
    | split
    | (dsimp only; split)
    | refine inv_fst (by with_reducible assumption) ?_
    | refine inv_snd (by with_reducible assumption) ?_

theorem execPair_inv {q : List Instr} : ∀ x0 s, Inv q s → OInv q (execPair x0 s) := by
  intro x0 s h
  unfold execPair
  repeat' first
    | with_reducible assumption
    | with_reducible intro _
    | with_reducible apply seqFrame_inv
    | with_reducible apply inv_ite
    | with_reducible apply oinv_next
    | with_reducible apply oinv_ite
    | split
    | (dsimp only; split)
    | refine inv_fst (by with_reducible assumption) ?_
    | refine inv_snd (by with_reducible assumption) ?_

theorem execPairAck_inv {q : List Instr} : ∀ x0 s, Inv q s → OInv q (execPairAck x0 s) := by
  intro x0 s h
  unfold execPairAck
  repeat' first
    | with_reducible assumption
    | with_reducible intro _
    | with_reducible apply seqFrame_inv
    | with_reducible apply inv_ite
    | with_reducible apply oinv_next
    | with_reducible apply oinv_ite
    | split
    | (dsimp only; split)
    | refine inv_fst (by with_reducible assumption) ?_
    | refine inv_snd (by with_reducible assumption) ?_

theorem execDrowseReq_inv {q : List Instr} : ∀ x0 s, Inv q s → OInv q (execDrowseReq x0 s) := by
  intro x0 s h
  unfold execDrowseReq
  repeat' first
    | with_reducible assumption
    | with_reducible intro _
    | with_reducible apply seqFrame_inv
    | with_reducible apply inv_ite
    | with_reducible apply oinv_next
    | with_reducible apply oinv_ite
    | split
    | (dsimp only; split)
    | refine inv_fst (by with_reducible assumption) ?_
    | refine inv_snd (by with_reducible assumption) ?_

theorem execDrowseAck_inv {q : List Instr} : ∀ x0 s, Inv q s → OInv q (execDrowseAck x0 s) := by
  intro x0 s h
  unfold execDrowseAck
  repeat' first
    | with_reducible assumption
    | with_reducible intro _
    | with_reducible apply seqFrame_inv
    | with_reducible apply inv_ite
    | with_reducible apply oinv_next
    | with_reducible apply oinv_ite
    | split
    | (dsimp only; split)
    | refine inv_fst (by with_reducible assumption) ?_
    | refine inv_snd (by with_reducible assumption) ?_

theorem execWake_inv {q : List Instr} : ∀ x0 s, Inv q s → OInv q (execWake x0 s) := by
  intro x0 s h
  unfold execWake
  repeat' first
    | with_reducible assumption
    | with_reducible intro _
    | with_reducible apply seqFrame_inv
    | with_reducible apply inv_ite
    | with_reducible apply oinv_next
    | with_reducible apply oinv_ite
    | split
    | (dsimp only; split)
    | refine inv_fst (by with_reducible assumption) ?_
    | refine inv_snd (by with_reducible assumption) ?_

theorem execFence_inv {q : List Instr} : ∀ x0 x1 s, Inv q s → OInv q (execFence x0 x1 s) := by
  intro x0 x1 s h
  unfold execFence
  repeat' first
    | with_reducible assumption
    | with_reducible intro _
    | with_reducible apply seqFrame_inv
    | with_reducible apply inv_ite
    | with_reducible apply oinv_next
    | with_reducible apply oinv_ite
    | split
    | (dsimp only; split)
    | refine inv_fst (by with_reducible assumption) ?_
    | refine inv_snd (by with_reducible assumption) ?_

theorem execAbort_inv {q : List Instr} : ∀ x0 x1 s, Inv q s → OInv q (execAbort x0 x1 s) := by
  intro x0 x1 s h
  unfold execAbort
  repeat' first
    | with_reducible assumption
    | with_reducible intro _
    | with_reducible apply seqFrame_inv
    | with_reducible apply inv_ite
    | with_reducible apply oinv_next
    | with_reducible apply oinv_ite
    | split
    | (dsimp only; split)
    | refine inv_fst (by with_reducible assumption) ?_
    | refine inv_snd (by with_reducible assumption) ?_

theorem execQuiesce_inv {q : List Instr} : ∀ x0 x1 s, Inv q s → OInv q (execQuiesce x0 x1 s) := by
  intro x0 x1 s h
  unfold execQuiesce
  repeat' first
    | with_reducible assumption
    | with_reducible intro _
    | with_reducible apply seqFrame_inv
    | with_reducible apply inv_ite
    | with_reducible apply oinv_next
    | with_reducible apply oinv_ite
    | split
    | (dsimp only; split)
    | refine inv_fst (by with_reducible assumption) ?_
    | refine inv_snd (by with_reducible assumption) ?_

theorem execQuiesceAck_inv {q : List Instr} : ∀ x0 x1 s, Inv q s → OInv q (execQuiesceAck x0 x1 s) := by
  intro x0 x1 s h
  unfold execQuiesceAck
  repeat' first
    | with_reducible assumption
    | with_reducible intro _
    | with_reducible apply seqFrame_inv
    | with_reducible apply inv_ite
    | with_reducible apply oinv_next
    | with_reducible apply oinv_ite
    | split
    | (dsimp only; split)
    | refine inv_fst (by with_reducible assumption) ?_
    | refine inv_snd (by with_reducible assumption) ?_

theorem execRcmd_inv {q : List Instr} : ∀ x0 x1 x2 x3 x4 s, Inv q s → OInv q (execRcmd x0 x1 x2 x3 x4 s) := by
  intro x0 x1 x2 x3 x4 s h
  unfold execRcmd
  repeat' first
    | with_reducible assumption
    | with_reducible intro _
    | with_reducible apply seqFrame_inv
    | with_reducible apply inv_ite
    | with_reducible apply oinv_next
    | with_reducible apply oinv_ite
    | split
    | (dsimp only; split)
    | refine inv_fst (by with_reducible assumption) ?_
    | refine inv_snd (by with_reducible assumption) ?_

theorem execRdata_inv {q : List Instr} : ∀ x0 x1 x2 x3 x4 s, Inv q s → OInv q (execRdata x0 x1 x2 x3 x4 s) := by
  intro x0 x1 x2 x3 x4 s h
  unfold execRdata
  repeat' first
    | with_reducible assumption
    | with_reducible intro _
    | with_reducible apply seqFrame_inv
    | with_reducible apply inv_ite
    | with_reducible apply oinv_next
    | with_reducible apply oinv_ite
    | split
    | (dsimp only; split)
    | refine inv_fst (by with_reducible assumption) ?_
    | refine inv_snd (by with_reducible assumption) ?_

theorem execRcpl_inv {q : List Instr} : ∀ x0 x1 x2 x3 s, Inv q s → OInv q (execRcpl x0 x1 x2 x3 s) := by
  intro x0 x1 x2 x3 s h
  unfold execRcpl
  repeat' first
    | with_reducible assumption
    | with_reducible intro _
    | with_reducible apply seqFrame_inv
    | with_reducible apply inv_ite
    | with_reducible apply oinv_next
    | with_reducible apply oinv_ite
    | split
    | (dsimp only; split)
    | refine inv_fst (by with_reducible assumption) ?_
    | refine inv_snd (by with_reducible assumption) ?_

theorem execMirrorFrameSend_inv {q : List Instr} : ∀ s, Inv q s → OInv q (execMirrorFrameSend s) := by
  intro s h
  unfold execMirrorFrameSend
  repeat' first
    | with_reducible assumption
    | with_reducible intro _
    | with_reducible apply updTw_inv
    | with_reducible apply laneSend_inv
    | with_reducible apply inv_ite
    | with_reducible apply oinv_next
    | with_reducible apply oinv_ite
    | with_reducible refine inv_foldr (fun _ _ _ => ?_) _ _ ?_
    | split
    | (dsimp only; split)
    | refine inv_fst (by with_reducible assumption) ?_
    | refine inv_snd (by with_reducible assumption) ?_
    | with_reducible apply Inv.mk_plain
    | (dsimp only; with_reducible apply Inv.mk_plain)

theorem sendHeartbeat_inv {q : List Instr} : ∀ s x1, Inv q s → Inv q (sendHeartbeat s x1) := by
  intro s x1 h
  unfold sendHeartbeat
  repeat' first
    | with_reducible assumption
    | with_reducible intro _
    | with_reducible apply sendU_inv
    | with_reducible apply inv_ite
    | split
    | (dsimp only; split)
    | refine inv_fst (by with_reducible assumption) ?_
    | refine inv_snd (by with_reducible assumption) ?_

theorem execHeartbeatSend_inv {q : List Instr} : ∀ s, Inv q s → OInv q (execHeartbeatSend s) := by
  intro s h
  unfold execHeartbeatSend
  repeat' first
    | with_reducible assumption
    | with_reducible intro _
    | with_reducible apply sendHeartbeat_inv
    | with_reducible apply inv_ite
    | with_reducible apply oinv_next
    | with_reducible apply oinv_ite
    | with_reducible refine inv_foldl (fun _ _ _ => ?_) _ _ ?_
    | split
    | (dsimp only; split)
    | refine inv_fst (by with_reducible assumption) ?_
    | refine inv_snd (by with_reducible assumption) ?_

theorem twinBeat_inv {q : List Instr} : ∀ s, Inv q s → Inv q (twinBeat s) := by
  intro s h
  unfold twinBeat
  repeat' first
    | with_reducible assumption
    | with_reducible intro _
    | with_reducible apply updTw_inv
    | with_reducible apply drainAll_inv
    | with_reducible apply setTstate_inv
    | with_reducible apply inv_ite
    | split
    | (dsimp only; split)
    | refine inv_fst (by with_reducible assumption) ?_
    | refine inv_snd (by with_reducible assumption) ?_
    | with_reducible apply Inv.mk_plain
    | (dsimp only; with_reducible apply Inv.mk_plain)

theorem pathBeat_inv {q : List Instr} : ∀ s x1 x2 x3, Inv q s → Inv q (pathBeat s x1 x2 x3) := by
  intro s x1 x2 x3 h
  unfold pathBeat
  repeat' first
    | with_reducible assumption
    | with_reducible intro _
    | with_reducible apply pathDown_inv
    | with_reducible apply retide_inv
    | with_reducible apply setPath_inv
    | with_reducible apply toProven_inv
    | with_reducible apply inv_ite
    | split
    | (dsimp only; split)
    | refine inv_fst (by with_reducible assumption) ?_
    | refine inv_snd (by with_reducible assumption) ?_

theorem execHeartbeat_inv {q : List Instr} : ∀ x0 x1 s, Inv q s → OInv q (execHeartbeat x0 x1 s) := by
  intro x0 x1 s h
  unfold execHeartbeat
  repeat' first
    | with_reducible assumption
    | with_reducible intro _
    | with_reducible apply unseq_inv
    | with_reducible apply twinBeat_inv
    | with_reducible apply sendCtrl_inv
    | with_reducible apply pathBeat_inv
    | with_reducible apply inv_ite
    | with_reducible apply oinv_next
    | with_reducible apply oinv_ite
    | split
    | (dsimp only; split)
    | refine inv_fst (by with_reducible assumption) ?_
    | refine inv_snd (by with_reducible assumption) ?_

theorem execHbsusp_inv {q : List Instr} : ∀ x0 s, Inv q s → OInv q (execHbsusp x0 s) := by
  intro x0 s h
  unfold execHbsusp
  repeat' first
    | with_reducible assumption
    | with_reducible intro _
    | with_reducible apply unseq_inv
    | with_reducible apply setPathState_inv
    | with_reducible apply inv_ite
    | with_reducible apply oinv_next
    | with_reducible apply oinv_ite
    | split
    | (dsimp only; split)
    | refine inv_fst (by with_reducible assumption) ?_
    | refine inv_snd (by with_reducible assumption) ?_

theorem execPathMissedInterval_inv {q : List Instr} : ∀ x0 s, Inv q s → OInv q (execPathMissedInterval x0 s) := by
  intro x0 s h
  unfold execPathMissedInterval
  repeat' first
    | with_reducible assumption
    | with_reducible intro _
    | with_reducible apply setPath_inv
    | with_reducible apply startWake_inv
    | with_reducible apply pathDown_inv
    | with_reducible apply inv_ite
    | with_reducible apply oinv_next
    | with_reducible apply oinv_ite
    | split
    | (dsimp only; split)
    | refine inv_fst (by with_reducible assumption) ?_
    | refine inv_snd (by with_reducible assumption) ?_

theorem resend_inv {q : List Instr} : ∀ s x1 x2 x3, Inv q s → Inv q (resend s x1 x2 x3) := by
  intro s x1 x2 x3 h
  unfold resend
  repeat' first
    | with_reducible assumption
    | with_reducible intro _
    | with_reducible apply sendS_inv
    | with_reducible apply setPath_inv
    | with_reducible apply inv_ite
    | split
    | (dsimp only; split)
    | refine inv_fst (by with_reducible assumption) ?_
    | refine inv_snd (by with_reducible assumption) ?_

theorem execAck_inv {q : List Instr} : ∀ x0 x1 x2 x3 s, Inv q s → OInv q (execAck x0 x1 x2 x3 s) := by
  intro x0 x1 x2 x3 s h
  unfold execAck
  repeat' first
    | with_reducible assumption
    | with_reducible intro _
    | with_reducible apply unseq_inv
    | with_reducible apply resend_inv
    | with_reducible apply setPath_inv
    | with_reducible apply pumpAll_inv
    | with_reducible apply inv_ite
    | with_reducible apply oinv_next
    | with_reducible apply oinv_ite
    | with_reducible refine inv_foldl (fun _ _ _ => ?_) _ _ ?_
    | split
    | (dsimp only; split)
    | refine inv_fst (by with_reducible assumption) ?_
    | refine inv_snd (by with_reducible assumption) ?_

theorem execRetransmitTimer_inv {q : List Instr} : ∀ x0 x1 x2 s, Inv q s → OInv q (execRetransmitTimer x0 x1 x2 s) := by
  intro x0 x1 x2 s h
  unfold execRetransmitTimer
  repeat' first
    | with_reducible assumption
    | with_reducible intro _
    | with_reducible apply resend_inv
    | with_reducible apply setPath_inv
    | with_reducible apply inv_ite
    | with_reducible apply oinv_next
    | with_reducible apply oinv_ite
    | split
    | (dsimp only; split)
    | refine inv_fst (by with_reducible assumption) ?_
    | refine inv_snd (by with_reducible assumption) ?_

theorem sendMemberPart_inv {q : List Instr} : ∀ s x1 x2 x3 x4, Inv q s → Inv q (sendMemberPart s x1 x2 x3 x4) := by
  intro s x1 x2 x3 x4 h
  unfold sendMemberPart
  repeat' first
    | with_reducible assumption
    | with_reducible intro _
    | with_reducible apply sendU_inv
    | with_reducible apply inv_ite
    | with_reducible refine inv_foldr (fun _ _ _ => ?_) _ _ ?_
    | split
    | (dsimp only; split)
    | refine inv_fst (by with_reducible assumption) ?_
    | refine inv_snd (by with_reducible assumption) ?_

theorem sendMember_inv {q : List Instr} : ∀ s x1, Inv q s → Inv q (sendMember s x1) := by
  intro s x1 h
  unfold sendMember
  repeat' first
    | with_reducible assumption
    | with_reducible intro _
    | with_reducible apply sendMemberPart_inv
    | with_reducible apply inv_ite
    | with_reducible refine inv_foldl (fun _ _ _ => ?_) _ _ ?_
    | split
    | (dsimp only; split)
    | refine inv_fst (by with_reducible assumption) ?_
    | refine inv_snd (by with_reducible assumption) ?_

theorem sendMembers_inv {q : List Instr} : ∀ s, Inv q s → Inv q (sendMembers s) := by
  intro s h
  unfold sendMembers
  repeat' first
    | with_reducible assumption
    | with_reducible intro _
    | with_reducible apply sendMember_inv
    | with_reducible apply updTw_inv
    | with_reducible apply inv_ite
    | with_reducible refine inv_foldl (fun _ _ _ => ?_) _ _ ?_
    | split
    | (dsimp only; split)
    | refine inv_fst (by with_reducible assumption) ?_
    | refine inv_snd (by with_reducible assumption) ?_
    | with_reducible apply Inv.mk_plain
    | (dsimp only; with_reducible apply Inv.mk_plain)

theorem execMemberSend_inv {q : List Instr} : ∀ s, Inv q s → OInv q (execMemberSend s) := by
  intro s h
  unfold execMemberSend
  repeat' first
    | with_reducible assumption
    | with_reducible intro _
    | with_reducible apply sendMembers_inv
    | with_reducible apply inv_ite
    | with_reducible apply oinv_next
    | with_reducible apply oinv_ite
    | split
    | (dsimp only; split)
    | refine inv_fst (by with_reducible assumption) ?_
    | refine inv_snd (by with_reducible assumption) ?_

theorem setMember_inv {q : List Instr} : ∀ s x1 x2, Inv q s → Inv q (setMember s x1 x2) := by
  intro s x1 x2 h
  unfold setMember
  repeat' first
    | with_reducible assumption
    | with_reducible intro _
    | with_reducible apply inv_ite
    | split
    | (dsimp only; split)
    | refine inv_fst (by with_reducible assumption) ?_
    | refine inv_snd (by with_reducible assumption) ?_
    | with_reducible apply Inv.mk_plain
    | with_reducible refine Inv.mk_members ?_ (by first | exact id | exact Table.wf_put _ _ _ _ | exact Table.wf_upd _ _ _ _ | exact Table.wf_mapVals _ _ _ | exact Table.wf_putList _ _ _ _ | exact Table.wf_filter _ _ _ | exact fun h => Table.wf_put _ _ _ _ (Table.wf_put _ _ _ _ h) | exact fun _ => rfl)
    | (dsimp only; with_reducible apply Inv.mk_plain)
    | (dsimp only; with_reducible refine Inv.mk_members ?_ (by first | exact id | exact Table.wf_put _ _ _ _ | exact Table.wf_upd _ _ _ _ | exact Table.wf_mapVals _ _ _ | exact Table.wf_putList _ _ _ _ | exact Table.wf_filter _ _ _ | exact fun h => Table.wf_put _ _ _ _ (Table.wf_put _ _ _ _ h) | exact fun _ => rfl))

theorem memberSlots_inv {q : List Instr} : ∀ s x1 x2, Inv q s → Inv q (memberSlots s x1 x2) := by
  intro s x1 x2 h
  unfold memberSlots
  repeat' first
    | with_reducible assumption
    | with_reducible intro _
    | with_reducible apply inv_ite
    | split
    | (dsimp only; split)
    | refine inv_fst (by with_reducible assumption) ?_
    | refine inv_snd (by with_reducible assumption) ?_
    | with_reducible apply Inv.mk_plain
    | with_reducible refine Inv.mk_berths ?_ (by first | exact id | exact Table.wf_put _ _ _ _ | exact Table.wf_upd _ _ _ _ | exact Table.wf_mapVals _ _ _ | exact Table.wf_putList _ _ _ _ | exact Table.wf_filter _ _ _ | exact fun h => Table.wf_put _ _ _ _ (Table.wf_put _ _ _ _ h) | exact fun _ => rfl)
    | (dsimp only; with_reducible apply Inv.mk_plain)
    | (dsimp only; with_reducible refine Inv.mk_berths ?_ (by first | exact id | exact Table.wf_put _ _ _ _ | exact Table.wf_upd _ _ _ _ | exact Table.wf_mapVals _ _ _ | exact Table.wf_putList _ _ _ _ | exact Table.wf_filter _ _ _ | exact fun h => Table.wf_put _ _ _ _ (Table.wf_put _ _ _ _ h) | exact fun _ => rfl))

theorem execMember_inv {q : List Instr} : ∀ x0 x1 s, Inv q s → OInv q (execMember x0 x1 s) := by
  intro x0 x1 s h
  unfold execMember
  repeat' first
    | with_reducible assumption
    | with_reducible intro _
    | with_reducible apply unseq_inv
    | with_reducible apply setMember_inv
    | with_reducible apply retide_inv
    | with_reducible apply reslot_inv
    | with_reducible apply memberSlots_inv
    | with_reducible apply inv_ite
    | with_reducible apply oinv_next
    | with_reducible apply oinv_ite
    | split
    | (dsimp only; split)
    | refine inv_fst (by with_reducible assumption) ?_
    | refine inv_snd (by with_reducible assumption) ?_

theorem execMemberDrop_inv {q : List Instr} : ∀ x0 s, Inv q s → OInv q (execMemberDrop x0 s) := by
  intro x0 s h
  unfold execMemberDrop
  repeat' first
    | with_reducible assumption
    | with_reducible intro _
    | with_reducible apply retide_inv
    | with_reducible apply reslot_inv
    | with_reducible apply setMember_inv
    | with_reducible apply inv_ite
    | with_reducible apply oinv_next
    | with_reducible apply oinv_ite
    | split
    | (dsimp only; split)
    | refine inv_fst (by with_reducible assumption) ?_
    | refine inv_snd (by with_reducible assumption) ?_

theorem execTideRequestSend_inv {q : List Instr} : ∀ s, Inv q s → OInv q (execTideRequestSend s) := by
  intro s h
  unfold execTideRequestSend
  repeat' first
    | with_reducible assumption
    | with_reducible intro _
    | with_reducible apply sendU_inv
    | with_reducible apply inv_ite
    | with_reducible apply oinv_next
    | with_reducible apply oinv_ite
    | split
    | (dsimp only; split)
    | refine inv_fst (by with_reducible assumption) ?_
    | refine inv_snd (by with_reducible assumption) ?_
    | with_reducible apply Inv.mk_plain
    | (dsimp only; with_reducible apply Inv.mk_plain)

theorem execTideRequest_inv {q : List Instr} : ∀ x0 x1 x2 s, Inv q s → OInv q (execTideRequest x0 x1 x2 s) := by
  intro x0 x1 x2 s h
  unfold execTideRequest
  repeat' first
    | with_reducible assumption
    | with_reducible intro _
    | with_reducible apply unseq_inv
    | with_reducible apply sendU_inv
    | with_reducible apply inv_ite
    | with_reducible apply oinv_next
    | with_reducible apply oinv_ite
    | split
    | (dsimp only; split)
    | refine inv_fst (by with_reducible assumption) ?_
    | refine inv_snd (by with_reducible assumption) ?_
    | with_reducible apply Inv.mk_plain
    | (dsimp only; with_reducible apply Inv.mk_plain)

theorem applyTide_inv {q : List Instr} : ∀ s x1 x2, Inv q s → Inv q (applyTide s x1 x2) := by
  intro s x1 x2 h
  unfold applyTide
  repeat' first
    | with_reducible assumption
    | with_reducible intro _
    | with_reducible apply hmLog_inv
    | with_reducible apply inv_ite
    | split
    | (dsimp only; split)
    | refine inv_fst (by with_reducible assumption) ?_
    | refine inv_snd (by with_reducible assumption) ?_
    | with_reducible apply Inv.mk_plain
    | (dsimp only; with_reducible apply Inv.mk_plain)

theorem execTideResponse_inv {q : List Instr} : ∀ x0 x1 x2 x3 x4 x5 s, Inv q s → OInv q (execTideResponse x0 x1 x2 x3 x4 x5 s) := by
  intro x0 x1 x2 x3 x4 x5 s h
  unfold execTideResponse
  repeat' first
    | with_reducible assumption
    | with_reducible intro _
    | with_reducible apply unseq_inv
    | with_reducible apply applyTide_inv
    | with_reducible apply inv_ite
    | with_reducible apply oinv_next
    | with_reducible apply oinv_ite
    | split
    | (dsimp only; split)
    | refine inv_fst (by with_reducible assumption) ?_
    | refine inv_snd (by with_reducible assumption) ?_

theorem execTideSlew_inv {q : List Instr} : ∀ s, Inv q s → OInv q (execTideSlew s) := by
  intro s h
  unfold execTideSlew
  repeat' first
    | with_reducible assumption
    | with_reducible intro _
    | with_reducible apply inv_ite
    | with_reducible apply oinv_next
    | with_reducible apply oinv_ite
    | split
    | (dsimp only; split)
    | refine inv_fst (by with_reducible assumption) ?_
    | refine inv_snd (by with_reducible assumption) ?_
    | with_reducible apply Inv.mk_plain
    | (dsimp only; with_reducible apply Inv.mk_plain)

theorem execMissedInterval_inv {q : List Instr} : ∀ s, Inv q s → OInv q (execMissedInterval s) := by
  intro s h
  unfold execMissedInterval
  repeat' first
    | with_reducible assumption
    | with_reducible intro _
    | with_reducible apply updTw_inv
    | with_reducible apply startWake_inv
    | with_reducible apply setTstate_inv
    | with_reducible apply inv_ite
    | with_reducible apply oinv_next
    | with_reducible apply oinv_ite
    | split
    | (dsimp only; split)
    | refine inv_fst (by with_reducible assumption) ?_
    | refine inv_snd (by with_reducible assumption) ?_
    | with_reducible apply Inv.mk_plain
    | (dsimp only; with_reducible apply Inv.mk_plain)

theorem execClockRaiseHoldEnd_inv {q : List Instr} : ∀ s, Inv q s → OInv q (execClockRaiseHoldEnd s) := by
  intro s h
  unfold execClockRaiseHoldEnd
  repeat' first
    | with_reducible assumption
    | with_reducible intro _
    | with_reducible apply inv_ite
    | with_reducible apply oinv_next
    | with_reducible apply oinv_ite
    | split
    | (dsimp only; split)
    | refine inv_fst (by with_reducible assumption) ?_
    | refine inv_snd (by with_reducible assumption) ?_
    | with_reducible apply Inv.mk_plain
    | (dsimp only; with_reducible apply Inv.mk_plain)

theorem execTwinDeclaredLost_inv {q : List Instr} : ∀ s, Inv q s → OInv q (execTwinDeclaredLost s) := by
  intro s h
  unfold execTwinDeclaredLost
  repeat' first
    | with_reducible assumption
    | with_reducible intro _
    | with_reducible apply declareLost_inv
    | with_reducible apply inv_ite
    | with_reducible apply oinv_next
    | with_reducible apply oinv_ite
    | split
    | (dsimp only; split)
    | refine inv_fst (by with_reducible assumption) ?_
    | refine inv_snd (by with_reducible assumption) ?_

theorem execWakeTimeout_inv {q : List Instr} : ∀ s, Inv q s → OInv q (execWakeTimeout s) := by
  intro s h
  unfold execWakeTimeout
  repeat' first
    | with_reducible assumption
    | with_reducible intro _
    | with_reducible apply declareLost_inv
    | with_reducible apply inv_ite
    | with_reducible apply oinv_next
    | with_reducible apply oinv_ite
    | split
    | (dsimp only; split)
    | refine inv_fst (by with_reducible assumption) ?_
    | refine inv_snd (by with_reducible assumption) ?_

theorem execFencingStart_inv {q : List Instr} : ∀ s, Inv q s → OInv q (execFencingStart s) := by
  intro s h
  unfold execFencingStart
  repeat' first
    | with_reducible assumption
    | with_reducible intro _
    | with_reducible apply updTw_inv
    | with_reducible apply allFenced_inv
    | with_reducible apply preempt_inv
    | with_reducible apply inv_ite
    | with_reducible apply oinv_next
    | with_reducible apply oinv_ite
    | with_reducible refine inv_foldl (fun _ _ _ => ?_) _ _ ?_
    | split
    | (dsimp only; split)
    | refine inv_fst (by with_reducible assumption) ?_
    | refine inv_snd (by with_reducible assumption) ?_
    | with_reducible apply Inv.mk_plain
    | (dsimp only; with_reducible apply Inv.mk_plain)

theorem execPreemptAndAbortDone_inv {q : List Instr} : ∀ x0 x1 s, Inv q s → OInv q (execPreemptAndAbortDone x0 x1 s) := by
  intro x0 x1 s h
  unfold execPreemptAndAbortDone
  repeat' first
    | with_reducible assumption
    | with_reducible intro _
    | with_reducible apply stepCq_inv
    | with_reducible apply queueOut_inv
    | with_reducible apply updTw_inv
    | with_reducible apply issueResv_inv
    | with_reducible apply fenceDone_inv
    | with_reducible apply errorLog_inv
    | with_reducible apply inv_ite
    | with_reducible apply oinv_next
    | with_reducible apply oinv_ite
    | split
    | (dsimp only; split)
    | refine inv_fst (by with_reducible assumption) ?_
    | refine inv_snd (by with_reducible assumption) ?_
    | with_reducible apply Inv.mk_plain
    | with_reducible refine Inv.mk_resvs ?_ (by first | exact id | exact Table.wf_put _ _ _ _ | exact Table.wf_upd _ _ _ _ | exact Table.wf_mapVals _ _ _ | exact Table.wf_putList _ _ _ _ | exact Table.wf_filter _ _ _ | exact fun h => Table.wf_put _ _ _ _ (Table.wf_put _ _ _ _ h) | exact fun _ => rfl)
    | (dsimp only; with_reducible apply Inv.mk_plain)
    | (dsimp only; with_reducible refine Inv.mk_resvs ?_ (by first | exact id | exact Table.wf_put _ _ _ _ | exact Table.wf_upd _ _ _ _ | exact Table.wf_mapVals _ _ _ | exact Table.wf_putList _ _ _ _ | exact Table.wf_filter _ _ _ | exact fun h => Table.wf_put _ _ _ _ (Table.wf_put _ _ _ _ h) | exact fun _ => rfl))

theorem foundRec_inv {q : List Instr} : ∀ s x1 x2 x3, Inv q s → Inv q (foundRec s x1 x2 x3) := by
  intro s x1 x2 x3 h
  unfold foundRec
  repeat' first
    | with_reducible assumption
    | with_reducible intro _
    | with_reducible apply retireOwn_inv
    | with_reducible apply updTw_inv
    | with_reducible apply inv_ite
    | split
    | (dsimp only; split)
    | refine inv_fst (by with_reducible assumption) ?_
    | refine inv_snd (by with_reducible assumption) ?_
    | with_reducible apply Inv.mk_plain
    | (dsimp only; with_reducible apply Inv.mk_plain)

theorem adoptRing_inv {q : List Instr} : ∀ s x1 x2, Inv q s → Inv q (adoptRing s x1 x2) := by
  intro s x1 x2 h
  unfold adoptRing
  repeat' first
    | with_reducible assumption
    | with_reducible intro _
    | with_reducible apply foundRec_inv
    | with_reducible apply setRing_inv
    | with_reducible apply updTw_inv
    | with_reducible apply govern_inv
    | with_reducible apply notifyNow_inv
    | with_reducible apply inv_ite
    | with_reducible refine inv_foldl (fun _ _ _ => ?_) _ _ ?_
    | split
    | (dsimp only; split)
    | refine inv_fst (by with_reducible assumption) ?_
    | refine inv_snd (by with_reducible assumption) ?_
    | with_reducible apply Inv.mk_plain
    | (dsimp only; with_reducible apply Inv.mk_plain)

theorem execAdoptionReadDone_inv {q : List Instr} : ∀ x0 x1 x2 s, Inv q s → OInv q (execAdoptionReadDone x0 x1 x2 s) := by
  intro x0 x1 x2 s h
  unfold execAdoptionReadDone
  repeat' first
    | with_reducible assumption
    | with_reducible intro _
    | with_reducible apply takeoverEnd_inv
    | with_reducible apply adoptRing_inv
    | with_reducible apply updTw_inv
    | with_reducible apply inv_ite
    | with_reducible apply oinv_next
    | with_reducible apply oinv_ite
    | split
    | (dsimp only; split)
    | refine inv_fst (by with_reducible assumption) ?_
    | refine inv_snd (by with_reducible assumption) ?_
    | with_reducible apply Inv.mk_plain
    | (dsimp only; with_reducible apply Inv.mk_plain)

theorem execAdoptionReadRetry_inv {q : List Instr} : ∀ x0 s, Inv q s → OInv q (execAdoptionReadRetry x0 s) := by
  intro x0 s h
  unfold execAdoptionReadRetry
  repeat' first
    | with_reducible assumption
    | with_reducible intro _
    | with_reducible apply startAdopt_inv
    | with_reducible apply inv_ite
    | with_reducible apply oinv_next
    | with_reducible apply oinv_ite
    | split
    | (dsimp only; split)
    | refine inv_fst (by with_reducible assumption) ?_
    | refine inv_snd (by with_reducible assumption) ?_

theorem askPair_inv {q : List Instr} : ∀ s x1, Inv q s → Inv q (askPair s x1) := by
  intro s x1 h
  unfold askPair
  repeat' first
    | with_reducible assumption
    | with_reducible intro _
    | with_reducible apply sendCtrl_inv
    | with_reducible apply updTw_inv
    | with_reducible apply inv_ite
    | with_reducible refine inv_foldl (fun _ _ _ => ?_) _ _ ?_
    | split
    | (dsimp only; split)
    | refine inv_fst (by with_reducible assumption) ?_
    | refine inv_snd (by with_reducible assumption) ?_
    | with_reducible apply Inv.mk_plain
    | (dsimp only; with_reducible apply Inv.mk_plain)

theorem execPairSend_inv {q : List Instr} : ∀ s, Inv q s → OInv q (execPairSend s) := by
  intro s h
  unfold execPairSend
  repeat' first
    | with_reducible assumption
    | with_reducible intro _
    | with_reducible apply askPair_inv
    | with_reducible apply inv_ite
    | with_reducible apply oinv_next
    | with_reducible apply oinv_ite
    | split
    | (dsimp only; split)
    | refine inv_fst (by with_reducible assumption) ?_
    | refine inv_snd (by with_reducible assumption) ?_

theorem execRetwinSearch_inv {q : List Instr} : ∀ s, Inv q s → OInv q (execRetwinSearch s) := by
  intro s h
  unfold execRetwinSearch
  repeat' first
    | with_reducible assumption
    | with_reducible intro _
    | with_reducible apply askPair_inv
    | with_reducible apply inv_ite
    | with_reducible apply oinv_next
    | with_reducible apply oinv_ite
    | split
    | (dsimp only; split)
    | refine inv_fst (by with_reducible assumption) ?_
    | refine inv_snd (by with_reducible assumption) ?_

theorem execUnpairDrained_inv {q : List Instr} : ∀ s, Inv q s → OInv q (execUnpairDrained s) := by
  intro s h
  unfold execUnpairDrained
  repeat' first
    | with_reducible assumption
    | with_reducible intro _
    | with_reducible apply leaveKeys_inv
    | with_reducible apply sendCtrl_inv
    | with_reducible apply setTstate_inv
    | with_reducible apply endRecords_inv
    | with_reducible apply updTw_inv
    | with_reducible apply inv_ite
    | with_reducible apply oinv_next
    | with_reducible apply oinv_ite
    | split
    | (dsimp only; split)
    | refine inv_fst (by with_reducible assumption) ?_
    | refine inv_snd (by with_reducible assumption) ?_
    | with_reducible apply Inv.mk_plain
    | (dsimp only; with_reducible apply Inv.mk_plain)

end Sys2Proof.Machine
end

