-- ==== Sys2Proof/Laws/InvRegWrite.lean ====
section
/-! SUPPORT. Laws/InvRegWrite.lean: every function of Machine/RegWrite.lean keeps the invariant of a sound state. -/

namespace Sys2Proof.Machine

theorem sendRcmd_inv {q : List Instr} : ∀ s x1 x2 x3, Inv q s → Inv q (sendRcmd s x1 x2 x3) := by
  intro s x1 x2 x3 h
  unfold sendRcmd
  repeat' first
    | with_reducible assumption
    | with_reducible intro _
    | with_reducible apply laneSend_inv
    | with_reducible apply issueCmd_inv
    | with_reducible apply inv_ite
    | split
    | (dsimp only; split)
    | refine inv_fst (by with_reducible assumption) ?_
    | refine inv_snd (by with_reducible assumption) ?_

theorem sendCtl_inv {q : List Instr} : ∀ s x1 x2 x3, Inv q s → Inv q (sendCtl s x1 x2 x3) := by
  intro s x1 x2 x3 h
  unfold sendCtl
  repeat' first
    | with_reducible assumption
    | with_reducible intro _
    | with_reducible apply sendU_inv
    | with_reducible apply onHalves_inv
    | with_reducible apply setDcmd_inv
    | with_reducible apply laneSend_inv
    | with_reducible apply inv_ite
    | split
    | (dsimp only; split)
    | refine inv_fst (by with_reducible assumption) ?_
    | refine inv_snd (by with_reducible assumption) ?_

theorem ftxWrite_inv {q : List Instr} : ∀ s x1 x2 x3, Inv q s → Inv q (ftxWrite s x1 x2 x3) := by
  intro s x1 x2 x3 h
  unfold ftxWrite
  repeat' first
    | with_reducible assumption
    | with_reducible intro _
    | with_reducible apply setFwin_inv
    | with_reducible apply sendCtl_inv
    | with_reducible apply sendRcmd_inv
    | with_reducible apply laneSend_inv
    | with_reducible apply inv_ite
    | split
    | (dsimp only; split)
    | refine inv_fst (by with_reducible assumption) ?_
    | refine inv_snd (by with_reducible assumption) ?_

theorem fstatRemove_inv {q : List Instr} : ∀ s x1 x2, Inv q s → Inv q (fstatRemove s x1 x2) := by
  intro s x1 x2 h
  unfold fstatRemove
  repeat' first
    | with_reducible assumption
    | with_reducible intro _
    | with_reducible apply resumeLanes_inv
    | with_reducible apply sampleLevel_inv
    | with_reducible apply setFwin_inv
    | with_reducible apply inv_ite
    | split
    | (dsimp only; split)
    | refine inv_fst (by with_reducible assumption) ?_
    | refine inv_snd (by with_reducible assumption) ?_

theorem poolWrite_inv {q : List Instr} : ∀ s x1 x2, Inv q s → Inv q (poolWrite s x1 x2) := by
  intro s x1 x2 h
  unfold poolWrite
  repeat' first
    | with_reducible assumption
    | with_reducible intro _
    | with_reducible apply inv_ite
    | split
    | (dsimp only; split)
    | refine inv_fst (by with_reducible assumption) ?_
    | refine inv_snd (by with_reducible assumption) ?_
    | with_reducible apply Inv.mk_plain
    | (dsimp only; with_reducible apply Inv.mk_plain)

theorem blkWrite_inv {q : List Instr} : ∀ s x1 x2 x3, Inv q s → Inv q (blkWrite s x1 x2 x3) := by
  intro s x1 x2 x3 h
  unfold blkWrite
  repeat' first
    | with_reducible assumption
    | with_reducible intro _
    | with_reducible apply poolWrite_inv
    | with_reducible apply inv_ite
    | split
    | (dsimp only; split)
    | refine inv_fst (by with_reducible assumption) ?_
    | refine inv_snd (by with_reducible assumption) ?_
    | with_reducible apply Inv.mk_plain
    | (dsimp only; with_reducible apply Inv.mk_plain)

theorem hbrWrite_inv {q : List Instr} : ∀ s x1 x2, Inv q s → Inv q (hbrWrite s x1 x2) := by
  intro s x1 x2 h
  unfold hbrWrite
  repeat' first
    | with_reducible assumption
    | with_reducible intro _
    | with_reducible apply inv_ite
    | split
    | (dsimp only; split)
    | refine inv_fst (by with_reducible assumption) ?_
    | refine inv_snd (by with_reducible assumption) ?_
    | with_reducible apply Inv.mk_plain
    | (dsimp only; with_reducible apply Inv.mk_plain)

theorem pwrWrite_inv {q : List Instr} : ∀ s x1 x2 x3, Inv q s → Inv q (pwrWrite s x1 x2 x3) := by
  intro s x1 x2 x3 h
  unfold pwrWrite
  repeat' first
    | with_reducible assumption
    | with_reducible intro _
    | with_reducible apply govern_inv
    | with_reducible apply inv_ite
    | split
    | (dsimp only; split)
    | refine inv_fst (by with_reducible assumption) ?_
    | refine inv_snd (by with_reducible assumption) ?_
    | with_reducible apply Inv.mk_plain
    | (dsimp only; with_reducible apply Inv.mk_plain)

theorem hmWrite_inv {q : List Instr} : ∀ s x1 x2 x3, Inv q s → Inv q (hmWrite s x1 x2 x3) := by
  intro s x1 x2 x3 h
  unfold hmWrite
  repeat' first
    | with_reducible assumption
    | with_reducible intro _
    | with_reducible apply mbCommand_inv
    | with_reducible apply mbRun_inv
    | with_reducible apply inv_ite
    | with_reducible apply pinv_ite
    | with_reducible apply pinv_done
    | with_reducible apply pinv_trap
    | with_reducible apply pinv_brk
    | with_reducible apply pinv_stop
    | split
    | (dsimp only; split)
    | refine inv_fst (by with_reducible assumption) ?_
    | refine inv_snd (by with_reducible assumption) ?_
    | refine pinv_of_done (by with_reducible assumption) ?_
    | refine pinv_of_brk (by with_reducible assumption) ?_
    | refine pinv_of_trap (by with_reducible assumption) ?_
    | refine pinv_of_stop (by with_reducible assumption) ?_
    | with_reducible apply Inv.mk_plain
    | (dsimp only; with_reducible apply Inv.mk_plain)

theorem hmWrite64_inv {q : List Instr} : ∀ s x1 x2 x3, Inv q s → Inv q (hmWrite64 s x1 x2 x3) := by
  intro s x1 x2 x3 h
  unfold hmWrite64
  repeat' first
    | with_reducible assumption
    | with_reducible intro _
    | with_reducible apply setHmWord_inv
    | with_reducible apply inv_ite
    | split
    | (dsimp only; split)
    | refine inv_fst (by with_reducible assumption) ?_
    | refine inv_snd (by with_reducible assumption) ?_
    | with_reducible apply Inv.mk_plain
    | (dsimp only; with_reducible apply Inv.mk_plain)

theorem accFields_inv {q : List Instr} : ∀ s x1, Inv q s → Inv q (accFields s x1) := by
  intro s x1 h
  unfold accFields
  repeat' first
    | with_reducible assumption
    | with_reducible intro _
    | with_reducible apply inv_ite
    | split
    | (dsimp only; split)
    | refine inv_fst (by with_reducible assumption) ?_
    | refine inv_snd (by with_reducible assumption) ?_
    | with_reducible apply Inv.mk_plain
    | (dsimp only; with_reducible apply Inv.mk_plain)

theorem dbgWrite_inv {q : List Instr} : ∀ s x1 x2 x3, Inv q s → Inv q (dbgWrite s x1 x2 x3) := by
  intro s x1 x2 x3 h
  unfold dbgWrite
  repeat' first
    | with_reducible assumption
    | with_reducible intro _
    | with_reducible apply accFields_inv
    | with_reducible apply inv_ite
    | split
    | (dsimp only; split)
    | refine inv_fst (by with_reducible assumption) ?_
    | refine inv_snd (by with_reducible assumption) ?_
    | with_reducible apply Inv.mk_plain
    | (dsimp only; with_reducible apply Inv.mk_plain)

theorem extSet_inv {q : List Instr} : ∀ s x1, Inv q s → Inv q (extSet s x1) := by
  intro s x1 h
  unfold extSet
  repeat' first
    | with_reducible assumption
    | with_reducible intro _
    | with_reducible apply watchdogBoundary_inv
    | with_reducible apply inv_ite
    | with_reducible refine inv_foldl (fun _ _ _ => ?_) _ _ ?_
    | split
    | (dsimp only; split)
    | refine inv_fst (by with_reducible assumption) ?_
    | refine inv_snd (by with_reducible assumption) ?_
    | with_reducible apply Inv.mk_plain
    | (dsimp only; with_reducible apply Inv.mk_plain)

theorem dbgWrite64_inv {q : List Instr} : ∀ s x1 x2 x3, Inv q s → Inv q (dbgWrite64 s x1 x2 x3) := by
  intro s x1 x2 x3 h
  unfold dbgWrite64
  repeat' first
    | with_reducible assumption
    | with_reducible intro _
    | with_reducible apply extSet_inv
    | with_reducible apply inv_ite
    | split
    | (dsimp only; split)
    | refine inv_fst (by with_reducible assumption) ?_
    | refine inv_snd (by with_reducible assumption) ?_
    | with_reducible apply Inv.mk_plain
    | (dsimp only; with_reducible apply Inv.mk_plain)

theorem dctlWrite_inv {q : List Instr} : ∀ s x1 x2, Inv q s → Inv q (dctlWrite s x1 x2) := by
  intro s x1 x2 h
  unfold dctlWrite
  repeat' first
    | with_reducible assumption
    | with_reducible intro _
    | with_reducible apply setCtl_inv
    | with_reducible apply reslot_inv
    | with_reducible apply inv_ite
    | split
    | (dsimp only; split)
    | refine inv_fst (by with_reducible assumption) ?_
    | refine inv_snd (by with_reducible assumption) ?_

theorem dqWrite_inv {q : List Instr} : ∀ s x1 x2 x3 x4, Inv q s → Inv q (dqWrite s x1 x2 x3 x4) := by
  intro s x1 x2 x3 x4 h
  unfold dqWrite
  repeat' first
    | with_reducible assumption
    | with_reducible intro _
    | with_reducible apply setDq_inv
    | with_reducible apply inv_ite
    | split
    | (dsimp only; split)
    | refine inv_fst (by with_reducible assumption) ?_
    | refine inv_snd (by with_reducible assumption) ?_

theorem portWrite_inv {q : List Instr} : ∀ s x1 x2 x3, Inv q s → Inv q (portWrite s x1 x2 x3) := by
  intro s x1 x2 x3 h
  unfold portWrite
  repeat' first
    | with_reducible assumption
    | with_reducible intro _
    | with_reducible apply pcfgWrite_inv
    | with_reducible apply prouteWrite_inv
    | with_reducible apply dctlWrite_inv
    | with_reducible apply dqWrite_inv
    | with_reducible apply inv_ite
    | split
    | (dsimp only; split)
    | refine inv_fst (by with_reducible assumption) ?_
    | refine inv_snd (by with_reducible assumption) ?_
    | with_reducible apply Inv.mk_plain
    | (dsimp only; with_reducible apply Inv.mk_plain)

theorem portWrite64_inv {q : List Instr} : ∀ s x1 x2 x3 x4, Inv q s → Inv q (portWrite64 s x1 x2 x3 x4) := by
  intro s x1 x2 x3 x4 h
  unfold portWrite64
  repeat' first
    | with_reducible assumption
    | with_reducible intro _
    | with_reducible apply setCtl_inv
    | with_reducible apply ftxWrite_inv
    | with_reducible apply setFwin_inv
    | with_reducible apply keyWrite_inv
    | with_reducible apply inv_ite
    | split
    | (dsimp only; split)
    | refine inv_fst (by with_reducible assumption) ?_
    | refine inv_snd (by with_reducible assumption) ?_
    | with_reducible apply Inv.mk_plain
    | (dsimp only; with_reducible apply Inv.mk_plain)

theorem ltrWrite_inv {q : List Instr} : ∀ s x1 x2 x3, Inv q s → Inv q (ltrWrite s x1 x2 x3) := by
  intro s x1 x2 x3 h
  unfold ltrWrite
  repeat' first
    | with_reducible assumption
    | with_reducible intro _
    | with_reducible apply celOwnWrite_inv
    | with_reducible apply inv_ite
    | split
    | (dsimp only; split)
    | refine inv_fst (by with_reducible assumption) ?_
    | refine inv_snd (by with_reducible assumption) ?_
    | with_reducible apply Inv.mk_plain
    | (dsimp only; with_reducible apply Inv.mk_plain)

theorem pclWrite_inv {q : List Instr} : ∀ s x1 x2 x3, Inv q s → Inv q (pclWrite s x1 x2 x3) := by
  intro s x1 x2 x3 h
  unfold pclWrite
  repeat' first
    | with_reducible assumption
    | with_reducible intro _
    | with_reducible apply csrcWrite_inv
    | with_reducible apply gmWrite_inv
    | with_reducible apply injnowWrite_inv
    | with_reducible apply forceWrite_inv
    | with_reducible apply vinWrite_inv
    | with_reducible apply inv_ite
    | with_reducible apply pinv_ite
    | with_reducible apply pinv_done
    | with_reducible apply pinv_trap
    | with_reducible apply pinv_brk
    | with_reducible apply pinv_stop
    | split
    | (dsimp only; split)
    | refine inv_fst (by with_reducible assumption) ?_
    | refine inv_snd (by with_reducible assumption) ?_
    | refine pinv_of_done (by with_reducible assumption) ?_
    | refine pinv_of_brk (by with_reducible assumption) ?_
    | refine pinv_of_trap (by with_reducible assumption) ?_
    | refine pinv_of_stop (by with_reducible assumption) ?_
    | with_reducible apply Inv.mk_plain
    | (dsimp only; with_reducible apply Inv.mk_plain)

theorem pclWrite64_inv {q : List Instr} : ∀ s x1 x2 x3 x4, Inv q s → Inv q (pclWrite64 s x1 x2 x3 x4) := by
  intro s x1 x2 x3 x4 h
  unfold pclWrite64
  repeat' first
    | with_reducible assumption
    | with_reducible intro _
    | with_reducible apply inv_ite
    | split
    | (dsimp only; split)
    | refine inv_fst (by with_reducible assumption) ?_
    | refine inv_snd (by with_reducible assumption) ?_
    | with_reducible apply Inv.mk_plain
    | (dsimp only; with_reducible apply Inv.mk_plain)

theorem ringRegWrite_inv {q : List Instr} : ∀ s x1 x2 x3, Inv q s → Inv q (ringRegWrite s x1 x2 x3) := by
  intro s x1 x2 x3 h
  unfold ringRegWrite
  repeat' first
    | with_reducible assumption
    | with_reducible intro _
    | with_reducible apply ringWrite32_inv
    | with_reducible apply govern_inv
    | with_reducible apply inv_ite
    | split
    | (dsimp only; split)
    | refine inv_fst (by with_reducible assumption) ?_
    | refine inv_snd (by with_reducible assumption) ?_

theorem regWrite32_inv {q : List Instr} : ∀ s x1 x2 x3, Inv q s → Inv q (regWrite32 s x1 x2 x3) := by
  intro s x1 x2 x3 h
  unfold regWrite32
  repeat' first
    | with_reducible assumption
    | with_reducible intro _
    | with_reducible apply blkWrite_inv
    | with_reducible apply hbrWrite_inv
    | with_reducible apply tideWrite_inv
    | with_reducible apply evcWrite32_inv
    | with_reducible apply pwrWrite_inv
    | with_reducible apply hmWrite_inv
    | with_reducible apply dbgWrite_inv
    | with_reducible apply portWrite_inv
    | with_reducible apply ltrWrite_inv
    | with_reducible apply pclWrite_inv
    | with_reducible apply ringRegWrite_inv
    | with_reducible apply inv_ite
    | split
    | (dsimp only; split)
    | refine inv_fst (by with_reducible assumption) ?_
    | refine inv_snd (by with_reducible assumption) ?_

theorem regWrite64_inv {q : List Instr} : ∀ s x1 x2 x3 x4, Inv q s → Inv q (regWrite64 s x1 x2 x3 x4) := by
  intro s x1 x2 x3 x4 h
  unfold regWrite64
  repeat' first
    | with_reducible assumption
    | with_reducible intro _
    | with_reducible apply evcWrite64_inv
    | with_reducible apply hmWrite64_inv
    | with_reducible apply dbgWrite64_inv
    | with_reducible apply portWrite64_inv
    | with_reducible apply pclWrite64_inv
    | with_reducible apply ringWrite64_inv
    | with_reducible apply berthWrite_inv
    | with_reducible apply nguidWrite_inv
    | with_reducible apply inv_ite
    | split
    | (dsimp only; split)
    | refine inv_fst (by with_reducible assumption) ?_
    | refine inv_snd (by with_reducible assumption) ?_
    | with_reducible apply Inv.mk_plain
    | (dsimp only; with_reducible apply Inv.mk_plain)

theorem winWrite_inv {q : List Instr} : ∀ s x1 x2 x3 x4, Inv q s → Inv q (winWrite s x1 x2 x3 x4) := by
  intro s x1 x2 x3 x4 h
  unfold winWrite
  repeat' first
    | with_reducible assumption
    | with_reducible intro _
    | with_reducible apply regWrite64_inv
    | with_reducible apply regWrite32_inv
    | with_reducible apply inv_ite
    | split
    | (dsimp only; split)
    | refine inv_fst (by with_reducible assumption) ?_
    | refine inv_snd (by with_reducible assumption) ?_

theorem blkTake_inv {q : List Instr} : ∀ s x1, Inv q s → Inv q (blkTake s x1) := by
  intro s x1 h
  unfold blkTake
  repeat' first
    | with_reducible assumption
    | with_reducible intro _
    | with_reducible apply inv_ite
    | split
    | (dsimp only; split)
    | refine inv_fst (by with_reducible assumption) ?_
    | refine inv_snd (by with_reducible assumption) ?_
    | with_reducible apply Inv.mk_plain
    | (dsimp only; with_reducible apply Inv.mk_plain)

theorem hbrTake_inv {q : List Instr} : ∀ s x1, Inv q s → Inv q (hbrTake s x1) := by
  intro s x1 h
  unfold hbrTake
  repeat' first
    | with_reducible assumption
    | with_reducible intro _
    | with_reducible apply inv_ite
    | split
    | (dsimp only; split)
    | refine inv_fst (by with_reducible assumption) ?_
    | refine inv_snd (by with_reducible assumption) ?_
    | with_reducible apply Inv.mk_plain
    | (dsimp only; with_reducible apply Inv.mk_plain)

theorem hmTake_inv {q : List Instr} : ∀ s x1, Inv q s → Inv q (hmTake s x1) := by
  intro s x1 h
  unfold hmTake
  repeat' first
    | with_reducible assumption
    | with_reducible intro _
    | with_reducible apply inv_ite
    | split
    | (dsimp only; split)
    | refine inv_fst (by with_reducible assumption) ?_
    | refine inv_snd (by with_reducible assumption) ?_
    | with_reducible apply Inv.mk_plain
    | (dsimp only; with_reducible apply Inv.mk_plain)

theorem dbgTake_inv {q : List Instr} : ∀ s x1, Inv q s → Inv q (dbgTake s x1) := by
  intro s x1 h
  unfold dbgTake
  repeat' first
    | with_reducible assumption
    | with_reducible intro _
    | with_reducible apply inv_ite
    | split
    | (dsimp only; split)
    | refine inv_fst (by with_reducible assumption) ?_
    | refine inv_snd (by with_reducible assumption) ?_
    | with_reducible apply Inv.mk_plain
    | (dsimp only; with_reducible apply Inv.mk_plain)

theorem portTake_inv {q : List Instr} : ∀ s x1, Inv q s → Inv q (portTake s x1) := by
  intro s x1 h
  unfold portTake
  repeat' first
    | with_reducible assumption
    | with_reducible intro _
    | with_reducible apply updPath_inv
    | with_reducible apply setCtl_inv
    | with_reducible apply inv_ite
    | split
    | (dsimp only; split)
    | refine inv_fst (by with_reducible assumption) ?_
    | refine inv_snd (by with_reducible assumption) ?_
    | with_reducible apply Inv.mk_plain
    | (dsimp only; with_reducible apply Inv.mk_plain)

theorem ltrTake_inv {q : List Instr} : ∀ s x1, Inv q s → Inv q (ltrTake s x1) := by
  intro s x1 h
  unfold ltrTake
  repeat' first
    | with_reducible assumption
    | with_reducible intro _
    | with_reducible apply setLighter_inv
    | with_reducible apply inv_ite
    | split
    | (dsimp only; split)
    | refine inv_fst (by with_reducible assumption) ?_
    | refine inv_snd (by with_reducible assumption) ?_
    | with_reducible apply Inv.mk_plain
    | (dsimp only; with_reducible apply Inv.mk_plain)

theorem pclTake_inv {q : List Instr} : ∀ s x1, Inv q s → Inv q (pclTake s x1) := by
  intro s x1 h
  unfold pclTake
  repeat' first
    | with_reducible assumption
    | with_reducible intro _
    | with_reducible apply setChk_inv
    | with_reducible apply updPilot_inv
    | with_reducible apply inv_ite
    | split
    | (dsimp only; split)
    | refine inv_fst (by with_reducible assumption) ?_
    | refine inv_snd (by with_reducible assumption) ?_
    | with_reducible apply Inv.mk_plain
    | (dsimp only; with_reducible apply Inv.mk_plain)

theorem regTake32_inv {q : List Instr} : ∀ s x1, Inv q s → Inv q (regTake32 s x1) := by
  intro s x1 h
  unfold regTake32
  repeat' first
    | with_reducible assumption
    | with_reducible intro _
    | with_reducible apply blkTake_inv
    | with_reducible apply hbrTake_inv
    | with_reducible apply tideTake_inv
    | with_reducible apply evcTake_inv
    | with_reducible apply hmTake_inv
    | with_reducible apply dbgTake_inv
    | with_reducible apply portTake_inv
    | with_reducible apply ltrTake_inv
    | with_reducible apply pclTake_inv
    | with_reducible apply inv_ite
    | split
    | (dsimp only; split)
    | refine inv_fst (by with_reducible assumption) ?_
    | refine inv_snd (by with_reducible assumption) ?_

theorem regTake64_inv {q : List Instr} : ∀ s x1 x2, Inv q s → Inv q (regTake64 s x1 x2) := by
  intro s x1 x2 h
  unfold regTake64
  repeat' first
    | with_reducible assumption
    | with_reducible intro _
    | with_reducible apply fstatRemove_inv
    | with_reducible apply setBerth_inv
    | with_reducible apply inv_ite
    | split
    | (dsimp only; split)
    | refine inv_fst (by with_reducible assumption) ?_
    | refine inv_snd (by with_reducible assumption) ?_

theorem winTake_inv {q : List Instr} : ∀ s x1 x2, Inv q s → Inv q (winTake s x1 x2) := by
  intro s x1 x2 h
  unfold winTake
  repeat' first
    | with_reducible assumption
    | with_reducible intro _
    | with_reducible apply regTake64_inv
    | with_reducible apply regTake32_inv
    | with_reducible apply inv_ite
    | split
    | (dsimp only; split)
    | refine inv_fst (by with_reducible assumption) ?_
    | refine inv_snd (by with_reducible assumption) ?_

end Sys2Proof.Machine
end

