-- ==== Sys2Proof/Laws/InvDebug.lean ====
section
/-! SUPPORT. Laws/InvDebug.lean: every function of Machine/Debug.lean keeps the invariant of a sound state. -/

namespace Sys2Proof.Machine

theorem accEnd_inv {q : List Instr} : ∀ s x1, Inv q s → Inv q (accEnd s x1) := by
  intro s x1 h
  unfold accEnd
  repeat' first
    | with_reducible assumption
    | with_reducible intro _
    | with_reducible apply inv_ite
    | split
    | (dsimp only; split)
    | refine inv_fst (by with_reducible assumption) ?_
    | refine inv_snd (by with_reducible assumption) ?_
    | with_reducible apply Inv.mk_plain
    | (dsimp only; with_reducible apply Inv.mk_plain)

theorem accData_inv {q : List Instr} : ∀ s x1, Inv q s → Inv q (accData s x1) := by
  intro s x1 h
  unfold accData
  repeat' first
    | with_reducible assumption
    | with_reducible intro _
    | with_reducible apply inv_ite
    | split
    | (dsimp only; split)
    | refine inv_fst (by with_reducible assumption) ?_
    | refine inv_snd (by with_reducible assumption) ?_
    | with_reducible apply Inv.mk_plain
    | (dsimp only; with_reducible apply Inv.mk_plain)

theorem accWord_inv {q : List Instr} : ∀ s x1 x2, Inv q s → Inv q (accWord s x1 x2) := by
  intro s x1 x2 h
  unfold accWord
  repeat' first
    | with_reducible assumption
    | with_reducible intro _
    | with_reducible apply inv_ite
    | split
    | (dsimp only; split)
    | refine inv_fst (by with_reducible assumption) ?_
    | refine inv_snd (by with_reducible assumption) ?_
    | with_reducible apply Inv.mk_plain
    | (dsimp only; with_reducible apply Inv.mk_plain)

theorem accWindow_inv {q : List Instr} : ∀ s, Inv q s → Inv q (accWindow s) := by
  intro s h
  unfold accWindow
  repeat' first
    | with_reducible assumption
    | with_reducible intro _
    | with_reducible apply accEnd_inv
    | with_reducible apply winWrite_inv
    | with_reducible apply accData_inv
    | with_reducible apply winTake_inv
    | with_reducible apply inv_ite
    | split
    | (dsimp only; split)
    | refine inv_fst (by with_reducible assumption) ?_
    | refine inv_snd (by with_reducible assumption) ?_

theorem accCellar_inv {q : List Instr} : ∀ s, Inv q s → Inv q (accCellar s) := by
  intro s h
  unfold accCellar
  repeat' first
    | with_reducible assumption
    | with_reducible intro _
    | with_reducible apply accEnd_inv
    | with_reducible apply accWord_inv
    | with_reducible apply inv_ite
    | split
    | (dsimp only; split)
    | refine inv_fst (by with_reducible assumption) ?_
    | refine inv_snd (by with_reducible assumption) ?_
    | with_reducible apply Inv.mk_plain
    | with_reducible refine Inv.mk_cellar ?_ (by first | exact id | exact Table.wf_put _ _ _ _ | exact Table.wf_upd _ _ _ _ | exact Table.wf_mapVals _ _ _ | exact Table.wf_putList _ _ _ _ | exact Table.wf_filter _ _ _ | exact fun h => Table.wf_put _ _ _ _ (Table.wf_put _ _ _ _ h) | exact fun _ => rfl)
    | (dsimp only; with_reducible apply Inv.mk_plain)
    | (dsimp only; with_reducible refine Inv.mk_cellar ?_ (by first | exact id | exact Table.wf_put _ _ _ _ | exact Table.wf_upd _ _ _ _ | exact Table.wf_mapVals _ _ _ | exact Table.wf_putList _ _ _ _ | exact Table.wf_filter _ _ _ | exact fun h => Table.wf_put _ _ _ _ (Table.wf_put _ _ _ _ h) | exact fun _ => rfl))

theorem accCask_inv {q : List Instr} : ∀ s, Inv q s → Inv q (accCask s) := by
  intro s h
  unfold accCask
  repeat' first
    | with_reducible assumption
    | with_reducible intro _
    | with_reducible apply accEnd_inv
    | with_reducible apply accWord_inv
    | with_reducible apply inv_ite
    | split
    | (dsimp only; split)
    | refine inv_fst (by with_reducible assumption) ?_
    | refine inv_snd (by with_reducible assumption) ?_
    | with_reducible apply Inv.mk_plain
    | with_reducible refine Inv.mk_cask ?_ (by first | exact id | exact Table.wf_put _ _ _ _ | exact Table.wf_upd _ _ _ _ | exact Table.wf_mapVals _ _ _ | exact Table.wf_putList _ _ _ _ | exact Table.wf_filter _ _ _ | exact fun h => Table.wf_put _ _ _ _ (Table.wf_put _ _ _ _ h) | exact fun _ => rfl)
    | (dsimp only; with_reducible apply Inv.mk_plain)
    | (dsimp only; with_reducible refine Inv.mk_cask ?_ (by first | exact id | exact Table.wf_put _ _ _ _ | exact Table.wf_upd _ _ _ _ | exact Table.wf_mapVals _ _ _ | exact Table.wf_putList _ _ _ _ | exact Table.wf_filter _ _ _ | exact fun h => Table.wf_put _ _ _ _ (Table.wf_put _ _ _ _ h) | exact fun _ => rfl))

theorem accCode_inv {q : List Instr} : ∀ s, Inv q s → Inv q (accCode s) := by
  intro s h
  unfold accCode
  repeat' first
    | with_reducible assumption
    | with_reducible intro _
    | with_reducible apply accEnd_inv
    | with_reducible apply accData_inv
    | with_reducible apply inv_ite
    | split
    | (dsimp only; split)
    | refine inv_fst (by with_reducible assumption) ?_
    | refine inv_snd (by with_reducible assumption) ?_
    | with_reducible apply Inv.mk_plain
    | with_reducible refine Inv.mk_code ?_ (by first | exact id | exact Table.wf_put _ _ _ _ | exact Table.wf_upd _ _ _ _ | exact Table.wf_mapVals _ _ _ | exact Table.wf_putList _ _ _ _ | exact Table.wf_filter _ _ _ | exact fun h => Table.wf_put _ _ _ _ (Table.wf_put _ _ _ _ h) | exact fun _ => rfl)
    | (dsimp only; with_reducible apply Inv.mk_plain)
    | (dsimp only; with_reducible refine Inv.mk_code ?_ (by first | exact id | exact Table.wf_put _ _ _ _ | exact Table.wf_upd _ _ _ _ | exact Table.wf_mapVals _ _ _ | exact Table.wf_putList _ _ _ _ | exact Table.wf_filter _ _ _ | exact fun h => Table.wf_put _ _ _ _ (Table.wf_put _ _ _ _ h) | exact fun _ => rfl))

theorem accHmmem_inv {q : List Instr} : ∀ s, Inv q s → Inv q (accHmmem s) := by
  intro s h
  unfold accHmmem
  repeat' first
    | with_reducible assumption
    | with_reducible intro _
    | with_reducible apply accEnd_inv
    | with_reducible apply accWord_inv
    | with_reducible apply setHmWord_inv
    | with_reducible apply inv_ite
    | split
    | (dsimp only; split)
    | refine inv_fst (by with_reducible assumption) ?_
    | refine inv_snd (by with_reducible assumption) ?_

theorem dbgCrWrite_inv {q : List Instr} : ∀ s x1 x2 x3 x4, Inv q s → Inv q (dbgCrWrite s x1 x2 x3 x4) := by
  intro s x1 x2 x3 x4 h
  unfold dbgCrWrite
  repeat' first
    | with_reducible assumption
    | with_reducible intro _
    | with_reducible apply updPilot_inv
    | with_reducible apply crWrite_inv
    | with_reducible apply inv_ite
    | split
    | (dsimp only; split)
    | refine inv_fst (by with_reducible assumption) ?_
    | refine inv_snd (by with_reducible assumption) ?_

theorem accPregRead_inv {q : List Instr} : ∀ s x1 x2 x3, Inv q s → Inv q (accPregRead s x1 x2 x3) := by
  intro s x1 x2 x3 h
  unfold accPregRead
  repeat' first
    | with_reducible assumption
    | with_reducible intro _
    | with_reducible apply updPilot_inv
    | with_reducible apply accWord_inv
    | with_reducible apply accEnd_inv
    | with_reducible apply inv_ite
    | split
    | (dsimp only; split)
    | refine inv_fst (by with_reducible assumption) ?_
    | refine inv_snd (by with_reducible assumption) ?_

theorem accPregWrite_inv {q : List Instr} : ∀ s x1 x2 x3, Inv q s → Inv q (accPregWrite s x1 x2 x3) := by
  intro s x1 x2 x3 h
  unfold accPregWrite
  repeat' first
    | with_reducible assumption
    | with_reducible intro _
    | with_reducible apply accEnd_inv
    | with_reducible apply setPilot_inv
    | with_reducible apply dbgCrWrite_inv
    | with_reducible apply inv_ite
    | split
    | (dsimp only; split)
    | refine inv_fst (by with_reducible assumption) ?_
    | refine inv_snd (by with_reducible assumption) ?_

theorem accPreg_inv {q : List Instr} : ∀ s, Inv q s → Inv q (accPreg s) := by
  intro s h
  unfold accPreg
  repeat' first
    | with_reducible assumption
    | with_reducible intro _
    | with_reducible apply accEnd_inv
    | with_reducible apply accPregRead_inv
    | with_reducible apply accPregWrite_inv
    | with_reducible apply inv_ite
    | split
    | (dsimp only; split)
    | refine inv_fst (by with_reducible assumption) ?_
    | refine inv_snd (by with_reducible assumption) ?_

theorem accTrace_inv {q : List Instr} : ∀ s, Inv q s → Inv q (accTrace s) := by
  intro s h
  unfold accTrace
  repeat' first
    | with_reducible assumption
    | with_reducible intro _
    | with_reducible apply accEnd_inv
    | with_reducible apply accData_inv
    | with_reducible apply inv_ite
    | split
    | (dsimp only; split)
    | refine inv_fst (by with_reducible assumption) ?_
    | refine inv_snd (by with_reducible assumption) ?_

theorem debugAccess_inv {q : List Instr} : ∀ s, Inv q s → Inv q (debugAccess s) := by
  intro s h
  unfold debugAccess
  repeat' first
    | with_reducible assumption
    | with_reducible intro _
    | with_reducible apply accEnd_inv
    | with_reducible apply accWindow_inv
    | with_reducible apply accCellar_inv
    | with_reducible apply accCask_inv
    | with_reducible apply accCode_inv
    | with_reducible apply accHmmem_inv
    | with_reducible apply accPreg_inv
    | with_reducible apply accTrace_inv
    | with_reducible apply inv_ite
    | split
    | (dsimp only; split)
    | refine inv_fst (by with_reducible assumption) ?_
    | refine inv_snd (by with_reducible assumption) ?_

theorem acccWrite_inv {q : List Instr} : ∀ s x1, Inv q s → Inv q (acccWrite s x1) := by
  intro s x1 h
  unfold acccWrite
  repeat' first
    | with_reducible assumption
    | with_reducible intro _
    | with_reducible apply accFields_inv
    | with_reducible apply debugAccess_inv
    | with_reducible apply inv_ite
    | split
    | (dsimp only; split)
    | refine inv_fst (by with_reducible assumption) ?_
    | refine inv_snd (by with_reducible assumption) ?_

theorem execDebugPeek_inv {q : List Instr} : ∀ x0 s, Inv q s → OInv q (execDebugPeek x0 s) := by
  intro x0 s h
  unfold execDebugPeek
  repeat' first
    | with_reducible assumption
    | with_reducible intro _
    | with_reducible apply acccWrite_inv
    | with_reducible apply inv_ite
    | with_reducible apply oinv_next
    | with_reducible apply oinv_ite
    | split
    | (dsimp only; split)
    | refine inv_fst (by with_reducible assumption) ?_
    | refine inv_snd (by with_reducible assumption) ?_

theorem execDebugTake_inv {q : List Instr} : ∀ x0 s, Inv q s → OInv q (execDebugTake x0 s) := by
  intro x0 s h
  unfold execDebugTake
  repeat' first
    | with_reducible assumption
    | with_reducible intro _
    | with_reducible apply acccWrite_inv
    | with_reducible apply inv_ite
    | with_reducible apply oinv_next
    | with_reducible apply oinv_ite
    | split
    | (dsimp only; split)
    | refine inv_fst (by with_reducible assumption) ?_
    | refine inv_snd (by with_reducible assumption) ?_

theorem execDebugWrite_inv {q : List Instr} : ∀ x0 s, Inv q s → OInv q (execDebugWrite x0 s) := by
  intro x0 s h
  unfold execDebugWrite
  repeat' first
    | with_reducible assumption
    | with_reducible intro _
    | with_reducible apply acccWrite_inv
    | with_reducible apply inv_ite
    | with_reducible apply oinv_next
    | with_reducible apply oinv_ite
    | split
    | (dsimp only; split)
    | refine inv_fst (by with_reducible assumption) ?_
    | refine inv_snd (by with_reducible assumption) ?_

theorem execExtRequest_inv {q : List Instr} : ∀ x0 x1 x2 s, Inv q s → OInv q (execExtRequest x0 x1 x2 s) := by
  intro x0 x1 x2 s h
  unfold execExtRequest
  repeat' first
    | with_reducible assumption
    | with_reducible intro _
    | with_reducible apply dbgWrite64_inv
    | with_reducible apply ctlWake_inv
    | with_reducible apply inv_ite
    | with_reducible apply oinv_next
    | with_reducible apply oinv_ite
    | split
    | (dsimp only; split)
    | refine inv_fst (by with_reducible assumption) ?_
    | refine inv_snd (by with_reducible assumption) ?_

theorem execRemapWrite_inv {q : List Instr} : ∀ x0 x1 x2 x3 s, Inv q s → OInv q (execRemapWrite x0 x1 x2 x3 s) := by
  intro x0 x1 x2 x3 s h
  unfold execRemapWrite
  repeat' first
    | with_reducible assumption
    | with_reducible intro _
    | with_reducible apply ctlWake_inv
    | with_reducible apply dbgWrite_inv
    | with_reducible apply inv_ite
    | with_reducible apply oinv_next
    | with_reducible apply oinv_ite
    | split
    | (dsimp only; split)
    | refine inv_fst (by with_reducible assumption) ?_
    | refine inv_snd (by with_reducible assumption) ?_

theorem execSyncPacket_inv {q : List Instr} : ∀ s, Inv q s → OInv q (execSyncPacket s) := by
  intro s h
  unfold execSyncPacket
  repeat' first
    | with_reducible assumption
    | with_reducible intro _
    | with_reducible apply packet_inv
    | with_reducible apply inv_ite
    | with_reducible apply oinv_next
    | with_reducible apply oinv_ite
    | split
    | (dsimp only; split)
    | refine inv_fst (by with_reducible assumption) ?_
    | refine inv_snd (by with_reducible assumption) ?_

theorem tapScan_inv {q : List Instr} : ∀ s x1 x2, Inv q s → Inv q (tapScan s x1 x2) := by
  intro s x1 x2 h
  unfold tapScan
  repeat' first
    | with_reducible assumption
    | with_reducible intro _
    | with_reducible apply emit_inv
    | with_reducible apply inv_ite
    | split
    | (dsimp only; split)
    | refine inv_fst (by with_reducible assumption) ?_
    | refine inv_snd (by with_reducible assumption) ?_
    | with_reducible apply Inv.mk_plain
    | (dsimp only; with_reducible apply Inv.mk_plain)

theorem execIdcode_inv {q : List Instr} : ∀ s, Inv q s → OInv q (execIdcode s) := by
  intro s h
  unfold execIdcode
  repeat' first
    | with_reducible assumption
    | with_reducible intro _
    | with_reducible apply tapScan_inv
    | with_reducible apply inv_ite
    | with_reducible apply oinv_next
    | with_reducible apply oinv_ite
    | split
    | (dsimp only; split)
    | refine inv_fst (by with_reducible assumption) ?_
    | refine inv_snd (by with_reducible assumption) ?_

theorem execDaddr_inv {q : List Instr} : ∀ x0 s, Inv q s → OInv q (execDaddr x0 s) := by
  intro x0 s h
  unfold execDaddr
  repeat' first
    | with_reducible assumption
    | with_reducible intro _
    | with_reducible apply tapScan_inv
    | with_reducible apply inv_ite
    | with_reducible apply oinv_next
    | with_reducible apply oinv_ite
    | split
    | (dsimp only; split)
    | refine inv_fst (by with_reducible assumption) ?_
    | refine inv_snd (by with_reducible assumption) ?_
    | with_reducible apply Inv.mk_plain
    | (dsimp only; with_reducible apply Inv.mk_plain)

theorem execDctrl_inv {q : List Instr} : ∀ x0 s, Inv q s → OInv q (execDctrl x0 s) := by
  intro x0 s h
  unfold execDctrl
  repeat' first
    | with_reducible assumption
    | with_reducible intro _
    | with_reducible apply tapScan_inv
    | with_reducible apply acccWrite_inv
    | with_reducible apply inv_ite
    | with_reducible apply oinv_next
    | with_reducible apply oinv_ite
    | split
    | (dsimp only; split)
    | refine inv_fst (by with_reducible assumption) ?_
    | refine inv_snd (by with_reducible assumption) ?_

theorem execDdata_inv {q : List Instr} : ∀ x0 s, Inv q s → OInv q (execDdata x0 s) := by
  intro x0 s h
  unfold execDdata
  repeat' first
    | with_reducible assumption
    | with_reducible intro _
    | with_reducible apply tapScan_inv
    | with_reducible apply inv_ite
    | with_reducible apply oinv_next
    | with_reducible apply oinv_ite
    | split
    | (dsimp only; split)
    | refine inv_fst (by with_reducible assumption) ?_
    | refine inv_snd (by with_reducible assumption) ?_
    | with_reducible apply Inv.mk_plain
    | (dsimp only; with_reducible apply Inv.mk_plain)

theorem execBypass_inv {q : List Instr} : ∀ s, Inv q s → OInv q (execBypass s) := by
  intro s h
  unfold execBypass
  repeat' first
    | with_reducible assumption
    | with_reducible intro _
    | with_reducible apply tapScan_inv
    | with_reducible apply inv_ite
    | with_reducible apply oinv_next
    | with_reducible apply oinv_ite
    | split
    | (dsimp only; split)
    | refine inv_fst (by with_reducible assumption) ?_
    | refine inv_snd (by with_reducible assumption) ?_

theorem execTapReset_inv {q : List Instr} : ∀ s, Inv q s → OInv q (execTapReset s) := by
  intro s h
  unfold execTapReset
  repeat' first
    | with_reducible assumption
    | with_reducible intro _
    | with_reducible apply inv_ite
    | with_reducible apply oinv_next
    | with_reducible apply oinv_ite
    | split
    | (dsimp only; split)
    | refine inv_fst (by with_reducible assumption) ?_
    | refine inv_snd (by with_reducible assumption) ?_
    | with_reducible apply Inv.mk_plain
    | (dsimp only; with_reducible apply Inv.mk_plain)

end Sys2Proof.Machine
end

