-- ==== Sys2Proof/Laws/InvRegs.lean ====
section
/-! SUPPORT. Laws/InvRegs.lean: every function of Machine/Regs.lean keeps the invariant of a sound state. -/

namespace Sys2Proof.Machine

theorem ringAccess_inv {q : List Instr} : ∀ x0 x1 x2 x3 s, Inv q s → Inv q (ringAccess x0 x1 x2 x3 s) := by
  intro x0 x1 x2 x3 s h
  unfold ringAccess
  repeat' first
    | with_reducible assumption
    | with_reducible intro _
    | with_reducible apply ctlWake_inv
    | with_reducible apply ringRegWrite_inv
    | with_reducible apply inv_ite
    | split
    | (dsimp only; split)
    | refine inv_fst (by with_reducible assumption) ?_
    | refine inv_snd (by with_reducible assumption) ?_

theorem execRingEnable_inv {q : List Instr} : ∀ x0 x1 x2 s, Inv q s → OInv q (execRingEnable x0 x1 x2 s) := by
  intro x0 x1 x2 s h
  unfold execRingEnable
  repeat' first
    | with_reducible assumption
    | with_reducible intro _
    | with_reducible apply ringAccess_inv
    | with_reducible apply inv_ite
    | with_reducible apply oinv_next
    | with_reducible apply oinv_ite
    | split
    | (dsimp only; split)
    | refine inv_fst (by with_reducible assumption) ?_
    | refine inv_snd (by with_reducible assumption) ?_

theorem execRingDisable_inv {q : List Instr} : ∀ x0 x1 x2 s, Inv q s → OInv q (execRingDisable x0 x1 x2 s) := by
  intro x0 x1 x2 s h
  unfold execRingDisable
  repeat' first
    | with_reducible assumption
    | with_reducible intro _
    | with_reducible apply ringAccess_inv
    | with_reducible apply inv_ite
    | with_reducible apply oinv_next
    | with_reducible apply oinv_ite
    | split
    | (dsimp only; split)
    | refine inv_fst (by with_reducible assumption) ?_
    | refine inv_snd (by with_reducible assumption) ?_

theorem execLtolWrite_inv {q : List Instr} : ∀ x0 x1 x2 s, Inv q s → OInv q (execLtolWrite x0 x1 x2 s) := by
  intro x0 x1 x2 s h
  unfold execLtolWrite
  repeat' first
    | with_reducible assumption
    | with_reducible intro _
    | with_reducible apply ringAccess_inv
    | with_reducible apply inv_ite
    | with_reducible apply oinv_next
    | with_reducible apply oinv_ite
    | split
    | (dsimp only; split)
    | refine inv_fst (by with_reducible assumption) ?_
    | refine inv_snd (by with_reducible assumption) ?_

theorem winWake_inv {q : List Instr} : ∀ s x1 x2, Inv q s → Inv q (winWake s x1 x2) := by
  intro s x1 x2 h
  unfold winWake
  repeat' first
    | with_reducible assumption
    | with_reducible intro _
    | with_reducible apply ctlWake_inv
    | with_reducible apply inv_ite
    | split
    | (dsimp only; split)
    | refine inv_fst (by with_reducible assumption) ?_
    | refine inv_snd (by with_reducible assumption) ?_

theorem ctlAnswer_inv {q : List Instr} : ∀ s x1 x2 x3, Inv q s → Inv q (ctlAnswer s x1 x2 x3) := by
  intro s x1 x2 x3 h
  unfold ctlAnswer
  repeat' first
    | with_reducible assumption
    | with_reducible intro _
    | with_reducible apply inv_ite
    | split
    | (dsimp only; split)
    | refine inv_fst (by with_reducible assumption) ?_
    | refine inv_snd (by with_reducible assumption) ?_
    | with_reducible apply Inv.mk_plain
    | (dsimp only; with_reducible apply Inv.mk_plain)

theorem winStore_inv {q : List Instr} : ∀ s x1 x2 x3 x4, Inv q s → Inv q (winStore s x1 x2 x3 x4) := by
  intro s x1 x2 x3 x4 h
  unfold winStore
  repeat' first
    | with_reducible assumption
    | with_reducible intro _
    | with_reducible apply acccWrite_inv
    | with_reducible apply winWrite_inv
    | with_reducible apply inv_ite
    | split
    | (dsimp only; split)
    | refine inv_fst (by with_reducible assumption) ?_
    | refine inv_snd (by with_reducible assumption) ?_

theorem execRegisterWrite_inv {q : List Instr} : ∀ x0 x1 x2 x3 s, Inv q s → OInv q (execRegisterWrite x0 x1 x2 x3 s) := by
  intro x0 x1 x2 x3 s h
  unfold execRegisterWrite
  repeat' first
    | with_reducible assumption
    | with_reducible intro _
    | with_reducible apply winWake_inv
    | with_reducible apply ctlAnswer_inv
    | with_reducible apply winStore_inv
    | with_reducible apply inv_ite
    | with_reducible apply oinv_next
    | with_reducible apply oinv_ite
    | split
    | (dsimp only; split)
    | refine inv_fst (by with_reducible assumption) ?_
    | refine inv_snd (by with_reducible assumption) ?_

theorem execRegisterTake_inv {q : List Instr} : ∀ x0 x1 x2 s, Inv q s → OInv q (execRegisterTake x0 x1 x2 s) := by
  intro x0 x1 x2 s h
  unfold execRegisterTake
  repeat' first
    | with_reducible assumption
    | with_reducible intro _
    | with_reducible apply winWake_inv
    | with_reducible apply ctlAnswer_inv
    | with_reducible apply winTake_inv
    | with_reducible apply inv_ite
    | with_reducible apply oinv_next
    | with_reducible apply oinv_ite
    | split
    | (dsimp only; split)
    | refine inv_fst (by with_reducible assumption) ?_
    | refine inv_snd (by with_reducible assumption) ?_

theorem execFstatTake_inv {q : List Instr} : ∀ x0 x1 x2 s, Inv q s → OInv q (execFstatTake x0 x1 x2 s) := by
  intro x0 x1 x2 s h
  unfold execFstatTake
  repeat' first
    | with_reducible assumption
    | with_reducible intro _
    | with_reducible apply ctlWake_inv
    | with_reducible apply ctlAnswer_inv
    | with_reducible apply fstatRemove_inv
    | with_reducible apply inv_ite
    | with_reducible apply oinv_next
    | with_reducible apply oinv_ite
    | split
    | (dsimp only; split)
    | refine inv_fst (by with_reducible assumption) ?_
    | refine inv_snd (by with_reducible assumption) ?_

theorem execFtxGo_inv {q : List Instr} : ∀ x0 x1 x2 s, Inv q s → OInv q (execFtxGo x0 x1 x2 s) := by
  intro x0 x1 x2 s h
  unfold execFtxGo
  repeat' first
    | with_reducible assumption
    | with_reducible intro _
    | with_reducible apply ctlAnswer_inv
    | with_reducible apply ftxWrite_inv
    | with_reducible apply ctlWake_inv
    | with_reducible apply inv_ite
    | with_reducible apply oinv_next
    | with_reducible apply oinv_ite
    | split
    | (dsimp only; split)
    | refine inv_fst (by with_reducible assumption) ?_
    | refine inv_snd (by with_reducible assumption) ?_

theorem execQuayCreditReturn_inv {q : List Instr} : ∀ x0 x1 x2 s, Inv q s → OInv q (execQuayCreditReturn x0 x1 x2 s) := by
  intro x0 x1 x2 s h
  unfold execQuayCreditReturn
  repeat' first
    | with_reducible assumption
    | with_reducible intro _
    | with_reducible apply pumpQuay_inv
    | with_reducible apply inv_ite
    | with_reducible apply oinv_next
    | with_reducible apply oinv_ite
    | split
    | (dsimp only; split)
    | refine inv_fst (by with_reducible assumption) ?_
    | refine inv_snd (by with_reducible assumption) ?_
    | with_reducible apply Inv.mk_plain
    | with_reducible refine Inv.mk_qtx ?_ (by first | exact id | exact Table.wf_put _ _ _ _ | exact Table.wf_upd _ _ _ _ | exact Table.wf_mapVals _ _ _ | exact Table.wf_putList _ _ _ _ | exact Table.wf_filter _ _ _ | exact fun h => Table.wf_put _ _ _ _ (Table.wf_put _ _ _ _ h) | exact fun _ => rfl)
    | (dsimp only; with_reducible apply Inv.mk_plain)
    | (dsimp only; with_reducible refine Inv.mk_qtx ?_ (by first | exact id | exact Table.wf_put _ _ _ _ | exact Table.wf_upd _ _ _ _ | exact Table.wf_mapVals _ _ _ | exact Table.wf_putList _ _ _ _ | exact Table.wf_filter _ _ _ | exact fun h => Table.wf_put _ _ _ _ (Table.wf_put _ _ _ _ h) | exact fun _ => rfl))

end Sys2Proof.Machine
end

