-- ==== Sys2Proof/Laws/InvPilotMem.lean ====
section
/-! SUPPORT. Laws/InvPilotMem.lean: every function of Machine/PilotMem.lean keeps the invariant of a sound state. -/

namespace Sys2Proof.Machine

/-- The invariant of how an access ends. -/
def Acc.Inv (q : List Instr) : Acc → Prop
  | .ok s _ => Machine.Inv q s
  | _ => True

/-- The invariant of how a run of loads ends. -/
def Accs.Inv (q : List Instr) : Accs → Prop
  | .ok s _ => Machine.Inv q s
  | .bad r => r.Inv q

theorem Acc_answer_inv {q : List Instr} (r : Acc) (s : State) (p : Nat) (pc : BitVec 18) (k : State → TWord → State)
    (hr : r.Inv q) (h : Machine.Inv q s) (hk : ∀ s w, Machine.Inv q s → Machine.Inv q (k s w)) :
    PRes.Inv q (r.answer s p pc k) := by
  cases r with
  | ok s' w => exact hk _ _ hr
  | trap c tv => exact h
  | hit c => exact watch_inv _ _ _ _ h

theorem guarded_inv {q : List Instr} (s : State) (p : Nat) (pc : BitVec 18) (c : Access) (k : State → Acc)
    (h : Machine.Inv q s) (hk : ∀ s, Machine.Inv q s → (k s).Inv q) : (guarded s p pc c k).Inv q := by
  unfold guarded
  have hw := watch_inv s p pc c h
  split
  · trivial
  · rename_i t e
    exact hk _ (inv_fst e hw)

theorem loadMem_inv {q : List Instr} (s : State) (p : Nat) (pc : BitVec 18) (a : W64) (n : Nat) (tags : BitVec 4 → Bool)
    (h : Machine.Inv q s) : (loadMem s p pc a n tags).Inv q := by
  unfold loadMem
  dsimp only
  repeat' first
    | trivial
    | split
    | exact guarded_inv _ _ _ _ _ h (fun _ ht => ht)

theorem putWord_inv {q : List Instr} (s : State) (p : Nat) (a : W64) (w : TWord) (h : Machine.Inv q s) :
    Machine.Inv q (putWord s p a w) := by
  unfold putWord
  exact pendStore_inv _ _ _ h

theorem storeMem_inv {q : List Instr} (s : State) (p : Nat) (pc : BitVec 18) (a : W64) (n : Nat) (w : TWord)
    (num : BitVec 2) (h : Machine.Inv q s) : (storeMem s p pc a n w num).Inv q := by
  unfold storeMem
  dsimp only
  split
  · trivial
  · split
    · trivial
    · split
      · trivial
      · split
        · exact guarded_inv _ _ _ _ _ h (fun _ ht => winStore_inv _ _ _ _ _ ht)
        · split
          · trivial
          · exact guarded_inv _ _ _ _ _ h (fun _ ht => putWord_inv _ _ _ _ ht)

theorem storeAll_inv {q : List Instr} (p : Nat) (pc : BitVec 18) (a : W64) (tags : BitVec 4 → Bool) :
    ∀ (ws : List (Nat × TWord)) (s : State), Machine.Inv q s → (storeAll p pc a tags s ws).Inv q
  | [], _, h => h
  | (k, w) :: ws, s, h => by
    unfold storeAll
    split
    · trivial
    · have h1 := storeMem_inv s p pc (addrAdd a (BitVec.ofNat 64 (8 * k))) 8 w 3 h
      split
      · rename_i e
        rw [e] at h1
        exact storeAll_inv p pc a tags ws _ h1
      · exact h1

theorem loadAll_inv {q : List Instr} (p : Nat) (pc : BitVec 18) (step : W64) (tags : BitVec 4 → Bool) :
    ∀ (n : Nat) (s : State) (a : W64), Machine.Inv q s → (loadAll p pc step tags n s a).Inv q
  | 0, _, _, h => h
  | n + 1, s, a, h => by
    unfold loadAll
    have h1 := loadMem_inv s p pc a 8 tags h
    split
    · rename_i e
      rw [e] at h1
      have h2 := loadAll_inv p pc step tags n _ (addrAdd a step) h1
      split
      · rename_i e2
        rw [e2] at h2
        exact h2
      · exact h2
    · exact h1

theorem quiet_inv {q : List Instr} (s : State) (p : Nat) (h : Machine.Inv q s) : Machine.Inv q (quiet s p) :=
  updPilot_inv _ _ _ h

theorem storeRun_inv {q : List Instr} (p : Nat) (pc : BitVec 18) (a : W64) (tags : BitVec 4 → Bool) (s : State)
    (ws : List (Nat × TWord)) (h : Machine.Inv q s) : (storeRun p pc a tags s ws).Inv q := by
  unfold storeRun
  split
  · trivial
  · exact storeAll_inv _ _ _ _ _ _ h

theorem loadRun_inv {q : List Instr} (p : Nat) (pc : BitVec 18) (step : W64) (tags : BitVec 4 → Bool) (n : Nat) (s : State)
    (a : W64) (h : Machine.Inv q s) : (loadRun p pc step tags n s a).Inv q := by
  unfold loadRun
  split
  · trivial
  · exact loadAll_inv _ _ _ _ _ _ _ h

theorem accs_ok {q : List Instr} {r : Accs} {s : State} {ws : List TWord} (e : r = .ok s ws) (h : r.Inv q) :
    Machine.Inv q s := by subst e; exact h

theorem accs_bad {q : List Instr} {r : Accs} {b : Acc} (e : r = .bad b) (h : r.Inv q) : b.Inv q := by subst e; exact h

theorem spillChecks_inv {q : List Instr} (f : RRR) (fn : BitVec 7) (k : Nat) (x : Pilot) (s : State) (a : W64) (body : PRes)
    (h : Machine.Inv q s) (hb : body.Inv q) : PRes.Inv q (spillChecks f fn k x s a body) := by
  unfold spillChecks
  repeat' first
    | with_reducible exact hb
    | exact h
    | split

theorem loadTo_inv {q : List Instr} : ∀ s x1 x2 x3 x4 x5, Inv q s → PRes.Inv q (loadTo s x1 x2 x3 x4 x5) := by
  intro s x1 x2 x3 x4 x5 h
  unfold loadTo
  repeat' first
    | with_reducible assumption
    | with_reducible intro _
    | with_reducible apply Acc_answer_inv
    | with_reducible apply updPilot_inv
    | with_reducible apply Acc_answer_inv
    | with_reducible apply loadMem_inv
    | with_reducible apply storeMem_inv
    | with_reducible apply storeRun_inv
    | with_reducible apply loadRun_inv
    | refine accs_ok (by with_reducible assumption) ?_
    | refine accs_bad (by with_reducible assumption) ?_
    | with_reducible apply inv_ite
    | with_reducible apply pinv_ite
    | with_reducible apply pinv_done
    | with_reducible apply pinv_trap
    | with_reducible apply pinv_brk
    | with_reducible apply pinv_stop
    | split
    | (dsimp only; split)
    | refine inv_fst (by with_reducible assumption) ?_
    | refine inv_snd (by with_reducible assumption) ?_

theorem ldBody_inv {q : List Instr} : ∀ x0 x1 x2 x3 x4 x5 s, Inv q s → PRes.Inv q (ldBody x0 x1 x2 x3 x4 x5 s) := by
  intro x0 x1 x2 x3 x4 x5 s h
  unfold ldBody
  repeat' first
    | with_reducible assumption
    | with_reducible intro _
    | with_reducible apply loadTo_inv
    | with_reducible apply inv_ite
    | with_reducible apply pinv_ite
    | with_reducible apply pinv_done
    | with_reducible apply pinv_trap
    | with_reducible apply pinv_brk
    | with_reducible apply pinv_stop
    | split
    | (dsimp only; split)
    | refine inv_fst (by with_reducible assumption) ?_
    | refine inv_snd (by with_reducible assumption) ?_
    | refine pinv_of_done (by with_reducible assumption) ?_
    | refine pinv_of_brk (by with_reducible assumption) ?_
    | refine pinv_of_trap (by with_reducible assumption) ?_
    | refine pinv_of_stop (by with_reducible assumption) ?_

theorem stBody_inv {q : List Instr} : ∀ x0 x1 x2 x3 x4 x5 s, Inv q s → PRes.Inv q (stBody x0 x1 x2 x3 x4 x5 s) := by
  intro x0 x1 x2 x3 x4 x5 s h
  unfold stBody
  repeat' first
    | with_reducible assumption
    | with_reducible intro _
    | with_reducible apply Acc_answer_inv
    | with_reducible apply Acc_answer_inv
    | with_reducible apply loadMem_inv
    | with_reducible apply storeMem_inv
    | with_reducible apply storeRun_inv
    | with_reducible apply loadRun_inv
    | refine accs_ok (by with_reducible assumption) ?_
    | refine accs_bad (by with_reducible assumption) ?_
    | with_reducible apply inv_ite
    | with_reducible apply pinv_ite
    | with_reducible apply pinv_done
    | with_reducible apply pinv_trap
    | with_reducible apply pinv_brk
    | with_reducible apply pinv_stop
    | split
    | (dsimp only; split)
    | refine inv_fst (by with_reducible assumption) ?_
    | refine inv_snd (by with_reducible assumption) ?_
    | refine pinv_of_done (by with_reducible assumption) ?_
    | refine pinv_of_brk (by with_reducible assumption) ?_
    | refine pinv_of_trap (by with_reducible assumption) ?_
    | refine pinv_of_stop (by with_reducible assumption) ?_

theorem ldxBody_inv {q : List Instr} : ∀ x0 x1 x2 x3 s, Inv q s → PRes.Inv q (ldxBody x0 x1 x2 x3 s) := by
  intro x0 x1 x2 x3 s h
  unfold ldxBody
  repeat' first
    | with_reducible assumption
    | with_reducible intro _
    | with_reducible apply loadTo_inv
    | with_reducible apply inv_ite
    | with_reducible apply pinv_ite
    | with_reducible apply pinv_done
    | with_reducible apply pinv_trap
    | with_reducible apply pinv_brk
    | with_reducible apply pinv_stop
    | split
    | (dsimp only; split)
    | refine inv_fst (by with_reducible assumption) ?_
    | refine inv_snd (by with_reducible assumption) ?_
    | refine pinv_of_done (by with_reducible assumption) ?_
    | refine pinv_of_brk (by with_reducible assumption) ?_
    | refine pinv_of_trap (by with_reducible assumption) ?_
    | refine pinv_of_stop (by with_reducible assumption) ?_

theorem stxBody_inv {q : List Instr} : ∀ x0 x1 x2 x3 s, Inv q s → PRes.Inv q (stxBody x0 x1 x2 x3 s) := by
  intro x0 x1 x2 x3 s h
  unfold stxBody
  repeat' first
    | with_reducible assumption
    | with_reducible intro _
    | with_reducible apply Acc_answer_inv
    | with_reducible apply Acc_answer_inv
    | with_reducible apply loadMem_inv
    | with_reducible apply storeMem_inv
    | with_reducible apply storeRun_inv
    | with_reducible apply loadRun_inv
    | refine accs_ok (by with_reducible assumption) ?_
    | refine accs_bad (by with_reducible assumption) ?_
    | with_reducible apply inv_ite
    | with_reducible apply pinv_ite
    | with_reducible apply pinv_done
    | with_reducible apply pinv_trap
    | with_reducible apply pinv_brk
    | with_reducible apply pinv_stop
    | split
    | (dsimp only; split)
    | refine inv_fst (by with_reducible assumption) ?_
    | refine inv_snd (by with_reducible assumption) ?_
    | refine pinv_of_done (by with_reducible assumption) ?_
    | refine pinv_of_brk (by with_reducible assumption) ?_
    | refine pinv_of_trap (by with_reducible assumption) ?_
    | refine pinv_of_stop (by with_reducible assumption) ?_

theorem execLd_inv {q : List Instr} : ∀ x0 s, Inv q s → OInv q (execLd x0 s) := by
  intro x0 s h
  unfold execLd
  repeat' first
    | with_reducible assumption
    | with_reducible intro _
    | with_reducible apply rri_inv
    | with_reducible apply ldBody_inv
    | with_reducible apply inv_ite
    | with_reducible apply oinv_next
    | with_reducible apply oinv_ite
    | split
    | (dsimp only; split)
    | refine inv_fst (by with_reducible assumption) ?_
    | refine inv_snd (by with_reducible assumption) ?_

theorem execSt_inv {q : List Instr} : ∀ x0 s, Inv q s → OInv q (execSt x0 s) := by
  intro x0 s h
  unfold execSt
  repeat' first
    | with_reducible assumption
    | with_reducible intro _
    | with_reducible apply rri_inv
    | with_reducible apply stBody_inv
    | with_reducible apply inv_ite
    | with_reducible apply oinv_next
    | with_reducible apply oinv_ite
    | split
    | (dsimp only; split)
    | refine inv_fst (by with_reducible assumption) ?_
    | refine inv_snd (by with_reducible assumption) ?_

theorem execLea_inv {q : List Instr} : ∀ x0 s, Inv q s → OInv q (execLea x0 s) := by
  intro x0 s h
  unfold execLea
  repeat' first
    | with_reducible assumption
    | with_reducible intro _
    | with_reducible apply rri_inv
    | with_reducible apply updPilot_inv
    | with_reducible apply inv_ite
    | with_reducible apply pinv_ite
    | with_reducible apply pinv_done
    | with_reducible apply pinv_trap
    | with_reducible apply pinv_brk
    | with_reducible apply pinv_stop
    | with_reducible apply oinv_next
    | with_reducible apply oinv_ite
    | split
    | (dsimp only; split)
    | refine inv_fst (by with_reducible assumption) ?_
    | refine inv_snd (by with_reducible assumption) ?_
    | refine pinv_of_done (by with_reducible assumption) ?_
    | refine pinv_of_brk (by with_reducible assumption) ?_
    | refine pinv_of_trap (by with_reducible assumption) ?_
    | refine pinv_of_stop (by with_reducible assumption) ?_

theorem execLdx_inv {q : List Instr} : ∀ x0 s, Inv q s → OInv q (execLdx x0 s) := by
  intro x0 s h
  unfold execLdx
  repeat' first
    | with_reducible assumption
    | with_reducible intro _
    | with_reducible apply rrr_inv
    | with_reducible apply ldxBody_inv
    | with_reducible apply inv_ite
    | with_reducible apply oinv_next
    | with_reducible apply oinv_ite
    | split
    | (dsimp only; split)
    | refine inv_fst (by with_reducible assumption) ?_
    | refine inv_snd (by with_reducible assumption) ?_

theorem execStx_inv {q : List Instr} : ∀ x0 s, Inv q s → OInv q (execStx x0 s) := by
  intro x0 s h
  unfold execStx
  repeat' first
    | with_reducible assumption
    | with_reducible intro _
    | with_reducible apply rrr_inv
    | with_reducible apply stxBody_inv
    | with_reducible apply inv_ite
    | with_reducible apply oinv_next
    | with_reducible apply oinv_ite
    | split
    | (dsimp only; split)
    | refine inv_fst (by with_reducible assumption) ?_
    | refine inv_snd (by with_reducible assumption) ?_

theorem execLdu8_inv {q : List Instr} : ∀ x0 s, Inv q s → OInv q (execLdu8 x0 s) := by
  intro x0 s h
  unfold execLdu8
  repeat' first
    | with_reducible assumption
    | with_reducible intro _
    | with_reducible apply rrr_inv
    | with_reducible apply ldxBody_inv
    | with_reducible apply inv_ite
    | with_reducible apply oinv_next
    | with_reducible apply oinv_ite
    | split
    | (dsimp only; split)
    | refine inv_fst (by with_reducible assumption) ?_
    | refine inv_snd (by with_reducible assumption) ?_

theorem execLdu16_inv {q : List Instr} : ∀ x0 s, Inv q s → OInv q (execLdu16 x0 s) := by
  intro x0 s h
  unfold execLdu16
  repeat' first
    | with_reducible assumption
    | with_reducible intro _
    | with_reducible apply rrr_inv
    | with_reducible apply ldxBody_inv
    | with_reducible apply inv_ite
    | with_reducible apply oinv_next
    | with_reducible apply oinv_ite
    | split
    | (dsimp only; split)
    | refine inv_fst (by with_reducible assumption) ?_
    | refine inv_snd (by with_reducible assumption) ?_

theorem execLdu32_inv {q : List Instr} : ∀ x0 s, Inv q s → OInv q (execLdu32 x0 s) := by
  intro x0 s h
  unfold execLdu32
  repeat' first
    | with_reducible assumption
    | with_reducible intro _
    | with_reducible apply rrr_inv
    | with_reducible apply ldxBody_inv
    | with_reducible apply inv_ite
    | with_reducible apply oinv_next
    | with_reducible apply oinv_ite
    | split
    | (dsimp only; split)
    | refine inv_fst (by with_reducible assumption) ?_
    | refine inv_snd (by with_reducible assumption) ?_

theorem execSt8_inv {q : List Instr} : ∀ x0 s, Inv q s → OInv q (execSt8 x0 s) := by
  intro x0 s h
  unfold execSt8
  repeat' first
    | with_reducible assumption
    | with_reducible intro _
    | with_reducible apply rrr_inv
    | with_reducible apply stxBody_inv
    | with_reducible apply inv_ite
    | with_reducible apply oinv_next
    | with_reducible apply oinv_ite
    | split
    | (dsimp only; split)
    | refine inv_fst (by with_reducible assumption) ?_
    | refine inv_snd (by with_reducible assumption) ?_

theorem execSt16_inv {q : List Instr} : ∀ x0 s, Inv q s → OInv q (execSt16 x0 s) := by
  intro x0 s h
  unfold execSt16
  repeat' first
    | with_reducible assumption
    | with_reducible intro _
    | with_reducible apply rrr_inv
    | with_reducible apply stxBody_inv
    | with_reducible apply inv_ite
    | with_reducible apply oinv_next
    | with_reducible apply oinv_ite
    | split
    | (dsimp only; split)
    | refine inv_fst (by with_reducible assumption) ?_
    | refine inv_snd (by with_reducible assumption) ?_

theorem execSt32_inv {q : List Instr} : ∀ x0 s, Inv q s → OInv q (execSt32 x0 s) := by
  intro x0 s h
  unfold execSt32
  repeat' first
    | with_reducible assumption
    | with_reducible intro _
    | with_reducible apply rrr_inv
    | with_reducible apply stxBody_inv
    | with_reducible apply inv_ite
    | with_reducible apply oinv_next
    | with_reducible apply oinv_ite
    | split
    | (dsimp only; split)
    | refine inv_fst (by with_reducible assumption) ?_
    | refine inv_snd (by with_reducible assumption) ?_

theorem ldtBody_inv {q : List Instr} : ∀ x0 x1 x2 s, Inv q s → PRes.Inv q (ldtBody x0 x1 x2 s) := by
  intro x0 x1 x2 s h
  unfold ldtBody
  repeat' first
    | with_reducible assumption
    | with_reducible intro _
    | with_reducible apply Acc_answer_inv
    | with_reducible apply updPilot_inv
    | with_reducible apply winTake_inv
    | with_reducible apply Acc_answer_inv
    | with_reducible apply loadMem_inv
    | with_reducible apply storeMem_inv
    | with_reducible apply storeRun_inv
    | with_reducible apply loadRun_inv
    | refine accs_ok (by with_reducible assumption) ?_
    | refine accs_bad (by with_reducible assumption) ?_
    | with_reducible apply inv_ite
    | with_reducible apply pinv_ite
    | with_reducible apply pinv_done
    | with_reducible apply pinv_trap
    | with_reducible apply pinv_brk
    | with_reducible apply pinv_stop
    | split
    | (dsimp only; split)
    | refine inv_fst (by with_reducible assumption) ?_
    | refine inv_snd (by with_reducible assumption) ?_
    | refine pinv_of_done (by with_reducible assumption) ?_
    | refine pinv_of_brk (by with_reducible assumption) ?_
    | refine pinv_of_trap (by with_reducible assumption) ?_
    | refine pinv_of_stop (by with_reducible assumption) ?_

theorem execLdt_inv {q : List Instr} : ∀ x0 s, Inv q s → OInv q (execLdt x0 s) := by
  intro x0 s h
  unfold execLdt
  repeat' first
    | with_reducible assumption
    | with_reducible intro _
    | with_reducible apply rrr_inv
    | with_reducible apply ldtBody_inv
    | with_reducible apply inv_ite
    | with_reducible apply oinv_next
    | with_reducible apply oinv_ite
    | split
    | (dsimp only; split)
    | refine inv_fst (by with_reducible assumption) ?_
    | refine inv_snd (by with_reducible assumption) ?_

theorem execLdl_inv {q : List Instr} : ∀ x0 s, Inv q s → OInv q (execLdl x0 s) := by
  intro x0 s h
  unfold execLdl
  repeat' first
    | with_reducible assumption
    | with_reducible intro _
    | with_reducible apply lform_inv
    | with_reducible apply ldBody_inv
    | with_reducible apply inv_ite
    | with_reducible apply oinv_next
    | with_reducible apply oinv_ite
    | split
    | (dsimp only; split)
    | refine inv_fst (by with_reducible assumption) ?_
    | refine inv_snd (by with_reducible assumption) ?_

theorem execStl_inv {q : List Instr} : ∀ x0 s, Inv q s → OInv q (execStl x0 s) := by
  intro x0 s h
  unfold execStl
  repeat' first
    | with_reducible assumption
    | with_reducible intro _
    | with_reducible apply lform_inv
    | with_reducible apply stBody_inv
    | with_reducible apply inv_ite
    | with_reducible apply oinv_next
    | with_reducible apply oinv_ite
    | split
    | (dsimp only; split)
    | refine inv_fst (by with_reducible assumption) ?_
    | refine inv_snd (by with_reducible assumption) ?_

theorem pushBody_inv {q : List Instr} : ∀ x0 x1 x2 s, Inv q s → PRes.Inv q (pushBody x0 x1 x2 s) := by
  intro x0 x1 x2 s h
  unfold pushBody
  repeat' first
    | with_reducible assumption
    | with_reducible intro _
    | with_reducible apply Acc_answer_inv
    | with_reducible apply updPilot_inv
    | with_reducible apply Acc_answer_inv
    | with_reducible apply loadMem_inv
    | with_reducible apply storeMem_inv
    | with_reducible apply storeRun_inv
    | with_reducible apply loadRun_inv
    | refine accs_ok (by with_reducible assumption) ?_
    | refine accs_bad (by with_reducible assumption) ?_
    | with_reducible apply inv_ite
    | with_reducible apply pinv_ite
    | with_reducible apply pinv_done
    | with_reducible apply pinv_trap
    | with_reducible apply pinv_brk
    | with_reducible apply pinv_stop
    | split
    | (dsimp only; split)
    | refine inv_fst (by with_reducible assumption) ?_
    | refine inv_snd (by with_reducible assumption) ?_
    | refine pinv_of_done (by with_reducible assumption) ?_
    | refine pinv_of_brk (by with_reducible assumption) ?_
    | refine pinv_of_trap (by with_reducible assumption) ?_
    | refine pinv_of_stop (by with_reducible assumption) ?_

theorem execPush_inv {q : List Instr} : ∀ x0 s, Inv q s → OInv q (execPush x0 s) := by
  intro x0 s h
  unfold execPush
  repeat' first
    | with_reducible assumption
    | with_reducible intro _
    | with_reducible apply rrr_inv
    | with_reducible apply pushBody_inv
    | with_reducible apply inv_ite
    | with_reducible apply oinv_next
    | with_reducible apply oinv_ite
    | split
    | (dsimp only; split)
    | refine inv_fst (by with_reducible assumption) ?_
    | refine inv_snd (by with_reducible assumption) ?_

theorem popBody_inv {q : List Instr} : ∀ x0 x1 x2 s, Inv q s → PRes.Inv q (popBody x0 x1 x2 s) := by
  intro x0 x1 x2 s h
  unfold popBody
  repeat' first
    | with_reducible assumption
    | with_reducible intro _
    | with_reducible apply Acc_answer_inv
    | with_reducible apply updPilot_inv
    | with_reducible apply Acc_answer_inv
    | with_reducible apply loadMem_inv
    | with_reducible apply storeMem_inv
    | with_reducible apply storeRun_inv
    | with_reducible apply loadRun_inv
    | refine accs_ok (by with_reducible assumption) ?_
    | refine accs_bad (by with_reducible assumption) ?_
    | with_reducible apply inv_ite
    | with_reducible apply pinv_ite
    | with_reducible apply pinv_done
    | with_reducible apply pinv_trap
    | with_reducible apply pinv_brk
    | with_reducible apply pinv_stop
    | split
    | (dsimp only; split)
    | refine inv_fst (by with_reducible assumption) ?_
    | refine inv_snd (by with_reducible assumption) ?_
    | refine pinv_of_done (by with_reducible assumption) ?_
    | refine pinv_of_brk (by with_reducible assumption) ?_
    | refine pinv_of_trap (by with_reducible assumption) ?_
    | refine pinv_of_stop (by with_reducible assumption) ?_

theorem execPop_inv {q : List Instr} : ∀ x0 s, Inv q s → OInv q (execPop x0 s) := by
  intro x0 s h
  unfold execPop
  repeat' first
    | with_reducible assumption
    | with_reducible intro _
    | with_reducible apply rrr_inv
    | with_reducible apply popBody_inv
    | with_reducible apply inv_ite
    | with_reducible apply oinv_next
    | with_reducible apply oinv_ite
    | split
    | (dsimp only; split)
    | refine inv_fst (by with_reducible assumption) ?_
    | refine inv_snd (by with_reducible assumption) ?_

theorem rsspillBody_inv {q : List Instr} : ∀ x0 x1 x2 s, Inv q s → PRes.Inv q (rsspillBody x0 x1 x2 s) := by
  intro x0 x1 x2 s h
  unfold rsspillBody
  repeat' first
    | with_reducible assumption
    | with_reducible intro _
    | with_reducible apply spillChecks_inv
    | with_reducible apply Acc_answer_inv
    | with_reducible apply updPilot_inv
    | with_reducible apply Acc_answer_inv
    | with_reducible apply loadMem_inv
    | with_reducible apply storeMem_inv
    | with_reducible apply storeRun_inv
    | with_reducible apply loadRun_inv
    | refine accs_ok (by with_reducible assumption) ?_
    | refine accs_bad (by with_reducible assumption) ?_
    | with_reducible apply inv_ite
    | with_reducible apply pinv_ite
    | with_reducible apply pinv_done
    | with_reducible apply pinv_trap
    | with_reducible apply pinv_brk
    | with_reducible apply pinv_stop
    | split
    | (dsimp only; split)
    | refine inv_fst (by with_reducible assumption) ?_
    | refine inv_snd (by with_reducible assumption) ?_
    | refine pinv_of_done (by with_reducible assumption) ?_
    | refine pinv_of_brk (by with_reducible assumption) ?_
    | refine pinv_of_trap (by with_reducible assumption) ?_
    | refine pinv_of_stop (by with_reducible assumption) ?_

theorem execRsspill_inv {q : List Instr} : ∀ x0 s, Inv q s → OInv q (execRsspill x0 s) := by
  intro x0 s h
  unfold execRsspill
  repeat' first
    | with_reducible assumption
    | with_reducible intro _
    | with_reducible apply rrr_inv
    | with_reducible apply rsspillBody_inv
    | with_reducible apply inv_ite
    | with_reducible apply oinv_next
    | with_reducible apply oinv_ite
    | split
    | (dsimp only; split)
    | refine inv_fst (by with_reducible assumption) ?_
    | refine inv_snd (by with_reducible assumption) ?_

theorem rsfillBody_inv {q : List Instr} : ∀ x0 x1 x2 s, Inv q s → PRes.Inv q (rsfillBody x0 x1 x2 s) := by
  intro x0 x1 x2 s h
  unfold rsfillBody
  repeat' first
    | with_reducible assumption
    | with_reducible intro _
    | with_reducible apply spillChecks_inv
    | with_reducible apply Acc_answer_inv
    | with_reducible apply updPilot_inv
    | with_reducible apply Acc_answer_inv
    | with_reducible apply loadMem_inv
    | with_reducible apply storeMem_inv
    | with_reducible apply storeRun_inv
    | with_reducible apply loadRun_inv
    | refine accs_ok (by with_reducible assumption) ?_
    | refine accs_bad (by with_reducible assumption) ?_
    | with_reducible apply inv_ite
    | with_reducible apply pinv_ite
    | with_reducible apply pinv_done
    | with_reducible apply pinv_trap
    | with_reducible apply pinv_brk
    | with_reducible apply pinv_stop
    | split
    | (dsimp only; split)
    | refine inv_fst (by with_reducible assumption) ?_
    | refine inv_snd (by with_reducible assumption) ?_
    | refine pinv_of_done (by with_reducible assumption) ?_
    | refine pinv_of_brk (by with_reducible assumption) ?_
    | refine pinv_of_trap (by with_reducible assumption) ?_
    | refine pinv_of_stop (by with_reducible assumption) ?_

theorem execRsfill_inv {q : List Instr} : ∀ x0 s, Inv q s → OInv q (execRsfill x0 s) := by
  intro x0 s h
  unfold execRsfill
  repeat' first
    | with_reducible assumption
    | with_reducible intro _
    | with_reducible apply rrr_inv
    | with_reducible apply rsfillBody_inv
    | with_reducible apply inv_ite
    | with_reducible apply oinv_next
    | with_reducible apply oinv_ite
    | split
    | (dsimp only; split)
    | refine inv_fst (by with_reducible assumption) ?_
    | refine inv_snd (by with_reducible assumption) ?_

theorem ctxBody_inv {q : List Instr} : ∀ x0 x1 s x3, Inv q s → (∀ a0 a1 a2 a3, Inv q a3 → PRes.Inv q (x3 a0 a1 a2 a3)) → PRes.Inv q (ctxBody x0 x1 s x3) := by
  intro x0 x1 s x3 h h1
  unfold ctxBody
  repeat' first
    | with_reducible assumption
    | with_reducible intro _
    | with_reducible apply updPilot_inv
    | with_reducible apply h1
    | with_reducible apply inv_ite
    | with_reducible apply pinv_ite
    | with_reducible apply pinv_done
    | with_reducible apply pinv_trap
    | with_reducible apply pinv_brk
    | with_reducible apply pinv_stop
    | split
    | (dsimp only; split)
    | refine inv_fst (by with_reducible assumption) ?_
    | refine inv_snd (by with_reducible assumption) ?_
    | refine pinv_of_done (by with_reducible assumption) ?_
    | refine pinv_of_brk (by with_reducible assumption) ?_
    | refine pinv_of_trap (by with_reducible assumption) ?_
    | refine pinv_of_stop (by with_reducible assumption) ?_

theorem ctxsvBody_inv {q : List Instr} : ∀ x0 x1 s, Inv q s → PRes.Inv q (ctxsvBody x0 x1 s) := by
  intro x0 x1 s h
  unfold ctxsvBody
  repeat' first
    | with_reducible assumption
    | with_reducible intro _
    | with_reducible apply ctxBody_inv
    | with_reducible apply Acc_answer_inv
    | with_reducible apply updPilot_inv
    | with_reducible apply Acc_answer_inv
    | with_reducible apply loadMem_inv
    | with_reducible apply storeMem_inv
    | with_reducible apply storeRun_inv
    | with_reducible apply loadRun_inv
    | refine accs_ok (by with_reducible assumption) ?_
    | refine accs_bad (by with_reducible assumption) ?_
    | with_reducible apply inv_ite
    | with_reducible apply pinv_ite
    | with_reducible apply pinv_done
    | with_reducible apply pinv_trap
    | with_reducible apply pinv_brk
    | with_reducible apply pinv_stop
    | split
    | (dsimp only; split)
    | refine inv_fst (by with_reducible assumption) ?_
    | refine inv_snd (by with_reducible assumption) ?_

theorem execCtxsv_inv {q : List Instr} : ∀ x0 s, Inv q s → OInv q (execCtxsv x0 s) := by
  intro x0 s h
  unfold execCtxsv
  repeat' first
    | with_reducible assumption
    | with_reducible intro _
    | with_reducible apply rrr_inv
    | with_reducible apply ctxsvBody_inv
    | with_reducible apply inv_ite
    | with_reducible apply oinv_next
    | with_reducible apply oinv_ite
    | split
    | (dsimp only; split)
    | refine inv_fst (by with_reducible assumption) ?_
    | refine inv_snd (by with_reducible assumption) ?_

theorem ctxldBody_inv {q : List Instr} : ∀ x0 x1 s, Inv q s → PRes.Inv q (ctxldBody x0 x1 s) := by
  intro x0 x1 s h
  unfold ctxldBody
  repeat' first
    | with_reducible assumption
    | with_reducible intro _
    | with_reducible apply ctxBody_inv
    | with_reducible apply Acc_answer_inv
    | with_reducible apply updPilot_inv
    | with_reducible apply Acc_answer_inv
    | with_reducible apply loadMem_inv
    | with_reducible apply storeMem_inv
    | with_reducible apply storeRun_inv
    | with_reducible apply loadRun_inv
    | refine accs_ok (by with_reducible assumption) ?_
    | refine accs_bad (by with_reducible assumption) ?_
    | with_reducible apply inv_ite
    | with_reducible apply pinv_ite
    | with_reducible apply pinv_done
    | with_reducible apply pinv_trap
    | with_reducible apply pinv_brk
    | with_reducible apply pinv_stop
    | split
    | (dsimp only; split)
    | refine inv_fst (by with_reducible assumption) ?_
    | refine inv_snd (by with_reducible assumption) ?_
    | refine pinv_of_done (by with_reducible assumption) ?_
    | refine pinv_of_brk (by with_reducible assumption) ?_
    | refine pinv_of_trap (by with_reducible assumption) ?_
    | refine pinv_of_stop (by with_reducible assumption) ?_

theorem execCtxld_inv {q : List Instr} : ∀ x0 s, Inv q s → OInv q (execCtxld x0 s) := by
  intro x0 s h
  unfold execCtxld
  repeat' first
    | with_reducible assumption
    | with_reducible intro _
    | with_reducible apply rrr_inv
    | with_reducible apply ctxldBody_inv
    | with_reducible apply inv_ite
    | with_reducible apply oinv_next
    | with_reducible apply oinv_ite
    | split
    | (dsimp only; split)
    | refine inv_fst (by with_reducible assumption) ?_
    | refine inv_snd (by with_reducible assumption) ?_

end Sys2Proof.Machine
end

