-- ==== Sys2Proof/Laws/InvPilotLong.lean ====
section
/-! SUPPORT. Laws/InvPilotLong.lean: every function of Machine/PilotLong.lean keeps the invariant of a sound state. -/

namespace Sys2Proof.Machine

/-- The invariant of how a unit ends. -/
def LStep.Inv (q : List Instr) : LStep → Prop
  | .ok l => Machine.Inv q l.s
  | .bad r => r.Inv q

/-- The invariant of how a long instruction ends. -/
def LEnd.Inv (q : List Instr) : LEnd → Prop
  | .fin l => Machine.Inv q l.s
  | .ended r => r.Inv q

/-- Every unit of a long instruction keeps the invariant. -/
def LongOp.Keeps (q : List Instr) (o : LongOp) : Prop := ∀ l, Machine.Inv q l.s → (o.unit l).Inv q

theorem acc_ok {q : List Instr} {r : Acc} {s : State} {w : TWord} (e : r = .ok s w) (h : r.Inv q) : Machine.Inv q s := by
  subst e; exact h

theorem restartPoint_inv {q : List Instr} (s : State) (p : Nat) (cx : W64) (h : Machine.Inv q s) :
    Machine.Inv q (restartPoint s p cx) := updPilot_inv _ _ _ h

theorem longLoop_inv {q : List Instr} (p : Nat) (pc : BitVec 18) (o : LongOp) (ho : o.Keeps q) :
    ∀ (n : Nat) (base : State) (l : Long) (left : Option Nat), Machine.Inv q base → Machine.Inv q l.s →
      (longLoop p pc o n base l left).Inv q
  | 0, _, _, _, _, h => h
  | n + 1, base, l, left, hb, h => by
    unfold longLoop
    split
    · exact h
    · have tail : ∀ u : LStep, u.Inv q → LEnd.Inv q (match u with
          | .bad (.trap c tv) => .ended (.trap c tv base)
          | .bad (.hit c) => .ended (.stop (watch base p pc c).1)
          | .bad (.ok _ _) => .ended (.stop base)
          | .ok l =>
            if o.more l && o.restart l then
              if left = some 1 then .ended (.stop (updPilot (restartPoint l.s p (o.cx l)) p (fun x => { x with pc := pc })))
              else longLoop p pc o n (restartPoint l.s p (o.cx l)) { l with s := restartPoint l.s p (o.cx l) } (left.map (· - 1))
            else longLoop p pc o n base l left) := by
        intro u hu
        cases u with
        | ok l' =>
          have hl : Machine.Inv q l'.s := hu
          dsimp only
          split
          · split
            · exact updPilot_inv _ _ _ (restartPoint_inv _ _ _ hl)
            · exact longLoop_inv p pc o ho n _ _ _ (restartPoint_inv _ _ _ hl) (restartPoint_inv _ _ _ hl)
          · exact longLoop_inv p pc o ho n _ _ _ hb hl
        | bad r =>
          cases r with
          | ok _ _ => exact hb
          | trap _ _ => exact hb
          | hit c => exact watch_inv _ _ _ _ hb
      have hu := ho l h
      dsimp only
      cases hq : o.unit { l with s := quiet l.s p } with
      | ok _ => exact tail _ hu
      | bad r =>
        cases r with
        | ok _ _ => exact tail _ hu
        | trap c tv => exact hb
        | hit c => exact tail _ hu

theorem runLong_inv {q : List Instr} (p : Nat) (pc : BitVec 18) (o : LongOp) (n : Nat) (l : Long) (upto : Option Nat)
    (k : Long → PRes) (ho : o.Keeps q) (h : Machine.Inv q l.s) (hk : ∀ l, Machine.Inv q l.s → PRes.Inv q (k l)) :
    PRes.Inv q (runLong p pc o n l upto k) := by
  unfold runLong
  split
  · exact updPilot_inv _ _ _ h
  · have hl := longLoop_inv p pc o ho (n + 1) l.s l upto h h
    split
    · rename_i e
      rw [e] at hl
      exact hl
    · rename_i e
      rw [e] at hl
      refine hk _ ?_
      dsimp only
      exact updPilot_inv _ _ _ hl

theorem bmoveOp_keeps {q : List Instr} (p : Nat) (pc : BitVec 18) (src dst : W64) (n : Nat) : (bmoveOp p pc src dst n).Keeps q := by
  intro l h
  show LStep.Inv q (bmoveUnit p pc src dst l)
  unfold bmoveUnit
  have h1 := loadMem_inv l.s p pc (wordAt src l.i) 8 (copyTag (pilot l.s p).sw.world) h
  split
  · rename_i s w e
    rw [e] at h1
    have h2 := storeMem_inv s p pc (wordAt dst l.i) 8 w 3 h1
    split
    · rename_i e2
      rw [e2] at h2
      exact h2
    · exact h2
  · exact h1

theorem ksrchOp_keeps {q : List Instr} (p : Nat) (pc : BitVec 18) (a : W64) (v : KeyQ) : (ksrchOp p pc a v).Keeps q := by
  intro l h
  show LStep.Inv q (ksrchUnit p pc a v l)
  unfold ksrchUnit
  dsimp only
  split
  · trivial
  · have hw := fun c => watch_inv l.s p pc c h
    split
    · trivial
    · rename_i e
      have ht := inv_fst e (hw _)
      split
      · exact ht
      · exact ht

theorem loadDigits_inv {q : List Instr} (s : State) (p : Nat) (pc : BitVec 18) (a : W64) (h : Machine.Inv q s) :
    (loadDigits s p pc a).Inv q := by
  unfold loadDigits
  have h1 := loadMem_inv s p pc a 8 isDec h
  split
  · rename_i e
    rw [e] at h1
    split
    · exact h1
    · trivial
  · exact h1

theorem loadNumber_inv {q : List Instr} (p : Nat) (pc : BitVec 18) : ∀ (n : Nat) (s : State) (a : W64),
    Machine.Inv q s → (loadNumber p pc n s a).Inv q
  | 0, _, _, h => h
  | n + 1, s, a, h => by
    unfold loadNumber
    have h1 := loadDigits_inv s p pc a h
    split
    · rename_i e
      rw [e] at h1
      have h2 := loadNumber_inv p pc n _ (addrAdd a 8) h1
      split
      · rename_i e2
        rw [e2] at h2
        exact h2
      · exact h2
    · exact h1

theorem addmOp_keeps {q : List Instr} (sub : Bool) (p : Nat) (pc : BitVec 18) (src dst : W64) (n : Nat) :
    (addmOp sub p pc src dst n).Keeps q := by
  intro l h
  show LStep.Inv q (addmUnit sub p pc src dst l)
  unfold addmUnit
  have h1 := loadDigits_inv l.s p pc (wordAt src l.i) h
  split
  · rename_i s1 b e
    rw [e] at h1
    have h2 := loadDigits_inv s1 p pc (wordAt dst l.i) h1
    split
    · rename_i s2 a e2
      rw [e2] at h2
      have h3 := fun w => storeMem_inv s2 p pc (wordAt dst l.i) 8 w 3 h2
      dsimp only
      split
      · rename_i e3
        have h4 := h3 ⟨(decStep sub a.val b.val l.c).1, 3⟩
        rw [e3] at h4
        exact h4
      · exact h3 _
    · exact h2
  · exact h1

theorem mulmOp_keeps {q : List Instr} (p : Nat) (pc : BitVec 18) (src dst : W64) (n m : Nat) :
    (mulmOp p pc src dst n m).Keeps q := by
  intro l h
  show LStep.Inv q (mulmUnit p pc src dst n m l)
  unfold mulmUnit
  have h1 := loadDigits_inv l.s p pc (wordAt src l.i) h
  split
  · rename_i s1 a e
    rw [e] at h1
    have h2 := loadNumber_inv p pc m s1 (wordAt src n) h1
    split
    · rename_i s2 b e2
      rw [e2] at h2
      have h3 : Accs.Inv q (if l.i = 0 then .ok s2 [] else loadNumber p pc (m + 1) s2 (wordAt dst l.i)) := by
        split
        · exact h2
        · exact loadNumber_inv _ _ _ _ _ h2
      split
      · rename_i s3 t e3
        rw [e3] at h3
        have h4 := fun ws => storeAll_inv p pc (wordAt dst l.i) anyTag
          (((List.range (ws : List W64).length).zip ws).map (fun (e : Nat × W64) => (e.1, (⟨e.2, 3⟩ : TWord)))) s3 h3
        dsimp only
        unfold storeNumber
        split
        · rename_i e5
          exact acc_ok e5 (h4 _)
        · exact h4 _
      · rename_i e3
        exact accs_bad e3 h3
    · rename_i e2
      exact accs_bad e2 h2
  · exact h1

theorem decmBody_inv {q : List Instr} (fn : BitVec 7) (f : RRR) (upto : Option Nat) (x : Pilot) (pc : BitVec 18) (s : State)
    (bad carry : Bool) (n : Nat) (o : LongOp) (ho : o.Keeps q) (h : Machine.Inv q s) :
    PRes.Inv q (decmBody fn f upto x pc s bad carry n o) := by
  unfold decmBody
  dsimp only
  split
  · exact h
  · split
    · exact h
    · split
      · exact h
      · exact runLong_inv _ _ _ _ _ _ _ ho h (fun _ hl => updPilot_inv _ _ _ hl)

theorem bmoveBody_inv {q : List Instr} (f : RRR) (upto : Option Nat) (x : Pilot) (pc : BitVec 18) (s : State)
    (h : Machine.Inv q s) : PRes.Inv q (bmoveBody f upto x pc s) := by
  unfold bmoveBody
  dsimp only
  split
  · exact h
  · split
    · exact h
    · split
      · exact h
      · exact runLong_inv _ _ _ _ _ _ _ (bmoveOp_keeps _ _ _ _ _) h (fun _ hl => hl)

theorem ksrchBody_inv {q : List Instr} (f : RRR) (upto : Option Nat) (x : Pilot) (pc : BitVec 18) (s : State)
    (h : Machine.Inv q s) : PRes.Inv q (ksrchBody f upto x pc s) := by
  unfold ksrchBody
  dsimp only
  split
  · exact h
  · split
    · exact h
    · split
      · exact h
      · split
        · exact h
        · split
          · exact h
          · rename_i cs _
            have hw := watchAll_inv f.p pc s cs h
            split
            · rename_i e
              exact watch_inv _ _ _ _ (inv_fst e hw)
            · rename_i e
              exact runLong_inv _ _ _ _ _ _ _ (ksrchOp_keeps _ _ _ _) (inv_fst e hw) (fun _ hl => updPilot_inv _ _ _ hl)

theorem addmBody_inv {q : List Instr} (sub : Bool) (f : RRR) (upto : Option Nat) (x : Pilot) (pc : BitVec 18) (s : State)
    (h : Machine.Inv q s) : PRes.Inv q (addmBody sub f upto x pc s) :=
  decmBody_inv _ _ _ _ _ _ _ _ _ _ (addmOp_keeps _ _ _ _ _ _) h

theorem mulmBody_inv {q : List Instr} (f : RRR) (upto : Option Nat) (x : Pilot) (pc : BitVec 18) (s : State)
    (h : Machine.Inv q s) : PRes.Inv q (mulmBody f upto x pc s) :=
  decmBody_inv _ _ _ _ _ _ _ _ _ _ (mulmOp_keeps _ _ _ _ _ _) h

theorem execBmove_inv {q : List Instr} : ∀ x0 x1 s, Inv q s → OInv q (execBmove x0 x1 s) := by
  intro x0 x1 s h
  unfold execBmove
  repeat' first
    | with_reducible assumption
    | with_reducible intro _
    | with_reducible apply rrr_inv
    | with_reducible apply bmoveBody_inv
    | with_reducible apply inv_ite
    | with_reducible apply oinv_next
    | with_reducible apply oinv_ite
    | split
    | (dsimp only; split)
    | refine inv_fst (by with_reducible assumption) ?_
    | refine inv_snd (by with_reducible assumption) ?_

theorem execKsrch_inv {q : List Instr} : ∀ x0 x1 s, Inv q s → OInv q (execKsrch x0 x1 s) := by
  intro x0 x1 s h
  unfold execKsrch
  repeat' first
    | with_reducible assumption
    | with_reducible intro _
    | with_reducible apply rrr_inv
    | with_reducible apply ksrchBody_inv
    | with_reducible apply inv_ite
    | with_reducible apply oinv_next
    | with_reducible apply oinv_ite
    | split
    | (dsimp only; split)
    | refine inv_fst (by with_reducible assumption) ?_
    | refine inv_snd (by with_reducible assumption) ?_

theorem execDaddm_inv {q : List Instr} : ∀ x0 x1 s, Inv q s → OInv q (execDaddm x0 x1 s) := by
  intro x0 x1 s h
  unfold execDaddm
  repeat' first
    | with_reducible assumption
    | with_reducible intro _
    | with_reducible apply rrr_inv
    | with_reducible apply addmBody_inv
    | with_reducible apply inv_ite
    | with_reducible apply oinv_next
    | with_reducible apply oinv_ite
    | split
    | (dsimp only; split)
    | refine inv_fst (by with_reducible assumption) ?_
    | refine inv_snd (by with_reducible assumption) ?_

theorem execDsubm_inv {q : List Instr} : ∀ x0 x1 s, Inv q s → OInv q (execDsubm x0 x1 s) := by
  intro x0 x1 s h
  unfold execDsubm
  repeat' first
    | with_reducible assumption
    | with_reducible intro _
    | with_reducible apply rrr_inv
    | with_reducible apply addmBody_inv
    | with_reducible apply inv_ite
    | with_reducible apply oinv_next
    | with_reducible apply oinv_ite
    | split
    | (dsimp only; split)
    | refine inv_fst (by with_reducible assumption) ?_
    | refine inv_snd (by with_reducible assumption) ?_

theorem execDmulm_inv {q : List Instr} : ∀ x0 x1 s, Inv q s → OInv q (execDmulm x0 x1 s) := by
  intro x0 x1 s h
  unfold execDmulm
  repeat' first
    | with_reducible assumption
    | with_reducible intro _
    | with_reducible apply rrr_inv
    | with_reducible apply mulmBody_inv
    | with_reducible apply inv_ite
    | with_reducible apply oinv_next
    | with_reducible apply oinv_ite
    | split
    | (dsimp only; split)
    | refine inv_fst (by with_reducible assumption) ?_
    | refine inv_snd (by with_reducible assumption) ?_

end Sys2Proof.Machine
end

