-- ==== Sys2Proof/Laws/InvCustom.lean ====
section
/-! SUPPORT. Laws/InvCustom.lean: every function of Machine/Custom.lean keeps the invariant of a sound state. -/

namespace Sys2Proof.Machine

/-- The invariant of a routine under way, of how a unit, a micro-op and a routine end. -/
def UCtx.Inv (q : List Instr) (c : UCtx) : Prop := Machine.Inv q c.s ∧ Machine.Inv q c.base

def UOut.Inv (q : List Instr) : UOut → Prop
  | .ok r => Machine.Inv q r.s
  | _ => True

def UStep.Inv (q : List Instr) : UStep → Prop
  | .ok c => c.Inv q
  | _ => True

def UEnd.Inv (q : List Instr) : UEnd → Prop
  | .fin s => Machine.Inv q s
  | .trap _ _ s _ => Machine.Inv q s
  | .hit _ s => Machine.Inv q s
  | .wait s => Machine.Inv q s

theorem startU_inv {q : List Instr} (s : State) (a : Nat) (h : Machine.Inv q s) : (startU s a).Inv q :=
  ⟨Inv.plain h rfl, Inv.plain h rfl⟩

theorem uctx_ite {q : List Instr} {c : Prop} [Decidable c] {x y : UCtx} (hx : x.Inv q) (hy : y.Inv q) :
    UCtx.Inv q (if c then x else y) := by
  split
  · exact hx
  · exact hy

theorem UCtx_wr_inv {q : List Instr} (c : UCtx) (f : RRR) (w : BitVec 48) (code : Nat) (v : TWord) (h : c.Inv q) :
    (c.wr f w code v).Inv q := by
  unfold UCtx.wr
  have up : ∀ g, Machine.Inv q (updPilot c.s f.p g) := fun g => updPilot_inv _ _ _ h.1
  dsimp only
  repeat' first
    | with_reducible apply uctx_ite
    | exact h
    | (refine ⟨?_, h.2⟩; dsimp only; exact up _)

theorem aluUnit_s (op : Nat) (s : State) (w : Sw) (a b : TWord) : (aluUnit op s w a b).s = s := by
  unfold aluUnit
  dsimp only
  split <;> rfl

theorem mulUnit_inv {q : List Instr} (op : Nat) (f : RRR) (s : State) (w : Sw) (a b : TWord) (h : Machine.Inv q s) :
    (mulUnit op f s w a b).Inv q := by
  unfold mulUnit
  have up : ∀ g, Machine.Inv q (updPilot s f.p g) := fun g => updPilot_inv _ _ _ h
  dsimp only
  repeat' first
    | trivial
    | exact h
    | split
    | (show Machine.Inv q _; dsimp only [plainRes]; exact up _)
    | (show Machine.Inv q _; dsimp only [plainRes]; exact startMul_inv _ _ _ _ h)

theorem decUnit_inv {q : List Instr} (op : Nat) (s : State) (w : Sw) (a b : TWord) (uc : Bool) (u6 t : W64)
    (h : Machine.Inv q s) : (decUnit op s w a b uc u6 t).Inv q := by
  unfold decUnit
  dsimp only
  repeat' first
    | trivial
    | exact h
    | split

theorem memUnit_inv {q : List Instr} (op : Nat) (f : RRR) (pc : BitVec 18) (s : State) (w : Sw) (a b md : TWord)
    (ka : BitVec 2) (h : Machine.Inv q s) : (memUnit op f pc s w a b md ka).Inv q := by
  unfold memUnit
  have fin : ∀ r : Acc, r.Inv q → UOut.Inv q (match r with
      | .ok s v => .ok { plainRes s w v.val with tag := some v.tag }
      | .trap c tv => .trap c tv
      | .hit c => .hit c) := by
    intro r hr
    cases r with
    | ok _ _ => exact hr
    | trap _ _ => trivial
    | hit _ => trivial
  dsimp only
  split
  · trivial
  · split
    · split
      · trivial
      · exact fin _ (storeMem_inv _ _ _ _ _ _ _ h)
    · have h1 := fun tags => loadMem_inv s f.p pc (addrAdd a.val b.val)
        (if op = 2 ∨ op = 5 then 1 else if op = 3 ∨ op = 6 then 2 else if op = 4 ∨ op = 7 then 4 else 8) tags h
      split
      · rename_i s1 v e
        have h2 := acc_ok e (h1 _)
        show Machine.Inv q (if _ then _ else _)
        split
        · exact winTake_inv _ _ _ h2
        · exact h2
      · exact fin _ (h1 _)

theorem crUnit_inv {q : List Instr} (n : Nat) (f : RRR) (s : State) (w : Sw) (word : W64) (h : Machine.Inv q s) :
    (crUnit n f s w word).Inv q := by
  unfold crUnit
  dsimp only
  repeat' first
    | trivial
    | exact h
    | exact crTake_inv _ _ _ h
    | exact takeFree_inv _ h
    | split

theorem UCtx_run_inv {q : List Instr} (c : UCtx) (f : RRR) (pc : BitVec 18) (word : W64) (w : BitVec 48) (n : BitVec 128)
    (a b t : TWord) (h : Machine.Inv q c.s) : (c.run f pc word w n a b t).Inv q := by
  unfold UCtx.run
  dsimp only
  split
  · show Machine.Inv q _
    rw [aluUnit_s]
    exact h
  · exact mulUnit_inv _ _ _ _ _ _ h
  · exact decUnit_inv _ _ _ _ _ _ _ _ h
  · exact memUnit_inv _ _ _ _ _ _ _ _ _ h
  · exact crUnit_inv _ _ _ _ _ h
  · exact h

theorem ustep_trap {q : List Instr} {c : BitVec 4} {v : W64} : UStep.Inv q (.trap c v) := trivial
theorem ustep_hit {q : List Instr} {a : Access} : UStep.Inv q (.hit a) := trivial

/-- The context after a micro-op's result keeps the invariant. -/
theorem UCtx_inv_s {q : List Instr} {c : UCtx} {s : State} (h : c.Inv q) (hs : Machine.Inv q s) :
    UCtx.Inv q { c with s := s } := ⟨hs, h.2⟩

theorem UCtx_fin {q : List Instr} {c : UCtx} (p : Nat) (g : Pilot → Pilot) (keep z n1 c1 v1 t1 : Bool) (h : c.Inv q) :
    UStep.Inv q (.ok { (if keep then c else { c with s := updPilot c.s p g }) with
      uz := z, un := n1, uc := c1, uv := v1, tok := t1 }) := by
  show UCtx.Inv q _
  cases keep with
  | true => exact h
  | false =>
    refine ⟨?_, h.2⟩
    dsimp only
    exact updPilot_inv _ _ _ h.1

theorem UCtx_dataOp_inv {q : List Instr} (c : UCtx) (f : RRR) (pc : BitVec 18) (word : W64) (w : BitVec 48)
    (n : BitVec 128) (h : c.Inv q) : (c.dataOp f pc word w n).Inv q := by
  unfold UCtx.dataOp
  have h0 : UCtx.Inv q (if n.getLsbD 82 then { c with s := updPilot c.s f.p Pilot.drain } else c) := by
    split
    · exact ⟨updPilot_inv _ _ _ h.1, h.2⟩
    · exact h
  generalize (if n.getLsbD 82 then { c with s := updPilot c.s f.p Pilot.drain } else c : UCtx) = c' at h0 ⊢
  have hm : ∀ (d : UCtx) (mv : TWord), d.Inv q → UCtx.Inv q (if nMsrc n = 0x3F then d else d.wr f w (nMdst n) mv) := by
    intro d mv hd
    split
    · exact hd
    · exact UCtx_wr_inv _ _ _ _ _ hd
  dsimp only
  split
  · trivial
  · split
    · exact hm _ _ h0
    · split
      · trivial
      · have hr := UCtx_run_inv c' f pc word w n (c'.rd f pc w (nAsrc n)) (c'.rd f pc w (nBsrc n)) (c'.rd f pc w (nDst n)) h0.1
        split
        · trivial
        · trivial
        · rename_i r e
          rw [e] at hr
          split
          · trivial
          · rename_i rule keep _ _ _
            generalize (unitPair (nUnit n) (nUop n) (c'.rd f pc w (nAsrc n)) (c'.rd f pc w (nBsrc n))
              (pilot c'.s f.p).sw.c c'.uc r.r, addrPair (nUnit n) w (c'.rd f pc w (nAsrc n)) (c'.rd f pc w (nBsrc n)),
              tresTag (nTres n) (r.tag.getD rule) (c'.rd f pc w (nAsrc n)).tag (c'.rd f pc w (nBsrc n)).tag) = tw
            have h1 := hm { c' with s := r.s, tw := tw } (c'.rd f pc w (nMsrc n)) ⟨hr, h0.2⟩
            generalize (if nMsrc n = 0x3F then { c' with s := r.s, tw := tw } else
              UCtx.wr { c' with s := r.s, tw := tw } f w (nMdst n) (c'.rd f pc w (nMsrc n))) = d at h1 ⊢
            have h2 : ∀ md : TWord, UCtx.Inv q (if nUnit n = 3 then { d with md := md } else d) := by
              intro md
              split
              · exact h1
              · exact h1
            have h3 : ∀ (e : UCtx) (k : Nat) (t : TWord), e.Inv q → (e.wr f w k t).Inv q :=
              fun e k t he => UCtx_wr_inv _ _ _ _ _ he
            cases r.u6 with
            | none => exact UCtx_fin _ _ _ _ _ _ _ _ (h3 _ _ _ (h2 _))
            | some v =>
              have h4 : ∀ md : TWord, UCtx.Inv q { (if nUnit n = 3 then { d with md := md } else d) with
                  u := Table.put emptyW (if nUnit n = 3 then { d with md := md } else d).u 6 ⟨v, 3⟩ } := fun md => h2 md
              exact UCtx_fin _ _ _ _ _ _ _ _ (h3 _ _ _ (h4 _))

theorem UCtx_note_inv {q : List Instr} (c : UCtx) (p : Nat) (w : BitVec 48) (held : Bool) (word : W64) (h : c.Inv q) :
    (c.note p w held word).Inv q := by
  have hn : ∀ k a b m, Machine.Inv q (noteOp c.s p k a b m) := fun k a b m => noteOp_inv _ _ _ _ _ _ h.1
  unfold UCtx.note
  dsimp only
  refine ⟨?_, h.2⟩
  dsimp only
  split
  · exact closeInside_inv _ _ (hn _ _ _ _)
  · exact hn _ _ _ _

theorem runU_inv {q : List Instr} (t : Store) (f : RRR) (pc : BitVec 18) (word : W64) : ∀ (n : Nat) (c : UCtx),
    c.Inv q → (runU t f pc word n c).Inv q
  | 0, c, h => h.2
  | n + 1, c, h => by
    unfold runU
    have hd := UCtx_dataOp_inv c f pc word (t.u c.a) (t.n (uNano (t.u c.a))) h
    dsimp only
    split
    · split
      · exact h.2
      · exact Inv.plain h.2 rfl
    · split
      · split
        · exact h.2
        · exact h.2
      · exact h.2
      · rename_i d e
        rw [e] at hd
        have hn := UCtx_note_inv d f.p (t.u c.a) (c.cond f pc (t.u c.a) != uCpol (t.u c.a)) word hd
        generalize (d.note f.p (t.u c.a) (c.cond f pc (t.u c.a) != uCpol (t.u c.a)) word) = d' at hn ⊢
        have hc : UCtx.Inv q (if uCw (t.u c.a) then d'.commit f.p else d') := by
          split
          · have hu := updPilot_inv d'.s f.p (fun x => { x with slotMark := false }) hn.1
            exact ⟨hu, hu⟩
          · exact hn
        generalize (if uCw (t.u c.a) then d'.commit f.p else d' : UCtx) = d'' at hc ⊢
        have ih : ∀ (e : UCtx), e.Inv q → (runU t f pc word n e).Inv q := fun e he => runU_inv t f pc word n e he
        repeat' first
          | exact hc.2
          | exact hc.1
          | exact ih _ hc
          | split

theorem customBody_inv {q : List Instr} (k : BitVec 2) (fn : BitVec 7) (f : RRR) (word : W64) (m : Bool) (pc : BitVec 18)
    (s : State) (h : Machine.Inv q s) : PRes.Inv q (customBody k fn f word m pc s) := by
  unfold customBody
  split
  · exact h
  · rename_i t _
    have hr := runU_inv t f pc word 4096 (startU (setSlotMark s f.p m) (fnSlot k.toNat fn.toNat))
      (startU_inv _ _ (updPilot_inv _ _ _ h))
    split
    · rename_i e
      rw [e] at hr
      exact updPilot_inv _ _ _ hr
    · rename_i e
      rw [e] at hr
      exact srcSwitch_inv _ _ (takeTrapAt_inv _ _ _ _ _ _ _ hr)
    · rename_i e
      rw [e] at hr
      exact watch_inv _ _ _ _ hr
    · rename_i e
      rw [e] at hr
      exact updPilot_inv _ _ _ hr

theorem execCustomRoutine_inv {q : List Instr} : ∀ x0 x1 x2 s, Inv q s → OInv q (execCustomRoutine x0 x1 x2 s) := by
  intro x0 x1 x2 s h
  unfold execCustomRoutine
  repeat' first
    | with_reducible assumption
    | with_reducible intro _
    | with_reducible apply issue_inv
    | with_reducible apply customBody_inv
    | with_reducible apply inv_ite
    | with_reducible apply oinv_next
    | with_reducible apply oinv_ite
    | split
    | (dsimp only; split)
    | refine inv_fst (by with_reducible assumption) ?_
    | refine inv_snd (by with_reducible assumption) ?_

end Sys2Proof.Machine
end

