-- ==== Sys2Proof/Laws/InvPower.lean ====
section
/-! SUPPORT. Laws/InvPower.lean: every function of Machine/Power.lean keeps the invariant of a sound state. -/

namespace Sys2Proof.Machine

theorem sampleVolt_inv {q : List Instr} : ∀ s x1 x2, Inv q s → Inv q (sampleVolt s x1 x2) := by
  intro s x1 x2 h
  unfold sampleVolt
  repeat' first
    | with_reducible assumption
    | with_reducible intro _
    | with_reducible apply hmLog_inv
    | with_reducible apply inv_ite
    | split
    | (dsimp only; split)
    | refine inv_fst (by with_reducible assumption) ?_
    | refine inv_snd (by with_reducible assumption) ?_
    | with_reducible apply Inv.mk_plain
    | (dsimp only; with_reducible apply Inv.mk_plain)

theorem execSensorSample_inv {q : List Instr} : ∀ x0 x1 x2 s, Inv q s → OInv q (execSensorSample x0 x1 x2 s) := by
  intro x0 x1 x2 s h
  unfold execSensorSample
  repeat' first
    | with_reducible assumption
    | with_reducible intro _
    | with_reducible apply sampleVolt_inv
    | with_reducible apply inv_ite
    | with_reducible apply oinv_next
    | with_reducible apply oinv_ite
    | with_reducible refine inv_foldl (fun _ _ _ => ?_) _ _ ?_
    | split
    | (dsimp only; split)
    | refine inv_fst (by with_reducible assumption) ?_
    | refine inv_snd (by with_reducible assumption) ?_
    | with_reducible apply Inv.mk_plain
    | (dsimp only; with_reducible apply Inv.mk_plain)

theorem execThrottleStep_inv {q : List Instr} : ∀ x0 s, Inv q s → OInv q (execThrottleStep x0 s) := by
  intro x0 s h
  unfold execThrottleStep
  repeat' first
    | with_reducible assumption
    | with_reducible intro _
    | with_reducible apply hmLog_inv
    | with_reducible apply inv_ite
    | with_reducible apply oinv_next
    | with_reducible apply oinv_ite
    | split
    | (dsimp only; split)
    | refine inv_fst (by with_reducible assumption) ?_
    | refine inv_snd (by with_reducible assumption) ?_
    | with_reducible apply Inv.mk_plain
    | (dsimp only; with_reducible apply Inv.mk_plain)

theorem execThermalCritical_inv {q : List Instr} : ∀ x0 x1 s, Inv q s → OInv q (execThermalCritical x0 x1 s) := by
  intro x0 x1 s h
  unfold execThermalCritical
  repeat' first
    | with_reducible assumption
    | with_reducible intro _
    | with_reducible apply quarantine_inv
    | with_reducible apply hmLog_inv
    | with_reducible apply inv_ite
    | with_reducible apply oinv_next
    | with_reducible apply oinv_ite
    | split
    | (dsimp only; split)
    | refine inv_fst (by with_reducible assumption) ?_
    | refine inv_snd (by with_reducible assumption) ?_

theorem execVoltageCritical_inv {q : List Instr} : ∀ x0 x1 s, Inv q s → OInv q (execVoltageCritical x0 x1 s) := by
  intro x0 x1 s h
  unfold execVoltageCritical
  repeat' first
    | with_reducible assumption
    | with_reducible intro _
    | with_reducible apply quarantine_inv
    | with_reducible apply hmLog_inv
    | with_reducible apply inv_ite
    | with_reducible apply oinv_next
    | with_reducible apply oinv_ite
    | split
    | (dsimp only; split)
    | refine inv_fst (by with_reducible assumption) ?_
    | refine inv_snd (by with_reducible assumption) ?_

theorem execThermalTrip_inv {q : List Instr} : ∀ s, Inv q s → OInv q (execThermalTrip s) := by
  intro s h
  unfold execThermalTrip
  repeat' first
    | with_reducible assumption
    | with_reducible intro _
    | with_reducible apply startWake_inv
    | with_reducible apply inv_ite
    | with_reducible apply oinv_next
    | with_reducible apply oinv_ite
    | split
    | (dsimp only; split)
    | refine inv_fst (by with_reducible assumption) ?_
    | refine inv_snd (by with_reducible assumption) ?_
    | with_reducible apply Inv.mk_plain
    | (dsimp only; with_reducible apply Inv.mk_plain)

theorem toD1_inv {q : List Instr} : ∀ s, Inv q s → Inv q (toD1 s) := by
  intro s h
  unfold toD1
  repeat' first
    | with_reducible assumption
    | with_reducible intro _
    | with_reducible apply setMode_inv
    | exact Or.inr rfl
    | exact Or.inl rfl
    | with_reducible apply inv_ite
    | split
    | (dsimp only; split)
    | refine inv_fst (by with_reducible assumption) ?_
    | refine inv_snd (by with_reducible assumption) ?_

theorem execGovernorEvaluate_inv {q : List Instr} : ∀ s, Inv q s → OInv q (execGovernorEvaluate s) := by
  intro s h
  unfold execGovernorEvaluate
  repeat' first
    | with_reducible assumption
    | with_reducible intro _
    | with_reducible apply toD1_inv
    | with_reducible apply govern_inv
    | with_reducible apply inv_ite
    | with_reducible apply oinv_next
    | with_reducible apply oinv_ite
    | split
    | (dsimp only; split)
    | refine inv_fst (by with_reducible assumption) ?_
    | refine inv_snd (by with_reducible assumption) ?_

theorem execD2DwellExpiry_inv {q : List Instr} : ∀ s, Inv q s → OInv q (execD2DwellExpiry s) := by
  intro s h
  unfold execD2DwellExpiry
  repeat' first
    | with_reducible assumption
    | with_reducible intro _
    | with_reducible apply toD1_inv
    | with_reducible apply govern_inv
    | with_reducible apply startEntry_inv
    | with_reducible apply inv_ite
    | with_reducible apply oinv_next
    | with_reducible apply oinv_ite
    | split
    | (dsimp only; split)
    | refine inv_fst (by with_reducible assumption) ?_
    | refine inv_snd (by with_reducible assumption) ?_

theorem execD3DwellExpiry_inv {q : List Instr} : ∀ s, Inv q s → OInv q (execD3DwellExpiry s) := by
  intro s h
  unfold execD3DwellExpiry
  repeat' first
    | with_reducible assumption
    | with_reducible intro _
    | with_reducible apply toD1_inv
    | with_reducible apply govern_inv
    | with_reducible apply startEntry_inv
    | with_reducible apply startWake_inv
    | with_reducible apply inv_ite
    | with_reducible apply oinv_next
    | with_reducible apply oinv_ite
    | split
    | (dsimp only; split)
    | refine inv_fst (by with_reducible assumption) ?_
    | refine inv_snd (by with_reducible assumption) ?_
    | with_reducible apply Inv.mk_plain
    | (dsimp only; with_reducible apply Inv.mk_plain)

theorem execDrowseAckTimeout_inv {q : List Instr} : ∀ s, Inv q s → OInv q (execDrowseAckTimeout s) := by
  intro s h
  unfold execDrowseAckTimeout
  repeat' first
    | with_reducible assumption
    | with_reducible intro _
    | with_reducible apply startEntry_inv
    | with_reducible apply toD1_inv
    | with_reducible apply inv_ite
    | with_reducible apply oinv_next
    | with_reducible apply oinv_ite
    | split
    | (dsimp only; split)
    | refine inv_fst (by with_reducible assumption) ?_
    | refine inv_snd (by with_reducible assumption) ?_
    | with_reducible apply Inv.mk_plain
    | (dsimp only; with_reducible apply Inv.mk_plain)

theorem execDrowseLevelEntered_inv {q : List Instr} : ∀ s, Inv q s → OInv q (execDrowseLevelEntered s) := by
  intro s h
  unfold execDrowseLevelEntered
  repeat' first
    | with_reducible assumption
    | with_reducible intro _
    | with_reducible apply setMode_inv
    | exact Or.inr rfl
    | exact Or.inl rfl
    | with_reducible apply inv_ite
    | with_reducible apply oinv_next
    | with_reducible apply oinv_ite
    | split
    | (dsimp only; split)
    | refine inv_fst (by with_reducible assumption) ?_
    | refine inv_snd (by with_reducible assumption) ?_
    | with_reducible apply Inv.mk_plain
    | (dsimp only; with_reducible apply Inv.mk_plain)

theorem execRingWriteCapture_inv {q : List Instr} : ∀ x0 x1 x2 x3 s, Inv q s → OInv q (execRingWriteCapture x0 x1 x2 x3 s) := by
  intro x0 x1 x2 x3 s h
  unfold execRingWriteCapture
  repeat' first
    | with_reducible assumption
    | with_reducible intro _
    | with_reducible apply startWake_inv
    | with_reducible apply inv_ite
    | with_reducible apply oinv_next
    | with_reducible apply oinv_ite
    | split
    | (dsimp only; split)
    | refine inv_fst (by with_reducible assumption) ?_
    | refine inv_snd (by with_reducible assumption) ?_
    | with_reducible apply Inv.mk_plain
    | (dsimp only; with_reducible apply Inv.mk_plain)

theorem execWakeSource_inv {q : List Instr} : ∀ x0 s, Inv q s → OInv q (execWakeSource x0 s) := by
  intro x0 s h
  unfold execWakeSource
  repeat' first
    | with_reducible assumption
    | with_reducible intro _
    | with_reducible apply startWake_inv
    | with_reducible apply inv_ite
    | with_reducible apply oinv_next
    | with_reducible apply oinv_ite
    | split
    | (dsimp only; split)
    | refine inv_fst (by with_reducible assumption) ?_
    | refine inv_snd (by with_reducible assumption) ?_

theorem replay_inv {q : List Instr} : ∀ s x1, Inv q s → Inv q (replay s x1) := by
  intro s x1 h
  unfold replay
  repeat' first
    | with_reducible assumption
    | with_reducible intro _
    | with_reducible apply pageWrite_inv
    | with_reducible apply inv_ite
    | split
    | (dsimp only; split)
    | refine inv_fst (by with_reducible assumption) ?_
    | refine inv_snd (by with_reducible assumption) ?_

theorem transferLatches_inv {q : List Instr} : ∀ s, Inv q s → Inv q (transferLatches s) := by
  intro s h
  unfold transferLatches
  repeat' first
    | with_reducible assumption
    | with_reducible intro _
    | with_reducible apply raise_inv
    | with_reducible apply inv_ite
    | with_reducible refine inv_foldl (fun _ _ _ => ?_) _ _ ?_
    | split
    | (dsimp only; split)
    | refine inv_fst (by with_reducible assumption) ?_
    | refine inv_snd (by with_reducible assumption) ?_
    | with_reducible apply Inv.mk_plain
    | (dsimp only; with_reducible apply Inv.mk_plain)

theorem wakeTwin_inv {q : List Instr} : ∀ s, Inv q s → Inv q (wakeTwin s) := by
  intro s h
  unfold wakeTwin
  repeat' first
    | with_reducible assumption
    | with_reducible intro _
    | with_reducible apply retide_inv
    | with_reducible apply reslot_inv
    | with_reducible apply twinPathsTo_inv
    | with_reducible apply updTw_inv
    | with_reducible apply sendCtrl_inv
    | with_reducible apply inv_ite
    | split
    | (dsimp only; split)
    | refine inv_fst (by with_reducible assumption) ?_
    | refine inv_snd (by with_reducible assumption) ?_
    | with_reducible apply Inv.mk_plain
    | (dsimp only; with_reducible apply Inv.mk_plain)

theorem clearMissed_inv {q : List Instr} : ∀ s, Inv q s → Inv q (clearMissed s) := by
  intro s h
  unfold clearMissed
  repeat' first
    | with_reducible assumption
    | with_reducible intro _
    | with_reducible apply inv_ite
    | split
    | (dsimp only; split)
    | refine inv_fst (by with_reducible assumption) ?_
    | refine inv_snd (by with_reducible assumption) ?_
    | with_reducible apply Inv.mk_plain
    | with_reducible refine Inv.mk_paths ?_ (by first | exact id | exact Table.wf_put _ _ _ _ | exact Table.wf_upd _ _ _ _ | exact Table.wf_mapVals _ _ _ | exact Table.wf_putList _ _ _ _ | exact Table.wf_filter _ _ _ | exact fun h => Table.wf_put _ _ _ _ (Table.wf_put _ _ _ _ h) | exact fun _ => rfl)
    | (dsimp only; with_reducible apply Inv.mk_plain)
    | (dsimp only; with_reducible refine Inv.mk_paths ?_ (by first | exact id | exact Table.wf_put _ _ _ _ | exact Table.wf_upd _ _ _ _ | exact Table.wf_mapVals _ _ _ | exact Table.wf_putList _ _ _ _ | exact Table.wf_filter _ _ _ | exact fun h => Table.wf_put _ _ _ _ (Table.wf_put _ _ _ _ h) | exact fun _ => rfl))

theorem lateModes_inv {q : List Instr} : ∀ s, Inv q s → Inv q (lateModes s) := by
  intro s h
  unfold lateModes
  repeat' first
    | with_reducible assumption
    | with_reducible intro _
    | with_reducible apply tamperResponse_inv
    | with_reducible apply maintNow_inv
    | with_reducible apply quarNow_inv
    | with_reducible apply inv_ite
    | split
    | (dsimp only; split)
    | refine inv_fst (by with_reducible assumption) ?_
    | refine inv_snd (by with_reducible assumption) ?_
    | with_reducible apply Inv.mk_plain
    | (dsimp only; with_reducible apply Inv.mk_plain)

theorem negotiate_inv {q : List Instr} : ∀ s, Inv q s → Inv q (negotiate s) := by
  intro s h
  unfold negotiate
  repeat' first
    | with_reducible assumption
    | with_reducible intro _
    | with_reducible apply sendCtrl_inv
    | with_reducible apply inv_ite
    | split
    | (dsimp only; split)
    | refine inv_fst (by with_reducible assumption) ?_
    | refine inv_snd (by with_reducible assumption) ?_
    | with_reducible apply Inv.mk_plain
    | (dsimp only; with_reducible apply Inv.mk_plain)

theorem execWakeComplete_inv {q : List Instr} : ∀ s, Inv q s → OInv q (execWakeComplete s) := by
  intro s h
  unfold execWakeComplete
  repeat' first
    | with_reducible assumption
    | with_reducible intro _
    | with_reducible apply clearMissed_inv
    | with_reducible apply setMode_inv
    | with_reducible apply wakeTwin_inv
    | with_reducible apply transferLatches_inv
    | with_reducible apply replay_inv
    | with_reducible apply negotiate_inv
    | with_reducible apply lateModes_inv
    | exact Or.inr rfl
    | exact Or.inl rfl
    | with_reducible apply inv_ite
    | with_reducible apply oinv_next
    | with_reducible apply oinv_ite
    | with_reducible refine inv_foldl (fun _ _ _ => ?_) _ _ ?_
    | split
    | (dsimp only; split)
    | refine inv_fst (by with_reducible assumption) ?_
    | refine inv_snd (by with_reducible assumption) ?_
    | with_reducible apply Inv.mk_plain
    | (dsimp only; with_reducible apply Inv.mk_plain)

theorem execHeartbeatUnitSend_inv {q : List Instr} : ∀ s, Inv q s → OInv q (execHeartbeatUnitSend s) := by
  intro s h
  unfold execHeartbeatUnitSend
  repeat' first
    | with_reducible assumption
    | with_reducible intro _
    | with_reducible apply sendHeartbeat_inv
    | with_reducible apply sendMembers_inv
    | with_reducible apply inv_ite
    | with_reducible apply oinv_next
    | with_reducible apply oinv_ite
    | with_reducible refine inv_foldl (fun _ _ _ => ?_) _ _ ?_
    | split
    | (dsimp only; split)
    | refine inv_fst (by with_reducible assumption) ?_
    | refine inv_snd (by with_reducible assumption) ?_

end Sys2Proof.Machine
end

