-- ==== Sys2Proof/Laws/InvTick.lean ====
section
/-! SUPPORT. Laws/InvTick.lean: every function of Machine/Tick.lean keeps the invariant of a sound state. -/

namespace Sys2Proof.Machine

theorem execTargetWake_inv {q : List Instr} : ∀ x0 s, Inv q s → OInv q (execTargetWake x0 s) := by
  intro x0 s h
  unfold execTargetWake
  repeat' first
    | with_reducible assumption
    | with_reducible intro _
    | with_reducible apply startWake_inv
    | with_reducible apply inv_ite
    | with_reducible apply oinv_next
    | with_reducible apply oinv_ite
    | split
    | (dsimp only; split)
    | refine inv_fst (by with_reducible assumption) ?_
    | refine inv_snd (by with_reducible assumption) ?_

theorem watchdogFire_inv {q : List Instr} : ∀ s x1, Inv q s → Inv q (watchdogFire s x1) := by
  intro s x1 h
  unfold watchdogFire
  repeat' first
    | with_reducible assumption
    | with_reducible intro _
    | with_reducible apply setPilot_inv
    | with_reducible apply srcSwitch_inv
    | with_reducible apply watchdogBoundary_inv
    | with_reducible apply inv_ite
    | split
    | (dsimp only; split)
    | refine inv_fst (by with_reducible assumption) ?_
    | refine inv_snd (by with_reducible assumption) ?_

theorem execWatchdogExpiry_inv {q : List Instr} : ∀ x0 s, Inv q s → OInv q (execWatchdogExpiry x0 s) := by
  intro x0 s h
  unfold execWatchdogExpiry
  repeat' first
    | with_reducible assumption
    | with_reducible intro _
    | with_reducible apply watchdogFire_inv
    | with_reducible apply inv_ite
    | with_reducible apply oinv_next
    | with_reducible apply oinv_ite
    | split
    | (dsimp only; split)
    | refine inv_fst (by with_reducible assumption) ?_
    | refine inv_snd (by with_reducible assumption) ?_

theorem bwdFirst_inv {q : List Instr} : ∀ s, Inv q s → Inv q (bwdFirst s) := by
  intro s h
  unfold bwdFirst
  repeat' first
    | with_reducible assumption
    | with_reducible intro _
    | with_reducible apply quarantine_inv
    | with_reducible apply maintNow_inv
    | with_reducible apply inv_ite
    | split
    | (dsimp only; split)
    | refine inv_fst (by with_reducible assumption) ?_
    | refine inv_snd (by with_reducible assumption) ?_
    | with_reducible apply Inv.mk_plain
    | (dsimp only; with_reducible apply Inv.mk_plain)

theorem bwdSecond_inv {q : List Instr} : ∀ s, Inv q s → Inv q (bwdSecond s) := by
  intro s h
  unfold bwdSecond
  repeat' first
    | with_reducible assumption
    | with_reducible intro _
    | with_reducible apply inv_ite
    | split
    | (dsimp only; split)
    | refine inv_fst (by with_reducible assumption) ?_
    | refine inv_snd (by with_reducible assumption) ?_
    | with_reducible apply Inv.mk_plain
    | (dsimp only; with_reducible apply Inv.mk_plain)

theorem execBwdStage1_inv {q : List Instr} : ∀ s, Inv q s → OInv q (execBwdStage1 s) := by
  intro s h
  unfold execBwdStage1
  repeat' first
    | with_reducible assumption
    | with_reducible intro _
    | with_reducible apply bwdFirst_inv
    | with_reducible apply inv_ite
    | with_reducible apply oinv_next
    | with_reducible apply oinv_ite
    | split
    | (dsimp only; split)
    | refine inv_fst (by with_reducible assumption) ?_
    | refine inv_snd (by with_reducible assumption) ?_

theorem execBwdStage2_inv {q : List Instr} : ∀ s, Inv q s → OInv q (execBwdStage2 s) := by
  intro s h
  unfold execBwdStage2
  repeat' first
    | with_reducible assumption
    | with_reducible intro _
    | with_reducible apply bwdSecond_inv
    | with_reducible apply inv_ite
    | with_reducible apply oinv_next
    | with_reducible apply oinv_ite
    | split
    | (dsimp only; split)
    | refine inv_fst (by with_reducible assumption) ?_
    | refine inv_snd (by with_reducible assumption) ?_

theorem tickLease_inv {q : List Instr} : ∀ x0 s x2, Inv q s → Inv q (tickLease x0 s x2) := by
  intro x0 s x2 h
  unfold tickLease
  repeat' first
    | with_reducible assumption
    | with_reducible intro _
    | with_reducible apply leaseBreakDebug_inv
    | with_reducible apply breakMoor_inv
    | with_reducible apply setMoor_inv
    | with_reducible apply inv_ite
    | split
    | (dsimp only; split)
    | refine inv_fst (by with_reducible assumption) ?_
    | refine inv_snd (by with_reducible assumption) ?_

theorem tickFast_inv {q : List Instr} : ∀ s, Inv q s → Inv q (tickFast s) := by
  intro s h
  unfold tickFast
  repeat' first
    | with_reducible assumption
    | with_reducible intro _
    | with_reducible apply tickLease_inv
    | with_reducible apply tickEcnt_inv
    | with_reducible apply inv_ite
    | with_reducible refine inv_foldl (fun _ _ _ => ?_) _ _ ?_
    | split
    | (dsimp only; split)
    | refine inv_fst (by with_reducible assumption) ?_
    | refine inv_snd (by with_reducible assumption) ?_
    | with_reducible apply Inv.mk_plain
    | (dsimp only; with_reducible apply Inv.mk_plain)

theorem tickWatchdog_inv {q : List Instr} : ∀ s x1, Inv q s → Inv q (tickWatchdog s x1) := by
  intro s x1 h
  unfold tickWatchdog
  repeat' first
    | with_reducible assumption
    | with_reducible intro _
    | with_reducible apply watchdogFire_inv
    | with_reducible apply setPilot_inv
    | with_reducible apply inv_ite
    | split
    | (dsimp only; split)
    | refine inv_fst (by with_reducible assumption) ?_
    | refine inv_snd (by with_reducible assumption) ?_

theorem tickBwd_inv {q : List Instr} : ∀ s, Inv q s → Inv q (tickBwd s) := by
  intro s h
  unfold tickBwd
  repeat' first
    | with_reducible assumption
    | with_reducible intro _
    | with_reducible apply bwdFirst_inv
    | with_reducible apply bwdSecond_inv
    | with_reducible apply inv_ite
    | split
    | (dsimp only; split)
    | refine inv_fst (by with_reducible assumption) ?_
    | refine inv_snd (by with_reducible assumption) ?_
    | with_reducible apply Inv.mk_plain
    | (dsimp only; with_reducible apply Inv.mk_plain)

theorem tickRes_inv {q : List Instr} : ∀ s, Inv q s → Inv q (tickRes s) := by
  intro s h
  unfold tickRes
  repeat' first
    | with_reducible assumption
    | with_reducible intro _
    | with_reducible apply inv_ite
    | split
    | (dsimp only; split)
    | refine inv_fst (by with_reducible assumption) ?_
    | refine inv_snd (by with_reducible assumption) ?_
    | with_reducible apply Inv.mk_plain
    | (dsimp only; with_reducible apply Inv.mk_plain)

theorem tickTide_inv {q : List Instr} : ∀ s, Inv q s → Inv q (tickTide s) := by
  intro s h
  unfold tickTide
  repeat' first
    | with_reducible assumption
    | with_reducible intro _
    | with_reducible apply tickBell_inv
    | with_reducible apply tickEcnt_inv
    | with_reducible apply tickRes_inv
    | with_reducible apply tickBwd_inv
    | with_reducible apply tickWatchdog_inv
    | with_reducible apply inv_ite
    | with_reducible refine inv_foldl (fun _ _ _ => ?_) _ _ ?_
    | split
    | (dsimp only; split)
    | refine inv_fst (by with_reducible assumption) ?_
    | refine inv_snd (by with_reducible assumption) ?_
    | with_reducible apply Inv.mk_plain
    | (dsimp only; with_reducible apply Inv.mk_plain)

theorem tick_inv {q : List Instr} : ∀ s, Inv q s → Inv q (tick s) := by
  intro s h
  unfold tick
  repeat' first
    | with_reducible assumption
    | with_reducible intro _
    | with_reducible apply tickFast_inv
    | with_reducible apply tickTide_inv
    | with_reducible apply inv_ite
    | split
    | (dsimp only; split)
    | refine inv_fst (by with_reducible assumption) ?_
    | refine inv_snd (by with_reducible assumption) ?_
    | with_reducible apply Inv.mk_plain
    | (dsimp only; with_reducible apply Inv.mk_plain)

end Sys2Proof.Machine
end

