-- ==== Sys2Proof/Laws/InvDispatch.lean ====
section
/-! SUPPORT. Laws/InvDispatch.lean: every function of Machine/Dispatch.lean keeps the invariant of a sound state. -/

namespace Sys2Proof.Machine

/-- Every command keeps the invariant and the queue. -/
theorem exec_inv {q : List Instr} (i : Instr) (s : State) (hInv : Inv q s) : OInv q (exec i s) := by
  cases i with
  | submissionDoorbell w => exact execSubmissionDoorbell_inv w _ hInv
  | completionDoorbell w => exact execCompletionDoorbell_inv w _ hInv
  | resume w => exact execResume_inv w _ hInv
  | cancel w => exact execCancel_inv w _ hInv
  | maskWrite w => exact execMaskWrite_inv w _ hInv
  | ringEnable rq n v => exact execRingEnable_inv rq n v _ hInv
  | ringDisable rq n v => exact execRingDisable_inv rq n v _ hInv
  | venClear rq n v => exact execVenClear_inv rq n v _ hInv
  | ltolWrite rq n v => exact execLtolWrite_inv rq n v _ hInv
  | stampExamine => exact execStampExamine_inv _ hInv
  | entryDue n => exact execEntryDue_inv n _ hInv
  | admissionPick => exact execAdmissionPick_inv _ hInv
  | apick f => exact execApick_inv f _ hInv
  | pickReadDone p ok data => exact execPickReadDone_inv p ok data _ hInv
  | aend f => exact execAend_inv f _ hInv
  | declineFinalRecord n => exact execDeclineFinalRecord_inv n _ hInv
  | heldRecordWrite idx => exact execHeldRecordWrite_inv idx _ hInv
  | finalRecordWrite n => exact execFinalRecordWrite_inv n _ hInv
  | holdoffExpiry n => exact execHoldoffExpiry_inv n _ hInv
  | holdExpiry idx => exact execHoldExpiry_inv idx _ hInv
  | planeBurstRevoke plane => exact execPlaneBurstRevoke_inv plane _ hInv
  | malloc f => exact execMalloc_inv f _ hInv
  | mallocG f => exact execMallocG_inv f _ hInv
  | mallocS f => exact execMallocS_inv f _ hInv
  | mallocV f => exact execMallocV_inv f _ hInv
  | mget f => exact execMget_inv f _ hInv
  | mput f => exact execMput_inv f _ hInv
  | mstep f => exact execMstep_inv f _ hInv
  | mwack f => exact execMwack_inv f _ hInv
  | mdecl f => exact execMdecl_inv f _ hInv
  | moor f => exact execMoor_inv f _ hInv
  | unmoor f => exact execUnmoor_inv f _ hInv
  | mnoteW f => exact execMnoteW_inv f _ hInv
  | mnoteR f => exact execMnoteR_inv f _ hInv
  | mforce f => exact execMforce_inv f _ hInv
  | mrq f => exact execMrq_inv f _ hInv
  | mscan f upto => exact execMscan_inv f upto _ hInv
  | mglean f => exact execMglean_inv f _ hInv
  | gleanerResume => exact execGleanerResume_inv _ hInv
  | gleanerDone => exact execGleanerDone_inv _ hInv
  | leaseExpiry m => exact execLeaseExpiry_inv m _ hInv
  | rollbackComplete idx => exact execRollbackComplete_inv idx _ hInv
  | mirror h units => exact execMirror_inv h units _ hInv
  | mack h cum => exact execMack_inv h cum _ hInv
  | mirrorFrameSend => exact execMirrorFrameSend_inv _ hInv
  | heartbeatSend => exact execHeartbeatSend_inv _ hInv
  | heartbeat h b => exact execHeartbeat_inv h b _ hInv
  | hbsusp h => exact execHbsusp_inv h _ hInv
  | pathMissedInterval p => exact execPathMissedInterval_inv p _ hInv
  | pathEnable rq p v => exact execPathEnable_inv rq p v _ hInv
  | pathDisable rq p v => exact execPathDisable_inv rq p v _ hInv
  | ack h sack q1 q2 => exact execAck_inv h sack q1 q2 _ hInv
  | retransmitTimer p lane seq => exact execRetransmitTimer_inv p lane seq _ hInv
  | memberSend => exact execMemberSend_inv _ hInv
  | member h b => exact execMember_inv h b _ hInv
  | memberDrop num => exact execMemberDrop_inv num _ hInv
  | fenced h => exact execFenced_inv h _ hInv
  | unpairMessage h => exact execUnpairMessage_inv h _ hInv
  | pair h => exact execPair_inv h _ hInv
  | pairAck h => exact execPairAck_inv h _ hInv
  | pairSend => exact execPairSend_inv _ hInv
  | drowseReq h => exact execDrowseReq_inv h _ hInv
  | drowseAck h => exact execDrowseAck_inv h _ hInv
  | wake h => exact execWake_inv h _ hInv
  | wakeTimeout => exact execWakeTimeout_inv _ hInv
  | fence h num => exact execFence_inv h num _ hInv
  | rcmd h rqid berth fused sqe => exact execRcmd_inv h rqid berth fused sqe _ hInv
  | rdata h rqid off last data => exact execRdata_inv h rqid off last data _ hInv
  | rcpl h rqid rstat st => exact execRcpl_inv h rqid rstat st _ hInv
  | noentRetry idx => exact execNoentRetry_inv idx _ hInv
  | abort h rqid => exact execAbort_inv h rqid _ hInv
  | quiesce h berth => exact execQuiesce_inv h berth _ hInv
  | quiesceAckSend berth => exact execQuiesceAckSend_inv berth _ hInv
  | quiesceAck h berth => exact execQuiesceAck_inv h berth _ hInv
  | tideRequestSend => exact execTideRequestSend_inv _ hInv
  | tideRequest h tagid t1 => exact execTideRequest_inv h tagid t1 _ hInv
  | tideResponse h stratum tagid t1 t2 t3 => exact execTideResponse_inv h stratum tagid t1 t2 t3 _ hInv
  | tideSlew => exact execTideSlew_inv _ hInv
  | missedInterval => exact execMissedInterval_inv _ hInv
  | clockRaiseHoldEnd => exact execClockRaiseHoldEnd_inv _ hInv
  | twinDeclaredLost => exact execTwinDeclaredLost_inv _ hInv
  | fencingStart => exact execFencingStart_inv _ hInv
  | preemptAndAbortDone nguid status => exact execPreemptAndAbortDone_inv nguid status _ hInv
  | adoptionReadDone n ok recs => exact execAdoptionReadDone_inv n ok recs _ hInv
  | adoptionReadRetry n => exact execAdoptionReadRetry_inv n _ hInv
  | retwinSearch => exact execRetwinSearch_inv _ hInv
  | unpairDrained => exact execUnpairDrained_inv _ hInv
  | lgo f => exact execLgo_inv f _ hInv
  | lstop f => exact execLstop_inv f _ hInv
  | lfree f => exact execLfree_inv f _ hInv
  | lighterOrderStart l hostErr slist dlist => exact execLighterOrderStart_inv l hostErr slist dlist _ hInv
  | lighterOrderComplete l mv => exact execLighterOrderComplete_inv l mv _ hInv
  | stagingWrite dba data => exact execStagingWrite_inv dba data _ hInv
  | baywaitResume => exact execBaywaitResume_inv _ hInv
  | stagingRead port dba len => exact execStagingRead_inv port dba len _ hInv
  | prpListRead port dba => exact execPrpListRead_inv port dba _ hInv
  | cellarDeviceAccess c dba write data => exact execCellarDeviceAccess_inv c dba write data _ hInv
  | cellarStarve b => exact execCellarStarve_inv b _ hInv
  | celOwnWrite rq b v => exact execCelOwnWrite_inv rq b v _ hInv
  | bankWipeDone b => exact execBankWipeDone_inv b _ hInv
  | keyEnable rq h v => exact execKeyEnable_inv rq h v _ hInv
  | generationInstalled h => exact execGenerationInstalled_inv h _ hInv
  | cipherAlarm => exact execCipherAlarm_inv _ hInv
  | controllerStart c info => exact execControllerStart_inv c info _ hInv
  | controllerStepTimeout c step => exact execControllerStepTimeout_inv c step _ hInv
  | dockProbe c answered rdy cfs => exact execDockProbe_inv c answered rdy cfs _ hInv
  | smartLogRead c warn => exact execSmartLogRead_inv c warn _ hInv
  | deviceCompletion q cid status => exact execDeviceCompletion_inv q cid status _ hInv
  | commandTimeout q late => exact execCommandTimeout_inv q late _ hInv
  | pcieError c => exact execPcieError_inv c _ hInv
  | retryDelayExpiry idx => exact execRetryDelayExpiry_inv idx _ hInv
  | psettleExpiry idx record range => exact execPsettleExpiry_inv idx record range _ hInv
  | npwaitExpiry idx => exact execNpwaitExpiry_inv idx _ hInv
  | berthStateWrite rq b v => exact execBerthStateWrite_inv rq b v _ hInv
  | berthNguidWrite rq b hi v => exact execBerthNguidWrite_inv rq b hi v _ hInv
  | slotValidWrite rq b k v => exact execSlotValidWrite_inv rq b k v _ hInv
  | add f => exact execAdd_inv f _ hInv
  | adc f => exact execAdc_inv f _ hInv
  | sub f => exact execSub_inv f _ hInv
  | sbb f => exact execSbb_inv f _ hInv
  | and f => exact execAnd_inv f _ hInv
  | or f => exact execOr_inv f _ hInv
  | xor f => exact execXor_inv f _ hInv
  | andn f => exact execAndn_inv f _ hInv
  | shl f => exact execShl_inv f _ hInv
  | shr f => exact execShr_inv f _ hInv
  | sar f => exact execSar_inv f _ hInv
  | rol f => exact execRol_inv f _ hInv
  | ror f => exact execRor_inv f _ hInv
  | cmp f => exact execCmp_inv f _ hInv
  | tst f => exact execTst_inv f _ hInv
  | neg f => exact execNeg_inv f _ hInv
  | not f => exact execNot_inv f _ hInv
  | min f => exact execMin_inv f _ hInv
  | max f => exact execMax_inv f _ hInv
  | minu f => exact execMinu_inv f _ hInv
  | maxu f => exact execMaxu_inv f _ hInv
  | clz f => exact execClz_inv f _ hInv
  | popc f => exact execPopc_inv f _ hInv
  | bswap f => exact execBswap_inv f _ hInv
  | addi f => exact execAddi_inv f _ hInv
  | andi f => exact execAndi_inv f _ hInv
  | ori f => exact execOri_inv f _ hInv
  | xori f => exact execXori_inv f _ hInv
  | cmpi f => exact execCmpi_inv f _ hInv
  | shi f => exact execShi_inv f _ hInv
  | movi f => exact execMovi_inv f _ hInv
  | mul f => exact execMul_inv f _ hInv
  | mulu f => exact execMulu_inv f _ hInv
  | div f => exact execDiv_inv f _ hInv
  | divu f => exact execDivu_inv f _ hInv
  | xmac f => exact execXmac_inv f _ hInv
  | xmacu f => exact execXmacu_inv f _ hInv
  | mfx f => exact execMfx_inv f _ hInv
  | mtx f => exact execMtx_inv f _ hInv
  | xclr f => exact execXclr_inv f _ hInv
  | dadd f => exact execDadd_inv f _ hInv
  | dsub f => exact execDsub_inv f _ hInv
  | dcmp f => exact execDcmp_inv f _ hInv
  | cvd f => exact execCvd_inv f _ hInv
  | cvb f => exact execCvb_inv f _ hInv
  | daddm f upto => exact execDaddm_inv f upto _ hInv
  | dsubm f upto => exact execDsubm_inv f upto _ hInv
  | dmulm f upto => exact execDmulm_inv f upto _ hInv
  | mov f => exact execMov_inv f _ hInv
  | retag f => exact execRetag_inv f _ hInv
  | clrt f => exact execClrt_inv f _ hInv
  | tagof f => exact execTagof_inv f _ hInv
  | ld f => exact execLd_inv f _ hInv
  | st f => exact execSt_inv f _ hInv
  | lea f => exact execLea_inv f _ hInv
  | ldx f => exact execLdx_inv f _ hInv
  | stx f => exact execStx_inv f _ hInv
  | ldu8 f => exact execLdu8_inv f _ hInv
  | ldu16 f => exact execLdu16_inv f _ hInv
  | ldu32 f => exact execLdu32_inv f _ hInv
  | st8 f => exact execSt8_inv f _ hInv
  | st16 f => exact execSt16_inv f _ hInv
  | st32 f => exact execSt32_inv f _ hInv
  | ldt f => exact execLdt_inv f _ hInv
  | push f => exact execPush_inv f _ hInv
  | pop f => exact execPop_inv f _ hInv
  | ldl f => exact execLdl_inv f _ hInv
  | stl f => exact execStl_inv f _ hInv
  | b f => exact execB_inv f _ hInv
  | call f => exact execCall_inv f _ hInv
  | jmpr f => exact execJmpr_inv f _ hInv
  | callr f => exact execCallr_inv f _ hInv
  | ret f => exact execRet_inv f _ hInv
  | rsspill f => exact execRsspill_inv f _ hInv
  | rsfill f => exact execRsfill_inv f _ hInv
  | lexit f => exact execLexit_inv f _ hInv
  | leapc f => exact execLeapc_inv f _ hInv
  | loop f => exact execLoop_inv f _ hInv
  | bmove f upto => exact execBmove_inv f upto _ hInv
  | ksrch f upto => exact execKsrch_inv f upto _ hInv
  | mfc f => exact execMfc_inv f _ hInv
  | mtc f => exact execMtc_inv f _ hInv
  | evtake f => exact execEvtake_inv f _ hInv
  | eveoi f => exact execEveoi_inv f _ hInv
  | reltake f => exact execReltake_inv f _ hInv
  | wdkick f => exact execWdkick_inv f _ hInv
  | stim f n => exact execStim_inv f n _ hInv
  | nop f => exact execNop_inv f _ hInv
  | sync f => exact execSync_inv f _ hInv
  | wait f => exact execWait_inv f _ hInv
  | gate f => exact execGate_inv f _ hInv
  | rte f => exact execRte_inv f _ hInv
  | bank f => exact execBank_inv f _ hInv
  | ctxsv f => exact execCtxsv_inv f _ hInv
  | ctxld f => exact execCtxld_inv f _ hInv
  | bkpt f => exact execBkpt_inv f _ hInv
  | movl f => exact execMovl_inv f _ hInv
  | movh f => exact execMovh_inv f _ hInv
  | addl f => exact execAddl_inv f _ hInv
  | cmpl f => exact execCmpl_inv f _ hInv
  | customRoutine k fn f => exact execCustomRoutine_inv k fn f _ hInv
  | eventDelivery p lost => exact execEventDelivery_inv p lost _ hInv
  | edgeSource n => exact execEdgeSource_inv n _ hInv
  | levelSourceChange n v => exact execLevelSourceChange_inv n v _ hInv
  | targetWake n => exact execTargetWake_inv n _ hInv
  | orphanTimeout n => exact execOrphanTimeout_inv n _ hInv
  | evcRaise rq v => exact execEvcRaise_inv rq v _ hInv
  | sourceDisable rq n v => exact execSourceDisable_inv rq n v _ hInv
  | bellCmpWrite rq n v => exact execBellCmpWrite_inv rq n v _ hInv
  | bellEnable rq n v => exact execBellEnable_inv rq n v _ hInv
  | bellPeriodWrite rq n v => exact execBellPeriodWrite_inv rq n v _ hInv
  | bellFire n => exact execBellFire_inv n _ hInv
  | periodicBellFire n => exact execPeriodicBellFire_inv n _ hInv
  | ecountOverflow k => exact execEcountOverflow_inv k _ hInv
  | watchdogExpiry p => exact execWatchdogExpiry_inv p _ hInv
  | bwdKick rq words => exact execBwdKick_inv rq words _ hInv
  | bwdStage1 => exact execBwdStage1_inv _ hInv
  | bwdStage2 => exact execBwdStage2_inv _ hInv
  | porRelease lc tamper => exact execPorRelease_inv lc tamper _ hInv
  | porAssert => exact execPorAssert_inv _ hInv
  | warmReset => exact execWarmReset_inv _ hInv
  | keyValid => exact execKeyValid_inv _ hInv
  | keyWaitTimeout => exact execKeyWaitTimeout_inv _ hInv
  | sramPhase1End ok => exact execSramPhase1End_inv ok _ hInv
  | charterSlotLoad slotB h => exact execCharterSlotLoad_inv slotB h _ hInv
  | charterPayloadDone flashErr tagOk digestOk secs => exact execCharterPayloadDone_inv flashErr tagOk digestOk secs _ hInv
  | provingEnd r => exact execProvingEnd_inv r _ hInv
  | maintenanceDrained => exact execMaintenanceDrained_inv _ hInv
  | tamper => exact execTamper_inv _ hInv
  | lifecycleChange lc => exact execLifecycleChange_inv lc _ hInv
  | tideRefLoss => exact execTideRefLoss_inv _ hInv
  | sensorSample temps volts procs => exact execSensorSample_inv temps volts procs _ hInv
  | throttleStep up => exact execThrottleStep_inv up _ hInv
  | thermalCritical sensor reading => exact execThermalCritical_inv sensor reading _ hInv
  | voltageCritical monitor reading => exact execVoltageCritical_inv monitor reading _ hInv
  | thermalTrip => exact execThermalTrip_inv _ hInv
  | governorEvaluate => exact execGovernorEvaluate_inv _ hInv
  | d2DwellExpiry => exact execD2DwellExpiry_inv _ hInv
  | d3DwellExpiry => exact execD3DwellExpiry_inv _ hInv
  | drowseAckTimeout => exact execDrowseAckTimeout_inv _ hInv
  | ringWriteCapture lp off data be => exact execRingWriteCapture_inv lp off data be _ hInv
  | wakeSource cause => exact execWakeSource_inv cause _ hInv
  | wakeComplete => exact execWakeComplete_inv _ hInv
  | heartbeatUnitSend => exact execHeartbeatUnitSend_inv _ hInv
  | echo m => exact execEcho_inv m _ hInv
  | stageBegin m => exact execStageBegin_inv m _ hInv
  | stageData m => exact execStageData_inv m _ hInv
  | stageCommit m h flashErr => exact execStageCommit_inv m h flashErr _ hInv
  | rollout m env => exact execRollout_inv m env _ hInv
  | rolloutNextCluster => exact execRolloutNextCluster_inv _ hInv
  | graft m env => exact execGraft_inv m env _ hInv
  | bootctl m => exact execBootctl_inv m _ hInv
  | unpair m => exact execUnpair_inv m _ hInv
  | quarantine m => exact execQuarantine_inv m _ hInv
  | maintenance m => exact execMaintenance_inv m _ hInv
  | logread m => exact execLogread_inv m _ hInv
  | keyacct m => exact execKeyacct_inv m _ hInv
  | svnset m => exact execSvnset_inv m _ hInv
  | lcadv m => exact execLcadv_inv m _ hInv
  | logPageWrite => exact execLogPageWrite_inv _ hInv
  | hmRestart => exact execHmRestart_inv _ hInv
  | vinLoad rq v => exact execVinLoad_inv rq v _ hInv
  | vinLoadDone env => exact execVinLoadDone_inv env _ hInv
  | selWrite rq c v => exact execSelWrite_inv rq c v _ hInv
  | holdWrite rq c v => exact execHoldWrite_inv rq c v _ hInv
  | graftMatchWrite rq c k v => exact execGraftMatchWrite_inv rq c k v _ hInv
  | retryCompare p agree sweepOk => exact execRetryCompare_inv p agree sweepOk _ hInv
  | pilotTestDone p pass => exact execPilotTestDone_inv p pass _ hInv
  | injectionTest p pass again => exact execInjectionTest_inv p pass again _ hInv
  | injectionForce p => exact execInjectionForce_inv p _ hInv
  | injnow rq c v => exact execInjnow_inv rq c v _ hInv
  | forceOnce rq p v => exact execForceOnce_inv rq p v _ hInv
  | forceTwice rq p v => exact execForceTwice_inv rq p v _ hInv
  | debugPeek v => exact execDebugPeek_inv v _ hInv
  | debugTake v => exact execDebugTake_inv v _ hInv
  | debugWrite v => exact execDebugWrite_inv v _ hInv
  | extRequest rq hi v => exact execExtRequest_inv rq hi v _ hInv
  | remapWrite rq c k v => exact execRemapWrite_inv rq c k v _ hInv
  | syncPacket => exact execSyncPacket_inv _ hInv
  | idcode => exact execIdcode_inv _ hInv
  | daddr shift => exact execDaddr_inv shift _ hInv
  | dctrl shift => exact execDctrl_inv shift _ hInv
  | ddata shift => exact execDdata_inv shift _ hInv
  | bypass => exact execBypass_inv _ hInv
  | tapReset => exact execTapReset_inv _ hInv
  | quayCompletion r q => exact execQuayCompletion_inv r q _ hInv
  | quayCreditReturn port lane cnt => exact execQuayCreditReturn_inv port lane cnt _ hInv
  | fstatTake rq port slot => exact execFstatTake_inv rq port slot _ hInv
  | ftxGo rq port v => exact execFtxGo_inv rq port v _ hInv
  | registerTake rq wide off => exact execRegisterTake_inv rq wide off _ hInv
  | registerWrite rq wide off v => exact execRegisterWrite_inv rq wide off v _ hInv
  | harbourmasterMemoryTestEnd ok octal => exact execHarbourmasterMemoryTestEnd_inv ok octal _ hInv
  | drowseLevelEntered => exact execDrowseLevelEntered_inv _ hInv

end Sys2Proof.Machine
end

