-- ==== Sys2Proof/Laws/State.lean ====
section
/-! SUPPORT. Laws/State.lean: what the named updates of the state leave, field by field and reader by reader, each true by
`rfl`; and what a reader answers at the index just written. -/

namespace Sys2Proof.Machine

section
variable (s : State) (k : Nat) (w : TWord)

@[simp] theorem setHmWord_blk : (setHmWord s k w).blk = s.blk := rfl
@[simp] theorem setHmWord_tide : (setHmWord s k w).tide = s.tide := rfl
@[simp] theorem setHmWord_bells : (setHmWord s k w).bells = s.bells := rfl
@[simp] theorem setHmWord_ecnt : (setHmWord s k w).ecnt = s.ecnt := rfl
@[simp] theorem setHmWord_bwd : (setHmWord s k w).bwd = s.bwd := rfl
@[simp] theorem setHmWord_evc : (setHmWord s k w).evc = s.evc := rfl
@[simp] theorem setHmWord_rings : (setHmWord s k w).rings = s.rings := rfl
@[simp] theorem setHmWord_pick : (setHmWord s k w).pick = s.pick := rfl
@[simp] theorem setHmWord_wm : (setHmWord s k w).wm = s.wm := rfl
@[simp] theorem setHmWord_sres : (setHmWord s k w).sres = s.sres := rfl
@[simp] theorem setHmWord_resvRefused : (setHmWord s k w).resvRefused = s.resvRefused := rfl
@[simp] theorem setHmWord_own : (setHmWord s k w).own = s.own := rfl
@[simp] theorem setHmWord_mirror : (setHmWord s k w).mirror = s.mirror := rfl
@[simp] theorem setHmWord_moor : (setHmWord s k w).moor = s.moor := rfl
@[simp] theorem setHmWord_recq : (setHmWord s k w).recq = s.recq := rfl
@[simp] theorem setHmWord_hbr : (setHmWord s k w).hbr = s.hbr := rfl
@[simp] theorem setHmWord_hm : (setHmWord s k w).hm = s.hm := rfl
@[simp] theorem setHmWord_mbrkLease : (setHmWord s k w).mbrkLease = s.mbrkLease := rfl
@[simp] theorem setHmWord_mbrkFault : (setHmWord s k w).mbrkFault = s.mbrkFault := rfl
@[simp] theorem setHmWord_mlast : (setHmWord s k w).mlast = s.mlast := rfl
@[simp] theorem setHmWord_xc : (setHmWord s k w).xc = s.xc := rfl
@[simp] theorem setHmWord_admSeq : (setHmWord s k w).admSeq = s.admSeq := rfl
@[simp] theorem setHmWord_tw : (setHmWord s k w).tw = s.tw := rfl
@[simp] theorem setHmWord_paths : (setHmWord s k w).paths = s.paths := rfl
@[simp] theorem setHmWord_plc : (setHmWord s k w).plc = s.plc := rfl
@[simp] theorem setHmWord_members : (setHmWord s k w).members = s.members := rfl
@[simp] theorem setHmWord_berths : (setHmWord s k w).berths = s.berths := rfl
@[simp] theorem setHmWord_ctls : (setHmWord s k w).ctls = s.ctls := rfl
@[simp] theorem setHmWord_dqs : (setHmWord s k w).dqs = s.dqs := rfl
@[simp] theorem setHmWord_dcmds : (setHmWord s k w).dcmds = s.dcmds := rfl
@[simp] theorem setHmWord_resvs : (setHmWord s k w).resvs = s.resvs := rfl
@[simp] theorem setHmWord_dock : (setHmWord s k w).dock = s.dock := rfl
@[simp] theorem setHmWord_serves : (setHmWord s k w).serves = s.serves := rfl
@[simp] theorem setHmWord_pilots : (setHmWord s k w).pilots = s.pilots := rfl
@[simp] theorem setHmWord_cask : (setHmWord s k w).cask = s.cask := rfl
@[simp] theorem setHmWord_cellar : (setHmWord s k w).cellar = s.cellar := rfl
@[simp] theorem setHmWord_celOwn : (setHmWord s k w).celOwn = s.celOwn := rfl
@[simp] theorem setHmWord_bays : (setHmWord s k w).bays = s.bays := rfl
@[simp] theorem setHmWord_arbCount : (setHmWord s k w).arbCount = s.arbCount := rfl
@[simp] theorem setHmWord_arbs : (setHmWord s k w).arbs = s.arbs := rfl
@[simp] theorem setHmWord_ltr : (setHmWord s k w).ltr = s.ltr := rfl
@[simp] theorem setHmWord_boot : (setHmWord s k w).boot = s.boot := rfl
@[simp] theorem setHmWord_pwr : (setHmWord s k w).pwr = s.pwr := rfl
@[simp] theorem setHmWord_code : (setHmWord s k w).code = s.code := rfl
@[simp] theorem setHmWord_chk : (setHmWord s k w).chk = s.chk := rfl
@[simp] theorem setHmWord_csrc : (setHmWord s k w).csrc = s.csrc := rfl
@[simp] theorem setHmWord_gm : (setHmWord s k w).gm = s.gm := rfl
@[simp] theorem setHmWord_vbank : (setHmWord s k w).vbank = s.vbank := rfl
@[simp] theorem setHmWord_graft : (setHmWord s k w).graft = s.graft := rfl
@[simp] theorem setHmWord_vin : (setHmWord s k w).vin = s.vin := rfl
@[simp] theorem setHmWord_dbg : (setHmWord s k w).dbg = s.dbg := rfl
@[simp] theorem setHmWord_fstop : (setHmWord s k w).fstop = s.fstop := rfl
@[simp] theorem setHmWord_fwin : (setHmWord s k w).fwin = s.fwin := rfl
@[simp] theorem setHmWord_qtx : (setHmWord s k w).qtx = s.qtx := rfl
@[simp] theorem setHmWord_ctlRdat : (setHmWord s k w).ctlRdat = s.ctlRdat := rfl
@[simp] theorem setHmWord_ctlErr : (setHmWord s k w).ctlErr = s.ctlErr := rfl
@[simp] theorem setHmWord_out : (setHmWord s k w).out = s.out := rfl
@[simp] theorem setHmWord_freeCtr : (setHmWord s k w).freeCtr = s.freeCtr := rfl
@[simp] theorem setHmWord_pending : (setHmWord s k w).pending = s.pending := rfl

@[simp] theorem pilot_setHmWord (j : Nat) : pilot (setHmWord s k w) j = pilot s j := rfl
@[simp] theorem ring_setHmWord (j : Nat) : ring (setHmWord s k w) j = ring s j := rfl
@[simp] theorem own_setHmWord (j : Nat) : own (setHmWord s k w) j = own s j := rfl
@[simp] theorem mirr_setHmWord (j : Nat) : mirr (setHmWord s k w) j = mirr s j := rfl
@[simp] theorem aloneMoor_setHmWord (j : Nat) : aloneMoor (setHmWord s k w) j = aloneMoor s j := rfl
@[simp] theorem xctx_setHmWord (j : Nat) : xctx (setHmWord s k w) j = xctx s j := rfl
@[simp] theorem chkOf_setHmWord (j : Nat) : chkOf (setHmWord s k w) j = chkOf s j := rfl
@[simp] theorem csrcOf_setHmWord (j : Nat) : csrcOf (setHmWord s k w) j = csrcOf s j := rfl
@[simp] theorem fwinOf_setHmWord (j : Nat) : fwinOf (setHmWord s k w) j = fwinOf s j := rfl
@[simp] theorem berth_setHmWord (j : Nat) : berth (setHmWord s k w) j = berth s j := rfl
@[simp] theorem ctlOf_setHmWord (j : Nat) : ctlOf (setHmWord s k w) j = ctlOf s j := rfl
@[simp] theorem dqOf_setHmWord (j : Nat) : dqOf (setHmWord s k w) j = dqOf s j := rfl
@[simp] theorem dcmdOf_setHmWord (j : Nat) : dcmdOf (setHmWord s k w) j = dcmdOf s j := rfl
@[simp] theorem pathOf_setHmWord (j : Nat) : pathOf (setHmWord s k w) j = pathOf s j := rfl
@[simp] theorem shadow_setHmWord (j : Nat) : shadow (setHmWord s k w) j = shadow s j := rfl

end

section
variable (s : State) (p : Nat) (x : Pilot)

@[simp] theorem setPilot_blk : (setPilot s p x).blk = s.blk := rfl
@[simp] theorem setPilot_tide : (setPilot s p x).tide = s.tide := rfl
@[simp] theorem setPilot_bells : (setPilot s p x).bells = s.bells := rfl
@[simp] theorem setPilot_ecnt : (setPilot s p x).ecnt = s.ecnt := rfl
@[simp] theorem setPilot_bwd : (setPilot s p x).bwd = s.bwd := rfl
@[simp] theorem setPilot_evc : (setPilot s p x).evc = s.evc := rfl
@[simp] theorem setPilot_rings : (setPilot s p x).rings = s.rings := rfl
@[simp] theorem setPilot_pick : (setPilot s p x).pick = s.pick := rfl
@[simp] theorem setPilot_wm : (setPilot s p x).wm = s.wm := rfl
@[simp] theorem setPilot_sres : (setPilot s p x).sres = s.sres := rfl
@[simp] theorem setPilot_resvRefused : (setPilot s p x).resvRefused = s.resvRefused := rfl
@[simp] theorem setPilot_own : (setPilot s p x).own = s.own := rfl
@[simp] theorem setPilot_mirror : (setPilot s p x).mirror = s.mirror := rfl
@[simp] theorem setPilot_moor : (setPilot s p x).moor = s.moor := rfl
@[simp] theorem setPilot_recq : (setPilot s p x).recq = s.recq := rfl
@[simp] theorem setPilot_hbr : (setPilot s p x).hbr = s.hbr := rfl
@[simp] theorem setPilot_hm : (setPilot s p x).hm = s.hm := rfl
@[simp] theorem setPilot_mbrkLease : (setPilot s p x).mbrkLease = s.mbrkLease := rfl
@[simp] theorem setPilot_mbrkFault : (setPilot s p x).mbrkFault = s.mbrkFault := rfl
@[simp] theorem setPilot_mlast : (setPilot s p x).mlast = s.mlast := rfl
@[simp] theorem setPilot_xc : (setPilot s p x).xc = s.xc := rfl
@[simp] theorem setPilot_admSeq : (setPilot s p x).admSeq = s.admSeq := rfl
@[simp] theorem setPilot_tw : (setPilot s p x).tw = s.tw := rfl
@[simp] theorem setPilot_paths : (setPilot s p x).paths = s.paths := rfl
@[simp] theorem setPilot_plc : (setPilot s p x).plc = s.plc := rfl
@[simp] theorem setPilot_members : (setPilot s p x).members = s.members := rfl
@[simp] theorem setPilot_berths : (setPilot s p x).berths = s.berths := rfl
@[simp] theorem setPilot_ctls : (setPilot s p x).ctls = s.ctls := rfl
@[simp] theorem setPilot_dqs : (setPilot s p x).dqs = s.dqs := rfl
@[simp] theorem setPilot_dcmds : (setPilot s p x).dcmds = s.dcmds := rfl
@[simp] theorem setPilot_resvs : (setPilot s p x).resvs = s.resvs := rfl
@[simp] theorem setPilot_dock : (setPilot s p x).dock = s.dock := rfl
@[simp] theorem setPilot_serves : (setPilot s p x).serves = s.serves := rfl
@[simp] theorem setPilot_cask : (setPilot s p x).cask = s.cask := rfl
@[simp] theorem setPilot_cellar : (setPilot s p x).cellar = s.cellar := rfl
@[simp] theorem setPilot_celOwn : (setPilot s p x).celOwn = s.celOwn := rfl
@[simp] theorem setPilot_bays : (setPilot s p x).bays = s.bays := rfl
@[simp] theorem setPilot_arbCount : (setPilot s p x).arbCount = s.arbCount := rfl
@[simp] theorem setPilot_arbs : (setPilot s p x).arbs = s.arbs := rfl
@[simp] theorem setPilot_ltr : (setPilot s p x).ltr = s.ltr := rfl
@[simp] theorem setPilot_boot : (setPilot s p x).boot = s.boot := rfl
@[simp] theorem setPilot_pwr : (setPilot s p x).pwr = s.pwr := rfl
@[simp] theorem setPilot_code : (setPilot s p x).code = s.code := rfl
@[simp] theorem setPilot_hmmem : (setPilot s p x).hmmem = s.hmmem := rfl
@[simp] theorem setPilot_chk : (setPilot s p x).chk = s.chk := rfl
@[simp] theorem setPilot_csrc : (setPilot s p x).csrc = s.csrc := rfl
@[simp] theorem setPilot_gm : (setPilot s p x).gm = s.gm := rfl
@[simp] theorem setPilot_vbank : (setPilot s p x).vbank = s.vbank := rfl
@[simp] theorem setPilot_graft : (setPilot s p x).graft = s.graft := rfl
@[simp] theorem setPilot_vin : (setPilot s p x).vin = s.vin := rfl
@[simp] theorem setPilot_dbg : (setPilot s p x).dbg = s.dbg := rfl
@[simp] theorem setPilot_fstop : (setPilot s p x).fstop = s.fstop := rfl
@[simp] theorem setPilot_fwin : (setPilot s p x).fwin = s.fwin := rfl
@[simp] theorem setPilot_qtx : (setPilot s p x).qtx = s.qtx := rfl
@[simp] theorem setPilot_ctlRdat : (setPilot s p x).ctlRdat = s.ctlRdat := rfl
@[simp] theorem setPilot_ctlErr : (setPilot s p x).ctlErr = s.ctlErr := rfl
@[simp] theorem setPilot_out : (setPilot s p x).out = s.out := rfl
@[simp] theorem setPilot_freeCtr : (setPilot s p x).freeCtr = s.freeCtr := rfl
@[simp] theorem setPilot_pending : (setPilot s p x).pending = s.pending := rfl

@[simp] theorem hmWord_setPilot (j : Nat) : hmWord (setPilot s p x) j = hmWord s j := rfl
@[simp] theorem ring_setPilot (j : Nat) : ring (setPilot s p x) j = ring s j := rfl
@[simp] theorem own_setPilot (j : Nat) : own (setPilot s p x) j = own s j := rfl
@[simp] theorem mirr_setPilot (j : Nat) : mirr (setPilot s p x) j = mirr s j := rfl
@[simp] theorem aloneMoor_setPilot (j : Nat) : aloneMoor (setPilot s p x) j = aloneMoor s j := rfl
@[simp] theorem xctx_setPilot (j : Nat) : xctx (setPilot s p x) j = xctx s j := rfl
@[simp] theorem chkOf_setPilot (j : Nat) : chkOf (setPilot s p x) j = chkOf s j := rfl
@[simp] theorem csrcOf_setPilot (j : Nat) : csrcOf (setPilot s p x) j = csrcOf s j := rfl
@[simp] theorem fwinOf_setPilot (j : Nat) : fwinOf (setPilot s p x) j = fwinOf s j := rfl
@[simp] theorem berth_setPilot (j : Nat) : berth (setPilot s p x) j = berth s j := rfl
@[simp] theorem ctlOf_setPilot (j : Nat) : ctlOf (setPilot s p x) j = ctlOf s j := rfl
@[simp] theorem dqOf_setPilot (j : Nat) : dqOf (setPilot s p x) j = dqOf s j := rfl
@[simp] theorem dcmdOf_setPilot (j : Nat) : dcmdOf (setPilot s p x) j = dcmdOf s j := rfl
@[simp] theorem pathOf_setPilot (j : Nat) : pathOf (setPilot s p x) j = pathOf s j := rfl
@[simp] theorem shadow_setPilot (j : Nat) : shadow (setPilot s p x) j = shadow s j := rfl

end

section
variable (s : State) (p : Nat) (f : Pilot → Pilot)

@[simp] theorem updPilot_blk : (updPilot s p f).blk = s.blk := rfl
@[simp] theorem updPilot_tide : (updPilot s p f).tide = s.tide := rfl
@[simp] theorem updPilot_bells : (updPilot s p f).bells = s.bells := rfl
@[simp] theorem updPilot_ecnt : (updPilot s p f).ecnt = s.ecnt := rfl
@[simp] theorem updPilot_bwd : (updPilot s p f).bwd = s.bwd := rfl
@[simp] theorem updPilot_evc : (updPilot s p f).evc = s.evc := rfl
@[simp] theorem updPilot_rings : (updPilot s p f).rings = s.rings := rfl
@[simp] theorem updPilot_pick : (updPilot s p f).pick = s.pick := rfl
@[simp] theorem updPilot_wm : (updPilot s p f).wm = s.wm := rfl
@[simp] theorem updPilot_sres : (updPilot s p f).sres = s.sres := rfl
@[simp] theorem updPilot_resvRefused : (updPilot s p f).resvRefused = s.resvRefused := rfl
@[simp] theorem updPilot_own : (updPilot s p f).own = s.own := rfl
@[simp] theorem updPilot_mirror : (updPilot s p f).mirror = s.mirror := rfl
@[simp] theorem updPilot_moor : (updPilot s p f).moor = s.moor := rfl
@[simp] theorem updPilot_recq : (updPilot s p f).recq = s.recq := rfl
@[simp] theorem updPilot_hbr : (updPilot s p f).hbr = s.hbr := rfl
@[simp] theorem updPilot_hm : (updPilot s p f).hm = s.hm := rfl
@[simp] theorem updPilot_mbrkLease : (updPilot s p f).mbrkLease = s.mbrkLease := rfl
@[simp] theorem updPilot_mbrkFault : (updPilot s p f).mbrkFault = s.mbrkFault := rfl
@[simp] theorem updPilot_mlast : (updPilot s p f).mlast = s.mlast := rfl
@[simp] theorem updPilot_xc : (updPilot s p f).xc = s.xc := rfl
@[simp] theorem updPilot_admSeq : (updPilot s p f).admSeq = s.admSeq := rfl
@[simp] theorem updPilot_tw : (updPilot s p f).tw = s.tw := rfl
@[simp] theorem updPilot_paths : (updPilot s p f).paths = s.paths := rfl
@[simp] theorem updPilot_plc : (updPilot s p f).plc = s.plc := rfl
@[simp] theorem updPilot_members : (updPilot s p f).members = s.members := rfl
@[simp] theorem updPilot_berths : (updPilot s p f).berths = s.berths := rfl
@[simp] theorem updPilot_ctls : (updPilot s p f).ctls = s.ctls := rfl
@[simp] theorem updPilot_dqs : (updPilot s p f).dqs = s.dqs := rfl
@[simp] theorem updPilot_dcmds : (updPilot s p f).dcmds = s.dcmds := rfl
@[simp] theorem updPilot_resvs : (updPilot s p f).resvs = s.resvs := rfl
@[simp] theorem updPilot_dock : (updPilot s p f).dock = s.dock := rfl
@[simp] theorem updPilot_serves : (updPilot s p f).serves = s.serves := rfl
@[simp] theorem updPilot_cask : (updPilot s p f).cask = s.cask := rfl
@[simp] theorem updPilot_cellar : (updPilot s p f).cellar = s.cellar := rfl
@[simp] theorem updPilot_celOwn : (updPilot s p f).celOwn = s.celOwn := rfl
@[simp] theorem updPilot_bays : (updPilot s p f).bays = s.bays := rfl
@[simp] theorem updPilot_arbCount : (updPilot s p f).arbCount = s.arbCount := rfl
@[simp] theorem updPilot_arbs : (updPilot s p f).arbs = s.arbs := rfl
@[simp] theorem updPilot_ltr : (updPilot s p f).ltr = s.ltr := rfl
@[simp] theorem updPilot_boot : (updPilot s p f).boot = s.boot := rfl
@[simp] theorem updPilot_pwr : (updPilot s p f).pwr = s.pwr := rfl
@[simp] theorem updPilot_code : (updPilot s p f).code = s.code := rfl
@[simp] theorem updPilot_hmmem : (updPilot s p f).hmmem = s.hmmem := rfl
@[simp] theorem updPilot_chk : (updPilot s p f).chk = s.chk := rfl
@[simp] theorem updPilot_csrc : (updPilot s p f).csrc = s.csrc := rfl
@[simp] theorem updPilot_gm : (updPilot s p f).gm = s.gm := rfl
@[simp] theorem updPilot_vbank : (updPilot s p f).vbank = s.vbank := rfl
@[simp] theorem updPilot_graft : (updPilot s p f).graft = s.graft := rfl
@[simp] theorem updPilot_vin : (updPilot s p f).vin = s.vin := rfl
@[simp] theorem updPilot_dbg : (updPilot s p f).dbg = s.dbg := rfl
@[simp] theorem updPilot_fstop : (updPilot s p f).fstop = s.fstop := rfl
@[simp] theorem updPilot_fwin : (updPilot s p f).fwin = s.fwin := rfl
@[simp] theorem updPilot_qtx : (updPilot s p f).qtx = s.qtx := rfl
@[simp] theorem updPilot_ctlRdat : (updPilot s p f).ctlRdat = s.ctlRdat := rfl
@[simp] theorem updPilot_ctlErr : (updPilot s p f).ctlErr = s.ctlErr := rfl
@[simp] theorem updPilot_out : (updPilot s p f).out = s.out := rfl
@[simp] theorem updPilot_freeCtr : (updPilot s p f).freeCtr = s.freeCtr := rfl
@[simp] theorem updPilot_pending : (updPilot s p f).pending = s.pending := rfl

@[simp] theorem hmWord_updPilot (j : Nat) : hmWord (updPilot s p f) j = hmWord s j := rfl
@[simp] theorem ring_updPilot (j : Nat) : ring (updPilot s p f) j = ring s j := rfl
@[simp] theorem own_updPilot (j : Nat) : own (updPilot s p f) j = own s j := rfl
@[simp] theorem mirr_updPilot (j : Nat) : mirr (updPilot s p f) j = mirr s j := rfl
@[simp] theorem aloneMoor_updPilot (j : Nat) : aloneMoor (updPilot s p f) j = aloneMoor s j := rfl
@[simp] theorem xctx_updPilot (j : Nat) : xctx (updPilot s p f) j = xctx s j := rfl
@[simp] theorem chkOf_updPilot (j : Nat) : chkOf (updPilot s p f) j = chkOf s j := rfl
@[simp] theorem csrcOf_updPilot (j : Nat) : csrcOf (updPilot s p f) j = csrcOf s j := rfl
@[simp] theorem fwinOf_updPilot (j : Nat) : fwinOf (updPilot s p f) j = fwinOf s j := rfl
@[simp] theorem berth_updPilot (j : Nat) : berth (updPilot s p f) j = berth s j := rfl
@[simp] theorem ctlOf_updPilot (j : Nat) : ctlOf (updPilot s p f) j = ctlOf s j := rfl
@[simp] theorem dqOf_updPilot (j : Nat) : dqOf (updPilot s p f) j = dqOf s j := rfl
@[simp] theorem dcmdOf_updPilot (j : Nat) : dcmdOf (updPilot s p f) j = dcmdOf s j := rfl
@[simp] theorem pathOf_updPilot (j : Nat) : pathOf (updPilot s p f) j = pathOf s j := rfl
@[simp] theorem shadow_updPilot (j : Nat) : shadow (updPilot s p f) j = shadow s j := rfl

end

section
variable (s : State) (n : Nat) (r : Ring)

@[simp] theorem setRing_blk : (setRing s n r).blk = s.blk := rfl
@[simp] theorem setRing_tide : (setRing s n r).tide = s.tide := rfl
@[simp] theorem setRing_bells : (setRing s n r).bells = s.bells := rfl
@[simp] theorem setRing_ecnt : (setRing s n r).ecnt = s.ecnt := rfl
@[simp] theorem setRing_bwd : (setRing s n r).bwd = s.bwd := rfl
@[simp] theorem setRing_evc : (setRing s n r).evc = s.evc := rfl
@[simp] theorem setRing_pick : (setRing s n r).pick = s.pick := rfl
@[simp] theorem setRing_wm : (setRing s n r).wm = s.wm := rfl
@[simp] theorem setRing_sres : (setRing s n r).sres = s.sres := rfl
@[simp] theorem setRing_resvRefused : (setRing s n r).resvRefused = s.resvRefused := rfl
@[simp] theorem setRing_own : (setRing s n r).own = s.own := rfl
@[simp] theorem setRing_mirror : (setRing s n r).mirror = s.mirror := rfl
@[simp] theorem setRing_moor : (setRing s n r).moor = s.moor := rfl
@[simp] theorem setRing_recq : (setRing s n r).recq = s.recq := rfl
@[simp] theorem setRing_hbr : (setRing s n r).hbr = s.hbr := rfl
@[simp] theorem setRing_hm : (setRing s n r).hm = s.hm := rfl
@[simp] theorem setRing_mbrkLease : (setRing s n r).mbrkLease = s.mbrkLease := rfl
@[simp] theorem setRing_mbrkFault : (setRing s n r).mbrkFault = s.mbrkFault := rfl
@[simp] theorem setRing_mlast : (setRing s n r).mlast = s.mlast := rfl
@[simp] theorem setRing_xc : (setRing s n r).xc = s.xc := rfl
@[simp] theorem setRing_admSeq : (setRing s n r).admSeq = s.admSeq := rfl
@[simp] theorem setRing_tw : (setRing s n r).tw = s.tw := rfl
@[simp] theorem setRing_paths : (setRing s n r).paths = s.paths := rfl
@[simp] theorem setRing_plc : (setRing s n r).plc = s.plc := rfl
@[simp] theorem setRing_members : (setRing s n r).members = s.members := rfl
@[simp] theorem setRing_berths : (setRing s n r).berths = s.berths := rfl
@[simp] theorem setRing_ctls : (setRing s n r).ctls = s.ctls := rfl
@[simp] theorem setRing_dqs : (setRing s n r).dqs = s.dqs := rfl
@[simp] theorem setRing_dcmds : (setRing s n r).dcmds = s.dcmds := rfl
@[simp] theorem setRing_resvs : (setRing s n r).resvs = s.resvs := rfl
@[simp] theorem setRing_dock : (setRing s n r).dock = s.dock := rfl
@[simp] theorem setRing_serves : (setRing s n r).serves = s.serves := rfl
@[simp] theorem setRing_pilots : (setRing s n r).pilots = s.pilots := rfl
@[simp] theorem setRing_cask : (setRing s n r).cask = s.cask := rfl
@[simp] theorem setRing_cellar : (setRing s n r).cellar = s.cellar := rfl
@[simp] theorem setRing_celOwn : (setRing s n r).celOwn = s.celOwn := rfl
@[simp] theorem setRing_bays : (setRing s n r).bays = s.bays := rfl
@[simp] theorem setRing_arbCount : (setRing s n r).arbCount = s.arbCount := rfl
@[simp] theorem setRing_arbs : (setRing s n r).arbs = s.arbs := rfl
@[simp] theorem setRing_ltr : (setRing s n r).ltr = s.ltr := rfl
@[simp] theorem setRing_boot : (setRing s n r).boot = s.boot := rfl
@[simp] theorem setRing_pwr : (setRing s n r).pwr = s.pwr := rfl
@[simp] theorem setRing_code : (setRing s n r).code = s.code := rfl
@[simp] theorem setRing_hmmem : (setRing s n r).hmmem = s.hmmem := rfl
@[simp] theorem setRing_chk : (setRing s n r).chk = s.chk := rfl
@[simp] theorem setRing_csrc : (setRing s n r).csrc = s.csrc := rfl
@[simp] theorem setRing_gm : (setRing s n r).gm = s.gm := rfl
@[simp] theorem setRing_vbank : (setRing s n r).vbank = s.vbank := rfl
@[simp] theorem setRing_graft : (setRing s n r).graft = s.graft := rfl
@[simp] theorem setRing_vin : (setRing s n r).vin = s.vin := rfl
@[simp] theorem setRing_dbg : (setRing s n r).dbg = s.dbg := rfl
@[simp] theorem setRing_fstop : (setRing s n r).fstop = s.fstop := rfl
@[simp] theorem setRing_fwin : (setRing s n r).fwin = s.fwin := rfl
@[simp] theorem setRing_qtx : (setRing s n r).qtx = s.qtx := rfl
@[simp] theorem setRing_ctlRdat : (setRing s n r).ctlRdat = s.ctlRdat := rfl
@[simp] theorem setRing_ctlErr : (setRing s n r).ctlErr = s.ctlErr := rfl
@[simp] theorem setRing_out : (setRing s n r).out = s.out := rfl
@[simp] theorem setRing_freeCtr : (setRing s n r).freeCtr = s.freeCtr := rfl
@[simp] theorem setRing_pending : (setRing s n r).pending = s.pending := rfl

@[simp] theorem hmWord_setRing (j : Nat) : hmWord (setRing s n r) j = hmWord s j := rfl
@[simp] theorem pilot_setRing (j : Nat) : pilot (setRing s n r) j = pilot s j := rfl
@[simp] theorem own_setRing (j : Nat) : own (setRing s n r) j = own s j := rfl
@[simp] theorem mirr_setRing (j : Nat) : mirr (setRing s n r) j = mirr s j := rfl
@[simp] theorem aloneMoor_setRing (j : Nat) : aloneMoor (setRing s n r) j = aloneMoor s j := rfl
@[simp] theorem xctx_setRing (j : Nat) : xctx (setRing s n r) j = xctx s j := rfl
@[simp] theorem chkOf_setRing (j : Nat) : chkOf (setRing s n r) j = chkOf s j := rfl
@[simp] theorem csrcOf_setRing (j : Nat) : csrcOf (setRing s n r) j = csrcOf s j := rfl
@[simp] theorem fwinOf_setRing (j : Nat) : fwinOf (setRing s n r) j = fwinOf s j := rfl
@[simp] theorem berth_setRing (j : Nat) : berth (setRing s n r) j = berth s j := rfl
@[simp] theorem ctlOf_setRing (j : Nat) : ctlOf (setRing s n r) j = ctlOf s j := rfl
@[simp] theorem dqOf_setRing (j : Nat) : dqOf (setRing s n r) j = dqOf s j := rfl
@[simp] theorem dcmdOf_setRing (j : Nat) : dcmdOf (setRing s n r) j = dcmdOf s j := rfl
@[simp] theorem pathOf_setRing (j : Nat) : pathOf (setRing s n r) j = pathOf s j := rfl
@[simp] theorem shadow_setRing (j : Nat) : shadow (setRing s n r) j = shadow s j := rfl

end

section
variable (s : State) (n : Nat) (f : Ring → Ring)

@[simp] theorem updRing_blk : (updRing s n f).blk = s.blk := rfl
@[simp] theorem updRing_tide : (updRing s n f).tide = s.tide := rfl
@[simp] theorem updRing_bells : (updRing s n f).bells = s.bells := rfl
@[simp] theorem updRing_ecnt : (updRing s n f).ecnt = s.ecnt := rfl
@[simp] theorem updRing_bwd : (updRing s n f).bwd = s.bwd := rfl
@[simp] theorem updRing_evc : (updRing s n f).evc = s.evc := rfl
@[simp] theorem updRing_pick : (updRing s n f).pick = s.pick := rfl
@[simp] theorem updRing_wm : (updRing s n f).wm = s.wm := rfl
@[simp] theorem updRing_sres : (updRing s n f).sres = s.sres := rfl
@[simp] theorem updRing_resvRefused : (updRing s n f).resvRefused = s.resvRefused := rfl
@[simp] theorem updRing_own : (updRing s n f).own = s.own := rfl
@[simp] theorem updRing_mirror : (updRing s n f).mirror = s.mirror := rfl
@[simp] theorem updRing_moor : (updRing s n f).moor = s.moor := rfl
@[simp] theorem updRing_recq : (updRing s n f).recq = s.recq := rfl
@[simp] theorem updRing_hbr : (updRing s n f).hbr = s.hbr := rfl
@[simp] theorem updRing_hm : (updRing s n f).hm = s.hm := rfl
@[simp] theorem updRing_mbrkLease : (updRing s n f).mbrkLease = s.mbrkLease := rfl
@[simp] theorem updRing_mbrkFault : (updRing s n f).mbrkFault = s.mbrkFault := rfl
@[simp] theorem updRing_mlast : (updRing s n f).mlast = s.mlast := rfl
@[simp] theorem updRing_xc : (updRing s n f).xc = s.xc := rfl
@[simp] theorem updRing_admSeq : (updRing s n f).admSeq = s.admSeq := rfl
@[simp] theorem updRing_tw : (updRing s n f).tw = s.tw := rfl
@[simp] theorem updRing_paths : (updRing s n f).paths = s.paths := rfl
@[simp] theorem updRing_plc : (updRing s n f).plc = s.plc := rfl
@[simp] theorem updRing_members : (updRing s n f).members = s.members := rfl
@[simp] theorem updRing_berths : (updRing s n f).berths = s.berths := rfl
@[simp] theorem updRing_ctls : (updRing s n f).ctls = s.ctls := rfl
@[simp] theorem updRing_dqs : (updRing s n f).dqs = s.dqs := rfl
@[simp] theorem updRing_dcmds : (updRing s n f).dcmds = s.dcmds := rfl
@[simp] theorem updRing_resvs : (updRing s n f).resvs = s.resvs := rfl
@[simp] theorem updRing_dock : (updRing s n f).dock = s.dock := rfl
@[simp] theorem updRing_serves : (updRing s n f).serves = s.serves := rfl
@[simp] theorem updRing_pilots : (updRing s n f).pilots = s.pilots := rfl
@[simp] theorem updRing_cask : (updRing s n f).cask = s.cask := rfl
@[simp] theorem updRing_cellar : (updRing s n f).cellar = s.cellar := rfl
@[simp] theorem updRing_celOwn : (updRing s n f).celOwn = s.celOwn := rfl
@[simp] theorem updRing_bays : (updRing s n f).bays = s.bays := rfl
@[simp] theorem updRing_arbCount : (updRing s n f).arbCount = s.arbCount := rfl
@[simp] theorem updRing_arbs : (updRing s n f).arbs = s.arbs := rfl
@[simp] theorem updRing_ltr : (updRing s n f).ltr = s.ltr := rfl
@[simp] theorem updRing_boot : (updRing s n f).boot = s.boot := rfl
@[simp] theorem updRing_pwr : (updRing s n f).pwr = s.pwr := rfl
@[simp] theorem updRing_code : (updRing s n f).code = s.code := rfl
@[simp] theorem updRing_hmmem : (updRing s n f).hmmem = s.hmmem := rfl
@[simp] theorem updRing_chk : (updRing s n f).chk = s.chk := rfl
@[simp] theorem updRing_csrc : (updRing s n f).csrc = s.csrc := rfl
@[simp] theorem updRing_gm : (updRing s n f).gm = s.gm := rfl
@[simp] theorem updRing_vbank : (updRing s n f).vbank = s.vbank := rfl
@[simp] theorem updRing_graft : (updRing s n f).graft = s.graft := rfl
@[simp] theorem updRing_vin : (updRing s n f).vin = s.vin := rfl
@[simp] theorem updRing_dbg : (updRing s n f).dbg = s.dbg := rfl
@[simp] theorem updRing_fstop : (updRing s n f).fstop = s.fstop := rfl
@[simp] theorem updRing_fwin : (updRing s n f).fwin = s.fwin := rfl
@[simp] theorem updRing_qtx : (updRing s n f).qtx = s.qtx := rfl
@[simp] theorem updRing_ctlRdat : (updRing s n f).ctlRdat = s.ctlRdat := rfl
@[simp] theorem updRing_ctlErr : (updRing s n f).ctlErr = s.ctlErr := rfl
@[simp] theorem updRing_out : (updRing s n f).out = s.out := rfl
@[simp] theorem updRing_freeCtr : (updRing s n f).freeCtr = s.freeCtr := rfl
@[simp] theorem updRing_pending : (updRing s n f).pending = s.pending := rfl

@[simp] theorem hmWord_updRing (j : Nat) : hmWord (updRing s n f) j = hmWord s j := rfl
@[simp] theorem pilot_updRing (j : Nat) : pilot (updRing s n f) j = pilot s j := rfl
@[simp] theorem own_updRing (j : Nat) : own (updRing s n f) j = own s j := rfl
@[simp] theorem mirr_updRing (j : Nat) : mirr (updRing s n f) j = mirr s j := rfl
@[simp] theorem aloneMoor_updRing (j : Nat) : aloneMoor (updRing s n f) j = aloneMoor s j := rfl
@[simp] theorem xctx_updRing (j : Nat) : xctx (updRing s n f) j = xctx s j := rfl
@[simp] theorem chkOf_updRing (j : Nat) : chkOf (updRing s n f) j = chkOf s j := rfl
@[simp] theorem csrcOf_updRing (j : Nat) : csrcOf (updRing s n f) j = csrcOf s j := rfl
@[simp] theorem fwinOf_updRing (j : Nat) : fwinOf (updRing s n f) j = fwinOf s j := rfl
@[simp] theorem berth_updRing (j : Nat) : berth (updRing s n f) j = berth s j := rfl
@[simp] theorem ctlOf_updRing (j : Nat) : ctlOf (updRing s n f) j = ctlOf s j := rfl
@[simp] theorem dqOf_updRing (j : Nat) : dqOf (updRing s n f) j = dqOf s j := rfl
@[simp] theorem dcmdOf_updRing (j : Nat) : dcmdOf (updRing s n f) j = dcmdOf s j := rfl
@[simp] theorem pathOf_updRing (j : Nat) : pathOf (updRing s n f) j = pathOf s j := rfl
@[simp] theorem shadow_updRing (j : Nat) : shadow (updRing s n f) j = shadow s j := rfl

end

section
variable (s : State) (i : Nat) (e : Own)

@[simp] theorem setOwn_blk : (setOwn s i e).blk = s.blk := rfl
@[simp] theorem setOwn_tide : (setOwn s i e).tide = s.tide := rfl
@[simp] theorem setOwn_bells : (setOwn s i e).bells = s.bells := rfl
@[simp] theorem setOwn_ecnt : (setOwn s i e).ecnt = s.ecnt := rfl
@[simp] theorem setOwn_bwd : (setOwn s i e).bwd = s.bwd := rfl
@[simp] theorem setOwn_evc : (setOwn s i e).evc = s.evc := rfl
@[simp] theorem setOwn_rings : (setOwn s i e).rings = s.rings := rfl
@[simp] theorem setOwn_pick : (setOwn s i e).pick = s.pick := rfl
@[simp] theorem setOwn_wm : (setOwn s i e).wm = s.wm := rfl
@[simp] theorem setOwn_sres : (setOwn s i e).sres = s.sres := rfl
@[simp] theorem setOwn_resvRefused : (setOwn s i e).resvRefused = s.resvRefused := rfl
@[simp] theorem setOwn_mirror : (setOwn s i e).mirror = s.mirror := rfl
@[simp] theorem setOwn_moor : (setOwn s i e).moor = s.moor := rfl
@[simp] theorem setOwn_recq : (setOwn s i e).recq = s.recq := rfl
@[simp] theorem setOwn_hbr : (setOwn s i e).hbr = s.hbr := rfl
@[simp] theorem setOwn_hm : (setOwn s i e).hm = s.hm := rfl
@[simp] theorem setOwn_mbrkLease : (setOwn s i e).mbrkLease = s.mbrkLease := rfl
@[simp] theorem setOwn_mbrkFault : (setOwn s i e).mbrkFault = s.mbrkFault := rfl
@[simp] theorem setOwn_mlast : (setOwn s i e).mlast = s.mlast := rfl
@[simp] theorem setOwn_xc : (setOwn s i e).xc = s.xc := rfl
@[simp] theorem setOwn_admSeq : (setOwn s i e).admSeq = s.admSeq := rfl
@[simp] theorem setOwn_tw : (setOwn s i e).tw = s.tw := rfl
@[simp] theorem setOwn_paths : (setOwn s i e).paths = s.paths := rfl
@[simp] theorem setOwn_plc : (setOwn s i e).plc = s.plc := rfl
@[simp] theorem setOwn_members : (setOwn s i e).members = s.members := rfl
@[simp] theorem setOwn_berths : (setOwn s i e).berths = s.berths := rfl
@[simp] theorem setOwn_ctls : (setOwn s i e).ctls = s.ctls := rfl
@[simp] theorem setOwn_dqs : (setOwn s i e).dqs = s.dqs := rfl
@[simp] theorem setOwn_dcmds : (setOwn s i e).dcmds = s.dcmds := rfl
@[simp] theorem setOwn_resvs : (setOwn s i e).resvs = s.resvs := rfl
@[simp] theorem setOwn_dock : (setOwn s i e).dock = s.dock := rfl
@[simp] theorem setOwn_serves : (setOwn s i e).serves = s.serves := rfl
@[simp] theorem setOwn_pilots : (setOwn s i e).pilots = s.pilots := rfl
@[simp] theorem setOwn_cask : (setOwn s i e).cask = s.cask := rfl
@[simp] theorem setOwn_cellar : (setOwn s i e).cellar = s.cellar := rfl
@[simp] theorem setOwn_celOwn : (setOwn s i e).celOwn = s.celOwn := rfl
@[simp] theorem setOwn_bays : (setOwn s i e).bays = s.bays := rfl
@[simp] theorem setOwn_arbCount : (setOwn s i e).arbCount = s.arbCount := rfl
@[simp] theorem setOwn_arbs : (setOwn s i e).arbs = s.arbs := rfl
@[simp] theorem setOwn_ltr : (setOwn s i e).ltr = s.ltr := rfl
@[simp] theorem setOwn_boot : (setOwn s i e).boot = s.boot := rfl
@[simp] theorem setOwn_pwr : (setOwn s i e).pwr = s.pwr := rfl
@[simp] theorem setOwn_code : (setOwn s i e).code = s.code := rfl
@[simp] theorem setOwn_hmmem : (setOwn s i e).hmmem = s.hmmem := rfl
@[simp] theorem setOwn_chk : (setOwn s i e).chk = s.chk := rfl
@[simp] theorem setOwn_csrc : (setOwn s i e).csrc = s.csrc := rfl
@[simp] theorem setOwn_gm : (setOwn s i e).gm = s.gm := rfl
@[simp] theorem setOwn_vbank : (setOwn s i e).vbank = s.vbank := rfl
@[simp] theorem setOwn_graft : (setOwn s i e).graft = s.graft := rfl
@[simp] theorem setOwn_vin : (setOwn s i e).vin = s.vin := rfl
@[simp] theorem setOwn_dbg : (setOwn s i e).dbg = s.dbg := rfl
@[simp] theorem setOwn_fstop : (setOwn s i e).fstop = s.fstop := rfl
@[simp] theorem setOwn_fwin : (setOwn s i e).fwin = s.fwin := rfl
@[simp] theorem setOwn_qtx : (setOwn s i e).qtx = s.qtx := rfl
@[simp] theorem setOwn_ctlRdat : (setOwn s i e).ctlRdat = s.ctlRdat := rfl
@[simp] theorem setOwn_ctlErr : (setOwn s i e).ctlErr = s.ctlErr := rfl
@[simp] theorem setOwn_out : (setOwn s i e).out = s.out := rfl
@[simp] theorem setOwn_freeCtr : (setOwn s i e).freeCtr = s.freeCtr := rfl
@[simp] theorem setOwn_pending : (setOwn s i e).pending = s.pending := rfl

@[simp] theorem hmWord_setOwn (j : Nat) : hmWord (setOwn s i e) j = hmWord s j := rfl
@[simp] theorem pilot_setOwn (j : Nat) : pilot (setOwn s i e) j = pilot s j := rfl
@[simp] theorem ring_setOwn (j : Nat) : ring (setOwn s i e) j = ring s j := rfl
@[simp] theorem mirr_setOwn (j : Nat) : mirr (setOwn s i e) j = mirr s j := rfl
@[simp] theorem aloneMoor_setOwn (j : Nat) : aloneMoor (setOwn s i e) j = aloneMoor s j := rfl
@[simp] theorem xctx_setOwn (j : Nat) : xctx (setOwn s i e) j = xctx s j := rfl
@[simp] theorem chkOf_setOwn (j : Nat) : chkOf (setOwn s i e) j = chkOf s j := rfl
@[simp] theorem csrcOf_setOwn (j : Nat) : csrcOf (setOwn s i e) j = csrcOf s j := rfl
@[simp] theorem fwinOf_setOwn (j : Nat) : fwinOf (setOwn s i e) j = fwinOf s j := rfl
@[simp] theorem berth_setOwn (j : Nat) : berth (setOwn s i e) j = berth s j := rfl
@[simp] theorem ctlOf_setOwn (j : Nat) : ctlOf (setOwn s i e) j = ctlOf s j := rfl
@[simp] theorem dqOf_setOwn (j : Nat) : dqOf (setOwn s i e) j = dqOf s j := rfl
@[simp] theorem dcmdOf_setOwn (j : Nat) : dcmdOf (setOwn s i e) j = dcmdOf s j := rfl
@[simp] theorem pathOf_setOwn (j : Nat) : pathOf (setOwn s i e) j = pathOf s j := rfl
@[simp] theorem shadow_setOwn (j : Nat) : shadow (setOwn s i e) j = shadow s j := rfl

end

section
variable (s : State) (i : Nat) (f : Own → Own)

@[simp] theorem updOwn_blk : (updOwn s i f).blk = s.blk := rfl
@[simp] theorem updOwn_tide : (updOwn s i f).tide = s.tide := rfl
@[simp] theorem updOwn_bells : (updOwn s i f).bells = s.bells := rfl
@[simp] theorem updOwn_ecnt : (updOwn s i f).ecnt = s.ecnt := rfl
@[simp] theorem updOwn_bwd : (updOwn s i f).bwd = s.bwd := rfl
@[simp] theorem updOwn_evc : (updOwn s i f).evc = s.evc := rfl
@[simp] theorem updOwn_rings : (updOwn s i f).rings = s.rings := rfl
@[simp] theorem updOwn_pick : (updOwn s i f).pick = s.pick := rfl
@[simp] theorem updOwn_wm : (updOwn s i f).wm = s.wm := rfl
@[simp] theorem updOwn_sres : (updOwn s i f).sres = s.sres := rfl
@[simp] theorem updOwn_resvRefused : (updOwn s i f).resvRefused = s.resvRefused := rfl
@[simp] theorem updOwn_mirror : (updOwn s i f).mirror = s.mirror := rfl
@[simp] theorem updOwn_moor : (updOwn s i f).moor = s.moor := rfl
@[simp] theorem updOwn_recq : (updOwn s i f).recq = s.recq := rfl
@[simp] theorem updOwn_hbr : (updOwn s i f).hbr = s.hbr := rfl
@[simp] theorem updOwn_hm : (updOwn s i f).hm = s.hm := rfl
@[simp] theorem updOwn_mbrkLease : (updOwn s i f).mbrkLease = s.mbrkLease := rfl
@[simp] theorem updOwn_mbrkFault : (updOwn s i f).mbrkFault = s.mbrkFault := rfl
@[simp] theorem updOwn_mlast : (updOwn s i f).mlast = s.mlast := rfl
@[simp] theorem updOwn_xc : (updOwn s i f).xc = s.xc := rfl
@[simp] theorem updOwn_admSeq : (updOwn s i f).admSeq = s.admSeq := rfl
@[simp] theorem updOwn_tw : (updOwn s i f).tw = s.tw := rfl
@[simp] theorem updOwn_paths : (updOwn s i f).paths = s.paths := rfl
@[simp] theorem updOwn_plc : (updOwn s i f).plc = s.plc := rfl
@[simp] theorem updOwn_members : (updOwn s i f).members = s.members := rfl
@[simp] theorem updOwn_berths : (updOwn s i f).berths = s.berths := rfl
@[simp] theorem updOwn_ctls : (updOwn s i f).ctls = s.ctls := rfl
@[simp] theorem updOwn_dqs : (updOwn s i f).dqs = s.dqs := rfl
@[simp] theorem updOwn_dcmds : (updOwn s i f).dcmds = s.dcmds := rfl
@[simp] theorem updOwn_resvs : (updOwn s i f).resvs = s.resvs := rfl
@[simp] theorem updOwn_dock : (updOwn s i f).dock = s.dock := rfl
@[simp] theorem updOwn_serves : (updOwn s i f).serves = s.serves := rfl
@[simp] theorem updOwn_pilots : (updOwn s i f).pilots = s.pilots := rfl
@[simp] theorem updOwn_cask : (updOwn s i f).cask = s.cask := rfl
@[simp] theorem updOwn_cellar : (updOwn s i f).cellar = s.cellar := rfl
@[simp] theorem updOwn_celOwn : (updOwn s i f).celOwn = s.celOwn := rfl
@[simp] theorem updOwn_bays : (updOwn s i f).bays = s.bays := rfl
@[simp] theorem updOwn_arbCount : (updOwn s i f).arbCount = s.arbCount := rfl
@[simp] theorem updOwn_arbs : (updOwn s i f).arbs = s.arbs := rfl
@[simp] theorem updOwn_ltr : (updOwn s i f).ltr = s.ltr := rfl
@[simp] theorem updOwn_boot : (updOwn s i f).boot = s.boot := rfl
@[simp] theorem updOwn_pwr : (updOwn s i f).pwr = s.pwr := rfl
@[simp] theorem updOwn_code : (updOwn s i f).code = s.code := rfl
@[simp] theorem updOwn_hmmem : (updOwn s i f).hmmem = s.hmmem := rfl
@[simp] theorem updOwn_chk : (updOwn s i f).chk = s.chk := rfl
@[simp] theorem updOwn_csrc : (updOwn s i f).csrc = s.csrc := rfl
@[simp] theorem updOwn_gm : (updOwn s i f).gm = s.gm := rfl
@[simp] theorem updOwn_vbank : (updOwn s i f).vbank = s.vbank := rfl
@[simp] theorem updOwn_graft : (updOwn s i f).graft = s.graft := rfl
@[simp] theorem updOwn_vin : (updOwn s i f).vin = s.vin := rfl
@[simp] theorem updOwn_dbg : (updOwn s i f).dbg = s.dbg := rfl
@[simp] theorem updOwn_fstop : (updOwn s i f).fstop = s.fstop := rfl
@[simp] theorem updOwn_fwin : (updOwn s i f).fwin = s.fwin := rfl
@[simp] theorem updOwn_qtx : (updOwn s i f).qtx = s.qtx := rfl
@[simp] theorem updOwn_ctlRdat : (updOwn s i f).ctlRdat = s.ctlRdat := rfl
@[simp] theorem updOwn_ctlErr : (updOwn s i f).ctlErr = s.ctlErr := rfl
@[simp] theorem updOwn_out : (updOwn s i f).out = s.out := rfl
@[simp] theorem updOwn_freeCtr : (updOwn s i f).freeCtr = s.freeCtr := rfl
@[simp] theorem updOwn_pending : (updOwn s i f).pending = s.pending := rfl

@[simp] theorem hmWord_updOwn (j : Nat) : hmWord (updOwn s i f) j = hmWord s j := rfl
@[simp] theorem pilot_updOwn (j : Nat) : pilot (updOwn s i f) j = pilot s j := rfl
@[simp] theorem ring_updOwn (j : Nat) : ring (updOwn s i f) j = ring s j := rfl
@[simp] theorem mirr_updOwn (j : Nat) : mirr (updOwn s i f) j = mirr s j := rfl
@[simp] theorem aloneMoor_updOwn (j : Nat) : aloneMoor (updOwn s i f) j = aloneMoor s j := rfl
@[simp] theorem xctx_updOwn (j : Nat) : xctx (updOwn s i f) j = xctx s j := rfl
@[simp] theorem chkOf_updOwn (j : Nat) : chkOf (updOwn s i f) j = chkOf s j := rfl
@[simp] theorem csrcOf_updOwn (j : Nat) : csrcOf (updOwn s i f) j = csrcOf s j := rfl
@[simp] theorem fwinOf_updOwn (j : Nat) : fwinOf (updOwn s i f) j = fwinOf s j := rfl
@[simp] theorem berth_updOwn (j : Nat) : berth (updOwn s i f) j = berth s j := rfl
@[simp] theorem ctlOf_updOwn (j : Nat) : ctlOf (updOwn s i f) j = ctlOf s j := rfl
@[simp] theorem dqOf_updOwn (j : Nat) : dqOf (updOwn s i f) j = dqOf s j := rfl
@[simp] theorem dcmdOf_updOwn (j : Nat) : dcmdOf (updOwn s i f) j = dcmdOf s j := rfl
@[simp] theorem pathOf_updOwn (j : Nat) : pathOf (updOwn s i f) j = pathOf s j := rfl
@[simp] theorem shadow_updOwn (j : Nat) : shadow (updOwn s i f) j = shadow s j := rfl

end

section
variable (s : State) (i : Nat) (e : Mir)

@[simp] theorem setMirr_blk : (setMirr s i e).blk = s.blk := rfl
@[simp] theorem setMirr_tide : (setMirr s i e).tide = s.tide := rfl
@[simp] theorem setMirr_bells : (setMirr s i e).bells = s.bells := rfl
@[simp] theorem setMirr_ecnt : (setMirr s i e).ecnt = s.ecnt := rfl
@[simp] theorem setMirr_bwd : (setMirr s i e).bwd = s.bwd := rfl
@[simp] theorem setMirr_evc : (setMirr s i e).evc = s.evc := rfl
@[simp] theorem setMirr_rings : (setMirr s i e).rings = s.rings := rfl
@[simp] theorem setMirr_pick : (setMirr s i e).pick = s.pick := rfl
@[simp] theorem setMirr_wm : (setMirr s i e).wm = s.wm := rfl
@[simp] theorem setMirr_sres : (setMirr s i e).sres = s.sres := rfl
@[simp] theorem setMirr_resvRefused : (setMirr s i e).resvRefused = s.resvRefused := rfl
@[simp] theorem setMirr_own : (setMirr s i e).own = s.own := rfl
@[simp] theorem setMirr_moor : (setMirr s i e).moor = s.moor := rfl
@[simp] theorem setMirr_recq : (setMirr s i e).recq = s.recq := rfl
@[simp] theorem setMirr_hbr : (setMirr s i e).hbr = s.hbr := rfl
@[simp] theorem setMirr_hm : (setMirr s i e).hm = s.hm := rfl
@[simp] theorem setMirr_mbrkLease : (setMirr s i e).mbrkLease = s.mbrkLease := rfl
@[simp] theorem setMirr_mbrkFault : (setMirr s i e).mbrkFault = s.mbrkFault := rfl
@[simp] theorem setMirr_mlast : (setMirr s i e).mlast = s.mlast := rfl
@[simp] theorem setMirr_xc : (setMirr s i e).xc = s.xc := rfl
@[simp] theorem setMirr_admSeq : (setMirr s i e).admSeq = s.admSeq := rfl
@[simp] theorem setMirr_tw : (setMirr s i e).tw = s.tw := rfl
@[simp] theorem setMirr_paths : (setMirr s i e).paths = s.paths := rfl
@[simp] theorem setMirr_plc : (setMirr s i e).plc = s.plc := rfl
@[simp] theorem setMirr_members : (setMirr s i e).members = s.members := rfl
@[simp] theorem setMirr_berths : (setMirr s i e).berths = s.berths := rfl
@[simp] theorem setMirr_ctls : (setMirr s i e).ctls = s.ctls := rfl
@[simp] theorem setMirr_dqs : (setMirr s i e).dqs = s.dqs := rfl
@[simp] theorem setMirr_dcmds : (setMirr s i e).dcmds = s.dcmds := rfl
@[simp] theorem setMirr_resvs : (setMirr s i e).resvs = s.resvs := rfl
@[simp] theorem setMirr_dock : (setMirr s i e).dock = s.dock := rfl
@[simp] theorem setMirr_serves : (setMirr s i e).serves = s.serves := rfl
@[simp] theorem setMirr_pilots : (setMirr s i e).pilots = s.pilots := rfl
@[simp] theorem setMirr_cask : (setMirr s i e).cask = s.cask := rfl
@[simp] theorem setMirr_cellar : (setMirr s i e).cellar = s.cellar := rfl
@[simp] theorem setMirr_celOwn : (setMirr s i e).celOwn = s.celOwn := rfl
@[simp] theorem setMirr_bays : (setMirr s i e).bays = s.bays := rfl
@[simp] theorem setMirr_arbCount : (setMirr s i e).arbCount = s.arbCount := rfl
@[simp] theorem setMirr_arbs : (setMirr s i e).arbs = s.arbs := rfl
@[simp] theorem setMirr_ltr : (setMirr s i e).ltr = s.ltr := rfl
@[simp] theorem setMirr_boot : (setMirr s i e).boot = s.boot := rfl
@[simp] theorem setMirr_pwr : (setMirr s i e).pwr = s.pwr := rfl
@[simp] theorem setMirr_code : (setMirr s i e).code = s.code := rfl
@[simp] theorem setMirr_hmmem : (setMirr s i e).hmmem = s.hmmem := rfl
@[simp] theorem setMirr_chk : (setMirr s i e).chk = s.chk := rfl
@[simp] theorem setMirr_csrc : (setMirr s i e).csrc = s.csrc := rfl
@[simp] theorem setMirr_gm : (setMirr s i e).gm = s.gm := rfl
@[simp] theorem setMirr_vbank : (setMirr s i e).vbank = s.vbank := rfl
@[simp] theorem setMirr_graft : (setMirr s i e).graft = s.graft := rfl
@[simp] theorem setMirr_vin : (setMirr s i e).vin = s.vin := rfl
@[simp] theorem setMirr_dbg : (setMirr s i e).dbg = s.dbg := rfl
@[simp] theorem setMirr_fstop : (setMirr s i e).fstop = s.fstop := rfl
@[simp] theorem setMirr_fwin : (setMirr s i e).fwin = s.fwin := rfl
@[simp] theorem setMirr_qtx : (setMirr s i e).qtx = s.qtx := rfl
@[simp] theorem setMirr_ctlRdat : (setMirr s i e).ctlRdat = s.ctlRdat := rfl
@[simp] theorem setMirr_ctlErr : (setMirr s i e).ctlErr = s.ctlErr := rfl
@[simp] theorem setMirr_out : (setMirr s i e).out = s.out := rfl
@[simp] theorem setMirr_freeCtr : (setMirr s i e).freeCtr = s.freeCtr := rfl
@[simp] theorem setMirr_pending : (setMirr s i e).pending = s.pending := rfl

@[simp] theorem hmWord_setMirr (j : Nat) : hmWord (setMirr s i e) j = hmWord s j := rfl
@[simp] theorem pilot_setMirr (j : Nat) : pilot (setMirr s i e) j = pilot s j := rfl
@[simp] theorem ring_setMirr (j : Nat) : ring (setMirr s i e) j = ring s j := rfl
@[simp] theorem own_setMirr (j : Nat) : own (setMirr s i e) j = own s j := rfl
@[simp] theorem aloneMoor_setMirr (j : Nat) : aloneMoor (setMirr s i e) j = aloneMoor s j := rfl
@[simp] theorem xctx_setMirr (j : Nat) : xctx (setMirr s i e) j = xctx s j := rfl
@[simp] theorem chkOf_setMirr (j : Nat) : chkOf (setMirr s i e) j = chkOf s j := rfl
@[simp] theorem csrcOf_setMirr (j : Nat) : csrcOf (setMirr s i e) j = csrcOf s j := rfl
@[simp] theorem fwinOf_setMirr (j : Nat) : fwinOf (setMirr s i e) j = fwinOf s j := rfl
@[simp] theorem berth_setMirr (j : Nat) : berth (setMirr s i e) j = berth s j := rfl
@[simp] theorem ctlOf_setMirr (j : Nat) : ctlOf (setMirr s i e) j = ctlOf s j := rfl
@[simp] theorem dqOf_setMirr (j : Nat) : dqOf (setMirr s i e) j = dqOf s j := rfl
@[simp] theorem dcmdOf_setMirr (j : Nat) : dcmdOf (setMirr s i e) j = dcmdOf s j := rfl
@[simp] theorem pathOf_setMirr (j : Nat) : pathOf (setMirr s i e) j = pathOf s j := rfl
@[simp] theorem shadow_setMirr (j : Nat) : shadow (setMirr s i e) j = shadow s j := rfl

end

section
variable (s : State) (i : Nat) (e : Moor)

@[simp] theorem setAloneMoor_blk : (setAloneMoor s i e).blk = s.blk := rfl
@[simp] theorem setAloneMoor_tide : (setAloneMoor s i e).tide = s.tide := rfl
@[simp] theorem setAloneMoor_bells : (setAloneMoor s i e).bells = s.bells := rfl
@[simp] theorem setAloneMoor_ecnt : (setAloneMoor s i e).ecnt = s.ecnt := rfl
@[simp] theorem setAloneMoor_bwd : (setAloneMoor s i e).bwd = s.bwd := rfl
@[simp] theorem setAloneMoor_evc : (setAloneMoor s i e).evc = s.evc := rfl
@[simp] theorem setAloneMoor_rings : (setAloneMoor s i e).rings = s.rings := rfl
@[simp] theorem setAloneMoor_pick : (setAloneMoor s i e).pick = s.pick := rfl
@[simp] theorem setAloneMoor_wm : (setAloneMoor s i e).wm = s.wm := rfl
@[simp] theorem setAloneMoor_sres : (setAloneMoor s i e).sres = s.sres := rfl
@[simp] theorem setAloneMoor_resvRefused : (setAloneMoor s i e).resvRefused = s.resvRefused := rfl
@[simp] theorem setAloneMoor_own : (setAloneMoor s i e).own = s.own := rfl
@[simp] theorem setAloneMoor_mirror : (setAloneMoor s i e).mirror = s.mirror := rfl
@[simp] theorem setAloneMoor_recq : (setAloneMoor s i e).recq = s.recq := rfl
@[simp] theorem setAloneMoor_hbr : (setAloneMoor s i e).hbr = s.hbr := rfl
@[simp] theorem setAloneMoor_hm : (setAloneMoor s i e).hm = s.hm := rfl
@[simp] theorem setAloneMoor_mbrkLease : (setAloneMoor s i e).mbrkLease = s.mbrkLease := rfl
@[simp] theorem setAloneMoor_mbrkFault : (setAloneMoor s i e).mbrkFault = s.mbrkFault := rfl
@[simp] theorem setAloneMoor_mlast : (setAloneMoor s i e).mlast = s.mlast := rfl
@[simp] theorem setAloneMoor_xc : (setAloneMoor s i e).xc = s.xc := rfl
@[simp] theorem setAloneMoor_admSeq : (setAloneMoor s i e).admSeq = s.admSeq := rfl
@[simp] theorem setAloneMoor_tw : (setAloneMoor s i e).tw = s.tw := rfl
@[simp] theorem setAloneMoor_paths : (setAloneMoor s i e).paths = s.paths := rfl
@[simp] theorem setAloneMoor_plc : (setAloneMoor s i e).plc = s.plc := rfl
@[simp] theorem setAloneMoor_members : (setAloneMoor s i e).members = s.members := rfl
@[simp] theorem setAloneMoor_berths : (setAloneMoor s i e).berths = s.berths := rfl
@[simp] theorem setAloneMoor_ctls : (setAloneMoor s i e).ctls = s.ctls := rfl
@[simp] theorem setAloneMoor_dqs : (setAloneMoor s i e).dqs = s.dqs := rfl
@[simp] theorem setAloneMoor_dcmds : (setAloneMoor s i e).dcmds = s.dcmds := rfl
@[simp] theorem setAloneMoor_resvs : (setAloneMoor s i e).resvs = s.resvs := rfl
@[simp] theorem setAloneMoor_dock : (setAloneMoor s i e).dock = s.dock := rfl
@[simp] theorem setAloneMoor_serves : (setAloneMoor s i e).serves = s.serves := rfl
@[simp] theorem setAloneMoor_pilots : (setAloneMoor s i e).pilots = s.pilots := rfl
@[simp] theorem setAloneMoor_cask : (setAloneMoor s i e).cask = s.cask := rfl
@[simp] theorem setAloneMoor_cellar : (setAloneMoor s i e).cellar = s.cellar := rfl
@[simp] theorem setAloneMoor_celOwn : (setAloneMoor s i e).celOwn = s.celOwn := rfl
@[simp] theorem setAloneMoor_bays : (setAloneMoor s i e).bays = s.bays := rfl
@[simp] theorem setAloneMoor_arbCount : (setAloneMoor s i e).arbCount = s.arbCount := rfl
@[simp] theorem setAloneMoor_arbs : (setAloneMoor s i e).arbs = s.arbs := rfl
@[simp] theorem setAloneMoor_ltr : (setAloneMoor s i e).ltr = s.ltr := rfl
@[simp] theorem setAloneMoor_boot : (setAloneMoor s i e).boot = s.boot := rfl
@[simp] theorem setAloneMoor_pwr : (setAloneMoor s i e).pwr = s.pwr := rfl
@[simp] theorem setAloneMoor_code : (setAloneMoor s i e).code = s.code := rfl
@[simp] theorem setAloneMoor_hmmem : (setAloneMoor s i e).hmmem = s.hmmem := rfl
@[simp] theorem setAloneMoor_chk : (setAloneMoor s i e).chk = s.chk := rfl
@[simp] theorem setAloneMoor_csrc : (setAloneMoor s i e).csrc = s.csrc := rfl
@[simp] theorem setAloneMoor_gm : (setAloneMoor s i e).gm = s.gm := rfl
@[simp] theorem setAloneMoor_vbank : (setAloneMoor s i e).vbank = s.vbank := rfl
@[simp] theorem setAloneMoor_graft : (setAloneMoor s i e).graft = s.graft := rfl
@[simp] theorem setAloneMoor_vin : (setAloneMoor s i e).vin = s.vin := rfl
@[simp] theorem setAloneMoor_dbg : (setAloneMoor s i e).dbg = s.dbg := rfl
@[simp] theorem setAloneMoor_fstop : (setAloneMoor s i e).fstop = s.fstop := rfl
@[simp] theorem setAloneMoor_fwin : (setAloneMoor s i e).fwin = s.fwin := rfl
@[simp] theorem setAloneMoor_qtx : (setAloneMoor s i e).qtx = s.qtx := rfl
@[simp] theorem setAloneMoor_ctlRdat : (setAloneMoor s i e).ctlRdat = s.ctlRdat := rfl
@[simp] theorem setAloneMoor_ctlErr : (setAloneMoor s i e).ctlErr = s.ctlErr := rfl
@[simp] theorem setAloneMoor_out : (setAloneMoor s i e).out = s.out := rfl
@[simp] theorem setAloneMoor_freeCtr : (setAloneMoor s i e).freeCtr = s.freeCtr := rfl
@[simp] theorem setAloneMoor_pending : (setAloneMoor s i e).pending = s.pending := rfl

@[simp] theorem hmWord_setAloneMoor (j : Nat) : hmWord (setAloneMoor s i e) j = hmWord s j := rfl
@[simp] theorem pilot_setAloneMoor (j : Nat) : pilot (setAloneMoor s i e) j = pilot s j := rfl
@[simp] theorem ring_setAloneMoor (j : Nat) : ring (setAloneMoor s i e) j = ring s j := rfl
@[simp] theorem own_setAloneMoor (j : Nat) : own (setAloneMoor s i e) j = own s j := rfl
@[simp] theorem mirr_setAloneMoor (j : Nat) : mirr (setAloneMoor s i e) j = mirr s j := rfl
@[simp] theorem xctx_setAloneMoor (j : Nat) : xctx (setAloneMoor s i e) j = xctx s j := rfl
@[simp] theorem chkOf_setAloneMoor (j : Nat) : chkOf (setAloneMoor s i e) j = chkOf s j := rfl
@[simp] theorem csrcOf_setAloneMoor (j : Nat) : csrcOf (setAloneMoor s i e) j = csrcOf s j := rfl
@[simp] theorem fwinOf_setAloneMoor (j : Nat) : fwinOf (setAloneMoor s i e) j = fwinOf s j := rfl
@[simp] theorem berth_setAloneMoor (j : Nat) : berth (setAloneMoor s i e) j = berth s j := rfl
@[simp] theorem ctlOf_setAloneMoor (j : Nat) : ctlOf (setAloneMoor s i e) j = ctlOf s j := rfl
@[simp] theorem dqOf_setAloneMoor (j : Nat) : dqOf (setAloneMoor s i e) j = dqOf s j := rfl
@[simp] theorem dcmdOf_setAloneMoor (j : Nat) : dcmdOf (setAloneMoor s i e) j = dcmdOf s j := rfl
@[simp] theorem pathOf_setAloneMoor (j : Nat) : pathOf (setAloneMoor s i e) j = pathOf s j := rfl
@[simp] theorem shadow_setAloneMoor (j : Nat) : shadow (setAloneMoor s i e) j = shadow s j := rfl

end

section
variable (s : State) (i : Nat) (x : Xc)

@[simp] theorem setXctx_blk : (setXctx s i x).blk = s.blk := rfl
@[simp] theorem setXctx_tide : (setXctx s i x).tide = s.tide := rfl
@[simp] theorem setXctx_bells : (setXctx s i x).bells = s.bells := rfl
@[simp] theorem setXctx_ecnt : (setXctx s i x).ecnt = s.ecnt := rfl
@[simp] theorem setXctx_bwd : (setXctx s i x).bwd = s.bwd := rfl
@[simp] theorem setXctx_evc : (setXctx s i x).evc = s.evc := rfl
@[simp] theorem setXctx_rings : (setXctx s i x).rings = s.rings := rfl
@[simp] theorem setXctx_pick : (setXctx s i x).pick = s.pick := rfl
@[simp] theorem setXctx_wm : (setXctx s i x).wm = s.wm := rfl
@[simp] theorem setXctx_sres : (setXctx s i x).sres = s.sres := rfl
@[simp] theorem setXctx_resvRefused : (setXctx s i x).resvRefused = s.resvRefused := rfl
@[simp] theorem setXctx_own : (setXctx s i x).own = s.own := rfl
@[simp] theorem setXctx_mirror : (setXctx s i x).mirror = s.mirror := rfl
@[simp] theorem setXctx_moor : (setXctx s i x).moor = s.moor := rfl
@[simp] theorem setXctx_recq : (setXctx s i x).recq = s.recq := rfl
@[simp] theorem setXctx_hbr : (setXctx s i x).hbr = s.hbr := rfl
@[simp] theorem setXctx_hm : (setXctx s i x).hm = s.hm := rfl
@[simp] theorem setXctx_mbrkLease : (setXctx s i x).mbrkLease = s.mbrkLease := rfl
@[simp] theorem setXctx_mbrkFault : (setXctx s i x).mbrkFault = s.mbrkFault := rfl
@[simp] theorem setXctx_mlast : (setXctx s i x).mlast = s.mlast := rfl
@[simp] theorem setXctx_admSeq : (setXctx s i x).admSeq = s.admSeq := rfl
@[simp] theorem setXctx_tw : (setXctx s i x).tw = s.tw := rfl
@[simp] theorem setXctx_paths : (setXctx s i x).paths = s.paths := rfl
@[simp] theorem setXctx_plc : (setXctx s i x).plc = s.plc := rfl
@[simp] theorem setXctx_members : (setXctx s i x).members = s.members := rfl
@[simp] theorem setXctx_berths : (setXctx s i x).berths = s.berths := rfl
@[simp] theorem setXctx_ctls : (setXctx s i x).ctls = s.ctls := rfl
@[simp] theorem setXctx_dqs : (setXctx s i x).dqs = s.dqs := rfl
@[simp] theorem setXctx_dcmds : (setXctx s i x).dcmds = s.dcmds := rfl
@[simp] theorem setXctx_resvs : (setXctx s i x).resvs = s.resvs := rfl
@[simp] theorem setXctx_dock : (setXctx s i x).dock = s.dock := rfl
@[simp] theorem setXctx_serves : (setXctx s i x).serves = s.serves := rfl
@[simp] theorem setXctx_pilots : (setXctx s i x).pilots = s.pilots := rfl
@[simp] theorem setXctx_cask : (setXctx s i x).cask = s.cask := rfl
@[simp] theorem setXctx_cellar : (setXctx s i x).cellar = s.cellar := rfl
@[simp] theorem setXctx_celOwn : (setXctx s i x).celOwn = s.celOwn := rfl
@[simp] theorem setXctx_bays : (setXctx s i x).bays = s.bays := rfl
@[simp] theorem setXctx_arbCount : (setXctx s i x).arbCount = s.arbCount := rfl
@[simp] theorem setXctx_arbs : (setXctx s i x).arbs = s.arbs := rfl
@[simp] theorem setXctx_ltr : (setXctx s i x).ltr = s.ltr := rfl
@[simp] theorem setXctx_boot : (setXctx s i x).boot = s.boot := rfl
@[simp] theorem setXctx_pwr : (setXctx s i x).pwr = s.pwr := rfl
@[simp] theorem setXctx_code : (setXctx s i x).code = s.code := rfl
@[simp] theorem setXctx_hmmem : (setXctx s i x).hmmem = s.hmmem := rfl
@[simp] theorem setXctx_chk : (setXctx s i x).chk = s.chk := rfl
@[simp] theorem setXctx_csrc : (setXctx s i x).csrc = s.csrc := rfl
@[simp] theorem setXctx_gm : (setXctx s i x).gm = s.gm := rfl
@[simp] theorem setXctx_vbank : (setXctx s i x).vbank = s.vbank := rfl
@[simp] theorem setXctx_graft : (setXctx s i x).graft = s.graft := rfl
@[simp] theorem setXctx_vin : (setXctx s i x).vin = s.vin := rfl
@[simp] theorem setXctx_dbg : (setXctx s i x).dbg = s.dbg := rfl
@[simp] theorem setXctx_fstop : (setXctx s i x).fstop = s.fstop := rfl
@[simp] theorem setXctx_fwin : (setXctx s i x).fwin = s.fwin := rfl
@[simp] theorem setXctx_qtx : (setXctx s i x).qtx = s.qtx := rfl
@[simp] theorem setXctx_ctlRdat : (setXctx s i x).ctlRdat = s.ctlRdat := rfl
@[simp] theorem setXctx_ctlErr : (setXctx s i x).ctlErr = s.ctlErr := rfl
@[simp] theorem setXctx_out : (setXctx s i x).out = s.out := rfl
@[simp] theorem setXctx_freeCtr : (setXctx s i x).freeCtr = s.freeCtr := rfl
@[simp] theorem setXctx_pending : (setXctx s i x).pending = s.pending := rfl

@[simp] theorem hmWord_setXctx (j : Nat) : hmWord (setXctx s i x) j = hmWord s j := rfl
@[simp] theorem pilot_setXctx (j : Nat) : pilot (setXctx s i x) j = pilot s j := rfl
@[simp] theorem ring_setXctx (j : Nat) : ring (setXctx s i x) j = ring s j := rfl
@[simp] theorem own_setXctx (j : Nat) : own (setXctx s i x) j = own s j := rfl
@[simp] theorem mirr_setXctx (j : Nat) : mirr (setXctx s i x) j = mirr s j := rfl
@[simp] theorem aloneMoor_setXctx (j : Nat) : aloneMoor (setXctx s i x) j = aloneMoor s j := rfl
@[simp] theorem chkOf_setXctx (j : Nat) : chkOf (setXctx s i x) j = chkOf s j := rfl
@[simp] theorem csrcOf_setXctx (j : Nat) : csrcOf (setXctx s i x) j = csrcOf s j := rfl
@[simp] theorem fwinOf_setXctx (j : Nat) : fwinOf (setXctx s i x) j = fwinOf s j := rfl
@[simp] theorem berth_setXctx (j : Nat) : berth (setXctx s i x) j = berth s j := rfl
@[simp] theorem ctlOf_setXctx (j : Nat) : ctlOf (setXctx s i x) j = ctlOf s j := rfl
@[simp] theorem dqOf_setXctx (j : Nat) : dqOf (setXctx s i x) j = dqOf s j := rfl
@[simp] theorem dcmdOf_setXctx (j : Nat) : dcmdOf (setXctx s i x) j = dcmdOf s j := rfl
@[simp] theorem pathOf_setXctx (j : Nat) : pathOf (setXctx s i x) j = pathOf s j := rfl
@[simp] theorem shadow_setXctx (j : Nat) : shadow (setXctx s i x) j = shadow s j := rfl

end

section
variable (s : State) (i : Nat) (f : Xc → Xc)

@[simp] theorem updXctx_blk : (updXctx s i f).blk = s.blk := rfl
@[simp] theorem updXctx_tide : (updXctx s i f).tide = s.tide := rfl
@[simp] theorem updXctx_bells : (updXctx s i f).bells = s.bells := rfl
@[simp] theorem updXctx_ecnt : (updXctx s i f).ecnt = s.ecnt := rfl
@[simp] theorem updXctx_bwd : (updXctx s i f).bwd = s.bwd := rfl
@[simp] theorem updXctx_evc : (updXctx s i f).evc = s.evc := rfl
@[simp] theorem updXctx_rings : (updXctx s i f).rings = s.rings := rfl
@[simp] theorem updXctx_pick : (updXctx s i f).pick = s.pick := rfl
@[simp] theorem updXctx_wm : (updXctx s i f).wm = s.wm := rfl
@[simp] theorem updXctx_sres : (updXctx s i f).sres = s.sres := rfl
@[simp] theorem updXctx_resvRefused : (updXctx s i f).resvRefused = s.resvRefused := rfl
@[simp] theorem updXctx_own : (updXctx s i f).own = s.own := rfl
@[simp] theorem updXctx_mirror : (updXctx s i f).mirror = s.mirror := rfl
@[simp] theorem updXctx_moor : (updXctx s i f).moor = s.moor := rfl
@[simp] theorem updXctx_recq : (updXctx s i f).recq = s.recq := rfl
@[simp] theorem updXctx_hbr : (updXctx s i f).hbr = s.hbr := rfl
@[simp] theorem updXctx_hm : (updXctx s i f).hm = s.hm := rfl
@[simp] theorem updXctx_mbrkLease : (updXctx s i f).mbrkLease = s.mbrkLease := rfl
@[simp] theorem updXctx_mbrkFault : (updXctx s i f).mbrkFault = s.mbrkFault := rfl
@[simp] theorem updXctx_mlast : (updXctx s i f).mlast = s.mlast := rfl
@[simp] theorem updXctx_admSeq : (updXctx s i f).admSeq = s.admSeq := rfl
@[simp] theorem updXctx_tw : (updXctx s i f).tw = s.tw := rfl
@[simp] theorem updXctx_paths : (updXctx s i f).paths = s.paths := rfl
@[simp] theorem updXctx_plc : (updXctx s i f).plc = s.plc := rfl
@[simp] theorem updXctx_members : (updXctx s i f).members = s.members := rfl
@[simp] theorem updXctx_berths : (updXctx s i f).berths = s.berths := rfl
@[simp] theorem updXctx_ctls : (updXctx s i f).ctls = s.ctls := rfl
@[simp] theorem updXctx_dqs : (updXctx s i f).dqs = s.dqs := rfl
@[simp] theorem updXctx_dcmds : (updXctx s i f).dcmds = s.dcmds := rfl
@[simp] theorem updXctx_resvs : (updXctx s i f).resvs = s.resvs := rfl
@[simp] theorem updXctx_dock : (updXctx s i f).dock = s.dock := rfl
@[simp] theorem updXctx_serves : (updXctx s i f).serves = s.serves := rfl
@[simp] theorem updXctx_pilots : (updXctx s i f).pilots = s.pilots := rfl
@[simp] theorem updXctx_cask : (updXctx s i f).cask = s.cask := rfl
@[simp] theorem updXctx_cellar : (updXctx s i f).cellar = s.cellar := rfl
@[simp] theorem updXctx_celOwn : (updXctx s i f).celOwn = s.celOwn := rfl
@[simp] theorem updXctx_bays : (updXctx s i f).bays = s.bays := rfl
@[simp] theorem updXctx_arbCount : (updXctx s i f).arbCount = s.arbCount := rfl
@[simp] theorem updXctx_arbs : (updXctx s i f).arbs = s.arbs := rfl
@[simp] theorem updXctx_ltr : (updXctx s i f).ltr = s.ltr := rfl
@[simp] theorem updXctx_boot : (updXctx s i f).boot = s.boot := rfl
@[simp] theorem updXctx_pwr : (updXctx s i f).pwr = s.pwr := rfl
@[simp] theorem updXctx_code : (updXctx s i f).code = s.code := rfl
@[simp] theorem updXctx_hmmem : (updXctx s i f).hmmem = s.hmmem := rfl
@[simp] theorem updXctx_chk : (updXctx s i f).chk = s.chk := rfl
@[simp] theorem updXctx_csrc : (updXctx s i f).csrc = s.csrc := rfl
@[simp] theorem updXctx_gm : (updXctx s i f).gm = s.gm := rfl
@[simp] theorem updXctx_vbank : (updXctx s i f).vbank = s.vbank := rfl
@[simp] theorem updXctx_graft : (updXctx s i f).graft = s.graft := rfl
@[simp] theorem updXctx_vin : (updXctx s i f).vin = s.vin := rfl
@[simp] theorem updXctx_dbg : (updXctx s i f).dbg = s.dbg := rfl
@[simp] theorem updXctx_fstop : (updXctx s i f).fstop = s.fstop := rfl
@[simp] theorem updXctx_fwin : (updXctx s i f).fwin = s.fwin := rfl
@[simp] theorem updXctx_qtx : (updXctx s i f).qtx = s.qtx := rfl
@[simp] theorem updXctx_ctlRdat : (updXctx s i f).ctlRdat = s.ctlRdat := rfl
@[simp] theorem updXctx_ctlErr : (updXctx s i f).ctlErr = s.ctlErr := rfl
@[simp] theorem updXctx_out : (updXctx s i f).out = s.out := rfl
@[simp] theorem updXctx_freeCtr : (updXctx s i f).freeCtr = s.freeCtr := rfl
@[simp] theorem updXctx_pending : (updXctx s i f).pending = s.pending := rfl

@[simp] theorem hmWord_updXctx (j : Nat) : hmWord (updXctx s i f) j = hmWord s j := rfl
@[simp] theorem pilot_updXctx (j : Nat) : pilot (updXctx s i f) j = pilot s j := rfl
@[simp] theorem ring_updXctx (j : Nat) : ring (updXctx s i f) j = ring s j := rfl
@[simp] theorem own_updXctx (j : Nat) : own (updXctx s i f) j = own s j := rfl
@[simp] theorem mirr_updXctx (j : Nat) : mirr (updXctx s i f) j = mirr s j := rfl
@[simp] theorem aloneMoor_updXctx (j : Nat) : aloneMoor (updXctx s i f) j = aloneMoor s j := rfl
@[simp] theorem chkOf_updXctx (j : Nat) : chkOf (updXctx s i f) j = chkOf s j := rfl
@[simp] theorem csrcOf_updXctx (j : Nat) : csrcOf (updXctx s i f) j = csrcOf s j := rfl
@[simp] theorem fwinOf_updXctx (j : Nat) : fwinOf (updXctx s i f) j = fwinOf s j := rfl
@[simp] theorem berth_updXctx (j : Nat) : berth (updXctx s i f) j = berth s j := rfl
@[simp] theorem ctlOf_updXctx (j : Nat) : ctlOf (updXctx s i f) j = ctlOf s j := rfl
@[simp] theorem dqOf_updXctx (j : Nat) : dqOf (updXctx s i f) j = dqOf s j := rfl
@[simp] theorem dcmdOf_updXctx (j : Nat) : dcmdOf (updXctx s i f) j = dcmdOf s j := rfl
@[simp] theorem pathOf_updXctx (j : Nat) : pathOf (updXctx s i f) j = pathOf s j := rfl
@[simp] theorem shadow_updXctx (j : Nat) : shadow (updXctx s i f) j = shadow s j := rfl

end

section
variable (s : State) (c : Nat) (x : Chk)

@[simp] theorem setChk_blk : (setChk s c x).blk = s.blk := rfl
@[simp] theorem setChk_tide : (setChk s c x).tide = s.tide := rfl
@[simp] theorem setChk_bells : (setChk s c x).bells = s.bells := rfl
@[simp] theorem setChk_ecnt : (setChk s c x).ecnt = s.ecnt := rfl
@[simp] theorem setChk_bwd : (setChk s c x).bwd = s.bwd := rfl
@[simp] theorem setChk_evc : (setChk s c x).evc = s.evc := rfl
@[simp] theorem setChk_rings : (setChk s c x).rings = s.rings := rfl
@[simp] theorem setChk_pick : (setChk s c x).pick = s.pick := rfl
@[simp] theorem setChk_wm : (setChk s c x).wm = s.wm := rfl
@[simp] theorem setChk_sres : (setChk s c x).sres = s.sres := rfl
@[simp] theorem setChk_resvRefused : (setChk s c x).resvRefused = s.resvRefused := rfl
@[simp] theorem setChk_own : (setChk s c x).own = s.own := rfl
@[simp] theorem setChk_mirror : (setChk s c x).mirror = s.mirror := rfl
@[simp] theorem setChk_moor : (setChk s c x).moor = s.moor := rfl
@[simp] theorem setChk_recq : (setChk s c x).recq = s.recq := rfl
@[simp] theorem setChk_hbr : (setChk s c x).hbr = s.hbr := rfl
@[simp] theorem setChk_hm : (setChk s c x).hm = s.hm := rfl
@[simp] theorem setChk_mbrkLease : (setChk s c x).mbrkLease = s.mbrkLease := rfl
@[simp] theorem setChk_mbrkFault : (setChk s c x).mbrkFault = s.mbrkFault := rfl
@[simp] theorem setChk_mlast : (setChk s c x).mlast = s.mlast := rfl
@[simp] theorem setChk_xc : (setChk s c x).xc = s.xc := rfl
@[simp] theorem setChk_admSeq : (setChk s c x).admSeq = s.admSeq := rfl
@[simp] theorem setChk_tw : (setChk s c x).tw = s.tw := rfl
@[simp] theorem setChk_paths : (setChk s c x).paths = s.paths := rfl
@[simp] theorem setChk_plc : (setChk s c x).plc = s.plc := rfl
@[simp] theorem setChk_members : (setChk s c x).members = s.members := rfl
@[simp] theorem setChk_berths : (setChk s c x).berths = s.berths := rfl
@[simp] theorem setChk_ctls : (setChk s c x).ctls = s.ctls := rfl
@[simp] theorem setChk_dqs : (setChk s c x).dqs = s.dqs := rfl
@[simp] theorem setChk_dcmds : (setChk s c x).dcmds = s.dcmds := rfl
@[simp] theorem setChk_resvs : (setChk s c x).resvs = s.resvs := rfl
@[simp] theorem setChk_dock : (setChk s c x).dock = s.dock := rfl
@[simp] theorem setChk_serves : (setChk s c x).serves = s.serves := rfl
@[simp] theorem setChk_pilots : (setChk s c x).pilots = s.pilots := rfl
@[simp] theorem setChk_cask : (setChk s c x).cask = s.cask := rfl
@[simp] theorem setChk_cellar : (setChk s c x).cellar = s.cellar := rfl
@[simp] theorem setChk_celOwn : (setChk s c x).celOwn = s.celOwn := rfl
@[simp] theorem setChk_bays : (setChk s c x).bays = s.bays := rfl
@[simp] theorem setChk_arbCount : (setChk s c x).arbCount = s.arbCount := rfl
@[simp] theorem setChk_arbs : (setChk s c x).arbs = s.arbs := rfl
@[simp] theorem setChk_ltr : (setChk s c x).ltr = s.ltr := rfl
@[simp] theorem setChk_boot : (setChk s c x).boot = s.boot := rfl
@[simp] theorem setChk_pwr : (setChk s c x).pwr = s.pwr := rfl
@[simp] theorem setChk_code : (setChk s c x).code = s.code := rfl
@[simp] theorem setChk_hmmem : (setChk s c x).hmmem = s.hmmem := rfl
@[simp] theorem setChk_csrc : (setChk s c x).csrc = s.csrc := rfl
@[simp] theorem setChk_gm : (setChk s c x).gm = s.gm := rfl
@[simp] theorem setChk_vbank : (setChk s c x).vbank = s.vbank := rfl
@[simp] theorem setChk_graft : (setChk s c x).graft = s.graft := rfl
@[simp] theorem setChk_vin : (setChk s c x).vin = s.vin := rfl
@[simp] theorem setChk_dbg : (setChk s c x).dbg = s.dbg := rfl
@[simp] theorem setChk_fstop : (setChk s c x).fstop = s.fstop := rfl
@[simp] theorem setChk_fwin : (setChk s c x).fwin = s.fwin := rfl
@[simp] theorem setChk_qtx : (setChk s c x).qtx = s.qtx := rfl
@[simp] theorem setChk_ctlRdat : (setChk s c x).ctlRdat = s.ctlRdat := rfl
@[simp] theorem setChk_ctlErr : (setChk s c x).ctlErr = s.ctlErr := rfl
@[simp] theorem setChk_out : (setChk s c x).out = s.out := rfl
@[simp] theorem setChk_freeCtr : (setChk s c x).freeCtr = s.freeCtr := rfl
@[simp] theorem setChk_pending : (setChk s c x).pending = s.pending := rfl

@[simp] theorem hmWord_setChk (j : Nat) : hmWord (setChk s c x) j = hmWord s j := rfl
@[simp] theorem pilot_setChk (j : Nat) : pilot (setChk s c x) j = pilot s j := rfl
@[simp] theorem ring_setChk (j : Nat) : ring (setChk s c x) j = ring s j := rfl
@[simp] theorem own_setChk (j : Nat) : own (setChk s c x) j = own s j := rfl
@[simp] theorem mirr_setChk (j : Nat) : mirr (setChk s c x) j = mirr s j := rfl
@[simp] theorem aloneMoor_setChk (j : Nat) : aloneMoor (setChk s c x) j = aloneMoor s j := rfl
@[simp] theorem xctx_setChk (j : Nat) : xctx (setChk s c x) j = xctx s j := rfl
@[simp] theorem csrcOf_setChk (j : Nat) : csrcOf (setChk s c x) j = csrcOf s j := rfl
@[simp] theorem fwinOf_setChk (j : Nat) : fwinOf (setChk s c x) j = fwinOf s j := rfl
@[simp] theorem berth_setChk (j : Nat) : berth (setChk s c x) j = berth s j := rfl
@[simp] theorem ctlOf_setChk (j : Nat) : ctlOf (setChk s c x) j = ctlOf s j := rfl
@[simp] theorem dqOf_setChk (j : Nat) : dqOf (setChk s c x) j = dqOf s j := rfl
@[simp] theorem dcmdOf_setChk (j : Nat) : dcmdOf (setChk s c x) j = dcmdOf s j := rfl
@[simp] theorem pathOf_setChk (j : Nat) : pathOf (setChk s c x) j = pathOf s j := rfl
@[simp] theorem shadow_setChk (j : Nat) : shadow (setChk s c x) j = shadow s j := rfl

end

section
variable (s : State) (c : Nat) (x : Csrc)

@[simp] theorem setCsrc_blk : (setCsrc s c x).blk = s.blk := rfl
@[simp] theorem setCsrc_tide : (setCsrc s c x).tide = s.tide := rfl
@[simp] theorem setCsrc_bells : (setCsrc s c x).bells = s.bells := rfl
@[simp] theorem setCsrc_ecnt : (setCsrc s c x).ecnt = s.ecnt := rfl
@[simp] theorem setCsrc_bwd : (setCsrc s c x).bwd = s.bwd := rfl
@[simp] theorem setCsrc_evc : (setCsrc s c x).evc = s.evc := rfl
@[simp] theorem setCsrc_rings : (setCsrc s c x).rings = s.rings := rfl
@[simp] theorem setCsrc_pick : (setCsrc s c x).pick = s.pick := rfl
@[simp] theorem setCsrc_wm : (setCsrc s c x).wm = s.wm := rfl
@[simp] theorem setCsrc_sres : (setCsrc s c x).sres = s.sres := rfl
@[simp] theorem setCsrc_resvRefused : (setCsrc s c x).resvRefused = s.resvRefused := rfl
@[simp] theorem setCsrc_own : (setCsrc s c x).own = s.own := rfl
@[simp] theorem setCsrc_mirror : (setCsrc s c x).mirror = s.mirror := rfl
@[simp] theorem setCsrc_moor : (setCsrc s c x).moor = s.moor := rfl
@[simp] theorem setCsrc_recq : (setCsrc s c x).recq = s.recq := rfl
@[simp] theorem setCsrc_hbr : (setCsrc s c x).hbr = s.hbr := rfl
@[simp] theorem setCsrc_hm : (setCsrc s c x).hm = s.hm := rfl
@[simp] theorem setCsrc_mbrkLease : (setCsrc s c x).mbrkLease = s.mbrkLease := rfl
@[simp] theorem setCsrc_mbrkFault : (setCsrc s c x).mbrkFault = s.mbrkFault := rfl
@[simp] theorem setCsrc_mlast : (setCsrc s c x).mlast = s.mlast := rfl
@[simp] theorem setCsrc_xc : (setCsrc s c x).xc = s.xc := rfl
@[simp] theorem setCsrc_admSeq : (setCsrc s c x).admSeq = s.admSeq := rfl
@[simp] theorem setCsrc_tw : (setCsrc s c x).tw = s.tw := rfl
@[simp] theorem setCsrc_paths : (setCsrc s c x).paths = s.paths := rfl
@[simp] theorem setCsrc_plc : (setCsrc s c x).plc = s.plc := rfl
@[simp] theorem setCsrc_members : (setCsrc s c x).members = s.members := rfl
@[simp] theorem setCsrc_berths : (setCsrc s c x).berths = s.berths := rfl
@[simp] theorem setCsrc_ctls : (setCsrc s c x).ctls = s.ctls := rfl
@[simp] theorem setCsrc_dqs : (setCsrc s c x).dqs = s.dqs := rfl
@[simp] theorem setCsrc_dcmds : (setCsrc s c x).dcmds = s.dcmds := rfl
@[simp] theorem setCsrc_resvs : (setCsrc s c x).resvs = s.resvs := rfl
@[simp] theorem setCsrc_dock : (setCsrc s c x).dock = s.dock := rfl
@[simp] theorem setCsrc_serves : (setCsrc s c x).serves = s.serves := rfl
@[simp] theorem setCsrc_pilots : (setCsrc s c x).pilots = s.pilots := rfl
@[simp] theorem setCsrc_cask : (setCsrc s c x).cask = s.cask := rfl
@[simp] theorem setCsrc_cellar : (setCsrc s c x).cellar = s.cellar := rfl
@[simp] theorem setCsrc_celOwn : (setCsrc s c x).celOwn = s.celOwn := rfl
@[simp] theorem setCsrc_bays : (setCsrc s c x).bays = s.bays := rfl
@[simp] theorem setCsrc_arbCount : (setCsrc s c x).arbCount = s.arbCount := rfl
@[simp] theorem setCsrc_arbs : (setCsrc s c x).arbs = s.arbs := rfl
@[simp] theorem setCsrc_ltr : (setCsrc s c x).ltr = s.ltr := rfl
@[simp] theorem setCsrc_boot : (setCsrc s c x).boot = s.boot := rfl
@[simp] theorem setCsrc_pwr : (setCsrc s c x).pwr = s.pwr := rfl
@[simp] theorem setCsrc_code : (setCsrc s c x).code = s.code := rfl
@[simp] theorem setCsrc_hmmem : (setCsrc s c x).hmmem = s.hmmem := rfl
@[simp] theorem setCsrc_chk : (setCsrc s c x).chk = s.chk := rfl
@[simp] theorem setCsrc_gm : (setCsrc s c x).gm = s.gm := rfl
@[simp] theorem setCsrc_vbank : (setCsrc s c x).vbank = s.vbank := rfl
@[simp] theorem setCsrc_graft : (setCsrc s c x).graft = s.graft := rfl
@[simp] theorem setCsrc_vin : (setCsrc s c x).vin = s.vin := rfl
@[simp] theorem setCsrc_dbg : (setCsrc s c x).dbg = s.dbg := rfl
@[simp] theorem setCsrc_fstop : (setCsrc s c x).fstop = s.fstop := rfl
@[simp] theorem setCsrc_fwin : (setCsrc s c x).fwin = s.fwin := rfl
@[simp] theorem setCsrc_qtx : (setCsrc s c x).qtx = s.qtx := rfl
@[simp] theorem setCsrc_ctlRdat : (setCsrc s c x).ctlRdat = s.ctlRdat := rfl
@[simp] theorem setCsrc_ctlErr : (setCsrc s c x).ctlErr = s.ctlErr := rfl
@[simp] theorem setCsrc_out : (setCsrc s c x).out = s.out := rfl
@[simp] theorem setCsrc_freeCtr : (setCsrc s c x).freeCtr = s.freeCtr := rfl
@[simp] theorem setCsrc_pending : (setCsrc s c x).pending = s.pending := rfl

@[simp] theorem hmWord_setCsrc (j : Nat) : hmWord (setCsrc s c x) j = hmWord s j := rfl
@[simp] theorem pilot_setCsrc (j : Nat) : pilot (setCsrc s c x) j = pilot s j := rfl
@[simp] theorem ring_setCsrc (j : Nat) : ring (setCsrc s c x) j = ring s j := rfl
@[simp] theorem own_setCsrc (j : Nat) : own (setCsrc s c x) j = own s j := rfl
@[simp] theorem mirr_setCsrc (j : Nat) : mirr (setCsrc s c x) j = mirr s j := rfl
@[simp] theorem aloneMoor_setCsrc (j : Nat) : aloneMoor (setCsrc s c x) j = aloneMoor s j := rfl
@[simp] theorem xctx_setCsrc (j : Nat) : xctx (setCsrc s c x) j = xctx s j := rfl
@[simp] theorem chkOf_setCsrc (j : Nat) : chkOf (setCsrc s c x) j = chkOf s j := rfl
@[simp] theorem fwinOf_setCsrc (j : Nat) : fwinOf (setCsrc s c x) j = fwinOf s j := rfl
@[simp] theorem berth_setCsrc (j : Nat) : berth (setCsrc s c x) j = berth s j := rfl
@[simp] theorem ctlOf_setCsrc (j : Nat) : ctlOf (setCsrc s c x) j = ctlOf s j := rfl
@[simp] theorem dqOf_setCsrc (j : Nat) : dqOf (setCsrc s c x) j = dqOf s j := rfl
@[simp] theorem dcmdOf_setCsrc (j : Nat) : dcmdOf (setCsrc s c x) j = dcmdOf s j := rfl
@[simp] theorem pathOf_setCsrc (j : Nat) : pathOf (setCsrc s c x) j = pathOf s j := rfl
@[simp] theorem shadow_setCsrc (j : Nat) : shadow (setCsrc s c x) j = shadow s j := rfl

end

section
variable (s : State) (c : Nat) (v : Bool) (x : VBank)

@[simp] theorem setVbank_blk : (setVbank s c v x).blk = s.blk := rfl
@[simp] theorem setVbank_tide : (setVbank s c v x).tide = s.tide := rfl
@[simp] theorem setVbank_bells : (setVbank s c v x).bells = s.bells := rfl
@[simp] theorem setVbank_ecnt : (setVbank s c v x).ecnt = s.ecnt := rfl
@[simp] theorem setVbank_bwd : (setVbank s c v x).bwd = s.bwd := rfl
@[simp] theorem setVbank_evc : (setVbank s c v x).evc = s.evc := rfl
@[simp] theorem setVbank_rings : (setVbank s c v x).rings = s.rings := rfl
@[simp] theorem setVbank_pick : (setVbank s c v x).pick = s.pick := rfl
@[simp] theorem setVbank_wm : (setVbank s c v x).wm = s.wm := rfl
@[simp] theorem setVbank_sres : (setVbank s c v x).sres = s.sres := rfl
@[simp] theorem setVbank_resvRefused : (setVbank s c v x).resvRefused = s.resvRefused := rfl
@[simp] theorem setVbank_own : (setVbank s c v x).own = s.own := rfl
@[simp] theorem setVbank_mirror : (setVbank s c v x).mirror = s.mirror := rfl
@[simp] theorem setVbank_moor : (setVbank s c v x).moor = s.moor := rfl
@[simp] theorem setVbank_recq : (setVbank s c v x).recq = s.recq := rfl
@[simp] theorem setVbank_hbr : (setVbank s c v x).hbr = s.hbr := rfl
@[simp] theorem setVbank_hm : (setVbank s c v x).hm = s.hm := rfl
@[simp] theorem setVbank_mbrkLease : (setVbank s c v x).mbrkLease = s.mbrkLease := rfl
@[simp] theorem setVbank_mbrkFault : (setVbank s c v x).mbrkFault = s.mbrkFault := rfl
@[simp] theorem setVbank_mlast : (setVbank s c v x).mlast = s.mlast := rfl
@[simp] theorem setVbank_xc : (setVbank s c v x).xc = s.xc := rfl
@[simp] theorem setVbank_admSeq : (setVbank s c v x).admSeq = s.admSeq := rfl
@[simp] theorem setVbank_tw : (setVbank s c v x).tw = s.tw := rfl
@[simp] theorem setVbank_paths : (setVbank s c v x).paths = s.paths := rfl
@[simp] theorem setVbank_plc : (setVbank s c v x).plc = s.plc := rfl
@[simp] theorem setVbank_members : (setVbank s c v x).members = s.members := rfl
@[simp] theorem setVbank_berths : (setVbank s c v x).berths = s.berths := rfl
@[simp] theorem setVbank_ctls : (setVbank s c v x).ctls = s.ctls := rfl
@[simp] theorem setVbank_dqs : (setVbank s c v x).dqs = s.dqs := rfl
@[simp] theorem setVbank_dcmds : (setVbank s c v x).dcmds = s.dcmds := rfl
@[simp] theorem setVbank_resvs : (setVbank s c v x).resvs = s.resvs := rfl
@[simp] theorem setVbank_dock : (setVbank s c v x).dock = s.dock := rfl
@[simp] theorem setVbank_serves : (setVbank s c v x).serves = s.serves := rfl
@[simp] theorem setVbank_pilots : (setVbank s c v x).pilots = s.pilots := rfl
@[simp] theorem setVbank_cask : (setVbank s c v x).cask = s.cask := rfl
@[simp] theorem setVbank_cellar : (setVbank s c v x).cellar = s.cellar := rfl
@[simp] theorem setVbank_celOwn : (setVbank s c v x).celOwn = s.celOwn := rfl
@[simp] theorem setVbank_bays : (setVbank s c v x).bays = s.bays := rfl
@[simp] theorem setVbank_arbCount : (setVbank s c v x).arbCount = s.arbCount := rfl
@[simp] theorem setVbank_arbs : (setVbank s c v x).arbs = s.arbs := rfl
@[simp] theorem setVbank_ltr : (setVbank s c v x).ltr = s.ltr := rfl
@[simp] theorem setVbank_boot : (setVbank s c v x).boot = s.boot := rfl
@[simp] theorem setVbank_pwr : (setVbank s c v x).pwr = s.pwr := rfl
@[simp] theorem setVbank_code : (setVbank s c v x).code = s.code := rfl
@[simp] theorem setVbank_hmmem : (setVbank s c v x).hmmem = s.hmmem := rfl
@[simp] theorem setVbank_chk : (setVbank s c v x).chk = s.chk := rfl
@[simp] theorem setVbank_csrc : (setVbank s c v x).csrc = s.csrc := rfl
@[simp] theorem setVbank_gm : (setVbank s c v x).gm = s.gm := rfl
@[simp] theorem setVbank_graft : (setVbank s c v x).graft = s.graft := rfl
@[simp] theorem setVbank_vin : (setVbank s c v x).vin = s.vin := rfl
@[simp] theorem setVbank_dbg : (setVbank s c v x).dbg = s.dbg := rfl
@[simp] theorem setVbank_fstop : (setVbank s c v x).fstop = s.fstop := rfl
@[simp] theorem setVbank_fwin : (setVbank s c v x).fwin = s.fwin := rfl
@[simp] theorem setVbank_qtx : (setVbank s c v x).qtx = s.qtx := rfl
@[simp] theorem setVbank_ctlRdat : (setVbank s c v x).ctlRdat = s.ctlRdat := rfl
@[simp] theorem setVbank_ctlErr : (setVbank s c v x).ctlErr = s.ctlErr := rfl
@[simp] theorem setVbank_out : (setVbank s c v x).out = s.out := rfl
@[simp] theorem setVbank_freeCtr : (setVbank s c v x).freeCtr = s.freeCtr := rfl
@[simp] theorem setVbank_pending : (setVbank s c v x).pending = s.pending := rfl

@[simp] theorem hmWord_setVbank (j : Nat) : hmWord (setVbank s c v x) j = hmWord s j := rfl
@[simp] theorem pilot_setVbank (j : Nat) : pilot (setVbank s c v x) j = pilot s j := rfl
@[simp] theorem ring_setVbank (j : Nat) : ring (setVbank s c v x) j = ring s j := rfl
@[simp] theorem own_setVbank (j : Nat) : own (setVbank s c v x) j = own s j := rfl
@[simp] theorem mirr_setVbank (j : Nat) : mirr (setVbank s c v x) j = mirr s j := rfl
@[simp] theorem aloneMoor_setVbank (j : Nat) : aloneMoor (setVbank s c v x) j = aloneMoor s j := rfl
@[simp] theorem xctx_setVbank (j : Nat) : xctx (setVbank s c v x) j = xctx s j := rfl
@[simp] theorem chkOf_setVbank (j : Nat) : chkOf (setVbank s c v x) j = chkOf s j := rfl
@[simp] theorem csrcOf_setVbank (j : Nat) : csrcOf (setVbank s c v x) j = csrcOf s j := rfl
@[simp] theorem fwinOf_setVbank (j : Nat) : fwinOf (setVbank s c v x) j = fwinOf s j := rfl
@[simp] theorem berth_setVbank (j : Nat) : berth (setVbank s c v x) j = berth s j := rfl
@[simp] theorem ctlOf_setVbank (j : Nat) : ctlOf (setVbank s c v x) j = ctlOf s j := rfl
@[simp] theorem dqOf_setVbank (j : Nat) : dqOf (setVbank s c v x) j = dqOf s j := rfl
@[simp] theorem dcmdOf_setVbank (j : Nat) : dcmdOf (setVbank s c v x) j = dcmdOf s j := rfl
@[simp] theorem pathOf_setVbank (j : Nat) : pathOf (setVbank s c v x) j = pathOf s j := rfl
@[simp] theorem shadow_setVbank (j : Nat) : shadow (setVbank s c v x) j = shadow s j := rfl

end

section
variable (s : State) (p : Nat) (x : FWin)

@[simp] theorem setFwin_blk : (setFwin s p x).blk = s.blk := rfl
@[simp] theorem setFwin_tide : (setFwin s p x).tide = s.tide := rfl
@[simp] theorem setFwin_bells : (setFwin s p x).bells = s.bells := rfl
@[simp] theorem setFwin_ecnt : (setFwin s p x).ecnt = s.ecnt := rfl
@[simp] theorem setFwin_bwd : (setFwin s p x).bwd = s.bwd := rfl
@[simp] theorem setFwin_evc : (setFwin s p x).evc = s.evc := rfl
@[simp] theorem setFwin_rings : (setFwin s p x).rings = s.rings := rfl
@[simp] theorem setFwin_pick : (setFwin s p x).pick = s.pick := rfl
@[simp] theorem setFwin_wm : (setFwin s p x).wm = s.wm := rfl
@[simp] theorem setFwin_sres : (setFwin s p x).sres = s.sres := rfl
@[simp] theorem setFwin_resvRefused : (setFwin s p x).resvRefused = s.resvRefused := rfl
@[simp] theorem setFwin_own : (setFwin s p x).own = s.own := rfl
@[simp] theorem setFwin_mirror : (setFwin s p x).mirror = s.mirror := rfl
@[simp] theorem setFwin_moor : (setFwin s p x).moor = s.moor := rfl
@[simp] theorem setFwin_recq : (setFwin s p x).recq = s.recq := rfl
@[simp] theorem setFwin_hbr : (setFwin s p x).hbr = s.hbr := rfl
@[simp] theorem setFwin_hm : (setFwin s p x).hm = s.hm := rfl
@[simp] theorem setFwin_mbrkLease : (setFwin s p x).mbrkLease = s.mbrkLease := rfl
@[simp] theorem setFwin_mbrkFault : (setFwin s p x).mbrkFault = s.mbrkFault := rfl
@[simp] theorem setFwin_mlast : (setFwin s p x).mlast = s.mlast := rfl
@[simp] theorem setFwin_xc : (setFwin s p x).xc = s.xc := rfl
@[simp] theorem setFwin_admSeq : (setFwin s p x).admSeq = s.admSeq := rfl
@[simp] theorem setFwin_tw : (setFwin s p x).tw = s.tw := rfl
@[simp] theorem setFwin_paths : (setFwin s p x).paths = s.paths := rfl
@[simp] theorem setFwin_plc : (setFwin s p x).plc = s.plc := rfl
@[simp] theorem setFwin_members : (setFwin s p x).members = s.members := rfl
@[simp] theorem setFwin_berths : (setFwin s p x).berths = s.berths := rfl
@[simp] theorem setFwin_ctls : (setFwin s p x).ctls = s.ctls := rfl
@[simp] theorem setFwin_dqs : (setFwin s p x).dqs = s.dqs := rfl
@[simp] theorem setFwin_dcmds : (setFwin s p x).dcmds = s.dcmds := rfl
@[simp] theorem setFwin_resvs : (setFwin s p x).resvs = s.resvs := rfl
@[simp] theorem setFwin_dock : (setFwin s p x).dock = s.dock := rfl
@[simp] theorem setFwin_serves : (setFwin s p x).serves = s.serves := rfl
@[simp] theorem setFwin_pilots : (setFwin s p x).pilots = s.pilots := rfl
@[simp] theorem setFwin_cask : (setFwin s p x).cask = s.cask := rfl
@[simp] theorem setFwin_cellar : (setFwin s p x).cellar = s.cellar := rfl
@[simp] theorem setFwin_celOwn : (setFwin s p x).celOwn = s.celOwn := rfl
@[simp] theorem setFwin_bays : (setFwin s p x).bays = s.bays := rfl
@[simp] theorem setFwin_arbCount : (setFwin s p x).arbCount = s.arbCount := rfl
@[simp] theorem setFwin_arbs : (setFwin s p x).arbs = s.arbs := rfl
@[simp] theorem setFwin_ltr : (setFwin s p x).ltr = s.ltr := rfl
@[simp] theorem setFwin_boot : (setFwin s p x).boot = s.boot := rfl
@[simp] theorem setFwin_pwr : (setFwin s p x).pwr = s.pwr := rfl
@[simp] theorem setFwin_code : (setFwin s p x).code = s.code := rfl
@[simp] theorem setFwin_hmmem : (setFwin s p x).hmmem = s.hmmem := rfl
@[simp] theorem setFwin_chk : (setFwin s p x).chk = s.chk := rfl
@[simp] theorem setFwin_csrc : (setFwin s p x).csrc = s.csrc := rfl
@[simp] theorem setFwin_gm : (setFwin s p x).gm = s.gm := rfl
@[simp] theorem setFwin_vbank : (setFwin s p x).vbank = s.vbank := rfl
@[simp] theorem setFwin_graft : (setFwin s p x).graft = s.graft := rfl
@[simp] theorem setFwin_vin : (setFwin s p x).vin = s.vin := rfl
@[simp] theorem setFwin_dbg : (setFwin s p x).dbg = s.dbg := rfl
@[simp] theorem setFwin_fstop : (setFwin s p x).fstop = s.fstop := rfl
@[simp] theorem setFwin_qtx : (setFwin s p x).qtx = s.qtx := rfl
@[simp] theorem setFwin_ctlRdat : (setFwin s p x).ctlRdat = s.ctlRdat := rfl
@[simp] theorem setFwin_ctlErr : (setFwin s p x).ctlErr = s.ctlErr := rfl
@[simp] theorem setFwin_out : (setFwin s p x).out = s.out := rfl
@[simp] theorem setFwin_freeCtr : (setFwin s p x).freeCtr = s.freeCtr := rfl
@[simp] theorem setFwin_pending : (setFwin s p x).pending = s.pending := rfl

@[simp] theorem hmWord_setFwin (j : Nat) : hmWord (setFwin s p x) j = hmWord s j := rfl
@[simp] theorem pilot_setFwin (j : Nat) : pilot (setFwin s p x) j = pilot s j := rfl
@[simp] theorem ring_setFwin (j : Nat) : ring (setFwin s p x) j = ring s j := rfl
@[simp] theorem own_setFwin (j : Nat) : own (setFwin s p x) j = own s j := rfl
@[simp] theorem mirr_setFwin (j : Nat) : mirr (setFwin s p x) j = mirr s j := rfl
@[simp] theorem aloneMoor_setFwin (j : Nat) : aloneMoor (setFwin s p x) j = aloneMoor s j := rfl
@[simp] theorem xctx_setFwin (j : Nat) : xctx (setFwin s p x) j = xctx s j := rfl
@[simp] theorem chkOf_setFwin (j : Nat) : chkOf (setFwin s p x) j = chkOf s j := rfl
@[simp] theorem csrcOf_setFwin (j : Nat) : csrcOf (setFwin s p x) j = csrcOf s j := rfl
@[simp] theorem berth_setFwin (j : Nat) : berth (setFwin s p x) j = berth s j := rfl
@[simp] theorem ctlOf_setFwin (j : Nat) : ctlOf (setFwin s p x) j = ctlOf s j := rfl
@[simp] theorem dqOf_setFwin (j : Nat) : dqOf (setFwin s p x) j = dqOf s j := rfl
@[simp] theorem dcmdOf_setFwin (j : Nat) : dcmdOf (setFwin s p x) j = dcmdOf s j := rfl
@[simp] theorem pathOf_setFwin (j : Nat) : pathOf (setFwin s p x) j = pathOf s j := rfl
@[simp] theorem shadow_setFwin (j : Nat) : shadow (setFwin s p x) j = shadow s j := rfl

end

section
variable (s : State) (b : Nat) (x : Berth)

@[simp] theorem setBerth_blk : (setBerth s b x).blk = s.blk := rfl
@[simp] theorem setBerth_tide : (setBerth s b x).tide = s.tide := rfl
@[simp] theorem setBerth_bells : (setBerth s b x).bells = s.bells := rfl
@[simp] theorem setBerth_ecnt : (setBerth s b x).ecnt = s.ecnt := rfl
@[simp] theorem setBerth_bwd : (setBerth s b x).bwd = s.bwd := rfl
@[simp] theorem setBerth_evc : (setBerth s b x).evc = s.evc := rfl
@[simp] theorem setBerth_rings : (setBerth s b x).rings = s.rings := rfl
@[simp] theorem setBerth_pick : (setBerth s b x).pick = s.pick := rfl
@[simp] theorem setBerth_wm : (setBerth s b x).wm = s.wm := rfl
@[simp] theorem setBerth_sres : (setBerth s b x).sres = s.sres := rfl
@[simp] theorem setBerth_resvRefused : (setBerth s b x).resvRefused = s.resvRefused := rfl
@[simp] theorem setBerth_own : (setBerth s b x).own = s.own := rfl
@[simp] theorem setBerth_mirror : (setBerth s b x).mirror = s.mirror := rfl
@[simp] theorem setBerth_moor : (setBerth s b x).moor = s.moor := rfl
@[simp] theorem setBerth_recq : (setBerth s b x).recq = s.recq := rfl
@[simp] theorem setBerth_hbr : (setBerth s b x).hbr = s.hbr := rfl
@[simp] theorem setBerth_hm : (setBerth s b x).hm = s.hm := rfl
@[simp] theorem setBerth_mbrkLease : (setBerth s b x).mbrkLease = s.mbrkLease := rfl
@[simp] theorem setBerth_mbrkFault : (setBerth s b x).mbrkFault = s.mbrkFault := rfl
@[simp] theorem setBerth_mlast : (setBerth s b x).mlast = s.mlast := rfl
@[simp] theorem setBerth_xc : (setBerth s b x).xc = s.xc := rfl
@[simp] theorem setBerth_admSeq : (setBerth s b x).admSeq = s.admSeq := rfl
@[simp] theorem setBerth_tw : (setBerth s b x).tw = s.tw := rfl
@[simp] theorem setBerth_paths : (setBerth s b x).paths = s.paths := rfl
@[simp] theorem setBerth_plc : (setBerth s b x).plc = s.plc := rfl
@[simp] theorem setBerth_members : (setBerth s b x).members = s.members := rfl
@[simp] theorem setBerth_ctls : (setBerth s b x).ctls = s.ctls := rfl
@[simp] theorem setBerth_dqs : (setBerth s b x).dqs = s.dqs := rfl
@[simp] theorem setBerth_dcmds : (setBerth s b x).dcmds = s.dcmds := rfl
@[simp] theorem setBerth_resvs : (setBerth s b x).resvs = s.resvs := rfl
@[simp] theorem setBerth_dock : (setBerth s b x).dock = s.dock := rfl
@[simp] theorem setBerth_serves : (setBerth s b x).serves = s.serves := rfl
@[simp] theorem setBerth_pilots : (setBerth s b x).pilots = s.pilots := rfl
@[simp] theorem setBerth_cask : (setBerth s b x).cask = s.cask := rfl
@[simp] theorem setBerth_cellar : (setBerth s b x).cellar = s.cellar := rfl
@[simp] theorem setBerth_celOwn : (setBerth s b x).celOwn = s.celOwn := rfl
@[simp] theorem setBerth_bays : (setBerth s b x).bays = s.bays := rfl
@[simp] theorem setBerth_arbCount : (setBerth s b x).arbCount = s.arbCount := rfl
@[simp] theorem setBerth_arbs : (setBerth s b x).arbs = s.arbs := rfl
@[simp] theorem setBerth_ltr : (setBerth s b x).ltr = s.ltr := rfl
@[simp] theorem setBerth_boot : (setBerth s b x).boot = s.boot := rfl
@[simp] theorem setBerth_pwr : (setBerth s b x).pwr = s.pwr := rfl
@[simp] theorem setBerth_code : (setBerth s b x).code = s.code := rfl
@[simp] theorem setBerth_hmmem : (setBerth s b x).hmmem = s.hmmem := rfl
@[simp] theorem setBerth_chk : (setBerth s b x).chk = s.chk := rfl
@[simp] theorem setBerth_csrc : (setBerth s b x).csrc = s.csrc := rfl
@[simp] theorem setBerth_gm : (setBerth s b x).gm = s.gm := rfl
@[simp] theorem setBerth_vbank : (setBerth s b x).vbank = s.vbank := rfl
@[simp] theorem setBerth_graft : (setBerth s b x).graft = s.graft := rfl
@[simp] theorem setBerth_vin : (setBerth s b x).vin = s.vin := rfl
@[simp] theorem setBerth_dbg : (setBerth s b x).dbg = s.dbg := rfl
@[simp] theorem setBerth_fstop : (setBerth s b x).fstop = s.fstop := rfl
@[simp] theorem setBerth_fwin : (setBerth s b x).fwin = s.fwin := rfl
@[simp] theorem setBerth_qtx : (setBerth s b x).qtx = s.qtx := rfl
@[simp] theorem setBerth_ctlRdat : (setBerth s b x).ctlRdat = s.ctlRdat := rfl
@[simp] theorem setBerth_ctlErr : (setBerth s b x).ctlErr = s.ctlErr := rfl
@[simp] theorem setBerth_out : (setBerth s b x).out = s.out := rfl
@[simp] theorem setBerth_freeCtr : (setBerth s b x).freeCtr = s.freeCtr := rfl
@[simp] theorem setBerth_pending : (setBerth s b x).pending = s.pending := rfl

@[simp] theorem hmWord_setBerth (j : Nat) : hmWord (setBerth s b x) j = hmWord s j := rfl
@[simp] theorem pilot_setBerth (j : Nat) : pilot (setBerth s b x) j = pilot s j := rfl
@[simp] theorem ring_setBerth (j : Nat) : ring (setBerth s b x) j = ring s j := rfl
@[simp] theorem own_setBerth (j : Nat) : own (setBerth s b x) j = own s j := rfl
@[simp] theorem mirr_setBerth (j : Nat) : mirr (setBerth s b x) j = mirr s j := rfl
@[simp] theorem aloneMoor_setBerth (j : Nat) : aloneMoor (setBerth s b x) j = aloneMoor s j := rfl
@[simp] theorem xctx_setBerth (j : Nat) : xctx (setBerth s b x) j = xctx s j := rfl
@[simp] theorem chkOf_setBerth (j : Nat) : chkOf (setBerth s b x) j = chkOf s j := rfl
@[simp] theorem csrcOf_setBerth (j : Nat) : csrcOf (setBerth s b x) j = csrcOf s j := rfl
@[simp] theorem fwinOf_setBerth (j : Nat) : fwinOf (setBerth s b x) j = fwinOf s j := rfl
@[simp] theorem ctlOf_setBerth (j : Nat) : ctlOf (setBerth s b x) j = ctlOf s j := rfl
@[simp] theorem dqOf_setBerth (j : Nat) : dqOf (setBerth s b x) j = dqOf s j := rfl
@[simp] theorem dcmdOf_setBerth (j : Nat) : dcmdOf (setBerth s b x) j = dcmdOf s j := rfl
@[simp] theorem pathOf_setBerth (j : Nat) : pathOf (setBerth s b x) j = pathOf s j := rfl
@[simp] theorem shadow_setBerth (j : Nat) : shadow (setBerth s b x) j = shadow s j := rfl

end

section
variable (s : State) (c : Nat) (x : Ctl)

@[simp] theorem setCtl_blk : (setCtl s c x).blk = s.blk := rfl
@[simp] theorem setCtl_tide : (setCtl s c x).tide = s.tide := rfl
@[simp] theorem setCtl_bells : (setCtl s c x).bells = s.bells := rfl
@[simp] theorem setCtl_ecnt : (setCtl s c x).ecnt = s.ecnt := rfl
@[simp] theorem setCtl_bwd : (setCtl s c x).bwd = s.bwd := rfl
@[simp] theorem setCtl_evc : (setCtl s c x).evc = s.evc := rfl
@[simp] theorem setCtl_rings : (setCtl s c x).rings = s.rings := rfl
@[simp] theorem setCtl_pick : (setCtl s c x).pick = s.pick := rfl
@[simp] theorem setCtl_wm : (setCtl s c x).wm = s.wm := rfl
@[simp] theorem setCtl_sres : (setCtl s c x).sres = s.sres := rfl
@[simp] theorem setCtl_resvRefused : (setCtl s c x).resvRefused = s.resvRefused := rfl
@[simp] theorem setCtl_own : (setCtl s c x).own = s.own := rfl
@[simp] theorem setCtl_mirror : (setCtl s c x).mirror = s.mirror := rfl
@[simp] theorem setCtl_moor : (setCtl s c x).moor = s.moor := rfl
@[simp] theorem setCtl_recq : (setCtl s c x).recq = s.recq := rfl
@[simp] theorem setCtl_hbr : (setCtl s c x).hbr = s.hbr := rfl
@[simp] theorem setCtl_hm : (setCtl s c x).hm = s.hm := rfl
@[simp] theorem setCtl_mbrkLease : (setCtl s c x).mbrkLease = s.mbrkLease := rfl
@[simp] theorem setCtl_mbrkFault : (setCtl s c x).mbrkFault = s.mbrkFault := rfl
@[simp] theorem setCtl_mlast : (setCtl s c x).mlast = s.mlast := rfl
@[simp] theorem setCtl_xc : (setCtl s c x).xc = s.xc := rfl
@[simp] theorem setCtl_admSeq : (setCtl s c x).admSeq = s.admSeq := rfl
@[simp] theorem setCtl_tw : (setCtl s c x).tw = s.tw := rfl
@[simp] theorem setCtl_paths : (setCtl s c x).paths = s.paths := rfl
@[simp] theorem setCtl_plc : (setCtl s c x).plc = s.plc := rfl
@[simp] theorem setCtl_members : (setCtl s c x).members = s.members := rfl
@[simp] theorem setCtl_berths : (setCtl s c x).berths = s.berths := rfl
@[simp] theorem setCtl_dqs : (setCtl s c x).dqs = s.dqs := rfl
@[simp] theorem setCtl_dcmds : (setCtl s c x).dcmds = s.dcmds := rfl
@[simp] theorem setCtl_resvs : (setCtl s c x).resvs = s.resvs := rfl
@[simp] theorem setCtl_dock : (setCtl s c x).dock = s.dock := rfl
@[simp] theorem setCtl_serves : (setCtl s c x).serves = s.serves := rfl
@[simp] theorem setCtl_pilots : (setCtl s c x).pilots = s.pilots := rfl
@[simp] theorem setCtl_cask : (setCtl s c x).cask = s.cask := rfl
@[simp] theorem setCtl_cellar : (setCtl s c x).cellar = s.cellar := rfl
@[simp] theorem setCtl_celOwn : (setCtl s c x).celOwn = s.celOwn := rfl
@[simp] theorem setCtl_bays : (setCtl s c x).bays = s.bays := rfl
@[simp] theorem setCtl_arbCount : (setCtl s c x).arbCount = s.arbCount := rfl
@[simp] theorem setCtl_arbs : (setCtl s c x).arbs = s.arbs := rfl
@[simp] theorem setCtl_ltr : (setCtl s c x).ltr = s.ltr := rfl
@[simp] theorem setCtl_boot : (setCtl s c x).boot = s.boot := rfl
@[simp] theorem setCtl_pwr : (setCtl s c x).pwr = s.pwr := rfl
@[simp] theorem setCtl_code : (setCtl s c x).code = s.code := rfl
@[simp] theorem setCtl_hmmem : (setCtl s c x).hmmem = s.hmmem := rfl
@[simp] theorem setCtl_chk : (setCtl s c x).chk = s.chk := rfl
@[simp] theorem setCtl_csrc : (setCtl s c x).csrc = s.csrc := rfl
@[simp] theorem setCtl_gm : (setCtl s c x).gm = s.gm := rfl
@[simp] theorem setCtl_vbank : (setCtl s c x).vbank = s.vbank := rfl
@[simp] theorem setCtl_graft : (setCtl s c x).graft = s.graft := rfl
@[simp] theorem setCtl_vin : (setCtl s c x).vin = s.vin := rfl
@[simp] theorem setCtl_dbg : (setCtl s c x).dbg = s.dbg := rfl
@[simp] theorem setCtl_fstop : (setCtl s c x).fstop = s.fstop := rfl
@[simp] theorem setCtl_fwin : (setCtl s c x).fwin = s.fwin := rfl
@[simp] theorem setCtl_qtx : (setCtl s c x).qtx = s.qtx := rfl
@[simp] theorem setCtl_ctlRdat : (setCtl s c x).ctlRdat = s.ctlRdat := rfl
@[simp] theorem setCtl_ctlErr : (setCtl s c x).ctlErr = s.ctlErr := rfl
@[simp] theorem setCtl_out : (setCtl s c x).out = s.out := rfl
@[simp] theorem setCtl_freeCtr : (setCtl s c x).freeCtr = s.freeCtr := rfl
@[simp] theorem setCtl_pending : (setCtl s c x).pending = s.pending := rfl

@[simp] theorem hmWord_setCtl (j : Nat) : hmWord (setCtl s c x) j = hmWord s j := rfl
@[simp] theorem pilot_setCtl (j : Nat) : pilot (setCtl s c x) j = pilot s j := rfl
@[simp] theorem ring_setCtl (j : Nat) : ring (setCtl s c x) j = ring s j := rfl
@[simp] theorem own_setCtl (j : Nat) : own (setCtl s c x) j = own s j := rfl
@[simp] theorem mirr_setCtl (j : Nat) : mirr (setCtl s c x) j = mirr s j := rfl
@[simp] theorem aloneMoor_setCtl (j : Nat) : aloneMoor (setCtl s c x) j = aloneMoor s j := rfl
@[simp] theorem xctx_setCtl (j : Nat) : xctx (setCtl s c x) j = xctx s j := rfl
@[simp] theorem chkOf_setCtl (j : Nat) : chkOf (setCtl s c x) j = chkOf s j := rfl
@[simp] theorem csrcOf_setCtl (j : Nat) : csrcOf (setCtl s c x) j = csrcOf s j := rfl
@[simp] theorem fwinOf_setCtl (j : Nat) : fwinOf (setCtl s c x) j = fwinOf s j := rfl
@[simp] theorem berth_setCtl (j : Nat) : berth (setCtl s c x) j = berth s j := rfl
@[simp] theorem dqOf_setCtl (j : Nat) : dqOf (setCtl s c x) j = dqOf s j := rfl
@[simp] theorem dcmdOf_setCtl (j : Nat) : dcmdOf (setCtl s c x) j = dcmdOf s j := rfl
@[simp] theorem pathOf_setCtl (j : Nat) : pathOf (setCtl s c x) j = pathOf s j := rfl
@[simp] theorem shadow_setCtl (j : Nat) : shadow (setCtl s c x) j = shadow s j := rfl

end

section
variable (s : State) (q : Nat) (x : Dq)

@[simp] theorem setDq_blk : (setDq s q x).blk = s.blk := rfl
@[simp] theorem setDq_tide : (setDq s q x).tide = s.tide := rfl
@[simp] theorem setDq_bells : (setDq s q x).bells = s.bells := rfl
@[simp] theorem setDq_ecnt : (setDq s q x).ecnt = s.ecnt := rfl
@[simp] theorem setDq_bwd : (setDq s q x).bwd = s.bwd := rfl
@[simp] theorem setDq_evc : (setDq s q x).evc = s.evc := rfl
@[simp] theorem setDq_rings : (setDq s q x).rings = s.rings := rfl
@[simp] theorem setDq_pick : (setDq s q x).pick = s.pick := rfl
@[simp] theorem setDq_wm : (setDq s q x).wm = s.wm := rfl
@[simp] theorem setDq_sres : (setDq s q x).sres = s.sres := rfl
@[simp] theorem setDq_resvRefused : (setDq s q x).resvRefused = s.resvRefused := rfl
@[simp] theorem setDq_own : (setDq s q x).own = s.own := rfl
@[simp] theorem setDq_mirror : (setDq s q x).mirror = s.mirror := rfl
@[simp] theorem setDq_moor : (setDq s q x).moor = s.moor := rfl
@[simp] theorem setDq_recq : (setDq s q x).recq = s.recq := rfl
@[simp] theorem setDq_hbr : (setDq s q x).hbr = s.hbr := rfl
@[simp] theorem setDq_hm : (setDq s q x).hm = s.hm := rfl
@[simp] theorem setDq_mbrkLease : (setDq s q x).mbrkLease = s.mbrkLease := rfl
@[simp] theorem setDq_mbrkFault : (setDq s q x).mbrkFault = s.mbrkFault := rfl
@[simp] theorem setDq_mlast : (setDq s q x).mlast = s.mlast := rfl
@[simp] theorem setDq_xc : (setDq s q x).xc = s.xc := rfl
@[simp] theorem setDq_admSeq : (setDq s q x).admSeq = s.admSeq := rfl
@[simp] theorem setDq_tw : (setDq s q x).tw = s.tw := rfl
@[simp] theorem setDq_paths : (setDq s q x).paths = s.paths := rfl
@[simp] theorem setDq_plc : (setDq s q x).plc = s.plc := rfl
@[simp] theorem setDq_members : (setDq s q x).members = s.members := rfl
@[simp] theorem setDq_berths : (setDq s q x).berths = s.berths := rfl
@[simp] theorem setDq_ctls : (setDq s q x).ctls = s.ctls := rfl
@[simp] theorem setDq_dcmds : (setDq s q x).dcmds = s.dcmds := rfl
@[simp] theorem setDq_resvs : (setDq s q x).resvs = s.resvs := rfl
@[simp] theorem setDq_dock : (setDq s q x).dock = s.dock := rfl
@[simp] theorem setDq_serves : (setDq s q x).serves = s.serves := rfl
@[simp] theorem setDq_pilots : (setDq s q x).pilots = s.pilots := rfl
@[simp] theorem setDq_cask : (setDq s q x).cask = s.cask := rfl
@[simp] theorem setDq_cellar : (setDq s q x).cellar = s.cellar := rfl
@[simp] theorem setDq_celOwn : (setDq s q x).celOwn = s.celOwn := rfl
@[simp] theorem setDq_bays : (setDq s q x).bays = s.bays := rfl
@[simp] theorem setDq_arbCount : (setDq s q x).arbCount = s.arbCount := rfl
@[simp] theorem setDq_arbs : (setDq s q x).arbs = s.arbs := rfl
@[simp] theorem setDq_ltr : (setDq s q x).ltr = s.ltr := rfl
@[simp] theorem setDq_boot : (setDq s q x).boot = s.boot := rfl
@[simp] theorem setDq_pwr : (setDq s q x).pwr = s.pwr := rfl
@[simp] theorem setDq_code : (setDq s q x).code = s.code := rfl
@[simp] theorem setDq_hmmem : (setDq s q x).hmmem = s.hmmem := rfl
@[simp] theorem setDq_chk : (setDq s q x).chk = s.chk := rfl
@[simp] theorem setDq_csrc : (setDq s q x).csrc = s.csrc := rfl
@[simp] theorem setDq_gm : (setDq s q x).gm = s.gm := rfl
@[simp] theorem setDq_vbank : (setDq s q x).vbank = s.vbank := rfl
@[simp] theorem setDq_graft : (setDq s q x).graft = s.graft := rfl
@[simp] theorem setDq_vin : (setDq s q x).vin = s.vin := rfl
@[simp] theorem setDq_dbg : (setDq s q x).dbg = s.dbg := rfl
@[simp] theorem setDq_fstop : (setDq s q x).fstop = s.fstop := rfl
@[simp] theorem setDq_fwin : (setDq s q x).fwin = s.fwin := rfl
@[simp] theorem setDq_qtx : (setDq s q x).qtx = s.qtx := rfl
@[simp] theorem setDq_ctlRdat : (setDq s q x).ctlRdat = s.ctlRdat := rfl
@[simp] theorem setDq_ctlErr : (setDq s q x).ctlErr = s.ctlErr := rfl
@[simp] theorem setDq_out : (setDq s q x).out = s.out := rfl
@[simp] theorem setDq_freeCtr : (setDq s q x).freeCtr = s.freeCtr := rfl
@[simp] theorem setDq_pending : (setDq s q x).pending = s.pending := rfl

@[simp] theorem hmWord_setDq (j : Nat) : hmWord (setDq s q x) j = hmWord s j := rfl
@[simp] theorem pilot_setDq (j : Nat) : pilot (setDq s q x) j = pilot s j := rfl
@[simp] theorem ring_setDq (j : Nat) : ring (setDq s q x) j = ring s j := rfl
@[simp] theorem own_setDq (j : Nat) : own (setDq s q x) j = own s j := rfl
@[simp] theorem mirr_setDq (j : Nat) : mirr (setDq s q x) j = mirr s j := rfl
@[simp] theorem aloneMoor_setDq (j : Nat) : aloneMoor (setDq s q x) j = aloneMoor s j := rfl
@[simp] theorem xctx_setDq (j : Nat) : xctx (setDq s q x) j = xctx s j := rfl
@[simp] theorem chkOf_setDq (j : Nat) : chkOf (setDq s q x) j = chkOf s j := rfl
@[simp] theorem csrcOf_setDq (j : Nat) : csrcOf (setDq s q x) j = csrcOf s j := rfl
@[simp] theorem fwinOf_setDq (j : Nat) : fwinOf (setDq s q x) j = fwinOf s j := rfl
@[simp] theorem berth_setDq (j : Nat) : berth (setDq s q x) j = berth s j := rfl
@[simp] theorem ctlOf_setDq (j : Nat) : ctlOf (setDq s q x) j = ctlOf s j := rfl
@[simp] theorem dcmdOf_setDq (j : Nat) : dcmdOf (setDq s q x) j = dcmdOf s j := rfl
@[simp] theorem pathOf_setDq (j : Nat) : pathOf (setDq s q x) j = pathOf s j := rfl
@[simp] theorem shadow_setDq (j : Nat) : shadow (setDq s q x) j = shadow s j := rfl

end

section
variable (s : State) (k : Nat) (x : Option DCmd)

@[simp] theorem setDcmd_blk : (setDcmd s k x).blk = s.blk := rfl
@[simp] theorem setDcmd_tide : (setDcmd s k x).tide = s.tide := rfl
@[simp] theorem setDcmd_bells : (setDcmd s k x).bells = s.bells := rfl
@[simp] theorem setDcmd_ecnt : (setDcmd s k x).ecnt = s.ecnt := rfl
@[simp] theorem setDcmd_bwd : (setDcmd s k x).bwd = s.bwd := rfl
@[simp] theorem setDcmd_evc : (setDcmd s k x).evc = s.evc := rfl
@[simp] theorem setDcmd_rings : (setDcmd s k x).rings = s.rings := rfl
@[simp] theorem setDcmd_pick : (setDcmd s k x).pick = s.pick := rfl
@[simp] theorem setDcmd_wm : (setDcmd s k x).wm = s.wm := rfl
@[simp] theorem setDcmd_sres : (setDcmd s k x).sres = s.sres := rfl
@[simp] theorem setDcmd_resvRefused : (setDcmd s k x).resvRefused = s.resvRefused := rfl
@[simp] theorem setDcmd_own : (setDcmd s k x).own = s.own := rfl
@[simp] theorem setDcmd_mirror : (setDcmd s k x).mirror = s.mirror := rfl
@[simp] theorem setDcmd_moor : (setDcmd s k x).moor = s.moor := rfl
@[simp] theorem setDcmd_recq : (setDcmd s k x).recq = s.recq := rfl
@[simp] theorem setDcmd_hbr : (setDcmd s k x).hbr = s.hbr := rfl
@[simp] theorem setDcmd_hm : (setDcmd s k x).hm = s.hm := rfl
@[simp] theorem setDcmd_mbrkLease : (setDcmd s k x).mbrkLease = s.mbrkLease := rfl
@[simp] theorem setDcmd_mbrkFault : (setDcmd s k x).mbrkFault = s.mbrkFault := rfl
@[simp] theorem setDcmd_mlast : (setDcmd s k x).mlast = s.mlast := rfl
@[simp] theorem setDcmd_xc : (setDcmd s k x).xc = s.xc := rfl
@[simp] theorem setDcmd_admSeq : (setDcmd s k x).admSeq = s.admSeq := rfl
@[simp] theorem setDcmd_tw : (setDcmd s k x).tw = s.tw := rfl
@[simp] theorem setDcmd_paths : (setDcmd s k x).paths = s.paths := rfl
@[simp] theorem setDcmd_plc : (setDcmd s k x).plc = s.plc := rfl
@[simp] theorem setDcmd_members : (setDcmd s k x).members = s.members := rfl
@[simp] theorem setDcmd_berths : (setDcmd s k x).berths = s.berths := rfl
@[simp] theorem setDcmd_ctls : (setDcmd s k x).ctls = s.ctls := rfl
@[simp] theorem setDcmd_dqs : (setDcmd s k x).dqs = s.dqs := rfl
@[simp] theorem setDcmd_resvs : (setDcmd s k x).resvs = s.resvs := rfl
@[simp] theorem setDcmd_dock : (setDcmd s k x).dock = s.dock := rfl
@[simp] theorem setDcmd_serves : (setDcmd s k x).serves = s.serves := rfl
@[simp] theorem setDcmd_pilots : (setDcmd s k x).pilots = s.pilots := rfl
@[simp] theorem setDcmd_cask : (setDcmd s k x).cask = s.cask := rfl
@[simp] theorem setDcmd_cellar : (setDcmd s k x).cellar = s.cellar := rfl
@[simp] theorem setDcmd_celOwn : (setDcmd s k x).celOwn = s.celOwn := rfl
@[simp] theorem setDcmd_bays : (setDcmd s k x).bays = s.bays := rfl
@[simp] theorem setDcmd_arbCount : (setDcmd s k x).arbCount = s.arbCount := rfl
@[simp] theorem setDcmd_arbs : (setDcmd s k x).arbs = s.arbs := rfl
@[simp] theorem setDcmd_ltr : (setDcmd s k x).ltr = s.ltr := rfl
@[simp] theorem setDcmd_boot : (setDcmd s k x).boot = s.boot := rfl
@[simp] theorem setDcmd_pwr : (setDcmd s k x).pwr = s.pwr := rfl
@[simp] theorem setDcmd_code : (setDcmd s k x).code = s.code := rfl
@[simp] theorem setDcmd_hmmem : (setDcmd s k x).hmmem = s.hmmem := rfl
@[simp] theorem setDcmd_chk : (setDcmd s k x).chk = s.chk := rfl
@[simp] theorem setDcmd_csrc : (setDcmd s k x).csrc = s.csrc := rfl
@[simp] theorem setDcmd_gm : (setDcmd s k x).gm = s.gm := rfl
@[simp] theorem setDcmd_vbank : (setDcmd s k x).vbank = s.vbank := rfl
@[simp] theorem setDcmd_graft : (setDcmd s k x).graft = s.graft := rfl
@[simp] theorem setDcmd_vin : (setDcmd s k x).vin = s.vin := rfl
@[simp] theorem setDcmd_dbg : (setDcmd s k x).dbg = s.dbg := rfl
@[simp] theorem setDcmd_fstop : (setDcmd s k x).fstop = s.fstop := rfl
@[simp] theorem setDcmd_fwin : (setDcmd s k x).fwin = s.fwin := rfl
@[simp] theorem setDcmd_qtx : (setDcmd s k x).qtx = s.qtx := rfl
@[simp] theorem setDcmd_ctlRdat : (setDcmd s k x).ctlRdat = s.ctlRdat := rfl
@[simp] theorem setDcmd_ctlErr : (setDcmd s k x).ctlErr = s.ctlErr := rfl
@[simp] theorem setDcmd_out : (setDcmd s k x).out = s.out := rfl
@[simp] theorem setDcmd_freeCtr : (setDcmd s k x).freeCtr = s.freeCtr := rfl
@[simp] theorem setDcmd_pending : (setDcmd s k x).pending = s.pending := rfl

@[simp] theorem hmWord_setDcmd (j : Nat) : hmWord (setDcmd s k x) j = hmWord s j := rfl
@[simp] theorem pilot_setDcmd (j : Nat) : pilot (setDcmd s k x) j = pilot s j := rfl
@[simp] theorem ring_setDcmd (j : Nat) : ring (setDcmd s k x) j = ring s j := rfl
@[simp] theorem own_setDcmd (j : Nat) : own (setDcmd s k x) j = own s j := rfl
@[simp] theorem mirr_setDcmd (j : Nat) : mirr (setDcmd s k x) j = mirr s j := rfl
@[simp] theorem aloneMoor_setDcmd (j : Nat) : aloneMoor (setDcmd s k x) j = aloneMoor s j := rfl
@[simp] theorem xctx_setDcmd (j : Nat) : xctx (setDcmd s k x) j = xctx s j := rfl
@[simp] theorem chkOf_setDcmd (j : Nat) : chkOf (setDcmd s k x) j = chkOf s j := rfl
@[simp] theorem csrcOf_setDcmd (j : Nat) : csrcOf (setDcmd s k x) j = csrcOf s j := rfl
@[simp] theorem fwinOf_setDcmd (j : Nat) : fwinOf (setDcmd s k x) j = fwinOf s j := rfl
@[simp] theorem berth_setDcmd (j : Nat) : berth (setDcmd s k x) j = berth s j := rfl
@[simp] theorem ctlOf_setDcmd (j : Nat) : ctlOf (setDcmd s k x) j = ctlOf s j := rfl
@[simp] theorem dqOf_setDcmd (j : Nat) : dqOf (setDcmd s k x) j = dqOf s j := rfl
@[simp] theorem pathOf_setDcmd (j : Nat) : pathOf (setDcmd s k x) j = pathOf s j := rfl
@[simp] theorem shadow_setDcmd (j : Nat) : shadow (setDcmd s k x) j = shadow s j := rfl

end

section
variable (s : State) (p : Nat) (x : Path)

@[simp] theorem setPath_blk : (setPath s p x).blk = s.blk := rfl
@[simp] theorem setPath_tide : (setPath s p x).tide = s.tide := rfl
@[simp] theorem setPath_bells : (setPath s p x).bells = s.bells := rfl
@[simp] theorem setPath_ecnt : (setPath s p x).ecnt = s.ecnt := rfl
@[simp] theorem setPath_bwd : (setPath s p x).bwd = s.bwd := rfl
@[simp] theorem setPath_evc : (setPath s p x).evc = s.evc := rfl
@[simp] theorem setPath_rings : (setPath s p x).rings = s.rings := rfl
@[simp] theorem setPath_pick : (setPath s p x).pick = s.pick := rfl
@[simp] theorem setPath_wm : (setPath s p x).wm = s.wm := rfl
@[simp] theorem setPath_sres : (setPath s p x).sres = s.sres := rfl
@[simp] theorem setPath_resvRefused : (setPath s p x).resvRefused = s.resvRefused := rfl
@[simp] theorem setPath_own : (setPath s p x).own = s.own := rfl
@[simp] theorem setPath_mirror : (setPath s p x).mirror = s.mirror := rfl
@[simp] theorem setPath_moor : (setPath s p x).moor = s.moor := rfl
@[simp] theorem setPath_recq : (setPath s p x).recq = s.recq := rfl
@[simp] theorem setPath_hbr : (setPath s p x).hbr = s.hbr := rfl
@[simp] theorem setPath_hm : (setPath s p x).hm = s.hm := rfl
@[simp] theorem setPath_mbrkLease : (setPath s p x).mbrkLease = s.mbrkLease := rfl
@[simp] theorem setPath_mbrkFault : (setPath s p x).mbrkFault = s.mbrkFault := rfl
@[simp] theorem setPath_mlast : (setPath s p x).mlast = s.mlast := rfl
@[simp] theorem setPath_xc : (setPath s p x).xc = s.xc := rfl
@[simp] theorem setPath_admSeq : (setPath s p x).admSeq = s.admSeq := rfl
@[simp] theorem setPath_tw : (setPath s p x).tw = s.tw := rfl
@[simp] theorem setPath_plc : (setPath s p x).plc = s.plc := rfl
@[simp] theorem setPath_members : (setPath s p x).members = s.members := rfl
@[simp] theorem setPath_berths : (setPath s p x).berths = s.berths := rfl
@[simp] theorem setPath_ctls : (setPath s p x).ctls = s.ctls := rfl
@[simp] theorem setPath_dqs : (setPath s p x).dqs = s.dqs := rfl
@[simp] theorem setPath_dcmds : (setPath s p x).dcmds = s.dcmds := rfl
@[simp] theorem setPath_resvs : (setPath s p x).resvs = s.resvs := rfl
@[simp] theorem setPath_dock : (setPath s p x).dock = s.dock := rfl
@[simp] theorem setPath_serves : (setPath s p x).serves = s.serves := rfl
@[simp] theorem setPath_pilots : (setPath s p x).pilots = s.pilots := rfl
@[simp] theorem setPath_cask : (setPath s p x).cask = s.cask := rfl
@[simp] theorem setPath_cellar : (setPath s p x).cellar = s.cellar := rfl
@[simp] theorem setPath_celOwn : (setPath s p x).celOwn = s.celOwn := rfl
@[simp] theorem setPath_bays : (setPath s p x).bays = s.bays := rfl
@[simp] theorem setPath_arbCount : (setPath s p x).arbCount = s.arbCount := rfl
@[simp] theorem setPath_arbs : (setPath s p x).arbs = s.arbs := rfl
@[simp] theorem setPath_ltr : (setPath s p x).ltr = s.ltr := rfl
@[simp] theorem setPath_boot : (setPath s p x).boot = s.boot := rfl
@[simp] theorem setPath_pwr : (setPath s p x).pwr = s.pwr := rfl
@[simp] theorem setPath_code : (setPath s p x).code = s.code := rfl
@[simp] theorem setPath_hmmem : (setPath s p x).hmmem = s.hmmem := rfl
@[simp] theorem setPath_chk : (setPath s p x).chk = s.chk := rfl
@[simp] theorem setPath_csrc : (setPath s p x).csrc = s.csrc := rfl
@[simp] theorem setPath_gm : (setPath s p x).gm = s.gm := rfl
@[simp] theorem setPath_vbank : (setPath s p x).vbank = s.vbank := rfl
@[simp] theorem setPath_graft : (setPath s p x).graft = s.graft := rfl
@[simp] theorem setPath_vin : (setPath s p x).vin = s.vin := rfl
@[simp] theorem setPath_dbg : (setPath s p x).dbg = s.dbg := rfl
@[simp] theorem setPath_fstop : (setPath s p x).fstop = s.fstop := rfl
@[simp] theorem setPath_fwin : (setPath s p x).fwin = s.fwin := rfl
@[simp] theorem setPath_qtx : (setPath s p x).qtx = s.qtx := rfl
@[simp] theorem setPath_ctlRdat : (setPath s p x).ctlRdat = s.ctlRdat := rfl
@[simp] theorem setPath_ctlErr : (setPath s p x).ctlErr = s.ctlErr := rfl
@[simp] theorem setPath_out : (setPath s p x).out = s.out := rfl
@[simp] theorem setPath_freeCtr : (setPath s p x).freeCtr = s.freeCtr := rfl
@[simp] theorem setPath_pending : (setPath s p x).pending = s.pending := rfl

@[simp] theorem hmWord_setPath (j : Nat) : hmWord (setPath s p x) j = hmWord s j := rfl
@[simp] theorem pilot_setPath (j : Nat) : pilot (setPath s p x) j = pilot s j := rfl
@[simp] theorem ring_setPath (j : Nat) : ring (setPath s p x) j = ring s j := rfl
@[simp] theorem own_setPath (j : Nat) : own (setPath s p x) j = own s j := rfl
@[simp] theorem mirr_setPath (j : Nat) : mirr (setPath s p x) j = mirr s j := rfl
@[simp] theorem aloneMoor_setPath (j : Nat) : aloneMoor (setPath s p x) j = aloneMoor s j := rfl
@[simp] theorem xctx_setPath (j : Nat) : xctx (setPath s p x) j = xctx s j := rfl
@[simp] theorem chkOf_setPath (j : Nat) : chkOf (setPath s p x) j = chkOf s j := rfl
@[simp] theorem csrcOf_setPath (j : Nat) : csrcOf (setPath s p x) j = csrcOf s j := rfl
@[simp] theorem fwinOf_setPath (j : Nat) : fwinOf (setPath s p x) j = fwinOf s j := rfl
@[simp] theorem berth_setPath (j : Nat) : berth (setPath s p x) j = berth s j := rfl
@[simp] theorem ctlOf_setPath (j : Nat) : ctlOf (setPath s p x) j = ctlOf s j := rfl
@[simp] theorem dqOf_setPath (j : Nat) : dqOf (setPath s p x) j = dqOf s j := rfl
@[simp] theorem dcmdOf_setPath (j : Nat) : dcmdOf (setPath s p x) j = dcmdOf s j := rfl
@[simp] theorem shadow_setPath (j : Nat) : shadow (setPath s p x) j = shadow s j := rfl

end

section
variable (s : State) (p : Nat) (f : Path → Path)

@[simp] theorem updPath_blk : (updPath s p f).blk = s.blk := rfl
@[simp] theorem updPath_tide : (updPath s p f).tide = s.tide := rfl
@[simp] theorem updPath_bells : (updPath s p f).bells = s.bells := rfl
@[simp] theorem updPath_ecnt : (updPath s p f).ecnt = s.ecnt := rfl
@[simp] theorem updPath_bwd : (updPath s p f).bwd = s.bwd := rfl
@[simp] theorem updPath_evc : (updPath s p f).evc = s.evc := rfl
@[simp] theorem updPath_rings : (updPath s p f).rings = s.rings := rfl
@[simp] theorem updPath_pick : (updPath s p f).pick = s.pick := rfl
@[simp] theorem updPath_wm : (updPath s p f).wm = s.wm := rfl
@[simp] theorem updPath_sres : (updPath s p f).sres = s.sres := rfl
@[simp] theorem updPath_resvRefused : (updPath s p f).resvRefused = s.resvRefused := rfl
@[simp] theorem updPath_own : (updPath s p f).own = s.own := rfl
@[simp] theorem updPath_mirror : (updPath s p f).mirror = s.mirror := rfl
@[simp] theorem updPath_moor : (updPath s p f).moor = s.moor := rfl
@[simp] theorem updPath_recq : (updPath s p f).recq = s.recq := rfl
@[simp] theorem updPath_hbr : (updPath s p f).hbr = s.hbr := rfl
@[simp] theorem updPath_hm : (updPath s p f).hm = s.hm := rfl
@[simp] theorem updPath_mbrkLease : (updPath s p f).mbrkLease = s.mbrkLease := rfl
@[simp] theorem updPath_mbrkFault : (updPath s p f).mbrkFault = s.mbrkFault := rfl
@[simp] theorem updPath_mlast : (updPath s p f).mlast = s.mlast := rfl
@[simp] theorem updPath_xc : (updPath s p f).xc = s.xc := rfl
@[simp] theorem updPath_admSeq : (updPath s p f).admSeq = s.admSeq := rfl
@[simp] theorem updPath_tw : (updPath s p f).tw = s.tw := rfl
@[simp] theorem updPath_plc : (updPath s p f).plc = s.plc := rfl
@[simp] theorem updPath_members : (updPath s p f).members = s.members := rfl
@[simp] theorem updPath_berths : (updPath s p f).berths = s.berths := rfl
@[simp] theorem updPath_ctls : (updPath s p f).ctls = s.ctls := rfl
@[simp] theorem updPath_dqs : (updPath s p f).dqs = s.dqs := rfl
@[simp] theorem updPath_dcmds : (updPath s p f).dcmds = s.dcmds := rfl
@[simp] theorem updPath_resvs : (updPath s p f).resvs = s.resvs := rfl
@[simp] theorem updPath_dock : (updPath s p f).dock = s.dock := rfl
@[simp] theorem updPath_serves : (updPath s p f).serves = s.serves := rfl
@[simp] theorem updPath_pilots : (updPath s p f).pilots = s.pilots := rfl
@[simp] theorem updPath_cask : (updPath s p f).cask = s.cask := rfl
@[simp] theorem updPath_cellar : (updPath s p f).cellar = s.cellar := rfl
@[simp] theorem updPath_celOwn : (updPath s p f).celOwn = s.celOwn := rfl
@[simp] theorem updPath_bays : (updPath s p f).bays = s.bays := rfl
@[simp] theorem updPath_arbCount : (updPath s p f).arbCount = s.arbCount := rfl
@[simp] theorem updPath_arbs : (updPath s p f).arbs = s.arbs := rfl
@[simp] theorem updPath_ltr : (updPath s p f).ltr = s.ltr := rfl
@[simp] theorem updPath_boot : (updPath s p f).boot = s.boot := rfl
@[simp] theorem updPath_pwr : (updPath s p f).pwr = s.pwr := rfl
@[simp] theorem updPath_code : (updPath s p f).code = s.code := rfl
@[simp] theorem updPath_hmmem : (updPath s p f).hmmem = s.hmmem := rfl
@[simp] theorem updPath_chk : (updPath s p f).chk = s.chk := rfl
@[simp] theorem updPath_csrc : (updPath s p f).csrc = s.csrc := rfl
@[simp] theorem updPath_gm : (updPath s p f).gm = s.gm := rfl
@[simp] theorem updPath_vbank : (updPath s p f).vbank = s.vbank := rfl
@[simp] theorem updPath_graft : (updPath s p f).graft = s.graft := rfl
@[simp] theorem updPath_vin : (updPath s p f).vin = s.vin := rfl
@[simp] theorem updPath_dbg : (updPath s p f).dbg = s.dbg := rfl
@[simp] theorem updPath_fstop : (updPath s p f).fstop = s.fstop := rfl
@[simp] theorem updPath_fwin : (updPath s p f).fwin = s.fwin := rfl
@[simp] theorem updPath_qtx : (updPath s p f).qtx = s.qtx := rfl
@[simp] theorem updPath_ctlRdat : (updPath s p f).ctlRdat = s.ctlRdat := rfl
@[simp] theorem updPath_ctlErr : (updPath s p f).ctlErr = s.ctlErr := rfl
@[simp] theorem updPath_out : (updPath s p f).out = s.out := rfl
@[simp] theorem updPath_freeCtr : (updPath s p f).freeCtr = s.freeCtr := rfl
@[simp] theorem updPath_pending : (updPath s p f).pending = s.pending := rfl

@[simp] theorem hmWord_updPath (j : Nat) : hmWord (updPath s p f) j = hmWord s j := rfl
@[simp] theorem pilot_updPath (j : Nat) : pilot (updPath s p f) j = pilot s j := rfl
@[simp] theorem ring_updPath (j : Nat) : ring (updPath s p f) j = ring s j := rfl
@[simp] theorem own_updPath (j : Nat) : own (updPath s p f) j = own s j := rfl
@[simp] theorem mirr_updPath (j : Nat) : mirr (updPath s p f) j = mirr s j := rfl
@[simp] theorem aloneMoor_updPath (j : Nat) : aloneMoor (updPath s p f) j = aloneMoor s j := rfl
@[simp] theorem xctx_updPath (j : Nat) : xctx (updPath s p f) j = xctx s j := rfl
@[simp] theorem chkOf_updPath (j : Nat) : chkOf (updPath s p f) j = chkOf s j := rfl
@[simp] theorem csrcOf_updPath (j : Nat) : csrcOf (updPath s p f) j = csrcOf s j := rfl
@[simp] theorem fwinOf_updPath (j : Nat) : fwinOf (updPath s p f) j = fwinOf s j := rfl
@[simp] theorem berth_updPath (j : Nat) : berth (updPath s p f) j = berth s j := rfl
@[simp] theorem ctlOf_updPath (j : Nat) : ctlOf (updPath s p f) j = ctlOf s j := rfl
@[simp] theorem dqOf_updPath (j : Nat) : dqOf (updPath s p f) j = dqOf s j := rfl
@[simp] theorem dcmdOf_updPath (j : Nat) : dcmdOf (updPath s p f) j = dcmdOf s j := rfl
@[simp] theorem shadow_updPath (j : Nat) : shadow (updPath s p f) j = shadow s j := rfl

end

section
variable (s : State) (f : Twin → Twin)

@[simp] theorem updTw_blk : (updTw s f).blk = s.blk := rfl
@[simp] theorem updTw_tide : (updTw s f).tide = s.tide := rfl
@[simp] theorem updTw_bells : (updTw s f).bells = s.bells := rfl
@[simp] theorem updTw_ecnt : (updTw s f).ecnt = s.ecnt := rfl
@[simp] theorem updTw_bwd : (updTw s f).bwd = s.bwd := rfl
@[simp] theorem updTw_evc : (updTw s f).evc = s.evc := rfl
@[simp] theorem updTw_rings : (updTw s f).rings = s.rings := rfl
@[simp] theorem updTw_pick : (updTw s f).pick = s.pick := rfl
@[simp] theorem updTw_wm : (updTw s f).wm = s.wm := rfl
@[simp] theorem updTw_sres : (updTw s f).sres = s.sres := rfl
@[simp] theorem updTw_resvRefused : (updTw s f).resvRefused = s.resvRefused := rfl
@[simp] theorem updTw_own : (updTw s f).own = s.own := rfl
@[simp] theorem updTw_mirror : (updTw s f).mirror = s.mirror := rfl
@[simp] theorem updTw_moor : (updTw s f).moor = s.moor := rfl
@[simp] theorem updTw_recq : (updTw s f).recq = s.recq := rfl
@[simp] theorem updTw_hbr : (updTw s f).hbr = s.hbr := rfl
@[simp] theorem updTw_hm : (updTw s f).hm = s.hm := rfl
@[simp] theorem updTw_mbrkLease : (updTw s f).mbrkLease = s.mbrkLease := rfl
@[simp] theorem updTw_mbrkFault : (updTw s f).mbrkFault = s.mbrkFault := rfl
@[simp] theorem updTw_mlast : (updTw s f).mlast = s.mlast := rfl
@[simp] theorem updTw_xc : (updTw s f).xc = s.xc := rfl
@[simp] theorem updTw_admSeq : (updTw s f).admSeq = s.admSeq := rfl
@[simp] theorem updTw_paths : (updTw s f).paths = s.paths := rfl
@[simp] theorem updTw_plc : (updTw s f).plc = s.plc := rfl
@[simp] theorem updTw_members : (updTw s f).members = s.members := rfl
@[simp] theorem updTw_berths : (updTw s f).berths = s.berths := rfl
@[simp] theorem updTw_ctls : (updTw s f).ctls = s.ctls := rfl
@[simp] theorem updTw_dqs : (updTw s f).dqs = s.dqs := rfl
@[simp] theorem updTw_dcmds : (updTw s f).dcmds = s.dcmds := rfl
@[simp] theorem updTw_resvs : (updTw s f).resvs = s.resvs := rfl
@[simp] theorem updTw_dock : (updTw s f).dock = s.dock := rfl
@[simp] theorem updTw_serves : (updTw s f).serves = s.serves := rfl
@[simp] theorem updTw_pilots : (updTw s f).pilots = s.pilots := rfl
@[simp] theorem updTw_cask : (updTw s f).cask = s.cask := rfl
@[simp] theorem updTw_cellar : (updTw s f).cellar = s.cellar := rfl
@[simp] theorem updTw_celOwn : (updTw s f).celOwn = s.celOwn := rfl
@[simp] theorem updTw_bays : (updTw s f).bays = s.bays := rfl
@[simp] theorem updTw_arbCount : (updTw s f).arbCount = s.arbCount := rfl
@[simp] theorem updTw_arbs : (updTw s f).arbs = s.arbs := rfl
@[simp] theorem updTw_ltr : (updTw s f).ltr = s.ltr := rfl
@[simp] theorem updTw_boot : (updTw s f).boot = s.boot := rfl
@[simp] theorem updTw_pwr : (updTw s f).pwr = s.pwr := rfl
@[simp] theorem updTw_code : (updTw s f).code = s.code := rfl
@[simp] theorem updTw_hmmem : (updTw s f).hmmem = s.hmmem := rfl
@[simp] theorem updTw_chk : (updTw s f).chk = s.chk := rfl
@[simp] theorem updTw_csrc : (updTw s f).csrc = s.csrc := rfl
@[simp] theorem updTw_gm : (updTw s f).gm = s.gm := rfl
@[simp] theorem updTw_vbank : (updTw s f).vbank = s.vbank := rfl
@[simp] theorem updTw_graft : (updTw s f).graft = s.graft := rfl
@[simp] theorem updTw_vin : (updTw s f).vin = s.vin := rfl
@[simp] theorem updTw_dbg : (updTw s f).dbg = s.dbg := rfl
@[simp] theorem updTw_fstop : (updTw s f).fstop = s.fstop := rfl
@[simp] theorem updTw_fwin : (updTw s f).fwin = s.fwin := rfl
@[simp] theorem updTw_qtx : (updTw s f).qtx = s.qtx := rfl
@[simp] theorem updTw_ctlRdat : (updTw s f).ctlRdat = s.ctlRdat := rfl
@[simp] theorem updTw_ctlErr : (updTw s f).ctlErr = s.ctlErr := rfl
@[simp] theorem updTw_out : (updTw s f).out = s.out := rfl
@[simp] theorem updTw_freeCtr : (updTw s f).freeCtr = s.freeCtr := rfl
@[simp] theorem updTw_pending : (updTw s f).pending = s.pending := rfl

@[simp] theorem hmWord_updTw (j : Nat) : hmWord (updTw s f) j = hmWord s j := rfl
@[simp] theorem pilot_updTw (j : Nat) : pilot (updTw s f) j = pilot s j := rfl
@[simp] theorem ring_updTw (j : Nat) : ring (updTw s f) j = ring s j := rfl
@[simp] theorem own_updTw (j : Nat) : own (updTw s f) j = own s j := rfl
@[simp] theorem mirr_updTw (j : Nat) : mirr (updTw s f) j = mirr s j := rfl
@[simp] theorem aloneMoor_updTw (j : Nat) : aloneMoor (updTw s f) j = aloneMoor s j := rfl
@[simp] theorem xctx_updTw (j : Nat) : xctx (updTw s f) j = xctx s j := rfl
@[simp] theorem chkOf_updTw (j : Nat) : chkOf (updTw s f) j = chkOf s j := rfl
@[simp] theorem csrcOf_updTw (j : Nat) : csrcOf (updTw s f) j = csrcOf s j := rfl
@[simp] theorem fwinOf_updTw (j : Nat) : fwinOf (updTw s f) j = fwinOf s j := rfl
@[simp] theorem berth_updTw (j : Nat) : berth (updTw s f) j = berth s j := rfl
@[simp] theorem ctlOf_updTw (j : Nat) : ctlOf (updTw s f) j = ctlOf s j := rfl
@[simp] theorem dqOf_updTw (j : Nat) : dqOf (updTw s f) j = dqOf s j := rfl
@[simp] theorem dcmdOf_updTw (j : Nat) : dcmdOf (updTw s f) j = dcmdOf s j := rfl
@[simp] theorem pathOf_updTw (j : Nat) : pathOf (updTw s f) j = pathOf s j := rfl

end

section
variable (s : State) (n : Nat) (x : Shadow)

@[simp] theorem setShadow_blk : (setShadow s n x).blk = s.blk := rfl
@[simp] theorem setShadow_tide : (setShadow s n x).tide = s.tide := rfl
@[simp] theorem setShadow_bells : (setShadow s n x).bells = s.bells := rfl
@[simp] theorem setShadow_ecnt : (setShadow s n x).ecnt = s.ecnt := rfl
@[simp] theorem setShadow_bwd : (setShadow s n x).bwd = s.bwd := rfl
@[simp] theorem setShadow_evc : (setShadow s n x).evc = s.evc := rfl
@[simp] theorem setShadow_rings : (setShadow s n x).rings = s.rings := rfl
@[simp] theorem setShadow_pick : (setShadow s n x).pick = s.pick := rfl
@[simp] theorem setShadow_wm : (setShadow s n x).wm = s.wm := rfl
@[simp] theorem setShadow_sres : (setShadow s n x).sres = s.sres := rfl
@[simp] theorem setShadow_resvRefused : (setShadow s n x).resvRefused = s.resvRefused := rfl
@[simp] theorem setShadow_own : (setShadow s n x).own = s.own := rfl
@[simp] theorem setShadow_mirror : (setShadow s n x).mirror = s.mirror := rfl
@[simp] theorem setShadow_moor : (setShadow s n x).moor = s.moor := rfl
@[simp] theorem setShadow_recq : (setShadow s n x).recq = s.recq := rfl
@[simp] theorem setShadow_hbr : (setShadow s n x).hbr = s.hbr := rfl
@[simp] theorem setShadow_hm : (setShadow s n x).hm = s.hm := rfl
@[simp] theorem setShadow_mbrkLease : (setShadow s n x).mbrkLease = s.mbrkLease := rfl
@[simp] theorem setShadow_mbrkFault : (setShadow s n x).mbrkFault = s.mbrkFault := rfl
@[simp] theorem setShadow_mlast : (setShadow s n x).mlast = s.mlast := rfl
@[simp] theorem setShadow_xc : (setShadow s n x).xc = s.xc := rfl
@[simp] theorem setShadow_admSeq : (setShadow s n x).admSeq = s.admSeq := rfl
@[simp] theorem setShadow_paths : (setShadow s n x).paths = s.paths := rfl
@[simp] theorem setShadow_plc : (setShadow s n x).plc = s.plc := rfl
@[simp] theorem setShadow_members : (setShadow s n x).members = s.members := rfl
@[simp] theorem setShadow_berths : (setShadow s n x).berths = s.berths := rfl
@[simp] theorem setShadow_ctls : (setShadow s n x).ctls = s.ctls := rfl
@[simp] theorem setShadow_dqs : (setShadow s n x).dqs = s.dqs := rfl
@[simp] theorem setShadow_dcmds : (setShadow s n x).dcmds = s.dcmds := rfl
@[simp] theorem setShadow_resvs : (setShadow s n x).resvs = s.resvs := rfl
@[simp] theorem setShadow_dock : (setShadow s n x).dock = s.dock := rfl
@[simp] theorem setShadow_serves : (setShadow s n x).serves = s.serves := rfl
@[simp] theorem setShadow_pilots : (setShadow s n x).pilots = s.pilots := rfl
@[simp] theorem setShadow_cask : (setShadow s n x).cask = s.cask := rfl
@[simp] theorem setShadow_cellar : (setShadow s n x).cellar = s.cellar := rfl
@[simp] theorem setShadow_celOwn : (setShadow s n x).celOwn = s.celOwn := rfl
@[simp] theorem setShadow_bays : (setShadow s n x).bays = s.bays := rfl
@[simp] theorem setShadow_arbCount : (setShadow s n x).arbCount = s.arbCount := rfl
@[simp] theorem setShadow_arbs : (setShadow s n x).arbs = s.arbs := rfl
@[simp] theorem setShadow_ltr : (setShadow s n x).ltr = s.ltr := rfl
@[simp] theorem setShadow_boot : (setShadow s n x).boot = s.boot := rfl
@[simp] theorem setShadow_pwr : (setShadow s n x).pwr = s.pwr := rfl
@[simp] theorem setShadow_code : (setShadow s n x).code = s.code := rfl
@[simp] theorem setShadow_hmmem : (setShadow s n x).hmmem = s.hmmem := rfl
@[simp] theorem setShadow_chk : (setShadow s n x).chk = s.chk := rfl
@[simp] theorem setShadow_csrc : (setShadow s n x).csrc = s.csrc := rfl
@[simp] theorem setShadow_gm : (setShadow s n x).gm = s.gm := rfl
@[simp] theorem setShadow_vbank : (setShadow s n x).vbank = s.vbank := rfl
@[simp] theorem setShadow_graft : (setShadow s n x).graft = s.graft := rfl
@[simp] theorem setShadow_vin : (setShadow s n x).vin = s.vin := rfl
@[simp] theorem setShadow_dbg : (setShadow s n x).dbg = s.dbg := rfl
@[simp] theorem setShadow_fstop : (setShadow s n x).fstop = s.fstop := rfl
@[simp] theorem setShadow_fwin : (setShadow s n x).fwin = s.fwin := rfl
@[simp] theorem setShadow_qtx : (setShadow s n x).qtx = s.qtx := rfl
@[simp] theorem setShadow_ctlRdat : (setShadow s n x).ctlRdat = s.ctlRdat := rfl
@[simp] theorem setShadow_ctlErr : (setShadow s n x).ctlErr = s.ctlErr := rfl
@[simp] theorem setShadow_out : (setShadow s n x).out = s.out := rfl
@[simp] theorem setShadow_freeCtr : (setShadow s n x).freeCtr = s.freeCtr := rfl
@[simp] theorem setShadow_pending : (setShadow s n x).pending = s.pending := rfl

@[simp] theorem hmWord_setShadow (j : Nat) : hmWord (setShadow s n x) j = hmWord s j := rfl
@[simp] theorem pilot_setShadow (j : Nat) : pilot (setShadow s n x) j = pilot s j := rfl
@[simp] theorem ring_setShadow (j : Nat) : ring (setShadow s n x) j = ring s j := rfl
@[simp] theorem own_setShadow (j : Nat) : own (setShadow s n x) j = own s j := rfl
@[simp] theorem mirr_setShadow (j : Nat) : mirr (setShadow s n x) j = mirr s j := rfl
@[simp] theorem aloneMoor_setShadow (j : Nat) : aloneMoor (setShadow s n x) j = aloneMoor s j := rfl
@[simp] theorem xctx_setShadow (j : Nat) : xctx (setShadow s n x) j = xctx s j := rfl
@[simp] theorem chkOf_setShadow (j : Nat) : chkOf (setShadow s n x) j = chkOf s j := rfl
@[simp] theorem csrcOf_setShadow (j : Nat) : csrcOf (setShadow s n x) j = csrcOf s j := rfl
@[simp] theorem fwinOf_setShadow (j : Nat) : fwinOf (setShadow s n x) j = fwinOf s j := rfl
@[simp] theorem berth_setShadow (j : Nat) : berth (setShadow s n x) j = berth s j := rfl
@[simp] theorem ctlOf_setShadow (j : Nat) : ctlOf (setShadow s n x) j = ctlOf s j := rfl
@[simp] theorem dqOf_setShadow (j : Nat) : dqOf (setShadow s n x) j = dqOf s j := rfl
@[simp] theorem dcmdOf_setShadow (j : Nat) : dcmdOf (setShadow s n x) j = dcmdOf s j := rfl
@[simp] theorem pathOf_setShadow (j : Nat) : pathOf (setShadow s n x) j = pathOf s j := rfl

end

/-! A reader at the index written, and at any other. -/

@[simp] theorem pilot_setPilot_self (s : State) (k : Nat) (x : Pilot) : pilot (setPilot s k x) k = x := Table.get_put_self _ _ _ _
theorem pilot_setPilot_other (s : State) (k j : Nat) (x : Pilot) (h : j ≠ k) : pilot (setPilot s k x) j = pilot s j :=
  Table.get_put_other _ _ _ _ _ h
@[simp] theorem ring_setRing_self (s : State) (k : Nat) (x : Ring) : ring (setRing s k x) k = x := Table.get_put_self _ _ _ _
theorem ring_setRing_other (s : State) (k j : Nat) (x : Ring) (h : j ≠ k) : ring (setRing s k x) j = ring s j :=
  Table.get_put_other _ _ _ _ _ h
@[simp] theorem own_setOwn_self (s : State) (k : Nat) (x : Own) : own (setOwn s k x) k = x := Table.get_put_self _ _ _ _
theorem own_setOwn_other (s : State) (k j : Nat) (x : Own) (h : j ≠ k) : own (setOwn s k x) j = own s j :=
  Table.get_put_other _ _ _ _ _ h
@[simp] theorem mirr_setMirr_self (s : State) (k : Nat) (x : Mir) : mirr (setMirr s k x) k = x := Table.get_put_self _ _ _ _
theorem mirr_setMirr_other (s : State) (k j : Nat) (x : Mir) (h : j ≠ k) : mirr (setMirr s k x) j = mirr s j :=
  Table.get_put_other _ _ _ _ _ h
@[simp] theorem aloneMoor_setAloneMoor_self (s : State) (k : Nat) (x : Moor) : aloneMoor (setAloneMoor s k x) k = x := Table.get_put_self _ _ _ _
theorem aloneMoor_setAloneMoor_other (s : State) (k j : Nat) (x : Moor) (h : j ≠ k) : aloneMoor (setAloneMoor s k x) j = aloneMoor s j :=
  Table.get_put_other _ _ _ _ _ h
@[simp] theorem xctx_setXctx_self (s : State) (k : Nat) (x : Xc) : xctx (setXctx s k x) k = x := Table.get_put_self _ _ _ _
theorem xctx_setXctx_other (s : State) (k j : Nat) (x : Xc) (h : j ≠ k) : xctx (setXctx s k x) j = xctx s j :=
  Table.get_put_other _ _ _ _ _ h
@[simp] theorem chkOf_setChk_self (s : State) (k : Nat) (x : Chk) : chkOf (setChk s k x) k = x := Table.get_put_self _ _ _ _
theorem chkOf_setChk_other (s : State) (k j : Nat) (x : Chk) (h : j ≠ k) : chkOf (setChk s k x) j = chkOf s j :=
  Table.get_put_other _ _ _ _ _ h
@[simp] theorem csrcOf_setCsrc_self (s : State) (k : Nat) (x : Csrc) : csrcOf (setCsrc s k x) k = x := Table.get_put_self _ _ _ _
theorem csrcOf_setCsrc_other (s : State) (k j : Nat) (x : Csrc) (h : j ≠ k) : csrcOf (setCsrc s k x) j = csrcOf s j :=
  Table.get_put_other _ _ _ _ _ h
@[simp] theorem fwinOf_setFwin_self (s : State) (k : Nat) (x : FWin) : fwinOf (setFwin s k x) k = x := Table.get_put_self _ _ _ _
theorem fwinOf_setFwin_other (s : State) (k j : Nat) (x : FWin) (h : j ≠ k) : fwinOf (setFwin s k x) j = fwinOf s j :=
  Table.get_put_other _ _ _ _ _ h
@[simp] theorem berth_setBerth_self (s : State) (k : Nat) (x : Berth) : berth (setBerth s k x) k = x := Table.get_put_self _ _ _ _
theorem berth_setBerth_other (s : State) (k j : Nat) (x : Berth) (h : j ≠ k) : berth (setBerth s k x) j = berth s j :=
  Table.get_put_other _ _ _ _ _ h
@[simp] theorem ctlOf_setCtl_self (s : State) (k : Nat) (x : Ctl) : ctlOf (setCtl s k x) k = x := Table.get_put_self _ _ _ _
theorem ctlOf_setCtl_other (s : State) (k j : Nat) (x : Ctl) (h : j ≠ k) : ctlOf (setCtl s k x) j = ctlOf s j :=
  Table.get_put_other _ _ _ _ _ h
@[simp] theorem dqOf_setDq_self (s : State) (k : Nat) (x : Dq) : dqOf (setDq s k x) k = x := Table.get_put_self _ _ _ _
theorem dqOf_setDq_other (s : State) (k j : Nat) (x : Dq) (h : j ≠ k) : dqOf (setDq s k x) j = dqOf s j :=
  Table.get_put_other _ _ _ _ _ h
@[simp] theorem dcmdOf_setDcmd_self (s : State) (k : Nat) (x : Option DCmd) : dcmdOf (setDcmd s k x) k = x := Table.get_put_self _ _ _ _
theorem dcmdOf_setDcmd_other (s : State) (k j : Nat) (x : Option DCmd) (h : j ≠ k) : dcmdOf (setDcmd s k x) j = dcmdOf s j :=
  Table.get_put_other _ _ _ _ _ h
@[simp] theorem pathOf_setPath_self (s : State) (k : Nat) (x : Path) : pathOf (setPath s k x) k = x := Table.get_put_self _ _ _ _
theorem pathOf_setPath_other (s : State) (k j : Nat) (x : Path) (h : j ≠ k) : pathOf (setPath s k x) j = pathOf s j :=
  Table.get_put_other _ _ _ _ _ h
@[simp] theorem shadow_setShadow_self (s : State) (k : Nat) (x : Shadow) : shadow (setShadow s k x) k = x := Table.get_put_self _ _ _ _
theorem shadow_setShadow_other (s : State) (k j : Nat) (x : Shadow) (h : j ≠ k) : shadow (setShadow s k x) j = shadow s j :=
  Table.get_put_other _ _ _ _ _ h
@[simp] theorem hmWord_setHmWord_self (s : State) (k : Nat) (x : TWord) : hmWord (setHmWord s k x) k = x := Table.get_put_self _ _ _ _
theorem hmWord_setHmWord_other (s : State) (k j : Nat) (x : TWord) (h : j ≠ k) : hmWord (setHmWord s k x) j = hmWord s j :=
  Table.get_put_other _ _ _ _ _ h

/-! Updates through a function. -/

@[simp] theorem pilot_updPilot_self (s : State) (k : Nat) (f : Pilot → Pilot) : pilot (updPilot s k f) k = f (pilot s k) := Table.get_put_self _ _ _ _
theorem pilot_updPilot_other (s : State) (k j : Nat) (f : Pilot → Pilot) (h : j ≠ k) : pilot (updPilot s k f) j = pilot s j :=
  Table.get_put_other _ _ _ _ _ h
@[simp] theorem ring_updRing_self (s : State) (k : Nat) (f : Ring → Ring) : ring (updRing s k f) k = f (ring s k) := Table.get_put_self _ _ _ _
theorem ring_updRing_other (s : State) (k j : Nat) (f : Ring → Ring) (h : j ≠ k) : ring (updRing s k f) j = ring s j :=
  Table.get_put_other _ _ _ _ _ h
@[simp] theorem own_updOwn_self (s : State) (k : Nat) (f : Own → Own) : own (updOwn s k f) k = f (own s k) := Table.get_put_self _ _ _ _
theorem own_updOwn_other (s : State) (k j : Nat) (f : Own → Own) (h : j ≠ k) : own (updOwn s k f) j = own s j :=
  Table.get_put_other _ _ _ _ _ h
@[simp] theorem xctx_updXctx_self (s : State) (k : Nat) (f : Xc → Xc) : xctx (updXctx s k f) k = f (xctx s k) := Table.get_put_self _ _ _ _
theorem xctx_updXctx_other (s : State) (k j : Nat) (f : Xc → Xc) (h : j ≠ k) : xctx (updXctx s k f) j = xctx s j :=
  Table.get_put_other _ _ _ _ _ h
@[simp] theorem pathOf_updPath_self (s : State) (k : Nat) (f : Path → Path) : pathOf (updPath s k f) k = f (pathOf s k) := Table.get_put_self _ _ _ _
theorem pathOf_updPath_other (s : State) (k j : Nat) (f : Path → Path) (h : j ≠ k) : pathOf (updPath s k f) j = pathOf s j :=
  Table.get_put_other _ _ _ _ _ h

end Sys2Proof.Machine
end

