-- ==== Sys2Proof/Laws/Issue.lean ====
section
/-! SUPPORT. Laws/Issue.lean: what the issue and the completion of a pilot instruction do where nothing of debug,
watchdogs, loops or multiplies in flight meets it. -/

namespace Sys2Proof.Machine

/-- A pilot out of reset is no unlisted pilot. -/
theorem pilot_ne {x : Pilot} (h : x.inReset = false) : x ≠ {} := by rintro rfl; simp at h

theorem setPilot_setPilot {s : State} {p : Nat} {x y : Pilot} (h : x.inReset = false) :
    setPilot (setPilot s p x) p y = setPilot s p y := by
  unfold setPilot
  rw [Table.put_put_ne _ _ _ (pilot_ne h)]

theorem updPilot_setPilot {s : State} {p : Nat} {x : Pilot} {f : Pilot → Pilot} (h : x.inReset = false) :
    updPilot (setPilot s p x) p f = setPilot s p (f x) := by
  unfold updPilot
  rw [pilot_setPilot_self, setPilot_setPilot h]

/-- With nothing waiting at the boundary, the boundary does nothing. -/
theorem boundary_calm {s : State} {p : Nat} (h : calm s p = true) : watchdogBoundary s p = s := by
  simp only [calm, Bool.and_eq_true, Option.isNone_iff_eq_none, Bool.not_eq_true'] at h
  obtain ⟨⟨⟨⟨h1, h2⟩, h3⟩, h4⟩, h5⟩ := h
  simp [watchdogBoundary, boundary, h1, h2, h3, h4]

/-- The registers of a pilot that completes an instruction at `pc` with no step armed, no active loop ending there and
nothing waiting. -/
def restPilot (x : Pilot) (pc : BitVec 18) : Bool :=
  !x.inReset && !x.sw.t && !atLoopEnd x pc && x.dbg.deferred.isNone &&
    x.dbg.again.isNone && x.wdgDue.isNone && !x.dbg.exempt

/-- The same, and no multiply is in flight. -/
def quietPilot (x : Pilot) (pc : BitVec 18) : Bool := restPilot x pc && x.mulq.isEmpty

theorem restPilot_parts {x : Pilot} {pc : BitVec 18} (h : restPilot x pc = true) :
    x.inReset = false ∧ x.sw.t = false ∧ atLoopEnd x pc = false ∧ x.dbg.deferred = none ∧ x.dbg.again = none ∧
      x.wdgDue = none ∧ x.dbg.exempt = false := by
  simp only [restPilot, Bool.and_eq_true, Option.isNone_iff_eq_none, Bool.not_eq_true'] at h
  obtain ⟨⟨⟨⟨⟨⟨h1, h2⟩, h4⟩, h5⟩, h6⟩, h7⟩, h8⟩ := h
  exact ⟨h1, h2, h4, h5, h6, h7, h8⟩

theorem quiet_rest {x : Pilot} {pc : BitVec 18} (h : quietPilot x pc = true) : restPilot x pc = true := by
  simp only [quietPilot, Bool.and_eq_true] at h; exact h.1

theorem quiet_mulq {x : Pilot} {pc : BitVec 18} (h : quietPilot x pc = true) : x.mulq = [] := by
  simp only [quietPilot, Bool.and_eq_true, List.isEmpty_iff] at h; exact h.2

/-- With no multiply in flight, none counts down. -/
theorem tickMul_nil {x : Pilot} (h : x.mulq = []) : x.tickMul = x := by
  have e : x = { x with mulq := [] } := by cases x; simp_all
  rw [e]; rfl

/-- Completion with nothing to do but count multiplies down and move to the next boundary. -/
theorem complete_rest {s : State} {p : Nat} {pc : BitVec 18} {t0 : Bool} {x : Pilot} (hi : x.inReset = false)
    (hx : restPilot x.tickMul pc = true) (he : extReq s p = false) :
    complete (setPilot s p x) p pc t0 false =
      setPilot s p { x.tickMul with
        src := if p = hmNo then x.tickMul.src else (csrcOf s (clusterOf p)).sel.toNat } := by
  obtain ⟨h1, h2, h4, h5, h6, h7, h8⟩ := restPilot_parts hx
  unfold complete
  rw [pilot_setPilot_self]
  simp only [h4, h2, Bool.and_false, Bool.or_false, Bool.false_eq_true, if_false]
  rw [setPilot_setPilot hi]
  unfold srcSwitch
  split
  · exact boundary_calm (by
      unfold calm
      rw [pilot_setPilot_self]
      simp [h5, h6, h7, h8]; exact he)
  · rw [updPilot_setPilot (by exact h1)]
    exact boundary_calm (by
      unfold calm
      rw [pilot_setPilot_self]
      simp [h5, h6, h7, h8]; exact he)

/-- Completion with nothing to do but move to the next boundary. -/
theorem complete_calm {s : State} {p : Nat} {pc : BitVec 18} {t0 : Bool} {x : Pilot} (hx : quietPilot x pc = true)
    (he : extReq s p = false) :
    complete (setPilot s p x) p pc t0 false =
      setPilot s p { x with src := if p = hmNo then x.src else (csrcOf s (clusterOf p)).sel.toNat } := by
  have ht := tickMul_nil (quiet_mulq hx)
  rw [complete_rest (restPilot_parts (quiet_rest hx)).1 (by rw [ht]; exact quiet_rest hx) he, ht]

/-- What `issues` says, part by part. -/
theorem issues_parts {s : State} {p len : Nat} (h : issues s p len = true) :
    canIssue s p = true ∧ fetchBad s p len = (false, false) ∧ breakpointAt (pilot s p) = none ∧
      extReq s p = false ∧ restPilot (pilot s p) (pilot s p).pc = true := by
  simp only [issues, calm, restPilot, Bool.and_eq_true, Option.isNone_iff_eq_none, Bool.not_eq_true',
    decide_eq_true_eq] at h ⊢
  obtain ⟨⟨⟨⟨⟨⟨h1, h2⟩, h3⟩, h4⟩, ⟨⟨⟨⟨h5, h6⟩, h7⟩, h8⟩, h9⟩⟩, h12⟩, -⟩ := h
  have hc : (pilot s p).inReset = false := by
    have := h1
    simp only [canIssue, Bool.and_eq_true, Bool.not_eq_true'] at this
    exact this.1.1.2
  exact ⟨h1, h2, h3, h8, ⟨⟨⟨⟨⟨⟨hc, h4⟩, h12⟩, h5⟩, h6⟩, h7⟩, h9⟩⟩

/-- What `ready` says, part by part. -/
theorem ready_parts {s : State} {p len : Nat} {g : BitVec 4} (h : ready s p len g = true) :
    canIssue s p = true ∧ fetchBad s p len = (false, false) ∧ breakpointAt (pilot s p) = none ∧
      (pilot s p).sw.guardMet g = true ∧ extReq s p = false ∧ quietPilot (pilot s p) (pilot s p).pc = true := by
  simp only [ready, Bool.and_eq_true] at h
  obtain ⟨⟨h1, h2⟩, h3⟩ := h
  obtain ⟨k1, k2, k3, k4, k5⟩ := issues_parts h1
  exact ⟨k1, k2, k3, h2, k4, by simp [quietPilot, k5, h3]⟩

theorem ready_issues {s : State} {p len : Nat} {g : BitVec 4} (h : ready s p len g = true) : issues s p len = true := by
  simp only [ready, Bool.and_eq_true] at h; exact h.1.1

/-- No window of a pilot that issues is being retried. -/
theorem issues_thawed {s : State} {p len : Nat} (h : issues s p len = true) : (pilot s p).frozen = false := by
  simp only [issues, Bool.and_eq_true, Bool.not_eq_true'] at h
  exact h.2

/-- An instruction that issues runs in its pilot's check window. -/
theorem issue_ran {i : Issue} {s : State} {body : BitVec 18 → State → PRes} (hr : issues s i.p i.len = true) :
    issue i s body = ran i.word i.ext s i.p (issueRaw i s body) := by
  have hf : heldByRetry i s = false := by unfold heldByRetry; rw [issues_thawed hr]; rfl
  unfold issue
  simp only [(issues_parts hr).1, hf, Bool.not_true, Bool.or_false, Bool.false_eq_true, if_false]

/-- An instruction that issues goes through its fetch and its breakpoints. -/
theorem issue_run {i : Issue} {s : State} {body : BitVec 18 → State → PRes} (hr : issues s i.p i.len = true) :
    issueRaw i s body = runInstr i s body := by
  obtain ⟨h1, h2, h3, h5, h6⟩ := issues_parts hr
  unfold issueRaw
  simp only [h2, (restPilot_parts h6).2.2.2.2.2.2, h3, Bool.false_eq_true, if_false, Bool.or_false]

/-- An instruction that issues with its guard not met completes without effect (R313). -/
theorem issue_unmet {i : Issue} {s : State} {body : BitVec 18 → State → PRes} (hr : issues s i.p i.len = true)
    (hrsv : i.rsv = false) (hg : (pilot s i.p).sw.guardMet i.g = false) :
    issue i s body = ran i.word i.ext s i.p
      (complete (setPilot s i.p (stepped (pilot s i.p) i.len)) i.p (pilot s i.p).pc false false) := by
  obtain ⟨h1, h2, h3, h5, h6⟩ := issues_parts hr
  obtain ⟨k1, k2, k4, k5, k6, k7, k8⟩ := restPilot_parts h6
  rw [issue_ran hr, issue_run hr]
  unfold runInstr
  simp only [hrsv, hg, k4, k8, k2, Bool.and_false, Bool.false_and, Bool.not_false, Bool.false_eq_true, if_false, if_true]
  rfl

/-- An instruction that issues with its guard met and whose body is done completes. -/
theorem issue_done {i : Issue} {s s2 : State} {body : BitVec 18 → State → PRes}
    (hr : issues s i.p i.len = true) (hrsv : i.rsv = false) (h4 : (pilot s i.p).sw.guardMet i.g = true)
    (hpriv : i.priv = true → (pilot s i.p).sw.priv = true)
    (hb : body (pilot s i.p).pc (setPilot s i.p (stepped (pilot s i.p) i.len)) = .done s2) :
    issue i s body = ran i.word i.ext s i.p (complete s2 i.p (pilot s i.p).pc false false) := by
  obtain ⟨h1, h2, h3, h5, h6⟩ := issues_parts hr
  obtain ⟨k1, k2, k4, k5, k6, k7, k8⟩ := restPilot_parts h6
  have hp : (i.priv && true && !(pilot s i.p).sw.priv) = false := by
    cases hq : i.priv <;> simp_all
  rw [issue_ran hr, issue_run hr]
  unfold runInstr
  simp only [hrsv, hp, k4, k8, k2, h4, Bool.and_false, Bool.not_true, Bool.false_eq_true, if_false]
  have : ({ pilot s i.p with
      pc := (pilot s i.p).pc + BitVec.ofNat 18 (4 * i.len), waiting := false, slotMark := false } : Pilot) =
      stepped (pilot s i.p) i.len := rfl
  rw [this, hb]

/-- A ready instruction whose body is done completes. -/
theorem issue_complete {i : Issue} {s s2 : State} {body : BitVec 18 → State → PRes}
    (hr : ready s i.p i.len i.g = true) (hrsv : i.rsv = false)
    (hpriv : i.priv = true → (pilot s i.p).sw.priv = true)
    (hb : body (pilot s i.p).pc (setPilot s i.p (stepped (pilot s i.p) i.len)) = .done s2) :
    issue i s body = ran i.word i.ext s i.p (complete s2 i.p (pilot s i.p).pc false false) := by
  exact issue_done (ready_issues hr) hrsv (ready_parts hr).2.2.2.1 hpriv hb

/-- A ready instruction whose body changes its pilot's registers alone. -/
theorem issue_set {i : Issue} {s : State} {y : Pilot} {body : BitVec 18 → State → PRes}
    (hr : ready s i.p i.len i.g = true) (hrsv : i.rsv = false)
    (hpriv : i.priv = true → (pilot s i.p).sw.priv = true) (hy : quietPilot y (pilot s i.p).pc = true)
    (hsrc : y.src = (pilot s i.p).src)
    (hb : body (pilot s i.p).pc (setPilot s i.p (stepped (pilot s i.p) i.len)) = .done (setPilot s i.p y)) :
    issue i s body = ran i.word i.ext s i.p (setPilot s i.p { y with src := selected s i.p }) := by
  rw [issue_complete hr hrsv hpriv hb, complete_calm hy (ready_parts hr).2.2.2.2.1, hsrc]
  rfl

/-- The current bank reads back as written. -/
@[simp] theorem bankCur_setCur (x : Pilot) (b : Bank) : (x.setCur b).bankCur = b := Table.get_put_self _ _ _ _

@[simp] theorem bankCur_wr (x : Pilot) (i : BitVec 5) (w : TWord) : (x.wr i w).bankCur = x.bankCur.wr i w :=
  bankCur_setCur _ _

@[simp] theorem Bank.wr_act (b : Bank) (i : BitVec 5) (w : TWord) : (b.wr i w).act = b.act := rfl

/-- The fields of a pilot that writing a register leaves. -/
theorem wr_frame (x : Pilot) (i : BitVec 5) (w : TWord) : x.wr i w = { x with banks := (x.wr i w).banks } := rfl

/-- An instruction that only moves past itself keeps the pilot quiet. -/
theorem quiet_stepped {x : Pilot} {len : Nat} {pc : BitVec 18} (h : quietPilot x pc = true) :
    quietPilot (stepped x len) pc = true := h

/-- Loops end by ACT and the loops of the current bank alone. -/
theorem atLoopEnd_congr {x y : Pilot} {pc : BitVec 18} (ha : y.bankCur.act = x.bankCur.act)
    (hl : y.bankCur.loops = x.bankCur.loops) : atLoopEnd y pc = atLoopEnd x pc := by
  unfold atLoopEnd Bank.loopOn Bank.loop
  rw [ha, hl]

/-- A pilot whose loops are as before and whose status word arms no step stays quiet. -/
theorem quiet_of {x y : Pilot} {pc : BitVec 18} (h : quietPilot x pc = true) (e : y.inReset = x.inReset)
    (ht : y.sw.t = false) (hm : y.mulq = x.mulq) (ha : y.bankCur.act = x.bankCur.act)
    (hl : y.bankCur.loops = x.bankCur.loops) (hd : y.dbg = x.dbg) (hw : y.wdgDue = x.wdgDue) :
    quietPilot y pc = true := by
  obtain ⟨k1, k2, k4, k5, k6, k7, k8⟩ := restPilot_parts (quiet_rest h)
  simp [quietPilot, restPilot, e, ht, hm, atLoopEnd_congr ha hl, hd, hw, k1, k4, k5, k6, k7, k8, quiet_mulq h]

/-- Writing a register and flags keeps the pilot quiet. -/
theorem quiet_wr {x : Pilot} {i : BitVec 5} {w : TWord} {sw : Sw} {pc : BitVec 18} (h : quietPilot x pc = true)
    (ht : sw.t = false) : quietPilot { x.wr i w with sw := sw } pc = true :=
  quiet_of h rfl ht rfl (by show (x.wr i w).bankCur.act = _; rw [bankCur_wr]; rfl)
    (by show (x.wr i w).bankCur.loops = _; rw [bankCur_wr]; rfl) rfl rfl

/-- Writing flags keeps the pilot quiet. -/
theorem quiet_sw {x : Pilot} {sw : Sw} {pc : BitVec 18} (h : quietPilot x pc = true) (ht : sw.t = false) :
    quietPilot { x with sw := sw } pc = true :=
  quiet_of h rfl ht rfl rfl rfl rfl rfl

theorem quiet_inReset {x : Pilot} {pc : BitVec 18} (h : quietPilot x pc = true) : x.inReset = false :=
  (restPilot_parts (quiet_rest h)).1

theorem quiet_t {x : Pilot} {pc : BitVec 18} (h : quietPilot x pc = true) : x.sw.t = false :=
  (restPilot_parts (quiet_rest h)).2.1

/-- A ready instruction that writes one register and flags. -/
theorem issue_reg {i : Issue} {s : State} {d : BitVec 5} {w : TWord} {sw : Sw} {body : BitVec 18 → State → PRes}
    (hr : ready s i.p i.len i.g = true) (hrsv : i.rsv = false)
    (hpriv : i.priv = true → (pilot s i.p).sw.priv = true) (ht : sw.t = false)
    (hb : body (pilot s i.p).pc (setPilot s i.p (stepped (pilot s i.p) i.len)) =
      wrRes (setPilot s i.p (stepped (pilot s i.p) i.len)) i.p d w sw) :
    issue i s body = ran i.word i.ext s i.p (afterInstr s i.p i.len (fun y => { y.wr d w with sw := sw })) := by
  have hq := quiet_stepped (len := i.len) (ready_parts hr).2.2.2.2.2
  refine issue_set hr hrsv hpriv (quiet_wr (i := d) (w := w) hq ht) rfl ?_
  rw [hb, wrRes, updPilot_setPilot (quiet_inReset hq)]

/-- A ready instruction that writes flags alone. -/
theorem issue_flags {i : Issue} {s : State} {sw : Sw} {body : BitVec 18 → State → PRes}
    (hr : ready s i.p i.len i.g = true) (hrsv : i.rsv = false)
    (hpriv : i.priv = true → (pilot s i.p).sw.priv = true) (ht : sw.t = false)
    (hb : body (pilot s i.p).pc (setPilot s i.p (stepped (pilot s i.p) i.len)) =
      wrFlags (setPilot s i.p (stepped (pilot s i.p) i.len)) i.p sw) :
    issue i s body = ran i.word i.ext s i.p (afterInstr s i.p i.len (fun y => { y with sw := sw })) := by
  have hq := quiet_stepped (len := i.len) (ready_parts hr).2.2.2.2.2
  refine issue_set hr hrsv hpriv (quiet_sw hq ht) rfl ?_
  rw [hb, wrFlags, updPilot_setPilot (quiet_inReset hq)]

/-- A ready RRR instruction that writes one register and flags. -/
theorem rrr_reg {f : RRR} {s : State} {major : BitVec 6} {fn : BitVec 7} {ok priv : Bool} {d : BitVec 5} {w : TWord}
    {fl : Sw → Sw} {body : Pilot → BitVec 18 → State → PRes} (hr : ready s f.p 1 f.g = true) (hok : ok = true)
    (hpriv : priv = true → (pilot s f.p).sw.priv = true) (ht : (fl (pilot s f.p).sw).t = false)
    (hb : ∀ x s', x = stepped (pilot s f.p) 1 → s' = setPilot s f.p x →
      body x (pilot s f.p).pc s' = wrRes s' f.p d w (fl (pilot s f.p).sw)) :
    rrr f major fn ok priv s body = ran (rrrWord f major fn) 0 s f.p (setsReg s f.p 1 d w fl) := by
  have hq := quiet_stepped (len := 1) (ready_parts hr).2.2.2.2.2
  unfold rrr
  exact issue_reg (i := ⟨f.p, f.g, 1, rrrWord f major fn, !ok, priv, false, 0⟩) (d := d) (w := w) hr (by simp [hok]) hpriv ht (by
    dsimp only
    rw [pilot_setPilot_self]
    exact hb _ _ rfl rfl)

/-- A ready RRR instruction that writes flags alone. -/
theorem rrr_flags {f : RRR} {s : State} {major : BitVec 6} {fn : BitVec 7} {ok priv : Bool}
    {fl : Sw → Sw} {body : Pilot → BitVec 18 → State → PRes} (hr : ready s f.p 1 f.g = true) (hok : ok = true)
    (hpriv : priv = true → (pilot s f.p).sw.priv = true) (ht : (fl (pilot s f.p).sw).t = false)
    (hb : ∀ x s', x = stepped (pilot s f.p) 1 → s' = setPilot s f.p x →
      body x (pilot s f.p).pc s' = wrFlags s' f.p (fl (pilot s f.p).sw)) :
    rrr f major fn ok priv s body = ran (rrrWord f major fn) 0 s f.p (setsFlags s f.p 1 fl) := by
  have hq := quiet_stepped (len := 1) (ready_parts hr).2.2.2.2.2
  unfold rrr
  exact issue_flags (i := ⟨f.p, f.g, 1, rrrWord f major fn, !ok, priv, false, 0⟩) hr (by simp [hok]) hpriv ht (by
    dsimp only
    rw [pilot_setPilot_self]
    exact hb _ _ rfl rfl)

/-- A ready RRI instruction that writes one register and flags. -/
theorem rri_reg {f : RRI} {s : State} {major : BitVec 6} {ok : Bool} {d : BitVec 5} {w : TWord}
    {fl : Sw → Sw} {body : Pilot → BitVec 18 → State → PRes} (hr : ready s f.p 1 f.g = true) (hok : ok = true)
    (ht : (fl (pilot s f.p).sw).t = false)
    (hb : ∀ x s', x = stepped (pilot s f.p) 1 → s' = setPilot s f.p x →
      body x (pilot s f.p).pc s' = wrRes s' f.p d w (fl (pilot s f.p).sw)) :
    rri f major ok s body = ran (rriWord f major) 0 s f.p (setsReg s f.p 1 d w fl) := by
  have hq := quiet_stepped (len := 1) (ready_parts hr).2.2.2.2.2
  unfold rri
  exact issue_reg (i := ⟨f.p, f.g, 1, rriWord f major, !ok, false, false, 0⟩) (d := d) (w := w) hr (by simp [hok]) (by simp) ht (by
    dsimp only
    rw [pilot_setPilot_self]
    exact hb _ _ rfl rfl)

/-- A ready RRI instruction that writes flags alone. -/
theorem rri_flags {f : RRI} {s : State} {major : BitVec 6} {ok : Bool}
    {fl : Sw → Sw} {body : Pilot → BitVec 18 → State → PRes} (hr : ready s f.p 1 f.g = true) (hok : ok = true)
    (ht : (fl (pilot s f.p).sw).t = false)
    (hb : ∀ x s', x = stepped (pilot s f.p) 1 → s' = setPilot s f.p x →
      body x (pilot s f.p).pc s' = wrFlags s' f.p (fl (pilot s f.p).sw)) :
    rri f major ok s body = ran (rriWord f major) 0 s f.p (setsFlags s f.p 1 fl) := by
  have hq := quiet_stepped (len := 1) (ready_parts hr).2.2.2.2.2
  unfold rri
  exact issue_flags (i := ⟨f.p, f.g, 1, rriWord f major, !ok, false, false, 0⟩) hr (by simp [hok]) (by simp) ht (by
    dsimp only
    rw [pilot_setPilot_self]
    exact hb _ _ rfl rfl)

/-- A ready long form that writes one register and flags. -/
theorem lform_reg {f : LF} {s : State} {major : BitVec 6} {ok : Bool} {d : BitVec 5} {w : TWord}
    {fl : Sw → Sw} {body : Pilot → BitVec 18 → State → PRes} (hr : ready s f.p 2 f.g = true)
    (hok : (ok && decide (f.z = 0)) = true) (ht : (fl (pilot s f.p).sw).t = false)
    (hb : ∀ x s', x = stepped (pilot s f.p) 2 → s' = setPilot s f.p x →
      body x (pilot s f.p).pc s' = wrRes s' f.p d w (fl (pilot s f.p).sw)) :
    lform f major ok s body = ran (lfWord f major) f.imm s f.p (setsReg s f.p 2 d w fl) := by
  have hq := quiet_stepped (len := 2) (ready_parts hr).2.2.2.2.2
  unfold lform
  exact issue_reg (i := ⟨f.p, f.g, 2, lfWord f major, !(ok && decide (f.z = 0)), false, false, f.imm⟩) (d := d) (w := w) hr
    (by dsimp only; rw [hok]; rfl) (by simp) ht (by
    dsimp only
    rw [pilot_setPilot_self]
    exact hb _ _ rfl rfl)

/-- A ready long form that writes flags alone. -/
theorem lform_flags {f : LF} {s : State} {major : BitVec 6} {ok : Bool}
    {fl : Sw → Sw} {body : Pilot → BitVec 18 → State → PRes} (hr : ready s f.p 2 f.g = true)
    (hok : (ok && decide (f.z = 0)) = true) (ht : (fl (pilot s f.p).sw).t = false)
    (hb : ∀ x s', x = stepped (pilot s f.p) 2 → s' = setPilot s f.p x →
      body x (pilot s f.p).pc s' = wrFlags s' f.p (fl (pilot s f.p).sw)) :
    lform f major ok s body = ran (lfWord f major) f.imm s f.p (setsFlags s f.p 2 fl) := by
  have hq := quiet_stepped (len := 2) (ready_parts hr).2.2.2.2.2
  unfold lform
  exact issue_flags (i := ⟨f.p, f.g, 2, lfWord f major, !(ok && decide (f.z = 0)), false, false, f.imm⟩) hr
    (by dsimp only; rw [hok]; rfl) (by simp) ht (by
    dsimp only
    rw [pilot_setPilot_self]
    exact hb _ _ rfl rfl)

@[simp] theorem reg_stepped (x : Pilot) (n : Nat) (i : BitVec 5) : (stepped x n).reg i = x.reg i := rfl
@[simp] theorem sw_stepped (x : Pilot) (n : Nat) : (stepped x n).sw = x.sw := rfl
@[simp] theorem bankCur_stepped (x : Pilot) (n : Nat) : (stepped x n).bankCur = x.bankCur := rfl

/-! The unit's flags in the manual's words. -/

theorem addRes_r (a b : W64) (k : Bool) : (addRes a b k).r = BitVec.ofNat 64 (a.toNat + b.toNat + k.toNat) := rfl
theorem subRes_r (a b : W64) (k : Bool) : (subRes a b k).r = a - b - BitVec.ofNat 64 k.toNat := rfl

theorem nzvc_add (w : Sw) (a b : W64) (k : Bool) :
    w.nzvc (addRes a b k) = sumFlags a b (addRes a b k).r k.toNat w := by
  simp only [Sw.nzvc, sumFlags, addRes, BitVec.msb_eq_getLsbD_last]
  congr 1
  simp
  grind

theorem nzvc_sub (w : Sw) (a b : W64) (k : Bool) :
    w.nzvc (subRes a b k) = diffFlags a b (subRes a b k).r k.toNat w := by
  simp only [Sw.nzvc, diffFlags, subRes, BitVec.msb_eq_getLsbD_last]
  congr 1
  simp
  grind

theorem nzvc_logic (w : Sw) (r : W64) : w.nzvc (logicRes r w.c) = logicFlags r w := by
  simp [Sw.nzvc, logicRes, logicFlags, BitVec.msb_eq_getLsbD_last]

theorem nz_sign (w : Sw) (r : W64) : w.nz r = signFlags r w := by
  simp [Sw.nz, signFlags, BitVec.msb_eq_getLsbD_last]

/-- A ready RRR instruction that changes its pilot's registers alone. -/
theorem rrr_upd {f : RRR} {s : State} {major : BitVec 6} {fn : BitVec 7} {ok priv : Bool} {upd : Pilot → Pilot}
    {body : Pilot → BitVec 18 → State → PRes} (hr : ready s f.p 1 f.g = true) (hok : ok = true)
    (hpriv : priv = true → (pilot s f.p).sw.priv = true) (hy : quietPilot (upd (stepped (pilot s f.p) 1)) (pilot s f.p).pc = true)
    (hsrc : (upd (stepped (pilot s f.p) 1)).src = (pilot s f.p).src)
    (hb : ∀ x s', x = stepped (pilot s f.p) 1 → s' = setPilot s f.p x → body x (pilot s f.p).pc s' = .done (updPilot s' f.p upd)) :
    rrr f major fn ok priv s body = ran (rrrWord f major fn) 0 s f.p (afterInstr s f.p 1 upd) := by
  have hq := quiet_stepped (len := 1) (ready_parts hr).2.2.2.2.2
  unfold rrr
  exact issue_set (i := ⟨f.p, f.g, 1, rrrWord f major fn, !ok, priv, false, 0⟩) hr (by simp [hok]) hpriv hy hsrc (by
    dsimp only
    rw [pilot_setPilot_self, hb _ _ rfl rfl, updPilot_setPilot (quiet_inReset hq)])

end Sys2Proof.Machine
end

