-- ==== Sys2Proof/Tests/Slice0.lean ====
section
/-! SUPPORT. Tests/Slice0.lean: the model's own tests. First the small states that the tests stand on; then, for each
statement of Obligations.lean with hypotheses, one witness per clause (in the clauses' order): a concrete state and
operands that meet all of the clause's hypotheses together, with those of the deepest case under it; then one ill-formed
command for each kind of check of WellFormed, and a few commands on fixed values whose results the named rules give. -/

set_option maxRecDepth 10000
set_option linter.unusedVariables false

namespace Sys2Proof.Tests

open Sys2Proof Sys2Proof.Machine

/-! Small states: a pilot or two, a ring, a path, a controller, as a clause needs them. -/

def demoP (b : Bank) : Pilot := { inReset := false, banks := [(0, b)], pc := 0x100 , sw := { world := true, priv := true}, cseal := 64 }
def demo (b : Bank) : State := { State.reset with blk := { mode := 3 }, pilots := Table.put {} (resetPilots .ozL) 0 (demoP b) }
def demoBank (d a : List TWord) : Bank := { regs := Table.putList emptyW (Table.putList emptyW [] 0 d) 16 a, dirty := 3 }
def i (n : Int) : TWord := intW (BitVec.ofInt 64 n)
def dq (b : Bank) (f : Pilot → Pilot) : State := { demo b with pilots := Table.put {} (resetPilots .ozL) 0 (f (demoP b)) }
def v0 : BitVec 128 := 0x0123456789ABCDEF0011223344556677
def ad (n : Nat) : TWord := ⟨BitVec.ofNat 64 n,4⟩
def dm (b : Bank) (f : Pilot → Pilot) : State := { demo b with pilots := Table.put {} (resetPilots .ozL) 0 (f (demoP b)), cask := Table.putList emptyW [] 0 ((List.range 70).map (fun k => (⟨BitVec.ofNat 64 (0x1234567890123*k+k), BitVec.ofNat 4 (k%10)⟩ : TWord))) }
def ws (l : List Nat) : List TWord := l.map (fun v => ⟨BitVec.ofNat 64 v,3⟩)
def cd (a b : List Nat) (t : Nat) : State := { dm (demoBank [i 3, i t] [ad 0, ad 64,ad 8]) id with cask := Table.putList emptyW (Table.putList emptyW [] 0 (ws a)) 8 (ws b) }
def dm_1 (d a : List TWord) : State := { demo (demoBank d a) with cask := Table.putList emptyW [] 0 [⟨0x1122334455667788,1⟩,⟨0x99,3⟩,⟨5,4⟩,⟨7,15⟩,⟨0,0⟩,⟨9,12⟩], cellar := Table.putList emptyW [] 0 [⟨0xAABBCCDDEEFF0011,2⟩,⟨3,6⟩,⟨3,15⟩] }
def bk : Bank := demoBank [i 3, i 2, i 0,i 5] [⟨0x200,5⟩,⟨0x202,5⟩, ad 16]
def dm_2 (b : Bank) (f : Pilot → Pilot) : State := { demo b with pilots := Table.put {} (resetPilots .ozL) 0 (f (demoP b)), cask := Table.putList emptyW [] 0 [⟨0x100,5⟩,⟨0x200,5⟩,⟨0x304,5⟩,⟨7,15⟩,⟨0,0⟩,⟨9,12⟩], cellar := Table.putList emptyW [] 0 [⟨0x100,5⟩,⟨0x200,5⟩,⟨3,15⟩] }
def ds (n : Nat) : TWord := ⟨BitVec.ofNat 64 n,8⟩
def bk_1 : Bank := demoBank [i 3, i 2, i 0,i 5, ds 5,⟨3,0⟩] [⟨0x200,5⟩,⟨0x202,5⟩, ad 64, ad 256]
def bk_2 : Bank := demoBank [i 3, i 2, i 0,i 3, ds 5,⟨3,0⟩] [⟨0x200,5⟩,⟨0x202,5⟩, ad 64, ad 256]
def ks : State := { dm (demoBank [i 3, i 2] [⟨0x3000000000000000,4⟩]) id with bays := [(0,{bound:=true,data:=Table.putList 0 [] 0 [1,2,3,4,5,6]}),(1,{bound:=true,data:=Table.putList 0 [] 0 [3,1,2,3,4,5,6]})], cask := Table.putList emptyW [] 0 [⟨0x0807060504030201,1⟩,⟨5,2⟩] }
def kk (v : Nat) : State := { ks with pilots := Table.put {} ks.pilots 0 (demoP (demoBank [i 3, i v] [⟨0x3000000000000000,4⟩])) }
def bk_3 : Bank := demoBank [i 3, i 2, i 0,i 5] [⟨0x200,5⟩,⟨0x202,5⟩, ad 64, ad 256]
def fld (v lo : Nat) : BitVec 128 := BitVec.ofNat 128 (v * 2^lo)
def micro (k : Nat) : BitVec 48 := BitVec.ofNat 48 (k * 2^36 + 4 * 2^33)
def nano : BitVec 128 := fld 0 122 ||| fld 1 102 ||| fld 2 96 ||| fld 1 92 ||| fld 0x1f 83 ||| fld 0x3f 71
def vb : VBank := { micro := [(0x3206, micro 1),(0x3208,micro 2)], nano := [(1,nano),(2, fld 1 81 ||| fld 1 77)] }
def vs (s : State) : State := { s with vbank := Table.put {} s.vbank 0 vb }
def evs (s : State) (n : Nat) (v : Src) : State := { s with evc := { s.evc with src := Table.put {} s.evc.src n v, tset := [(0,1)], relq := [⟨3,2,0x55⟩,⟨4,1,1⟩] }, dbg := {s.dbg with ten := true, smask := 5} }
def dm_3 (b : Bank) (f : Pilot → Pilot) : State := { demo b with pilots := Table.put {} (resetPilots .ozL) 0 (f (demoP b)) }
def D : State := dm_3 bk_3 id
def evs_1 (s : State) (n : Nat) (v : Src) (t : BitVec 128) : State := { s with evc := { s.evc with src := Table.put {} s.evc.src n v, tset := if t = 0 then [] else [(0,t)], merge := 0xffffffff, spur := 7} }
def R0 : Ring := { en := true, sqlog := 4, cqlog := 4, credit := 5, weight := 3, sqb := 5, cqb := 7, lport := 1 }
def bk_4 : Bank := demoBank [i 3, i 2, i 65541,i 5] [⟨0x200,5⟩,⟨0x202,5⟩, ad 64, ad 256]
def D_1 : State := dm_3 bk_4 id
def rg (r : Ring) : State := { setRing D_1 5 r with hbr := { role := 0 }, tide := {count := 1000} }
def rgs (r : Ring) (e : Own) (x : Xc) : State := setXctx (setOwn (rg r) 9 e) 9 x
def R0_1 : Ring := { en := true, sqlog := 4, cqlog := 4, credit := 5, weight := 3, sqb := 5, cqb := 7, lport := 1, stamps := [⟨1,3,false,false⟩] }
def bkd (l : List TWord) : Bank := demoBank l [⟨0x200,5⟩]
def dm_4 (b : Bank) (f : Pilot → Pilot) : State := { demo b with pilots := Table.put {} (resetPilots .ozL) 0 (f (demoP b)), hbr := {num := 7} }
def wantI (s : State) : Nat := (findFree s 3 ((Config.freeWord s.freeCtr).toNat % 524288)).getD 0
def dm_5 (l a : List TWord) (f : Pilot → Pilot) : State := { demo (demoBank l a) with pilots := Table.put {} (resetPilots .ozL) 0 (f (demoP (demoBank l a))), hbr := {num := 7} }
def hd (n k g : Nat) : TWord := ⟨BitVec.ofNat 16 n ++ BitVec.ofNat 19 k ++ BitVec.ofNat 29 g, 6⟩
def P0 (st : BitVec 2) : Path := { en := true, sp := 1, peer := 9, state := st, epoch := 4, peerEpoch := some 5, lanes := (List.range 8).map (fun k => (k,{exp := 100, credit := 500})) }
def B (st : BitVec 2) (f : Hbr) : State := { dm_5 [] [] id with hbr := f, paths := [(2,P0 st)], tide := {count := 777}, tw := {charterTwin := 9, last := 5, miss := 2, rxLast := 50} }
def H0 : Hbr := {num:=7,hid:=3,tnum:=9,tstate:=2,role:=1,pdEn:=true}
def W : State := setRing (setOwn (setOwn (B 2 H0) 21 {st:=2,gen:=9,ring:=5,ackp:=true}) 1 {st:=1,gen:=3,ring:=5,srv:=true}) 5 R0_1
def hd_1 (t : BitVec 4) (lane : BitVec 3) : Hdr := ⟨1,true,true,true,true,1,lane,t==1||t==8||t==9||t==0xc||t==0xd,false,false,32,9,7,5,0,0,100,0,3⟩
def bt : Berth := {state:=1,nsid:=5,slots:=[(0,{v:=true}),(1,{v:=true,pst:=2,outst:=3})]}
def V : State := setBerth W 3 bt
def sv : Serve := {path:=2,lane:=2,rqid:=77,berth:=3}
def c0 : DCmd := ⟨21,1,.part 0,0,0,false,.device,none,9,0,false,some (2,2,[1,2])⟩
def w0 : WordX := {idx:=1,addr:=0x10,w:={op:=1,count:=0x100000},begun:=true,issued:=1,outCmds:=1,bytes:=0x1000000}
def X : State := setXctx (setOwn {V with dcmds := [(remoteKey 77,some c0)]} 21 {st:=3,gen:=9,ring:=5,berth:=3}) 21 {active:=true,cur:=some w0}
def hs (t : BitVec 4) (lane : BitVec 3) : Hdr := { hd_1 t lane with u := false }
def Q (f : Path → Path) : State := {W with paths := [(2,f (P0 2))]}
def hu (t : BitVec 4) (lane : BitVec 3) : Hdr := { hd_1 t lane with u := true }
def BT : Table Berth := [(3,{state:=1,nguid:=77,nsid:=6,slots:=[(0,{v:=true,tgt:=4}),(1,{v:=true})]})]
def TWW : Twin := {rxLast := 3}
def qs : List W64 := [0x1000000000000000,0x100,0x200,0xC00000000000,BitVec.ofNat 64 (7*2^48+21*2^29+9),0,0x1000000000000040,0]
def LW (os : List Order) (bn : Nat) : State := {setOwn (setLighter (dm_5 [⟨7*2^48+21*2^29+9,6⟩,i 3,i 0x3f,⟨8*2^48+21*2^29+9,6⟩] [ad 128] id) 3 {orders:=os}) 21 {st:=3,gen:=9} with cask := Table.putList emptyW [] 16 ((qs.zip (orderTags (qs.headD 0))).map (fun e => ⟨e.1,e.2⟩)), bays := (List.range bn).map (fun k => (k+500,{bound:=true,dest:=true})) ++ [(21*4096+5,{bound:=true,dest:=true})]}
def od : Order := {q:=qs,world:=true}
def dg : BitVec 128 := BitVec.ofNat 128 (2*2^124+2^64*100+21*2^24+4050)
def sg : BitVec 128 := BitVec.ofNat 128 (2^64*100+0x1000)
def od2 : Order := {od with started:=true,src:=[sg],dst:=[dg]}
def DS (c : Ctl) (b : Berth) (d : Dq) (cm : Table (Option DCmd)) (wx : Xc) : State :=
  setXctx (setOwn {setCtl (setBerth (setDq W 7 d) 3 b) 4 c with dcmds := cm} 21 {st:=3,gen:=9,ring:=5,berth:=3,held:=true,xfer:=5}) 21 wx
def X0 : Xc := {active:=true,cur:=some w0}
def bt_1 : Berth := {state:=1,nsid:=5,nguid:=77,nsze:=900,flown:=1000,fltwin:=2000,slots:=[(0,{v:=true,tgt:=4}),(1,{v:=true,tgt:=2,pst:=3,outst:=3})]}
def ns : NsInfo := ⟨5,77,1000,false,true,0,0,false,true,true,true⟩
def ci : CtlInfo := ⟨true,0,100,5,1,5,6,7,8,9,10,11,3,40,none,[ns]⟩
def ctl : Ctl := {en:=true,dport:=1,state:=2,pst:=2,spaces:=[ns],cmic:=3}
def dq_1 : Dq := {en:=true,ctl:=4,sqlog:=5,cqlog:=4,sqtail:=3,cqhead:=15,outst:=2,qid:=2}
def c0_1 : DCmd := ⟨21,0,.part 0,0,0,false,.device,none,9,0,false,none⟩
def CC (b : Boot) (m : BitVec 3) : State := {Q id with boot := b, blk := {mode := m}, cellar := [(100,i 1),(40000,i 2)], celOwn := [(1,1)], vbank := [(2,{micro:=[(0,5)]})]}
def env : Envelope := {fmtOk:=true,kind:=3,version:=1,svn:=5,isa:=1,cxfmt:=0,config:=5,plenOk:=true,keyset:=0,ecdsaOk:=true,mldsaOk:=true,tagOk:=true,digestOk:=true,image:=⟨[],[]⟩,gmask:=0,gmatch:=[]}
def shd : SlotHdr := ⟨false,false,true,true,env⟩
def DD (m : BitVec 3) (d : BitVec 2) (p : Pwr) (f : Bool) : State := {Q id with blk := {mode := m, dlevel := d}, pwr := p, fstop := f, tide := {count := 0x10000000}, pilots := (fastPilots State.reset).map (fun e => (e,{waiting := true})), hbr := {num:=7,hid:=3,tnum:=9}, own := [], rings := []}
def SS (m : BitVec 3) (tc : List (BitVec 11)) (p : Pwr) : State := {DD m 0 p false with boot := {porHeld:=false,bwdN:=true}, hm := {tcrit:=100,vwarn:=5,vcrit:=10,temp := (List.range tc.length).zip (tc.map (fun t => {valid:=true,temp:=t})) }}
def HH (h : Hm) (m : BitVec 3) : State := {Q id with hm := h, blk := {mode := m}, boot := {key:=true}, hmmem := [(0x28000,i 1),(0x28001,⟨7*2^32,1⟩),(0x28002,i 3),(0x28003,i 4),(0x20000,i 77),(0x2C000,i 0x1122334455667788),(0x2C001,i 0x99)], hbr := {H0 with tstate:=0}, xc := [(3,{active:=true})]}
def mb (a b : Nat) : Mbx := ⟨9,BitVec.ofNat 64 a,BitVec.ofNat 64 b,3,4⟩
def imn : List (Nat × BitVec 128) := [(0,seqOnly),(1,seqOnly ||| BitVec.ofNat 128 (2^81+2^77))]
def imu : List (Nat × BitVec 48) := ((List.range 64).filter reservedMajor).map (fun m => (2*m,BitVec.ofNat 48 (2^36))) ++
    (List.range 4).map (fun k => (2*(0x2C+k),BitVec.ofNat 48 (5*2^33+(0x3000+0x100*k)*2^13))) ++ ((List.range 4).map
    (fun k => (List.range 128).map (fun f => (0x3000+0x100*k+2*f,BitVec.ofNat 48 (2^36))))).flatten
def env_1 : Envelope := {fmtOk:=true,kind:=1,version:=1,svn:=5,isa:=1,cxfmt:=0,config:=5,plenOk:=true,keyset:=0,ecdsaOk:=true,mldsaOk:=true,tagOk:=true,digestOk:=true,image:=⟨imu,imn⟩,gmask:=0,gmatch:=[]}
def VV (v : Vin) (cs : Csrc) (f : Pilot → Pilot) : State := {HH {svn:=4,lc:=2} 3 with vin := v, csrc := Table.put {} [] 0 cs, boot := {key:=true,served:=true}, pilots := (List.range 5).map (fun k => (k,f {src:=cs.sel.toNat})), vbank := [(1,{state:=2,version:=4})], chk := [(0,{state:=0})]}
def ber : Berth := { nsze := 1000, lbsz := false, flbn := 5, slots := [(0,{v:=true,tgt:=1})] }
def EX (x : Xc) (e : Own) : State := {Q id with own := [(3,{e with st:=3,berth:=2})], xc := [(3,{x with active:=true,next:=0x5000})], berths := [(2,ber)]}
def HI (op fl buf : Nat) (modf count : Nat) : W64 := BitVec.ofNat 64 (op*2^56+fl*2^48+buf*2^52+modf*2^32+count)
def EY (x : Xc) (e : Own) (b : Berth) : State := {EX x e with berths := [(2,b)]}
def ber2 : Berth := {ber with ce := true}
def st (k : Nat) (v : Nat) : PStore := ⟨true,k,⟨BitVec.ofNat 64 v,1⟩⟩
def mk (w : Win) (fz tw : Bool) (sp : Bool) : State := {Q id with cellar := [(3,⟨7,1⟩),(4,⟨5,1⟩)], cask := [(3,⟨9,1⟩)], pilots := [(1,{inReset:=false,pc:=4,frozen:=fz,twice:=tw,once:=tw,win:=w}),(2,{inReset:=false,pc:=99})], dbg := {ten := sp}}

/-! Witnesses. -/

theorem test_witness_Sums :
  (∃ (s : State) (f : RRR),
    let x := pilot s f.p
    let allD := isD f.d && isD f.s && isD f.t
    ready s f.p 1 f.g = true ∧ (x.reg f.s).tag = 1 ∧ (x.reg f.t).tag = 1 ∧ allD = true) ∧
  (∃ (s : State) (f : RRI),
    ready s f.p 1 f.g = true ∧ ((pilot s f.p).reg f.s).tag = 1 ∧ f.d = 0 ∧ isD f.s = true) ∧
  (∃ (s : State) (f : LF),
    ready s f.p 2 f.g = true ∧ f.z = 0 ∧ ((pilot s f.p).reg f.s).tag = 1 ∧ f.d = 0 ∧ isD f.s = true) ∧
  (∃ (s : State) (f : RRR),
    let x := pilot s f.p
    let a := x.reg f.s
    let b := x.reg f.t
    ready s f.p 1 f.g = true ∧ b.tag = 1 ∧ (a.tag = 5 ∨ a.tag = 7)) :=
  ⟨⟨demo (demoBank [i (5), i (5)] []), ⟨0,0,2,0,1⟩, by decide⟩,
   ⟨demo (demoBank [i (5), i 1] []), ⟨0,0,0,0,0⟩, by decide⟩,
   ⟨demo (demoBank [i (5), i 1] []), ⟨0,0,0,0,0,0⟩, by decide⟩,
   ⟨demo (demoBank [⟨0x10,5⟩, i 5] []), ⟨0,0,2,0,1⟩, by decide⟩⟩

theorem test_witness_LogicAndShifts :
  (∃ (s : State) (f : RRR),
    let x := pilot s f.p
    let a := x.reg f.s
    let b := x.reg f.t
    ready s f.p 1 f.g = true ∧ (a.tag = 1 ∨ a.tag = 2) ∧ (b.tag = 1 ∨ b.tag = 2)) ∧
  (∃ (s : State) (f : RRR),
    let x := pilot s f.p
    let a := x.reg f.s
    ready s f.p 1 f.g = true ∧ (a.tag = 1 ∨ a.tag = 2) ∧ ((x.reg f.t).tag = 1 ∨ (x.reg f.t).tag = 2)) ∧
  (∃ (s : State) (f : RRI),
    let a := (pilot s f.p).reg f.s
    ready s f.p 1 f.g = true ∧ (a.tag = 1 ∨ a.tag = 2) ∧ f.imm.toNat / 128 % 8 = 0) ∧
  (∃ (s : State) (f : RRR),
    let x := pilot s f.p
    let a := x.reg f.s
    let b := x.reg f.t
    ready s f.p 1 f.g = true ∧ isD f.d = true ∧ isD f.s = true ∧ isD f.t = true ∧ a.tag = 1 ∧ b.tag = 1) ∧
  (∃ (s : State) (f : RIF),
    ready s f.p 1 f.g = true) ∧
  (∃ (s : State) (f : LF),
    ready s f.p 2 f.g = true ∧ f.z = 0 ∧ f.s = 0 ∧ isD f.d = true ∧ ((pilot s f.p).reg f.d).tag = 1) :=
  ⟨⟨demo (demoBank [i 5, i 5] []), ⟨0,0,2,0,1⟩, by decide⟩,
   ⟨demo (demoBank [⟨0,1⟩, i (0)] []), ⟨0,0,2,0,1⟩, by decide⟩,
   ⟨demo (demoBank [⟨0,1⟩, i 1] []), ⟨0,0,2,0,0⟩, by decide⟩,
   ⟨demo (demoBank [⟨BitVec.ofInt 64 (5),1⟩, i (5)] []), ⟨0,0,2,0,0⟩, by decide⟩,
   ⟨demo (demoBank [i 1, i 1] []), ⟨0,0,0,0⟩, by decide⟩,
   ⟨demo (demoBank [i 1, ⟨0x1122334455667788,1⟩] []), ⟨0,0,1,0,0,0⟩, by decide⟩⟩

theorem test_witness_Multiplies :
  (∃ (s : State) (f : RRR),
    let x := pilot s f.p
    ready s f.p 1 f.g = true ∧ isD f.s = true ∧ isD f.t = true ∧ (x.reg f.s).tag = 1 ∧ (x.reg f.t).tag = 1 ∧ f.d = 0) ∧
  (∃ (s : State) (f : RRR) (k : Nat) (n : Nat) (v : BitVec 128),
    let x := pilot s f.p
    issues s f.p 1 = true ∧ f.d = 0 ∧ f.s = 0 ∧ f.t = 0 ∧ x.mulq = [⟨k, 1, .mhml, v⟩]) :=
  ⟨⟨demo (demoBank [i (5), i (5)] []), ⟨0,0,0,0,1⟩, by decide⟩,
   ⟨dq (demoBank [i 1] []) (fun x => {x with mulq := [⟨0,1,.mhml,v0⟩]}), ⟨0,0,0,0,0⟩, 0, 0, v0, by decide⟩⟩

theorem test_witness_DividesAndMoves :
  (∃ (s : State) (f : RRR),
    let x := pilot s f.p
    let b := (x.reg f.t).val
    ready s f.p 1 f.g = true ∧ f.d < 16 ∧ f.d.getLsbD 0 = false ∧ isD f.s = true ∧ isD f.t = true ∧ (x.reg f.s).tag = 1 ∧
    (x.reg f.t).tag = 1 ∧ b ≠ 0) ∧
  (∃ (s : State) (f : RRR),
    let x := pilot s f.p
    ready s f.p 1 f.g = true ∧ f.d < 4 ∧ isD f.s = true ∧ isD f.t = true ∧ (x.reg f.s).tag = 1 ∧ (x.reg f.t).tag = 1) ∧
  (∃ (s : State) (f : RRR),
    let x := pilot s f.p
    let a := x.reg f.s
    let open_ := x.sw.world = false
    ready s f.p 1 f.g = true ∧ f.t = 0 ∧ a.tag ≠ 0 ∧ (¬ (10 ≤ a.tag.toNat ∧ a.tag.toNat ≤ 14)) ∧ (¬ (a.tag = 15 ∧ open_))) :=
  ⟨⟨demo (demoBank [i (5), i (5)] []), ⟨0,0,2,0,1⟩, by decide⟩,
   ⟨demo { demoBank [i 3, i (-4)] [] with x := [(2, ⟨0x123456789abcdef00112233445566778899, 1⟩)] }, ⟨0,0,2,0,1⟩, by decide⟩,
   ⟨dq (demoBank [⟨0x12C,1⟩] []) (fun x => {x with sw := {x.sw with world := true}}), ⟨0,0,2,0,0⟩, by decide⟩⟩

theorem test_witness_DecimalNumbers :
  (∃ (s : State) (f : RRR),
    let x := pilot s f.p
    let a := x.reg f.s
    let b := x.reg f.t
    ready s f.p 1 f.g = true ∧ isD f.d = true ∧ isD f.s = true ∧ isD f.t = true ∧ a.tag = 3 ∧ b.tag = 3 ∧ decOk a.val = true ∧
    decOk b.val = true ∧ f.d = 0) ∧
  (∃ (s : State) (f : RRR),
    let x := pilot s f.p
    let src := (x.reg f.s).val
    let dst := (x.reg f.d).val
    let v := (x.reg f.t).val.toNat
    let n := v % 64
    let m := v / 256 % 64
    let b := caskWord s f.p
    let i := src.toNat / 8
    let j := dst.toNat / 8
    let digits : Nat → Nat → Prop := fun k c => ∀ e, e < c → (b (k + e)).tag = 3 ∧ digOk (b (k + e)).val = true
    ready s f.p 1 f.g = true ∧ unwatched (pilot s f.p) = true ∧ isA f.d = true ∧ isA f.s = true ∧ isD f.t = true ∧ x.cx = 0 ∧
    (x.reg f.s).tag = 4 ∧ (x.reg f.t).tag = 1 ∧ (x.reg f.d).tag = 4 ∧ caskAddr src = true ∧ caskAddr dst = true ∧
    v = n + 256 * m ∧ 0 < n ∧ n ≤ 32 ∧ 0 < m ∧ m ≤ 32 ∧ i + n + m ≤ 8192 ∧ j + n + m ≤ 8192 ∧
    ((i + n + m ≤ j ∨ j + n + m ≤ i)) ∧ digits i (n + m)) :=
  ⟨⟨demo (demoBank [⟨0x12345C,3⟩, ⟨0x12345C,3⟩] []), ⟨0,0,0,0,1⟩, by decide⟩,
   ⟨cd [11068046444225730969,1,0] [1,2,0] 257, ⟨0,0,17,16,1⟩, by decide⟩⟩

theorem test_witness_LoadsAndStores :
  (∃ (s : State) (f : RRR),
    let x := pilot s f.p
    let u := atEffect s f.p 1
    let a := addrAdd (x.reg f.s).val (x.reg f.t).val
    let word : Nat → TWord := fun n => memWord u f.p x.sw.world a n
    let may : Nat → Prop := fun n => a.toNat % n = 0 ∧ loadable u f.p x.sw.world a n = true
    ready s f.p 1 f.g = true ∧ unwatched (pilot s f.p) = true ∧ isA f.s = true ∧ isD f.t = true ∧ (x.reg f.s).tag = 4 ∧
    (x.reg f.t).tag = 1 ∧ may 8 ∧ readableIn s f.p (word 8) = true ∧ isD f.d = true ∧ aSpace a ≠ 2) ∧
  (∃ (s : State) (f : RRI),
    let x := pilot s f.p
    let u := atEffect s f.p 1
    let a := addrAdd (x.reg f.s).val (BitVec.ofInt 64 (8 * f.imm.toInt))
    ready s f.p 1 f.g = true ∧ unwatched (pilot s f.p) = true ∧ isA f.s = true ∧ (x.reg f.s).tag = 4 ∧ a.toNat % 8 = 0 ∧
    loadable u f.p x.sw.world a 8 = true ∧ readableIn s f.p (memWord u f.p x.sw.world a 8) = true) ∧
  (∃ (s : State) (f : LF),
    let x := pilot s f.p
    let u := atEffect s f.p 2
    let a := addrAdd (x.reg f.s).val (BitVec.ofInt 64 f.imm.toInt)
    ready s f.p 2 f.g = true ∧ f.z = 0 ∧ unwatched (pilot s f.p) = true ∧ isA f.s = true ∧ (x.reg f.s).tag = 4 ∧
    a.toNat % 8 = 0 ∧ loadable u f.p x.sw.world a 8 = true ∧ readableIn s f.p (memWord u f.p x.sw.world a 8) = true) ∧
  (∃ (s : State) (f : RRR),
    let x := pilot s f.p
    let w := x.reg f.d
    let a := addrAdd (x.reg f.s).val (x.reg f.t).val
    ready s f.p 1 f.g = true ∧ unwatched (pilot s f.p) = true ∧ isA f.s = true ∧ isD f.t = true ∧ (x.reg f.s).tag = 4 ∧
    (x.reg f.t).tag = 1 ∧ aSpace a ≤ 1 ∧ readableIn s f.p w = true ∧ (¬ (w.tag = 15 ∧ aSpace a = 1 ∧ bankOwner s
    (aOff a / 8 / bankWords) = 0)) ∧ a.toNat % 8 = 0 ∧ storable s f.p x.sw.world a 8 = true) ∧
  (∃ (s : State) (f : RRI),
    let x := pilot s f.p
    let w := x.reg f.d
    let a := addrAdd (x.reg f.s).val (BitVec.ofInt 64 (8 * f.imm.toInt))
    ready s f.p 1 f.g = true ∧ unwatched (pilot s f.p) = true ∧ isA f.s = true ∧ (x.reg f.s).tag = 4 ∧ a.toNat % 8 = 0 ∧
    aSpace a ≤ 1 ∧ storable s f.p x.sw.world a 8 = true ∧ readableIn s f.p w = true ∧ (¬ (w.tag = 15 ∧ aSpace a = 1 ∧
    bankOwner s (aOff a / 8 / bankWords) = 0))) ∧
  (∃ (s : State) (f : LF),
    let x := pilot s f.p
    let w := x.reg f.d
    let a := addrAdd (x.reg f.s).val (BitVec.ofInt 64 f.imm.toInt)
    ready s f.p 2 f.g = true ∧ f.z = 0 ∧ unwatched (pilot s f.p) = true ∧ isA f.s = true ∧ (x.reg f.s).tag = 4 ∧
    a.toNat % 8 = 0 ∧ aSpace a ≤ 1 ∧ storable s f.p x.sw.world a 8 = true ∧ readableIn s f.p w = true ∧ (¬ (w.tag = 15 ∧
    aSpace a = 1 ∧ bankOwner s (aOff a / 8 / bankWords) = 0))) :=
  ⟨⟨dm_1 [i (0), ⟨0xF0E1D2C3B4A59687,2⟩, ⟨4,15⟩] [ad 0], ⟨0,0,1,16,0⟩, by decide⟩,
   ⟨dm_1 [i (0), ⟨0xF0E1D2C3B4A59687,2⟩, ⟨4,15⟩] [ad 0], ⟨0,0,1,16,0⟩, by decide⟩,
   ⟨dm_1 [i (0), ⟨0xF0E1D2C3B4A59687,2⟩, ⟨4,15⟩] [ad 0], ⟨0,0,1,16,0,0⟩, by decide⟩,
   ⟨dm_1 [i (0), ⟨0xF0E1D2C3B4A59687,2⟩, ⟨4,15⟩] [ad 0], ⟨0,0,1,16,0⟩, by decide⟩,
   ⟨dm_1 [i (0), ⟨0xF0E1D2C3B4A59687,2⟩, ⟨4,15⟩] [ad 0], ⟨0,0,1,16,0⟩, by decide⟩,
   ⟨dm_1 [i (0), ⟨0xF0E1D2C3B4A59687,2⟩, ⟨4,15⟩] [ad 0], ⟨0,0,1,16,0,0⟩, by decide⟩⟩

theorem test_witness_AddressSpaces :
  (∃ (s : State) (p : Nat) (a : W64) (b : W64) (w : TWord),
    a.toNat % 8 = 0 ∧ b.toNat % 8 = 0 ∧ aSpace a ≤ 1 ∧ aSpace b ≤ 1 ∧ (a.toNat < 65536 ∨ aSpace a = 1) ∧
    (b.toNat < 65536 ∨ aSpace b = 1) ∧ b ≠ a) ∧
  (∃ (s : State) (f : RRI),
    let a := (pilot s f.p).reg f.s
    ready s f.p 1 f.g = true ∧ a.tag = 4) ∧
  (∃ (s : State) (f : RRR),
    let x := pilot s f.p
    let u := atEffect s f.p 1
    let a := addrAdd (x.reg f.s).val (x.reg f.t).val
    let w := (x.reg f.d).val
    let rq := pilotRq f.p x.sw.world
    let calm_ : State → Prop := fun v => pilot v f.p = pilot u f.p ∧ v.dbg.req = u.dbg.req
    ready s f.p 1 f.g = true ∧ unwatched (pilot s f.p) = true ∧ isA f.s = true ∧ isD f.t = true ∧ isD f.d = true ∧
    (x.reg f.s).tag = 4 ∧ (x.reg f.t).tag = 1 ∧ aSpace a = 2 ∧ ((x.reg f.d).tag = 1 ∨ (x.reg f.d).tag = 2) ∧ a.toNat % 8 = 0 ∧
    storable u f.p x.sw.world a 8 = true ∧ calm_ (winStore u rq true (aOff a) w)) :=
  ⟨⟨{demo (demoBank [i 1] []) with celOwn := [(0,1),(1,1),(2,2)], cask := [(0,⟨7,1⟩),(1,⟨9,2⟩),(8192,⟨4,1⟩)], cellar := [(0,⟨3,1⟩),(2,⟨5,5⟩)], pilots := [(0,{inReset:=false,frozen:=true,win:={stores:=(List.range 0).map (fun k => ⟨k % 2 = 0,k,⟨77,1⟩⟩)}}),(1,{inReset:=false})]}, 0, 0, 8, ⟨0x5555,1⟩, by decide⟩,
   ⟨dm_1 [i 7, i 9] [ad 5, ⟨0x40,5⟩], ⟨0,0,1,16,5⟩, by decide⟩,
   ⟨dm_1 [i (0), ⟨0xF0E1D2C3B4A59687,2⟩, ⟨4,1⟩] [ad 2305843009213693968], ⟨0,0,1,16,0⟩, by decide⟩⟩

theorem test_witness_Stacks :
  (∃ (s : State) (f : RRR),
    let x := pilot s f.p
    let top := (x.reg 31).val
    let a := addrSub top 8
    let lim := x.bankCur.dslim
    ready s f.p 1 f.g = true ∧ unwatched (pilot s f.p) = true ∧ (x.reg 31).tag = 4 ∧ aSpace top ≤ 1 ∧ f.d = 0 ∧ f.t = 0 ∧
    isD f.s = true ∧ a.toNat % 8 = 0 ∧ storable s f.p x.sw.world a 8 = true ∧ (lim.tag = 0 ∨ lim.val.toNat ≤ a.toNat) ∧
    readableIn s f.p (x.reg f.s) = true ∧ (¬ ((x.reg f.s).tag = 15 ∧ aSpace a = 1 ∧ bankOwner s
    (aOff a / 8 / bankWords) = 0))) ∧
  (∃ (s : State) (f : RRR),
    let x := pilot s f.p
    let b := x.bankCur
    let k := (x.reg f.s).val.toNat % 64
    let a := b.rsp.val
    let down : Nat → W64 := fun j => addrSub a (BitVec.ofNat 64 (8 * (j + 1)))
    ready s f.p 1 f.g = true ∧ unwatched (pilot s f.p) = true ∧ f.d = 0 ∧ f.t = 0 ∧ isD f.s = true ∧ x.sw.priv = true ∧
    (x.reg f.s).tag = 1 ∧ b.rsp.tag = 4 ∧ a.toNat % 8 = 0 ∧ 0 < k ∧ k ≤ b.spilled ∧ b.rcache.length + k ≤ 32 ∧ aSpace
    (down 0) ≤ 1 ∧ ((∀ j, j < k → loadable s f.p x.sw.world (down j) 8 = true ∧ (memWord s f.p x.sw.world
    (down j) 8).tag = 5))) :=
  ⟨⟨dm_1 [i 7, i 9] [ad 0,ad 0,ad 0,ad 0,ad 0,ad 0,ad 0,ad 0,ad 0,ad 0,ad 0,ad 0,ad 0,ad 0,ad 0,ad 8], ⟨0,0,0,1,0⟩,
    by decide⟩,
   ⟨dm_2 { bk with rcache := [ (0x100 : BitVec 18), 0x200, 0x300], shadow := [ (0x100 : BitVec 18), 0x200, 0x300], rsp := ad 16, spilled := 2 } id, ⟨0,0,0,1,0⟩, by decide⟩⟩

theorem test_witness_ControlFlow :
  (∃ (s : State) (f : BRF),
    let x := pilot s f.p
    let t : Int := x.pc.toNat + 4 * f.off.toInt
    ready s f.p 1 f.g = true ∧ s.dbg.tflow = false ∧ x.pc.toNat % 4 = 0 ∧ 0 ≤ t ∧ t < 2 ^ 18) ∧
  (∃ (s : State) (f : RRR),
    let a := (pilot s f.p).reg f.s
    ready s f.p 1 f.g = true ∧ s.dbg.tflow = false ∧ f.d = 0 ∧ f.t = 0 ∧ isA f.s = true ∧ a.tag = 5 ∧ a.val.toNat % 4 = 0 ∧
    a.val.toNat < 2 ^ 18) ∧
  (∃ (s : State) (f : BRF),
    let x := pilot s f.p
    let b := x.bankCur
    let t : Int := x.pc.toNat + 4 * f.off.toInt
    ready s f.p 1 f.g = true ∧ s.dbg.tflow = false ∧ x.pc.toNat % 4 = 0 ∧ 0 ≤ t ∧ t < 2 ^ 18 ∧ b.rcache.length < 28 ∧
    b.depth < 256) :=
  ⟨⟨dm_2 bk id, ⟨0,0,5⟩, by decide⟩,
   ⟨dm_2 bk id, ⟨0,0,0,16,0⟩, by decide⟩,
   ⟨dm_2 bk id, ⟨0,0,5⟩, by decide⟩⟩

theorem test_witness_Loops :
  (∃ (s : State) (f : LPF),
    let x := pilot s f.p
    let b := x.bankCur
    let k := f.k.toNat
    let fin := x.pc.toNat + 4 * f.fin.toNat
    let n := if f.rc = 1 then (x.reg (f.cnt.extractLsb' 0 5)).val.toNat else f.cnt.toNat
    ready s f.p 1 f.g = true ∧ ((f.rc = 1 → f.cnt.toNat < 16 ∧ (x.reg (f.cnt.extractLsb' 0 5)).tag = 1)) ∧ k = b.loopsOn ∧
    f.fin ≠ 0 ∧ n < 2 ^ 32 ∧ ((0 < k → (b.loop (k - 1)).ls.toNat ≤ x.pc.toNat + 4 ∧ fin ≤ (b.loop (k - 1)).le.toNat)) ∧
    n ≠ 0) ∧
  (∃ (s : State) (f : RRR),
    ready s f.p 1 f.g = true ∧ f.d = 0 ∧ f.s = 0 ∧ f.t < 4) ∧
  (∃ (s : State) (f : RRR) (k : Nat),
    let x := pilot s f.p
    let b := x.bankCur
    let l := b.loop k
    f.d = 0 ∧ f.s = 0 ∧ f.t = 0 ∧ k < 4 ∧ canIssue s f.p = true ∧ fetchBad s f.p 1 = (false, false) ∧ breakpointAt x = none ∧
    x.sw.t = false ∧ calm s f.p = true ∧ x.mulq = [] ∧ b.act = BitVec.ofNat 4 (2 ^ (k + 1) - 1) ∧ l.le = x.pc ∧
    l.lvl = x.sw.level ∧ l.lc = 1 ∧ ((∀ j, j < k → (b.loop j).le ≠ x.pc))) :=
  ⟨⟨dm_2 bk id, ⟨0,0,0,0,1,1⟩, by decide⟩,
   ⟨dm_2 bk id, ⟨0,0,0,0,0⟩, by decide⟩,
   ⟨dm_2 {bk with act := 1, loops := [(0,⟨0xF0,0x100,1,0⟩)]} id, ⟨0,0,0,0,0⟩, 0, by decide⟩⟩

theorem test_witness_SystemInstructions :
  (∃ (s : State) (p : Nat) (g : BitVec 4) (d : BitVec 5) (r : BitVec 5) (t : BitVec 5),
    issues s p 1 = true ∧ (pilot s p).mulq = [] ∧ (pilot s p).sw.guardMet g = false) ∧
  (∃ (s : State) (f : RRR),
    let x := pilot s f.p
    issues s f.p 1 = true ∧ (pilot s f.p).sw.guardMet f.g = true ∧ (pilot s f.p).sw.priv = true ∧ f.d = 0 ∧ f.t = 0 ∧
    isD f.s = true ∧ x.sw.level ≠ 6 ∧ (x.reg f.s).tag = 1 ∧ (x.reg f.s).val.toNat < 8 ∧
    atLoopEnd { x.drain with cur := (x.reg f.s).val.toNat } x.pc = false) ∧
  (∃ (s : State) (f : RRR),
    let x := pilot s f.p
    ready s f.p 1 f.g = true ∧ untraced s = true ∧ f.d = 0 ∧ f.s = 0 ∧ f.t = 0 ∧ x.sw.mask < x.dmon ∧ x.dmon ≠ 7 ∧
    bankHolds s f.p x.cur = false ∧ presented s f.p = none) :=
  ⟨⟨dq (demoBank [i 1] []) (fun x => {x with sw := {x.sw with z := true, n := true}}), 0, 2, 2, 0, 1, by decide⟩,
   ⟨dm bk_1 id, ⟨0,0,0,0,0⟩, by decide⟩,
   ⟨dm bk_1 (fun x => { x with cx := 9, vbo := 7, vbs := 3, dmon := 2, sw := {x.sw with world := true, priv := true, level := 0, mask := 0}}), ⟨0,0,0,0,0⟩, by decide⟩⟩

theorem test_witness_GatesAndReturns :
  (∃ (s : State) (f : RRR),
    let x := pilot s f.p
    let b := x.bankCur
    let d := x.reg f.s
    let g := Table.get 0 x.gtab d.val.toNat
    ready s f.p 1 f.g = true ∧ s.dbg.tflow = false ∧ f.d = 0 ∧ f.t = 0 ∧ isD f.s = true ∧ x.sw.world = false ∧
    b.glnk.v = false ∧ d.tag = 8 ∧ d.val.toNat < 64 ∧ g.getLsbD 63 = true ∧ (x.sw.priv = true ∨ g.getLsbD 62 = true)) ∧
  (∃ (s : State) (f : RRR) (a : BitVec 4),
    let x := pilot s f.p
    let n := x.sw.level
    let v := x.setOf n.toNat
    let y : Pilot :=
      { stepped x 1 with
        sw := { v.ssw with slot := false }
        cx := v.scx
        pc := v.spc
        slotMark := v.ssw.slot
        cur := if n.toNat < 6 then x.cur else v.tc.bank.toNat }
    let b := y.bankCur
    let z := y.setCur { b with act := a, dirty := if a = b.act then b.dirty else b.dirty ||| 8 }
    ready s f.p 1 f.g = true ∧ s.dbg.tflow = false ∧ f.d = 0 ∧ f.s = 0 ∧ f.t = 0 ∧ n ≠ 0 ∧ n ≠ x.dmon ∧ x.sw.priv = true ∧
    (x.sw.world = false ∨ x.bankCur.glnk.v = false ∨ x.bankCur.glnk.level ≠ n) ∧ v.ssw.level = v.tc.clevel ∧
    ((v.ssw.world = true → v.tc.cworld = true)) ∧ ((v.ssw.priv = true → v.tc.cpriv = true)) ∧ v.ssw.mask ≤ v.tc.cmask ∧
    v.ssw.level ≤ v.ssw.mask ∧ ((∀ k, k < 4 → a.getLsbD k = (b.act.getLsbD k && decide ((b.loop k).lvl ≠ n)))) ∧
    atLoopEnd z x.pc = false) :=
  ⟨⟨dm bk_1 (fun x => { x with cseal := 0, sw := {x.sw with world := false, priv := true, mask := 0, level := 1}, gtab := Table.put 0 [] 5 0x9800000000000400}), ⟨0,0,0,4,0⟩, by decide⟩,
   ⟨{ dm ({ bk_1 with act := 7, loops := [(0,⟨0xF0,0x200,4,0⟩),(1,⟨0xF0,0x104,4,5⟩),(2,⟨0xF0,0x104,4,5⟩)] }) (fun x => { x with sw := {x.sw with level := 5, mask := 6}, sets := [(5,{spc := 0x777, scx := 5, ssw := {world := true, priv := true, level := 3, mask := 4, slot := true, d := true}, tc := {clevel := 3, cmask := 5, cworld := true, cpriv := true}}),(6,{spc := 0x777, scx := 5, ssw := {world := true, priv := true, level := 3, mask := 4, slot := true, d := true}, tc := {clevel := 3, cmask := 5, cworld := true, cpriv := true, bank := 2}})]}) with evc := { src := [(0x300,{claim := some ⟨0,0,5⟩}),(0x301,{claim := some ⟨0,0,4⟩}),(0x302,{claim := some ⟨8,0,5⟩}),(0x303,{en:=true})] } }, ⟨0,0,0,0,0⟩, 1, by decide⟩⟩

theorem test_witness_Traps :
  (∃ (s : State) (f : RRR),
    let x := pilot s f.p
    issues s f.p 1 = true ∧ (pilot s f.p).mulq = [] ∧ untraced s = true ∧ (pilot s f.p).sw.guardMet f.g = true ∧
    (pilot s f.p).sw.mask < 5 ∧ isD f.d = true ∧ isD f.s = true ∧ isD f.t = true ∧ (x.reg f.s).tag = 1 ∧
    (x.reg f.t).tag = 0) ∧
  (∃ (s : State) (f : RRR),
    let x := pilot s f.p
    issues s f.p 1 = true ∧ (pilot s f.p).mulq = [] ∧ f.p < 127 ∧ f.d ≠ 0 ∧ 5 ≤ x.sw.mask ∧ x.sw.level ≠ 7) :=
  ⟨⟨dm bk_1 (fun x => { x with cx := 9, vbo := 7, vbs := 3, dmon := 2, sw := {x.sw with world := true, priv := true, level := 2, mask := 2}}), ⟨0,0,0,1,5⟩, by decide⟩,
   ⟨dm bk_1 (fun x => { x with cx := 9, vbo := 7, vbs := 3, dmon := 2, sw := {x.sw with world := true, priv := true, level := 5, mask := 5}}), ⟨0,0,1,1,5⟩, by decide⟩⟩

theorem test_witness_ContextSwitch :
  ∃ (s : State) (f : RRR) (w : Nat → TWord),
    let x := pilot s f.p
    let a := (x.reg f.s).val
    let k := (x.reg f.t).val.toNat % 16
    let b := x.bankOf k
    let at_ : Nat → W64 := fun j => addrAdd a (BitVec.ofNat 64 (8 * j))
    let dirty : Nat → Bool := fun j =>
      if j = 0 then true else if j < 17 then b.dirty.getLsbD 0 else if j < 33 then b.dirty.getLsbD 1
      else if j < 41 then b.dirty.getLsbD 2 else if j < 54 then b.dirty.getLsbD 3 else b.dirty.getLsbD 4
    let lv : Nat → BitVec 64 := fun i => ((b.loop i).lvl.setWidth 64) <<< (4 + 3 * i)
    let word : Nat → TWord := fun j =>
      if j = 0 then intW (b.dirty.setWidth 64)
      else if j < 33 then Table.get emptyW b.regs (j - 1)
      else if j < 41 then ⟨(b.xreg ((j - 33) / 2)).val.extractLsb' (64 * ((j - 33) % 2)) 64, (b.xreg ((j - 33) / 2)).tag⟩
      else if j < 45 then ⟨(b.loop (j - 41)).ls.setWidth 64, 5⟩
      else if j < 49 then ⟨(b.loop (j - 45)).le.setWidth 64, 5⟩
      else if j < 53 then ⟨(b.loop (j - 49)).lc.setWidth 64, 1⟩
      else if j = 53 then intW (b.act.setWidth 64 ||| lv 0 ||| lv 1 ||| lv 2 ||| lv 3)
      else if j = 54 then b.mh else b.ml
    ready s f.p 1 f.g = true ∧ unwatched (pilot s f.p) = true ∧ f.d = 0 ∧ isA f.s = true ∧ isD f.t = true ∧ k < 8 ∧
    k ≠ x.cur ∧ x.sw.priv = true ∧ x.sw.world = true ∧ (x.reg f.s).tag = 4 ∧ (x.reg f.t).tag = 1 ∧ a.toNat % 64 = 0 ∧
    aSpace a ≤ 1 ∧ ((∀ j, j < 56 → dirty j = true → storable s f.p true (at_ j) 8 = true ∧ (word j).tag.toNat < 10)) :=
  ⟨dm { bk_2 with dirty := 0 } (fun x => {x with banks := Table.put {} x.banks 3 { dirty := 0, regs := (demoBank [i 7, ds 9] [ad 5]).regs, x := [(1,⟨123456789012345678901234567890,1⟩)], loops := [(0,⟨4,8,9,1⟩),(3,⟨0x104,0x208,99,5⟩)], act := 9, mh := i 5, ml := i 6 } }), ⟨0,0,0,18,3⟩, (fun k => Table.get emptyW (dm {} id).cask (8+k)), by decide⟩

theorem test_witness_ControlRegisters :
  ∃ (s : State) (f : RRI) (v : TWord),
    let x := pilot s f.p
    let b := x.bankCur
    let n := f.imm.toNat
    ready s f.p 1 f.g = true ∧ isD f.d = true ∧ f.s = 0 ∧ x.sw.priv = true ∧ x.sw.world = true ∧ readableIn s f.p v = true ∧
    (n, v) ∈ [(0x000, intW ((x.sw.pack false).setWidth 64)), (0x001, intW x.cx), (0x002, intW (BitVec.ofNat 64 x.cur)),
      (0x004, b.rsp), (0x005, intW (BitVec.ofNat 64 b.rcache.length)), (0x006, b.dslim),
      (0x009, intW 31), (0x010, ⟨(b.loop 0).ls.setWidth 64, 5⟩), (0x017, ⟨(b.loop 3).le.setWidth 64, 5⟩),
      (0x019, intW ((b.loop 1).lc.setWidth 64)), (0x020, b.mh), (0x021, b.ml), (0x022, intW (BitVec.ofNat 64 f.p)),
      (0x100, intW (BitVec.ofNat 64 (2 * x.lw.toNat + 256 * x.dmon.toNat))),
      (0x101, ⟨BitVec.ofNat 64 (512 * x.vbo.toNat), 5⟩), (0x102, ⟨BitVec.ofNat 64 (512 * x.vbs.toNat), 5⟩),
      (0x103, intW (x.cseal.setWidth 64)), (0x104, intW b.glnk.pack), (0x105, intW (BitVec.ofNat 64
    (b.rcache.length + b.spilled))),
      (0x111, ⟨(x.setOf 1).spc.setWidth 64, 5⟩), (0x117, ⟨(x.setOf 7).spc.setWidth 64, 5⟩),
      (0x11D, intW (((x.setOf 5).ssw.pack false).setWidth 64)), (0x125, intW (x.setOf 5).scx),
      (0x12D, intW (x.setOf 5).tc.pack), (0x135, intW (x.setOf 5).tv), (0x140, intW (Table.get 0 x.gtab 0)),
      (0x17F, intW (Table.get 0 x.gtab 63)), (0x203, intW (x.pickst.setWidth 64)), (0x300, ⟨s.tide.count, 7⟩),
      (0x301, intW (x.wdper.setWidth 64)), (0x302, intW (x.wdcnt.setWidth 64)),
      (0x400, intW x.win.count), (0x401, intW (BitVec.ofNat 64 (65536 * x.ckMism.toNat + x.ckOk.toNat))), (0x402, intW
    (x.subinfo.setWidth 64)),
      (0x501, ⟨x.dbg.dwaddr, 4⟩), (0x508, intW (Table.get 0 x.dbg.bpc 0)), (0x511, ⟨Table.get 0 x.dbg.wpa 1, 4⟩),
      (0x51B, intW (Table.get 0 x.dbg.wpc 3)), (0x202, intW 0), (0x303, intW 0), (0x520, intW 0)] :=
  ⟨dm { bk_1 with rsp := ad 32, dslim := ad 64, mh := i 5, ml := i 6, rcache := [4,8], spilled := 3, loops := [(0,⟨4,8,9,1⟩),(1,⟨4,8,7,1⟩),(3,⟨0x104,0x208,99,5⟩)], glnk := ⟨true,3,2,true,0x333⟩ } (fun x => {x with cx := 5, lw := 0x2a, dmon := 3, vbo := 5, vbs := 0x1ff, cseal := 33, sets := [(1,{spc := 5}),(5,{spc := 6, scx := 8, tv := 99, ssw := {level:=3,slot:=true,d:=true}, tc := {esc:=true,clevel:=3,code:=7,src:=0x55}}),(7,{spc := 0x3ffff})], gtab := [(0,5),(63,8)], pickst := 0x1abcd, wdper := 0x12345, wdcnt := 0x77777777, ckMism := 3, ckOk := 9, subinfo := 0x33, dbg := {dwaddr := 77, bpc := [(0,4)], wpa := [(1,6)], wpc := [(3,0)]} }), ⟨0,0,1,0,0⟩, crRead (dm { bk_1 with rsp := ad 32, dslim := ad 64, mh := i 5, ml := i 6, rcache := [4,8], spilled := 3, loops := [(0,⟨4,8,9,1⟩),(1,⟨4,8,7,1⟩),(3,⟨0x104,0x208,99,5⟩)], glnk := ⟨true,3,2,true,0x333⟩ } (fun x => {x with cx := 5, lw := 0x2a, dmon := 3, vbo := 5, vbs := 0x1ff, cseal := 33, sets := [(1,{spc := 5}),(5,{spc := 6, scx := 8, tv := 99, ssw := {level:=3,slot:=true,d:=true}, tc := {esc:=true,clevel:=3,code:=7,src:=0x55}}),(7,{spc := 0x3ffff})], gtab := [(0,5),(63,8)], pickst := 0x1abcd, wdper := 0x12345, wdcnt := 0x77777777, ckMism := 3, ckOk := 9, subinfo := 0x33, dbg := {dwaddr := 77, bpc := [(0,4)], wpa := [(1,6)], wpc := [(3,0)]} })) 0 0, by decide⟩

theorem test_witness_BlockMoveAndSearch :
  (∃ (s : State) (f : RRR),
    let x := pilot s f.p
    let src := (x.reg f.s).val
    let dst := (x.reg f.d).val
    let n := (x.reg f.t).val.toNat % 2 ^ 20
    let at_ : W64 → Nat → W64 := fun a i => addrAdd a (BitVec.ofNat 64 (8 * i))
    let move : Nat → State := fun m =>
      (List.range m).foldl (fun u i => putWord u f.p (at_ dst i) (memWord u f.p true (at_ src i) 8)) s
    ready s f.p 1 f.g = true ∧ unwatched (pilot s f.p) = true ∧ isA f.d = true ∧ isA f.s = true ∧ isD f.t = true ∧ x.cx = 0 ∧
    x.sw.world = true ∧ (x.reg f.s).tag = 4 ∧ (x.reg f.t).tag = 1 ∧ (x.reg f.d).tag = 4 ∧ src.toNat % 8 = 0 ∧
    dst.toNat % 8 = 0 ∧ aSpace src ≤ 1 ∧ aSpace dst ≤ 1 ∧ ((∀ i, i < n → loadable s f.p true (at_ src i) 8 = true ∧
    storable s f.p true (at_ dst i) 8 = true ∧
      (memWord (move i) f.p true (at_ src i) 8).tag.toNat < 10))) ∧
  (∃ (s : State) (f : RRR) (m : Nat),
    let x := pilot s f.p
    let a := (x.reg f.s).val
    let v := (x.reg f.t).val.toNat
    let key := v / 2 ^ 48
    let n := v / 2 ^ 32 % 2 ^ 16
    let off := v / 2 ^ 20 % 2 ^ 12
    let len := v / 2 ^ 13 % 2 ^ 7
    let size := if v / 2 ^ 12 % 2 = 1 then 4096 else 512
    let block : Nat → List Byte := fun i => getStage s (aOff a + size * i + off) len
    ready s f.p 1 f.g = true ∧ unwatched (pilot s f.p) = true ∧ isD f.d = true ∧ isA f.s = true ∧ isD f.t = true ∧ x.cx = 0 ∧
    x.sw.world = true ∧ (x.reg f.s).tag = 4 ∧ (x.reg f.t).tag = 1 ∧ aSpace a = 3 ∧ a.toNat % size = 0 ∧ v % 2 ^ 12 = 0 ∧
    0 < len ∧ len ≤ 64 ∧ 0 < n ∧ off + len ≤ size ∧ key + len ≤ 65536 ∧ aOff a + size * n ≤ 2 ^ 44 ∧ ((∀ i, i ≤
    (key + len - 1) / 8 → key / 8 ≤ i → 1 ≤ (caskWord s f.p i).tag.toNat ∧ (caskWord s f.p i).tag.toNat < 10)) ∧ ((∀ i,
    i < n → (bayOf s ((aOff a + size * i) / 4096)).bound = true)) ∧ m ≤ n ∧ ((∀ i,
    i < m → block i ≠ caskBytes s f.p key len)) ∧ ((m < n → block m = caskBytes s f.p key len))) :=
  ⟨⟨dm (demoBank [i 3, i 0] [ad 0, ad 256]) id, ⟨0,0,17,16,1⟩, by decide⟩,
   ⟨kk 4294975488, ⟨0,0,2,16,1⟩, 0, by decide⟩⟩

theorem test_witness_CustomRoutines :
  ∃ (s : State) (f : RRR) (k : BitVec 2) (fn : BitVec 7),
    let x := pilot s f.p
    let bank := vbankOf s (clusterOf f.p) (decide (x.src = 2))
    let w := Table.get 0 bank.micro (0x3000 + 256 * k.toNat + 2 * fn.toNat)
    let n := Table.get 0 bank.nano (uNano w)
    issues s f.p 1 = true ∧ (pilot s f.p).mulq = [] ∧ f.p < 127 ∧ (x.src = 1 ∨ x.src = 2) ∧ x.sw.guardMet f.g = true ∧
    nTrap n = false ∧ uSeq w = 4 ∧ n.getLsbD 82 = false ∧ nMsrc n = 0x3F ∧ nUnit n = 0 ∧ nUop n = 0 ∧ nAsrc n = 0 ∧
    nBsrc n = 1 ∧ nDst n = 2 ∧ nTchk n = 1 ∧ nTres n = 0 ∧ (x.reg f.s).tag = 1 ∧ (x.reg f.t).tag = 1 ∧ uCsel w = 0 ∧
    uCw w = false ∧ x.win.ops < 15 ∧ x.win.bad = false :=
  ⟨vs (dm bk_3 (fun x => {x with src := 1, sw := {x.sw with mask := 0, c := true}})), ⟨0,0,0,0,1⟩, 2, 3, by decide⟩

theorem test_witness_Events :
  (∃ (s : State) (f : CRF) (k : Nat),
    let u := atEffect s f.p 1
    ready s f.p 1 f.g = true ∧ isD f.d = true ∧ f.s = 0 ∧ (pilot s f.p).sw.priv = true ∧ ((∀ e,
    e ∈ s.pilots → e.2.waiting = false)) ∧ presented u f.p = some (k, 0) ∧ k < 4096 ∧ isLevelSrc k = false) ∧
  (∃ (s : State) (f : CRF),
    let x := pilot s f.p
    ready s f.p 1 f.g = true ∧ f.d = 0 ∧ (pilot s f.p).sw.priv = true ∧ (x.reg f.s).tag = 1) ∧
  (∃ (s : State) (f : CRF) (r : RelW) (rs : List RelW),
    ready s f.p 1 f.g = true ∧ isD f.d = true ∧ f.s = 0 ∧ (pilot s f.p).sw.priv = true ∧ s.evc.relq = r :: rs) ∧
  (∃ (s : State) (n : Nat),
    let x := srcOf s n
    isEdgeSrc s n = true ∧ countersOf s n = [] ∧ (s.fstop = false ∨ hasLatch n = false) ∧ x.en = true ∧ x.pend = false ∧
    hasTarget s n = true) ∧
  (∃ (s : State) (v : W32),
    128 ≤ v.toNat % 4096 ∧ v.toNat % 4096 < 256) ∧
  (∃ (s : State) (n : Nat) (v : Bool),
    isLevelSrc n = true ∧ srcIn s n = v ∧ countersOf s n = [] ∧ ((srcOf s n).en = false ∨
    (srcOf s n).claim.isSome = true ∨ v = false ∨ hasTarget s n = true)) ∧
  (∃ (s : State) (n : Nat),
    pendOf s n = true ∧ hasTarget s n = false) ∧
  (∃ (s : State) (n : Nat) (v : W64),
    let x : Src := { srcOf s n with level := v.extractLsb' 59 3, tset := v.extractLsb' 52 6, vec := v.extractLsb' 2 16 }
    srcExists s n = true ∧ n ≠ 0xFFF ∧ ((∀ e, e ∈ s.pilots → e.2.waiting = false)) ∧ v.getLsbD 63 = true ∧
    ((isLevelSrc n = true → x.claim.isSome = true ∨ srcIn s n = false)) ∧ ((isLevelSrc n = false → x.pend = false))) ∧
  (∃ (s : State) (n : Nat),
    srcExists s n = true ∧ pendOf s n = true ∧ hasTarget s n = true ∧ eligible s n 127 = false ∧ s.blk.mode = 4 ∧
    s.pwr.waking = false) ∧
  (∃ (s : State) (p : Nat) (n : Nat) (l : BitVec 3),
    let x := pilot s p
    let clean := x.win.ck = none ∨ (x.armed = false ∧ x.win.agrees = true)
    pilotExists s p = true ∧ p ≠ 127 ∧ untraced s = true ∧ s.blk.mode ≠ 4 ∧ x.inReset = false ∧ x.role = .active ∧
    x.mulq = [] ∧ ((∀ e, e ∈ s.pilots → e.2.waiting = false)) ∧ 1 ≤ l ∧ l ≤ 6 ∧ x.sw.mask < l ∧
    (x.sw.world = false ∨ x.lw.getLsbD (l.toNat - 1) = true) ∧ x.frozen = false ∧ clean ∧ presented s p = some (n, l) ∧
    n < 4096 ∧ isLevelSrc n = true) :=
  ⟨⟨evs (dm bk_3 id) 128 {en:=true,pend:=true,inp:=true}, ⟨0,0,3,0⟩, 128, by decide⟩,
   ⟨evs (dm bk_3 id) 128 {en:=true,pend:=true,inp:=true}, ⟨0,0,0,0⟩, by decide⟩,
   ⟨evs (dm bk_3 id) 128 {en:=true,pend:=true,inp:=true}, ⟨0,0,3,0⟩, ⟨3,2,0x55⟩, [⟨4,1,1⟩], by decide⟩,
   ⟨{ evs_1 D 128 {en:=true,vec:=3} 1 with fstop := false }, 128, by decide⟩,
   ⟨{ evs_1 D 128 {} 2 with fstop := true }, 0x80, by decide⟩,
   ⟨{ evs_1 D 1 {} 1 with recq := [] }, 1, false, by decide⟩,
   ⟨{ evs_1 D 128 {en:=true,pend:=true} 0 with fstop := false }, 128, by decide⟩,
   ⟨{ evs_1 D 128 {} 1 with fstop := false }, 128, 0x8000000000000000, by decide⟩,
   ⟨{ { evs_1 D 128 {en:=true,pend:=true} 1 with fstop := false } with blk := {mode := 4} }, 128, by decide⟩,
   ⟨{ evs_1 (dm_3 bk_3 (fun x => {x with lw := 63, vbo := 5, sw := {x.sw with mask := 0, level := 0, world := true}})) 1 {en:=true,vec:=0x123,level:=1,pend:=false} 1 with recq := [5] }, 0, 1, 1, by decide⟩⟩

theorem test_witness_Timers :
  (∃ (s : State) (b : Nat) (rq : Requester) (v : W32),
    let x := bellOf s b
    b < 256 ∧ x.en = true ∧ x.mode = false ∧ x.armed = true) ∧
  (∃ (s : State) (k : Nat),
    let x := ecntOf s k
    k < 64 ∧ (x.kind = 2 ∨ x.kind = 3) ∧ countersOf s (64 + k) = [] ∧ k < 63 ∧ (ecntOf s (k + 1)).kind = 4 ∧ (ecntOf s
    (k + 1)).val ≠ 0xFFFFFFFF) ∧
  (∃ (s : State) (p : Nat),
    let x := pilot s p
    pilotExists s p = true ∧ p ≠ 127 ∧ untraced s = true ∧ wdFrozen s p = false ∧ x.role = .active ∧ x.mulq = [] ∧
    s.blk.mode ≠ 4 ∧ x.strike = true ∧ x.sw.level ≠ 7) ∧
  (∃ (s : State) (v : W32),
    v ≠ 0xA55A ∧ v ≠ 0x5AA5) ∧
  (∃ (s : State),
    s.boot.porHeld = false ∧ s.blk.mode ≠ 4 ∧ (pilot s 127).sw.level ≠ (pilot s 127).dmon ∧ s.bwd.stage = 0 ∧
    (s.blk.mode = 6 ∨ s.blk.mode = 7)) :=
  ⟨⟨{ D with bells := Table.put {} [] 3 {en:=true,armed:=true,plate:=true,late:=true,cmp:=0xfffffff0}, tide := {count := 0} }, 3, .hm, 0, by decide⟩,
   ⟨{ evs_1 D 64 {en:=true} 1 with ecnt := Table.put {} (Table.put {} [] 0 {kind:=2,src:=8,val:=5}) 1 {kind:=4,src:=0,val:=0} }, 0, by decide⟩,
   ⟨(dm_3 bk_3 (fun x => {x with strike := true, wdper := 0x5555, dmon := 2, sw := {x.sw with level := 0, mask := 0, world := true}})), 0, by decide⟩,
   ⟨{ D with bwd := {half := true, bad := 0xffffffff, cnt := 5, period := 99} }, 0, by decide⟩,
   ⟨{ D with boot := {porHeld := false}, bwd := {stage := 0}, blk := {mode := 6} }, by decide⟩⟩

theorem test_witness_RingPages :
  (∃ (s : State) (w : PageWrite),
    let n := w.ring
    let r := ring s n
    let v : BitVec 16 := w.data.setWidth 16
    let sd := 2 ^ r.sqlog.toNat
    let mod : Nat → BitVec 16 → BitVec 16 → Nat := fun d a b => (a.toNat + d - b.toNat % d) % d
    let l := r.stamps.take 3
    let t := r.stamps.getLastD ⟨0,0,false,false⟩
    Sound s = true ∧ pageOpen s w = true ∧ v.toNat < sd ∧ mod sd r.tail r.cons ≤ mod sd v r.cons ∧ v ≠ r.tail ∧
    r.stamps = l ++ [t] ∧ l.length = 3) ∧
  (∃ (s : State) (w : PageWrite) (i : Nat),
    let n := w.ring
    let tag : BitVec 16 := w.data.setWidth 16
    let e := own s i
    let x := xctx s i
    Sound s = true ∧ pageOpen s w = true ∧ s.evc.relq.length < 1024 ∧ releaseTarget s n tag = some i ∧
    w.data.extractLsb' 30 2 = 2 ∧ x.ended = false ∧ e.st.toNat < 4 ∧ (e.fenced = false ∨ e.fseq = 0) ∧ e.held = false ∧
    (x.cur ≠ none ∨ x.heldWait = true)) :=
  ⟨⟨rg {R0 with stamps := [⟨1,1,false,false⟩,⟨2,2,false,false⟩,⟨3,3,false,false⟩,⟨4,4,true,true⟩], tail := 4}, ⟨1,5,15,5⟩,
    by decide⟩,
   ⟨rgs R0 {st:=3,ring:=5,xtag:=0x77,held:=false,fenced:=true,fseq:=0} {cur := some {}}, ⟨1,5,15,2147483767⟩, 9, by decide⟩⟩

theorem test_witness_RingsAndRecords :
  (∃ (s : State) (n : Nat) (v : W32),
    let r := ring s n
    let q := { r with
      pause := v.getLsbD 30, lport := v.extractLsb' 25 2, sqlog := v.extractLsb' 20 5, cqlog := v.extractLsb' 15 5
      group := v.extractLsb' 0 12 }
    let ok := 4 ≤ q.sqlog.toNat ∧ q.sqlog.toNat ≤ 16 ∧ 4 ≤ q.cqlog.toNat ∧ q.cqlog.toNat ≤ 16 ∧ r.credit ≠ 0 ∧
      r.credit.toNat ≤ 2 ^ q.cqlog.toNat - 1 ∧ q.lport.toNat < s.blk.build.ports ∧ r.outst = 0 ∧ r.decw = 0
    n < s.blk.build.rings ∧ twinSends s = false ∧ isAdoption s n = false ∧ s.pick ≠ some n ∧ s.blk.mode ≠ 5 ∧
    s.hbr.tstate ≠ 5 ∧ r.en = false ∧ v.getLsbD 31 = true ∧ ok) ∧
  (∃ (s : State) (n : Nat),
    let r := ring s n
    let d := r.decls.headD ⟨1,2,3,4,true,5,false⟩
    let ds := r.decls.tail
    Sound s = true ∧ canWrite s n = true ∧ twinSends s = false ∧ s.blk.mode ≠ 5 ∧ s.hbr.tstate ≠ 5 ∧ r.ven = false ∧
    payloadWaits s r.lport.toNat = false ∧ r.decls = d :: ds ∧ r.slots = [] ∧ r.postWait = [] ∧ r.slotNext = r.cqtail ∧
    r.outst = 0 ∧ notAdopted s n = false) ∧
  (∃ (s : State) (i : Nat) (k : BitVec 16),
    let e := own s i
    let n := ringOfEntry s e
    let r := ring s n
    Sound s = true ∧ canWrite s n = false ∧ s.blk.mode ≠ 5 ∧ s.hbr.tstate ≠ 5 ∧ i ∈ r.helds ∧ freeSlot s n false = some k) ∧
  (∃ (s : State) (n : Nat),
    let r := ring s n
    r.since ≠ 0 ∧ r.holdoff ≠ 0 ∧ r.ven = true ∧ r.mask = true) ∧
  (∃ (s : State) (i : Nat),
    (own s i).held = true ∧ (xctx s i).ended = false) :=
  ⟨⟨rg {R0 with en := false}, 5, 0xc442004d, by decide⟩,
   ⟨rg {R0 with cqtail := 3, slotNext := 3, cqhead := 0, decw := 2, decls := [⟨1,2,3,4,true,5,false⟩,⟨1,2,3,4,true,5,false⟩]}, 5, by decide⟩,
   ⟨{rgs {R0 with cqtail := 0, slotNext := 0, helds := [4,9,9]} {st:=3,ring:=5,xtag:=0x77,status := 3,pos := 9} {} with hbr := {tstate := 3} }, 9, 0, by decide⟩,
   ⟨rg {R0 with ven := true, since := 1, holdoff := 3, mask := true}, 5, by decide⟩,
   ⟨rgs R0 {st:=3,ring:=5,xtag:=0x77,held:=true,fenced:=true,fseq:=0} {}, 9, by decide⟩⟩

theorem test_witness_Admission :
  (∃ (s : State) (n : Nat) (m : Stamp) (l : List Stamp),
    let r := ring s n
    r.next ≠ r.tail ∧ r.ddl ≠ 0 ∧ r.stamps = m :: l ∧ r.sdiff r.next r.cons < r.sdiff m.tail r.cons ∧ m ∉ l ∧
    (100 * r.ddl.toNat ≤ (s.tide.count.setWidth 32 - m.tick).toNat ∨ m.aged = true)) ∧
  (∃ (s : State) (n : Nat),
    (s.blk.mode = 3 ∨ s.blk.mode = 5) ∧ s.pick = none ∧ selectRing s = some n) ∧
  (∃ (s : State) (n : Nat),
    Sound s = true ∧ selectRing s = some n) ∧
  (∃ (s : State) (f : RRR) (n : Nat),
    let x := pilot s f.p
    let a := (x.reg f.s).val
    let r := ring s n
    let k := Nat.min (r.weight.toNat + 1) (r.sdiff r.tail r.next)
    ready s f.p 1 f.g = true ∧ isD f.d = true ∧ isA f.s = true ∧ f.t = 0 ∧ x.sw.priv = true ∧ (x.reg f.s).tag = 4 ∧
    a.toNat % 64 = 0 ∧ a.toNat + 64 * k ≤ 65536 ∧ a.toNat < 65536 ∧ s.pick = some n ∧ r.next.toNat + k ≤ 2 ^ r.sqlog.toNat) ∧
  (∃ (s : State) (p : Nat) (rd : PickRd) (data : List W64),
    (pilot s p).pickrd = some rd ∧ data.length = 8 * rd.n) ∧
  (∃ (s : State) (f : RRR),
    let x := pilot s f.p
    let v := (x.reg f.s).val
    let n := v.toNat % 65536
    let r := ring s n
    ready s f.p 1 f.g = true ∧ isD f.s = true ∧ f.d = 0 ∧ f.t = 0 ∧ x.sw.priv = true ∧ (x.reg f.s).tag = 1 ∧ r.turn = none) :=
  ⟨⟨rg {R0 with ddl := 4, tail := 5, next := 2, stamps := [⟨1,4,false,false⟩,⟨9,5,false,false⟩]}, 5, ⟨1,4,false,false⟩,
    [⟨9,5,false,false⟩], by decide⟩,
   ⟨{ setRing (rg {R0 with tail := 5, next := 2, stamps := [⟨1,4,false,false⟩,⟨9,5,false,false⟩]}) 3 {R0 with tail := 5, next := 2, stamps := [⟨9,4,false,false⟩,⟨9,5,false,false⟩]} with blk := {mode := 3} }, 5, by decide⟩,
   ⟨{ setRing (rg {R0 with tail := 5, next := 2, stamps := [⟨1,4,false,false⟩,⟨9,5,false,false⟩]}) 3 {R0 with tail := 5, next := 2, stamps := [⟨9,4,false,false⟩,⟨9,5,false,false⟩]} with blk := {mode := 3} }, 5, by decide⟩,
   ⟨{ rg R0 with pick := some 5 }, ⟨0,0,3,18,0⟩, 5, by decide⟩,
   ⟨setPilot (rg R0) 0 { pilot (rg R0) 0 with pickrd := some ⟨5,2,2,128⟩ }, 0, ⟨5,2,2,128⟩, (List.range 16).map
    (BitVec.ofNat 64), by decide⟩,
   ⟨rg {R0 with turn := none}, ⟨0,0,0,2,0⟩, by decide⟩⟩

theorem test_witness_AllocationAndScan :
  (∃ (s : State) (f : RRR) (i : Nat),
    let x := pilot s f.p
    let d := (x.reg f.s).val
    let prog := (x.reg f.t).val
    let n := d.toNat / 2 ^ 48
    let slot : BitVec 16 := d.extractLsb' 32 16
    let b : BitVec 16 := d.extractLsb' 16 16
    let r := ring s n
    let general := s.wm.toNat < gfree s
    let held := heldCount s ⟨f.p, x.cur, x.sw.world⟩
    ready s f.p 1 f.g = true ∧ (pilot s f.p).sw.priv = true ∧ solo s = true ∧ isD f.d = true ∧ isD f.s = true ∧ findFree s 3
    ((Config.freeWord s.freeCtr).toNat % s.blk.build.entries) = some i ∧ held < 8 ∧ isD f.t = true ∧ (x.reg f.s).tag = 1 ∧
    (x.reg f.t).tag = 4 ∧ isAdoption s n = false ∧ prog.toNat % 16 = 0 ∧ admits s n = true ∧ s.hbr.role ≠ 1 ∧ r.next = slot ∧
    r.next ≠ r.tail ∧ r.disp = [] ∧ (reserveOpen s b.toNat = true ∨ general) ∧ Sound s = true) ∧
  (∃ (s : State) (f : RRR),
    let x := pilot s f.p
    let d := (x.reg f.d).val
    let q := (x.reg f.t).val
    let a := (x.reg f.s).val.toNat
    let lim := d.toNat % 16384
    ready s f.p 1 f.g = true ∧ unwatched (pilot s f.p) = true ∧ isD f.d = true ∧ isA f.s = true ∧ isD f.t = true ∧
    x.sw.priv = true ∧ x.cx = 0 ∧ (x.reg f.s).tag = 4 ∧ (x.reg f.t).tag = 1 ∧ (x.reg f.d).tag = 1 ∧ q.extractLsb' 48 4 = 0 ∧
    q.extractLsb' 0 16 = 0 ∧ q.getLsbD 63 = false ∧ 0 < lim ∧ lim ≤ 8192 ∧ a % 8 = 0 ∧ a + 8 * lim ≤ 65536) ∧
  (∃ (s : State) (f : RRR),
    let i := wantI s
    let j := (s.mirror.headD (0,⟨0,0,0,0⟩)).1
    let m := (s.mirror.headD (0,⟨0,0,0,0⟩)).2
    ready s f.p 1 f.g = true ∧ isD f.d = true ∧ f.s = 0 ∧ f.t = 0 ∧ (pilot s f.p).sw.priv = true ∧
    (pilot s f.p).sw.world = true ∧ s.mirror = [(j, m)] ∧ (m.m0.extractLsb' 61 3 : BitVec 3) = 1 ∧ gfree s ≠ 0 ∧
    findFree s s.blk.build.entries ((Config.freeWord s.freeCtr).toNat % s.blk.build.entries) = some i) ∧
  (∃ (s : State) (j : Nat),
    s.tw.glean = some j ∧ s.hbr.poolw = true ∧ 0 < gfree s ∧ s.mirror.all (fun e => decide (e.1 < j)) = true) ∧
  (∃ (s : State),
    s.tw.glean = some s.blk.build.entries ∧ s.hbr.poolw = false ∧ s.hbr.tstate ≠ 5 ∧ s.blk.mode ≠ 5) :=
  ⟨⟨({ setRing (dm_4 (bkd [⟨BitVec.ofNat 64 (5*2^48+2*2^32+3*2^16+77),1⟩, ad 256]) (fun x => {x with sw := {x.sw with world := true}})) 5 {R0_1 with next := 2, tail := 3, cons := 2} with wm := 100, sres := 1, berths := [(3,{resv := 1})] }), ⟨0,0,4,0,1⟩, (wantI ({ setRing (dm_4 (bkd [⟨BitVec.ofNat 64 (5*2^48+2*2^32+3*2^16+77),1⟩, ad 256]) (fun x => {x with sw := {x.sw with world := true}})) 5 {R0_1 with next := 2, tail := 3, cons := 2} with wm := 100, sres := 1, berths := [(3,{resv := 1})] })), (by first | decide | rfl), (by first | decide | rfl), (by first | decide | rfl), (by first | decide | rfl), (by first | decide | rfl), (by first | decide | rfl), (by first | decide | rfl), (by first | decide | rfl), (by first | decide | rfl), (by first | decide | rfl), (by first | decide | rfl), (by first | decide | rfl), (by first | decide | rfl), (by first | decide | rfl), (by first | decide | rfl), (by first | decide | rfl), (by first | decide | rfl), (by first | decide | rfl), (by first | decide | rfl)⟩,
   ⟨{ dm_5 [i 2, i 9079256848778919936] [ad 64] id with own := [(3,{st:=1,gen:=4,ring:=5,berth:=8}),(8,{st:=5,gen:=4,ring:=5,berth:=7,rb:=true}),(9,{st:=3,gen:=4,ring:=6,berth:=8,fenced:=true})] }, ⟨0,0,0,16,1⟩, by decide⟩,
   ⟨{ dm_5 [i 2,i 0] [] id with hbr := {num:=7,poolw:=true,gleaned:=5}, mirror := [(4,⟨1*2^61+99,0x1122334455667788,0x1230,5⟩)] }, ⟨0,0,2,0,0⟩, (by first | decide | rfl), (by first | decide | rfl), (by first | decide | rfl), (by first | decide | rfl), (by first | decide | rfl), (by first | decide | rfl), (by first | decide | rfl), (by first | decide | rfl), (by first | decide | rfl), (by first | decide | rfl)⟩,
   ⟨{ dm_5 [] [] id with hbr := {num:=7,poolw:=true,tstate:=0}, mirror := [], tw := {glean := some 0} }, 0, by decide⟩,
   ⟨{ dm_5 [] [] id with hbr := {num:=7,poolw:=false,tstate:=0}, mirror := [], tw := {glean := some 524288} }, by decide⟩⟩

theorem test_witness_Manifest :
  (∃ (s : State) (f : RRR) (i : Nat) (z : Own) (w : TWord),
    let x := pilot s f.p
    let e := own s i
    let h := x.reg f.s
    ready s f.p 1 f.g = true ∧ (pilot s f.p).sw.priv = true ∧ (pilot s f.p).sw.world = true ∧ isD f.d = true ∧
    isD f.s = true ∧ h.tag = 6 ∧ h.val.extractLsb' 48 16 = s.hbr.num ∧ h.val.extractLsb' 29 19 = BitVec.ofNat 19 i ∧
    i < s.blk.build.entries ∧ h.val.setWidth 29 ≠ e.gen) ∧
  (∃ (s : State) (f : RRR) (i : Nat) (k : BitVec 16),
    let e := own s i
    ready s f.p 1 f.g = true ∧ (pilot s f.p).sw.priv = true ∧ solo s = true ∧ isD f.d = true ∧ isD f.s = true ∧ names s
    ((pilot s f.p).reg f.s) i = true ∧ heldHere s f.p e.moor = true ∧ e.srv = false ∧ frozen s = false ∧ e.st = 2 ∧ f.t = 3 ∧
    e.fenced = true ∧ e.fseq ≠ 0 ∧ e.fs = false ∧ flogWritten s i = true ∧ e.ackp = false) ∧
  (∃ (s : State) (f : RRR),
    let x := pilot s f.p
    let d := (x.reg f.s).val
    let n := d.toNat / 2 ^ 48
    let slot : BitVec 16 := d.extractLsb' 32 16
    let r := ring s n
    let wc : BitVec 3 := (x.reg f.t).val.setWidth 3
    ready s f.p 1 f.g = true ∧ (pilot s f.p).sw.priv = true ∧ solo s = true ∧ isD f.d = true ∧ isD f.s = true ∧
    isD f.t = true ∧ (x.reg f.s).tag = 1 ∧ (x.reg f.t).tag = 1 ∧ (wc = 2 ∨ wc = 3) ∧ admits s n = true ∧ r.next ≠ slot) :=
  ⟨⟨(setOwn (setRing (dm_4 (bkd [hd 7 21 8, i 0, i 0]) id) 5 R0_1) 21 {st:=3,gen:=9,ring:=5,xtag:=4,lmp:=3,ackp:=false,fenced:=true,held:=true,dsv:=true,dstat:=5,status:=3,cid:=6,dq:=65535,wait:=8,fseq:=77,pos:=99,xfer:=33,residHeld:=44,path:=2,lastw:=11,curw:=12,prog:=13,moor := {mst:=1,owner:=0,bank:=0,world:=true,lease:=5}}), ⟨0,0,2,0,0⟩, 21, {}, i 0, by decide⟩,
   ⟨(setXctx (setOwn (setRing (dm_4 (bkd [hd 7 21 9, i 0,
    i 0]) id) 5 R0_1) 21 {st:=2,gen:=9,ring:=5,xtag:=4,lmp:=1,ackp:=false,fenced:=true,held:=true,dsv:=true,dstat:=5,status:=3,cid:=6,dq:=65535,wait:=8,fseq:=77,pos:=99,xfer:=33,residHeld:=44,path:=2,lastw:=11,curw:=12,prog:=13,moor := {mst:=1,owner:=0,bank:=0,world:=true,lease:=5}}) 21 {active:=true,cur:=some {flogged:=true}}), ⟨0,0,2,0,3⟩, 21, 0, by decide⟩,
   ⟨setRing (dm_4 (bkd [⟨BitVec.ofNat 64 (5*2^48+2*2^32+3*2^16+77),1⟩, i 2, i 3]) id) 5 {R0_1 with next := 0, tail := 3},
    ⟨0,0,2,0,1⟩, by decide⟩⟩

theorem test_witness_Moorings :
  (∃ (s : State) (f : RRR) (n : Nat),
    let x := pilot s f.p
    let m := aloneMoor s n
    ready s f.p 1 f.g = true ∧ (pilot s f.p).sw.priv = true ∧ f.t = 0 ∧ isD f.s = true ∧ n < 4096 ∧ (x.reg f.s).tag = 1 ∧
    (x.reg f.s).val.toNat = n ∧ isD f.d = true ∧ m.mst = 0 ∧ heldCount s ⟨f.p, x.cur, x.sw.world⟩ < 8) ∧
  (∃ (s : State) (f : RRR) (n : Nat),
    let x := pilot s f.p
    ready s f.p 1 f.g = true ∧ (pilot s f.p).sw.priv = true ∧ f.d = 0 ∧ isD f.s = true ∧ isD f.t = true ∧ n < 4096 ∧
    (x.reg f.s).tag = 1 ∧ (x.reg f.s).val.toNat = n ∧ (x.reg f.t).tag = 1 ∧ heldHere s f.p (aloneMoor s n) = true) ∧
  (∃ (s : State) (f : RRR),
    ready s f.p 1 f.g = true ∧ (pilot s f.p).sw.priv = true ∧ isD f.d = true ∧ f.s = 0 ∧ f.t = 0 ∧ s.recq = []) ∧
  (∃ (s : State) (n : Nat),
    let m := aloneMoor s n
    n < 4096 ∧ m.mst = 1 ∧ (pilot s m.owner.toNat).dbg.deferred = none) ∧
  (∃ (s : State) (i : Nat),
    let e := own s i
    let st : BitVec 3 := if e.lmp = 0 then 1 else e.lmp
    e.moor.mst = 3 ∧ e.ackp = false ∧ (e.st ≠ 3 ∨ st = 3) ∧ st = 1 ∧ s.dcmds = [] ∧ (xctx s i).active = true) :=
  ⟨⟨setAloneMoor (dm_4 (bkd [i 33]) (fun x => {x with sw := {x.sw with brk := true}})) 33 {}, ⟨0,0,0,0,0⟩, 33, by decide⟩,
   ⟨setAloneMoor (dm_4 (bkd [i 33]) (fun x => {x with sw := {x.sw with brk := true}})) 33 {mst:=1,owner:=0,bank:=0,world:=true,lease:=4,note:=6}, ⟨0,0,0,0,0⟩, 33, by decide⟩,
   ⟨{ dm_4 (bkd [i 33]) id with recq := [] }, ⟨0,0,2,0,0⟩, by decide⟩,
   ⟨setAloneMoor (dm_4 (bkd [i 33]) (fun x => {x with sw := {x.sw with brk := true}})) 33 {mst:=1,owner:=0,bank:=0,world:=true,lease:=4,note:=6}, 33, by decide⟩,
   ⟨setXctx (setOwn (dm_4 (bkd [i 33]) id) 21 {st:=1,gen:=9,lmp:=0,ackp:=false,held:=true,prog:=5,curw:=7,pos:=9,status:=3,moor := {mst:=3,owner:=0x7e,rep:=0x80c0000000000000}}) 21 {active:=true,seq:=5}, 21, by decide⟩⟩

theorem test_witness_TwinMessages :
  ∃ (s : State) (h : Hdr) (p : Nat),
    let x := pathOf s p
    let v : MUnit := s.tw.maw.headD ⟨0,0,0,0,0,0,0,0⟩
    let i := 21
    Sound s = true ∧ inTurn s h 5 p = true ∧ x.state = 2 ∧ isTwinPath s p = true ∧ s.hbr.tstate = 2 ∧ s.tw.maw = [v] ∧
    s.tw.mq = [] ∧ s.tw.fillTo = none ∧ v.index.toNat = i ∧ v.rtype = 0 ∧ (v.m0.extractLsb' 61 3 : BitVec 3) = 3 ∧
    (v.m0.extractLsb' 32 29 : BitVec 29) = (own s i).gen ∧ (own s i).ackp = true ∧ s.tw.hold = [] :=
  ⟨{W with tw := {W.tw with maw := [⟨77,0,21,0,3*2^61+9*2^32,0,0,0⟩]}}, hd_1 4 1, 2, by decide⟩

theorem test_witness_RemoteCommands :
  (∃ (s : State) (h : Hdr) (p : Nat),
    let peer := (pathOf s p).peer
    let rqid := 77
    let i := 21
    let v := ((findServe s peer rqid).getD (0,{})).2
    Sound s = true ∧ inTurn s h 2 p = true ∧ (pathOf s p).state = 2 ∧ (fwinOf s (pathOf s p).sp.toNat).ctl.length < 64 ∧
    s.serves = [(i, some v)] ∧ findServe s peer rqid = some (i, v) ∧ servedIssued s i v = 0 ∧ s.dock.fencedBy = []) ∧
  (∃ (s : State) (h : Hdr) (p : Nat) (rqid : BitVec 32) (b : BitVec 16) (fused : Bool) (sqe : List W64),
    let peer := (pathOf s p).peer
    let x := berth s b.toNat
    let unfit := x.state = 0 ∨ x.state = 2 ∨ x.nsid ≠ (sqe.headD 0).extractLsb' 32 32 ∨ (x.slot 0).v = false
    let i := (findFree s 30 ((Config.freeWord s.freeCtr).toNat % s.blk.build.entries)).getD 0
    Sound s = true ∧ inTurn s h 6 p = true ∧ (pathOf s p).state = 2 ∧ (fwinOf s (pathOf s p).sp.toNat).rcmd.length < 64 ∧
    s.dock.fencedBy.contains peer = false ∧ s.blk.mode ≠ 6 ∧ 0 < gfree s ∧ ¬ unfit ∧ x.quiesced = false ∧ findFree s 30
    ((Config.freeWord s.freeCtr).toNat % s.blk.build.entries) = some i) ∧
  (∃ (s : State) (h : Hdr) (p : Nat) (rqid : BitVec 32) (off : BitVec 32) (last : Bool) (data : List (BitVec 8)),
    let i := 21
    let v := ((findServe s (pathOf s p).peer rqid).getD (0,{})).2
    Sound s = true ∧ inTurn s h 7 p = true ∧ (pathOf s p).state = 2 ∧ data ≠ [] ∧ dcmdOf s (remoteKey rqid) = none ∧
    findServe s (pathOf s p).peer rqid = some (i, v) ∧ i < 600000 ∧ (own s i).st = 3 ∧ off.toNat + data.length ≤ 2 ^ 24 ∧
    (unboundIn s (i * 2 ^ 24 + off.toNat) data.length).length + boundBays s ≤ s.blk.build.bays) ∧
  (∃ (s : State) (h : Hdr) (p : Nat) (rqid : BitVec 32) (r : BitVec 3) (st : List (BitVec 15)),
    let key := remoteKey rqid
    let c := (dcmdOf s key).getD c0
    let x := xctx s c.idx
    let wx := x.cur.getD {}
    Sound s = true ∧ inTurn s h 8 p = true ∧ (pathOf s p).state = 2 ∧ (fwinOf s (pathOf s p).sp.toNat).rcpl.length < 64 ∧
    dcmdOf s key = some c ∧ dcmdOf s (fusedKey rqid) = none ∧ c.wait = .device ∧ (c.frame.map (·.1)) = some p ∧
    s.blk.mode = 3 ∧ s.tw.raceLost = false ∧ liveCmd s c = true ∧ c.kind = .part 0 ∧ r = 0 ∧ st = [0] ∧ s.dcmds = [(key,
    some c)] ∧ xctx s c.idx = x ∧ x.cur = some wx ∧ x.resolve = false ∧ wx.w.op = 1 ∧ wx.issued = 1 ∧ 2 ≤ partsOf s
    (berthOf s c.idx) wx ∧ wx.done = [] ∧ wx.outCmds = 1) ∧
  (∃ (s : State) (i : Nat),
    let k := remoteKey 77
    let c := (dcmdOf s k).getD c0
    let p := 2
    let lane : BitVec 3 := 2
    let body : List Byte := [1,2]
    frozen s = false ∧ cmdsOf s i (fun c => decide (c.wait = .noent)) = [(k, c)] ∧ c.idx = i ∧ c.frame = some (p, lane,
    body) ∧ 2 ^ 26 ≤ k ∧ (xctx s i).tkoWait = false) ∧
  (∃ (s : State) (b : BitVec 16),
    let x := berth s b.toNat
    let p := 2
    x.quiesced = true ∧ s.serves = [] ∧ x.quiesceBy = [p]) :=
  ⟨⟨{V with serves := [(21,some sv)]}, hd_1 2 0, 2, by decide⟩,
   ⟨{V with own := []}, hd_1 6 2, 2, 77, 3, false, [5*2^32+1,0], (by first | decide | rfl), (by first | decide | rfl),
    (by first | decide | rfl), (by first | decide | rfl), (by first | decide | rfl), (by first | decide | rfl),
    (by first | decide | rfl), (by first | decide | rfl), (by first | decide | rfl), (by first | decide | rfl)⟩,
   ⟨setOwn {V with serves := [(21,some sv)]} 21 {st:=3,srv:=true}, hd_1 7 2, 2, 77, 0, true, [1,2,3], by decide⟩,
   ⟨X, hs 8 2, 2, 77, 0, [0], by decide⟩,
   ⟨{X with dcmds := [(remoteKey 77,some {c0 with wait := .noent, noent := 3})]}, 21, by decide⟩,
   ⟨setBerth V 3 {bt with quiesced := true, quiesceBy := [2]}, 3, by decide⟩⟩

theorem test_witness_Placia :
  (∃ (s : State) (p : Nat) (x : Path),
    s.paths = [(p, x)] ∧ x.en = true ∧ x.state ≠ 3 ∧ s.hbr.tstate ≠ 6 ∧ s.fstop = false) ∧
  (∃ (s : State) (h : Hdr) (b : HbBody) (p : Nat),
    let x := pathOf s p
    let good := x.peerEpoch = some h.epoch ∧ b.eseen = x.epoch
    Sound s = true ∧ reaches s h 2 false p = true ∧ h.av = false ∧ h.crd = 0 ∧ s.tw.lost ≠ some x.peer ∧ x.state = 1 ∧ good ∧
    x.good = 2 ∧ s.plc.portFail.getLsbD (8 + x.sp.toNat) = false) ∧
  (∃ (s : State) (h : Hdr) (p : Nat),
    Sound s = true ∧ accepts s h 2 false p = true ∧ (pathOf s p).state = 2) ∧
  (∃ (s : State) (h : Hdr),
    let p := 2
    s.fstop = false ∧ h.crcOk = true ∧ h.ver = 1 ∧ h.hid = s.hbr.hid ∧ h.dst = s.hbr.num ∧ h.lane = 0 ∧ h.fits = true ∧
    h.u = true ∧ h.src ≠ s.hbr.num ∧ pathFor s h = some p ∧ (pathOf s p).state ≠ 3 ∧ (pathOf s p).peerEpoch ≠ some h.epoch) ∧
  (∃ (s : State) (p : Nat),
    let x := pathOf s p
    Sound s = true ∧ ((s.blk.mode ≠ 4 ∨ s.blk.dlevel ≠ 3)) ∧ s.fstop = false ∧ x.en = true ∧ (x.state = 1 ∨ x.state = 2) ∧
    2 ≤ x.missed.toNat ∧ x.state = 1) ∧
  (∃ (s : State) (rq : Requester) (p : Nat) (v : W32),
    let x := pathOf s p
    let y : Path := { x with enc := v.getLsbD 30, maxpl := v.extractLsb' 28 2, sp := v.extractLsb' 26 2, peer := v.extractLsb' 0 16 }
    let barred := y.peer = s.hbr.num ∨ (y.enc = true ∧ s.plc.udpport = 0) ∨
      (s.paths.any (fun e => decide (e.1 ≠ p) && e.2.en && decide (e.2.sp = y.sp) && decide (e.2.peer = y.peer)) = true) ∨
      16 ≤ Table.count (fun _ e => e.en && decide (e.sp = y.sp)) s.paths
    Sound s = true ∧ p < s.blk.build.paths ∧ rq ≠ .ctl ∧ x.en = false ∧ v.getLsbD 31 = true ∧ ¬ barred) ∧
  (∃ (s : State) (h : Hdr) (p : Nat) (sack : W64) (q1 : W64) (q2 : W64),
    let x := pathOf s p
    let k := h.lane.toNat
    let f := (x.lane k).unack.headD ⟨0,0,[],0,0,false⟩
    Sound s = true ∧ reaches s h 1 false p = true ∧ idleLanes s = true ∧ (pathOf s p).peerEpoch = some h.epoch ∧
    (pathOf s p).state = 2 ∧ h.crd = 0 ∧ h.av = true ∧ (x.lane k).unack = [f] ∧ f.seq = h.ack ∧ f.fast = false ∧ sack = 0 ∧
    q1 = 0 ∧ q2 = 0) ∧
  (∃ (s : State) (p : Nat) (k : BitVec 3) (f : TxF),
    let x := pathOf s p
    let l := x.lane k.toNat
    Sound s = true ∧ x.state = 2 ∧ l.unack = [f]) ∧
  (∃ (s : State) (p : Nat) (u : MUnit),
    let x := pathOf s p
    let l := x.lane 1
    Sound s = true ∧ twinSends s = true ∧ s.tw.mq = [u] ∧ s.tw.primPath = some p ∧ x.state = 2 ∧ l.wait = [] ∧ 1 ≤ l.credit ∧
    l.unack.length < 1024) :=
  ⟨⟨Q id, 2, P0 2, by decide⟩,
   ⟨({Q (fun x => {x with state:=1,peerEpoch:=some 5,good:=2,missed:=2}) with hbr := {H0 with tstate:=2}}), hu 2 0,
    ⟨4,3,2,1⟩, 2, by decide⟩,
   ⟨Q (fun x => {x with state:=2, peerEpoch := some 5}), hu 2 0, 2, by decide⟩,
   ⟨Q (fun x => {x with peerEpoch:=none}), hu 2 0, by decide⟩,
   ⟨Q (fun x => {x with state:=1, missed := 2}), 2, by decide⟩,
   ⟨Q id, .hm, 3, 0x84000008, by decide⟩,
   ⟨Q (fun x => {x with lanes := [(0,{credit:=1}),(1,{seq:=7,credit:=2,unack:=[⟨5,4,[1,2],1,0,false⟩],exp:=3})]}),
    {hu 1 1 with ack := 5, av := true}, 2, 0, 0, 0, by decide⟩,
   ⟨Q (fun x => {x with lanes := [(0,{credit:=1}),(1,{seq:=7,credit:=2,unack:=[⟨5,4,[1,2],1,0,false⟩],exp:=3})]}), 2, 1,
    ⟨5,4,[1,2],1,0,false⟩, by decide⟩,
   ⟨({Q (fun x => {x with lanes := [(0,{credit:=1}),(1,{seq:=7,credit:=1,unack:=[],exp:=3})]}) with tw := {mq := [⟨9,0,4,7,1,2,3,4⟩],maw:=[⟨8,0,4,7,1,2,3,4⟩],primPath := some 2}}), 2, ⟨9,0,4,7,1,2,3,4⟩, by decide⟩⟩

theorem test_witness_HarbourAndTide :
  (∃ (s : State),
    let p := 2
    let x := P0 2
    s.fstop = false ∧ s.paths = [(p, x)] ∧ x.en = true ∧ x.state = 2 ∧ 8 + 16 * (reached s).length ≤ 1024) ∧
  (∃ (s : State) (h : Hdr) (b : MemberBody) (p : Nat),
    let n := (pathOf s p).peer.toNat
    let m := memberOf s n
    let now := s.tide.count
    let other : List (BitVec 128) := [9,8]
    Sound s = true ∧ accepts s h 2 false p = true ∧ (pathOf s p).state = 2 ∧ b.nparts = 2 ∧ b.part = 1 ∧ m.setN = 2 ∧
    m.haveParts = [0] ∧ Table.get [] m.parts 0 = other ∧ (now - m.setTick).toNat ≤ 100000) ∧
  (∃ (s : State) (num : BitVec 16),
    Sound s = true ∧ (s.paths.all fun e => e.2.en && decide (e.2.state = 3) && decide (e.2.peer = num)) = true ∧
    s.paths ≠ []) ∧
  (∃ (s : State) (num : BitVec 16),
    Sound s = true ∧ (s.paths.all fun e => decide (e.2.peer ≠ num)) = true ∧ (memberOf s num.toNat).known = false) ∧
  (∃ (s : State),
    s.plc.refOk = true ∧ s.fstop = false) ∧
  (∃ (s : State) (h : Hdr) (p : Nat) (tag : BitVec 8) (t1 : W64),
    Sound s = true ∧ accepts s h 3 false p = true ∧ (pathOf s p).state = 2 ∧ idleLanes s = true ∧ s.plc.root = false) ∧
  (∃ (s : State) (h : Hdr) (p : Nat) (stratum : BitVec 4) (tag : BitVec 8) (t1 : W64) (t2 : W64) (t3 : W64) (r : W64),
    let t4 : W64 := (s.tide.count - (if s.tide.lag then 1 else 0)).extractLsb' 0 60 ++ s.tide.frac
    let answered := s.plc.reqOut = some r ∧ tag = s.plc.tag ∧ (t4 - r).toNat ≤ 160000 ∧ s.plc.refOk = true ∧
      s.plc.ref.toNat = p
    let off := (((t2.toNat : Int) - t1.toNat) - ((t4.toNat : Int) - t3.toNat) - (pathOf s p).asym.toInt).tdiv 2
    Sound s = true ∧ accepts s h 3 false p = true ∧ (pathOf s p).state = 2 ∧ idleLanes s = true ∧ answered ∧
    s.tide.stepped = true ∧ off.natAbs ≤ 160000) ∧
  (∃ (s : State),
    let t := s.tide
    let q := s.plc
    0 < q.slew ∧ t.frac = 15 ∧ t.lag = false) :=
  ⟨⟨Q id, by decide⟩,
   ⟨({Q id with members := Table.put {} [] 9 {known:=true,setN:=2,setTick:=700,parts:=[(0,[9,8])],haveParts:=[0]}}), hu 2 0,
    ⟨1,3,4,2,1,2,[77]⟩, 2, by decide⟩,
   ⟨({Q (fun x => {x with state:=3,peer:=9}) with members := Table.put {} [] 9 {}}), 9, by decide⟩,
   ⟨({Q (fun x => {x with state:=2,peer:=8}) with members := Table.put {} [] 9 {}}), 9, by decide⟩,
   ⟨({Q id with plc := {refOk:=true,ref:=2,tag:=9}, tide := {count:=77,frac:=3}}), by decide⟩,
   ⟨({Q id with plc := {refOk:=true,ref:=2,tag:=9,stratum:=3}, tide := {count:=77,frac:=3}}), hu 3 0, 2, 9, 1000, by decide⟩,
   ⟨({Q (fun x => {x with asym:=0}) with plc := {refOk:=true,ref:=2,tag:=9,stratum:=3,reqOut:=some 17000}, tide := {count:=1077,frac:=3,stepped:=true}}), hu 3 0, 2, 1, 9, 17000, 18000, 18007, 17000, by decide⟩,
   ⟨({Q id with plc := {slew:=5}, tide := {count:=1077,frac:=15}}), by decide⟩⟩

theorem test_witness_LossAndFencing :
  (∃ (s : State),
    1 ≤ s.hbr.tstate.toNat ∧ s.hbr.tstate.toNat ≤ 3 ∧ s.tw.wakeSent = false ∧ s.tw.miss.toNat < 5 ∧ s.tw.miss = 1 ∧
    s.hbr.tstate = 2 ∧ s.fstop = false) ∧
  (∃ (s : State),
    s.pwr.hold = true ∧ (s.tw.miss = 0 ∨ s.hbr.tstate = 0) ∧ s.hbr.tstate ≠ 4 ∧ s.hbr.tstate ≠ 5) ∧
  (∃ (s : State),
    let live := 1 ≤ s.hbr.tstate.toNat ∧ s.hbr.tstate.toNat ≤ 3
    Sound s = true ∧ s.tw.miss = 5 ∧ live) ∧
  (∃ (s : State) (g : BitVec 128) (c : Nat) (ns : W32) (key : Nat),
    let d : BitVec 15 := 7
    let k := 458752
    let w := errorLog (stepCq (queueOut { s with resvs := [] } key false) (key / 65536)) (some (c, ns)) d
    s.hbr.tstate = 4 ∧ frozen s = false ∧ s.tw.resvq = [] ∧ localOf s g = some (c, ns) ∧ s.tw.fencing = true ∧
    s.tw.fset = [⟨g, 1⟩] ∧ d ≠ 0 ∧ d.setWidth 11 ≠ (0x83 : BitVec 11) ∧ s.resvs = [(key, some ⟨.fence, g, 0⟩)] ∧
    sealedKey w c = some k) ∧
  (∃ (s : State) (g : BitVec 128) (f : FenceNs) (more : List FenceNs) (d : BitVec 15) (key : Nat),
    let settled := (more.all fun m => decide (3 ≤ m.st)) = true
    s.hbr.tstate = 4 ∧ s.tw.fencing = true ∧ frozen s = false ∧ s.tw.gleanDone = false ∧ s.tw.fset = f :: more ∧ f.nguid = g ∧
    (f.st = 1 ∨ f.st = 2) ∧ (more.all (fun m => m.nguid ≠ g)) ∧ s.tw.resvq = [] ∧ s.resvs = [(key, some ⟨.fence, g, 0⟩)] ∧
    d ≠ 0 ∧ d.setWidth 11 ≠ (0x83 : BitVec 11) ∧ f.st = 2 ∧ ¬ settled ∧ s.own = []) :=
  ⟨⟨({Q id with hbr := {H0 with tstate:=2}, tw := {miss:=1,wakeSent:=false,last:=5,maw:=[⟨8,0,4,7,1,2,3,4⟩]}, pwr := {step:=1,hold:=true,tgt:=3}, berths := BT}), by decide⟩,
   ⟨({Q id with hbr := {H0 with tstate:=0}, tw := {miss:=0,wakeSent:=true,last:=5,maw:=[⟨8,0,4,7,1,2,3,4⟩]}, pwr := {step:=1,hold:=true,tgt:=3}, berths := BT}), by decide⟩,
   ⟨({Q id with hbr := {H0 with tstate:=1}, tw := {miss:=5,wakeSent:=true,last:=5,maw:=[⟨8,0,4,7,1,2,3,4⟩]}, pwr := {step:=1,hold:=true,tgt:=3}, berths := BT}), by decide⟩,
   ⟨({Q id with own := [], hbr := {H0 with tstate:=4}, tw := {fencing:=true,fset:=[⟨77,1⟩],lost:=some 9}, berths := BT, blk := {mode:=5}, resvs := [(458752,some ⟨.fence,77,0⟩)], dqs := [(7,{en:=true,sealedQ:=true,ctl:=4,sqlog:=4,cqlog:=4})], ctls := [(4,{state:=2})]}), 77, 4, 6, 458752, by decide⟩,
   ⟨({Q id with own := [], hbr := {H0 with tstate:=4}, tw := {fencing:=true,fset:=[⟨77,2⟩,⟨78,1⟩],lost:=some 9}, berths := BT, blk := {mode:=5}, resvs := [(458752,some ⟨.fence,77,0⟩)], dqs := [(7,{en:=true,sealedQ:=true,ctl:=4,sqlog:=4,cqlog:=4})], ctls := [(4,{state:=2})]}), 77, ((({Q id with own := [], hbr := {H0 with tstate:=4}, tw := {fencing:=true,fset:=[⟨77,2⟩,⟨78,1⟩],lost:=some 9}, berths := BT, blk := {mode:=5}, resvs := [(458752,some ⟨.fence,77,0⟩)], dqs := [(7,{en:=true,sealedQ:=true,ctl:=4,sqlog:=4,cqlog:=4})], ctls := [(4,{state:=2})]})).tw.fset.headD ⟨0,0⟩), ((({Q id with own := [], hbr := {H0 with tstate:=4}, tw := {fencing:=true,fset:=[⟨77,2⟩,⟨78,1⟩],lost:=some 9}, berths := BT, blk := {mode:=5}, resvs := [(458752,some ⟨.fence,77,0⟩)], dqs := [(7,{en:=true,sealedQ:=true,ctl:=4,sqlog:=4,cqlog:=4})], ctls := [(4,{state:=2})]})).tw.fset.tail), 7, 458752, by decide⟩⟩

theorem test_witness_AdoptionAndPairing :
  (∃ (s : State) (n : Nat),
    let r := ring s (halfRings s + n)
    let a := Table.get {} s.tw.adopt n
    Sound s = true ∧ n < halfRings s ∧ a.reading = true ∧ s.own = [] ∧ s.tw.ledger = [] ∧ r.ven = false ∧ r.cqlog.toNat < 16 ∧
    s.blk.mode ≠ 5 ∧ s.hbr.tstate ≠ 5 ∧ r.slots = []) ∧
  (∃ (s : State) (p : Nat),
    let n := 9
    let m := (s.members.headD (0,{})).2
    Sound s = true ∧ s.fstop = false ∧ s.hbr.role = 0 ∧ s.hbr.tstate = 0 ∧ s.tw.retwin = true ∧ s.blk.mode ≠ 7 ∧
    quarFreeze s = false ∧ n < 65536 ∧ s.members = [(n, m)] ∧ m.known = true ∧ m.role = 1 ∧ ((fenceSet s).all
    (fun g => m.nguids.contains g)) ∧ provenTo s (BitVec.ofNat 16 n) = [p]) ∧
  (∃ (s : State),
    Sound s = true ∧ s.tw.unpairing = true ∧ s.hbr.tstate = 2 ∧ ((∀ i, i < 10 → (own s i).st = 0)) ∧ ((∀ n, n < 10 →
    (ring s n).decw = 0)) ∧ s.tw.mq = [] ∧ s.tw.maw = [] ∧ fenceSet s = []) :=
  ⟨⟨({setRing (Q id) 32770 {R0_1 with en := true, cqlog := 3} with own := [], tw := {TWW with adopt := [(2,{reading:=true})], shadow := [(2,{en:=true,posted:=none,phase:=true,cons:=5})]}}), 2, by decide⟩,
   ⟨({Q id with own := [], rings := [], hbr := {H0 with role:=0,tstate:=0}, tw := {retwin:=true,charterTwin:=9,unpairing:=true,primPath:=some 2}, members := [(9,{known:=true,role:=1,nguids:=[77,78]})], berths := BT}), 2, by decide⟩,
   ⟨({Q id with own := [], rings := [], hbr := {H0 with role:=0,tstate:=2}, tw := {retwin:=true,charterTwin:=9,unpairing:=true,primPath:=some 2}, members := [(9,{known:=true,role:=1,nguids:=[]})], berths := []}), by decide⟩⟩

theorem test_witness_Lighters :
  (∃ (s : State) (f : RRR) (k : Nat) (l : Nat) (q : List W64),
    let x := pilot s f.p
    let y := lighterOf s l
    let lane := (x.reg f.t).val
    ready s f.p 1 f.g = true ∧ (pilot s f.p).sw.priv = true ∧ unwatched (pilot s f.p) = true ∧ isD f.d = true ∧
    isA f.s = true ∧ isD f.t = true ∧ (x.reg f.s).tag = 4 ∧ (x.reg f.s).val.toNat = 64 * k ∧ k < 1024 ∧ (x.reg f.t).tag = 1 ∧
    (lane.toNat = l ∧ l < s.blk.build.lighters ∨ lane = 0x3F ∧ l = 0 ∧ s.ltr.lighters = []) ∧ Table.getList emptyW s.cask
    (f.p * 8192 + 8 * k) 8 = (q.zip (orderTags (q.headD 0))).map (fun e => ⟨e.1, e.2⟩) ∧ q.length = 8 ∧
    y.orders.length < 16) ∧
  (∃ (s : State) (f : RRR),
    let h := (pilot s f.p).reg f.s
    let l := 3
    let o := ((lighterOf s 3).orders.headD od)
    Sound s = true ∧ ready s f.p 1 f.g = true ∧ (pilot s f.p).sw.priv = true ∧ isD f.d = true ∧ isD f.s = true ∧ f.t = 0 ∧
    h.tag = 6 ∧ s.ltr.lighters = [(l, { orders := [o] })] ∧ o.w 4 = h.val ∧ o.started = false ∧ o.src = [] ∧ o.waits = false ∧
    resultOpen s o = true ∧ (o.w 6).toNat / 2 ^ 23 = 2 ^ 37 ∧ (o.w 6).toNat % 32 = 0 ∧
    ((Table.get none s.serves 21).isNone)) ∧
  (∃ (s : State) (l : Nat) (o : Order) (more : List Order) (src : BitVec 128) (dst : BitVec 128),
    let sa := src.extractLsb' 0 64
    let n := (src.extractLsb' 64 32).toNat
    let da := (dst.extractLsb' 0 64).toNat
    let fits := src.extractLsb' 96 32 = 0 ∧ dst.extractLsb' 96 32 = 0x20000000 ∧ 0 < n ∧ n ≤ 4096 ∧
      (dst.extractLsb' 64 32).toNat = n ∧ sa.toNat + n ≤ 2 ^ 64 ∧ da < 2 ^ 44 ∧ da % 2 ^ 43 / 2 ^ 24 =
    ((o.w 4).extractLsb' 29 19).toNat
    let bs : List Byte := (List.range 100).map (BitVec.ofNat 8)
    let need := (unboundIn s da n).length
    Sound s = true ∧ l < s.blk.build.lighters ∧ (lighterOf s l).orders = o :: more ∧ plainOrder o = true ∧
    quietOrder s o = true ∧ o.started = true ∧ o.src = [src] ∧ o.dst = [dst] ∧ fits ∧ bs.length = n ∧
    boundDest s + need ≤ destBays s ∧ boundBays s + need ≤ s.blk.build.bays) :=
  ⟨⟨LW [] 3, ⟨0,0,0,16,1⟩, 2, 3, qs, by decide⟩,
   ⟨LW [od] 3, ⟨0,0,2,0,0⟩, by decide⟩,
   ⟨LW (od2::[]) 3, 3, od2, [], sg, dg, by decide⟩⟩

theorem test_witness_DockAndCellar :
  (∃ (s : State) (dba : BitVec 48) (data : List Byte),
    let r : BitVec 4 := dba.extractLsb' 44 4
    let a := dba.toNat % 2 ^ 44
    let i := dba.toNat / 2 ^ 24 % 2 ^ 19
    let need := (unboundIn s a data.length).length
    r = 1 ∧ s.ltr.held = [] ∧ data ≠ [] ∧ (own s i).st = 3 ∧ boundBays s + need ≤ s.blk.build.bays) ∧
  (∃ (s : State) (port : Nat) (len : Nat) (dba : BitVec 48),
    let r : BitVec 4 := dba.extractLsb' 44 4
    r = 2 ∧ dba.toNat % 8 = 0) ∧
  (∃ (s : State) (c : Nat) (q : Nat) (x : Dq) (dba : BitVec 48) (data : List W64),
    let a := dba.toNat
    let n := 8 * data.length
    let inSq := x.sqbase.toNat * 4096 ≤ a ∧ a + n ≤ x.sqbase.toNat * 4096 + 64 * 2 ^ x.sqlog.toNat
    let inCq := x.cqbase.toNat * 4096 ≤ a ∧ a + n ≤ x.cqbase.toNat * 4096 + 16 * 2 ^ x.cqlog.toNat
    s.dqs = [(q, x)] ∧ x.en = true ∧ x.ctl.toNat = c ∧ data ≠ [] ∧ a < s.blk.build.cellar ∧ (ctlOf s c).restart = false ∧
    inCq ∧ ¬ inSq) ∧
  (∃ (s : State) (b : Nat),
    let rq : Requester := .hm
    let v : W32 := BitVec.ofNat 32 s.celOwn.length
    let o := bankOwner s b
    b < s.blk.build.banks ∧ sealRights s rq = true ∧ s.blk.build.handsOver = true ∧ o = 0 ∧ v.setWidth 2 = (1 : BitVec 2)) :=
  ⟨⟨LW [] 3, BitVec.ofNat 48 (1*2^44+21*2^24+4095), [1,2], by decide⟩,
   ⟨LW [] 3, 1, 8, BitVec.ofNat 48 (2*2^44+500*4096), by decide⟩,
   ⟨({LW [] 3 with dqs := [(5,{en:=true,ctl:=2,sqbase:=1,cqbase:=2,sqlog:=4,cqlog:=4})], ctls := []}), 2, 5,
    {en:=true,ctl:=2,sqbase:=1,cqbase:=2,sqlog:=4,cqlog:=4}, BitVec.ofNat 48 8192, [1,2], by decide⟩,
   ⟨({LW [] 3 with celOwn := [(2,1)], cellar := [(100,i 1),(65536,i 5),(98303,i 6),(98304,i 7)], ltr := {conf := [(2,0xFFFFFF00)]}}), 4, by decide⟩⟩

theorem test_witness_CipherKeys :
  (∃ (s : State) (rq : Requester) (h : Nat) (v : W64),
    let k := keyOf s h
    Sound s = true ∧ rq ≠ .ctl ∧ sealRights s rq = true ∧ h < 4096 ∧ v.getLsbD 36 = true ∧ k.en = false ∧
    k.requested = false) ∧
  (∃ (s : State) (h : Nat),
    let k := keyOf s h
    Sound s = true ∧ h < 4096 ∧ s.xc = [] ∧ k.en = true ∧ k.requested = true ∧ k.gen ≠ 0xFFFFFF ∧ k.st ≠ 0 ∧ k.st ≠ 4) ∧
  (∃ (s : State) (h : Nat) (k : CKey),
    s.ltr.keys = [(h, k)] ∧ k.en = true ∧ s.ltr.lighters = []) :=
  ⟨⟨({LW [] 3 with ltr := {keys := [(77,{en:=false,requested:=false,st:=0,gen:=3,use:=55})]}, hm := {acct := [(77,{total:=4,rekeys:=7})]}}), .hm, 77, 0x1000000000, by decide⟩,
   ⟨({LW [] 3 with ltr := {keys := [(77,{en:=true,requested:=true,st:=1,gen:=3,use:=55})]}, hm := {acct := [(77,{total:=4,rekeys:=7})]}}), 77, by decide⟩,
   ⟨{({LW [] 3 with ltr := {keys := [(77,{en:=true,requested:=true,st:=0,gen:=3,use:=55})]}, hm := {acct := [(77,{total:=4,rekeys:=7})]}}) with ltr := {({LW [] 3 with ltr := {keys := [(77,{en:=true,requested:=true,st:=0,gen:=3,use:=55})]}, hm := {acct := [(77,{total:=4,rekeys:=7})]}} : State).ltr with lighters := []}}, 77, (keyOf ({LW [] 3 with ltr := {keys := [(77,{en:=true,requested:=true,st:=0,gen:=3,use:=55})]}, hm := {acct := [(77,{total:=4,rekeys:=7})]}}) 77), by decide⟩⟩

theorem test_witness_DockControllers :
  (∃ (s : State) (c : Nat) (i : CtlInfo),
    let fit := i.cssNvm = true ∧ i.mpsmin = 0 ∧ 63 ≤ i.mqes.toNat
    let q := 7
    let y := dqOf s 7
    Sound s = true ∧ c < s.blk.build.ctls ∧ s.blk.mode ≠ 7 ∧ (ctlOf s c).en = true ∧ (ctlOf s c).state ≠ 2 ∧ fit ∧
    i.failStep = none ∧ s.dqs = [(q, y)] ∧ y.en = true ∧ y.ctl.toNat = c ∧ 4 ≤ y.sqlog.toNat ∧ y.sqlog.toNat ≤ 12 ∧
    2 ^ y.sqlog.toNat ≤ i.mqes.toNat + 1 ∧ 4 ≤ y.cqlog.toNat ∧ y.cqlog.toNat ≤ 12 ∧ 2 ^ y.cqlog.toNat ≤ i.mqes.toNat + 1 ∧
    s.resvs = [] ∧ s.tw.resvq = []) ∧
  (∃ (s : State) (c : Nat) (answered : Bool) (rdy : Bool) (cfs : Bool),
    let x := ctlOf s c
    let good := answered = true ∧ rdy = true ∧ cfs = false
    Sound s = true ∧ c < s.blk.build.ctls ∧ (ctlOf s c).state = 2 ∧ s.fstop = false ∧ good ∧ x.pst = 0 ∧ x.restart = true) ∧
  (∃ (s : State) (c : Nat) (warn : BitVec 8),
    c < s.blk.build.ctls ∧ (ctlOf s c).state = 2) ∧
  (∃ (s : State) (rq : Requester) (b : Nat) (v : W64),
    let x := berth s b
    let rights := sealRights s rq
    let y : Berth := { x with group := v.extractLsb' 36 12, resv := v.setWidth 20 }
    let z : Berth := if rights then { y with lbsz := v.getLsbD 35, policy := v.getLsbD 61, ce := v.getLsbD 60, keyh := v.extractLsb' 48 12 }
                     else { y with lbsz := v.getLsbD 35 }
    let sum := poolSum s.wm s.sres (setBerth s b y).berths
    let o : Berth := { z with state := 1, fenceLost := false, quiesced := false }
    Sound s = true ∧ rq ≠ .ctl ∧ b < s.blk.build.berths ∧ sum ≤ s.blk.build.entries ∧ x.state = 0 ∧ v.toNat / 2 ^ 62 = 1 ∧
    openRefused s z = false ∧ slotUp s o 0 = true) ∧
  (∃ (s : State) (rq : Requester) (b : Nat) (v : W64),
    Sound s = true ∧ rq ≠ .ctl ∧ b < s.blk.build.berths ∧ s.blk.build.entries < poolSum s.wm s.sres
    (setBerth s b { berth s b with resv := v.setWidth 20 }).berths) ∧
  (∃ (s : State) (rq : Requester) (b : Nat) (v : W64),
    let x := berth s b
    rq ≠ .ctl ∧ b < s.blk.build.berths ∧ x.state = 0) ∧
  (∃ (s : State) (rq : Requester) (b : Nat) (k : Nat) (v : W64),
    let x := berth s b
    let on := v.getLsbD 63
    Sound s = true ∧ rq ≠ .ctl ∧ b < s.blk.build.berths ∧ k < 4 ∧ x.state = 0 ∧ k = 1 ∧ on = true ∧ shareable s x = false) :=
  ⟨⟨DS {ctl with state:=0} bt_1 dq_1 [] X0, 4, ci, by decide⟩,
   ⟨DS {ctl with pst:=0,restart:=true,good:=0,missed:=0} bt_1 dq_1 [] X0, 4, true, true, false, by decide⟩,
   ⟨DS ctl bt_1 dq_1 [] X0, 4, 0, by decide⟩,
   ⟨DS ctl {bt_1 with state:=0,quiesced:=true} dq_1 [] X0, .hm, 3, (2^62+2^36), by decide⟩,
   ⟨DS ctl {bt_1 with state:=0,quiesced:=true} dq_1 [] X0, .hm, 3, 0xFFFFF, by decide⟩,
   ⟨DS ctl {bt_1 with state:=0,quiesced:=true} dq_1 [] X0, .hm, 3, 0x123, by decide⟩,
   ⟨DS {ctl with cmic:=0} {bt_1 with state:=0,quiesced:=true} dq_1 [] X0, .hm, 3, 1, 2^63+5*2^55+99, by decide⟩⟩

theorem test_witness_DeviceCommands :
  (∃ (s : State) (q : Nat) (cid : BitVec 16) (d : BitVec 15),
    let key := q * 65536 + cid.toNat
    let c := (dcmdOf s key).getD c0
    let wx := ((xctx s c.idx).cur.getD {})
    Sound s = true ∧ q < s.blk.build.queues ∧ (dqOf s q).en = true ∧ (ctlOf s (dqOf s q).ctl.toNat).restart = false ∧
    d.getLsbD 13 = false ∧ s.tw.resvq = [] ∧ dcmdOf s key = some c ∧ c.wait = .device ∧ c.kind = .part 0 ∧ frozen s = false ∧
    liveCmd s c = true ∧ isMutCmd s c = false ∧ (xctx s c.idx).cur = some wx ∧ cmdsOf s c.idx (fun x => decide
    (x.wait = .partner)) = [] ∧ d = 0 ∧ s.dcmds = [(key, some c)] ∧ wx.w.op = 1 ∧ wx.done = [] ∧ wx.outCmds = 1 ∧
    wx.issued = 1 ∧ 2 ≤ partsOf s (berthOf s c.idx) wx) ∧
  (∃ (s : State) (q : Nat) (cid : BitVec 16) (c : DCmd) (wx : WordX),
    let key := q * 65536 + cid.toNat
    Sound s = true ∧ q < s.blk.build.queues ∧ frozen s = false ∧ s.resvs = [] ∧ s.tw.resvq = [] ∧ s.dcmds = [(key, some c)] ∧
    c.wait = .device ∧ c.kind = .part 0 ∧ liveCmd s c = true ∧ isMutCmd s c = false ∧ (xctx s c.idx).cur = some wx ∧
    c.expired = true ∧ wx.w.op = 1 ∧ wx.outCmds = 1 ∧ wx.issued = 1 ∧ wx.done = [] ∧ wx.cto = []) ∧
  (∃ (s : State) (c : Nat) (q : Nat) (y : Dq),
    Sound s = true ∧ c < s.blk.build.ctls ∧ frozen s = false ∧ s.dqs = [(q, y)] ∧ s.dcmds = [] ∧ s.resvs = [] ∧
    s.tw.resvq = [] ∧ y.en = true ∧ y.ctl.toNat = c) ∧
  (∃ (s : State) (i : Nat),
    let waits := fun (w : CmdWait) => cmdsOf s i (fun c => decide (c.wait = w))
    let k := 7*65536+77
    let c := (dcmdOf s k).getD c0
    let wx := w0
    frozen s = false ∧ (own s i).srv = false ∧ waits .slot = [(k, c)] ∧ c.kind = .part 0 ∧ (xctx s i).cur = some wx ∧
    anyUp s (berthOf s i) c.excl = false ∧ wx.done = [] ∧ s.dcmds = [(k, some c)]) :=
  ⟨⟨DS ctl bt_1 dq_1 [(7*65536+77,some c0_1)] X0, 7, 77, 0, by decide⟩,
   ⟨DS ctl bt_1 dq_1 [(7*65536+77,some {c0_1 with expired:=true})] X0, 7, 77, ((dcmdOf
    (DS ctl bt_1 dq_1 [(7*65536+77,some {c0_1 with expired:=true})] X0) (7*65536+77)).getD c0_1), w0, by decide⟩,
   ⟨DS ctl bt_1 dq_1 [] X0, 4, 7, dq_1, by decide⟩,
   ⟨DS ctl bt_1 dq_1 [(7*65536+77,some {c0_1 with wait:=.slot,excl:=some 0})] X0, 21, by decide⟩⟩

theorem test_witness_ResetsAndCharter :
  (∃ (s : State),
    s.boot.porHeld = true) ∧
  (∃ (s : State) (ok : Bool) (octal : Bool),
    s.blk.mode = 0 ∧ s.boot.porHeld = false ∧ s.hm.lc ≠ 3 ∧ s.hm.tamper = false ∧ ok = true ∧ s.boot.maint = true) ∧
  (∃ (s : State),
    (s.blk.mode ≠ 0 ∨ s.boot.porHeld = true)) ∧
  (∃ (s : State),
    s.boot.porHeld = false ∧ s.boot.phase1 = false) ∧
  (∃ (s : State) (h : SlotHdr) (flashErr : Bool) (tagOk : Bool) (digestOk : Bool) (hid : BitVec 32) (num : BitVec 16)
    (twin : BitVec 16) (role : BitVec 8) (rsvOk : Bool),
    let fair := role.toNat < 3 ∧ rsvOk = true ∧ twin ≠ num ∧ (twin = 0xFFFF ∨ role = 0)
    s.blk.mode = 1 ∧ s.boot.loading = some h ∧ s.boot.tried = [] ∧ s.boot.pick = 0 ∧ s.boot.phase1 = true ∧ flashErr = false ∧
    s.boot.key = true ∧ tagOk = true ∧ digestOk = true ∧ ¬ fair) ∧
  (∃ (s : State),
    s.boot.loading = none) :=
  ⟨⟨CC {porHeld:=true,pick:=0,maint:=true,key:=true} 0, by decide⟩,
   ⟨CC {porHeld:=false,pick:=0,maint:=true,key:=true} 0, true, false, by decide⟩,
   ⟨CC {porHeld:=true,pick:=0,maint:=true,key:=true} 0, by decide⟩,
   ⟨CC {porHeld:=false,pick:=0,maint:=true,key:=true} 0, by decide⟩,
   ⟨CC {({porHeld:=false,tried:=[],pick:=0,phase1:=true,key:=true} : Boot) with loading := some shd, loadingB := true} 1,
    shd, false, true, true, 9, 7, 8, 1, true, by decide⟩,
   ⟨CC {} 1, by decide⟩⟩

theorem test_witness_ModeEvents :
  (∃ (s : State) (ok : Bool),
    s.blk.mode = 2 ∧ ok = true ∧ s.boot.sramBad = false ∧ anyRuns s = true) ∧
  (∃ (s : State),
    s.hbr.tstate = 0 ∧ (s.blk.mode = 3 ∨ s.blk.mode = 6) ∧ s.tw.maintWait = true ∧ ((∀ e ∈ s.own, e.2.st = 0)) ∧
    ((∀ e ∈ s.rings, e.2.decw = 0))) ∧
  (∃ (s : State),
    let lc : BitVec 2 := s.hm.lc - 1
    s.boot.porHeld = false ∧ s.blk.mode ≠ 4 ∧ s.hm.session = none ∧ lc ≠ s.hm.lc ∧ (lc = 3 ∨ lc < s.hm.lc)) :=
  ⟨⟨{CC {porHeld:=false,sramBad:=false,select:=[(1,2)]} 2 with chk := []}, true, by decide⟩,
   ⟨{CC {porHeld:=false} 3 with hbr := {}, tw := {maintWait:=true}, own := [], rings := [(3,{en:=true,decw:=0})], csrc := [(3,{sel:=1})]}, by decide⟩,
   ⟨{CC {porHeld:=false} 0 with hm := {lc := 0}, hmmem := [(0x1FFFF,i 3),(0x20000,i 3),(0x27FFF,i 4),(0x28000,i 5)]},
    by decide⟩⟩

theorem test_witness_PowerAndSensors :
  (∃ (s : State),
    let a : BitVec 11 := if s.blk.mode = 3 then 400 else 2000
    s.boot.porHeld = false ∧ s.hm.restarting = false ∧ s.blk.mode ≠ 4 ∧ 4 * (s.hm.tcrit.toNat : Int) ≤ a.toInt ∧
    (s.blk.mode = 3 ∨ s.blk.mode = 5)) ∧
  (∃ (s : State) (a : BitVec 11),
    let p := s.pwr
    s.boot.porHeld = false ∧ s.hm.restarting = false ∧ s.blk.mode ≠ 4 ∧ s.fstop = false ∧ s.hm.temp = [(0,
    { valid := true, temp := a })] ∧ p.tgt = 0 ∧ 4 * (p.t1.toNat : Int) ≤ a.toInt) ∧
  (∃ (s : State),
    s.blk.mode ≠ 4 ∧ s.pwr.entering = 0) ∧
  (∃ (s : State),
    let lvl := (permitted s).1
    s.fstop = false ∧ s.pwr.waking = false ∧ s.pwr.entering = 0 ∧ s.pwr.nego = false ∧ s.pwr.reqOut = false ∧ s.blk.mode = 4 ∧
    s.blk.dlevel = 1 ∧ lvl = 2 ∧ 2 ≤ activityBound s ∧ s.hbr.tstate = 2 ∧ s.hbr.pdEn = true ∧ permitsD3 s = true) ∧
  (∃ (s : State),
    s.pwr.waking = false ∧ (s.blk.mode = 3 ∨ s.blk.mode = 4) ∧ s.pwr.entering ≠ 0) ∧
  (∃ (s : State) (lp : Nat) (off : BitVec 28) (data : BitVec 32) (be : BitVec 4),
    s.fstop = true ∧ lp < s.blk.build.ports ∧ s.pwr.capq.length < 256 ∧ off.toNat % 4096 = 0 ∧ be = 15 ∧
    s.pwr.waking = false ∧ s.blk.mode = 4) ∧
  (∃ (s : State) (c : BitVec 4),
    let holds := c = 3 ∨ c = 5 ∨ (c = 1 ∧ ∃ w ∈ s.pwr.capq, w.off.toNat % 4096 = 0 ∧ w.be = 15) ∨
      (c = 2 ∧ ∃ e ∈ s.evc.latch, 0x100 ≤ e.1 ∧ e.1 ≤ 0x1FF) ∨ (c = 4 ∧ ∃ e ∈ s.evc.latch, e.1 = 9) ∨
      (c = 6 ∧ (2 ≤ s.tw.miss.toNat ∨ ∃ e ∈ s.paths, 2 ≤ e.2.missed.toNat)) ∨ (c = 7 ∧ (permitted s).1 < levelNow s) ∨
      (c = 8 ∧ s.pwr.nego = true) ∨ (c = 9 ∧ (s.hm.tamper = true ∨ s.boot.ttripN = true ∨ s.boot.lateMaint ≠ none))
    s.blk.mode = 4 ∧ s.pwr.waking = false ∧ holds) ∧
  (∃ (s : State),
    s.pwr.waking = true ∧ s.blk.mode = 4 ∧ s.hbr.tstate = 0 ∧ s.pwr.capq = [] ∧ s.evc.latch = [] ∧ s.pwr.nego = false ∧
    s.boot.lateMaint = none ∧ s.boot.lateQuar = none) ∧
  (∃ (s : State),
    let p := 2
    let x := P0 (pathOf s 2).state
    s.fstop = true ∧ s.blk.dlevel = 2 ∧ s.paths = [(p, x)] ∧ x.en = true ∧ x.state ≠ 3 ∧ s.hbr.tstate ≠ 6 ∧
    (s.tide.count - s.tw.memberAt).toNat < 100000) :=
  ⟨⟨SS 3 [] {}, by decide⟩,
   ⟨SS 3 [320] {tgt:=0,t1:=80,t2:=90,hyst:=5,hold:=true,step:=0}, 320, by decide⟩,
   ⟨SS 3 [] {}, by decide⟩,
   ⟨{DD 4 1 {maxlvl:=3} false with hbr := {H0 with tstate:=2}}, by decide⟩,
   ⟨DD 4 1 {reqOut:=true,entering:=2,waking:=false} false, by decide⟩,
   ⟨DD 4 2 {waking:=false,capq:=[]} true, 1, 0x3000, 5, 15, by decide⟩,
   ⟨DD 4 2 {waking:=false,capq:=[]} true, 3, by decide⟩,
   ⟨{DD 4 2 {waking:=true,wakeCause:=3,wakeTick:=0x10000000-77,capq:=[],entering:=1} true with hbr := {H0 with tstate:=0}, boot := {lateQuar := none}}, by decide⟩,
   ⟨{DD 4 2 {} true with tw := {memberAt := 0x10000000-5}, paths := [(2,P0 2)]}, by decide⟩⟩

theorem test_witness_Mailbox :
  (∃ (s : State) (m : Mbx),
    mbIdle s = false) ∧
  (∃ (s : State) (m : Mbx),
    let q : W32 := 7
    let a : W64 := 1
    let b : W64 := 7*2^32
    let c : W64 := 3
    let d : W64 := 4
    mbIdle s = true ∧ m.a1 = 1 ∧ m.a0.setWidth 32 = q ∧ logRec s q = some [a, b, c, d]) ∧
  (∃ (s : State),
    let r := (logRec s (s.hm.seqNext - 1)).getD []
    s.hm.uncopied = 1 ∧ s.hm.restarting = false ∧ s.hm.nextPage % 4 ≠ 0 ∧ logRec s (s.hm.seqNext - 1) = some r) ∧
  (∃ (s : State) (m : Mbx),
    let x := s.hm.session.getD ⟨0,0,0,[]⟩
    let h := if m.a1 = 5 then shd else if x.kind = 3 then {shd with env := {shd.env with isa:=2}} else {shd with env := env}
    mbIdle s = true ∧ s.hm.session = some x ∧ x.len ≤ x.got ∧ x.kind = 3 ∧ h.flashErr = false ∧
    charterHead s { h with erased := false } = 0 ∧ h.env.mldsaOk = true ∧ s.boot.key = true ∧ h.env.tagOk = true ∧
    h.env.digestOk = true) ∧
  (∃ (s : State) (m : Mbx) (e : Envelope),
    let bank := m.a0.getLsbD 16
    let v : BitVec 2 := if bank then 2 else 1
    mbIdle s = true ∧ s.blk.mode.toNat < 5 ∧ s.hm.committed = some 1 ∧ m.a0.setWidth 16 = (1 : BitVec 16) ∧
    s.vin.busy = false ∧ (csrcOf s 0).sel ≠ v ∧ swbOf s 0 = false ∧ envCode s 1 e ≠ 0) ∧
  (∃ (s : State),
    let c := 0
    let cs : List Nat := if s.hm.roll = some ([0],2,true) then [] else [1]
    let done : BitVec 16 := 2
    let bank := true
    s.hm.roll = some (c :: cs, done, bank) ∧ swbOf s c = false ∧ (cs = [] ∨ 5 ≤ s.blk.mode.toNat)) :=
  ⟨⟨HH {seqNext:=8,lognext:=1,uncopied:=0,svn:=5,lc:=2,restarting:=true,nextPage:=4,acct:=[(77,{total:=4,rekeys:=7})],busy:=true,committed:=none,session:=none,roll:=none,mbseq:=6} 3, mb 5 6, by decide⟩,
   ⟨{HH {seqNext:=8,lognext:=1,uncopied:=1,svn:=5,lc:=2,restarting:=false,nextPage:=5,acct:=[(77,{total:=4,rekeys:=7})],busy:=false,committed:=none,session:=none,roll:=none,mbseq:=6} 3 with hbr := {H0 with tstate:=0}, blk := {mode:=3,freeze:=true}}, mb 7 1, by decide⟩,
   ⟨HH {seqNext:=8,lognext:=1,uncopied:=1,svn:=5,lc:=2,restarting:=false,nextPage:=5,acct:=[(77,{total:=4,rekeys:=7})],busy:=true,committed:=none,session:=none,roll:=none,mbseq:=6} 3, by decide⟩,
   ⟨HH {seqNext:=8,lognext:=1,uncopied:=1,svn:=5,lc:=2,restarting:=false,nextPage:=5,acct:=[(77,{total:=4,rekeys:=7})],busy:=false,committed:=none,session:=(some ⟨3,5,5,[1]⟩),roll:=none,mbseq:=6} 3, mb 1 5, by decide⟩,
   ⟨{HH {seqNext:=8,lognext:=1,uncopied:=1,svn:=5,lc:=2,restarting:=false,nextPage:=5,acct:=[(77,{total:=4,rekeys:=7})],busy:=false,committed:=(some 1),session:=none,roll:=none,mbseq:=6} 3 with csrc := [(0,{sel:=0})], pilots := (resetPilots .ozL), graft := [(0,{micro:=[(0,5)]})]}, mb 1 5, {env_1 with tagOk:=false}, by decide⟩,
   ⟨{HH {seqNext:=8,lognext:=1,uncopied:=1,svn:=5,lc:=2,restarting:=false,nextPage:=5,acct:=[(77,{total:=4,rekeys:=7})],busy:=true,committed:=none,session:=none,roll:=(some ([0],2,true)),mbseq:=6} 3 with csrc := [(0,{sel:=0})], pilots := (resetPilots .ozL)}, by decide⟩⟩

theorem test_witness_VintagesAndSources :
  (∃ (s : State) (rq : Requester) (v : W32),
    let x := s.vin
    let y : Vin := if sealRights s rq then { x with bank := v.getLsbD 16, cmask := v.setWidth 16 } else x
    rq ≠ .ctl ∧ v.getLsbD 31 = true ∧ x.busy = false ∧ (hmWord s (x.offs.toNat / 8)).val.toNat / 2 ^ 48 ≠ 2 ∧ y.cmask = 1 ∧
    (csrcOf s 0).sel.toNat ≠ 1 + y.bank.toNat ∧ swbOf s 0 = false) ∧
  (∃ (s : State) (e : Envelope),
    let shaped := e.fmtOk = true ∧ e.plenOk = true ∧ e.kind = 1
    let aimed := e.isa = 1 ∧ e.config.toNat < 8 ∧ e.config.getLsbD s.blk.build.imageBit = true
    let signed := (e.keyset = 0 ∨ (e.keyset = 1 ∧ s.boot.keySet1 = true)) ∧ e.ecdsaOk = true ∧ (e.mldsaOk = true ∨ s.hm.lc ≠ 2)
    e.kind ≠ 2 ∧ s.vin.busy = true ∧ s.vin.ldMask = 1 ∧ shaped ∧ aimed ∧ ¬ e.svn < s.hm.svn ∧ s.hm.lc ≠ 3 ∧ ¬ signed) ∧
  (∃ (s : State) (rq : Requester) (c : Nat) (k : Nat) (v : W32),
    rq ≠ .ctl ∧ sealRights s rq = false) :=
  ⟨⟨VV {bank:=true,cmask:=1} {} (fun x => x), .hm, 0x80010001, by decide⟩,
   ⟨VV {busy:=true,ldBank:=true,ldMask:=1,cluster:=3} {} (fun x => x), {env_1 with keyset:=1}, by decide⟩,
   ⟨VV {bank:=true} {} (fun x => x), .pilot 0 false, 0, 3, 0x40000001, by decide⟩⟩

theorem test_witness_CheckingAndSpares :
  (∃ (s : State) (p : Nat) (sweepOk : Bool),
    let x := pilot s p
    let c := p / 8
    let k := chkOf s c
    let q := 8 * c + k.spare.toNat
    let good := x.win.tp.val = x.win.ts.val ∧ x.win.tp.ok = true ∧ x.win.ts.ok = true
    let able := k.sparePresent = true ∧ (pilot s q).role = .spare ∧ q ≠ p
    p < 8 * s.blk.build.clusters ∧ p % 8 ≤ 4 ∧ (pilot s p).inReset = false ∧ (pilot s p).role = .active ∧ s.blk.mode ≠ 4 ∧
    x.frozen = true ∧ x.twice = false ∧ good ∧ 8 ≤ x.mismBase ∧ able ∧ sweepOk = true) ∧
  (∃ (s : State) (p : Nat),
    let x := pilot s p
    let c := p / 8
    let k := chkOf s c
    p < 8 * s.blk.build.clusters ∧ p % 8 ≤ 4 ∧ (pilot s p).role = .testing ∧ x.subbed = false ∧ (csrcOf s c).hold = false ∧
    k.state ≠ 2 ∧ s.boot.served = true) ∧
  (∃ (s : State) (p : Nat) (again : Bool),
    let c := p / 8
    let k := chkOf s c
    p < 8 * s.blk.build.clusters ∧ p % 8 ≤ 4 ∧ s.blk.mode ≠ 4 ∧ k.state ≠ 2 ∧ k.state = 0 ∧ again = true) :=
  ⟨⟨{VV {} {} (fun x => x) with tide := {count:=1000}, pilots := (List.range 5).map (fun k => (k,{inReset:=false,role:=if k=4 then .spare else .active,pc:=4,frozen:=true,win:={},twice:=false,mismBase:=8,mismTick:=5,mism:=7})), chk := [(0,{sparePresent:=true})]}, 1, true, by decide⟩,
   ⟨{VV {} {} (fun x => x) with tide := {count:=200000000}, pilots := [(3,{role:=.testing,subbed:=false,inReset:=true})], chk := [(0,{state:=0,lastRehab:=none,sparePresent:=false})]}, 3, by decide⟩,
   ⟨{VV {} {} (fun x => x) with chk := [(0,{state:=0,run:=0xFFFE,fail:=3,forced:=0xFF})]}, 3, true, by decide⟩⟩

theorem test_witness_ChannelPrograms :
  (∃ (s : State) (r : Reader) (q : QuayCpl),
    (q.noCredit = true ∨ q.gap = true ∨ q.badLen = true ∨ q.badLane = true ∨ 12 ≤ q.port)) ∧
  (∃ (s : State) (i : Nat) (port : Nat) (l : List W64),
    Sound s = true ∧ port < 12 ∧ wantsWord s i = true ∧ (xctx s i).nwords < 4096 ∧ (xctx s i).pre = none) ∧
  (∃ (s : State) (i : Nat) (port : Nat) (wx : WordX) (a : W64) (b : W64),
    let len := (b.extractLsb' 0 32).toNat
    Sound s = true ∧ port < 12 ∧ (xctx s i).cur = some wx ∧ wx.w.op = 2 ∧ wx.w.buf = 1 ∧ wx.listed = false ∧ wx.glist = [] ∧
    b.extractLsb' 32 32 = 0 ∧ 1 ≤ len ∧ len ≤ 16777216 ∧ a.toNat + len ≤ 2 ^ 64 ∧ len < wx.w.count.toNat) ∧
  (∃ (s : State) (i : Nat) (port : Nat) (wx : WordX) (a : W64) (l : List W64),
    Sound s = true ∧ port < 12 ∧ (xctx s i).cur = some wx ∧ wx.w.op = 0x13 ∧ wx.key = [] ∧ wx.w.ksLen ≤ 8) ∧
  (∃ (s : State) (c : Nat) (port : Nat) (l : List W64),
    port < 12) ∧
  (∃ (s : State) (i : Nat) (port : Nat) (lo : W64) (hi : W64) (l : List W64),
    let x := xctx s i
    let e := own s i
    let w := CWord.decode lo hi
    let b := berthOf s i
    let stopped : Nat → State := fun k => exchangeEnded (setOwn s i { e with lastw := BitVec.ofNat 12 k, xfer := 0 }) i 0x18 0
    let write := w.op = 2 ∧ w.rsv = 0 ∧ w.buf = 0 ∧ w.modf = 0 ∧ w.flags = 0 ∧ w.count.toNat = b.lbs
    let p : PreX := x.pre.getD {}
    Sound s = true ∧ port < 12 ∧ wantsWord s i = true ∧ (xctx s i).nwords = 0 ∧ (xctx s i).preOk = false ∧
    (xctx s i).resolve = false ∧ x.pre.isSome = true ∧ write ∧ p.posSet = true ∧ p.total + w.count.toNat ≤ 1073741824 ∧
    p.idx ≠ 4095 ∧ p.idx ≠ 0 ∧ hasFenceLog b = true ∧ b.lbs ≤ mxferOf s b ∧ p.mutAt.isSome = true ∧ p.bad = none) :=
  ⟨⟨EX {nwords:=1,mark:=false,total:=0} {pos:=990,xfer:=7}, .word 3, {cleanCpl 2 [] with noCredit := true}, by decide⟩,
   ⟨EX {nwords:=1,mark:=false,total:=0} {pos:=990,xfer:=7}, 3, 4, [], by decide⟩,
   ⟨EX {cur:=some {idx:=2,w:={op:=2,buf:=1,count:=1024},addr:=8},nwords:=2} {pos:=5}, 3, 4,
    {idx:=2,w:={op:=2,buf:=1,count:=1024},addr:=8}, 0x1000, 512, by decide⟩,
   ⟨EX {cur:=some {idx:=2,w:={op:=0x13,count:=0x105},addr:=8},nwords:=2} {pos:=5}, 3, 4,
    {idx:=2,w:={op:=0x13,count:=0x105},addr:=8}, 0x1122334455667788, [7], by decide⟩,
   ⟨EX {nwords:=1,mark:=false,total:=0} {pos:=990,xfer:=7}, 3, 4, [], by decide⟩,
   ⟨EX {pre:=some {idx:=2,total:=0,posSet:=true,pos:=5,addr:=0x100,mutAt:=some 1,bad:=none}} {pos:=5,fenced:=true}, 3, 5,
    0x10000, HI 2 0 0 0 512, [], by decide⟩⟩

theorem test_witness_DebugAndTestPort :
  ∃ (s : State) (v : W64),
    v.getLsbD 31 = false :=
  ⟨{W with dbg := {addr:=5,data:=6,space:=3,width:=true}}, 0, by decide⟩

theorem test_witness_RegisterAccess :
  (∃ (s : State) (rq : Requester) (wide : Bool) (off : BitVec 27) (v : W64),
    let a := off.toNat
    (a % 4 ≠ 0 ∨ (wide = true ∧ a % 8 ≠ 0) ∨ 0x7000000 ≤ a ∨ (0xA0000 ≤ a ∧ a < 0x1000000)) ∧ rq = .ctl ∧ s.blk.mode ≠ 4 ∧
    s.pwr.entering = 0) ∧
  (∃ (s : State),
    s.blk.mode ≠ 4 ∧ s.pwr.entering = 0) ∧
  (∃ (s : State) (rq : Requester),
    rq ≠ .ctl) ∧
  (∃ (s : State) (rq : Requester) (v : W64),
    let lo := v.extractLsb' 0 32
    let fits := lo.extractLsb' 0 20 |>.toNat
    rq ≠ .ctl ∧ fits + s.sres.toNat + (s.berths.map (fun e => e.2.resv.toNat)).sum ≤ Config.entries) :=
  ⟨⟨{W with blk := {mode:=3}, wm := 100, sres := 5, berths := [(2,{resv:=40})], mbrkLease := 3, mbrkFault:=4}, .ctl, true, 2,
    5, by decide⟩,
   ⟨{W with blk := {mode:=3}, wm := 100, sres := 5, berths := [(2,{resv:=40})], mbrkLease := 3, mbrkFault:=4}, by decide⟩,
   ⟨{W with blk := {mode:=3}, wm := 100, sres := 5, berths := [(2,{resv:=40})], mbrkLease := 3, mbrkFault:=4}, .hm,
    by decide⟩,
   ⟨{W with blk := {mode:=3}, wm := 100, sres := 5, berths := [(2,{resv:=40})], mbrkLease := 3, mbrkFault:=4}, .hm, 0,
    by decide⟩⟩

theorem test_witness_FrameWindows :
  (∃ (s : State) (rq : Requester) (port : Nat) (v : W64),
    let w := fwinOf s port
    let p := (v.extractLsb' 50 6).toNat
    let x := pathOf s p
    let n := v.extractLsb' 0 13
    let typ := v.extractLsb' 40 4
    let lane := v.extractLsb' 47 3
    let fit := (typ = 2 ∨ typ = 6 ∨ typ = 8) ∧ laneOk typ lane = true ∧ x.en = true ∧ x.state = 2 ∧ x.sp.toNat = port ∧
      n.toNat ≤ 248 ∧ n.toNat ≤ maxBody x
    rq ≠ .ctl ∧ port < 4 ∧ w.busy = false ∧ fit ∧ typ = 8) ∧
  (∃ (s : State) (port : Nat) (lane : BitVec 3) (cnt : BitVec 4),
    let k := 8 * port + lane.toNat
    let q := Table.get {} s.qtx k
    port < 12 ∧ q.wait = []) :=
  ⟨⟨{Q (fun x => {x with en:=true,state:=2,sp:=1}) with fwin := [(1,{err:=true,body:=[(0,0x1122334455667788)]})]}, .hm, 1,
    (BitVec.ofNat 64 (2*2^50+7*2^47+8*2^40+5)), by decide⟩,
   ⟨{W with qtx := [(9,{credit:=0,wait:=[]})]}, 1, 1, 0, by decide⟩⟩

theorem test_witness_RefusedWords :
  (∃ (s : State) (i : Nat) (port : Nat) (lo : W64) (hi : W64) (l : List W64),
    let x := xctx s i
    let e := own s i
    let w := CWord.decode lo hi
    let b := berthOf s i
    let plainB : Berth := { b with ce := false }
    Sound s = true ∧ port < 12 ∧ wantsWord s i = true ∧ (xctx s i).nwords ≠ 0 ∧ (xctx s i).nwords < 4095 ∧
    (xctx s i).pre = none ∧ wordFault plainB x.nwords x.total (decide (e.pos ≠ BitVec.allOnes 64)) true w = none ∧ w.op = 5 ∧
    e.fenced = true ∧ b.ce = true ∧ w.buf ≠ 1) ∧
  (∃ (s : State) (i : Nat) (port : Nat) (wx : WordX) (a : W64) (c : W64),
    let x := xctx s i
    let e := own s i
    let b := berthOf s i
    let plainB : Berth := { b with ce := false }
    let len := (c.extractLsb' 0 32).toNat
    Sound s = true ∧ port < 12 ∧ (xctx s i).cur = some wx ∧ wx.w.buf = 1 ∧ wx.listed = false ∧ wx.glist = [] ∧
    (wx.w.op = 3 ∨ wx.w.op = 5) ∧ wordFault plainB wx.idx x.total (decide (e.pos ≠ BitVec.allOnes 64)) true wx.w = none ∧
    c.extractLsb' 32 32 = 0 ∧ 1 ≤ len ∧ len ≤ 16777216 ∧ a.toNat + len ≤ 2 ^ 64 ∧ len =
    (if wx.w.op = 5 then 2 * wx.w.count.toNat else wx.w.count.toNat) ∧ (wx.w.op = 3 ∨ e.fenced = true) ∧ b.ce = true) ∧
  (∃ (s : State) (i : Nat) (port : Nat) (lo : W64) (hi : W64) (l : List W64) (p : PreX),
    let w := CWord.decode lo hi
    let plainB : Berth := { berthOf s i with ce := false }
    Sound s = true ∧ port < 12 ∧ wantsWord s i = true ∧ (xctx s i).nwords ≠ 4096 ∧ (xctx s i).pre = some p ∧
    (xctx s i).resolve = false ∧ wordFault plainB p.idx p.total p.posSet true w = none ∧ (berthOf s i).ce = true ∧
    (w.op = 3 ∨ w.op = 5 ∨ w.op = 0x13) ∧ w.buf ≠ 1) :=
  ⟨⟨EY {nwords:=5} {pos:=5,fenced:=true} ber2, 3, 5, 0x10000, HI 5 0 0 0 512, [], by decide⟩,
   ⟨EY {nwords:=5,cur:=some {idx:=5,w:={op:=3,buf:=1,count:=512},addr:=8}} {pos:=5,fenced:=true} ber2, 3, 5,
    {idx:=5,w:={op:=3,buf:=1,count:=512},addr:=8}, 0x100, 512, by decide⟩,
   ⟨EY {nwords:=0,pre:=some {idx:=2,total:=0,posSet:=true,pos:=5}} {pos:=5,fenced:=true} ber2, 3, 5, 0x10000, HI 5 0 0 0 512,
    [], {idx:=2,total:=0,posSet:=true,pos:=5}, by decide⟩⟩

theorem test_witness_HeldCluster :
  ∃ (s : State) (rq : Requester) (c : Nat) (v : W32),
    Sound s = true ∧ rq ≠ .ctl ∧ sealRights s rq = true ∧ c < Config.clusters ∧ (csrcOf s c).hold = false ∧
    v.getLsbD 30 = true ∧ v.extractLsb' 0 2 = (csrcOf s c).sel :=
  ⟨{W with csrc := [(0,{sel:=1})], boot := {served:=true}, pilots := [(0,{inReset:=false,cx:=3,banks:=[(2,{regs:=[(3,⟨1,1⟩)]})]}),(1,{inReset:=false})], moor := [(3,{mst:=1,owner:=1,lease:=5}),(4,{mst:=1,owner:=9})], own := [(5,{st:=2,ackp:=true,moor:={mst:=1,owner:=0,rep:=7}}),(6,{st:=3,moor:={mst:=1,owner:=1}}),(7,{st:=3,moor:={mst:=1,owner:=8}})]}, .hm, 0, 0x40000000+1, by decide⟩

theorem test_witness_IdleTick :
  ∃ (s : State),
    s.pending = [] ∧ s.boot.porHeld = true :=
  ⟨{W with pending := [], boot := {porHeld:=true}, bells := [], ecnt := [], own := [], moor := [], pilots := [], tide := {count:=7,lag:=false}, blk := {mode:=3}, bwd := {}}, by decide⟩

theorem test_witness_CheckWindows :
  (∃ (word : W32) (ext : W32) (s : State) (u : State) (p : Nat),
    let x := pilot s p
    let y := pilot u p
    let r := wordsOf word ext x y
    let w : Win := { y.win with ck := y.win.ck.or (some x.ctx), ops := y.win.ops + opCount word,
                                tp := y.win.tp.feed r.1, ts := y.win.ts.feed r.2, inner := false }
    let due := y.win.inner = true ∨ closes word ext x = true ∨ 16 ≤ w.ops
    let clean := x.armed = false ∧ w.tp.val = w.ts.val ∧ w.tp.par = parity w.tp.val ∧ w.ts.par = parity w.ts.val
    (pilot u p).inReset = false ∧ x.frozen = false ∧ w.bad = false ∧ due ∧ clean) ∧
  (∃ (s : State) (p : Nat) (e : PStore),
    (pilot s p).win.stores.length = 7 ∧ (pilot s p).frozen = false ∧ (pilot s p).armed = false ∧
    (pilot s p).win.agrees = true) ∧
  (∃ (s : State) (p : Nat),
    let x := pilot s p
    x.frozen = false ∧ x.win.ck.isSome = true ∧ x.armed = false ∧ x.win.agrees = true) :=
  ⟨⟨0x00401001, 0, (mk {} false false true), (mk {inner:=true,count:=6} true true true), 1, by decide⟩,
   ⟨(mk {stores:=(List.range 7).map (st 9)} false false false), 1, (st 3 9), by decide⟩,
   ⟨(mk {ops:=3,stores:=[st 3 1],ck:=some ({pc:=77}:Pilot).ctx} false false true), 1, by decide⟩⟩

/-- A state whose exchange 3 (berth 2) wants its second command word. -/
def wordWanted : State := { dm_3 bk_3 id with
  own := [(3, { st := 3, berth := 2, pos := 990, xfer := 7 })], xc := [(3, { active := true, next := 0x5000, nwords := 1 })]
  berths := [(2, { nsze := 1000, flbn := 5, slots := [(0, { v := true, tgt := 1 })] })] }

/-- R373, R390: an MTC to CX by a privileged sealed pilot. -/
theorem test_witness_ControlRegisterWrites : ∃ (s : State) (f : RRI) (z : Pilot), ready s f.p 1 f.g = true ∧ f.d = 0 ∧
    (pilot s f.p).sw.priv = true ∧ (pilot s f.p).sw.world = true ∧
    (f.imm, ((pilot s f.p).reg f.s).tag, z) =
      ((0x001 : BitVec 12), (1 : BitVec 4), { stepped (pilot s f.p) 1 with cx := ((pilot s f.p).reg f.s).val }) :=
  ⟨dm_3 (demoBank [i 3] []) id, ⟨0, 0, 0, 0, 1⟩, { stepped (pilot (dm_3 (demoBank [i 3] []) id) 0) 1 with cx := 3 }, by decide⟩

/-- R24, R30: a READ word that fits, one at the end of the namespace, and a word of no known operation. -/
theorem test_witness_ChannelWords : ∃ (s : State) (i port : Nat) (lo hi : W64), Sound s = true ∧ port < 12 ∧ wantsWord s i = true ∧
    (xctx s i).nwords ≠ 0 ∧ (xctx s i).nwords < 4095 ∧ (xctx s i).pre = none ∧ (own s i).fenced = false ∧ (xctx s i).cancel = false ∧
    let w := CWord.decode lo hi
    w.op = 1 ∧ w.rsv = 0 ∧ w.buf = 0 ∧ w.modf = 0 ∧ (berthOf s i).lbs ≤ w.count.toNat ∧ w.count.toNat % (berthOf s i).lbs = 0 ∧
    (own s i).pos ≠ BitVec.allOnes 64 ∧ (own s i).pos.toNat ≤ (berthOf s i).nsze.toNat ∧
    ((berthOf s i).nsze.toNat - (own s i).pos.toNat) * (berthOf s i).lbs = w.count.toNat :=
  ⟨wordWanted, 3, 5, 0x10000, 0x100000000001400, by decide⟩

/-- R541: the debug port reaches the last word of a pilot's cask, outside a closed life cycle. -/
theorem test_witness_DebugAccesses : ∃ (s : State) (v : W32) (op : BitVec 2), op ≠ 3 ∧ s.hm.lc ≠ 3 ∧ v.extractLsb' 24 3 = 2 ∧
    s.dbg.addr.toNat = 65528 ∧ pilotExists s (v.extractLsb' 16 8).toNat = true ∧ v.getLsbD 9 = true :=
  ⟨{ State.reset with dbg := { addr := 65528 } }, 0x82011200, 2, by decide⟩

/-- R426 to R428: a window that is not due, and one that closes and agrees, exist. -/
theorem test_witness_CheckWindows_close : ∃ (u : State) (p : Nat), (pilot u p).inReset = false ∧ (pilot u p).frozen = false ∧
    (pilot u p).win.bad = false ∧ (pilot u p).armed = false ∧ (pilot u p).win.agrees = true :=
  ⟨dm_3 bk_3 id, 0, by decide⟩

/-- Every field at its reset value makes a sound state, which the statements over sound states ask for. -/
theorem test_witness_Sound : Sound State.reset = true ∧ Sound wordWanted = true := by decide

/-- R202, R561: a frame window that holds one frame, taken by the pilot port and by the control plane. -/
theorem test_witness_FrameWindows_take : ∃ (s : State) (rq : Requester) (port slot : Nat), port < 4 ∧ slot < 3 ∧ idleLanes s = true ∧
    rq = .ctl ∧ (fwinOf s port).queue slot ≠ [] ∧ s.blk.mode ≠ 4 ∧ s.pwr.entering = 0 :=
  ⟨{ State.reset with blk := { mode := 3 }, fwin := [(1, { ctl := [⟨3, [1, 2], [7, 8, 9]⟩] })] }, .ctl, 1, 0, by decide⟩

/-- R512 to R514: a slot is examined while Proving waits for one. -/
theorem test_witness_CharterSlot : ∃ (s : State) (b : Bool), s.blk.mode = 1 ∧ s.boot.keyWait = false ∧ s.boot.loading = none ∧
    b ∉ s.boot.tried ∧ (s.boot.pick = 1 → b = false) ∧ (s.boot.pick = 2 → b = true) :=
  ⟨{ State.reset with blk := { mode := 1 } }, true, by decide⟩

/-- R358: a cluster whose vintage bank is ready takes its selection, and one whose bank is not refuses it. -/
theorem test_witness_SourceSelection : ∃ (s : State) (rq : Requester) (c : Nat) (v w : W32), rq ≠ .ctl ∧ sealRights s rq = true ∧
    c < s.blk.build.clusters ∧ v.getLsbD 30 = (csrcOf s c).hold ∧ swbOf s c = false ∧ v.setWidth 2 ≠ (csrcOf s c).sel ∧
    (vbankOf s c false).state = 2 ∧ v.setWidth 2 = (1 : BitVec 2) ∧ w.setWidth 2 = (2 : BitVec 2) ∧ (vbankOf s c true).state ≠ 2 :=
  ⟨{ State.reset with vbank := [(0, { state := 2 })] }, .hm, 0, 1, 2, by decide⟩

/-- A sound state, and a command or an idle step from it that answers a next state. -/
theorem test_witness_QueueUntouched : ∃ (c : Instr) (s t : State), Sound s = true ∧ exec c s = .next t :=
  ⟨.keyWaitTimeout, State.reset, _, by decide, rfl⟩

theorem test_witness_SoundKept : ∃ s t : State, Sound s = true ∧ step s = .next t :=
  ⟨State.reset, _, by decide, rfl⟩

/-! WellFormed: one ill-formed command for each kind of check. -/

theorem test_wf_pilot : wellFormed (.nop ⟨5, 0, 0, 0, 0⟩) = false ∧ wellFormed (.nop ⟨127, 0, 0, 0, 0⟩) = true := by decide
theorem test_wf_page : wellFormed (.resume ⟨4, 0, 0, 0⟩) = false := by decide
theorem test_wf_mooring : wellFormed (.leaseExpiry (.alone 4096)) = false := by decide
theorem test_wf_reader : wellFormed (.quayCompletion (.probe 64) (cleanCpl 0 [])) = false := by decide
theorem test_wf_ring : wellFormed (.entryDue 65536) = false := by decide
theorem test_wf_entry : wellFormed (.holdExpiry 524288) = false := by decide
theorem test_wf_plane : wellFormed (.planeBurstRevoke 2) = false := by decide
theorem test_wf_path : wellFormed (.pathMissedInterval 64) = false := by decide
theorem test_wf_port : wellFormed (.prpListRead 4 0) = false := by decide
theorem test_wf_bank : wellFormed (.bankWipeDone 64) = false := by decide
theorem test_wf_slot : wellFormed (.slotValidWrite .hm 0 4 1) = false := by decide
theorem test_wf_source : wellFormed (.targetWake 4096) = false := by decide
theorem test_wf_bell : wellFormed (.bellFire 256) = false ∧ wellFormed (.ecountOverflow 64) = false := by decide

/-! A few commands on fixed values; the rule that gives each expected result is named. -/

/-- The pilot 0 of `s` after a command that answers a next state. -/
def after (i : Instr) (s : State) : Pilot := match exec i s with
  | .next t => pilot t 0
  | _ => {}

/-- R310, R321: the sum of the greatest signed word and 1 overflows into the sign, without a carry. -/
theorem test_add_overflow : let x := after (.add ⟨0, 0, 2, 0, 1⟩) (demo (demoBank [⟨0x7FFFFFFFFFFFFFFF, 1⟩, i 1] []))
    (x.reg 2).val = 0x8000000000000000 ∧ x.sw.n = true ∧ x.sw.v = true ∧ x.sw.c = false ∧ x.sw.z = false := by decide

/-- R310, R321: 0 minus 1 borrows. -/
theorem test_sub_borrow : let x := after (.sub ⟨0, 0, 0, 0, 1⟩) (demo (demoBank [i 0, i 1] []))
    (x.reg 0).val = BitVec.allOnes 64 ∧ x.sw.n = true ∧ x.sw.v = false := by decide

/-- R325: the least signed word divided by -1 gives itself, remainder 0, and sets V; 7 divided by -2 truncates toward zero. -/
theorem test_div_corners :
    (let x := after (.div ⟨0, 0, 2, 0, 1⟩) (demo (demoBank [⟨0x8000000000000000, 1⟩, i (-1)] []))
     (x.reg 2).val = 0x8000000000000000 ∧ (x.reg 3).val = 0 ∧ x.sw.v = true) ∧
    (let x := after (.div ⟨0, 0, 2, 0, 1⟩) (demo (demoBank [i 7, i (-2)] []))
     (x.reg 2).val = BitVec.ofInt 64 (-3) ∧ (x.reg 3).val = 1 ∧ x.sw.v = false) := by decide

/-- R321: BSWAP reverses the bytes, and POPC and CLZ count to 64. -/
theorem test_bswap_popc_clz :
    ((after (.bswap ⟨0, 0, 1, 0, 0⟩) (demo (demoBank [⟨0x0102030405060708, 1⟩] []))).reg 1).val = 0x0807060504030201 ∧
    ((after (.popc ⟨0, 0, 1, 0, 0⟩) (demo (demoBank [i (-1)] []))).reg 1).val = 64 ∧
    ((after (.clz ⟨0, 0, 1, 0, 0⟩) (demo (demoBank [i 0] []))).reg 1).val = 64 := by decide

/-- R18, R455: what reset leaves: mode 0, no command waiting, every pilot in reset. -/
theorem test_reset : State.reset.blk.mode = 0 ∧ State.reset.pending = [] ∧ (pilot State.reset 0).inReset = true := by decide

end Sys2Proof.Tests
end

section
/-! Accesses of the control-register window (R5, R11, R573): what a take does for a requester other than the control port,
and that a 32-bit register of a table entry beyond the build's count has none of it. -/

namespace Sys2Proof.Machine

section
variable {s : State} {rq : Requester} {a : Nat}

/-- R519: only the control port wakes the block. -/
theorem winWake_of_ne_ctl (h : rq ≠ .ctl) : winWake s rq a = s := by
  have hwake : ctlWake rq s = s := by
    cases rq with
    | ctl => exact absurd rfl h
    | pilot _ _ | hm | dbg => rfl
  simp [winWake, hwake]

/-- R573: only the control port is shown an answer. -/
theorem ctlAnswer_of_ne_ctl (h : rq ≠ .ctl) (err : Bool) (v : W64) : ctlAnswer s rq err v = s := by
  cases rq with
  | ctl => exact absurd rfl h
  | pilot _ _ | hm | dbg => rfl

/-- A take by another requester than the control port is the clearing alone, where the offset is decoded. -/
theorem registerTake_of_ne_ctl {wide : Bool} {off : BitVec 27} {v : W64} (h : rq ≠ .ctl)
    (hread : winRead s (sealRights s rq) wide off.toNat = some v) :
    exec (.registerTake rq wide off) s = .next (winTake s wide off.toNat) := by
  change execRegisterTake rq wide off s = _
  simp only [execRegisterTake, winWake_of_ne_ctl h, hread, ctlAnswer_of_ne_ctl h]

/-- R11: a 32-bit register beyond the build's count reads 0. -/
theorem winRead_of_beyond {rt : Bool} (halign : a % 4 = 0) (hnarrow : regWide (a / 8 * 8) = false)
    (hbeyond : beyond s.blk.build a = true) : winRead s rt false a = some 0 := by
  simp [winRead, halign, hnarrow, regRead32, hbeyond]

/-- R11: a take clears nothing of a 32-bit register beyond the build's count. -/
theorem winTake_of_beyond (hnarrow : regWide (a / 8 * 8) = false) (hbeyond : beyond s.blk.build a = true) :
    winTake s false a = s := by
  simp [winTake, hnarrow, regTake32, hbeyond]

end

/-- R11, R571: OZ-S has no landward port 2, so a take of PORT.QERR[2] leaves the block as it is. -/
theorem registerTake_qerr2_of_ozS {s : State} {rq : Requester} (h : rq ≠ .ctl) (hb : s.blk.build = .ozS) :
    exec (.registerTake rq false 0x70018) s = .next s := by
  have hbeyond : beyond s.blk.build (0x70018 : BitVec 27).toNat = true := by rw [hb]; decide
  have hnarrow : regWide ((0x70018 : BitVec 27).toNat / 8 * 8) = false := by decide
  rw [registerTake_of_ne_ctl h (winRead_of_beyond (by decide) hnarrow hbeyond), winTake_of_beyond hnarrow hbeyond]

/-- An OZ-S block, as after reset, whose drop count of landward port 2 is 1. -/
def countOfMissingPort : State := { State.resetOf .ozS with plc := { qdrops := [(2, 1)] } }

/-- Refutes O45: the statement has every block clear the drop count of PORT.QERR[2] by a take, but OZ-S has landward ports
0 and 1 alone, and R11 has a register beyond the count ignore the access.  The count of `countOfMissingPort` stays. -/
theorem not_registerAccess : ¬ Obligations.RegisterAccess := by
  unfold Obligations.RegisterAccess
  rintro ⟨-, -, htakes, -⟩
  have hne : Requester.hm ≠ .ctl := by decide
  obtain ⟨-, -, -, -, -, -, hclears, -, -⟩ := htakes countOfMissingPort .hm hne
  rw [registerTake_qerr2_of_ozS hne rfl] at hclears
  have hcount : countOfMissingPort.plc.qdrops = Table.put 0 countOfMissingPort.plc.qdrops 2 0 :=
    congrArg (fun t : State => t.plc.qdrops) (Host.Outcome.next.inj hclears)
  exact absurd hcount (by decide)

end Sys2Proof.Machine
end

section
/-! Soundness along the run (R17, R255): the two ways a step goes, the tick of an idle block and the command at the front
of the queue, each keep `Inv`, which is `Sound` with the queue named. -/

namespace Sys2Proof.Machine

/-- Taking the front command off the queue leaves the part of the state that `Sound` reads. -/
theorem inv_dequeued {q rest : List Instr} {s : State} (hInv : Inv q s) : Inv rest { s with pending := rest } := by
  obtain ⟨hsound, -⟩ := (inv_iff q s).1 hInv
  exact (inv_iff rest _).2 ⟨hsound, rfl⟩

/-- A step of a state whose queue is `q` keeps the invariant; what waits then is `q` without its front. -/
theorem step_inv {q : List Instr} {s t : State} (hInv : Inv q s) (hstep : step s = .next t) : Inv q.tail t := by
  have hq := hInv.queue
  unfold step at hstep
  cases q with
  | nil =>
    rw [hq] at hstep
    obtain rfl : tick s = t := Host.Outcome.next.inj hstep
    exact tick_inv s hInv
  | cons c rest =>
    rw [hq] at hstep
    exact exec_inv c _ (inv_dequeued hInv) t hstep

/-- Settles O54: `step_inv` at the queue that the state holds. -/
theorem soundKept : Obligations.SoundKept := by
  unfold Obligations.SoundKept
  intro s t hsound hstep
  have hInv : Inv s.pending s := (inv_iff _ s).2 ⟨hsound, rfl⟩
  exact ((inv_iff _ t).1 (step_inv hInv hstep)).1

end Sys2Proof.Machine
end

section
/-! The entry to a drowse level against a held mooring (R138, R509). -/

namespace Sys2Proof.Machine

/-- R138: no drowse level is entered while a mooring is held. -/
theorem drowseLevelEntered_of_moorHeld {s : State} (hheld : moorHeld s = true) :
    exec .drowseLevelEntered s = .next s := by
  change execDrowseLevelEntered s = _
  simp [execDrowseLevelEntered, hheld]

/-- A block at D1 with the entry to D2 under way, as after D2_DWELL_EXPIRY, in which mooring 0 has been taken since. -/
def enteringWhileMoored : State :=
  { State.reset with blk := { mode := 4, dlevel := 1 }, pwr := { entering := 2 }, moor := [(0, { mst := 1 })] }

/-- Refutes O39: the statement has every entry under way end in the level with the fast clock stopped, but R138 lets the
block enter D2 or D3 only while no mooring is held, and the model keeps to it.  The fast clock of `enteringWhileMoored`
runs on. -/
theorem not_powerAndSensors : ¬ Obligations.PowerAndSensors := by
  unfold Obligations.PowerAndSensors
  rintro ⟨-, -, -, -, hentry, -⟩
  obtain ⟨-, -, henters, -⟩ := hentry enteringWhileMoored
  obtain ⟨t, hexec, -, hstopped, -⟩ := henters rfl (.inr rfl) (by decide)
  have hstays : exec .drowseLevelEntered enteringWhileMoored = .next enteringWhileMoored :=
    drowseLevelEntered_of_moorHeld (by decide)
  obtain rfl : enteringWhileMoored = t := Host.Outcome.next.inj (hstays.symm.trans hexec)
  exact absurd hstopped (by decide)

end Sys2Proof.Machine
end

section
/-! The change of HBR.TWIN.STATE (R150, R194): the event that it raises leaves the harbour registers alone, so what
`setTstate` makes of them is the new STATE and the PD.ACTIVE that goes with it. -/

namespace Sys2Proof.Machine

/-- An orphan is noted in the event controller alone (R460). -/
theorem noteOrphan_hbr (s : State) (n : Nat) : (noteOrphan s n).hbr = s.hbr := by
  unfold noteOrphan
  split <;> rfl

/-- An edge stays in the event controller (R451, R461). -/
theorem edgeOnly_hbr (s : State) (n : Nat) : (edgeOnly s n).hbr = s.hbr := by
  unfold edgeOnly
  dsimp only
  split
  · rfl
  split
  · rfl
  split
  · rfl
  · exact noteOrphan_hbr _ n

mutual
/-- A counter's step, with the counters chained to it and the source it raises, leaves the harbour registers. -/
theorem ecAdd_hbr : ∀ (fuel : Nat) (s : State) (k n : Nat), (ecAdd fuel s k n).hbr = s.hbr
  | 0, _, _, _ => by simp only [ecAdd]
  | fuel + 1, s, k, n => by
    simp only [ecAdd]
    split
    · rfl
    · rw [raiseF_hbr fuel]
      split
      · exact ecAdd_hbr fuel _ (k + 1) 1
      · rfl
/-- A rising edge, counted or not, leaves the harbour registers. -/
theorem raiseF_hbr : ∀ (fuel : Nat) (s : State) (n : Nat), (raiseF fuel s n).hbr = s.hbr
  | 0, _, _ => by simp only [raiseF]
  | fuel + 1, s, n => by
    simp only [raiseF]
    rw [edgeOnly_hbr]
    split
    · rfl
    · exact countAll_hbr fuel s _
/-- Counting one in each of a list of counters leaves the harbour registers. -/
theorem countAll_hbr : ∀ (fuel : Nat) (s : State) (ks : List Nat), (countAll fuel s ks).hbr = s.hbr
  | 0, _, _ => by simp only [countAll]
  | _ + 1, _, [] => by simp only [countAll]
  | fuel + 1, s, k :: ks => by
    simp only [countAll]
    rw [countAll_hbr fuel _ ks, ecAdd_hbr fuel s k 1]
end

/-- A raised event leaves the harbour registers. -/
@[simp] theorem raise_hbr (s : State) (n : Nat) : (raise s n).hbr = s.hbr := by
  unfold raise
  split
  · exact raiseF_hbr 200 s n
  · rfl

/-- A change of STATE writes STATE and, with it, PD.ACTIVE. -/
theorem setTstate_hbr {s : State} {v : BitVec 3} (hne : s.hbr.tstate ≠ v) :
    (setTstate s v).hbr = { s.hbr with tstate := v, pdActive := decide (v = 6) } := by
  simp only [setTstate, if_neg hne, raise_hbr]

/-- R162: the second missed interval makes an ACTIVE twin SUSPECT. -/
theorem missedInterval_of_second {s : State} (hactive : s.hbr.tstate = 2) (hmiss : s.tw.miss = 1)
    (hwake : s.tw.wakeSent = false) (hclock : s.fstop = false) :
    exec .missedInterval s = .next (setTstate (updTw s (fun t => { t with miss := 2 })) 3) := by
  change execMissedInterval s = _
  simp [execMissedInterval, updTw, hactive, hmiss, hwake, hclock]

/-- An ACTIVE twin that has missed one interval, in a block whose PD.ACTIVE bit is 1. -/
def activeWithPdBit : State :=
  { State.reset with hbr := { tstate := 2, pdActive := true }, tw := { miss := 1 } }

/-- Refutes O30: the statement, which speaks of every state, has the second missed interval change nothing of the harbour
registers but STATE, while the model writes PD.ACTIVE, "STATE is DROWSED" (R194), with every change of STATE.  The bit of
`activeWithPdBit` becomes 0 where the statement keeps it at 1: its clause lacks the premise that the bit is 0. -/
theorem not_lossAndFencing : ¬ Obligations.LossAndFencing := by
  unfold Obligations.LossAndFencing
  rintro ⟨hmissed, -⟩
  obtain ⟨-, -, hsuspect⟩ := hmissed activeWithPdBit (by decide) (by decide) rfl (by decide)
  have hsaid := hsuspect rfl rfl rfl
  rw [missedInterval_of_second rfl rfl rfl rfl] at hsaid
  have hhbr := congrArg State.hbr (Host.Outcome.next.inj hsaid)
  rw [setTstate_hbr (by decide), raise_hbr] at hhbr
  exact absurd hhbr (by decide)

end Sys2Proof.Machine
end

section
/-! What an event changes: a rising edge, and the sampling of a level source, reach the event controller and the event
counters alone (R451, R452, R460, R476). -/

namespace Sys2Proof.Machine

/-- The state but for its event controller and event counters. -/
def besidesEvents (s : State) : State := { s with evc := {}, ecnt := [] }

theorem noteOrphan_besidesEvents (s : State) (n : Nat) : besidesEvents (noteOrphan s n) = besidesEvents s := by
  unfold noteOrphan
  split <;> rfl

theorem edgeOnly_besidesEvents (s : State) (n : Nat) : besidesEvents (edgeOnly s n) = besidesEvents s := by
  unfold edgeOnly
  dsimp only
  split
  · rfl
  split
  · rfl
  split
  · rfl
  · exact noteOrphan_besidesEvents _ n

mutual
/-- A counter's step, with the counters chained to it and the source it raises. -/
theorem ecAdd_besidesEvents : ∀ (fuel : Nat) (s : State) (k n : Nat), besidesEvents (ecAdd fuel s k n) = besidesEvents s
  | 0, _, _, _ => by simp only [ecAdd]
  | fuel + 1, s, k, n => by
    simp only [ecAdd]
    split
    · rfl
    · rw [raiseF_besidesEvents fuel]
      split
      · exact ecAdd_besidesEvents fuel _ (k + 1) 1
      · rfl
theorem raiseF_besidesEvents : ∀ (fuel : Nat) (s : State) (n : Nat), besidesEvents (raiseF fuel s n) = besidesEvents s
  | 0, _, _ => by simp only [raiseF]
  | fuel + 1, s, n => by
    simp only [raiseF]
    rw [edgeOnly_besidesEvents]
    split
    · rfl
    · exact countAll_besidesEvents fuel s _
theorem countAll_besidesEvents : ∀ (fuel : Nat) (s : State) (ks : List Nat),
    besidesEvents (countAll fuel s ks) = besidesEvents s
  | 0, _, _ => by simp only [countAll]
  | _ + 1, _, [] => by simp only [countAll]
  | fuel + 1, s, k :: ks => by
    simp only [countAll]
    rw [countAll_besidesEvents fuel _ ks, ecAdd_besidesEvents fuel s k 1]
end

/-- A raised event reaches the event controller and the counters alone. -/
@[simp] theorem raise_besidesEvents (s : State) (n : Nat) : besidesEvents (raise s n) = besidesEvents s := by
  unfold raise
  split
  · exact raiseF_besidesEvents 200 s n
  · rfl

/-- A sampled level source reaches the event controller and the counters alone. -/
@[simp] theorem sampleLevel_besidesEvents (s : State) (n : Nat) : besidesEvents (sampleLevel s n) = besidesEvents s := by
  simp only [sampleLevel]
  split
  · rfl
  rw [noteOrphan_besidesEvents]
  split
  · exact countAll_besidesEvents 200 _ _
  · rfl

@[simp] theorem raise_ltr (s : State) (n : Nat) : (raise s n).ltr = s.ltr :=
  (congrArg State.ltr (raise_besidesEvents s n) :)

@[simp] theorem raise_hm (s : State) (n : Nat) : (raise s n).hm = s.hm :=
  (congrArg State.hm (raise_besidesEvents s n) :)

@[simp] theorem ring_sampleLevel (s : State) (n k : Nat) : ring (sampleLevel s n) k = ring s k :=
  (congrArg (fun t : State => ring t k) (sampleLevel_besidesEvents s n) :)

end Sys2Proof.Machine
end

section
/-! The keys of the cipher port (R54, R263 to R266, R270, R537). -/

namespace Sys2Proof.Machine

section
variable {s : State} {h : Nat}

@[simp] theorem keyOf_setKey_self (s : State) (h : Nat) (k : CKey) : keyOf (setKey s h k) h = k :=
  Table.get_put_self _ _ _ _

/-- The second of two writes of a handle stands alone, where the first enables it. -/
theorem setKey_setKey_of_enabled {k : CKey} (hen : k.en = true) (k' : CKey) :
    setKey (setKey s h k) h k' = setKey s h k' := by
  have hk : k ≠ {} := fun hd => Bool.noConfusion (hen.symm.trans (congrArg CKey.en hd))
  simp only [setKey, Table.put_put_ne _ _ _ hk]

/-- A log record is the Harbourmaster's: the account of a handle and the cipher port stay. -/
@[simp] theorem hmLog_ltr (s : State) (c : BitVec 16) (a b : W64) : (hmLog s c a b).ltr = s.ltr := rfl
@[simp] theorem hmLog_acct (s : State) (c : BitVec 16) (a b : W64) : (hmLog s c a b).hm.acct = s.hm.acct := rfl

/-! A write of KEY (R270). -/

/-- A requester with the rights of SEAL fields, other than the control port, writes the handle. -/
theorem keyEnable_eq {rq : Requester} (v : W64) (hrq : rq ≠ .ctl) (hseal : sealRights s rq = true) (hh : h < 4096) :
    exec (.keyEnable rq h v) s = .next (keyWrite s h v) := by
  have hwake : ctlWake rq s = s := by
    cases rq with
    | ctl => exact absurd rfl hrq
    | pilot _ _ | hm | dbg => rfl
  change execKeyEnable rq h v s = _
  simp only [execKeyEnable, hwake, if_pos (And.intro hh hseal)]

/-- R270: setting EN asks the engine for the first generation. -/
theorem keyWrite_of_enabling {v : W64} (hv : v.getLsbD 36 = true) (hen : (keyOf s h).en = false)
    (hreq : (keyOf s h).requested = false) :
    keyWrite s h v = emit (setKey s h { keyOf s h with en := true, requested := true }) (.cipherKey h) := by
  simp only [keyWrite, requestGen, hv, hen, Bool.not_false, Bool.and_self, if_true, keyOf_setKey_self, hreq,
    Bool.false_eq_true, if_false, setKey_setKey_of_enabled]

/-- Setting EN where a generation is there or on its way asks for none. -/
theorem keyWrite_of_enabled {v : W64} (hv : v.getLsbD 36 = true)
    (hthere : (keyOf s h).en = true ∨ (keyOf s h).requested = true) :
    keyWrite s h v = setKey s h { keyOf s h with en := true } := by
  simp only [keyWrite, requestGen, hv, keyOf_setKey_self]
  rcases hthere with hen | hreq
  · simp only [hen, Bool.not_true, Bool.and_false, Bool.false_eq_true, if_false]
  · simp only [hreq, if_true, ite_self]

theorem keyWrite_of_disabling {v : W64} (hv : v.getLsbD 36 = false) :
    keyWrite s h v = setKey s h { keyOf s h with en := false } := by
  simp only [keyWrite, hv, Bool.false_and, Bool.false_eq_true, if_false]

/-! A generation of the engine (R264, R266, R537). -/

/-- The handle as a new generation leaves it. -/
def CKey.renewed (k : CKey) : CKey := { k with gen := k.gen + 1, use := 0, st := 1, requested := false }

/-- CIP.STAT shows READY. -/
def cipherReady (s : State) : State := { s with ltr := { s.ltr with ready := true } }

/-- No exchange waits for a rekey where there is no exchange. -/
theorem endRekeyWaits_of_none (hxc : s.xc = []) : endRekeyWaits s h = s := by
  simp [endRekeyWaits, hxc]

/-- A generation that was asked for: the account of the one before it, if there is one, is closed first (R537). -/
theorem generationInstalled_eq (hh : h < 4096) (hxc : s.xc = []) (hen : (keyOf s h).en = true)
    (hreq : (keyOf s h).requested = true) (hgen : (keyOf s h).gen ≠ 0xFFFFFF) :
    exec (.generationInstalled h) s = .next (raise (cipherReady (setKey
      (if (keyOf s h).st = 0 ∨ (keyOf s h).st = 4 then s else acctAdd s h true) h (keyOf s h).renewed)) 7) := by
  have hnone : (cipherReady (setKey (if (keyOf s h).st = 0 ∨ (keyOf s h).st = 4 then s else acctAdd s h true) h
      (keyOf s h).renewed)).xc = [] := by
    split <;> exact hxc
  change execGenerationInstalled h s = _
  exact congrArg Host.Outcome.next ((if_pos ⟨hh, hen, hreq, hgen⟩).trans
    (congrArg (raise · 7) (endRekeyWaits_of_none hnone)))

/-- R266: a generation that no handle waits for changes nothing. -/
theorem generationInstalled_of_unasked (h : Nat) (hno : (keyOf s h).en = false ∨ (keyOf s h).requested = false) :
    exec (.generationInstalled h) s = .next s := by
  have hbar : ¬ (h < 4096 ∧ (keyOf s h).en = true ∧ (keyOf s h).requested = true ∧ (keyOf s h).gen ≠ 0xFFFFFF) := by
    rintro ⟨-, hen, hreq, -⟩
    simp [hen, hreq] at hno
  change execGenerationInstalled h s = _
  exact congrArg Host.Outcome.next (if_neg hbar)

/-- R537: the account takes the final USE of the generation that ends. -/
theorem acct_acctAdd (s : State) (h : Nat) (rekey : Bool) :
    Table.get {} (acctAdd s h rekey).hm.acct h =
      { Table.get {} s.hm.acct h with
        total := (Table.get {} s.hm.acct h).total + (keyOf s h).use.setWidth 64
        rekeys := if rekey then (Table.get {} s.hm.acct h).rekeys + 1 else (Table.get {} s.hm.acct h).rekeys
        event := false } := by
  simp [acctAdd]

@[simp] theorem acctAdd_ltr (s : State) (h : Nat) (rekey : Bool) : (acctAdd s h rekey).ltr = s.ltr := rfl

/-! The alarm (R266, R537). -/

/-- The handle as the alarm leaves it. -/
def CKey.lost (k : CKey) : CKey := { k with st := 4, requested := true }

/-- The alarm with one handle enabled: the handle is LOST, and CIP.STAT shows the alarm and `ready`. -/
theorem alarmed_ltr_of_one {k : CKey} (ready : Bool) (hkeys : s.ltr.keys = [(h, k)]) (hen : k.en = true) :
    (alarmed s ready).ltr = { s.ltr with alarm := true, ready := ready, keys := Table.put {} s.ltr.keys h k.lost } := by
  have hk : keyOf s h = k := by simp [keyOf, hkeys, Table.get]
  have hlost : ∀ u : State, u.ltr = s.ltr → keyOf u h = k := fun u hu => by simpa only [keyOf, hu] using hk
  simp only [alarmed, hkeys, hen, List.filter_cons_of_pos, List.filter_nil, List.map_cons, List.map_nil,
    List.foldl_cons, List.foldl_nil, hmLog_ltr]
  split
  · simp only [setKey, hk, CKey.lost, hkeys]
  · simp only [setKey, hlost _ (acctAdd_ltr s h false), CKey.lost, acctAdd_ltr, hkeys]

/-- No cipher order ends where no lighter has an order. -/
theorem endCipherOrders_of_none (hnone : s.ltr.lighters = []) : endCipherOrders s = s := by
  simp [endCipherOrders, hnone]

end

/-- Settles O34: a write of KEY, a generation and an alarm, each by the lemma of its case. -/
theorem cipherKeys : Obligations.CipherKeys := by
  unfold Obligations.CipherKeys
  refine ⟨?_, ?_, ?_⟩
  · intro s rq h v _ hrq hseal hh
    dsimp only
    rw [keyEnable_eq v hrq hseal hh]
    refine ⟨fun hv hen hreq => ?_, fun hv hthere => ?_, fun hv => ?_⟩
    · rw [keyWrite_of_enabling hv hen hreq]
    · rw [keyWrite_of_enabled hv hthere]
    · rw [keyWrite_of_disabling hv]
  · intro s h _ hh hxc
    refine ⟨fun hen hreq hgen hst => ?_,
      fun hen hreq hgen hst hst' => ⟨_, generationInstalled_eq hh hxc hen hreq hgen, ?_⟩,
      generationInstalled_of_unasked h⟩
    · rw [generationInstalled_eq hh hxc hen hreq hgen, if_pos hst]
      rfl
    · rw [if_neg (not_or.2 ⟨hst, hst'⟩), keyOf, raise_ltr, raise_hm]
      exact ⟨keyOf_setKey_self _ _ _, congrArg KeyAcct.total (acct_acctAdd s h true),
        congrArg KeyAcct.rekeys (acct_acctAdd s h true)⟩
  · intro s h k hkeys hen hnone
    have hltr := alarmed_ltr_of_one (s := (takeFree s).2) ((Config.freeWord s.freeCtr).getLsbD 0) hkeys hen
    have horders := endCipherOrders_of_none ((congrArg Ltr.lighters hltr).trans hnone)
    refine ⟨_, congrArg (fun u => Host.Outcome.next (raise u 7)) horders, ?_⟩
    rw [keyOf, raise_ltr, hltr]
    exact ⟨rfl, rfl, Table.get_put_self _ _ _ _⟩

end Sys2Proof.Machine
end

section
/-! The end of an exchange against its waiting held record: an end takes the exchange off its ring's list of held records
that wait (R48, R60), while `exchangeEnded`, in whose terms four statements speak, leaves the ring alone. -/

namespace Sys2Proof.Machine

/-- R48, R60: an ended exchange waits for no held record. -/
theorem helds_endX (s : State) (i : Nat) (st : BitVec 8) (resid : Nat) (d : Option (BitVec 15)) :
    (ring (endX s i st resid d) (ringOfEntry s (own s i))).helds =
      (ring s (ringOfEntry s (own s i))).helds.filter (fun j => decide (j ≠ i)) := by
  simp [endX, unhold]

@[simp] theorem ring_exchangeEnded (s : State) (i : Nat) (st : BitVec 8) (resid n : Nat) :
    ring (exchangeEnded s i st resid) n = ring s n := rfl

/-- Where the ring lists the exchange as waiting for its held record, the model's end and `exchangeEnded` differ in it. -/
theorem ring_endX_ne {s u : State} {i resid resid' : Nat} {st st' : BitVec 8} {d : Option (BitVec 15)}
    (hwaits : i ∈ (ring u (ringOfEntry s (own s i))).helds) :
    ring (endX s i st resid d) (ringOfEntry s (own s i)) ≠
      ring (exchangeEnded u i st' resid') (ringOfEntry s (own s i)) := by
  intro heq
  have hhelds := congrArg Ring.helds heq
  rw [helds_endX, ring_exchangeEnded] at hhelds
  rw [← hhelds] at hwaits
  simp at hwaits

theorem endX_ne_exchangeEnded {s u : State} {i resid resid' : Nat} {st st' : BitVec 8} {d : Option (BitVec 15)}
    (hwaits : i ∈ (ring u (ringOfEntry s (own s i))).helds) :
    endX s i st resid d ≠ exchangeEnded u i st' resid' :=
  fun heq => ring_endX_ne hwaits (congrArg (fun t : State => ring t (ringOfEntry s (own s i))) heq)

/-! A held exchange that ends (R42, R45). -/

/-- R42: a hold that expires ends the exchange. -/
theorem holdExpiry_of_held {s : State} {i : Nat} (hheld : (own s i).held = true) (hruns : (xctx s i).ended = false) :
    exec (.holdExpiry i) s = .next (endX s i 0x41 0 none) := by
  change execHoldExpiry i s = _
  simp only [execHoldExpiry, if_pos (And.intro hheld hruns)]

/-- R75, R76: an enabled ring's page takes the write. -/
theorem pageTakes_of_pageOpen {s : State} {w : PageWrite} (hopen : pageOpen s w = true) (disabledToo : Bool) :
    pageTakes s w disabledToo = true ∧ (ring s w.ring).en = true := by
  simp only [pageOpen, Bool.and_eq_true, decide_eq_true_eq] at hopen
  obtain ⟨⟨⟨⟨hring, hbe⟩, hport⟩, hen⟩, hclock⟩ := hopen
  simp [pageTakes, hring, hbe, hport, hen, hclock]

/-- R45: CANCEL ends a held exchange. -/
theorem cancelX_of_held {s : State} {i : Nat} (hruns : (xctx s i).ended = false) (hst : (own s i).st.toNat < 4)
    (hfence : (own s i).fenced = false) (hheld : (own s i).held = true) : cancelX s i = endX s i 0x40 0 none := by
  simp [cancelX, hruns, hfence, hheld, Nat.not_le.2 hst]

/-- R43, R80: a CANCEL acts on the exchange that it names, and enters the release queue. -/
theorem cancel_of_target {s : State} {w : PageWrite} {i : Nat} (hopen : pageOpen s w = true)
    (hroom : s.evc.relq.length < 1024) (hact : w.data.extractLsb' 30 2 = 2)
    (htarget : releaseTarget s w.ring (w.data.extractLsb' 0 16) = some i) :
    exec (.cancel w) s = .next (sampleLevel
      (let u := cancelX s i
       { u with evc := { u.evc with
           relq := u.evc.relq ++ [⟨BitVec.ofNat 16 w.ring, 2, w.data.extractLsb' 0 16⟩] } }) 2) := by
  obtain ⟨htakes, hen⟩ := pageTakes_of_pageOpen hopen false
  change execCancel w s = _
  simp [execCancel, htakes, pageWrite, hen, relWrite, Nat.not_le.2 hroom, hact, htarget]

/-- Exchange 0 has run a HOLD word, and its held record waits for a completion slot; an MPUT has set its HELD since (R48,
R131). -/
def heldWhileRecordWaits : State :=
  { State.reset with
    blk := { mode := 3 }, rings := [(0, { en := true, helds := [0] })], own := [(0, { st := 2, held := true })]
    xc := [(0, { active := true, nwords := 1, heldWait := true })] }

/-- CANCEL of tag 0 on ring 0. -/
def cancelTagZero : PageWrite := { lp := 0, ring := 0, be := 15, data := 0x80000000 }

/-- Refutes O20: the statement has a CANCEL of a held exchange change the exchange and the release queue alone, but the end
of an exchange also takes its waiting held record off the ring (R48, R60).  Ring 0 of `heldWhileRecordWaits` loses it. -/
theorem not_ringPages : ¬ Obligations.RingPages := by
  unfold Obligations.RingPages
  rintro ⟨-, hrelease⟩
  have hopen : pageOpen heldWhileRecordWaits cancelTagZero = true := by decide
  have htarget : releaseTarget heldWhileRecordWaits 0 0 = some 0 := by decide
  obtain ⟨-, hcancel, -⟩ := hrelease heldWhileRecordWaits cancelTagZero 0 (by decide) hopen (by decide)
  obtain ⟨hends, -⟩ := hcancel htarget (by decide)
  obtain ⟨hheld, -⟩ := hends (by decide) (by decide) (.inl (by decide))
  have hsaid := hheld (.inl (by decide))
  rw [cancel_of_target hopen (by decide) (by decide) htarget,
    cancelX_of_held (by decide) (by decide) (by decide) (by decide)] at hsaid
  have hring : ring (endX heldWhileRecordWaits 0 0x40 0 none) 0 = ring (exchangeEnded heldWhileRecordWaits 0 0x40 0) 0 := by
    have hrings := congrArg (fun t : State => ring t 0) (Host.Outcome.next.inj hsaid)
    simp only [ring_sampleLevel] at hrings
    exact hrings
  exact ring_endX_ne (by decide) hring

/-- Refutes O21: the statement has the expiry of a hold change the exchange alone, but the end of an exchange also takes its
waiting held record off the ring (R48, R60).  Ring 0 of `heldWhileRecordWaits` loses it. -/
theorem not_ringsAndRecords : ¬ Obligations.RingsAndRecords := by
  unfold Obligations.RingsAndRecords
  rintro ⟨-, -, -, -, hexpiry, -⟩
  have hsaid := hexpiry heldWhileRecordWaits 0 (by decide) (by decide)
  rw [holdExpiry_of_held (by decide) (by decide)] at hsaid
  exact endX_ne_exchangeEnded (by decide) (Host.Outcome.next.inj hsaid)

/-! A command word that ends its exchange (R30, R31). -/

/-- R562: a clean completion on a port that exists is not dropped. -/
theorem quayDrop_cleanCpl {s : State} {port : Nat} {l : List W64} (hport : port < 12) :
    quayDrop s (cleanCpl port l) = none := by
  simp [quayDrop, cleanCpl, Nat.not_le.2 hport]

/-- R28: a word after the first, of a program that is not being walked, is started. -/
theorem quayCompletion_word {s : State} {i port : Nat} {lo hi : W64} {l : List W64} (hport : port < 12)
    (hwants : wantsWord s i = true) (hnot : (xctx s i).nwords ≠ 0) (hfew : (xctx s i).nwords ≠ 4096)
    (hpre : (xctx s i).pre = none) :
    exec (.quayCompletion (.word i) (cleanCpl port (lo :: hi :: l))) s =
      .next (startWord (setOwn s i { own s i with curw := (xctx s i).next.extractLsb' 4 60 }) i
        { idx := (xctx s i).nwords, addr := (xctx s i).next, w := CWord.decode lo hi }) := by
  change execQuayCompletion (.word i) (cleanCpl port (lo :: hi :: l)) s = _
  simp only [execQuayCompletion, quayDrop_cleanCpl hport]
  simp [hwants, hfew, cleanCpl, twoWords, gotWord, hnot, hpre, updOwn]

/-- R31: a word without a gather list that breaks a rule ends the exchange with the status of the rule. -/
theorem startWord_of_fault {s : State} {i : Nat} {wx : WordX} {c : BitVec 8}
    (hfault : wordFault (berthOf s i) wx.idx (xctx s i).total (decide ((own s i).pos ≠ BitVec.allOnes 64)) (own s i).fenced
      wx.w = some c) (hbuf : wx.w.buf ≠ 1) :
    startWord s i wx = failWord s i wx.idx wx.w c := by
  simp only [startWord, hfault, hbuf, decide_false, Bool.false_and, Bool.false_eq_true, if_false]

/-- A word that ends its exchange takes the waiting held record off the ring, which `wordEnded` leaves alone. -/
theorem failWord_ne_wordEnded {s u : State} {i idx idx' n resid : Nat} {w : CWord} {st st' : BitVec 8}
    (hwaits : i ∈ (ring u (ringOfEntry s (own s i))).helds) :
    failWord s i idx w st ≠ wordEnded u i idx' n st' resid := by
  have hentry : ringOfEntry (updOwn s i (fun e => { e with lastw := BitVec.ofNat 12 idx }))
      (own (updOwn s i (fun e => { e with lastw := BitVec.ofNat 12 idx })) i) = ringOfEntry s (own s i) := by
    rw [own_updOwn_self]
    rfl
  unfold failWord wordEnded
  exact endX_ne_exchangeEnded (by rw [hentry]; exact hwaits)

/-- Entry 0 runs the second word of a program, on a ring that still lists it for the held record of the exchange before,
which MSTEP has taken from its hold to FREE (R48, R123). -/
def reusedWhileRecordWaits : State :=
  { State.reset with
    blk := { mode := 3 }, rings := [(0, { en := true, helds := [0] })], own := [(0, { st := 1, gen := 2 })]
    xc := [(0, { active := true, nwords := 1 })] }

/-- Refutes O43: the statement has a word with an unknown opcode, here 0, change the exchange alone, but the end of an
exchange also takes a held record that waits in its name off the ring (R48, R60).  Ring 0 of `reusedWhileRecordWaits`
loses it. -/
theorem not_channelPrograms : ¬ Obligations.ChannelPrograms := by
  unfold Obligations.ChannelPrograms
  rintro ⟨hword, -⟩
  have hwants : wantsWord reusedWhileRecordWaits 0 = true := by decide
  obtain ⟨-, -, -, -, -, hunknown, -⟩ := hword reusedWhileRecordWaits 0 0 0 0 [] (by decide) (by decide) hwants
    (by decide) (by decide) (by decide) (by decide) (by decide)
  have hsaid := hunknown (.inl (by decide))
  rw [quayCompletion_word (by decide) hwants (by decide) (by decide) (by decide),
    startWord_of_fault (c := 0x10) (by decide) (by decide)] at hsaid
  exact failWord_ne_wordEnded (by decide) (Host.Outcome.next.inj hsaid)

/-- Refutes O47: the statement has a COMPARE_WRITE outside a fence, here of 512 bytes, change the exchange alone, but the
end of an exchange also takes a held record that waits in its name off the ring (R48, R60).  Ring 0 of
`reusedWhileRecordWaits` loses it. -/
theorem not_refusedWords : ¬ Obligations.RefusedWords := by
  unfold Obligations.RefusedWords
  rintro ⟨hword, -⟩
  have hwants : wantsWord reusedWhileRecordWaits 0 = true := by decide
  obtain ⟨hcompareWrite, -⟩ := hword reusedWhileRecordWaits 0 0 0 0x0500000000000200 [] (by decide) (by decide) hwants
    (by decide) (by decide) (by decide) (by decide)
  obtain ⟨hends, -⟩ := hcompareWrite (by decide) (by decide)
  have hsaid := hends (by decide)
  rw [quayCompletion_word (by decide) hwants (by decide) (by decide) (by decide),
    startWord_of_fault (c := 0x18) (by decide) (by decide)] at hsaid
  exact failWord_ne_wordEnded (by decide) (Host.Outcome.next.inj hsaid)

end Sys2Proof.Machine
end

section
/-! A write of a path slot against the commands on it (R285, R286, R290): a slot that the write takes away from its UP path
loses its commands, and each of them stops counting in the slot's OUTST. -/

namespace Sys2Proof.Machine

/-- R519: only the control port wakes the block. -/
theorem ctlWake_of_ne_ctl {rq : Requester} (h : rq ≠ .ctl) (s : State) : ctlWake rq s = s := by
  cases rq with
  | ctl => exact absurd rfl h
  | pilot _ _ | hm | dbg => rfl

/-- R286, R289: a requester other than the control port writes the whole word of a slot that exists. -/
theorem slotValidWrite_of_ne_ctl {s : State} {rq : Requester} {b k : Nat} (v : W64) (hrq : rq ≠ .ctl)
    (hb : b < s.blk.build.berths) (hk : k < 4) :
    exec (.slotValidWrite rq b k v) s = .next (slotWrite s b k v (BitVec.allOnes 64)) := by
  change execSlotValidWrite rq b k v s = _
  simp only [execSlotValidWrite, ctlWake_of_ne_ctl hrq, if_pos (And.intro hb hk)]

/-- A CLOSED berth whose slot 1 is valid and UP, by path 0 to block 1, with one command of exchange 0 on it; the namespace
of its slot 0 cannot be shared with the twin. -/
def closedWithCommand : State :=
  { State.reset with
    berths := [(0, { nguid := 1, nsid := 1, slots := [(0, { v := true }), (1, { v := true, outst := 1 })] })]
    ctls := [(0, { spaces := [⟨1, 1, 0, false, true, 0, 0, false, false, false, false⟩] })]
    paths := [(0, { state := 2, peer := 1 })], members := [(1, { known := true, nguids := [1] })]
    own := [(0, { st := 3 })], xc := [(0, { active := true })]
    dcmds := [(67108864, some ⟨0, 1, .part 0, 0, 0, false, .device, none, 1, 0, false, none⟩)] }

/-- V set and TGT 1, a path that is not UP. -/
def aimedAtPathOne : W64 := 0x8080000000000000

/-- R285, R290: the command leaves the slot that the write takes from path 0. -/
theorem outst_slotWrite_closedWithCommand :
    ((berth (slotWrite closedWithCommand 0 1 aimedAtPathOne (BitVec.allOnes 64)) 0).slot 1).outst = 0 := by decide

/-- Refutes O35: the statement has a write of slot 1 of a CLOSED berth, of a namespace that cannot be shared, change TGT,
SBERTH and LOSSES alone, also where the slot was UP (the clauses beside it have `slotUp s x k = false`).  But a slot aimed
at a path that is not UP loses its commands (R290).  OUTST of `closedWithCommand`'s slot 1 falls from 1 to 0. -/
theorem not_dockControllers : ¬ Obligations.DockControllers := by
  unfold Obligations.DockControllers
  rintro ⟨-, -, -, -, -, -, hslots⟩
  have hne : Requester.hm ≠ .ctl := by decide
  obtain ⟨-, hunshared, -⟩ :=
    hslots closedWithCommand .hm 0 1 aimedAtPathOne (by decide) hne (by decide) (by decide)
  obtain ⟨t, hexec, hsaid⟩ := hunshared rfl rfl (by decide) (by decide)
  rw [slotValidWrite_of_ne_ctl aimedAtPathOne hne (by decide) (by decide)] at hexec
  obtain rfl := Host.Outcome.next.inj hexec
  have hout := congrArg Slot.outst hsaid
  rw [outst_slotWrite_closedWithCommand] at hout
  exact absurd hout (by decide)

end Sys2Proof.Machine
end

section
/-! A scan that starts beyond the partition (R132). -/

namespace Sys2Proof.Machine

/-- No entry of the partition lies at or beyond a start index beyond it. -/
theorem filter_range_of_start_beyond {n start : Nat} (h : n ≤ start) (p : Nat → Bool) :
    (List.range n).filter (fun i => decide (start ≤ i) && p i) = [] := by
  rw [List.filter_eq_nil_iff]
  intro i hi
  have hlt : ¬ start ≤ i := by have := List.mem_range.1 hi; omega
  simp [hlt]

/-- The value of register `d` of pilot `p` after a command that answers a next state. -/
def regAfter (o : Out) (p : Nat) (d : BitVec 5) : W64 :=
  match o with
  | .next t => ((pilot t p).reg d).val
  | _ => 0

/-- A pilot whose D0 asks for one entry from index 131,073 on, whose D1 is an empty predicate and whose A0 is address 0. -/
def scanningPilot : Pilot :=
  { inReset := false, pc := 0x100, sw := { world := true, priv := true }
    banks := [(0, { regs := [(0, intW 0x0002000100000001), (1, intW 0), (16, ⟨0, 4⟩)] })] }

/-- An OZ-S block, of 131,072 entries, whose pilot 0 is about to scan from beyond them. -/
def scanningBeyond : State :=
  { State.resetOf .ozS with blk := { build := .ozS, mode := 3 }, pilots := [(0, scanningPilot)] }

/-- MSCAN D0, A0, D1 of pilot 0. -/
def scanToD0 : RRR := ⟨0, 0, 0, 16, 1⟩

/-- R132: the scan examines nothing, and the next index to examine is still the one it started from. -/
theorem regAfter_mscan_scanningBeyond :
    regAfter (exec (.mscan scanToD0 none) scanningBeyond) 0 0 = 0x0002000100000000 := by decide +kernel

/-- Refutes O23: the statement has every scan that finds fewer entries than its limit leave the entry count N as the next
index, also one whose start index lies beyond N, which 19 bits can name in OZ-S and OZ-M; the model leaves the start index
there.  D0 of `scanningBeyond` reads 131,073, not 131,072, in its index field. -/
theorem not_allocationAndScan : ¬ Obligations.AllocationAndScan := by
  unfold Obligations.AllocationAndScan
  rintro ⟨-, -, hscan, -⟩
  have hsaid := hscan scanningBeyond scanToD0 (by decide) (by decide) (by decide) (by decide) (by decide) (by decide)
    (by decide) (by decide) (by decide) (by decide) (by decide) (by decide) (by decide) (by decide) (by decide)
    (by decide) (by decide)
  rw [filter_range_of_start_beyond (by decide)] at hsaid
  have hreg := congrArg (fun o => regAfter o 0 0) hsaid
  simp only [regAfter_mscan_scanningBeyond] at hreg
  exact absurd hreg (by decide +kernel)

end Sys2Proof.Machine
end

section
/-! Reading a canonical table: what it lists, and what a function applied to every value leaves. -/

namespace Sys2Proof.Machine

section
variable {α : Type} [DecidableEq α]

/-- Every index that a canonical table lists lies at or above its bound. -/
theorem Table.le_of_mem_above {d : α} : ∀ {t : Table α} {m : Nat} {e : Nat × α}, Table.above d m t = true → e ∈ t →
    m ≤ e.1
  | (j, v) :: t, m, e, h, he => by
    simp only [Table.above, Bool.and_eq_true, decide_eq_true_eq] at h
    obtain ⟨⟨hj, -⟩, ht⟩ := h
    rcases List.mem_cons.1 he with rfl | he
    · exact hj
    · exact Nat.le_trans hj (Nat.le_trans (Nat.le_succ j) (Table.le_of_mem_above ht he))

/-- The indexes of a canonical table rise strictly. -/
theorem Table.pairwise_of_above {d : α} : ∀ {t : Table α} {m : Nat}, Table.above d m t = true →
    t.Pairwise (fun a b => a.1 < b.1)
  | [], _, _ => .nil
  | (j, v) :: t, m, h => by
    simp only [Table.above, Bool.and_eq_true] at h
    exact .cons (fun _ he => Table.le_of_mem_above h.2 he) (Table.pairwise_of_above h.2)

omit [DecidableEq α] in
/-- An index that does not read as the default is listed. -/
theorem Table.mem_of_get_ne {d : α} : ∀ {t : Table α} {k : Nat}, Table.get d t k ≠ d → (k, Table.get d t k) ∈ t
  | [], _, h => absurd rfl h
  | (j, v) :: t, k, h => by
    by_cases hjk : j = k
    · simp [Table.get, hjk]
    · simp only [Table.get, if_neg hjk] at h ⊢
      exact List.mem_cons_of_mem _ (Table.mem_of_get_ne h)

/-- A canonical table reads as it lists. -/
theorem Table.get_of_mem {d : α} : ∀ {t : Table α} {m : Nat} {e : Nat × α}, Table.above d m t = true → e ∈ t →
    Table.get d t e.1 = e.2
  | (j, v) :: t, m, e, h, he => by
    simp only [Table.above, Bool.and_eq_true] at h
    rcases List.mem_cons.1 he with rfl | he
    · simp [Table.get]
    · have hlt : j < e.1 := Table.le_of_mem_above h.2 he
      simp only [Table.get, if_neg (Nat.ne_of_lt hlt)]
      exact Table.get_of_mem h.2 he

/-- A function that keeps the default, applied to every value of a canonical table, applies at every index. -/
theorem Table.get_mapVals {d : α} {f : Nat → α → α} {k : Nat} (hd : f k d = d) : ∀ {t : Table α} {m : Nat},
    Table.above d m t = true → Table.get d (Table.mapVals d f t) k = f k (Table.get d t k)
  | [], _, _ => hd.symm
  | (j, v) :: t, m, h => by
    simp only [Table.above, Bool.and_eq_true] at h
    have ih := Table.get_mapVals hd h.2
    by_cases hjk : j = k
    · subst hjk
      have hrest : Table.get d (Table.mapVals d f t) j = d := by
        rw [ih, Table.get_below d t _ _ h.2 (Nat.lt_succ_self j), hd]
      by_cases hv : f j v = d
      · simp only [Table.mapVals, hv, if_true, hrest, Table.get]
      · simp only [Table.mapVals, if_neg hv, Table.get, if_true]
    · by_cases hv : f j v = d
      · simp only [Table.mapVals, if_pos hv, Table.get, if_neg hjk, ih]
      · simp only [Table.mapVals, if_neg hv, Table.get, if_neg hjk, ih]

end

/-- The rings of a sound state are a canonical table. -/
theorem rings_above_of_sound {s : State} (h : Sound s = true) : Table.above {} 0 s.rings = true :=
  ((inv_iff _ s).2 ⟨h, rfl⟩).rings

end Sys2Proof.Machine
end

section
/-! Admission (R72, R83 to R93, R351, R352). -/

namespace Sys2Proof.Machine

/-! What leaves the block. -/

section
variable {f : State → State}

/-- An update that leaves the paths, the quay's lanes and what has left the block alone, and does not read them. -/
structure OffQuay (f : State → State) : Prop where
  paths : ∀ s, (f s).paths = s.paths
  qtx : ∀ s, (f s).qtx = s.qtx
  out : ∀ s, (f s).out = s.out
  comm : ∀ s q o, f { s with qtx := q, out := o } = { f s with qtx := q, out := o }

theorem OffQuay.setPilot (p : Nat) (x : Pilot) : OffQuay (setPilot · p x) :=
  ⟨fun _ => rfl, fun _ => rfl, fun _ => rfl, fun _ _ _ => rfl⟩

theorem OffQuay.setRing (n : Nat) (r : Ring) : OffQuay (setRing · n r) :=
  ⟨fun _ => rfl, fun _ => rfl, fun _ => rfl, fun _ _ _ => rfl⟩

/-- Beats and lane of a packet are read from the packet and the paths. -/
theorem OffQuay.quayOf (h : OffQuay f) (s : State) (e : Emit) : quayOf (f s) e = quayOf s e := by
  simp only [Machine.quayOf, h.paths]

/-- R560: the waiting packets of a lane leave all the same after such an update. -/
theorem OffQuay.pumpQuay (h : OffQuay f) : ∀ (n : Nat) (s : State) (k : Nat), pumpQuay n (f s) k = f (pumpQuay n s k)
  | 0, _, _ => rfl
  | n + 1, s, k => by
    simp only [Machine.pumpQuay, h.qtx, h.out, h.quayOf]
    split
    · rfl
    · rw [apply_ite f, ← h.pumpQuay n]
      exact congrArg (fun u => ite _ (Machine.pumpQuay n u k) (f s)) (h.comm s _ (_ :: s.out)).symm

/-- R560: a packet leaves all the same after such an update. -/
theorem OffQuay.emit (h : OffQuay f) (s : State) (e : Emit) : emit (f s) e = f (emit s e) := by
  simp only [Machine.emit, h.quayOf, h.qtx, h.out]
  split
  · exact (h.comm s s.qtx _).symm
  · rw [← h.pumpQuay]
    congr 1
    exact (h.comm s _ s.out).symm
end

/-! An instruction that changes the block beside its pilot (R313). -/

/-- A ready RRR instruction that leaves its pilot changed by `upd` and the rest of the block as in `u`. -/
theorem rrr_after {f : RRR} {s u : State} {major : BitVec 6} {fn : BitVec 7} {ok priv : Bool} {upd : Pilot → Pilot}
    {body : Pilot → BitVec 18 → State → PRes} (hr : ready s f.p 1 f.g = true) (hok : ok = true)
    (hpriv : priv = true → (pilot s f.p).sw.priv = true)
    (hpilot : pilot u f.p = pilot s f.p) (hdbg : u.dbg = s.dbg)
    (hquiet : quietPilot (upd (stepped (pilot s f.p) 1)) (pilot s f.p).pc = true)
    (hsrc : (upd (stepped (pilot s f.p) 1)).src = (pilot s f.p).src)
    (hbody : body (stepped (pilot s f.p) 1) (pilot s f.p).pc (setPilot s f.p (stepped (pilot s f.p) 1)) =
      .done (setPilot u f.p (upd (stepped (pilot s f.p) 1)))) :
    rrr f major fn ok priv s body = ran (rrrWord f major fn) 0 s f.p (afterInstr u f.p 1 upd) := by
  have hext : extReq u f.p = false := by
    rw [extReq, hdbg]
    exact (ready_parts hr).2.2.2.2.1
  unfold rrr
  rw [issue_complete (i := ⟨f.p, f.g, 1, rrrWord f major fn, !ok, priv, false, 0⟩) hr (by simp [hok]) hpriv
    (by dsimp only; rw [pilot_setPilot_self]; exact hbody), complete_calm hquiet hext, hsrc, ← hpilot]
  rfl

/-! Stamps (R83, R86, R87). -/

/-- The age of a stamp that is not aged, in the statement's words. -/
theorem Stamp.age_of_fresh {m : Stamp} (h : m.aged = false) (s : State) :
    m.age (now32 s) = (s.tide.count.setWidth 32 - m.tick).toNat := by
  simp [Stamp.age, h, now32, BitVec.setWidth_eq_extractLsb']

/-- R86: a stamp is aged once its age has reached 2^31 tt, and stays so. -/
theorem ring_markAged (s : State) (r : Ring) :
    r.markAged (now32 s) = { r with stamps := r.stamps.map (fun m =>
      if m.aged = true ∨ 2 ^ 31 ≤ (s.tide.count.setWidth 32 - m.tick).toNat then { m with aged := true } else m) } := by
  unfold Ring.markAged
  congr 1
  refine List.map_congr_left fun m _ => ?_
  cases h : m.aged with
  | true => simp [Stamp.age, h]
  | false => simp [Stamp.age_of_fresh h]

/-- R86, R87: when an entry with a stamp is due on a ring. -/
theorem Ring.due_iff {s : State} {r : Ring} {m : Stamp} : r.due (now32 s) m = true ↔
    r.ddl ≠ 0 ∧ (m.due = true ∨ m.aged = true ∨ 100 * r.ddl.toNat ≤ (s.tide.count.setWidth 32 - m.tick).toNat) := by
  simp only [Ring.due, Bool.and_eq_true, Bool.or_eq_true, decide_eq_true_eq, or_assoc]
  cases haged : m.aged with
  | true => simp only [true_or, or_true]
  | false => rw [Stamp.age_of_fresh haged]

/-- The first stamp covers a slot that lies before its TAIL. -/
theorem Ring.stampOf_of_head {r : Ring} {m : Stamp} {l : List Stamp} {slot : BitVec 16} (hs : r.stamps = m :: l)
    (h : r.sdiff slot r.cons < r.sdiff m.tail r.cons) : r.stampOf slot = some m := by
  simp [Ring.stampOf, hs, h]

/-- Marking one stamp of a list that holds it once. -/
theorem map_mark_head {m n : Stamp} {l : List Stamp} (h : m ∉ l) :
    (m :: l).map (fun u => if u = m then n else u) = n :: l := by
  have hrest : l.map (fun u => if u = m then n else u) = l :=
    (List.map_congr_left fun u hu => if_neg fun e : u = m => h (e ▸ hu)).trans (List.map_id' l)
  simp [hrest]

/-- R87: the entries of the first stamp, due, are found due. -/
theorem entryDue_of_due {s : State} {n : Nat} {m : Stamp} {l : List Stamp} (hne : (ring s n).next ≠ (ring s n).tail)
    (hs : (ring s n).stamps = m :: l)
    (hcov : (ring s n).sdiff (ring s n).next (ring s n).cons < (ring s n).sdiff m.tail (ring s n).cons) (hnot : m ∉ l)
    (hdue : (ring s n).due (now32 s) m = true) :
    exec (.entryDue n) s = .next (setRing s n { ring s n with stamps := { m with due := true } :: l }) := by
  change execEntryDue n s = _
  simp only [execEntryDue, updRing, if_neg hne, Ring.stampOf_of_head hs hcov, hdue, Bool.not_true, Bool.false_eq_true,
    if_false, hs]
  rw [← map_mark_head (n := { m with due := true }) hnot]
  simp +contextual

/-- R87: entries not due yet stay so. -/
theorem entryDue_of_not_due {s : State} {n : Nat} {m : Stamp} {l : List Stamp} (hs : (ring s n).stamps = m :: l)
    (hcov : (ring s n).sdiff (ring s n).next (ring s n).cons < (ring s n).sdiff m.tail (ring s n).cons)
    (hdue : (ring s n).due (now32 s) m = false) : exec (.entryDue n) s = .next (setRing s n (ring s n)) := by
  change execEntryDue n s = _
  simp only [execEntryDue, updRing, Ring.stampOf_of_head hs hcov, hdue, Bool.not_false, if_true, ite_self]

/-! The selector (R93). -/

/-- The selector's look at one more ring: it is taken when its stamp is older than that of the best so far. -/
def selectStep (s : State) (best : Option (Nat × Nat)) (e : Nat × Ring) : Option (Nat × Nat) :=
  match Ring.pickable s e.1 e.2 with
  | none => best
  | some t =>
    match best with
    | none => some (e.1, t.age (now32 s))
    | some (_, a) => if a < t.age (now32 s) then some (e.1, t.age (now32 s)) else best

/-- R93: the selector looks at the rings in order. -/
theorem selectRing_eq (s : State) : selectRing s = (s.rings.foldl (selectStep s) none).map (·.1) := rfl

/-- `best` is the oldest pickable ring of `l` with the age of its stamp, the lowest-numbered of the oldest. -/
def BestOf (s : State) (l : List (Nat × Ring)) (best : Option (Nat × Nat)) : Prop :=
  match best with
  | none => ∀ e ∈ l, Ring.pickable s e.1 e.2 = none
  | some (n, a) => (∃ r m, (n, r) ∈ l ∧ Ring.pickable s n r = some m ∧ m.age (now32 s) = a) ∧
      ∀ e ∈ l, ∀ o, Ring.pickable s e.1 e.2 = some o → o.age (now32 s) < a ∨ (o.age (now32 s) = a ∧ n ≤ e.1)

/-- The best of one more ring, whose number lies above all before it. -/
theorem BestOf.step {s : State} {l : List (Nat × Ring)} {best : Option (Nat × Nat)} {e : Nat × Ring}
    (h : BestOf s l best) (habove : ∀ x ∈ l, x.1 < e.1) : BestOf s (l ++ [e]) (selectStep s best e) := by
  unfold selectStep
  cases hp : Ring.pickable s e.1 e.2 with
  | none =>
    cases best with
    | none =>
      intro x hx
      rcases List.mem_append.1 hx with hx | hx
      · exact h x hx
      · rw [List.mem_singleton.1 hx, hp]
    | some b =>
      obtain ⟨⟨r, m, hmem, hpick, hage⟩, hall⟩ := h
      refine ⟨⟨r, m, List.mem_append_left _ hmem, hpick, hage⟩, fun x hx o ho => ?_⟩
      rcases List.mem_append.1 hx with hx | hx
      · exact hall x hx o ho
      · rw [List.mem_singleton.1 hx, hp] at ho
        exact nomatch ho
  | some t =>
    have hnew : ∃ r m, (e.1, r) ∈ l ++ [e] ∧ Ring.pickable s e.1 r = some m ∧ m.age (now32 s) = t.age (now32 s) :=
      ⟨e.2, t, List.mem_append_right _ (List.mem_singleton.2 rfl), hp, rfl⟩
    cases best with
    | none =>
      refine ⟨hnew, fun x hx o ho => ?_⟩
      rcases List.mem_append.1 hx with hx | hx
      · rw [h x hx] at ho
        exact nomatch ho
      · rw [List.mem_singleton.1 hx] at ho ⊢
        obtain rfl : t = o := Option.some.inj (hp.symm.trans ho)
        exact .inr ⟨rfl, Nat.le_refl _⟩
    | some b =>
      obtain ⟨⟨r, m, hmem, hpick, hage⟩, hall⟩ := h
      dsimp only
      split
      · refine ⟨hnew, fun x hx o ho => ?_⟩
        rcases List.mem_append.1 hx with hx | hx
        · have := hall x hx o ho
          omega
        · rw [List.mem_singleton.1 hx] at ho ⊢
          obtain rfl : t = o := Option.some.inj (hp.symm.trans ho)
          exact .inr ⟨rfl, Nat.le_refl _⟩
      · refine ⟨⟨r, m, List.mem_append_left _ hmem, hpick, hage⟩, fun x hx o ho => ?_⟩
        rcases List.mem_append.1 hx with hx | hx
        · exact hall x hx o ho
        · rw [List.mem_singleton.1 hx] at ho ⊢
          obtain rfl : t = o := Option.some.inj (hp.symm.trans ho)
          have := habove _ hmem
          omega

/-- The fold over rings in rising order finds the best of them. -/
theorem BestOf.foldl {s : State} : ∀ {l done : List (Nat × Ring)} {best : Option (Nat × Nat)}, BestOf s done best →
    (done ++ l).Pairwise (fun a b => a.1 < b.1) → BestOf s (done ++ l) (l.foldl (selectStep s) best)
  | [], done, best, h, _ => by simpa using h
  | e :: l, done, best, h, hrise => by
    have habove : ∀ x ∈ done, x.1 < e.1 := fun x hx => (List.pairwise_append.1 hrise).2.2 x hx e List.mem_cons_self
    rw [List.append_cons] at hrise ⊢
    exact BestOf.foldl (h.step habove) hrise

/-- A ring that can be picked is enabled, so it is a ring that the table lists. -/
theorem ring_mem_of_pickable {s : State} {k : Nat} {o : Stamp} (h : Ring.pickable s k (ring s k) = some o) :
    (k, ring s k) ∈ s.rings := by
  refine Table.mem_of_get_ne fun hd => ?_
  rw [show ring s k = {} from hd] at h
  exact nomatch h

/-- R93: the selector's ring has the oldest stamp, and the lowest number among those as old. -/
theorem selectRing_oldest {s : State} {n : Nat} (hsound : Sound s = true) (hsel : selectRing s = some n) :
    ∃ m, Ring.pickable s n (ring s n) = some m ∧ ∀ k o, Ring.pickable s k (ring s k) = some o →
      o.age (now32 s) < m.age (now32 s) ∨ (o.age (now32 s) = m.age (now32 s) ∧ n ≤ k) := by
  have hcanon := rings_above_of_sound hsound
  have hbest : BestOf s s.rings (s.rings.foldl (selectStep s) none) :=
    BestOf.foldl (done := []) (fun _ he => nomatch he) (Table.pairwise_of_above hcanon)
  rw [selectRing_eq, Option.map_eq_some_iff] at hsel
  obtain ⟨⟨n', a⟩, hfold, rfl⟩ := hsel
  rw [hfold] at hbest
  obtain ⟨⟨r, m, hmem, hpick, rfl⟩, hall⟩ := hbest
  have hring : ring s n' = r := Table.get_of_mem hcanon hmem
  exact ⟨m, hring ▸ hpick, fun k o ho => hall _ (ring_mem_of_pickable ho) o ho⟩

/-- R92, R93: in Service and in Takeover the selector presents its pick. -/
theorem admissionPick_of_selected {s : State} {n : Nat} (hmode : s.blk.mode = 3 ∨ s.blk.mode = 5) (hpick : s.pick = none)
    (hsel : selectRing s = some n) :
    exec .admissionPick s = .next (sampleLevel { s with pick := some n } 0) := by
  have hselects : selects s = true := by
    rcases hmode with h | h <;> simp [selects, h]
  change execAdmissionPick s = _
  simp [execAdmissionPick, hselects, hpick, hsel]

/-! APICK (R351). -/

/-- With no pick, source PICK is sampled low, whatever it was. -/
theorem sampleLevel_of_no_pick {s : State} (h : s.pick = none) :
    sampleLevel s 0 = if (srcOf s 0).inp = false then s else setSrc s 0 { srcOf s 0 with inp := false } := by
  have hin : srcIn s 0 = false := by simp [srcIn, h]
  have hpend : pendOf (setSrc s 0 { srcOf s 0 with inp := false }) 0 = false := by
    have hlow : srcIn (setSrc s 0 { srcOf s 0 with inp := false }) 0 = false := by simp [srcIn, setSrc, h]
    have hlevel : isLevelSrc 0 = true := rfl
    simp [pendOf, hlow, hlevel]
  simp only [sampleLevel, hin, noteOrphan, hpend, Bool.false_eq_true, Bool.false_and, if_false]

/-- Without a pick the pilots have no part in the sampling of source PICK. -/
theorem sampleLevel_setPilot_of_no_pick {s : State} (h : s.pick = none) (p : Nat) (x : Pilot) :
    sampleLevel (setPilot s p x) 0 = setPilot (sampleLevel s 0) p x := by
  rw [sampleLevel_of_no_pick h, sampleLevel_of_no_pick (s := setPilot s p x) h, apply_ite (setPilot · p x)]
  rfl

@[simp] theorem pilot_sampleLevel (s : State) (n p : Nat) : pilot (sampleLevel s n) p = pilot s p :=
  (congrArg (fun t : State => pilot t p) (sampleLevel_besidesEvents s n) :)

@[simp] theorem dbg_sampleLevel (s : State) (n : Nat) : (sampleLevel s n).dbg = s.dbg :=
  (congrArg State.dbg (sampleLevel_besidesEvents s n) :)

/-- The state but for the quay's lanes and what has left the block. -/
def besidesQuay (s : State) : State := { s with qtx := [], out := [] }

theorem pumpQuay_besidesQuay : ∀ (n : Nat) (s : State) (k : Nat), besidesQuay (pumpQuay n s k) = besidesQuay s
  | 0, _, _ => rfl
  | n + 1, s, k => by
    simp only [pumpQuay]
    split
    · rfl
    · rw [apply_ite besidesQuay, pumpQuay_besidesQuay n]
      exact ite_self _

/-- What leaves the block, or waits to, reaches the quay alone. -/
theorem emit_besidesQuay (s : State) (e : Emit) : besidesQuay (emit s e) = besidesQuay s := by
  unfold emit
  split
  · rfl
  · exact pumpQuay_besidesQuay _ _ _

@[simp] theorem pilot_emit (s : State) (e : Emit) (p : Nat) : pilot (emit s e) p = pilot s p :=
  (congrArg (fun t : State => pilot t p) (emit_besidesQuay s e) :)

@[simp] theorem dbg_emit (s : State) (e : Emit) : (emit s e).dbg = s.dbg :=
  (congrArg State.dbg (emit_besidesQuay s e) :)

/-- R93: entries that do not wrap past the last slot take one read. -/
theorem turnReads_of_no_wrap {s : State} {r : Ring} {k : Nat} (h : r.next.toNat + k ≤ 2 ^ r.sqlog.toNat) :
    turnReads s r k = emit s (.hostRead r.lport.toNat 0 r.pas
      ((r.sqb ++ (0 : BitVec 6)) + BitVec.ofNat 64 (64 * r.next.toNat)) (64 * k)) := by
  have hfirst : Nat.min k (r.sdepth - r.next.toNat) = k := Nat.min_eq_left (by unfold Ring.sdepth; omega)
  simp only [turnReads, hfirst, Nat.lt_irrefl, if_false]

/-- The due bits of a turn depend on the ring and the time alone. -/
theorem dueBits_setPilot (s : State) (p : Nat) (x : Pilot) (r : Ring) : ∀ k, dueBits (setPilot s p x) r k = dueBits s r k
  | 0 => rfl
  | k + 1 => by
    rw [dueBits, dueBits_setPilot s p x r k]
    rfl

@[simp] theorem pickWord_setPilot (s : State) (p : Nat) (x : Pilot) (n : Nat) (r : Ring) (k : Nat) :
    pickWord (setPilot s p x) n r k = pickWord s n r k := by
  simp only [pickWord, dueBits_setPilot]
  rfl

/-- An ADDR operand fails no tag check that asks for one (R308). -/
theorem tagFail_addr {world : Bool} {w : TWord} {k : BitVec 2} (h : w.tag = 4) : tagFail world [(w, k, isAddr)] = none := by
  simp [tagFail, tagReadable, isAddr, h]

/-- An INT operand fails no tag check that asks for one (R308). -/
theorem tagFail_int {world : Bool} {w : TWord} {k : BitVec 2} (h : w.tag = 1) : tagFail world [(w, k, isInt)] = none := by
  simp [tagFail, tagReadable, isInt, h]

/-- A cask address below 64 KiB is its own low half. -/
theorem extract_low16_of_lt {a : W64} (h : a.toNat < 65536) : (a.extractLsb' 0 16).toNat = a.toNat := by
  simp only [BitVec.extractLsb'_toNat]
  omega

/-- The low bits of an address on a 64-byte boundary. -/
theorem low6_of_aligned {a : W64} (h : a.toNat % 64 = 0) : a.extractLsb' 0 6 = 0 :=
  BitVec.eq_of_toNat_eq (by simpa using h)

/-- The high bits of a cask address below 64 KiB. -/
theorem high48_of_lt {a : W64} (h : a.toNat < 65536) : a.extractLsb' 16 48 = 0 :=
  BitVec.eq_of_toNat_eq (by simp [Nat.shiftRight_eq_div_pow, Nat.div_eq_of_lt h])

section
variable {s : State} {f : RRR}

/-- Taking the pick away, between two changes of one pilot. -/
theorem unpick_between_updPilot {u : State} {p : Nat} {x : Pilot} {g h : Pilot → Pilot} (hx : x.inReset = false)
    (hg : (g x).inReset = false) :
    updPilot (sampleLevel { updPilot (setPilot u p x) p g with pick := none } 0) p h =
      setPilot (sampleLevel { u with pick := none } 0) p (h (g x)) := by
  rw [updPilot_setPilot hx]
  exact (congrArg (updPilot · p h) (sampleLevel_setPilot_of_no_pick (s := { u with pick := none }) rfl p (g x))).trans
    (updPilot_setPilot hg)

/-- R351: a pick's turn starts: its entries are read into the cask at the address, and the pick is taken away. -/
theorem apickBody_of_pick {x : Pilot} {n k : Nat} (hr : x.inReset = false) (htag : (x.reg f.s).tag = 4)
    (halign : (x.reg f.s).val.toNat % 64 = 0) (hcask : (x.reg f.s).val.toNat < 65536) (hpick : s.pick = some n)
    (hk : k = Nat.min ((ring s n).weight.toNat + 1) ((ring s n).sdiff (ring s n).tail (ring s n).next))
    (hfit : (x.reg f.s).val.toNat + 64 * k ≤ 65536) (hwrap : (ring s n).next.toNat + k ≤ 2 ^ (ring s n).sqlog.toNat) :
    apickBody f x (setPilot s f.p x) = .done (setPilot
      (sampleLevel
        { emit (setRing s n { ring s n with turn := some ⟨f.p, x.cur, k⟩ })
            (.hostRead (ring s n).lport.toNat 0 (ring s n).pas
              (((ring s n).sqb ++ (0 : BitVec 6)) + BitVec.ofNat 64 (64 * (ring s n).next.toNat)) (64 * k))
          with pick := none } 0) f.p
      { x.wr f.d (intW (pickWord s n (ring s n) k)) with
        sw := { x.sw with z := true }, pickrd := some ⟨n, (ring s n).next.toNat, k, (x.reg f.s).val.toNat⟩ }) := by
  have hroom : ¬ 65536 < (x.reg f.s).val.toNat + 64 * k := Nat.not_lt.2 hfit
  simp only [apickBody, tagFail_addr htag, low6_of_aligned halign, high48_of_lt hcask, ne_eq, not_true, if_false,
    setPilot_pick, hpick, ring_setPilot, ← hk, extract_low16_of_lt hcask, hroom, turnReads_of_no_wrap hwrap, (OffQuay.setPilot f.p x).emit, mval,
    pickWord_setPilot, (OffQuay.setRing n _).emit]
  exact congrArg PRes.done (unpick_between_updPilot (u := setRing (emit s _) n _) hr hr)

/-- R351: with no pick, APICK answers 0 with Z clear. -/
theorem apickBody_of_no_pick {x : Pilot} (hr : x.inReset = false) (htag : (x.reg f.s).tag = 4)
    (halign : (x.reg f.s).val.toNat % 64 = 0) (hcask : (x.reg f.s).val.toNat < 65536) (hpick : s.pick = none) :
    apickBody f x (setPilot s f.p x) =
      .done (setPilot s f.p { x.wr f.d (intW 0) with sw := { x.sw with z := false } }) := by
  simp only [apickBody, tagFail_addr htag, low6_of_aligned halign, high48_of_lt hcask, ne_eq, not_true, if_false,
    setPilot_pick, hpick, updPilot_setPilot hr]
  rfl

/-- R352: AEND on a ring whose turn the bank does not hold. -/
theorem aendBody_of_no_turn {x : Pilot} (hr : x.inReset = false) (htag : (x.reg f.s).tag = 1)
    (hturn : (ring s ((x.reg f.s).val.toNat % 65536)).turn = none) :
    aendBody f x (setPilot s f.p x) = .done (setPilot s f.p { x with sw := { x.sw with z := false } }) := by
  have hring : ((x.reg f.s).val.extractLsb' 0 16).toNat = (x.reg f.s).val.toNat % 65536 := by simp
  simp only [aendBody, tagFail_int htag, hring, ring_setPilot, hturn, Option.map_none, reduceCtorEq, if_false, mz,
    updPilot_setPilot hr]

/-- R91, R352: AEND ends the bank's turn, and may make the ring wait for a pool. -/
theorem aendBody_of_turn {x : Pilot} {k : Nat} (hr : x.inReset = false) (htag : (x.reg f.s).tag = 1)
    (hturn : (ring s ((x.reg f.s).val.toNat % 65536)).turn = some ⟨f.p, x.cur, k⟩) :
    aendBody f x (setPilot s f.p x) = .done (setPilot (setRing s ((x.reg f.s).val.toNat % 65536)
      (if (x.reg f.s).val.getLsbD 16 then
        { ring s ((x.reg f.s).val.toNat % 65536) with
          turn := none, poolw := true, poolwBerth := (x.reg f.s).val.extractLsb' 32 16
          poolwGen := (x.reg f.s).val.getLsbD 17 }
       else { ring s ((x.reg f.s).val.toNat % 65536) with turn := none }))
      f.p { x with sw := { x.sw with z := true } }) := by
  have hring : ((x.reg f.s).val.extractLsb' 0 16).toNat = (x.reg f.s).val.toNat % 65536 := by simp
  simp only [aendBody, tagFail_int htag, hring, ring_setPilot, hturn, Option.map_some, decide_true, Bool.and_self,
    if_true, mz]
  exact congrArg PRes.done (updPilot_setPilot (s := setRing s _ _) hr)
end

/-! The end of the reads of a turn (R93, R98, R351). -/

/-- The pick status: an error bit above the ring's number (R351). -/
theorem pickst_eq (err : Bool) (n : Nat) :
    (bit1 err ++ BitVec.ofNat 16 n : BitVec 17) = BitVec.ofNat 17 ((if err then 65536 else 0) + n % 65536) := by
  refine BitVec.eq_of_toNat_eq ((BitVec.toNat_append _ _).trans ?_)
  have hlow : (BitVec.ofNat 16 n).toNat < 2 ^ 16 := (BitVec.ofNat 16 n).isLt
  rw [← Nat.shiftLeft_add_eq_or_of_lt hlow, BitVec.toNat_ofNat, BitVec.toNat_ofNat]
  cases err with
  | false => simp [bit1]; omega
  | true => simp [bit1, Nat.shiftLeft_eq]; omega

/-- R351: the entries arrive in the cask. -/
theorem pickReadDone_of_data {s : State} {p : Nat} {rd : PickRd} {data : List W64} (hrd : (pilot s p).pickrd = some rd)
    (hlen : data.length = 8 * rd.n) :
    exec (.pickReadDone p true data) s = .next (raise
      { setPilot s p { pilot s p with pickrd := none, pickst := BitVec.ofNat 17 (rd.ring % 65536) } with
        cask := Table.putList emptyW s.cask (p * 8192 + rd.base / 8) (data.map (fun v => ⟨v, 2⟩)) } (0xF00 + p)) := by
  have hst := pickst_eq false rd.ring
  rw [if_neg Bool.false_ne_true, Nat.zero_add] at hst
  change execPickReadDone p true data s = _
  simp only [execPickReadDone, hrd, updPilot, Bool.not_true, hst, List.take_of_length_le (Nat.le_of_eq hlen), if_true]
  rfl

/-- R93, R98: a read that fails halts the ring. -/
theorem pickReadDone_of_error {s : State} {p : Nat} {rd : PickRd} {data : List W64} (hrd : (pilot s p).pickrd = some rd)
    (hven : (ring s rd.ring).ven = false) :
    exec (.pickReadDone p false data) s = .next (raise
      (setRing (setPilot s p { pilot s p with pickrd := none, pickst := BitVec.ofNat 17 (65536 + rd.ring % 65536) }) rd.ring
        { ring s rd.ring with halt := true, sqfault := true }) (0xF00 + p)) := by
  have hst := pickst_eq true rd.ring
  rw [if_pos rfl] at hst
  change execPickReadDone p false data s = _
  simp [execPickReadDone, hrd, updPilot, updRing, hst, notifyNow, hven]

/-! The instructions of a turn (R351, R352). -/

section
variable {s : State} {f : RRR}

/-- The pilot at a ready instruction's effect is out of reset and calm. -/
theorem ready_quiet {len : Nat} {g : BitVec 4} {p : Nat} (hr : ready s p len g = true) :
    quietPilot (stepped (pilot s p) len) (pilot s p).pc = true :=
  quiet_stepped (ready_parts hr).2.2.2.2.2

/-- R351: APICK with no pick. -/
theorem apick_of_no_pick (hr : ready s f.p 1 f.g = true) (hd : isD f.d = true) (hs : isA f.s = true) (ht : f.t = 0)
    (hpriv : (pilot s f.p).sw.priv = true) (htag : ((pilot s f.p).reg f.s).tag = 4)
    (halign : ((pilot s f.p).reg f.s).val.toNat % 64 = 0) (hcask : ((pilot s f.p).reg f.s).val.toNat < 65536)
    (hpick : s.pick = none) :
    exec (.apick f) s = .next (ran (rrrWord f 0x19 8) 0 s f.p (afterInstr s f.p 1 (fun y =>
      { y.wr f.d (intW 0) with sw := { (pilot s f.p).sw with z := false } }))) := by
  have hq := ready_quiet hr
  exact congrArg Host.Outcome.next (rrr_after hr (by simp [hd, hs, ht]) (fun _ => hpriv) rfl rfl
    (quiet_wr hq (quiet_t hq)) rfl (apickBody_of_no_pick (quiet_inReset hq) htag halign hcask hpick))

/-- R351: APICK of the ring that the selector presents. -/
theorem apick_of_pick {n k : Nat} (hr : ready s f.p 1 f.g = true) (hd : isD f.d = true) (hs : isA f.s = true) (ht : f.t = 0)
    (hpriv : (pilot s f.p).sw.priv = true) (htag : ((pilot s f.p).reg f.s).tag = 4)
    (halign : ((pilot s f.p).reg f.s).val.toNat % 64 = 0) (hcask : ((pilot s f.p).reg f.s).val.toNat < 65536)
    (hpick : s.pick = some n)
    (hk : k = Nat.min ((ring s n).weight.toNat + 1) ((ring s n).sdiff (ring s n).tail (ring s n).next))
    (hfit : ((pilot s f.p).reg f.s).val.toNat + 64 * k ≤ 65536)
    (hwrap : (ring s n).next.toNat + k ≤ 2 ^ (ring s n).sqlog.toNat) :
    exec (.apick f) s = .next (ran (rrrWord f 0x19 8) 0 s f.p (afterInstr (sampleLevel
      { emit (setRing s n { ring s n with turn := some ⟨f.p, (pilot s f.p).cur, k⟩ })
          (.hostRead (ring s n).lport.toNat 0 (ring s n).pas
            (((ring s n).sqb ++ (0 : BitVec 6)) + BitVec.ofNat 64 (64 * (ring s n).next.toNat)) (64 * k))
        with pick := none } 0) f.p 1 (fun y =>
      { y.wr f.d (intW (pickWord s n (ring s n) k)) with
        sw := { (pilot s f.p).sw with z := true }
        pickrd := some ⟨n, (ring s n).next.toNat, k, ((pilot s f.p).reg f.s).val.toNat⟩ }))) := by
  have hq := ready_quiet hr
  exact congrArg Host.Outcome.next (rrr_after hr (by simp [hd, hs, ht]) (fun _ => hpriv)
    (by rw [pilot_sampleLevel]; exact pilot_emit _ _ _) (by rw [dbg_sampleLevel]; exact dbg_emit _ _)
    (quiet_wr hq (quiet_t hq)) rfl (apickBody_of_pick (quiet_inReset hq) htag halign hcask hpick hk hfit hwrap))

/-- R91, R352: AEND of a turn that the bank holds. -/
theorem aend_of_turn {k : Nat} (hr : ready s f.p 1 f.g = true) (hs : isD f.s = true) (hd : f.d = 0) (ht : f.t = 0)
    (hpriv : (pilot s f.p).sw.priv = true) (htag : ((pilot s f.p).reg f.s).tag = 1)
    (hturn : (ring s (((pilot s f.p).reg f.s).val.toNat % 65536)).turn = some ⟨f.p, (pilot s f.p).cur, k⟩) :
    exec (.aend f) s = .next (ran (rrrWord f 0x19 9) 0 s f.p (afterInstr
      (setRing s (((pilot s f.p).reg f.s).val.toNat % 65536)
        (if ((pilot s f.p).reg f.s).val.getLsbD 16 then
          { ring s (((pilot s f.p).reg f.s).val.toNat % 65536) with
            turn := none, poolw := true, poolwBerth := ((pilot s f.p).reg f.s).val.extractLsb' 32 16
            poolwGen := ((pilot s f.p).reg f.s).val.getLsbD 17 }
         else { ring s (((pilot s f.p).reg f.s).val.toNat % 65536) with turn := none })) f.p 1
      (fun y => { y with sw := { (pilot s f.p).sw with z := true } }))) := by
  have hq := ready_quiet hr
  exact congrArg Host.Outcome.next (rrr_after hr (by simp [hs, hd, ht]) (fun _ => hpriv) rfl rfl
    (quiet_sw hq (quiet_t hq)) rfl (aendBody_of_turn (quiet_inReset hq) htag hturn))

/-- R352: AEND of a ring without a turn. -/
theorem aend_of_no_turn (hr : ready s f.p 1 f.g = true) (hs : isD f.s = true) (hd : f.d = 0) (ht : f.t = 0)
    (hpriv : (pilot s f.p).sw.priv = true) (htag : ((pilot s f.p).reg f.s).tag = 1)
    (hturn : (ring s (((pilot s f.p).reg f.s).val.toNat % 65536)).turn = none) :
    exec (.aend f) s = .next (ran (rrrWord f 0x19 9) 0 s f.p (afterInstr s f.p 1
      (fun y => { y with sw := { (pilot s f.p).sw with z := false } }))) := by
  have hq := ready_quiet hr
  exact congrArg Host.Outcome.next (rrr_after hr (by simp [hs, hd, ht]) (fun _ => hpriv) rfl rfl
    (quiet_sw hq (quiet_t hq)) rfl (aendBody_of_no_turn (quiet_inReset hq) htag hturn))
end

/-- Settles O22: each clause by the lemma of its command. -/
theorem admission : Obligations.Admission := by
  unfold Obligations.Admission
  refine ⟨?_, ?_, ?_, ?_, ?_, ?_, ?_⟩
  · intro s hsound
    refine ⟨_, rfl, rfl, fun n => ?_⟩
    rw [← ring_markAged]
    exact Table.get_mapVals rfl (rings_above_of_sound hsound)
  · intro s n m l
    dsimp only
    intro hne hddl hs hcov hnot
    refine ⟨fun hold => entryDue_of_due hne hs hcov hnot ?_, fun hyoung haged hdue => entryDue_of_not_due hs hcov ?_⟩
    · exact Ring.due_iff.2 ⟨hddl, .inr hold.symm⟩
    · rw [← Bool.not_eq_true, Ring.due_iff, hdue, haged]
      simp only [Bool.false_eq_true, false_or, not_and, Nat.not_le]
      exact fun _ => hyoung
  · exact fun s n => admissionPick_of_selected
  · exact fun s n => selectRing_oldest
  · intro s f n hr hd hs ht
    dsimp only
    intro hpriv htag halign hfit hcask
    exact ⟨apick_of_no_pick hr hd hs ht hpriv htag halign hcask,
      fun hpick hwrap => apick_of_pick hr hd hs ht hpriv htag halign hcask hpick rfl hfit hwrap⟩
  · exact fun s p rd data hrd => ⟨pickReadDone_of_data hrd, pickReadDone_of_error hrd⟩
  · intro s f hr hs hd ht
    dsimp only
    intro hpriv htag
    exact ⟨fun k => aend_of_turn hr hs hd ht hpriv htag, aend_of_no_turn hr hs hd ht hpriv htag⟩

end Sys2Proof.Machine
end

section
/-! A block that enters D3 sends no heartbeats from HBSUSP on (R207). -/

namespace Sys2Proof.Machine

/-- R207: between HBSUSP and the wake no path carries a heartbeat. -/
theorem beatPaths_of_entering_d3 {s : State} (hentering : s.pwr.entering = 3) : beatPaths s = [] := by
  simp [beatPaths, hentering]

/-- R207: a block that enters D3 sends no heartbeat. -/
theorem heartbeatSend_of_entering_d3 {s : State} (hentering : s.pwr.entering = 3) : exec .heartbeatSend s = .next s := by
  change execHeartbeatSend s = _
  simp [execHeartbeatSend, beatPaths_of_entering_d3 hentering]

/-- The one path of `enteringD3`: PROVEN, to block 1. -/
def provenPath : Path := { en := true, peer := 1, state := 2 }

/-- A block at D1 with the entry to D3 under way, as after D3_DWELL_EXPIRY, and its path 0 PROVEN. -/
def enteringD3 : State :=
  { State.reset with blk := { mode := 4, dlevel := 1 }, pwr := { entering := 3 }, paths := [(0, provenPath)] }

/-- Refutes O28: the statement has a block with one enabled path that is not DORMANT send a HEARTBEAT on it whenever the
fast clock runs, but R207 has a block that enters D3 stop its heartbeats once it has sent HBSUSP, while the fast clock still
runs, and the model keeps to it.  In the statement a frame of `enteringD3` waits for the quay's credit; the model sends none. -/
theorem not_placia : ¬ Obligations.Placia := by
  unfold Obligations.Placia
  rintro ⟨hbeats, -⟩
  have hsends := hbeats enteringD3 0 provenPath rfl rfl (by decide) (by decide) rfl
  rw [heartbeatSend_of_entering_d3 rfl] at hsends
  have hqueue := congrArg (fun t : State => t.qtx.isEmpty) (Host.Outcome.next.inj hsends)
  exact absurd hqueue (by decide)

end Sys2Proof.Machine
end

section
/-! The write data of a fused pair (R221, R278): every device command starts on a page of staging, so the write data lies
from the page after the compare data on. -/

namespace Sys2Proof.Machine

/-- An RDATA frame is a sequenced frame of type 7 (R195, R221). -/
theorem exec_rdata (h : Hdr) (rqid off : W32) (last : Bool) (data : List Byte) (s : State) :
    exec (.rdata h rqid off last data) s = .next (seqFrame s h 7 (.rdata rqid off last data)) := rfl

/-- A command of block 9 served in entry 21 for the local berth 3: a fused pair of one block of 512 bytes. -/
def fusedServe : Serve := { path := 2, lane := 2, rqid := 77, berth := 3, fused := true, sqe := List.replicate 16 0 }

/-- A block in Service whose entry 21 is ISSUED and waits for the data of `fusedServe`. -/
def servingFused : State :=
  { State.reset with
    blk := { mode := 3 }, paths := [(2, { en := true, sp := 1, peer := 9, state := 2, peerEpoch := some 5 })]
    own := [(21, { st := 3, srv := true, lmp := 3, berth := 3 })], serves := [(21, some fusedServe)] }

/-- The header of the next frame on lane 2 of path 2 of `servingFused`, an RDATA with one byte of data. -/
def nextRdata : Hdr :=
  { port := 1, crcOk := true, fits := true, known := true, room := true, ver := 1, lane := 2, u := false, av := false
    rx := false, len := 9, src := 9, dst := 0, epoch := 5, crlane := 0, crd := 0, seq := 0, ack := 0, hid := 0 }

/-- The bays once the model has taken the first byte of the write data: the byte stands in page 1 of the entry's range. -/
theorem rdata_servingFused_bays :
    (seqFrame servingFused nextRdata 7 (.rdata 77 512 false [0xAB])).bays =
      [(21 * 4096 + 1, { bound := true, data := [(0, 0xAB)] })] := by decide

/-- Refutes O27: the statement has the RDATA of every served command staged at its own offset, but R278 has every device
command of a fused pair start on a page, so that the write data that follows the compare data in the frames (R221) is
staged from the next page on, as `takeRdata` has it.  The first byte of the write data of `servingFused`, at
offset 512, goes to page 1 of its entry's range, where the statement has it at byte 512 of page 0: its clause lacks the
premise that the command is not fused. -/
theorem not_remoteCommands : ¬ Obligations.RemoteCommands := by
  unfold Obligations.RemoteCommands
  rintro ⟨-, -, hrdata, -⟩
  obtain ⟨-, hstages⟩ := hrdata servingFused nextRdata 2 77 512 false [0xAB] (by decide) (by decide) rfl
    (List.cons_ne_nil _ _) rfl
  have hsaid := hstages 21 fusedServe (by decide) (by decide) (by decide) (by decide) (by decide)
  rw [exec_rdata] at hsaid
  have hbays := congrArg State.bays (Host.Outcome.next.inj hsaid)
  rw [rdata_servingFused_bays] at hbays
  exact absurd hbays (by decide)

end Sys2Proof.Machine
end

section
/-! The state after power-on reset (R385, R436, R500). -/

namespace Sys2Proof.Machine

/-- A reset block is sound: its tables are empty but for the pilots and the two sealed banks. -/
theorem sound_reset : Sound State.reset = true := by decide

/-- R385, R436: after reset every pilot is as an unlisted one, but for the spare of each cluster, and for the
Harbourmaster's processor, which is out of reset. -/
theorem pilot_reset : ∀ p < 128, pilot State.reset p =
    if p = 127 then { inReset := false } else if p % 8 = 4 then { role := .spare } else {} := by decide

/-- Settles O51: the state is sound, the pilots are those of `pilot_reset`, and the other values are those that
`State.reset` writes out. -/
theorem resetState : Obligations.ResetState := by
  unfold Obligations.ResetState
  refine ⟨sound_reset, rfl, rfl, rfl, rfl, rfl, rfl, rfl, rfl, rfl, rfl, rfl, rfl, rfl, rfl, rfl, rfl, rfl, rfl, rfl,
    fun p hp => ?_⟩
  rw [pilot_reset p hp]
  by_cases hhm : p = 127
  · rw [if_pos hhm]
    exact ⟨rfl, rfl, rfl, rfl, rfl, rfl, rfl, (decide_eq_false fun hne => hne hhm).symm⟩
  · have hheld : true = decide (p ≠ 127) := (decide_eq_true hhm).symm
    by_cases hspare : p % 8 = 4
    · rw [if_neg hhm, if_pos hspare]
      exact ⟨rfl, rfl, rfl, rfl, rfl, rfl, rfl, hheld⟩
    · rw [if_neg hhm, if_neg hspare]
      exact ⟨rfl, rfl, rfl, rfl, rfl, rfl, rfl, hheld⟩

end Sys2Proof.Machine
end

section
/-! A device's write to a bank that is being wiped (R255, R279). -/

namespace Sys2Proof.Machine

/-- R255: nobody reaches a bank that is being wiped, also where the write lies in a queue of the controller (R279). -/
theorem cellarDeviceAccess_of_wiping {s : State} {c a : Nat} {dba : BitVec 48} {data : List W64} {hit : Nat × Bool}
    (hregion : dbaRegion dba = 0) (hhigh : dba.extractLsb' 23 21 = 0) (ha : (dba.extractLsb' 0 23).toNat = a)
    (hqueue : queueHit s c a (8 * data.length) = some hit) (hwiping : bankOwner s (a / 8 / bankWords) = 2) :
    exec (.cellarDeviceAccess c dba true data) s = .next { s with dock := { s.dock with qacc := true } } := by
  change execCellarDeviceAccess c dba true data s = _
  simp [execCellarDeviceAccess, hregion, hhigh, ha, hqueue, hwiping]

/-- A block whose bank 0 is being wiped while the queues of an enabled pair of controller 2 stand in it. -/
def wipingQueueBank : State :=
  { State.reset with
    celOwn := [(0, 2), (1, 1)]
    dqs := [(5, { en := true, ctl := 2, sqbase := 1, cqbase := 2, sqlog := 4, cqlog := 4 })] }

/-- Refutes O33: the statement has every write of a device to the submission queue of an enabled pair of a controller that
does not restart land in the cellar, but R255 lets nobody reach a bank that is being wiped, and the model keeps to it: its
clause lacks the premise that the bank is not WIPING.  In the statement a word stands at 0x1000 of `wipingQueueBank`'s
cellar; the model leaves the cellar empty. -/
theorem not_dockAndCellar : ¬ Obligations.DockAndCellar := by
  unfold Obligations.DockAndCellar
  rintro ⟨-, -, -, hqueues, -⟩
  obtain ⟨hwrite, -⟩ := hqueues wipingQueueBank 2 5 _ 0x1000 [1] rfl rfl rfl (by decide)
  have hsaid := hwrite (by decide) (by decide) (by decide)
  rw [cellarDeviceAccess_of_wiping (a := 0x1000) (by decide) (by decide) (by decide) rfl (by decide)] at hsaid
  have hcellar := congrArg State.cellar (Host.Outcome.next.inj hsaid)
  exact absurd hcellar (by decide)

end Sys2Proof.Machine
end

section
/-! LGO over a store that waits in the commit buffer (R242, R430). -/

namespace Sys2Proof.Machine

/-- A MOVE order without cipher or check, whose lists stand in host memory and whose result goes to 0x40 of the cellar
(R241). -/
def movePosted : List W64 := [0x1000000000000000, 0x100, 0x200, 0xC00000000000, 0, 0, 0x1000000000000040, 0]

/-- Its words in the cask, with the tags of R241. -/
def movePostedWords : List TWord := (movePosted.zip (orderTags (movePosted.headD 0))).map (fun e => ⟨e.1, e.2⟩)

/-- A pilot whose A0 is cask address 0x80 and whose D0 names lighter 3. -/
def postingPilot : Pilot :=
  { inReset := false, pc := 0x100, sw := { world := true, priv := true }
    banks := [(0, { regs := [(0, intW 3), (16, ⟨0x80, 4⟩)] })] }

/-- A block whose pilot 0 is about to post the order of its cask at 0x80, while its store of INT 1 to word Q5 of it still
waits in its commit buffer. -/
def postingOverStore : State :=
  { State.reset with
    blk := { mode := 3 }, cask := Table.putList emptyW [] 16 movePostedWords
    pilots := [(0, { postingPilot with
      win := { ck := some postingPilot.ctx, ops := 1, stores := [⟨false, 21, intW 1⟩] } })] }

/-- LGO D1, A0, D0 of pilot 0. -/
def postFromA0 : RRR := ⟨0, 0, 1, 16, 0⟩

/-- The words of the orders of lighter `l` after a command that answers a next state. -/
def ordersAfter (o : Out) (l : Nat) : List (List W64) :=
  match o with
  | .next t => (lighterOf t l).orders.map Order.q
  | _ => []

/-- R430: the order posted holds the pilot's own store. -/
theorem ordersAfter_lgo_postingOverStore :
    ordersAfter (exec (.lgo postFromA0) postingOverStore) 3 = [movePosted.set 5 1] := by decide +kernel

/-- Refutes O32: the statement has LGO post the eight words that the cask holds, but a pilot reads back its own stores at
once (R430), also those that wait in its commit buffer, and the model keeps to it: its clause speaks of the cask where
`caskWord` says what the pilot reads.  The order of `postingOverStore` has 1 for Q5, not the 0 that the cask still
holds. -/
theorem not_lighters : ¬ Obligations.Lighters := by
  unfold Obligations.Lighters
  rintro ⟨hpost, -⟩
  obtain ⟨hroom, -⟩ := hpost postingOverStore postFromA0 2 3 movePosted (by decide) rfl (by decide) (by decide)
    (by decide) (by decide) (by decide) (by decide) (by decide) (by decide) (by decide) (by decide) (by decide)
  have hsaid := congrArg (ordersAfter · 3) (hroom (by decide))
  simp only [ordersAfter_lgo_postingOverStore] at hsaid
  exact absurd hsaid (by decide +kernel)

end Sys2Proof.Machine
end

section
/-! The commit buffer against the pilot's step past its instruction (R427, R428, R430): what a store does there, also where
it closes the window, does not depend on the PC, and leaves everything else of its pilot. -/

namespace Sys2Proof.Machine

section
variable (s : State) (p : Nat) (typ : BitVec 4) (srcid : BitVec 7) (ch : BitVec 5) (ovf : Bool) (v : W64)

/-- What a packet writes is read from the trace and the time. -/
theorem putPacket_setPilot (x : Pilot) : putPacket (setPilot s p x) typ srcid ch ovf v =
    (setPilot (putPacket s typ srcid ch ovf v).1 p x, (putPacket s typ srcid ch ovf v).2) := by
  cases hten : s.dbg.ten with
  | false => simp only [putPacket, setPilot_dbg, hten, Bool.not_false, if_true]
  | true =>
    cases hfull : s.dbg.tstop && s.dbg.wrapped with
    | true =>
      simp only [putPacket, setPilot_dbg, hten, hfull, Bool.not_true, Bool.false_eq_true, if_false, if_true]
      rfl
    | false =>
      simp only [putPacket, setPilot_dbg, setPilot_tide, hten, hfull, Bool.not_true, Bool.false_eq_true, if_false]
      rfl

/-- A packet changes the trace alone, and no EXT request. -/
theorem putPacket_fst : ∃ d, (putPacket s typ srcid ch ovf v).1 = { s with dbg := d } ∧ d.req = s.dbg.req := by
  unfold putPacket
  dsimp only
  split
  · exact ⟨_, rfl, rfl⟩
  · split
    · exact ⟨_, rfl, rfl⟩
    · exact ⟨_, rfl, rfl⟩

end

section
variable {p : Nat}

theorem pilot_atEffect (s : State) (p len : Nat) : pilot (atEffect s p len) p = stepped (pilot s p) len :=
  Table.get_put_self _ _ _ _

/-- What the commit buffer of pilot `p` does to the block: it does the same whether or not the pilot's PC is past the
instruction already, and of the pilot it changes the window and the trace's lost mark alone. -/
structure OfWindow (p : Nat) (g : State → State) : Prop where
  atEffect : ∀ s len, (pilot s p).inReset = false → g (atEffect s p len) = atEffect (g s) p len
  pilot : ∀ s, ∃ w o, pilot (g s) p = { pilot s p with win := w, dbg := { (pilot s p).dbg with ovf := o } }
  req : ∀ s, (g s).dbg.req = s.dbg.req

namespace OfWindow
variable {g h : State → State}

theorem inReset (hg : OfWindow p g) {s : State} (hs : (Machine.pilot s p).inReset = false) :
    (Machine.pilot (g s) p).inReset = false := by
  obtain ⟨w, o, he⟩ := hg.pilot s
  rw [he]
  exact hs

theorem id : OfWindow p id := ⟨fun _ _ _ => rfl, fun _ => ⟨_, _, rfl⟩, fun _ => rfl⟩

theorem comp (hg : OfWindow p g) (hh : OfWindow p h) : OfWindow p (fun s => g (h s)) where
  atEffect s len hs := by rw [hh.atEffect s len hs, hg.atEffect _ len (hh.inReset hs)]
  pilot s := by
    obtain ⟨w, o, he⟩ := hh.pilot s
    obtain ⟨w', o', he'⟩ := hg.pilot (h s)
    exact ⟨w', o', by rw [he', he]⟩
  req s := (hg.req _).trans (hh.req s)

theorem foldl {α : Type} {k : State → α → State} (hk : ∀ a, OfWindow p (k · a)) :
    ∀ l : List α, OfWindow p (fun s => l.foldl k s)
  | [] => id
  | a :: l => (foldl hk l).comp (hk a)

/-- A choice by what the pilot's step past the instruction leaves. -/
theorem choose {α : Type} {c : State → α} {k : α → State → State} (hc : ∀ s len, c (Machine.atEffect s p len) = c s)
    (hk : ∀ a, OfWindow p (k a)) : OfWindow p (fun s => k (c s) s) where
  atEffect s len hs := by rw [hc]; exact (hk _).atEffect s len hs
  pilot s := (hk _).pilot s
  req s := (hk _).req s

/-- A test of what the pilot's step past the instruction leaves. -/
theorem ite {c : State → Prop} [∀ s, Decidable (c s)] (hc : ∀ s len, c (Machine.atEffect s p len) = c s)
    (hg : OfWindow p g) (hh : OfWindow p h) : OfWindow p (fun s => if c s then g s else h s) where
  atEffect s len hs := by
    simp only [hc]
    split
    · exact hg.atEffect s len hs
    · exact hh.atEffect s len hs
  pilot s := by
    split
    · exact hg.pilot s
    · exact hh.pilot s
  req s := by
    split
    · exact hg.req s
    · exact hh.req s

/-- An update of the pilot's window and of the trace's lost mark. -/
theorem updPilot {f : Pilot → Pilot} (hstep : ∀ x len, f (stepped x len) = stepped (f x) len)
    (hwin : ∀ x, ∃ w o, f x = { x with win := w, dbg := { x.dbg with ovf := o } }) :
    OfWindow p (fun s => updPilot s p f) where
  atEffect s len hs := by
    have hf : (f (Machine.pilot s p)).inReset = false := by
      obtain ⟨w, o, he⟩ := hwin (Machine.pilot s p)
      rw [he]
      exact hs
    have hx : (stepped (Machine.pilot s p) len).inReset = false := hs
    simp only [Machine.atEffect]
    rw [updPilot_setPilot hx, hstep, Machine.updPilot, pilot_setPilot_self, setPilot_setPilot hf]
  pilot s := by
    obtain ⟨w, o, he⟩ := hwin (Machine.pilot s p)
    exact ⟨w, o, by rw [Machine.updPilot, pilot_setPilot_self, he]⟩
  req _ := rfl

theorem drainStore (e : PStore) : OfWindow p (Machine.drainStore · e) := by
  unfold Machine.drainStore
  split <;> exact ⟨fun _ _ _ => rfl, fun _ => ⟨_, _, rfl⟩, fun _ => rfl⟩

theorem putPacket (typ : BitVec 4) (srcid : BitVec 7) (ch : BitVec 5) (ovf : Bool) (v : W64) :
    OfWindow p (fun s => (Machine.putPacket s typ srcid ch ovf v).1) where
  atEffect s len _ := by
    obtain ⟨d, hput, -⟩ := putPacket_fst s typ srcid ch ovf v
    simp only [Machine.atEffect, putPacket_setPilot, hput]
    rfl
  pilot s := by
    obtain ⟨d, hput, -⟩ := putPacket_fst s typ srcid ch ovf v
    exact ⟨_, _, by rw [hput]; rfl⟩
  req s := by
    obtain ⟨d, hput, hreq⟩ := putPacket_fst s typ srcid ch ovf v
    rw [hput, hreq]

/-- A packet is written from the trace, the time and the pilot's lost mark, and leaves a lost mark (R553, R554). -/
theorem packet (typ : BitVec 4) (ch : BitVec 5) (v : W64) : OfWindow p (Machine.packet · p typ ch v) := by
  have hwritten : ∀ r : Bool × Bool, OfWindow p (fun s => Machine.updPilot
      (Machine.putPacket s typ (BitVec.ofNat 7 p) ch r.2 v).1 p (fun x => { x with dbg := { x.dbg with ovf := !r.1 } })) :=
    fun r => (updPilot (fun _ _ => rfl) (fun _ => ⟨_, _, rfl⟩)).comp (putPacket typ (BitVec.ofNat 7 p) ch r.2 v)
  unfold Machine.packet
  refine ite (fun _ _ => rfl) id (choose (c := fun s => ((Machine.putPacket s typ (BitVec.ofNat 7 p) ch
    (Machine.pilot s p).dbg.ovf v).2, (Machine.pilot s p).dbg.ovf)) (fun s len => ?_) hwritten)
  rw [pilot_atEffect, Machine.atEffect, putPacket_setPilot]
  rfl

theorem drainPkts (es : List HeldPkt) : OfWindow p (Machine.drainPkts · p es) := by
  unfold Machine.drainPkts
  refine foldl (k := fun s (e : HeldPkt) => Machine.packet s p e.typ e.ch e.payload) (fun e => ?_) es.reverse
  exact packet e.typ e.ch e.payload

theorem drainStores (es : List PStore) : OfWindow p (Machine.drainStores · es) := by
  unfold Machine.drainStores
  exact foldl drainStore es.reverse

/-- The window commits by what it holds (R428, R430). -/
theorem commitWin : OfWindow p (Machine.commitWin · p) := by
  unfold Machine.commitWin
  refine choose (c := fun s => (Machine.pilot s p).win) (k := fun w s => Machine.drainPkts (Machine.drainStores
    (Machine.updPilot s p (fun x => { x with win := { count := w.count + 1, inner := w.inner } })) w.stores) p w.pkts)
    (fun s len => by rw [pilot_atEffect]; rfl) (fun w => ?_)
  exact (drainPkts w.pkts).comp ((drainStores w.stores).comp (updPilot (fun _ _ => rfl) (fun _ => ⟨_, _, rfl⟩)))

theorem closeInside : OfWindow p (Machine.closeInside · p) := by
  unfold Machine.closeInside
  refine ite (fun s len => ?_) id (ite (fun s len => ?_) ?_ ?_)
  · rw [pilot_atEffect]; rfl
  · rw [pilot_atEffect]; rfl
  · exact updPilot (fun _ _ => rfl) (fun _ => ⟨_, _, rfl⟩)
  · exact commitWin.comp (updPilot (fun _ _ => rfl) (fun _ => ⟨_, _, rfl⟩))

/-- A store enters the commit buffer, and the eighth closes the window (R427, R430). -/
theorem pendStore (e : PStore) : OfWindow p (Machine.pendStore · p e) := by
  have hclose : OfWindow p (fun s => if 8 ≤ (Machine.pilot s p).win.stores.length then Machine.closeInside s p else s) :=
    ite (fun s len => by rw [pilot_atEffect]; rfl) closeInside id
  unfold Machine.pendStore
  exact hclose.comp (updPilot (fun _ _ => rfl) (fun _ => ⟨_, _, rfl⟩))

end OfWindow
end

end Sys2Proof.Machine
end

section
/-! Loads and stores of every width (R308, R314, R334, R335). -/

namespace Sys2Proof.Machine

section
variable {s : State} {p : Nat}

/-- The store part of the commit buffer leaves the pilot quiet (R430). -/
theorem quiet_ofWindow {g : State → State} (hg : OfWindow p g) {pc : BitVec 18} (s : State)
    (hq : quietPilot (pilot s p) pc = true) : quietPilot (pilot (g s) p) pc = true := by
  obtain ⟨w, o, he⟩ := hg.pilot s
  rw [he]
  exact hq

theorem extReq_ofWindow {g : State → State} (hg : OfWindow p g) (s : State) : extReq (g s) p = extReq s p :=
  congrArg (fun r : BitVec 128 => r.getLsbD p) (hg.req s)

/-- A ready instruction that leaves its pilot past itself, and in its window and the rest of the block what `g` makes of
them. -/
theorem issue_ofWindow {i : Issue} {g : State → State} {body : BitVec 18 → State → PRes} (hg : OfWindow i.p g)
    (hr : ready s i.p i.len i.g = true) (hrsv : i.rsv = false) (hpriv : i.priv = true → (pilot s i.p).sw.priv = true)
    (hb : body (pilot s i.p).pc (atEffect s i.p i.len) = .done (atEffect (g s) i.p i.len)) :
    issue i s body = ran i.word i.ext s i.p (afterInstr (g s) i.p i.len id) := by
  obtain ⟨-, -, -, -, hext, hquiet⟩ := ready_parts hr
  rw [issue_complete hr hrsv hpriv hb, atEffect,
    complete_calm (quiet_stepped (quiet_ofWindow hg s hquiet)) ((extReq_ofWindow hg s).trans hext)]
  rfl

/-! Words of memory (R314, R316, R430). -/

theorem sw_atEffect (s : State) (p len : Nat) : (pilot (atEffect s p len) p).sw = (pilot s p).sw := by
  rw [pilot_atEffect, sw_stepped]

theorem unwatched_atEffect (s : State) (p len : Nat) :
    unwatched (pilot (atEffect s p len) p) = unwatched (pilot s p) := by
  rw [pilot_atEffect]
  rfl

theorem seenWord_atEffect (s : State) (p len : Nat) (cel : Bool) (k : Nat) :
    seenWord (atEffect s p len) p cel k = seenWord s p cel k := by
  unfold seenWord pendingAt
  rw [pilot_atEffect]
  rfl

/-- Words of the cask and the cellar have no part in what a step past the instruction changes, and are named by their
address alone. -/
theorem memWord_atEffect {a : W64} (hspace : aSpace a ≤ 1) (len : Nat) (world : Bool) (n : Nat) :
    memWord (atEffect s p len) p world a n = memWord s p world a 8 := by
  have hcases : aSpace a = 0 ∨ aSpace a = 1 := by omega
  rcases hcases with h | h
  · simp only [memWord, h, seenWord_atEffect]
  · simp only [memWord, h, seenWord_atEffect]

theorem storable_atEffect {a : W64} (hspace : aSpace a ≤ 1) (len : Nat) (world : Bool) (n : Nat) :
    storable (atEffect s p len) p world a n = storable s p world a n := by
  have hcases : aSpace a = 0 ∨ aSpace a = 1 := by omega
  rcases hcases with h | h
  · simp only [storable, loadable, h]
  · simp only [storable, loadable, h]
    rfl

/-- R551: with no watchpoint enabled an access goes on at once. -/
theorem watch_of_unwatched (h : unwatched (pilot s p) = true) (pc : BitVec 18) (c : Access) :
    watch s p pc c = (s, false) := by
  have hoff : ∀ k ∈ List.range 4, watchMatch (pilot s p) c k = false := by
    intro k hk
    have hoff := List.all_eq_true.1 h k hk
    rw [Bool.not_eq_true'] at hoff
    simp only [watchMatch, cmpWorld, hoff, Bool.false_and]
  have hfind : (List.range 4).find? (fun k => watchMatch (pilot s p) c k && !watchTrace (pilot s p) k) = none :=
    List.find?_eq_none.2 fun k hk => by simp [hoff k hk]
  have hpackets : watchPackets s p c = s := by
    unfold watchPackets
    refine List.foldlRecOn (motive := (· = s)) (List.range 4) _ rfl fun u hu k hk => ?_
    rw [hoff k hk]
    exact hu
  unfold watch
  simp only [hfind, hpackets, ite_self]

theorem guarded_of_unwatched (h : unwatched (pilot s p) = true) (pc : BitVec 18) (c : Access) (k : State → Acc) :
    guarded s p pc c k = k s := by
  simp only [guarded, watch_of_unwatched h]

/-- R335: the low bytes of a word from an address on. -/
theorem subVal_eq (v a : W64) {n : Nat} (hn : n ≤ 8) :
    subVal v a n = BitVec.ofNat 64 (v.toNat / 2 ^ (8 * (a.toNat % 8)) % 2 ^ (8 * n)) := by
  have hmask : (2 ^ 64 - 1) >>> (64 - 8 * n) = 2 ^ (8 * n) - 1 :=
    (by decide : ∀ n < 9, (2 ^ 64 - 1) >>> (64 - 8 * n) = 2 ^ (8 * n) - 1) n (Nat.lt_succ_of_le hn)
  refine BitVec.eq_of_toNat_eq ?_
  simp only [subVal, BitVec.toNat_and, BitVec.toNat_ushiftRight, BitVec.toNat_allOnes, BitVec.toNat_ofNat]
  rw [hmask, Nat.and_two_pow_sub_one_eq_mod, Nat.shiftRight_eq_div_pow]
  have hfits : 2 ^ (8 * n) ≤ 2 ^ 64 := Nat.pow_le_pow_right Nat.two_pos (by omega)
  exact (Nat.mod_eq_of_lt (Nat.lt_of_lt_of_le (Nat.mod_lt _ (Nat.two_pow_pos _)) hfits)).symm

/-- The bits that a store of `n` bytes at address `a` replaces. -/
theorem getLsbD_storeMask (a : W64) (n : Nat) {k : Nat} (hk : k < 64) :
    ((BitVec.allOnes 64 >>> (64 - 8 * n)) <<< (8 * (a.toNat % 8))).getLsbD k =
      decide (8 * (a.toNat % 8) ≤ k ∧ k < 8 * (a.toNat % 8) + 8 * n) := by
  simp only [BitVec.getLsbD_shiftLeft, BitVec.getLsbD_ushiftRight, BitVec.getLsbD_allOnes, hk, decide_true, Bool.true_and,
    ← decide_not, ← Bool.decide_and]
  congr 1
  apply propext
  omega

/-- R335: each bit of a word of which `n` bytes from address `a` on are replaced. -/
theorem getLsbD_putSub (old v a : W64) (n : Nat) {k : Nat} (hk : k < 64) :
    (putSub old v a n).getLsbD k =
      if 8 * (a.toNat % 8) ≤ k ∧ k < 8 * (a.toNat % 8) + 8 * n then v.getLsbD (k - 8 * (a.toNat % 8))
      else old.getLsbD k := by
  simp only [putSub, BitVec.getLsbD_or, BitVec.getLsbD_and, BitVec.getLsbD_not, getLsbD_storeMask a n hk]
  by_cases hin : 8 * (a.toNat % 8) ≤ k ∧ k < 8 * (a.toNat % 8) + 8 * n
  · have hge : ¬ k < 8 * (a.toNat % 8) := Nat.not_lt.2 hin.1
    simp only [hin, BitVec.getLsbD_shiftLeft, hk, hge, decide_true, decide_false, Bool.and_true, Bool.true_and,
      Bool.not_true, Bool.not_false, Bool.and_false, Bool.false_or, and_self, if_true]
  · simp only [hin, decide_false, decide_true, hk, Bool.not_false, Bool.and_true, Bool.and_false, Bool.or_false, if_false]

/-- R335: each byte of a word of which `n` from address `a` on are replaced. -/
theorem putSub_byte (old v a : W64) (n : Nat) {j : Nat} (hj : j < 8) :
    (putSub old v a n).extractLsb' (8 * j) 8 =
      if a.toNat % 8 ≤ j ∧ j < a.toNat % 8 + n then v.extractLsb' (8 * (j - a.toNat % 8)) 8
      else old.extractLsb' (8 * j) 8 := by
  refine BitVec.eq_of_getLsbD_eq fun i hi => ?_
  rw [BitVec.getLsbD_extractLsb', getLsbD_putSub old v a n (by omega)]
  by_cases hbyte : a.toNat % 8 ≤ j ∧ j < a.toNat % 8 + n
  · have hbit : 8 * (a.toNat % 8) ≤ 8 * j + i ∧ 8 * j + i < 8 * (a.toNat % 8) + 8 * n := by omega
    rw [if_pos hbit, if_pos hbyte, BitVec.getLsbD_extractLsb',
      show 8 * j + i - 8 * (a.toNat % 8) = 8 * (j - a.toNat % 8) + i by omega]
  · have hbit : ¬ (8 * (a.toNat % 8) ≤ 8 * j + i ∧ 8 * j + i < 8 * (a.toNat % 8) + 8 * n) := by omega
    rw [if_neg hbit, if_neg hbyte, BitVec.getLsbD_extractLsb']

theorem wordDisp_eq (i : BitVec 12) : wordDisp i = BitVec.ofInt 64 (8 * i.toInt) := by
  unfold wordDisp
  rw [BitVec.shiftLeft_eq_mul_twoPow, BitVec.ofInt_mul, BitVec.mul_comm]
  rfl

/-! The checks of operands (R308, R320). -/

theorem tagFail_base {world : Bool} {a : TWord} (ha : a.tag = 4) (k : BitVec 2)
    (rest : List (TWord × BitVec 2 × (BitVec 4 → Bool))) :
    tagFail world ((a, k, isAddr) :: rest) = tagFail world rest := by
  simp [tagFail, tagReadable, isAddr, ha]

theorem tagFail_index {world : Bool} {b : TWord} (hb : b.tag = 1) (k : BitVec 2)
    (rest : List (TWord × BitVec 2 × (BitVec 4 → Bool))) :
    tagFail world ((b, k, isInt) :: rest) = tagFail world rest := by
  simp [tagFail, tagReadable, isInt, hb]

theorem tagFail_nil (world : Bool) : tagFail world [] = none := rfl

/-- The statement's word for what R308 lets an instruction read is the model's. -/
theorem readableIn_eq (s : State) (p : Nat) (w : TWord) : readableIn s p w = tagReadable w.tag (pilot s p).sw.world := by
  unfold readableIn tagReadable
  cases (pilot s p).sw.world with
  | true => simp [Bool.decide_and]
  | false => simp [Bool.decide_and]

theorem tagFail_stored {w : TWord} (hw : readableIn s p w = true) (k : BitVec 2) :
    tagFail (pilot s p).sw.world [(w, k, anyTag)] = none := by
  rw [readableIn_eq] at hw
  simp [tagFail, anyTag, hw]

/-- The address of an indexed access. -/
def indexedAddr (s : State) (f : RRR) : W64 := addrAdd ((pilot s f.p).reg f.s).val ((pilot s f.p).reg f.t).val

/-! Loads (R334, R335). -/

/-- What a load of `n` bytes at `a` gives its register: the whole word with its tag, or its bytes as an INT. -/
def loadedWord (s : State) (p : Nat) (world : Bool) (a : W64) (n : Nat) : TWord :=
  if n = 8 then memWord s p world a n else intW (subVal (memWord s p world a n).val a n)

/-- The tags that a load of `n` bytes takes. -/
def loadTags (world : Bool) (n : Nat) : BitVec 4 → Bool := if n = 8 then loadTag world else subTag

/-- A load of `n` bytes at `a` that meets no trap and no watchpoint once the pilot's PC is past the instruction. -/
structure Loads (s : State) (p len : Nat) (a : W64) (n : Nat) : Prop where
  unwatched : unwatched (pilot s p) = true
  aligned : a.toNat % n = 0
  loadable : loadable (atEffect s p len) p (pilot s p).sw.world a n = true
  tag : loadTags (pilot s p).sw.world n (memWord (atEffect s p len) p (pilot s p).sw.world a n).tag = true

theorem loadMem_eq {len n : Nat} {a : W64} (h : Loads s p len a n) (pc : BitVec 18) :
    loadMem (atEffect s p len) p pc a n (loadTags (pilot s p).sw.world n) =
      .ok (atEffect s p len) (loadedWord (atEffect s p len) p (pilot s p).sw.world a n) := by
  obtain ⟨hwatch, halign, hload, htag⟩ := h
  unfold loadMem
  simp only [sw_atEffect, halign, hload, htag, ne_eq, not_true, if_false, Bool.true_eq_false, guarded_of_unwatched ((unwatched_atEffect s p len).trans hwatch)]
  rfl

theorem loadTo_eq {len n : Nat} {a : W64} (h : Loads s p len a n) (pc : BitVec 18) (d : BitVec 5) :
    loadTo (atEffect s p len) p pc d a n =
      wrRes (atEffect s p len) p d (loadedWord (atEffect s p len) p (pilot s p).sw.world a n) (pilot s p).sw := by
  have hload := loadMem_eq h pc
  have htags : loadTags (pilot s p).sw.world n = if n = 8 then loadTag (pilot s p).sw.world else subTag := rfl
  rw [htags] at hload
  unfold loadTo
  dsimp only
  rw [sw_atEffect, hload, ← sw_atEffect s p len]
  rfl

/-- An indexed load (R334, R335). -/
theorem ldxBody_eq {f : RRR} {n : Nat} (hbase : ((pilot s f.p).reg f.s).tag = 4) (hindex : ((pilot s f.p).reg f.t).tag = 1)
    (h : Loads s f.p 1 (indexedAddr s f) n) (pc : BitVec 18) :
    ldxBody n f (stepped (pilot s f.p) 1) pc (atEffect s f.p 1) = wrRes (atEffect s f.p 1) f.p f.d
      (loadedWord (atEffect s f.p 1) f.p (pilot s f.p).sw.world (indexedAddr s f) n) (pilot s f.p).sw := by
  simp only [ldxBody, reg_stepped, sw_stepped, tagFail_base hbase, tagFail_index hindex, tagFail_nil]
  exact loadTo_eq h _ _

/-- R337: LDT outside the window loads as LDX does. -/
theorem ldtBody_of_outside {f : RRR} {x : Pilot} {u : State} (hworld : (pilot u f.p).sw.world = x.sw.world)
    (hspace : aSpace (addrAdd (x.reg f.s).val (x.reg f.t).val) ≠ 2) (pc : BitVec 18) :
    ldtBody f x pc u = ldxBody 8 f x pc u := by
  simp only [ldtBody, ldxBody, loadTo, if_neg hspace, hworld, if_true]

/-- A ready instruction of one word whose body is an indexed load. -/
theorem rrr_load {f : RRR} {fn : BitVec 7} {ok : Bool} {n : Nat} {body : Pilot → BitVec 18 → State → PRes}
    (hr : ready s f.p 1 f.g = true) (hok : ok = true)
    (hbase : ((pilot s f.p).reg f.s).tag = 4) (hindex : ((pilot s f.p).reg f.t).tag = 1)
    (h : Loads s f.p 1 (indexedAddr s f) n)
    (hbody : body (stepped (pilot s f.p) 1) (pilot s f.p).pc (atEffect s f.p 1) =
      ldxBody n f (stepped (pilot s f.p) 1) (pilot s f.p).pc (atEffect s f.p 1)) :
    rrr f 0x0E fn ok false s body = ran (rrrWord f 0x0E fn) 0 s f.p (setsReg s f.p 1 f.d
      (loadedWord (atEffect s f.p 1) f.p (pilot s f.p).sw.world (indexedAddr s f) n) id) := by
  refine rrr_reg hr hok (by simp) (quiet_t (ready_quiet hr)) ?_
  rintro _ _ rfl rfl
  exact hbody.trans (ldxBody_eq hbase hindex h _)

/-- A load with base and displacement (R334). -/
theorem ldBody_eq {len : Nat} {d b : BitVec 5} {disp : W64} (hbase : ((pilot s p).reg b).tag = 4)
    (h : Loads s p len (addrAdd ((pilot s p).reg b).val disp) 8) (pc : BitVec 18) :
    ldBody p d b disp (stepped (pilot s p) len) pc (atEffect s p len) = wrRes (atEffect s p len) p d
      (memWord (atEffect s p len) p (pilot s p).sw.world (addrAdd ((pilot s p).reg b).val disp) 8) (pilot s p).sw := by
  simp only [ldBody, reg_stepped, sw_stepped, tagFail_base hbase, tagFail_nil]
  exact loadTo_eq h _ _

/-! Stores (R334, R335). -/

/-- The word that a store of `n` bytes of `w` leaves at `a`: `w` itself, or its low bytes over the word there, or over 0. -/
def storedWord (s : State) (p : Nat) (a : W64) (n : Nat) (w : TWord) : TWord :=
  let old := memWord s p (pilot s p).sw.world a 8
  if n = 8 then w else ⟨putSub (if old.tag = 0 then 0 else old.val) w.val a n, 2⟩

/-- A store of `n` bytes of `w` at `a`, in the cask or the cellar, that meets no trap and no watchpoint. -/
structure Stores (s : State) (p : Nat) (a : W64) (n : Nat) (w : TWord) : Prop where
  unwatched : unwatched (pilot s p) = true
  aligned : a.toNat % n = 0
  space : aSpace a ≤ 1
  storable : storable s p (pilot s p).sw.world a n = true
  readable : readableIn s p w = true
  unsealed : ¬ (w.tag = 15 ∧ aSpace a = 1 ∧ bankOwner s (aOff a / 8 / bankWords) = 0)
  old : n = 8 ∨ subTag (memWord s p (pilot s p).sw.world a 8).tag = true ∨ (memWord s p (pilot s p).sw.world a 8).tag = 0

/-- R255: the tag of the stored word is right for the cask and the cellar, but for a SEAL word in an OPEN bank. -/
theorem storeTagBad_eq_false {a : W64} {w : TWord} (hspace : aSpace a ≤ 1)
    (hseal : ¬ (w.tag = 15 ∧ aSpace a = 1 ∧ bankOwner s (aOff a / 8 / bankWords) = 0)) : storeTagBad s a w.tag = false := by
  have hwin : aSpace a ≠ 2 := by omega
  have hopen : (decide (w.tag = 15) && inOpenBank s a) = false := by
    rw [← Bool.not_eq_true]
    intro hbad
    simp only [inOpenBank, Bool.and_eq_true, decide_eq_true_eq] at hbad
    exact hseal ⟨hbad.1, hbad.2.1.1, hbad.2.2⟩
  simp only [storeTagBad, hopen, hwin, decide_false, Bool.false_and, Bool.or_false]

theorem ofWindow_putWord (p : Nat) (a : W64) (w : TWord) : OfWindow p (putWord · p a w) := OfWindow.pendStore _

theorem storeMem_eq {n len : Nat} {a : W64} {w : TWord} (hin : (pilot s p).inReset = false) (h : Stores s p a n w)
    (pc : BitVec 18) (num : BitVec 2) :
    storeMem (atEffect s p len) p pc a n w num = .ok (atEffect (putWord s p a (storedWord s p a n w)) p len) w := by
  obtain ⟨hwatch, halign, hspace, hstore, hread, hseal, hold⟩ := h
  have htag : storeTagBad (atEffect s p len) a w.tag = false := storeTagBad_eq_false hspace hseal
  have hwin : aSpace a ≠ 2 := by omega
  have hold' : ¬ (n ≠ 8 ∧ subTag (memWord s p (pilot s p).sw.world a 8).tag = false ∧
      (memWord s p (pilot s p).sw.world a 8).tag ≠ 0) := by
    rintro ⟨h8, hsub, hne⟩
    rcases hold with h | h | h
    · exact h8 h
    · exact Bool.noConfusion (hsub.symm.trans h)
    · exact hne h
  unfold storeMem
  simp only [sw_atEffect, htag, halign, storable_atEffect hspace, memWord_atEffect hspace, hstore, hwin, hold', ne_eq, not_true,
    if_false, Bool.true_eq_false, Bool.false_eq_true, guarded_of_unwatched ((unwatched_atEffect s p len).trans hwatch)]
  exact congrArg (Acc.ok · w) ((ofWindow_putWord p a _).atEffect s len hin)

/-- A store with its answer: the pilot past the instruction, and the word in its commit buffer. -/
theorem storeAnswer_eq {n len : Nat} {a : W64} {w : TWord} (hin : (pilot s p).inReset = false) (h : Stores s p a n w)
    (pc : BitVec 18) :
    (storeMem (atEffect s p len) p pc a n w 2).answer (atEffect s p len) p pc (fun s _ => s) =
      .done (atEffect (putWord s p a (storedWord s p a n w)) p len) := by
  rw [storeMem_eq hin h]
  rfl

/-- A ready indexed store (R334, R335). -/
theorem rrr_store {f : RRR} {fn : BitVec 7} {ok : Bool} {n : Nat} (hr : ready s f.p 1 f.g = true) (hok : ok = true)
    (hbase : ((pilot s f.p).reg f.s).tag = 4) (hindex : ((pilot s f.p).reg f.t).tag = 1)
    (h : Stores s f.p (indexedAddr s f) n ((pilot s f.p).reg f.d)) :
    rrr f 0x0E fn ok false s (stxBody n f) = ran (rrrWord f 0x0E fn) 0 s f.p (afterInstr
      (putWord s f.p (indexedAddr s f)
        (storedWord s f.p (indexedAddr s f) n ((pilot s f.p).reg f.d)))
      f.p 1 id) := by
  unfold rrr
  refine issue_ofWindow (i := ⟨f.p, f.g, 1, rrrWord f 0x0E fn, !ok, false, false, 0⟩) (g := (putWord · f.p _ _))
    (ofWindow_putWord f.p _ _) hr (by simp [hok]) (by simp) ?_
  dsimp only
  simp only [pilot_atEffect, stxBody, reg_stepped, sw_stepped, tagFail_base hbase, tagFail_index hindex,
    tagFail_stored h.readable]
  exact storeAnswer_eq (quiet_inReset (ready_quiet hr)) h _

/-- A store with base and displacement (R334). -/
theorem stBody_eq {len : Nat} {d b : BitVec 5} {disp : W64} (hin : (pilot s p).inReset = false)
    (hbase : ((pilot s p).reg b).tag = 4) (h : Stores s p (addrAdd ((pilot s p).reg b).val disp) 8 ((pilot s p).reg d))
    (pc : BitVec 18) :
    stBody p d b disp (stepped (pilot s p) len) pc (atEffect s p len) =
      .done (atEffect (putWord s p (addrAdd ((pilot s p).reg b).val disp) ((pilot s p).reg d)) p len) := by
  simp only [stBody, reg_stepped, sw_stepped, tagFail_base hbase, tagFail_stored h.readable]
  exact storeAnswer_eq hin h _

/-! Each instruction. -/

/-- A whole word that an instruction may read is loaded (R308). -/
theorem loads_of_readable {len : Nat} {a : W64} (hw : unwatched (pilot s p) = true) (halign : a.toNat % 8 = 0)
    (hload : loadable (atEffect s p len) p (pilot s p).sw.world a 8 = true)
    (hread : readableIn s p (memWord (atEffect s p len) p (pilot s p).sw.world a 8) = true) : Loads s p len a 8 :=
  ⟨hw, halign, hload, (readableIn_eq s p _).symm.trans hread⟩

/-- Bytes of an INT, a BITS or a DEC word are loaded (R335). -/
theorem loads_of_narrow {len n : Nat} {a : W64} (hn : n < 8) (hw : unwatched (pilot s p) = true) (halign : a.toNat % n = 0)
    (hload : loadable (atEffect s p len) p (pilot s p).sw.world a n = true)
    (htag : (memWord (atEffect s p len) p (pilot s p).sw.world a n).tag = 1 ∨
      (memWord (atEffect s p len) p (pilot s p).sw.world a n).tag = 2 ∨
      (memWord (atEffect s p len) p (pilot s p).sw.world a n).tag = 3) : Loads s p len a n := by
  refine ⟨hw, halign, hload, ?_⟩
  rw [loadTags, if_neg (Nat.ne_of_lt hn)]
  simpa only [subTag, Bool.or_eq_true, decide_eq_true_eq, or_assoc] using htag

/-- R335: the bytes of a word arrive as an INT, in the statement's arithmetic. -/
theorem loadedWord_of_narrow (s : State) (p : Nat) (world : Bool) (a : W64) {n : Nat} (hn : n < 8) :
    loadedWord s p world a n =
      intW (BitVec.ofNat 64 ((memWord s p world a n).val.toNat / 2 ^ (8 * (a.toNat % 8)) % 2 ^ (8 * n))) := by
  rw [loadedWord, if_neg (Nat.ne_of_lt hn), subVal_eq _ _ (Nat.le_of_lt hn)]

/-- A ready indexed load of fewer than 8 bytes (R335). -/
theorem rrr_load_narrow {f : RRR} {fn : BitVec 7} {n : Nat} (hn : n < 8) (hr : ready s f.p 1 f.g = true)
    (hok : ixOkD f = true) (hbase : ((pilot s f.p).reg f.s).tag = 4) (hindex : ((pilot s f.p).reg f.t).tag = 1)
    (h : Loads s f.p 1 (indexedAddr s f) n) :
    (.next (rrr f 0x0E fn (ixOkD f) false s (ldxBody n f)) : Out) = .next (ran (rrrWord f 0x0E fn) 0 s f.p
      (setsReg s f.p 1 f.d (intW (BitVec.ofNat 64
        ((memWord (atEffect s f.p 1) f.p (pilot s f.p).sw.world (indexedAddr s f) n).val.toNat /
          2 ^ (8 * ((indexedAddr s f).toNat % 8)) % 2 ^ (8 * n)))) id)) := by
  rw [rrr_load hr hok hbase hindex h rfl, loadedWord_of_narrow _ _ _ _ hn]

/-- R335: a store of fewer than 8 bytes of `w` at `a` leaves a BITS word: the bytes stored, and the others of the word that
is there, or 0 over an EMPTY word. -/
theorem storedWord_of_narrow (s : State) (p : Nat) (a : W64) (w : TWord) {n : Nat} (hn : n < 8) :
    ∃ v : W64, (∀ j, j < 8 → v.extractLsb' (8 * j) 8 =
      if a.toNat % 8 ≤ j ∧ j < a.toNat % 8 + n then w.val.extractLsb' (8 * (j - a.toNat % 8)) 8
      else (if (memWord s p (pilot s p).sw.world a 8).tag = 0 then 0
        else (memWord s p (pilot s p).sw.world a 8).val : W64).extractLsb' (8 * j) 8) ∧
      storedWord s p a n w = ⟨v, 2⟩ :=
  ⟨_, fun _ hj => putSub_byte _ _ _ _ hj, if_neg (Nat.ne_of_lt hn)⟩

/-- A ready indexed store of fewer than 8 bytes (R335). -/
theorem rrr_store_narrow {f : RRR} {fn : BitVec 7} {n : Nat} (hn : n < 8) (hr : ready s f.p 1 f.g = true)
    (hok : ixOkD f = true) (hbase : ((pilot s f.p).reg f.s).tag = 4) (hindex : ((pilot s f.p).reg f.t).tag = 1)
    (h : Stores s f.p (indexedAddr s f) n ((pilot s f.p).reg f.d)) :
    ∃ v : W64, (∀ j, j < 8 → v.extractLsb' (8 * j) 8 =
      if (indexedAddr s f).toNat % 8 ≤ j ∧ j < (indexedAddr s f).toNat % 8 + n then
        ((pilot s f.p).reg f.d).val.extractLsb' (8 * (j - (indexedAddr s f).toNat % 8)) 8
      else (if (memWord s f.p (pilot s f.p).sw.world (indexedAddr s f) 8).tag = 0 then 0
        else (memWord s f.p (pilot s f.p).sw.world (indexedAddr s f) 8).val : W64).extractLsb' (8 * j) 8) ∧
      (.next (rrr f 0x0E fn (ixOkD f) false s (stxBody n f)) : Out) = .next (ran (rrrWord f 0x0E fn) 0 s f.p
        (afterInstr (putWord s f.p (indexedAddr s f) ⟨v, 2⟩) f.p 1 id)) := by
  obtain ⟨v, hbytes, hword⟩ := storedWord_of_narrow s f.p (indexedAddr s f) ((pilot s f.p).reg f.d) hn
  exact ⟨v, hbytes, by rw [rrr_store hr hok hbase hindex h, hword]⟩

/-- The memory word's tag of a store of fewer than 8 bytes (R335). -/
theorem old_of_tags {t : BitVec 4} {n : Nat} (h : t = 0 ∨ t = 1 ∨ t = 2 ∨ t = 3) : n = 8 ∨ subTag t = true ∨ t = 0 := by
  rcases h with h | h
  · exact .inr (.inr h)
  · exact .inr (.inl (by simpa only [subTag, Bool.or_eq_true, decide_eq_true_eq, or_assoc] using h))

/-- LDX (R334). -/
theorem ldx_eq {f : RRR} (hr : ready s f.p 1 f.g = true) (hok : ixOk f = true)
    (hbase : ((pilot s f.p).reg f.s).tag = 4) (hindex : ((pilot s f.p).reg f.t).tag = 1)
    (h : Loads s f.p 1 (indexedAddr s f) 8) :
    exec (.ldx f) s = .next (ran (rrrWord f 0x0E 0) 0 s f.p (setsReg s f.p 1 f.d
      (memWord (atEffect s f.p 1) f.p (pilot s f.p).sw.world (indexedAddr s f) 8) id)) :=
  congrArg Host.Outcome.next (rrr_load (n := 8) hr hok hbase hindex h rfl)

/-- LDT outside the window (R334, R337). -/
theorem ldt_eq {f : RRR} (hr : ready s f.p 1 f.g = true) (hok : ixOkD f = true)
    (hbase : ((pilot s f.p).reg f.s).tag = 4) (hindex : ((pilot s f.p).reg f.t).tag = 1)
    (h : Loads s f.p 1 (indexedAddr s f) 8) (hspace : aSpace (indexedAddr s f) ≠ 2) :
    exec (.ldt f) s = .next (ran (rrrWord f 0x0E 8) 0 s f.p (setsReg s f.p 1 f.d
      (memWord (atEffect s f.p 1) f.p (pilot s f.p).sw.world (indexedAddr s f) 8) id)) :=
  congrArg Host.Outcome.next (rrr_load (n := 8) hr hok hbase hindex h
    (ldtBody_of_outside (sw_atEffect s f.p 1 ▸ rfl) hspace _))

/-- LD (R334). -/
theorem ld_eq {f : RRI} (hr : ready s f.p 1 f.g = true) (hs : isA f.s = true) (hbase : ((pilot s f.p).reg f.s).tag = 4)
    (h : Loads s f.p 1 (addrAdd ((pilot s f.p).reg f.s).val (wordDisp f.imm)) 8) :
    exec (.ld f) s = .next (ran (rriWord f 0x0C) 0 s f.p (setsReg s f.p 1 f.d
      (memWord (atEffect s f.p 1) f.p (pilot s f.p).sw.world
        (addrAdd ((pilot s f.p).reg f.s).val (wordDisp f.imm)) 8) id)) := by
  refine congrArg Host.Outcome.next (rri_reg hr hs (quiet_t (ready_quiet hr)) ?_)
  rintro _ _ rfl rfl
  exact ldBody_eq hbase h _

/-- LDL (R334). -/
theorem ldl_eq {f : LF} (hr : ready s f.p 2 f.g = true) (hz : f.z = 0) (hs : isA f.s = true)
    (hbase : ((pilot s f.p).reg f.s).tag = 4)
    (h : Loads s f.p 2 (addrAdd ((pilot s f.p).reg f.s).val (f.imm.signExtend 64)) 8) :
    exec (.ldl f) s = .next (ran (lfWord f 0x33) f.imm s f.p (setsReg s f.p 2 f.d
      (memWord (atEffect s f.p 2) f.p (pilot s f.p).sw.world
        (addrAdd ((pilot s f.p).reg f.s).val (f.imm.signExtend 64)) 8) id)) := by
  refine congrArg Host.Outcome.next (lform_reg hr (by simp [hs, hz]) (quiet_t (ready_quiet hr)) ?_)
  rintro _ _ rfl rfl
  exact ldBody_eq hbase h _

/-- ST (R334). -/
theorem st_eq {f : RRI} (hr : ready s f.p 1 f.g = true) (hs : isA f.s = true) (hbase : ((pilot s f.p).reg f.s).tag = 4)
    (h : Stores s f.p (addrAdd ((pilot s f.p).reg f.s).val (wordDisp f.imm)) 8 ((pilot s f.p).reg f.d)) :
    exec (.st f) s = .next (ran (rriWord f 0x0D) 0 s f.p (afterInstr
      (putWord s f.p (addrAdd ((pilot s f.p).reg f.s).val (wordDisp f.imm)) ((pilot s f.p).reg f.d)) f.p 1 id)) := by
  refine congrArg Host.Outcome.next ?_
  unfold rri
  refine issue_ofWindow (i := ⟨f.p, f.g, 1, rriWord f 0x0D, !isA f.s, false, false, 0⟩) (g := (putWord · f.p _ _))
    (ofWindow_putWord f.p _ _) hr (by simp [hs]) (by simp) ?_
  dsimp only
  rw [pilot_atEffect]
  exact stBody_eq (quiet_inReset (ready_quiet hr)) hbase h _

/-- STL (R334). -/
theorem stl_eq {f : LF} (hr : ready s f.p 2 f.g = true) (hz : f.z = 0) (hs : isA f.s = true)
    (hbase : ((pilot s f.p).reg f.s).tag = 4)
    (h : Stores s f.p (addrAdd ((pilot s f.p).reg f.s).val (f.imm.signExtend 64)) 8 ((pilot s f.p).reg f.d)) :
    exec (.stl f) s = .next (ran (lfWord f 0x34) f.imm s f.p (afterInstr
      (putWord s f.p (addrAdd ((pilot s f.p).reg f.s).val (f.imm.signExtend 64)) ((pilot s f.p).reg f.d)) f.p 2 id)) := by
  refine congrArg Host.Outcome.next ?_
  unfold lform
  refine issue_ofWindow (i := ⟨f.p, f.g, 2, lfWord f 0x34, !(isA f.s && decide (f.z = 0)), false, false, f.imm⟩)
    (g := (putWord · f.p _ _)) (ofWindow_putWord f.p _ _) hr (by simp [hs, hz]) (by simp) ?_
  dsimp only
  rw [pilot_atEffect]
  exact stBody_eq (quiet_inReset (ready_quiet hr)) hbase h _

end

/-- Settles O6: the indexed loads and stores by `rrr_load` and `rrr_store`, the others by the lemma of the instruction. -/
theorem loadsAndStores : Obligations.LoadsAndStores := by
  unfold Obligations.LoadsAndStores
  refine ⟨?_, ?_, ?_, ?_, ?_, ?_⟩
  · intro s f hr hw hs ht
    dsimp only
    intro hbase hindex
    have hix : ixOk f = true := by simp [ixOk, hs, ht]
    have hixD : isD f.d = true → ixOkD f = true := fun hd => by simp [ixOkD, hs, ht, hd]
    refine ⟨fun ⟨halign, hload⟩ hread => ?_, fun ⟨hd, ⟨halign, hload⟩, htag⟩ => ?_,
      fun ⟨hd, ⟨halign, hload⟩, htag⟩ => ?_, fun ⟨hd, ⟨halign, hload⟩, htag⟩ => ?_⟩
    · have h : Loads s f.p 1 (indexedAddr s f) 8 := loads_of_readable hw halign hload hread
      exact ⟨ldx_eq hr hix hbase hindex h, fun hd => ldt_eq hr (hixD hd) hbase hindex h⟩
    · exact rrr_load_narrow (n := 1) (fn := 2) (by decide) hr (hixD hd) hbase hindex
        (loads_of_narrow (by decide) hw halign hload htag)
    · exact rrr_load_narrow (n := 2) (fn := 3) (by decide) hr (hixD hd) hbase hindex
        (loads_of_narrow (by decide) hw halign hload htag)
    · exact rrr_load_narrow (n := 4) (fn := 4) (by decide) hr (hixD hd) hbase hindex
        (loads_of_narrow (by decide) hw halign hload htag)
  · intro s f hr hw hs
    dsimp only
    rw [← wordDisp_eq]
    exact fun hbase halign hload hread => ld_eq hr hs hbase (loads_of_readable hw halign hload hread)
  · intro s f hr hz hw hs
    exact fun hbase halign hload hread => ldl_eq hr hz hs hbase (loads_of_readable hw halign hload hread)
  · intro s f hr hw hs ht
    dsimp only
    intro hbase hindex hspace hread hseal
    have hix : ixOk f = true := by simp [ixOk, hs, ht]
    refine ⟨fun halign hstore => congrArg Host.Outcome.next
      (rrr_store (n := 8) (fn := 1) hr hix hbase hindex ⟨hw, halign, hspace, hstore, hread, hseal, .inl rfl⟩), fun hd => ?_⟩
    have hixD : ixOkD f = true := by simp [ixOkD, hs, ht, hd]
    refine ⟨fun ⟨halign, hstore, hold⟩ => ?_, fun ⟨halign, hstore, hold⟩ => ?_, fun ⟨halign, hstore, hold⟩ => ?_⟩
    · exact rrr_store_narrow (n := 1) (fn := 5) (by decide) hr hixD hbase hindex
        ⟨hw, halign, hspace, hstore, hread, hseal, old_of_tags hold⟩
    · exact rrr_store_narrow (n := 2) (fn := 6) (by decide) hr hixD hbase hindex
        ⟨hw, halign, hspace, hstore, hread, hseal, old_of_tags hold⟩
    · exact rrr_store_narrow (n := 4) (fn := 7) (by decide) hr hixD hbase hindex
        ⟨hw, halign, hspace, hstore, hread, hseal, old_of_tags hold⟩
  · intro s f hr hw hs
    dsimp only
    rw [← wordDisp_eq]
    exact fun hbase halign hspace hstore hread hseal =>
      st_eq hr hs hbase ⟨hw, halign, hspace, hstore, hread, hseal, .inl rfl⟩
  · intro s f hr hz hw hs
    exact fun hbase halign hspace hstore hread hseal =>
      stl_eq hr hz hs hbase ⟨hw, halign, hspace, hstore, hread, hseal, .inl rfl⟩

end Sys2Proof.Machine
end

section
/-! Taking a trap (R367 to R373, R438): entry at the trap's own level, escalation and retirement. -/

namespace Sys2Proof.Machine

/-! The entry of a pilot (R371). -/

/-- With no multiply in flight, none drains. -/
theorem drain_nil {x : Pilot} (h : x.mulq = []) : x.drain = x := by
  have e : x = { x with mulq := [] } := by cases x; simp_all
  rw [e]; rfl

@[simp] theorem bankOf_setBank_self (x : Pilot) (k : Nat) (b : Bank) : (x.setBank k b).bankOf k = b :=
  Table.get_put_self _ _ _ _

/-- The entry of a pilot without a multiply in flight, in the words of the statements (R371, R386, R479). -/
theorem enter_eq_entered {x : Pilot} (h : x.mulq = []) (e : Entry) :
    x.enter e = entered x e.n e.code e.src e.esc e.tv e.spc e.slot e.hw e.vec := by
  have hcur : (if e.n.toNat ≥ 6 then 8 else x.cur) = if e.n.toNat < 6 then x.cur else 8 := by
    simp only [ge_iff_le, ← Nat.not_lt, ite_not]
  simp only [Pilot.enter, drain_nil h, Pilot.leaveMonitor, Pilot.atMonitor, Pilot.putSet, entered, Bool.and_eq_true,
    decide_eq_true_eq]
  split
  · rw [← hcur]
  · rw [← hcur]

/-- The save set of the level holds what the entry left. -/
theorem setOf_entered (x : Pilot) (n : BitVec 3) (code : BitVec 4) (src : BitVec 12) (esc : Bool) (tv : W64)
    (spc : BitVec 18) (slot hw : Bool) (vec : BitVec 18) :
    (entered x n code src esc tv spc slot hw vec).setOf n.toNat =
      { spc := spc, ssw := { x.sw with slot := slot }, scx := x.cx, tv := tv
        tc := { esc := esc, hw := hw, clevel := x.sw.level, cmask := x.sw.mask, cworld := x.sw.world, cpriv := x.sw.priv,
                bank := BitVec.ofNat 4 x.cur, src := src, code := code } } :=
  Table.get_put_self _ _ _ _

section
variable {s : State} {p : Nat}

/-- With the trace of transfers off, a transfer sends no packet (R553). -/
theorem flowPacket_of_off (h : s.dbg.tflow = false) (pc target : BitVec 18) : flowPacket s p pc target = s := by
  simp [flowPacket, h]

/-- With the trace of levels off, an entry sends none (R553). -/
theorem levelPacket_of_off (h : s.dbg.tlvl = false) (n : Nat) (src : BitVec 12) (code : BitVec 4) :
    levelPacket s p n src code = s := by
  simp [levelPacket, h]

/-- Without trace of transfers and levels, an entry below level 7 changes its pilot alone (R371, R553). -/
theorem enter_of_untraced {e : Entry} (hmul : (pilot s p).mulq = []) (htrace : untraced s = true) (hn : e.n ≠ 7) :
    enter s p e = setPilot s p (entered (pilot s p) e.n e.code e.src e.esc e.tv e.spc e.slot e.hw e.vec) := by
  simp only [untraced, Bool.and_eq_true, Bool.not_eq_true'] at htrace
  obtain ⟨hflow, hlevel⟩ := htrace
  simp only [enter, if_neg hn, updPilot, enter_eq_entered hmul]
  rw [flowPacket_of_off (by exact hflow), levelPacket_of_off (by exact hlevel)]

/-- At a boundary a pilot takes the source that its cluster selects (R411). -/
theorem pilot_srcSwitch (s : State) (p : Nat) :
    pilot (srcSwitch s p) p = { pilot s p with src := selected s p } := by
  unfold srcSwitch selected
  split
  · rfl
  · exact pilot_updPilot_self s p _

theorem srcSwitch_setPilot {x : Pilot} (hx : x.inReset = false) (hsrc : x.src = (pilot s p).src) :
    srcSwitch (setPilot s p x) p = setPilot s p { x with src := selected s p } := by
  unfold srcSwitch selected
  split
  · rw [← hsrc]
  · exact updPilot_setPilot hx

@[simp] theorem evc_srcSwitch (s : State) (p : Nat) : (srcSwitch s p).evc = s.evc := by
  unfold srcSwitch
  split <;> rfl

/-! A trap by its level and MASK (R367, R368). -/

/-- A trap of level 5 that MASK does not bar enters level 5. -/
theorem trapAt_of_unbarred {code : BitVec 4} {tv : W64} {pc : BitVec 18} {slot : Bool} (hlevel : trapLevel code = 5)
    (hin : (pilot s p).inReset = false) (hmul : (pilot s p).mulq = []) (htrace : untraced s = true)
    (hmask : (pilot s p).sw.mask < 5) :
    trapAt s p code tv pc slot = setPilot s p { entered (pilot s p) 5 code 0 false tv pc slot ((pilot s p).trapWorld 5)
      ((pilot s p).trapVec ((pilot s p).trapWorld 5) code) with src := selected s p } := by
  have hbar : (pilot s p).sw.mask < 5 ∧ (5 : BitVec 3) ≠ 7 := ⟨hmask, by decide⟩
  simp only [trapAt, takeTrap, takeTrapAt, hlevel, if_pos hbar]
  rw [enter_of_untraced hmul htrace hbar.2]
  exact srcSwitch_setPilot hin rfl

/-- The entry to level 7 by which a trap of code `code` escalates (R367, R371). -/
def escalation (x : Pilot) (code : BitVec 4) (pc : BitVec 18) (slot : Bool) : Entry :=
  ⟨7, code, 0, true, 0, pc, slot, true, x.trapVec true 14⟩

/-- A trap of level 5 that MASK bars escalates to level 7. -/
theorem takeTrap_of_barred {code : BitVec 4} {tv : W64} {pc : BitVec 18} {slot : Bool} (hlevel : trapLevel code = 5)
    (hmask : 5 ≤ (pilot s p).sw.mask) (hseven : (pilot s p).sw.level ≠ 7) :
    takeTrap s p code tv pc slot = enter s p (escalation (pilot s p) code pc slot) := by
  have hbar : ¬((pilot s p).sw.mask < 5 ∧ (5 : BitVec 3) ≠ 7) := fun h => absurd h.1 (BitVec.not_lt.2 hmask)
  simp only [takeTrap, takeTrapAt, hlevel, if_neg hbar, if_neg hseven]
  rfl

/-- At level 7 it retires the pilot. -/
theorem takeTrap_of_barred_at_seven {code : BitVec 4} {tv : W64} {pc : BitVec 18} {slot : Bool}
    (hlevel : trapLevel code = 5) (hmask : 5 ≤ (pilot s p).sw.mask) (hseven : (pilot s p).sw.level = 7) :
    takeTrap s p code tv pc slot = retire s p := by
  have hbar : ¬((pilot s p).sw.mask < 5 ∧ (5 : BitVec 3) ≠ 7) := fun h => absurd h.1 (BitVec.not_lt.2 hmask)
  simp only [takeTrap, takeTrapAt, hlevel, if_neg hbar, if_pos hseven]

/-! What an abandonment leaves of the pilots and the claims (R373). -/

@[simp] theorem pilot_fetchWord (s : State) (i q : Nat) : pilot (fetchWord s i) q = pilot s q := by
  unfold fetchWord
  split
  · exact pilot_emit _ _ _
  · rfl

@[simp] theorem pilot_finishRollback (s : State) (i q : Nat) : pilot (finishRollback s i) q = pilot s q := by
  have hfree : ∀ u, pilot (lfree u i) q = pilot u q := fun _ => rfl
  have hcmds : ∀ u, pilot (orphanCmds u i) q = pilot u q := fun _ => rfl
  have hunhold : ∀ u, pilot (unhold u i) q = pilot u q := fun _ => rfl
  have hrecq : ∀ u r, pilot { u with recq := r } q = pilot u q := fun _ _ => rfl
  simp only [finishRollback, pilot_sampleLevel, hrecq, apply_ite (pilot · q), pilot_fetchWord, hcmds, pilot_updXctx,
    hunhold, hfree, pilot_setOwn, ite_self]

@[simp] theorem pilot_breakMoor (s : State) (r : MoorRef) (c : BreakCause) (q : Nat) :
    pilot (breakMoor s r c) q = pilot s q := by
  have hnote : ∀ u m emb n, pilot (noteBreak u c m emb n) q = pilot u q := by
    intro u m emb n
    unfold noteBreak
    split <;> rfl
  unfold breakMoor
  dsimp only
  split
  · rfl
  cases r with
  | alone n => dsimp only; rw [hnote, pilot_setAloneMoor]
  | emb i =>
    dsimp only
    split
    · rw [pilot_updOwn, hnote]
    · rw [pilot_finishRollback, pilot_updOwn, hnote]

/-- Breaking moorings leaves every pilot. -/
@[simp] theorem pilot_breakAll (s : State) (f : Moor → Bool) (c : BreakCause) (q : Nat) :
    pilot (breakAll s f c) q = pilot s q := by
  unfold breakAll
  generalize mooringsOf s f = l
  induction l generalizing s with
  | nil => rfl
  | cons r l ih => rw [List.foldl_cons, ih, pilot_breakMoor]

/-- What a table lists after a function on its values is the function's value at what was listed. -/
theorem Table.exists_of_mem_mapVals {α : Type} [DecidableEq α] {d : α} {f : Nat → α → α} {k : Nat} {w : α} :
    ∀ {t : Table α}, (k, w) ∈ Table.mapVals d f t → ∃ v, w = f k v
  | (j, v) :: t, h => by
    unfold Table.mapVals at h
    split at h
    · exact Table.exists_of_mem_mapVals h
    · rcases List.mem_cons.1 h with he | h
      · obtain ⟨rfl, rfl⟩ := Prod.mk.inj he
        exact ⟨v, rfl⟩
      · exact Table.exists_of_mem_mapVals h

/-- A claim that a release leaves does not satisfy its test (R452). -/
theorem claim_dropClaim {f : Nat → Claim → Bool} {k : Nat} {x : Src} {c : Claim}
    (h : (dropClaim f k x).claim = some c) : f k c = false := by
  cases hclaim : x.claim with
  | none => simp [dropClaim, hclaim] at h
  | some c' =>
    by_cases hf : f k c' = true
    · simp [dropClaim, hclaim, hf] at h
    · have hc : c' = c := by simpa [dropClaim, hclaim, hf] using h
      rw [← hc, Bool.eq_false_iff]
      exact hf

/-- No claim that is to be released stands afterwards, in whatever table of sources. -/
theorem claim_releaseClaims {f : Nat → Claim → Bool} {k : Nat} {c : Claim}
    (h : (srcOf (releaseClaims s f) k).claim = some c) : f k c = false := by
  have hlisted : srcOf (releaseClaims s f) k ≠ {} := fun he => by simp [he] at h
  obtain ⟨v, hv⟩ := Table.exists_of_mem_mapVals (Table.mem_of_get_ne hlisted)
  exact claim_dropClaim (x := v) (hv ▸ (h : (Table.get {} (Table.mapVals {} (dropClaim f) s.evc.src) k).claim = some c))

/-- An abandonment empties the bank, and changes no more of the pilot (R373). -/
theorem pilot_abandonBank (s : State) (p b : Nat) (c : BreakCause) :
    pilot (abandonBank s p b c) p = (pilot s p).setBank b ((pilot s p).bankOf b).abandon := by
  have hbroken : pilot (breakBank s p b c) p = pilot s p := pilot_breakAll s _ c p
  rw [← hbroken]
  exact pilot_updPilot_self _ p _

/-- No claim of an abandoned bank stands. -/
theorem claim_abandonBank {b : Nat} {cause : BreakCause} {k : Nat} {c : Claim}
    (h : (srcOf (abandonBank s p b cause) k).claim = some c) (hp : c.pilot = p) : c.bank ≠ b := by
  have := claim_releaseClaims (s := endTurns (breakBank s p b cause) p (fun k => decide (k = b))) h
  simpa [hp] using this

/-! An entry to level 7 (R371, R373). -/

/-- A trace packet waits in its pilot's window, and reaches nothing of the event controller (R554). -/
theorem notePacket_frame (s : State) (p : Nat) (typ : BitVec 4) (ch : BitVec 5) (v : W64) :
    (∃ w, pilot (notePacket s p typ ch v) p = { pilot s p with win := w }) ∧ (notePacket s p typ ch v).evc = s.evc := by
  unfold notePacket
  split
  · exact ⟨⟨_, rfl⟩, rfl⟩
  · exact ⟨⟨_, pilot_updPilot_self s p _⟩, rfl⟩

theorem flowPacket_frame (s : State) (p : Nat) (pc target : BitVec 18) :
    (∃ w, pilot (flowPacket s p pc target) p = { pilot s p with win := w }) ∧ (flowPacket s p pc target).evc = s.evc := by
  unfold flowPacket
  split
  · exact notePacket_frame s p _ _ _
  · exact ⟨⟨_, rfl⟩, rfl⟩

theorem levelPacket_frame (s : State) (p n : Nat) (src : BitVec 12) (code : BitVec 4) :
    (∃ w, pilot (levelPacket s p n src code) p = { pilot s p with win := w }) ∧
      (levelPacket s p n src code).evc = s.evc := by
  unfold levelPacket
  split
  · exact notePacket_frame s p _ _ _
  · exact ⟨⟨_, rfl⟩, rfl⟩

@[simp] theorem pilot_logCheck (s : State) (p q : Nat) (code : BitVec 16) : pilot (logCheck s p code) q = pilot s q := rfl

@[simp] theorem evc_logCheck (s : State) (p : Nat) (code : BitVec 16) : (logCheck s p code).evc = s.evc := rfl

/-- The state in which an entry to level 7 has entered the level and abandoned the interrupted bank. -/
def enteredSeven (s : State) (p : Nat) (e : Entry) : State :=
  abandonBank (updPilot s p (fun x => x.enter e)) p (pilot s p).cur .check

/-- Besides, an entry to level 7 writes the log and may send packets. -/
theorem enter_seven {e : Entry} (hn : e.n = 7) :
    enter s p e = levelPacket (flowPacket (logCheck (enteredSeven s p e) p 0x301) p e.spc e.vec) p e.n.toNat e.src e.code := by
  simp only [enter, if_pos hn, enteredSeven]

theorem enter_seven_frame {e : Entry} (hn : e.n = 7) :
    (∃ w, pilot (enter s p e) p = { pilot (enteredSeven s p e) p with win := w }) ∧
      (enter s p e).evc = (enteredSeven s p e).evc := by
  obtain ⟨⟨wf, hflow⟩, hflowEvc⟩ := flowPacket_frame (logCheck (enteredSeven s p e) p 0x301) p e.spc e.vec
  obtain ⟨⟨wl, hlevel⟩, hlevelEvc⟩ := levelPacket_frame
    (flowPacket (logCheck (enteredSeven s p e) p 0x301) p e.spc e.vec) p e.n.toNat e.src e.code
  rw [enter_seven hn]
  exact ⟨⟨wl, by rw [hlevel, hflow, pilot_logCheck]⟩, by rw [hlevelEvc, hflowEvc, evc_logCheck]⟩

/-- The pilot after an entry to level 7: the interrupted bank is empty. -/
theorem pilot_enteredSeven {e : Entry} (hmul : (pilot s p).mulq = []) :
    let y := entered (pilot s p) e.n e.code e.src e.esc e.tv e.spc e.slot e.hw e.vec
    pilot (enteredSeven s p e) p = y.setBank (pilot s p).cur (y.bankOf (pilot s p).cur).abandon := by
  rw [enteredSeven, pilot_abandonBank, pilot_updPilot_self, enter_eq_entered hmul]

/-- A trap of level 5 that MASK bars leaves its pilot at level 7, with the interrupted bank empty. -/
theorem pilot_trapAt_of_barred {code : BitVec 4} {tv : W64} {pc : BitVec 18} {slot : Bool} (hlevel : trapLevel code = 5)
    (hmul : (pilot s p).mulq = []) (hmask : 5 ≤ (pilot s p).sw.mask) (hseven : (pilot s p).sw.level ≠ 7) :
    let y := entered (pilot s p) 7 code 0 true 0 pc slot true ((pilot s p).trapVec true 14)
    ∃ w n, pilot (trapAt s p code tv pc slot) p =
      { y.setBank (pilot s p).cur (y.bankOf (pilot s p).cur).abandon with win := w, src := n } := by
  dsimp only
  obtain ⟨⟨w, hw⟩, -⟩ := enter_seven_frame (s := s) (p := p) (e := escalation (pilot s p) code pc slot) rfl
  refine ⟨w, selected (enter s p (escalation (pilot s p) code pc slot)) p, ?_⟩
  rw [trapAt, takeTrap_of_barred hlevel hmask hseven, pilot_srcSwitch, hw, pilot_enteredSeven hmul]
  rfl

/-- No claim of the interrupted bank stands then. -/
theorem claim_trapAt_of_barred {code : BitVec 4} {tv : W64} {pc : BitVec 18} {slot : Bool} {k : Nat} {c : Claim}
    (hlevel : trapLevel code = 5) (hmask : 5 ≤ (pilot s p).sw.mask) (hseven : (pilot s p).sw.level ≠ 7)
    (h : (srcOf (trapAt s p code tv pc slot) k).claim = some c) (hp : c.pilot = p) : c.bank ≠ (pilot s p).cur := by
  rw [srcOf, trapAt, evc_srcSwitch, takeTrap_of_barred hlevel hmask hseven, (enter_seven_frame rfl).2] at h
  exact claim_abandonBank h hp

/-! Retirement (R438). -/

/-- A retired pilot is reset and in TESTING. -/
theorem pilot_retire (hp : p ≠ hmNo) :
    pilot (retire s p) p = { (pilot s p).reset with role := .testing, inReset := true } := by
  have hbroken : pilot (breakPilot s p .reset) p = pilot s p := pilot_breakAll s _ _ p
  unfold retire
  rw [if_neg hp, ← hbroken, pilot_setChk]
  exact pilot_updPilot_self _ p _

/-- No claim of a retired pilot stands. -/
theorem claim_retire (hp : p ≠ hmNo) {k : Nat} {c : Claim} (h : (srcOf (retire s p) k).claim = some c) : c.pilot ≠ p := by
  unfold retire at h
  rw [if_neg hp] at h
  have := claim_releaseClaims (s := endTurns (breakPilot s p .reset) p (fun _ => true)) h
  simpa using this

/-! An instruction that traps (R320, R369). -/

/-- A reserved operand traps RSV before anything else of the instruction. -/
theorem issue_of_reserved {i : Issue} {body : BitVec 18 → State → PRes} (hr : issues s i.p i.len = true)
    (hrsv : i.rsv = true) : issue i s body = ran i.word i.ext s i.p
      (trapAt s i.p 1 (i.word.setWidth 64) (pilot s i.p).pc false) := by
  obtain ⟨-, -, -, -, hrest⟩ := issues_parts hr
  obtain ⟨-, -, -, -, -, -, hexempt⟩ := restPilot_parts hrest
  rw [issue_ran hr, issue_run hr]
  simp only [runInstr, hrsv, hexempt, Bool.false_eq_true, if_true, if_false]

/-- A privileged instruction at user privilege traps PRIV. -/
theorem issue_of_unprivileged {i : Issue} {body : BitVec 18 → State → PRes} (hr : issues s i.p i.len = true)
    (hrsv : i.rsv = false) (hpriv : i.priv = true) (hguard : (pilot s i.p).sw.guardMet i.g = true)
    (huser : (pilot s i.p).sw.priv = false) : issue i s body = ran i.word i.ext s i.p
      (trapAt s i.p 2 (i.word.setWidth 64) (pilot s i.p).pc false) := by
  obtain ⟨-, -, -, -, hrest⟩ := issues_parts hr
  obtain ⟨-, -, -, -, -, -, hexempt⟩ := restPilot_parts hrest
  rw [issue_ran hr, issue_run hr]
  simp only [runInstr, hrsv, hpriv, hguard, huser, hexempt, Bool.false_eq_true, Bool.not_false, Bool.and_self, if_true,
    if_false]

/-- A trap that the effect of an instruction meets is taken at the instruction. -/
theorem issue_of_trap {i : Issue} {body : BitVec 18 → State → PRes} {code : BitVec 4} {tv : W64} {u : State}
    (hr : issues s i.p i.len = true) (hrsv : i.rsv = false) (hpriv : i.priv = true → (pilot s i.p).sw.priv = true)
    (hguard : (pilot s i.p).sw.guardMet i.g = true)
    (hbody : body (pilot s i.p).pc (atEffect s i.p i.len) = .trap code tv u) :
    issue i s body = ran i.word i.ext s i.p (bodyTrap u i.p code tv (pilot s i.p).pc) := by
  obtain ⟨-, -, -, -, hrest⟩ := issues_parts hr
  obtain ⟨-, -, hloop, -, -, -, hexempt⟩ := restPilot_parts hrest
  have hallowed : (i.priv && !(pilot s i.p).sw.priv) = false := by simpa using hpriv
  rw [issue_ran hr, issue_run hr]
  unfold atEffect stepped at hbody
  simp only [runInstr, hrsv, hallowed, hguard, hloop, hexempt, hbody, Bool.and_true, Bool.and_false, Bool.not_true,
    Bool.false_eq_true, if_false]

/-! The traps of level 5 that the instructions of the statement meet (R369). -/

/-- The same trap, met past the instruction. -/
theorem trapAt_atEffect {len : Nat} {code : BitVec 4} {tv : W64} {pc : BitVec 18} {slot : Bool}
    (hlevel : trapLevel code = 5) (hin : (pilot s p).inReset = false) (hmul : (pilot s p).mulq = [])
    (htrace : untraced s = true) (hmask : (pilot s p).sw.mask < 5) :
    trapAt (atEffect s p len) p code tv pc slot = setPilot s p
      { entered (pilot s p) 5 code 0 false tv pc slot ((pilot s p).trapWorld 5)
          ((pilot s p).trapVec ((pilot s p).trapWorld 5) code) with src := selected s p } := by
  have hsel : selected (atEffect s p len) p = selected s p := by
    unfold selected
    rw [pilot_atEffect]
    rfl
  rw [trapAt_of_unbarred (s := atEffect s p len) hlevel (by rw [pilot_atEffect]; exact hin)
    (by rw [pilot_atEffect]; exact hmul) htrace (by rw [pilot_atEffect]; exact hmask), hsel, pilot_atEffect, atEffect,
    setPilot_setPilot (by exact hin)]
  rfl

/-- A trap that shipped microcode meets, of level 5 and not barred: SLOT is a free bit (log 21). -/
theorem bodyTrap_of_unbarred {len : Nat} {code : BitVec 4} {tv : W64} {pc : BitVec 18} (hlevel : trapLevel code = 5)
    (hin : (pilot s p).inReset = false) (hmul : (pilot s p).mulq = []) (htrace : untraced s = true)
    (hmask : (pilot s p).sw.mask < 5) :
    bodyTrap (atEffect s p len) p code tv pc = setPilot { s with freeCtr := s.freeCtr + 1 } p
      { entered (pilot s p) 5 code 0 false tv pc ((Config.freeWord s.freeCtr).getLsbD 0) ((pilot s p).trapWorld 5)
          ((pilot s p).trapVec ((pilot s p).trapWorld 5) code) with src := selected s p } :=
  trapAt_atEffect (s := { s with freeCtr := s.freeCtr + 1 }) hlevel hin hmul htrace hmask

/-- NOP with an operand field that is not 0 traps RSV. -/
theorem nop_of_reserved {f : RRR} (hr : issues s f.p 1 = true) (hd : f.d ≠ 0) :
    exec (.nop f) s = .next (ran (rrrWord f 0x17 0) 0 s f.p
      (trapAt s f.p 1 ((rrrWord f 0x17 0).setWidth 64) (pilot s f.p).pc false)) := by
  refine congrArg Host.Outcome.next ?_
  unfold rrr
  exact issue_of_reserved (i := ⟨f.p, f.g, 1, rrrWord f 0x17 0, !noOps f, false, false, 0⟩) hr
    (by simp only [noOps, decide_eq_false hd, Bool.false_and, Bool.not_false])

/-- SYNC at user privilege traps PRIV. -/
theorem sync_of_unprivileged {f : RRR} (hr : issues s f.p 1 = true) (hguard : (pilot s f.p).sw.guardMet f.g = true)
    (hops : noOps f = true) (huser : (pilot s f.p).sw.priv = false) :
    exec (.sync f) s = .next (ran (rrrWord f 0x17 1) 0 s f.p
      (trapAt s f.p 2 ((rrrWord f 0x17 1).setWidth 64) (pilot s f.p).pc false)) := by
  refine congrArg Host.Outcome.next ?_
  unfold rrr
  exact issue_of_unprivileged (i := ⟨f.p, f.g, 1, rrrWord f 0x17 1, !noOps f, true, false, 0⟩) hr (by simp [hops]) rfl
    hguard huser

/-- An INT operand before an EMPTY one: the second fails the check of two INT operands (R308, R320). -/
theorem tagFail_int_empty {world : Bool} {a b : TWord} (ha : a.tag = 1) (hb : b.tag = 0) :
    tagFail world [(a, 0, isInt), (b, 1, isInt)] = some 0x10 := by
  simp [tagFail, tagReadable, isInt, tagTv, ha, hb]

/-- MUL with an EMPTY second operand traps TAG. -/
theorem mul_of_empty {f : RRR} (hr : issues s f.p 1 = true) (hguard : (pilot s f.p).sw.guardMet f.g = true)
    (hd : f.d = 0) (hs : isD f.s = true) (ht : isD f.t = true) (ha : ((pilot s f.p).reg f.s).tag = 1)
    (hb : ((pilot s f.p).reg f.t).tag = 0) :
    exec (.mul f) s = .next (ran (rrrWord f 9 0) 0 s f.p
      (bodyTrap (atEffect s f.p 1) f.p 4 0x10 (pilot s f.p).pc)) := by
  refine congrArg Host.Outcome.next ?_
  unfold rrr
  refine issue_of_trap (i := ⟨f.p, f.g, 1, rrrWord f 9 0, !(decide (f.d = 0) && isD f.s && isD f.t), false, false, 0⟩)
    hr (by simp [hd, hs, ht]) (by simp) hguard ?_
  dsimp only
  rw [pilot_atEffect, mulBody, reg_stepped, reg_stepped, tagFail_int_empty ha hb]

end

/-- Settles O13: the traps of the three instructions by `trapAt_of_unbarred`; what a barred trap leaves by the frames of
the entry to level 7 and of the retirement. -/
theorem traps : Obligations.Traps := by
  unfold Obligations.Traps
  refine ⟨?_, ?_⟩
  · intro s f hr hmul htrace hguard hmask
    obtain ⟨-, -, -, -, hrest⟩ := issues_parts hr
    obtain ⟨hin, -⟩ := restPilot_parts hrest
    refine ⟨fun hd => ?_, fun hd hs ht huser => ?_, fun _ hs ht ha hb => ?_⟩
    · rw [nop_of_reserved hr hd, trapAt_of_unbarred rfl hin hmul htrace hmask]
      rfl
    · rw [sync_of_unprivileged hr hguard (by simp [noOps, hd, hs, ht]) huser,
        trapAt_of_unbarred rfl hin hmul htrace hmask]
      rfl
    · rw [mul_of_empty (f := ⟨f.p, f.g, 0, f.s, f.t⟩) hr hguard rfl hs ht ha hb,
        bodyTrap_of_unbarred rfl hin hmul htrace hmask]
      rfl
  · intro s f hr hmul hp hd
    dsimp only
    intro hmask
    refine ⟨_, nop_of_reserved hr hd, fun hlevel => ?_, fun hlevel => ?_⟩
    · obtain ⟨w, n, ht⟩ := pilot_trapAt_of_barred (tv := (rrrWord f 0x17 0).setWidth 64) (pc := (pilot s f.p).pc)
        (slot := false) (code := 1) rfl hmul hmask hlevel
      have hset := setOf_entered (pilot s f.p) 7 1 0 true 0 (pilot s f.p).pc false true ((pilot s f.p).trapVec true 14)
      have hbank := bankOf_setBank_self (entered (pilot s f.p) 7 1 0 true 0 (pilot s f.p).pc false true
        ((pilot s f.p).trapVec true 14)) (pilot s f.p).cur
      rw [ht]
      exact ⟨rfl, rfl, rfl, rfl, congrArg SaveSet.spc hset, congrArg SaveSet.scx hset, congrArg SaveSet.tv hset,
        congrArg SaveSet.ssw hset, congrArg SaveSet.tc hset, congrArg Bank.regs (hbank _), congrArg Bank.x (hbank _),
        congrArg Bank.rcache (hbank _), congrArg Bank.act (hbank _),
        fun _ _ => claim_trapAt_of_barred rfl hmask hlevel⟩
    · rw [trapAt, takeTrap_of_barred_at_seven rfl hmask hlevel, pilot_srcSwitch, pilot_retire (Nat.ne_of_lt hp)]
      refine ⟨rfl, rfl, rfl, rfl, fun k c h => ?_⟩
      rw [srcOf, evc_srcSwitch] at h
      exact claim_retire (Nat.ne_of_lt hp) h

end Sys2Proof.Machine
end

section
/-! RTE where the event sources are not a canonical table (R376, R452). -/

namespace Sys2Proof.Machine

/-- A pilot in a handler of level 5, which it entered from level 3. -/
def returningPilot : Pilot :=
  { inReset := false, pc := 0x100, sw := { world := true, priv := true, level := 5, mask := 5 }
    sets := [(5, { ssw := { level := 3, mask := 4 }, tc := { clevel := 3, cmask := 4 } })] }

/-- A block whose pilot 0 is about to return, and holds source 0x300, which the table of sources lists twice. -/
def claimedAndListedTwice : State :=
  { State.reset with
    blk := { mode := 3 }, pilots := [(0, returningPilot)]
    evc := { src := [(0x300, { claim := some ⟨0, 0, 5⟩ }), (0x300, { en := true })] } }

/-- The return releases the claim; the entry, now that of a source at reset, leaves the table and bares the second. -/
theorem en_released_claimedAndListedTwice (t : State) (h : t.evc = claimedAndListedTwice.evc) :
    (srcOf (releaseClaims t (fun _ k => decide (k.pilot = 0) && decide (k.level = 5))) 0x300).en = true := by
  simp only [srcOf, releaseClaims, h]
  decide

/-- Refutes O12: the statement has a released source keep everything but its claim in every state, also where the table of
sources is not canonical, of which `Sound` says nothing. That of `claimedAndListedTwice`, which no command builds, lists
source 0x300 twice, and the source reads as the second entry once the first has left. -/
theorem not_gatesAndReturns : ¬ Obligations.GatesAndReturns := by
  unfold Obligations.GatesAndReturns
  rintro ⟨-, hreturn⟩
  obtain ⟨-, hsources⟩ := hreturn claimedAndListedTwice ⟨0, 0, 0, 0, 0⟩ 0 (by decide) rfl rfl rfl rfl (by decide) (by decide)
    rfl (by decide) rfl (by decide) (by decide) (by decide) (by decide) (by decide) (by decide)
  have hen := en_released_claimedAndListedTwice _ rfl
  exact absurd ((congrArg Src.en (hsources 0x300)).symm.trans hen) (by decide)

end Sys2Proof.Machine
end

section
/-! RELTAKE while the landward port holds release writes (R463). -/

namespace Sys2Proof.Machine

/-- A block whose release queue is full, while the landward port holds one more release write, a RESUME of the exchange
with tag 7 on ring 3. -/
def heldRelease : State :=
  { State.reset with
    blk := { mode := 3 }, rings := [(3, { en := true })], own := [(9, { st := 2, ring := 3, xtag := 7 })]
    evc := { relq := List.replicate 1024 ⟨3, 1, 5⟩, relHold := [⟨3, 0x40000007⟩] }
    pilots := [(0, { inReset := false, pc := 0x100, sw := { world := true, priv := true } })] }

/-- The release writes that the landward port holds after a command. -/
def heldAfter (o : Out) : List RelHold :=
  match o with
  | .next t => t.evc.relHold
  | _ => []

/-- The take makes room, and the port passes its release write on. -/
theorem heldAfter_reltake_heldRelease : heldAfter (exec (.reltake ⟨0, 0, 0, 0⟩) heldRelease) = [] := by decide +kernel

/-- Refutes O18: the statement has RELTAKE take the oldest release write and leave everything else, but while the queue is
full the landward port holds further release writes (R463), and the model passes them on as soon as there is room. The
port of `heldRelease` holds none after the take, where the statement keeps its one. -/
theorem not_events : ¬ Obligations.Events := by
  unfold Obligations.Events
  rintro ⟨-, -, htake, -⟩
  have hsaid := congrArg heldAfter (htake heldRelease ⟨0, 0, 0, 0⟩ ⟨3, 1, 5⟩ (List.replicate 1023 ⟨3, 1, 5⟩) (by decide +kernel)
    rfl rfl rfl rfl)
  rw [heldAfter_reltake_heldRelease] at hsaid
  exact absurd hsaid (by decide +kernel)

end Sys2Proof.Machine
end
